-- ==== Sys2Proof/Word.lean ====
section
/-! DEFINITION. The machine word and its plainest arithmetic (R3, R53): 64-bit registers and addresses, bytes,
register numbers as they stand in an instruction word, and the sign extension of a field. -/

namespace Sys2Proof

/-- A 64-bit scalar register, address or instruction word (R53, R69). -/
abbrev Word := BitVec 64
/-- A byte of memory or of the link pool (R3). -/
abbrev Byte := BitVec 8
/-- An x register number (R69). -/
abbrev XReg := BitVec 5
/-- A chain register number (R69). -/
abbrev VReg := BitVec 5
/-- A mask register number (R69). -/
abbrev MReg := BitVec 3
/-- An element-type tag (Table 03-6). -/
abbrev Tag := BitVec 4

/-- A field read as two's complement and widened to a word. -/
abbrev sext (b : BitVec n) : Word := b.signExtend 64
/-- A field read as unsigned and widened to a word. -/
abbrev zext (b : BitVec n) : Word := b.zeroExtend 64
/-- A Bool as a word: 1 for true. -/
def ofBit (b : Bool) : Word := if b then 1 else 0

end Sys2Proof
end

