-- ==== Sys2Proof/Machine/Flags.lean ====
section
/-! DEFINITION. Number formats and rounding (R201 to R219), with the sticky flags each operation raises (R214). An element is the
natural number its bits spell; an exact value is a sign, a magnitude and a power of two, so nothing is rounded before the one
rounding the manual names. -/

namespace Sys2Proof.Machine

/-- The sticky flags (Table 10-4). -/
abbrev Flags := BitVec 6
abbrev fNX : Flags := 0x01
abbrev fUF : Flags := 0x02
abbrev fOF : Flags := 0x04
abbrev fDZ : Flags := 0x08
abbrev fNV : Flags := 0x10
abbrev fWRAP : Flags := 0x20

/-- Rounding modes (Table 03-5). -/
abbrev rmRNE : BitVec 3 := 0
abbrev rmRTZ : BitVec 3 := 1
abbrev rmRDN : BitVec 3 := 2
abbrev rmRUP : BitVec 3 := 3
abbrev rmRNA : BitVec 3 := 4
abbrev rmROD : BitVec 3 := 5

/-- Whether a format's top exponent holds infinities and NaNs, one NaN (e4m3), or neither (e2m1) (Table 10-1). -/
inductive Special where | ieee | e4m3 | e2m1
  deriving DecidableEq, Repr

/-- A floating format (Table 10-1): width, fraction bits, exponent of the smallest normal value, code of the largest finite value,
canonical NaN. -/
structure Fmt where
  w : Nat
  frac : Nat
  emin : Int
  big : Nat
  canon : Nat
  special : Special
  deriving DecidableEq, Repr

def fmtF64 : Fmt := ⟨64, 52, -1022, 0x7FEF_FFFF_FFFF_FFFF, 0x7FF8_0000_0000_0000, .ieee⟩
def fmtF32 : Fmt := ⟨32, 23, -126, 0x7F7F_FFFF, 0x7FC0_0000, .ieee⟩
def fmtF16 : Fmt := ⟨16, 10, -14, 0x7BFF, 0x7E00, .ieee⟩
def fmtBf16 : Fmt := ⟨16, 7, -126, 0x7F7F, 0x7FC0, .ieee⟩
def fmtE5m2 : Fmt := ⟨8, 2, -14, 0x7B, 0x7E, .ieee⟩
def fmtE4m3 : Fmt := ⟨8, 3, -6, 0x7E, 0x7F, .e4m3⟩
def fmtE2m1 : Fmt := ⟨4, 1, 0, 0x7, 0, .e2m1⟩

/-- The floating format of a tag (Table 03-6). -/
def fmtOf (t : Tag) : Option Fmt :=
  match t.toNat with
  | 9 => some fmtE2m1
  | 10 => some fmtE4m3
  | 11 => some fmtE5m2
  | 12 => some fmtBf16
  | 13 => some fmtF16
  | 14 => some fmtF32
  | 15 => some fmtF64
  | _ => none

/-- The format an FMT field names (Table 03-5). -/
def fmtOfField (f : BitVec 2) : Fmt :=
  match f.toNat with
  | 0 => fmtF64
  | 1 => fmtF32
  | 2 => fmtF16
  | _ => fmtBf16

/-- Element width in bits by tag (R201, Table 10-1). -/
def tagWidth (t : Tag) : Nat :=
  match t.toNat with
  | 1 => 8 | 2 => 16 | 3 => 32 | 4 => 64
  | 5 => 8 | 6 => 16 | 7 => 32 | 8 => 64
  | 9 => 4 | 10 => 8 | 11 => 8 | 12 => 16 | 13 => 16 | 14 => 32 | 15 => 64
  | _ => 0

/-- Signed and unsigned integer tags, floating tags (Table 03-6). -/
def isSigned (t : Tag) : Bool := decide (1 ≤ t.toNat ∧ t.toNat ≤ 4)
def isUnsigned (t : Tag) : Bool := decide (5 ≤ t.toNat ∧ t.toNat ≤ 8)
def isIntTag (t : Tag) : Bool := decide (1 ≤ t.toNat ∧ t.toNat ≤ 8)
def isFloatTag (t : Tag) : Bool := decide (9 ≤ t.toNat)

/-- An exact value: a NaN (signalling or not), an infinity, or (-1)^neg * m * 2^e with signed zeros. -/
inductive Num where
  | nan (sig : Bool)
  | inf (neg : Bool)
  | fin (neg : Bool) (m : Nat) (e : Int)
  deriving DecidableEq, Repr

/-- The value of a code (R203, R204, R207). -/
def Fmt.decode (f : Fmt) (b : Nat) : Num :=
  let neg := b / 2 ^ (f.w - 1) % 2 == 1
  let mag := b % 2 ^ (f.w - 1)
  if f.big < mag then
    match f.special with
    | .ieee => if mag = f.big + 1 then .inf neg else .nan (mag / 2 ^ (f.frac - 1) % 2 == 0)
    | _ => .nan false
  else
    let e := mag / 2 ^ f.frac
    let m := mag % 2 ^ f.frac
    if e = 0 then .fin neg m (f.emin - f.frac) else .fin neg (2 ^ f.frac + m) (f.emin - f.frac + (e - 1 : Nat))

/-- The sign bit of a code, set or clear. -/
def Fmt.signBit (f : Fmt) (neg : Bool) : Nat := if neg then 2 ^ (f.w - 1) else 0

/-- An infinity delivered in a format: its own, the canonical NaN of e4m3 (which carries no sign), 6.0 of e2m1 (R212). -/
def Fmt.infCode (f : Fmt) (neg : Bool) : Nat :=
  match f.special with
  | .ieee => f.big + 1 + f.signBit neg
  | .e4m3 => f.canon
  | .e2m1 => f.big + f.signBit neg

/-- Overflow (R212, Table 10-3). The table is for a positive value; a negative one takes the same magnitude with the sign set
(log 15). A saturating conversion takes the largest finite value (Table 10-6). -/
def Fmt.overflow (f : Fmt) (rm : BitVec 3) (sat neg : Bool) : Nat × Flags :=
  let toInf := rm == rmRNE || rm == rmRNA || rm == rmRUP
  (if toInf && !sat then f.infCode neg else f.big + f.signBit neg, fOF ||| fNX)

/-- `round` (R211) of the magnitude m * 2^e, plus something below one unit of 2^e when `sticky`, with a sign. The caller gives m
enough bits that a sticky value has at least two bits below the format's spacing. -/
def Fmt.round (f : Fmt) (rm : BitVec 3) (sat neg : Bool) (m : Nat) (e : Int) (sticky : Bool) : Nat × Flags :=
  if m = 0 ∧ !sticky then (f.signBit neg, 0)
  else
    let l : Int := (Nat.log2 m : Int) + e
    let ex := max l f.emin
    let sh : Int := ex - f.frac - e
    let lo := if 0 ≤ sh then m / 2 ^ sh.toNat else m * 2 ^ (-sh).toNat
    let rem := if 0 < sh then m % 2 ^ sh.toNat else 0
    let half := if 0 < sh then 2 ^ (sh.toNat - 1) else 1
    let inexact := rem ≠ 0 ∨ sticky
    let odd := lo % 2 = 1
    let up : Bool := decide inexact && (
      if rm = rmRNE then decide (half < rem ∨ rem = half ∧ (sticky ∨ odd))
      else if rm = rmRNA then decide (half ≤ rem)
      else if rm = rmRDN then neg
      else if rm = rmRUP then !neg
      else if rm = rmROD then !decide odd
      else false)
    let k := if up then lo + 1 else lo
    let code := (ex - f.emin).toNat * 2 ^ f.frac + k
    if f.big < code then f.overflow rm sat neg
    else (code + f.signBit neg,
      (if inexact then fNX else 0) ||| (if inexact ∧ l < f.emin then fUF else 0))

/-- A value delivered as an arithmetic result (R207, R211, R212). -/
def Fmt.deliver (f : Fmt) (rm : BitVec 3) : Num → Nat × Flags
  | .nan _ => (f.canon, 0)
  | .inf neg => (f.infCode neg, 0)
  | .fin neg m e => f.round rm false neg m e false

/-- The flag of NaN inputs: NV when one of them is signalling (R208). -/
def Num.isNan : Num → Bool | .nan _ => true | _ => false
def Num.isSig : Num → Bool | .nan s => s | _ => false
def nvOf (l : List Num) : Flags := if l.any Num.isSig then fNV else 0
/-- The sign of a value that is not a NaN. -/
def Num.sign : Num → Bool | .nan _ => false | .inf n => n | .fin n _ _ => n
def Num.isZero : Num → Bool | .fin _ 0 _ => true | _ => false
/-- The value with its sign changed. -/
def Num.neg : Num → Num | .nan s => .nan s | .inf n => .inf (!n) | .fin n m e => .fin (!n) m e

/-- A signed magnitude as an integer. -/
def signedNat (neg : Bool) (m : Nat) : Int := if neg then -(m : Int) else m

/-- The exact sum of two finite values; an exact zero is +0, or -0 under RDN, and two zeros of one sign keep it (R210). -/
def addFin (rm : BitVec 3) (n1 : Bool) (m1 : Nat) (e1 : Int) (n2 : Bool) (m2 : Nat) (e2 : Int) : Num :=
  let e := min e1 e2
  let t := signedNat n1 (m1 * 2 ^ (e1 - e).toNat) + signedNat n2 (m2 * 2 ^ (e2 - e).toNat)
  if t = 0 then (if m1 = 0 ∧ m2 = 0 ∧ n1 = n2 then .fin n1 0 0 else .fin (rm == rmRDN) 0 0)
  else .fin (decide (t < 0)) t.natAbs e

/-- An exact sum with its invalid case (R208). -/
def Num.add (rm : BitVec 3) : Num → Num → Num × Flags
  | .nan _, _ => (.nan false, 0)
  | _, .nan _ => (.nan false, 0)
  | .inf a, .inf b => if a = b then (.inf a, 0) else (.nan false, fNV)
  | .inf a, _ => (.inf a, 0)
  | _, .inf b => (.inf b, 0)
  | .fin n1 m1 e1, .fin n2 m2 e2 => (addFin rm n1 m1 e1 n2 m2 e2, 0)

/-- An exact product with its invalid case (R208). -/
def Num.mul : Num → Num → Num × Flags
  | .nan _, _ => (.nan false, 0)
  | _, .nan _ => (.nan false, 0)
  | .inf a, .inf b => (.inf (a != b), 0)
  | .inf a, .fin n m _ => if m = 0 then (.nan false, fNV) else (.inf (a != n), 0)
  | .fin n m _, .inf b => if m = 0 then (.nan false, fNV) else (.inf (n != b), 0)
  | .fin n1 m1 e1, .fin n2 m2 e2 => (.fin (n1 != n2) (m1 * m2) (e1 + e2), 0)

/-- Addition and multiplication in a format (R207 to R212). -/
def Fmt.add (f : Fmt) (rm : BitVec 3) (a b : Nat) : Nat × Flags :=
  let x := f.decode a; let y := f.decode b
  let s := Num.add rm x y
  let r := f.deliver rm s.1
  (r.1, r.2 ||| s.2 ||| nvOf [x, y])
def Fmt.neg (f : Fmt) (a : Nat) : Nat := (a + 2 ^ (f.w - 1)) % 2 ^ f.w
def Fmt.sub (f : Fmt) (rm : BitVec 3) (a b : Nat) : Nat × Flags := f.add rm a (f.neg b)
def Fmt.mul (f : Fmt) (rm : BitVec 3) (a b : Nat) : Nat × Flags :=
  let x := f.decode a; let y := f.decode b
  let s := Num.mul x y
  let r := f.deliver rm s.1
  (r.1, r.2 ||| s.2 ||| nvOf [x, y])

/-- a * b + c rounded once (R225). -/
def Fmt.fma (f : Fmt) (rm : BitVec 3) (a b c : Nat) : Nat × Flags :=
  let x := f.decode a; let y := f.decode b; let z := f.decode c
  let p := Num.mul x y
  let s := Num.add rm p.1 z
  let r := f.deliver rm s.1
  (r.1, r.2 ||| p.2 ||| s.2 ||| nvOf [x, y, z])

/-- Division (R208, R211; a finite nonzero value by zero sets DZ, Table 10-4). -/
def Fmt.div (f : Fmt) (rm : BitVec 3) (a b : Nat) : Nat × Flags :=
  let x := f.decode a; let y := f.decode b
  match x, y with
  | .nan _, _ => (f.canon, nvOf [x, y])
  | _, .nan _ => (f.canon, nvOf [x, y])
  | .inf _, .inf _ => (f.canon, fNV)
  | .inf n, .fin k _ _ => (f.infCode (n != k), 0)
  | .fin n _ _, .inf k => (f.signBit (n != k), 0)
  | .fin n m e, .fin k d g =>
    if d = 0 then (if m = 0 then (f.canon, fNV) else (f.infCode (n != k), fDZ))
    else
      let sc := 70 + Nat.log2 d
      let q := m * 2 ^ sc / d
      f.round rm false (n != k) q (e - g - sc) (decide (m * 2 ^ sc % d ≠ 0))

/-- The integer square root, bit by bit from bit n down. -/
def isqrtFrom (v : Nat) : Nat → Nat → Nat
  | 0, r => r
  | n + 1, r => let c := r + 2 ^ n; isqrtFrom v n (if c * c ≤ v then c else r)
def isqrt (v : Nat) : Nat := isqrtFrom v (Nat.log2 v / 2 + 1) 0

/-- Square root (R208, R211; the root of -0 is -0, Table 15-4). -/
def Fmt.sqrt (f : Fmt) (rm : BitVec 3) (a : Nat) : Nat × Flags :=
  let x := f.decode a
  match x with
  | .nan _ => (f.canon, nvOf [x])
  | .inf true => (f.canon, fNV)
  | .inf false => (f.infCode false, 0)
  | .fin n m e =>
    if m = 0 then (f.signBit n, 0)
    else if n then (f.canon, fNV)
    else
      let p : Nat := 140 + (e % 2).toNat
      let v := m * 2 ^ p
      let r := isqrt v
      f.round rm false false r ((e - p) / 2) (decide (r * r ≠ v))

/-- Ordering of values that are not NaN; zeros compare equal (R208). -/
def Num.lt : Num → Num → Bool
  | .inf a, .inf b => a && !b
  | .inf a, _ => a
  | _, .inf b => !b
  | .fin n1 m1 e1, .fin n2 m2 e2 =>
    let e := min e1 e2
    decide (signedNat n1 (m1 * 2 ^ (e1 - e).toNat) < signedNat n2 (m2 * 2 ^ (e2 - e).toNat))
  | _, _ => false
def Num.eq (a b : Num) : Bool := !a.isNan && !b.isNan && !a.lt b && !b.lt a

/-- Comparisons (R208): equality and the unordered test set NV for a signalling NaN, ordered ones for any NaN. -/
inductive Cmp where | eq | ne | lt | le | gt | ge | un
  deriving DecidableEq, Repr
def Num.cmp (c : Cmp) (x y : Num) : Bool × Flags :=
  let un := x.isNan || y.isNan
  let quiet := nvOf [x, y]
  let loud := if un then fNV else 0
  match c with
  | .eq => (!un && x.eq y, quiet)
  | .ne => (un || !x.eq y, quiet)
  | .un => (un, quiet)
  | .lt => (!un && x.lt y, loud)
  | .le => (!un && !y.lt x, loud)
  | .gt => (!un && y.lt x, loud)
  | .ge => (!un && !x.lt y, loud)

/-- Minimum and maximum (R209): -0 below +0, the other operand of one NaN, the canonical NaN of two. -/
def Fmt.minmax (f : Fmt) (max : Bool) (a b : Nat) : Nat × Flags :=
  let x := f.decode a; let y := f.decode b
  let nv := nvOf [x, y]
  if x.isNan && y.isNan then (f.canon, nv)
  else if x.isNan then (b, nv)
  else if y.isNan then (a, nv)
  else
    let less := x.lt y || (x.eq y && x.sign && !y.sign)
    (if less == max then b else a, nv)

/-- The range of an integer tag. -/
def intMin (t : Tag) : Int := if isSigned t then -(2 ^ (tagWidth t - 1) : Nat) else 0
def intMax (t : Tag) : Int := if isSigned t then (2 ^ (tagWidth t - 1) : Nat) - 1 else (2 ^ tagWidth t : Nat) - 1
/-- The integer an element's bits stand for (R201). -/
def intOf (t : Tag) (b : Nat) : Int :=
  let v := b % 2 ^ tagWidth t
  if isSigned t && decide (2 ^ (tagWidth t - 1) ≤ v) then (v : Int) - (2 ^ tagWidth t : Nat) else v
/-- The bits of an integer modulo 2^w. -/
def bitsOf (w : Nat) (v : Int) : Nat := (v % (2 ^ w : Nat)).toNat
/-- An integer result: modulo 2^w with WRAP when it does not fit (R202). -/
def intWrap (t : Tag) (v : Int) : Nat × Flags :=
  (bitsOf (tagWidth t) v, if v < intMin t ∨ intMax t < v then fWRAP else 0)
/-- An integer result clamped to the tag's range, with WRAP when clamped (R202). -/
def intClamp (t : Tag) (v : Int) : Nat × Flags :=
  if v < intMin t then (bitsOf (tagWidth t) (intMin t), fWRAP)
  else if intMax t < v then (bitsOf (tagWidth t) (intMax t), fWRAP)
  else (bitsOf (tagWidth t) v, 0)

/-- A finite value rounded to an integer by a mode; whether it was inexact (R219). -/
def roundInt (rm : BitVec 3) (neg : Bool) (m : Nat) (e : Int) : Int × Bool :=
  if 0 ≤ e then (signedNat neg (m * 2 ^ e.toNat), false)
  else
    let d := 2 ^ (-e).toNat
    let lo := m / d
    let rem := m % d
    let up : Bool := decide (rem ≠ 0) && (
      if rm = rmRNE then decide (d < 2 * rem ∨ 2 * rem = d ∧ lo % 2 = 1)
      else if rm = rmRNA then decide (d ≤ 2 * rem)
      else if rm = rmRDN then neg
      else if rm = rmRUP then !neg
      else if rm = rmROD then decide (lo % 2 = 0)
      else false)
    (signedNat neg (if up then lo + 1 else lo), decide (rem ≠ 0))

/-- A floating value to an integer tag (R219, Table 10-6). -/
def floatToInt (t : Tag) (rm : BitVec 3) (x : Num) : Nat × Flags :=
  let w := tagWidth t
  match x with
  | .nan _ => (0, fNV)
  | .inf n => (bitsOf w (if n then intMin t else intMax t), fNV)
  | .fin n m e =>
    let r := roundInt rm n m e
    if r.1 < intMin t then (bitsOf w (intMin t), fNV)
    else if intMax t < r.1 then (bitsOf w (intMax t), fNV)
    else (bitsOf w r.1, if r.2 then fNX else 0)

/-- An integer to a floating format (R219). -/
def intToFloat (f : Fmt) (rm : BitVec 3) (sat : Bool) (v : Int) : Nat × Flags := f.round rm sat (decide (v < 0)) v.natAbs 0 false

/-- A floating value to a floating format (R217, R218). -/
def floatToFloat (f : Fmt) (rm : BitVec 3) (sat : Bool) (x : Num) : Nat × Flags :=
  match x with
  | .nan s => if f.special = .e2m1 then (0, fNV) else (f.canon, if s then fNV else 0)
  | .inf n =>
    if sat then (f.big + f.signBit n, fOF)
    else (f.infCode n, if f.special = .ieee then 0 else fNV)
  | .fin n m e => f.round rm sat n m e false

/-- An element of one tag converted to another (R217 to R219). -/
def convert (src dst : Tag) (rm : BitVec 3) (sat : Bool) (b : Nat) : Nat × Flags :=
  match fmtOf src, fmtOf dst with
  | some f, some g => floatToFloat g rm sat (f.decode b)
  | some f, none => floatToInt dst rm (f.decode b)
  | none, some g => intToFloat g rm sat (intOf src b)
  | none, none => if sat then intClamp dst (intOf src b) else intWrap dst (intOf src b)

end Sys2Proof.Machine
end

