-- ==== Sys2Proof/Config.lean ====
section
/-! DEFINITION. What one implementation fixes and the values the manual leaves open. Every constant below is opaque: nothing
in Lean can evaluate it, so what is proved of the model holds whatever its value is. Each is named in the assumption log. -/

namespace Sys2Proof.Config

/-- The node number the device answers to (R307 `nodeid`, R386 NODE): no reset value is given (log 3). -/
opaque nodeId : BitVec 16
/-- DEVID.STEP, the stepping of the part (R386): not given (log 3). -/
opaque stepping : BitVec 8
/-- Which of n possible next movers the device takes at this tick (R279, R282, R288, R325): not fixed (log 6). -/
opaque pick : Nat → Nat → Nat
/-- The clocks that pass in a step beyond the first (Tables 01-5, 05-7, 06-6, 07-3, 08-10, 09-2, 15-1: timing) (log 7). -/
opaque extraClocks : Nat → Nat
/-- Whether a cached translation, walker entry or instruction line that no longer agrees with memory has been dropped (R56, R89) (log 8). -/
opaque cacheForgets : Nat → Bool
/-- How far inside its error bound an f32 or f64 special-function result lies (R228): function code, tag, magnitude (log 9). -/
opaque specialSlack : Nat → Nat → Nat → Nat
/-- The value of another node's bytes in a reply (R86, R363): node, space, offset, tick (log 10). -/
opaque remoteByte : Nat → Nat → Nat → Nat → Byte
/-- What another node finds when it checks an access (R86, R363), modulo 5: 0 nothing against it, 1 no translation, 2 no right, 3 a poisoned table
entry, 4 that the attributes of its page refuse it: node, space, offset, tick (log 10). -/
opaque remoteCause : Nat → Nat → Nat → Nat → Nat
/-- Whether a sector of another node is poisoned (R79, R363): node, space, offset of the sector, tick (log 10). -/
opaque remotePoisoned : Nat → Nat → Nat → Nat → Bool
/-- The region that another node's controller holds an entry for and that covers an offset (R98, R101, R104): its size above 16, and modulo 4 the
right of an agent over it, 3 when no entry covers the offset: space, offset, agent, tick (log 10). -/
opaque remoteRegion : Nat → Nat → Nat → Nat → Nat × Nat
/-- Whether a hart of another node is live (R113, Table 05-5): agent, tick; and what another node's key controller answers (log 10). -/
opaque remoteLive : Nat → Nat → Bool
opaque remoteAnswer : Nat → Nat
/-- The next state of a core's recompute generator (R248): taps and seed are not given (log 11). -/
opaque recomputeNext : BitVec 32 → BitVec 32
/-- Which of n elements the generator chooses (R248) (log 11). -/
opaque recomputeChoice : BitVec 32 → Nat → Nat
/-- Whether the board's firmware image bears a good signature with a permitted key index (R366 step 1) (log 12). -/
opaque signatureGood : List Byte → Nat → Bool
/-- The key index of a firmware image (R366 step 1) (log 12). -/
opaque keyIndex : List Byte → Nat
/-- The SHAKE256 digest of the image (R366 step 2) and the words of the attestation report (R367) (log 12). -/
opaque measurement : List Byte → BitVec 256
/-- The words of a signature over the words of a report and the one-time-key index (R367), and which word of the report stands at an
offset of the attestation window (Table 18-3 gives no finer layout) (log 12). -/
opaque signatureWord : Nat → List Word → Word
opaque reportAt : Nat → Nat
/-- Which counter of Table 18-1 stands at an offset of the counter window, and which snapshot value at an offset of the snapshot
window (Table 18-3 gives no finer layout) (log 13). -/
opaque counterAt : Nat → Option Nat
opaque snapshotAt : Nat → Option Nat
/-- Whether an agent performs the read of an 8-byte unit ahead of its place in program order at this tick: hart slot, vector agent,
key; and whether a read uses what was so read (R282) (log 23). -/
opaque earlyRead : Nat → Option (Nat × Bool × Nat)
opaque useEarly : Nat → Bool
/-- Whether a hart's copy engine reads an 8-byte word of its source ahead of the row it lies in (R141) (log 23): tick, and the hart slot and key. -/
opaque earlyRow : Nat → Option (Nat × Nat)
/-- Whether a hart's next word has been fetched and its unit is free, so that it is ready to issue (R325) (log 6): hart slot, tick. -/
opaque ready : Nat → Nat → Bool
/-- Whether a cause raised by a member of a convoy has reached the hart before it issues its next word (R344) (log 26): tick. -/
opaque causeRaised : Nat → Bool
/-- Whether a port has delivered a good flit since its last replay (R363) (log 51): port, tick. -/
opaque goodFlit : Nat → Nat → Bool
/-- Whether the reads of a vector load that issues at this tick are performed later, after words of its convoy that follow it (R282) (log 23): tick. -/
opaque loadHeld : Nat → Bool
/-- A value the manual leaves open, fresh for each tick (log 4). -/
opaque freeWord : Nat → Word

end Sys2Proof.Config
end

