-- ==== Sys2Proof/Syntax.lean ====
section
/-! DEFINITION. The instructions of the Kormen set and the steps of the device that the opcode table lists.
The first 250 constructors are the instructions of Table 03-7, one 64-bit word each (R53); their arguments are the fields
the description of the instruction uses (R71), in the order of its assembly form. The hinge bit H is no part of them (R58).
The 67 constructors after them are the rows of the opcode table that have no word: steps that the engines, the sequencer, the
memory side, the device controller or the outside take. Their arguments name the hart slot (core * 8 + slot), the gang, the
ticket or the unit that the step is about, and the data an input brings. -/

namespace Sys2Proof

/-- The operations of the atomics of major 0x29 (R291), as a request of another node names them. -/
inductive AtomOp where
  | add | min | max | minn | maxn | and | or | xor | swap | cas
  | fadd (rm : BitVec 3)
  | fmax | ld | st
  deriving DecidableEq, Repr

/-- The key instructions (Table 05-11), with the target agent where there is one. -/
inductive KeyOp where
  | acq
  | lend (to_ : BitVec 32)
  | share (to_ : BitVec 32)
  | ret | drop | unshare | split | merge | query
  | recover (to_ : BitVec 32)
  | clean
  deriving DecidableEq, Repr

/-- What a request of another node asks of this one (R86, R111, R113, R363): a read of n bytes, a write, an element of a scatter-add
or of a drain's maximum, an atomic of 8 or 4 bytes with its operands, a key request on 2^size bytes, the step 5 of a transfer that it
was granted (R108), and the upper half of a split region that its controller hands over or takes back (`ksplit`, `kmerge`); that the agent exits
(R114), that the core of some agents, each with its context, has failed (R116), and the word of a controller that homes a region elsewhere for this
node's cores to drop the rights and lines of one share holder (R115), or the rights of every agent (R106). -/
inductive FabricOp where
  | read (n : Nat)
  | write (data : List (BitVec 8))
  | add (t : BitVec 4) (data : List (BitVec 8))
  | fmax (t : BitVec 4) (data : List (BitVec 8))
  | atomic (op : AtomOp) (w : Bool) (v c : BitVec 64)
  | key (op : KeyOp) (size : Nat) (task : BitVec 16)
  | keyDone (op : KeyOp) (size : Nat)
  | halfPut (size : Nat) (lender : BitVec 32) (poison : Bool)
  | halfTake (size : Nat) (lender : BitVec 32)
  | exits
  | coreFails (who : List (BitVec 16 × BitVec 32))
  | dropShare (size : Nat)
  | purge (size : Nat)
  deriving DecidableEq, Repr

/-- One row of the opcode table each. -/
inductive Instr where
  /-- R300. Writes xa + xb modulo 2^64 to xd. -/
  | add (xd xa xb : BitVec 5)
  /-- R300. Writes xa − xb modulo 2^64 to xd. -/
  | sub (xd xa xb : BitVec 5)
  /-- R300. Writes the low 64 bits of xa × xb to xd. -/
  | mul (xd xa xb : BitVec 5)
  /-- R300. Writes the high 64 bits of the signed 128-bit product. -/
  | mulh (xd xa xb : BitVec 5)
  /-- R300. Writes the high 64 bits of the unsigned 128-bit product. -/
  | mulhn (xd xa xb : BitVec 5)
  /-- R300. Writes the signed quotient truncated toward zero, with fixed results for a zero divisor and for overflow. -/
  | div (xd xa xb : BitVec 5)
  /-- R300. Writes the unsigned quotient, all ones for a zero divisor. -/
  | divn (xd xa xb : BitVec 5)
  /-- R300. Writes the signed remainder with the sign of xa. -/
  | rem (xd xa xb : BitVec 5)
  /-- R300. Writes the unsigned remainder, xa for a zero divisor. -/
  | remn (xd xa xb : BitVec 5)
  /-- R300. Writes xa AND xb. -/
  | and (xd xa xb : BitVec 5)
  /-- R300. Writes xa OR xb. -/
  | or (xd xa xb : BitVec 5)
  /-- R300. Writes xa XOR xb. -/
  | xor (xd xa xb : BitVec 5)
  /-- R300. Writes xa AND NOT xb. -/
  | andn (xd xa xb : BitVec 5)
  /-- R300. Shifts xa left by xb[5:0]. -/
  | shl (xd xa xb : BitVec 5)
  /-- R300. Shifts xa right by xb[5:0], filling with zeros. -/
  | shr (xd xa xb : BitVec 5)
  /-- R300. Shifts xa right by xb[5:0], filling with bit 63. -/
  | sra (xd xa xb : BitVec 5)
  /-- R300. Rotates xa left by xb[5:0]. -/
  | rotl (xd xa xb : BitVec 5)
  /-- R300. Rotates xa right by xb[5:0]. -/
  | rotr (xd xa xb : BitVec 5)
  /-- R300. Writes the smaller operand, compared signed. -/
  | min (xd xa xb : BitVec 5)
  /-- R300. Writes the larger operand, compared signed. -/
  | max (xd xa xb : BitVec 5)
  /-- R300. Writes the smaller operand, compared unsigned. -/
  | minn (xd xa xb : BitVec 5)
  /-- R300. Writes the larger operand, compared unsigned. -/
  | maxn (xd xa xb : BitVec 5)
  /-- R300. Writes 1 when xa < xb signed, else 0. -/
  | slt (xd xa xb : BitVec 5)
  /-- R300. Writes 1 when xa < xb unsigned, else 0. -/
  | sltn (xd xa xb : BitVec 5)
  /-- R300. Writes 1 when xa equals xb, else 0. -/
  | seq (xd xa xb : BitVec 5)
  /-- R300. Writes the count of leading zero bits of xa. -/
  | clz (xd xa : BitVec 5)
  /-- R300. Writes the count of trailing zero bits of xa. -/
  | ctz (xd xa : BitVec 5)
  /-- R300. Writes the count of set bits of xa. -/
  | popc (xd xa : BitVec 5)
  /-- R300. Writes the eight bytes of xa in reverse order. -/
  | bswap (xd xa : BitVec 5)
  /-- R300. Sign-extends xa from bit xb[5:0]. -/
  | sext (xd xa xb : BitVec 5)
  /-- R300. Zero-extends xa above bit xb[5:0]. -/
  | zext (xd xa xb : BitVec 5)
  /-- R300. Writes xa when xc is nonzero, else xb. -/
  | sel (xd xa xb xc : BitVec 5)
  /-- R301. Writes xa plus the sign-extended immediate. -/
  | addi (xd xa : BitVec 5) (imm : BitVec 32)
  /-- R301. Writes xa AND the zero-extended immediate. -/
  | andi (xd xa : BitVec 5) (imm : BitVec 32)
  /-- R301. Writes xa OR the zero-extended immediate. -/
  | ori (xd xa : BitVec 5) (imm : BitVec 32)
  /-- R301. Writes xa XOR the zero-extended immediate. -/
  | xori (xd xa : BitVec 5) (imm : BitVec 32)
  /-- R301. Shifts xa left by the immediate amount. -/
  | shli (xd xa : BitVec 5) (imm : BitVec 32)
  /-- R301. Shifts xa right by the immediate amount, filling with zeros. -/
  | shri (xd xa : BitVec 5) (imm : BitVec 32)
  /-- R301. Shifts xa right by the immediate amount, filling with bit 63. -/
  | srai (xd xa : BitVec 5) (imm : BitVec 32)
  /-- R301. Writes 1 when xa is below the sign-extended immediate, compared signed. -/
  | slti (xd xa : BitVec 5) (imm : BitVec 32)
  /-- R301. Writes 1 when xa is below the sign-extended immediate, compared unsigned. -/
  | sltni (xd xa : BitVec 5) (imm : BitVec 32)
  /-- R301. Writes 1 when xa equals the sign-extended immediate. -/
  | seqi (xd xa : BitVec 5) (imm : BitVec 32)
  /-- R301. Writes the low 64 bits of xa times the sign-extended immediate. -/
  | muli (xd xa : BitVec 5) (imm : BitVec 32)
  /-- R301. Writes the sign-extended immediate to xd. -/
  | ldi (xd : BitVec 5) (imm : BitVec 32)
  /-- R301. Replaces bits [63:32] of xd with the immediate and keeps bits [31:0]. -/
  | ldhi (xd : BitVec 5) (imm : BitVec 32)
  /-- R301. Writes the instruction's address plus the sign-extended immediate. -/
  | pcadd (xd : BitVec 5) (imm : BitVec 32)
  /-- R304. Loads n bytes through the scalar L1 and sign-extends them into xd. -/
  | ld (xd xa : BitVec 5) (asr w : BitVec 2) (imm : BitVec 32)
  /-- R304. Loads n bytes through the scalar L1 and zero-extends them into xd. -/
  | ldn (xd xa : BitVec 5) (asr w : BitVec 2) (imm : BitVec 32)
  /-- R304. Stores the low n bytes of xs as one write. -/
  | st (xs xa : BitVec 5) (asr w : BitVec 2) (imm : BitVec 32)
  /-- R305. Branches when xa equals xb. -/
  | beq (xa xb : BitVec 5) (off : BitVec 40)
  /-- R305. Branches when xa differs from xb. -/
  | bne (xa xb : BitVec 5) (off : BitVec 40)
  /-- R305. Branches when xa < xb, compared signed. -/
  | blt (xa xb : BitVec 5) (off : BitVec 40)
  /-- R305. Branches when xa >= xb, compared signed. -/
  | bge (xa xb : BitVec 5) (off : BitVec 40)
  /-- R305. Branches when xa < xb, compared unsigned. -/
  | bltn (xa xb : BitVec 5) (off : BitVec 40)
  /-- R305. Branches when xa >= xb, compared unsigned. -/
  | bgen (xa xb : BitVec 5) (off : BitVec 40)
  /-- R305. Writes pc + 8 to xd and jumps by a word offset. -/
  | jal (xd : BitVec 5) (off : BitVec 43)
  /-- R305. Jumps to xa plus an offset and writes pc + 8 to xd, trapping on a misaligned target. -/
  | jalr (xd xa : BitVec 5) (off : BitVec 43)
  /-- R306. Scalar floating add, rounded by RM. -/
  | fadd (xd xa xb : BitVec 5) (rm : BitVec 3) (fmt : BitVec 2)
  /-- R306. Scalar floating subtract, rounded by RM. -/
  | fsub (xd xa xb : BitVec 5) (rm : BitVec 3) (fmt : BitVec 2)
  /-- R306. Scalar floating multiply, rounded by RM. -/
  | fmul (xd xa xb : BitVec 5) (rm : BitVec 3) (fmt : BitVec 2)
  /-- R306. Scalar floating divide, rounded by RM. -/
  | fdiv (xd xa xb : BitVec 5) (rm : BitVec 3) (fmt : BitVec 2)
  /-- R306. Scalar floating square root, rounded by RM. -/
  | fsqrt (xd xa : BitVec 5) (rm : BitVec 3) (fmt : BitVec 2)
  /-- R306. Scalar fused xa × xb + xc with one rounding. -/
  | fma (xd xa xb xc : BitVec 5) (rm : BitVec 3) (fmt : BitVec 2)
  /-- R306. Scalar fused xa × xb − xc with one rounding. -/
  | fms (xd xa xb xc : BitVec 5) (rm : BitVec 3) (fmt : BitVec 2)
  /-- R306. Scalar fused xc − xa × xb with one rounding. -/
  | fnma (xd xa xb xc : BitVec 5) (rm : BitVec 3) (fmt : BitVec 2)
  /-- R306. Scalar floating minimum by R209. -/
  | fmin (xd xa xb : BitVec 5) (fmt : BitVec 2)
  /-- R306. Scalar floating maximum by R209. -/
  | fmax (xd xa xb : BitVec 5) (fmt : BitVec 2)
  /-- R306. Scalar floating equality compare writing 1 or 0. -/
  | feq (xd xa xb : BitVec 5) (fmt : BitVec 2)
  /-- R306. Scalar floating less-than compare writing 1 or 0. -/
  | flt (xd xa xb : BitVec 5) (fmt : BitVec 2)
  /-- R306. Scalar floating less-or-equal compare writing 1 or 0. -/
  | fle (xd xa xb : BitVec 5) (fmt : BitVec 2)
  /-- R306. Converts a scalar float to an integer tag, rounded by RM and clamped. -/
  | fcvtfi (xd xa tc : BitVec 5) (rm : BitVec 3) (fmt : BitVec 2)
  /-- R306. Converts an integer of a given tag to the float format FMT. -/
  | fcvtif (xd xa tc : BitVec 5) (rm : BitVec 3) (fmt : BitVec 2)
  /-- R306. Converts between scalar float formats. -/
  | fcvtff (xd xa tc : BitVec 5) (rm : BitVec 3) (fmt : BitVec 2)
  /-- R306. Writes the class code of a scalar float. -/
  | fclass (xd xa : BitVec 5) (fmt : BitVec 2)
  /-- R306. Writes xa's magnitude bits with a sign chosen by the mode. -/
  | fsgn (xd xa xb md : BitVec 5) (fmt : BitVec 2)
  /-- R308. Reads a state register into xd. -/
  | csrr (xd : BitVec 5) (csr : BitVec 10)
  /-- R308. Writes xa into a state register and returns the old value. -/
  | csrw (xd xa : BitVec 5) (csr : BitVec 10)
  /-- R308. Sets the bits of xa in a state register and returns the old value. -/
  | csrs (xd xa : BitVec 5) (csr : BitVec 10)
  /-- R308. Clears the bits of xa in a state register and returns the old value. -/
  | csrc (xd xa : BitVec 5) (csr : BitVec 10)
  /-- R93. Drops the selected TLB, walker and instruction-cache entries within REACH, optionally writes back L1 lines, and waits for accesses through the dropped entries. -/
  | tlbinv (xa xb xc : BitVec 5)
  /-- R237. Element-wise add of va and vb. -/
  | vadd (vd va vb xl : BitVec 5) (msk : BitVec 3) (z : Bool) (rm : BitVec 3) (s : Bool)
  /-- R237. Element-wise a − b. -/
  | vsub (vd va vb xl : BitVec 5) (msk : BitVec 3) (z : Bool) (rm : BitVec 3) (s : Bool)
  /-- R237. Element-wise b − a. -/
  | vrsub (vd va vb xl : BitVec 5) (msk : BitVec 3) (z : Bool) (rm : BitVec 3) (s : Bool)
  /-- R237. Element-wise multiply. -/
  | vmul (vd va vb xl : BitVec 5) (msk : BitVec 3) (z : Bool) (rm : BitVec 3) (s : Bool)
  /-- R237. Element-wise high half of the exact integer product. -/
  | vmulh (vd va vb xl : BitVec 5) (msk : BitVec 3) (z s : Bool)
  /-- R238. Element-wise divide, with fixed integer results for a zero divisor and overflow. -/
  | vdiv (vd va vb xl : BitVec 5) (msk : BitVec 3) (z : Bool) (rm : BitVec 3) (s : Bool)
  /-- R238. Element-wise remainder. -/
  | vrem (vd va vb xl : BitVec 5) (msk : BitVec 3) (z : Bool) (rm : BitVec 3) (s : Bool)
  /-- R237. Element-wise fused a × b + c. -/
  | vfma (vd va vb vc xl : BitVec 5) (msk : BitVec 3) (z : Bool) (rm : BitVec 3) (s : Bool)
  /-- R237. Element-wise fused a × b − c. -/
  | vfms (vd va vb vc xl : BitVec 5) (msk : BitVec 3) (z : Bool) (rm : BitVec 3) (s : Bool)
  /-- R237. Element-wise fused c − a × b. -/
  | vfnma (vd va vb vc xl : BitVec 5) (msk : BitVec 3) (z : Bool) (rm : BitVec 3) (s : Bool)
  /-- R237. Element-wise minimum. -/
  | vmin (vd va vb xl : BitVec 5) (msk : BitVec 3) (z s : Bool)
  /-- R237. Element-wise maximum. -/
  | vmax (vd va vb xl : BitVec 5) (msk : BitVec 3) (z s : Bool)
  /-- R237. Element-wise absolute value. -/
  | vabs (vd va xl : BitVec 5) (msk : BitVec 3) (z : Bool)
  /-- R237. Element-wise negation. -/
  | vneg (vd va xl : BitVec 5) (msk : BitVec 3) (z : Bool)
  /-- R237. Element-wise square root. -/
  | vsqrt (vd va xl : BitVec 5) (msk : BitVec 3) (z : Bool) (rm : BitVec 3)
  /-- R237. Element-wise AND. -/
  | vand (vd va vb xl : BitVec 5) (msk : BitVec 3) (z s : Bool)
  /-- R237. Element-wise OR. -/
  | vor (vd va vb xl : BitVec 5) (msk : BitVec 3) (z s : Bool)
  /-- R237. Element-wise XOR. -/
  | vxor (vd va vb xl : BitVec 5) (msk : BitVec 3) (z s : Bool)
  /-- R237. Element-wise a AND NOT b. -/
  | vandn (vd va vb xl : BitVec 5) (msk : BitVec 3) (z s : Bool)
  /-- R239. Element-wise shift left. -/
  | vshl (vd va vb xl : BitVec 5) (msk : BitVec 3) (z s : Bool)
  /-- R239. Element-wise logical shift right. -/
  | vshr (vd va vb xl : BitVec 5) (msk : BitVec 3) (z s : Bool)
  /-- R239. Element-wise arithmetic shift right. -/
  | vsra (vd va vb xl : BitVec 5) (msk : BitVec 3) (z s : Bool)
  /-- R237. Element-wise saturating add. -/
  | vaddsat (vd va vb xl : BitVec 5) (msk : BitVec 3) (z s : Bool)
  /-- R237. Element-wise saturating subtract. -/
  | vsubsat (vd va vb xl : BitVec 5) (msk : BitVec 3) (z s : Bool)
  /-- R237. Element-wise leading zero count. -/
  | vclz (vd va xl : BitVec 5) (msk : BitVec 3) (z : Bool)
  /-- R237. Element-wise set-bit count. -/
  | vpopc (vd va xl : BitVec 5) (msk : BitVec 3) (z : Bool)
  /-- R240. Sums groups of adjacent products into wider elements plus c. -/
  | vdot (vd va vb vc xl : BitVec 5) (msk : BitVec 3) (z : Bool) (rm : BitVec 3)
  /-- R241. Element-wise floating class code. -/
  | vclass (vd va xl : BitVec 5) (msk : BitVec 3) (z : Bool)
  /-- R237. Element-wise magnitude of a with the sign of b. -/
  | vcopysign (vd va vb xl : BitVec 5) (msk : BitVec 3) (z s : Bool)
  /-- R237. Copies elements bit for bit. -/
  | vmov (vd va xl : BitVec 5) (msk : BitVec 3) (z : Bool)
  /-- R237. Fills a chain with a scalar value. -/
  | vsplat (vd xb xl : BitVec 5) (msk : BitVec 3) (z : Bool) (ot : BitVec 4)
  /-- R237. Writes element indices. -/
  | vid (vd xl : BitVec 5) (msk : BitVec 3) (z : Bool) (ot : BitVec 4)
  /-- R242. Writes mask bits for a == b. -/
  | vcmpeq (md : BitVec 3) (va vb xl : BitVec 5) (msk : BitVec 3) (z s : Bool)
  /-- R242. Writes mask bits for a != b. -/
  | vcmpne (md : BitVec 3) (va vb xl : BitVec 5) (msk : BitVec 3) (z s : Bool)
  /-- R242. Writes mask bits for a < b. -/
  | vcmplt (md : BitVec 3) (va vb xl : BitVec 5) (msk : BitVec 3) (z s : Bool)
  /-- R242. Writes mask bits for a <= b. -/
  | vcmple (md : BitVec 3) (va vb xl : BitVec 5) (msk : BitVec 3) (z s : Bool)
  /-- R242. Writes mask bits for a > b. -/
  | vcmpgt (md : BitVec 3) (va vb xl : BitVec 5) (msk : BitVec 3) (z s : Bool)
  /-- R242. Writes mask bits for a >= b. -/
  | vcmpge (md : BitVec 3) (va vb xl : BitVec 5) (msk : BitVec 3) (z s : Bool)
  /-- R242. Writes mask bits where a or b is a NaN. -/
  | vcmpun (md : BitVec 3) (va vb xl : BitVec 5) (msk : BitVec 3) (z s : Bool)
  /-- R242. Mask AND. -/
  | mand (md ma mb : BitVec 3) (xl : BitVec 5)
  /-- R242. Mask OR. -/
  | mor (md ma mb : BitVec 3) (xl : BitVec 5)
  /-- R242. Mask XOR. -/
  | mxor (md ma mb : BitVec 3) (xl : BitVec 5)
  /-- R242. Mask AND NOT. -/
  | mandn (md ma mb : BitVec 3) (xl : BitVec 5)
  /-- R242. Mask NOT. -/
  | mnot (md ma : BitVec 3) (xl : BitVec 5)
  /-- R242. Sets mask bits below vl. -/
  | mset (md : BitVec 3) (xl : BitVec 5)
  /-- R242. Clears all 8192 mask bits. -/
  | mclr (md : BitVec 3)
  /-- R242. Counts set mask bits below vl into xd. -/
  | mpopc (xd : BitVec 5) (ma : BitVec 3) (xl : BitVec 5)
  /-- R242. Writes the lowest set mask bit below vl, or all ones. -/
  | mfirst (xd : BitVec 5) (ma : BitVec 3) (xl : BitVec 5)
  /-- R242. Sets mask bits for nonzero chain elements. -/
  | mfromv (md : BitVec 3) (va xl : BitVec 5) (msk : BitVec 3) (z : Bool)
  /-- R242. Writes a chain of 1 or 0 from mask bits. -/
  | mtov (vd : BitVec 5) (ma : BitVec 3) (xl : BitVec 5) (msk : BitVec 3) (z : Bool) (ot : BitVec 4)
  /-- R244. Converts elements to the OT tag, non-saturating. -/
  | vcvt (vd va xl : BitVec 5) (msk : BitVec 3) (z : Bool) (rm : BitVec 3) (ot : BitVec 4)
  /-- R244. Converts elements to the OT tag, saturating. -/
  | vcvtsat (vd va xl : BitVec 5) (msk : BitVec 3) (z : Bool) (rm : BitVec 3) (ot : BitVec 4)
  /-- R245. Converts to MX blocks, writing elements and a scale chain. -/
  | vcvtmx (vd va vsc xl : BitVec 5) (rm : BitVec 3) (ot : BitVec 4)
  /-- R246. Converts MX-scaled elements to a wide float tag. -/
  | vcvtfrommx (vd va vb xl : BitVec 5) (msk : BitVec 3) (z : Bool) (rm : BitVec 3) (ot : BitVec 4)
  /-- R244. Rounds floats to integral values of their own format. -/
  | vround (vd va xl : BitVec 5) (msk : BitVec 3) (z : Bool) (rm : BitVec 3)
  /-- R247. Element-wise 2^x. -/
  | vexp2 (vd va xl : BitVec 5) (msk : BitVec 3) (z : Bool) (rm : BitVec 3)
  /-- R247. Element-wise e^x. -/
  | vexp (vd va xl : BitVec 5) (msk : BitVec 3) (z : Bool) (rm : BitVec 3)
  /-- R247. Element-wise log2 x. -/
  | vlog2 (vd va xl : BitVec 5) (msk : BitVec 3) (z : Bool) (rm : BitVec 3)
  /-- R247. Element-wise reciprocal. -/
  | vrcp (vd va xl : BitVec 5) (msk : BitVec 3) (z : Bool) (rm : BitVec 3)
  /-- R247. Element-wise reciprocal square root. -/
  | vrsqrt (vd va xl : BitVec 5) (msk : BitVec 3) (z : Bool) (rm : BitVec 3)
  /-- R247. Element-wise sine. -/
  | vsin (vd va xl : BitVec 5) (msk : BitVec 3) (z : Bool) (rm : BitVec 3)
  /-- R247. Element-wise cosine. -/
  | vcos (vd va xl : BitVec 5) (msk : BitVec 3) (z : Bool) (rm : BitVec 3)
  /-- R247. Element-wise hyperbolic tangent. -/
  | vtanh (vd va xl : BitVec 5) (msk : BitVec 3) (z : Bool) (rm : BitVec 3)
  /-- R247. Element-wise logistic sigmoid. -/
  | vsigmoid (vd va xl : BitVec 5) (msk : BitVec 3) (z : Bool) (rm : BitVec 3)
  /-- R254. Sums active elements by the pairwise tree into xd. -/
  | vredsum (xd va xl : BitVec 5) (msk rm : BitVec 3)
  /-- R254. Reduces active elements to their maximum in xd. -/
  | vredmax (xd va xl : BitVec 5) (msk : BitVec 3)
  /-- R254. Reduces active elements to their minimum in xd. -/
  | vredmin (xd va xl : BitVec 5) (msk : BitVec 3)
  /-- R254. Reduces active elements by AND into xd. -/
  | vredand (xd va xl : BitVec 5) (msk : BitVec 3)
  /-- R254. Reduces active elements by OR into xd. -/
  | vredor (xd va xl : BitVec 5) (msk : BitVec 3)
  /-- R255. Inclusive running sum. -/
  | vscan (vd va xl : BitVec 5) (msk : BitVec 3) (z : Bool) (rm : BitVec 3)
  /-- R255. Exclusive running sum. -/
  | vscanx (vd va xl : BitVec 5) (msk : BitVec 3) (z : Bool) (rm : BitVec 3)
  /-- R255. Inclusive running maximum. -/
  | vscanmax (vd va xl : BitVec 5) (msk : BitVec 3) (z : Bool)
  /-- R256. Packs active elements into a dense chain. -/
  | vcompress (vd va xl : BitVec 5) (msk : BitVec 3)
  /-- R256. Unpacks elements into active positions. -/
  | vexpand (vd va vb xl : BitVec 5) (msk : BitVec 3) (z : Bool)
  /-- R257. Shifts elements toward higher indices. -/
  | vslideup (vd va xb vc xl : BitVec 5) (c : Bool)
  /-- R257. Shifts elements toward lower indices. -/
  | vslidedn (vd va xb vc xl : BitVec 5) (c : Bool)
  /-- R258. Permutes elements by an index chain. -/
  | vperm (vd va vb xl : BitVec 5)
  /-- R258. Reverses the first vl elements. -/
  | vrev (vd va xl : BitVec 5)
  /-- R259. Interleaves two chains. -/
  | vzip (vd va vb xl : BitVec 5)
  /-- R259. Splits even and odd elements into two chains. -/
  | vunzip (vd ve va xl : BitVec 5)
  /-- R261. Sums each segment. -/
  | vsegsum (vd va vb xl : BitVec 5) (msk rm : BitVec 3)
  /-- R261. Running sum restarted at each segment. -/
  | vsegscan (vd va vb xl : BitVec 5) (msk : BitVec 3) (z : Bool) (rm : BitVec 3)
  /-- R261. Maximum of each segment. -/
  | vsegmax (vd va vb xl : BitVec 5) (msk : BitVec 3)
  /-- R261. Minimum of each segment. -/
  | vsegmin (vd va vb xl : BitVec 5) (msk : BitVec 3)
  /-- R262. Merges two rank-word lists into the best k. -/
  | vmergek (vd va vb xl : BitVec 5)
  /-- R263. Sorts rank words descending within blocks. -/
  | vsortk (vd va xl : BitVec 5) (blk : BitVec 4)
  /-- R264. Marks the first active occurrence of each value. -/
  | vconflict (md : BitVec 3) (va xl : BitVec 5) (msk : BitVec 3)
  /-- R198. Loads contiguous elements into a fresh chain. -/
  | vld (vd xa xl : BitVec 5) (msk : BitVec 3) (asr : BitVec 2) (t : BitVec 4) (imm : BitVec 16)
  /-- R198. Loads strided elements into a fresh chain. -/
  | vlds (vd xa xb xl : BitVec 5) (msk : BitVec 3) (asr : BitVec 2) (t : BitVec 4) (imm : BitVec 16)
  /-- R198. Gathers elements by an index chain. -/
  | vldx (vd xa vi xl : BitVec 5) (msk : BitVec 3) (asr : BitVec 2) (t : BitVec 4)
  /-- R199. Stores elements contiguously. -/
  | vst (vs xa xl : BitVec 5) (msk : BitVec 3) (asr : BitVec 2) (t : BitVec 4) (imm : BitVec 16)
  /-- R199. Stores elements with a stride. -/
  | vsts (vs xa xb xl : BitVec 5) (msk : BitVec 3) (asr : BitVec 2) (t : BitVec 4) (imm : BitVec 16)
  /-- R199. Scatters elements by an index chain. -/
  | vstx (vs xa vi xl : BitVec 5) (msk : BitVec 3) (asr : BitVec 2) (t : BitVec 4)
  /-- R200. Scatter-adds elements atomically at home or bank. -/
  | vstxadd (vs xa vi xl : BitVec 5) (msk : BitVec 3) (asr : BitVec 2) (scope : BitVec 3) (t : BitVec 4)
  /-- R162. Makes a zeroed chain of n elements. -/
  | cnew (vd xa : BitVec 5) (t : BitVec 4)
  /-- R171. Releases a chain. -/
  | cfree (vd : BitVec 5)
  /-- R160. Gives a second register the same chain. -/
  | cshare (vd va : BitVec 5)
  /-- R174. Prepends one chain to another by span arithmetic. -/
  | cprep (vd va vb : BitVec 5)
  /-- R174. Inserts one chain at an element position. -/
  | csplice (vd va vb xa : BitVec 5)
  /-- R174. Cuts a chain in two at an element. -/
  | csplit (vd ve va xa : BitVec 5)
  /-- R174. Drops leading elements. -/
  | ctrimh (vd va xa : BitVec 5)
  /-- R174. Drops trailing elements. -/
  | ctrimt (vd va xa : BitVec 5)
  /-- R174. Keeps a run of elements. -/
  | cslice (vd va xa xb : BitVec 5)
  /-- R174. Reinterprets a chain's bits under another tag. -/
  | cretag (vd va : BitVec 5) (t : BitVec 4)
  /-- R174. Reads a chain's element count. -/
  | clen (xd va : BitVec 5)
  /-- R174. Reads a descriptor word or the storage summary. -/
  | cinfo (xd va : BitVec 5) (imm : BitVec 19)
  /-- R174. Copies a chain into fresh aligned storage. -/
  | cflat (vd va : BitVec 5)
  /-- R178. Makes a chain exclusive in place. -/
  | cpriv (vd va : BitVec 5)
  /-- R174. Reads the pool state word. -/
  | cpoolst (xd : BitVec 5)
  /-- R172. Waits for the reclaimer and returns released links to the free list. -/
  | cwait
  /-- R274. Requests, reshapes or releases an accumulator tile. -/
  | zmode (zd : BitVec 3) (xk : BitVec 5)
  /-- R272. Clears a tile and its check column. -/
  | zzero (zd : BitVec 3)
  /-- R275. Accumulates K outer products into a tile. -/
  | zop (zd : BitVec 3) (va vb xk : BitVec 5) (rm : BitVec 3)
  /-- R275. Accumulates K MX-scaled outer products into a tile. -/
  | zopmx (zd : BitVec 3) (va vb xk : BitVec 5) (rm : BitVec 3) (vsa vsb : BitVec 5)
  /-- R272. Writes tile rows from a chain and sets their check rows. -/
  | zload (zd : BitVec 3) (va xk xs : BitVec 5)
  /-- R276. Drains tile rows into a chain with conversion, scale and an absolute-maximum update. -/
  | zdrain (zd : BitVec 3) (vd xk xs : BitVec 5) (rm : BitVec 3) (ot : BitVec 4)
  /-- R272. Copies a tile row or the check column into a chain. -/
  | zrow (zd : BitVec 3) (vd xs : BitVec 5)
  /-- R277. Compares each tile row with its check row into a mask. -/
  | zchk (zd md : BitVec 3) (xs : BitVec 5)
  /-- R103. Acquires a region's key from home. -/
  | kacq (xd xa xb : BitVec 5) (asr : BitVec 2) (imm : BitVec 20)
  /-- R108. Lends an owned key to another live hart. -/
  | klend (xd xa xb xc : BitVec 5) (asr : BitVec 2) (imm : BitVec 20)
  /-- R108. Grants a read share of an owned key. -/
  | kshare (xd xa xb xc : BitVec 5) (asr : BitVec 2) (imm : BitVec 20)
  /-- R108. Returns a key to its lender or to HOME, writing back dirty lines. -/
  | kret (xd xa xb : BitVec 5) (asr : BitVec 2) (imm : BitVec 20)
  /-- R108. Gives back a read share. -/
  | kunshare (xd xa xb : BitVec 5) (asr : BitVec 2) (imm : BitVec 20)
  /-- R103. Splits an owned key into two halves. -/
  | ksplit (xd xa xb : BitVec 5) (asr : BitVec 2) (imm : BitVec 20)
  /-- R103. Joins two owned buddy keys. -/
  | kmerge (xd xa xb : BitVec 5) (asr : BitVec 2) (imm : BitVec 20)
  /-- R108. Returns a key, discarding dirty lines. -/
  | kdrop (xd xa xb : BitVec 5) (asr : BitVec 2) (imm : BitVec 20)
  /-- R101. Reads the key state covering an address. -/
  | kquery (xd xa : BitVec 5) (asr : BitVec 2) (imm : BitVec 20)
  /-- R117. Re-seats an orphaned key to a new owner or HOME. -/
  | krecover (xd xa xb xc : BitVec 5) (asr : BitVec 2) (imm : BitVec 20)
  /-- R103. Clears a region's POISON flag or frees a poisoned HOME entry. -/
  | kclean (xd xa xb : BitVec 5) (asr : BitVec 2) (imm : BitVec 20)
  /-- R291. Atomic add at home, returning the old value. -/
  | aadd (xd xa xb : BitVec 5) (asr : BitVec 2) (scope ord : BitVec 3) (w : Bool) (off : BitVec 19)
  /-- R291. Atomic signed minimum. -/
  | amin (xd xa xb : BitVec 5) (asr : BitVec 2) (scope ord : BitVec 3) (w : Bool) (off : BitVec 19)
  /-- R291. Atomic signed maximum. -/
  | amax (xd xa xb : BitVec 5) (asr : BitVec 2) (scope ord : BitVec 3) (w : Bool) (off : BitVec 19)
  /-- R291. Atomic unsigned minimum. -/
  | aminn (xd xa xb : BitVec 5) (asr : BitVec 2) (scope ord : BitVec 3) (w : Bool) (off : BitVec 19)
  /-- R291. Atomic unsigned maximum. -/
  | amaxn (xd xa xb : BitVec 5) (asr : BitVec 2) (scope ord : BitVec 3) (w : Bool) (off : BitVec 19)
  /-- R291. Atomic AND. -/
  | aand (xd xa xb : BitVec 5) (asr : BitVec 2) (scope ord : BitVec 3) (w : Bool) (off : BitVec 19)
  /-- R291. Atomic OR. -/
  | aor (xd xa xb : BitVec 5) (asr : BitVec 2) (scope ord : BitVec 3) (w : Bool) (off : BitVec 19)
  /-- R291. Atomic XOR. -/
  | axor (xd xa xb : BitVec 5) (asr : BitVec 2) (scope ord : BitVec 3) (w : Bool) (off : BitVec 19)
  /-- R291. Atomic swap. -/
  | aswap (xd xa xb : BitVec 5) (asr : BitVec 2) (scope ord : BitVec 3) (w : Bool) (off : BitVec 19)
  /-- R291. Atomic compare-and-swap. -/
  | acas (xd xa xb xc : BitVec 5) (asr : BitVec 2) (scope ord : BitVec 3) (w : Bool) (off : BitVec 19)
  /-- R291. Atomic floating add rounded by RM. -/
  | afadd (xd xa xb : BitVec 5) (rm : BitVec 3) (asr : BitVec 2) (scope ord : BitVec 3) (w : Bool) (off : BitVec 19)
  /-- R291. Atomic floating maximum by R209. -/
  | afmax (xd xa xb : BitVec 5) (asr : BitVec 2) (scope ord : BitVec 3) (w : Bool) (off : BitVec 19)
  /-- R291. Atomic load at home. -/
  | ald (xd xa : BitVec 5) (asr : BitVec 2) (scope ord : BitVec 3) (w : Bool) (off : BitVec 19)
  /-- R291. Atomic store at home. -/
  | ast (xa xb : BitVec 5) (asr : BitVec 2) (scope ord : BitVec 3) (w : Bool) (off : BitVec 19)
  /-- R292. Orders scalar before vector and engine accesses, writing back dirty L1 lines. -/
  | fenceSv (xa xb : BitVec 5) (asr : BitVec 2) (scope : BitVec 3) (imm : BitVec 20)
  /-- R292. Orders vector before scalar accesses. -/
  | fenceVs (scope : BitVec 3)
  /-- R292. Orders vector before later vector and engine accesses. -/
  | fenceVv (scope : BitVec 3)
  /-- R292. Orders all accesses, writes back the L1, waits for engine commands and drops the instruction cache. -/
  | fenceAll (xa xb : BitVec 5) (asr : BitVec 2) (scope : BitVec 3) (imm : BitVec 20)
  /-- R294. Arrives at the gang barrier and waits for the phase. -/
  | gbar (xd : BitVec 5)
  /-- R294. Arrives at the gang barrier. -/
  | gbarin
  /-- R294. Waits for the phase of the last arrival. -/
  | gbarwt (xd : BitVec 5)
  /-- R296. Waits until a location differs from xb or a time limit passes. -/
  | await (xd xa xb xc : BitVec 5) (asr : BitVec 2) (scope ord : BitVec 3) (w : Bool) (off : BitVec 19)
  /-- R145. Issues a rectangle copy command under a ticket. -/
  | ecopy (xd xa xb xc : BitVec 5) (asr : BitVec 2) (imm : BitVec 20)
  /-- R147. Issues a copy from memory into a new chain under a ticket. -/
  | ecopyc (vd xa xb xl : BitVec 5) (asr : BitVec 2) (t : BitVec 4) (imm : BitVec 16)
  /-- R145. Issues a multicast copy into local stores of the cluster. -/
  | ecast (xd xa xb xc : BitVec 5) (asr : BitVec 2) (imm : BitVec 20)
  /-- R145. Issues a sliding-window copy of source rows. -/
  | ewin (xd xa xb xc : BitVec 5) (asr : BitVec 2) (imm : BitVec 20)
  /-- R149. Collects and frees finished tickets, trapping on a faulted one. -/
  | ewait (xd xa : BitVec 5)
  /-- R151. Reads a ticket's status or fault offset, or frees it. -/
  | estat (xd xa : BitVec 5) (imm : BitVec 20)
  /-- R129. Issues a selection of qualifying elements in index order. -/
  | qsel (xd xa xb xc : BitVec 5) (asr : BitVec 2) (imm : BitVec 20)
  /-- R129. Issues a selection of the k best qualifying elements. -/
  | qtopk (xd xa xb xc : BitVec 5) (asr : BitVec 2) (imm : BitVec 20)
  /-- R129. Issues a count of qualifying elements. -/
  | qcount (xd xa xb xc : BitVec 5) (asr : BitVec 2) (imm : BitVec 20)
  /-- R331. Requests lane groups and sets the vector length. -/
  | setvl (xd xa xb : BitVec 5)
  /-- R332. Gives up every lane group. -/
  | vrel
  /-- R333. Steps aside from issue or waits n clocks. -/
  | yield (xa : BitVec 5)
  /-- R334. Ends the hart with an exit code. -/
  | exit (xa : BitVec 5)
  /-- R335. Enqueues a launch packet from a hart. -/
  | launch (xd xa xb : BitVec 5) (asr : BitVec 2) (imm : BitVec 20)
  /-- R352. Returns from a trap or delegated handler, resuming from a record or tpc. -/
  | trapret
  /-- R353. Traps to Guesk with cause 0x10. -/
  | ecall (imm : BitVec 20)
  /-- R353. Traps with cause 0x11. -/
  | ebreak (imm : BitVec 20)
  /-- R354. Writes the hart's user state to its save area. -/
  | hsave (xd xa : BitVec 5)
  /-- R355. Replaces the hart's user state from its save area. -/
  | hload (xd xa : BitVec 5)
  /-- R140. The copy engine probes and writes one row of a command and sets its completion-mask bit. -/
  | engineRow (hart : Nat)
  /-- R147. The copy engine writes elements of an ecopyc destination chain. -/
  | ecopycTransfer (hart count : Nat)
  /-- R145. Marks a copy-engine command's ticket done after its last write. -/
  | copyCommandComplete (hart : Nat)
  /-- R123. An engine probes and scans its part of a selection extent into a partial result. -/
  | selectionScan (hart ticket stack : Nat)
  /-- R121. The first stack merges partial results, writes the result area and marks the ticket done. -/
  | selectionMerge (hart ticket : Nat)
  /-- R171. The reclaimer walks a queued spine, lowering link counts and marking freed links pending return. -/
  | reclaimSpine (core : Nat)
  /-- R279. A handed-off write or far atomic is performed at its home or bank. -/
  | writePerformed (k : Nat)
  /-- R108. A transfer's waits and sweeps end and the keyring entry is updated. -/
  | keyTransferComplete (hart : Nat)
  /-- R93. tlbinv completes when every access through dropped translations is performed. -/
  | tlbinvComplete (hart : Nat)
  /-- R292. A fence completes once its write-backs and waits are performed. -/
  | fenceComplete (hart : Nat)
  /-- R296. A write performed to the awaited line wakes the waiter to re-read it. -/
  | awaitWake (hart : Nat)
  /-- R296. The await time limit xc expires and the instruction returns. -/
  | awaitTimeout (hart : Nat)
  /-- R333. A sleeping yield's n clocks elapse and the hart runs again. -/
  | yieldExpiry (hart : Nat)
  /-- R195. A cluster packet requesting local-store elements arrives at its destination core. -/
  | gatherRequest (k : Nat)
  /-- R195. A cluster packet returning gathered values is placed at its element indices. -/
  | gatherReply (k : Nat)
  /-- R195. A cluster packet of scatter elements is applied at the destination banks. -/
  | scatter (k : Nat)
  /-- R195. A cluster packet of scatter-add elements is added atomically at the destination banks. -/
  | scatterAdd (k : Nat)
  /-- R313. A write of a queue's TAIL makes a new packet available to the sequencer. -/
  | launchDoorbell (who queue tail : Nat)
  /-- R316. The sequencer takes a queue's head packet into its launch table when there is room. -/
  | launchPacketAdmit (queue : Nat)
  /-- R316. A launch becomes READY once its dependence words reach their thresholds. -/
  | launchReady (k : Nat)
  /-- R317. Each millisecond a waiting launch's effective priority rises toward 6. -/
  | priorityAging (k : Nat)
  /-- R321. The sequencer places the first waiting gang on qualifying cores of one cluster. -/
  | gangPlacement
  /-- R322. A placed hart's state is written and it starts at ENTRY. -/
  | hartStart (hart : Nat)
  /-- R351. An evicted gang is placed again and its saved state, links and tiles restored. -/
  | gangRestore
  /-- R326. A requested suspension stops a hart at its next hinge. -/
  | suspension (hart : Nat)
  /-- R329. A suspended hart is resumed and re-executes from tpc. -/
  | hartResume (hart : Nat)
  /-- R328. Guesk terminates a hart, which exits with code 0xFFFF_FFFF. -/
  | hartTerminate (hart : Nat)
  /-- R327. Writes a suspended gang's members to their save areas. -/
  | eviction (gang : Nat)
  /-- R327. The save completes and the slots, lane groups, tiles and quotas are freed. -/
  | evictionComplete (gang : Nat)
  /-- R328. An exiting hart's releases complete and its slot becomes FREE. -/
  | hartExitComplete (hart : Nat)
  /-- R324. A hart still owing lane groups 16,384 clocks after its entitlement fell is pre-empted and evicted. -/
  | laneDebtTimeout (hart : Nat)
  /-- R338. A pending host interrupt, timer or pre-emption is taken at a hinge. -/
  | interruptTaken (hart : Nat)
  /-- R339. A write of a hart slot's HIP raise word makes a host interrupt pending. -/
  | hipRaise (who hart : Nat)
  /-- R339. time passes a hart's deadline and TIP is set. -/
  | timerExpiry (hart : Nat)
  /-- R346. Clearing tstatus.RR discards the trap record and releases its kept chains. -/
  | trapRecordDiscard (hart : Nat)
  /-- R95. A write of STATE = 1 to a frame-indirection entry starts copying its frame. -/
  | frameCopyStart (stack index src dst : Nat)
  /-- R95. A frame copy ends and the controller sets STATE = 2, redirecting FROM to TO. -/
  | frameCopyEnd (stack index : Nat)
  /-- R95. A write of STATE = 0 frees a frame-indirection entry. -/
  | frameEntryFree (stack index : Nat)
  /-- R362. Claims the empty management seat for the requester. -/
  | seatClaim (node : Nat)
  /-- R362. The holder offers the seat to TARGET. -/
  | seatOffer (node target : Nat)
  /-- R362. The offered node takes the seat. -/
  | seatAccept (node : Nat)
  /-- R362. The holder empties the seat. -/
  | seatRelease (node : Nat)
  /-- R362. A write over SMBus empties the seat. -/
  | seatClear
  /-- R361. A seat write with OP 0, 6 or 7 is refused with status 1. -/
  | seatRefusedOp (node op : Nat)
  /-- R360. Writes a device-control window register that has no row of its own, dropping unpermitted writes. -/
  | windowWrite (who offset : Nat) (value : BitVec 64)
  /-- R365. A write of 1 to TRIG schedules a snapshot 64 clocks later or counts a miss while busy. -/
  | snapshotTrigger
  /-- R365. At the scheduled clock every core and stack latches its counters, pcs and cycle. -/
  | snapshotLatch
  /-- R367. The seat holder's nonce write makes the device sign this boot's attestation report. -/
  | attestationNonce (node : Nat) (nonce : BitVec 64)
  /-- R385. A host read or write of device memory is translated, key-checked and performed at home. -/
  | hostAccess (node ctx space offset : Nat) (write : Bool) (data : List (BitVec 8))
  /-- R363. A request arriving over the Vybry Link is translated and key-checked at this home node. -/
  | fabricRequest (agent ctx space offset : Nat) (sup : Bool) (op : FabricOp)
  /-- R363. A flit with a bad CRC is refused and replayed by its sender. -/
  | flitReplay (port : Nat)
  /-- R363. A port finishes retraining and carries flits again. -/
  | portRetrainDone (port : Nat)
  /-- R363. After 10 ms without delivery a node is declared unreachable and its accesses and keys fail. -/
  | nodeUnreachable (node : Nat)
  /-- R357. A stack controller scrubs a sector, correcting or poisoning it. -/
  | stackScrub (sector finding : Nat)
  /-- R357. A core scrubs one pool or local-store row every 4096 clocks. -/
  | coreScrub (core row finding : Nat)
  /-- R366. The security processor verifies the firmware image and forms its measurement. -/
  | deviceReset
  /-- R366. Zeroing of all HBM4E ends and the verified image is copied in. -/
  | hbmZeroingDone
  /-- R366. Guesk starts at slot 0 of core 0 in mode S, or the device enters BOOTFAIL. -/
  | gueskStart
  /-- R368. Each 10 µs, measured power above CAP withholds a share of V-class issue. -/
  | powerCapCheck (watts : Nat)
  /-- R368. At 105 °C the issue share falls to one clock in eight. -/
  | thermalThrottle
  /-- R368. At 115 °C every hart is suspended at its next hinge and THERM is set. -/
  | thermalSuspend
  /-- R368. Below 100 °C thermally suspended harts resume. -/
  | thermalResume
  /-- R368. After 10 ms with no hart placed the device enters IDLE. -/
  | idleEntry
  /-- R368. A host access or launch brings the device out of IDLE within 20 µs. -/
  | idleExit
  /-- R368. Removal of board power puts the device in state OFF. -/
  | powerOff
  /-- R363. Guesk re-admits a node that was declared unreachable, so accesses homed there no longer trap. -/
  | nodeReadmission (node : Nat)
  /-- R365. Every latched snapshot value has landed at window offset 0x4_0000 and BUSY returns to 0. -/
  | snapshotLanded
  deriving DecidableEq, Repr

end Sys2Proof
end

