-- ==== Sys2Proof/Machine/State.lean ====
section
/-! DEFINITION. The state of the device as plain data: the harts, the cores, the memories, the keyring, the launch sequencer and
the device controller, and its value right after reset. A piece the manual numbers as a word stays a bit vector; counts, numbers
of parts and addresses used as keys are natural numbers. Collections that are mostly empty are lists of what is present. -/

namespace Sys2Proof.Machine

/-- Why the machine stops. -/
inductive Fault where
  /-- Raised by `step` when board power has been removed (Table 18-8, OFF): the manual gives no further behaviour. Safe. -/
  | off
  deriving DecidableEq, Repr

/-- Why an instruction has no outcome. -/
inductive Refusal where
  /-- Raised by an arm of `exec` for an instruction that has no meaning yet. Safe: nothing is claimed of it. -/
  | notModelled (mnemonic : String)
  deriving DecidableEq, Repr

/-- Bytes by key: keys strictly rising, and no listed byte is 0, which is what an unlisted key reads as. -/
abbrev Memory := List Host.Cell

/-- Privilege modes (R336): user, delegated handler, supervisor. -/
inductive Mode where | u | d | s
  deriving DecidableEq, Repr

/-- The states of a hart slot (Table 16-4). -/
inductive RunState where | free | starting | running | waiting | suspended | evicting | exiting
  deriving DecidableEq, Repr

/-- A span of a chain (Table 08-4): bytes OFF to OFF + LEN - 1 of the extent of a spine. -/
structure Span where
  spine : Nat
  off : Nat
  len : Nat
  deriving DecidableEq, Repr

/-- A chain descriptor (R155, Table 08-3). Tag 0 is released. -/
structure Desc where
  tag : Tag
  count : Nat
  spans : List Span
  deriving DecidableEq, Repr

/-- The released descriptor (R157). -/
def Desc.released : Desc := ⟨0, 0, []⟩

/-- What a link is used for (Table 08-1); a link that no list names is free. -/
inductive LinkKind where | data | spine | pending
  deriving DecidableEq, Repr

/-- A link header (Table 08-1). -/
structure Link where
  kind : LinkKind
  slot : Nat
  fresh : BitVec 8
  rc : Nat
  nvalid : Nat
  deriving DecidableEq, Repr

/-- State of a V-class member in a record entry (Table 17-8). -/
inductive MemberState where | notIssued | stopped | done | abandoned
  deriving DecidableEq, Repr

/-- A V-class member of a convoy, as its record entry holds it (Table 17-8). -/
structure Entry where
  state : MemberState
  cause : BitVec 8
  word : Nat
  vstart : Nat
  tval : Word
  need : Nat
  kept : Option Desc
  /-- Destination descriptors as the registers held them when the record was made (DEST1, DEST2). -/
  dests : List Desc
  /-- Source elements below VSTART that an in-place scan has written over, the model's own (R255, R347). -/
  seen : List Nat
  /-- It only waits for elements that an `ecopyc` still fills in, itself or through an earlier member (R148), the model's own. -/
  fill : Bool
  /-- Tag and COUNT that each destination of a stopped member will have when it is whole, as far as they are known, the model's own. -/
  whole : List (VReg × Tag × Option Nat)
  deriving DecidableEq, Repr

/-- A convoy in progress, and the trap or pool-fault record made from it (R58, Table 17-7). -/
structure Convoy where
  hinge : Word
  /-- The instructions issued so far, in program order. -/
  words : List Instr
  done : BitVec 16
  nextpc : Option Word
  entries : List Entry
  rcause : BitVec 8
  rword : Nat
  tval : Word
  /-- Loaded from a save area (R355): the words are read again from memory when the hart resumes; the model's own. -/
  stale : Bool
  /-- Its first word may open it whatever its H bit (R340); the model's own. -/
  anew : Bool
  /-- Elements of its members, by position, that stood in the pool when it was last re-entered (R182, R347); the model's own. -/
  pooled : List (Nat × Nat)
  deriving DecidableEq, Repr

/-- Ticket states (R136). -/
inductive TicketState where | free | busy | done | faulted
  deriving DecidableEq, Repr

/-- A ticket (R136, Table 07-6). -/
structure Ticket where
  state : TicketState
  cause : BitVec 8
  kind : BitVec 4
  target : Nat
  rows : Nat
  offset : Word
  deriving DecidableEq, Repr

/-- A free ticket. -/
def Ticket.empty : Ticket := ⟨.free, 0, 0, 0, 0, 0⟩

/-- The partial result of one selection engine (R121): stack, qualifying count, rank words, pages and sectors that failed. -/
structure Partial where
  stack : Nat
  qual : Nat
  ranks : List Word
  fails : List (Word × BitVec 8)
  deriving DecidableEq, Repr

/-- A copy-engine or selection-engine command in progress with the operands it read at issue (R138, R139, R147, R124, R125). -/
structure Command where
  ticket : Nat
  kind : BitVec 4
  /-- Hand-offs with a lower number than this are performed before the command's first read (R143). -/
  since : Nat
  bypass : Bool
  bare : Bool
  ctx : BitVec 16
  /-- The translation root of the issuing context (R83). -/
  ptbase : BitVec 29
  sspace : BitVec 16
  src : Word
  dspace : BitVec 16
  dst : Word
  l0 : Nat
  n1 : Nat
  n2 : Nat
  sstr1 : Word
  sstr2 : Word
  dstr1 : Word
  dstr2 : Word
  cm : BitVec 3
  bar : Bool
  cmask : BitVec 8
  fill : Byte
  padl : Nat
  srclen : Nat
  /-- `ecopyc`: destination register, its chain, element tag and stride. Selection: element tag, predicate, operands, limit. -/
  vd : VReg
  chain : Desc
  tag : Tag
  pred : BitVec 4
  count : Nat
  limit : Nat
  opa : Word
  opb : Word
  /-- Rows or elements done. -/
  next : Nat
  parts : List Partial
  /-- 8-byte words of the source that the engine has read ahead of their row, by key (R141), the model's own. -/
  ahead : List (Nat × List Byte)
  deriving DecidableEq, Repr

/-- What a waiting hart waits for. -/
inductive Wait where
  | none
  /-- The word at pc has issued and is tried again: `setvl`, `zmode`, `ewait`, `cwait`, `hsave`, a key request held at its
  controller (R111), a full engine queue (R130), a mask or chain that an engine still fills (R142, R148). -/
  | retry (abandonable : Bool)
  /-- Arrived at the gang's barrier; the phase is still to complete (R294). -/
  | barrier
  /-- `await` with the clock at which its limit ends (R296). -/
  | await (limit : Option Nat)
  /-- `yield` until a clock (R333). -/
  | yield (limit : Nat)
  /-- A fence: whether it waits for scalar accesses, vector accesses, the hart's commands, and other nodes, and whether it comes before
  later scalar and vector accesses (R292, Table 14-2). -/
  | fence (sc vec cmds sys thenS thenV : Bool)
  /-- `tlbinv` until the accesses handed off before a number within REACH are performed (R93). -/
  | tlbinv (before reach : Nat)
  /-- A key transfer between R108 steps 1 and 5. -/
  | key (space : BitVec 16) (base : Word) (size : Nat)
  /-- Exiting with a code (R328). -/
  | exit (code : BitVec 32)
  deriving DecidableEq, Repr

/-- One hart (R311): its registers, chains, masks, tickets, convoy, records and scheduling state. -/
structure Hart where
  st : RunState
  wait : Wait
  mode : Mode
  pc : Word
  /-- User bank x0-x31 (entry 0 is never read) and supervisor bank (R336). -/
  xu : Vector Word 32
  xs : Vector Word 32
  v : Vector Desc 32
  /-- m1-m7 at entries 1-7 (R235); entry 0 is never read. -/
  m : Vector (BitVec 8192) 8
  instret : Word
  hartid : BitVec 16
  gangid : BitVec 32
  ganghart : BitVec 3
  gangsize : BitVec 4
  taskid : BitVec 16
  gbexp : BitVec 12
  myph : BitVec 16
  vquota : BitVec 12
  vused : Nat
  vflags : BitVec 6
  sflags : BitVec 6
  as : Vector (BitVec 16) 4
  pfh : Word
  pfpc : Word
  pfneed : Nat
  pfword : Nat
  pfvstart : Nat
  tvec : Word
  tpc : Word
  cause : BitVec 8
  cword : Nat
  incv : Bool
  newcv : Bool
  tval : Word
  hip : Bool
  tip : Bool
  ie : Bool
  ppriv : BitVec 2
  tresOff : BitVec 7
  tscratch : Word
  kctx : BitVec 16
  bare : Bool
  ptbase : BitVec 29
  saBase : BitVec 22
  /-- Trap record and pool-fault record (R345): present exactly when RR and PFR read 1. -/
  rr : Option Convoy
  pfr : Option Convoy
  /-- The convoy in progress; none between convoys. -/
  convoy : Option Convoy
  /-- The next word was reached by a control transfer: the address to report when it lacks H (R60). -/
  xfer : Option Word
  /-- The next word opens a new convoy whatever its H bit (R340). -/
  fresh : Bool
  tickets : Vector Ticket 16
  cmds : List Command
  /-- Lane groups requested (R323) and the clock from which it owes groups (R324). -/
  req : Nat
  debt : Option Nat
  prio : Nat
  gang : Option Nat
  /-- Suspension requested (R326); by pre-emption (R343); by heat (R368). -/
  suspend : Bool
  preempt : Bool
  heat : Bool
  /-- A starting hart whose state has come from its save area (R327, R351). -/
  restoring : Bool
  /-- Machine checks that are pending for the hart: their tvals, the oldest first (R339, R358). -/
  mcheck : List Word
  /-- Those that were pending when it entered mode S, which wait until it leaves that; the model's own (log 24). -/
  mheld : List Word
  /-- An interrupt was pending when the hart returned to mode U: it is taken at the next hinge (R339, log 74). -/
  due : Bool
  /-- `yield 0` and issue order (R325, R333): the tick of the last issue; below every tick, the later the lower, after `yield 0`. -/
  lastIssue : Int
  /-- The clock from which its next word has been ready to issue and has not issued (R325); none when it is not ready. -/
  since : Option Nat
  /-- The word at issue, the model's own: what a trap with cause 0x01 or 0x06 reports (R73). -/
  iword : Word
  deriving DecidableEq, Repr

/-- A line of the scalar L1 data cache (R303): its virtual line, the size of the page it was reached through, and its home: a key of
this device, or the offset on another node. `bad`: it holds an error beyond correction (Table 18-1). -/
structure L1Line where
  ctx : BitVec 16
  space : BitVec 16
  off : Nat
  size : Nat
  key : Nat
  node : Option (BitVec 16)
  /-- The agent that filled it or last wrote it. -/
  agent : BitVec 32
  dirty : Bool
  bad : Bool
  data : BitVec 512
  deriving DecidableEq, Repr

/-- A line of the instruction cache (R56), with the size of the page it was reached through. -/
structure ILine where
  ctx : BitVec 16
  off : Nat
  size : Nat
  key : Nat
  data : BitVec 512
  deriving DecidableEq, Repr

/-- A TLB entry (R89). -/
structure TlbEntry where
  ctx : BitVec 16
  space : BitVec 16
  page : Nat
  size : Nat
  node : BitVec 16
  frame : Nat
  im : Bool
  at_ : Bool
  deriving DecidableEq, Repr

/-- A cached space-table or non-leaf entry of a cluster walker (R84, R89): the level it was read at (0: space table), the virtual
prefix above the page it covers, and the table it names. -/
structure WalkEntry where
  ctx : BitVec 16
  space : BitVec 16
  level : Nat
  pfx : Nat
  table : Nat
  deriving DecidableEq, Repr

/-- A key-cache entry (R104). -/
structure KeyRight where
  ctx : BitVec 16
  space : BitVec 16
  base : Nat
  size : Nat
  agent : BitVec 32
  write : Bool
  deriving DecidableEq, Repr

/-- Kinds of accumulator tile (R265). -/
inductive TileKind where | f32 | i32 | f64
  deriving DecidableEq, Repr

/-- An accumulator tile with its check column (R265, R266): 32-bit cells by 128*row + column, and the sums c and a by row. -/
structure Tile where
  holder : Option Nat
  rows : Nat
  cols : Nat
  kind : TileKind
  cells : List (Nat × BitVec 32)
  csum : List (Nat × Word)
  asum : List (Nat × Word)
  queue : List Nat
  deriving DecidableEq, Repr

/-- A tile that no hart holds. -/
def Tile.empty : Tile := ⟨none, 0, 0, .f32, [], [], [], []⟩

/-- A spine in the reclaim queue with the slot the reclaimer has reached (R171). -/
structure Reclaim where
  spine : Nat
  owner : Nat
  pos : Nat
  deriving DecidableEq, Repr

/-- One core (Table 01-2). -/
structure Core where
  /-- Headers of the links that are not free, by ascending id, and the bodies: byte b of link l at 512*l + b (R152). -/
  links : List (Nat × Link)
  pool : Memory
  /-- Rows of the pool that hold an error beyond correction, link id × 8 + row (Table 18-1). -/
  badRows : List Nat
  reclaim : List Reclaim
  /-- Owner of each lane group (R15). -/
  lanes : Vector (Option Nat) 8
  za0 : Tile
  za1 : Tile
  /-- Most recently used first. -/
  l1 : List L1Line
  icache : List ILine
  tlb : List TlbEntry
  keys : List KeyRight
  recompute : BitVec 32
  /-- Lane upsets to come, the model's own: per checked element 0 none, 1 transient, 2 persistent (R248, R249). -/
  upsets : List Nat
  mchecks : List Nat
  failed : Bool
  lastCtx : Option (BitVec 16)
  deriving DecidableEq, Repr

/-- Key states (Table 05-2). -/
inductive KeyState where | home | owned | shared | orphaned
  deriving DecidableEq, Repr

/-- Who no longer holds keys: the harts of a core that has failed (R116), as context and agent; every agent of a node (R113); a hart that
exits (R114). -/
inductive Gone where
  | core (who : List (BitVec 16 × BitVec 32))
  | node (n : BitVec 16)
  | exit (ctx : BitVec 16) (agent : BitVec 32)
  deriving DecidableEq, Repr

/-- A keyring entry (Table 05-4) with its share holders; while a transfer of it is in transit, who issued that (R111). -/
structure KeyEntry where
  ctx : BitVec 16
  space : BitVec 16
  base : Nat
  size : Nat
  state : KeyState
  poison : Bool
  shares : List (BitVec 32)
  owner : BitVec 32
  lender : BitVec 32
  die : Nat
  transit : Bool
  issuer : BitVec 32
  deriving DecidableEq, Repr

/-- What waits at a key controller (R111): a hart's request, one of another node, or a failure or an exit for one region. -/
inductive KeyWaiter where
  | hart (k : Nat) (ctx space : BitVec 16) (base size : Nat)
  | node (agent ctx space off : Nat) (sup : Bool) (op : FabricOp)
  | event (g : Gone) (ctx space : BitVec 16) (base size : Nat)
  deriving DecidableEq, Repr

/-- What a handed-off write does at home (R200, R276, R279). -/
inductive WriteOp where
  | put
  /-- An `ast`, which the hart's commands wait for as a far atomic (R143). -/
  | ast
  /-- One nibble of a byte, the high one or the low one (R199). -/
  | nib (hi : Bool)
  | add (t : Tag)
  /-- The larger, unsigned (R328). -/
  | maxn
  | fmax (t : Tag)
  deriving DecidableEq, Repr

/-- A write handed to the memory system and not yet performed (R279). -/
structure Pending where
  id : Nat
  /-- Hart slot that issued it and the agent: false scalar, true vector. -/
  hart : Nat
  vec : Bool
  agent : BitVec 32
  ctx : BitVec 16
  space : BitVec 16
  off : Nat
  /-- Home key, or the node it leaves for. -/
  key : Nat
  node : Option (BitVec 16)
  /-- Its line leaves the issuing core's L1 when it is performed (R192); not so for a write in mode S (R100). -/
  flush : Bool
  /-- For an element of a scatter packet, the instruction's number and the destination core (R195). -/
  pkt : Option (Nat × Nat)
  op : WriteOp
  data : List Byte
  deriving DecidableEq, Repr

/-- A write that left for another node (R86). -/
structure RemoteWrite where
  node : BitVec 16
  ctx : BitVec 16
  space : BitVec 16
  off : Nat
  agent : BitVec 32
  op : WriteOp
  data : List Byte
  deriving DecidableEq, Repr

/-- A gather or scatter packet of the cluster network (R195, Table 09-5): the core it goes to, kind 0 request, 1 reply, 2 scatter,
3 scatter-add, and 4 for a reply that has arrived; its block of element indices, the mask EMASK of those it carries, its elements as
(offset, element index, bytes), and for a scatter the numbers of their hand-offs. -/
structure Packet where
  hart : Nat
  target : Nat
  kind : Nat
  tag : Tag
  block : Nat
  emask : BitVec 64
  elems : List (Nat × Nat × List Byte)
  ids : List Nat
  deriving DecidableEq, Repr

/-- A launch queue descriptor (Table 16-1). -/
structure Queue where
  base : BitVec 37
  log2 : BitVec 4
  err : Bool
  devl : Bool
  en : Bool
  owner : BitVec 16
  head : BitVec 16
  tail : BitVec 16
  deriving DecidableEq, Repr

/-- A queue descriptor at reset (Table 16-1). -/
def Queue.empty : Queue := ⟨0, 0, false, false, false, 0, 0, 0⟩

/-- A launch in the table (R314, R316) with its progress (R317, R328). -/
structure Launch where
  id : Nat
  queue : Nat
  ctx : BitVec 16
  task : BitVec 16
  entry : Word
  gang : Nat
  lanes : Nat
  quota : Nat
  prio : Nat
  diemask : BitVec 4
  args : List Word
  ngangs : Nat
  gspace : BitVec 16
  comp : Word
  dep0addr : Word
  dep0val : Word
  dep1addr : Word
  dep1val : Word
  /-- Nanosecond at which it became READY. -/
  ready : Option Nat
  placed : Nat
  exited : Nat
  maxcode : BitVec 32
  deriving DecidableEq, Repr

/-- A placed or evicted gang and its barrier (R293, R311). -/
structure Gang where
  id : Nat
  launch : Nat
  number : Nat
  members : List Nat
  phase : BitVec 16
  count : Nat
  expl : Nat
  prio : Nat
  /-- Tick of placement (R319). -/
  placedAt : Nat
  deriving DecidableEq, Repr

/-- A member of an evicted gang (R321, R327): the slot it left, its save area, grant, request, whether its local store was saved. -/
structure Evicted where
  slot : Nat
  hartid : BitVec 16
  saBase : BitVec 22
  grant : Nat
  lsSaved : Bool
  quota : Nat
  tile0 : Bool
  tile1 : Bool
  /-- Its next word opens a convoy whatever its H bit (R340); the model's own. -/
  fresh : Bool
  /-- Machine checks pending or waiting at its eviction, those that this has found among them (Table 18-1), taken when it runs again; the model's own. -/
  mcheck : List Word
  mheld : List Word
  deriving DecidableEq, Repr

/-- What in-place scans still need of the elements they have written over, entry by entry of the two records of a saved hart: the model's own
(R347), kept beside the save area at a physical base for as long as that holds the image with this check word. -/
structure SavedScans where
  base : Nat
  check : BitVec 32
  rr : List (List Nat)
  pfr : List (List Nat)
  deriving DecidableEq, Repr

/-- An evicted gang that waits under R318. -/
structure Waiting where
  gang : Gang
  since : Nat
  members : List Evicted
  deriving DecidableEq, Repr

/-- A frame-indirection entry (Table 04-11): 1 copying, 2 redirecting; an unlisted entry is free. -/
structure Frame where
  stack : Nat
  index : Nat
  state : Nat
  src : Nat
  dst : Nat
  deriving DecidableEq, Repr

/-- Boot states (Table 18-10). -/
inductive Boot where | reset | verify | zeroing | loading | running | bootfail
  deriving DecidableEq, Repr

/-- Power states (Table 18-8). -/
inductive Power where | on | idle | off
  deriving DecidableEq, Repr

/-- The management seat (Table 18-4). -/
structure Seat where
  holder : BitVec 16
  offer : BitVec 16
  epoch : BitVec 13
  deriving DecidableEq, Repr

/-- A port of Vybry Link (R363): consecutive replays, and whether it retrains. -/
structure Port where
  replays : Nat
  retraining : Bool
  deriving DecidableEq, Repr

/-- What the device has answered to a host or another node (R363, R385): cause 0 for a request that was served. -/
structure Reply where
  agent : BitVec 32
  cause : BitVec 8
  off : Word
  data : List Byte
  deriving DecidableEq, Repr

/-- A structure of Table 18-1 in which an error is found: a sector of a memory-side cache, an 8-byte word of a core's memories, a row
of a link pool, a line of a scalar L1, an entry of an instruction cache, TLB, walker cache or key cache, a core's link headers,
descriptors or lane allocation table, an entry of the keyring or its shares. -/
inductive Struck where
  | cached (sector : Nat)
  | word (key : Nat)
  | poolRow (core row : Nat)
  | line (core key : Nat)
  | fetched (core key : Nat)
  | translated (core index : Nat)
  | walked (cluster index : Nat)
  | granted (core index : Nat)
  | tables (core : Nat)
  | ring (index : Nat)
  deriving DecidableEq, Repr

/-- An error of the hardware (R356), the model's own input: where, and whether it is beyond correction. -/
structure Strike where
  what : Struck
  double : Bool
  deriving DecidableEq, Repr

/-- Who accesses the window from outside the cores (R359): Guesk, a host by its node, the board management controller over SMBus. -/
inductive Who where
  | guesk
  | host (node : BitVec 16)
  | smbus
  deriving DecidableEq, Repr

/-- What comes from outside (R359, R363, R385): a row of the opcode table, a read of the window, an error of the hardware. -/
inductive Outside where
  | event (i : Instr)
  | windowRead (who : Who) (off : Nat)
  | strike (x : Strike)
  deriving DecidableEq, Repr

/-- An arrival from outside: its clock, and its port, SMBus before every port (R360, R361). -/
structure Input where
  clock : Nat
  port : Nat
  what : Outside
  deriving DecidableEq, Repr

/-- Who moves next. -/
inductive Turn where
  | hart (k : Nat)
  | event (i : Instr)
  | outside (o : Outside)
  | idle
  deriving DecidableEq, Repr

/-- A release that no later write but atomic RMWs has followed at its location (R286): its bytes, its agent with the context, and its
scope. -/
structure Rel where
  key : Nat
  len : Nat
  ctx : BitVec 16
  agent : BitVec 32
  scope : BitVec 3
  deriving DecidableEq, Repr

/-- A read of an 8-byte unit that an agent has performed ahead of its place in program order (R282), the model's own: its bytes, and
the releases it read from. -/
structure Early where
  hart : Nat
  vec : Bool
  key : Nat
  data : List Byte
  rels : List Rel
  deriving DecidableEq, Repr

/-- The attestation report of a boot (R367). -/
structure Report where
  measurement : BitVec 256
  fwctr : Nat
  nonce : Word
  node : BitVec 16
  boot : Nat
  signature : Option (List Word)
  deriving DecidableEq, Repr

/-- What Guesk has set for a context before it starts a hart of it (R337): taken by the harts placed in the context (log 16). -/
structure CtxRegs where
  tvec : Word
  ptbase : BitVec 29
  bare : Bool
  saBase : BitVec 22
  deriving DecidableEq, Repr

/-- The device. -/
structure State where
  /-- Hart slot (8*core + slot) whose hart is `h` and whose core is `core`; the others stand in `harts` and `cores`. -/
  cur : Nat
  h : Hart
  core : Core
  harts : List (Nat × Hart)
  cores : List (Nat × Core)
  walkers : List (Nat × List WalkEntry)
  mem : Memory
  poison : List Nat
  pend : List Pending
  packets : List Packet
  remote : List RemoteWrite
  replies : List Reply
  rels : List Rel
  early : List Early
  keyring : List KeyEntry
  /-- Key requests, failures and exits that wait at a controller, in arrival order (R111). -/
  keyQueue : List KeyWaiter
  contexts : List (Nat × CtxRegs)
  gangs : List Gang
  launches : List Launch
  waiting : List Waiting
  scans : List SavedScans
  queues : List (Nat × Queue)
  frames : List Frame
  timers : List (Nat × Nat × Bool)
  cycle : Word
  dcaddr : BitVec 17
  missed : BitVec 32
  busy : Bool
  snapAt : Option Nat
  latched : List (Nat × Word)
  seat : Seat
  boot : Boot
  power : Power
  therm : Bool
  capped : Bool
  meas : BitVec 20
  cap : BitVec 12
  throttle : Bool
  counters : List (Nat × Nat)
  image : List Byte
  fwctr : Nat
  attctr : Nat
  bootCount : Nat
  meas256 : BitVec 256
  nonce : Word
  report : Option Report
  exhausted : Bool
  unreachable : List (BitVec 16)
  ports : Vector Port 16
  idleSince : Option Nat
  nextId : Nat
  /-- The model's own: counter for free values, who moves next, and what the outside will do. -/
  tick : Nat
  turn : Turn
  inputs : List Input
  deriving DecidableEq, Repr

/-- A hart slot that no hart has been placed on: the registers' reset values where the manual gives one; log 1 names the others. -/
def Hart.reset : Hart :=
  { st := .free, wait := .none, mode := .u, pc := 0
    xu := Vector.replicate 32 0, xs := Vector.replicate 32 0
    v := Vector.replicate 32 Desc.released, m := Vector.replicate 8 0
    instret := 0, hartid := 0, gangid := 0, ganghart := 0, gangsize := 0, taskid := 0, gbexp := 0, myph := 0
    vquota := 0, vused := 0, vflags := 0, sflags := 0, as := Vector.replicate 4 0
    pfh := 0, pfpc := 0, pfneed := 0, pfword := 0, pfvstart := 0
    tvec := 0, tpc := 0, cause := 0, cword := 0, incv := false, newcv := false, tval := 0
    hip := false, tip := false, ie := true, ppriv := 0, tresOff := 0, tscratch := 0
    kctx := 0, bare := true, ptbase := 0, saBase := 0
    rr := none, pfr := none, convoy := none, xfer := none, fresh := false
    tickets := Vector.replicate 16 Ticket.empty, cmds := [], req := 0, debt := none, prio := 0, gang := none
    suspend := false, preempt := false, heat := false, restoring := false, mcheck := [], mheld := [], due := false, lastIssue := 0, since := none, iword := 0 }

/-- A core at device reset (R7, Table 08-1). -/
def Core.reset : Core :=
  { links := [], pool := [], badRows := [], reclaim := [], lanes := Vector.replicate 8 none, za0 := Tile.empty, za1 := Tile.empty
    l1 := [], icache := [], tlb := [], keys := [], recompute := 0, upsets := [], mchecks := [], failed := false, lastCtx := none }

/-- The device right after reset: boot state RESET, no hart placed, memory with nothing listed; its next step is the reset's own
boot sequence (R366). -/
def State.reset : State :=
  { cur := 0, h := Hart.reset, core := Core.reset, harts := [], cores := [], walkers := [], mem := [], poison := [], pend := []
    packets := [], remote := [], replies := [], rels := [], early := [], keyring := [], keyQueue := [], contexts := [], gangs := [], launches := [], waiting := [], scans := [], queues := [], frames := [], timers := []
    cycle := 0, dcaddr := 0, missed := 0, busy := false, snapAt := none, latched := []
    seat := ⟨0xFFFF, 0xFFFF, 0⟩, boot := .reset, power := .on, therm := false, capped := false, meas := 0, cap := 2400
    throttle := false, counters := [], image := [], fwctr := 0, attctr := 0, bootCount := 0, meas256 := 0, nonce := 0
    report := none, exhausted := false, unreachable := [], ports := Vector.replicate 16 ⟨0, false⟩, idleSince := none, nextId := 1
    tick := 0, turn := .event .deviceReset, inputs := [] }

end Sys2Proof.Machine
end

