-- ==== Sys2Proof/Machine/Mem.lean ====
section
/-! DEFINITION. Memory as bytes by key: the canonical list, the storage keys of the physical windows (R75, R76), the local stores and
the scalar data memories (R131, R135), frame indirection (R94, R95) and poison (R78, R356). -/

namespace Sys2Proof.Machine

/-- The byte at a key; an unlisted key reads 0 (log 2). -/
def memGet : Memory → Nat → Byte
  | [], _ => 0
  | (a, b) :: t, k => if a = k then b else if k < a then 0 else memGet t k

/-- The memory with one byte changed, canonical again: a 0 is not listed. -/
def memSet : Memory → Nat → Byte → Memory
  | [], k, v => if v = 0 then [] else [(k, v)]
  | (a, b) :: t, k, v =>
    if k < a then (if v = 0 then (a, b) :: t else (k, v) :: (a, b) :: t)
    else if k = a then (if v = 0 then t else (k, v) :: t)
    else (a, b) :: memSet t k v

/-- Every listed key is above `lo`, keys rise strictly, and no listed byte is 0. -/
def memWfFrom : Option Nat → Memory → Bool
  | _, [] => true
  | lo, (a, b) :: t => (match lo with | none => true | some l => decide (l < a)) && decide (b ≠ 0) && memWfFrom (some a) t

/-- The canonical form of a memory. -/
def Memory.wf (m : Memory) : Bool := memWfFrom none m

/-- n bytes from a key upward. -/
def memGetN (m : Memory) (k : Nat) : Nat → List Byte
  | 0 => []
  | n + 1 => memGet m k :: memGetN m (k + 1) n

/-- Bytes written from a key upward. -/
def memSetN (m : Memory) (k : Nat) : List Byte → Memory
  | [] => m
  | b :: bs => memSetN (memSet m k b) (k + 1) bs

/-- The keys lo to lo + n - 1 written with 0. -/
def memClear (m : Memory) (lo n : Nat) : Memory := m.filter fun c => decide (c.1 < lo ∨ lo + n ≤ c.1)

/-- The listed bytes of lo to lo + n - 1, their keys counted from lo. -/
def memSlice (m : Memory) (lo n : Nat) : Memory :=
  (m.filter fun c => decide (lo ≤ c.1 ∧ c.1 < lo + n)).map fun c => (c.1 - lo, c.2)

/-- n bytes copied between ranges of two memories; the destination range takes the source range's bytes, its unlisted zeros too. -/
def memCopy (src dst : Memory) (from_ to_ n : Nat) : Memory :=
  (memSlice src from_ n).foldl (fun m c => memSet m (to_ + c.1) c.2) (memClear dst to_ n)

/-- Bytes, lowest first, as a number (R3). -/
def ofBytes : List Byte → Nat
  | [] => 0
  | b :: bs => b.toNat + 256 * ofBytes bs

/-- The n low bytes of a number, lowest first (R3). -/
def toBytes : Nat → Nat → List Byte
  | 0, _ => []
  | n + 1, v => BitVec.ofNat 8 v :: toBytes n (v / 256)

/-- A place in a list by key. -/
def assocGet (d : α) : List (Nat × α) → Nat → α
  | [], _ => d
  | (k, a) :: t, i => if k = i then a else assocGet d t i

/-- A key's entry removed. -/
def assocDel (l : List (Nat × α)) (i : Nat) : List (Nat × α) := l.filter fun p => decide (p.1 ≠ i)

/-- A key's entry put in ascending place, any older one replaced. -/
def assocSet : List (Nat × α) → Nat → α → List (Nat × α)
  | [], i, a => [(i, a)]
  | (k, b) :: t, i, a => if i < k then (i, a) :: (k, b) :: t else if i = k then (i, a) :: t else (k, b) :: assocSet t i a

/-- The storage key of a physical byte (Table 04-1): stack * 2^36 + offset in the stack; none outside the windows. -/
def physKey (p : Nat) : Option Nat :=
  if p < 0xC0_0000_0000 then
    let b := p / 4096
    some (b % 12 * 2 ^ 36 + b / 12 * 4096 + p % 4096)
  else if 0x100_0000_0000 ≤ p ∧ p < 2 ^ 41 then
    let d := (p - 2 ^ 40) / 2 ^ 38
    let q := (p - 2 ^ 40) % 2 ^ 38
    if q < 0x30_0000_0000 then
      let b := q / 4096
      some ((3 * d + b % 3) * 2 ^ 36 + b / 3 * 4096 + q % 4096)
    else none
  else none

/-- Keys below this are HBM4E storage; the local stores and scalar data memories stand above it. -/
abbrev lsBase : Nat := 2 ^ 40
abbrev sdmBase : Nat := 2 ^ 41
/-- The key of a byte of a core's local store (R131) and of its scalar data memory (R135). -/
def lsKey (core off : Nat) : Nat := lsBase + core * 2 ^ 21 + off
def sdmKey (core off : Nat) : Nat := sdmBase + core * 2 ^ 16 + off

/-- The stack that is home to an HBM key and its die (R12, R76). -/
def keyStack (k : Nat) : Nat := k / 2 ^ 36
def stackDie (st : Nat) : Nat := st / 3

/-- The unit poison marks: a 32-byte sector of HBM4E, an 8-byte word of a core's memories (R78, R356). -/
def poisonUnit (k : Nat) : Nat := if k < lsBase then 32 else 8
def poisonAt (k : Nat) : Nat := k / poisonUnit k * poisonUnit k

namespace State

/-- Where a read of an HBM key is served: at TO once the frame redirects, one level deep (R95). -/
def readKeyOf (s : State) (k : Nat) : Nat :=
  if k < lsBase then
    match s.frames.find? (fun f => f.stack == keyStack k && f.src == k % 2 ^ 36 / 4096 && f.state == 2) with
    | some f => f.stack * 2 ^ 36 + f.dst * 4096 + k % 4096
    | none => k
  else k

/-- Where a write of an HBM key goes besides the place it is read from: to TO also while a copy runs (R95). -/
def twinKeyOf (s : State) (k : Nat) : Option Nat :=
  if k < lsBase then
    match s.frames.find? (fun f => f.stack == keyStack k && f.src == k % 2 ^ 36 / 4096 && f.state == 1) with
    | some f => some (f.stack * 2 ^ 36 + f.dst * 4096 + k % 4096)
    | none => none
  else none

/-- One byte at home. -/
def homeByte (s : State) (k : Nat) : Byte := memGet s.mem (s.readKeyOf k)

/-- n bytes at home. -/
def homeRead (s : State) (k : Nat) : Nat → List Byte
  | 0 => []
  | n + 1 => s.homeByte k :: s.homeRead (k + 1) n

/-- Whether the unit that holds a key is poisoned. -/
def poisoned (s : State) (k : Nat) : Bool := s.poison.contains (poisonAt (s.readKeyOf k))

/-- How far above a key the first poisoned unit of its n bytes begins, not below the unit of the key itself. -/
def poisonIn (s : State) (k n : Nat) : Option Nat :=
  ((List.range n).find? fun i => s.poisoned (k + i)).map fun i => poisonAt (k + i)

/-- One byte put into storage, when its unit is sound. -/
def putByte (s : State) (k : Nat) (b : Byte) : State :=
  if s.poison.contains (poisonAt k) then s else { s with mem := memSet s.mem k b }

/-- A whole unit that the bytes k .. k+n-1 cover is cleared of poison (R78, R356). -/
def healUnits (s : State) (k n : Nat) : State :=
  { s with poison := s.poison.filter fun p => !(decide (k ≤ p) && decide (p + poisonUnit p ≤ k + n)) }

/-- Bytes written one after the other at storage keys; a unit that stays poisoned discards its bytes. -/
def putBytes (s : State) (k : Nat) : List Byte → State
  | [] => s
  | b :: bs => (s.putByte k b).putBytes (k + 1) bs

/-- What a write of n bytes at a key ends: it is none of the atomic read-modify-writes that carry a release on (R286). -/
def cutRels (s : State) (k n : Nat) : State := { s with rels := s.rels.filter fun r => !decide (r.key < k + n ∧ k < r.key + r.len) }

/-- A write at home of one access (R78, R95): to the frame that is read and, while a copy runs, to the other too. An access never
crosses a 4 KiB frame in the pieces this is used with. -/
def homeWrite (s : State) (k : Nat) (bs : List Byte) : State :=
  let k' := s.readKeyOf k
  let s1 := ((s.cutRels k bs.length).healUnits k' bs.length).putBytes k' bs
  match s.twinKeyOf k with
  | some t => (s1.healUnits t bs.length).putBytes t bs
  | none => s1

/-- A unit poisoned (R78, R357). -/
def poisonUnitAt (s : State) (k : Nat) : State :=
  let p := poisonAt (s.readKeyOf k)
  if s.poison.contains p then s else { s with poison := p :: s.poison }

end State

end Sys2Proof.Machine
end

