-- ==== Sys2Proof/Machine/Harts.lean ====
section
/-! DEFINITION. Harts and cores: which one is current, register access (R69, R299, R336), the chain, mask and state registers, and
the clocks. -/

namespace Sys2Proof.Machine

/-- An x register of the bank the mode uses; x0 reads zero (R299, R336). -/
def Hart.x (h : Hart) (r : XReg) : Word :=
  if r = 0 then 0 else match h.mode with
    | .s => h.xs[r.toNat]'r.isLt
    | _ => h.xu[r.toNat]'r.isLt

/-- A write of an x register; a write of x0 is discarded (R299). -/
def Hart.setX (h : Hart) (r : XReg) (w : Word) : Hart :=
  if r = 0 then h else match h.mode with
    | .s => { h with xs := h.xs.set r.toNat w r.isLt }
    | _ => { h with xu := h.xu.set r.toNat w r.isLt }

/-- A chain register (R155) and its replacement. -/
def Hart.chain (h : Hart) (r : VReg) : Desc := h.v[r.toNat]'r.isLt
def Hart.setChain (h : Hart) (r : VReg) (d : Desc) : Hart := { h with v := h.v.set r.toNat d r.isLt }

/-- A mask register; m0 reads all ones (R235). -/
def Hart.mask (h : Hart) (r : MReg) : BitVec 8192 := if r = 0 then BitVec.allOnes 8192 else h.m[r.toNat]'r.isLt
/-- A write of a mask register; m0 is not written (R235). -/
def Hart.setMask (h : Hart) (r : MReg) (w : BitVec 8192) : Hart := if r = 0 then h else { h with m := h.m.set r.toNat w r.isLt }

/-- The space an AS field selects (R81). -/
def Hart.space (h : Hart) (a : BitVec 2) : BitVec 16 := h.as[a.toNat]'a.isLt

/-- The agent number a hart acts under (R97). -/
def Hart.agent (h : Hart) : BitVec 32 := Config.nodeId ++ h.hartid

/-- No agent (R97). -/
abbrev noAgent : BitVec 32 := 0xFFFF_FFFF

/-- A ticket of a hart (R136). -/
def Hart.ticket (h : Hart) (t : Nat) : Ticket := h.tickets[t % 16]'(Nat.mod_lt _ (by decide))
def Hart.setTicket (h : Hart) (t : Nat) (k : Ticket) : Hart := { h with tickets := h.tickets.set (t % 16) k (Nat.mod_lt _ (by decide)) }
/-- A hart in one of the states RUNNING and WAITING (Table 16-4): its words issue or wait. -/
def Hart.live (h : Hart) : Bool := h.st == .running || h.st == .waiting
/-- The lowest-numbered free ticket (R136). -/
def Hart.freeTicket (h : Hart) : Option Nat := (List.range 16).find? fun t => (h.ticket t).state == .free

namespace State

/-- The current hart's x register, chain and mask, and their writes. -/
def x (s : State) (r : XReg) : Word := s.h.x r
def setX (s : State) (r : XReg) (w : Word) : State := { s with h := s.h.setX r w }
def setChain (s : State) (r : VReg) (d : Desc) : State := { s with h := s.h.setChain r d }
def setMask (s : State) (r : MReg) (w : BitVec 8192) : State := { s with h := s.h.setMask r w }

/-- The core number and slot of the current hart (R12). -/
def coreNo (s : State) : Nat := s.cur / 8
def slotNo (s : State) : Nat := s.cur % 8

/-- The hart in slot k and the core n of the device. -/
def hartAt (s : State) (k : Nat) : Hart := if k = s.cur then s.h else assocGet Hart.reset s.harts k
def coreAt (s : State) (n : Nat) : Core := if n = s.coreNo then s.core else assocGet Core.reset s.cores n

/-- A hart or core replaced. -/
def setHart (s : State) (k : Nat) (h : Hart) : State :=
  if k = s.cur then { s with h := h } else { s with harts := assocSet s.harts k h }
def setCore (s : State) (n : Nat) (c : Core) : State :=
  if n = s.coreNo then { s with core := c } else { s with cores := assocSet s.cores n c }

/-- Hart k made the current one, and its core the current core. -/
def focus (s : State) (k : Nat) : State :=
  if k = s.cur then s else
    let h := s.hartAt k
    let harts := assocSet (assocDel s.harts k) s.cur s.h
    if k / 8 = s.coreNo then { s with cur := k, h := h, harts := harts }
    else { s with cur := k, h := h, harts := harts, core := s.coreAt (k / 8), cores := assocSet (assocDel s.cores (k / 8)) s.coreNo s.core }

/-- The slots of a core that hold a hart (R329). -/
def slotsOf (s : State) (n : Nat) : List Nat :=
  (List.range 8).filter fun i => (s.hartAt (8 * n + i)).st != .free

/-- Every slot of the device that has ever held a hart, in ascending order: the current one and those in the list. -/
def placed (s : State) : List Nat :=
  ((assocSet s.harts s.cur s.h).filter fun p => p.2.st != .free).map Prod.fst

/-- The gang of a hart. -/
def gangOf (s : State) (h : Hart) : Option Gang := h.gang.bind fun g => s.gangs.find? fun x => x.id == g
/-- A gang replaced. -/
def setGang (s : State) (g : Gang) : State := { s with gangs := s.gangs.map fun x => if x.id = g.id then g else x }

/-- Whether core c runs a member of the current hart's gang; the issuing core always counts (R82). -/
def gangOnCore (s : State) (c : Nat) : Bool :=
  c == s.coreNo || match s.gangOf s.h with
    | some g => g.members.any fun k => k / 8 == c
    | none => false

/-- The lane groups a hart holds (R15). -/
def lanesOf (s : State) (k : Nat) : List Nat :=
  (List.range 8).filter fun g => decide ((s.coreAt (k / 8)).lanes[g]? = some (some (k % 8)))
/-- The current hart's grant and VLMAX (R15). -/
def vgrant (s : State) : Nat := (s.lanesOf s.cur).length
def vlmax (s : State) : Nat := 1024 * s.vgrant

/-- Nanoseconds since boot (R307): a clock is 20/17 ns at 850 MHz (R1, R368) (log 14). -/
def nanos (s : State) : Nat := s.cycle.toNat * 20 / 17

/-- A fresh number for a hand-off, a launch or a gang. -/
def newId (s : State) : Nat × State := (s.nextId, { s with nextId := s.nextId + 1 })

end State

end Sys2Proof.Machine
end

