-- ==== Sys2Proof/Machine/Translate.lean ====
section
/-! DEFINITION. From an address to a place: the core-local window (R82, R135), the table walk (R83, R84), the TLB and walker caches
(R89), the untranslated window (R85), page attributes (R87), routing (R86) and the key check (R98, R99, R104). -/

namespace Sys2Proof.Machine

/-- A cause with its tval (R338). -/
structure Trap where
  cause : BitVec 8
  tval : Word
  deriving DecidableEq, Repr

/-- Under whose context and rights an access is made (R16, R97, R100). -/
structure Acc where
  ctx : BitVec 16
  agent : BitVec 32
  /-- Mode S: no right is needed (R100). -/
  bypass : Bool
  /-- Mode S with BARE: space 0x0000 is untranslated (R85). -/
  bare : Bool
  ptbase : BitVec 29
  deriving DecidableEq, Repr

/-- Kinds of access in Table 05-3. -/
inductive Kind where
  | read
  | write
  | atomic
  /-- `ald` and `await`. -/
  | aread
  deriving DecidableEq, Repr

/-- Where an access goes: a key of this device with the page's attributes, or another node with the offset there as its key. -/
structure Place where
  key : Nat
  im : Bool
  at_ : Bool
  /-- A core-local memory of the window 0xFFFF (R82). -/
  inCore : Bool
  node : Option (BitVec 16)
  deriving DecidableEq, Repr

/-- The current hart's own accesses. -/
def Hart.acc (h : Hart) : Acc := ⟨h.kctx, h.agent, h.mode == .s, h.mode == .s && h.bare, h.ptbase⟩

/-- A space-table or page-table word read at home (R84): no word of a poisoned sector is used (R79). -/
def State.physRead (s : State) (p : Nat) : Except (BitVec 8) Word :=
  match physKey p with
  | none => .error 0x08
  | some k => if s.poisoned k then .error 0x0B else .ok (BitVec.ofNat 64 (ofBytes (s.homeRead k 8)))

/-- A space-table entry in order: V set, no reserved bit, its table inside a window (R83, Table 04-6). -/
def spaceEntryOk (e : Word) : Bool :=
  e.getLsbD 0 && (e.extractLsb' 44 20 == 0) && (e.extractLsb' 1 14 == 0)
    && (physKey ((e.extractLsb' 15 29).toNat * 2 ^ 15) != none)
/-- A non-leaf entry in order (R83, Table 04-7). -/
def nonLeafOk (e : Word) : Bool :=
  e.getLsbD 0 && !e.getLsbD 1 && (e.extractLsb' 44 20 == 0) && (e.extractLsb' 2 13 == 0)
    && (physKey ((e.extractLsb' 15 29).toNat * 2 ^ 15) != none)
/-- A leaf in order at a page size (R83, Table 04-8): not both IM and AT, FRAME aligned to the page, zero on another node, and on
the own node its first byte inside a window. -/
def leafOk (e : Word) (size : Nat) : Bool :=
  let node := e.extractLsb' 48 16
  let frame := (e.extractLsb' 16 28).toNat * 2 ^ 16
  e.getLsbD 0 && e.getLsbD 1 && (e.extractLsb' 44 4 == 0) && (e.extractLsb' 4 12 == 0) && !(e.getLsbD 2 && e.getLsbD 3)
    && decide (frame % size = 0) && (if node = Config.nodeId then (physKey frame != none) else decide (frame = 0))

/-- The size of a leaf's page by level (R84). -/
def pageSize (lvl : Nat) : Nat := 2 ^ (52 - 12 * lvl)

/-- The walk from a table at a level (R84). `cached` gives what the cluster walker holds. Beside the entry it finds, it lists the
non-leaf entries it read. -/
def State.walkFrom (s : State) (ctx space : BitVec 16) (off : Nat) (cached : Nat → Option Nat) :
    Nat → Nat → Nat → List WalkEntry → Except (BitVec 8) (TlbEntry × List WalkEntry)
  | 0, _, _, _ => .error 0x08
  | fuel + 1, lvl, table, seen =>
    match cached lvl with
    | some next => s.walkFrom ctx space off cached fuel (lvl + 1) next seen
    | none =>
      match s.physRead (table + off / pageSize lvl % 4096 * 8) with
      | .error c => .error c
      | .ok e =>
        if e.getLsbD 1 then
          if lvl = 0 ∨ !leafOk e (pageSize lvl) then .error 0x08
          else .ok (⟨ctx, space, off / pageSize lvl, pageSize lvl, e.extractLsb' 48 16, (e.extractLsb' 16 28).toNat * 2 ^ 16,
                     e.getLsbD 2, e.getLsbD 3⟩, seen)
        else if lvl = 3 ∨ !nonLeafOk e then .error 0x08
        else
          let next := (e.extractLsb' 15 29).toNat * 2 ^ 15
          s.walkFrom ctx space off cached fuel (lvl + 1) next (⟨ctx, space, lvl + 1, off / pageSize lvl, next⟩ :: seen)

/-- The two physical addresses of a byte of HBM4E (Table 04-1, R76): in the interleaved window and in the near-die one. -/
def physOf (key : Nat) : List Nat :=
  let st := keyStack key
  let o := key % 2 ^ 36
  [(o / 4096 * 12 + st) * 4096 + o % 4096, 2 ^ 40 + st / 3 * 2 ^ 38 + (o / 4096 * 3 + st % 3) * 4096 + o % 4096]
/-- Whether a byte lies in the page that a leaf of this node names. -/
def TlbEntry.holds (e : TlbEntry) (key : Nat) : Bool :=
  e.node == Config.nodeId && decide (key < lsBase) && (physOf key).any fun p => decide (e.frame ≤ p ∧ p < e.frame + e.size)

/-- The whole walk (R84), with the walker's held entries or without. -/
def State.walk (s : State) (a : Acc) (space : BitVec 16) (off : Nat) (held : List WalkEntry) : Except (BitVec 8) (TlbEntry × List WalkEntry) :=
  let find (lvl pfx : Nat) : Option Nat :=
    (held.find? fun w => w.ctx == a.ctx && w.space == space && w.level == lvl && w.pfx == pfx).map (·.table)
  let cached (lvl : Nat) : Option Nat := find (lvl + 1) (off / pageSize lvl)
  let go (root : Nat) (seen : List WalkEntry) := s.walkFrom a.ctx space off cached 4 0 root seen
  match find 0 0 with
  | some root => go root []
  | none =>
    match s.physRead (a.ptbase.toNat * 2 ^ 15 + space.toNat * 8) with
    | .error c => .error c
    | .ok e =>
      if spaceEntryOk e then
        let root := (e.extractLsb' 15 29).toNat * 2 ^ 15
        go root [⟨a.ctx, space, 0, 0, root⟩]
      else .error 0x08

/-- The walker entries of a cluster. -/
def State.walkerOf (s : State) (cluster : Nat) : List WalkEntry := assocGet [] s.walkers cluster

/-- The translation of an offset (R84, R89): from the TLB or by a walk. A held entry that no longer agrees with the tables may have
been dropped; whether it has is a free value. The TLB and the walker keep what was used. What the core's harts have read ahead in a page before
the core held its translation is read again (R90). -/
def State.translate (s : State) (a : Acc) (space : BitVec 16) (off : Nat) : Except (BitVec 8) (TlbEntry × State) :=
  let cl := s.coreNo / 8
  let plain := s.walk a space off []
  let walked := if Config.cacheForgets (4 * s.tick) then plain else s.walk a space off (s.walkerOf cl)
  let fill (r : TlbEntry × List WalkEntry) : TlbEntry × State :=
    (r.1, { s with
      core := { s.core with tlb := (r.1 :: s.core.tlb).take 2048 }
      early := s.early.filter fun x => !(x.hart / 8 == s.coreNo && r.1.holds x.key)
      walkers := assocSet s.walkers cl (r.2 ++ s.walkerOf cl) })
  match s.core.tlb.find? (fun e => e.ctx == a.ctx && e.space == space && off / e.size == e.page) with
  | some e =>
    if plain.toOption.map Prod.fst = some e then .ok (e, s)
    else if Config.cacheForgets (4 * s.tick + 1) then
      (walked.map fill)
    else .ok (e, s)
  | none => walked.map fill

/-- The keyring entry that covers an offset (R101). -/
def State.entryAt (s : State) (ctx space : BitVec 16) (off : Nat) : Option KeyEntry :=
  s.keyring.find? fun e => e.ctx == ctx && e.space == space && decide (e.base ≤ off ∧ off < e.base + 2 ^ e.size)

/-- The right of an agent over an entry (Table 05-2): 0 none, 1 read, 2 read and write. -/
def KeyEntry.right (e : KeyEntry) (agent : BitVec 32) : Nat :=
  match e.state with
  | .owned => if e.owner = agent then 2 else 0
  | .shared => if e.owner = agent ∨ agent ∈ e.shares then 1 else 0
  | _ => 0

/-- The agent number of a node's hosts (R385); a hart of this device may bear the same low half, and is told apart by where its request
comes from. -/
def isHostAgent (agent : BitVec 32) : Bool := agent.extractLsb' 0 16 == 0xFFFF

/-- Whether two ranges of bytes meet, the first a region. -/
def meetsRegion (base size off n : Nat) : Bool := decide (n ≠ 0 ∧ off < base + 2 ^ size ∧ base < off + n)
/-- Entries of a context that overlap a region (R103). -/
def State.overlapping (s : State) (ctx space : BitVec 16) (base size : Nat) : List KeyEntry :=
  s.keyring.filter fun e => e.ctx == ctx && e.space == space && meetsRegion base size e.base (2 ^ e.size)

/-- The node that a context's tables give an offset (R86), as they stand. -/
def State.nodeOf (s : State) (a : Acc) (space : BitVec 16) (off : Nat) : Option (BitVec 16) :=
  match s.walk a space off [] with
  | .ok (e, _) => some e.node
  | .error _ => none
/-- The base and size of a region around an offset that another node's controller would hold: it overlaps no entry of this node's, and the page of its base,
when that is not the offset's own page, is another node's (R101, log 10). -/
def State.foreignSpan (s : State) (a : Acc) (space : BitVec 16) (off : Nat) : Nat × Nat :=
  let n := 16 + (Config.remoteRegion space.toNat off a.agent.toNat s.tick).1 % 25
  let base := off / 2 ^ n * 2 ^ n
  let there := match s.nodeOf a space base with | some nd => nd != Config.nodeId | none => false
  let size := if there && (s.overlapping a.ctx space base n).isEmpty then n else 16
  (off / 2 ^ size * 2 ^ size, size)
/-- A region that covers an offset of a page here and has its base, and so its home controller (R101), on another node: base, size, the
agent's right, and the node. None in space 0x0000 (R86), or when that controller has no entry (log 10). -/
def State.foreignEntry (s : State) (a : Acc) (space : BitVec 16) (off : Nat) : Option (Nat × Nat × Nat × BitVec 16) :=
  let r := (Config.remoteRegion space.toNat off a.agent.toNat s.tick).2 % 4
  let g := s.foreignSpan a space off
  if space = 0 ∨ r = 3 then none
  else match s.nodeOf a space g.1 with
    | some nd => if nd = Config.nodeId then none else some (g.1, g.2, r, nd)
    | none => none
/-- One whose home is reached. -/
def State.foreignRegion (s : State) (a : Acc) (space : BitVec 16) (off : Nat) : Option (Nat × Nat × Nat) :=
  match s.foreignEntry a space off with
  | some (base, size, r, nd) => if s.unreachable.contains nd then none else some (base, size, r)
  | none => none
/-- The cause that refuses an access to an offset here for want of a right (R99): 0x08 when it lies in a region whose home node is not reached (R113,
R363). -/
def State.keyCause (s : State) (a : Acc) (space : BitVec 16) (off : Nat) : BitVec 8 :=
  if (s.entryAt a.ctx space off).isSome then 0x09
  else match s.foreignEntry a space off with
    | some (_, _, _, nd) => if s.unreachable.contains nd then 0x08 else 0x09
    | none => 0x09

/-- The right the home controller grants (R98) to a hart, or to a host (R385): over what no entry covers, and over nothing else. -/
def State.rightOf (s : State) (a : Acc) (space : BitVec 16) (off : Nat) (host : Bool) : Nat :=
  match s.entryAt a.ctx space off with
  | some e => if host then 0 else e.right a.agent
  | none => match s.foreignEntry a space off with
    | some (_, _, r, nd) => if host ∨ s.unreachable.contains nd then 0 else r
    | none => if host then 2 else 0

/-- Reads a hart has performed ahead of program order that an acquire comes before are performed again (R285, R287). -/
def State.dropEarly (s : State) (hart : Nat) (test : Early → Bool) : State := { s with early := s.early.filter fun e => !(e.hart == hart && test e) }

/-- Whether a key-cache entry is of an agent and covers an offset. -/
def KeyRight.hits (k : KeyRight) (a : Acc) (space : BitVec 16) (off : Nat) : Bool :=
  k.ctx == a.ctx && k.space == space && k.agent == a.agent && decide (k.base ≤ off ∧ off < k.base + 2 ^ k.size)
/-- The entry of the core's key cache that gives an access its right (R104). -/
def State.keyHit (s : State) (a : Acc) (space : BitVec 16) (off need : Nat) : Option KeyRight :=
  s.core.keys.find? fun k => k.hits a space off && (k.write || need == 1)
/-- A right granted by a controller fills the key cache (R104), and the hart acquires (R109). -/
def State.keyFill (s : State) (a : Acc) (space : BitVec 16) (off base size : Nat) (write : Bool) : State :=
  let k : KeyRight := ⟨a.ctx, space, base, size, a.agent, write⟩
  { s with core := { s.core with keys := (k :: s.core.keys.filter fun o => !o.hits a space off).take 256 } }.dropEarly s.cur fun _ => true

/-- The key check (R104) of a page of this node: the core's key cache, then the region's home controller, which is another node's when the
region has its base there. -/
def State.keyCheck (s : State) (a : Acc) (space : BitVec 16) (off need : Nat) : Option State :=
  match s.keyHit a space off need with
  | some k => some { s with core := { s.core with keys := k :: s.core.keys.filter (· ≠ k) } }
  | none =>
    match s.entryAt a.ctx space off with
    | some e => if e.right a.agent < need then none else some (s.keyFill a space off e.base e.size (e.right a.agent == 2))
    | none => match s.foreignRegion a space off with
      | some (base, size, r) => if r < need then none else some (s.keyFill a space off base size (r == 2))
      | none => none

/-- What is known here of the right to an access that another node serves: the key cache has it, or the region's entry is this node's. -/
def State.knownRight (s : State) (a : Acc) (space : BitVec 16) (off need : Nat) : Option Bool :=
  if (s.keyHit a space off need).isSome then some true else (s.entryAt a.ctx space off).map fun e => decide (need ≤ e.right a.agent)
/-- What the key cache holds after another node has granted such an access (R104, R113). -/
def State.keyKeep (s : State) (a : Acc) (space : BitVec 16) (off need : Nat) : State :=
  match s.keyHit a space off need, s.entryAt a.ctx space off with
  | some k, _ => { s with core := { s.core with keys := k :: s.core.keys.filter (· ≠ k) } }
  | none, some e => s.keyFill a space off e.base e.size (e.right a.agent == 2)
  | none, none => s.keyFill a space off (s.foreignSpan a space off).1 (s.foreignSpan a space off).2
      (need == 2 || (Config.remoteRegion space.toNat off a.agent.toNat s.tick).2 % 4 == 2)

/-- Whether the attributes of a page refuse an access (R87, Table 05-3): a write of an IM page, all but atomics on an AT page. -/
def Kind.refused (k : Kind) (im at_ : Bool) : Bool :=
  (im && (k == .write || k == .atomic)) || (at_ && !(k == .atomic || k == .aread))

/-- The right an access needs on a page that is neither IM nor AT (Table 05-3). -/
def Kind.need : Kind → Nat
  | .read => 1
  | .aread => 1
  | .write => 2
  | .atomic => 2

/-- A place in the core-local window (R82, R135): the local store of the own core, the hart's own slice of scalar data memory when
the access may name it, or a local store of the cluster. -/
def State.localPlace (s : State) (off n : Nat) (scalar : Bool) : Except (BitVec 8) Place :=
  if off + n ≤ 0x20_0000 then .ok ⟨lsKey s.coreNo off, false, false, true, none⟩
  else if 0x100_0000 ≤ off ∧ off + n ≤ 0x101_0000 then
    if scalar ∧ (off - 0x100_0000) / 0x2000 = s.slotNo ∧ (off + n - 1 - 0x100_0000) / 0x2000 = s.slotNo
    then .ok ⟨sdmKey s.coreNo (off - 0x100_0000), false, false, true, none⟩ else .error 0x08
  else if 0x1000_0000 ≤ off ∧ off < 0x1800_0000 ∧ off % 0x100_0000 + n ≤ 0x20_0000 then
    let c := s.coreNo / 8 * 8 + (off - 0x1000_0000) / 0x100_0000
    if s.gangOnCore c then .ok ⟨lsKey c (off % 0x100_0000), false, false, true, none⟩ else .error 0x09
  else .error 0x08

/-- A page of another node (R86, R87, R363): not in space 0x0000, its attributes, then whether the node is reached and what its check finds; `right` is what is
known here of the agent's right. A cause that a walk or a check there gives has the requester's own offset (log 53). -/
def State.routeOut (s : State) (e : TlbEntry) (space : BitVec 16) (off : Nat) (kind : Kind) (right : Option Bool) : Except (BitVec 8) Place :=
  if space = 0 then .error 0x08
  else if kind.refused e.im e.at_ then .error 0x09
  else if s.unreachable.contains e.node then .error 0x08
  else
    let c := Config.remoteCause e.node.toNat space.toNat off s.tick % 5
    if c = 1 then .error 0x08
    else if c = 3 then .error 0x0B
    else if c = 4 ∨ !right.getD (c == 0) then .error 0x09
    else .ok ⟨off, e.im, e.at_, false, some e.node⟩

/-- Translation, then the page attributes (R87), then the key check (R99) of an access to an offset of a memory space; what fails
is the cause. Space 0xFFFF is not for this function. -/
def State.locateMem (s : State) (a : Acc) (space : BitVec 16) (off : Nat) (kind : Kind) : Except (BitVec 8) (Place × State) :=
  if a.bare ∧ space = 0 then
    match physKey off with
    | some k => .ok (⟨k, false, false, false, none⟩, s)
    | none => .error 0x08
  else
    match s.translate a space off with
    | .error c => .error c
    | .ok (e, s1) =>
      let free := e.im || e.at_ || a.bypass
      if e.node ≠ Config.nodeId then
        (s.routeOut e space off kind (if free then some true else s1.knownRight a space off kind.need)).map fun p =>
          (p, if free then s1 else s1.keyKeep a space off kind.need)
      else
        match physKey (e.frame + off % e.size) with
        | none => .error 0x08
        | some k =>
          let p : Place := ⟨k, e.im, e.at_, false, none⟩
          if kind.refused e.im e.at_ then .error 0x09
          else if free then .ok (p, s1)
          else match s1.keyCheck a space off kind.need with
            | some s2 => .ok (p, s2)
            | none => .error (s1.keyCause a space off)

/-- Any access of n bytes that does not leave one page: the reserved spaces, the core-local window, memory (R80, R82). -/
def State.locate (s : State) (a : Acc) (space : BitVec 16) (off n : Nat) (kind : Kind) (scalar : Bool) : Except (BitVec 8) (Place × State) :=
  if space = 0xFFFF then (s.localPlace off n scalar).map fun p => (p, s)
  else if 0xFF00 ≤ space.toNat then .error 0x08
  else s.locateMem a space off kind

end Sys2Proof.Machine
end

