-- ==== Sys2Proof/Machine/Access.lean ====
section
/-! DEFINITION. Accesses: writes handed to the memory system and performed later (R61, R279, R280), the scalar L1 data cache (R281,
R303), and the scalar loads, stores and instruction fetches that use them (R55, R56, R302 to R304). -/

namespace Sys2Proof.Machine

/-- What a write operation makes of the bytes it finds (R199, R200, R276). -/
def applyOp (op : WriteOp) (old new : List Byte) : List Byte :=
  match op with
  | .put => new
  | .ast => new
  | .nib hi => match old, new with
    | [o], [v] => [if hi then (v &&& 0xF0) ||| (o &&& 0x0F) else (v &&& 0x0F) ||| (o &&& 0xF0)]
    | _, _ => new
  | .add t =>
    match fmtOf t with
    | some f => toBytes new.length (f.add rmRNE (ofBytes old) (ofBytes new)).1
    | none => toBytes new.length (ofBytes old + ofBytes new)
  | .maxn => toBytes new.length (max (ofBytes old) (ofBytes new))
  | .fmax t =>
    match fmtOf t with
    | some f => toBytes new.length (f.minmax true (ofBytes old) (ofBytes new)).1
    | none => new

/-- Two handed-off writes of one agent that meet at a byte (R280). -/
def Pending.meets (p q : Pending) : Bool :=
  p.hart == q.hart && p.vec == q.vec && p.node == q.node && (p.node.isNone || (p.ctx == q.ctx && p.space == q.space)) &&
    decide (p.key < q.key + q.data.length ∧ q.key < p.key + p.data.length)

/-- Whether one handed-off write is performed before a later one: they meet (R280), or they are elements of one instruction for one core,
whose packets go in ascending block and are applied in ascending element index (R194, R195). -/
def Pending.before (p q : Pending) : Bool := p.meets q || (p.pkt.isSome && p.pkt == q.pkt && p.hart == q.hart)

/-- Of handed-off writes, in hand-off order, those that satisfy a test and the earlier ones that must be performed before them: each that
comes before a later one of its agent (R193, R195, R280). -/
def needed (test : Pending → Bool) : List Pending → List Pending
  | [] => []
  | p :: t =>
    let u := needed test t
    if test p || u.any p.before then p :: u else u

/-- Whether a line holds any of the n bytes from a place: a key of this device, or an offset of a space on another node. -/
def L1Line.covers (l : L1Line) (node : Option (BitVec 16)) (ctx space : BitVec 16) (key n : Nat) : Bool :=
  l.node == node && (node.isNone || (l.ctx == ctx && l.space == space)) && decide (l.key < key + n ∧ key < l.key + 64)
/-- Two lines of one home. -/
def L1Line.same (l o : L1Line) : Bool := l.covers o.node o.ctx o.space o.key 64

/-- A line of 64 bytes as a bit vector and back. -/
def lineOf (bs : List Byte) : BitVec 512 := BitVec.ofNat 512 (ofBytes bs)
def lineBytes (d : BitVec 512) (from_ n : Nat) : List Byte := toBytes n (d.toNat / 2 ^ (8 * from_))
def linePut (d : BitVec 512) (from_ : Nat) (bs : List Byte) : BitVec 512 :=
  lineOf ((lineBytes d 0 64).take from_ ++ bs ++ (lineBytes d 0 64).drop (from_ + bs.length))

/-- The set of a line (R303: 64 sets). -/
def l1Set (key : Nat) : Nat := key / 64 % 64

namespace State

/-- A write-back meets a line with an error beyond correction: nothing of it is written, and the hart that wrote the line has a machine
check more pending, tval the line's offset (Table 18-1, log 24). -/
def lineCheck (s : State) (n : Nat) (l : L1Line) : State :=
  match (s.slotsOf n).find? fun i => (s.hartAt (8 * n + i)).kctx == l.ctx && (s.hartAt (8 * n + i)).agent == l.agent with
  | some i => let h := s.hartAt (8 * n + i); s.setHart (8 * n + i) { h with mcheck := h.mcheck ++ [BitVec.ofNat 64 l.off] }
  | none => s

/-- A line of core n written back: performed at home, or on its way to the node that is its home (R281). -/
def writeBack (s : State) (n : Nat) (l : L1Line) : State :=
  if l.bad then s.lineCheck n l
  else match l.node with
    | some nd => { s with remote := s.remote ++ [(⟨nd, l.ctx, l.space, l.key, l.agent, .put, lineBytes l.data 0 64⟩ : RemoteWrite)] }
    | none => s.homeWrite l.key (lineBytes l.data 0 64)

/-- Lines of core n's L1 that satisfy a test: dirty ones written back, and all dropped or kept clean (Table 05-8), but
for a dirty one with an error beyond correction, which is lost. -/
def sweepAt (s : State) (n : Nat) (test : L1Line → Bool) (back keep : Bool) : State :=
  let hit := (s.coreAt n).l1.filter test
  let s1 := if back then (hit.filter (·.dirty)).foldl (fun t l => t.writeBack n l) s else s
  let c := s1.coreAt n
  let kept := (c.l1.filter fun l => !(test l && l.dirty && l.bad)).map fun l => if test l then { l with dirty := false } else l
  s1.setCore n { c with l1 := if keep then kept else c.l1.filter fun l => !test l }
/-- Those of the current core. -/
def sweepL1 (s : State) (test : L1Line → Bool) (back keep : Bool) : State := s.sweepAt s.coreNo test back keep

/-- Dirty lines beyond correction that have left the current core's L1 by another state have left it here too. -/
def dropBadLines (s t : State) : State :=
  { s with core := { s.core with l1 := s.core.l1.filter fun l => !(l.bad && l.dirty && !t.core.l1.any (·.same l)) } }

/-- A write at home by another agent of a hart: what its scalar agent has read of those bytes ahead, and might yet fill a line from, is read again
(R143, R192). -/
def dropFills (s : State) (hart : Nat) (node : Option (BitVec 16)) (key n : Nat) : State :=
  s.dropEarly hart fun e => !e.vec && node.isNone && decide (e.key < key + n ∧ key < e.key + 8)

/-- A handed-off write performed at its home, its bank or on its way to another node (R279); a vector write first takes its line out of
the issuing core's L1, written back when dirty (R192), and no later fill of the line has an older value. What it finds in a poisoned unit is what stands there: an addition of 8 bytes to a poisoned word of
a core's memories adds to that, and ends the poison as a write of the whole word (log 68). -/
def perform (s : State) (p : Pending) : State :=
  let s0 := if p.flush then
      (s.sweepAt (p.hart / 8) (fun l => l.covers p.node p.ctx p.space p.key p.data.length) true false).dropFills p.hart p.node p.key p.data.length
    else s
  match p.node with
  | some n => { s0 with remote := s0.remote ++ [⟨n, p.ctx, p.space, p.off, p.agent, p.op, p.data⟩] }
  | none => s0.homeWrite p.key (applyOp p.op (s0.homeRead p.key p.data.length) p.data)

/-- Whether the k-th handed-off write may be performed: no earlier write of its agent comes before it (R193, R195, R280). -/
def mayPerform (s : State) (k : Nat) : Bool :=
  match s.pend[k]? with
  | some p => (s.pend.take k).all fun q => !q.before p
  | none => false

/-- The k-th handed-off write performed. -/
def performAt (s : State) (k : Nat) : State :=
  match s.pend[k]? with
  | some p => { s.perform p with pend := s.pend.eraseIdx k }
  | none => s

/-- Every handed-off write that satisfies a test performed, in hand-off order. -/
def performAll (s : State) (test : Pending → Bool) : State :=
  let now := s.pend.filter test
  let s1 := now.foldl (fun t p => t.perform p) s
  { s1 with pend := s1.pend.filter fun p => !test p }

/-- The own agent's earlier writes that meet n bytes at a place, and those they must follow, are performed before it reads them (R193,
R280). -/
def performOwn (s : State) (vec : Bool) (pl : Place) (space : BitVec 16) (n : Nat) : State :=
  let own := needed (fun p => p.hart == s.cur && p.vec == vec && p.node == pl.node && (pl.node.isNone || (p.ctx == s.h.kctx && p.space == space))
    && decide (p.key < pl.key + n ∧ pl.key < p.key + p.data.length)) s.pend
  s.performAll own.contains

/-- A write handed to the memory system by the current hart (R61), as an element of a scatter packet or by itself; what its agent had read
of those bytes ahead of it is read again. -/
def handOffIn (s : State) (pkt : Option (Nat × Nat)) (vec : Bool) (ctx space : BitVec 16) (off : Nat) (pl : Place) (op : WriteOp) (data : List Byte) : State :=
  let flush := (vec || op == .ast) && s.h.mode != .s && !pl.inCore && !pl.at_
  { s.dropEarly s.cur (fun e => e.vec == vec && pl.node.isNone && decide (e.key < pl.key + data.length ∧ pl.key < e.key + 8)) with
    pend := s.pend ++ [⟨s.nextId, s.cur, vec, s.h.agent, ctx, space, off, pl.key, pl.node, flush, pkt, op, data⟩], nextId := s.nextId + 1 }
def handOff (s : State) (vec : Bool) (ctx space : BitVec 16) (off : Nat) (pl : Place) (op : WriteOp) (data : List Byte) : State :=
  s.handOffIn none vec ctx space off pl op data

/-- The value of another node's bytes in a reply (R86, R363). -/
def remoteRead (s : State) (node space : BitVec 16) (off n : Nat) : List Byte :=
  (List.range n).map fun i => Config.remoteByte node.toNat space.toNat (off + i) s.tick
/-- The first sector of n bytes on another node that is poisoned there, by its virtual offset (R79, R363, log 10). -/
def remotePoison (s : State) (node space : BitVec 16) (off n : Nat) : Option Nat :=
  ((List.range ((off + n - 1) / 32 + 1 - off / 32)).find? fun i =>
    Config.remotePoisoned node.toNat space.toNat ((off / 32 + i) * 32) s.tick).map fun i => (off / 32 + i) * 32

/-- The lines that hold any of n bytes at a place leave the issuing core's L1, written back first when dirty (R143, R192, R291); no access
made in mode S does this (R100). After a write-back the hart reads those bytes anew (R280, R291). -/
def flushLines (s : State) (pl : Place) (space : BitVec 16) (n : Nat) : State :=
  let hit (l : L1Line) : Bool := l.covers pl.node s.h.kctx space pl.key n
  if pl.at_ || pl.inCore then s
  else
    let t := s.sweepL1 hit true false
    if s.core.l1.any fun l => hit l && l.dirty then t.dropEarly s.cur fun e => decide (e.key < pl.key + n ∧ pl.key < e.key + 8) else t

/-- A line brought to the front of its set's order (R303). -/
def l1Touch (s : State) (l : L1Line) : State := { s with core := { s.core with l1 := l :: s.core.l1.filter fun o => !l.same o } }

/-- The size of the page through which the current core reaches an offset, as its TLB holds it; 0 for an untranslated one. -/
def leafSize (s : State) (space : BitVec 16) (off : Nat) : Nat :=
  match s.core.tlb.find? (fun e => e.ctx == s.h.kctx && e.space == space && off / e.size == e.page) with
  | some e => e.size
  | none => 0

/-- The trap for a poisoned unit among n bytes at a place: tval is the virtual offset of the unit's first byte, here and on another node (R79,
R363, Table 18-1; for scalar accesses and atomics see log 52). -/
def poisonTrap (s : State) (pl : Place) (space : BitVec 16) (off n : Nat) : Option Trap :=
  match pl.node with
  | some nd => (s.remotePoison nd space off n).map fun p => ⟨0x0B, BitVec.ofNat 64 p⟩
  | none => (s.poisonIn pl.key n).map fun p => ⟨0x0B, BitVec.ofInt 64 ((off : Int) + p - pl.key)⟩
/-- That of the 64-byte line of a place. -/
def lineTrap (s : State) (pl : Place) (space : BitVec 16) (off : Nat) : Option Trap :=
  s.poisonTrap { pl with key := pl.key / 64 * 64 } space (off / 64 * 64) 64

/-- What an agent reads of n bytes at a key within one 8-byte unit: what it has read of them ahead of program order, when it uses that
(R282), else what stands there now. With it go the releases that the value stems from, and, for a value read ahead, its entry. -/
def agentRead (s : State) (vec : Bool) (key n : Nat) : List Byte × List Rel × Option Early :=
  match s.early.find? (fun e => e.hart == s.cur && e.vec == vec && e.key == key / 8 * 8) with
  | some e =>
    if Config.useEarly s.tick then ((e.data.drop (key % 8)).take n, e.rels, some e)
    else (s.homeRead key n, s.rels.filter (fun r => decide (r.key < key + n ∧ key < r.key + r.len)), none)
  | none => (s.homeRead key n, s.rels.filter (fun r => decide (r.key < key + n ∧ key < r.key + r.len)), none)

/-- The state after such a read: one made now leaves the agent no older value of the unit (R280). -/
def agentReadState (s : State) (vec : Bool) (key n : Nat) : State :=
  match (s.agentRead vec key n).2.2 with
  | some _ => s
  | none => s.dropEarly s.cur fun e => e.vec == vec && e.key == key / 8 * 8

/-- 8-byte units read by the scalar agent one after the other (R282). -/
def unitsRead (s : State) (key : Nat) : Nat → List Byte × State
  | 0 => ([], s)
  | n + 1 =>
    let r := (s.agentReadState false key 8).unitsRead (key + 8) n
    ((s.agentRead false key 8).1 ++ r.1, r.2)

/-- A line filled from its home; the least recently used of a full set leaves, written back when dirty (R303). -/
def l1Fill (s : State) (space : BitVec 16) (off : Nat) (pl : Place) : State × L1Line :=
  let base : Place := { pl with key := pl.key / 64 * 64 }
  let s0 := s.performOwn false base space 64
  let got : List Byte × State := match pl.node with | some nd => (s0.remoteRead nd space base.key 64, s0) | none => s0.unitsRead base.key 8
  let line : L1Line := ⟨s.h.kctx, space, off / 64 * 64, s.leafSize space off, base.key, pl.node, s.h.agent, false, false, lineOf got.1⟩
  let peers := got.2.core.l1.filter fun l => l1Set l.key == l1Set base.key
  let s1 := if 8 ≤ peers.length then
      match peers.getLast? with
      | some v => got.2.sweepL1 (fun l => v.same l) true false
      | none => got.2
    else got.2
  ({ s1 with core := { s1.core with l1 := line :: s1.core.l1 } }, line)

/-- The line held for a place. -/
def l1Find (s : State) (space : BitVec 16) (pl : Place) : Option L1Line :=
  s.core.l1.find? fun l => l.covers pl.node s.h.kctx space (pl.key / 64 * 64) 64

/-- Whether a scalar access bypasses the L1: AT pages, the core-local window, mode S (R100, R303). -/
def uncached (s : State) (pl : Place) : Bool := pl.at_ || pl.inCore || s.h.mode == .s

/-- The bytes a scalar load reads (R303): through the L1, or at home or bank after the agent's own writes. A line that holds a poisoned
sector is not filled, and a load of any of it traps, for the sector it would itself consume first (R79, R303). -/
def scalarRead (s : State) (space : BitVec 16) (off n : Nat) (pl : Place) : Except Trap (List Byte × State) :=
  if s.uncached pl then
    let s1 := s.performOwn false pl space n
    match s1.poisonTrap pl space off n, pl.node with
    | some t, _ => .error t
    | none, some nd => .ok (s1.remoteRead nd space off n, s1)
    | none, none => .ok ((s1.agentRead false pl.key n).1, s1.agentReadState false pl.key n)
  else
    match s.l1Find space pl with
    | some l => if l.bad then .error ⟨0x3F, BitVec.ofNat 64 l.off⟩ else .ok (lineBytes l.data (pl.key % 64) n, s.l1Touch l)
    | none =>
      let base := pl.key / 64 * 64
      let s0 := s.performOwn false { pl with key := base } space 64
      match s0.poisonTrap pl space off n, s0.lineTrap pl space off with
      | some t, _ => .error t
      | none, some t => .error t
      | none, none =>
        let r := s0.l1Fill space off pl
        .ok (lineBytes r.2.data (pl.key % 64) n, r.1)

/-- A scalar store (R303): into the L1, or handed to the memory system; what the hart's scalar agent had read of those bytes ahead of it is read
again (R280). -/
def scalarWrite (s : State) (space : BitVec 16) (off : Nat) (pl : Place) (bs : List Byte) : Except Trap State :=
  if s.uncached pl then .ok (s.handOff false s.h.kctx space off pl .put bs)
  else
    let put (t : State) (l : L1Line) : State :=
      (t.l1Touch { l with dirty := true, agent := t.h.agent, data := linePut l.data (pl.key % 64) bs }).dropEarly t.cur fun e =>
        !e.vec && pl.node.isNone && decide (e.key < pl.key + bs.length ∧ pl.key < e.key + 8)
    match s.l1Find space pl with
    | some l => if l.bad then .error ⟨0x3F, BitVec.ofNat 64 l.off⟩ else .ok (put s l)
    | none =>
      if (s.lineTrap pl space off).isSome then .ok (s.handOff false s.h.kctx space off pl .put bs)
      else
        let r := s.l1Fill space off pl
        .ok (put r.1 r.2)

/-- The checks of a scalar access (R302) or an atomic (R290, which may not name scalar data memory: `slice` false): reserved spaces and window offsets, then
alignment. A walk that reads a poisoned table entry gives 0x0B; the manual gives no tval for that, and the model puts the access's own offset (log 53). -/
def scalarPlace (s : State) (space : BitVec 16) (off n : Nat) (kind : Kind) (slice : Bool) : Except Trap (Place × State) :=
  let tv := BitVec.ofNat 64 off
  if 0xFF00 ≤ space.toNat ∧ space ≠ 0xFFFF then .error ⟨0x08, tv⟩
  else if space = 0xFFFF then
    match s.localPlace off 1 slice with
    | .error 0x09 => if off % n ≠ 0 then .error ⟨0x0A, tv⟩ else .error ⟨0x09, tv⟩
    | .error c => .error ⟨c, tv⟩
    | .ok pl => if off % n ≠ 0 then .error ⟨0x0A, tv⟩ else .ok (pl, s)
  else if off % n ≠ 0 then .error ⟨0x0A, tv⟩
  else match s.locateMem s.h.acc space off kind with
    | .error c => .error ⟨c, tv⟩
    | .ok r => .ok r

/-- A scalar load of n bytes (R302, R304). -/
def scalarLoad (s : State) (space : BitVec 16) (off n : Nat) : Except Trap (Nat × State) :=
  match s.scalarPlace space off n .read true with
  | .error t => .error t
  | .ok (pl, s1) =>
    match s1.scalarRead space off n pl with
    | .error t => .error t
    | .ok (bs, s2) => .ok (ofBytes bs, s2)

/-- A scalar store of n bytes (R302, R304). -/
def scalarStore (s : State) (space : BitVec 16) (off : Nat) (bs : List Byte) : Except Trap State :=
  match s.scalarPlace space off bs.length .write true with
  | .error t => .error t
  | .ok (pl, s1) => s1.scalarWrite space off pl bs

/-- The word an instruction fetch returns to accesses of a kind (R55, R56): checked as a read of 8 bytes in space 0x0000; a held line
that no longer agrees with memory may have been dropped, which is a free value. A page with IM needs no right, an AT page traps (Table
05-3). A poisoned sector at home traps the fetch also when the line is held, which R79 leaves open (log 67). -/
def fetchWordAs (s : State) (a : Acc) (pc : Word) : Except Trap (Word × State) :=
  match s.locateMem a 0 pc.toNat .read with
  | .error c => .error ⟨c, pc⟩
  | .ok (pl, s1) =>
    match s1.poisonTrap pl 0 pc.toNat 8 with
    | some t => .error t
    | none =>
      match pl.node with
      | some nd => .ok (BitVec.ofNat 64 (ofBytes (s1.remoteRead nd 0 pc.toNat 8)), s1)
      | none =>
        let base := pl.key / 64 * 64
        let now := lineOf (s1.homeRead base 64)
        let word (d : BitVec 512) : Word := BitVec.ofNat 64 (ofBytes (lineBytes d (pl.key % 64) 8))
        let size := if a.bare then 0 else s1.leafSize 0 pc.toNat
        let fill : State := { s1 with core := { s1.core with icache :=
          (⟨s1.h.kctx, pc.toNat / 64 * 64, size, base, now⟩ :: s1.core.icache.filter fun l => decide (l.key ≠ base)).take 1024 } }
        match s1.core.icache.find? (fun l => l.key == base) with
        | some l => if l.data = now then .ok (word now, s1) else if Config.cacheForgets (4 * s1.tick + 2) then .ok (word now, fill) else .ok (word l.data, s1)
        | none => .ok (word now, fill)
/-- The current hart's own fetch. -/
def fetchWord (s : State) (pc : Word) : Except Trap (Word × State) := s.fetchWordAs s.h.acc pc

end State

end Sys2Proof.Machine
end

