-- ==== Sys2Proof/Machine/Pool.lean ====
section
/-! DEFINITION. The link pool of the current core and the chains of the current hart (R152 to R173): links and rows, spines and
slots, allocation and quota, reference counts, reading and writing elements through spans, release and the reclaimer. Allocation
here never fails: a caller compares the outcome with the quota and the pool (`poolFits`) and keeps the state from before when it
does not fit, so a count of what was needed is always at hand (R164, R166). -/

namespace Sys2Proof.Machine

/-- The lowest id not listed (R162). -/
def firstFree : List (Nat × Link) → Nat → Nat
  | [], i => i
  | (k, _) :: t, i => if k = i then firstFree t (i + 1) else i

/-- The data a link slot word holds: V set and a data link id (Table 08-2); an id past 2047 stands only in a trial that finds how many links an
allocation lacks (R164, R166). -/
def slotWord (w : Nat) : Option Nat := if w / 2 ^ 15 % 2 = 1 then some (w % 2 ^ 15) else none

/-- Bytes of a chain with COUNT elements of a tag (R156). -/
def chainBytes (t : Tag) (n : Nat) : Nat := (n * tagWidth t + 7) / 8

/-- The place of chain byte b: the span it lies in and the byte of that span's extent (R155). -/
def spanOf : List Span → Nat → Option (Nat × Nat)
  | [], _ => none
  | p :: t, b => if b < p.len then some (p.spine, p.off + b) else spanOf t (b - p.len)

/-- Two adjacent spans contiguous on one spine become one (R156). -/
def mergeSpans : List Span → List Span
  | [] => []
  | p :: t =>
    match mergeSpans t with
    | q :: u => if p.spine = q.spine ∧ q.off = p.off + p.len then ⟨p.spine, p.off, p.len + q.len⟩ :: u else p :: q :: u
    | [] => [p]

/-- Bytes lo to lo + n - 1 of a span list (R176 `cut`, in bytes). -/
def cutBytes : List Span → Nat → Nat → List Span
  | [], _, _ => []
  | p :: t, lo, n =>
    if n = 0 then []
    else if p.len ≤ lo then cutBytes t (lo - p.len) n
    else
      let k := min (p.len - lo) n
      ⟨p.spine, p.off + lo, k⟩ :: cutBytes t 0 (n - k)

/-- The slots of a spine that a span covers (R154). -/
def Span.slots (p : Span) : List Nat := (List.range ((p.off + p.len - 1) / 512 + 1 - p.off / 512)).map (p.off / 512 + ·)

namespace State

/-- The header of a link; none when KIND is 0 (Table 08-1). -/
def link (s : State) (l : Nat) : Option Link := (s.core.links.find? fun p => p.1 == l).map Prod.snd
def setLink (s : State) (l : Nat) (k : Link) : State := { s with core := { s.core with links := assocSet s.core.links l k } }
def freeLink (s : State) (l : Nat) : State := { s with core := { s.core with links := assocDel s.core.links l } }
/-- Reference count of a link, 0 when free. -/
def rc (s : State) (l : Nat) : Nat := match s.link l with | some k => k.rc | none => 0
def setRc (s : State) (l n : Nat) : State := match s.link l with | some k => s.setLink l { k with rc := n } | none => s

/-- Links of KIND 0 in the core (Table 08-12). -/
def freeLinks (s : State) : Nat := 2048 - s.core.links.length
/-- What has been allocated fits the quota and the pool (R164). -/
def poolFits (s : State) : Bool := decide (s.h.vused ≤ s.h.vquota.toNat) && decide (s.core.links.length ≤ 2048)

/-- `alloc_link()` (R162): the lowest-numbered free link, charged to the hart, every row fresh. -/
def allocLink (s : State) (kind : LinkKind) : Nat × State :=
  let l := firstFree s.core.links 0
  let s1 := s.setLink l ⟨kind, s.slotNo, 0xFF, 0, 0⟩
  (l, { s1 with h := { s1.h with vused := s1.h.vused + 1 }, core := { s1.core with badRows := s1.core.badRows.filter fun r => decide (r / 8 ≠ l) } })

/-- A row of a link reads as zero while its FRESH bit is set (R153). -/
def rowFresh (s : State) (l row : Nat) : Bool := match s.link l with | some k => k.fresh.getLsbD row | none => false
def linkByte (s : State) (l b : Nat) : Byte := if s.rowFresh l (b / 64) then 0 else memGet s.core.pool (512 * l + b)
def linkBytes (s : State) (l b : Nat) : Nat → List Byte
  | 0 => []
  | n + 1 => s.linkByte l b :: s.linkBytes l (b + 1) n

/-- The first write of any bytes of a fresh row zeroes its other bytes and clears the bit (R153); the whole row is written, and so is sound. -/
def openRow (s : State) (l row : Nat) : State :=
  match s.link l with
  | some k =>
    if k.fresh.getLsbD row then
      let s1 := s.setLink l { k with fresh := k.fresh &&& ~~~(BitVec.ofNat 8 (2 ^ row)) }
      { s1 with core := { s1.core with
          pool := memClear s1.core.pool (512 * l + 64 * row) 64, badRows := s1.core.badRows.filter fun r => decide (r ≠ 8 * l + row) } }
    else s
  | none => s
/-- Bytes written inside one row of a link. -/
def linkPut (s : State) (l b : Nat) (bs : List Byte) : State :=
  let s1 := s.openRow l (b / 64)
  { s1 with core := { s1.core with pool := memSetN s1.core.pool (512 * l + b) bs } }

/-- Slot i of a spine (R154). -/
def slotGet (s : State) (sp i : Nat) : Option Nat := slotWord (ofBytes (s.linkBytes sp (2 * i) 2))
/-- A slot entered; NVALID counts the valid slots (Table 08-1). -/
def slotPut (s : State) (sp i l : Nat) : State :=
  let new := (s.slotGet sp i).isNone
  let s1 := s.linkPut sp (2 * i) (toBytes 2 (2 ^ 15 + l))
  match s1.link sp with
  | some k => if new then s1.setLink sp { k with nvalid := k.nvalid + 1 } else s1
  | none => s1
/-- The valid slots of a spine with their links, ascending. -/
def slotList (s : State) (sp : Nat) : List (Nat × Nat) :=
  (List.range 256).filterMap fun i => (s.slotGet sp i).map fun l => (i, l)

/-- The link and byte in it that hold chain byte b. -/
def byteLoc (s : State) (spans : List Span) (b : Nat) : Option (Nat × Nat) :=
  (spanOf spans b).bind fun (sp, e) => (s.slotGet sp (e / 512)).map fun l => (l, e % 512)

/-- n bytes of a chain from byte b. -/
def chainRead (s : State) (spans : List Span) (b : Nat) : Nat → List Byte
  | 0 => []
  | n + 1 => (match s.byteLoc spans b with | some (l, o) => s.linkByte l o | none => 0) :: s.chainRead spans (b + 1) n
/-- Bytes written into a chain's storage one after the other. -/
def chainPut (s : State) (spans : List Span) (b : Nat) : List Byte → State
  | [] => s
  | v :: vs => (match s.byteLoc spans b with | some (l, o) => s.linkPut l o [v] | none => s).chainPut spans (b + 1) vs

/-- `elem(v, j)` (R9, R155): the bits of element j. -/
def elem (s : State) (d : Desc) (j : Nat) : Nat :=
  if d.tag = 9 then
    let b := ofBytes (s.chainRead d.spans (j / 2) 1)
    if j % 2 = 0 then b % 16 else b / 16
  else
    let n := tagWidth d.tag / 8
    ofBytes (s.chainRead d.spans (j * n) n)
/-- Element j of a chain's storage rewritten. -/
def putElem (s : State) (d : Desc) (j v : Nat) : State :=
  if d.tag = 9 then
    let b := ofBytes (s.chainRead d.spans (j / 2) 1)
    s.chainPut d.spans (j / 2) [BitVec.ofNat 8 (if j % 2 = 0 then b / 16 * 16 + v % 16 else b % 16 + v % 16 * 16)]
  else
    let n := tagWidth d.tag / 8
    s.chainPut d.spans (j * n) (toBytes n v)

/-- Rows of the pool, link id × 8 + row, read whole by the current hart: the first beyond correction is a machine check for it (Table 18-1). -/
def readRows (s : State) (rows : List Nat) : State :=
  match rows.find? s.core.badRows.contains with
  | some r => { s with h := { s.h with mcheck := s.h.mcheck ++ [BitVec.ofNat 64 r] } }
  | none => s
/-- The rows of a link that are not fresh. -/
def linkRows (s : State) (l : Nat) : List Nat := ((List.range 8).filter fun r => !s.rowFresh l r).map (8 * l + ·)

/-- A link copy (R161): a new data link with the bytes and the FRESH bits of another, RC 1. -/
def copyLink (s : State) (l : Nat) : Nat × State :=
  let r := (s.readRows (s.linkRows l)).allocLink .data
  let s1 := r.2
  match s1.link l with
  | some k =>
    let s2 := s1.setLink r.1 ⟨.data, s1.slotNo, k.fresh, 1, 0⟩
    (r.1, { s2 with core := { s2.core with pool := memCopy s2.core.pool s2.core.pool (512 * l) (512 * r.1) 512 } })
  | none => (r.1, s1.setRc r.1 1)

/-- A private spine copy for a span (R161): the slots the span covers, same numbers and links; each link's count rises, a link at
255 is copied instead. The new spine has RC 0 until a span names it. -/
def copySpine (s : State) (p : Span) : Nat × State :=
  let r := (s.readRows (p.slots.map fun i => 8 * p.spine + i / 32)).allocLink .spine
  (r.1, p.slots.foldl (fun t i =>
    match t.slotGet p.spine i with
    | some l =>
      if t.rc l < 255 then (t.setRc l (t.rc l + 1)).slotPut r.1 i l
      else
        let c := t.copyLink l
        c.2.slotPut r.1 i c.1
    | none => t) r.2)

/-- One more span names a spine; past 255 the span gets a private copy (R161). -/
def refSpan (s : State) (p : Span) : Span × State :=
  if s.rc p.spine < 255 then (p, s.setRc p.spine (s.rc p.spine + 1))
  else
    let r := s.copySpine p
    (⟨r.1, p.off, p.len⟩, r.2.setRc r.1 1)
def refSpans (s : State) : List Span → List Span × State
  | [] => ([], s)
  | p :: t =>
    let r := s.refSpan p
    let q := r.2.refSpans t
    (r.1 :: q.1, q.2)

/-- Spans that no longer name their spines; counts only. -/
def unrefSpans (s : State) (l : List Span) : State := l.foldl (fun t p => t.setRc p.spine (t.rc p.spine - 1)) s
/-- A spine whose count is 0 joins the reclaim queue (R171). -/
def queueSpines (s : State) (l : List Span) : State :=
  l.foldl (fun t p =>
    match t.link p.spine with
    | some k =>
      if k.rc = 0 ∧ k.kind = .spine ∧ !(t.core.reclaim.any fun q => q.spine == p.spine) then
        { t with core := { t.core with reclaim := t.core.reclaim ++ [⟨p.spine, t.cur, 0⟩] } }
      else t
    | none => t) s
/-- The storage of a descriptor released (R171). -/
def releaseDesc (s : State) (d : Desc) : State := (s.unrefSpans d.spans).queueSpines d.spans

/-- `write_desc` (R176) for one register: the counts change by the spans written less the spans replaced (R160). -/
def writeDesc (s : State) (r : VReg) (tag : Tag) (count : Nat) (spans : List Span) : State :=
  let old := s.h.chain r
  let s1 := s.unrefSpans old.spans
  let q := s1.refSpans (mergeSpans spans)
  (q.2.setChain r ⟨tag, count, q.1⟩).queueSpines old.spans

/-- A register's chain released and the register marked so (R171). The rule sets TAG to 0 and says nothing of COUNT, NSPAN and the span
words, which are zero here too (log 58). -/
def releaseReg (s : State) (r : VReg) : State :=
  let d := s.h.chain r
  (s.setChain r Desc.released).releaseDesc d

/-- Whether a chain is exclusive (R168). -/
def exclusive (s : State) (d : Desc) : Bool :=
  d.spans.all fun p => s.rc p.spine == 1 && p.slots.all fun i => match s.slotGet p.spine i with | some l => s.rc l == 1 | none => false

/-- Spines of RC above 1 replaced by private copies, span by span (R169 step 1, R178 step 1). -/
def privateSpines (s : State) : List Span → List Span × State
  | [] => ([], s)
  | p :: t =>
    if 1 < s.rc p.spine then
      let r := s.copySpine p
      let s1 := (r.2.setRc r.1 1).setRc p.spine (r.2.rc p.spine - 1)
      let q := s1.privateSpines t
      (⟨r.1, p.off, p.len⟩ :: q.1, q.2)
    else
      let q := s.privateSpines t
      (p :: q.1, q.2)

/-- A data link of RC above 1 in a spine's slot replaced by a link copy (R169 step 2). -/
def privateLink (s : State) (sp i : Nat) : State :=
  match s.slotGet sp i with
  | some l =>
    if 1 < s.rc l then
      let c := s.copyLink l
      (c.2.slotPut sp i c.1).setRc l (c.2.rc l - 1)
    else s
  | none => s

/-- A fresh spine with data links for n bytes (R162), spine first; its RC is 0 until a span names it. -/
def newSpine (s : State) (n : Nat) : Nat × State :=
  let r := s.allocLink .spine
  (r.1, (List.range ((n + 511) / 512)).foldl (fun t i =>
    let l := t.allocLink .data
    (l.2.setRc l.1 1).slotPut r.1 i l.1) r.2)

/-- Links charged to the hart that are released or queued and not yet returned (Table 08-12 PEND): links of KIND 3 of the hart, and
the queued spines with the data links only they still list. -/
def pendLinks (s : State) : Nat :=
  let gone := (s.core.links.filter fun p => p.2.kind == .pending && p.2.slot == s.slotNo).length
  let mine := s.core.reclaim.filter fun q => q.owner == s.cur
  let listed := mine.flatMap fun q => (s.slotList q.spine).filterMap fun il => if q.pos ≤ il.1 then some il.2 else none
  let dead := listed.dedup.filter fun l => decide ((listed.count l) = s.rc l)
  gone + mine.length + dead.length

/-- One step of the reclaimer on the first queued spine (R171): its next valid slot, or after the last the spine itself. -/
def reclaimStep (s : State) : State :=
  match s.core.reclaim with
  | [] => s
  | q :: rest =>
    match (s.slotList q.spine).find? fun il => decide (q.pos ≤ il.1) with
    | some (i, l) =>
      let s1 := s.setRc l (s.rc l - 1)
      let s2 := if s1.rc l = 0 then (match s1.link l with | some k => s1.setLink l { k with kind := .pending } | none => s1) else s1
      { s2 with core := { s2.core with reclaim := { q with pos := i + 1 } :: rest } }
    | none =>
      let s1 := match s.link q.spine with | some k => s.setLink q.spine { k with kind := .pending } | none => s
      { s1 with core := { s1.core with reclaim := rest } }

/-- The first queued spine reclaimed whole (R171): at most 256 slots and the spine. -/
def reclaimFirst (s : State) : State :=
  match s.core.reclaim with
  | [] => s
  | q :: _ => (List.range 257).foldl (fun t _ => if (t.core.reclaim.head?.map (·.spine)) = some q.spine then t.reclaimStep else t) s

/-- The hart's links of KIND 3 returned to KIND 0 and to its quota (R172). -/
def returnLinks (s : State) : State :=
  let mine := s.core.links.filter fun p => p.2.kind == .pending && p.2.slot == s.slotNo
  let s1 := mine.foldl (fun t p => t.freeLink p.1) s
  { s1 with h := { s1.h with vused := s1.h.vused - mine.length } }

/-- Every queued spine of the hart reclaimed and its links returned: `cwait` with its wait run out (R172, R327). -/
def drainReclaim (s : State) : State :=
  ((List.range s.core.reclaim.length).foldl (fun t _ => t.reclaimFirst) s).returnLinks

end State

end Sys2Proof.Machine
end

