-- ==== Sys2Proof/Machine/Keyring.lean ====
section
/-! DEFINITION. Changes of the keyring other than by one instruction's own row: what a holder's caches lose (R56, R106, R108, R115),
exit (R114) and failure (R116) as Table 05-6 gives them. -/

namespace Sys2Proof.Machine

/-- Whether an offset lies in a region. -/
def inRegion (base size off : Nat) : Bool := decide (base ≤ off ∧ off < base + 2 ^ size)

/-- Whether a failure or an exit takes an agent of a context (R113, R114, R116). -/
def Gone.has (g : Gone) (ctx : BitVec 16) (agent : BitVec 32) : Bool :=
  agent != noAgent && match g with
    | .core who => who.contains (ctx, agent)
    | .node n => agent.extractLsb' 16 16 == n
    | .exit c a => c == ctx && a == agent

/-- Whether a row of Table 05-6 for it would change an entry: it takes the owner, the lender or a share holder. -/
def Gone.changes (g : Gone) (e : KeyEntry) : Bool := g.has e.ctx e.owner || g.has e.ctx e.lender || e.shares.any (g.has e.ctx)

/-- The region that a waiting request or event names: context, space, base and size; the two halves' own rows name the upper half. -/
def KeyWaiter.name (w : KeyWaiter) : Option (BitVec 16 × BitVec 16 × Nat × Nat) :=
  match w with
  | .hart _ ctx space base size => some (ctx, space, base, size)
  | .event _ ctx space base size => some (ctx, space, base, size)
  | .node _ ctx space off _ op =>
    match op with
    | .key _ size _ => some (BitVec.ofNat 16 ctx, BitVec.ofNat 16 space, off, size)
    | .halfPut size _ _ => some (BitVec.ofNat 16 ctx, BitVec.ofNat 16 space, off, size)
    | .halfTake size _ => some (BitVec.ofNat 16 ctx, BitVec.ofNat 16 space, off, size)
    | _ => none
/-- Whether it names bytes of a region. -/
def KeyWaiter.at_ (w : KeyWaiter) (ctx space : BitVec 16) (base size : Nat) : Bool :=
  match w.name with
  | some (c, sp, b, n) => c == ctx && sp == space && meetsRegion base size b (2 ^ n)
  | none => false
/-- A request of the hart in a slot; a request of an agent of another node; the exit of an agent. -/
def KeyWaiter.ofHart (k : Nat) (w : KeyWaiter) : Bool := match w with | .hart j _ _ _ _ => j == k | _ => false
def KeyWaiter.ofNode (who : BitVec 16 → BitVec 32 → Bool) (w : KeyWaiter) : Bool :=
  match w with | .node a ctx _ _ _ _ => who (BitVec.ofNat 16 ctx) (BitVec.ofNat 32 a) | _ => false
def KeyWaiter.exitOf (ctx : BitVec 16) (agent : BitVec 32) (w : KeyWaiter) : Bool := match w with | .event (.exit c a) _ _ _ _ => c == ctx && a == agent | _ => false

/-- A core's key-cache entries and instruction-cache lines of a region dropped, for the agents that satisfy a test (R56, R106). -/
def Core.dropRights (c : Core) (ctx space : BitVec 16) (base size : Nat) (who : BitVec 32 → Bool) : Core :=
  { c with
    keys := c.keys.filter fun k => !(k.ctx == ctx && k.space == space && meetsRegion base size k.base (2 ^ k.size) && who k.agent)
    icache := c.icache.filter fun l => !(l.ctx == ctx && space == 0 && inRegion base size l.off) }

/-- Two entries of one region. -/
def sameRegion (a b : KeyEntry) : Bool := a.ctx == b.ctx && a.space == b.space && a.base == b.base && a.size == b.size

namespace State

/-- A function applied to every core that the state lists. -/
def mapCores (s : State) (f : Nat → Core → Core) : State :=
  { s with core := f s.coreNo s.core, cores := s.cores.map fun p => (p.1, f p.1 p.2) }

/-- The slots of live harts that act under an agent number in a context: placed ones (R97, Table 05-5). -/
def slotsOfAgent (s : State) (ctx : BitVec 16) (agent : BitVec 32) : List Nat :=
  s.placed.filter fun k => (s.hartAt k).kctx == ctx && (s.hartAt k).agent == agent

/-- Whether an agent is a hart of a context that an eviction has taken off its core (R97, R318). -/
def evictedAgent (s : State) (ctx : BitVec 16) (task : Option (BitVec 16)) (agent : BitVec 32) : Bool :=
  s.waiting.any fun w => match s.launches.find? (fun l => l.id == w.gang.launch) with
    | some l => l.ctx == ctx && (match task with | some t => l.task == t | none => true) &&
        w.members.any fun m => Config.nodeId ++ m.hartid == agent
    | none => false

/-- Whether an agent of another node is there: a node declared unreachable has failed (R113). -/
def remoteAgent (s : State) (agent : BitVec 32) : Bool :=
  agent.extractLsb' 16 16 != Config.nodeId && !s.unreachable.contains (agent.extractLsb' 16 16) && Config.remoteLive agent.toNat s.tick

/-- Whether an agent is a live hart of a context, and of a task when one is asked for (Table 05-5): placed and not exiting, evicted and
waiting, or on another node (R113). -/
def liveAgent (s : State) (ctx : BitVec 16) (task : Option (BitVec 16)) (agent : BitVec 32) : Bool :=
  (!isHostAgent agent && s.remoteAgent agent) || s.evictedAgent ctx task agent ||
    s.placed.any fun k =>
      let h := s.hartAt k
      h.kctx == ctx && h.agent == agent && h.st != .exiting && (match task with | some t => h.taskid == t | none => true)

/-- The exact entry of a region. -/
def entryOf (s : State) (ctx space : BitVec 16) (base size : Nat) : Option KeyEntry :=
  s.keyring.find? fun e => e.ctx == ctx && e.space == space && e.base == base && e.size == size
/-- An entry replaced or removed, named by its region. -/
def putEntry (s : State) (e : KeyEntry) : State := { s with keyring := e :: s.keyring.filter fun o => !sameRegion o e }
def delEntry (s : State) (e : KeyEntry) : State := { s with keyring := s.keyring.filter fun o => !sameRegion o e }

/-- The lines of a region in the current core's L1 (Table 05-8). -/
def sweepRegion (s : State) (ctx space : BitVec 16) (base size : Nat) (back keep : Bool) : State :=
  s.sweepL1 (fun l => l.ctx == ctx && l.space == space && inRegion base size l.off) back keep

/-- The current core's key-cache entries and instruction lines of a region dropped for an agent (R108 steps 3 and 4). -/
def dropOwnRights (s : State) (ctx space : BitVec 16) (base size : Nat) (agent : BitVec 32) : State :=
  { s with core := s.core.dropRights ctx space base size (· == agent) }

/-- What share holders lose with their shares of a region (R115): their key-cache entries go on every core, the region's L1 and instruction
lines on the cores that run them. -/
def dropHolder (s : State) (ctx space : BitVec 16) (base size : Nat) (who : List (BitVec 32)) : State :=
  let cores := who.flatMap fun a => (s.slotsOfAgent ctx a).map (· / 8)
  s.mapCores fun n c =>
    let c1 := { c with keys := c.keys.filter fun k =>
      !(k.ctx == ctx && k.space == space && meetsRegion base size k.base (2 ^ k.size) && who.contains k.agent) }
    if cores.contains n then
      { (c1.dropRights ctx space base size fun a => who.contains a) with
        l1 := c1.l1.filter fun l => !(l.ctx == ctx && l.space == space && inRegion base size l.off) }
    else c1
/-- Every share of an entry dropped (R115). The entry is OWNED afterwards. -/
def dropShares (s : State) (e : KeyEntry) : State :=
  (s.dropHolder e.ctx e.space e.base e.size e.shares).putEntry { e with state := .owned, shares := [] }

/-- A region returned to its lender, or to HOME, where the entry stays only for POISON (Table 05-6). -/
def returnEntry (s : State) (e : KeyEntry) : State :=
  if e.lender ≠ noAgent then s.putEntry { e with state := .owned, owner := e.lender, lender := noAgent, shares := [] }
  else if e.poison then s.putEntry { e with state := .home, owner := noAgent, shares := [] }
  else s.delEntry e

/-- A share holder leaves an entry (Table 05-6). -/
def removeShare (s : State) (e : KeyEntry) (agent : BitVec 32) : State :=
  let l := e.shares.filter (· ≠ agent)
  s.putEntry { e with shares := l, state := if l.isEmpty then .owned else .shared }

/-- The row of Table 05-6 for a hart that exits, on one entry: each key it owns goes back as by `kret`, its share as by `kunshare`, with the
sweeps of the core it runs on (R108, R114, R115), none here for an agent of another node; what it lent loses its lender. -/
def exitRow (s : State) (ctx : BitVec 16) (agent : BitVec 32) (e : KeyEntry) : State :=
  let swept (t : State) : State := ((t.slotsOfAgent ctx agent).map (· / 8)).foldl (fun u n =>
    let v := u.sweepAt n (fun l => l.ctx == ctx && l.space == e.space && inRegion e.base e.size l.off) true false
    v.setCore n ((v.coreAt n).dropRights ctx e.space e.base e.size (· == agent))) t
  if e.ctx ≠ ctx then s
  else if e.owner = agent ∧ e.state = .owned then (swept s).returnEntry e
  else if e.owner = agent ∧ e.state = .shared then (swept (s.dropShares e)).returnEntry { e with state := .owned, shares := [] }
  else if e.shares.contains agent then (swept s).removeShare { e with lender := if e.lender = agent then noAgent else e.lender } agent
  else if e.lender = agent then s.putEntry { e with lender := noAgent }
  else s

/-- The failure rows of Table 05-6 for one entry (R113, R116). -/
def failRow (s : State) (g : Gone) (e : KeyEntry) : State :=
  let e2 := { e with lender := if g.has e.ctx e.lender then noAgent else e.lender }
  if g.has e2.ctx e2.owner then
    let t1 := if e2.state = .shared then s.dropShares e2 else s
    let t2 := t1.mapCores fun _ c => c.dropRights e2.ctx e2.space e2.base e2.size fun _ => true
    t2.putEntry { e2 with state := .orphaned, poison := if e2.state = .owned then true else e2.poison, shares := [], owner := noAgent, lender := noAgent }
  else
    let l := e2.shares.filter fun a => !g.has e2.ctx a
    if l.length < e2.shares.length then s.putEntry { e2 with shares := l, state := if l.isEmpty then .owned else .shared } else s.putEntry e2

/-- Table 05-6 for the agents that are gone, on one entry. -/
def goneRow (s : State) (g : Gone) (e : KeyEntry) : State :=
  match g with
  | .exit ctx agent => s.exitRow ctx agent e
  | .core who => s.failRow (.core who) e
  | .node n => s.failRow (.node n) e

/-- Whether a row would change an entry that is in transit, and so waits (R111). -/
def inTransit (s : State) (ctx space : BitVec 16) (base size : Nat) : Bool := (s.overlapping ctx space base size).any (·.transit)
/-- Whether an earlier request or event for the region waits at its controller (R111: arrival order). -/
def keyAhead (s : State) (me : KeyWaiter) (ctx space : BitVec 16) (base size : Nat) : Bool :=
  (s.keyQueue.takeWhile (· ≠ me)).any (·.at_ ctx space base size)
/-- Whether one that would change its entry waits. -/
def keyHeld (s : State) (me : KeyWaiter) (ctx space : BitVec 16) (base size : Nat) : Bool :=
  s.inTransit ctx space base size || s.keyAhead me ctx space base size

/-- Events that wait and whose turn has come, applied one after the other, to what has become of their regions. -/
def settleKeysN : Nat → State → State
  | 0, s => s
  | n + 1, s =>
    let ready (w : KeyWaiter) : Bool := match w with | .event _ ctx space base size => !s.keyHeld w ctx space base size | _ => false
    match s.keyQueue.find? ready with
    | some (.event g ctx space base size) =>
      let t : State := { s with keyQueue := s.keyQueue.erase (.event g ctx space base size) }
      settleKeysN n ((t.overlapping ctx space base size).foldl (fun u e0 => match u.keyring.find? (fun o => sameRegion o e0) with
        | some e => if g.changes e then u.goneRow g e else u
        | none => u) t)
    | _ => s
/-- Every event that waits and whose turn has come, applied (R111). -/
def settleKeys (s : State) : State := settleKeysN s.keyQueue.length s

/-- Those that satisfy a test no longer wait at their controllers. -/
def leaveQueue (s : State) (test : KeyWaiter → Bool) : State :=
  if s.keyQueue.any test then { s with keyQueue := s.keyQueue.filter fun w => !test w }.settleKeys else s

/-- A transfer given up: the entry stands as it did (R111), and what waited for it takes its turn. -/
def abandon (s : State) (e : KeyEntry) : State := (s.putEntry { e with transit := false, issuer := noAgent }).settleKeys

/-- The issuer of a transfer has failed: the transfer is abandoned and the failure rows apply to the entry as it stood, before anything that waits there
(R111). -/
def failIssuer (s : State) (g : Gone) (e : KeyEntry) : State :=
  let e0 := { e with transit := false, issuer := noAgent }
  let t := s.putEntry e0
  (if g.changes e0 then t.goneRow g e0 else t).settleKeys

/-- Whether the issuer of an entry's transfer has gone by a failure. -/
def issuerFails (g : Gone) (e : KeyEntry) : Bool :=
  e.transit && g.has e.ctx e.issuer && (match g with | .exit _ _ => false | _ => true)

/-- A failure or an exit reaches every entry that it changes (R113, R114, R116). At a region in transit, or where an earlier request or event
waits, it waits its turn; when the issuer of a transfer is gone, that transfer is abandoned (R111). -/
def loseHolders (s : State) (g : Gone) : State :=
  s.keyring.foldl (fun t e0 =>
    match t.keyring.find? (fun o => sameRegion o e0) with
    | none => t
    | some e =>
      if issuerFails g e then t.failIssuer g e else
      let u := if e.transit ∧ g.has e.ctx e.issuer then t.abandon e else t
      let me := KeyWaiter.event g e.ctx e.space e.base e.size
      match u.keyring.find? (fun o => sameRegion o e0) with
      | none => u
      | some o =>
        if u.keyQueue.contains me then u
        else if u.keyHeld me o.ctx o.space o.base o.size then
          (match g with
           | .exit ctx _ => if o.ctx = ctx then { u with keyQueue := u.keyQueue ++ [me] } else u
           | _ => { u with keyQueue := u.keyQueue ++ [me] })
        else if g.changes o then u.goneRow g o
        else u) s

/-- An error beyond correction in an entry or its shares (Table 18-1): as if its owner had failed, and POISON is set. -/
def loseEntry (s : State) (e : KeyEntry) : State :=
  let t1 := if e.state = .shared then s.dropShares e else s
  let t2 := t1.mapCores fun _ c => c.dropRights e.ctx e.space e.base e.size fun _ => true
  (t2.putEntry { e with state := .orphaned, poison := true, shares := [], owner := noAgent, lender := noAgent, transit := false, issuer := noAgent }).settleKeys

/-- Whether a line is of a region that another node's controller holds and an agent owns or shares: no entry here covers it, and the agent wrote or filled
it, or the key cache holds a right of the agent over it (R113, R114). -/
def foreignLine (s : State) (n : Nat) (ctx : BitVec 16) (agent : BitVec 32) (l : L1Line) : Bool :=
  l.ctx == ctx && l.space != 0 && (s.entryAt ctx l.space l.off).isNone &&
    (l.agent == agent || (s.coreAt n).keys.any fun k => k.ctx == ctx && k.agent == agent && k.space == l.space && inRegion k.base k.size l.off)
/-- Those lines of a core written back and invalidated, and the agent's rights gone. -/
def sweepForeign (s : State) (n : Nat) (ctx : BitVec 16) (agent : BitVec 32) : State :=
  let t := s.sweepAt n (s.foreignLine n ctx agent) true false
  t.setCore n { t.coreAt n with keys := (t.coreAt n).keys.filter fun k => !(k.ctx == ctx && k.agent == agent) }

end State

end Sys2Proof.Machine
end

