-- ==== Sys2Proof/Machine/Leave.lean ====
section
/-! DEFINITION. How a hart leaves its core: its gang's barrier (R295), its resources (R327, R328), its launch (R328), and a core's
failure (R116, R358, Table 16-4). Accesses of the sequencer and of hosts, which use no core's caches (R315, R328, R385). -/

namespace Sys2Proof.Machine

/-- The lane groups of a core that no hart owns. -/
def Core.freeLanes (c : Core) : List Nat := (List.range 8).filter fun g => decide (c.lanes[g]? = some none)
/-- Groups given an owner. -/
def Core.setLanes (c : Core) (l : List Nat) (o : Option Nat) : Core :=
  { c with lanes := Vector.ofFn fun g : Fin 8 => if l.contains g.val then o else c.lanes[g] }
/-- Whether a packet belongs to a gather (Table 09-5). -/
def Packet.gathers (p : Packet) : Bool := p.kind == 0 || p.kind == 1 || p.kind == 4
/-- Position in a convoy of the word at an address (R338 WORD). -/
def Convoy.pos (c : Convoy) (pc : Word) : Nat := ((pc - c.hinge) / 8).toNat

namespace State

/-- The translation root of a context: what Guesk set for it (R83, log 16). -/
def ctxRegs (s : State) (ctx : BitVec 16) : CtxRegs := assocGet ⟨0, 0, true, 0⟩ s.contexts ctx.toNat

/-- An access made by no core: the tables read at home, page attributes, and the right of an agent, `host` when it is one (R385); no cache is used or filled. -/
def devicePlace (s : State) (ctx : BitVec 16) (space : BitVec 16) (off : Nat) (agent : BitVec 32) (host bypass : Bool) (kind : Kind) :
    Except (BitVec 8) Place :=
  if 0xFF00 ≤ space.toNat then .error 0x08 else
  let a : Acc := ⟨ctx, agent, bypass, false, (s.ctxRegs ctx).ptbase⟩
  match s.walk a space off [] with
  | .error c => .error c
  | .ok (e, _) =>
    let free := e.im || e.at_ || bypass
    if e.node ≠ Config.nodeId then
      s.routeOut e space off kind (if free then some true else (s.entryAt ctx space off).map fun _ => decide (kind.need ≤ s.rightOf a space off host))
    else match physKey (e.frame + off % e.size) with
      | none => .error 0x08
      | some k =>
        let p : Place := ⟨k, e.im, e.at_, false, none⟩
        if kind.refused e.im e.at_ then .error 0x09
        else if free || decide (kind.need ≤ s.rightOf a space off host) then .ok p else .error (s.keyCause a space off)

/-- A far atomic of the sequencer on an n64 word of an AT page (R315, R328); none when it fails. -/
def sequencerAtomic (s : State) (ctx space : BitVec 16) (off : Nat) (op : WriteOp) (v : Nat) : Option State :=
  match s.devicePlace ctx space off noAgent false true .atomic with
  | .ok p =>
    if !p.at_ ∨ off % 8 ≠ 0 then none
    else match p.node with
      | some n => some { s with remote := s.remote ++ [(⟨n, ctx, space, off, noAgent, op, toBytes 8 v⟩ : RemoteWrite)] }
      | none =>
        if (s.poisonIn p.key 8).isSome then none
        else some (s.homeWrite p.key (applyOp op (s.homeRead p.key 8) (toBytes 8 v)))
  | .error _ => none

/-- A queue descriptor, read and replaced (R313). -/
def queue (s : State) (q : Nat) : Queue := assocGet Queue.empty s.queues q
def setQueue (s : State) (q : Nat) (d : Queue) : State := { s with queues := assocSet s.queues q d }

/-- The completion writes of a launch (R328): each is tried whatever became of the other; a failure sets ERR. -/
def completeLaunch (s : State) (l : Launch) : State :=
  let s0 := { s with launches := s.launches.filter fun x => decide (x.id ≠ l.id) }
  if l.comp = 0 then s0
  else
    let r1 := s0.sequencerAtomic l.ctx l.gspace ((l.comp + 8).toNat) .maxn l.maxcode.toNat
    let s1 := r1.getD s0
    let r2 := s1.sequencerAtomic l.ctx l.gspace l.comp.toNat (.add 8) 1
    let s2 := r2.getD s1
    if r1.isNone ∨ r2.isNone then s2.setQueue l.queue { s2.queue l.queue with err := true } else s2

/-- A member leaves its gang's barrier (R295). -/
def leaveBarrier (s : State) (k : Nat) (h : Hart) : State :=
  match s.gangOf h with
  | none => s
  | some g =>
    let pending := h.myph == g.phase + 1
    let members := g.members.filter (· ≠ k)
    let s1 := members.foldl (fun t m => t.setHart m { t.hartAt m with gbexp := h.gbexp - 1 }) s
    let g1 := { g with members := members }
    let g2 := if !pending ∧ 0 < g.count then
        (let e := g.expl - 1
         if g.count = e then { g1 with expl := e, phase := g.phase + 1, count := 0 } else { g1 with expl := e })
      else g1
    if members.isEmpty then { s1 with gangs := s1.gangs.filter fun x => decide (x.id ≠ g.id) } else s1.setGang g2

/-- A hart's exit code reported to its launch; after the last hart, the completion writes (R328). -/
def reportExit (s : State) (h : Hart) (code : BitVec 32) : State :=
  match s.gangOf h with
  | none => s
  | some g => match s.launches.find? fun l => l.id == g.launch with
    | none => s
    | some l =>
      let l1 := { l with exited := l.exited + 1, maxcode := if l.maxcode.toNat < code.toNat then code else l.maxcode }
      if l1.exited = l1.ngangs * l1.gang then s.completeLaunch l1
      else { s with launches := s.launches.map fun x => if x.id = l.id then l1 else x }

/-- What a core keeps of a hart is freed: links, lane groups, tiles, queue places (R327 step 5, R328). -/
def Core.freeSlot (c : Core) (k : Nat) : Core :=
  let drop (t : Tile) : Tile :=
    let t1 := { t with queue := t.queue.filter (· ≠ k % 8) }
    if t.holder = some (k % 8) then { Tile.empty with queue := t1.queue } else t1
  { c with
    links := c.links.filter fun p => decide (p.2.slot ≠ k % 8)
    reclaim := c.reclaim.filter fun q => decide (q.owner ≠ k)
    lanes := c.lanes.map fun o => if o = some (k % 8) then none else o
    za0 := drop c.za0, za1 := drop c.za1 }

/-- One round of R323: each hart in order with less than it asked for takes one group while any is left. -/
def entRound : List (Nat × Nat × Nat) → Nat → List (Nat × Nat × Nat) × Nat
  | [], left => ([], left)
  | (k, r, e) :: t, left =>
    if e < r ∧ 0 < left then
      let q := entRound t (left - 1)
      ((k, r, e + 1) :: q.1, q.2)
    else
      let q := entRound t left
      ((k, r, e) :: q.1, q.2)
/-- Rounds until nothing changes: at most eight give a group. -/
def entRounds : Nat → List (Nat × Nat × Nat) → Nat → List (Nat × Nat × Nat)
  | 0, l, _ => l
  | n + 1, l, left => let q := entRound l left; entRounds n q.1 q.2

/-- The slots of a core by run priority, highest first, then by slot (R323). -/
def byPriority (s : State) (n : Nat) : List Nat :=
  let p (i : Nat) : Nat := (s.hartAt (8 * n + i)).prio
  ((List.range 8).reverse.flatMap fun q => (s.slotsOf n).filter fun i => min 7 (p i) == q)

/-- The entitlement of each hart of a core (R323). -/
def entitlements (s : State) (n : Nat) : List (Nat × Nat) :=
  (entRounds 8 ((s.byPriority n).map fun i => (i, (s.hartAt (8 * n + i)).req, 0)) 8).map fun e => (e.1, e.2.2)
def entOf (s : State) (k : Nat) : Nat := assocGet 0 (s.entitlements (k / 8)) (k % 8)

/-- Entitlements recomputed: a hart whose grant exceeds its own owes the difference from now on, or still (R323, R324). -/
def entitle (s : State) (n : Nat) : State :=
  let e := s.entitlements n
  e.foldl (fun t p =>
    let k := 8 * n + p.1
    let h := t.hartAt k
    t.setHart k { h with debt := if p.2 < (t.lanesOf k).length then some (h.debt.getD t.cycle.toNat) else none }) s

/-- Whether a hart waits at `setvl` with no group (R331). -/
def claims (s : State) (k : Nat) : Bool :=
  let h := s.hartAt k
  h.st == .waiting && (s.lanesOf k).isEmpty && (match h.convoy.bind fun c => c.words[c.pos h.pc]? with | some (.setvl _ _ _) => true | _ => false)

/-- Free groups of a core go first to the harts that wait at `setvl`, by run priority, then slot, each until it holds what it wants (R331). -/
def handOut (s : State) (n : Nat) : State :=
  (s.byPriority n).foldl (fun t i =>
    let k := 8 * n + i
    if t.claims k then t.setCore n ((t.coreAt n).setLanes ((t.coreAt n).freeLanes.take (min (t.hartAt k).req (t.entOf k))) (some i)) else t) s

/-- A hart's slot becomes FREE; its resources go back to the core, and freed lane groups to those that wait for them. The elements of its
scatters are still performed (R279). -/
def freeHart (s : State) (k : Nat) : State :=
  let s1 := s.setCore (k / 8) (Core.freeSlot (s.coreAt (k / 8)) k)
  ((({ s1.setHart k Hart.reset with packets := s1.packets.filter fun p => decide (p.hart ≠ k) || !p.gathers }.dropEarly k fun _ => true).entitle (k / 8)).handOut (k / 8))

/-- A hart that ends with a code, its keys already dealt with (R328, R334). -/
def endHart (s : State) (k : Nat) (code : BitVec 32) : State :=
  let h := s.hartAt k
  (((s.reportExit h code).leaveBarrier k h)).freeHart k

/-- A core declared failed (R116, R358): its harts are terminated and their requests gone, its keys follow the failure rows, its L1 contents are
lost. -/
def failCore (s : State) (n : Nat) : State :=
  if (s.coreAt n).failed then s
  else
    let slots := (s.slotsOf n).map fun i => 8 * n + i
    let who := slots.map fun k => ((s.hartAt k).kctx, (s.hartAt k).agent)
    let c := s.coreAt n
    let s1 := s.setCore n { c with failed := true, l1 := [], keys := [], icache := [], tlb := [] }
    let s2 := (s1.leaveQueue fun w => slots.any w.ofHart || who.any fun a => w.exitOf a.1 a.2).loseHolders (.core who)
    slots.foldl (fun t k => t.endHart k 0xFFFF_FFFF) s2

end State

end Sys2Proof.Machine
end

