-- ==== Sys2Proof/Machine/Uses.lean ====
section
/-! DEFINITION. Register uses, unit classes and the serialising set (R57, R63 to R65), one row per instruction, as the descriptions
list the operands. An `ecopy`-family word reads its group of six registers, a selection word its group of four. -/

namespace Sys2Proof.Machine

/-- Unit classes (Table 03-2); scalar words have none. -/
inductive UnitClass where | A | L | K | F | P | LD | ST | C | Z | E | Q
  deriving DecidableEq, Repr

/-- What a word reads and writes (R63): x registers, chain registers (destinations in the order of Table 17-8), mask registers. -/
structure Uses where
  xr : List XReg := []
  xw : List XReg := []
  vr : List VReg := []
  vw : List VReg := []
  mr : List MReg := []
  mw : List MReg := []
  unit : Option UnitClass := none
  serial : Bool := false
  /-- Major 0x1A other than `clen`, `cinfo` and `cpoolst` (R63 case 5). -/
  edits : Bool := false
  deriving DecidableEq, Repr

/-- The n registers from r upward. -/
def regGroup (r : XReg) : Nat → List XReg
  | 0 => []
  | n + 1 => r :: regGroup (r + 1) n

/-- A second operand that S makes a scalar register (R232). -/
def srcS (s : Bool) (r : VReg) : List XReg × List VReg := if s then ([r], []) else ([], [r])

/-- The register uses of an instruction; a step of the device has none. -/
def uses : Instr → Uses
  | .add xd xa xb => { xr := [xa, xb], xw := [xd] }
  | .sub xd xa xb => { xr := [xa, xb], xw := [xd] }
  | .mul xd xa xb => { xr := [xa, xb], xw := [xd] }
  | .mulh xd xa xb => { xr := [xa, xb], xw := [xd] }
  | .mulhn xd xa xb => { xr := [xa, xb], xw := [xd] }
  | .div xd xa xb => { xr := [xa, xb], xw := [xd] }
  | .divn xd xa xb => { xr := [xa, xb], xw := [xd] }
  | .rem xd xa xb => { xr := [xa, xb], xw := [xd] }
  | .remn xd xa xb => { xr := [xa, xb], xw := [xd] }
  | .and xd xa xb => { xr := [xa, xb], xw := [xd] }
  | .or xd xa xb => { xr := [xa, xb], xw := [xd] }
  | .xor xd xa xb => { xr := [xa, xb], xw := [xd] }
  | .andn xd xa xb => { xr := [xa, xb], xw := [xd] }
  | .shl xd xa xb => { xr := [xa, xb], xw := [xd] }
  | .shr xd xa xb => { xr := [xa, xb], xw := [xd] }
  | .sra xd xa xb => { xr := [xa, xb], xw := [xd] }
  | .rotl xd xa xb => { xr := [xa, xb], xw := [xd] }
  | .rotr xd xa xb => { xr := [xa, xb], xw := [xd] }
  | .min xd xa xb => { xr := [xa, xb], xw := [xd] }
  | .max xd xa xb => { xr := [xa, xb], xw := [xd] }
  | .minn xd xa xb => { xr := [xa, xb], xw := [xd] }
  | .maxn xd xa xb => { xr := [xa, xb], xw := [xd] }
  | .slt xd xa xb => { xr := [xa, xb], xw := [xd] }
  | .sltn xd xa xb => { xr := [xa, xb], xw := [xd] }
  | .seq xd xa xb => { xr := [xa, xb], xw := [xd] }
  | .clz xd xa => { xr := [xa], xw := [xd] }
  | .ctz xd xa => { xr := [xa], xw := [xd] }
  | .popc xd xa => { xr := [xa], xw := [xd] }
  | .bswap xd xa => { xr := [xa], xw := [xd] }
  | .sext xd xa xb => { xr := [xa, xb], xw := [xd] }
  | .zext xd xa xb => { xr := [xa, xb], xw := [xd] }
  | .sel xd xa xb xc => { xr := [xa, xb, xc], xw := [xd] }
  | .addi xd xa _ => { xr := [xa], xw := [xd] }
  | .andi xd xa _ => { xr := [xa], xw := [xd] }
  | .ori xd xa _ => { xr := [xa], xw := [xd] }
  | .xori xd xa _ => { xr := [xa], xw := [xd] }
  | .shli xd xa _ => { xr := [xa], xw := [xd] }
  | .shri xd xa _ => { xr := [xa], xw := [xd] }
  | .srai xd xa _ => { xr := [xa], xw := [xd] }
  | .slti xd xa _ => { xr := [xa], xw := [xd] }
  | .sltni xd xa _ => { xr := [xa], xw := [xd] }
  | .seqi xd xa _ => { xr := [xa], xw := [xd] }
  | .muli xd xa _ => { xr := [xa], xw := [xd] }
  | .ldi xd _ => { xw := [xd] }
  | .ldhi xd _ => { xr := [xd], xw := [xd] }
  | .pcadd xd _ => { xw := [xd] }
  | .ld xd xa _ _ _ => { xr := [xa], xw := [xd] }
  | .ldn xd xa _ _ _ => { xr := [xa], xw := [xd] }
  | .st xs xa _ _ _ => { xr := [xs, xa] }
  | .beq xa xb _ => { xr := [xa, xb] }
  | .bne xa xb _ => { xr := [xa, xb] }
  | .blt xa xb _ => { xr := [xa, xb] }
  | .bge xa xb _ => { xr := [xa, xb] }
  | .bltn xa xb _ => { xr := [xa, xb] }
  | .bgen xa xb _ => { xr := [xa, xb] }
  | .jal xd _ => { xw := [xd] }
  | .jalr xd xa _ => { xr := [xa], xw := [xd] }
  | .fadd xd xa xb _ _ => { xr := [xa, xb], xw := [xd] }
  | .fsub xd xa xb _ _ => { xr := [xa, xb], xw := [xd] }
  | .fmul xd xa xb _ _ => { xr := [xa, xb], xw := [xd] }
  | .fdiv xd xa xb _ _ => { xr := [xa, xb], xw := [xd] }
  | .fsqrt xd xa _ _ => { xr := [xa], xw := [xd] }
  | .fma xd xa xb xc _ _ => { xr := [xa, xb, xc], xw := [xd] }
  | .fms xd xa xb xc _ _ => { xr := [xa, xb, xc], xw := [xd] }
  | .fnma xd xa xb xc _ _ => { xr := [xa, xb, xc], xw := [xd] }
  | .fmin xd xa xb _ => { xr := [xa, xb], xw := [xd] }
  | .fmax xd xa xb _ => { xr := [xa, xb], xw := [xd] }
  | .feq xd xa xb _ => { xr := [xa, xb], xw := [xd] }
  | .flt xd xa xb _ => { xr := [xa, xb], xw := [xd] }
  | .fle xd xa xb _ => { xr := [xa, xb], xw := [xd] }
  | .fcvtfi xd xa _ _ _ => { xr := [xa], xw := [xd] }
  | .fcvtif xd xa _ _ _ => { xr := [xa], xw := [xd] }
  | .fcvtff xd xa _ _ _ => { xr := [xa], xw := [xd] }
  | .fclass xd xa _ => { xr := [xa], xw := [xd] }
  | .fsgn xd xa xb _ _ => { xr := [xa, xb], xw := [xd] }
  | .csrr xd _ => { xw := [xd] }
  | .csrw xd xa _ => { xr := [xa], xw := [xd], serial := true }
  | .csrs xd xa _ => { xr := [xa], xw := [xd], serial := true }
  | .csrc xd xa _ => { xr := [xa], xw := [xd], serial := true }
  | .tlbinv xa xb xc => { xr := [xa, xb, xc], serial := true }
  | .vadd vd va vb xl msk _ _ s => { xr := [xl] ++ (srcS s vb).1, vr := [va] ++ (srcS s vb).2, vw := [vd], mr := (if msk = 0 then [] else [msk]), unit := some .A }
  | .vsub vd va vb xl msk _ _ s => { xr := [xl] ++ (srcS s vb).1, vr := [va] ++ (srcS s vb).2, vw := [vd], mr := (if msk = 0 then [] else [msk]), unit := some .A }
  | .vrsub vd va vb xl msk _ _ s => { xr := [xl] ++ (srcS s vb).1, vr := [va] ++ (srcS s vb).2, vw := [vd], mr := (if msk = 0 then [] else [msk]), unit := some .A }
  | .vmul vd va vb xl msk _ _ s => { xr := [xl] ++ (srcS s vb).1, vr := [va] ++ (srcS s vb).2, vw := [vd], mr := (if msk = 0 then [] else [msk]), unit := some .A }
  | .vmulh vd va vb xl msk _ s => { xr := [xl] ++ (srcS s vb).1, vr := [va] ++ (srcS s vb).2, vw := [vd], mr := (if msk = 0 then [] else [msk]), unit := some .A }
  | .vdiv vd va vb xl msk _ _ s => { xr := [xl] ++ (srcS s vb).1, vr := [va] ++ (srcS s vb).2, vw := [vd], mr := (if msk = 0 then [] else [msk]), unit := some .A }
  | .vrem vd va vb xl msk _ _ s => { xr := [xl] ++ (srcS s vb).1, vr := [va] ++ (srcS s vb).2, vw := [vd], mr := (if msk = 0 then [] else [msk]), unit := some .A }
  | .vfma vd va vb vc xl msk _ _ s => { xr := [xl] ++ (srcS s vb).1, vr := [va, vc] ++ (srcS s vb).2, vw := [vd], mr := (if msk = 0 then [] else [msk]), unit := some .A }
  | .vfms vd va vb vc xl msk _ _ s => { xr := [xl] ++ (srcS s vb).1, vr := [va, vc] ++ (srcS s vb).2, vw := [vd], mr := (if msk = 0 then [] else [msk]), unit := some .A }
  | .vfnma vd va vb vc xl msk _ _ s => { xr := [xl] ++ (srcS s vb).1, vr := [va, vc] ++ (srcS s vb).2, vw := [vd], mr := (if msk = 0 then [] else [msk]), unit := some .A }
  | .vmin vd va vb xl msk _ s => { xr := [xl] ++ (srcS s vb).1, vr := [va] ++ (srcS s vb).2, vw := [vd], mr := (if msk = 0 then [] else [msk]), unit := some .A }
  | .vmax vd va vb xl msk _ s => { xr := [xl] ++ (srcS s vb).1, vr := [va] ++ (srcS s vb).2, vw := [vd], mr := (if msk = 0 then [] else [msk]), unit := some .A }
  | .vabs vd va xl msk _ => { xr := [xl], vr := [va], vw := [vd], mr := (if msk = 0 then [] else [msk]), unit := some .A }
  | .vneg vd va xl msk _ => { xr := [xl], vr := [va], vw := [vd], mr := (if msk = 0 then [] else [msk]), unit := some .A }
  | .vsqrt vd va xl msk _ _ => { xr := [xl], vr := [va], vw := [vd], mr := (if msk = 0 then [] else [msk]), unit := some .A }
  | .vand vd va vb xl msk _ s => { xr := [xl] ++ (srcS s vb).1, vr := [va] ++ (srcS s vb).2, vw := [vd], mr := (if msk = 0 then [] else [msk]), unit := some .L }
  | .vor vd va vb xl msk _ s => { xr := [xl] ++ (srcS s vb).1, vr := [va] ++ (srcS s vb).2, vw := [vd], mr := (if msk = 0 then [] else [msk]), unit := some .L }
  | .vxor vd va vb xl msk _ s => { xr := [xl] ++ (srcS s vb).1, vr := [va] ++ (srcS s vb).2, vw := [vd], mr := (if msk = 0 then [] else [msk]), unit := some .L }
  | .vandn vd va vb xl msk _ s => { xr := [xl] ++ (srcS s vb).1, vr := [va] ++ (srcS s vb).2, vw := [vd], mr := (if msk = 0 then [] else [msk]), unit := some .L }
  | .vshl vd va vb xl msk _ s => { xr := [xl] ++ (srcS s vb).1, vr := [va] ++ (srcS s vb).2, vw := [vd], mr := (if msk = 0 then [] else [msk]), unit := some .L }
  | .vshr vd va vb xl msk _ s => { xr := [xl] ++ (srcS s vb).1, vr := [va] ++ (srcS s vb).2, vw := [vd], mr := (if msk = 0 then [] else [msk]), unit := some .L }
  | .vsra vd va vb xl msk _ s => { xr := [xl] ++ (srcS s vb).1, vr := [va] ++ (srcS s vb).2, vw := [vd], mr := (if msk = 0 then [] else [msk]), unit := some .L }
  | .vaddsat vd va vb xl msk _ s => { xr := [xl] ++ (srcS s vb).1, vr := [va] ++ (srcS s vb).2, vw := [vd], mr := (if msk = 0 then [] else [msk]), unit := some .A }
  | .vsubsat vd va vb xl msk _ s => { xr := [xl] ++ (srcS s vb).1, vr := [va] ++ (srcS s vb).2, vw := [vd], mr := (if msk = 0 then [] else [msk]), unit := some .A }
  | .vclz vd va xl msk _ => { xr := [xl], vr := [va], vw := [vd], mr := (if msk = 0 then [] else [msk]), unit := some .L }
  | .vpopc vd va xl msk _ => { xr := [xl], vr := [va], vw := [vd], mr := (if msk = 0 then [] else [msk]), unit := some .L }
  | .vdot vd va vb vc xl msk _ _ => { xr := [xl], vr := [va, vb, vc], vw := [vd], mr := (if msk = 0 then [] else [msk]), unit := some .A }
  | .vclass vd va xl msk _ => { xr := [xl], vr := [va], vw := [vd], mr := (if msk = 0 then [] else [msk]), unit := some .L }
  | .vcopysign vd va vb xl msk _ s => { xr := [xl] ++ (srcS s vb).1, vr := [va] ++ (srcS s vb).2, vw := [vd], mr := (if msk = 0 then [] else [msk]), unit := some .A }
  | .vmov vd va xl msk _ => { xr := [xl], vr := [va], vw := [vd], mr := (if msk = 0 then [] else [msk]), unit := some .A }
  | .vsplat vd xb xl msk _ _ => { xr := [xb, xl], vw := [vd], mr := (if msk = 0 then [] else [msk]), unit := some .A }
  | .vid vd xl msk _ _ => { xr := [xl], vw := [vd], mr := (if msk = 0 then [] else [msk]), unit := some .A }
  | .vcmpeq md va vb xl msk _ s => { xr := [xl] ++ (srcS s vb).1, vr := [va] ++ (srcS s vb).2, mr := (if msk = 0 then [] else [msk]), mw := [md], unit := some .A }
  | .vcmpne md va vb xl msk _ s => { xr := [xl] ++ (srcS s vb).1, vr := [va] ++ (srcS s vb).2, mr := (if msk = 0 then [] else [msk]), mw := [md], unit := some .A }
  | .vcmplt md va vb xl msk _ s => { xr := [xl] ++ (srcS s vb).1, vr := [va] ++ (srcS s vb).2, mr := (if msk = 0 then [] else [msk]), mw := [md], unit := some .A }
  | .vcmple md va vb xl msk _ s => { xr := [xl] ++ (srcS s vb).1, vr := [va] ++ (srcS s vb).2, mr := (if msk = 0 then [] else [msk]), mw := [md], unit := some .A }
  | .vcmpgt md va vb xl msk _ s => { xr := [xl] ++ (srcS s vb).1, vr := [va] ++ (srcS s vb).2, mr := (if msk = 0 then [] else [msk]), mw := [md], unit := some .A }
  | .vcmpge md va vb xl msk _ s => { xr := [xl] ++ (srcS s vb).1, vr := [va] ++ (srcS s vb).2, mr := (if msk = 0 then [] else [msk]), mw := [md], unit := some .A }
  | .vcmpun md va vb xl msk _ s => { xr := [xl] ++ (srcS s vb).1, vr := [va] ++ (srcS s vb).2, mr := (if msk = 0 then [] else [msk]), mw := [md], unit := some .A }
  | .mand md ma mb xl => { xr := [xl], mr := [ma, mb], mw := [md], unit := some .K }
  | .mor md ma mb xl => { xr := [xl], mr := [ma, mb], mw := [md], unit := some .K }
  | .mxor md ma mb xl => { xr := [xl], mr := [ma, mb], mw := [md], unit := some .K }
  | .mandn md ma mb xl => { xr := [xl], mr := [ma, mb], mw := [md], unit := some .K }
  | .mnot md ma xl => { xr := [xl], mr := [ma], mw := [md], unit := some .K }
  | .mset md xl => { xr := [xl], mw := [md], unit := some .K }
  | .mclr md => { mw := [md], unit := some .K }
  | .mpopc xd ma xl => { xr := [xl], xw := [xd], mr := [ma], unit := some .K }
  | .mfirst xd ma xl => { xr := [xl], xw := [xd], mr := [ma], unit := some .K }
  | .mfromv md va xl msk _ => { xr := [xl], vr := [va], mr := (if msk = 0 then [] else [msk]), mw := [md], unit := some .K }
  | .mtov vd ma xl msk _ _ => { xr := [xl], vw := [vd], mr := [ma] ++ (if msk = 0 then [] else [msk]), unit := some .K }
  | .vcvt vd va xl msk _ _ _ => { xr := [xl], vr := [va], vw := [vd], mr := (if msk = 0 then [] else [msk]), unit := some .A }
  | .vcvtsat vd va xl msk _ _ _ => { xr := [xl], vr := [va], vw := [vd], mr := (if msk = 0 then [] else [msk]), unit := some .A }
  | .vcvtmx vd va vsc xl _ _ => { xr := [xl], vr := [va], vw := [vd, vsc], unit := some .A }
  | .vcvtfrommx vd va vb xl msk _ _ _ => { xr := [xl], vr := [va, vb], vw := [vd], mr := (if msk = 0 then [] else [msk]), unit := some .A }
  | .vround vd va xl msk _ _ => { xr := [xl], vr := [va], vw := [vd], mr := (if msk = 0 then [] else [msk]), unit := some .A }
  | .vexp2 vd va xl msk _ _ => { xr := [xl], vr := [va], vw := [vd], mr := (if msk = 0 then [] else [msk]), unit := some .F }
  | .vexp vd va xl msk _ _ => { xr := [xl], vr := [va], vw := [vd], mr := (if msk = 0 then [] else [msk]), unit := some .F }
  | .vlog2 vd va xl msk _ _ => { xr := [xl], vr := [va], vw := [vd], mr := (if msk = 0 then [] else [msk]), unit := some .F }
  | .vrcp vd va xl msk _ _ => { xr := [xl], vr := [va], vw := [vd], mr := (if msk = 0 then [] else [msk]), unit := some .F }
  | .vrsqrt vd va xl msk _ _ => { xr := [xl], vr := [va], vw := [vd], mr := (if msk = 0 then [] else [msk]), unit := some .F }
  | .vsin vd va xl msk _ _ => { xr := [xl], vr := [va], vw := [vd], mr := (if msk = 0 then [] else [msk]), unit := some .F }
  | .vcos vd va xl msk _ _ => { xr := [xl], vr := [va], vw := [vd], mr := (if msk = 0 then [] else [msk]), unit := some .F }
  | .vtanh vd va xl msk _ _ => { xr := [xl], vr := [va], vw := [vd], mr := (if msk = 0 then [] else [msk]), unit := some .F }
  | .vsigmoid vd va xl msk _ _ => { xr := [xl], vr := [va], vw := [vd], mr := (if msk = 0 then [] else [msk]), unit := some .F }
  | .vredsum xd va xl msk _ => { xr := [xl], xw := [xd], vr := [va], mr := (if msk = 0 then [] else [msk]), unit := some .P }
  | .vredmax xd va xl msk => { xr := [xl], xw := [xd], vr := [va], mr := (if msk = 0 then [] else [msk]), unit := some .P }
  | .vredmin xd va xl msk => { xr := [xl], xw := [xd], vr := [va], mr := (if msk = 0 then [] else [msk]), unit := some .P }
  | .vredand xd va xl msk => { xr := [xl], xw := [xd], vr := [va], mr := (if msk = 0 then [] else [msk]), unit := some .P }
  | .vredor xd va xl msk => { xr := [xl], xw := [xd], vr := [va], mr := (if msk = 0 then [] else [msk]), unit := some .P }
  | .vscan vd va xl msk _ _ => { xr := [xl], vr := [va], vw := [vd], mr := (if msk = 0 then [] else [msk]), unit := some .P }
  | .vscanx vd va xl msk _ _ => { xr := [xl], vr := [va], vw := [vd], mr := (if msk = 0 then [] else [msk]), unit := some .P }
  | .vscanmax vd va xl msk _ => { xr := [xl], vr := [va], vw := [vd], mr := (if msk = 0 then [] else [msk]), unit := some .P }
  | .vcompress vd va xl msk => { xr := [xl], vr := [va], vw := [vd], mr := (if msk = 0 then [] else [msk]), unit := some .P }
  | .vexpand vd va vb xl msk z => { xr := [xl], vr := [va] ++ (if z then [] else [vb]), vw := [vd], mr := (if msk = 0 then [] else [msk]), unit := some .P }
  | .vslideup vd va xb vc xl c => { xr := [xb, xl], vr := [va] ++ (if c then [vc] else []), vw := [vd], unit := some .P }
  | .vslidedn vd va xb vc xl c => { xr := [xb, xl], vr := [va] ++ (if c then [vc] else []), vw := [vd], unit := some .P }
  | .vperm vd va vb xl => { xr := [xl], vr := [va, vb], vw := [vd], unit := some .P }
  | .vrev vd va xl => { xr := [xl], vr := [va], vw := [vd], unit := some .P }
  | .vzip vd va vb xl => { xr := [xl], vr := [va, vb], vw := [vd], unit := some .P }
  | .vunzip vd ve va xl => { xr := [xl], vr := [va], vw := [vd, ve], unit := some .P }
  | .vsegsum vd va vb xl msk _ => { xr := [xl], vr := [va, vb], vw := [vd], mr := (if msk = 0 then [] else [msk]), unit := some .P }
  | .vsegscan vd va vb xl msk _ _ => { xr := [xl], vr := [va, vb], vw := [vd], mr := (if msk = 0 then [] else [msk]), unit := some .P }
  | .vsegmax vd va vb xl msk => { xr := [xl], vr := [va, vb], vw := [vd], mr := (if msk = 0 then [] else [msk]), unit := some .P }
  | .vsegmin vd va vb xl msk => { xr := [xl], vr := [va, vb], vw := [vd], mr := (if msk = 0 then [] else [msk]), unit := some .P }
  | .vmergek vd va vb xl => { xr := [xl], vr := [va, vb], vw := [vd], unit := some .P }
  | .vsortk vd va xl _ => { xr := [xl], vr := [va], vw := [vd], unit := some .P }
  | .vconflict md va xl msk => { xr := [xl], vr := [va], mr := (if msk = 0 then [] else [msk]), mw := [md], unit := some .P }
  | .vld vd xa xl msk _ _ _ => { xr := [xa, xl], vw := [vd], mr := (if msk = 0 then [] else [msk]), unit := some .LD }
  | .vlds vd xa xb xl msk _ _ _ => { xr := [xa, xb, xl], vw := [vd], mr := (if msk = 0 then [] else [msk]), unit := some .LD }
  | .vldx vd xa vi xl msk _ _ => { xr := [xa, xl], vr := [vi], vw := [vd], mr := (if msk = 0 then [] else [msk]), unit := some .LD }
  | .vst vs xa xl msk _ _ _ => { xr := [xa, xl], vr := [vs], mr := (if msk = 0 then [] else [msk]), unit := some .ST }
  | .vsts vs xa xb xl msk _ _ _ => { xr := [xa, xb, xl], vr := [vs], mr := (if msk = 0 then [] else [msk]), unit := some .ST }
  | .vstx vs xa vi xl msk _ _ => { xr := [xa, xl], vr := [vs, vi], mr := (if msk = 0 then [] else [msk]), unit := some .ST }
  | .vstxadd vs xa vi xl msk _ _ _ => { xr := [xa, xl], vr := [vs, vi], mr := (if msk = 0 then [] else [msk]), unit := some .ST }
  | .cnew vd xa _ => { xr := [xa], vw := [vd], unit := some .C, edits := true }
  | .cfree vd => { vw := [vd], unit := some .C, edits := true }
  | .cshare vd va => { vr := [va], vw := [vd], unit := some .C, edits := true }
  | .cprep vd va vb => { vr := [va, vb], vw := [vd], unit := some .C, edits := true }
  | .csplice vd va vb xa => { xr := [xa], vr := [va, vb], vw := [vd], unit := some .C, edits := true }
  | .csplit vd ve va xa => { xr := [xa], vr := [va], vw := [vd, ve], unit := some .C, edits := true }
  | .ctrimh vd va xa => { xr := [xa], vr := [va], vw := [vd], unit := some .C, edits := true }
  | .ctrimt vd va xa => { xr := [xa], vr := [va], vw := [vd], unit := some .C, edits := true }
  | .cslice vd va xa xb => { xr := [xa, xb], vr := [va], vw := [vd], unit := some .C, edits := true }
  | .cretag vd va _ => { vr := [va], vw := [vd], unit := some .C, edits := true }
  | .clen xd va => { xw := [xd], vr := [va], unit := some .C }
  | .cinfo xd va _ => { xw := [xd], vr := [va], unit := some .C }
  | .cflat vd va => { vr := [va], vw := [vd], unit := some .C, edits := true }
  | .cpriv vd va => { vr := [va], vw := [vd], unit := some .C, edits := true }
  | .cpoolst xd => { xw := [xd], unit := some .C }
  | .cwait => { unit := some .C, edits := true }
  | .zmode _ xk => { xr := [xk], unit := some .Z, serial := true }
  | .zzero _ => { unit := some .Z }
  | .zop _ va vb xk _ => { xr := [xk], vr := [va, vb], unit := some .Z }
  | .zopmx _ va vb xk _ vsa vsb => { xr := [xk], vr := [va, vb, vsa, vsb], unit := some .Z }
  | .zload _ va xk xs => { xr := [xk, xs], vr := [va], unit := some .Z }
  | .zdrain _ vd xk xs _ _ => { xr := [xk, xs], vw := [vd], unit := some .Z }
  | .zrow _ vd xs => { xr := [xs], vw := [vd], unit := some .Z }
  | .zchk _ md xs => { xr := [xs], mw := [md], unit := some .Z }
  | .kacq xd xa xb _ _ => { xr := [xa, xb], xw := [xd], serial := true }
  | .klend xd xa xb xc _ _ => { xr := [xa, xb, xc], xw := [xd], serial := true }
  | .kshare xd xa xb xc _ _ => { xr := [xa, xb, xc], xw := [xd], serial := true }
  | .kret xd xa xb _ _ => { xr := [xa, xb], xw := [xd], serial := true }
  | .kunshare xd xa xb _ _ => { xr := [xa, xb], xw := [xd], serial := true }
  | .ksplit xd xa xb _ _ => { xr := [xa, xb], xw := [xd], serial := true }
  | .kmerge xd xa xb _ _ => { xr := [xa, xb], xw := [xd], serial := true }
  | .kdrop xd xa xb _ _ => { xr := [xa, xb], xw := [xd], serial := true }
  | .kquery xd xa _ _ => { xr := [xa], xw := [xd] }
  | .krecover xd xa xb xc _ _ => { xr := [xa, xb, xc], xw := [xd], serial := true }
  | .kclean xd xa xb _ _ => { xr := [xa, xb], xw := [xd], serial := true }
  | .aadd xd xa xb _ _ _ _ _ => { xr := [xa, xb], xw := [xd] }
  | .amin xd xa xb _ _ _ _ _ => { xr := [xa, xb], xw := [xd] }
  | .amax xd xa xb _ _ _ _ _ => { xr := [xa, xb], xw := [xd] }
  | .aminn xd xa xb _ _ _ _ _ => { xr := [xa, xb], xw := [xd] }
  | .amaxn xd xa xb _ _ _ _ _ => { xr := [xa, xb], xw := [xd] }
  | .aand xd xa xb _ _ _ _ _ => { xr := [xa, xb], xw := [xd] }
  | .aor xd xa xb _ _ _ _ _ => { xr := [xa, xb], xw := [xd] }
  | .axor xd xa xb _ _ _ _ _ => { xr := [xa, xb], xw := [xd] }
  | .aswap xd xa xb _ _ _ _ _ => { xr := [xa, xb], xw := [xd] }
  | .acas xd xa xb xc _ _ _ _ _ => { xr := [xa, xb, xc], xw := [xd] }
  | .afadd xd xa xb _ _ _ _ _ _ => { xr := [xa, xb], xw := [xd] }
  | .afmax xd xa xb _ _ _ _ _ => { xr := [xa, xb], xw := [xd] }
  | .ald xd xa _ _ _ _ _ => { xr := [xa], xw := [xd] }
  | .ast xa xb _ _ _ _ _ => { xr := [xa, xb] }
  | .fenceSv xa xb _ _ _ => { xr := [xa, xb], serial := true }
  | .fenceVs _ => { serial := true }
  | .fenceVv _ => { serial := true }
  | .fenceAll xa xb _ _ _ => { xr := [xa, xb], serial := true }
  | .gbar xd => { xw := [xd], serial := true }
  | .gbarin => {  }
  | .gbarwt xd => { xw := [xd], serial := true }
  | .await xd xa xb xc _ _ _ _ _ => { xr := [xa, xb, xc], xw := [xd], serial := true }
  | .ecopy xd xa xb xc _ _ => { xr := [xa, xb] ++ regGroup xc 6, xw := [xd], unit := some .E }
  | .ecopyc vd xa xb xl _ _ _ => { xr := [xa, xb, xl], vw := [vd], unit := some .E }
  | .ecast xd xa xb xc _ _ => { xr := [xa, xb] ++ regGroup xc 6, xw := [xd], unit := some .E }
  | .ewin xd xa xb xc _ _ => { xr := [xa, xb] ++ regGroup xc 6, xw := [xd], unit := some .E }
  | .ewait xd xa => { xr := [xa], xw := [xd], unit := some .E }
  | .estat xd xa _ => { xr := [xa], xw := [xd], unit := some .E }
  | .qsel xd xa xb xc _ _ => { xr := [xa, xb] ++ regGroup xc 4, xw := [xd], unit := some .Q }
  | .qtopk xd xa xb xc _ _ => { xr := [xa, xb] ++ regGroup xc 4, xw := [xd], unit := some .Q }
  | .qcount xd xa xb xc _ _ => { xr := [xa, xb] ++ regGroup xc 4, xw := [xd], unit := some .Q }
  | .setvl xd xa xb => { xr := [xa, xb], xw := [xd], serial := true }
  | .vrel => { serial := true }
  | .yield xa => { xr := [xa], serial := true }
  | .exit xa => { xr := [xa], serial := true }
  | .launch xd xa xb _ _ => { xr := [xa, xb], xw := [xd], serial := true }
  | .trapret => { serial := true }
  | .ecall _ => { serial := true }
  | .ebreak _ => { serial := true }
  | .hsave xd xa => { xr := [xa], xw := [xd], serial := true }
  | .hload xd xa => { xr := [xa], xw := [xd], serial := true }
  | .engineRow _ => {}
  | .ecopycTransfer _ _ => {}
  | .copyCommandComplete _ => {}
  | .selectionScan _ _ _ => {}
  | .selectionMerge _ _ => {}
  | .reclaimSpine _ => {}
  | .writePerformed _ => {}
  | .keyTransferComplete _ => {}
  | .tlbinvComplete _ => {}
  | .fenceComplete _ => {}
  | .awaitWake _ => {}
  | .awaitTimeout _ => {}
  | .yieldExpiry _ => {}
  | .gatherRequest _ => {}
  | .gatherReply _ => {}
  | .scatter _ => {}
  | .scatterAdd _ => {}
  | .launchDoorbell _ _ _ => {}
  | .launchPacketAdmit _ => {}
  | .launchReady _ => {}
  | .priorityAging _ => {}
  | .gangPlacement => {}
  | .hartStart _ => {}
  | .gangRestore => {}
  | .suspension _ => {}
  | .hartResume _ => {}
  | .hartTerminate _ => {}
  | .eviction _ => {}
  | .evictionComplete _ => {}
  | .hartExitComplete _ => {}
  | .laneDebtTimeout _ => {}
  | .interruptTaken _ => {}
  | .hipRaise _ _ => {}
  | .timerExpiry _ => {}
  | .trapRecordDiscard _ => {}
  | .frameCopyStart _ _ _ _ => {}
  | .frameCopyEnd _ _ => {}
  | .frameEntryFree _ _ => {}
  | .seatClaim _ => {}
  | .seatOffer _ _ => {}
  | .seatAccept _ => {}
  | .seatRelease _ => {}
  | .seatClear => {}
  | .seatRefusedOp _ _ => {}
  | .windowWrite _ _ _ => {}
  | .snapshotTrigger => {}
  | .snapshotLatch => {}
  | .attestationNonce _ _ => {}
  | .hostAccess _ _ _ _ _ _ => {}
  | .fabricRequest _ _ _ _ _ _ => {}
  | .flitReplay _ => {}
  | .portRetrainDone _ => {}
  | .nodeUnreachable _ => {}
  | .stackScrub _ _ => {}
  | .coreScrub _ _ _ => {}
  | .deviceReset => {}
  | .hbmZeroingDone => {}
  | .gueskStart => {}
  | .powerCapCheck _ => {}
  | .thermalThrottle => {}
  | .thermalSuspend => {}
  | .thermalResume => {}
  | .idleEntry => {}
  | .idleExit => {}
  | .powerOff => {}
  | .nodeReadmission _ => {}
  | .snapshotLanded => {}

/-- V-class instructions (R57): those of a unit class. -/
def isV (i : Instr) : Bool := (uses i).unit.isSome

/-- The serialising set (R65). -/
def isSerial (i : Instr) : Bool := (uses i).serial

/-- The members of each class a convoy may hold (Table 03-2). -/
def classLimit : UnitClass → Nat
  | .A => 2
  | .K => 2
  | .C => 2
  | _ => 1

/-- Whether two lists share a register. -/
def meet [DecidableEq α] (a b : List α) : Bool := a.any fun x => b.contains x

/-- Structural conflict of a word with one earlier member (Table 03-1, cases 1 to 5 and 7). x0 is never in conflict. -/
def conflictWith (later earlier : Instr) : Bool :=
  let l := uses later
  let e := uses earlier
  let nz (r : List XReg) := r.filter (· ≠ 0)
  meet l.vw e.vw || meet l.mw e.mw || meet l.vw e.vr || meet l.mw e.mr ||
  (e.unit.isSome && (meet (nz (l.xr ++ l.xw)) e.xw || meet (nz l.xw) e.xr)) ||
  (l.edits && meet l.vr e.vw) || l.serial

/-- Structural conflict with the earlier members (R66, Table 03-1, case 6 for the unit limits of R64). -/
def conflicts (later : Instr) (earlier : List Instr) : Bool :=
  earlier.any (conflictWith later) ||
  match (uses later).unit with
  | some c => decide (classLimit c ≤ (earlier.filter fun e => (uses e).unit == some c).length)
  | none => false

end Sys2Proof.Machine
end

