-- ==== Sys2Proof/Machine/Ops.lean ====
section
/-! DEFINITION. The operations every meaning uses: a word's retirement (R61), members of a convoy at rest (R344), taking a trap
(R341), delegating a pool fault (R348), a machine check (R342, R358), and the return from a trap (R347, R352). -/

namespace Sys2Proof.Machine

/-- The outcome of a meaning. -/
abbrev Out := Host.Outcome State Fault Refusal

/-- A convoy that no word has joined. -/
def Convoy.empty (hinge : Word) : Convoy := ⟨hinge, [], 0, none, [], 0, 0, 0, false, false, []⟩
/-- The record entry of a word, and its replacement in program order (R345). -/
def Convoy.entry (c : Convoy) (w : Nat) : Option Entry := c.entries.find? fun e => e.word == w
def Convoy.setEntry (c : Convoy) (e : Entry) : Convoy :=
  { c with entries := (c.entries.filter fun o => decide (o.word < e.word)) ++ [e] ++ c.entries.filter fun o => decide (e.word < o.word) }
/-- Word i marked in DONE (Table 17-7). -/
def Convoy.mark (c : Convoy) (w : Nat) : Convoy := { c with done := c.done ||| BitVec.ofNat 16 (2 ^ w) }

/-- The causes of a convoy at rest, in program order (R339). -/
def Convoy.causes (c : Convoy) : List Entry := c.entries.filter fun e => e.cause ≠ 0
/-- A convoy in which some member has raised a cause (R344). -/
def Convoy.faulted (c : Convoy) : Bool := c.entries.any fun e => decide (e.cause ≠ 0)
/-- The first member that only waits for elements an `ecopyc` still fills in (R148). -/
def Convoy.filling (c : Convoy) : Option Entry := c.entries.find? (·.fill)
/-- A member's entry without a cause: nothing committed, nothing kept. -/
def Entry.idle (st : MemberState) (word : Nat) : Entry := ⟨st, 0, word, 0, 0, 0, none, [], [], false, []⟩
/-- The first word from position p on that is neither done nor abandoned nor the raiser of a cause (R344, R347). -/
def Convoy.nextWord (c : Convoy) : Nat → Nat → Nat
  | 0, p => p
  | n + 1, p =>
    if c.done.getLsbD p || (match c.entry p with | some e => e.state == .abandoned || e.cause != 0 | none => false) then c.nextWord n (p + 1) else p
/-- A convoy at rest with the destinations of its members as the registers hold them (Table 17-8 DEST1, DEST2). -/
def Convoy.withDests (c : Convoy) (h : Hart) : Convoy :=
  { c with entries := c.entries.map fun e => match c.words[e.word]? with | some i => { e with dests := (uses i).vw.map h.chain } | none => e }

/-- The mode a PPRIV value names (R336). -/
def modeOf (p : BitVec 2) : Mode := match p.toNat with | 0 => .u | 1 => .d | _ => .s

/-- The 1,088 bytes of a record (Tables 17-7, 17-8). -/
def descWords (d : Desc) : List Word :=
  let hd : Word := BitVec.ofNat 64 (d.tag.toNat * 2 ^ 60 + d.spans.length * 2 ^ 57 + d.count)
  let sp (p : Span) : Word := BitVec.ofNat 64 (p.spine * 2 ^ 53 + p.off * 2 ^ 36 + p.len * 2 ^ 18)
  hd :: ((d.spans.map sp) ++ List.replicate 4 0).take 4
def MemberState.code : MemberState → Nat
  | .notIssued => 0 | .stopped => 1 | .done => 2 | .abandoned => 3
def entryWords (e : Entry) : List Word :=
  let w0 : Word := BitVec.ofNat 64 (e.state.code * 2 ^ 62 + e.cause.toNat * 2 ^ 48 + e.word % 16 * 2 ^ 44
    + (if e.kept.isSome then 2 ^ 38 else 0) + e.vstart)
  let dest (k : Nat) : List Word := match e.dests[k]? with | some d => descWords d | none => List.replicate 5 0
  let kept : List Word := match e.kept with | some d => descWords d | none => List.replicate 5 0
  w0 :: (dest 0 ++ dest 1 ++ kept)
def recordWords (c : Convoy) : List Word :=
  let w1 : Word := BitVec.ofNat 64 (c.rcause.toNat * 2 ^ 40 + c.rword % 16 * 2 ^ 36 + (if c.nextpc.isSome then 2 ^ 32 else 0)
    + c.words.length * 2 ^ 16 + c.done.toNat)
  [c.hinge, w1, c.nextpc.getD 0, c.tval, 0, 0, 0, 0] ++ ((c.entries.flatMap entryWords) ++ List.replicate 128 0).take 128
def wordsBytes (l : List Word) : List Byte := l.flatMap fun w => toBytes 8 w.toNat

/-- Orderings that release, and those that acquire (R284): rlx 0, acq 1, rel 2, ar 3, sc 4. -/
def releases (ord : BitVec 3) : Bool := ord == 2 || ord == 3 || ord == 4
def acquires (ord : BitVec 3) : Bool := ord == 1 || ord == 3 || ord == 4

/-- Whether a hart that waits so is WAITING: at `zmode`, `await`, `gbar`, `gbarwt`, `setvl` and `yield`, and at no other word (R329, Table
16-4). -/
def Wait.parks : Wait → Bool
  | .retry ab => ab
  | .barrier => true
  | .await _ => true
  | .yield _ => true
  | _ => false

/-- Whether a hart takes interrupts: in mode U with IE, or at the next hinge after it has returned to mode U with one pending, also when that is its
handler's (R339, Table 21-7; log 74). -/
def Hart.interruptible (h : Hart) : Bool := (h.mode == .u || h.due) && h.ie && (h.hip || h.tip)
/-- A hart at a hinge: between convoys, or waiting in an instruction that is left for a pending event (R326). -/
def Hart.atHinge (h : Hart) : Bool :=
  match h.st, h.wait with
  | .running, _ => h.convoy.isNone
  | .waiting, w => w.parks
  | _, _ => false

namespace State

/-- The convoy in progress; a word issued outside any opens one at its own address. -/
def cv (s : State) : Convoy := s.h.convoy.getD (Convoy.empty s.h.pc)
/-- Position of the word at pc. -/
def pos (s : State) : Nat := s.cv.pos s.h.pc

/-- A word completes and the next one follows it (R61): its DONE bit, `instret`, pc + 8. -/
def retire (s : State) : State :=
  { s with h := { s.h with convoy := some (s.cv.mark s.pos), pc := s.h.pc + 8, instret := s.h.instret + 1, wait := .none } }

/-- A control transfer completes (R58, R60): the convoy ends with it. While a member is stopped or has raised a cause, the target waits in
NEXTPC and the hart stands after the convoy's last word (R344, R347). -/
def transfer (s : State) (t : Word) : State :=
  let c := s.cv.mark s.pos
  let open_ := c.entries.any fun e => e.state == .stopped || e.cause != 0
  { s with h := { s.h with
      convoy := if open_ then some { c with nextpc := some t } else none
      pc := if open_ then c.hinge + 8 * BitVec.ofNat 64 c.words.length else t
      xfer := some s.h.pc, instret := s.h.instret + 1, wait := .none } }

/-- A V-class member completes: its entry is DONE, with the elements or outputs it committed (R61, Table 17-8). -/
def retireV (s : State) (n : Nat := 0) : State :=
  let p := s.pos
  let s1 := s.retire
  { s1 with h := { s1.h with convoy := some (s1.cv.setEntry { Entry.idle .done p with vstart := n }) } }

/-- A V-class member stops as an entry says; the hart goes on to the words that follow it (R344). -/
def stopAs (s : State) (e : Entry) : State := { s with h := { s.h with convoy := some (s.cv.setEntry e), pc := s.h.pc + 8 } }

/-- A V-class member stops at an element with a cause of its own, or with none when what it reads ends there: at a stopped member (R344), or
where an `ecopyc` has filled to (`fill`, R148). -/
def stopV (s : State) (cause : BitVec 8) (tval : Word) (vstart need : Nat) (kept : Option Desc) (seen : List Nat) (fill : Bool) : State :=
  s.stopAs ⟨.stopped, cause, s.pos, vstart, tval, need, kept, [], seen, fill, []⟩

/-- A vector load that consumed poison is ABANDONED (R190). -/
def abandonV (s : State) (tval : Word) : State :=
  let e : Entry := { Entry.idle .abandoned s.pos with cause := 0x0B, tval := tval }
  { s with h := { s.h with convoy := some (s.cv.setEntry e), pc := s.h.pc + 8 } }

/-- The current word of the hart's convoy: the one that waits. -/
def word (s : State) : Option Instr := s.h.convoy.bind fun c => c.words[c.pos s.h.pc]?

/-- The current word waits. -/
def hold (s : State) (w : Wait) : State := { s with h := { s.h with st := if w.parks then .waiting else s.h.st, wait := w } }
/-- A waiting hart runs again. -/
def awake (s : State) : State := { s with h := { s.h with st := .running, wait := .none } }

/-- A trap record discarded: each KEPT chain is released (R346). -/
def discard (s : State) (c : Convoy) : State :=
  c.entries.foldl (fun t e => match e.kept with | some d => t.releaseDesc d | none => t) s
/-- RR cleared (R346). -/
def discardRr (s : State) : State :=
  match s.h.rr with
  | some c => { s.discard c with h := { (s.discard c).h with rr := none } }
  | none => s

/-- The copy of the trap record in the hart's slice of scalar data memory (Table 17-4). -/
def copyRecord (s : State) (c : Convoy) : State :=
  if s.h.tresOff.toNat ≤ 111 then
    s.homeWrite (sdmKey s.coreNo (s.slotNo * 0x2000 + s.h.tresOff.toNat * 64)) (wordsBytes (recordWords c))
  else s

/-- A cause that would be raised in mode S: the core is declared failed (R342, R358). -/
def machineCheckS (s : State) : State := s.failCore s.coreNo

/-- The trap registers written and mode S entered at tvec (R341 steps 2 and 4). Machine checks that are still pending wait until the hart leaves it
(R339; log 24). -/
def enterS (s : State) (cause : BitVec 8) (tval tpc : Word) (word : Nat) (incv newcv : Bool) : State :=
  { s with h := { s.h with
      tpc := tpc, tval := tval, cause := cause, cword := word, incv := incv, newcv := newcv
      ppriv := (match s.h.mode with | .u => 0 | .d => 1 | .s => 2), mode := .s, st := .running, wait := .none
      pc := s.h.tvec, convoy := none, xfer := some s.h.tvec, fresh := false
      mheld := s.h.mheld ++ s.h.mcheck, mcheck := [], due := false } }

/-- A trap raised inside a convoy that has come to rest (R341): the record is kept and copied, then mode S. -/
def enterInside (s : State) (c : Convoy) : State :=
  if s.h.mode = .s then s.machineCheckS
  else
    let s1 := s.copyRecord c
    ({ s1 with h := { s1.h with rr := some c } }).enterS c.rcause c.tval (c.hinge + 8 * BitVec.ofNat 64 c.rword) c.rword true false

/-- A trap taken between convoys (R338, R340): no record. -/
def enterHinge (s : State) (cause : BitVec 8) (tval : Word) (newcv : Bool) : State :=
  if s.h.mode = .s then s.machineCheckS else s.enterS cause tval s.h.pc 0 false newcv

/-- A pool fault delegated to the hart's own handler (R348). -/
def delegate (s : State) (c : Convoy) (need vstart : Nat) : State :=
  { s with h := { s.h with
      pfr := some c, pfpc := c.hinge + 8 * BitVec.ofNat 64 c.rword, pfneed := need, pfword := c.rword, pfvstart := vstart
      mode := .d, st := .running, wait := .none, pc := s.h.pfh &&& ~~~7#64, convoy := none, xfer := some (s.h.pfh &&& ~~~7#64), fresh := false } }

/-- Machine checks raised on the core, those of the last 2^30 clocks kept (R358). -/
def countChecks (s : State) (n : Nat) : State :=
  if n = 0 then s
  else { s with core := { s.core with mchecks := (s.core.mchecks.filter fun c => decide (s.cycle.toNat < c + 2 ^ 30)) ++ List.replicate n s.cycle.toNat } }

/-- TAKING AN EXCEPTION (R341, R344, R348). The convoy at rest reports the earliest word that raised a cause: a stopped member's, or
that of the word that now traps (`own`, an entry of it). A pool fault alone goes to the hart's own handler when delegated. While a member
still waits for an `ecopyc` the convoy is not at rest: the hart returns to it, and the word that would trap has done nothing yet. -/
def takeRest (s : State) (own : Option Entry) : State :=
  let c := s.cv
  match c.entries.find? fun e => e.fill && !(own.any fun o => o.word == e.word) with
  | some e => { s with h := { s.h with pc := c.hinge + 8 * BitVec.ofNat 64 e.word, wait := .none } }
  | none =>
  let all := Convoy.causes c ++ own.toList
  match all.head? with
  | none => s
  | some e0 =>
    let e := all.foldl (fun a b => if b.word < a.word then b else a) e0
    let c1 := match own with
      | some o => (match c.words[o.word]? with | some i => if isV i then c.setEntry o else c | none => c)
      | none => c
    let c2 := { c1.withDests s.h with rcause := e.cause, rword := e.word, tval := e.tval }
    let checks := (all.filter fun o => o.cause == 0x3F).length
    let s1 := s.countChecks checks
    if 0 < checks ∧ 3 ≤ s1.core.mchecks.length then s1.failCore s1.coreNo
    else if s.h.pfh.getLsbD 0 ∧ s.h.mode = .u ∧ all.all (fun o => o.cause == 0x0C) then s1.delegate c2 e.need e.vstart
    else s1.enterInside c2

/-- The entry a word traps with: a member that had stopped before keeps its VSTART and KEPT (R347). -/
def ownEntry (s : State) (st : MemberState) (cause : BitVec 8) (tval : Word) (need : Nat) : Entry :=
  match (s.cv.entry s.pos).filter fun e => e.state == .stopped with
  | some o => { o with cause := cause, tval := tval, need := need, fill := false }
  | none => { Entry.idle st s.pos with cause := cause, tval := tval, need := need }

/-- The word at pc traps (R74, R338): nothing of it has taken effect. -/
def trapNow (s : State) (t : Trap) : State := s.takeRest (some (s.ownEntry .notIssued t.cause t.tval 0))

/-- A chain instruction that cannot have its links (R164, R166): stopped at element 0. -/
def poolTrap (s : State) (need : Nat) (tval : Word) : State := s.takeRest (some (s.ownEntry .stopped 0x0C tval need))

/-- A probe that fails: the member stops where it would have begun (R187, R189, R338). -/
def probeTrap (s : State) (t : Trap) : State := s.takeRest (some (s.ownEntry .stopped t.cause t.tval 0))

/-- The word at pc traps with itself completed (`ecall`, `ebreak`, R353). -/
def trapDone (s : State) (t : Trap) : State :=
  let p := s.pos
  let s1 := { s with h := { s.h with convoy := some (s.cv.mark p), instret := s.h.instret + 1 } }
  s1.takeRest (some { Entry.idle .notIssued p with cause := t.cause, tval := t.tval })

/-- Where a resumption from a record continues (R347): its first word neither done nor abandoned. -/
def resumeAt (c : Convoy) : Word :=
  if c.words.isEmpty then c.hinge else c.hinge + 8 * BitVec.ofNat 64 (c.nextWord 16 0)
/-- RESUMPTION from a record (R347): the convoy is re-entered at its first word neither done nor abandoned; stopped members keep their
VSTART. A record with no word leaves the hart between convoys, and its next word is a control-transfer target (R60), or opens a convoy
whatever its H where that word was to (R340). -/
def resume (s : State) (c : Convoy) : State :=
  if c.words.isEmpty then { s with h := { s.h with convoy := none, pc := c.hinge, xfer := some s.h.pc, fresh := c.anew } }
  else
    let c1 := { c with
      rcause := 0, rword := 0, tval := 0, entries := c.entries.map fun e => { e with cause := 0 }
      pooled := c.entries.map fun e => (e.word, e.vstart) }
    { s with h := { s.h with convoy := some c1, pc := c.hinge + 8 * BitVec.ofNat 64 (c1.nextWord 16 0), xfer := none } }

/-- A return gives the hart its mode: machine checks that waited for it to leave mode S are pending again, and an interrupt that is pending when it
comes back to mode U is taken at its next hinge (R339). -/
def toMode (s : State) (m : Mode) : State :=
  { s with h := { s.h with
      mode := m, due := m == .u && s.h.ie && (s.h.hip || s.h.tip)
      mcheck := if m = .s then s.h.mcheck else s.h.mheld ++ s.h.mcheck, mheld := if m = .s then s.h.mheld else [] } }

/-- RETURN FROM A TRAP OR A DELEGATED HANDLER (R352) for a hart in mode D with a pool-fault record or in mode S. A misaligned target, of tpc or of
a record, is not taken: `trapret` traps with cause 0x0A in the new mode (R54). -/
def returnFromTrap (s : State) : State :=
  let s0 := { s with h := { s.h with instret := s.h.instret + 1, convoy := none } }
  match s.h.mode, s.h.pfr, s.h.rr with
  | .d, some c, _ =>
    if resumeAt c &&& 7#64 ≠ 0 then (s.toMode .u).trapNow ⟨0x0A, resumeAt c⟩
    else ({ s0.toMode .u with h := { (s0.toMode .u).h with pfr := none } }).resume c
  | .s, _, some c =>
    if resumeAt c &&& 7#64 ≠ 0 then (s.discardRr.toMode (modeOf s.h.ppriv)).trapNow ⟨0x0A, resumeAt c⟩
    else ({ s0.toMode (modeOf s.h.ppriv) with h := { (s0.toMode (modeOf s.h.ppriv)).h with rr := none } }).resume c
  | .s, _, none =>
    let s1 := s0.toMode (modeOf s.h.ppriv)
    if s.h.tpc &&& 7#64 ≠ 0 then (s.toMode (modeOf s.h.ppriv)).trapNow ⟨0x0A, s.h.tpc⟩
    else { s1 with h := { s1.h with pc := s.h.tpc, xfer := if s.h.newcv then none else some s.h.pc, fresh := s.h.newcv } }
  | _, _, _ => s

end State

end Sys2Proof.Machine
end

