-- ==== Sys2Proof/Machine/Operands.lean ====
section
/-! DEFINITION. Operand forms and scalar computations: the 64-bit integer operations (R300, R301), scalar addresses, and the writing of
a scalar result. -/

namespace Sys2Proof.Machine

/-- Signed and unsigned high halves of the product (Table 15-2). -/
def mulHigh (a b : Word) : Word := BitVec.ofInt 64 (a.toInt * b.toInt / 2 ^ 64)
def mulHighU (a b : Word) : Word := BitVec.ofNat 64 (a.toNat * b.toNat / 2 ^ 64)
/-- Quotients and remainders with the divisor-0 rows of Table 15-2. -/
def divS (a b : Word) : Word := if b = 0 then BitVec.allOnes 64 else a.sdiv b
def divU (a b : Word) : Word := if b = 0 then BitVec.allOnes 64 else a / b
def remS (a b : Word) : Word := if b = 0 then a else a.srem b
def remU (a b : Word) : Word := if b = 0 then a else a % b
/-- A shift or rotate amount: the low six bits (R300). -/
def amount (b : Word) : Nat := b.toNat % 64
/-- Leading zeros, trailing zeros and set bits of w bits. -/
def clzNat (w v : Nat) : Nat := if v % 2 ^ w = 0 then w else w - 1 - Nat.log2 (v % 2 ^ w)
def ctzNat (w v : Nat) : Nat := ((List.range w).find? fun i => Nat.testBit v i).getD w
def popNat (w v : Nat) : Nat := (List.range w).countP fun i => Nat.testBit v i
/-- The eight bytes in reverse order. -/
def byteSwap (a : Word) : Word := BitVec.ofNat 64 (ofBytes (toBytes 8 a.toNat).reverse)
/-- Bits [k:0] sign-extended and zero-extended (Table 15-2). -/
def signFrom (a : Word) (k : Nat) : Word := (a <<< (63 - k)).sshiftRight (63 - k)
def zeroFrom (a : Word) (k : Nat) : Word := (a <<< (63 - k)) >>> (63 - k)
/-- A scalar offset (R304): the base and a signed displacement modulo 2^64. -/
def offset (xa : Word) (e : BitVec n) : Nat := (xa + sext e).toNat
/-- The width in bytes of a W field: 1, 2, 4 or 8 (R30). -/
def widthOf (w : BitVec 2) : Nat := 2 ^ w.toNat
/-- A loaded value of n bytes, sign-extended. -/
def signLoad (n v : Nat) : Word := signFrom (BitVec.ofNat 64 v) (8 * n - 1)

namespace State

/-- A scalar result written and its word retired. -/
def wr (s : State) (xd : XReg) (v : Word) : Out := .next (s.setX xd v).retire
/-- A word that has no result but its own completion. -/
def ok (s : State) : Out := .next s.retire
/-- The word at pc traps. -/
def trap (s : State) (cause : BitVec 8) (tval : Word) : Out := .next (s.trapNow ⟨cause, tval⟩)
/-- The word itself as tval (R73, R349). -/
def trapWord (s : State) (cause : BitVec 8) : Out := s.trap cause s.h.iword

end State

end Sys2Proof.Machine
end

