-- ==== Sys2Proof/Machine/Atomics.lean ====
section
/-! DEFINITION. Major 0x29, the atomics (R289 to R291). A release waits until the hart's earlier writes are performed (R283, R285);
the operation itself is one indivisible step at the home of its location. What one does at its home is one function, which requests of
other nodes use too (R86). -/

namespace Sys2Proof.Machine

/-- The tag an n-byte integer is read under for signed comparison, and the format of `afadd` and `afmax` (Table 14-11). -/
def sTag (n : Nat) : Tag := if n = 8 then 4 else 3
def atomFmt (n : Nat) : Fmt := if n = 8 then fmtF64 else fmtF32

/-- The new value at the location of n bytes that holds m, and none where nothing is written (Table 14-11); v and c are the low bits of xb
and xc. No flag is raised (R290). -/
def atomNew (op : AtomOp) (n v c m : Nat) : Option Nat :=
  match op with
  | .add => some ((m + v) % 2 ^ (8 * n))
  | .min => some (if intOf (sTag n) v < intOf (sTag n) m then v else m)
  | .max => some (if intOf (sTag n) m < intOf (sTag n) v then v else m)
  | .minn => some (Nat.min m v)
  | .maxn => some (Nat.max m v)
  | .and => some (m &&& v)
  | .or => some (m ||| v)
  | .xor => some (m ^^^ v)
  | .swap => some v
  | .cas => if m = c then some v else none
  | .fadd rm => some ((atomFmt n).add rm m v).1
  | .fmax => some ((atomFmt n).minmax true m v).1
  | .ld => none
  | .st => some v

/-- What xd receives (Table 14-11): the old value, sign-extended by `amin` and `amax`. -/
def atomResult (op : AtomOp) (n m : Nat) : Word :=
  match op with
  | .min => signLoad n m
  | .max => signLoad n m
  | _ => BitVec.ofNat 64 m

/-- The access it is in Table 05-3. -/
def atomKind (op : AtomOp) : Kind := if op = .ld then .aread else .atomic
/-- Its ordering as a release and as an acquire: `ald` does not release and `ast` does not acquire (R291). -/
def atomReleases (op : AtomOp) (ord : BitVec 3) : Bool := op != .ld && releases ord
def atomAcquires (op : AtomOp) (ord : BitVec 3) : Bool := op != .st && acquires ord

namespace State

/-- Whether the hart has handed-off writes of an agent that a release at a scope waits for (Table 14-1): other nodes' only at scope 4. -/
def outstanding (s : State) (vec : Bool) (scope : BitVec 3) : Bool :=
  s.pend.any fun p => p.hart == s.cur && p.vec == vec && (p.node.isNone || scope == 4)

/-- The word waits for its release (R285). -/
def releaseWait (s : State) (rel : Bool) (scope : BitVec 3) : Bool := rel && (s.outstanding false scope || s.outstanding true scope)

/-- Whether a release synchronises with an acquire of the current hart at a scope (R286): each party lies within the other's scope, by the
cores on which the two harts now run (R283). -/
def reaches (s : State) (r : Rel) (scope : BitVec 3) : Bool :=
  let near : Nat → Bool := match min r.scope.toNat scope.toNat with
    | 0 => fun k => k == s.cur
    | 1 => fun k => k / 8 == s.cur / 8
    | 2 => fun k => k / 64 == s.cur / 64
    | _ => fun _ => true
  if 4 ≤ min r.scope.toNat scope.toNat then true
  else if 3 = min r.scope.toNat scope.toNat then r.agent.extractLsb' 16 16 == Config.nodeId
  else (s.slotsOfAgent r.ctx r.agent).any near

/-- An acquire by a read (R285, R286): what the hart has read before it, ahead of program order, is read again. A read of releases of
which none reaches the hart orders nothing. `at_` is the read's own entry when it too was made ahead of its place. -/
def acquire (s : State) (scope : BitVec 3) (rels : List Rel) (at_ : Option Early) : State :=
  if !rels.isEmpty && rels.all (fun r => !s.reaches r scope) then s
  else match at_ with
    | none => s.dropEarly s.cur fun _ => true
    | some e =>
      let k := s.early.idxOf e
      { s with early := ((s.early.take k).filter fun o => o.hart != s.cur) ++ s.early.drop (k + 1) }

/-- A value written at home by an atomic (R279): a release of it stands beside those an RMW carries on (R286). -/
def atomWrite (s : State) (op : AtomOp) (pl : Place) (n v : Nat) (ctx : BitVec 16) (agent : BitVec 32) (rel : Option (BitVec 3)) : State :=
  let s1 := s.homeWrite pl.key (toBytes n v)
  let kept := if op = .st then s1.rels else s.rels
  { s1 with rels := kept ++ (match rel with | some scope => [⟨pl.key, n, ctx, agent, scope⟩] | none => []) }

/-- An access by an atomic of n bytes at a place (R280, R291): the hart's own earlier writes there come first, and the line leaves the issuing
core's L1, but not for an access in mode S (R100). -/
def atomReady (s : State) (space : BitVec 16) (n : Nat) (pl : Place) : State :=
  (if s.h.mode = .s then s else s.flushLines pl space n).performOwn false pl space n

/-- A read that writes nothing: its value, the releases it stems from, and the entry of a read made ahead of program order (R282), which an
`sc` read never is (R288). -/
def atomRead (s : State) (space : BitVec 16) (off n : Nat) (pl : Place) (sc : Bool) : Except Trap (Nat × List Rel × Option Early × State) :=
  let s1 := s.atomReady space n pl
  match s1.poisonTrap pl space off n with
  | some t => .error t
  | none =>
    match pl.node with
    | some nd => .ok (ofBytes (s1.remoteRead nd space off n), [], none, s1)
    | none =>
      let r := s1.agentRead false pl.key n
      if sc ∨ r.2.2.isNone then
        .ok (ofBytes (s1.homeRead pl.key n), s1.rels.filter (fun r => decide (r.key < pl.key + n ∧ pl.key < r.key + r.len)), none,
          s1.dropEarly s.cur fun e => !e.vec && e.key == pl.key / 8 * 8)
      else .ok (ofBytes r.1, r.2.1, r.2.2, s1)

/-- The operation at the location's home, with its acquire and its release (R291). An `ast` that is no release is
handed to the memory system like a store, and may be performed after later accesses of its hart (R282). -/
def atomAt (s : State) (op : AtomOp) (space : BitVec 16) (off n : Nat) (pl : Place) (v c : Nat) (scope ord : BitVec 3) :
    Except Trap (Nat × State) :=
  match s.atomRead space off n pl (op != .ld || ord == 4) with
  | .error t => .error t
  | .ok (m, rels, e, s1) =>
    let s2 := if atomAcquires op ord then s1.acquire scope rels e else s1
    match atomNew op n v c m, pl.node with
    | none, _ => .ok (m, s2)
    | some x, none =>
      if op = .st ∧ !atomReleases op ord then .ok (m, s2.handOff false s.h.kctx space off pl .ast (toBytes n x))
      else .ok (m, s2.atomWrite op pl n x s.h.kctx s.h.agent (if atomReleases op ord then some scope else none))
    | some x, some nd => .ok (m, { s2 with remote := s2.remote ++ [⟨nd, s.h.kctx, space, off, s.h.agent, .put, toBytes n x⟩] })

/-- An atomic (R290, R291): its checks, its release, the operation, and what xd receives; `ast` has no xd. -/
def atomic (s : State) (op : AtomOp) (xd xa : XReg) (v c : Word) (asr : BitVec 2) (scope ord : BitVec 3) (w : Bool) (off : BitVec 19) : Out :=
  let n := if w then 8 else 4
  let a := offset (s.x xa) off
  let space := s.h.space asr
  match s.scalarPlace space a n (atomKind op) false with
  | .error t => .next (s.trapNow t)
  | .ok (pl, s1) =>
    if s.releaseWait (atomReleases op ord) scope then .next (s.hold (.retry false))
    else match s1.atomAt op space a n pl (v.toNat % 2 ^ (8 * n)) (c.toNat % 2 ^ (8 * n)) scope ord with
      | .error t => .next (s.trapNow t)
      | .ok (m, s2) => if op = .st then s2.ok else s2.wr xd (atomResult op n m)

end State

/-- `aadd` (R291): sum modulo 2^n. -/
def execAadd (xd xa xb : XReg) (asr : BitVec 2) (scope ord : BitVec 3) (w : Bool) (off : BitVec 19) (s : State) : Out :=
  s.atomic .add xd xa (s.x xb) 0 asr scope ord w off

/-- `amin` (R291): smaller, signed. -/
def execAmin (xd xa xb : XReg) (asr : BitVec 2) (scope ord : BitVec 3) (w : Bool) (off : BitVec 19) (s : State) : Out :=
  s.atomic .min xd xa (s.x xb) 0 asr scope ord w off

/-- `amax` (R291): larger, signed. -/
def execAmax (xd xa xb : XReg) (asr : BitVec 2) (scope ord : BitVec 3) (w : Bool) (off : BitVec 19) (s : State) : Out :=
  s.atomic .max xd xa (s.x xb) 0 asr scope ord w off

/-- `aminn` (R291): smaller, unsigned. -/
def execAminn (xd xa xb : XReg) (asr : BitVec 2) (scope ord : BitVec 3) (w : Bool) (off : BitVec 19) (s : State) : Out :=
  s.atomic .minn xd xa (s.x xb) 0 asr scope ord w off

/-- `amaxn` (R291): larger, unsigned. -/
def execAmaxn (xd xa xb : XReg) (asr : BitVec 2) (scope ord : BitVec 3) (w : Bool) (off : BitVec 19) (s : State) : Out :=
  s.atomic .maxn xd xa (s.x xb) 0 asr scope ord w off

/-- `aand` (R291): and. -/
def execAand (xd xa xb : XReg) (asr : BitVec 2) (scope ord : BitVec 3) (w : Bool) (off : BitVec 19) (s : State) : Out :=
  s.atomic .and xd xa (s.x xb) 0 asr scope ord w off

/-- `aor` (R291): or. -/
def execAor (xd xa xb : XReg) (asr : BitVec 2) (scope ord : BitVec 3) (w : Bool) (off : BitVec 19) (s : State) : Out :=
  s.atomic .or xd xa (s.x xb) 0 asr scope ord w off

/-- `axor` (R291): exclusive or. -/
def execAxor (xd xa xb : XReg) (asr : BitVec 2) (scope ord : BitVec 3) (w : Bool) (off : BitVec 19) (s : State) : Out :=
  s.atomic .xor xd xa (s.x xb) 0 asr scope ord w off

/-- `aswap` (R291): swap. -/
def execAswap (xd xa xb : XReg) (asr : BitVec 2) (scope ord : BitVec 3) (w : Bool) (off : BitVec 19) (s : State) : Out :=
  s.atomic .swap xd xa (s.x xb) 0 asr scope ord w off

/-- `acas` (R291): v when the old value is the low bits of xc, else no write. -/
def execAcas (xd xa xb xc : XReg) (asr : BitVec 2) (scope ord : BitVec 3) (w : Bool) (off : BitVec 19) (s : State) : Out :=
  s.atomic .cas xd xa (s.x xb) (s.x xc) asr scope ord w off

/-- `afadd` (R291): floating sum rounded by RM; no flag is raised (R290). -/
def execAfadd (xd xa xb : XReg) (rm : BitVec 3) (asr : BitVec 2) (scope ord : BitVec 3) (w : Bool) (off : BitVec 19) (s : State) : Out :=
  s.atomic (.fadd rm) xd xa (s.x xb) 0 asr scope ord w off

/-- `afmax` (R291): floating maximum by R209. -/
def execAfmax (xd xa xb : XReg) (asr : BitVec 2) (scope ord : BitVec 3) (w : Bool) (off : BitVec 19) (s : State) : Out :=
  s.atomic .fmax xd xa (s.x xb) 0 asr scope ord w off

/-- `ald` (R291): atomic load. -/
def execAld (xd xa : XReg) (asr : BitVec 2) (scope ord : BitVec 3) (w : Bool) (off : BitVec 19) (s : State) : Out :=
  s.atomic .ld xd xa 0 0 asr scope ord w off

/-- `ast` (R291): atomic store. -/
def execAst (xa xb : XReg) (asr : BitVec 2) (scope ord : BitVec 3) (w : Bool) (off : BitVec 19) (s : State) : Out :=
  s.atomic .st 0 xa (s.x xb) 0 asr scope ord w off

end Sys2Proof.Machine
end

