-- ==== Sys2Proof/Machine/Branch.lean ====
section
/-! DEFINITION. Majors 0x04 and 0x05, branches and jumps (R305). -/

namespace Sys2Proof.Machine

/-- A conditional branch: a taken one ends the convoy at the target, one not taken retires (R58, R305). -/
def branch (s : State) (off : BitVec 40) (taken : Bool) : Out :=
  if taken then .next (s.transfer (s.h.pc + 8 * sext off)) else s.ok

/-- `beq` (R305): taken when equal. -/
def execBeq (xa xb : XReg) (off : BitVec 40) (s : State) : Out := branch s off (s.x xa == s.x xb)

/-- `bne` (R305): taken when not equal. -/
def execBne (xa xb : XReg) (off : BitVec 40) (s : State) : Out := branch s off (s.x xa != s.x xb)

/-- `blt` (R305): taken when less, signed. -/
def execBlt (xa xb : XReg) (off : BitVec 40) (s : State) : Out := branch s off ((s.x xa).slt (s.x xb))

/-- `bge` (R305): taken when not less, signed. -/
def execBge (xa xb : XReg) (off : BitVec 40) (s : State) : Out := branch s off (!(s.x xa).slt (s.x xb))

/-- `bltn` (R305): taken when less, unsigned. -/
def execBltn (xa xb : XReg) (off : BitVec 40) (s : State) : Out := branch s off ((s.x xa).ult (s.x xb))

/-- `bgen` (R305): taken when not less, unsigned. -/
def execBgen (xa xb : XReg) (off : BitVec 40) (s : State) : Out := branch s off (!(s.x xa).ult (s.x xb))

/-- `jal` (R305). -/
def execJal (xd : XReg) (off : BitVec 43) (s : State) : Out :=
  .next ((s.setX xd (s.h.pc + 8)).transfer (s.h.pc + 8 * sext off))

/-- `jalr` (R54, R305): xa is read before xd is written; a target that is not a multiple of 8 traps with xd unchanged. -/
def execJalr (xd xa : XReg) (off : BitVec 43) (s : State) : Out :=
  let t := s.x xa + 8 * sext off
  if t &&& 7#64 ≠ 0 then s.trap 0x0A t else .next ((s.setX xd (s.h.pc + 8)).transfer t)

end Sys2Proof.Machine
end

