-- ==== Sys2Proof/Machine/Window.lean ====
section
/-! DEFINITION. The device-control window (R359 to R362, R365, R367, R368, R386): what each register reads and what a write of each
agent does. -/

namespace Sys2Proof.Machine

/-- The node number of an event's `who` field: 0x10000 Guesk, 0x10001 SMBus, else a host's node (log 5). -/
def whoOf (n : Nat) : Who := if n = 0x10000 then .guesk else if n = 0x10001 then .smbus else .host (BitVec.ofNat 16 n)

/-- The two words of a queue descriptor (Table 16-1). LOG2 above 12 reads as 12. -/
def Queue.log (q : Queue) : Nat := min q.log2.toNat 12
def Queue.low (q : Queue) : Word := BitVec.ofNat 64 (q.head.toNat * 2 ^ 16 + q.tail.toNat)
def Queue.high (q : Queue) : Word :=
  BitVec.ofNat 64 (q.base.toNat * 2 ^ 27 + q.log * 2 ^ 23 + q.err.toNat * 2 ^ 21 + q.devl.toNat * 2 ^ 20 + q.en.toNat * 2 ^ 19 + q.owner.toNat)
/-- Packets a queue holds (R313). -/
def Queue.held (q : Queue) : Nat := (q.tail - q.head).toNat
/-- The doorbell: a TAIL that would make the queue hold more than its slots is ignored (R313). -/
def Queue.ring (q : Queue) (tail : BitVec 16) : Queue := if 2 ^ q.log < (tail - q.head).toNat then q else { q with tail := tail }

/-- BOOT.STATE (Table 18-10). -/
def Boot.code : Boot → Nat
  | .reset => 0 | .verify => 1 | .zeroing => 2 | .loading => 3 | .running => 4 | .bootfail => 5

namespace State

/-- FAILED0 and FAILED1 as one number (Table 18-10). -/
def failedCores (s : State) : Nat :=
  (List.range 96).foldl (fun a n => if (s.coreAt n).failed then a + 2 ^ n else a) 0

/-- A frame-indirection entry as a word (Table 04-11). -/
def frameWord (s : State) (stack index : Nat) : Word :=
  match s.frames.find? fun f => f.stack == stack && f.index == index with
  | some f => BitVec.ofNat 64 (f.state * 2 ^ 62 + f.dst * 2 ^ 32 + f.src)
  | none => 0

/-- A frame-indirection entry written (R5, R95): 0 frees. A write of STATE 3 is ignored whole, TO and FROM too (Table 04-11 says it of STATE, log 65). One
whose FROM is that of another entry in force is ignored too, and the entry reads STATE 0. An entry that reads 0 is not listed. -/
def frameWrite (s : State) (stack index : Nat) (v : Word) : State :=
  let st := (v.extractLsb' 62 2).toNat
  let from_ := (v.extractLsb' 0 24).toNat
  let to_ := (v.extractLsb' 32 24).toNat
  let rest := s.frames.filter fun f => !(f.stack == stack && f.index == index)
  let put (f : Frame) : State := { s with frames := if f.state = 0 ∧ f.src = 0 ∧ f.dst = 0 then rest else f :: rest }
  if st = 3 then s
  else if rest.any fun f => f.stack == stack && f.src == from_ && f.state != 0 then
    match s.frames.find? fun f => f.stack == stack && f.index == index with
    | some f => put { f with state := 0 }
    | none => s
  else put ⟨stack, index, st, from_, to_⟩

/-- The end of a frame copy (R95): the frame's bytes and poison stand at TO too, and the entry redirects. -/
def frameEnd (s : State) (stack index : Nat) : State :=
  match s.frames.find? fun f => f.stack == stack && f.index == index && f.state == 1 with
  | none => s
  | some f =>
    let a := stack * 2 ^ 36 + f.src * 4096
    let b := stack * 2 ^ 36 + f.dst * 4096
    { s with
      mem := memCopy s.mem s.mem a b 4096
      poison := (s.poison.filter fun p => decide (p < b ∨ b + 4096 ≤ p)) ++ ((s.poison.filter fun p => decide (a ≤ p ∧ p < a + 4096)).map fun p => p - a + b)
      frames := s.frames.map fun o => if o = f then { f with state := 2 } else o }

/-- A hart slot's timer: its deadline and whether it is still to pass (R339). -/
def timer (s : State) (k : Nat) : Nat × Bool := assocGet (0, false) s.timers k

/-- The seat register (Table 18-4) and a change of HOLDER, which counts in EPOCH (R362). -/
def seatWord (s : State) : Word := BitVec.ofNat 64 (s.seat.holder.toNat * 2 ^ 48 + s.seat.offer.toNat * 2 ^ 32 + s.seat.epoch.toNat * 8)
def setHolder (s : State) (holder offer : BitVec 16) : State :=
  { s with seat := { holder := holder, offer := offer, epoch := if holder = s.seat.holder then s.seat.epoch else s.seat.epoch + 1 } }

/-- The seat operations (R362); one whose condition fails changes nothing. -/
def seatClaim (s : State) (node : BitVec 16) : State := if s.seat.holder = 0xFFFF then s.setHolder node s.seat.offer else s
def seatOffer (s : State) (node target : BitVec 16) : State :=
  if s.seat.holder = node ∧ node ≠ 0xFFFF then { s with seat := { s.seat with offer := target } } else s
def seatAccept (s : State) (node : BitVec 16) : State :=
  if s.seat.offer = node ∧ node ≠ 0xFFFF then s.setHolder node 0xFFFF else s
def seatRelease (s : State) (node : BitVec 16) : State :=
  if s.seat.holder = node ∧ node ≠ 0xFFFF then s.setHolder 0xFFFF 0xFFFF else s
def seatClear (s : State) : State := s.setHolder 0xFFFF 0xFFFF

/-- A write of the seat register by its OP (R361, R362). -/
def seatWrite (s : State) (who : Who) (v : Word) : State :=
  let target := v.extractLsb' 16 16
  match who, (v.extractLsb' 0 3).toNat with
  | .host n, 1 => s.seatClaim n
  | .host n, 2 => s.seatOffer n target
  | .host n, 3 => s.seatAccept n
  | .host n, 4 => s.seatRelease n
  | .smbus, 5 => s.seatClear
  | _, _ => s

/-- Whether a write of the seat register meets its operation's condition (R362). -/
def seatPermits (s : State) (who : Who) (v : Word) : Bool :=
  match who, (v.extractLsb' 0 3).toNat with
  | .host _, 1 => s.seat.holder == 0xFFFF
  | .host n, 2 => s.seat.holder == n && n != 0xFFFF
  | .host n, 3 => s.seat.offer == n && n != 0xFFFF
  | .host n, 4 => s.seat.holder == n && n != 0xFFFF
  | .smbus, 5 => true
  | _, _ => false

/-- Whether an agent holds the seat (R360). -/
def isHolder (s : State) : Who → Bool
  | .host n => n == s.seat.holder && n != 0xFFFF
  | _ => false

/-- A snapshot trigger (R365): starts one at clock T + 64, or counts in MISSED while one is under way. -/
def snapTrigger (s : State) : State :=
  if s.busy then { s with missed := if s.missed = BitVec.allOnes 32 then s.missed else s.missed + 1 }
  else { s with busy := true, snapAt := some (s.cycle.toNat + 64) }

/-- A counter of the reliability block raised by one (R356). Counters are numbered by structure (Table 18-1 row) and unit (log 13). -/
def count (s : State) (unit : Nat) : State := { s with counters := assocSet s.counters unit (assocGet 0 s.counters unit + 1) }

/-- The power register (Table 18-9). -/
def powerWord (s : State) : Word := BitVec.ofNat 64 (s.therm.toNat * 2 ^ 33 + s.capped.toNat * 2 ^ 32 + s.meas.toNat * 2 ^ 12 + s.cap.toNat)
def powerWrite (s : State) (v clear : Word) : State :=
  let c := (v.extractLsb' 0 12).toNat
  { s with cap := BitVec.ofNat 12 (max 600 (min 2400 c)), therm := s.therm && !clear.getLsbD 33 }

/-- The words of the attestation report (R367): status 1 for EXHAUSTED, measurement, FWCTR, nonce, node id, boot count, and the signature if
there is one. -/
def reportWords (r : Report) : List Word :=
  [if r.signature.isNone then 1 else 0] ++ ((List.range 4).map fun i => r.measurement.extractLsb' (64 * i) 64)
    ++ [BitVec.ofNat 64 r.fwctr, r.nonce, BitVec.ofNat 64 r.node.toNat, BitVec.ofNat 64 r.boot] ++ r.signature.getD []

/-- NODEID and STEP, which have no reset value: they read 0 (R7) until the device has written them, which it does when it leaves the boot state
RESET (log 3). -/
def nodeNo (s : State) : BitVec 16 := if s.boot = .reset then 0 else Config.nodeId
def stepNo (s : State) : BitVec 8 := if s.boot = .reset then 0 else Config.stepping

/-- What the window register at an offset reads (R359, R386). -/
def windowRead (s : State) (off : Nat) : Word :=
  if off = 0x00 then BitVec.ofNat 64 (0x0096 * 2 ^ 16 + s.stepNo.toNat * 2 ^ 8)
  else if off = 0x08 then BitVec.ofNat 64 s.nodeNo.toNat
  else if off = 0x10 then BitVec.ofNat 64 s.boot.code
  else if off = 0x18 then BitVec.ofNat 64 (s.failedCores % 2 ^ 64)
  else if off = 0x20 then BitVec.ofNat 64 (s.failedCores / 2 ^ 64)
  else if off = 0x1000 then s.seatWord
  else if 0x2000 ≤ off ∧ off < 0x2400 then
    let q := s.queue ((off - 0x2000) / 16)
    if off % 16 = 0 then q.low else q.high
  else if 0x10000 ≤ off ∧ off < 0x16000 then s.frameWord ((off - 0x10000) / 8 / 256) ((off - 0x10000) / 8 % 256)
  else if 0x20000 ≤ off ∧ off < 0x23000 then
    let k := (off - 0x20000) / 16
    if off % 16 = 0 then ofBit (s.hartAt k).hip else BitVec.ofNat 64 (s.timer k).1
  else if 0x30000 ≤ off ∧ off < 0x40000 then
    match Config.counterAt (off - 0x30000) with | some u => BitVec.ofNat 64 (assocGet 0 s.counters u) | none => 0
  else if 0x40000 ≤ off ∧ off < 0x50000 then
    match Config.snapshotAt (off - 0x40000) with | some u => assocGet 0 s.latched u | none => 0
  else if off = 0x50000 then s.powerWord
  else if off = 0x60000 then s.nonce
  else if 0x60000 < off ∧ off < 0x70000 then
    match s.report with | some r => (reportWords r).getD (Config.reportAt (off - 0x60008)) 0 | none => 0
  else 0

/-- Whether Table 18-3 permits a write of the register at an offset by an agent (R360, R362). -/
def windowPermits (s : State) (who : Who) (off : Nat) (v : Word) : Bool :=
  let steward := who == .guesk || s.isHolder who
  if off = 0x1000 then s.seatPermits who v
  else if 0x2000 ≤ off ∧ off < 0x2400 then (if off % 16 = 0 then who != .smbus else steward)
  else if 0x10000 ≤ off ∧ off < 0x16000 then who == .guesk
  else if 0x20000 ≤ off ∧ off < 0x23000 then steward
  else if 0x30000 ≤ off ∧ off < 0x40000 then steward
  else if off = 0x50000 then s.isHolder who || who == .smbus
  else if off = 0x60000 then s.isHolder who
  else false

/-- The attestation report, made once in a boot after the nonce is written (R367): ATTCTR advances before the signature is released, which
is one over the report's words under that index; after 1024 the report has no signature. An XMSS signature of this key is 313 words. -/
def attest (s : State) (n : Word) : State :=
  match s.report with
  | some _ => { s with nonce := n }
  | none =>
    let spent := decide (1024 ≤ s.attctr)
    let r : Report := ⟨s.meas256, s.fwctr, n, Config.nodeId, s.bootCount, none⟩
    let sign : List Word := (List.range 313).map fun i => Config.signatureWord i (reportWords r ++ [BitVec.ofNat 64 s.attctr])
    { s with
      nonce := n, exhausted := spent, attctr := if spent then s.attctr else s.attctr + 1
      report := some { r with signature := if spent then none else some sign } }

/-- A write to the window (R360): an agent that Table 18-3 does not permit changes nothing. `clear` holds the bits written as 1, for
fields that a 1 clears. -/
def windowWrite (s : State) (who : Who) (off : Nat) (v clear : Word) : State :=
  let guesk := who == .guesk
  let holder := s.isHolder who
  if off = 0x1000 then s.seatWrite who v
  else if 0x2000 ≤ off ∧ off < 0x2400 then
    let n := (off - 0x2000) / 16
    let q := s.queue n
    if off % 16 = 0 then
      (match who with
       | .smbus => s
       | _ => s.setQueue n (q.ring (v.extractLsb' 0 16)))
    else if guesk || holder then
      s.setQueue n { q with base := v.extractLsb' 27 37, log2 := v.extractLsb' 23 4, err := q.err && !clear.getLsbD 21, devl := v.getLsbD 20, en := v.getLsbD 19, owner := v.extractLsb' 0 16 }
    else s
  else if 0x10000 ≤ off ∧ off < 0x16000 then
    if guesk then s.frameWrite ((off - 0x10000) / 8 / 256) ((off - 0x10000) / 8 % 256) v else s
  else if 0x20000 ≤ off ∧ off < 0x23000 then
    if guesk || holder then
      let k := (off - 0x20000) / 16
      if off % 16 = 0 then
        (if v.getLsbD 0 then s.setHart k { s.hartAt k with hip := true } else s)
      else { s with timers := assocSet s.timers k (v.toNat, true) }
    else s
  else if 0x30000 ≤ off ∧ off < 0x40000 then
    if guesk || holder then
      match Config.counterAt (off - 0x30000) with
      | some u => { s with counters := assocSet s.counters u ((BitVec.ofNat 64 (assocGet 0 s.counters u) &&& ~~~clear).toNat) }
      | none => s
    else s
  else if off = 0x50000 then
    if holder || who == .smbus then s.powerWrite v clear else s
  else if off = 0x60000 then
    if holder then s.attest v else s
  else s

/-- What the device answers to the outside (R360, R363, R385). -/
def reply (s : State) (agent : BitVec 32) (cause : BitVec 8) (off : Nat) (data : List Byte) : State :=
  { s with replies := s.replies ++ [⟨agent, cause, BitVec.ofNat 64 off, data⟩] }

/-- A read of the window from outside the device, answered in every boot state (R360, R366). -/
def outsideRead (s : State) (who : Who) (off : Nat) : State :=
  let data := toBytes 8 (s.windowRead off).toNat
  match who with
  | .guesk => s
  | .host n => s.reply (n ++ (0xFFFF : BitVec 16)) 0 off data
  | .smbus => s.reply noAgent 0 off data

/-- A write of the window from outside the device: performed or dropped, and its reply's status, 0 or 1 (R360). Guesk's own writes and
those of a device in BOOTFAIL have no reply (R366). -/
def outsideWrite (s : State) (who : Who) (off : Nat) (v clear : Word) : State :=
  if s.boot = .bootfail then s
  else
    let status : BitVec 8 := if s.windowPermits who off v then 0 else 1
    let t := s.windowWrite who off v clear
    match who with
    | .guesk => t
    | .host n => t.reply (n ++ (0xFFFF : BitVec 16)) status off []
    | .smbus => t.reply noAgent status off []

end State

end Sys2Proof.Machine
end

