-- ==== Sys2Proof/Machine/Vector.lean ====
section
/-! DEFINITION. What every chain-reading instruction shares: the operands of R230 to R233, what a stopped producer still supplies
(R344, R347), the three storage cases of a result (R167 to R170) with the state a pool fault leaves (R165), and the recompute check
(R248, R249). -/

namespace Sys2Proof.Machine

/-- An operand at an element: a chain register, or an x register that is the same at every index (R232). -/
inductive Operand where
  | chain (r : VReg)
  | scalar (r : XReg)
  deriving DecidableEq, Repr

/-- The vb operand under S (R230). -/
def operandB (s : Bool) (r : VReg) : Operand := if s then .scalar r else .chain r
def Operand.reg : Operand → Option VReg | .chain r => some r | .scalar _ => none

/-- One output: its bits, the flags of making it, whether an in-place destination is written (R169 step 2). -/
structure Emit where
  bits : Nat
  flags : Flags
  put : Bool

/-- A run of outputs into one chain. -/
structure Job where
  vd : VReg
  tag : Tag
  n : Nat
  /-- In place or copy-on-write (R167); otherwise fresh. -/
  inPlace : Bool
  /-- A fresh destination whose register is also a source (R170). -/
  keep : Bool
  /-- Outputs that a stopped producer still supplies (R344). -/
  limit : Nat
  /-- Elements of a result row, and the mask of the active elements that the recompute check covers, none for a word that has no such check (R248). -/
  per : Nat
  checks : Option MReg
  out : Nat → Emit
  /-- Source elements below a stop that an in-place scan still needs when it goes on (R255). -/
  seen : Nat → List Nat := fun _ => []
  /-- Whether the whole mask that decides n is there (R256); if not, n lies above the outputs that can be made. -/
  known : Bool := true
  /-- An output that is not put leaves its row of a fresh chain as it is (R198). -/
  sparse : Bool := false
  /-- What follows the last output (`zdrain`). -/
  after : State → State := id

/-- Where a run of outputs ended: the state, the outputs done, the links that could not be had (R164). -/
structure Run where
  s : State
  done : Nat
  full : Option Nat

/-- Elements of a 64-byte row (R179). -/
def rowElems (t : Tag) : Nat := max 1 (512 / tagWidth t)

/-- The counter of corrected recompute checks of a core (R249, Table 18-1 row 10; log 13). -/
def correctedUnit (core : Nat) : Nat := 10 * 1024 + core

/-- Bits n of a mask: those below n. -/
def lowMask (n : Nat) : BitVec 8192 := BitVec.ofNat 8192 (2 ^ n - 1)
/-- A mask with bits lo to lo + n - 1 as a test gives them. -/
def maskOf (f : Nat → Bool) (lo : Nat) : Nat → BitVec 8192
  | 0 => 0
  | n + 1 => maskOf f lo n ||| (if f (lo + n) then BitVec.ofNat 8192 (2 ^ (lo + n)) else 0)

namespace State

/-- The word's own entry when it stopped before (R347 step 3). -/
def resumed (s : State) : Option Entry := (s.cv.entry s.pos).filter fun e => e.state == .stopped
def vstart (s : State) : Nat := match s.resumed with | some e => e.vstart | none => 0
def keptOf (s : State) : Option Desc := s.resumed.bind (·.kept)

/-- The entry of an earlier stopped member of the convoy that writes what a test says. -/
def stopEntry (s : State) (writes : Instr → Bool) : Option Entry :=
  s.cv.entries.find? fun e => decide (e.word < s.pos) && (e.state == .stopped || (e.state == .abandoned && e.cause != 0))
    && (match s.cv.words[e.word]? with | some i => writes i | none => false)
/-- What a register that an earlier stopped member writes will hold when that member is whole: its tag and COUNT, as far as they are known; none when
no such member has stopped. -/
def promised (s : State) (r : VReg) : Option (Option (Tag × Option Nat)) :=
  (s.stopEntry fun i => (uses i).vw.contains r).map fun e => (e.whole.find? fun p => p.1 == r).map Prod.snd

/-- The chain a source register names: the old chain when the register is the destination of a word that stopped (R165), and under its new tag one
that an earlier member writes in place. -/
def src (s : State) (dsts : List VReg) (r : VReg) : Desc :=
  match (if dsts.contains r then s.keptOf else none), s.promised r with
  | some k, _ => k
  | none, some (some p) => { s.h.chain r with tag := p.1 }
  | none, _ => s.h.chain r

/-- How far an earlier stopped member of the convoy supplies what it writes, and whether it only waits for an `ecopyc`; none when no such member
has stopped. A load that consumed poison supplies nothing (R190, R344); once its trap has been handled its register is read as it stands (R347). -/
def stopOf (s : State) (writes : Instr → Bool) : Option (Nat × Bool) := (s.stopEntry writes).map fun e => (e.vstart, e.fill)
def stopV? (s : State) (r : VReg) : Option (Nat × Bool) := s.stopOf fun i => (uses i).vw.contains r
def stopM? (s : State) (m : MReg) : Option (Nat × Bool) := if m = 0 then none else s.stopOf fun i => (uses i).mw.contains m

/-- The elements of a register that a copy-engine command of the hart has filled so far (R148). -/
def filled (s : State) (r : VReg) : Option Nat := (s.h.cmds.find? fun c => c.kind == 1 && c.vd == r).map (·.next)
/-- What bounds the elements of a chain that a member reads: a stopped member's, or an `ecopyc`'s (R62, R148, R344). -/
def supplyV (s : State) (r : VReg) : Option (Nat × Bool) :=
  match s.stopV? r with
  | some p => some p
  | none => (s.filled r).map fun k => (k, true)

/-- Outputs that can be made when element j of a chain or mask is read by output j. -/
def availV (s : State) (r : VReg) (n : Nat) : Nat := match s.supplyV r with | some p => p.1 | none => n
def availM (s : State) (m : MReg) (n : Nat) : Nat := match s.stopM? m with | some p => p.1 | none => n

/-- Whether the current word, when it stops for want of elements, only waits for an `ecopyc` (R148): no member at rest supplies it less. -/
def fillStop (s : State) : Bool :=
  let sup := match s.word with
    | some i => (uses i).vr.filterMap s.supplyV ++ (uses i).mr.filterMap s.stopM?
    | none => []
  match ((sup.filter (·.2)).map (·.1)).min? with
  | none => false
  | some k => sup.all fun p => p.2 || decide (k < p.1)

/-- Whether mask register m has bit j set, m0 always (R232, R235). -/
def maskOn (s : State) (m : MReg) (j : Nat) : Bool := m == 0 || (s.h.mask m).getLsbD j
/-- The active elements below n. -/
def active (s : State) (m : MReg) (n : Nat) : List Nat := (List.range n).filter (s.maskOn m)

/-- A register that a copy-engine command of the hart still fills (R148), a mask that one still marks (R142). -/
def filling (s : State) (r : VReg) : Bool := (s.filled r).isSome
def marking (s : State) (m : MReg) : Bool := m != 0 && s.h.cmds.any fun c => c.cm == m
def busy? (s : State) (chains : List VReg) (masks : List MReg) : Bool := chains.any s.filling || masks.any s.marking

/-- The word waits until no command fills the chains it writes or needs whole or marks its destination mask, then runs (R142, R148). -/
def whenFree (s : State) (chains : List VReg) (masks : List MReg) (go : State → Out) : Out :=
  if s.busy? chains masks then .next (s.hold (.retry false)) else go s.awake

/-- A member that needs the whole result of a stopped producer stops before its first element (R344). -/
def waitWhole (s : State) : Out :=
  let e := s.resumed
  .next (s.stopAs ⟨.stopped, 0, s.pos, s.vstart, 0, 0, s.keptOf, [], (match e with | some o => o.seen | none => []), s.fillStop,
    (match e with | some o => o.whole | none => [])⟩)

/-- What a check of operands answers when it cannot be made until a stopped producer is whole: no trap, cause 0. -/
def waitTrap : Trap := ⟨0, 0⟩
/-- A trap of a checked operand, or the rest; a check that cannot be made yet lets the member wait before any effect (R233, R344). -/
def orTrap (s : State) (c : Except Trap α) (go : α → Out) : Out :=
  match c with
  | .error t => if t.cause = 0 then s.waitWhole else .next (s.trapNow t)
  | .ok a => go a

/-- R233 steps 2 and 3: the handler's instructions, then released sources; a source of which nothing is known before its stopped producer is whole is
waited for. -/
def chainsOk (s : State) (dsts srcs : List VReg) : Except Trap Unit :=
  if s.h.mode = .d then .error ⟨0x06, s.h.iword⟩
  else match srcs.find? (fun r => (s.src dsts r).tag == 0 && s.promised r != some none) with
    | some r => .error ⟨0x05, zext r⟩
    | none => if srcs.any (fun r => s.promised r == some none) then .error waitTrap else .ok ()

/-- R233 step 4: the first source's tag is accepted, the others equal it (R231). -/
def tagsOk (s : State) (dsts srcs : List VReg) (accept : Tag → Bool) : Except Trap Unit :=
  match srcs with
  | [] => .ok ()
  | r :: rs =>
    let t := (s.src dsts r).tag
    if !accept t then .error ⟨0x03, zext t⟩
    else match rs.find? (fun q => (s.src dsts q).tag != t) with
      | some q => .error ⟨0x03, zext (s.src dsts q).tag⟩
      | none => .ok ()

/-- Whether a source holds fewer than n elements; a stopped producer's chain is judged by what it will hold when it is whole. -/
def short (s : State) (dsts : List VReg) (r : VReg) (n : Nat) : Bool :=
  match s.promised r with
  | none => decide ((s.src dsts r).count < n)
  | some (some (_, some k)) => decide (k < n)
  | some _ => false
/-- Whether a source may hold fewer than n elements, its producer having stopped before its COUNT is known. -/
def unsure (s : State) (r : VReg) (n : Nat) : Bool :=
  (match s.promised r with | none => false | some (some (_, some _)) => false | some _ => true) && decide ((s.h.chain r).count < n)

/-- R233 step 5: vl within VLMAX, and the sources long enough. -/
def lengthOk (s : State) (dsts : List VReg) (vl : Word) (needs : List (VReg × Nat)) : Except Trap Unit :=
  if s.vlmax < vl.toNat ∨ needs.any (fun p => s.short dsts p.1 p.2) then .error ⟨0x04, vl⟩
  else if needs.any (fun p => s.unsure p.1 p.2) then .error waitTrap else .ok ()

/-- A state that allocated links, if they fit (R164); otherwise how many were wanted. -/
def fits (s t : State) : Except Nat State :=
  if t.h.vused = s.h.vused ∨ t.poolFits then .ok t else .error (t.h.vused - s.h.vused)

/-- The storage for the next element of a fresh chain in register vd, and its COUNT and span (R162, R165). -/
def extend (s : State) (vd : VReg) : Except Nat State :=
  let d := s.h.chain vd
  let total := chainBytes d.tag (d.count + 1)
  let named (t : State) (sp : Nat) : State := t.setChain vd ⟨d.tag, d.count + 1, [⟨sp, 0, total⟩]⟩
  match d.spans with
  | [] =>
    let r := s.allocLink .spine
    let l := (r.2.setRc r.1 1).allocLink .data
    s.fits (named ((l.2.setRc l.1 1).slotPut r.1 0 l.1) r.1)
  | p :: _ =>
    match s.slotGet p.spine ((total - 1) / 512) with
    | some _ => .ok (named s p.spine)
    | none =>
      let l := s.allocLink .data
      s.fits (named ((l.2.setRc l.1 1).slotPut p.spine ((total - 1) / 512) l.1) p.spine)

/-- The next element appended to a fresh chain. -/
def append (s : State) (vd : VReg) (v : Nat) : Except Nat State :=
  (s.extend vd).map fun t => t.putElem (t.h.chain vd) (s.h.chain vd).count v

/-- Element j of a chain rewritten; a shared data link it lies in is copied first (R169 step 2). -/
def rewrite (s : State) (vd : VReg) (j v : Nat) : Except Nat State :=
  let d := s.h.chain vd
  let b := j * tagWidth d.tag / 8
  let more := (j * tagWidth d.tag + tagWidth d.tag - 1) / 8 - b
  match spanOf d.spans b with
  | some (sp, e) =>
    (s.fits ((s.privateLink sp (e / 512)).privateLink sp ((e + more) / 512))).map fun t => t.putElem d j v
  | none => .ok s

/-- Private spines for the spans of a chain register, span by span while the pool gives them (R169 step 1). -/
def ownSpans (s : State) (vd : VReg) : List Span → List Span → State × Option Nat
  | _, [] => (s, none)
  | before, p :: rest =>
    if 1 < s.rc p.spine then
      let r := s.copySpine p
      let q : Span := ⟨r.1, p.off, p.len⟩
      let d := s.h.chain vd
      match s.fits (((r.2.setRc r.1 1).setRc p.spine (r.2.rc p.spine - 1)).setChain vd ⟨d.tag, d.count, before ++ q :: rest⟩) with
      | .ok t => t.ownSpans vd (before ++ [q]) rest
      | .error n => (s, some n)
    else s.ownSpans vd (before ++ [p]) rest

/-- A destination made ready: private spines, or an empty fresh chain, the old one released unless it is a source (R167 to R170). -/
def openDest (s : State) (vd : VReg) (tag : Tag) (inPlace keep : Bool) : State × Option Nat :=
  if inPlace then s.ownSpans vd [] (s.h.chain vd).spans
  else if s.vstart ≠ 0 then (s, none)
  else if keep then (s.setChain vd ⟨tag, 0, []⟩, none)
  else ((s.releaseReg vd).setChain vd ⟨tag, 0, []⟩, none)

/-- A finished destination: trimmed and tagged in place, or the kept source released (R167, R170). -/
def closeDest (s : State) (vd : VReg) (tag : Tag) (n : Nat) (inPlace : Bool) (kept : Option Desc) : State :=
  if inPlace then
    let d := s.h.chain vd
    if n < d.count then s.writeDesc vd tag n (cutBytes d.spans 0 (chainBytes tag n)) else s.setChain vd ⟨tag, d.count, d.spans⟩
  else match kept with
    | some k => s.releaseDesc k
    | none => s

/-- The rows of the pool, link id × 8 + row, that a reader of a chain reads: the slots of its spines and the bytes of its links that are not
fresh (R153, R154). -/
def chainRows (s : State) (d : Desc) : List Nat :=
  d.spans.flatMap fun p =>
    if p.len = 0 then []
    else (List.range ((p.off + p.len - 1) / 64 + 1 - p.off / 64)).flatMap fun i =>
      let r := p.off / 64 + i
      (8 * p.spine + r / 256) :: (match s.slotGet p.spine (r / 8) with
        | some l => if s.rowFresh l (r % 8) then [] else [8 * l + r % 8]
        | none => [])

/-- The choice of a recompute check (R248): one of the active elements, as the generator gives it, which advances. -/
def chooseStar (s : State) (act : List Nat) : State × Option Nat :=
  if act.isEmpty then (s, none)
  else
    let g := s.core.recompute
    ({ s with core := { s.core with recompute := Config.recomputeNext g } }, some (act.getD (Config.recomputeChoice g act.length % act.length) 0))
/-- The check at element j* (R249): a transient mismatch is counted, a persistent one is a machine check, tval j*, with the first element of its row. -/
def testStar (s : State) (j per : Nat) : State × Option (Nat × Nat) :=
  let s1 := { s with core := { s.core with upsets := s.core.upsets.tail } }
  match s.core.upsets.headD 0 with
  | 0 => (s1, none)
  | 1 => (s1.count (correctedUnit s.coreNo), none)
  | _ => (s1, some (j, j / per * per))

/-- The recompute check of an issue that has made outputs v0 to done - 1 of its active elements (R248, R249). -/
def recheck (s : State) (act : List Nat) (v0 done per : Nat) : State × Option (Nat × Nat) :=
  match s.chooseStar (act.filter fun j => decide (v0 ≤ j ∧ j < done)) with
  | (t, some j) => t.testStar j per
  | (t, none) => (t, none)

/-- Flags collected (R215). -/
def raise (s : State) (f : Flags) : State := { s with h := { s.h with vflags := s.h.vflags ||| f } }

end State

/-- One output put into the destination. -/
def Job.put (c : Job) (s : State) (j : Nat) (e : Emit) : Except Nat State :=
  if c.inPlace then (if e.put then s.rewrite c.vd j e.bits else .ok s)
  else if c.sparse && !e.put then s.extend c.vd
  else s.append c.vd e.bits

/-- Outputs j, j+1, … put one after the other until the pool gives out. -/
def Job.run (c : Job) (s : State) (j : Nat) : Nat → Run
  | 0 => ⟨s, j, none⟩
  | k + 1 =>
    let e := c.out j
    match c.put s j e with
    | .error n => ⟨s, j, some n⟩
    | .ok t => c.run (t.raise e.flags) (j + 1) k

namespace State

/-- A V-class member that writes one chain: its outputs from VSTART on, and how it ends (R165, R232, R249, R344). When the recompute mismatch
persists, it has made only those below the row of that element. One that is checked and only waits for an `ecopyc` makes nothing yet: the
check covers what the whole issue makes (log 11). -/
def produce (s : State) (c : Job) : Out :=
  let v0 := s.vstart
  let goes := decide (max v0 (min c.n c.limit) < c.n) && s.fillStop
  let stop := if goes && c.checks.isSome then v0 else max v0 (min c.n c.limit)
  let act := match c.checks with | some m => s.active m (min c.n 8192) | none => []
  let kept : Option Desc := if c.keep && !c.inPlace then some ((s.keptOf).getD (s.h.chain c.vd)) else none
  let halt (u : State) (cause : BitVec 8) (tval done need : Nat) (fill : Bool) : Out :=
    .next (u.stopAs ⟨.stopped, cause, u.pos, done, BitVec.ofNat 64 tval, need, kept, [], c.seen done, fill,
      [(c.vd, c.tag, if c.known then some c.n else none)]⟩)
  match s.openDest c.vd c.tag c.inPlace c.keep with
  | (t, some n) => halt t 0x0C v0 v0 n false
  | (t, none) =>
    let r := c.run t v0 (stop - v0)
    let chk := r.s.recheck act v0 r.done c.per
    match chk.2, r.full with
    | some m, _ =>
      let q := c.run (t.recheck act v0 r.done c.per).1 v0 (m.2 - v0)
      halt q.s 0x3F m.1 q.done 0 false
    | none, some n => halt chk.1 0x0C r.done r.done n false
    | none, none =>
      if c.n ≤ r.done then .next ((c.after (chk.1.closeDest c.vd c.tag c.n c.inPlace kept)).retireV c.n)
      else halt chk.1 0 0 r.done 0 goes

/-- Element j of an operand: of a chain, or the low bits of an x register at the width of a tag (R232). -/
def operandAt (s : State) (dsts : List VReg) (t : Tag) (o : Operand) (j : Nat) : Nat :=
  match o with
  | .chain r => s.elem (s.src dsts r) j
  | .scalar r => (s.x r).toNat % 2 ^ tagWidth t

/-- What a masked-off element holds without Z: the first source's element, which stands, or zero (Tables 11-2, 11-4, 11-5). -/
inductive Fill where | first | zero
  deriving DecidableEq, Repr

/-- The skeleton of R232 for sources of equal tags, read at index j. -/
def elementwise (s : State) (vd : VReg) (ops : List Operand) (accept : Tag → Bool) (rtag : Tag → Tag) (xl : XReg) (msk : MReg)
    (z : Bool) (fill : Fill) (checked : Bool) (extra : Tag → Except Trap Unit) (f : Tag → List Nat → Nat × Flags) : Out :=
  let srcs := ops.filterMap Operand.reg
  let vl := s.x xl
  let n := vl.toNat
  let t := match srcs with | r :: _ => (s.src [vd] r).tag | [] => 0
  let checks : Except Trap Unit := do
    s.chainsOk [vd] srcs
    s.tagsOk [vd] srcs accept
    extra t
    s.lengthOk [vd] vl (srcs.map fun r => (r, n))
  s.orTrap checks fun _ =>
    s.whenFree [vd] [] fun s1 =>
      let same := tagWidth (rtag t) == tagWidth t && srcs.head? == some vd
      s1.produce
        { vd := vd, tag := rtag t, n := n, inPlace := same, keep := srcs.contains vd
          limit := (srcs.map fun r => s1.availV r n).foldl min (s1.availM msk n)
          per := rowElems (rtag t), checks := if checked then some msk else none
          out := fun j =>
            if s1.maskOn msk j then
              let r := f t (ops.map fun o => s1.operandAt [vd] t o j)
              ⟨r.1, r.2, true⟩
            else if z then ⟨0, 0, true⟩
            else match fill, ops with
              | .first, o :: _ => ⟨s1.operandAt [vd] t o j, 0, false⟩
              | _, _ => ⟨0, 0, true⟩ }

/-- A mask destination (R242): bits below vl by a test where active, cleared or kept where not, bits from vl up cleared. Bits from a
stop upward keep their value, bits below VSTART stand. -/
def writeMaskBits (s : State) (md : MReg) (vl v0 stop : Nat) (res : Nat → Bool) : State :=
  let old := s.h.mask md
  s.setMask md ((old &&& lowMask v0) ||| maskOf res v0 (stop - v0) ||| (if stop < vl then old &&& ~~~lowMask stop else 0))

/-- A run that writes a mask register (R242, R249, R344); as in `produce`, one that is checked and only waits for an `ecopyc` makes nothing yet. -/
def produceMask (s : State) (md msk : MReg) (z : Bool) (vl limit per : Nat) (checked : Bool) (bit : Nat → Bool × Flags) : Out :=
  let v0 := s.vstart
  let goes := decide (max v0 (min vl limit) < vl) && s.fillStop
  let stop := if goes && checked then v0 else max v0 (min vl limit)
  let chk := s.recheck (if checked then s.active msk (min vl 8192) else []) v0 stop per
  let last := match chk.2 with | some m => max v0 (min stop m.2) | none => stop
  let old := s.h.mask md
  let res (j : Nat) : Bool := if s.maskOn msk j then (bit j).1 else !z && old.getLsbD j
  let fl := ((List.range (last - v0)).map (v0 + ·)).foldl (fun a j => if s.maskOn msk j then a ||| (bit j).2 else a) 0
  let t := (chk.1.writeMaskBits md vl v0 last res).raise fl
  let halt (cause : BitVec 8) (tval : Nat) (fill : Bool) : Out :=
    .next (t.stopAs ⟨.stopped, cause, t.pos, last, BitVec.ofNat 64 tval, 0, none, [], [], fill, []⟩)
  match chk.2 with
  | some m => halt 0x3F m.1 false
  | none => if vl ≤ last then .next (t.retireV vl) else halt 0 0 goes

end State

end Sys2Proof.Machine
end

