-- ==== Sys2Proof/Machine/VectorArith.lean ====
section
/-! DEFINITION. Major 0x10, arithmetic (R237 to R241): the operation each row of Table 11-2 does on one element of each source, and the
32 meanings over the skeleton of R232. -/

namespace Sys2Proof.Machine

/-- Tag classes of R231. -/
def isWide (t : Tag) : Bool := decide (12 ≤ t.toNat)
def isNarrow (t : Tag) : Bool := decide (9 ≤ t.toNat ∧ t.toNat ≤ 11)
def intOrWide (t : Tag) : Bool := isIntTag t || isWide t
def anyTag (t : Tag) : Bool := t != 0

/-- An operation with an integer form on exact integers, reduced under R202, and a floating form. -/
def onTag (t : Tag) (i : Nat × Flags) (f : Fmt → Nat × Flags) : Nat × Flags :=
  match fmtOf t with
  | some g => f g
  | none => i

/-- Rows 0 to 3 (R237). -/
def elAdd (rm : BitVec 3) (t : Tag) (a b : Nat) : Nat × Flags := onTag t (intWrap t (intOf t a + intOf t b)) fun f => f.add rm a b
def elSub (rm : BitVec 3) (t : Tag) (a b : Nat) : Nat × Flags := onTag t (intWrap t (intOf t a - intOf t b)) fun f => f.sub rm a b
def elMul (rm : BitVec 3) (t : Tag) (a b : Nat) : Nat × Flags := onTag t (intWrap t (intOf t a * intOf t b)) fun f => f.mul rm a b
/-- Row 4: the high half of the exact product. -/
def elMulh (t : Tag) (a b : Nat) : Nat × Flags := (bitsOf (tagWidth t) (intOf t a * intOf t b / (2 ^ tagWidth t : Nat)), 0)
/-- Row 5 with R238. -/
def elDiv (rm : BitVec 3) (t : Tag) (a b : Nat) : Nat × Flags :=
  onTag t (if intOf t b = 0 then (2 ^ tagWidth t - 1, fDZ) else intWrap t ((intOf t a).tdiv (intOf t b))) fun f => f.div rm a b
/-- The remainder to the nearest integer quotient, ties to even; exact (R237, R238, R208). -/
def Fmt.rem (f : Fmt) (a b : Nat) : Nat × Flags :=
  let x := f.decode a; let y := f.decode b
  match x, y with
  | .nan _, _ => (f.canon, nvOf [x, y])
  | _, .nan _ => (f.canon, nvOf [x, y])
  | .inf _, _ => (f.canon, fNV)
  | .fin n m e, .inf _ => f.round rmRNE false n m e false
  | .fin n m e, .fin _ d g =>
    if d = 0 then (f.canon, fNV)
    else
      let c := min e g
      let p := m * 2 ^ (e - c).toNat
      let q := d * 2 ^ (g - c).toNat
      let r := p % q
      if q < 2 * r ∨ 2 * r = q ∧ p / q % 2 = 1 then f.round rmRNE false (!n) (q - r) c false
      else f.round rmRNE false n r c false
/-- Row 6 with R238. -/
def elRem (t : Tag) (a b : Nat) : Nat × Flags :=
  onTag t (if intOf t b = 0 then (a % 2 ^ tagWidth t, fDZ) else (bitsOf (tagWidth t) ((intOf t a).tmod (intOf t b)), 0)) fun f => f.rem a b
/-- Rows 7 to 9: a * b + c with the signs of the product and of c. -/
def elFma (np nc : Bool) (rm : BitVec 3) (t : Tag) (a b c : Nat) : Nat × Flags :=
  let sg (n : Bool) (v : Int) : Int := if n then -v else v
  onTag t (intWrap t (sg np (intOf t a * intOf t b) + sg nc (intOf t c)))
    fun f => f.fma rm (if np then f.neg a else a) b (if nc then f.neg c else c)
/-- Rows 10 and 11. -/
def elMinMax (max : Bool) (t : Tag) (a b : Nat) : Nat × Flags :=
  onTag t ((if (decide (intOf t a < intOf t b)) == max then b else a) % 2 ^ tagWidth t, 0) fun f => f.minmax max a b
/-- Rows 12 and 13. -/
def elAbs (t : Tag) (a : Nat) : Nat × Flags := onTag t (intWrap t (intOf t a).natAbs) fun f => (a % 2 ^ (f.w - 1), 0)
def elNeg (t : Tag) (a : Nat) : Nat × Flags := onTag t (intWrap t (-(intOf t a))) fun f => (f.neg a, 0)
/-- Row 14. -/
def elSqrt (rm : BitVec 3) (t : Tag) (a : Nat) : Nat × Flags := onTag t (a, 0) fun f => f.sqrt rm a
/-- Rows 15 to 18, on the patterns. -/
def elAndn (t : Tag) (a b : Nat) : Nat × Flags := (a &&& (2 ^ tagWidth t - 1 - b % 2 ^ tagWidth t), 0)
/-- Rows 19 to 21 (R239). -/
def elShl (t : Tag) (a b : Nat) : Nat × Flags := (if b < tagWidth t then a * 2 ^ b % 2 ^ tagWidth t else 0, 0)
def elShr (t : Tag) (a b : Nat) : Nat × Flags := (if b < tagWidth t then a / 2 ^ b else 0, 0)
def elSra (t : Tag) (a b : Nat) : Nat × Flags :=
  let w := tagWidth t
  let v : Int := if 2 ^ (w - 1) ≤ a then (a : Int) - (2 ^ w : Nat) else a
  (bitsOf w (v / (2 ^ min b w : Nat)), 0)
/-- Rows 22 and 23. -/
def elAddSat (t : Tag) (a b : Nat) : Nat × Flags := intClamp t (intOf t a + intOf t b)
def elSubSat (t : Tag) (a b : Nat) : Nat × Flags := intClamp t (intOf t a - intOf t b)
/-- Row 27: the codes of Table 11-3 (R241). -/
def classOf (f : Fmt) (a : Nat) : Nat :=
  match f.decode a with
  | .nan s => if s then 8 else 9
  | .inf n => if n then 0 else 7
  | .fin n m e =>
    if m = 0 then (if n then 3 else 4)
    else if e = f.emin - f.frac ∧ m < 2 ^ f.frac then (if n then 2 else 5)
    else if n then 1 else 6
def elClass (t : Tag) (a : Nat) : Nat × Flags := onTag t (0, 0) fun f => (classOf f a, 0)
/-- Row 28. -/
def elCopySign (t : Tag) (a b : Nat) : Nat × Flags :=
  let h := 2 ^ (tagWidth t - 1)
  (a % h + b / h % 2 * h, 0)
/-- The n tag of a width (row 27). -/
def nTag (t : Tag) : Tag := match tagWidth t with | 8 => 5 | 16 => 6 | 32 => 7 | _ => 8

/-- An operation on one, two or three elements. -/
def one (f : Tag → Nat → Nat × Flags) (t : Tag) : List Nat → Nat × Flags | a :: _ => f t a | [] => (0, 0)
def two (f : Tag → Nat → Nat → Nat × Flags) (t : Tag) : List Nat → Nat × Flags | a :: b :: _ => f t a b | _ => (0, 0)
def three (f : Tag → Nat → Nat → Nat → Nat × Flags) (t : Tag) : List Nat → Nat × Flags | a :: b :: c :: _ => f t a b c | _ => (0, 0)

/-- No further check. -/
def noExtra (_ : Tag) : Except Trap Unit := .ok ()

namespace State

/-- A row with sources va and vb, one with va, and one with va, vb and vc, whose fill is va. -/
def arith2 (s : State) (vd va : VReg) (vb : VReg) (xl : XReg) (msk : MReg) (z sc : Bool) (accept : Tag → Bool) (f : Tag → Nat → Nat → Nat × Flags) : Out :=
  s.elementwise vd [.chain va, operandB sc vb] accept id xl msk z .first true noExtra (two f)
def arith1 (s : State) (vd va : VReg) (xl : XReg) (msk : MReg) (z : Bool) (accept : Tag → Bool) (f : Tag → Nat → Nat × Flags) : Out :=
  s.elementwise vd [.chain va] accept id xl msk z .first true noExtra (one f)
def arith3 (s : State) (vd va vb vc : VReg) (xl : XReg) (msk : MReg) (z sc : Bool) (f : Tag → Nat → Nat → Nat → Nat × Flags) : Out :=
  s.elementwise vd [.chain va, operandB sc vb, .chain vc] intOrWide id xl msk z .first true noExtra (three f)

/-- A row with no chain source (`vsplat`, `vid`, `mtov`): always fresh, zero where masked off (R232). -/
def generate (s : State) (vd : VReg) (ot : Tag) (xl : XReg) (msk : MReg) (masks : List MReg) (f : State → Nat → Nat × Flags) : Out :=
  let vl := s.x xl
  let n := vl.toNat
  let checks : Except Trap Unit := do
    s.chainsOk [vd] []
    s.lengthOk [vd] vl []
  s.orTrap checks fun _ =>
    s.whenFree [vd] [] fun s1 =>
      s1.produce
        { vd := vd, tag := ot, n := n, inPlace := false, keep := false
          limit := masks.foldl (fun a m => min a (s1.availM m n)) n, per := rowElems ot, checks := none
          out := fun j => if s1.maskOn msk j then (let r := f s1 j; ⟨r.1, r.2, true⟩) else ⟨0, 0, true⟩ }

end State

/-- Result tag and group size of `vdot` (R240). -/
def dotShape (t : Tag) : Option (Tag × Nat) :=
  match t.toNat with
  | 1 => some (3, 4) | 5 => some (7, 4) | 2 => some (4, 4) | 6 => some (8, 4)
  | 10 => some (14, 4) | 11 => some (14, 4) | 12 => some (14, 2) | 13 => some (14, 2)
  | _ => none

/-- An exact sum (R225): infinite terms of both signs are invalid, beside a NaN too; else a NaN, an infinity or a finite value. An exact zero takes its sign
from R210. -/
def sumNums (rm : BitVec 3) (l : List Num) : Num × Flags :=
  let infs := l.filter fun x => match x with | .inf _ => true | _ => false
  if infs.any Num.sign && infs.any (fun x => !x.sign) then (.nan false, fNV)
  else if l.any Num.isNan then (.nan false, 0)
  else
    match infs with
    | x :: _ => (.inf x.sign, 0)
    | [] =>
      let e := l.foldl (fun a x => match x with | .fin _ _ k => min a k | _ => a) (0 : Int)
      let v := l.foldl (fun a x => match x with | .fin n m k => a + signedNat n (m * 2 ^ (k - e).toNat) | _ => a) (0 : Int)
      if v = 0 then
        let neg := if l.all (fun x => x.isZero && x.sign) && !l.isEmpty then true
          else if l.all (fun x => x.isZero && !x.sign) then false else rm == rmRDN
        (.fin neg 0 0, 0)
      else (.fin (decide (v < 0)) v.natAbs e, 0)

/-- An exact sum of products and a value, rounded once, with the flags of R225. -/
def exactSum (f : Fmt) (rm : BitVec 3) (prods : List (Num × Flags)) (c : Num) : Nat × Flags :=
  let s := sumNums rm (prods.map Prod.fst ++ [c])
  let r := f.deliver rm s.1
  (r.1, r.2 ||| s.2 ||| prods.foldl (fun a p => a ||| p.2) 0)

/-- Group j of `vdot` (R240): elements of va and vb, and the element of vc. -/
def dotGroup (src dst : Tag) (rm : BitVec 3) (ab : List (Nat × Nat)) (c : Nat) : Nat × Flags :=
  match fmtOf src, fmtOf dst with
  | some f, some g =>
    let prods := ab.map fun p =>
      let x := f.decode p.1; let y := f.decode p.2
      let r := Num.mul x y
      (r.1, r.2 ||| nvOf [x, y])
    let z := g.decode c
    let r := exactSum g rm prods z
    (r.1, r.2 ||| nvOf [z])
  | _, _ => intWrap dst (ab.foldl (fun a p => a + intOf src p.1 * intOf src p.2) (intOf dst c))

/-- `vadd` (R237). -/
def execVadd (vd va vb xl : BitVec 5) (msk : BitVec 3) (z : Bool) (rm : BitVec 3) (sc : Bool) (s : State) : Out :=
  s.arith2 vd va vb xl msk z sc intOrWide (elAdd rm)
/-- `vsub` (R237). -/
def execVsub (vd va vb xl : BitVec 5) (msk : BitVec 3) (z : Bool) (rm : BitVec 3) (sc : Bool) (s : State) : Out :=
  s.arith2 vd va vb xl msk z sc intOrWide (elSub rm)
/-- `vrsub` (R237): b - a. -/
def execVrsub (vd va vb xl : BitVec 5) (msk : BitVec 3) (z : Bool) (rm : BitVec 3) (sc : Bool) (s : State) : Out :=
  s.arith2 vd va vb xl msk z sc intOrWide fun t a b => elSub rm t b a
/-- `vmul` (R237). -/
def execVmul (vd va vb xl : BitVec 5) (msk : BitVec 3) (z : Bool) (rm : BitVec 3) (sc : Bool) (s : State) : Out :=
  s.arith2 vd va vb xl msk z sc intOrWide (elMul rm)
/-- `vmulh` (R237). -/
def execVmulh (vd va vb xl : BitVec 5) (msk : BitVec 3) (z sc : Bool) (s : State) : Out := s.arith2 vd va vb xl msk z sc isIntTag elMulh
/-- `vdiv` (R237, R238). -/
def execVdiv (vd va vb xl : BitVec 5) (msk : BitVec 3) (z : Bool) (rm : BitVec 3) (sc : Bool) (s : State) : Out :=
  s.arith2 vd va vb xl msk z sc intOrWide (elDiv rm)
/-- `vrem` (R237, R238). -/
def execVrem (vd va vb xl : BitVec 5) (msk : BitVec 3) (z : Bool) (_rm : BitVec 3) (sc : Bool) (s : State) : Out :=
  s.arith2 vd va vb xl msk z sc intOrWide elRem
/-- `vfma` (R237, R225). -/
def execVfma (vd va vb vc xl : BitVec 5) (msk : BitVec 3) (z : Bool) (rm : BitVec 3) (sc : Bool) (s : State) : Out :=
  s.arith3 vd va vb vc xl msk z sc (elFma false false rm)
/-- `vfms` (R237, R225). -/
def execVfms (vd va vb vc xl : BitVec 5) (msk : BitVec 3) (z : Bool) (rm : BitVec 3) (sc : Bool) (s : State) : Out :=
  s.arith3 vd va vb vc xl msk z sc (elFma false true rm)
/-- `vfnma` (R237, R225). -/
def execVfnma (vd va vb vc xl : BitVec 5) (msk : BitVec 3) (z : Bool) (rm : BitVec 3) (sc : Bool) (s : State) : Out :=
  s.arith3 vd va vb vc xl msk z sc (elFma true false rm)
/-- `vmin` (R237, R209). -/
def execVmin (vd va vb xl : BitVec 5) (msk : BitVec 3) (z sc : Bool) (s : State) : Out := s.arith2 vd va vb xl msk z sc intOrWide (elMinMax false)
/-- `vmax` (R237, R209). -/
def execVmax (vd va vb xl : BitVec 5) (msk : BitVec 3) (z sc : Bool) (s : State) : Out := s.arith2 vd va vb xl msk z sc intOrWide (elMinMax true)
/-- `vabs` (R237). -/
def execVabs (vd va xl : BitVec 5) (msk : BitVec 3) (z : Bool) (s : State) : Out := s.arith1 vd va xl msk z anyTag elAbs
/-- `vneg` (R237). -/
def execVneg (vd va xl : BitVec 5) (msk : BitVec 3) (z : Bool) (s : State) : Out := s.arith1 vd va xl msk z anyTag elNeg
/-- `vsqrt` (R237). -/
def execVsqrt (vd va xl : BitVec 5) (msk : BitVec 3) (z : Bool) (rm : BitVec 3) (s : State) : Out := s.arith1 vd va xl msk z isWide (elSqrt rm)
/-- `vand` (R237). -/
def execVand (vd va vb xl : BitVec 5) (msk : BitVec 3) (z sc : Bool) (s : State) : Out :=
  s.arith2 vd va vb xl msk z sc isIntTag fun _ a b => (a &&& b, 0)
/-- `vor` (R237). -/
def execVor (vd va vb xl : BitVec 5) (msk : BitVec 3) (z sc : Bool) (s : State) : Out :=
  s.arith2 vd va vb xl msk z sc isIntTag fun _ a b => (a ||| b, 0)
/-- `vxor` (R237). -/
def execVxor (vd va vb xl : BitVec 5) (msk : BitVec 3) (z sc : Bool) (s : State) : Out :=
  s.arith2 vd va vb xl msk z sc isIntTag fun _ a b => (a ^^^ b, 0)
/-- `vandn` (R237). -/
def execVandn (vd va vb xl : BitVec 5) (msk : BitVec 3) (z sc : Bool) (s : State) : Out := s.arith2 vd va vb xl msk z sc isIntTag elAndn
/-- `vshl` (R239). -/
def execVshl (vd va vb xl : BitVec 5) (msk : BitVec 3) (z sc : Bool) (s : State) : Out := s.arith2 vd va vb xl msk z sc isIntTag elShl
/-- `vshr` (R239). -/
def execVshr (vd va vb xl : BitVec 5) (msk : BitVec 3) (z sc : Bool) (s : State) : Out := s.arith2 vd va vb xl msk z sc isIntTag elShr
/-- `vsra` (R239). -/
def execVsra (vd va vb xl : BitVec 5) (msk : BitVec 3) (z sc : Bool) (s : State) : Out := s.arith2 vd va vb xl msk z sc isIntTag elSra
/-- `vaddsat` (R237). -/
def execVaddsat (vd va vb xl : BitVec 5) (msk : BitVec 3) (z sc : Bool) (s : State) : Out := s.arith2 vd va vb xl msk z sc isIntTag elAddSat
/-- `vsubsat` (R237). -/
def execVsubsat (vd va vb xl : BitVec 5) (msk : BitVec 3) (z sc : Bool) (s : State) : Out := s.arith2 vd va vb xl msk z sc isIntTag elSubSat
/-- `vclz` (R237). -/
def execVclz (vd va xl : BitVec 5) (msk : BitVec 3) (z : Bool) (s : State) : Out :=
  s.arith1 vd va xl msk z isIntTag fun t a => (clzNat (tagWidth t) a, 0)
/-- `vpopc` (R237). -/
def execVpopc (vd va xl : BitVec 5) (msk : BitVec 3) (z : Bool) (s : State) : Out :=
  s.arith1 vd va xl msk z isIntTag fun t a => (popNat (tagWidth t) a, 0)
/-- `vdot` (R240): va and vb are checked first, then vc; a masked-off element is vc's. -/
def execVdot (vd va vb vc xl : BitVec 5) (msk : BitVec 3) (z : Bool) (rm : BitVec 3) (s : State) : Out :=
  let src (r : VReg) : Desc := s.src [vd] r
  let t := (src va).tag
  let shape := (dotShape t).getD (0, 1)
  let g := shape.2
  let vl := s.x xl
  let n := vl.toNat
  let checks : Except Trap Unit := do
    s.chainsOk [vd] [va, vb, vc]
    s.tagsOk [vd] [va, vb] fun u => (dotShape u).isSome
    if (src vc).tag = shape.1 then .ok () else .error ⟨0x03, zext (src vc).tag⟩
    s.lengthOk [vd] vl [(va, g * n), (vb, g * n), (vc, n)]
  s.orTrap checks fun _ =>
    s.whenFree [vd] [] fun s1 =>
      s1.produce
        { vd := vd, tag := shape.1, n := n, inPlace := false, keep := vd == va || vd == vb || vd == vc
          limit := [s1.availV va (g * n) / g, s1.availV vb (g * n) / g, s1.availV vc n].foldl min (s1.availM msk n)
          per := rowElems shape.1, checks := some msk
          out := fun j =>
            if s1.maskOn msk j then
              let ab := (List.range g).map fun i => (s1.elem (src va) (g * j + i), s1.elem (src vb) (g * j + i))
              let r := dotGroup t shape.1 rm ab (s1.elem (src vc) j)
              ⟨r.1, r.2, true⟩
            else if z then ⟨0, 0, true⟩
            else ⟨s1.elem (src vc) j, 0, true⟩ }
/-- `vclass` (R241). -/
def execVclass (vd va xl : BitVec 5) (msk : BitVec 3) (z : Bool) (s : State) : Out :=
  s.elementwise vd [.chain va] (fun t => isWide t || t == 10 || t == 11) nTag xl msk z .zero true noExtra (one elClass)
/-- `vcopysign` (R237). -/
def execVcopysign (vd va vb xl : BitVec 5) (msk : BitVec 3) (z sc : Bool) (s : State) : Out := s.arith2 vd va vb xl msk z sc isFloatTag elCopySign
/-- `vmov` (R237). -/
def execVmov (vd va xl : BitVec 5) (msk : BitVec 3) (z : Bool) (s : State) : Out :=
  s.elementwise vd [.chain va] anyTag id xl msk z .first false noExtra (one fun _ a => (a, 0))
/-- `vsplat` (R237). -/
def execVsplat (vd xb xl : BitVec 5) (msk : BitVec 3) (_z : Bool) (ot : BitVec 4) (s : State) : Out :=
  s.generate vd ot xl msk [msk] fun t _ => ((t.x xb).toNat % 2 ^ tagWidth ot, 0)
/-- `vid` (R237). Table 11-2 limits OT to the int tags: another is an illegal encoding (R233 step 1). -/
def execVid (vd xl : BitVec 5) (msk : BitVec 3) (_z : Bool) (ot : BitVec 4) (s : State) : Out :=
  if !isIntTag ot then s.trapWord 0x01 else s.generate vd ot xl msk [msk] fun _ j => intWrap ot j

end Sys2Proof.Machine
end

