-- ==== Sys2Proof/Machine/Chains.lean ====
section
/-! DEFINITION. Major 0x1A, the chain instructions (R155 to R178), each all-or-nothing with respect to the pool (R166). -/

namespace Sys2Proof.Machine

/-- `cut(v, a, n)` (R176): the spans over elements a to a + n - 1. -/
def cutElems (d : Desc) (a n : Nat) : List Span :=
  cutBytes d.spans (a * tagWidth d.tag / 8) (((a + n) * tagWidth d.tag + 7) / 8 - a * tagWidth d.tag / 8)

/-- The header and span words of a descriptor (Tables 08-3, 08-4). -/
def Desc.word (d : Desc) (i : Nat) : Word := (descWords d).getD i 0

namespace State

/-- R175 step 2: not among a delegated handler's instructions. -/
def chainMode (s : State) : Except Trap Unit := if s.h.mode = .d then .error ⟨0x06, s.h.iword⟩ else .ok ()
/-- R175 step 3. -/
def notReleased (s : State) (r : VReg) : Except Trap Unit := if (s.h.chain r).tag = 0 then .error ⟨0x05, zext r⟩ else .ok ()
/-- A check of a chain instruction. -/
def require (ok : Bool) (cause : BitVec 8) (tval : Word) : Except Trap Unit := if ok then .ok () else .error ⟨cause, tval⟩

/-- A source that a stopped member of the convoy writes: the whole of it is needed. -/
def sourceStopped (s : State) (srcs : List VReg) : Bool := srcs.any fun r => (s.stopV? r).isSome

/-- A chain instruction's change, taken whole or not at all (R166). What its entry then counts as committed is the COUNT of its first destination
(Table 17-8, log 64). -/
def editChain (s : State) (checks : Except Trap Unit) (srcs dsts : List VReg) (go : State → State) : Out :=
  if s.sourceStopped srcs then s.waitWhole
  else s.orTrap checks fun _ =>
    s.whenFree (srcs ++ dsts) [] fun s1 =>
      match s1.fits (go s1) with
      | .error n => .next (s1.poolTrap n (BitVec.ofNat 64 n))
      | .ok t => .next (t.retireV (match dsts with | r :: _ => (t.h.chain r).count | [] => 0))

/-- Fresh spines and data links for the bytes of a span list, the bytes copied in order; fresh rows whose bytes are all fresh stay so (`cflat`). -/
def flatFrom (s : State) (list : List Span) (total : Nat) : Nat → Nat → List Span × State
  | 0, _ => ([], s)
  | fuel + 1, lo =>
    if total ≤ lo then ([], s)
    else
      let n := min 131072 (total - lo)
      let r := s.newSpine n
      let q := r.2.flatFrom list total fuel (lo + 131072)
      (⟨r.1, 0, n⟩ :: q.1, q.2)

/-- Whether chain byte b lies in a fresh row. -/
def byteFresh (s : State) (spans : List Span) (b : Nat) : Bool :=
  match s.byteLoc spans b with | some (l, o) => s.rowFresh l (o / 64) | none => true

/-- Bytes of one span list copied to another, row by row of the destination; a row whose source bytes are all fresh stays fresh (R153). -/
def copyRows (s : State) (src dst : List Span) (total : Nat) : State :=
  (List.range ((total + 63) / 64)).foldl (fun t r =>
    let n := min 64 (total - 64 * r)
    if (List.range n).all fun i => s.byteFresh src (64 * r + i) then t
    else t.chainPut dst (64 * r) (s.chainRead src (64 * r) n)) s

/-- The result of `cflat` from a span list, written to a register (R177): every row that the chain holds is read. -/
def flatten (s : State) (vd : VReg) (tag : Tag) (count : Nat) (list : List Span) : State :=
  let total := chainBytes tag count
  let r := s.flatFrom list total 5 0
  let t := (r.2.copyRows list r.1 total).readRows (s.chainRows ⟨tag, count, list⟩)
  t.writeDesc vd tag count r.1

/-- Distinct spines and covered data links of a chain (Table 08-11). -/
def linkCount (s : State) (d : Desc) : Nat :=
  let spines := (d.spans.map (·.spine)).dedup
  let data := (d.spans.flatMap fun p => p.slots.filterMap fun i => s.slotGet p.spine i).dedup
  spines.length + data.length

/-- A value read from a chain or the pool: one output (Table 17-8, log 64). -/
def readChain (s : State) (xd : XReg) (w : State → Word) : Out := .next ((s.setX xd (w s)).retireV 1)

/-- Whether a register is named by a word of the pool-fault record that is not yet done (R349). -/
def heldByRecord (s : State) (r : VReg) : Bool :=
  match s.h.pfr with
  | some c => (List.range c.words.length).any fun i =>
      !c.done.getLsbD i && (match c.words[i]? with | some w => (uses w).vr.contains r || (uses w).vw.contains r | none => false)
  | none => false

/-- The rows of the pool that hold the slots of a list of spans. -/
def slotRows (l : List Span) : List Nat := l.flatMap fun p => p.slots.map fun i => 8 * p.spine + i / 32
/-- Span links made private for a list of spans: covered data links of RC above 1 replaced (R178 step 2), for which every slot is read. -/
def privateLinks (s : State) (l : List Span) : State :=
  l.foldl (fun t p => p.slots.foldl (fun u i => u.privateLink p.spine i) t) (s.readRows (slotRows l))

end State

/-- `cnew` (R162, R164). -/
def execCnew (vd xa : BitVec 5) (t : BitVec 4) (s : State) : Out :=
  let n := (s.x xa).toNat
  let checks : Except Trap Unit := do
    s.chainMode
    State.require (chainBytes t n ≤ 131072) 0x04 (s.x xa)
  s.editChain checks [] [vd] fun u =>
    if n = 0 then u.writeDesc vd t 0 []
    else
      let r := u.newSpine (chainBytes t n)
      r.2.writeDesc vd t n [⟨r.1, 0, chainBytes t n⟩]
/-- `cfree` (R171). In the handler, not of a register that the pool-fault record still names (R349). -/
def execCfree (vd : BitVec 5) (s : State) : Out :=
  if s.h.mode = .d ∧ s.heldByRecord vd then .next (s.trapNow ⟨0x06, zext vd⟩)
  else s.whenFree [vd] [] fun u => .next (u.releaseReg vd).retireV
/-- `cshare`. -/
def execCshare (vd va : BitVec 5) (s : State) : Out :=
  let checks : Except Trap Unit := do
    s.chainMode
    s.notReleased va
  s.editChain checks [va] [vd] fun u => if vd = va then u else u.writeDesc vd (u.h.chain va).tag (u.h.chain va).count (u.h.chain va).spans
/-- `cprep` and `csplice` at element p (R177). With both chains released tval is va: R175 does not say which (log 73). -/
def State.splice (s : State) (vd va vb : VReg) (p : Nat) (pw : Word) : Out :=
  let a := s.h.chain va
  let b := s.h.chain vb
  let n := a.count + b.count
  let checks : Except Trap Unit := do
    s.chainMode
    s.notReleased va
    s.notReleased vb
    State.require (a.tag == b.tag) 0x03 (zext b.tag)
    State.require (p ≤ a.count) 0x04 pw
    State.require (chainBytes a.tag n ≤ 524288) 0x04 (BitVec.ofNat 64 n)
    State.require (!(a.tag == 9 && (p % 2 == 1 || (decide (p < a.count) && b.count % 2 == 1)))) 0x0A pw
  s.editChain checks [va, vb] [vd] fun u =>
    let l := mergeSpans (cutElems a 0 p ++ b.spans ++ cutElems a p (a.count - p))
    if 4 < l.length then u.flatten vd a.tag n l else u.writeDesc vd a.tag n l
/-- `cprep`. -/
def execCprep (vd va vb : BitVec 5) (s : State) : Out := s.splice vd va vb 0 0
/-- `csplice`. -/
def execCsplice (vd va vb xa : BitVec 5) (s : State) : Out := s.splice vd va vb (s.x xa).toNat (s.x xa)
/-- `csplit`: both results as one step; the counts change by the spans written less those replaced (R160). -/
def execCsplit (vd ve va xa : BitVec 5) (s : State) : Out :=
  let a := s.h.chain va
  let p := (s.x xa).toNat
  let checks : Except Trap Unit := do
    s.chainMode
    s.notReleased va
    State.require (p ≤ a.count) 0x04 (s.x xa)
    State.require (!(a.tag == 9 && p % 2 == 1)) 0x0A (s.x xa)
  s.editChain checks [va] [vd, ve] fun u =>
    let od := u.h.chain vd
    let oe := u.h.chain ve
    let head := ((u.unrefSpans od.spans).unrefSpans oe.spans).refSpans (mergeSpans (cutElems a 0 p))
    let tail := head.2.refSpans (mergeSpans (cutElems a p (a.count - p)))
    ((tail.2.setChain vd ⟨a.tag, p, head.1⟩).setChain ve ⟨a.tag, a.count - p, tail.1⟩).queueSpines (od.spans ++ oe.spans)
/-- A run of elements kept (`ctrimh`, `ctrimt`, `cslice`). -/
def State.keepRun (s : State) (vd va : VReg) (start n : Nat) (ok : Bool) (tval : Word) : Out :=
  let a := s.h.chain va
  let checks : Except Trap Unit := do
    s.chainMode
    s.notReleased va
    State.require ok 0x04 tval
    State.require (!(a.tag == 9 && start % 2 == 1)) 0x0A (BitVec.ofNat 64 start)
  s.editChain checks [va] [vd] fun u => u.writeDesc vd a.tag n (cutElems a start n)
/-- `ctrimh`. -/
def execCtrimh (vd va xa : BitVec 5) (s : State) : Out :=
  let c := (s.h.chain va).count
  s.keepRun vd va (s.x xa).toNat (c - (s.x xa).toNat) (decide ((s.x xa).toNat ≤ c)) (s.x xa)
/-- `ctrimt`. -/
def execCtrimt (vd va xa : BitVec 5) (s : State) : Out :=
  let c := (s.h.chain va).count
  s.keepRun vd va 0 (c - (s.x xa).toNat) (decide ((s.x xa).toNat ≤ c)) (s.x xa)
/-- `cslice`. -/
def execCslice (vd va xa xb : BitVec 5) (s : State) : Out :=
  let c := (s.h.chain va).count
  s.keepRun vd va (s.x xa).toNat (s.x xb).toNat (decide ((s.x xa).toNat + (s.x xb).toNat ≤ c))
    (if c < (s.x xa).toNat then s.x xa else s.x xb)
/-- `cretag`. -/
def execCretag (vd va : BitVec 5) (t : BitVec 4) (s : State) : Out :=
  let a := s.h.chain va
  let bits := a.count * tagWidth a.tag
  let u := tagWidth t
  let bad := a.spans.find? fun p => decide (8 ≤ u ∧ p.len % (u / 8) ≠ 0)
  let checks : Except Trap Unit := do
    s.chainMode
    s.notReleased va
    State.require (decide (bits % u = 0)) 0x0A (BitVec.ofNat 64 a.count)
    match bad with
      | some p => .error ⟨0x0A, BitVec.ofNat 64 p.len⟩
      | none => .ok ()
  s.editChain checks [va] [vd] fun w => w.writeDesc vd t (bits / u) a.spans
/-- `clen`. -/
def execClen (xd va : BitVec 5) (s : State) : Out :=
  let checks : Except Trap Unit := do
    s.chainMode
    s.notReleased va
  if s.sourceStopped [va] then s.waitWhole
  else s.orTrap checks fun _ => s.readChain xd fun t => BitVec.ofNat 64 (t.h.chain va).count
/-- `cinfo` (Table 08-11): what its selector 5 counts stands in the slots of the chain's spines. -/
def execCinfo (xd va : BitVec 5) (imm : BitVec 19) (s : State) : Out :=
  if s.sourceStopped [va] then s.waitWhole
  else (if imm = 5 then s.readRows (State.slotRows (s.h.chain va).spans) else s).readChain xd fun t =>
    let d := t.h.chain va
    if imm = 5 then BitVec.ofNat 64 (t.linkCount d * 2 ^ 32 + (t.exclusive d).toNat) else d.word imm.toNat
/-- `cflat`. -/
def execCflat (vd va : BitVec 5) (s : State) : Out :=
  let a := s.h.chain va
  let checks : Except Trap Unit := do
    s.chainMode
    s.notReleased va
  s.editChain checks [va] [vd] fun u => u.flatten vd a.tag a.count a.spans
/-- `cpriv` (R178): private spines, then private data links; the register keeps its layout. -/
def execCpriv (vd va : BitVec 5) (s : State) : Out :=
  let checks : Except Trap Unit := do
    s.chainMode
    s.notReleased va
  s.editChain checks [va] [vd] fun u =>
    let a := u.h.chain va
    let r := u.privateSpines a.spans
    (r.2.setChain vd ⟨a.tag, a.count, r.1⟩).privateLinks r.1
/-- `cpoolst` (Table 08-12). -/
def execCpoolst (xd : BitVec 5) (s : State) : Out :=
  s.readChain xd fun t => BitVec.ofNat 64 (t.pendLinks * 2 ^ 48 + t.h.vused * 2 ^ 32 + t.h.vquota.toNat * 2 ^ 16 + t.freeLinks)
/-- `cwait` (R172): it waits for the spines that the hart queued, then takes back the hart's links of KIND 3. -/
def execCwait (s : State) : Out :=
  if s.core.reclaim.any fun q => q.owner == s.cur then .next (s.hold (.retry false)) else .next s.awake.returnLinks.retireV

/-- RECLAIM_SPINE (R171): the reclaimer of a core takes its first queued spine. -/
def execReclaimSpine (core : Nat) (s : State) : Out :=
  let t := s.focus (if core = s.coreNo then s.cur else 8 * core)
  .next t.reclaimFirst

end Sys2Proof.Machine
end

