-- ==== Sys2Proof/Machine/Sync.lean ====
section
/-! DEFINITION. Major 0x2A, fences, the gang barrier and `await` (R292 to R296), with the steps that end their waits, and `tlbinv`
(R93, Table 04-9). -/

namespace Sys2Proof.Machine

namespace State

/-- Whether a fence still waits (R292, Table 14-2). -/
def fenceWaits (s : State) (sc vec cmds sys : Bool) : Bool :=
  let scope : BitVec 3 := if sys then 4 else 3
  (sc && s.outstanding false scope) || (vec && s.outstanding true scope) || (cmds && !s.h.cmds.isEmpty)

/-- A fence's end: `fence.all` drops the core's instruction-cache lines (R292); later accesses of the agents it names are performed after it
(R285), so that what they had read ahead is read again; then it retires. -/
def fenceEnd (s : State) (cmds thenS thenV : Bool) : State :=
  let s1 := s.dropEarly s.cur fun e => if e.vec then thenV else thenS
  (if cmds then { s1 with core := { s1.core with icache := [] } } else s1).awake.retire

/-- A fence after its write-backs: it completes or waits (R292). -/
def fence (s : State) (sc vec cmds thenS thenV : Bool) (scope : BitVec 3) : Out :=
  let sys := scope == 4
  if s.fenceWaits sc vec cmds sys then .next (s.hold (.fence sc vec cmds sys thenS thenV)) else .next (s.fenceEnd cmds thenS thenV)

/-- The home of an offset for a write-back by range (R292): a key of this device or a node and the offset there; none when the page fails
translation. -/
def rangeHome (s : State) (space : BitVec 16) (off : Nat) : Option (Option (BitVec 16) × Nat × State) :=
  if 2 ^ 64 ≤ off ∨ 0xFF00 ≤ space.toNat then none
  else if s.h.acc.bare ∧ space = 0 then (physKey off).map fun k => (none, k, s)
  else match s.translate s.h.acc space off with
    | .error _ => none
    | .ok (e, s1) =>
      if e.node ≠ Config.nodeId then some (some e.node, off, s1)
      else (physKey (e.frame + off % e.size)).map fun k => (none, k, s1)

/-- The write-backs of `fence.sv` and `fence.all` (R292): every dirty line of the core's L1, or those that hold bytes of the range, taken in
pieces that no frame boundary cuts; clean copies stay. -/
def fenceBack (s : State) (xa xb : XReg) (asr : BitVec 2) (imm : BitVec 20) : State :=
  if xa = 0 ∧ xb = 0 ∧ asr = 0 ∧ imm = 0 then s.sweepL1 (fun _ => true) true true
  else
    let a := offset (s.x xa) imm
    let n := (s.x xb).toNat
    let space := s.h.space asr
    (List.range ((a + n + 4095) / 4096 - a / 4096)).foldl (fun t i =>
      let lo := max a ((a / 4096 + i) * 4096)
      let hi := min (a + n) ((a / 4096 + i + 1) * 4096)
      match t.rangeHome space lo with
      | some (nd, k, t1) => t1.sweepL1 (fun l => decide (lo < hi) && l.covers nd s.h.kctx space k (hi - lo)) true true
      | none => t) s

/-- A range form with a length above 2^32 (R292). -/
def fenceRefuses (s : State) (xa xb : XReg) (asr : BitVec 2) (imm : BitVec 20) : Bool :=
  !(xa == 0 && xb == 0 && asr == 0 && imm == 0) && decide (2 ^ 32 < (s.x xb).toNat)

/-- An arrival at a barrier (R294, R146): EXPL is latched at the first of a phase; the last completes the phase. -/
def arrive (s : State) (g : Gang) (expect : Nat) : Gang × State :=
  let expl := if g.count = 0 then expect else g.expl
  let n := g.count + 1
  let g1 := if n = expl then { g with expl := expl, count := 0, phase := g.phase + 1 } else { g with expl := expl, count := n }
  (g1, s.setGang g1)

/-- Whether the hart has a pending arrival (R293). -/
def pendingArrival (s : State) (g : Gang) : Bool := s.h.myph == g.phase + 1

/-- The hart's own arrival; a second one is none (R294). -/
def arriveSelf (s : State) : State :=
  match s.gangOf s.h with
  | none => s
  | some g =>
    if s.pendingArrival g then s
    else
      let s1 := { s with h := { s.h with myph := g.phase + 1 } }
      (s1.arrive g s.h.gbexp.toNat).2

/-- `wait` (R294): the hart waits while its arrival is pending; then it acquires and xd receives PHASE. A hart of no gang waits for nobody. -/
def barrierWait (s : State) (xd : XReg) : Out :=
  match s.gangOf s.h with
  | none => s.awake.wr xd 0
  | some g =>
    if s.pendingArrival g then .next (s.hold .barrier)
    else (s.dropEarly s.cur fun _ => true).awake.wr xd (zext g.phase)

/-- The hart's arrival is still to be made and its release is not over (R285, R294). -/
def arriveBlocked (s : State) : Bool :=
  match s.gangOf s.h with
  | none => false
  | some g => !s.pendingArrival g && (s.outstanding false 2 || s.outstanding true 2)

/-- One pass of `await` (R296): the value read at home or bank; done when it differs or the limit has passed, with an acquire under `acq` and
`sc`. Each pass translates and checks its access again, and a waiting `await` holds no `tlbinv` up: R90 speaks of one access, and the rule
does not say whether the later reads of one `await` are the same access (log 55). -/
def awaitTry (s : State) (xd xa xb : XReg) (asr : BitVec 2) (scope ord : BitVec 3) (w : Bool) (off : BitVec 19) (timeUp : Bool)
    (again : State → Out) : Out :=
  let n := if w then 8 else 4
  let a := offset (s.x xa) off
  let space := s.h.space asr
  match s.scalarPlace space a n .aread false with
  | .error t => .next (s.awake.trapNow t)
  | .ok (pl, s1) =>
    let v := (s.x xb).toNat % 2 ^ (8 * n)
    match s1.atomRead space a n pl (ord == 4) with
    | .error t => .next (s.awake.trapNow t)
    | .ok (m, rels, e, s2) =>
      if m ≠ v ∨ timeUp then (if acquires ord then s2.acquire scope rels e else s2).awake.wr xd (BitVec.ofNat 64 m) else again s2

/-- Whether a `tlbinv` still waits (R93): writes handed off before it by agents within REACH. -/
def tlbWaits (s : State) (before reach : Nat) : Bool :=
  s.pend.any fun p => decide (p.id < before) &&
    (if reach = 1 then p.hart / 8 == s.coreNo else if reach = 2 then p.hart / 64 == s.coreNo / 8 else true)

end State

/-- Fences, gang barrier and `tlbinv` are not among the handler's instructions (R349). -/
def inHandler (s : State) : Bool := s.h.mode == .d

/-- `fence.sv` (R292). -/
def execFenceSv (xa xb : XReg) (asr : BitVec 2) (scope : BitVec 3) (imm : BitVec 20) (s : State) : Out :=
  if s.fenceRefuses xa xb asr imm then s.trapWord 0x01
  else if inHandler s then s.trapWord 0x06
  else (s.fenceBack xa xb asr imm).fence true false false false true scope
/-- `fence.vs` (R292). -/
def execFenceVs (scope : BitVec 3) (s : State) : Out := if inHandler s then s.trapWord 0x06 else s.fence false true false true false scope
/-- `fence.vv` (R292). -/
def execFenceVv (scope : BitVec 3) (s : State) : Out := if inHandler s then s.trapWord 0x06 else s.fence false true false false true scope
/-- `fence.all` (R292). -/
def execFenceAll (xa xb : XReg) (asr : BitVec 2) (scope : BitVec 3) (imm : BitVec 20) (s : State) : Out :=
  if s.fenceRefuses xa xb asr imm then s.trapWord 0x01
  else if inHandler s then s.trapWord 0x06
  else (s.fenceBack xa xb asr imm).fence true true true true true scope

/-- `gbar` (R294): arrive, then wait; while it waits it makes no second arrival. -/
def execGbar (xd : XReg) (s : State) : Out :=
  if inHandler s then s.trapWord 0x06
  else if s.h.wait = .barrier then s.barrierWait xd
  else if s.arriveBlocked then .next (s.hold (.retry true))
  else s.arriveSelf.barrierWait xd
/-- `gbarin` (R294): arrive; it retires when the arrival is counted. -/
def execGbarin (s : State) : Out :=
  if inHandler s then s.trapWord 0x06
  else if s.arriveBlocked then .next (s.hold (.retry false))
  else .next s.arriveSelf.awake.retire
/-- `gbarwt` (R294): wait for the phase of the last arrival. -/
def execGbarwt (xd : XReg) (s : State) : Out := if inHandler s then s.trapWord 0x06 else s.barrierWait xd

/-- `await` (R296). -/
def execAwait (xd xa xb xc : XReg) (asr : BitVec 2) (scope ord : BitVec 3) (w : Bool) (off : BitVec 19) (s : State) : Out :=
  if inHandler s then s.trapWord 0x06
  else
    let lim := (s.x xc).toNat
    s.awaitTry xd xa xb asr scope ord w off false fun t => .next (t.hold (.await (if lim = 0 then none else some (t.cycle.toNat + lim))))

/-- `tlbinv` (R93, Table 04-9): the selected TLB, walker, instruction and, with WB, data-cache lines within REACH, then the wait. A line is
of the page through which it was reached (R56). -/
def execTlbinv (xa xb xc : XReg) (s : State) : Out :=
  let c := s.x xc
  let kind := (c.extractLsb' 0 2).toNat
  let reach := (c.extractLsb' 3 3).toNat
  if s.h.mode ≠ .s then s.trapWord 0x01
  else if c.extractLsb' 6 58 ≠ 0 ∨ reach < 1 ∨ 3 < reach then s.trapWord 0x01
  else
    let space := (s.x xa).extractLsb' 0 16
    let at_ := (s.x xb).toNat
    let near (n : Nat) : Bool := if reach = 1 then n == s.coreNo else if reach = 2 then n / 8 == s.coreNo / 8 else true
    let named (ctx sp : BitVec 16) : Bool := kind == 3 || (ctx == s.h.kctx && (kind == 2 || sp == space))
    let line (ctx sp : BitVec 16) (off size : Nat) : Bool := named ctx sp && (kind != 0 || (size != 0 && off / size == at_ / size))
    let page (e : TlbEntry) : Bool := named e.ctx e.space && (kind != 0 || at_ / e.size == e.page)
    let walk (e : WalkEntry) : Bool :=
      named e.ctx e.space && (kind != 0 || e.level == 0 || at_ / pageSize (e.level - 1) == e.pfx)
    let back (t : State) (n : Nat) : State :=
      if c.getLsbD 2 && near n then
        (((t.coreAt n).l1.filter fun l => l.dirty && line l.ctx l.space l.off l.size).foldl (fun u l => u.writeBack n l) t)
      else t
    let s1 := (s.coreNo :: s.cores.map Prod.fst).foldl back s
    let s2 := s1.mapCores fun n k =>
      if near n then
        { k with
          tlb := k.tlb.filter fun e => !page e
          icache := k.icache.filter fun l => !line l.ctx 0 l.off l.size
          l1 := if c.getLsbD 2 then k.l1.filter fun l => !line l.ctx l.space l.off l.size else k.l1 }
      else k
    let s3 : State := { s2 with walkers := s2.walkers.map fun (p : Nat × List WalkEntry) => (p.1, if reach == 3 || p.1 == s.coreNo / 8 then p.2.filter fun e => !walk e else p.2) }
    if s3.tlbWaits s3.nextId reach then .next (s3.hold (.tlbinv s3.nextId reach)) else s3.ok

/-- FENCE_COMPLETE (R292): a waiting fence whose accesses are performed. -/
def execFenceComplete (hart : Nat) (s : State) : Out :=
  let t := s.focus hart
  match t.h.st, t.h.wait with
  | .running, .fence sc vec cmds sys thenS thenV =>
    if t.fenceWaits sc vec cmds sys then .next s else .next (t.fenceEnd cmds thenS thenV)
  | _, _ => .next s

/-- TLBINV_COMPLETE (R93). -/
def execTlbinvComplete (hart : Nat) (s : State) : Out :=
  let t := s.focus hart
  match t.h.st, t.h.wait with
  | .running, .tlbinv before reach => if t.tlbWaits before reach then .next s else .next t.awake.retire
  | _, _ => .next s

/-- AWAIT_WAKE (R296): a write to the line has been performed; the waiter reads again. -/
def execAwaitWake (hart : Nat) (s : State) : Out :=
  let t := s.focus hart
  match t.h.st, t.h.wait, t.word with
  | .waiting, .await _, some (.await xd xa xb _ asr scope ord w off) =>
    t.awaitTry xd xa xb asr scope ord w off false fun _ => .next s
  | _, _, _ => .next s

/-- AWAIT_TIMEOUT (R296): the limit has passed; xd receives the value as it stands. -/
def execAwaitTimeout (hart : Nat) (s : State) : Out :=
  let t := s.focus hart
  match t.h.st, t.h.wait, t.word with
  | .waiting, .await (some lim), some (.await xd xa xb _ asr scope ord w off) =>
    if t.cycle.toNat < lim then .next s else t.awaitTry xd xa xb asr scope ord w off true fun _ => .next s
  | _, _, _ => .next s

end Sys2Proof.Machine
end

