-- ==== Sys2Proof/Machine/VectorMemory.lean ====
section
/-! DEFINITION. Major 0x18, vector memory (R187 to R200), and the packets of the cluster network (R195). -/

namespace Sys2Proof.Machine

/-- The local store a window offset lies in (Table 04-4): the own one, or core c of the cluster as c + 1. -/
def windowOf (off : Nat) : Option Nat :=
  if off < 0x20_0000 then some 0
  else if 0x1000_0000 ≤ off ∧ off < 0x1800_0000 then some ((off - 0x1000_0000) / 0x100_0000 + 1) else none

/-- An active element of a memory instruction after the probe: index, offset, place. -/
structure Spot where
  j : Nat
  off : Nat
  pl : Place
  deriving DecidableEq, Repr

/-- A piece of a store: consecutive bytes of one unit (R199, R78), the element indices it carries, and the other core whose local store it
goes to (R195). -/
structure Piece where
  js : List Nat
  off : Nat
  pl : Place
  core : Option Nat
  op : WriteOp
  data : List Byte
  deriving DecidableEq, Repr

/-- The unit of a place: a 32-byte sector, or an 8-byte word of a local store. -/
def Place.unit (p : Place) : Nat := if p.inCore then 8 else 32

/-- A piece joined to the one after it when they are neighbours in one unit: the model takes them for one write, which heals a poisoned unit it covers
whole, where R190 and R199 speak of elements (log 69); what a packet carries stays element by element. -/
def joinPieces : List Piece → List Piece
  | [] => []
  | p :: t =>
    match joinPieces t with
    | q :: u =>
      if p.op = .put ∧ q.op = .put ∧ p.core = none ∧ q.core = none ∧ p.pl.node = q.pl.node ∧ p.pl.inCore = q.pl.inCore ∧ q.off = p.off + p.data.length
          ∧ p.off / p.pl.unit = q.off / p.pl.unit
      then { p with js := p.js ++ q.js, data := p.data ++ q.data } :: u else p :: q :: u
    | [] => [p]

/-- The nibbles an e2m1 store writes, one byte each (R199): both nibbles of a byte are one write of it. -/
def nibblePieces (core : Place → Option Nat) : List (Spot × Nat) → List Piece
  | [] => []
  | (a, v) :: t =>
    let r := nibblePieces core t
    let alone : Piece := ⟨[a.j], a.off, a.pl, core a.pl, .nib (decide (a.j % 2 = 1)), [BitVec.ofNat 8 (v % 16 * 17)]⟩
    match t with
    | (b, w) :: _ =>
      if a.j % 2 = 0 ∧ b.j = a.j + 1 then ⟨[a.j, b.j], a.off, a.pl, core a.pl, .put, [BitVec.ofNat 8 (w % 16 * 16 + v % 16)]⟩ :: r.tail
      else alone :: r
    | [] => alone :: r

/-- The offset of a key in its local store, the 21 bits a packet carries (R195). -/
def bankOff (key : Nat) : Nat := (key - lsBase) % 2 ^ 21
/-- The elements that a piece puts into a packet, one for each bit of EMASK, with their offset words. A nibble stands in both halves of its byte: how
values of half a byte are packed is not said (log 70). -/
def Piece.elems (p : Piece) : List (Nat × Nat × List Byte) :=
  let off := bankOff p.pl.key
  match p.js, p.data with
  | [a, b], [v] => [(off, a, [BitVec.ofNat 8 (v.toNat % 16 * 17)]), (off, b, [BitVec.ofNat 8 (v.toNat / 16 * 17)])]
  | js, data => js.map fun j => (off, j, data)

namespace State

/-- The probe (R187) of active elements in ascending index: the first whose page fails traps. A contiguous form in space 0xFFFF keeps
to the local store of its first element. -/
def probe (s : State) (space : BitVec 16) (n : Nat) (kind : Kind) (contig : Bool) (first : Option Nat) : List (Nat × Nat) → Except Trap (List Spot × State)
  | [] => .ok ([], s)
  | (j, off) :: t =>
    if space = 0xFFFF ∧ contig ∧ first.isSome ∧ first.bind windowOf ≠ windowOf off then .error ⟨0x08, BitVec.ofNat 64 off⟩
    else match s.locate s.h.acc space off n kind false with
      | .error c => .error ⟨c, BitVec.ofNat 64 off⟩
      | .ok (pl, s1) =>
        match s1.probe space n kind contig (some (first.getD off)) t with
        | .error e => .error e
        | .ok (l, s2) => .ok (⟨j, off, pl⟩ :: l, s2)

/-- One element's bytes read by the vector agent at home or bank, after its own earlier writes there (R192, R193); it may have read them
ahead of program order (R282). None from a poisoned unit (R190). -/
def vectorRead (s : State) (space : BitVec 16) (n : Nat) (sp : Spot) : Option (List Byte) × State :=
  let s1 := s.performOwn true sp.pl space n
  match s1.poisonTrap sp.pl space sp.off n, sp.pl.node with
  | some _, _ => (none, s1)
  | none, some nd => (some (s1.remoteRead nd space sp.off n), s1)
  | none, none => (some (s1.agentRead true sp.pl.key n).1, s1.agentReadState true sp.pl.key n)

/-- Elements read in ascending index up to the first that meets poison. -/
def vectorReads (s : State) (space : BitVec 16) (n : Nat) (given : List (Nat × List Byte)) : List Spot → List (Nat × Nat) × Option Spot × State
  | [] => ([], none, s)
  | sp :: t =>
    let r := match given.find? (fun p => p.1 == sp.j) with
      | some p => (if p.2.isEmpty then none else some p.2, s)
      | none => s.vectorRead space n sp
    match r.1 with
    | none => ([], some sp, r.2)
    | some bs =>
      let q := r.2.vectorReads space n given t
      ((sp.j, ofBytes bs) :: q.1, q.2.1, q.2.2)

/-- A place in another core's local store (R195). -/
def farCore (s : State) (pl : Place) : Option Nat :=
  if pl.inCore ∧ lsBase ≤ pl.key ∧ pl.key < sdmBase then
    (let c := (pl.key - lsBase) / 2 ^ 21; if c = s.coreNo then none else some c)
  else none

/-- EMASK of element indices of one block (Table 09-5). -/
def emaskOf (js : List Nat) : BitVec 64 := js.foldl (fun m j => m ||| BitVec.ofNat 64 (2 ^ (j % 64))) 0

/-- Gather requests, one packet for each core and block of 64 element indices, those of one core in ascending block (R195). -/
def gatherPackets (s : State) (tag : Tag) (spots : List Spot) : List Packet :=
  let far := spots.filterMap fun sp => (s.farCore sp.pl).map fun c => (c, sp)
  ((far.map fun p => (p.1, p.2.j / 64)).dedup).map fun k =>
    let own := (far.filter fun p => p.1 == k.1 && p.2.j / 64 == k.2).map Prod.snd
    ⟨s.cur, k.1, 0, tag, k.2, emaskOf (own.map Spot.j), own.map fun sp => (bankOff sp.pl.key, sp.j, []), []⟩

/-- Scatter or scatter-add packets of pieces whose hand-offs have the numbers from `first` on (R195). -/
def scatterPackets (s : State) (kind first : Nat) (tag : Tag) (pieces : List Piece) : List Packet :=
  let far := pieces.zipIdx.filterMap fun p => p.1.core.map fun c => (c, p.1, first + p.2)
  ((far.map fun p => (p.1, p.2.1.js.headD 0 / 64)).dedup).map fun k =>
    let own := (far.filter fun p => p.1 == k.1 && p.2.1.js.headD 0 / 64 == k.2).map Prod.snd
    ⟨s.cur, k.1, kind, tag, k.2, emaskOf (own.flatMap fun p => p.1.js),
      own.flatMap fun p => p.1.elems, own.map Prod.snd⟩

/-- The current hart's gather packets, and the values of those that have come back. -/
def ownPackets (s : State) : List Packet := s.packets.filter fun p => p.hart == s.cur && p.gathers
def arrived (s : State) : List (Nat × List Byte) := s.ownPackets.flatMap fun p => p.elems.map fun e => (e.2.1, e.2.2)
def dropPackets (s : State) : State := { s with packets := s.packets.filter fun p => !(p.hart == s.cur && p.gathers) }

/-- The pieces of a store handed to the memory system in order (R61), those for other cores in packets (R195). -/
def handPieces (s : State) (space : BitVec 16) (kind : Nat) (tag : Tag) (pieces : List Piece) : State :=
  let first := s.nextId
  let s1 := pieces.foldl (fun u p => u.handOffIn (p.core.map fun c => (first, c)) true s.h.kctx space p.off p.pl p.op p.data) s
  { s1 with packets := s1.packets ++ s.scatterPackets kind first tag pieces }

end State

/-- Addressing of a memory instruction: contiguous, strided by bytes, or by an index chain (R198). -/
inductive Form where
  | contig
  | strided (by_ : Word)
  | indexed (vi : VReg)
  deriving DecidableEq, Repr

namespace State

/-- addr(j) (R198). One that leaves 64 bits is taken modulo 2^64, as R197 takes Base, where R8 makes the sum exact (log 66). -/
def elemAddr (s : State) (f : Form) (base : Word) (t : Tag) (idx : Desc) (j : Nat) : Nat :=
  match f with
  | .contig => (base + BitVec.ofNat 64 (j * tagWidth t / 8)).toNat
  | .strided w => (base + BitVec.ofNat 64 j * w).toNat
  | .indexed _ => (base + BitVec.ofInt 64 (intOf idx.tag (s.elem idx j))).toNat

/-- Whether a stopped member writes the index chain or the mask of an indexed form, or an `ecopyc` still fills the index chain: the page sort needs
every address, so the word waits (R344, R148). -/
def indexStopped (s : State) (f : Form) (msk : MReg) (n : Nat) : Bool :=
  match f with
  | .indexed vi => (s.stopV? vi).isSome || (s.stopM? msk).isSome || decide (s.availV vi n < n)
  | _ => false

/-- Steps 2 to 6 of R197; what needs the elements of an index chain comes after the wait for it. -/
def memChecks (s : State) (vd : List VReg) (vs : Option VReg) (f : Form) (base : Word) (t : Tag) (accept : Bool) (vl : Word) (msk : MReg) (act : List Nat) :
    Except Trap Unit := do
  let idx := match f with | .indexed vi => [vi] | _ => []
  s.chainsOk vd (vs.toList ++ idx)
  match vs with
    | some r => if (s.src [] r).tag = t then .ok () else .error ⟨0x03, zext (s.src [] r).tag⟩
    | none => .ok ()
  if t = 9 ∧ f ≠ .contig then .error ⟨0x03, zext t⟩ else .ok ()
  if accept then .ok () else .error ⟨0x03, zext t⟩
  s.tagsOk vd idx fun u => u == 3 || u == 4 || u == 7 || u == 8
  s.lengthOk vd vl ((vs.toList ++ idx).map fun r => (r, vl.toNat))
  if s.indexStopped f msk vl.toNat then .error waitTrap else .ok ()
  let n := (tagWidth t + 7) / 8
  match f with
    | .strided w => if act ≠ [] ∧ w.toNat % n ≠ 0 then .error ⟨0x0A, w⟩ else .ok ()
    | _ => .ok ()
  let d := match f with | .indexed vi => s.src vd vi | _ => Desc.released
  match act.find? fun j => decide (s.elemAddr f base t d j % n ≠ 0) with
    | some j => .error ⟨0x0A, BitVec.ofNat 64 (s.elemAddr f base t d j)⟩
    | none => .ok ()

/-- A vector load (R198). A probe whose walk reads a poisoned table entry consumes no element's poison: the model takes it for a probe that fails,
and the load stays STOPPED and goes on after the repair, where Table 17-6 has a load that consumed poison ABANDONED (log 53). -/
def vectorLoad (s : State) (vd : VReg) (f : Form) (base : Word) (xl : XReg) (msk : MReg) (asr : BitVec 2) (t : Tag) : Out :=
  let vl := s.x xl
  let n := vl.toNat
  let v0 := s.vstart
  let space := s.h.space asr
  let d := match f with | .indexed vi => s.src [vd] vi | _ => Desc.released
  let keep := match f with | .indexed vi => vi == vd | _ => false
  let bytes := (tagWidth t + 7) / 8
  let act := (s.active msk (min n (s.availM msk 8192))).filter fun j => decide (v0 ≤ j)
  s.orTrap (s.memChecks [vd] none f base t true vl msk act) fun _ =>
    s.whenFree [vd] [] fun s0 =>
      match s0.probe space bytes .read (f == .contig) none (act.map fun j => (j, s0.elemAddr f base t d j)) with
      | .error e => .next (s0.dropPackets.probeTrap e)
      | .ok (spots, s1) =>
        let far := spots.filter fun sp => (s1.farCore sp.pl).isSome
        if far ≠ [] ∧ s1.ownPackets = [] then
          .next (({ s1 with packets := s1.packets ++ s1.gatherPackets t far }).hold (.retry false))
        else if s1.ownPackets.any fun p => p.kind != 4 then .next (s1.hold (.retry false))
        else
          let r := s1.vectorReads space bytes s1.arrived spots
          let s2 := r.2.2.dropPackets
          let kept : Option Desc := if keep then some ((s2.keptOf).getD (s2.h.chain vd)) else none
          let limit := match r.2.1 with | some sp => sp.j | none => min n (s2.availM msk n)
          let job : Job :=
            { vd := vd, tag := t, n := n, inPlace := false, keep := keep, limit := limit, per := 1, checks := none, sparse := true
              out := fun j => match r.1.find? (fun p => p.1 == j) with
                | some p => ⟨if t = 9 then p.2 / 16 ^ (j % 2) % 16 else p.2, 0, true⟩
                | none => ⟨0, 0, false⟩ }
          match r.2.1 with
          | none => s2.produce job
          | some sp =>
            let u := job.run (s2.openDest vd t false keep).1 v0 (limit - v0)
            match u.full with
            | some k => .next (u.s.stopAs ⟨.stopped, 0x0C, u.s.pos, u.done, BitVec.ofNat 64 u.done, k, kept, [], [], false, [(vd, t, some n)]⟩)
            | none =>
              let u1 := u.s.releaseReg vd
              let u2 := match kept with | some k => u1.releaseDesc k | none => u1
              .next (u2.abandonV (BitVec.ofNat 64 (sp.off - sp.off % sp.pl.unit)))

/-- Where a vector load reads, as its operands stand (R198): its pieces at home; none when an address is not known yet or its probe fails. -/
def loadSpots (s : State) (i : Instr) : Option (List Spot × Nat) :=
  let of (vd : VReg) (f : Form) (base : Word) (xl : XReg) (asr : BitVec 2) (t : Tag) : Option (List Spot × Nat) :=
    let n := min (s.x xl).toNat 8192
    let d := match f with | .indexed vi => s.src [vd] vi | _ => Desc.released
    let bytes := (tagWidth t + 7) / 8
    if s.indexStopped f 0 n then none
    else match s.probe (s.h.space asr) bytes .read false none ((List.range n).map fun j => (j, s.elemAddr f base t d j)) with
      | .ok (l, _) => some (l, bytes)
      | .error _ => none
  match i with
  | .vld vd xa xl _ asr t imm => of vd .contig (s.x xa + sext imm) xl asr t
  | .vlds vd xa xb xl _ asr t imm => of vd (.strided (s.x xb)) (s.x xa + sext imm) xl asr t
  | .vldx vd xa vi xl _ asr t => of vd (.indexed vi) (s.x xa) xl asr t
  | _ => none

/-- Whether an earlier load of the convoy that has still to read may meet a store's bytes: the store then waits for it (R193), and passes it
otherwise (R282). -/
def meetsLoad (s : State) (spots : List Spot) (n : Nat) : Bool :=
  s.cv.entries.any fun e => decide (e.word < s.pos) && e.fill && (match s.cv.words[e.word]? with
    | some i => (uses i).unit == some .LD && (match s.loadSpots i with
        | some (l, m) => l.any fun a => spots.any fun b => a.pl.node == b.pl.node && decide (a.pl.key < b.pl.key + n ∧ b.pl.key < a.pl.key + m)
        | none => true)
    | none => false)

/-- A vector store or scatter-add (R199, R200). -/
def vectorStore (s : State) (vs : VReg) (f : Form) (base : Word) (xl : XReg) (msk : MReg) (asr : BitVec 2) (t : Tag) (add accept : Bool) : Out :=
  let vl := s.x xl
  let n := vl.toNat
  let v0 := s.vstart
  let space := s.h.space asr
  let d := match f with | .indexed vi => s.src [] vi | _ => Desc.released
  let bytes := (tagWidth t + 7) / 8
  let act := (s.active msk (min n (s.availM msk 8192))).filter fun j => decide (v0 ≤ j)
  s.orTrap (s.memChecks [] (some vs) f base t accept vl msk act) fun _ =>
    s.whenFree [] [] fun s0 =>
      match s0.probe space bytes (if add then .atomic else .write) (f == .contig) none (act.map fun j => (j, s0.elemAddr f base t d j)) with
      | .error e => .next (s0.probeTrap e)
      | .ok (spots, s1) => if s1.meetsLoad spots bytes then .next (s.takeRest none) else
        let stop := max v0 (min (min n (s1.availM msk n)) (s1.availV vs n))
        let vals := (spots.filter fun sp => decide (sp.j < stop)).map fun sp => (sp, s1.elem (s1.src [] vs) sp.j)
        let pieces := if t = 9 then joinPieces (nibblePieces s1.farCore vals)
          else
            let one := vals.map fun p => (⟨[p.1.j], p.1.off, p.1.pl, s1.farCore p.1.pl, if add then .add t else .put, toBytes bytes p.2⟩ : Piece)
            if f = .contig then joinPieces one else one
        let s2 := s1.handPieces space (if add then 3 else 2) t pieces
        if n ≤ stop then .next (s2.retireV n) else .next (s2.stopV 0 0 stop 0 none [] s1.fillStop)

end State

/-- `vld` (R198). -/
def execVld (vd xa xl : BitVec 5) (msk : BitVec 3) (asr : BitVec 2) (t : BitVec 4) (imm : BitVec 16) (s : State) : Out :=
  s.vectorLoad vd .contig (s.x xa + sext imm) xl msk asr t
/-- `vlds` (R198). -/
def execVlds (vd xa xb xl : BitVec 5) (msk : BitVec 3) (asr : BitVec 2) (t : BitVec 4) (imm : BitVec 16) (s : State) : Out :=
  s.vectorLoad vd (.strided (s.x xb)) (s.x xa + sext imm) xl msk asr t
/-- `vldx` (R198). -/
def execVldx (vd xa vi xl : BitVec 5) (msk : BitVec 3) (asr : BitVec 2) (t : BitVec 4) (s : State) : Out :=
  s.vectorLoad vd (.indexed vi) (s.x xa) xl msk asr t
/-- `vst` (R199). -/
def execVst (vs xa xl : BitVec 5) (msk : BitVec 3) (asr : BitVec 2) (t : BitVec 4) (imm : BitVec 16) (s : State) : Out :=
  s.vectorStore vs .contig (s.x xa + sext imm) xl msk asr t false true
/-- `vsts` (R199). -/
def execVsts (vs xa xb xl : BitVec 5) (msk : BitVec 3) (asr : BitVec 2) (t : BitVec 4) (imm : BitVec 16) (s : State) : Out :=
  s.vectorStore vs (.strided (s.x xb)) (s.x xa + sext imm) xl msk asr t false true
/-- `vstx` (R199, R194). -/
def execVstx (vs xa vi xl : BitVec 5) (msk : BitVec 3) (asr : BitVec 2) (t : BitVec 4) (s : State) : Out :=
  s.vectorStore vs (.indexed vi) (s.x xa) xl msk asr t false true
/-- `vstxadd` (R200). -/
def execVstxadd (vs xa vi xl : BitVec 5) (msk : BitVec 3) (asr : BitVec 2) (_scope : BitVec 3) (t : BitVec 4) (s : State) : Out :=
  s.vectorStore vs (.indexed vi) (s.x xa) xl msk asr t true
    (t == 3 || t == 4 || t == 7 || t == 8 || t == 14 || t == 15)

/-- Whether the k-th packet is the next of its kind from its hart to its core: they go in ascending block, and arrive as they went (R195). -/
def State.packetNext (s : State) (k : Nat) : Bool :=
  match s.packets[k]? with
  | some p => (s.packets.take k).all fun q => !(q.hart == p.hart && q.target == p.target && q.kind == p.kind)
  | none => false

/-- GATHER_REQUEST (R195): a request packet is served at its core; each element is read after the hart's own earlier writes to it (R193), and
a poisoned word gives no value. -/
def execGatherRequest (k : Nat) (s : State) : Out :=
  match s.packets[k]? with
  | some p =>
    if p.kind ≠ 0 ∨ !s.packetNext k then .next s
    else
      let n := (tagWidth p.tag + 7) / 8
      let read (t : State) (off : Nat) : List Byte × State :=
        let key := lsKey p.target off
        let own := needed (fun q => q.hart == p.hart && q.vec && q.node == none && decide (q.key < key + n ∧ key < q.key + q.data.length)) t.pend
        let t1 := t.performAll own.contains
        if (t1.poisonIn key n).isSome then ([], t1) else (t1.homeRead key n, t1)
      let r := p.elems.foldl (fun (a : List (Nat × Nat × List Byte) × State) e =>
        let q := read a.2 e.1
        (a.1 ++ [(e.1, e.2.1, q.1)], q.2)) ([], s)
      .next { r.2 with packets := r.2.packets.set k { p with kind := 1, elems := r.1 } }
  | none => .next s

/-- GATHER_REPLY (R195): a reply reaches the issuing core and its values are placed at their element indices. -/
def execGatherReply (k : Nat) (s : State) : Out :=
  match s.packets[k]? with
  | some p => if p.kind ≠ 1 then .next s else .next { s with packets := s.packets.set k { p with kind := 4 } }
  | none => .next s

/-- Where the next element of a scatter packet stands among the handed-off writes: the first of the packet's that is still there. -/
def State.scatterNext (s : State) (p : Packet) : Option Nat := s.pend.findIdx? fun q => p.ids.contains q.id

/-- A scatter packet's next element applied at its bank, in ascending element index and after its agent's earlier writes there (R194, R195); a packet
with no element left is gone. -/
def scatter (kind k : Nat) (s : State) : Out :=
  match s.packets[k]? with
  | some p =>
    if p.kind ≠ kind then .next s
    else match s.scatterNext p with
      | none => .next { s with packets := s.packets.eraseIdx k }
      | some i => if s.mayPerform i then .next (s.performAt i) else .next s
  | none => .next s

/-- SCATTER (R195): an element of a scatter packet is applied at the destination bank. -/
def execScatter (k : Nat) (s : State) : Out := scatter 2 k s
/-- SCATTER_ADD (R195, R200). -/
def execScatterAdd (k : Nat) (s : State) : Out := scatter 3 k s
/-- WRITE_PERFORMED (R279, R280): any other handed-off write is performed, when the order of its agent allows (R194, R280). -/
def execWritePerformed (k : Nat) (s : State) : Out :=
  match s.pend[k]? with
  | some p => if p.pkt.isNone ∧ s.mayPerform k then .next (s.performAt k) else .next s
  | none => .next s

end Sys2Proof.Machine
end

