-- ==== Sys2Proof/Machine/Copy.lean ====
section
/-! DEFINITION. Major 0x2B, the copy engine (R136 to R151): its commands, tickets and rows. -/

namespace Sys2Proof.Machine

/-- A command with nothing but its ticket and kind. -/
def Command.blank (ticket : Nat) (kind : BitVec 4) : Command :=
  { ticket := ticket, kind := kind, since := 0, bypass := false, bare := false, ctx := 0, ptbase := 0, sspace := 0, src := 0, dspace := 0, dst := 0
    l0 := 0, n1 := 0, n2 := 0, sstr1 := 0, sstr2 := 0, dstr1 := 0, dstr2 := 0, cm := 0, bar := false, cmask := 0, fill := 0, padl := 0
    srclen := 0, vd := 0, chain := Desc.released, tag := 0, pred := 0, count := 0, limit := 0, opa := 0, opb := 0, next := 0, parts := [], ahead := [] }

/-- Whose accesses a command makes (R16, R97, R100). -/
def Command.acc (c : Command) (h : Hart) : Acc := ⟨c.ctx, h.agent, c.bypass, c.bare, c.ptbase⟩

/-- An address range cut where 4 KiB blocks begin: offset and length of each piece (R75, R140). -/
def blocksOf (off n : Nat) : List (Nat × Nat) :=
  if n = 0 then []
  else (List.range ((off + n - 1) / 4096 + 1 - off / 4096)).map fun i =>
    let lo := max off ((off / 4096 + i) * 4096)
    (lo, min (off + n) ((off / 4096 + i + 1) * 4096) - lo)

/-- A failure of a command: cause, virtual offset, target core (R151, Table 07-6). -/
structure Failure where
  cause : BitVec 8
  off : Nat
  target : Nat
  deriving DecidableEq, Repr

/-- A row's source and destination start, exact sums (R8, R140, R145); for `ewin` the source is the first byte of its window that lies in the
source row, with the number of such bytes. -/
def Command.rowSrc (c : Command) (q : Nat) : Int × Nat :=
  let i : Int := ((q % c.n1 : Nat) : Int)
  let row : Int := c.src.toNat + ((q / c.n1 : Nat) : Int) * c.sstr2.toInt
  if c.kind = 3 then
    let p0 : Int := i * c.sstr1.toInt - c.padl
    let lo : Int := max 0 p0
    (row + lo, (min (c.srclen : Int) (p0 + c.l0) - lo).toNat)
  else (row + i * c.sstr1.toInt, c.l0)
def Command.rowDst (c : Command) (q : Nat) : Int :=
  c.dst.toNat + ((q / c.n1 : Nat) : Int) * c.dstr2.toInt + ((q % c.n1 : Nat) : Int) * c.dstr1.toInt
/-- An element's source offset and bytes (R147): the offset is a sum modulo 2^64 (log 57). -/
def Command.elemSrc (c : Command) (j : Nat) : Nat × Nat :=
  ((if c.tag = 9 then c.src + BitVec.ofNat 64 (j / 2) else c.src + BitVec.ofNat 64 j * c.sstr1).toNat, (tagWidth c.tag + 7) / 8)
/-- The bytes a row writes, from those it read (R145): `ewin` fills positions outside the source row. -/
def Command.rowBytes (c : Command) (q : Nat) (bs : List Byte) : List Byte :=
  if c.kind = 3 then
    let p0 : Int := ((q % c.n1 : Nat) : Int) * c.sstr1.toInt - c.padl
    let lo := max 0 p0
    (List.range c.l0).map fun b =>
      let p := p0 + (b : Nat)
      if 0 ≤ p ∧ p < c.srclen then bs.getD (p - lo).toNat 0 else c.fill
  else bs
/-- Cores of the cluster that a CMASK selects. -/
def Command.targets (c : Command) : List Nat := (List.range 8).filter fun i => c.cmask.getLsbD i

namespace State

/-- Pieces translated and key-checked in ascending order (R140). An offset outside the windows of Table 04-1 that a command of mode S with BARE
meets faults its ticket with cause 0x08 like any other failure of a command: the machine check of R85 comes when mode S collects the ticket
(log 54). -/
def engineProbe (s : State) (a : Acc) (space : BitVec 16) (kind : Kind) : List (Nat × Nat) → Except Failure (List (Nat × Nat × Place) × State)
  | [] => .ok ([], s)
  | (off, n) :: t =>
    match s.locate a space off 1 kind false with
    | .error c => .error ⟨c, off, 0⟩
    | .ok (pl, s1) =>
      match s1.engineProbe a space kind t with
      | .error e => .error e
      | .ok (l, s2) => .ok ((off, n, pl) :: l, s2)

/-- n bytes at home as an engine reads them: what it has read ahead stands for its 8-byte words (R141). -/
def wordsRead (s : State) (ahead : List (Nat × List Byte)) (key n : Nat) : List Byte :=
  if ahead.isEmpty then s.homeRead key n
  else (List.range n).map fun i => match ahead.find? fun w => w.1 == (key + i) / 8 * 8 with
    | some w => w.2.getD ((key + i) % 8) 0
    | none => s.homeByte (key + i)

/-- The bytes of probed pieces at home or bank; a poisoned unit ends the command (R79, R140). -/
def engineRead (s : State) (space : BitVec 16) (ahead : List (Nat × List Byte)) : List (Nat × Nat × Place) → Except Failure (List Byte)
  | [] => .ok []
  | (off, n, pl) :: t =>
    match s.poisonTrap pl space off n with
    | some e => .error ⟨0x0B, e.tval.toNat, 0⟩
    | none => (s.engineRead space ahead t).map fun l =>
      (match pl.node with | some nd => s.remoteRead nd space off n | none => s.wordsRead ahead pl.key n) ++ l

/-- Bytes written to probed pieces of a command's destination; a line of memory leaves the issuing core's L1 first, and no later fill of it has an
older value (R143), but not for a command issued in mode S (R100). -/
def engineWrite (s : State) (c : Command) : List (Nat × Nat × Place) → List Byte → State
  | [], _ => s
  | (off, n, pl) :: t, bs =>
    let now := bs.take n
    let s0 := if pl.inCore || c.bypass then s
      else (s.sweepL1 (fun l => l.covers pl.node c.ctx c.dspace pl.key n) true false).dropFills s.cur pl.node pl.key n
    let s1 := match pl.node with
      | some nd => ({ s0 with remote := s0.remote ++ [(⟨nd, c.ctx, c.dspace, off, s.h.agent, .put, now⟩ : RemoteWrite)] } : State)
      | none => s0.homeWrite pl.key now
    s1.engineWrite c t (bs.drop n)

/-- A row written at every target of an `ecast` (R145). -/
def castWrite (s : State) (d : Nat) (bs : List Byte) (targets : List Nat) : State :=
  targets.foldl (fun t i => t.homeWrite (lsKey (s.coreNo / 8 * 8 + i) d) bs) s

/-- What a command has read ahead of its rows, after a probe by which it may have acquired (R109) or walked the tables (R90): nothing once a controller
has granted a right or the core has taken a translation. -/
def stillAhead (s t : State) (c : Command) : List (Nat × List Byte) :=
  if t.core.keys.all s.core.keys.contains && t.core.tlb.all s.core.tlb.contains then c.ahead else []
/-- A command has written bytes of its own: its later rows read them (R141). -/
def dropAhead (s : State) (c : Command) (ranges : List (Nat × Nat)) : State :=
  let met (w : Nat × List Byte) : Bool := ranges.any fun r => decide (w.1 < r.1 + r.2 ∧ r.1 < w.1 + 8)
  { s with h := { s.h with cmds := s.h.cmds.map fun o => if o.ticket = c.ticket then { o with ahead := o.ahead.filter fun w => !met w } else o } }

/-- Whether a row or an element that a copy command has still to move reads a word at home, by the translations and rights of now. -/
def readsWord (s : State) (c : Command) (key : Nat) : Bool :=
  let rows : List (List (Nat × Nat)) := if c.kind = 1 then ((List.range c.count).drop c.next).map fun j => [c.elemSrc j]
    else ((List.range (c.n1 * c.n2)).drop c.next).map fun q => blocksOf (c.rowSrc q).1.toNat (c.rowSrc q).2
  rows.any fun l => match s.engineProbe (c.acc s.h) c.sspace .read l with
    | .ok (ps, _) => ps.any fun p => p.2.2.node.isNone && decide (p.2.2.key < key + 8 ∧ key < p.2.2.key + p.2.1)
    | .error _ => false

/-- One row: source checks, destination checks, the row read whole, then written whole (R140, R141). Its writes are performed in one step: whether another
agent can see a part of them, or another hart's command (R137) comes between, the manual does not say (log 77). -/
def moveRow (s : State) (c : Command) (q : Nat) : Except Failure State :=
  let a := c.acc s.h
  let src := c.rowSrc q
  let d := (c.rowDst q).toNat
  match s.engineProbe a c.sspace .read (blocksOf src.1.toNat src.2) with
  | .error e => .error e
  | .ok (from_, s1) =>
    if c.kind = 2 then
      match c.targets.find? fun i => !s1.gangOnCore (s1.coreNo / 8 * 8 + i) with
      | some i => .error ⟨0x09, d, i⟩
      | none => match s1.engineRead c.sspace (s.stillAhead s1 c) from_ with
        | .error e => .error e
        | .ok bs => .ok ((s1.castWrite d bs c.targets).dropAhead c (c.targets.map fun i => (lsKey (s1.coreNo / 8 * 8 + i) d, c.l0)))
    else match s1.engineProbe a c.dspace .write (blocksOf d c.l0) with
      | .error e => .error e
      | .ok (to_, s2) => match s2.engineRead c.sspace (s.stillAhead s2 c) from_ with
        | .error e => .error e
        | .ok bs => .ok ((s2.engineWrite c to_ (c.rowBytes q bs)).dropAhead c (to_.map fun p => (p.2.2.key, p.2.1)))

/-- A command ended: it leaves the hart's list and its ticket takes a state (R136, R151). -/
def endCommand (s : State) (c : Command) (st : TicketState) (f : Failure) (rows : Nat) : State :=
  let h : Hart := { s.h with cmds := s.h.cmds.filter fun o => decide (o.ticket ≠ c.ticket) }
  { s with h := h.setTicket c.ticket ⟨st, f.cause, c.kind, f.target, rows, BitVec.ofNat 64 f.off⟩ }
/-- Rows or elements of a command done. -/
def rowsDone (s : State) (c : Command) (n : Nat) : State :=
  { s with h := { s.h with cmds := s.h.cmds.map fun o => if o.ticket = c.ticket then { o with next := n } else o } }
/-- A command in progress replaced. -/
def setCommand (s : State) (c : Command) : State := { s with h := { s.h with cmds := s.h.cmds.map fun o => if o.ticket = c.ticket then c else o } }

/-- The hart's running copy command: its first in issue order (R137). -/
def copyHead (s : State) : Option Command := s.h.cmds.find? fun c => decide (c.kind.toNat < 8)
/-- Writes a command waits for before its first read (R143). -/
def engineHeld (s : State) (c : Command) : Bool := s.pend.any fun p => p.hart == s.cur && (p.vec || p.op == .ast) && decide (p.id < c.since)

/-- A command issued on a ticket (R136): numbered after every access handed off before it (R143). -/
def issueCommand (s : State) (c : Command) : State :=
  let sup := decide (s.h.mode = .s)
  let c1 : Command := { c with since := s.nextId, ctx := s.h.kctx, bypass := sup, bare := sup && s.h.bare, ptbase := s.h.ptbase }
  let h : Hart := { s.h with cmds := s.h.cmds ++ [c1] }
  { s with nextId := s.nextId + 1, h := h.setTicket c.ticket ⟨.busy, 0, c.kind, 0, 0, 0⟩ }

/-- The operands of `ecopy`, `ecast` and `ewin` (R138, R139). -/
def copyCommand (s : State) (kind : BitVec 4) (xa xb xc : XReg) (asr : BitVec 2) (imm : BitVec 20) : Command :=
  let w := s.x xb
  let g (i : Nat) : Word := s.x (xc + BitVec.ofNat 5 i)
  { Command.blank 0 kind with
    sspace := s.h.space asr, src := s.x xa + sext imm
    dspace := if kind = 2 then 0xFFFF else s.h.space (w.extractLsb' 62 2)
    dst := g 0
    l0 := ((g 1).extractLsb' 0 20).toNat, n1 := ((g 1).extractLsb' 20 20).toNat, n2 := ((g 1).extractLsb' 40 20).toNat
    sstr1 := g 2, sstr2 := g 3, dstr1 := g 4, dstr2 := g 5
    cm := w.extractLsb' 59 3, bar := w.getLsbD 58, cmask := w.extractLsb' 50 8
    fill := w.extractLsb' 40 8, padl := (w.extractLsb' 20 20).toNat, srclen := (w.extractLsb' 0 20).toNat }

/-- R138: the control word suits the instruction. -/
def controlOk (kind : BitVec 4) (w : Word) : Bool :=
  w.extractLsb' 48 2 == 0 &&
    (if kind = 2 then w.extractLsb' 62 2 == 0 && w.extractLsb' 50 8 != 0 && w.extractLsb' 0 48 == 0
     else if kind = 3 then w.extractLsb' 50 9 == 0
     else w.extractLsb' 50 9 == 0 && w.extractLsb' 0 48 == 0)

/-- A local-store extent of n bytes: the cause that refuses it (R82, R135, R145). -/
def storeExtent (s : State) (off n : Nat) : Option (BitVec 8) :=
  match s.localPlace off n false with
  | .error c => some c
  | .ok _ => none

/-- Whether the source base xa + sext(IMM20), an exact sum (R8), leaves the 64-bit offsets: then so does every row's extent. -/
def baseWraps (s : State) (xa : XReg) (imm : BitVec 20) : Bool :=
  let base : Int := ((s.x xa).toNat : Int) + imm.toInt
  decide (base < 0 ∨ 2 ^ 64 ≤ base)

/-- The first trap of a command's extents: any that leaves the 64-bit offsets or one local store, then any local store of no gang member (R145). The
manual gives tval `base` and names one base; the model reports DST for a destination. It judges each row by itself (for `ewin` each source row of
SRCLEN bytes), and a row below offset 0 as one that wraps (log 56). -/
def extentTrap (s : State) (c : Command) (out : Bool) : Option Trap :=
  let rows := List.range (c.n1 * c.n2)
  let srcs : List (Int × Nat) :=
    if c.kind = 3 then (List.range c.n2).map fun r => ((c.src.toNat : Int) + (r : Int) * c.sstr2.toInt, c.srclen) else rows.map c.rowSrc
  let dsts : List (Int × Nat) := rows.map fun q => (c.rowDst q, c.l0)
  let wraps (l : List (Int × Nat)) : Bool := l.any fun e => decide (e.2 ≠ 0 ∧ (e.1 < 0 ∨ 2 ^ 64 < e.1 + e.2))
  let inStore (space : BitVec 16) (l : List (Int × Nat)) (cause : BitVec 8) : Bool :=
    space == 0xFFFF && l.any fun e => e.2 != 0 && s.storeExtent e.1.toNat e.2 == some cause
  let cast := decide (c.kind = 2)
  let castOut := cast && dsts.any fun e => decide (0x20_0000 < e.1 + e.2)
  let castNone := cast && c.targets.any fun i => !s.gangOnCore (s.coreNo / 8 * 8 + i)
  if out || wraps srcs || inStore c.sspace srcs 0x08 then some ⟨0x08, c.src⟩
  else if wraps dsts || castOut || (!cast && inStore c.dspace dsts 0x08) then some ⟨0x08, c.dst⟩
  else if inStore c.sspace srcs 0x09 then some ⟨0x09, c.src⟩
  else if castNone || (!cast && inStore c.dspace dsts 0x09) then some ⟨0x09, c.dst⟩
  else none

/-- A space that no command may name (R145). -/
def reservedSpace (sp : BitVec 16) : Bool := decide (0xFF00 ≤ sp.toNat) && sp != 0xFFFF

/-- The issue traps of R145, in its order; the base of a destination is DST (log 56), and `out` says that the source base itself
is no offset. -/
def copyTrap (s : State) (c : Command) (w shape : Word) (out : Bool) : Option Trap :=
  if s.h.mode = .d then some ⟨0x06, s.h.iword⟩
  else if !controlOk c.kind w then some ⟨0x03, w⟩
  else if c.l0 = 0 ∨ c.n1 = 0 ∨ c.n2 = 0 ∨ shape.extractLsb' 60 4 ≠ 0 ∨ c.cm ≠ 0 ∧ 8192 < c.n1 * c.n2 then some ⟨0x04, shape⟩
  else if reservedSpace c.sspace then some ⟨0x08, c.src⟩
  else if reservedSpace c.dspace then some ⟨0x08, c.dst⟩
  else match [BitVec.ofNat 64 c.l0, c.src, c.dst, c.dstr1, c.dstr2, c.sstr2].find? fun v => decide (v.toNat % 32 ≠ 0) with
    | some v => some ⟨0x0A, v⟩
    | none => if c.kind = 0 ∧ c.sstr1.toNat % 32 ≠ 0 then some ⟨0x0A, c.sstr1⟩ else s.extentTrap c out

/-- xd takes a value and the V-class word retires. -/
def wrV (s : State) (xd : XReg) (v : Word) : Out := .next ((s.setX xd v).retireV 1)

/-- Whether an earlier member of the convoy that has stopped has still to read a mask register. -/
def readsLater (s : State) (m : MReg) : Bool :=
  m != 0 && s.cv.entries.any fun e => decide (e.word < s.pos) && e.state == .stopped
    && (match s.cv.words[e.word]? with | some i => (uses i).mr.contains m | none => false)

/-- `ecopy`, `ecast` and `ewin` at issue (R145, R136, R142). The engine does not accept a command, which clears its completion mask, before earlier
members of the convoy have read that mask (R62). -/
def copyIssue (s : State) (kind : BitVec 4) (xd xa xb xc : XReg) (asr : BitVec 2) (imm : BitVec 20) : Out :=
  let c := s.copyCommand kind xa xb xc asr imm
  match s.copyTrap c (s.x xb) (s.x (xc + 1)) (s.baseWraps xa imm) with
  | some t => .next (s.awake.trapNow t)
  | none => match s.h.freeTicket with
    | none => s.awake.wrV xd (BitVec.allOnes 64)
    | some k => if s.readsLater c.cm then .next (s.takeRest none) else s.whenFree [] [c.cm] fun s1 =>
      (({ s1 with h := s1.h.setMask c.cm 0 }).issueCommand { c with ticket := k }).wrV xd (BitVec.ofNat 64 k)

end State

/-- `ecopy` (R145). -/
def execEcopy (xd xa xb xc : XReg) (asr : BitVec 2) (imm : BitVec 20) (s : State) : Out := s.copyIssue 0 xd xa xb xc asr imm
/-- `ecast` (R145, R146). -/
def execEcast (xd xa xb xc : XReg) (asr : BitVec 2) (imm : BitVec 20) (s : State) : Out := s.copyIssue 2 xd xa xb xc asr imm
/-- `ewin` (R145). -/
def execEwin (xd xa xb xc : XReg) (asr : BitVec 2) (imm : BitVec 20) (s : State) : Out := s.copyIssue 3 xd xa xb xc asr imm

/-- `ecopyc` (R147): the chain is allocated and the command issued. The manual gives no tval for cause 0x0C, says nothing apart of vl = 0, and does
not say whether the stride is signed: the model reports the links wanted, allocates none for an empty chain (as R156 has it), adds the stride
modulo 2^64, and asks of space 0xFFFF that each element's bytes lie in a local store, so that an empty chain asks nothing (log 57). -/
def execEcopyc (vd : VReg) (xa xb xl : XReg) (asr : BitVec 2) (t : Tag) (imm : BitVec 16) (s : State) : Out :=
  let vl := s.x xl
  let n := vl.toNat
  let space := s.h.space asr
  let base := s.x xa + sext imm
  let w := (tagWidth t + 7) / 8
  let step : Word := if s.x xb = 0 then BitVec.ofNat 64 w else s.x xb
  let at_ (j : Nat) : Nat := if t = 9 then (base + BitVec.ofNat 64 (j / 2)).toNat else (base + BitVec.ofNat 64 j * step).toNat
  let outside (j : Nat) : Bool := match s.storeExtent (at_ j) w with | some 0x08 => true | _ => false
  if s.h.mode = .d then s.trapWord 0x06
  else if s.vlmax < n then s.trap 0x04 vl
  else if State.reservedSpace space ∨ (space = 0xFFFF ∧ (List.range n).any outside) then s.trap 0x08 base
  else if base.toNat % w ≠ 0 ∨ (s.x xb).toNat % w ≠ 0 ∨ t = 9 ∧ s.x xb ≠ 0 then s.trap 0x0A base
  else match s.h.freeTicket with
    | none => s.trap 0x04 16
    | some k => s.whenFree [vd] [] fun s1 =>
      let s2 := s1.releaseReg vd
      let bytes := chainBytes t n
      let r := s2.newSpine bytes
      let made := if n = 0 then .ok (s2.writeDesc vd t 0 []) else (s2.fits r.2).map fun u => u.writeDesc vd t n [⟨r.1, 0, bytes⟩]
      match made with
      | .error need => .next (s1.poolTrap need (BitVec.ofNat 64 need))
      | .ok s3 =>
        .next ((s3.issueCommand { Command.blank k 1 with sspace := space, src := base, sstr1 := step, vd := vd, chain := s3.h.chain vd, tag := t, count := n }).retireV n)

/-- `ewait` (R149, R150); it acquires the commands whose tickets it frees (R143). While it waits, earlier members that wait for an `ecopyc` run on. -/
def execEwait (xd xa : XReg) (s : State) : Out :=
  let m := s.x xa
  let named := (List.range 16).filter fun t => m.getLsbD t
  let having (st : TicketState) : List Nat := named.filter fun t => (s.h.ticket t).state == st
  if s.h.mode = .d then s.trapWord 0x06
  else if !m.getLsbD 16 ∧ having .busy ≠ [] then .next (if s.cv.filling.isSome then s.takeRest none else s.hold (.retry false))
  else match (having .faulted).head? with
    | some t => .next (s.awake.trapNow ⟨0x30, BitVec.ofNat 64 t⟩)
    | none =>
      let done := having .done
      let s1 : State := { s with h := done.foldl (fun h t => h.setTicket t Ticket.empty) s.h }
      (if done = [] then s1 else s1.dropEarly s.cur fun _ => true).awake.wrV xd (BitVec.ofNat 64 ((done.map fun t => 2 ^ t).sum))

/-- The code of a ticket state, and the word of Table 07-6. -/
def TicketState.code : TicketState → Nat | .free => 0 | .busy => 1 | .done => 2 | .faulted => 3
def Ticket.word (t : Ticket) : Word :=
  BitVec.ofNat 64 (t.state.code * 2 ^ 62 + t.cause.toNat * 2 ^ 48 + t.kind.toNat * 2 ^ 44 + t.target % 8 * 2 ^ 32 + min t.rows 0xFFFF_FFFF)

/-- `estat` (R151); freeing a done ticket is an acquire (R143). -/
def execEstat (xd xa : XReg) (sel : BitVec 20) (s : State) : Out :=
  let n := (s.x xa).toNat
  let t := s.h.ticket n
  if s.h.mode = .d then s.trapWord 0x06
  else if 15 < n then s.trap 0x04 (s.x xa)
  else if sel = 1 then s.wrV xd (if t.state = .faulted then t.offset else 0)
  else
    let frees := sel = 2 ∧ (t.state = .done ∨ t.state = .faulted)
    let s1 : State := { s with h := if frees then s.h.setTicket n Ticket.empty else s.h }
    (if frees ∧ t.state = .done then s1.dropEarly s.cur fun _ => true else s1).wrV xd t.word

/-- ENGINE_ROW (R140, R142): the next row of the hart's running copy command. With its bit set in a completion mask, what the hart has read ahead
of program order is read again, so that a reader of the bit has acquired the row. -/
def execEngineRow (hart : Nat) (s : State) : Out :=
  let t := s.focus hart
  match t.copyHead with
  | some c =>
    if c.kind = 1 ∨ c.n1 * c.n2 ≤ c.next ∨ t.engineHeld c then .next s
    else match t.moveRow c c.next with
      | .error f => .next (t.endCommand c .faulted f c.next)
      | .ok t1 =>
        let bit : BitVec 8192 := BitVec.ofNat 8192 (2 ^ c.next)
        let t2 : State := if c.cm = 0 then t1
          else ({ t1 with h := t1.h.setMask c.cm (t1.h.mask c.cm ||| bit) }).dropEarly hart fun _ => true
        let k := t2.h.ticket c.ticket
        .next (({ t2 with h := t2.h.setTicket c.ticket { k with rows := c.next + 1 } }).rowsDone c (c.next + 1))
  | none => .next s

namespace State

/-- One element of an `ecopyc` (R147): located, read, written into the chain. -/
def moveElem (s : State) (c : Command) (j : Nat) : Except Failure State :=
  match s.engineProbe (c.acc s.h) c.sspace .read [c.elemSrc j] with
  | .error e => .error e
  | .ok (l, s1) => match s1.engineRead c.sspace (s.stillAhead s1 c) l with
    | .error e => .error e
    | .ok bs =>
      let v := ofBytes bs
      .ok (s1.putElem (s1.h.chain c.vd) j (if c.tag = 9 then v / 16 ^ (j % 2) % 16 else v))

/-- Elements moved one after the other up to the first that fails. -/
def moveElems (s : State) (c : Command) (j : Nat) : Nat → State × Nat × Option Failure
  | 0 => (s, j, none)
  | k + 1 =>
    match s.moveElem c j with
    | .error f => (s, j, some f)
    | .ok t => t.moveElems c (j + 1) k

end State

/-- ECOPYC_TRANSFER (R147, R148): the next elements of the hart's running `ecopyc`. -/
def execEcopycTransfer (hart count : Nat) (s : State) : Out :=
  let t := s.focus hart
  match t.copyHead with
  | some c =>
    if c.kind ≠ 1 ∨ c.count ≤ c.next ∨ t.engineHeld c then .next s
    else
      let r := t.moveElems c c.next (min count (c.count - c.next))
      match r.2.2 with
      | some f => .next (r.1.endCommand c .faulted f r.2.1)
      | none =>
        let k := r.1.h.ticket c.ticket
        .next (({ r.1 with h := r.1.h.setTicket c.ticket { k with rows := r.2.1 } }).rowsDone c r.2.1)
  | none => .next s

/-- COPY_COMMAND_COMPLETE (R145, R146): after the last write, the arrivals of an `ecast` with BAR, then the ticket is done. -/
def execCopyCommandComplete (hart : Nat) (s : State) : Out :=
  let t := s.focus hart
  match t.copyHead with
  | some c =>
    let total := if c.kind = 1 then c.count else c.n1 * c.n2
    if c.next < total ∨ t.engineHeld c then .next s
    else
      let t1 := if c.bar then c.targets.foldl (fun (u : State) _ => match u.gangOf u.h with | some g => (u.arrive g u.h.gbexp.toNat).2 | none => u) t else t
      .next (t1.endCommand c .done ⟨0, 0, 0⟩ c.next)
  | none => .next s

end Sys2Proof.Machine
end

