-- ==== Sys2Proof/Machine/Csr.lean ====
section
/-! DEFINITION. Major 0x07 but for `tlbinv`: the state registers (R307, R308), each with its fields, their access codes and their
reserved bits (R5, R6). -/

namespace Sys2Proof.Machine

/-- A mask of bits lo to lo + n - 1. -/
def bits (lo n : Nat) : Word := BitVec.ofNat 64 ((2 ^ n - 1) * 2 ^ lo)

/-- The bits of each state register that are not reserved (R6, Table 15-5, Tables 17-1 to 17-5, 04-3, 04-5, 05-1, 18-2, 18-7); none
for a number that is no register. -/
def csrBits (n : Nat) : Option Word :=
  match n with
  | 0x000 | 0x001 | 0x002 => some (bits 0 64)
  | 0x010 => some (bits 0 16)
  | 0x011 => some (bits 0 32)
  | 0x012 => some (bits 0 3)
  | 0x013 => some (bits 0 4)
  | 0x014 => some (bits 0 7)
  | 0x015 => some (bits 0 4)
  | 0x016 | 0x017 => some (bits 0 16)
  | 0x018 => some (bits 0 12)
  | 0x020 => some (bits 0 4)
  | 0x021 => some (bits 0 14)
  | 0x022 | 0x023 => some (bits 0 12)
  | 0x024 | 0x025 => some (bits 0 6)
  | 0x030 | 0x031 | 0x032 | 0x033 => some (bits 0 16)
  | 0x040 => some (bits 3 61 ||| bits 0 1)
  | 0x041 => some (bits 0 64)
  | 0x042 => some (bits 28 20 ||| bits 0 21)
  | 0x050 => some (bits 0 32)
  | 0x051 => some (bits 0 6)
  | 0x100 => some (bits 3 61)
  | 0x101 => some (bits 0 64)
  | 0x102 => some (bits 0 14)
  | 0x103 => some (bits 0 64)
  | 0x104 => some (bits 8 2 ||| bits 0 7)
  | 0x105 => some (bits 6 7)
  | 0x106 => some (bits 0 64)
  | 0x110 => some (bits 0 16)
  | 0x111 => some (bits 63 1 ||| bits 15 29)
  | 0x112 => some (bits 22 22)
  | 0x1F0 => some (bits 32 32 ||| bits 0 2)
  | 0x1F1 => some (bits 3 17)
  | 0x1F2 => some (bits 0 64)
  | _ => none

/-- Mode codes (R336) and tile kinds (Table 13-2). -/
def Mode.code : Mode → Nat | .u => 0 | .d => 1 | .s => 2
def TileKind.code : TileKind → Nat | .f32 => 0 | .i32 => 1 | .f64 => 2

/-- A tile's part of `zshape` and `zstate` for a slot: N and M, the kind, and whether it is held (R269). -/
def Tile.report (t : Tile) (slot : Nat) : Nat × Nat × Bool :=
  if t.holder = some slot then (t.cols * 256 + t.rows, t.kind.code, true) else (0, 0, false)

/-- `tstatus` and `tcause` (Tables 17-2, 17-3), `pfinfo` (Table 17-5). -/
def Hart.tstatus (h : Hart) : Word :=
  BitVec.ofNat 64 (h.mode.code * 256 + h.hip.toNat * 64 + h.tip.toNat * 32 + h.pfr.isSome.toNat * 16 + h.rr.isSome.toNat * 8 + h.ie.toNat * 4 + h.ppriv.toNat)
def Hart.tcause (h : Hart) : Word := BitVec.ofNat 64 (h.newcv.toNat * 2 ^ 13 + h.incv.toNat * 2 ^ 12 + h.cword % 16 * 256 + h.cause.toNat)
def Hart.pfinfo (h : Hart) : Word := BitVec.ofNat 64 (h.pfneed % 2 ^ 16 * 2 ^ 32 + h.pfword % 16 * 2 ^ 28 + h.pfvstart)
def Hart.ptroot (h : Hart) : Word := BitVec.ofNat 64 (h.bare.toNat * 2 ^ 63 + h.ptbase.toNat * 2 ^ 15)

namespace State

/-- The value of a state register (R307). -/
def csrValue (s : State) (n : Nat) : Word :=
  let h := s.h
  let z0 := s.core.za0.report s.slotNo
  let z1 := s.core.za1.report s.slotNo
  match n with
  | 0x000 => s.cycle
  | 0x001 => h.instret
  | 0x002 => BitVec.ofNat 64 s.nanos
  | 0x010 => zext h.hartid
  | 0x011 => zext h.gangid
  | 0x012 => zext h.ganghart
  | 0x013 => zext h.gangsize
  | 0x014 => BitVec.ofNat 64 s.coreNo
  | 0x015 => BitVec.ofNat 64 (s.coreNo / 8)
  | 0x016 => zext s.nodeNo
  | 0x017 => zext h.taskid
  | 0x018 => zext h.gbexp
  | 0x020 => BitVec.ofNat 64 s.vgrant
  | 0x021 => BitVec.ofNat 64 s.vlmax
  | 0x022 => zext h.vquota
  | 0x023 => BitVec.ofNat 64 (h.vused % 4096)
  | 0x024 => zext h.vflags
  | 0x025 => zext h.sflags
  | 0x030 => zext (h.space 0)
  | 0x031 => zext (h.space 1)
  | 0x032 => zext (h.space 2)
  | 0x033 => zext (h.space 3)
  | 0x040 => h.pfh
  | 0x041 => h.pfpc
  | 0x042 => h.pfinfo
  | 0x050 => BitVec.ofNat 64 (z1.1 * 2 ^ 16 + z0.1)
  | 0x051 => BitVec.ofNat 64 (z1.2.1 * 16 + z0.2.1 * 4 + z1.2.2.toNat * 2 + z0.2.2.toNat)
  | 0x100 => h.tvec
  | 0x101 => h.tpc
  | 0x102 => h.tcause
  | 0x103 => h.tval
  | 0x104 => h.tstatus
  | 0x105 => BitVec.ofNat 64 (h.tresOff.toNat * 64)
  | 0x106 => h.tscratch
  | 0x110 => zext h.kctx
  | 0x111 => h.ptroot
  | 0x112 => BitVec.ofNat 64 (h.saBase.toNat * 2 ^ 22)
  | 0x1F0 => BitVec.ofNat 64 (s.missed.toNat * 2 ^ 32 + s.busy.toNat * 2)
  | 0x1F1 => BitVec.ofNat 64 (s.dcaddr.toNat * 8)
  | 0x1F2 => s.windowRead (s.dcaddr.toNat * 8)
  | _ => 0

/-- What Guesk has set is kept for its context (log 16). -/
def noteContext (s : State) : State :=
  { s with contexts := assocSet s.contexts s.h.kctx.toNat ⟨s.h.tvec, s.h.ptbase, s.h.bare, s.h.saBase⟩ }

/-- One expected count for the whole gang (Table 14-12): a write of 0 leaves it. -/
def setGbexp (s : State) (e : BitVec 12) : State :=
  if e = 0 then s
  else
    let s1 := { s with h := { s.h with gbexp := e } }
    match s.gangOf s.h with
    | some g => g.members.foldl (fun t m => t.setHart m { t.hartAt m with gbexp := e }) s1
    | none => s1

/-- A state register written: its RW fields take the new value, a W1C field loses the bits that `clear` holds, RO fields keep theirs
(R5, R308). A write of `snaptrig` that does both clears MISSED first and then triggers, so that a trigger it makes while BUSY is 1 counts
(log 50: the manual gives the two no order). -/
def csrWrite (s : State) (n : Nat) (new clear : Word) : State :=
  let up (h : Hart) : State := { s with h := h }
  match n with
  | 0x018 => s.setGbexp (new.extractLsb' 0 12)
  | 0x024 => up { s.h with vflags := new.extractLsb' 0 6 }
  | 0x025 => up { s.h with sflags := new.extractLsb' 0 6 }
  | 0x030 => up { s.h with as := s.h.as.set 0 (new.extractLsb' 0 16) }
  | 0x031 => up { s.h with as := s.h.as.set 1 (new.extractLsb' 0 16) }
  | 0x032 => up { s.h with as := s.h.as.set 2 (new.extractLsb' 0 16) }
  | 0x033 => up { s.h with as := s.h.as.set 3 (new.extractLsb' 0 16) }
  | 0x040 => up { s.h with pfh := new }
  | 0x100 => (up { s.h with tvec := new }).noteContext
  | 0x101 => up { s.h with tpc := new }
  | 0x103 => up { s.h with tval := new }
  | 0x104 =>
    let s1 := up { s.h with
      hip := s.h.hip && !clear.getLsbD 6, tip := s.h.tip && !clear.getLsbD 5, ie := new.getLsbD 2, ppriv := new.extractLsb' 0 2 }
    if clear.getLsbD 3 then s1.discardRr else s1
  | 0x105 => up { s.h with tresOff := new.extractLsb' 6 7 }
  | 0x106 => up { s.h with tscratch := new }
  | 0x110 =>
    let s1 := up { s.h with kctx := new.extractLsb' 0 16 }
    if s1.contexts.any (fun p => p.1 == s1.h.kctx.toNat) then s1 else s1.noteContext
  | 0x111 => (up { s.h with bare := new.getLsbD 63, ptbase := new.extractLsb' 15 29 }).noteContext
  | 0x112 => (up { s.h with saBase := new.extractLsb' 22 22 }).noteContext
  | 0x1F0 =>
    let s1 := { s with missed := s.missed &&& ~~~(clear.extractLsb' 32 32) }
    if new.getLsbD 0 then s1.snapTrigger else s1
  | 0x1F1 => { s with dcaddr := new.extractLsb' 3 17 }
  | 0x1F2 => s.windowWrite .guesk (s.dcaddr.toNat * 8) new clear
  | _ => s

/-- Whether a register number may be used: it is a register, and one from 0x100 up needs mode S (R307). -/
def csrAllowed (s : State) (csr : BitVec 10) : Bool := (csrBits csr.toNat).isSome && (decide (csr.toNat < 0x100) || s.h.mode == .s)

/-- Whether a new value sets a reserved bit, or PPRIV 3 (R6, Table 17-2). -/
def csrRefuses (csr : BitVec 10) (new : Word) : Bool :=
  (match csrBits csr.toNat with | some m => new &&& ~~~m != 0 | none => true) || (csr == 0x104 && new.extractLsb' 0 2 == 3)

/-- The effect of the three writing forms (R308). -/
def csrUpdate (s : State) (xd xa : XReg) (csr : BitVec 10) (f : Word → Word → Word) : Out :=
  if !s.csrAllowed csr then s.trapWord 0x01
  else
    let old := s.csrValue csr.toNat
    let a := s.x xa
    let new := f old a
    if csrRefuses csr new then s.trapWord 0x01
    else (s.csrWrite csr.toNat new a).wr xd old

end State

/-- `csrr` (R308). -/
def execCsrr (xd : XReg) (csr : BitVec 10) (s : State) : Out :=
  if !s.csrAllowed csr then s.trapWord 0x01 else s.wr xd (s.csrValue csr.toNat)
/-- `csrw` (R308). -/
def execCsrw (xd xa : XReg) (csr : BitVec 10) (s : State) : Out := s.csrUpdate xd xa csr fun _ a => a
/-- `csrs` (R308). -/
def execCsrs (xd xa : XReg) (csr : BitVec 10) (s : State) : Out := s.csrUpdate xd xa csr fun old a => old ||| a
/-- `csrc` (R308). -/
def execCsrc (xd xa : XReg) (csr : BitVec 10) (s : State) : Out := s.csrUpdate xd xa csr fun old a => old &&& ~~~a

end Sys2Proof.Machine
end

