-- ==== Sys2Proof/Machine/Keys.lean ====
section
/-! DEFINITION. Major 0x28, the key instructions (R96 to R120), and the end of a transfer (R108, R111). -/

namespace Sys2Proof.Machine

/-- A key region as an instruction names it (R119), with the die of its home controller; none when another node is its home. -/
structure Region where
  space : BitVec 16
  base : Nat
  size : Nat
  die : Option Nat
  deriving DecidableEq, Repr

/-- Who makes a key request (R97): its context and agent, its task, and whether it is a supervisor. -/
structure Asker where
  ctx : BitVec 16
  agent : BitVec 32
  task : BitVec 16
  sup : Bool
  deriving DecidableEq, Repr

/-- Transfers (R108). -/
inductive Transfer where
  | lend (to_ : BitVec 32)
  | share (to_ : BitVec 32)
  | ret
  | drop
  | unshare
  deriving DecidableEq, Repr

/-- The byte ranges a command reads and writes: space, offset, length (R108 step 2, R121, R140, R145, R147). -/
def Command.extents (c : Command) : List (BitVec 16 × Nat × Nat) :=
  if 8 ≤ c.kind.toNat then [(c.sspace, c.src.toNat, (c.count * tagWidth c.tag + 7) / 8)]
  else if c.kind = 1 then
    (List.range c.count).map fun j => (c.sspace, (c.src + BitVec.ofNat 64 j * c.sstr1).toNat, (tagWidth c.tag + 7) / 8)
  else
    (List.range (c.n1 * c.n2)).flatMap fun q =>
      let i := BitVec.ofNat 64 (q % c.n1)
      let r := BitVec.ofNat 64 (q / c.n1)
      let src := if c.kind = 3 then (c.sspace, (c.src + r * c.sstr2).toNat, c.srclen) else (c.sspace, (c.src + r * c.sstr2 + i * c.sstr1).toNat, c.l0)
      [src, (c.dspace, (c.dst + r * c.dstr2 + i * c.dstr1).toNat, c.l0)]

/-- Whether an asker owns an entry. -/
def KeyEntry.ownedBy (e : KeyEntry) (a : Asker) : Bool := e.owner == a.agent && (e.state == .owned || e.state == .shared)
/-- An entry that an asker newly owns (`kacq` of HOME, Table 05-6). -/
def KeyEntry.new (a : Asker) (r : Region) (die : Nat) : KeyEntry :=
  ⟨a.ctx, r.space, r.base, r.size, .owned, false, [], a.agent, noAgent, die, false, noAgent⟩
/-- Who a hart is to a controller. -/
def Hart.asker (h : Hart) : Asker := ⟨h.kctx, h.agent, h.taskid, h.mode == .s⟩

/-- What a controller makes of a request (Table 05-6, R111): the cause 0x09, a status that changes nothing, status 0 for a region that its
issuer owns already and acquires again (R109), an entry changed at once, or a transfer that is granted and waits for its steps. -/
inductive Verdict where
  | refuse
  | status (n : Nat)
  | again (s : State)
  | change (n : Nat) (s : State)
  | transfer (op : Transfer) (e : KeyEntry)

namespace State

/-- The controller that homes an offset and whether its page needs no key (R119, R86): no die when another node is the home. In
mode S with BARE set an offset of space 0x0000 is taken as a physical address here too (log 72). -/
def homeDie (s : State) (space : BitVec 16) (off : Nat) : Except (BitVec 8) (Option Nat × Bool × State) :=
  if s.h.acc.bare ∧ space = 0 then
    match physKey off with
    | some k => .ok (some (stackDie (keyStack k)), false, s)
    | none => .error 0x08
  else
    match s.translate s.h.acc space off with
    | .error c => .error c
    | .ok (e, s1) =>
      if e.node ≠ Config.nodeId then
        if space = 0 ∨ s.unreachable.contains e.node then .error 0x08 else .ok (none, e.im || e.at_, s1)
      else match physKey (e.frame + off % e.size) with
        | some k => .ok (some (stackDie (keyStack k)), e.im || e.at_, s1)
        | none => .error 0x08

/-- R119 with the order of R120. -/
def region (s : State) (xa xb : XReg) (asr : BitVec 2) (imm : BitVec 20) : Except Trap (Region × State) :=
  let space := s.h.space asr
  let base := offset (s.x xa) imm
  let size := (s.x xb).toNat
  let tv := BitVec.ofNat 64 base
  if s.h.mode = .d then .error ⟨0x06, s.h.iword⟩
  else if 0xFF00 ≤ space.toNat then .error ⟨0x09, tv⟩
  else if size < 16 ∨ 40 < size ∨ base % 2 ^ size ≠ 0 then .error ⟨0x0A, tv⟩
  else match s.homeDie space base with
    | .error c => .error ⟨c, tv⟩
    | .ok (d, free, s1) => if free then .error ⟨0x09, tv⟩ else .ok (⟨space, base, size, d⟩, s1)

/-- The current hart's request has left its controller's queue. -/
def served (s : State) : State := s.leaveQueue (·.ofHart s.cur)

/-- A key instruction on its region. -/
def keyed (s : State) (xa xb : XReg) (asr : BitVec 2) (imm : BitVec 20) (go : Region → State → Out) : Out :=
  match s.region xa xb asr imm with
  | .error t => .next (s.served.trapNow t)
  | .ok (r, s1) => go r s1

/-- The status goes to xd (R102). -/
def status (s : State) (xd : XReg) (n : Nat) : Out := s.awake.wr xd (BitVec.ofNat 64 n)
/-- The issuer is not the holder the instruction needs (R120). -/
def notHolder (s : State) (base : Nat) : Out := .next (s.awake.trapNow ⟨0x09, BitVec.ofNat 64 base⟩)

/-- What another node's controller answers among what Table 05-6 allows; 9 stands for the trap (log 10). -/
def remoteStatus (s : State) (allowed : List Nat) : Nat := allowed.getD (Config.remoteAnswer s.tick % allowed.length) 0
/-- What the entries here say of a region that another node homes: no two entries overlap (R101), so when one here meets it that node has no entry of it,
and the status of a `kacq` (R103), any other request finding no holder; none when no entry here meets it. -/
def metHere (s : State) (r : Region) : Option Nat :=
  match s.overlapping s.h.kctx r.space r.base r.size with
  | [] => none
  | l => some (if l.any fun e => e.state == .orphaned then 5 else 1)
/-- A request that another node answers. -/
def askRemote (s : State) (r : Region) (xd : XReg) (allowed : List Nat) (done : State → State) : Out :=
  match s.remoteStatus allowed with
  | 9 => s.notHolder r.base
  | 0 => (done s).status xd 0
  | 4 => (done s).status xd 4
  | n => s.status xd n

/-- Entries at a controller, and share slots used there (R101). -/
def ringUsed (s : State) (die : Nat) : Nat := (s.keyring.filter fun e => e.die == die).length
def sharesUsed (s : State) (die : Nat) : Nat := ((s.keyring.filter fun e => e.die == die).map fun e => e.shares.length).sum

/-- What a transfer still waits for: accesses of the issuer's agents to the region, and commands whose extents meet it (R108 steps 1
and 2). -/
def keyWaits (s : State) (space : BitVec 16) (base size : Nat) : Bool :=
  (s.pend.any fun p => p.hart == s.cur && p.ctx == s.h.kctx && p.space == space && meetsRegion base size p.off p.data.length)
    || s.h.cmds.any fun c => c.ctx == s.h.kctx && c.extents.any fun e => e.1 == space && meetsRegion base size e.2.1 e.2.2

/-- R108 steps 3 and 4 (Table 05-8). -/
def transferSweep (s : State) (op : Transfer) (space : BitVec 16) (base size : Nat) : State :=
  let keep := match op with | .share _ => true | _ => false
  (s.sweepRegion s.h.kctx space base size (op != .drop) keep).dropOwnRights s.h.kctx space base size s.h.agent

/-- R108 step 5: the row of Table 05-6 with status 0, made by an agent; what waited for it takes its turn (R111). -/
def transferRow (s : State) (agent : BitVec 32) (op : Transfer) (e0 : KeyEntry) : State :=
  let e := { e0 with transit := false, issuer := noAgent }
  (match op with
    | .lend c => s.putEntry { e with owner := c, lender := e.owner }
    | .share c => s.putEntry { e with state := .shared, shares := e.shares ++ [c] }
    | .ret => s.returnEntry e
    | .drop => s.returnEntry e
    | .unshare => s.removeShare e agent).settleKeys

/-- Steps 3 to 5 of R108. -/
def transferEnd (s : State) (op : Transfer) (space : BitVec 16) (base size : Nat) (xd : XReg) : Out :=
  let s1 := s.transferSweep op space base size
  let s2 := match s1.entryOf s1.h.kctx space base size with | some e => s1.transferRow s1.h.agent op e | none => s1
  s2.served.status xd 0

/-- A transfer whose status is 0: it waits with its region in transit, or ends at once (R108, R111). -/
def keyTransfer (s : State) (op : Transfer) (e : KeyEntry) (xd : XReg) : Out :=
  if s.keyWaits e.space e.base e.size then
    .next ((s.putEntry { e with transit := true, issuer := s.h.agent }).served.hold (.key e.space (BitVec.ofNat 64 e.base) e.size))
  else s.transferEnd op e.space e.base e.size xd

/-- A transfer of a region that another node is home to (R113): the own core's part of R108 is made here. -/
def transferRemote (s : State) (op : Transfer) (r : Region) (xd : XReg) (allowed : List Nat) : Out :=
  if s.keyWaits r.space r.base r.size then .next (s.hold (.retry false))
  else s.askRemote r xd allowed fun t => t.transferSweep op r.space r.base r.size

/-- The controller that homes a region's upper half, or the trap for it (`ksplit`, `kmerge`). -/
def upperDie (s : State) (r : Region) : Except Trap (Option Nat × State) :=
  let up := (r.base + 2 ^ (r.size - 1)) % 2 ^ 64
  match s.homeDie r.space up with
  | .error c => .error ⟨c, BitVec.ofNat 64 up⟩
  | .ok (d, _, s1) => .ok (d, s1)

/-- Every key cache loses a region (R106). -/
def purgeRegion (s : State) (ctx space : BitVec 16) (base size : Nat) : State :=
  s.mapCores fun _ k => k.dropRights ctx space base size fun _ => true

/-- An agent's acquire (R109): what its harts here have read ahead of program order is read again. -/
def dropAgent (s : State) (a : Asker) : State :=
  let slots := s.slotsOfAgent a.ctx a.agent
  { s with early := s.early.filter fun e => !slots.contains e.hart }

/-- What the controllers of other nodes add to a `kacq` in a global space: the status for a region that overlaps an entry of theirs, 5 when
that is ORPHANED, and 0 when none does (R103, log 10). Space 0x0000 has no page on another node (R86). -/
def elsewhere (s : State) (r : Region) : Nat := if r.space = 0 then 0 else s.remoteStatus [0, 1, 5]

/-- The rows of Table 05-6 for a request on a region that a controller of this node homes; `ksplit` and `kmerge` have their own. -/
def judge (s : State) (a : Asker) (op : KeyOp) (r : Region) (die : Nat) : Verdict :=
  match op, s.entryOf a.ctx r.space r.base r.size with
  | .acq, _ =>
    match s.overlapping a.ctx r.space r.base r.size with
    | [] =>
      if s.elsewhere r ≠ 0 then .status (s.elsewhere r)
      else if 32768 ≤ s.ringUsed die then .status 3 else .change 0 ((s.putEntry (KeyEntry.new a r die)).dropAgent a)
    | e :: es =>
      if es = [] ∧ e.base = r.base ∧ e.size = r.size ∧ e.state = .owned ∧ e.owner = a.agent then .again (s.dropAgent a)
      else if es = [] ∧ e.base = r.base ∧ e.size = r.size ∧ e.state = .home then
        .change 4 ((s.putEntry { e with state := .owned, owner := a.agent, lender := noAgent }).dropAgent a)
      else if ((e :: es).any fun o => o.state == .orphaned) || s.elsewhere r == 5 then .status 5
      else .status 1
  | .lend c, some e =>
    if !e.ownedBy a ∨ c = a.agent ∨ c = noAgent ∨ e.lender ≠ noAgent then .refuse
    else if e.state = .shared then .status 1
    else if !s.liveAgent a.ctx (some a.task) c then .status 6
    else .transfer (.lend c) e
  | .share c, some e =>
    if !e.ownedBy a ∨ c = a.agent ∨ c = noAgent then .refuse
    else if !s.liveAgent a.ctx (some a.task) c then .status 6
    else if e.shares.contains c then .status 0
    else if 63 ≤ e.shares.length then .status 2
    else if 16384 ≤ s.sharesUsed e.die then .status 3
    else .transfer (.share c) e
  | .ret, some e => if !e.ownedBy a then .refuse else if e.state = .shared then .status 1 else .transfer .ret e
  | .drop, some e => if !e.ownedBy a then .refuse else if e.state = .shared then .status 1 else .transfer .drop e
  | .unshare, some e => if e.state = .shared ∧ e.shares.contains a.agent then .transfer .unshare e else .refuse
  | .recover c, some e =>
    if !a.sup ∨ e.state ≠ .orphaned then .refuse
    else if c = noAgent then
      let s1 := s.purgeRegion a.ctx r.space r.base r.size
      .change 0 (if e.poison then s1.putEntry { e with state := .home, owner := noAgent, lender := noAgent } else s1.delEntry e)
    else if !s.liveAgent a.ctx none c then .status 6
    else .change 0 ((s.purgeRegion a.ctx r.space r.base r.size).putEntry { e with state := .owned, owner := c, lender := noAgent })
  | .clean, some e =>
    if e.state = .owned ∧ e.owner = a.agent then .change 0 (s.putEntry { e with poison := false })
    else if e.state = .home ∧ a.sup then .change 0 (s.delEntry e)
    else .refuse
  | _, _ => .refuse

/-- The current hart's request for a region. -/
def waiter (s : State) (r : Region) : KeyWaiter := .hart s.cur s.h.kctx r.space r.base r.size
/-- Whether one that would change its entry waits (R111). -/
def requestHeld (s : State) (me : KeyWaiter) (ctx : BitVec 16) (r : Region) : Bool := s.keyHeld me ctx r.space r.base r.size
/-- The current hart's request waits at its controller, in arrival order (R111). -/
def queued (s : State) (r : Region) : Out :=
  .next ({ s with keyQueue := if s.keyQueue.any (·.ofHart s.cur) then s.keyQueue else s.keyQueue ++ [s.waiter r] }.hold (.retry false))

/-- The current hart's request answered by a controller of this node. -/
def answer (s : State) (r : Region) (xd : XReg) (v : Verdict) : Out :=
  match v with
  | .refuse => s.served.notHolder r.base
  | .status n => s.served.status xd n
  | .again t => t.served.status xd 0
  | .change n t => if s.requestHeld (s.waiter r) s.h.kctx r then s.queued r else t.served.status xd n
  | .transfer op e => if s.requestHeld (s.waiter r) s.h.kctx r then s.queued r else s.keyTransfer op e xd

/-- `ksplit` at the controller of the base (Table 05-6): the halves keep OWNER, LENDER and POISON; `up` is the controller of the upper
one, none on another node, which may have no room (log 10). -/
def judgeSplit (s : State) (a : Asker) (r : Region) (up : Option Nat) : Verdict :=
  match s.entryOf a.ctx r.space r.base r.size with
  | none => .refuse
  | some e =>
    if r.size = 16 ∨ !e.ownedBy a then .refuse
    else if e.state = .shared then .status 1
    else
      let half := r.size - 1
      let s1 := (s.delEntry e).putEntry { e with size := half }
      match up with
      | some d => if 32768 ≤ s.ringUsed d then .status 3 else .change 0 (s1.putEntry { e with base := r.base + 2 ^ half, size := half, die := d })
      | none => if s.remoteStatus [0, 3] = 3 then .status 3 else .change 0 s1

/-- `kmerge` at the controller of the base: POISON is the OR of the halves'. Of an upper half on another node its own controller says
whether it can be joined, and its POISON (log 10). -/
def judgeMerge (s : State) (a : Asker) (r : Region) (up : Option Nat) : Verdict :=
  let half := r.size - 1
  let mine (e : KeyEntry) : Bool := e.state == .owned && e.owner == a.agent
  match s.entryOf a.ctx r.space r.base half, up with
  | none, _ => .refuse
  | some l, none =>
    if !mine l then .refuse
    else match s.remoteStatus [0, 1, 9] with
      | 9 => .refuse
      | p => .change 0 ((s.delEntry l).putEntry { l with size := r.size, poison := l.poison || p == 1 })
  | some l, some _ =>
    match s.entryOf a.ctx r.space (r.base + 2 ^ half) half with
    | none => .refuse
    | some h =>
      if !mine l ∨ !mine h ∨ l.lender ≠ h.lender then .refuse
      else .change 0 (((s.delEntry l).delEntry h).putEntry { l with size := r.size, poison := l.poison || h.poison })

/-- The upper half of a region whose base another node homes, made here by `ksplit`: LENDER and POISON come from that node (log 10). -/
def halfIn (s : State) (a : Asker) (r : Region) (die : Nat) (lender : BitVec 32) (poison : Bool) : State :=
  s.putEntry { KeyEntry.new a { r with base := r.base + 2 ^ (r.size - 1), size := r.size - 1 } die with lender := lender, poison := poison }

/-- An instruction whose region another node homes, and otherwise the row of the home controller. -/
def request (s : State) (op : KeyOp) (r : Region) (xd : XReg) (remote : Out) : Out :=
  match r.die with
  | none => match s.metHere r with
    | none => remote
    | some n => if op = .acq then s.status xd n else s.notHolder r.base
  | some d => s.answer r xd (s.judge s.h.asker op r d)
/-- Statuses that another node may answer for a target that is live or is not (Table 05-5). -/
def forTarget (s : State) (task : Option (BitVec 16)) (c : BitVec 32) (live dead : List Nat) : List Nat :=
  if s.liveAgent s.h.kctx task c then live else dead

end State

/-- `kacq` (Table 05-6). -/
def execKacq (xd xa xb : XReg) (asr : BitVec 2) (imm : BitVec 20) (s : State) : Out :=
  s.keyed xa xb asr imm fun r s1 => s1.request .acq r xd (s1.askRemote r xd [0, 1, 3, 4, 5] fun t => t.dropAgent t.h.asker)

/-- `klend` (Table 05-6). -/
def execKlend (xd xa xb xc : XReg) (asr : BitVec 2) (imm : BitVec 20) (s : State) : Out :=
  s.keyed xa xb asr imm fun r s1 =>
    let c := (s1.x xc).extractLsb' 0 32
    s1.request (.lend c) r xd
      (if c = s1.h.agent ∨ c = noAgent then s1.notHolder r.base else s1.transferRemote (.lend c) r xd (s1.forTarget (some s1.h.taskid) c [0, 1, 9] [1, 6, 9]))

/-- `kshare` (Table 05-6). -/
def execKshare (xd xa xb xc : XReg) (asr : BitVec 2) (imm : BitVec 20) (s : State) : Out :=
  s.keyed xa xb asr imm fun r s1 =>
    let c := (s1.x xc).extractLsb' 0 32
    s1.request (.share c) r xd
      (if c = s1.h.agent ∨ c = noAgent then s1.notHolder r.base else s1.transferRemote (.share c) r xd (s1.forTarget (some s1.h.taskid) c [0, 2, 3, 9] [6, 9]))

/-- `kret` (Table 05-6). -/
def execKret (xd xa xb : XReg) (asr : BitVec 2) (imm : BitVec 20) (s : State) : Out :=
  s.keyed xa xb asr imm fun r s1 => s1.request .ret r xd (s1.transferRemote .ret r xd [0, 1, 9])

/-- `kdrop` (Table 05-6). -/
def execKdrop (xd xa xb : XReg) (asr : BitVec 2) (imm : BitVec 20) (s : State) : Out :=
  s.keyed xa xb asr imm fun r s1 => s1.request .drop r xd (s1.transferRemote .drop r xd [0, 1, 9])

/-- `kunshare` (Table 05-6). -/
def execKunshare (xd xa xb : XReg) (asr : BitVec 2) (imm : BitVec 20) (s : State) : Out :=
  s.keyed xa xb asr imm fun r s1 => s1.request .unshare r xd (s1.transferRemote .unshare r xd [0, 9])

/-- `ksplit` (Table 05-6). With the base on another node and the upper half here, room for the half is found here first. -/
def execKsplit (xd xa xb : XReg) (asr : BitVec 2) (imm : BitVec 20) (s : State) : Out :=
  s.keyed xa xb asr imm fun r s1 =>
    match s1.upperDie r with
    | .error t => .next (s1.awake.trapNow t)
    | .ok (up, s2) =>
      match r.die, up with
      | some _, _ => s2.answer r xd (s2.judgeSplit s2.h.asker r up)
      | none, none => if r.size = 16 ∨ (s2.metHere r).isSome then s2.notHolder r.base else s2.askRemote r xd [0, 1, 3, 9] id
      | none, some d =>
        if r.size = 16 ∨ (s2.metHere r).isSome then s2.notHolder r.base
        else if 32768 ≤ s2.ringUsed d then s2.askRemote r xd [1, 3, 9] id
        else s2.askRemote r xd [0, 1, 9] fun t =>
          t.halfIn t.h.asker r d ((Config.freeWord (2 * t.tick + 1)).extractLsb' 0 32) ((Config.freeWord (2 * t.tick + 1)).getLsbD 32)

/-- `kmerge` (Table 05-6). With the base on another node and the upper half here, the upper half's entry is judged and taken here. -/
def execKmerge (xd xa xb : XReg) (asr : BitVec 2) (imm : BitVec 20) (s : State) : Out :=
  s.keyed xa xb asr imm fun r s1 =>
    match s1.upperDie r with
    | .error t => .next (s1.awake.trapNow t)
    | .ok (up, s2) =>
      match r.die, up with
      | some _, _ => s2.answer r xd (s2.judgeMerge s2.h.asker r up)
      | none, none => if (s2.metHere r).isSome then s2.notHolder r.base else s2.askRemote r xd [0, 9] id
      | none, some _ => if (s2.metHere { r with size := r.size - 1 }).isSome then s2.notHolder r.base else
        match s2.entryOf s2.h.kctx r.space (r.base + 2 ^ (r.size - 1)) (r.size - 1) with
        | none => s2.notHolder r.base
        | some h => if h.state = .owned ∧ h.owner = s2.h.agent then s2.askRemote r xd [0, 9] fun t => t.delEntry h else s2.notHolder r.base

/-- The code of a key state (Table 05-4). -/
def KeyState.code : KeyState → Nat | .home => 0 | .owned => 1 | .shared => 2 | .orphaned => 3

/-- The word of Table 05-12. -/
def queryWord (e : Option KeyEntry) (me : BitVec 32) : Word :=
  match e with
  | none => BitVec.ofNat 64 (0xFFFF_FFFF * 2 ^ 32)
  | some e => BitVec.ofNat 64 (e.owner.toNat * 2 ^ 32 + e.size * 2 ^ 26 + e.shares.length * 2 ^ 20 + e.poison.toNat * 2 ^ 19
      + e.state.code * 2 ^ 17 + e.right me * 2 ^ 15)

/-- The word of Table 05-12 for an offset that no entry here covers: what another node's controller answers where it may have one (R101), its size and the
agent's right as far as they are known here, the rest free (log 10). -/
def State.foreignWord (s : State) (a : Acc) (space : BitVec 16) (off : Nat) (here : Bool) : Word :=
  let free := Config.freeWord (2 * s.tick + 1)
  if here then match s.foreignEntry a space off with
    | some (_, size, r, _) => (free &&& ~~~0xFC01_FFFF#64) ||| BitVec.ofNat 64 (size * 2 ^ 26 + r * 2 ^ 15)
    | none => queryWord none a.agent
  else free &&& ~~~0x7FFF#64

/-- `kquery` (Table 05-12). -/
def execKquery (xd xa : XReg) (asr : BitVec 2) (imm : BitVec 20) (s : State) : Out :=
  let space := s.h.space asr
  let base := offset (s.x xa) imm
  if s.h.mode = .d then s.trapWord 0x06
  else if 0xFF00 ≤ space.toNat then s.trap 0x09 (BitVec.ofNat 64 base)
  else match s.homeDie space base with
    | .error c => s.trap c (BitVec.ofNat 64 base)
    | .ok (d, _, s1) => match s1.entryAt s1.h.kctx space base with
      | some e => s1.wr xd (queryWord (some e) s1.h.agent)
      | none => if s1.keyCause s1.h.acc space base = 0x08 then s1.trap 0x08 (BitVec.ofNat 64 base) else s1.wr xd (s1.foreignWord s1.h.acc space base d.isSome)

/-- `krecover` (Table 05-6): in supervisor mode. -/
def execKrecover (xd xa xb xc : XReg) (asr : BitVec 2) (imm : BitVec 20) (s : State) : Out :=
  if s.h.mode ≠ .s then s.trapWord 0x01
  else s.keyed xa xb asr imm fun r s1 =>
    let c := (s1.x xc).extractLsb' 0 32
    s1.request (.recover c) r xd (s1.askRemote r xd (if c = noAgent then [0, 9] else s1.forTarget none c [0, 9] [6, 9]) fun t => t.purgeRegion t.h.kctx r.space r.base r.size)

/-- `kclean` (Table 05-6). -/
def execKclean (xd xa xb : XReg) (asr : BitVec 2) (imm : BitVec 20) (s : State) : Out :=
  s.keyed xa xb asr imm fun r s1 => s1.request .clean r xd (s1.askRemote r xd [0, 9] id)

/-- The transfer a waiting word makes, and its xd. -/
def transferOf (s : State) (i : Instr) : Option (Transfer × XReg) :=
  match i with
  | .klend xd _ _ xc _ _ => some (.lend ((s.x xc).extractLsb' 0 32), xd)
  | .kshare xd _ _ xc _ _ => some (.share ((s.x xc).extractLsb' 0 32), xd)
  | .kret xd _ _ _ _ => some (.ret, xd)
  | .kdrop xd _ _ _ _ => some (.drop, xd)
  | .kunshare xd _ _ _ _ => some (.unshare, xd)
  | _ => none

/-- KEY_TRANSFER_COMPLETE (R108): the waits are over, the sweeps are made and the entry changes. -/
def execKeyTransferComplete (hart : Nat) (s : State) : Out :=
  let t := s.focus hart
  match t.h.st, t.h.wait, (t.h.convoy.bind fun c => c.words[c.pos t.h.pc]?).bind (transferOf t) with
  | .running, .key space base size, some (op, xd) =>
    if t.keyWaits space base.toNat size then .next s else t.transferEnd op space base.toNat size xd
  | _, _, _ => .next s

end Sys2Proof.Machine
end

