-- ==== Sys2Proof/Machine/HartControl.lean ====
section
/-! DEFINITION. Major 0x30, the hart instructions (R323, R331 to R335), and the steps that suspend, resume and end harts (R324, R326,
R328, R329). -/

namespace Sys2Proof.Machine

/-- A field of a launch packet (Table 16-2): bits lo to lo + n - 1. -/
def packetField (p lo n : Nat) : Nat := p / 2 ^ lo % 2 ^ n

namespace State

/-- The grant of a `setvl` (R331): groups beyond what it wants are freed from the highest, missing ones taken from the lowest free ones,
which no waiting claimant wants (`handOut`). -/
def takeLanes (s : State) : State :=
  let want := min s.h.req (s.entOf s.cur)
  let held := s.lanesOf s.cur
  if want < held.length then { s with core := s.core.setLanes (held.drop want) none }.handOut s.coreNo
  else { s with core := s.core.setLanes (s.core.freeLanes.take (want - held.length)) (some s.slotNo) }

/-- A hart asked to stop at its next hinge with its whole gang (R311, R326); `pre` when it is to be evicted (R343). -/
def requestStop (s : State) (k : Nat) (pre : Bool) : State :=
  let members := match s.gangOf (s.hartAt k) with | some g => g.members | none => [k]
  members.foldl (fun t m => let h := t.hartAt m; t.setHart m { h with suspend := true, preempt := h.preempt || pre }) s

/-- A hart stops (R326): tpc holds the hinge or the waiting instruction, which keeps its leave to open a convoy without H (R340), and a place in a
tile's queue is given up (R274). -/
def suspendNow (s : State) : State :=
  let drop (t : Tile) : Tile := { t with queue := t.queue.filter (· ≠ s.slotNo) }
  { s with
    core := { s.core with za0 := drop s.core.za0, za1 := drop s.core.za1 }
    h := { s.h with
      st := .suspended, wait := .none, tpc := s.h.pc, convoy := none
      fresh := s.h.fresh || (match s.h.convoy with | some c => c.anew | none => false) } }

/-- A suspended hart runs again from tpc (R329). -/
def resumeHart (h : Hart) : Hart :=
  { h with st := if h.st = .suspended then .running else h.st, pc := if h.st = .suspended then h.tpc else h.pc
           suspend := false, preempt := false, heat := false }

/-- A hart starts to exit with a code (R328, R329); a transfer it was making is given up with its region. -/
def startExit (s : State) (k : Nat) (code : BitVec 32) : State :=
  let h := s.hartAt k
  let s1 := match h.wait with
    | .key space base size => (match s.entryOf h.kctx space base.toNat size with | some e => s.abandon e | none => s)
    | _ => s
  (s1.leaveQueue (·.ofHart k)).setHart k { h with st := .exiting, wait := .exit code, convoy := none, suspend := false }

/-- A packet written to its queue's next slot (R335). -/
def pushPacket (s : State) (q : Nat) (bytes : List Byte) : State :=
  let d := s.queue q
  let s1 := match physKey (d.base.toNat * 128 + d.tail.toNat % 2 ^ d.log * 128) with | some k => s.homeWrite k bytes | none => s
  s1.setQueue q { d with tail := d.tail + 1 }

/-- Eight-byte pieces of a packet located in ascending order; the first that cannot be for a cause that is not passed over traps. -/
def packetCheck (s : State) (a : Acc) (space : BitVec 16) (pass : BitVec 8 → Bool) (off : Nat) : Nat → Except Trap State
  | 0 => .ok s
  | n + 1 =>
    match s.locate a space off 8 .read true with
    | .error c => if pass c then s.packetCheck a space pass ((off + 8) % 2 ^ 64) n else .error ⟨c, BitVec.ofNat 64 off⟩
    | .ok (_, s1) => s1.packetCheck a space pass ((off + 8) % 2 ^ 64) n

/-- 128 bytes read by the scalar agent, as sixteen loads in ascending order (R335), once the whole read is translated and key-checked. -/
def readPacket (s : State) (space : BitVec 16) (off : Nat) : Nat → Except Trap (List Byte × State)
  | 0 => .ok ([], s)
  | n + 1 =>
    match s.scalarLoad space off 8 with
    | .error t => .error t
    | .ok (v, s1) =>
      match s1.readPacket space ((off + 8) % 2 ^ 64) n with
      | .error t => .error t
      | .ok (l, s2) => .ok (toBytes 8 v ++ l, s2)

end State

/-- `setvl` (R331). -/
def execSetvl (xd xa xb : XReg) (s : State) : Out :=
  let r := (s.x xb).toNat
  if s.h.mode = .d then s.trapWord 0x06
  else if 8 < r then s.trap 0x04 (s.x xb)
  else
    let s1 := if r = 0 then s else ({ s with h := { s.h with req := r } }).entitle s.coreNo
    let s2 := s1.takeLanes.entitle s.coreNo
    if s2.vgrant = 0 then .next (s2.hold (.retry true))
    else s2.awake.wr xd (BitVec.ofNat 64 (min (s.x xa).toNat s2.vlmax))

/-- `vrel` (R332). -/
def execVrel (s : State) : Out :=
  if s.h.mode = .d then s.trapWord 0x06
  else ((({ s with core := s.core.setLanes (s.lanesOf s.cur) none }).entitle s.coreNo).handOut s.coreNo).ok

/-- `yield` (R333). With no count the hart becomes the least recently issued of its core. -/
def execYield (xa : XReg) (s : State) : Out :=
  let n := ((s.x xa).extractLsb' 0 20).toNat
  if s.h.mode = .d then s.trapWord 0x06
  else if n = 0 then ({ s with h := { s.h with lastIssue := -(s.tick : Int) - 1 } }).ok
  else match s.h.wait with
    | .yield _ => s.awake.ok
    | _ => if s.h.hip ∨ s.h.tip then s.ok else .next (s.hold (.yield (s.cycle.toNat + n)))

/-- `exit` (R334, R328). The lines that its agent has written are written back here, before the sweeps of R114, so that one beyond correction is met at
this word (Table 18-1, log 75). -/
def execExit (xa : XReg) (s : State) : Out :=
  if s.h.mode = .d then s.trapWord 0x06
  else .next ((s.sweepL1 (fun l => l.ctx == s.h.kctx && l.agent == s.h.agent) true true).startExit s.cur ((s.x xa).extractLsb' 0 32))

/-- `launch` (R335): the packet's translations come first, then its rights (R10), then poison (R79). -/
def execLaunch (xd xa xb : XReg) (asr : BitVec 2) (imm : BitVec 20) (s : State) : Out :=
  let q := (s.x xb).toNat
  let a := offset (s.x xa) imm
  if s.h.mode = .d then s.trapWord 0x06
  else if 63 < q then s.trap 0x04 (s.x xb)
  else if a % 8 ≠ 0 then s.trap 0x0A (BitVec.ofNat 64 a)
  else match ((s.packetCheck { s.h.acc with bypass := true } (s.h.space asr) (· == 0x09) a 16).bind
      fun t => t.packetCheck t.h.acc (s.h.space asr) (fun _ => false) a 16).bind fun t => t.readPacket (s.h.space asr) a 16 with
    | .error t => .next (s.awake.trapNow t)
    | .ok (bytes, s1) =>
      let d := s1.queue q
      if !d.en ∨ !d.devl ∨ d.owner ≠ s1.h.kctx ∨ packetField (ofBytes bytes) 64 16 ≠ d.owner.toNat then s1.awake.wr xd 2
      else if 2 ^ d.log ≤ d.held then s1.awake.wr xd 1
      else if s1.outstanding false 3 ∨ s1.outstanding true 3 then .next (s.hold (.retry false))
      else (s1.pushPacket q bytes).awake.wr xd 0

/-- YIELD_EXPIRY (R333). -/
def execYieldExpiry (hart : Nat) (s : State) : Out :=
  let t := s.focus hart
  match t.h.st, t.h.wait with
  | .waiting, .yield lim => if t.cycle.toNat < lim then .next s else t.awake.ok
  | _, _ => .next s

/-- SUSPENSION (R326): a hart asked to stop does so at its hinge; one not yet asked is asked now, with its gang. -/
def execSuspension (hart : Nat) (s : State) : Out :=
  let h := s.hartAt hart
  if h.st = .free ∨ h.st = .exiting ∨ h.st = .evicting ∨ h.st = .suspended then .next s
  else if !h.suspend then .next (s.requestStop hart false)
  else if h.atHinge then .next (s.focus hart).suspendNow
  else .next s

/-- HART_RESUME (R329). -/
def execHartResume (hart : Nat) (s : State) : Out :=
  if (s.hartAt hart).st = .suspended then .next (s.setHart hart (State.resumeHart (s.hartAt hart))) else .next s

/-- HART_TERMINATE (R328, R329). -/
def execHartTerminate (hart : Nat) (s : State) : Out :=
  match (s.hartAt hart).st with
  | .running => .next (s.startExit hart 0xFFFF_FFFF)
  | .waiting => .next (s.startExit hart 0xFFFF_FFFF)
  | .suspended => .next (s.startExit hart 0xFFFF_FFFF)
  | _ => .next s

/-- A hart that exits runs no more (Table 16-4): machine checks that are still pending only count for its core (R358, log 75). -/
def exitCheck (u : State) (finish : State → State) : State :=
  let n := u.h.mcheck.length
  let u1 := ({ u with h := { u.h with mcheck := [] } }).countChecks n
  if 0 < n ∧ 3 ≤ u1.core.mchecks.length then u1.failCore u1.coreNo else finish u1

/-- HART_EXIT_COMPLETE (R328, R114): the hart's commands have ended and its writes are performed; its keys are released, and those in transit or
with a request before it once they can be (R111). Then the lines of regions that other nodes home are swept too (R113). -/
def execHartExitComplete (hart : Nat) (s : State) : Out :=
  let t := s.focus hart
  match t.h.st, t.h.wait with
  | .exiting, .exit code =>
    if !t.h.cmds.isEmpty ∨ (t.pend.any fun p => p.hart == hart) then .next s
    else
      let u := t.loseHolders (.exit t.h.kctx t.h.agent)
      let ends (w : State) : State := if w.keyQueue.any (·.exitOf t.h.kctx t.h.agent) then w else w.endHart hart code
      let w := if u.keyQueue.any (·.exitOf t.h.kctx t.h.agent) then u else u.sweepForeign u.coreNo t.h.kctx t.h.agent
      .next (exitCheck w ends)
  | _, _ => .next s

/-- LANE_DEBT_TIMEOUT (R324): a hart that still owes groups 16,384 clocks after its entitlement fell is pre-empted. -/
def execLaneDebtTimeout (hart : Nat) (s : State) : Out :=
  match (s.hartAt hart).debt with
  | some c => if c + 16384 ≤ s.cycle.toNat then .next (s.requestStop hart true) else .next s
  | none => .next s

end Sys2Proof.Machine
end

