-- ==== Sys2Proof/Machine/VectorConvert.lean ====
section
/-! DEFINITION. Major 0x12, conversion (R244 to R246, R217 to R221). -/

namespace Sys2Proof.Machine

/-- A target tag outside the table traps with cause 0x03 (R246). -/
def targetOk (ok : Bool) (ot : Tag) : Except Trap Unit := if ok then .ok () else .error ⟨0x03, zext ot⟩

/-- `vround` (R244): to an integral value of the own format. -/
def elRound (rm : BitVec 3) (t : Tag) (a : Nat) : Nat × Flags :=
  onTag t (a, 0) fun f =>
    match f.decode a with
    | .nan s => (f.canon, if s then fNV else 0)
    | .inf n => (f.infCode n, 0)
    | .fin n m e =>
      let r := roundInt rm n m e
      ((f.round rmRNE false n r.1.natAbs 0 false).1, if r.2 then fNX else 0)

/-- An element of an MX block with its scale code (R220). -/
def elFromMx (rm : BitVec 3) (ot : Tag) (t : Tag) (a c : Nat) : Nat × Flags :=
  match fmtOf t, fmtOf ot with
  | some f, some g =>
    if c = 0xFF then (g.canon, 0)
    else match f.decode a with
      | .fin n m e => floatToFloat g rm false (.fin n m (e + c - 127))
      | x => floatToFloat g rm false x
  | _, _ => (0, 0)

/-- The binary exponent of a nonzero finite value; none otherwise. -/
def Num.log (x : Num) : Option Int := match x with | .fin _ m e => if m = 0 then none else some (Nat.log2 m + e) | _ => none

/-- emax of an MX element format (R221). -/
def mxEmax (t : Tag) : Int := match t.toNat with | 10 => 8 | 11 => 15 | _ => 2

/-- A block of wider values made an MX block (R221): the scale code, the elements, the flags. -/
def mxBlock (rm : BitVec 3) (ot : Tag) (xs : List Num) : Nat × List Nat × Flags :=
  match fmtOf ot with
  | none => (0, [], 0)
  | some g =>
    if xs.any fun x => match x with | .fin _ _ _ => false | _ => true then (0xFF, xs.map fun _ => 0, nvOf xs)
    else match (xs.filterMap Num.log).max? with
      | none => (0x7F, xs.map fun x => g.signBit x.sign, 0)
      | some l =>
        let e := max (-127) (min 127 (l - mxEmax ot))
        let rs := xs.map fun x => match x with
          | .fin n m k => floatToFloat g rm true (.fin n m (k - e))
          | y => floatToFloat g rm true y
        ((e + 127).toNat, rs.map Prod.fst, rs.foldl (fun a r => a ||| r.2) 0)

namespace State

/-- Values appended to a fresh chain one after the other. -/
def appendAll (s : State) (vd : VReg) : List Nat → Except Nat State
  | [] => .ok s
  | v :: vs => match s.append vd v with
    | .error n => .error n
    | .ok t => t.appendAll vd vs

/-- The blocks of `vcvtmx` from block k on (R245): elements first, then the scale; a block the pool cannot hold leaves both chains at
the blocks before it. -/
def mxRun (s : State) (vd vsc : VReg) (rm : BitVec 3) (ot : Tag) (vl last : Nat) (val : Nat → Num) : Nat → Nat → Run
  | 0, k => ⟨s, min (32 * k) vl, none⟩
  | fuel + 1, k =>
    if last ≤ 32 * k then ⟨s, min (32 * k) vl, none⟩
    else
      let b := mxBlock rm ot ((List.range (min 32 (vl - 32 * k))).map fun i => val (32 * k + i))
      match s.appendAll vd b.2.1 with
      | .error n => ⟨s, 32 * k, some n⟩
      | .ok t => match t.append vsc b.1 with
        | .error n => ⟨s, 32 * k, some n⟩
        | .ok u => (u.raise b.2.2).mxRun vd vsc rm ot vl last val fuel (k + 1)

end State

/-- `vcvt` (R244, R218). -/
def execVcvt (vd va xl : BitVec 5) (msk : BitVec 3) (z : Bool) (rm : BitVec 3) (ot : BitVec 4) (s : State) : Out :=
  s.elementwise vd [.chain va] anyTag (fun _ => ot) xl msk z .zero true noExtra (one fun t a => convert t ot rm false a)
/-- `vcvtsat` (R244, R218). -/
def execVcvtsat (vd va xl : BitVec 5) (msk : BitVec 3) (z : Bool) (rm : BitVec 3) (ot : BitVec 4) (s : State) : Out :=
  s.elementwise vd [.chain va] anyTag (fun _ => ot) xl msk z .zero true noExtra (one fun t a => convert t ot rm true a)
/-- `vcvtmx` (R245): two fresh chains, elements and scales. -/
def execVcvtmx (vd va vsc xl : BitVec 5) (rm : BitVec 3) (ot : BitVec 4) (s : State) : Out :=
  let dsts := [vd, vsc]
  let d := s.src dsts va
  let vl := s.x xl
  let n := vl.toNat
  let checks : Except Trap Unit := do
    s.chainsOk dsts [va]
    s.tagsOk dsts [va] isWide
    targetOk (isNarrow ot) ot
    s.lengthOk dsts vl [(va, n)]
  s.orTrap checks fun _ =>
    s.whenFree [vd, vsc] [] fun s1 =>
      let v0 := s1.vstart
      let keep := va == vd || va == vsc
      let kept : Option Desc := if keep then some ((s1.keptOf).getD (s1.h.chain va)) else none
      let have_ := s1.availV va n
      let upTo := max v0 (if n ≤ have_ then n else have_ / 32 * 32)
      let goes := decide (upTo < n) && s1.fillStop
      let stop := if goes then v0 else upTo
      let val (j : Nat) : Num := match fmtOf d.tag with | some f => f.decode (s1.elem d j) | none => .fin false 0 0
      let t0 := (s1.openDest vd ot false (va == vd)).1
      let t := (t0.openDest vsc 5 false (va == vsc)).1
      let r := t.mxRun vd vsc rm ot n stop val 256 (v0 / 32)
      let halt (u : State) (cause : BitVec 8) (tval done need : Nat) (fill : Bool) : Out :=
        .next (u.stopAs ⟨.stopped, cause, u.pos, done, BitVec.ofNat 64 tval, need, kept, [], [], fill,
          [(vd, ot, some n), (vsc, 5, some ((n + 31) / 32))]⟩)
      let chk := r.s.recheck (List.range n) v0 r.done (rowElems ot)
      match chk.2, r.full with
      | some m, _ =>
        let q := (t.recheck (List.range n) v0 r.done (rowElems ot)).1.mxRun vd vsc rm ot n (max v0 m.2) val 256 (v0 / 32)
        halt q.s 0x3F m.1 q.done 0 false
      | none, some k => halt chk.1 0x0C r.done r.done k false
      | none, none =>
        if n ≤ r.done then .next ((match kept with | some k => chk.1.releaseDesc k | none => chk.1).retireV n)
        else halt chk.1 0 0 r.done 0 goes
/-- `vcvtfrommx` (R246, R220). -/
def execVcvtfrommx (vd va vb xl : BitVec 5) (msk : BitVec 3) (_z : Bool) (rm : BitVec 3) (ot : BitVec 4) (s : State) : Out :=
  let d := s.src [vd] va
  let c := s.src [vd] vb
  let vl := s.x xl
  let n := vl.toNat
  let blocks := (n + 31) / 32
  let checks : Except Trap Unit := do
    s.chainsOk [vd] [va, vb]
    s.tagsOk [vd] [va] isNarrow
    s.tagsOk [vd] [vb] (· == 5)
    targetOk (isWide ot) ot
    s.lengthOk [vd] vl [(va, n), (vb, blocks)]
  s.orTrap checks fun _ =>
    s.whenFree [vd] [] fun s1 =>
      s1.produce
        { vd := vd, tag := ot, n := n, inPlace := tagWidth ot == tagWidth d.tag && va == vd, keep := vd == va || vd == vb
          limit := [s1.availV va n, 32 * s1.availV vb blocks].foldl min (s1.availM msk n)
          per := rowElems ot, checks := some msk
          out := fun j =>
            if s1.maskOn msk j then (let r := elFromMx rm ot d.tag (s1.elem d j) (s1.elem c (j / 32)); ⟨r.1, r.2, true⟩)
            else ⟨0, 0, true⟩ }
/-- `vround` (R244). -/
def execVround (vd va xl : BitVec 5) (msk : BitVec 3) (z : Bool) (rm : BitVec 3) (s : State) : Out :=
  s.arith1 vd va xl msk z isWide (elRound rm)

end Sys2Proof.Machine
end

