-- ==== Sys2Proof/Machine/Matrix.lean ====
section
/-! DEFINITION. Major 0x20, the matrix unit (R265 to R277). Cells are 32-bit values by 128 * row + column; an f64 cell takes two of them,
the low word first (R265, R3). Cells and check rows that are not listed are 0. -/

namespace Sys2Proof.Machine

/-- A value kept in a list by key, 0 not listed. -/
def keep0 [DecidableEq α] (z : α) (l : List (Nat × α)) (k : Nat) (v : α) : List (Nat × α) := if v = z then assocDel l k else assocSet l k v

/-- The tag of a kind's cells and of its check rows (R265, R266). -/
def TileKind.tag : TileKind → Tag | .f32 => 14 | .i32 => 3 | .f64 => 15
def TileKind.checkTag : TileKind → Tag | .i32 => 4 | _ => 15
/-- Largest rows or columns of a kind (R265). -/
def TileKind.limit : TileKind → Nat | .f64 => 64 | _ => 128

/-- One cell's bits (R265). -/
def Tile.cell (t : Tile) (i n : Nat) : Nat :=
  match t.kind with
  | .f64 => (assocGet 0 t.cells (128 * i + 2 * n)).toNat + (assocGet 0 t.cells (128 * i + 2 * n + 1)).toNat * 2 ^ 32
  | _ => (assocGet 0 t.cells (128 * i + n)).toNat
def Tile.setCell (t : Tile) (i n v : Nat) : Tile :=
  match t.kind with
  | .f64 => { t with cells := keep0 0 (keep0 0 t.cells (128 * i + 2 * n) (BitVec.ofNat 32 v)) (128 * i + 2 * n + 1) (BitVec.ofNat 32 (v / 2 ^ 32)) }
  | _ => { t with cells := keep0 0 t.cells (128 * i + n) (BitVec.ofNat 32 v) }
/-- A check row (R266). -/
def Tile.check (t : Tile) (i : Nat) : Word × Word := (assocGet 0 t.csum i, assocGet 0 t.asum i)
def Tile.setCheck (t : Tile) (i : Nat) (c a : Word) : Tile := { t with csum := keep0 0 t.csum i c, asum := keep0 0 t.asum i a }
/-- Every cell 0 and every check row (0, 0). -/
def Tile.clear (t : Tile) : Tile := { t with cells := [], csum := [], asum := [] }

/-- A cell's value as a number. -/
def Tile.value (t : Tile) (i n : Nat) : Num :=
  match fmtOf t.kind.tag with
  | some f => f.decode (t.cell i n)
  | none => let v := intOf 3 (t.cell i n); .fin (decide (v < 0)) v.natAbs 0
def Num.abs : Num → Num | .nan s => .nan s | .inf _ => .inf false | .fin _ m e => .fin false m e
/-- An exact sum as f64 by RNE, without flags (R266). -/
def sumF64 (l : List Num) : Word := BitVec.ofNat 64 (fmtF64.deliver rmRNE (sumNums rmRNE l).1).1

/-- The check row of a row as `zload` leaves it. -/
def Tile.rowCheck (t : Tile) (i : Nat) : Word × Word :=
  let row := (List.range t.cols).map (t.value i)
  match t.kind with
  | .i32 => (BitVec.ofInt 64 ((List.range t.cols).foldl (fun a n => a + intOf 3 (t.cell i n)) 0), 0)
  | _ => (sumF64 row, sumF64 (row.map Num.abs))

/-- Row i of a `zload` from its N elements. -/
def Tile.loadRow (t : Tile) (i : Nat) (vals : List Nat) : Tile :=
  let t1 := (List.range t.cols).foldl (fun u n => u.setCell i n (vals.getD n 0)) t
  t1.setCheck i (t1.rowCheck i).1 (t1.rowCheck i).2

/-- Tile kind and group size of a pair of source tags (Table 13-6). -/
def opShape (a b : Tag) : Option (TileKind × Nat) :=
  match a.toNat, b.toNat with
  | 9, 9 => some (.f32, 16)
  | 10, 10 | 10, 11 | 11, 10 | 11, 11 => some (.f32, 8)
  | 1, 1 => some (.i32, 8)
  | 12, 12 | 13, 13 => some (.f32, 4)
  | 14, 14 => some (.f32, 1)
  | 15, 15 => some (.f64, 1)
  | _, _ => none

/-- An element as a number with its scale code; code 0xFF makes it NaN (R220). -/
def scaled (t : Tag) (b : Nat) (c : Option Nat) : Num :=
  let x := match fmtOf t with | some f => f.decode b | none => (let v := intOf t b; .fin (decide (v < 0)) v.natAbs 0)
  match c with
  | none => x
  | some 255 => .nan false
  | some k => match x with | .fin n m e => .fin n m (e + k - 127) | y => y

/-- One group of k applied to the cells and check rows (R275): A by (k, i), B by (k, n), as numbers, with the signalling NaNs among
the elements. -/
def Tile.group (t : Tile) (rm : BitVec 3) (ks : List Nat) (a b : Nat → Nat → Num) (sigA sigB : Nat → Nat → Flags) : Tile × Flags :=
  let cellOf (u : Tile) (i n : Nat) : Nat × Flags :=
    let c := u.value i n
    match fmtOf u.kind.tag with
    | some f =>
      let r := exactSum f rm (ks.map fun k => (let p := Num.mul (a k i) (b k n); (p.1, p.2 ||| sigA k i ||| sigB k n))) c
      (r.1, r.2 ||| nvOf [c])
    | none =>
      let v (x : Num) : Int := match x with | .fin n m _ => signedNat n m | _ => 0
      intWrap 3 (ks.foldl (fun s k => s + v (a k i) * v (b k n)) (v c))
  let cells := (List.range t.rows).foldl (fun (p : Tile × Flags) i =>
    (List.range t.cols).foldl (fun q n => let r := cellOf q.1 i n; (q.1.setCell i n r.1, q.2 ||| r.2)) p) (t, 0)
  let bSum (k : Nat) (f : Num → Num) : Num := (sumNums rmRNE ((List.range t.cols).map fun n => f (b k n))).1
  let sums := ks.map fun k => (k, bSum k id, bSum k Num.abs)
  let check (u : Tile) (i : Nat) : Tile :=
    let old := u.check i
    match u.kind with
    | .i32 =>
      let v (x : Num) : Int := match x with | .fin n m _ => signedNat n m | _ => 0
      let w (x : Num) : Int := match x with | .fin n m e => signedNat n (m * 2 ^ e.toNat) | _ => 0
      u.setCheck i (BitVec.ofInt 64 (sums.foldl (fun s p => s + v (a p.1 i) * w p.2.1) (old.1.toInt))) 0
    | _ =>
      u.setCheck i (sumF64 (fmtF64.decode old.1.toNat :: sums.map fun p => (Num.mul (a p.1 i) p.2.1).1))
        (sumF64 (fmtF64.decode old.2.toNat :: sums.map fun p => (Num.mul (a p.1 i).abs p.2.2).1))
  ((List.range t.rows).foldl check cells.1, cells.2)

/-- The groups from k up to an end, g at a time (R225). -/
def Tile.groups (t : Tile) (rm : BitVec 3) (g stop : Nat) (a b : Nat → Nat → Num) (sigA sigB : Nat → Nat → Flags) : Nat → Nat → Tile × Flags
  | 0, _ => (t, 0)
  | fuel + 1, k =>
    if stop ≤ k then (t, 0)
    else
      let r := t.group rm ((List.range (min g (stop - k))).map (k + ·)) a b sigA sigB
      let q := r.1.groups rm g stop a b sigA sigB fuel (k + g)
      (q.1, r.2 ||| q.2)

/-- A drained value converted (R276, R217 to R219). A value of an i32 tile goes to an integer tag as an integer does: rounded by RM when
the scale left a fraction, then reduced or clamped with WRAP. -/
def drainConvert (kind : TileKind) (ot : Tag) (rm : BitVec 3) (sat : Bool) (x : Num) : Nat × Flags :=
  match fmtOf ot, kind, x with
  | some g, _, _ => floatToFloat g rm sat x
  | none, .i32, .fin n m e =>
    let r := roundInt rm n m e
    let q := if sat then intClamp ot r.1 else intWrap ot r.1
    (q.1, q.2 ||| (if r.2 then fNX else 0))
  | none, _, _ => floatToInt ot rm x

/-- The larger magnitude, NaN cells passed over (R276). -/
def maxAbs (l : List Num) : Option Num :=
  l.foldl (fun a x => if x.isNan then a else match a with | none => some x.abs | some y => if y.lt x.abs then some x.abs else some y) none

namespace State

/-- Tile zd of the core; the encoding has no tile but 0 and 1. -/
def tile (s : State) (zd : BitVec 3) : Tile := if zd = 0 then s.core.za0 else s.core.za1
def setTile (s : State) (zd : BitVec 3) (t : Tile) : State :=
  if zd = 0 then { s with core := { s.core with za0 := t } } else { s with core := { s.core with za1 := t } }
/-- Whether the current hart holds a tile (R267). -/
def holds (s : State) (zd : BitVec 3) : Bool := (s.tile zd).holder == some s.slotNo

/-- Steps 2 and 3 of R273. -/
def tileOk (s : State) (zd : BitVec 3) : Except Trap Unit :=
  if s.h.mode = .d then .error ⟨0x06, s.h.iword⟩ else if s.holds zd then .ok () else .error ⟨0x03, zext zd⟩
/-- Step 4 of R273. -/
def liveSources (s : State) (srcs : List VReg) : Except Trap Unit :=
  match srcs.find? (fun r => (s.src [] r).tag == 0 && s.promised r != some none) with
  | some r => .error ⟨0x05, zext r⟩
  | none => if srcs.any (fun r => s.promised r == some none) then .error waitTrap else .ok ()
/-- Sources whose stopped producers' COUNT is not known are waited for. -/
def surely (s : State) (needs : List (VReg × Nat)) : Except Trap Unit := if needs.any (fun p => s.unsure p.1 p.2) then .error waitTrap else .ok ()
/-- A condition or a cause. -/
def need (ok : Bool) (cause : BitVec 8) (tval : Word) : Except Trap Unit := if ok then .ok () else .error ⟨cause, tval⟩

/-- Accumulation (R275), from k = VSTART. A stopped source lets the whole groups below its stop run (R344). Of scale chains that are not n8 the manual does
not say which is reported: vsa before vsb, after the checks of va and vb, with that chain's tag (log 80). -/
def accumulate (s : State) (zd : BitVec 3) (va vb : VReg) (xk : XReg) (rm : BitVec 3) (scales : Option (VReg × VReg)) : Out :=
  let kw := s.x xk
  let depth := kw.toNat
  let t := s.tile zd
  let a := s.src [] va
  let b := s.src [] vb
  let blocks := (depth + 31) / 32
  let sc := match scales with | some p => [p.1, p.2] | none => []
  let srcs := [va, vb] ++ sc
  let shape := opShape a.tag b.tag
  let mxOk := scales.isNone || isNarrow a.tag
  let checks : Except Trap Unit := do
    s.tileOk zd
    s.liveSources srcs
    need (shape.isSome && mxOk) 0x03 (zext b.tag)
    need (shape.map Prod.fst == some t.kind) 0x03 (zext a.tag)
    match sc.find? fun r => (s.src [] r).tag != 5 with
      | some r => .error ⟨0x03, zext (s.src [] r).tag⟩
      | none => .ok ()
    let needs := [(va, depth * t.rows), (vb, depth * t.cols)] ++ (match scales with | some p => [(p.1, t.rows * blocks), (p.2, t.cols * blocks)] | none => [])
    need (decide (depth ≤ 1024) && needs.all fun p => !s.short [] p.1 p.2) 0x04 kw
    s.surely needs
  s.orTrap checks fun _ =>
    s.whenFree [] [] fun s1 =>
      let g := (shape.map Prod.snd).getD 1
      let whole (r : VReg) (per : Nat) : Nat := match s1.supplyV r with | some n => n.1 / (max per 1) | none => depth
      let block (r : VReg) (per : Nat) : Nat := match s1.supplyV r with | some n => n.1 / (max per 1) * 32 | none => depth
      let have_ := min (min (whole va t.rows) (whole vb t.cols))
        (match scales with | some p => min (block p.1 t.rows) (block p.2 t.cols) | none => depth)
      let v0 := s1.vstart
      let stop := max v0 (if depth ≤ have_ then depth else have_ / g * g)
      let codeA (k i : Nat) : Option Nat := scales.map fun p => s1.elem (s1.src [] p.1) (k / 32 * t.rows + i)
      let codeB (k n : Nat) : Option Nat := scales.map fun p => s1.elem (s1.src [] p.2) (k / 32 * t.cols + n)
      let ea (k i : Nat) : Nat := s1.elem a (k * t.rows + i)
      let eb (k n : Nat) : Nat := s1.elem b (k * t.cols + n)
      let sig (tag : Tag) (e : Nat) (c : Option Nat) : Flags := if c = some 255 then 0 else match fmtOf tag with | some f => nvOf [f.decode e] | none => 0
      let r := t.groups rm g stop (fun k i => scaled a.tag (ea k i) (codeA k i)) (fun k n => scaled b.tag (eb k n) (codeB k n))
        (fun k i => sig a.tag (ea k i) (codeA k i)) (fun k n => sig b.tag (eb k n) (codeB k n)) 1024 v0
      let s2 := (s1.setTile zd r.1).raise r.2
      if depth ≤ stop then .next (s2.retireV depth) else .next (s2.stopV 0 0 stop 0 none [] s.fillStop)

/-- The absolute-maximum word of `zdrain` (R276): alignment, then place and right. -/
def maxWord (s : State) (am : Bool) (space : BitVec 16) (xs : Word) (n : Nat) : Except Trap (Option Place × State) :=
  if !am then .ok (none, s)
  else if xs.toNat % n ≠ 0 then .error ⟨0x0A, xs⟩
  else match s.locate s.h.acc space xs.toNat n .atomic false with
    | .error c => .error ⟨c, xs⟩
    | .ok (pl, s1) => .ok (some pl, s1)

end State

/-- Whether a hart of a slot can take a tile it does not hold: the tile is free, and the hart's request is first in its queue (R274). -/
def Tile.freeFor (t : Tile) (slot : Nat) : Bool := t.holder.isNone && (t.queue.isEmpty || t.queue.head? == some slot)
/-- A hart's request in the queue of a tile. -/
def Tile.enqueue (t : Tile) (slot : Nat) : Tile := { t with queue := if t.queue.contains slot then t.queue else t.queue ++ [slot] }

/-- `zmode` (R274): release, reshape, or wait for a tile in its queue. -/
def execZmode (zd : BitVec 3) (xk : BitVec 5) (s : State) : Out :=
  let w := s.x xk
  let kind := (w.extractLsb' 16 2).toNat
  let n := (w.extractLsb' 8 8).toNat
  let m := (w.extractLsb' 0 8).toNat
  let rel := w.getLsbD 18
  let k : TileKind := match kind with | 0 => .f32 | 1 => .i32 | _ => .f64
  let t := s.tile zd
  if s.h.mode = .d then s.trapWord 0x06
  else if w.extractLsb' 19 45 ≠ 0 ∨ kind = 3 ∨ (rel ∧ w.extractLsb' 0 18 ≠ 0) then s.trap 0x03 w
  else if rel then
    .next (if s.holds zd then s.setTile zd { Tile.empty with queue := t.queue } else s).retireV
  else if m < 1 ∨ k.limit < m ∨ n < 1 ∨ k.limit < n then s.trap 0x04 w
  else if zd = 0 ∧ s.holds 1 ∧ !s.holds 0 then s.trap 0x03 w
  else if s.holds zd ∨ t.freeFor s.slotNo then
    .next (s.awake.setTile zd { t.clear with holder := some s.slotNo, rows := m, cols := n, kind := k, queue := t.queue.filter (· ≠ s.slotNo) }).retireV
  else .next ((s.setTile zd (t.enqueue s.slotNo)).hold (.retry true))
/-- `zzero`. -/
def execZzero (zd : BitVec 3) (s : State) : Out :=
  s.orTrap (s.tileOk zd) fun _ => .next (s.setTile zd (s.tile zd).clear).retireV
/-- `zop` (R275). -/
def execZop (zd : BitVec 3) (va vb xk : BitVec 5) (rm : BitVec 3) (s : State) : Out := s.accumulate zd va vb xk rm none
/-- `zopmx` (R275). -/
def execZopmx (zd : BitVec 3) (va vb xk : BitVec 5) (rm : BitVec 3) (vsa vsb : BitVec 5) (s : State) : Out :=
  s.accumulate zd va vb xk rm (some (vsa, vsb))
/-- `zload`: whole rows; a stopped source lets the rows below its stop be loaded. The tval of a va whose tag is not the tile's is that tag (log 80). -/
def execZload (zd : BitVec 3) (va xk xs : BitVec 5) (s : State) : Out :=
  let t := s.tile zd
  let r := s.x xk
  let row0 := (s.x xs).toNat
  let total := r.toNat * t.cols
  let checks : Except Trap Unit := do
    s.tileOk zd
    s.liveSources [va]
    State.need ((s.src [] va).tag == t.kind.tag) 0x03 (zext (s.src [] va).tag)
    State.need (decide (row0 + r.toNat ≤ t.rows)) 0x04 r
    State.need (!s.short [] va total) 0x04 (BitVec.ofNat 64 total)
    s.surely [(va, total)]
  s.orTrap checks fun _ =>
    s.whenFree [] [] fun s1 =>
      let v0 := s1.vstart / max t.cols 1
      let stop := max v0 (match s1.supplyV va with | some n => min r.toNat (n.1 / max t.cols 1) | none => r.toNat)
      let t1 := ((List.range (stop - v0)).map (v0 + ·)).foldl
        (fun u i => u.loadRow (row0 + i) ((List.range t.cols).map fun n => s1.elem (s1.src [] va) (i * t.cols + n))) t
      let s2 := s1.setTile zd t1
      if r.toNat ≤ stop then .next (s2.retireV total) else .next (s2.stopV 0 0 (stop * t.cols) 0 none [] s.fillStop)
/-- `zdrain` (R276). The tval of a control word that breaks its layout is that word (log 80). -/
def execZdrain (zd : BitVec 3) (vd xk xs : BitVec 5) (rm : BitVec 3) (ot : BitVec 4) (s : State) : Out :=
  let w := s.x xk
  let t := s.tile zd
  let row0 := (w.extractLsb' 0 7).toNat
  let rows := (w.extractLsb' 7 7).toNat + 1
  let e := (w.extractLsb' 14 8).toInt
  let sat := w.getLsbD 22
  let clr := w.getLsbD 23
  let am := w.getLsbD 24
  let wt : Tag := if t.kind = .f64 then 15 else 14
  let checks : Except Trap (Option Place × State) := do
    s.tileOk zd
    State.need (decide (w.extractLsb' 30 34 = 0 ∧ (w.extractLsb' 27 3).toNat ≤ 4)) 0x03 w
    State.need (decide (row0 + rows ≤ t.rows)) 0x04 w
    s.maxWord am (s.h.space (w.extractLsb' 25 2)) (s.x xs) (tagWidth wt / 8)
  s.orTrap checks fun p =>
    p.2.whenFree [vd] [] fun s1 =>
      let x (j : Nat) : Num := match t.value (row0 + j / max t.cols 1) (j % max t.cols 1) with | .fin n m k => .fin n m (k + e) | y => y
      let n := rows * t.cols
      let update (u : State) : State :=
        match p.1, fmtOf wt with
        | some pl, some f =>
          let m := match maxAbs ((List.range n).map x) with | some y => f.deliver rmRUP y | none => (f.canon, 0)
          (u.raise m.2).handOff true u.h.kctx (u.h.space (w.extractLsb' 25 2)) (s.x xs).toNat pl (.fmax wt) (toBytes (tagWidth wt / 8) m.1)
        | _, _ => u
      let wipe (u : State) : State :=
        if clr then
          u.setTile zd ((List.range rows).foldl (fun v r =>
            ((List.range t.cols).foldl (fun q c => q.setCell (row0 + r) c 0) v).setCheck (row0 + r) 0 0) (u.tile zd))
        else u
      s1.produce
        { vd := vd, tag := ot, n := n, inPlace := false, keep := false, limit := n, per := 1, checks := none
          out := fun j => let r := drainConvert t.kind ot rm sat (x j); ⟨r.1, r.2, true⟩
          after := fun u => wipe (update u) }
/-- `zrow`: a row of cells, or a column of check sums. -/
def execZrow (zd : BitVec 3) (vd xs : BitVec 5) (s : State) : Out :=
  let t := s.tile zd
  let k := (s.x xs).toNat
  let checks : Except Trap Unit := do
    s.tileOk zd
    State.need (decide (k < t.rows ∨ k = 128 ∨ k = 129)) 0x04 (s.x xs)
  s.orTrap checks fun _ =>
    s.whenFree [vd] [] fun s1 =>
      let row := decide (k < t.rows)
      let n := if row then t.cols else t.rows
      s1.produce
        { vd := vd, tag := if row then t.kind.tag else t.kind.checkTag, n := n, inPlace := false, keep := false, limit := n, per := 1, checks := none
          out := fun j => ⟨if row then t.cell k j else if k = 128 then (t.check j).1.toNat else (t.check j).2.toNat, 0, true⟩ }
/-- Whether a row disagrees with its check row (R277). -/
def Tile.rowBad (t : Tile) (tol : Num) (i : Nat) : Bool :=
  let c := (t.check i).1
  match t.kind with
  | .i32 => decide ((t.rowCheck i).1.extractLsb' 0 32 ≠ c.extractLsb' 0 32)
  | _ =>
    let r := fmtF64.decode (t.rowCheck i).1.toNat
    let cv := fmtF64.decode c.toNat
    match r, cv with
    | .nan _, _ => true
    | _, .nan _ => true
    | .inf a, .inf b => a != b
    | .inf _, _ => true
    | _, .inf _ => true
    | _, _ => ((Num.mul tol (fmtF64.decode (t.check i).2.toNat)).1).lt (sumNums rmRNE [r, cv.neg]).1.abs
/-- `zchk` (R277). -/
def execZchk (zd md : BitVec 3) (xs : BitVec 5) (s : State) : Out :=
  let t := s.tile zd
  let tol := fmtF64.decode (s.x xs).toNat
  let checks : Except Trap Unit := do
    s.tileOk zd
    State.need (decide (t.kind = .i32) || !(tol.isNan || (tol.sign && !tol.isZero))) 0x04 (s.x xs)
  s.orTrap checks fun _ =>
    s.whenFree [] [md] fun s1 => .next ((s1.setMask md (maskOf (t.rowBad tol) 0 t.rows)).retireV t.rows)

end Sys2Proof.Machine
end

