-- ==== Sys2Proof/Machine/SaveArea.lean ====
section
/-! DEFINITION. Save areas (R350, R351, Tables 17-11 and 17-13): writing and reading the image of a hart, and `hsave` and `hload` (R354,
R355). -/

namespace Sys2Proof.Machine

/-- CRC-32C, reflected, with all ones before and after. -/
def crcByte (c : BitVec 32) (b : Byte) : BitVec 32 :=
  (List.range 8).foldl (fun (v : BitVec 32) _ => if v.getLsbD 0 then (v >>> 1) ^^^ 0x82F6_3B78 else v >>> 1) (c ^^^ b.setWidth 32)
def crc32c (bs : List Byte) : BitVec 32 := ~~~(bs.foldl crcByte (BitVec.allOnes 32))

/-- The header of a save area (Table 17-11). -/
structure SaveHead where
  ctx : BitVec 16
  hartid : BitVec 16
  taskid : BitVec 16
  ls : Bool
  tile0 : Bool
  tile1 : Bool
  rr : Bool
  pfr : Bool
  priv : BitVec 2
  cause : BitVec 8
  used : Nat
  quota : Nat
  pc : Word
  myph : BitVec 16
  slot : Nat
  req : Nat
  deriving DecidableEq, Repr

/-- Its words, with the check word given. -/
def SaveHead.words (h : SaveHead) (check : BitVec 32) : List Word :=
  [BitVec.ofNat 64 (h.taskid.toNat * 2 ^ 32 + h.hartid.toNat * 2 ^ 16 + h.ctx.toNat),
   BitVec.ofNat 64 (h.quota % 4096 * 2 ^ 48 + h.used % 4096 * 2 ^ 32 + h.cause.toNat * 2 ^ 16 + h.priv.toNat * 2 ^ 8 + h.pfr.toNat * 16 + h.rr.toNat * 8
     + h.tile1.toNat * 4 + h.tile0.toNat * 2 + h.ls.toNat),
   h.pc, zext check, BitVec.ofNat 64 (h.req % 16 * 2 ^ 20 + h.slot % 8 * 2 ^ 16 + h.myph.toNat), 0, 0, 0]
/-- The header read back from words 0, 1, 2 and 4. -/
def SaveHead.ofWords (w0 w1 w2 w4 : Word) : SaveHead :=
  { ctx := w0.extractLsb' 0 16, hartid := w0.extractLsb' 16 16, taskid := w0.extractLsb' 32 16
    ls := w1.getLsbD 0, tile0 := w1.getLsbD 1, tile1 := w1.getLsbD 2, rr := w1.getLsbD 3, pfr := w1.getLsbD 4
    priv := w1.extractLsb' 8 2, cause := w1.extractLsb' 16 8, used := (w1.extractLsb' 32 12).toNat, quota := (w1.extractLsb' 48 12).toNat
    pc := w2, myph := w4.extractLsb' 0 16, slot := (w4.extractLsb' 16 3).toNat, req := (w4.extractLsb' 20 4).toNat }

/-- The parts that a header's flags mark present, without the header: offset and length (Table 17-11). -/
def SaveHead.parts (h : SaveHead) : List (Nat × Nat) :=
  [(0x0100, 256), (0x0200, 512), (0x0400, 1280)]
    ++ (if h.rr then [(0x1000, 1088)] else []) ++ (if h.pfr then [(0x1800, 1088)] else [])
    ++ [(0x2000, 7168), (0x3C00, 256), (0x4000, 8192), (0x6000, 16384)]
    ++ (if h.tile0 then [(0x1_0000, 65536)] else []) ++ (if h.tile1 then [(0x2_0000, 65536)] else [])
    ++ (if h.tile0 then [(0x3_0000, 2048)] else []) ++ (if h.tile1 then [(0x3_0800, 2048)] else [])
    ++ [(0x4_0000, 512 * h.used)] ++ (if h.ls then [(0x20_0000, 2 ^ 21)] else [])

/-- The numbers of the saved state registers by slot (Table 17-13). -/
def savedRegs : List Nat :=
  [0x001, 0x010, 0x011, 0x012, 0x013, 0x017, 0x018, 0x020, 0x022, 0x023, 0x024, 0x025, 0x030, 0x031, 0x032, 0x033, 0x040, 0x041, 0x042, 0x050,
   0x051, 0x100, 0x101, 0x102, 0x103, 0x104, 0x105, 0x106, 0x110, 0x111, 0x112]

/-- A link header as a word (Table 08-1) and back. -/
def LinkKind.code : LinkKind → Nat | .data => 1 | .spine => 2 | .pending => 3
def Link.word (k : Link) : Nat := k.kind.code * 2 ^ 30 + k.slot * 2 ^ 27 + k.fresh.toNat * 2 ^ 19 + k.rc * 2 ^ 11 + k.nvalid
def Link.ofWord (w : Word) (slot : Nat) : Link :=
  { kind := (match (w.extractLsb' 30 2).toNat with | 2 => .spine | 3 => .pending | _ => .data), slot := slot
    fresh := w.extractLsb' 19 8, rc := (w.extractLsb' 11 8).toNat, nvalid := (w.extractLsb' 0 9).toNat }

/-- A descriptor read from its five words, its spines renamed (Tables 08-3, 08-4, R351). -/
def Desc.ofWords (l : List Word) (ren : Nat → Nat) : Desc :=
  let hd := l.headD 0
  ⟨hd.extractLsb' 60 4, (hd.extractLsb' 0 21).toNat,
   ((l.drop 1).take (hd.extractLsb' 57 3).toNat).map fun w =>
     ⟨ren (w.extractLsb' 53 11).toNat, (w.extractLsb' 36 17).toNat, (w.extractLsb' 18 18).toNat⟩⟩

/-- A record's entry read back (Table 17-8). -/
def entryOfWords (l : List Word) (ren : Nat → Nat) : Entry :=
  let w := l.headD 0
  { state := (match (w.extractLsb' 62 2).toNat with | 0 => .notIssued | 1 => .stopped | 2 => .done | _ => .abandoned)
    cause := w.extractLsb' 48 8, word := (w.extractLsb' 44 4).toNat, vstart := (w.extractLsb' 0 21).toNat, tval := 0, need := 0
    kept := if w.getLsbD 38 then some (Desc.ofWords (l.drop 11) ren) else none
    dests := [Desc.ofWords (l.drop 1) ren, Desc.ofWords (l.drop 6) ren], seen := [], fill := false
    whole := [] }
/-- A record read back (Table 17-7): its words are to be read again from memory (R347). A record of no word is that of a word that opens a convoy as
it stands. Its fields are taken as they are: an NWORDS above 16, and a HINGE or NEXTPC that is no multiple of 8, which traps where the hart would go on there
(R54; log 71). -/
def recordOfWords (l : List Word) (ren : Nat → Nat) : Convoy :=
  let w1 := l.getD 1 0
  { hinge := l.headD 0, words := List.replicate (w1.extractLsb' 16 5).toNat (.addi 0 0 0), done := w1.extractLsb' 0 16
    nextpc := if w1.getLsbD 32 then some (l.getD 2 0) else none
    entries := ((List.range 8).map fun k => (l.drop (8 + 16 * k)).take 16).filterMap fun e => if e.all (· == 0) then none else some (entryOfWords e ren)
    rcause := w1.extractLsb' 40 8, rword := (w1.extractLsb' 36 4).toNat, tval := l.getD 3 0, stale := true, anew := false, pooled := [] }
/-- A record whose entries take back what in-place scans still need. -/
def Convoy.withSeen (c : Convoy) (seen : List (List Nat)) : Convoy :=
  { c with entries := c.entries.zipIdx.map fun p => { p.1 with seen := seen.getD p.2 [] } }

/-- A ticket from its status word and offset (Table 07-6). -/
def Ticket.ofWords (w off : Word) : Ticket :=
  { state := (match (w.extractLsb' 62 2).toNat with | 0 => .free | 1 => .busy | 2 => .done | _ => .faulted)
    cause := w.extractLsb' 48 8, kind := w.extractLsb' 44 4, target := (w.extractLsb' 32 3).toNat, rows := (w.extractLsb' 0 32).toNat, offset := off }

/-- A tile's cells row by row and its check column, c then a of each row (Table 17-11). -/
def Tile.cellBytes (t : Tile) : List Byte := (List.range 16384).flatMap fun i => toBytes 4 (assocGet 0 t.cells i).toNat
def Tile.checkBytes (t : Tile) : List Byte :=
  (List.range 128).flatMap fun i => toBytes 8 (assocGet 0 t.csum i).toNat ++ toBytes 8 (assocGet 0 t.asum i).toNat

namespace State

/-- Bytes written at physical addresses, block by block, performed at home (R355). -/
def putPhys (s : State) : List (Nat × Nat) → List Byte → State
  | [], _ => s
  | (p, n) :: t, bs => (match physKey p with | some k => s.homeWrite k (bs.take n) | none => s).putPhys t (bs.drop n)
def writePhys (s : State) (p : Nat) (bs : List Byte) : State := s.putPhys (blocksOf p bs.length) bs
/-- Bytes read at physical addresses; outside the windows there is nothing. -/
def readPhys (s : State) (p n : Nat) : List Byte :=
  (blocksOf p n).flatMap fun b => match physKey b.1 with | some k => s.homeRead k b.2 | none => List.replicate b.2 0
/-- Whether every byte of a range is inside the windows and sound. -/
def physSound (s : State) (p n : Nat) : Bool :=
  (blocksOf p n).all fun b => match physKey b.1 with | some k => (s.poisonIn k b.2).isNone | none => false
def physWord (s : State) (p : Nat) : Word := BitVec.ofNat 64 (ofBytes (s.readPhys p 8))
def physWords (s : State) (p n : Nat) : List Word := (List.range n).map fun i => s.physWord (p + 8 * i)

/-- Links charged to the current hart, by ascending id. -/
def ownLinks (s : State) : List (Nat × Link) := s.core.links.filter fun p => p.2.slot == s.slotNo

/-- The links that an image is to hold are read whole, those of their rows that are not fresh: one beyond correction is a machine check for the hart
(Table 18-1). -/
def readLinks (s : State) : State := s.readRows (s.ownLinks.flatMap fun p => s.linkRows p.1)

/-- The bytes of the parts of an image (Table 17-11), in the order of `SaveHead.parts`. -/
def saveBytes (s : State) (h : SaveHead) : List (List Byte) :=
  let rec? (o : Option Convoy) : List (List Byte) := match o with | some c => [wordsBytes (recordWords c)] | none => []
  let links := s.ownLinks
  [wordsBytes ((0 : Word) :: (s.h.xu.toList.drop 1)), wordsBytes (savedRegs.map s.csrValue ++ List.replicate 33 0), wordsBytes (s.h.v.toList.flatMap descWords)]
    ++ rec? s.h.rr ++ rec? s.h.pfr
    ++ [(s.h.m.toList.drop 1).flatMap fun m => toBytes 1024 m.toNat,
        wordsBytes (s.h.tickets.toList.flatMap fun t => [t.word, t.offset]),
        s.homeRead (sdmKey s.coreNo (s.slotNo * 0x2000)) 8192,
        (wordsBytes (links.map fun (p : Nat × Link) => BitVec.ofNat 64 (p.1 * 2 ^ 32 + p.2.word)) ++ List.replicate 16384 0).take 16384]
    ++ (if h.tile0 then [s.core.za0.cellBytes] else []) ++ (if h.tile1 then [s.core.za1.cellBytes] else [])
    ++ (if h.tile0 then [s.core.za0.checkBytes] else []) ++ (if h.tile1 then [s.core.za1.checkBytes] else [])
    ++ [links.flatMap fun p => s.linkBytes p.1 0 512] ++ (if h.ls then [s.homeRead (lsKey s.coreNo 0) (2 ^ 21)] else [])

/-- The header of the current hart's image. -/
def saveHead (s : State) (ls : Bool) (priv : BitVec 2) (cause : BitVec 8) (pc : Word) : SaveHead :=
  { ctx := s.h.kctx, hartid := s.h.hartid, taskid := s.h.taskid, ls := ls
    tile0 := s.core.za0.holder == some s.slotNo, tile1 := s.core.za1.holder == some s.slotNo, rr := s.h.rr.isSome, pfr := s.h.pfr.isSome
    priv := priv, cause := cause, used := s.ownLinks.length, quota := s.h.vquota.toNat, pc := pc, myph := s.h.myph, slot := s.slotNo, req := s.h.req }

/-- What the records of the current hart need of overwritten elements, kept beside an image (log 29). -/
def keepScans (s : State) (base : Nat) (check : BitVec 32) : State :=
  let seen (o : Option Convoy) : List (List Nat) := match o with | some c => c.entries.map (·.seen) | none => []
  let k : SavedScans := ⟨base, check, seen s.h.rr, seen s.h.pfr⟩
  let rest := s.scans.filter fun o => decide (o.base ≠ base)
  { s with scans := if (k.rr ++ k.pfr).all List.isEmpty then rest else k :: rest }

/-- The image written: the parts, then the header with its check word (R350, R354). -/
def writeImage (s : State) (base : Nat) (h : SaveHead) : State :=
  let body := s.saveBytes h
  let check := crc32c (wordsBytes ((h.words 0).take 3) ++ wordsBytes ((h.words 0).drop 4) ++ body.flatten)
  let s1 := ((h.parts.map Prod.fst).zip body).foldl (fun (t : State) (p : Nat × List Byte) => t.writePhys (base + p.1) p.2) s
  (s1.writePhys base (wordsBytes (h.words check))).keepScans base check

/-- The header at a save area, and whether the check word and the storage are good (R355). -/
def readHead (s : State) (base : Nat) : SaveHead :=
  SaveHead.ofWords (s.physWord base) (s.physWord (base + 8)) (s.physWord (base + 16)) (s.physWord (base + 32))
def imageGood (s : State) (base : Nat) (h : SaveHead) : Bool :=
  s.physSound base 64 && h.parts.all (fun p => s.physSound (base + p.1) p.2) &&
    (s.physWord (base + 24)).extractLsb' 0 32 ==
      crc32c (s.readPhys base 24 ++ s.readPhys (base + 32) 32 ++ h.parts.flatMap fun p => s.readPhys (base + p.1) p.2)

/-- The saved links allocated in ascending order of old id, lowest free first (R351): old id, new id, place in the map. -/
def loadLinks (s : State) (base : Nat) (h : SaveHead) : List (Nat × Nat) × State :=
  let words := s.physWords (base + 0x6000) h.used
  let r := words.foldl (fun (a : List (Nat × Nat) × State) w =>
    let k := Link.ofWord w s.slotNo
    let l := a.2.allocLink k.kind
    (a.1 ++ [((w.extractLsb' 32 11).toNat, l.1)], l.2.setLink l.1 k)) ([], s)
  let ren (i : Nat) : Nat := assocGet 0 r.1 i
  let t := (r.1.zipIdx).foldl (fun (t : State) p =>
    let body := s.readPhys (base + 0x4_0000 + 512 * p.2) 512
    let bytes := match t.link p.1.2 with
      | some k => if k.kind = .spine then
          (List.range 256).flatMap fun i =>
            let w := ofBytes ((body.drop (2 * i)).take 2)
            match slotWord w with | some l => toBytes 2 (2 ^ 15 + ren (l % 2 ^ 11)) | none => [0, 0]
        else body
      | none => body
    { t with core := { t.core with pool := memSetN t.core.pool (512 * p.1.2) bytes } }) r.2
  (r.1, t)

/-- A saved tile taken as `zmode` takes it (R351): the other harts' places in its queue stay. -/
def loadTile (s : State) (t : Tile) (base cellsAt checkAt shape kind : Nat) : Tile :=
  { holder := some s.slotNo, rows := shape % 256, cols := shape / 256
    kind := (match kind with | 1 => .i32 | 2 => .f64 | _ => .f32)
    cells := (List.range 16384).filterMap fun i =>
      let v := BitVec.ofNat 32 (ofBytes (s.readPhys (base + cellsAt + 4 * i) 4)); if v = 0 then none else some (i, v)
    csum := (List.range 128).filterMap fun i => let v := s.physWord (base + checkAt + 16 * i); if v = 0 then none else some (i, v)
    asum := (List.range 128).filterMap fun i => let v := s.physWord (base + checkAt + 16 * i + 8); if v = 0 then none else some (i, v)
    queue := t.queue.filter (· ≠ s.slotNo) }

/-- The hart's state registers from their saved words (Table 17-13, R351), reserved bits already cleared. -/
def loadRegs (h : Hart) (r : Nat → Word) : Hart :=
  { h with
    instret := r 0, hartid := (r 1).extractLsb' 0 16, gangid := (r 2).extractLsb' 0 32, ganghart := (r 3).extractLsb' 0 3
    gangsize := (r 4).extractLsb' 0 4, taskid := (r 5).extractLsb' 0 16, gbexp := (r 6).extractLsb' 0 12
    vquota := (r 8).extractLsb' 0 12, vused := ((r 9).extractLsb' 0 12).toNat, vflags := (r 10).extractLsb' 0 6, sflags := (r 11).extractLsb' 0 6
    as := #v[(r 12).extractLsb' 0 16, (r 13).extractLsb' 0 16, (r 14).extractLsb' 0 16, (r 15).extractLsb' 0 16]
    pfh := r 16, pfpc := r 17, pfneed := ((r 18).extractLsb' 32 16).toNat, pfword := ((r 18).extractLsb' 28 4).toNat
    pfvstart := ((r 18).extractLsb' 0 21).toNat
    tvec := r 21, tpc := r 22, cause := (r 23).extractLsb' 0 8, cword := ((r 23).extractLsb' 8 4).toNat, incv := (r 23).getLsbD 12
    newcv := (r 23).getLsbD 13, tval := r 24, hip := (r 25).getLsbD 6, tip := (r 25).getLsbD 5, ie := (r 25).getLsbD 2
    ppriv := (r 25).extractLsb' 0 2, tresOff := (r 26).extractLsb' 6 7, tscratch := r 27, kctx := (r 28).extractLsb' 0 16
    bare := (r 29).getLsbD 63, ptbase := (r 29).extractLsb' 15 29, saBase := (r 30).extractLsb' 22 22 }

/-- The image loaded into the current hart (R351, R355): links, registers (their reserved bits read as zero, R6), chains, masks, tickets, records,
slice and tiles. -/
def loadImage (s : State) (base : Nat) (h : SaveHead) : State :=
  let q := s.loadLinks base h
  let ren (i : Nat) : Nat := assocGet 0 q.1 i
  let t := q.2
  let reg (i : Nat) : Word := s.physWord (base + 0x200 + 8 * i) &&& ((savedRegs[i]?).bind csrBits).getD 0
  let scans := s.scans.find? fun k => k.base == base && k.check == (s.physWord (base + 24)).extractLsb' 0 32
  let seen (f : SavedScans → List (List Nat)) : List (List Nat) := match scans with | some k => f k | none => []
  let record (at_ : Nat) : Convoy := recordOfWords (s.physWords (base + at_) 136) ren
  let h1 := loadRegs t.h reg
  let h2 : Hart := { h1 with
    xu := Vector.ofFn fun i : Fin 32 => if i.val = 0 then 0 else s.physWord (base + 0x100 + 8 * i.val)
    v := Vector.ofFn fun i : Fin 32 => Desc.ofWords (s.physWords (base + 0x400 + 40 * i.val) 5) ren
    m := Vector.ofFn fun i : Fin 8 => if i.val = 0 then 0 else BitVec.ofNat 8192 (ofBytes (s.readPhys (base + 0x2000 + 1024 * (i.val - 1)) 1024))
    tickets := Vector.ofFn fun i : Fin 16 => Ticket.ofWords (s.physWord (base + 0x3C00 + 16 * i.val)) (s.physWord (base + 0x3C00 + 16 * i.val + 8))
    rr := if h.rr then some ((record 0x1000).withSeen (seen (·.rr))) else none
    pfr := if h.pfr then some ((record 0x1800).withSeen (seen (·.pfr))) else none
    myph := h.myph, req := h.req }
  let shape := (reg 19).toNat
  let kinds := (reg 20).toNat
  let core := { t.core with
    za0 := if h.tile0 then s.loadTile t.core.za0 base 0x1_0000 0x3_0000 (shape % 65536) (kinds / 4 % 4) else t.core.za0
    za1 := if h.tile1 then s.loadTile t.core.za1 base 0x2_0000 0x3_0800 (shape / 65536 % 65536) (kinds / 16 % 4) else t.core.za1 }
  ({ t with h := h2, core := core }).homeWrite (sdmKey s.coreNo (s.slotNo * 0x2000)) (s.readPhys (base + 0x4000) 8192)

/-- The local store loaded from an image. -/
def loadStore (s : State) (base : Nat) : State := s.homeWrite (lsKey s.coreNo 0) (s.readPhys (base + 0x20_0000) (2 ^ 21))

/-- What eviction does to the core's caches for a hart (R114): lines of every region it owns or shares, here or at another node's
controller, written back and invalidated, and its key-cache entries removed. -/
def evictCaches (s : State) : State :=
  let a := s.h.agent
  let mine := s.keyring.filter fun e => e.ctx == s.h.kctx && (e.owner == a || e.shares.contains a)
  let s1 := mine.foldl (fun (t : State) e => t.sweepRegion e.ctx e.space e.base e.size true false) s
  s1.sweepForeign s1.coreNo s.h.kctx a

/-- A tile given up (R267). -/
def dropTile (s : State) (t : Tile) : Tile := if t.holder = some s.slotNo then { Tile.empty with queue := t.queue } else t

/-- REL of `hsave` (R354). -/
def releaseAll (s : State) : State :=
  let s1 := (List.finRange 32).foldl (fun (t : State) r => t.releaseReg (BitVec.ofFin r)) s
  let kept (o : Option Convoy) : List Desc := match o with | some c => c.entries.filterMap (·.kept) | none => []
  let s2 := (kept s.h.rr ++ kept s.h.pfr).foldl (fun (t : State) d => t.releaseDesc d) s1
  let strip (o : Option Convoy) : Option Convoy := o.map fun c => { c with entries := c.entries.map fun e => { e with kept := none } }
  let s3 : State := { s2 with
    h := { s2.h with m := Vector.replicate 8 0, tickets := Vector.replicate 16 Ticket.empty, rr := strip s2.h.rr, pfr := strip s2.h.pfr }
    core := { s2.core.setLanes (s2.lanesOf s2.cur) none with za0 := s2.dropTile s2.core.za0, za1 := s2.dropTile s2.core.za1 } }
  ((s3.entitle s3.coreNo).handOut s3.coreNo).evictCaches

/-- The save area's physical base. -/
def saveBase (s : State) : Nat := s.h.saBase.toNat * 2 ^ 22

end State

/-- `hsave` (R354). The saved mode and pc are those that `trapret` would enter (R355). -/
def execHsave (xd xa : XReg) (s : State) : Out :=
  let a := s.x xa
  if s.h.mode ≠ .s then s.trapWord 0x01
  else if a.extractLsb' 2 62 ≠ 0 then s.awake.wr xd 1
  else if !s.h.cmds.isEmpty ∨ s.core.reclaim.any (fun q => q.owner == s.cur) then .next (s.hold (.retry false))
  else
    let s1 := s.awake.returnLinks.readLinks
    let s2 := s1.writeImage s1.saveBase (s1.saveHead (a.getLsbD 0) s1.h.ppriv s1.h.cause s1.h.tpc)
    (if a.getLsbD 1 then s2.releaseAll else s2).wr xd 0

/-- `hload` (R355). It waits for a tile in the tile's queue as `zmode` does (R351); the grant becomes the saved one as far as groups are free. -/
def execHload (xd xa : XReg) (s : State) : Out :=
  let a := s.x xa
  let base := s.saveBase
  let h := s.readHead base
  let tiles := [s.core.za0, s.core.za1]
  if s.h.mode ≠ .s then s.trapWord 0x01
  else if a.extractLsb' 2 62 ≠ 0 ∨ s.h.vused ≠ 0 ∨ tiles.any (fun t => t.holder == some s.slotNo) ∨ s.h.tickets.toList.any (fun t => t.state != .free) then
    s.awake.wr xd 1
  else if !s.imageGood base h ∨ h.ctx ≠ s.h.kctx then s.awake.wr xd 2
  else if h.quota < h.used ∨ s.freeLinks < h.used then s.awake.wr xd 3
  else if (h.tile0 ∧ !s.core.za0.freeFor s.slotNo) ∨ (h.tile1 ∧ !s.core.za1.freeFor s.slotNo) then
    let wish (need : Bool) (t : Tile) : Tile := if need then t.enqueue s.slotNo else t
    .next ({ s with core := { s.core with za0 := wish h.tile0 s.core.za0, za1 := wish h.tile1 s.core.za1 } }.hold (.retry false))
  else
    let grant := ((s.physWord (base + 0x238)).extractLsb' 0 4).toNat
    let s1 := s.awake.loadImage base h
    let s2 := if a.getLsbD 0 ∧ h.ls then s1.loadStore base else s1
    let s3 : State := { s2 with h := { s2.h with mode := .s, ppriv := h.priv } }
    let held := s3.lanesOf s3.cur
    let lanes : Core := if grant < held.length then s3.core.setLanes (held.drop grant) none
      else s3.core.setLanes (s3.core.freeLanes.take (grant - held.length)) (some s3.slotNo)
    let s4 : State := { s3 with core := lanes }
    ((s4.entitle s4.coreNo).handOut s4.coreNo).wr xd 0

end Sys2Proof.Machine
end

