-- ==== Sys2Proof/Machine/Launches.lean ====
section
/-! DEFINITION. The launch sequencer (R313 to R322) with eviction and restoration (R327, R351): the packets of the queues, the launch
table, the order of waiting gangs, placement and pre-emption. -/

namespace Sys2Proof.Machine

/-- The launch a packet describes (Table 16-2). -/
def launchOf (id queue p : Nat) : Launch :=
  let nargs := packetField p 124 4
  { id := id, queue := queue
    ctx := BitVec.ofNat 16 (packetField p 64 16), task := BitVec.ofNat 16 (packetField p 80 16), entry := BitVec.ofNat 64 (packetField p 0 64)
    gang := packetField p 96 4, lanes := packetField p 100 4, quota := packetField p 104 12, prio := packetField p 116 3
    diemask := BitVec.ofNat 4 (packetField p 120 4), args := (List.range nargs).map fun i => BitVec.ofNat 64 (packetField p (512 + 64 * i) 64)
    ngangs := packetField p 128 32, gspace := BitVec.ofNat 16 (packetField p 160 16), comp := BitVec.ofNat 64 (packetField p 192 64)
    dep0addr := BitVec.ofNat 64 (packetField p 256 64), dep0val := BitVec.ofNat 64 (packetField p 320 64)
    dep1addr := BitVec.ofNat 64 (packetField p 384 64), dep1val := BitVec.ofNat 64 (packetField p 448 64)
    ready := none, placed := 0, exited := 0, maxcode := 0 }

/-- The n-subsets of a list in order of their members, the first that passes a test (R319). -/
def firstSet (test : List α → Bool) : List α → List α → Nat → Option (List α)
  | acc, _, 0 => if test acc then some acc else none
  | _, [], _ + 1 => none
  | acc, g :: t, n + 1 =>
    match firstSet test (acc ++ [g]) t n with
    | some r => some r
    | none => firstSet test acc t (n + 1)

/-- Placed before another in a list that a relation orders. -/
def insertBy (before : α → α → Bool) (v : α) : List α → List α
  | [] => [v]
  | w :: t => if before v w then v :: w :: t else w :: insertBy before v t
def sortBy (before : α → α → Bool) (l : List α) : List α := l.foldl (fun a v => insertBy before v a) []

/-- Lexicographic order of lists of numbers. -/
def lexLt : List Nat → List Nat → Bool
  | [], b => !b.isEmpty
  | _ :: _, [] => false
  | x :: a, y :: b => if x < y then true else if y < x then false else lexLt a b

/-- A gang that waits (R318): its order, and either the launch it is the next gang of or the evicted gang. -/
structure Bid where
  prio : Nat
  key : List Nat
  launch : Launch
  evicted : Option Waiting
  deriving DecidableEq, Repr

/-- Where a gang goes: core and slot of each member. -/
abbrev Seats := List (Nat × Nat)

namespace State

/-- An address that a dependence or completion word needs: it translates to an AT page (R315). -/
def onAtPage (s : State) (ctx space : BitVec 16) (off : Nat) : Bool :=
  match s.devicePlace ctx space off noAgent false true .aread with | .ok p => p.at_ | .error _ => false

/-- R315: whether the sequencer refuses a packet of a queue. -/
def refusesPacket (s : State) (q : Queue) (p : Nat) : Bool :=
  let l := launchOf 0 0 p
  packetField p 176 16 != 0 || packetField p 119 1 != 0
    || l.entry.toNat % 8 != 0 || l.ctx != q.owner
    || l.gang == 0 || decide (8 < l.gang) || l.lanes == 0 || decide (8 < l.lanes) || l.quota == 0 || decide (2048 < l.quota)
    || l.ngangs == 0 || decide (8 < packetField p 124 4) || decide (65536 < l.ngangs * l.gang)
    || l.comp.toNat % 8 != 0 || l.dep0addr.toNat % 8 != 0 || l.dep1addr.toNat % 8 != 0
    || (l.comp != 0 && !(s.onAtPage l.ctx l.gspace l.comp.toNat && s.onAtPage l.ctx l.gspace (l.comp + 8).toNat))
    || (l.dep0val != 0 && !s.onAtPage l.ctx l.gspace l.dep0addr.toNat)
    || (l.dep1val != 0 && !s.onAtPage l.ctx l.gspace l.dep1addr.toNat)

/-- A dependence word at its threshold (R316). -/
def depMet (s : State) (l : Launch) (addr val : Word) : Bool :=
  val == 0 || (match s.devicePlace l.ctx l.gspace addr.toNat noAgent false true .aread with
    | .ok p =>
      let v := match p.node with
        | some n => ofBytes (s.remoteRead n l.gspace addr.toNat 8)
        | none => ofBytes (s.homeRead p.key 8)
      p.at_ && (s.poisonTrap p l.gspace addr.toNat 8).isNone && decide (val.toNat ≤ v)
    | .error _ => false)

/-- Effective priority after a time of waiting (R317). -/
def effPrio (s : State) (base since : Nat) : Nat := if 6 ≤ base then base else min 6 (base + (s.nanos - since) / 1000000)

/-- Every waiting gang that may be next, in the order of R318; of a launch, its next gang number. -/
def bids (s : State) : List Bid :=
  let fresh := s.launches.filterMap fun l => match l.ready with
    | some r => if l.placed < l.ngangs then some ⟨s.effPrio l.prio r, [r, l.queue, l.placed], l, none⟩ else none
    | none => none
  let back := s.waiting.filterMap fun w => (s.launches.find? fun l => l.id == w.gang.launch).map fun l =>
    (⟨s.effPrio w.gang.prio w.since, [w.since, l.queue, w.gang.number], l, some w⟩ : Bid)
  sortBy (fun a b => decide (b.prio < a.prio) || (a.prio == b.prio && lexLt a.key b.key)) (fresh ++ back)

/-- The harts of a core that count when some are about to leave it. -/
def staying (s : State) (n : Nat) (gone : List Nat) : List Nat := (s.slotsOf n).filter fun i => !gone.contains (8 * n + i)
/-- Free slots and free lane groups of a core, the leaving harts' among them. -/
def openSlots (s : State) (n : Nat) (gone : List Nat) : List Nat := (List.range 8).filter fun i => !(s.staying n gone).contains i
def openLanes (s : State) (n : Nat) (gone : List Nat) : Nat :=
  (List.range 8).countP fun g => match (s.coreAt n).lanes[g]? with
    | some (some i) => gone.contains (8 * n + i)
    | some none => true
    | none => false

/-- Whether a core can take a member (R320). -/
def coreTakes (s : State) (n : Nat) (l : Launch) (quota : Nat) (gone : List Nat) : Bool :=
  let stay := s.staying n gone
  !(s.coreAt n).failed && !(s.openSlots n gone).isEmpty && stay.all (fun i => (s.hartAt (8 * n + i)).kctx == l.ctx)
    && decide (quota + (stay.map fun i => (s.hartAt (8 * n + i)).vquota.toNat).sum ≤ 2048)
    && (l.diemask == 0 || l.diemask.getLsbD (n / 24))

/-- The cluster with the largest score, the lowest number on a tie (R321). -/
def bestCluster (l : List (Nat × Nat × Seats)) : Option Seats :=
  (sortBy (fun a b => decide (b.2.1 < a.2.1) || (a.2.1 == b.2.1 && decide (a.1 < b.1))) l).head?.map fun c => c.2.2

/-- The cores a new gang takes (R320, R321), its members in ascending core number, each at its core's lowest free slot. -/
def seatsFor (s : State) (l : Launch) (gone : List Nat) : Option Seats :=
  bestCluster ((List.range 12).filterMap fun c =>
    let able := ((List.range 8).map (8 * c + ·)).filter fun n => s.coreTakes n l l.quota gone
    if able.length < l.gang then none
    else
      let best := (sortBy (fun a b => decide (s.openLanes b gone < s.openLanes a gone) || (s.openLanes a gone == s.openLanes b gone && decide (a < b))) able).take l.gang
      let cores := sortBy (fun a b => decide (a < b)) best
      some (c, (cores.map fun n => s.openLanes n gone).sum, cores.map fun n => (n, (s.openSlots n gone).headD 0)))

/-- Whether a core can take an evicted member back (R321, R351): a tile it needs is free, and no hart waits for it (R274). -/
def coreTakesBack (s : State) (n : Nat) (l : Launch) (e : Evicted) (gone : List Nat) : Bool :=
  let away (t : Tile) : Bool := (t.holder.toList ++ t.queue).all fun i => gone.contains (8 * n + i)
  s.coreTakes n l e.quota gone && (s.openSlots n gone).contains (e.slot % 8) && decide (e.grant ≤ s.openLanes n gone)
    && (!e.tile0 || away (s.coreAt n).za0) && (!e.tile1 || away (s.coreAt n).za1) && (e.lsSaved || n == e.slot / 8)

/-- The cores an evicted gang takes back (R321). -/
def seatsBack (s : State) (l : Launch) (w : Waiting) (gone : List Nat) : Option Seats :=
  bestCluster ((List.range 12).filterMap fun c =>
    let seats := w.members.map fun e => (8 * c + e.slot / 8 % 8, e.slot % 8)
    if (w.members.zip seats).all fun p => s.coreTakesBack p.2.1 l p.1 gone then
      some (c, (seats.map fun p => s.openLanes p.1 gone).sum, seats)
    else none)
def seats (s : State) (b : Bid) (gone : List Nat) : Option Seats :=
  match b.evicted with | none => s.seatsFor b.launch gone | some w => s.seatsBack b.launch w gone

/-- R319: the fewest gangs of run priority two below or less whose leaving makes room, beside those already on their way and those already
suspended, at whatever priority; they are pre-empted, and with them the fewest of the suspended ones of those priorities that the room needs (log 48). -/
def preemptFor (s : State) (b : Bid) : State :=
  let asked (g : Gang) : Bool := g.members.any fun k => (s.hartAt k).preempt || (s.hartAt k).st == .evicting
  let rests (g : Gang) : Bool := g.members.all fun k => (s.hartAt k).st == .suspended
  let leaving := s.gangs.filter fun g => asked g || (rests g && decide (b.prio < g.prio + 2))
  let order := sortBy (fun a g : Gang => decide (a.prio < g.prio) || (a.prio == g.prio && decide (g.placedAt < a.placedAt)))
    (s.gangs.filter fun g => decide (g.prio + 2 ≤ b.prio) && !leaving.contains g)
  let still := order.filter rests
  let running := order.filter fun g => !still.contains g
  let makesRoom (l : List Gang) : Bool := (s.seats b ((leaving ++ l).flatMap (·.members))).isSome
  let fewest (test : List Gang → Bool) (from_ : List Gang) : Option (List Gang) :=
    (List.range (from_.length + 1)).findSome? fun n => firstSet test [] from_ n
  match fewest (fun l => makesRoom (still ++ l)) running with
  | some l => (l ++ (fewest (fun k => makesRoom (k ++ l)) still).getD []).foldl (fun t g => match g.members with | k :: _ => t.requestStop k true | [] => t) s
  | none => s

/-- A hart reserved for a member of a gang (R312, R322): every register at its reset value but its numbers, quota, request, and what Guesk set for
its context (log 16). -/
def newHart (s : State) (l : Launch) (g : Gang) (i : Nat) : Hart :=
  let c := s.ctxRegs l.ctx
  let hid : BitVec 16 := BitVec.ofNat 16 (g.number * l.gang + i)
  { Hart.reset with
    st := .starting, hartid := hid, gangid := BitVec.ofNat 32 g.number, ganghart := BitVec.ofNat 3 i, gangsize := BitVec.ofNat 4 l.gang
    taskid := l.task, gbexp := BitVec.ofNat 12 l.gang, vquota := BitVec.ofNat 12 l.quota, req := l.lanes, prio := g.prio, gang := some g.id
    kctx := l.ctx, tvec := c.tvec, bare := c.bare, ptbase := c.ptbase, saBase := c.saBase + hid.setWidth 22 }

/-- A device with a hart placed is ON (Table 18-8). -/
def powerOn (s : State) : State := { s with power := if s.power = .idle then .on else s.power, idleSince := none }

/-- The next gang of a launch placed (R312, R321). -/
def placeGang (s : State) (b : Bid) (at_ : Seats) : State :=
  let l := b.launch
  let slots := at_.map fun p => 8 * p.1 + p.2
  let g : Gang := ⟨s.nextId, l.id, l.placed, slots, 0, 0, 0, b.prio, s.tick⟩
  let s1 : State := { s with
    nextId := s.nextId + 1, gangs := s.gangs ++ [g]
    launches := s.launches.map fun x => if x.id = l.id then { x with placed := x.placed + 1 } else x }
  let s2 := slots.zipIdx.foldl (fun (t : State) p => t.setHart p.1 (s.newHart l g p.2)) s1
  (at_.foldl (fun (t : State) p => t.entitle p.1) s2).powerOn

/-- n bytes of a core's memories written with zeros. -/
def zeroed (s : State) (key n : Nat) : State :=
  { s with mem := memClear s.mem key n, poison := s.poison.filter fun p => decide (p < key ∨ key + n ≤ p) }
/-- A core's local store written with zeros when the core's previous harts belonged to another context than the one that is to start there (R322). -/
def readyStore (s : State) (n : Nat) (ctx : BitVec 16) : State :=
  if (s.coreAt n).lastCtx = some ctx then s
  else
    let t := s.zeroed (lsKey n 0) (2 ^ 21)
    t.setCore n { t.coreAt n with lastCtx := some ctx }

/-- An evicted gang placed again at an effective priority, its run priority from now on (R317), its members' images loaded (R321, R351), each
into a local store that no other context has left anything in (R322). -/
def restoreGang (s : State) (w : Waiting) (prio : Nat) (at_ : Seats) : State :=
  let slots := at_.map fun p => 8 * p.1 + p.2
  let g : Gang := { w.gang with members := slots, prio := prio, placedAt := s.tick }
  let s1 : State := { s with gangs := s.gangs ++ [g], waiting := s.waiting.filter fun x => decide (x.gang.id ≠ w.gang.id) }
  let s2 := (w.members.zip slots).foldl (fun (t : State) p =>
    let u := t.focus p.2
    let u1 : State := { u with
      h := { Hart.reset with st := .starting, saBase := p.1.saBase, prio := prio, gang := some g.id, restoring := true }
      core := u.core.setLanes (u.core.freeLanes.take p.1.grant) (some u.slotNo) }
    let head := u1.readHead u1.saveBase
    let u2 := u1.loadImage u1.saveBase head
    let u3 : State := { u2 with h := { u2.h with mode := modeOf head.priv, pc := head.pc, fresh := p.1.fresh, mcheck := p.1.mcheck, mheld := p.1.mheld } }
    let u4 := u3.readyStore u3.coreNo u3.h.kctx
    if head.ls then u4.loadStore u4.saveBase else u4) s1
  (at_.foldl (fun (t : State) p => t.entitle p.1) s2).powerOn

/-- Whether every member of a gang is in a state. -/
def allIn (s : State) (g : Gang) (st : RunState) : Bool := g.members.all fun k => (s.hartAt k).st == st

end State

/-- LAUNCH_DOORBELL (R313, R360). -/
def execLaunchDoorbell (who queue tail : Nat) (s : State) : Out :=
  if 64 ≤ queue then .next s else .next (s.outsideWrite (whoOf who) (0x2000 + 16 * queue) (BitVec.ofNat 64 tail) 0)

/-- LAUNCH_PACKET_ADMIT (R315, R316): the head of a queue is judged and enters the table, or is dropped. -/
def execLaunchPacketAdmit (queue : Nat) (s : State) : Out :=
  let q := s.queue queue
  if !q.en ∨ q.held = 0 ∨ 256 ≤ s.launches.length ∨ 64 ≤ queue then .next s
  else
    let at_ := q.base.toNat * 128 + q.head.toNat % 2 ^ q.log * 128
    let p := ofBytes (s.readPhys at_ 128)
    if s.physSound at_ 128 ∧ s.launches.any fun l => l.task.toNat == packetField p 80 16 then .next s
    else if !s.physSound at_ 128 ∨ s.refusesPacket q p then .next (s.setQueue queue { q with head := q.head + 1, err := true })
    else .next { s.setQueue queue { q with head := q.head + 1 } with nextId := s.nextId + 1, launches := s.launches ++ [launchOf s.nextId queue p] }

/-- LAUNCH_READY (R316). -/
def execLaunchReady (k : Nat) (s : State) : Out :=
  match s.launches[k]? with
  | some l =>
    if l.ready = none ∧ s.depMet l l.dep0addr l.dep0val ∧ s.depMet l l.dep1addr l.dep1val then
      .next { s with launches := s.launches.set k { l with ready := some s.nanos } }
    else .next s
  | none => .next s

/-- PRIORITY_AGING (R317): the effective priority is a function of `time` (`effPrio`), so nothing has to be stored when it rises. -/
def execPriorityAging (_k : Nat) (s : State) : Out := .next s

/-- GANG_PLACEMENT (R318 to R321): the first waiting gang is placed, or room is made for it. -/
def execGangPlacement (s : State) : Out :=
  match s.bids.head? with
  | none => .next s
  | some b => match s.seats b [] with
    | none => .next (s.preemptFor b)
    | some at_ => if b.evicted.isSome then .next s else .next (s.placeGang b at_)

/-- GANG_RESTORE (R321, R351). -/
def execGangRestore (s : State) : Out :=
  match s.bids.head? with
  | none => .next s
  | some b => match b.evicted, s.seats b [] with
    | some w, some at_ => .next (s.restoreGang w b.prio at_)
    | _, _ => .next s

/-- HART_START (R322, Table 16-3): the state is written, memories of the core cleared, and the hart runs. The local stores of all its gang's cores are
cleared when the first member starts. -/
def execHartStart (hart : Nat) (s : State) : Out :=
  let t := s.focus hart
  if t.h.st ≠ .starting then .next s
  else
    if t.h.restoring then .next { t with h := { t.h with st := .running, restoring := false } }
    else
      let cores := match s.gangOf t.h with | some g => g.members.map (· / 8) | none => [t.coreNo]
      let t2 := (cores.foldl (fun (u : State) n => u.readyStore n t.h.kctx) t).zeroed (sdmKey t.coreNo (t.slotNo * 0x2000)) 0x2000
      match (s.gangOf t.h).bind fun g => s.launches.find? fun l => l.id == g.launch with
      | none => .next s
      | some l =>
        let x2 : Word := BitVec.ofNat 64 (0x0100_0000 + t.slotNo * 0x2000 + 0x2000)
        let xu := Vector.ofFn fun i : Fin 32 => if i.val = 2 then x2 else if 10 ≤ i.val then l.args.getD (i.val - 10) 0 else 0
        .next { t2 with h := { t2.h with st := .running, pc := l.entry, xu := xu } }

/-- EVICTION (R327 steps 1 to 4): the members' commands have ended and their links are back; their images are written, and the
local store of a core that only they and harts already on their way out still hold. A row or a dirty line beyond correction that this meets is a machine
check that the hart takes when it runs again (log 75). -/
def execEviction (gang : Nat) (s : State) : Out :=
  match s.gangs.find? fun g => g.id == gang with
  | none => .next s
  | some g =>
    let ready (k : Nat) : Bool :=
      let t := s.focus k
      t.h.cmds.isEmpty && !(t.core.reclaim.any fun q => q.owner == k) && !(t.pend.any fun p => p.hart == k)
    if g.members.isEmpty ∨ !s.allIn g .suspended ∨ !g.members.all ready then .next s
    else .next (g.members.foldl (fun (t : State) k =>
      let u := (t.focus k).returnLinks.evictCaches.readLinks
      let alone := (u.slotsOf u.coreNo).all fun i =>
        let k := 8 * u.coreNo + i
        g.members.contains k || (u.hartAt k).st == .evicting || (u.hartAt k).st == .exiting
      let u1 := u.writeImage u.saveBase (u.saveHead alone (BitVec.ofNat 2 u.h.mode.code) (if u.h.preempt then 0x20 else 0) u.h.tpc)
      { u1 with h := { u1.h with st := .evicting } }) s)

/-- EVICTION_COMPLETE (R327 step 5): slots, lane groups, tiles and quotas are freed; the gang waits (R318). -/
def execEvictionComplete (gang : Nat) (s : State) : Out :=
  match s.gangs.find? fun g => g.id == gang with
  | none => .next s
  | some g =>
    if g.members.isEmpty ∨ !s.allIn g .evicting then .next s
    else
      let saved (k : Nat) : Evicted :=
        let t := s.focus k
        let head := t.readHead t.saveBase
        ⟨k, t.h.hartid, t.h.saBase, t.vgrant, head.ls, t.h.vquota.toNat, head.tile0, head.tile1, t.h.fresh, t.h.mcheck, t.h.mheld⟩
      let s1 := g.members.foldl (fun (t : State) k => t.freeHart k) s
      .next { s1 with
        gangs := s1.gangs.filter fun x => decide (x.id ≠ g.id)
        waiting := s1.waiting ++ [⟨g, s.nanos, g.members.map saved⟩] }

end Sys2Proof.Machine
end

