-- ==== Sys2Proof/Machine/Device.lean ====
section
/-! DEFINITION. The device around its cores: frame indirection (R94, R95), the seat and the control window (R359 to R362), snapshots
(R365), requests of hosts and of other nodes (R23, R363, R385), scrubbing (R356, R357), boot and attestation (R366, R367), power
(R368). -/

namespace Sys2Proof.Machine

/-- Counters of uncorrectable errors stand 32 rows above those of corrected ones (log 13). -/
def correctedCount (row unit : Nat) : Nat := row * 1024 + unit
def uncorrectedCount (row unit : Nat) : Nat := (row + 32) * 1024 + unit

/-- Who makes a request from outside, and where: context, space, agent, whether it is a host (R385) and whether it needs no key (R100). -/
structure Origin where
  ctx : BitVec 16
  space : BitVec 16
  agent : BitVec 32
  host : Bool
  bypass : Bool
  deriving DecidableEq, Repr

namespace State

/-- The pieces of an outside access with their places, or the first that is refused. -/
def outsidePlaces (s : State) (o : Origin) (kind : Kind) : List (Nat × Nat) → Except (BitVec 8 × Nat) (List (Nat × Nat × Place))
  | [] => .ok []
  | (off, n) :: t =>
    match s.devicePlace o.ctx o.space off o.agent o.host o.bypass kind with
    | .error c => .error (c, off)
    | .ok p => (s.outsidePlaces o kind t).map fun l => (off, n, p) :: l

/-- Bytes from outside written at home, in ascending order; no core's cache takes part (R281, R385). -/
def outsidePut (s : State) (o : Origin) : List (Nat × Nat × Place) → List Byte → State
  | [], _ => s
  | (off, n, pl) :: t, bs =>
    let s1 := match pl.node with
      | some nd => { s with remote := s.remote ++ [(⟨nd, o.ctx, o.space, off, o.agent, .put, bs.take n⟩ : RemoteWrite)] }
      | none => s.homeWrite pl.key (bs.take n)
    s1.outsidePut o t (bs.drop n)

/-- An access that reaches the device from outside, checked at home and performed there: its reply (R23, R86, R363, R385). -/
def outsideAt (s : State) (o : Origin) (kind : Kind) (off n : Nat) (go : List (Nat × Nat × Place) → State) : State :=
  if o.space = 0 ∨ 0xFF00 ≤ o.space.toNat then s.reply o.agent 0x08 off []
  else match s.outsidePlaces o kind (blocksOf off n) with
    | .error f => s.reply o.agent f.1 f.2 []
    | .ok l => go l
/-- A read of n bytes from outside. -/
def outsideGet (s : State) (o : Origin) (off n : Nat) : State :=
  s.outsideAt o .read off n fun l => match s.engineRead o.space [] l with
    | .error f => s.reply o.agent f.cause f.off []
    | .ok bs => s.reply o.agent 0 off bs
/-- A write from outside. -/
def outsideSet (s : State) (o : Origin) (off : Nat) (data : List Byte) : State :=
  s.outsideAt o .write off data.length fun l => (s.outsidePut o l data).reply o.agent 0 off []
/-- One location changed in one step for another node: an element of a scatter-add or a drain's maximum, or an atomic (R86, R291). A poisoned
unit refuses an atomic, and discards an element (R78, R79); a page that names a third node is not passed on (log 60). -/
def outsideChange (s : State) (o : Origin) (kind : Kind) (off n : Nat) (go : State → Place → State) (poisoned : Bool) : State :=
  if off % max 1 n ≠ 0 then s.reply o.agent 0x0A off []
  else s.outsideAt o kind off n fun l => match l with
    | (_, _, pl) :: _ =>
      match pl.node, (if poisoned then s.poisonIn pl.key n else none) with
      | some _, _ => s.reply o.agent 0x08 off []
      | none, some p => s.reply o.agent 0x0B (off + p - pl.key) []
      | none, none => go s pl
    | [] => s
/-- An element's operation. -/
def outsideOp (s : State) (o : Origin) (off : Nat) (op : WriteOp) (data : List Byte) : State :=
  s.outsideChange o .atomic off data.length (fun t pl => (t.homeWrite pl.key (applyOp op (t.homeRead pl.key data.length) data)).reply o.agent 0 off []) false
/-- An atomic of another node's hart: what it read goes back (R291). -/
def outsideAtomic (s : State) (o : Origin) (off : Nat) (op : AtomOp) (w : Bool) (v c : Word) : State :=
  let n := if w then 8 else 4
  s.outsideChange o (atomKind op) off n (fun t pl =>
    let m := ofBytes (t.homeRead pl.key n)
    let t1 := match atomNew op n (v.toNat % 2 ^ (8 * n)) (c.toNat % 2 ^ (8 * n)) m with | some x => t.atomWrite op pl n x o.ctx o.agent none | none => t
    t1.reply o.agent 0 off (toBytes n m)) true

/-- The controller here that homes an offset for a requester of another node (R101, R119): the tables of its context are read at home, and
beside it stands whether the page needs no key. No die when the leaf names another node in turn. -/
def outsideDie (s : State) (o : Origin) (off : Nat) : Except (BitVec 8) (Option Nat × Bool) :=
  if o.space = 0 ∨ 0xFF00 ≤ o.space.toNat then .error 0x08
  else match s.walk ⟨o.ctx, o.agent, false, false, (s.ctxRegs o.ctx).ptbase⟩ o.space off [] with
    | .error c => .error c
    | .ok (e, _) =>
      if e.node ≠ Config.nodeId then .ok (none, e.im || e.at_)
      else match physKey (e.frame + off % e.size) with
        | none => .error 0x08
        | some k => .ok (some (stackDie (keyStack k)), e.im || e.at_)

/-- A key request of another node judged (Table 05-6), `ksplit` and `kmerge` after they have found the home of the upper half, whose page is
not asked whether it needs a key; a cause comes with the offset that failed. -/
def outsideJudge (s : State) (a : Asker) (o : Origin) (op : KeyOp) (r : Region) (die : Nat) : Except (BitVec 8 × Nat) Verdict :=
  let up := (r.base + 2 ^ (r.size - 1)) % 2 ^ 64
  match op with
  | .split => match s.outsideDie o up with | .ok (d, _) => .ok (s.judgeSplit a r d) | .error c => .error (c, up)
  | .merge => match s.outsideDie o up with | .ok (d, _) => .ok (s.judgeMerge a r d) | .error c => .error (c, up)
  | op => .ok (s.judge a op r die)

/-- The status of a key request goes back to its issuer (R102). -/
def keyReply (s : State) (o : Origin) (off n : Nat) : State := s.reply o.agent 0 off (toBytes 8 n)

/-- A key request that reaches its home controller from another node (R111, R113). It is judged like a hart's; a request that would change an
entry in transit waits its turn; a granted transfer leaves the region in transit until its issuer has made the steps of its own core and
says so (`keyDone`, R108 step 5). -/
def outsideKey (s : State) (o : Origin) (me : KeyWaiter) (off : Nat) (sup : Bool) (op : KeyOp) (size : Nat) (task : BitVec 16) : State :=
  let gone : State := s.leaveQueue (· == me)
  let wait : State := { s with keyQueue := if s.keyQueue.contains me then s.keyQueue else s.keyQueue ++ [me] }
  match s.outsideDie o off with
  | .error c => gone.reply o.agent c off []
  | .ok (none, _) => gone.reply o.agent 0x08 off []
  | .ok (some die, free) =>
    let r : Region := ⟨o.space, off, size, some die⟩
    if op = .query then gone.reply o.agent 0 off (toBytes 8 (match s.entryAt o.ctx o.space off with
        | some e => queryWord (some e) o.agent
        | none => s.foreignWord ⟨o.ctx, o.agent, false, false, (s.ctxRegs o.ctx).ptbase⟩ o.space off true).toNat)
    else if size < 16 ∨ 40 < size ∨ off % 2 ^ size ≠ 0 then gone.reply o.agent 0x0A off []
    else if free then gone.reply o.agent 0x09 off []
    else match s.outsideJudge ⟨o.ctx, o.agent, task, sup⟩ o op r die with
      | .error f => gone.reply o.agent f.1 f.2 []
      | .ok .refuse => gone.reply o.agent 0x09 off []
      | .ok (.status n) => gone.keyReply o off n
      | .ok (.again t) => (t.leaveQueue (· == me)).keyReply o off 0
      | .ok (.change n t) => if s.requestHeld me o.ctx r then wait else (t.leaveQueue (· == me)).keyReply o off n
      | .ok (.transfer _ e) =>
        if s.requestHeld me o.ctx r then wait else ((s.putEntry { e with transit := true, issuer := o.agent }).leaveQueue (· == me)).keyReply o off 0

/-- The end of another node's transfer (R108 step 5). -/
def outsideDone (s : State) (o : Origin) (off : Nat) (op : KeyOp) (size : Nat) : State :=
  let row (t : Transfer) : State := match s.entryOf o.ctx o.space off size with
    | some e => if e.transit ∧ e.issuer = o.agent then s.transferRow o.agent t e else s
    | none => s
  (match op with
   | .lend c => row (.lend c)
   | .share c => row (.share c)
   | .ret => row .ret
   | .drop => row .drop
   | .unshare => row .unshare
   | _ => s).keyReply o off 0

/-- The upper half of a region whose base another node homes: its entry made here (`ksplit`), or taken away when it can be joined
(`kmerge`), with its POISON in the answer (R103, log 60). No entry is made that would overlap one (R101). -/
def outsideHalf (s : State) (o : Origin) (me : KeyWaiter) (off size : Nat) (lender : BitVec 32) (put : Option Bool) : State :=
  let gone : State := s.leaveQueue (· == me)
  match s.outsideDie o off with
  | .error c => gone.reply o.agent c off []
  | .ok (none, _) => gone.reply o.agent 0x08 off []
  | .ok (some die, _) =>
    let r : Region := ⟨o.space, off, size, some die⟩
    if s.requestHeld me o.ctx r then { s with keyQueue := if s.keyQueue.contains me then s.keyQueue else s.keyQueue ++ [me] }
    else match put with
      | some poison =>
        if !(s.overlapping o.ctx o.space off size).isEmpty then gone.reply o.agent 0x09 off []
        else if 32768 ≤ s.ringUsed die then gone.keyReply o off 3
        else ((s.putEntry { KeyEntry.new ⟨o.ctx, o.agent, 0, false⟩ r die with lender := lender, poison := poison }).leaveQueue (· == me)).keyReply o off 0
      | none => match s.entryOf o.ctx o.space off size with
        | some e =>
          if e.state = .owned ∧ e.owner = o.agent ∧ e.lender = lender then ((s.delEntry e).leaveQueue (· == me)).keyReply o off e.poison.toNat
          else gone.reply o.agent 0x09 off []
        | none => gone.reply o.agent 0x09 off []

/-- Everything that the reset leaves as it is: storage, the board's image and fuses, and the model's own fields (R366, R367). -/
def rebooted (s : State) : State :=
  { State.reset with
    mem := s.mem, poison := s.poison, image := s.image, fwctr := s.fwctr, attctr := s.attctr, bootCount := s.bootCount + 1
    remote := s.remote, replies := s.replies, nextId := s.nextId, tick := s.tick, inputs := s.inputs }

/-- Every hart changed. -/
def mapHarts (s : State) (f : Hart → Hart) : State := s.placed.foldl (fun t k => t.setHart k (f (t.hartAt k))) s

/-- The values a snapshot latches (R365, log 13): per core `cycle`, per slot pc and `instret`, every counter. -/
def snapshot (s : State) (clock : Nat) : List (Nat × Word) :=
  let cores := (List.range 96).map fun n => (n, BitVec.ofNat 64 clock)
  let pcs := s.placed.map fun k => (1024 + k, (s.hartAt k).pc)
  let rets := s.placed.map fun k => (2048 + k, (s.hartAt k).instret)
  cores ++ pcs ++ rets ++ s.counters.map fun c => (65536 + c.1, BitVec.ofNat 64 c.2)

end State

/-- FRAME_COPY_START (R95). -/
def execFrameCopyStart (stack index src dst : Nat) (s : State) : Out :=
  if 12 ≤ stack ∨ 256 ≤ index then .next s
  else .next (s.frameWrite stack index (BitVec.ofNat 64 (2 ^ 62 + dst % 2 ^ 24 * 2 ^ 32 + src % 2 ^ 24)))
/-- FRAME_COPY_END (R95). -/
def execFrameCopyEnd (stack index : Nat) (s : State) : Out := .next (s.frameEnd stack index)
/-- FRAME_ENTRY_FREE (R95). -/
def execFrameEntryFree (stack index : Nat) (s : State) : Out :=
  if 12 ≤ stack ∨ 256 ≤ index then .next s else .next (s.frameWrite stack index 0)

/-- A write of the seat register by a host: an operation and a target (R361). -/
def seatOp (s : State) (node : Nat) (op target : Nat) : State :=
  s.outsideWrite (.host (BitVec.ofNat 16 node)) 0x1000 (BitVec.ofNat 64 (target % 2 ^ 16 * 2 ^ 16 + op)) 0
/-- SEAT_CLAIM (R362). -/
def execSeatClaim (node : Nat) (s : State) : Out := .next (seatOp s node 1 0)
/-- SEAT_OFFER (R362). -/
def execSeatOffer (node target : Nat) (s : State) : Out := .next (seatOp s node 2 target)
/-- SEAT_ACCEPT (R362). -/
def execSeatAccept (node : Nat) (s : State) : Out := .next (seatOp s node 3 0)
/-- SEAT_RELEASE (R362). -/
def execSeatRelease (node : Nat) (s : State) : Out := .next (seatOp s node 4 0)
/-- SEAT_CLEAR (R362). -/
def execSeatClear (s : State) : Out := .next (s.outsideWrite .smbus 0x1000 5 0)
/-- SEAT_REFUSED_OP (R361): an operation that is no operation changes nothing and has status 1; another is not this step's. -/
def execSeatRefusedOp (node op : Nat) (s : State) : Out :=
  if op = 0 ∨ op = 6 ∨ op = 7 then .next (seatOp s node op 0) else .next s

/-- WINDOW_WRITE (R360). -/
def execWindowWrite (who off : Nat) (v : Word) (s : State) : Out := .next (s.outsideWrite (whoOf who) (off / 8 * 8) v v)

/-- SNAPSHOT_TRIGGER (R365): a write through the window, which a device in BOOTFAIL does not take (R366). -/
def execSnapshotTrigger (s : State) : Out := .next (if s.boot = .bootfail then s else s.snapTrigger)
/-- SNAPSHOT_LATCH (R365): at the scheduled clock. -/
def execSnapshotLatch (s : State) : Out :=
  match s.snapAt with
  | some c => if s.cycle.toNat < c then .next s else .next { s with latched := s.snapshot c, snapAt := none }
  | none => .next s
/-- SNAPSHOT_LANDED (R365): every latch has landed and BUSY returns to 0. -/
def execSnapshotLanded (s : State) : Out := if s.snapAt.isNone then .next { s with busy := false } else .next s

/-- ATTESTATION_NONCE (R367): the seat holder's write of the nonce. -/
def execAttestationNonce (node : Nat) (nonce : Word) (s : State) : Out :=
  .next (s.outsideWrite (.host (BitVec.ofNat 16 node)) 0x60000 nonce 0)

/-- HOST_ACCESS (R385): a host acts under its node's host agent number; of a read, `data` gives the length alone. A device in IDLE leaves it
(Table 18-8). -/
def execHostAccess (node ctx space off : Nat) (write : Bool) (data : List Byte) (s : State) : Out :=
  if s.boot = .bootfail then .next s
  else
    let o : Origin := ⟨BitVec.ofNat 16 ctx, BitVec.ofNat 16 space, BitVec.ofNat 32 (node % 65536 * 65536 + 0xFFFF), true, false⟩
    .next (if write then s.powerOn.outsideSet o off data else s.powerOn.outsideGet o off data.length)
/-- FABRIC_REQUEST (R363): a request of another node's agent, served at home under its context and agent number (R86). -/
def execFabricRequest (agent ctx space off : Nat) (sup : Bool) (op : FabricOp) (s : State) : Out :=
  if s.boot = .bootfail then .next s
  else
    let t := s.powerOn
    let o : Origin := ⟨BitVec.ofNat 16 ctx, BitVec.ofNat 16 space, BitVec.ofNat 32 agent, false, sup⟩
    let me := KeyWaiter.node agent ctx space off sup op
    .next (match op with
      | .read n => t.outsideGet o off n
      | .write data => t.outsideSet o off data
      | .add tag data => t.outsideOp o off (.add tag) data
      | .fmax tag data => t.outsideOp o off (.fmax tag) data
      | .atomic a w v c => t.outsideAtomic o off a w v c
      | .key k size task => t.outsideKey o me off sup k size task
      | .keyDone k size => t.outsideDone o off k size
      | .halfPut size lender poison => t.outsideHalf o me off size lender (some poison)
      | .halfTake size lender => t.outsideHalf o me off size lender none
      | .exits => ((t.leaveQueue fun w => w.ofNode fun c a => c == o.ctx && a == o.agent).loseHolders (.exit o.ctx o.agent)).keyReply o off 0
      | .coreFails who => ((t.leaveQueue fun w => (w.ofNode fun c a => who.contains (c, a)) || who.any fun a => w.exitOf a.1 a.2).loseHolders (.core who)).keyReply o off 0
      | .dropShare size => (t.dropHolder o.ctx o.space off size [o.agent]).keyReply o off 0
      | .purge size => (t.purgeRegion o.ctx o.space off size).keyReply o off 0)

/-- A port changed. -/
def withPort (s : State) (n : Nat) (f : Port → Port) : State :=
  { s with ports := Vector.ofFn fun i : Fin 16 => if i.val = n then f s.ports[i] else s.ports[i] }
/-- FLIT_REPLAY (R363): after 8 consecutive replays the port retrains; a good flit in between, which may have passed, starts the count again
(log 51). -/
def execFlitReplay (port : Nat) (s : State) : Out :=
  .next (withPort s port fun p =>
    let n := if Config.goodFlit port s.tick then 0 else p.replays
    if p.retraining then p else if 7 ≤ n then ⟨0, true⟩ else ⟨n + 1, false⟩)
/-- PORT_RETRAIN_DONE (R363). -/
def execPortRetrainDone (port : Nat) (s : State) : Out := .next (withPort s port fun p => if p.retraining then ⟨0, false⟩ else p)

/-- NODE_UNREACHABLE (R363, R113): keys of its agents follow the failure rows, its waiting key requests go, and it loses the seat. -/
def execNodeUnreachable (node : Nat) (s : State) : Out :=
  let n : BitVec 16 := BitVec.ofNat 16 node
  if n = Config.nodeId ∨ s.unreachable.contains n then .next s
  else
    let there (a : BitVec 32) : Bool := a.extractLsb' 16 16 == n
    let t : State := { s with unreachable := n :: s.unreachable }
    .next (((t.leaveQueue fun w => (w.ofNode fun _ a => there a) || (match w with | .event (.exit _ a) _ _ _ _ => there a | _ => false)).loseHolders (.node n)).seatRelease n)
/-- NODE_READMISSION (R363). -/
def execNodeReadmission (node : Nat) (s : State) : Out :=
  .next { s with unreachable := s.unreachable.filter fun n => decide (n ≠ BitVec.ofNat 16 node) }

/-- STACK_SCRUB (R357): finding 0 is a sound sector, 1 a corrected one, more an uncorrectable one, which is poisoned. -/
def execStackScrub (sector finding : Nat) (s : State) : Out :=
  let k := sector * 32
  if 12 * 2 ^ 36 ≤ k ∨ finding = 0 then .next s
  else if finding = 1 then .next (s.count (correctedCount 0 (keyStack k)))
  else .next { s.count (uncorrectedCount 0 (keyStack k)) with poison := if s.poison.contains k then s.poison else k :: s.poison }

/-- A row of a core's link pool found beyond correction: it stays so for its reader (Table 18-1). -/
def State.spoilRow (s : State) (core row : Nat) : State :=
  let c := s.coreAt core
  s.setCore core { c with badRows := if c.badRows.contains row then c.badRows else row :: c.badRows }
/-- A unit of storage poisoned by its key. -/
def State.spoilUnit (s : State) (k : Nat) : State := { s with poison := if s.poison.contains k then s.poison else k :: s.poison }

/-- CORE_SCRUB (R357): rows below 16,384 are the pool's (link id × 8 + row), the others the local store's; a finding above 1 names the
8-byte word of the row as finding − 2. -/
def execCoreScrub (core row finding : Nat) (s : State) : Out :=
  if 96 ≤ core ∨ finding = 0 ∨ 49152 ≤ row then .next s
  else if finding = 1 then .next (s.count (correctedCount (if row < 16384 then 3 else 2) core))
  else if row < 16384 then .next ((s.count (uncorrectedCount 3 core)).spoilRow core row)
  else .next ((s.count (uncorrectedCount 2 core)).spoilUnit (lsKey core ((row - 16384) * 64 + (finding - 2) % 8 * 8)))

/-- The core whose memories hold a key above the HBM storage. -/
def coreOfKey (k : Nat) : Nat := if k < sdmBase then (k - lsBase) / 2 ^ 21 else (k - sdmBase) / 2 ^ 16

/-- AN ERROR OF THE HARDWARE (R356, R358, Table 18-1), an arrival of the model's own (log 59): what is corrected or dropped is counted, and what
is beyond correction has the outcome of its structure. -/
def State.strike (s : State) (x : Strike) : State :=
  let counted (row unit : Nat) : State := s.count (if x.double then uncorrectedCount row unit else correctedCount row unit)
  match x.what with
  | .cached sector =>
    let k := sector * 32
    if 12 * 2 ^ 36 ≤ k then s
    else if x.double then (counted 1 (keyStack k)).spoilUnit k else counted 1 (keyStack k)
  | .word key =>
    let k := key / 8 * 8
    if k < lsBase ∨ 96 ≤ coreOfKey k then s
    else if x.double then (counted 2 (coreOfKey k)).spoilUnit k else counted 2 (coreOfKey k)
  | .poolRow core row =>
    if 96 ≤ core ∨ 16384 ≤ row then s
    else if x.double then (counted 3 core).spoilRow core row else counted 3 core
  | .line core key =>
    let hit (l : L1Line) : Bool := l.key == key / 64 * 64
    if 96 ≤ core then s
    else if x.double then
      let t := counted 4 core
      let c := t.coreAt core
      t.setCore core { c with l1 := (c.l1.filter fun l => !(hit l && !l.dirty)).map fun l => if hit l then { l with bad := true } else l }
    else counted 4 core
  | .fetched core key =>
    if 96 ≤ core then s
    else
      let t := s.count (correctedCount 5 core)
      let c := t.coreAt core
      t.setCore core { c with icache := c.icache.filter fun l => decide (l.key ≠ key / 64 * 64) }
  | .translated core index =>
    if 96 ≤ core then s
    else let t := s.count (correctedCount 5 core); t.setCore core { t.coreAt core with tlb := (t.coreAt core).tlb.eraseIdx index }
  | .walked cluster index =>
    if 12 ≤ cluster then s
    else { s.count (correctedCount 5 (8 * cluster)) with walkers := assocSet s.walkers cluster ((s.walkerOf cluster).eraseIdx index) }
  | .granted core index =>
    if 96 ≤ core then s
    else let t := s.count (correctedCount 5 core); t.setCore core { t.coreAt core with keys := (t.coreAt core).keys.eraseIdx index }
  | .tables core => if 96 ≤ core then s else if x.double then (counted 6 core).failCore core else counted 6 core
  | .ring index =>
    match s.keyring[index]? with
    | none => s
    | some e => if x.double then (counted 7 e.die).loseEntry e else counted 7 e.die

/-- DEVICE_RESET (R366 steps 1 and 2): the reset itself, then the image is verified against FWCTR and measured. -/
def execDeviceReset (s : State) : Out :=
  if s.boot = .verify ∧ s.power ≠ .off then
    if Config.signatureGood s.image s.fwctr ∧ s.fwctr ≤ Config.keyIndex s.image then
      .next { s with boot := .zeroing, meas256 := Config.measurement s.image, fwctr := Config.keyIndex s.image }
    else .next { s with boot := .bootfail }
  else .next { s.rebooted with boot := .verify }

/-- HBM_ZEROING_DONE (R366 steps 3 and 4). -/
def execHbmZeroingDone (s : State) : Out :=
  if s.boot ≠ .zeroing then .next s
  else
    let s1 : State := { s with mem := memClear s.mem 0 lsBase, poison := s.poison.filter fun p => decide (lsBase ≤ p), boot := .loading }
    .next (s1.writePhys 0 s1.image)

/-- GUESK_START (R366 step 5). -/
def execGueskStart (s : State) : Out :=
  if s.boot ≠ .loading then .next s
  else
    let entry := s.physWord 0
    let t := s.focus 0
    if (s.physWord entry.toNat).getLsbD 63 then
      .next { t with boot := .running, h := { Hart.reset with st := .running, mode := .s, pc := entry }, core := { t.core with lastCtx := some 0 } }
    else .next { t.failCore 0 with boot := .bootfail }

/-- POWER_CAP_CHECK (R368): the measured power, and whether issue is withheld. -/
def execPowerCapCheck (watts : Nat) (s : State) : Out :=
  .next { s with meas := BitVec.ofNat 20 watts, capped := decide (s.cap.toNat < watts) }
/-- THERMAL_THROTTLE (R368). -/
def execThermalThrottle (s : State) : Out := .next { s with throttle := true }
/-- THERMAL_SUSPEND (R368): every hart is asked to stop at its next hinge. -/
def execThermalSuspend (s : State) : Out :=
  .next ({ s with therm := true, throttle := true }.mapHarts fun h => if h.suspend then h else { h with suspend := true, heat := true })
/-- THERMAL_RESUME (R368). -/
def execThermalResume (s : State) : Out :=
  .next ({ s with throttle := false }.mapHarts fun h =>
    if !h.heat then h else if h.preempt then { h with heat := false } else State.resumeHart h)

/-- IDLE_ENTRY (R368, Table 18-8). -/
def execIdleEntry (s : State) : Out :=
  match s.idleSince with
  | some t => if s.power = .on ∧ s.placed = [] ∧ t + 10000000 ≤ s.nanos then .next { s with power := .idle } else .next s
  | none => .next s
/-- IDLE_EXIT (R368). -/
def execIdleExit (s : State) : Out := .next { s with power := if s.power = .idle then .on else s.power, idleSince := none }
/-- POWER_OFF (R368). -/
def execPowerOff (s : State) : Out := .next { s with power := .off }

end Sys2Proof.Machine
end

