-- ==== Sys2Proof/Machine/Immediate.lean ====
section
/-! DEFINITION. Major 0x02, immediates, constants and addresses (R301, Table 15-3). -/

namespace Sys2Proof.Machine

/-- `addi` (R301). Sum with a signed immediate. -/
def execAddi (xd xa : XReg) (imm : BitVec 32) (s : State) : Out :=
  let a := s.x xa
  s.wr xd (a + sext imm)

/-- `andi` (R301). And with an unsigned immediate. -/
def execAndi (xd xa : XReg) (imm : BitVec 32) (s : State) : Out :=
  let a := s.x xa
  s.wr xd (a &&& zext imm)

/-- `ori` (R301). Or with an unsigned immediate. -/
def execOri (xd xa : XReg) (imm : BitVec 32) (s : State) : Out :=
  let a := s.x xa
  s.wr xd (a ||| zext imm)

/-- `xori` (R301). Exclusive or with an unsigned immediate. -/
def execXori (xd xa : XReg) (imm : BitVec 32) (s : State) : Out :=
  let a := s.x xa
  s.wr xd (a ^^^ zext imm)

/-- `shli` (R301). Shift left. -/
def execShli (xd xa : XReg) (imm : BitVec 32) (s : State) : Out :=
  let a := s.x xa
  s.wr xd (a <<< amount (zext imm))

/-- `shri` (R301). Logical shift right. -/
def execShri (xd xa : XReg) (imm : BitVec 32) (s : State) : Out :=
  let a := s.x xa
  s.wr xd (a >>> amount (zext imm))

/-- `srai` (R301). Arithmetic shift right. -/
def execSrai (xd xa : XReg) (imm : BitVec 32) (s : State) : Out :=
  let a := s.x xa
  s.wr xd (a.sshiftRight (amount (zext imm)))

/-- `slti` (R301). Set when less, signed. -/
def execSlti (xd xa : XReg) (imm : BitVec 32) (s : State) : Out :=
  let a := s.x xa
  s.wr xd (ofBit (a.slt (sext imm)))

/-- `sltni` (R301). Set when less, unsigned. -/
def execSltni (xd xa : XReg) (imm : BitVec 32) (s : State) : Out :=
  let a := s.x xa
  s.wr xd (ofBit (a.ult (sext imm)))

/-- `seqi` (R301). Set when equal. -/
def execSeqi (xd xa : XReg) (imm : BitVec 32) (s : State) : Out :=
  let a := s.x xa
  s.wr xd (ofBit (a == sext imm))

/-- `muli` (R301). Low half of the product. -/
def execMuli (xd xa : XReg) (imm : BitVec 32) (s : State) : Out :=
  let a := s.x xa
  s.wr xd (a * sext imm)

/-- `ldi` (R301). -/
def execLdi (xd : XReg) (imm : BitVec 32) (s : State) : Out := s.wr xd (sext imm)

/-- `ldhi` (R301). The high half; the low half of xd is kept. -/
def execLdhi (xd : XReg) (imm : BitVec 32) (s : State) : Out := s.wr xd (imm ++ (s.x xd).extractLsb' 0 32)

/-- `pcadd` (R301). The address of the word itself and a signed immediate. -/
def execPcadd (xd : XReg) (imm : BitVec 32) (s : State) : Out := s.wr xd (s.h.pc + sext imm)

end Sys2Proof.Machine
end

