-- ==== Sys2Proof/Machine/Integer.lean ====
section
/-! DEFINITION. Major 0x01, the integer instructions (R300, Table 15-2). No flag is set and no memory is accessed (R299). -/

namespace Sys2Proof.Machine

/-- `add` (R300). Sum. -/
def execAdd (xd xa xb : XReg) (s : State) : Out :=
  let a := s.x xa
  let b := s.x xb
  s.wr xd (a + b)

/-- `sub` (R300). Difference. -/
def execSub (xd xa xb : XReg) (s : State) : Out :=
  let a := s.x xa
  let b := s.x xb
  s.wr xd (a - b)

/-- `mul` (R300). Low half of the product. -/
def execMul (xd xa xb : XReg) (s : State) : Out :=
  let a := s.x xa
  let b := s.x xb
  s.wr xd (a * b)

/-- `mulh` (R300). High half of the signed product. -/
def execMulh (xd xa xb : XReg) (s : State) : Out :=
  let a := s.x xa
  let b := s.x xb
  s.wr xd (mulHigh a b)

/-- `mulhn` (R300). High half of the unsigned product. -/
def execMulhn (xd xa xb : XReg) (s : State) : Out :=
  let a := s.x xa
  let b := s.x xb
  s.wr xd (mulHighU a b)

/-- `div` (R300). Signed quotient. -/
def execDiv (xd xa xb : XReg) (s : State) : Out :=
  let a := s.x xa
  let b := s.x xb
  s.wr xd (divS a b)

/-- `divn` (R300). Unsigned quotient. -/
def execDivn (xd xa xb : XReg) (s : State) : Out :=
  let a := s.x xa
  let b := s.x xb
  s.wr xd (divU a b)

/-- `rem` (R300). Signed remainder. -/
def execRem (xd xa xb : XReg) (s : State) : Out :=
  let a := s.x xa
  let b := s.x xb
  s.wr xd (remS a b)

/-- `remn` (R300). Unsigned remainder. -/
def execRemn (xd xa xb : XReg) (s : State) : Out :=
  let a := s.x xa
  let b := s.x xb
  s.wr xd (remU a b)

/-- `and` (R300). Bitwise and. -/
def execAnd (xd xa xb : XReg) (s : State) : Out :=
  let a := s.x xa
  let b := s.x xb
  s.wr xd (a &&& b)

/-- `or` (R300). Bitwise or. -/
def execOr (xd xa xb : XReg) (s : State) : Out :=
  let a := s.x xa
  let b := s.x xb
  s.wr xd (a ||| b)

/-- `xor` (R300). Exclusive or. -/
def execXor (xd xa xb : XReg) (s : State) : Out :=
  let a := s.x xa
  let b := s.x xb
  s.wr xd (a ^^^ b)

/-- `andn` (R300). And with the complement. -/
def execAndn (xd xa xb : XReg) (s : State) : Out :=
  let a := s.x xa
  let b := s.x xb
  s.wr xd (a &&& ~~~b)

/-- `shl` (R300). Shift left. -/
def execShl (xd xa xb : XReg) (s : State) : Out :=
  let a := s.x xa
  let b := s.x xb
  s.wr xd (a <<< amount b)

/-- `shr` (R300). Logical shift right. -/
def execShr (xd xa xb : XReg) (s : State) : Out :=
  let a := s.x xa
  let b := s.x xb
  s.wr xd (a >>> amount b)

/-- `sra` (R300). Arithmetic shift right. -/
def execSra (xd xa xb : XReg) (s : State) : Out :=
  let a := s.x xa
  let b := s.x xb
  s.wr xd (a.sshiftRight (amount b))

/-- `rotl` (R300). Rotate left. -/
def execRotl (xd xa xb : XReg) (s : State) : Out :=
  let a := s.x xa
  let b := s.x xb
  s.wr xd (a.rotateLeft (amount b))

/-- `rotr` (R300). Rotate right. -/
def execRotr (xd xa xb : XReg) (s : State) : Out :=
  let a := s.x xa
  let b := s.x xb
  s.wr xd (a.rotateRight (amount b))

/-- `min` (R300). Smaller, signed. -/
def execMin (xd xa xb : XReg) (s : State) : Out :=
  let a := s.x xa
  let b := s.x xb
  s.wr xd (if a.slt b then a else b)

/-- `max` (R300). Larger, signed. -/
def execMax (xd xa xb : XReg) (s : State) : Out :=
  let a := s.x xa
  let b := s.x xb
  s.wr xd (if a.slt b then b else a)

/-- `minn` (R300). Smaller, unsigned. -/
def execMinn (xd xa xb : XReg) (s : State) : Out :=
  let a := s.x xa
  let b := s.x xb
  s.wr xd (if a.ult b then a else b)

/-- `maxn` (R300). Larger, unsigned. -/
def execMaxn (xd xa xb : XReg) (s : State) : Out :=
  let a := s.x xa
  let b := s.x xb
  s.wr xd (if a.ult b then b else a)

/-- `slt` (R300). Set when less, signed. -/
def execSlt (xd xa xb : XReg) (s : State) : Out :=
  let a := s.x xa
  let b := s.x xb
  s.wr xd (ofBit (a.slt b))

/-- `sltn` (R300). Set when less, unsigned. -/
def execSltn (xd xa xb : XReg) (s : State) : Out :=
  let a := s.x xa
  let b := s.x xb
  s.wr xd (ofBit (a.ult b))

/-- `seq` (R300). Set when equal. -/
def execSeq (xd xa xb : XReg) (s : State) : Out :=
  let a := s.x xa
  let b := s.x xb
  s.wr xd (ofBit (a == b))

/-- `clz` (R300). Leading zeros. -/
def execClz (xd xa : XReg) (s : State) : Out :=
  let a := s.x xa
  s.wr xd (BitVec.ofNat 64 (clzNat 64 a.toNat))

/-- `ctz` (R300). Trailing zeros. -/
def execCtz (xd xa : XReg) (s : State) : Out :=
  let a := s.x xa
  s.wr xd (BitVec.ofNat 64 (ctzNat 64 a.toNat))

/-- `popc` (R300). Set bits. -/
def execPopc (xd xa : XReg) (s : State) : Out :=
  let a := s.x xa
  s.wr xd (BitVec.ofNat 64 (popNat 64 a.toNat))

/-- `bswap` (R300). Bytes reversed. -/
def execBswap (xd xa : XReg) (s : State) : Out :=
  let a := s.x xa
  s.wr xd (byteSwap a)

/-- `sext` (R300). Sign extension from bit k. -/
def execSext (xd xa xb : XReg) (s : State) : Out :=
  let a := s.x xa
  let b := s.x xb
  s.wr xd (signFrom a (amount b))

/-- `zext` (R300). Zero extension from bit k. -/
def execZext (xd xa xb : XReg) (s : State) : Out :=
  let a := s.x xa
  let b := s.x xb
  s.wr xd (zeroFrom a (amount b))

/-- `sel` (R300). xa when xc is not 0, else xb. -/
def execSel (xd xa xb xc : XReg) (s : State) : Out := s.wr xd (if s.x xc ≠ 0 then s.x xa else s.x xb)

end Sys2Proof.Machine
end

