-- ==== Sys2Proof/Machine/Permute.lean ====
section
/-! DEFINITION. Majors 0x14 and 0x15 (R250 to R264): the combining of R254, the orders of R222 to R224, and the 23 meanings. -/

namespace Sys2Proof.Machine

/-- What a reduction or scan combines by (R254). -/
inductive Fold where | sum | max | min | and | or
  deriving DecidableEq, Repr

/-- An element as it enters a combination: a float's pattern, an integer's exact value, a pattern for the bitwise ones. -/
def Fold.lift (k : Fold) (t : Tag) (b : Nat) : Int :=
  match k with
  | .and | .or => b
  | _ => if isFloatTag t then b else intOf t b

/-- `combine` (R254). -/
def Fold.combine (k : Fold) (t : Tag) (rm : BitVec 3) (a b : Int) : Int × Flags :=
  match fmtOf t with
  | some f =>
    let r := match k with
      | .sum => f.add rm a.toNat b.toNat
      | .max => f.minmax true a.toNat b.toNat
      | _ => f.minmax false a.toNat b.toNat
    (r.1, r.2)
  | none => match k with
    | .sum => (a + b, 0)
    | .max => (if a < b then b else a, 0)
    | .min => (if b < a then b else a, 0)
    | .and => ((a.toNat &&& b.toNat : Nat), 0)
    | .or => ((a.toNat ||| b.toNat : Nat), 0)

/-- The empty value (Table 12-3). -/
def Fold.empty (k : Fold) (t : Tag) : Int :=
  match fmtOf t with
  | some f => match k with
    | .max => f.infCode true
    | .min => f.infCode false
    | _ => 0
  | none => match k with
    | .sum => 0
    | .max => intMin t
    | .min => intMax t
    | .and => (2 ^ tagWidth t - 1 : Nat)
    | .or => 0

/-- A combined value delivered (R254): a NaN canonical, an integer sum reduced with WRAP judged on the exact value. -/
def Fold.output (k : Fold) (t : Tag) (v : Int) : Nat × Flags :=
  match fmtOf t with
  | some f => (if (f.decode v.toNat).isNan then f.canon else v.toNat, 0)
  | none => if k = .sum then intWrap t v else (bitsOf (tagWidth t) v, 0)

/-- Two values of which either may be absent (R222). -/
def both (f : Int → Int → Int × Flags) : Option Int → Option Int → Option Int × Flags
  | some a, some b => let r := f a b; (some r.1, r.2)
  | some a, none => (some a, 0)
  | none, b => (b, 0)

/-- The pairwise tree of R222 over 2^k elements from lo. -/
def tree (f : Int → Int → Int × Flags) (get : Nat → Option Int) : Nat → Nat → Option Int × Flags
  | 0, lo => (get lo, 0)
  | k + 1, lo =>
    let a := tree f get k lo
    let b := tree f get k (lo + 2 ^ k)
    let r := both f a.1 b.1
    (r.1, a.2 ||| b.2 ||| r.2)

/-- The exponent of the smallest power of two not below max(n, 1). -/
def log2Up (n : Nat) : Nat := if n ≤ 1 then 0 else Nat.log2 (n - 1) + 1

/-- The flag of a maximum or minimum for the signalling NaNs among its elements, one that meets no combination too (R209, R254). A sum has NV only where
a combination meets the NaN: a lone one is delivered canonical without it, which the manual leaves open (log 61). -/
def Fold.signals (k : Fold) (t : Tag) (vals : List Int) : Flags :=
  match fmtOf t with
  | some f => if k = .max ∨ k = .min then nvOf (vals.map fun v => f.decode v.toNat) else 0
  | none => 0

/-- Elements lo to lo + n - 1 reduced (R222, R224). -/
def Fold.reduce (k : Fold) (t : Tag) (rm : BitVec 3) (get : Nat → Option Int) (lo n : Nat) : Nat × Flags :=
  let r := tree (k.combine t rm) (fun i => if i < n then get (lo + i) else none) (log2Up n) 0
  let o := k.output t (r.1.getD (k.empty t))
  (o.1, o.2 ||| r.2 ||| k.signals t ((List.range n).filterMap fun i => get (lo + i)))

/-- A scan of R223 from element i of its segment on: the carry, the running value of the block, and the outputs with their flags. -/
def scanFrom (f : Int → Int → Int × Flags) (excl : Bool) : Nat → Option Int → Option Int → List (Option Int) → List (Option Int × Flags)
  | _, _, _, [] => []
  | i, carry, l, v :: vs =>
    let c := if i % 16 = 0 then both f carry l else (carry, 0)
    let l0 := if i % 16 = 0 then none else l
    let n := both f l0 v
    let o := if v.isNone then (none, 0) else both f c.1 (if excl then l0 else n.1)
    (o.1, c.2 ||| n.2 ||| o.2) :: scanFrom f excl (i + 1) c.1 n.1 vs

/-- The outputs of one scanned segment (R255). -/
def Fold.scan (k : Fold) (t : Tag) (rm : BitVec 3) (excl : Bool) (vals : List (Option Int)) : List (Nat × Flags) :=
  (List.zip vals (scanFrom (k.combine t rm) excl 0 none none vals)).map fun p =>
    match p.1 with
    | none => (0, p.2.2)
    | some _ => let o := k.output t (p.2.1.getD (k.empty t)); (o.1, o.2 ||| p.2.2)

/-- Segment bounds from the offsets (R260): segment k is off_k to off_(k+1) - 1, the last to vl - 1. -/
def segments (vl : Nat) : List Nat → List (Nat × Nat)
  | [] => []
  | [a] => [(a, vl)]
  | a :: b :: t => (a, b) :: segments vl (b :: t)

/-- The first offset that breaks R260: not 0 at first, below the one before it, or the last above vl. -/
def badOffset (vl : Nat) : Nat → Nat → List Nat → Option Nat
  | _, _, [] => none
  | k, prev, [a] => if (k = 0 ∧ a ≠ 0) ∨ a < prev ∨ vl < a then some k else none
  | k, prev, a :: t => if (k = 0 ∧ a ≠ 0) ∨ a < prev then some k else badOffset vl (k + 1) a t

/-- A word put into a list sorted downward, after those not below it (R263). -/
def insertDown (v : Nat) : List Nat → List Nat
  | [] => [v]
  | a :: t => if v ≤ a then a :: insertDown v t else v :: a :: t
def sortDown (l : List Nat) : List Nat := l.foldl (fun a v => insertDown v a) []
/-- Blocks of b elements sorted, one after the other. -/
def sortBlocks (b : Nat) : Nat → List Nat → List Nat
  | 0, _ => []
  | n + 1, l => sortDown (l.take b) ++ sortBlocks b n (l.drop b)

/-- The merge of R262. -/
def mergeDown : Nat → List Nat → List Nat → List Nat
  | 0, _, _ => []
  | n + 1, a, b =>
    if b.headD 0 ≤ a.headD 0 then a.headD 0 :: mergeDown n a.tail b else b.headD 0 :: mergeDown n a b.tail

namespace State

/-- Elements of a chain from index lo. -/
def elems (s : State) (d : Desc) (lo n : Nat) : List Nat := (List.range n).map fun i => s.elem d (lo + i)

/-- A reduction (R254): its result needs every element below vl. -/
def reduce (s : State) (k : Fold) (xd : XReg) (va : VReg) (xl : XReg) (msk : MReg) (rm : BitVec 3) (accept : Tag → Bool) : Out :=
  let vl := s.x xl
  let n := vl.toNat
  let d := s.src [] va
  let checks : Except Trap Unit := do
    s.chainsOk [] [va]
    s.tagsOk [] [va] accept
    s.lengthOk [] vl [(va, n)]
  s.orTrap checks fun _ =>
    s.whenFree [] [] fun s1 =>
      if min (s1.availV va n) (s1.availM msk n) < n then s1.waitWhole
      else
        let r := k.reduce d.tag rm (fun j => if s1.maskOn msk j then some (k.lift d.tag (s1.elem d j)) else none) 0 n
        let v := BitVec.ofNat 64 r.1
        .next (((s1.raise r.2).setX xd (if isSigned d.tag then signFrom v (tagWidth d.tag - 1) else v)).retireV 1)

/-- The source elements of a scan that goes on in place: those already written over, then those that stand (R255, R347). -/
def scanSource (s : State) (d : Desc) (n : Nat) : List Nat :=
  let old := match s.resumed with | some e => e.seen | none => []
  old ++ s.elems d old.length (n - old.length)

/-- A scan's outputs put where R232 puts them. -/
def scanOut (s : State) (vd va : VReg) (srcs : List VReg) (tag : Tag) (n limit : Nat) (msk : MReg) (z : Bool) (srcVals : List Nat)
    (outs : List (Nat × Flags)) : Out :=
  s.produce
    { vd := vd, tag := tag, n := n, inPlace := vd == va, keep := srcs.contains vd, limit := limit, per := rowElems tag, checks := none
      seen := fun j => if vd == va then srcVals.take j else []
      out := fun j =>
        let o := outs.getD j (0, 0)
        if s.maskOn msk j then ⟨o.1, o.2, true⟩ else if z then ⟨0, o.2, true⟩ else ⟨srcVals.getD j 0, o.2, false⟩ }

/-- `vscan`, `vscanx`, `vscanmax` (R255). -/
def scan (s : State) (k : Fold) (excl : Bool) (vd va : VReg) (xl : XReg) (msk : MReg) (z : Bool) (rm : BitVec 3) : Out :=
  let vl := s.x xl
  let n := vl.toNat
  let d := s.src [vd] va
  let checks : Except Trap Unit := do
    s.chainsOk [vd] [va]
    s.tagsOk [vd] [va] intOrWide
    s.lengthOk [vd] vl [(va, n)]
  s.orTrap checks fun _ =>
    s.whenFree [vd] [] fun s1 =>
      let src := s1.scanSource d n
      let vals := (List.range n).map fun j => if s1.maskOn msk j then some (k.lift d.tag (src.getD j 0)) else none
      s1.scanOut vd va [va] d.tag n (min (s1.availV va n) (s1.availM msk n)) msk z src (k.scan d.tag rm excl vals)

/-- A move of elements into a fresh chain (R256 to R263). -/
def move (s : State) (vd : VReg) (srcs whole : List VReg) (checks : Except Trap Unit) (tag : Tag) (n : State → Nat)
    (limit : State → Nat) (out : State → Nat → Nat) (known : State → Bool := fun _ => true) : Out :=
  s.orTrap checks fun _ =>
    s.whenFree (vd :: whole) [] fun s1 =>
      if whole.any (fun r => (s1.stopV? r).isSome) then s1.waitWhole
      else s1.produce
        { vd := vd, tag := tag, n := n s1, inPlace := false, keep := srcs.contains vd, limit := limit s1, per := rowElems tag, checks := none, known := known s1
          out := fun j => ⟨out s1 j, 0, true⟩ }

/-- The checks of a move: sources of equal tags, vl, lengths. -/
def moveChecks (s : State) (dsts srcs : List VReg) (accept : Tag → Bool) (vl : Word) (needs : List (VReg × Nat)) : Except Trap Unit := do
  s.chainsOk dsts srcs
  s.tagsOk dsts srcs accept
  s.lengthOk dsts vl needs

/-- The checks of a segmented instruction before it reads its offsets (R251). Of two limits that fail, vl or a short va comes before the number of
segments, which the manual does not order (log 79); an offset chain that a stopped member writes is judged once it is whole, and then holds no
more than 8192 elements (R252, R344). -/
def segChecks (s : State) (vd va vb : VReg) (vl : Word) : Except Trap Unit := do
  s.chainsOk [vd] [va, vb]
  s.tagsOk [vd] [va] intOrWide
  s.tagsOk [vd] [vb] fun t => t == 7 || t == 8
  s.lengthOk [vd] vl [(va, vl.toNat)]
  let d := s.src [vd] vb
  if 8192 < d.count ∧ (s.promised vb).isNone then .error ⟨0x04, BitVec.ofNat 64 d.count⟩ else .ok ()

/-- The offsets are read whole and checked before the first output (R260). -/
def segOffsets (s : State) (vd vb : VReg) (vl : Word) : Except Trap Unit :=
  let d := s.src [vd] vb
  if s.vstart ≠ 0 then .ok ()
  else if 0 < vl.toNat ∧ d.count = 0 then .error ⟨0x04, vl⟩
  else match badOffset vl.toNat 0 0 (s.elems d 0 d.count) with
    | some k => .error ⟨0x04, BitVec.ofNat 64 k⟩
    | none => .ok ()

/-- `vsegsum`, `vsegmax`, `vsegmin` (R261). -/
def segReduce (s : State) (k : Fold) (vd va vb : VReg) (xl : XReg) (msk : MReg) (rm : BitVec 3) : Out :=
  let vl := s.x xl
  let n := vl.toNat
  let d := s.src [vd] va
  let o := s.src [vd] vb
  s.orTrap (s.segChecks vd va vb vl) fun _ =>
    s.whenFree [vd, vb] [] fun s1 =>
      if (s1.stopV? vb).isSome then s1.waitWhole
      else s1.orTrap (s1.segOffsets vd vb vl) fun _ =>
        let segs := segments n (s1.elems o 0 o.count)
        let have_ := min (s1.availV va n) (s1.availM msk n)
        s1.produce
          { vd := vd, tag := d.tag, n := segs.length, inPlace := false, keep := vd == va || vd == vb
            limit := if n ≤ have_ then segs.length else (segs.takeWhile fun p => decide (p.2 ≤ have_)).length
            per := rowElems d.tag, checks := none
            out := fun j =>
              let p := segs.getD j (0, 0)
              let r := k.reduce d.tag rm (fun i => if s1.maskOn msk i then some (k.lift d.tag (s1.elem d i)) else none) p.1 (p.2 - p.1)
              ⟨r.1, r.2, true⟩ }

/-- The storage for output j of both destinations of `vunzip`, before either is written (R251). -/
def extendBoth (s : State) (vd ve : VReg) : Except Nat State :=
  match s.extend vd with
  | .error n => .error (2 * n)
  | .ok t => match t.extend ve with
    | .error n => .error (2 * n)
    | .ok u => .ok u

/-- The outputs of `vunzip` (R259). -/
def unzipRun (s : State) (vd ve : VReg) (out : Nat → Nat) (j : Nat) : Nat → Run
  | 0 => ⟨s, j, none⟩
  | k + 1 => match s.extendBoth vd ve with
    | .error n => ⟨s, j, some n⟩
    | .ok t =>
      let t1 := t.putElem (t.h.chain vd) j (out (2 * j))
      (t1.putElem (t1.h.chain ve) j (out (2 * j + 1))).unzipRun vd ve out (j + 1) k

end State

/-- `vredsum` (R254). -/
def execVredsum (xd va xl : BitVec 5) (msk rm : BitVec 3) (s : State) : Out := s.reduce .sum xd va xl msk rm intOrWide
/-- `vredmax` (R254). -/
def execVredmax (xd va xl : BitVec 5) (msk : BitVec 3) (s : State) : Out := s.reduce .max xd va xl msk 0 intOrWide
/-- `vredmin` (R254). -/
def execVredmin (xd va xl : BitVec 5) (msk : BitVec 3) (s : State) : Out := s.reduce .min xd va xl msk 0 intOrWide
/-- `vredand` (R254). -/
def execVredand (xd va xl : BitVec 5) (msk : BitVec 3) (s : State) : Out := s.reduce .and xd va xl msk 0 isIntTag
/-- `vredor` (R254). -/
def execVredor (xd va xl : BitVec 5) (msk : BitVec 3) (s : State) : Out := s.reduce .or xd va xl msk 0 isIntTag
/-- `vscan` (R255). -/
def execVscan (vd va xl : BitVec 5) (msk : BitVec 3) (z : Bool) (rm : BitVec 3) (s : State) : Out := s.scan .sum false vd va xl msk z rm
/-- `vscanx` (R255). -/
def execVscanx (vd va xl : BitVec 5) (msk : BitVec 3) (z : Bool) (rm : BitVec 3) (s : State) : Out := s.scan .sum true vd va xl msk z rm
/-- `vscanmax` (R255). -/
def execVscanmax (vd va xl : BitVec 5) (msk : BitVec 3) (z : Bool) (s : State) : Out := s.scan .max false vd va xl msk z 0
/-- `vcompress` (R256): while elements or mask bits are still to come, COUNT is not known, and it does not end (R62, R148). -/
def execVcompress (vd va xl : BitVec 5) (msk : BitVec 3) (s : State) : Out :=
  let vl := s.x xl
  let n := vl.toNat
  let d := s.src [vd] va
  let have_ (t : State) : Nat := min n (min (t.availV va n) (t.availM msk n))
  let made (t : State) : Nat := (t.active msk (have_ t)).length
  s.move vd [va] [] (s.moveChecks [vd] [va] anyTag vl [(va, n)]) d.tag (fun t => if n ≤ have_ t then made t else made t + 1) made
    (fun t j => t.elem d ((t.active msk n).getD j 0)) fun t => decide (n ≤ have_ t)
/-- `vexpand` (R256): P, the active elements, is checked before any effect, and needs every mask bit below vl; the checks that need no mask bit come
before it waits for them. A va short of P is reported before a vb short of vl, which the manual does not order (log 79). -/
def execVexpand (vd va vb xl : BitVec 5) (msk : BitVec 3) (z : Bool) (s : State) : Out :=
  let vl := s.x xl
  let n := vl.toNat
  let d := s.src [vd] va
  let b := s.src [vd] vb
  let srcs := if z then [va] else [va, vb]
  let p := (s.active msk (min n 8192)).length
  let checks : Except Trap Unit := do
    s.moveChecks [vd] srcs anyTag vl []
    if s.availM msk n < n then .error State.waitTrap else .ok ()
    if s.short [vd] va p then .error ⟨0x04, BitVec.ofNat 64 p⟩ else if s.unsure va p then .error State.waitTrap else .ok ()
    s.lengthOk [vd] vl (if z then [] else [(vb, n)])
  let rank (t : State) (j : Nat) : Nat := (t.active msk j).length
  s.move vd srcs [] checks d.tag (fun _ => n)
    (fun t => ((List.range n).find? fun j => decide (t.availM msk n ≤ j) ||
        (if t.maskOn msk j then decide (t.availV va n ≤ rank t j) else !z && decide (t.availV vb n ≤ j))).getD n)
    fun t j => if t.maskOn msk j then t.elem d (rank t j) else if z then 0 else t.elem b j
/-- `vslideup` (R257). -/
def execVslideup (vd va xb vc xl : BitVec 5) (c : Bool) (s : State) : Out :=
  let vl := s.x xl
  let n := vl.toNat
  let k := (s.x xb).toNat
  let d := s.src [vd] va
  let e := s.src [vd] vc
  let srcs := if c then [va, vc] else [va]
  s.move vd srcs [] (s.moveChecks [vd] srcs anyTag vl ((va, n - min k n) :: (if c then [(vc, min k n)] else []))) d.tag (fun _ => n)
    (fun t => min (match t.supplyV va with | some a => min k n + a.1 | none => n)
                  (match (if c then t.supplyV vc else none) with | some a => if a.1 < k then a.1 else n | none => n))
    fun t j => if k ≤ j then t.elem d (j - k) else if c then t.elem e j else 0
/-- `vslidedn` (R257). -/
def execVslidedn (vd va xb vc xl : BitVec 5) (c : Bool) (s : State) : Out :=
  let vl := s.x xl
  let n := vl.toNat
  let k := (s.x xb).toNat
  let d := s.src [vd] va
  let e := s.src [vd] vc
  let srcs := if c then [va, vc] else [va]
  s.move vd srcs srcs (s.moveChecks [vd] srcs anyTag vl (if c ∧ (s.stopV? va).isNone then [(vc, n + k - d.count)] else [])) d.tag (fun _ => n) (fun _ => n)
    fun t j => if j + k < d.count then t.elem d (j + k) else if c then t.elem e (j + k - d.count) else 0
/-- `vperm` (R258). -/
def execVperm (vd va vb xl : BitVec 5) (s : State) : Out :=
  let vl := s.x xl
  let n := vl.toNat
  let d := s.src [vd] va
  let i := s.src [vd] vb
  let checks : Except Trap Unit := do
    s.chainsOk [vd] [va, vb]
    s.tagsOk [vd] [vb] isIntTag
    s.lengthOk [vd] vl [(vb, n)]
  s.move vd [va, vb] [va] checks d.tag (fun _ => n) (fun t => t.availV vb n)
    fun t j =>
      let k := intOf i.tag (t.elem i j)
      if 0 ≤ k ∧ k < d.count then t.elem d k.toNat else 0
/-- `vrev` (R258). -/
def execVrev (vd va xl : BitVec 5) (s : State) : Out :=
  let vl := s.x xl
  let n := vl.toNat
  let d := s.src [vd] va
  s.move vd [va] [va] (s.moveChecks [vd] [va] anyTag vl [(va, n)]) d.tag (fun _ => n) (fun _ => n) fun t j => t.elem d (n - 1 - j)
/-- `vzip` (R259). -/
def execVzip (vd va vb xl : BitVec 5) (s : State) : Out :=
  let vl := s.x xl
  let n := vl.toNat
  let d := s.src [vd] va
  let e := s.src [vd] vb
  s.move vd [va, vb] [] (s.moveChecks [vd] [va, vb] anyTag vl [(va, n), (vb, n)]) d.tag (fun _ => 2 * n)
    (fun t => min (match t.supplyV va with | some a => 2 * a.1 | none => 2 * n) (match t.supplyV vb with | some a => 2 * a.1 + 1 | none => 2 * n))
    fun t j => if j % 2 = 0 then t.elem d (j / 2) else t.elem e (j / 2)
/-- `vunzip` (R259, R251). -/
def execVunzip (vd ve va xl : BitVec 5) (s : State) : Out :=
  let dsts := [vd, ve]
  let vl := s.x xl
  let n := vl.toNat
  let d := s.src dsts va
  s.orTrap (s.moveChecks dsts [va] anyTag vl [(va, 2 * n)]) fun _ =>
    s.whenFree [vd, ve] [] fun s1 =>
      let v0 := s1.vstart
      let kept : Option Desc := if va == vd || va == ve then some ((s1.keptOf).getD (s1.h.chain va)) else none
      let stop := max v0 (min n (s1.availV va (2 * n) / 2))
      let halt (u : State) (cause : BitVec 8) (done need : Nat) (fill : Bool) : Out :=
        .next (u.stopAs ⟨.stopped, cause, u.pos, done, if cause = 0 then 0 else BitVec.ofNat 64 done, need, kept, [], [], fill,
          [(vd, d.tag, some n), (ve, d.tag, some n)]⟩)
      let t := ((s1.openDest vd d.tag false (va == vd)).1.openDest ve d.tag false (va == ve)).1
      let r := t.unzipRun vd ve (fun i => s1.elem d i) v0 (stop - v0)
      match r.full with
      | some k => halt r.s 0x0C r.done k false
      | none =>
        if n ≤ r.done then .next ((match kept with | some k => r.s.releaseDesc k | none => r.s).retireV n)
        else halt r.s 0 r.done 0 s.fillStop
/-- `vsegsum` (R261). -/
def execVsegsum (vd va vb xl : BitVec 5) (msk rm : BitVec 3) (s : State) : Out := s.segReduce .sum vd va vb xl msk rm
/-- `vsegscan` (R261). -/
def execVsegscan (vd va vb xl : BitVec 5) (msk : BitVec 3) (z : Bool) (rm : BitVec 3) (s : State) : Out :=
  let vl := s.x xl
  let n := vl.toNat
  let d := s.src [vd] va
  let o := if vb = va then d else s.src [vd] vb
  s.orTrap (s.segChecks vd va vb vl) fun _ =>
    s.whenFree [vd, vb] [] fun s1 =>
      if (s1.stopV? vb).isSome then s1.waitWhole
      else s1.orTrap (s1.segOffsets vd vb vl) fun _ =>
        let src := s1.scanSource d n
        let offs := if vb = va then (src ++ s1.elems o n (o.count - n)).take o.count else s1.elems o 0 o.count
        let vals := (List.range n).map fun j => if s1.maskOn msk j then some (Fold.lift .sum d.tag (src.getD j 0)) else none
        let outs := (segments n offs).flatMap fun p => Fold.scan .sum d.tag rm false ((vals.drop p.1).take (p.2 - p.1))
        s1.scanOut vd va [va, vb] d.tag n (min (s1.availV va n) (s1.availM msk n)) msk z src outs
/-- `vsegmax` (R261). -/
def execVsegmax (vd va vb xl : BitVec 5) (msk : BitVec 3) (s : State) : Out := s.segReduce .max vd va vb xl msk 0
/-- `vsegmin` (R261). -/
def execVsegmin (vd va vb xl : BitVec 5) (msk : BitVec 3) (s : State) : Out := s.segReduce .min vd va vb xl msk 0
/-- `vmergek` (R262). -/
def execVmergek (vd va vb xl : BitVec 5) (s : State) : Out :=
  let vl := s.x xl
  let n := vl.toNat
  let a := s.src [vd] va
  let b := s.src [vd] vb
  let m := mergeDown (min n 8192) (s.elems a 0 (min a.count n)) (s.elems b 0 (min b.count n))
  s.move vd [va, vb] [va, vb] (s.moveChecks [vd] [va, vb] (· == 8) vl []) 8 (fun _ => n) (fun _ => n) fun _ j => m.getD j 0
/-- `vsortk` (R263). -/
def execVsortk (vd va xl : BitVec 5) (blk : BitVec 4) (s : State) : Out :=
  let vl := s.x xl
  let n := vl.toNat
  let d := s.src [vd] va
  let b := 2 ^ blk.toNat
  let m := sortBlocks b ((min n 8192 + b - 1) / b) (s.elems d 0 (min n 8192))
  s.move vd [va] [va] (s.moveChecks [vd] [va] (· == 8) vl [(va, n)]) 8 (fun _ => n) (fun _ => n) fun _ j => m.getD j 0
/-- `vconflict` (R264). -/
def execVconflict (md : BitVec 3) (va xl : BitVec 5) (msk : BitVec 3) (s : State) : Out :=
  let vl := s.x xl
  let n := vl.toNat
  let d := s.src [] va
  s.orTrap (s.moveChecks [] [va] isIntTag vl [(va, n)]) fun _ =>
    s.whenFree [] [md] fun s1 =>
      if msk = md ∧ (s1.stopM? msk).isSome then s1.waitWhole
      else s1.produceMask md msk true n (min (s1.availV va n) (s1.availM msk n)) 512 false fun j =>
        ((List.range j).all fun i => !(s1.maskOn msk i && s1.elem d i == s1.elem d j), 0)

end Sys2Proof.Machine
end

