-- ==== Sys2Proof/Machine/ScalarFp.lean ====
section
/-! DEFINITION. Major 0x06, scalar floating point (R306, Table 15-4). A source is the low bits of its register, a result clears the
bits above its format, and flags are ORed into `sflags` (R214). -/

namespace Sys2Proof.Machine

/-- A source in a format (R306). -/
def State.fsrc (s : State) (f : Fmt) (r : XReg) : Nat := (s.x r).toNat % 2 ^ f.w
/-- A result with its flags. -/
def State.wrF (s : State) (xd : XReg) (r : Nat × Flags) : Out :=
  ({ s with h := { s.h with sflags := s.h.sflags ||| r.2 } }).wr xd (BitVec.ofNat 64 r.1)

/-- The class code of a value (R241, Table 11-3). -/
def Fmt.classOf (f : Fmt) (b : Nat) : Nat :=
  match f.decode b with
  | .nan s => if s then 8 else 9
  | .inf n => if n then 0 else 7
  | .fin n m e =>
    if m = 0 then (if n then 3 else 4)
    else if (Nat.log2 m : Int) + e < f.emin then (if n then 2 else 5)
    else if n then 1 else 6

/-- `fadd` (R306). -/
def execFadd (xd xa xb : XReg) (rm : BitVec 3) (fmt : BitVec 2) (s : State) : Out :=
  let f := fmtOfField fmt
  s.wrF xd (f.add rm (s.fsrc f xa) (s.fsrc f xb))

/-- `fsub` (R306). -/
def execFsub (xd xa xb : XReg) (rm : BitVec 3) (fmt : BitVec 2) (s : State) : Out :=
  let f := fmtOfField fmt
  s.wrF xd (f.sub rm (s.fsrc f xa) (s.fsrc f xb))

/-- `fmul` (R306). -/
def execFmul (xd xa xb : XReg) (rm : BitVec 3) (fmt : BitVec 2) (s : State) : Out :=
  let f := fmtOfField fmt
  s.wrF xd (f.mul rm (s.fsrc f xa) (s.fsrc f xb))

/-- `fdiv` (R306). -/
def execFdiv (xd xa xb : XReg) (rm : BitVec 3) (fmt : BitVec 2) (s : State) : Out :=
  let f := fmtOfField fmt
  s.wrF xd (f.div rm (s.fsrc f xa) (s.fsrc f xb))

/-- `fsqrt` (R306). -/
def execFsqrt (xd xa : XReg) (rm : BitVec 3) (fmt : BitVec 2) (s : State) : Out :=
  let f := fmtOfField fmt
  s.wrF xd (f.sqrt rm (s.fsrc f xa))

/-- `fma` (R225, R306): xa * xb + xc, one rounding. -/
def execFma (xd xa xb xc : XReg) (rm : BitVec 3) (fmt : BitVec 2) (s : State) : Out :=
  let f := fmtOfField fmt
  s.wrF xd (f.fma rm (s.fsrc f xa) (s.fsrc f xb) (s.fsrc f xc))

/-- `fms` (R225, R306): xa * xb - xc, one rounding. -/
def execFms (xd xa xb xc : XReg) (rm : BitVec 3) (fmt : BitVec 2) (s : State) : Out :=
  let f := fmtOfField fmt
  s.wrF xd (f.fma rm (s.fsrc f xa) (s.fsrc f xb) (f.neg (s.fsrc f xc)))

/-- `fnma` (R225, R306): xc - xa * xb, one rounding. -/
def execFnma (xd xa xb xc : XReg) (rm : BitVec 3) (fmt : BitVec 2) (s : State) : Out :=
  let f := fmtOfField fmt
  s.wrF xd (f.fma rm (f.neg (s.fsrc f xa)) (s.fsrc f xb) (s.fsrc f xc))

/-- `fmin` (R209). -/
def execFmin (xd xa xb : XReg) (fmt : BitVec 2) (s : State) : Out :=
  let f := fmtOfField fmt
  s.wrF xd (f.minmax false (s.fsrc f xa) (s.fsrc f xb))

/-- `fmax` (R209). -/
def execFmax (xd xa xb : XReg) (fmt : BitVec 2) (s : State) : Out :=
  let f := fmtOfField fmt
  s.wrF xd (f.minmax true (s.fsrc f xa) (s.fsrc f xb))

/-- `feq` (R208). -/
def execFeq (xd xa xb : XReg) (fmt : BitVec 2) (s : State) : Out :=
  let f := fmtOfField fmt
  let r := Num.cmp .eq (f.decode (s.fsrc f xa)) (f.decode (s.fsrc f xb))
  s.wrF xd (if r.1 then 1 else 0, r.2)

/-- `flt` (R208). -/
def execFlt (xd xa xb : XReg) (fmt : BitVec 2) (s : State) : Out :=
  let f := fmtOfField fmt
  let r := Num.cmp .lt (f.decode (s.fsrc f xa)) (f.decode (s.fsrc f xb))
  s.wrF xd (if r.1 then 1 else 0, r.2)

/-- `fle` (R208). -/
def execFle (xd xa xb : XReg) (fmt : BitVec 2) (s : State) : Out :=
  let f := fmtOfField fmt
  let r := Num.cmp .le (f.decode (s.fsrc f xa)) (f.decode (s.fsrc f xb))
  s.wrF xd (if r.1 then 1 else 0, r.2)

/-- `fcvtfi` (R219, Table 15-4): to an integer tag, extended to 64 bits under its signedness. -/
def execFcvtfi (xd xa tc : XReg) (rm : BitVec 3) (fmt : BitVec 2) (s : State) : Out :=
  let f := fmtOfField fmt
  let t : Tag := BitVec.ofNat 4 tc.toNat
  let r := floatToInt t rm (f.decode (s.fsrc f xa))
  s.wrF xd ((BitVec.ofInt 64 (intOf t r.1)).toNat, r.2)

/-- `fcvtif` (R219, Table 15-4): from the low bits of xa read under an integer tag. -/
def execFcvtif (xd xa tc : XReg) (rm : BitVec 3) (fmt : BitVec 2) (s : State) : Out :=
  let f := fmtOfField fmt
  let t : Tag := BitVec.ofNat 4 tc.toNat
  s.wrF xd (intToFloat f rm false (intOf t (s.x xa).toNat))

/-- `fcvtff` (R217, Table 15-4): from another format, or its own. -/
def execFcvtff (xd xa tc : XReg) (rm : BitVec 3) (fmt : BitVec 2) (s : State) : Out :=
  let g := fmtOfField (BitVec.ofNat 2 tc.toNat)
  s.wrF xd (floatToFloat (fmtOfField fmt) rm false (g.decode (s.fsrc g xa)))

/-- `fclass` (R241, Table 11-3). -/
def execFclass (xd xa : XReg) (fmt : BitVec 2) (s : State) : Out :=
  let f := fmtOfField fmt
  s.wrF xd (f.classOf (s.fsrc f xa), 0)

/-- `fsgn` (R207, Table 15-4): the magnitude bits of xa with a sign made from both. -/
def execFsgn (xd xa xb md : XReg) (fmt : BitVec 2) (s : State) : Out :=
  let f := fmtOfField fmt
  let a := s.fsrc f xa
  let sa := decide (2 ^ (f.w - 1) ≤ a)
  let sb := decide (2 ^ (f.w - 1) ≤ s.fsrc f xb)
  let sign := match md.toNat with | 0 => sb | 1 => !sb | _ => sa != sb
  s.wrF xd (a % 2 ^ (f.w - 1) + f.signBit sign, 0)

end Sys2Proof.Machine
end

