-- ==== Sys2Proof/Machine/ScalarMemory.lean ====
section
/-! DEFINITION. Major 0x03, scalar loads and stores (R302 to R304). -/

namespace Sys2Proof.Machine

/-- A load of the width W gives, extended by a function of the width and the value (R304). -/
def load (s : State) (xd xa : XReg) (asr w : BitVec 2) (imm : BitVec 32) (ext : Nat → Nat → Word) : Out :=
  let n := widthOf w
  match s.scalarLoad (s.h.space asr) (offset (s.x xa) imm) n with
  | .error t => .next (s.trapNow t)
  | .ok (v, s1) => s1.wr xd (ext n v)

/-- `ld` (R304): sign-extended. -/
def execLd (xd xa : XReg) (asr w : BitVec 2) (imm : BitVec 32) (s : State) : Out := load s xd xa asr w imm signLoad

/-- `ldn` (R304): zero-extended. -/
def execLdn (xd xa : XReg) (asr w : BitVec 2) (imm : BitVec 32) (s : State) : Out := load s xd xa asr w imm fun _ v => BitVec.ofNat 64 v

/-- `st` (R304): the low bytes of xs, performed as one write. -/
def execSt (xs xa : XReg) (asr w : BitVec 2) (imm : BitVec 32) (s : State) : Out :=
  match s.scalarStore (s.h.space asr) (offset (s.x xa) imm) (toBytes (widthOf w) (s.x xs).toNat) with
  | .error t => .next (s.trapNow t)
  | .ok s1 => s1.ok

end Sys2Proof.Machine
end

