-- ==== Sys2Proof/Machine/VectorMask.lean ====
section
/-! DEFINITION. Major 0x11, comparison and masks (R242, R243). -/

namespace Sys2Proof.Machine

/-- One comparison of two elements (R242): integers by the tag's signedness, floats by R208. -/
def elCmp (c : Cmp) (t : Tag) (a b : Nat) : Bool × Flags :=
  match fmtOf t with
  | some f => Num.cmp c (f.decode a) (f.decode b)
  | none =>
    let x := intOf t a; let y := intOf t b
    (match c with
     | .eq => decide (x = y) | .ne => decide (x ≠ y) | .un => false
     | .lt => decide (x < y) | .le => decide (x ≤ y) | .gt => decide (y < x) | .ge => decide (y ≤ x), 0)

namespace State

/-- A comparison (R242, R249). -/
def compare (s : State) (md : MReg) (va vb : VReg) (xl : XReg) (msk : MReg) (z sc : Bool) (accept : Tag → Bool) (c : Cmp) : Out :=
  let ops := [Operand.chain va, operandB sc vb]
  let srcs := ops.filterMap Operand.reg
  let vl := s.x xl
  let n := vl.toNat
  let t := (s.src [] va).tag
  let checks : Except Trap Unit := do
    s.chainsOk [] srcs
    s.tagsOk [] srcs accept
    s.lengthOk [] vl (srcs.map fun r => (r, n))
  s.orTrap checks fun _ =>
    s.whenFree [] [md] fun s1 =>
      if msk = md ∧ (s1.stopM? msk).isSome then s1.waitWhole
      else s1.produceMask md msk z n ((srcs.map fun r => s1.availV r n).foldl min (s1.availM msk n)) (rowElems t) true fun j =>
        elCmp c t (s1.operandAt [] t (.chain va) j) (s1.operandAt [] t (operandB sc vb) j)

/-- Causes 0x06 and 0x04 of the mask instructions (R243): vl at most 8192. -/
def maskCheck (s : State) (vl : Word) : Except Trap Unit :=
  if s.h.mode = .d then .error ⟨0x06, s.h.iword⟩ else if 8192 < vl.toNat then .error ⟨0x04, vl⟩ else .ok ()

/-- A mask logic operation (R242): every bit below vl is active. A source that is also the destination is read whole (R243). -/
def maskLogic (s : State) (md : MReg) (srcs : List MReg) (xl : XReg) (f : List Bool → Bool) : Out :=
  let vl := s.x xl
  let n := vl.toNat
  s.orTrap (s.maskCheck vl) fun _ =>
    s.whenFree [] [md] fun s1 =>
      if srcs.contains md ∧ (s1.stopM? md).isSome then s1.waitWhole
      else s1.produceMask md 0 false n (srcs.foldl (fun a m => min a (s1.availM m n)) n) 512 false fun j =>
        (f (srcs.map fun m => (s1.h.mask m).getLsbD j), 0)

/-- A value read from a mask (R242); it needs the whole of a stopped producer's mask. -/
def maskValue (s : State) (xd : XReg) (ma : MReg) (xl : XReg) (f : State → Nat → Word) : Out :=
  let vl := s.x xl
  s.orTrap (s.maskCheck vl) fun _ =>
    if (s.stopM? ma).isSome then s.waitWhole else .next ((s.setX xd (f s vl.toNat)).retireV 1)

end State

/-- `vcmpeq` (R242). -/
def execVcmpeq (md : BitVec 3) (va vb xl : BitVec 5) (msk : BitVec 3) (z sc : Bool) (s : State) : Out := s.compare md va vb xl msk z sc anyTag .eq
/-- `vcmpne` (R242). -/
def execVcmpne (md : BitVec 3) (va vb xl : BitVec 5) (msk : BitVec 3) (z sc : Bool) (s : State) : Out := s.compare md va vb xl msk z sc anyTag .ne
/-- `vcmplt` (R242). -/
def execVcmplt (md : BitVec 3) (va vb xl : BitVec 5) (msk : BitVec 3) (z sc : Bool) (s : State) : Out := s.compare md va vb xl msk z sc anyTag .lt
/-- `vcmple` (R242). -/
def execVcmple (md : BitVec 3) (va vb xl : BitVec 5) (msk : BitVec 3) (z sc : Bool) (s : State) : Out := s.compare md va vb xl msk z sc anyTag .le
/-- `vcmpgt` (R242). -/
def execVcmpgt (md : BitVec 3) (va vb xl : BitVec 5) (msk : BitVec 3) (z sc : Bool) (s : State) : Out := s.compare md va vb xl msk z sc anyTag .gt
/-- `vcmpge` (R242). -/
def execVcmpge (md : BitVec 3) (va vb xl : BitVec 5) (msk : BitVec 3) (z sc : Bool) (s : State) : Out := s.compare md va vb xl msk z sc anyTag .ge
/-- `vcmpun` (R242). -/
def execVcmpun (md : BitVec 3) (va vb xl : BitVec 5) (msk : BitVec 3) (z sc : Bool) (s : State) : Out :=
  s.compare md va vb xl msk z sc (fun t => isWide t || t == 10 || t == 11) .un
/-- `mand` (R242). -/
def execMand (md ma mb : BitVec 3) (xl : BitVec 5) (s : State) : Out := s.maskLogic md [ma, mb] xl fun l => l.getD 0 false && l.getD 1 false
/-- `mor` (R242). -/
def execMor (md ma mb : BitVec 3) (xl : BitVec 5) (s : State) : Out := s.maskLogic md [ma, mb] xl fun l => l.getD 0 false || l.getD 1 false
/-- `mxor` (R242). -/
def execMxor (md ma mb : BitVec 3) (xl : BitVec 5) (s : State) : Out := s.maskLogic md [ma, mb] xl fun l => l.getD 0 false != l.getD 1 false
/-- `mandn` (R242). -/
def execMandn (md ma mb : BitVec 3) (xl : BitVec 5) (s : State) : Out := s.maskLogic md [ma, mb] xl fun l => l.getD 0 false && !l.getD 1 false
/-- `mnot` (R242). -/
def execMnot (md ma : BitVec 3) (xl : BitVec 5) (s : State) : Out := s.maskLogic md [ma] xl fun l => !l.getD 0 false
/-- `mset` (R242). -/
def execMset (md : BitVec 3) (xl : BitVec 5) (s : State) : Out := s.maskLogic md [] xl fun _ => true
/-- `mclr` (R242): all 8192 bits cleared. -/
def execMclr (md : BitVec 3) (s : State) : Out :=
  s.orTrap (s.maskCheck 0) fun _ => s.whenFree [] [md] fun s1 => .next ((s1.setMask md 0).retireV 8192)
/-- `mpopc` (R242). -/
def execMpopc (xd : BitVec 5) (ma : BitVec 3) (xl : BitVec 5) (s : State) : Out :=
  s.maskValue xd ma xl fun t n => BitVec.ofNat 64 (t.active ma n).length
/-- `mfirst` (R242). -/
def execMfirst (xd : BitVec 5) (ma : BitVec 3) (xl : BitVec 5) (s : State) : Out :=
  s.maskValue xd ma xl fun t n => match (List.range n).find? (t.maskOn ma) with | some j => BitVec.ofNat 64 j | none => BitVec.allOnes 64
/-- `mfromv` (R242): no recompute check (R249). -/
def execMfromv (md : BitVec 3) (va xl : BitVec 5) (msk : BitVec 3) (z : Bool) (s : State) : Out :=
  let vl := s.x xl
  let n := vl.toNat
  let checks : Except Trap Unit := do
    s.chainsOk [] [va]
    s.tagsOk [] [va] isIntTag
    s.lengthOk [] vl [(va, n)]
  s.orTrap checks fun _ =>
    s.whenFree [] [md] fun s1 =>
      if msk = md ∧ (s1.stopM? msk).isSome then s1.waitWhole
      else s1.produceMask md msk z n (min (s1.availV va n) (s1.availM msk n)) 512 false fun j => (s1.elem (s1.src [] va) j != 0, 0)
/-- The pattern of 1 in a tag (Table 11-4, `mtov`). -/
def oneOf (t : Tag) : Nat := match fmtOf t with | some f => (f.round rmRNE false false 1 0 false).1 | none => 1
/-- `mtov` (R242, R243). -/
def execMtov (vd : BitVec 5) (ma : BitVec 3) (xl : BitVec 5) (msk : BitVec 3) (_z : Bool) (ot : BitVec 4) (s : State) : Out :=
  s.generate vd ot xl msk [ma, msk] fun t j => (if t.maskOn ma j then oneOf ot else 0, 0)

end Sys2Proof.Machine
end

