-- ==== Sys2Proof/Machine/Selection.lean ====
section
/-! DEFINITION. Major 0x2C, the memory-side selection engines (R121 to R130). -/

namespace Sys2Proof.Machine

/-- Whether an element qualifies (R126, Table 06-3): a NaN never does; a comparison with a NaN operand is false, but under NE every
element that is not a NaN qualifies. -/
def qualifies (t : Tag) (pred : Nat) (a b v : Nat) : Bool :=
  let nan := match fmtOf t with | some f => (f.decode v).isNan | none => false
  let cmp (c : Cmp) (o : Nat) : Bool := (elCmp c t v o).1
  !nan && (match pred with
    | 0 => true
    | 1 => cmp .eq a
    | 2 => cmp .ne a
    | 3 => cmp .lt a
    | 4 => cmp .le a
    | 5 => cmp .gt a
    | 6 => cmp .ge a
    | 7 => cmp .ge a && cmp .le b
    | 8 => cmp .lt a || cmp .gt b
    | 9 => v &&& a == b
    | _ => false)

/-- rankval and the rank word of element j (R127). -/
def rankVal (t : Tag) (b : Nat) : Nat :=
  let w := tagWidth t
  let top := 2 ^ (w - 1)
  let v := if isUnsigned t then b else if isSigned t ∨ b < top then (b + top) % 2 ^ w else 2 ^ w - 1 - b
  if w ≤ 32 then v * 2 ^ (32 - w) else v / 2 ^ 32
def rankWord (t : Tag) (b j : Nat) : Nat := rankVal t b * 2 ^ 32 + (0xFFFF_FFFF - j)

/-- The bytes of a selection's extent (R125). -/
def Command.extent (c : Command) : Nat := (c.count * tagWidth c.tag + 7) / 8

namespace State

/-- The translation an engine makes for a page of its extent and its key check (R123): from an offset in the page to its storage key. An engine reads the
tables at home, and holds no translation (log 76). -/
def scanPage (s : State) (c : Command) (off : Nat) : Except (BitVec 8) (Nat → Option Nat) :=
  let a := c.acc s.h
  if a.bare ∧ c.sspace = 0 then (match physKey off with | some _ => .ok physKey | none => .error 0x08)
  else match s.walk a c.sspace off [] with
    | .error e => .error e
    | .ok (e, _) =>
      if e.node ≠ Config.nodeId then .error 0x08
      else if (physKey (e.frame + off % e.size)).isNone then .error 0x08
      else if e.at_ then .error 0x09
      else if e.im ∨ a.bypass ∨ 1 ≤ s.rightOf a c.sspace off false then .ok fun o => physKey (e.frame + o % e.size)
      else .error (s.keyCause a c.sspace off)

/-- One engine's pass over one page of the extent: elements homed at its stack, in ascending order; nothing is read after a failure. -/
def scanElems (s : State) (c : Command) (stack : Nat) (key : Nat → Option Nat) : List Nat → Partial → Partial
  | [], p => p
  | j :: t, p =>
    if !p.fails.isEmpty then p
    else
      let off := c.src.toNat + j * tagWidth c.tag / 8
      match key off with
      | none => { p with fails := p.fails ++ [(BitVec.ofNat 64 off, 0x08)] }
      | some k =>
        if keyStack k ≠ stack then s.scanElems c stack key t p
        else if s.poisoned k then { p with fails := p.fails ++ [(BitVec.ofNat 64 (off - off % 32), 0x0B)] }
        else
          let raw := ofBytes (s.homeRead k ((tagWidth c.tag + 7) / 8))
          let v := if c.tag = 9 then raw / 16 ^ (j % 2) % 16 else raw
          let m := 2 ^ tagWidth c.tag
          if qualifies c.tag c.pred.toNat (c.opa.toNat % m) (c.opb.toNat % m) v then
            s.scanElems c stack key t { p with qual := p.qual + 1, ranks := p.ranks ++ [BitVec.ofNat 64 (rankWord c.tag v j)] }
          else s.scanElems c stack key t p

/-- An engine's pass over its part (R121, R123): every page is probed, and read until something has failed. The manual does not say which offset a
failing page records: the model takes the first of the extent that lies in the page (log 56). -/
def scanStack (s : State) (c : Command) (stack : Nat) (failed : Bool) : Partial :=
  let base := c.src.toNat
  let stop := base + c.extent
  let pages := if c.extent = 0 then [] else (List.range ((stop - 1) / 65536 + 1 - base / 65536)).map (base / 65536 + ·)
  let elemsOf (pg : Nat) : List Nat :=
    (List.range c.count).filter fun j => decide ((base + j * tagWidth c.tag / 8) / 65536 = pg)
  let step (acc : Bool × Partial) (pg : Nat) : Bool × Partial :=
    let off := max base (pg * 65536)
    match s.scanPage c off with
    | .error e => (true, { acc.2 with fails := acc.2.fails ++ [(BitVec.ofNat 64 off, e)] })
    | .ok key =>
      if acc.1 then acc
      else
        let p := s.scanElems c stack key (elemsOf pg) acc.2
        (acc.1 || !p.fails.isEmpty, p)
  let r := (pages.foldl step (failed, ⟨stack, 0, [], []⟩)).2
  if c.kind = 9 then { r with ranks := ((sortDown (r.ranks.map (·.toNat))).take c.limit).map (BitVec.ofNat 64) } else r

/-- The first stack of a command's extent, the home of its first byte (R121); none when that has no home here. -/
def firstStack (s : State) (h : Hart) (c : Command) : Option Nat :=
  let a := c.acc h
  let off := c.src.toNat
  let key := if a.bare ∧ c.sspace = 0 then physKey off
    else match s.walk a c.sspace off [] with
      | .ok (e, _) => if e.node = Config.nodeId then physKey (e.frame + off % e.size) else none
      | .error _ => none
  key.map keyStack
/-- Selection commands of every hart that an engine still has to serve, by their order of issue (R130): those it has not scanned, and at the engine of
a command's first stack that command until it is merged; then their entries free (log 78). -/
def engineQueue (s : State) (stack : Nat) : List Nat :=
  s.placed.flatMap fun k => (s.hartAt k).cmds.filterMap fun c =>
    if 8 ≤ c.kind.toNat ∧ (!(c.parts.any fun p => p.stack == stack) ∨ s.firstStack (s.hartAt k) c = some stack) then some c.since else none
/-- Whether an engine has a command to serve that came before another (R130). -/
def engineBusy (s : State) (stack : Nat) (c : Command) : Bool := (s.engineQueue stack).any fun q => decide (q < c.since)

/-- Whether the engine of a command's first stack has yet to finish one that came before it. -/
def mergeWaits (s : State) (c : Command) : Bool := match s.firstStack s.h c with | some st => s.engineBusy st c | none => false

/-- The command a ticket of the current hart runs at the selection engines. -/
def selection (s : State) (ticket : Nat) : Option Command := s.h.cmds.find? fun c => c.ticket == ticket && decide (8 ≤ c.kind.toNat)

/-- Issue of a selection command, with the traps in order (R121 to R130). -/
def select (s : State) (kind : BitVec 4) (xd xa xb xc : XReg) (asr : BitVec 2) (imm : BitVec 20) : Out :=
  let w := s.x xb
  let g (i : Nat) : Word := s.x (xc + BitVec.ofNat 5 i)
  let tag : Tag := w.extractLsb' 36 4
  let pred := w.extractLsb' 40 4
  let count := (w.extractLsb' 0 32).toNat
  let limit := (g 1).toNat
  let dest := g 0
  let base := s.x xa + sext imm
  let space := s.h.space asr
  let ext := (count * tagWidth tag + 7) / 8
  let slots := if kind = 10 then 0 else limit
  if s.h.mode = .d then s.trapWord 0x06
  else if w.extractLsb' 44 20 ≠ 0 ∨ w.extractLsb' 32 4 ≠ 0 ∨ tag = 0 ∨ 10 ≤ pred.toNat then s.trap 0x03 w
  else if kind = 9 ∧ tagWidth tag = 64 then s.trap 0x03 w
  else if kind = 9 ∧ (limit < 1 ∨ 4096 < limit) ∨ kind = 8 ∧ 65536 < limit then s.trap 0x04 (g 1)
  else if 0xFF00 ≤ space.toNat then s.trap 0x08 base
  else if base.toNat % max 1 (tagWidth tag / 8) ≠ 0 then s.trap 0x0A base
  else if 2 ^ 64 < base.toNat + ext then s.trap 0x08 base
  else if dest.toNat % 8 ≠ 0 then s.trap 0x0A dest
  else if dest.extractLsb' 21 43 ≠ 0 ∨ 0x20_0000 < dest.toNat + 8 + 8 * slots then s.trap 0x08 dest
  else match s.h.freeTicket with
    | none => s.awake.wrV xd (BitVec.allOnes 64)
    | some k =>
      if (List.range 12).any fun st => decide (32 ≤ (s.engineQueue st).length) then .next (s.hold (.retry false))
      else
        (s.awake.issueCommand { Command.blank k kind with
          sspace := space, src := base, dst := dest, tag := tag, pred := pred, count := count, limit := limit, opa := g 2, opb := g 3 }).wrV xd (BitVec.ofNat 64 k)

end State

/-- `qsel` (R129). -/
def execQsel (xd xa xb xc : XReg) (asr : BitVec 2) (imm : BitVec 20) (s : State) : Out := s.select 8 xd xa xb xc asr imm
/-- `qtopk` (R129). -/
def execQtopk (xd xa xb xc : XReg) (asr : BitVec 2) (imm : BitVec 20) (s : State) : Out := s.select 9 xd xa xb xc asr imm
/-- `qcount` (R129). -/
def execQcount (xd xa xb xc : XReg) (asr : BitVec 2) (imm : BitVec 20) (s : State) : Out := s.select 10 xd xa xb xc asr imm

/-- SELECTION_SCAN (R121, R123, R130): an engine serves the oldest command in its queue. -/
def execSelectionScan (hart ticket stack : Nat) (s : State) : Out :=
  let t := s.focus hart
  match t.selection ticket with
  | some c =>
    if 12 ≤ stack ∨ (c.parts.any fun p => p.stack == stack) ∨ t.engineHeld c ∨ t.engineBusy stack c then .next s
    else .next (t.setCommand { c with parts := c.parts ++ [t.scanStack c stack (c.parts.any fun p => !p.fails.isEmpty)] })
  | none => .next s

/-- The failure at the lowest virtual offset (R151). -/
def lowest : List (Word × BitVec 8) → Option (Word × BitVec 8)
  | [] => none
  | f :: t => match lowest t with | some g => if g.1.toNat < f.1.toNat then some g else some f | none => some f

/-- Rank words by ascending element index: by descending low half. -/
def byIndex (l : List Nat) : List Nat :=
  (sortDown (l.map fun r => r % 2 ^ 32 * 2 ^ 32 + r / 2 ^ 32)).map fun r => r % 2 ^ 32 * 2 ^ 32 + r / 2 ^ 32

/-- SELECTION_MERGE (R121, R128 to R130): the first stack's engine merges in its turn, writes the rank words, then the count word. -/
def execSelectionMerge (hart ticket : Nat) (s : State) : Out :=
  let t := s.focus hart
  match t.selection ticket with
  | some c =>
    if c.parts.length < 12 ∨ t.mergeWaits c then .next s
    else match lowest (c.parts.flatMap (·.fails)) with
      | some f => .next (t.endCommand c .faulted ⟨f.2, f.1.toNat, 0⟩ 0)
      | none =>
        let all := (c.parts.flatMap (·.ranks)).map (·.toNat)
        let q := (c.parts.map (·.qual)).sum
        let kept := if c.kind = 8 then (byIndex all).take c.limit else if c.kind = 9 then (sortDown all).take c.limit else []
        let slots := if c.kind = 9 then kept ++ List.replicate (c.limit - kept.length) 0 else kept
        let d := lsKey t.coreNo c.dst.toNat
        let t1 := t.homeWrite (d + 8) (slots.flatMap (toBytes 8))
        let t2 := t1.homeWrite d (toBytes 8 (q % 2 ^ 32 * 2 ^ 32 + kept.length))
        .next (t2.endCommand c .done ⟨0, 0, 0⟩ 0)
  | none => .next s

end Sys2Proof.Machine
end

