-- ==== Sys2Proof/Machine/TrapInstr.lean ====
section
/-! DEFINITION. `trapret`, `ecall` and `ebreak` of major 0x31 (R352, R353), and the steps that raise and take asynchronous events (R338,
R339, R346). -/

namespace Sys2Proof.Machine

/-- `trapret` (R352): refused in mode U, and in mode D without a pool-fault record. -/
def execTrapret (s : State) : Out :=
  if s.h.mode = .u ∨ (s.h.mode = .d ∧ s.h.pfr.isNone) then s.trapWord 0x01 else .next s.returnFromTrap

/-- `ecall` (R353). -/
def execEcall (imm : BitVec 20) (s : State) : Out := .next (s.trapDone ⟨0x10, zext imm⟩)
/-- `ebreak` (R353). -/
def execEbreak (imm : BitVec 20) (s : State) : Out := .next (s.trapDone ⟨0x11, zext imm⟩)

namespace State

/-- A hart leaves the queues of the tiles it waits for (R274). -/
def leaveQueues (s : State) : State :=
  let drop (t : Tile) : Tile := { t with queue := t.queue.filter (· ≠ s.slotNo) }
  { s with core := { s.core with za0 := drop s.core.za0, za1 := drop s.core.za1 } }

/-- A pending machine check of the hart at a hinge, or while it waits (R339). It is raised inside a convoy (R358): the one of the word that waits, once
its other members have come to rest, or the one that the hinge opens, which then holds no word. -/
def takeMachineCheck (s : State) (tval : Word) : State :=
  let c := s.h.convoy.getD { Convoy.empty s.h.pc with anew := s.h.fresh }
  if c.faulted ∨ c.filling.isSome then s.takeRest none
  else { s with h := { s.h with convoy := some c, mcheck := s.h.mcheck.tail } }.trapNow ⟨0x3F, tval⟩

end State

/-- INTERRUPT_TAKEN (R338, R339): the pending event of a hart at a hinge, 0x3F before 0x21 before 0x22. What tval holds for the last two
the manual does not state: a free value (log 4). -/
def execInterruptTaken (hart : Nat) (s : State) : Out :=
  let t := (s.focus hart)
  let free := Config.freeWord (2 * t.tick)
  if !t.h.atHinge then .next s
  else match t.h.mcheck with
    | v :: _ => .next (t.leaveQueues.takeMachineCheck v)
    | [] =>
      if !t.h.interruptible ∨ t.h.suspend then .next s
      else .next (t.leaveQueues.enterHinge (if t.h.hip then 0x21 else 0x22) free t.h.fresh)

/-- HIP_RAISE (R339, R360): a write of 1 to a slot's raise word, by an agent that may. -/
def execHipRaise (who hart : Nat) (s : State) : Out := .next (s.outsideWrite (whoOf who) (0x20000 + 16 * hart) 1 1)

/-- TIMER_EXPIRY (R339): `time` has passed the slot's deadline. -/
def execTimerExpiry (hart : Nat) (s : State) : Out :=
  let d := s.timer hart
  if d.2 ∧ d.1 < s.nanos then
    let s1 := s.setHart hart { s.hartAt hart with tip := true }
    .next { s1 with timers := assocSet s1.timers hart (d.1, false) }
  else .next s

/-- TRAP_RECORD_DISCARD (R346): the hart clears RR in mode S. -/
def execTrapRecordDiscard (hart : Nat) (s : State) : Out :=
  if (s.hartAt hart).mode = .s then .next (s.focus hart).discardRr else .next s

end Sys2Proof.Machine
end

