-- ==== Sys2Proof/Machine/VectorSpecial.lean ====
section
/-! DEFINITION. Major 0x13, special functions (R247, R227 to R229). An exact value is computed as a natural number of 2^-320 units that
is its floor, with a mark that it is not exact; rounding it once gives the correctly rounded result. On f32 and f64 the delivered
value is any value of the format within the bound; which one is a free value of the function, the tag and the magnitude (log 9). -/

namespace Sys2Proof.Machine

/-- The functions of major 0x13, by FN. -/
inductive Special8 where | exp2 | exp | log2 | rcp | rsqrt | sin | cos | tanh | sigmoid
  deriving DecidableEq, Repr

def Special8.code : Special8 → Nat
  | .exp2 => 0 | .exp => 1 | .log2 => 2 | .rcp => 3 | .rsqrt => 4 | .sin => 5 | .cos => 6 | .tanh => 7 | .sigmoid => 8

/-- Fraction bits of the fixed-point values below. -/
abbrev prec : Nat := 320

/-- A result before rounding: its sign and m * 2^e, or just above it when not exact. -/
structure Approx where
  neg : Bool
  m : Nat
  e : Int
  exact : Bool
  deriving DecidableEq, Repr

/-- The sum of t^i / i! from a term on, i counted by n (units of 2^-p). -/
def expSeries (p x : Nat) : Nat → Nat → Nat → Nat → Nat
  | 0, _, _, acc => acc
  | fuel + 1, i, term, acc => expSeries p x fuel (i + 1) (term * x / 2 ^ p / i) (acc + term)
/-- e^x for 0 <= x < 1. -/
def expFix (p x : Nat) : Nat := expSeries p x 120 1 (2 ^ p) 0

/-- z + z^3/3 + z^5/5 + … from a power on. -/
def atanhSeries (p z2 : Nat) : Nat → Nat → Nat → Nat → Nat
  | 0, _, _, acc => acc
  | fuel + 1, i, pw, acc => atanhSeries p z2 fuel (i + 2) (pw * z2 / 2 ^ p) (acc + pw / i)
def atanhFix (p z : Nat) : Nat := atanhSeries p (z * z / 2 ^ p) 140 1 z 0
/-- ln 2 = 2 atanh(1/3). -/
def ln2Fix (p : Nat) : Nat := 2 * atanhSeries p (2 ^ p / 9) p 1 (2 ^ p / 3) 0

/-- atan(1/k) = 1/k - 1/(3 k^3) + …: the terms of one sign and the other. -/
def atanSeries (k2 : Nat) : Nat → Nat → Nat → Int → Bool → Int
  | 0, _, _, acc, _ => acc
  | fuel + 1, i, pw, acc, neg => atanSeries k2 fuel (i + 2) (pw / k2) (if neg then acc - pw / i else acc + pw / i) (!neg)
/-- pi by Machin's formula. -/
def piFix (p : Nat) : Nat :=
  let q := p + 16
  ((16 * atanSeries 25 q 1 (2 ^ q / 5) 0 false - 4 * atanSeries (239 * 239) q 1 (2 ^ q / 239) 0 false).toNat) / 2 ^ 16

/-- x - x^3/3! + … or 1 - x^2/2! + …, from a term on. -/
def alternating (p x2 : Nat) : Nat → Nat → Nat → Int → Bool → Int
  | 0, _, _, acc, _ => acc
  | fuel + 1, i, term, acc, neg =>
    alternating p x2 fuel (i + 2) (term * x2 / 2 ^ p / (i * (i + 1))) (if neg then acc - term else acc + term) (!neg)
def sinFix (p x : Nat) : Nat := (alternating p (x * x / 2 ^ p) 60 2 x 0 false).toNat
def cosFix (p x : Nat) : Nat := (alternating p (x * x / 2 ^ p) 60 1 (2 ^ p) 0 false).toNat

/-- A value just below or just above a dyadic number. -/
def below (neg : Bool) (m : Nat) (e : Int) : Approx := ⟨neg, m * 2 ^ 200 - 1, e - 200, false⟩
def above (neg : Bool) (m : Nat) (e : Int) : Approx := ⟨neg, m * 2 ^ 200, e - 200, false⟩

/-- floor(v * 2^p) of a finite value. -/
def fixOf (p : Nat) (neg : Bool) (m : Nat) (e : Int) : Int :=
  if 0 ≤ e + p then signedNat neg (m * 2 ^ (e + p).toNat) else signedNat neg m / (2 ^ (-(e + p)).toNat : Nat)

/-- 2^(n + f) with f in units of 2^-p of ln 2: e^r * 2^n as mantissa and exponent. -/
def expParts (neg : Bool) (m : Nat) (e : Int) (base2 : Bool) : Nat × Int :=
  let x := fixOf prec neg m e
  if base2 then
    let n := x / (2 ^ prec : Nat)
    let f := (x % (2 ^ prec : Nat)).toNat
    (expFix prec (f * ln2Fix prec / 2 ^ prec), n - prec)
  else
    let l := ln2Fix (prec + 64)
    let y := fixOf (prec + 64) neg m e
    let n := y / (l : Int)
    let r := (y % (l : Int)).toNat / 2 ^ 64
    (expFix prec r, n - prec)

/-- Whether a finite nonzero value is at least 2^k, or below 2^-k, in magnitude. -/
def large (m : Nat) (e : Int) (k : Nat) : Bool := decide ((k : Int) ≤ Nat.log2 m + e)
def tiny (m : Nat) (e : Int) (k : Nat) : Bool := decide ((Nat.log2 m : Int) + e < -k)

/-- The exact value of a function at a finite nonzero argument whose result is finite and not zero (Table 10-9). -/
def Special8.value (fn : Special8) (neg : Bool) (m : Nat) (e : Int) : Approx :=
  match fn with
  | .exp2 =>
    if large m e 14 then (if neg then ⟨false, 1, -20000, false⟩ else ⟨false, 1, 20000, false⟩)
    else if 0 ≤ e ∨ m % 2 ^ (-e).toNat = 0 then
      let n := if 0 ≤ e then m * 2 ^ e.toNat else m / 2 ^ (-e).toNat
      ⟨false, 1, signedNat neg n, true⟩
    else if tiny m e 200 then (if neg then below false 1 0 else above false 1 0)
    else let r := expParts neg m e true; ⟨false, r.1, r.2, false⟩
  | .exp =>
    if large m e 14 then (if neg then ⟨false, 1, -20000, false⟩ else ⟨false, 1, 20000, false⟩)
    else if tiny m e 200 then (if neg then below false 1 0 else above false 1 0)
    else let r := expParts neg m e false; ⟨false, r.1, r.2, false⟩
  | .log2 =>
    let l := Nat.log2 m
    if m = 2 ^ l then ⟨decide (e + l < 0), (e + l).natAbs, 0, true⟩
    else
      let up : Bool := decide (3 * 2 ^ l < 2 * m)
      let k := e + l + (if up then 1 else 0)
      let u := m * 2 ^ prec / 2 ^ (l + (if up then 1 else 0))
      let n : Int := (u : Int) - (2 ^ prec : Nat)
      let z := n.natAbs * 2 ^ prec / (u + 2 ^ prec)
      let lg := 2 * atanhFix prec z * 2 ^ prec / ln2Fix prec
      let y : Int := k * (2 ^ prec : Nat) + signedNat (decide (n < 0)) lg
      ⟨decide (y < 0), y.natAbs, -(prec : Int), false⟩
  | .rcp => ⟨neg, 2 ^ (200 + Nat.log2 m) / m, -(200 + Nat.log2 m : Int) - e, decide (m = 2 ^ Nat.log2 m)⟩
  | .rsqrt =>
    let k := (e % 2).toNat
    let v := m * 2 ^ k
    let q := 200 + Nat.log2 v
    let r := isqrt (2 ^ (2 * q) / v)
    ⟨false, r, -(q : Int) - (e - k) / 2, decide (r * r * v = 2 ^ (2 * q))⟩
  | .sin | .cos =>
    let isSin := fn = .sin
    if tiny m e 100 then (if isSin then below neg m e else below false 1 0)
    else
      let bits := prec + 64 + (e + Nat.log2 m).toNat
      let half := piFix (bits + 1) / 4
      let x := if 0 ≤ e + bits then m * 2 ^ (e + bits).toNat else m / 2 ^ (-(e + bits)).toNat
      let q := x / half
      let r := (x % half) / 2 ^ (bits - prec)
      let quad := (q + (if isSin then 0 else 1)) % 4
      let v := if quad % 2 = 0 then sinFix prec r else cosFix prec r
      ⟨(decide (2 ≤ quad)) != (isSin && neg), v, -(prec : Int), false⟩
  | .tanh =>
    if tiny m e 100 then below neg m e
    else if large m e 8 then below neg 1 0
    else
      let r := expParts false m (e + 1) false
      let k := (r.2 + prec).toNat
      let ex := r.1 * 2 ^ k
      ⟨neg, (ex - 2 ^ prec) * 2 ^ prec / (ex + 2 ^ prec), -(prec : Int), false⟩
  | .sigmoid =>
    if tiny m e 200 then (if neg then below false 1 (-1) else above false 1 (-1))
    else if large m e 14 then (if neg then ⟨false, 1, -20000, false⟩ else below false 1 0)
    else
      let r := expParts neg m e false
      let k := r.2 + prec
      if 0 ≤ k then
        let ex := r.1 * 2 ^ k.toNat
        if 300 < k then below false 1 0 else ⟨false, ex * 2 ^ (prec + 300) / (ex + 2 ^ prec), -((prec : Int) + 300), false⟩
      else
        let d := 2 ^ (prec + (-k).toNat) + r.1
        ⟨false, r.1 * 2 ^ (prec + (-k).toNat) / d, k - prec, false⟩

/-- The bound of Table 10-9 in ulp; 0 where the result is correctly rounded (R228). -/
def Special8.bound (fn : Special8) (f : Fmt) (m : Nat) (e : Int) : Nat :=
  if f.w ≤ 16 ∨ fn = .rcp then 0
  else match fn with
    | .sin | .cos => if large m e 21 ∨ (large m e 20 ∧ m ≠ 2 ^ Nat.log2 m) then 4 else 2
    | .tanh | .sigmoid => 2
    | _ => 1

/-- The codes of a format within b ulp of a value (R227), ascending in magnitude; a value that is not exact lies above m * 2^e, so a code b
ulp below that is further from it. Near zero the bound takes in values of the other sign too; the model delivers those of the sign of the value (log 9). -/
def withinUlp (f : Fmt) (b : Nat) (y : Approx) : List Nat :=
  let lo := (f.round rmRTZ false false y.m y.e true).1
  let u := max ((Nat.log2 y.m : Int) + y.e) f.emin - f.frac
  (((List.range (3 * b + 1)).map fun i => (lo + b) - i).reverse).dedup.filter fun c =>
    decide (c ≤ f.big) && match f.decode c with
      | .fin _ m e =>
        let k := min (min e y.e) u
        let d : Int := (m * 2 ^ (e - k).toNat : Nat) - (y.m * 2 ^ (y.e - k).toNat : Nat)
        let w : Int := (b * 2 ^ (u - k).toNat : Nat)
        decide (d ≤ w) && (if y.exact then decide (-d ≤ w) else decide (-d < w))
      | _ => false

/-- A computed value delivered in a format (R211, R212, R227): exact or correctly rounded, or one of the values within the bound. What is correctly
rounded is the value with its sign (R228): under RDN and RUP f(-x) is then not -f(x) bit for bit, as R227 asks too (log 9). -/
def deliverApprox (fn : Special8) (f : Fmt) (t : Tag) (rm : BitVec 3) (b mag : Nat) (y : Approx) : Nat × Flags :=
  let r := f.round rm false y.neg y.m y.e (!y.exact)
  if b = 0 ∨ r.2 = 0 ∨ r.2 &&& fOF ≠ 0 then r
  else
    let l := withinUlp f b y
    if l.isEmpty then r
    else (l.getD (Config.specialSlack fn.code t.toNat mag % l.length) 0 + f.signBit y.neg, r.2)

/-- A special function of one element (R229, Table 10-10). -/
def Fmt.special8 (f : Fmt) (fn : Special8) (t : Tag) (rm : BitVec 3) (a : Nat) : Nat × Flags :=
  let go (n : Bool) (m : Nat) (e : Int) : Nat × Flags :=
    deliverApprox fn f t rm (fn.bound f m e) (a % 2 ^ (f.w - 1)) (fn.value n m e)
  let one : Nat := (f.round rmRNE false false 1 0 false).1
  match f.decode a with
  | .nan s => (f.canon, if s then fNV else 0)
  | .inf n =>
    match fn with
    | .exp2 | .exp => (if n then 0 else f.infCode false, 0)
    | .log2 => if n then (f.canon, fNV) else (f.infCode false, 0)
    | .rcp => (f.signBit n, 0)
    | .rsqrt => if n then (f.canon, fNV) else (0, 0)
    | .sin | .cos => (f.canon, fNV)
    | .tanh => (one + f.signBit n, 0)
    | .sigmoid => (if n then 0 else one, 0)
  | .fin n m e =>
    if m = 0 then
      match fn with
      | .exp2 | .exp | .cos => (one, 0)
      | .log2 => (f.infCode true, fDZ)
      | .rcp => (f.infCode n, fDZ)
      | .rsqrt => (f.infCode n, fDZ)
      | .sin | .tanh => (f.signBit n, 0)
      | .sigmoid => ((f.round rmRNE false false 1 (-1) false).1, 0)
    else match fn with
      | .log2 | .rsqrt => if n then (f.canon, fNV) else go n m e
      | _ => go n m e

/-- The tag check of R213: an approximate function rounds to nearest even only. -/
def specialOk (fn : Special8) (rm : BitVec 3) (t : Tag) : Except Trap Unit :=
  if 32 ≤ tagWidth t ∧ fn ≠ .rcp ∧ rm ≠ 0 then .error ⟨0x03, zext t⟩ else .ok ()

/-- A row of major 0x13 (R247). -/
def State.special (s : State) (fn : Special8) (vd va : VReg) (xl : XReg) (msk : MReg) (z : Bool) (rm : BitVec 3) : Out :=
  s.elementwise vd [.chain va] isWide id xl msk z .first true (specialOk fn rm)
    (one fun t a => onTag t (a, 0) fun f => f.special8 fn t rm a)

/-- `vexp2` (R247). -/
def execVexp2 (vd va xl : BitVec 5) (msk : BitVec 3) (z : Bool) (rm : BitVec 3) (s : State) : Out := s.special .exp2 vd va xl msk z rm
/-- `vexp` (R247). -/
def execVexp (vd va xl : BitVec 5) (msk : BitVec 3) (z : Bool) (rm : BitVec 3) (s : State) : Out := s.special .exp vd va xl msk z rm
/-- `vlog2` (R247). -/
def execVlog2 (vd va xl : BitVec 5) (msk : BitVec 3) (z : Bool) (rm : BitVec 3) (s : State) : Out := s.special .log2 vd va xl msk z rm
/-- `vrcp` (R247). -/
def execVrcp (vd va xl : BitVec 5) (msk : BitVec 3) (z : Bool) (rm : BitVec 3) (s : State) : Out := s.special .rcp vd va xl msk z rm
/-- `vrsqrt` (R247). -/
def execVrsqrt (vd va xl : BitVec 5) (msk : BitVec 3) (z : Bool) (rm : BitVec 3) (s : State) : Out := s.special .rsqrt vd va xl msk z rm
/-- `vsin` (R247). -/
def execVsin (vd va xl : BitVec 5) (msk : BitVec 3) (z : Bool) (rm : BitVec 3) (s : State) : Out := s.special .sin vd va xl msk z rm
/-- `vcos` (R247). -/
def execVcos (vd va xl : BitVec 5) (msk : BitVec 3) (z : Bool) (rm : BitVec 3) (s : State) : Out := s.special .cos vd va xl msk z rm
/-- `vtanh` (R247). -/
def execVtanh (vd va xl : BitVec 5) (msk : BitVec 3) (z : Bool) (rm : BitVec 3) (s : State) : Out := s.special .tanh vd va xl msk z rm
/-- `vsigmoid` (R247). -/
def execVsigmoid (vd va xl : BitVec 5) (msk : BitVec 3) (z : Bool) (rm : BitVec 3) (s : State) : Out := s.special .sigmoid vd va xl msk z rm

end Sys2Proof.Machine
end

