-- ==== Sys2Proof/Machine/Dispatch.lean ====
section
/-! DEFINITION. The meaning of each instruction and of each step of the device: one arm per constructor. -/

namespace Sys2Proof.Machine

/-- What an instruction or a step does (R74 step 8, R71; the rows of the opcode table). -/
def exec (i : Instr) (s : State) : Host.Outcome State Fault Refusal :=
  match i with
  | .add xd xa xb => Sys2Proof.Machine.execAdd xd xa xb s
  | .sub xd xa xb => Sys2Proof.Machine.execSub xd xa xb s
  | .mul xd xa xb => Sys2Proof.Machine.execMul xd xa xb s
  | .mulh xd xa xb => Sys2Proof.Machine.execMulh xd xa xb s
  | .mulhn xd xa xb => Sys2Proof.Machine.execMulhn xd xa xb s
  | .div xd xa xb => Sys2Proof.Machine.execDiv xd xa xb s
  | .divn xd xa xb => Sys2Proof.Machine.execDivn xd xa xb s
  | .rem xd xa xb => Sys2Proof.Machine.execRem xd xa xb s
  | .remn xd xa xb => Sys2Proof.Machine.execRemn xd xa xb s
  | .and xd xa xb => Sys2Proof.Machine.execAnd xd xa xb s
  | .or xd xa xb => Sys2Proof.Machine.execOr xd xa xb s
  | .xor xd xa xb => Sys2Proof.Machine.execXor xd xa xb s
  | .andn xd xa xb => Sys2Proof.Machine.execAndn xd xa xb s
  | .shl xd xa xb => Sys2Proof.Machine.execShl xd xa xb s
  | .shr xd xa xb => Sys2Proof.Machine.execShr xd xa xb s
  | .sra xd xa xb => Sys2Proof.Machine.execSra xd xa xb s
  | .rotl xd xa xb => Sys2Proof.Machine.execRotl xd xa xb s
  | .rotr xd xa xb => Sys2Proof.Machine.execRotr xd xa xb s
  | .min xd xa xb => Sys2Proof.Machine.execMin xd xa xb s
  | .max xd xa xb => Sys2Proof.Machine.execMax xd xa xb s
  | .minn xd xa xb => Sys2Proof.Machine.execMinn xd xa xb s
  | .maxn xd xa xb => Sys2Proof.Machine.execMaxn xd xa xb s
  | .slt xd xa xb => Sys2Proof.Machine.execSlt xd xa xb s
  | .sltn xd xa xb => Sys2Proof.Machine.execSltn xd xa xb s
  | .seq xd xa xb => Sys2Proof.Machine.execSeq xd xa xb s
  | .clz xd xa => Sys2Proof.Machine.execClz xd xa s
  | .ctz xd xa => Sys2Proof.Machine.execCtz xd xa s
  | .popc xd xa => Sys2Proof.Machine.execPopc xd xa s
  | .bswap xd xa => Sys2Proof.Machine.execBswap xd xa s
  | .sext xd xa xb => Sys2Proof.Machine.execSext xd xa xb s
  | .zext xd xa xb => Sys2Proof.Machine.execZext xd xa xb s
  | .sel xd xa xb xc => Sys2Proof.Machine.execSel xd xa xb xc s
  | .addi xd xa imm => Sys2Proof.Machine.execAddi xd xa imm s
  | .andi xd xa imm => Sys2Proof.Machine.execAndi xd xa imm s
  | .ori xd xa imm => Sys2Proof.Machine.execOri xd xa imm s
  | .xori xd xa imm => Sys2Proof.Machine.execXori xd xa imm s
  | .shli xd xa imm => Sys2Proof.Machine.execShli xd xa imm s
  | .shri xd xa imm => Sys2Proof.Machine.execShri xd xa imm s
  | .srai xd xa imm => Sys2Proof.Machine.execSrai xd xa imm s
  | .slti xd xa imm => Sys2Proof.Machine.execSlti xd xa imm s
  | .sltni xd xa imm => Sys2Proof.Machine.execSltni xd xa imm s
  | .seqi xd xa imm => Sys2Proof.Machine.execSeqi xd xa imm s
  | .muli xd xa imm => Sys2Proof.Machine.execMuli xd xa imm s
  | .ldi xd imm => Sys2Proof.Machine.execLdi xd imm s
  | .ldhi xd imm => Sys2Proof.Machine.execLdhi xd imm s
  | .pcadd xd imm => Sys2Proof.Machine.execPcadd xd imm s
  | .ld xd xa asr w imm => Sys2Proof.Machine.execLd xd xa asr w imm s
  | .ldn xd xa asr w imm => Sys2Proof.Machine.execLdn xd xa asr w imm s
  | .st xs xa asr w imm => Sys2Proof.Machine.execSt xs xa asr w imm s
  | .beq xa xb off => Sys2Proof.Machine.execBeq xa xb off s
  | .bne xa xb off => Sys2Proof.Machine.execBne xa xb off s
  | .blt xa xb off => Sys2Proof.Machine.execBlt xa xb off s
  | .bge xa xb off => Sys2Proof.Machine.execBge xa xb off s
  | .bltn xa xb off => Sys2Proof.Machine.execBltn xa xb off s
  | .bgen xa xb off => Sys2Proof.Machine.execBgen xa xb off s
  | .jal xd off => Sys2Proof.Machine.execJal xd off s
  | .jalr xd xa off => Sys2Proof.Machine.execJalr xd xa off s
  | .fadd xd xa xb rm fmt => Sys2Proof.Machine.execFadd xd xa xb rm fmt s
  | .fsub xd xa xb rm fmt => Sys2Proof.Machine.execFsub xd xa xb rm fmt s
  | .fmul xd xa xb rm fmt => Sys2Proof.Machine.execFmul xd xa xb rm fmt s
  | .fdiv xd xa xb rm fmt => Sys2Proof.Machine.execFdiv xd xa xb rm fmt s
  | .fsqrt xd xa rm fmt => Sys2Proof.Machine.execFsqrt xd xa rm fmt s
  | .fma xd xa xb xc rm fmt => Sys2Proof.Machine.execFma xd xa xb xc rm fmt s
  | .fms xd xa xb xc rm fmt => Sys2Proof.Machine.execFms xd xa xb xc rm fmt s
  | .fnma xd xa xb xc rm fmt => Sys2Proof.Machine.execFnma xd xa xb xc rm fmt s
  | .fmin xd xa xb fmt => Sys2Proof.Machine.execFmin xd xa xb fmt s
  | .fmax xd xa xb fmt => Sys2Proof.Machine.execFmax xd xa xb fmt s
  | .feq xd xa xb fmt => Sys2Proof.Machine.execFeq xd xa xb fmt s
  | .flt xd xa xb fmt => Sys2Proof.Machine.execFlt xd xa xb fmt s
  | .fle xd xa xb fmt => Sys2Proof.Machine.execFle xd xa xb fmt s
  | .fcvtfi xd xa tc rm fmt => Sys2Proof.Machine.execFcvtfi xd xa tc rm fmt s
  | .fcvtif xd xa tc rm fmt => Sys2Proof.Machine.execFcvtif xd xa tc rm fmt s
  | .fcvtff xd xa tc rm fmt => Sys2Proof.Machine.execFcvtff xd xa tc rm fmt s
  | .fclass xd xa fmt => Sys2Proof.Machine.execFclass xd xa fmt s
  | .fsgn xd xa xb md fmt => Sys2Proof.Machine.execFsgn xd xa xb md fmt s
  | .csrr xd csr => Sys2Proof.Machine.execCsrr xd csr s
  | .csrw xd xa csr => Sys2Proof.Machine.execCsrw xd xa csr s
  | .csrs xd xa csr => Sys2Proof.Machine.execCsrs xd xa csr s
  | .csrc xd xa csr => Sys2Proof.Machine.execCsrc xd xa csr s
  | .tlbinv xa xb xc => Sys2Proof.Machine.execTlbinv xa xb xc s
  | .vadd vd va vb xl msk z rm sc => Sys2Proof.Machine.execVadd vd va vb xl msk z rm sc s
  | .vsub vd va vb xl msk z rm sc => Sys2Proof.Machine.execVsub vd va vb xl msk z rm sc s
  | .vrsub vd va vb xl msk z rm sc => Sys2Proof.Machine.execVrsub vd va vb xl msk z rm sc s
  | .vmul vd va vb xl msk z rm sc => Sys2Proof.Machine.execVmul vd va vb xl msk z rm sc s
  | .vmulh vd va vb xl msk z sc => Sys2Proof.Machine.execVmulh vd va vb xl msk z sc s
  | .vdiv vd va vb xl msk z rm sc => Sys2Proof.Machine.execVdiv vd va vb xl msk z rm sc s
  | .vrem vd va vb xl msk z rm sc => Sys2Proof.Machine.execVrem vd va vb xl msk z rm sc s
  | .vfma vd va vb vc xl msk z rm sc => Sys2Proof.Machine.execVfma vd va vb vc xl msk z rm sc s
  | .vfms vd va vb vc xl msk z rm sc => Sys2Proof.Machine.execVfms vd va vb vc xl msk z rm sc s
  | .vfnma vd va vb vc xl msk z rm sc => Sys2Proof.Machine.execVfnma vd va vb vc xl msk z rm sc s
  | .vmin vd va vb xl msk z sc => Sys2Proof.Machine.execVmin vd va vb xl msk z sc s
  | .vmax vd va vb xl msk z sc => Sys2Proof.Machine.execVmax vd va vb xl msk z sc s
  | .vabs vd va xl msk z => Sys2Proof.Machine.execVabs vd va xl msk z s
  | .vneg vd va xl msk z => Sys2Proof.Machine.execVneg vd va xl msk z s
  | .vsqrt vd va xl msk z rm => Sys2Proof.Machine.execVsqrt vd va xl msk z rm s
  | .vand vd va vb xl msk z sc => Sys2Proof.Machine.execVand vd va vb xl msk z sc s
  | .vor vd va vb xl msk z sc => Sys2Proof.Machine.execVor vd va vb xl msk z sc s
  | .vxor vd va vb xl msk z sc => Sys2Proof.Machine.execVxor vd va vb xl msk z sc s
  | .vandn vd va vb xl msk z sc => Sys2Proof.Machine.execVandn vd va vb xl msk z sc s
  | .vshl vd va vb xl msk z sc => Sys2Proof.Machine.execVshl vd va vb xl msk z sc s
  | .vshr vd va vb xl msk z sc => Sys2Proof.Machine.execVshr vd va vb xl msk z sc s
  | .vsra vd va vb xl msk z sc => Sys2Proof.Machine.execVsra vd va vb xl msk z sc s
  | .vaddsat vd va vb xl msk z sc => Sys2Proof.Machine.execVaddsat vd va vb xl msk z sc s
  | .vsubsat vd va vb xl msk z sc => Sys2Proof.Machine.execVsubsat vd va vb xl msk z sc s
  | .vclz vd va xl msk z => Sys2Proof.Machine.execVclz vd va xl msk z s
  | .vpopc vd va xl msk z => Sys2Proof.Machine.execVpopc vd va xl msk z s
  | .vdot vd va vb vc xl msk z rm => Sys2Proof.Machine.execVdot vd va vb vc xl msk z rm s
  | .vclass vd va xl msk z => Sys2Proof.Machine.execVclass vd va xl msk z s
  | .vcopysign vd va vb xl msk z sc => Sys2Proof.Machine.execVcopysign vd va vb xl msk z sc s
  | .vmov vd va xl msk z => Sys2Proof.Machine.execVmov vd va xl msk z s
  | .vsplat vd xb xl msk z ot => Sys2Proof.Machine.execVsplat vd xb xl msk z ot s
  | .vid vd xl msk z ot => Sys2Proof.Machine.execVid vd xl msk z ot s
  | .vcmpeq md va vb xl msk z sc => Sys2Proof.Machine.execVcmpeq md va vb xl msk z sc s
  | .vcmpne md va vb xl msk z sc => Sys2Proof.Machine.execVcmpne md va vb xl msk z sc s
  | .vcmplt md va vb xl msk z sc => Sys2Proof.Machine.execVcmplt md va vb xl msk z sc s
  | .vcmple md va vb xl msk z sc => Sys2Proof.Machine.execVcmple md va vb xl msk z sc s
  | .vcmpgt md va vb xl msk z sc => Sys2Proof.Machine.execVcmpgt md va vb xl msk z sc s
  | .vcmpge md va vb xl msk z sc => Sys2Proof.Machine.execVcmpge md va vb xl msk z sc s
  | .vcmpun md va vb xl msk z sc => Sys2Proof.Machine.execVcmpun md va vb xl msk z sc s
  | .mand md ma mb xl => Sys2Proof.Machine.execMand md ma mb xl s
  | .mor md ma mb xl => Sys2Proof.Machine.execMor md ma mb xl s
  | .mxor md ma mb xl => Sys2Proof.Machine.execMxor md ma mb xl s
  | .mandn md ma mb xl => Sys2Proof.Machine.execMandn md ma mb xl s
  | .mnot md ma xl => Sys2Proof.Machine.execMnot md ma xl s
  | .mset md xl => Sys2Proof.Machine.execMset md xl s
  | .mclr md => Sys2Proof.Machine.execMclr md s
  | .mpopc xd ma xl => Sys2Proof.Machine.execMpopc xd ma xl s
  | .mfirst xd ma xl => Sys2Proof.Machine.execMfirst xd ma xl s
  | .mfromv md va xl msk z => Sys2Proof.Machine.execMfromv md va xl msk z s
  | .mtov vd ma xl msk z ot => Sys2Proof.Machine.execMtov vd ma xl msk z ot s
  | .vcvt vd va xl msk z rm ot => Sys2Proof.Machine.execVcvt vd va xl msk z rm ot s
  | .vcvtsat vd va xl msk z rm ot => Sys2Proof.Machine.execVcvtsat vd va xl msk z rm ot s
  | .vcvtmx vd va vsc xl rm ot => Sys2Proof.Machine.execVcvtmx vd va vsc xl rm ot s
  | .vcvtfrommx vd va vb xl msk z rm ot => Sys2Proof.Machine.execVcvtfrommx vd va vb xl msk z rm ot s
  | .vround vd va xl msk z rm => Sys2Proof.Machine.execVround vd va xl msk z rm s
  | .vexp2 vd va xl msk z rm => Sys2Proof.Machine.execVexp2 vd va xl msk z rm s
  | .vexp vd va xl msk z rm => Sys2Proof.Machine.execVexp vd va xl msk z rm s
  | .vlog2 vd va xl msk z rm => Sys2Proof.Machine.execVlog2 vd va xl msk z rm s
  | .vrcp vd va xl msk z rm => Sys2Proof.Machine.execVrcp vd va xl msk z rm s
  | .vrsqrt vd va xl msk z rm => Sys2Proof.Machine.execVrsqrt vd va xl msk z rm s
  | .vsin vd va xl msk z rm => Sys2Proof.Machine.execVsin vd va xl msk z rm s
  | .vcos vd va xl msk z rm => Sys2Proof.Machine.execVcos vd va xl msk z rm s
  | .vtanh vd va xl msk z rm => Sys2Proof.Machine.execVtanh vd va xl msk z rm s
  | .vsigmoid vd va xl msk z rm => Sys2Proof.Machine.execVsigmoid vd va xl msk z rm s
  | .vredsum xd va xl msk rm => Sys2Proof.Machine.execVredsum xd va xl msk rm s
  | .vredmax xd va xl msk => Sys2Proof.Machine.execVredmax xd va xl msk s
  | .vredmin xd va xl msk => Sys2Proof.Machine.execVredmin xd va xl msk s
  | .vredand xd va xl msk => Sys2Proof.Machine.execVredand xd va xl msk s
  | .vredor xd va xl msk => Sys2Proof.Machine.execVredor xd va xl msk s
  | .vscan vd va xl msk z rm => Sys2Proof.Machine.execVscan vd va xl msk z rm s
  | .vscanx vd va xl msk z rm => Sys2Proof.Machine.execVscanx vd va xl msk z rm s
  | .vscanmax vd va xl msk z => Sys2Proof.Machine.execVscanmax vd va xl msk z s
  | .vcompress vd va xl msk => Sys2Proof.Machine.execVcompress vd va xl msk s
  | .vexpand vd va vb xl msk z => Sys2Proof.Machine.execVexpand vd va vb xl msk z s
  | .vslideup vd va xb vc xl c => Sys2Proof.Machine.execVslideup vd va xb vc xl c s
  | .vslidedn vd va xb vc xl c => Sys2Proof.Machine.execVslidedn vd va xb vc xl c s
  | .vperm vd va vb xl => Sys2Proof.Machine.execVperm vd va vb xl s
  | .vrev vd va xl => Sys2Proof.Machine.execVrev vd va xl s
  | .vzip vd va vb xl => Sys2Proof.Machine.execVzip vd va vb xl s
  | .vunzip vd ve va xl => Sys2Proof.Machine.execVunzip vd ve va xl s
  | .vsegsum vd va vb xl msk rm => Sys2Proof.Machine.execVsegsum vd va vb xl msk rm s
  | .vsegscan vd va vb xl msk z rm => Sys2Proof.Machine.execVsegscan vd va vb xl msk z rm s
  | .vsegmax vd va vb xl msk => Sys2Proof.Machine.execVsegmax vd va vb xl msk s
  | .vsegmin vd va vb xl msk => Sys2Proof.Machine.execVsegmin vd va vb xl msk s
  | .vmergek vd va vb xl => Sys2Proof.Machine.execVmergek vd va vb xl s
  | .vsortk vd va xl blk => Sys2Proof.Machine.execVsortk vd va xl blk s
  | .vconflict md va xl msk => Sys2Proof.Machine.execVconflict md va xl msk s
  | .vld vd xa xl msk asr t imm => Sys2Proof.Machine.execVld vd xa xl msk asr t imm s
  | .vlds vd xa xb xl msk asr t imm => Sys2Proof.Machine.execVlds vd xa xb xl msk asr t imm s
  | .vldx vd xa vi xl msk asr t => Sys2Proof.Machine.execVldx vd xa vi xl msk asr t s
  | .vst vs xa xl msk asr t imm => Sys2Proof.Machine.execVst vs xa xl msk asr t imm s
  | .vsts vs xa xb xl msk asr t imm => Sys2Proof.Machine.execVsts vs xa xb xl msk asr t imm s
  | .vstx vs xa vi xl msk asr t => Sys2Proof.Machine.execVstx vs xa vi xl msk asr t s
  | .vstxadd vs xa vi xl msk asr scope t => Sys2Proof.Machine.execVstxadd vs xa vi xl msk asr scope t s
  | .cnew vd xa t => Sys2Proof.Machine.execCnew vd xa t s
  | .cfree vd => Sys2Proof.Machine.execCfree vd s
  | .cshare vd va => Sys2Proof.Machine.execCshare vd va s
  | .cprep vd va vb => Sys2Proof.Machine.execCprep vd va vb s
  | .csplice vd va vb xa => Sys2Proof.Machine.execCsplice vd va vb xa s
  | .csplit vd ve va xa => Sys2Proof.Machine.execCsplit vd ve va xa s
  | .ctrimh vd va xa => Sys2Proof.Machine.execCtrimh vd va xa s
  | .ctrimt vd va xa => Sys2Proof.Machine.execCtrimt vd va xa s
  | .cslice vd va xa xb => Sys2Proof.Machine.execCslice vd va xa xb s
  | .cretag vd va t => Sys2Proof.Machine.execCretag vd va t s
  | .clen xd va => Sys2Proof.Machine.execClen xd va s
  | .cinfo xd va imm => Sys2Proof.Machine.execCinfo xd va imm s
  | .cflat vd va => Sys2Proof.Machine.execCflat vd va s
  | .cpriv vd va => Sys2Proof.Machine.execCpriv vd va s
  | .cpoolst xd => Sys2Proof.Machine.execCpoolst xd s
  | .cwait => Sys2Proof.Machine.execCwait s
  | .zmode zd xk => Sys2Proof.Machine.execZmode zd xk s
  | .zzero zd => Sys2Proof.Machine.execZzero zd s
  | .zop zd va vb xk rm => Sys2Proof.Machine.execZop zd va vb xk rm s
  | .zopmx zd va vb xk rm vsa vsb => Sys2Proof.Machine.execZopmx zd va vb xk rm vsa vsb s
  | .zload zd va xk xs => Sys2Proof.Machine.execZload zd va xk xs s
  | .zdrain zd vd xk xs rm ot => Sys2Proof.Machine.execZdrain zd vd xk xs rm ot s
  | .zrow zd vd xs => Sys2Proof.Machine.execZrow zd vd xs s
  | .zchk zd md xs => Sys2Proof.Machine.execZchk zd md xs s
  | .kacq xd xa xb asr imm => Sys2Proof.Machine.execKacq xd xa xb asr imm s
  | .klend xd xa xb xc asr imm => Sys2Proof.Machine.execKlend xd xa xb xc asr imm s
  | .kshare xd xa xb xc asr imm => Sys2Proof.Machine.execKshare xd xa xb xc asr imm s
  | .kret xd xa xb asr imm => Sys2Proof.Machine.execKret xd xa xb asr imm s
  | .kunshare xd xa xb asr imm => Sys2Proof.Machine.execKunshare xd xa xb asr imm s
  | .ksplit xd xa xb asr imm => Sys2Proof.Machine.execKsplit xd xa xb asr imm s
  | .kmerge xd xa xb asr imm => Sys2Proof.Machine.execKmerge xd xa xb asr imm s
  | .kdrop xd xa xb asr imm => Sys2Proof.Machine.execKdrop xd xa xb asr imm s
  | .kquery xd xa asr imm => Sys2Proof.Machine.execKquery xd xa asr imm s
  | .krecover xd xa xb xc asr imm => Sys2Proof.Machine.execKrecover xd xa xb xc asr imm s
  | .kclean xd xa xb asr imm => Sys2Proof.Machine.execKclean xd xa xb asr imm s
  | .aadd xd xa xb asr scope ord w off => Sys2Proof.Machine.execAadd xd xa xb asr scope ord w off s
  | .amin xd xa xb asr scope ord w off => Sys2Proof.Machine.execAmin xd xa xb asr scope ord w off s
  | .amax xd xa xb asr scope ord w off => Sys2Proof.Machine.execAmax xd xa xb asr scope ord w off s
  | .aminn xd xa xb asr scope ord w off => Sys2Proof.Machine.execAminn xd xa xb asr scope ord w off s
  | .amaxn xd xa xb asr scope ord w off => Sys2Proof.Machine.execAmaxn xd xa xb asr scope ord w off s
  | .aand xd xa xb asr scope ord w off => Sys2Proof.Machine.execAand xd xa xb asr scope ord w off s
  | .aor xd xa xb asr scope ord w off => Sys2Proof.Machine.execAor xd xa xb asr scope ord w off s
  | .axor xd xa xb asr scope ord w off => Sys2Proof.Machine.execAxor xd xa xb asr scope ord w off s
  | .aswap xd xa xb asr scope ord w off => Sys2Proof.Machine.execAswap xd xa xb asr scope ord w off s
  | .acas xd xa xb xc asr scope ord w off => Sys2Proof.Machine.execAcas xd xa xb xc asr scope ord w off s
  | .afadd xd xa xb rm asr scope ord w off => Sys2Proof.Machine.execAfadd xd xa xb rm asr scope ord w off s
  | .afmax xd xa xb asr scope ord w off => Sys2Proof.Machine.execAfmax xd xa xb asr scope ord w off s
  | .ald xd xa asr scope ord w off => Sys2Proof.Machine.execAld xd xa asr scope ord w off s
  | .ast xa xb asr scope ord w off => Sys2Proof.Machine.execAst xa xb asr scope ord w off s
  | .fenceSv xa xb asr scope imm => Sys2Proof.Machine.execFenceSv xa xb asr scope imm s
  | .fenceVs scope => Sys2Proof.Machine.execFenceVs scope s
  | .fenceVv scope => Sys2Proof.Machine.execFenceVv scope s
  | .fenceAll xa xb asr scope imm => Sys2Proof.Machine.execFenceAll xa xb asr scope imm s
  | .gbar xd => Sys2Proof.Machine.execGbar xd s
  | .gbarin => Sys2Proof.Machine.execGbarin s
  | .gbarwt xd => Sys2Proof.Machine.execGbarwt xd s
  | .await xd xa xb xc asr scope ord w off => Sys2Proof.Machine.execAwait xd xa xb xc asr scope ord w off s
  | .ecopy xd xa xb xc asr imm => Sys2Proof.Machine.execEcopy xd xa xb xc asr imm s
  | .ecopyc vd xa xb xl asr t imm => Sys2Proof.Machine.execEcopyc vd xa xb xl asr t imm s
  | .ecast xd xa xb xc asr imm => Sys2Proof.Machine.execEcast xd xa xb xc asr imm s
  | .ewin xd xa xb xc asr imm => Sys2Proof.Machine.execEwin xd xa xb xc asr imm s
  | .ewait xd xa => Sys2Proof.Machine.execEwait xd xa s
  | .estat xd xa imm => Sys2Proof.Machine.execEstat xd xa imm s
  | .qsel xd xa xb xc asr imm => Sys2Proof.Machine.execQsel xd xa xb xc asr imm s
  | .qtopk xd xa xb xc asr imm => Sys2Proof.Machine.execQtopk xd xa xb xc asr imm s
  | .qcount xd xa xb xc asr imm => Sys2Proof.Machine.execQcount xd xa xb xc asr imm s
  | .setvl xd xa xb => Sys2Proof.Machine.execSetvl xd xa xb s
  | .vrel => Sys2Proof.Machine.execVrel s
  | .yield xa => Sys2Proof.Machine.execYield xa s
  | .exit xa => Sys2Proof.Machine.execExit xa s
  | .launch xd xa xb asr imm => Sys2Proof.Machine.execLaunch xd xa xb asr imm s
  | .trapret => Sys2Proof.Machine.execTrapret s
  | .ecall imm => Sys2Proof.Machine.execEcall imm s
  | .ebreak imm => Sys2Proof.Machine.execEbreak imm s
  | .hsave xd xa => Sys2Proof.Machine.execHsave xd xa s
  | .hload xd xa => Sys2Proof.Machine.execHload xd xa s
  | .engineRow hart => Sys2Proof.Machine.execEngineRow hart s
  | .ecopycTransfer hart count => Sys2Proof.Machine.execEcopycTransfer hart count s
  | .copyCommandComplete hart => Sys2Proof.Machine.execCopyCommandComplete hart s
  | .selectionScan hart ticket stack => Sys2Proof.Machine.execSelectionScan hart ticket stack s
  | .selectionMerge hart ticket => Sys2Proof.Machine.execSelectionMerge hart ticket s
  | .reclaimSpine core => Sys2Proof.Machine.execReclaimSpine core s
  | .writePerformed k => Sys2Proof.Machine.execWritePerformed k s
  | .keyTransferComplete hart => Sys2Proof.Machine.execKeyTransferComplete hart s
  | .tlbinvComplete hart => Sys2Proof.Machine.execTlbinvComplete hart s
  | .fenceComplete hart => Sys2Proof.Machine.execFenceComplete hart s
  | .awaitWake hart => Sys2Proof.Machine.execAwaitWake hart s
  | .awaitTimeout hart => Sys2Proof.Machine.execAwaitTimeout hart s
  | .yieldExpiry hart => Sys2Proof.Machine.execYieldExpiry hart s
  | .gatherRequest k => Sys2Proof.Machine.execGatherRequest k s
  | .gatherReply k => Sys2Proof.Machine.execGatherReply k s
  | .scatter k => Sys2Proof.Machine.execScatter k s
  | .scatterAdd k => Sys2Proof.Machine.execScatterAdd k s
  | .launchDoorbell who queue tail => Sys2Proof.Machine.execLaunchDoorbell who queue tail s
  | .launchPacketAdmit queue => Sys2Proof.Machine.execLaunchPacketAdmit queue s
  | .launchReady k => Sys2Proof.Machine.execLaunchReady k s
  | .priorityAging k => Sys2Proof.Machine.execPriorityAging k s
  | .gangPlacement => Sys2Proof.Machine.execGangPlacement s
  | .hartStart hart => Sys2Proof.Machine.execHartStart hart s
  | .gangRestore => Sys2Proof.Machine.execGangRestore s
  | .suspension hart => Sys2Proof.Machine.execSuspension hart s
  | .hartResume hart => Sys2Proof.Machine.execHartResume hart s
  | .hartTerminate hart => Sys2Proof.Machine.execHartTerminate hart s
  | .eviction gang => Sys2Proof.Machine.execEviction gang s
  | .evictionComplete gang => Sys2Proof.Machine.execEvictionComplete gang s
  | .hartExitComplete hart => Sys2Proof.Machine.execHartExitComplete hart s
  | .laneDebtTimeout hart => Sys2Proof.Machine.execLaneDebtTimeout hart s
  | .interruptTaken hart => Sys2Proof.Machine.execInterruptTaken hart s
  | .hipRaise who hart => Sys2Proof.Machine.execHipRaise who hart s
  | .timerExpiry hart => Sys2Proof.Machine.execTimerExpiry hart s
  | .trapRecordDiscard hart => Sys2Proof.Machine.execTrapRecordDiscard hart s
  | .frameCopyStart stack index src dst => Sys2Proof.Machine.execFrameCopyStart stack index src dst s
  | .frameCopyEnd stack index => Sys2Proof.Machine.execFrameCopyEnd stack index s
  | .frameEntryFree stack index => Sys2Proof.Machine.execFrameEntryFree stack index s
  | .seatClaim node => Sys2Proof.Machine.execSeatClaim node s
  | .seatOffer node target => Sys2Proof.Machine.execSeatOffer node target s
  | .seatAccept node => Sys2Proof.Machine.execSeatAccept node s
  | .seatRelease node => Sys2Proof.Machine.execSeatRelease node s
  | .seatClear => Sys2Proof.Machine.execSeatClear s
  | .seatRefusedOp node op => Sys2Proof.Machine.execSeatRefusedOp node op s
  | .windowWrite who offset value => Sys2Proof.Machine.execWindowWrite who offset value s
  | .snapshotTrigger => Sys2Proof.Machine.execSnapshotTrigger s
  | .snapshotLatch => Sys2Proof.Machine.execSnapshotLatch s
  | .attestationNonce node nonce => Sys2Proof.Machine.execAttestationNonce node nonce s
  | .hostAccess node ctx space offset write data => Sys2Proof.Machine.execHostAccess node ctx space offset write data s
  | .fabricRequest agent ctx space offset sup op => Sys2Proof.Machine.execFabricRequest agent ctx space offset sup op s
  | .flitReplay port => Sys2Proof.Machine.execFlitReplay port s
  | .portRetrainDone port => Sys2Proof.Machine.execPortRetrainDone port s
  | .nodeUnreachable node => Sys2Proof.Machine.execNodeUnreachable node s
  | .stackScrub sector finding => Sys2Proof.Machine.execStackScrub sector finding s
  | .coreScrub core row finding => Sys2Proof.Machine.execCoreScrub core row finding s
  | .deviceReset => Sys2Proof.Machine.execDeviceReset s
  | .hbmZeroingDone => Sys2Proof.Machine.execHbmZeroingDone s
  | .gueskStart => Sys2Proof.Machine.execGueskStart s
  | .powerCapCheck watts => Sys2Proof.Machine.execPowerCapCheck watts s
  | .thermalThrottle => Sys2Proof.Machine.execThermalThrottle s
  | .thermalSuspend => Sys2Proof.Machine.execThermalSuspend s
  | .thermalResume => Sys2Proof.Machine.execThermalResume s
  | .idleEntry => Sys2Proof.Machine.execIdleEntry s
  | .idleExit => Sys2Proof.Machine.execIdleExit s
  | .powerOff => Sys2Proof.Machine.execPowerOff s
  | .nodeReadmission node => Sys2Proof.Machine.execNodeReadmission node s
  | .snapshotLanded => Sys2Proof.Machine.execSnapshotLanded s

end Sys2Proof.Machine
end

