-- ==== Sys2Proof/WellFormed.lean ====
section
/-! DEFINITION. Which instruction terms are legal words (R69, R70, R73): the limits the descriptions put on fields that the
field widths of Table 03-4 do not already say. A step of the device has no word, so none of them is a well-formed word. -/

namespace Sys2Proof

/-- A register group that starts at the xc field: x(c) to x(c+n) lie in the register file (R125, R139). -/
def groupOk (xc : BitVec 5) (last : Nat) : Bool := decide (1 ≤ xc.toNat) && decide (xc.toNat ≤ last)

/-- The rows of the opcode table that are instructions, with a word of their own. -/
def Instr.isWord : Instr → Bool
  | .add _ _ _ => true
  | .sub _ _ _ => true
  | .mul _ _ _ => true
  | .mulh _ _ _ => true
  | .mulhn _ _ _ => true
  | .div _ _ _ => true
  | .divn _ _ _ => true
  | .rem _ _ _ => true
  | .remn _ _ _ => true
  | .and _ _ _ => true
  | .or _ _ _ => true
  | .xor _ _ _ => true
  | .andn _ _ _ => true
  | .shl _ _ _ => true
  | .shr _ _ _ => true
  | .sra _ _ _ => true
  | .rotl _ _ _ => true
  | .rotr _ _ _ => true
  | .min _ _ _ => true
  | .max _ _ _ => true
  | .minn _ _ _ => true
  | .maxn _ _ _ => true
  | .slt _ _ _ => true
  | .sltn _ _ _ => true
  | .seq _ _ _ => true
  | .clz _ _ => true
  | .ctz _ _ => true
  | .popc _ _ => true
  | .bswap _ _ => true
  | .sext _ _ _ => true
  | .zext _ _ _ => true
  | .sel _ _ _ _ => true
  | .addi _ _ _ => true
  | .andi _ _ _ => true
  | .ori _ _ _ => true
  | .xori _ _ _ => true
  | .shli _ _ _ => true
  | .shri _ _ _ => true
  | .srai _ _ _ => true
  | .slti _ _ _ => true
  | .sltni _ _ _ => true
  | .seqi _ _ _ => true
  | .muli _ _ _ => true
  | .ldi _ _ => true
  | .ldhi _ _ => true
  | .pcadd _ _ => true
  | .ld _ _ _ _ _ => true
  | .ldn _ _ _ _ _ => true
  | .st _ _ _ _ _ => true
  | .beq _ _ _ => true
  | .bne _ _ _ => true
  | .blt _ _ _ => true
  | .bge _ _ _ => true
  | .bltn _ _ _ => true
  | .bgen _ _ _ => true
  | .jal _ _ => true
  | .jalr _ _ _ => true
  | .fadd _ _ _ _ _ => true
  | .fsub _ _ _ _ _ => true
  | .fmul _ _ _ _ _ => true
  | .fdiv _ _ _ _ _ => true
  | .fsqrt _ _ _ _ => true
  | .fma _ _ _ _ _ _ => true
  | .fms _ _ _ _ _ _ => true
  | .fnma _ _ _ _ _ _ => true
  | .fmin _ _ _ _ => true
  | .fmax _ _ _ _ => true
  | .feq _ _ _ _ => true
  | .flt _ _ _ _ => true
  | .fle _ _ _ _ => true
  | .fcvtfi _ _ _ _ _ => true
  | .fcvtif _ _ _ _ _ => true
  | .fcvtff _ _ _ _ _ => true
  | .fclass _ _ _ => true
  | .fsgn _ _ _ _ _ => true
  | .csrr _ _ => true
  | .csrw _ _ _ => true
  | .csrs _ _ _ => true
  | .csrc _ _ _ => true
  | .tlbinv _ _ _ => true
  | .vadd _ _ _ _ _ _ _ _ => true
  | .vsub _ _ _ _ _ _ _ _ => true
  | .vrsub _ _ _ _ _ _ _ _ => true
  | .vmul _ _ _ _ _ _ _ _ => true
  | .vmulh _ _ _ _ _ _ _ => true
  | .vdiv _ _ _ _ _ _ _ _ => true
  | .vrem _ _ _ _ _ _ _ _ => true
  | .vfma _ _ _ _ _ _ _ _ _ => true
  | .vfms _ _ _ _ _ _ _ _ _ => true
  | .vfnma _ _ _ _ _ _ _ _ _ => true
  | .vmin _ _ _ _ _ _ _ => true
  | .vmax _ _ _ _ _ _ _ => true
  | .vabs _ _ _ _ _ => true
  | .vneg _ _ _ _ _ => true
  | .vsqrt _ _ _ _ _ _ => true
  | .vand _ _ _ _ _ _ _ => true
  | .vor _ _ _ _ _ _ _ => true
  | .vxor _ _ _ _ _ _ _ => true
  | .vandn _ _ _ _ _ _ _ => true
  | .vshl _ _ _ _ _ _ _ => true
  | .vshr _ _ _ _ _ _ _ => true
  | .vsra _ _ _ _ _ _ _ => true
  | .vaddsat _ _ _ _ _ _ _ => true
  | .vsubsat _ _ _ _ _ _ _ => true
  | .vclz _ _ _ _ _ => true
  | .vpopc _ _ _ _ _ => true
  | .vdot _ _ _ _ _ _ _ _ => true
  | .vclass _ _ _ _ _ => true
  | .vcopysign _ _ _ _ _ _ _ => true
  | .vmov _ _ _ _ _ => true
  | .vsplat _ _ _ _ _ _ => true
  | .vid _ _ _ _ _ => true
  | .vcmpeq _ _ _ _ _ _ _ => true
  | .vcmpne _ _ _ _ _ _ _ => true
  | .vcmplt _ _ _ _ _ _ _ => true
  | .vcmple _ _ _ _ _ _ _ => true
  | .vcmpgt _ _ _ _ _ _ _ => true
  | .vcmpge _ _ _ _ _ _ _ => true
  | .vcmpun _ _ _ _ _ _ _ => true
  | .mand _ _ _ _ => true
  | .mor _ _ _ _ => true
  | .mxor _ _ _ _ => true
  | .mandn _ _ _ _ => true
  | .mnot _ _ _ => true
  | .mset _ _ => true
  | .mclr _ => true
  | .mpopc _ _ _ => true
  | .mfirst _ _ _ => true
  | .mfromv _ _ _ _ _ => true
  | .mtov _ _ _ _ _ _ => true
  | .vcvt _ _ _ _ _ _ _ => true
  | .vcvtsat _ _ _ _ _ _ _ => true
  | .vcvtmx _ _ _ _ _ _ => true
  | .vcvtfrommx _ _ _ _ _ _ _ _ => true
  | .vround _ _ _ _ _ _ => true
  | .vexp2 _ _ _ _ _ _ => true
  | .vexp _ _ _ _ _ _ => true
  | .vlog2 _ _ _ _ _ _ => true
  | .vrcp _ _ _ _ _ _ => true
  | .vrsqrt _ _ _ _ _ _ => true
  | .vsin _ _ _ _ _ _ => true
  | .vcos _ _ _ _ _ _ => true
  | .vtanh _ _ _ _ _ _ => true
  | .vsigmoid _ _ _ _ _ _ => true
  | .vredsum _ _ _ _ _ => true
  | .vredmax _ _ _ _ => true
  | .vredmin _ _ _ _ => true
  | .vredand _ _ _ _ => true
  | .vredor _ _ _ _ => true
  | .vscan _ _ _ _ _ _ => true
  | .vscanx _ _ _ _ _ _ => true
  | .vscanmax _ _ _ _ _ => true
  | .vcompress _ _ _ _ => true
  | .vexpand _ _ _ _ _ _ => true
  | .vslideup _ _ _ _ _ _ => true
  | .vslidedn _ _ _ _ _ _ => true
  | .vperm _ _ _ _ => true
  | .vrev _ _ _ => true
  | .vzip _ _ _ _ => true
  | .vunzip _ _ _ _ => true
  | .vsegsum _ _ _ _ _ _ => true
  | .vsegscan _ _ _ _ _ _ _ => true
  | .vsegmax _ _ _ _ _ => true
  | .vsegmin _ _ _ _ _ => true
  | .vmergek _ _ _ _ => true
  | .vsortk _ _ _ _ => true
  | .vconflict _ _ _ _ => true
  | .vld _ _ _ _ _ _ _ => true
  | .vlds _ _ _ _ _ _ _ _ => true
  | .vldx _ _ _ _ _ _ _ => true
  | .vst _ _ _ _ _ _ _ => true
  | .vsts _ _ _ _ _ _ _ _ => true
  | .vstx _ _ _ _ _ _ _ => true
  | .vstxadd _ _ _ _ _ _ _ _ => true
  | .cnew _ _ _ => true
  | .cfree _ => true
  | .cshare _ _ => true
  | .cprep _ _ _ => true
  | .csplice _ _ _ _ => true
  | .csplit _ _ _ _ => true
  | .ctrimh _ _ _ => true
  | .ctrimt _ _ _ => true
  | .cslice _ _ _ _ => true
  | .cretag _ _ _ => true
  | .clen _ _ => true
  | .cinfo _ _ _ => true
  | .cflat _ _ => true
  | .cpriv _ _ => true
  | .cpoolst _ => true
  | .cwait => true
  | .zmode _ _ => true
  | .zzero _ => true
  | .zop _ _ _ _ _ => true
  | .zopmx _ _ _ _ _ _ _ => true
  | .zload _ _ _ _ => true
  | .zdrain _ _ _ _ _ _ => true
  | .zrow _ _ _ => true
  | .zchk _ _ _ => true
  | .kacq _ _ _ _ _ => true
  | .klend _ _ _ _ _ _ => true
  | .kshare _ _ _ _ _ _ => true
  | .kret _ _ _ _ _ => true
  | .kunshare _ _ _ _ _ => true
  | .ksplit _ _ _ _ _ => true
  | .kmerge _ _ _ _ _ => true
  | .kdrop _ _ _ _ _ => true
  | .kquery _ _ _ _ => true
  | .krecover _ _ _ _ _ _ => true
  | .kclean _ _ _ _ _ => true
  | .aadd _ _ _ _ _ _ _ _ => true
  | .amin _ _ _ _ _ _ _ _ => true
  | .amax _ _ _ _ _ _ _ _ => true
  | .aminn _ _ _ _ _ _ _ _ => true
  | .amaxn _ _ _ _ _ _ _ _ => true
  | .aand _ _ _ _ _ _ _ _ => true
  | .aor _ _ _ _ _ _ _ _ => true
  | .axor _ _ _ _ _ _ _ _ => true
  | .aswap _ _ _ _ _ _ _ _ => true
  | .acas _ _ _ _ _ _ _ _ _ => true
  | .afadd _ _ _ _ _ _ _ _ _ => true
  | .afmax _ _ _ _ _ _ _ _ => true
  | .ald _ _ _ _ _ _ _ => true
  | .ast _ _ _ _ _ _ _ => true
  | .fenceSv _ _ _ _ _ => true
  | .fenceVs _ => true
  | .fenceVv _ => true
  | .fenceAll _ _ _ _ _ => true
  | .gbar _ => true
  | .gbarin => true
  | .gbarwt _ => true
  | .await _ _ _ _ _ _ _ _ _ => true
  | .ecopy _ _ _ _ _ _ => true
  | .ecopyc _ _ _ _ _ _ _ => true
  | .ecast _ _ _ _ _ _ => true
  | .ewin _ _ _ _ _ _ => true
  | .ewait _ _ => true
  | .estat _ _ _ => true
  | .qsel _ _ _ _ _ _ => true
  | .qtopk _ _ _ _ _ _ => true
  | .qcount _ _ _ _ _ _ => true
  | .setvl _ _ _ => true
  | .vrel => true
  | .yield _ => true
  | .exit _ => true
  | .launch _ _ _ _ _ => true
  | .trapret => true
  | .ecall _ => true
  | .ebreak _ => true
  | .hsave _ _ => true
  | .hload _ _ => true
  | .engineRow _ => false
  | .ecopycTransfer _ _ => false
  | .copyCommandComplete _ => false
  | .selectionScan _ _ _ => false
  | .selectionMerge _ _ => false
  | .reclaimSpine _ => false
  | .writePerformed _ => false
  | .keyTransferComplete _ => false
  | .tlbinvComplete _ => false
  | .fenceComplete _ => false
  | .awaitWake _ => false
  | .awaitTimeout _ => false
  | .yieldExpiry _ => false
  | .gatherRequest _ => false
  | .gatherReply _ => false
  | .scatter _ => false
  | .scatterAdd _ => false
  | .launchDoorbell _ _ _ => false
  | .launchPacketAdmit _ => false
  | .launchReady _ => false
  | .priorityAging _ => false
  | .gangPlacement => false
  | .hartStart _ => false
  | .gangRestore => false
  | .suspension _ => false
  | .hartResume _ => false
  | .hartTerminate _ => false
  | .eviction _ => false
  | .evictionComplete _ => false
  | .hartExitComplete _ => false
  | .laneDebtTimeout _ => false
  | .interruptTaken _ => false
  | .hipRaise _ _ => false
  | .timerExpiry _ => false
  | .trapRecordDiscard _ => false
  | .frameCopyStart _ _ _ _ => false
  | .frameCopyEnd _ _ => false
  | .frameEntryFree _ _ => false
  | .seatClaim _ => false
  | .seatOffer _ _ => false
  | .seatAccept _ => false
  | .seatRelease _ => false
  | .seatClear => false
  | .seatRefusedOp _ _ => false
  | .windowWrite _ _ _ => false
  | .snapshotTrigger => false
  | .snapshotLatch => false
  | .attestationNonce _ _ => false
  | .hostAccess _ _ _ _ _ _ => false
  | .fabricRequest _ _ _ _ _ _ => false
  | .flitReplay _ => false
  | .portRetrainDone _ => false
  | .nodeUnreachable _ => false
  | .stackScrub _ _ => false
  | .coreScrub _ _ _ => false
  | .deviceReset => false
  | .hbmZeroingDone => false
  | .gueskStart => false
  | .powerCapCheck _ => false
  | .thermalThrottle => false
  | .thermalSuspend => false
  | .thermalResume => false
  | .idleEntry => false
  | .idleExit => false
  | .powerOff => false
  | .nodeReadmission _ => false
  | .snapshotLanded => false

/-- R69, R70, R73: the fields of the word hold values the instruction accepts. -/
def Instr.wf : Instr → Bool
  | .add _ _ _ => true
  | .sub _ _ _ => true
  | .mul _ _ _ => true
  | .mulh _ _ _ => true
  | .mulhn _ _ _ => true
  | .div _ _ _ => true
  | .divn _ _ _ => true
  | .rem _ _ _ => true
  | .remn _ _ _ => true
  | .and _ _ _ => true
  | .or _ _ _ => true
  | .xor _ _ _ => true
  | .andn _ _ _ => true
  | .shl _ _ _ => true
  | .shr _ _ _ => true
  | .sra _ _ _ => true
  | .rotl _ _ _ => true
  | .rotr _ _ _ => true
  | .min _ _ _ => true
  | .max _ _ _ => true
  | .minn _ _ _ => true
  | .maxn _ _ _ => true
  | .slt _ _ _ => true
  | .sltn _ _ _ => true
  | .seq _ _ _ => true
  | .clz _ _ => true
  | .ctz _ _ => true
  | .popc _ _ => true
  | .bswap _ _ => true
  | .sext _ _ _ => true
  | .zext _ _ _ => true
  | .sel _ _ _ _ => true
  | .addi _ _ _ => true
  | .andi _ _ _ => true
  | .ori _ _ _ => true
  | .xori _ _ _ => true
  | .shli _ _ imm => decide (imm.toNat ≤ 63)
  | .shri _ _ imm => decide (imm.toNat ≤ 63)
  | .srai _ _ imm => decide (imm.toNat ≤ 63)
  | .slti _ _ _ => true
  | .sltni _ _ _ => true
  | .seqi _ _ _ => true
  | .muli _ _ _ => true
  | .ldi _ _ => true
  | .ldhi _ _ => true
  | .pcadd _ _ => true
  | .ld _ _ _ _ _ => true
  | .ldn _ _ _ _ _ => true
  | .st _ _ _ _ _ => true
  | .beq _ _ _ => true
  | .bne _ _ _ => true
  | .blt _ _ _ => true
  | .bge _ _ _ => true
  | .bltn _ _ _ => true
  | .bgen _ _ _ => true
  | .jal _ _ => true
  | .jalr _ _ _ => true
  | .fadd _ _ _ rm _ => decide (rm.toNat ≤ 4)
  | .fsub _ _ _ rm _ => decide (rm.toNat ≤ 4)
  | .fmul _ _ _ rm _ => decide (rm.toNat ≤ 4)
  | .fdiv _ _ _ rm _ => decide (rm.toNat ≤ 4)
  | .fsqrt _ _ rm _ => decide (rm.toNat ≤ 4)
  | .fma _ _ _ _ rm _ => decide (rm.toNat ≤ 4)
  | .fms _ _ _ _ rm _ => decide (rm.toNat ≤ 4)
  | .fnma _ _ _ _ rm _ => decide (rm.toNat ≤ 4)
  | .fmin _ _ _ _ => true
  | .fmax _ _ _ _ => true
  | .feq _ _ _ _ => true
  | .flt _ _ _ _ => true
  | .fle _ _ _ _ => true
  | .fcvtfi _ _ tc rm _ => decide (rm.toNat ≤ 4) && decide (1 ≤ tc.toNat) && decide (tc.toNat ≤ 8)
  | .fcvtif _ _ tc rm _ => decide (rm.toNat ≤ 4) && decide (1 ≤ tc.toNat) && decide (tc.toNat ≤ 8)
  | .fcvtff _ _ tc rm _ => decide (rm.toNat ≤ 4) && decide (tc.toNat ≤ 3)
  | .fclass _ _ _ => true
  | .fsgn _ _ _ md _ => decide (md.toNat ≤ 2)
  | .csrr _ _ => true
  | .csrw _ _ _ => true
  | .csrs _ _ _ => true
  | .csrc _ _ _ => true
  | .tlbinv _ _ _ => true
  | .vadd _ _ _ _ _ _ rm _ => decide (rm.toNat ≤ 4)
  | .vsub _ _ _ _ _ _ rm _ => decide (rm.toNat ≤ 4)
  | .vrsub _ _ _ _ _ _ rm _ => decide (rm.toNat ≤ 4)
  | .vmul _ _ _ _ _ _ rm _ => decide (rm.toNat ≤ 4)
  | .vmulh _ _ _ _ _ _ _ => true
  | .vdiv _ _ _ _ _ _ rm _ => decide (rm.toNat ≤ 4)
  | .vrem _ _ _ _ _ _ rm _ => decide (rm.toNat ≤ 4)
  | .vfma _ _ _ _ _ _ _ rm _ => decide (rm.toNat ≤ 4)
  | .vfms _ _ _ _ _ _ _ rm _ => decide (rm.toNat ≤ 4)
  | .vfnma _ _ _ _ _ _ _ rm _ => decide (rm.toNat ≤ 4)
  | .vmin _ _ _ _ _ _ _ => true
  | .vmax _ _ _ _ _ _ _ => true
  | .vabs _ _ _ _ _ => true
  | .vneg _ _ _ _ _ => true
  | .vsqrt _ _ _ _ _ rm => decide (rm.toNat ≤ 4)
  | .vand _ _ _ _ _ _ _ => true
  | .vor _ _ _ _ _ _ _ => true
  | .vxor _ _ _ _ _ _ _ => true
  | .vandn _ _ _ _ _ _ _ => true
  | .vshl _ _ _ _ _ _ _ => true
  | .vshr _ _ _ _ _ _ _ => true
  | .vsra _ _ _ _ _ _ _ => true
  | .vaddsat _ _ _ _ _ _ _ => true
  | .vsubsat _ _ _ _ _ _ _ => true
  | .vclz _ _ _ _ _ => true
  | .vpopc _ _ _ _ _ => true
  | .vdot _ _ _ _ _ _ _ rm => decide (rm.toNat ≤ 4)
  | .vclass _ _ _ _ _ => true
  | .vcopysign _ _ _ _ _ _ _ => true
  | .vmov _ _ _ _ _ => true
  | .vsplat _ _ _ _ _ ot => decide (ot ≠ 0)
  | .vid _ _ _ _ ot => decide (ot ≠ 0) && decide (ot.toNat ≤ 8)
  | .vcmpeq _ _ _ _ _ _ _ => true
  | .vcmpne _ _ _ _ _ _ _ => true
  | .vcmplt _ _ _ _ _ _ _ => true
  | .vcmple _ _ _ _ _ _ _ => true
  | .vcmpgt _ _ _ _ _ _ _ => true
  | .vcmpge _ _ _ _ _ _ _ => true
  | .vcmpun _ _ _ _ _ _ _ => true
  | .mand _ _ _ _ => true
  | .mor _ _ _ _ => true
  | .mxor _ _ _ _ => true
  | .mandn _ _ _ _ => true
  | .mnot _ _ _ => true
  | .mset _ _ => true
  | .mclr _ => true
  | .mpopc _ _ _ => true
  | .mfirst _ _ _ => true
  | .mfromv _ _ _ _ _ => true
  | .mtov _ _ _ _ _ ot => decide (ot ≠ 0)
  | .vcvt _ _ _ _ _ rm ot => decide (rm.toNat ≤ 5) && decide (ot ≠ 0)
  | .vcvtsat _ _ _ _ _ rm ot => decide (rm.toNat ≤ 5) && decide (ot ≠ 0)
  | .vcvtmx vd _ vsc _ rm ot => decide (rm.toNat ≤ 5) && decide (ot ≠ 0) && decide (vd ≠ vsc)
  | .vcvtfrommx _ _ _ _ _ _ rm ot => decide (rm.toNat ≤ 5) && decide (ot ≠ 0)
  | .vround _ _ _ _ _ rm => decide (rm.toNat ≤ 5)
  | .vexp2 _ _ _ _ _ rm => decide (rm.toNat ≤ 4)
  | .vexp _ _ _ _ _ rm => decide (rm.toNat ≤ 4)
  | .vlog2 _ _ _ _ _ rm => decide (rm.toNat ≤ 4)
  | .vrcp _ _ _ _ _ rm => decide (rm.toNat ≤ 4)
  | .vrsqrt _ _ _ _ _ rm => decide (rm.toNat ≤ 4)
  | .vsin _ _ _ _ _ rm => decide (rm.toNat ≤ 4)
  | .vcos _ _ _ _ _ rm => decide (rm.toNat ≤ 4)
  | .vtanh _ _ _ _ _ rm => decide (rm.toNat ≤ 4)
  | .vsigmoid _ _ _ _ _ rm => decide (rm.toNat ≤ 4)
  | .vredsum _ _ _ _ rm => decide (rm.toNat ≤ 4)
  | .vredmax _ _ _ _ => true
  | .vredmin _ _ _ _ => true
  | .vredand _ _ _ _ => true
  | .vredor _ _ _ _ => true
  | .vscan _ _ _ _ _ rm => decide (rm.toNat ≤ 4)
  | .vscanx _ _ _ _ _ rm => decide (rm.toNat ≤ 4)
  | .vscanmax _ _ _ _ _ => true
  | .vcompress _ _ _ _ => true
  | .vexpand _ _ vb _ _ z => decide ((z = true → vb = 0))
  | .vslideup _ _ _ vc _ c => decide ((c = false → vc = 0))
  | .vslidedn _ _ _ vc _ c => decide ((c = false → vc = 0))
  | .vperm _ _ _ _ => true
  | .vrev _ _ _ => true
  | .vzip _ _ _ _ => true
  | .vunzip vd ve _ _ => decide (vd ≠ ve)
  | .vsegsum _ _ _ _ _ rm => decide (rm.toNat ≤ 4)
  | .vsegscan _ _ _ _ _ _ rm => decide (rm.toNat ≤ 4)
  | .vsegmax _ _ _ _ _ => true
  | .vsegmin _ _ _ _ _ => true
  | .vmergek _ _ _ _ => true
  | .vsortk _ _ _ blk => decide (1 ≤ blk.toNat) && decide (blk.toNat ≤ 10)
  | .vconflict _ _ _ _ => true
  | .vld _ _ _ _ _ t _ => decide (t ≠ 0)
  | .vlds _ _ _ _ _ _ t _ => decide (t ≠ 0)
  | .vldx _ _ _ _ _ _ t => decide (t ≠ 0)
  | .vst _ _ _ _ _ t _ => decide (t ≠ 0)
  | .vsts _ _ _ _ _ _ t _ => decide (t ≠ 0)
  | .vstx _ _ _ _ _ _ t => decide (t ≠ 0)
  | .vstxadd _ _ _ _ _ _ scope t => decide (scope.toNat ≤ 4) && decide (t ≠ 0)
  | .cnew _ _ t => decide (t ≠ 0)
  | .cfree _ => true
  | .cshare _ _ => true
  | .cprep _ _ _ => true
  | .csplice _ _ _ _ => true
  | .csplit vd ve _ _ => decide (vd ≠ ve)
  | .ctrimh _ _ _ => true
  | .ctrimt _ _ _ => true
  | .cslice _ _ _ _ => true
  | .cretag _ _ t => decide (t ≠ 0)
  | .clen _ _ => true
  | .cinfo _ _ imm => decide (imm.toNat ≤ 5)
  | .cflat _ _ => true
  | .cpriv vd va => decide (vd = va)
  | .cpoolst _ => true
  | .cwait => true
  | .zmode zd _ => decide (zd.toNat ≤ 1)
  | .zzero zd => decide (zd.toNat ≤ 1)
  | .zop zd _ _ _ rm => decide (zd.toNat ≤ 1) && decide (rm.toNat ≤ 4)
  | .zopmx zd _ _ _ rm _ _ => decide (zd.toNat ≤ 1) && decide (rm.toNat ≤ 4)
  | .zload zd _ _ _ => decide (zd.toNat ≤ 1)
  | .zdrain zd _ _ _ rm ot => decide (zd.toNat ≤ 1) && decide (rm.toNat ≤ 4) && decide (ot ≠ 0)
  | .zrow zd _ _ => decide (zd.toNat ≤ 1)
  | .zchk zd _ _ => decide (zd.toNat ≤ 1)
  | .kacq _ _ _ _ _ => true
  | .klend _ _ _ _ _ _ => true
  | .kshare _ _ _ _ _ _ => true
  | .kret _ _ _ _ _ => true
  | .kunshare _ _ _ _ _ => true
  | .ksplit _ _ _ _ _ => true
  | .kmerge _ _ _ _ _ => true
  | .kdrop _ _ _ _ _ => true
  | .kquery _ _ _ _ => true
  | .krecover _ _ _ _ _ _ => true
  | .kclean _ _ _ _ _ => true
  | .aadd _ _ _ _ scope ord _ _ => decide (scope.toNat ≤ 4) && decide (ord.toNat ≤ 4)
  | .amin _ _ _ _ scope ord _ _ => decide (scope.toNat ≤ 4) && decide (ord.toNat ≤ 4)
  | .amax _ _ _ _ scope ord _ _ => decide (scope.toNat ≤ 4) && decide (ord.toNat ≤ 4)
  | .aminn _ _ _ _ scope ord _ _ => decide (scope.toNat ≤ 4) && decide (ord.toNat ≤ 4)
  | .amaxn _ _ _ _ scope ord _ _ => decide (scope.toNat ≤ 4) && decide (ord.toNat ≤ 4)
  | .aand _ _ _ _ scope ord _ _ => decide (scope.toNat ≤ 4) && decide (ord.toNat ≤ 4)
  | .aor _ _ _ _ scope ord _ _ => decide (scope.toNat ≤ 4) && decide (ord.toNat ≤ 4)
  | .axor _ _ _ _ scope ord _ _ => decide (scope.toNat ≤ 4) && decide (ord.toNat ≤ 4)
  | .aswap _ _ _ _ scope ord _ _ => decide (scope.toNat ≤ 4) && decide (ord.toNat ≤ 4)
  | .acas _ _ _ _ _ scope ord _ _ => decide (scope.toNat ≤ 4) && decide (ord.toNat ≤ 4)
  | .afadd _ _ _ rm _ scope ord _ _ => decide (rm.toNat ≤ 4) && decide (scope.toNat ≤ 4) && decide (ord.toNat ≤ 4)
  | .afmax _ _ _ _ scope ord _ _ => decide (scope.toNat ≤ 4) && decide (ord.toNat ≤ 4)
  | .ald _ _ _ scope ord _ _ => decide (scope.toNat ≤ 4) && decide ((ord = 0 ∨ ord = 1 ∨ ord = 4))
  | .ast _ _ _ scope ord _ _ => decide (scope.toNat ≤ 4) && decide ((ord = 0 ∨ ord = 2 ∨ ord = 4))
  | .fenceSv _ _ _ scope _ => decide (scope.toNat ≤ 4)
  | .fenceVs scope => decide (scope.toNat ≤ 4)
  | .fenceVv scope => decide (scope.toNat ≤ 4)
  | .fenceAll _ _ _ scope _ => decide (scope.toNat ≤ 4)
  | .gbar _ => true
  | .gbarin => true
  | .gbarwt _ => true
  | .await _ _ _ _ _ scope ord _ _ => decide (scope.toNat ≤ 4) && decide ((ord = 0 ∨ ord = 1 ∨ ord = 4))
  | .ecopy _ _ _ xc _ _ => groupOk xc 26
  | .ecopyc _ _ _ _ _ t _ => decide (t ≠ 0)
  | .ecast _ _ _ xc _ _ => groupOk xc 26
  | .ewin _ _ _ xc _ _ => groupOk xc 26
  | .ewait _ _ => true
  | .estat _ _ imm => decide (imm.toNat ≤ 2)
  | .qsel _ _ _ xc _ _ => groupOk xc 28
  | .qtopk _ _ _ xc _ _ => groupOk xc 28
  | .qcount _ _ _ xc _ _ => groupOk xc 28
  | .setvl _ _ _ => true
  | .vrel => true
  | .yield _ => true
  | .exit _ => true
  | .launch _ _ _ _ _ => true
  | .trapret => true
  | .ecall _ => true
  | .ebreak _ => true
  | .hsave _ _ => true
  | .hload _ _ => true
  | .engineRow _ => false
  | .ecopycTransfer _ _ => false
  | .copyCommandComplete _ => false
  | .selectionScan _ _ _ => false
  | .selectionMerge _ _ => false
  | .reclaimSpine _ => false
  | .writePerformed _ => false
  | .keyTransferComplete _ => false
  | .tlbinvComplete _ => false
  | .fenceComplete _ => false
  | .awaitWake _ => false
  | .awaitTimeout _ => false
  | .yieldExpiry _ => false
  | .gatherRequest _ => false
  | .gatherReply _ => false
  | .scatter _ => false
  | .scatterAdd _ => false
  | .launchDoorbell _ _ _ => false
  | .launchPacketAdmit _ => false
  | .launchReady _ => false
  | .priorityAging _ => false
  | .gangPlacement => false
  | .hartStart _ => false
  | .gangRestore => false
  | .suspension _ => false
  | .hartResume _ => false
  | .hartTerminate _ => false
  | .eviction _ => false
  | .evictionComplete _ => false
  | .hartExitComplete _ => false
  | .laneDebtTimeout _ => false
  | .interruptTaken _ => false
  | .hipRaise _ _ => false
  | .timerExpiry _ => false
  | .trapRecordDiscard _ => false
  | .frameCopyStart _ _ _ _ => false
  | .frameCopyEnd _ _ => false
  | .frameEntryFree _ _ => false
  | .seatClaim _ => false
  | .seatOffer _ _ => false
  | .seatAccept _ => false
  | .seatRelease _ => false
  | .seatClear => false
  | .seatRefusedOp _ _ => false
  | .windowWrite _ _ _ => false
  | .snapshotTrigger => false
  | .snapshotLatch => false
  | .attestationNonce _ _ => false
  | .hostAccess _ _ _ _ _ _ => false
  | .fabricRequest _ _ _ _ _ _ => false
  | .flitReplay _ => false
  | .portRetrainDone _ => false
  | .nodeUnreachable _ => false
  | .stackScrub _ _ => false
  | .coreScrub _ _ _ => false
  | .deviceReset => false
  | .hbmZeroingDone => false
  | .gueskStart => false
  | .powerCapCheck _ => false
  | .thermalThrottle => false
  | .thermalSuspend => false
  | .thermalResume => false
  | .idleEntry => false
  | .idleExit => false
  | .powerOff => false
  | .nodeReadmission _ => false
  | .snapshotLanded => false

end Sys2Proof
end

