-- ==== Sys2Proof/Decode.lean ====
section
/-! DEFINITION. From the 64-bit word to the instruction and back (R53, R67, R68, R72, R73). Each format of Table 03-4 has one
function that lays its fields into a word and one reader per field. The encoder writes every field that an instruction does not
use as zero (R71), so the decoder reads the fields, and then accepts the word exactly when the term is well formed and the encoder
gives the word back: every nonzero bit in a must-be-zero or unused field makes the word illegal (R73). The functions that build
an Instr are marked noncomputable only because Lean's compiler has no object tag above 243 and Instr has 317 constructors; the
kernel evaluates them. -/

namespace Sys2Proof

namespace Enc

/-- Format SR (Table 03-4). -/
def packSR (maj : BitVec 7) (xd xa xb xc : BitVec 5) (fn : BitVec 8) (rm : BitVec 3) (fmt : BitVec 2) : Word :=
  (0#1 ++ maj ++ xd ++ xa ++ xb ++ xc ++ fn ++ rm ++ fmt ++ 0#23).cast (by decide)

/-- Format SR with the state register number over the xb and xc fields (R308). -/
def packCSR (maj : BitVec 7) (xd xa : BitVec 5) (csr : BitVec 10) (fn : BitVec 8) : Word :=
  (0#1 ++ maj ++ xd ++ xa ++ csr ++ fn ++ 0#28).cast (by decide)

/-- Format SI. -/
def packSI (maj : BitVec 7) (xd xa : BitVec 5) (fn : BitVec 8) (imm : BitVec 32) : Word :=
  (0#1 ++ maj ++ xd ++ xa ++ fn ++ 0#6 ++ imm).cast (by decide)

/-- Format SM. -/
def packSM (maj : BitVec 7) (xd xa : BitVec 5) (asr w : BitVec 2) (fn : BitVec 8) (imm : BitVec 32) : Word :=
  (0#1 ++ maj ++ xd ++ xa ++ asr ++ w ++ 0#2 ++ fn ++ imm).cast (by decide)

/-- Format SB. -/
def packSB (maj : BitVec 7) (xa xb : BitVec 5) (fn : BitVec 3) (off : BitVec 40) : Word :=
  (0#1 ++ maj ++ xa ++ xb ++ fn ++ 0#3 ++ off).cast (by decide)

/-- Format SJ. -/
def packSJ (maj : BitVec 7) (xd : BitVec 5) (fn : BitVec 3) (xa : BitVec 5) (off : BitVec 43) : Word :=
  (0#1 ++ maj ++ xd ++ fn ++ xa ++ off).cast (by decide)

/-- Format VR. -/
def packVR (maj : BitVec 7) (vd va vb vc xl : BitVec 5) (msk : BitVec 3) (z : Bool) (rm : BitVec 3) (fn : BitVec 8) (ot : BitVec 4) (s : Bool) (mod : BitVec 11) : Word :=
  (0#1 ++ maj ++ vd ++ va ++ vb ++ vc ++ xl ++ msk ++ BitVec.ofBool z ++ rm ++ fn ++ ot ++ BitVec.ofBool s ++ mod).cast (by decide)

/-- Format VM. -/
def packVM (maj : BitVec 7) (vd xa xb xl : BitVec 5) (msk : BitVec 3) (asr : BitVec 2) (scope : BitVec 3) (fn : BitVec 8) (t : BitVec 4) (imm : BitVec 16) : Word :=
  (0#1 ++ maj ++ vd ++ xa ++ xb ++ xl ++ msk ++ asr ++ scope ++ fn ++ t ++ imm).cast (by decide)

/-- Format VC. -/
def packVC (maj : BitVec 7) (vd va vb xa xb : BitVec 5) (fn : BitVec 8) (t : BitVec 4) (imm : BitVec 19) : Word :=
  (0#1 ++ maj ++ vd ++ va ++ vb ++ xa ++ xb ++ fn ++ t ++ imm).cast (by decide)

/-- Format Z. -/
def packZ (maj : BitVec 7) (zd : BitVec 3) (va vb xk xs : BitVec 5) (rm : BitVec 3) (fn : BitVec 8) (ot : BitVec 4) (mod : BitVec 12) : Word :=
  (0#1 ++ maj ++ zd ++ 0#2 ++ va ++ vb ++ xk ++ xs ++ 0#4 ++ rm ++ fn ++ ot ++ mod).cast (by decide)

/-- Format KE. -/
def packKE (maj : BitVec 7) (xd xa xb xc : BitVec 5) (asr : BitVec 2) (scope ord : BitVec 3) (fn : BitVec 8) (imm : BitVec 20) : Word :=
  (0#1 ++ maj ++ xd ++ xa ++ xb ++ xc ++ asr ++ scope ++ ord ++ fn ++ imm).cast (by decide)

end Enc

open Enc in
/-- The word of an instruction with H clear (R53, R72); a step of the device has none, and gives the all-zero word, which is illegal (R73). -/
def encode : Instr → Word
  | .add xd xa xb => packSR 0x01 xd xa xb 0 0 0 0
  | .sub xd xa xb => packSR 0x01 xd xa xb 0 1 0 0
  | .mul xd xa xb => packSR 0x01 xd xa xb 0 2 0 0
  | .mulh xd xa xb => packSR 0x01 xd xa xb 0 3 0 0
  | .mulhn xd xa xb => packSR 0x01 xd xa xb 0 4 0 0
  | .div xd xa xb => packSR 0x01 xd xa xb 0 5 0 0
  | .divn xd xa xb => packSR 0x01 xd xa xb 0 6 0 0
  | .rem xd xa xb => packSR 0x01 xd xa xb 0 7 0 0
  | .remn xd xa xb => packSR 0x01 xd xa xb 0 8 0 0
  | .and xd xa xb => packSR 0x01 xd xa xb 0 9 0 0
  | .or xd xa xb => packSR 0x01 xd xa xb 0 10 0 0
  | .xor xd xa xb => packSR 0x01 xd xa xb 0 11 0 0
  | .andn xd xa xb => packSR 0x01 xd xa xb 0 12 0 0
  | .shl xd xa xb => packSR 0x01 xd xa xb 0 13 0 0
  | .shr xd xa xb => packSR 0x01 xd xa xb 0 14 0 0
  | .sra xd xa xb => packSR 0x01 xd xa xb 0 15 0 0
  | .rotl xd xa xb => packSR 0x01 xd xa xb 0 16 0 0
  | .rotr xd xa xb => packSR 0x01 xd xa xb 0 17 0 0
  | .min xd xa xb => packSR 0x01 xd xa xb 0 18 0 0
  | .max xd xa xb => packSR 0x01 xd xa xb 0 19 0 0
  | .minn xd xa xb => packSR 0x01 xd xa xb 0 20 0 0
  | .maxn xd xa xb => packSR 0x01 xd xa xb 0 21 0 0
  | .slt xd xa xb => packSR 0x01 xd xa xb 0 22 0 0
  | .sltn xd xa xb => packSR 0x01 xd xa xb 0 23 0 0
  | .seq xd xa xb => packSR 0x01 xd xa xb 0 24 0 0
  | .clz xd xa => packSR 0x01 xd xa 0 0 25 0 0
  | .ctz xd xa => packSR 0x01 xd xa 0 0 26 0 0
  | .popc xd xa => packSR 0x01 xd xa 0 0 27 0 0
  | .bswap xd xa => packSR 0x01 xd xa 0 0 28 0 0
  | .sext xd xa xb => packSR 0x01 xd xa xb 0 29 0 0
  | .zext xd xa xb => packSR 0x01 xd xa xb 0 30 0 0
  | .sel xd xa xb xc => packSR 0x01 xd xa xb xc 31 0 0
  | .addi xd xa imm => packSI 0x02 xd xa 0 imm
  | .andi xd xa imm => packSI 0x02 xd xa 1 imm
  | .ori xd xa imm => packSI 0x02 xd xa 2 imm
  | .xori xd xa imm => packSI 0x02 xd xa 3 imm
  | .shli xd xa imm => packSI 0x02 xd xa 4 imm
  | .shri xd xa imm => packSI 0x02 xd xa 5 imm
  | .srai xd xa imm => packSI 0x02 xd xa 6 imm
  | .slti xd xa imm => packSI 0x02 xd xa 7 imm
  | .sltni xd xa imm => packSI 0x02 xd xa 8 imm
  | .seqi xd xa imm => packSI 0x02 xd xa 9 imm
  | .muli xd xa imm => packSI 0x02 xd xa 10 imm
  | .ldi xd imm => packSI 0x02 xd 0 11 imm
  | .ldhi xd imm => packSI 0x02 xd 0 12 imm
  | .pcadd xd imm => packSI 0x02 xd 0 13 imm
  | .ld xd xa asr w imm => packSM 0x03 xd xa asr w 0 imm
  | .ldn xd xa asr w imm => packSM 0x03 xd xa asr w 1 imm
  | .st xs xa asr w imm => packSM 0x03 xs xa asr w 2 imm
  | .beq xa xb off => packSB 0x04 xa xb 0 off
  | .bne xa xb off => packSB 0x04 xa xb 1 off
  | .blt xa xb off => packSB 0x04 xa xb 2 off
  | .bge xa xb off => packSB 0x04 xa xb 3 off
  | .bltn xa xb off => packSB 0x04 xa xb 4 off
  | .bgen xa xb off => packSB 0x04 xa xb 5 off
  | .jal xd off => packSJ 0x05 xd 0 0 off
  | .jalr xd xa off => packSJ 0x05 xd 1 xa off
  | .fadd xd xa xb rm fmt => packSR 0x06 xd xa xb 0 0 rm fmt
  | .fsub xd xa xb rm fmt => packSR 0x06 xd xa xb 0 1 rm fmt
  | .fmul xd xa xb rm fmt => packSR 0x06 xd xa xb 0 2 rm fmt
  | .fdiv xd xa xb rm fmt => packSR 0x06 xd xa xb 0 3 rm fmt
  | .fsqrt xd xa rm fmt => packSR 0x06 xd xa 0 0 4 rm fmt
  | .fma xd xa xb xc rm fmt => packSR 0x06 xd xa xb xc 5 rm fmt
  | .fms xd xa xb xc rm fmt => packSR 0x06 xd xa xb xc 6 rm fmt
  | .fnma xd xa xb xc rm fmt => packSR 0x06 xd xa xb xc 7 rm fmt
  | .fmin xd xa xb fmt => packSR 0x06 xd xa xb 0 8 0 fmt
  | .fmax xd xa xb fmt => packSR 0x06 xd xa xb 0 9 0 fmt
  | .feq xd xa xb fmt => packSR 0x06 xd xa xb 0 10 0 fmt
  | .flt xd xa xb fmt => packSR 0x06 xd xa xb 0 11 0 fmt
  | .fle xd xa xb fmt => packSR 0x06 xd xa xb 0 12 0 fmt
  | .fcvtfi xd xa tc rm fmt => packSR 0x06 xd xa tc 0 13 rm fmt
  | .fcvtif xd xa tc rm fmt => packSR 0x06 xd xa tc 0 14 rm fmt
  | .fcvtff xd xa tc rm fmt => packSR 0x06 xd xa tc 0 15 rm fmt
  | .fclass xd xa fmt => packSR 0x06 xd xa 0 0 16 0 fmt
  | .fsgn xd xa xb md fmt => packSR 0x06 xd xa xb md 17 0 fmt
  | .csrr xd csr => packCSR 0x07 xd 0 csr 0
  | .csrw xd xa csr => packCSR 0x07 xd xa csr 1
  | .csrs xd xa csr => packCSR 0x07 xd xa csr 2
  | .csrc xd xa csr => packCSR 0x07 xd xa csr 3
  | .tlbinv xa xb xc => packSR 0x07 0 xa xb xc 4 0 0
  | .vadd vd va vb xl msk z rm s => packVR 0x10 vd va vb 0 xl msk z rm 0 0 s 0
  | .vsub vd va vb xl msk z rm s => packVR 0x10 vd va vb 0 xl msk z rm 1 0 s 0
  | .vrsub vd va vb xl msk z rm s => packVR 0x10 vd va vb 0 xl msk z rm 2 0 s 0
  | .vmul vd va vb xl msk z rm s => packVR 0x10 vd va vb 0 xl msk z rm 3 0 s 0
  | .vmulh vd va vb xl msk z s => packVR 0x10 vd va vb 0 xl msk z 0 4 0 s 0
  | .vdiv vd va vb xl msk z rm s => packVR 0x10 vd va vb 0 xl msk z rm 5 0 s 0
  | .vrem vd va vb xl msk z rm s => packVR 0x10 vd va vb 0 xl msk z rm 6 0 s 0
  | .vfma vd va vb vc xl msk z rm s => packVR 0x10 vd va vb vc xl msk z rm 7 0 s 0
  | .vfms vd va vb vc xl msk z rm s => packVR 0x10 vd va vb vc xl msk z rm 8 0 s 0
  | .vfnma vd va vb vc xl msk z rm s => packVR 0x10 vd va vb vc xl msk z rm 9 0 s 0
  | .vmin vd va vb xl msk z s => packVR 0x10 vd va vb 0 xl msk z 0 10 0 s 0
  | .vmax vd va vb xl msk z s => packVR 0x10 vd va vb 0 xl msk z 0 11 0 s 0
  | .vabs vd va xl msk z => packVR 0x10 vd va 0 0 xl msk z 0 12 0 false 0
  | .vneg vd va xl msk z => packVR 0x10 vd va 0 0 xl msk z 0 13 0 false 0
  | .vsqrt vd va xl msk z rm => packVR 0x10 vd va 0 0 xl msk z rm 14 0 false 0
  | .vand vd va vb xl msk z s => packVR 0x10 vd va vb 0 xl msk z 0 15 0 s 0
  | .vor vd va vb xl msk z s => packVR 0x10 vd va vb 0 xl msk z 0 16 0 s 0
  | .vxor vd va vb xl msk z s => packVR 0x10 vd va vb 0 xl msk z 0 17 0 s 0
  | .vandn vd va vb xl msk z s => packVR 0x10 vd va vb 0 xl msk z 0 18 0 s 0
  | .vshl vd va vb xl msk z s => packVR 0x10 vd va vb 0 xl msk z 0 19 0 s 0
  | .vshr vd va vb xl msk z s => packVR 0x10 vd va vb 0 xl msk z 0 20 0 s 0
  | .vsra vd va vb xl msk z s => packVR 0x10 vd va vb 0 xl msk z 0 21 0 s 0
  | .vaddsat vd va vb xl msk z s => packVR 0x10 vd va vb 0 xl msk z 0 22 0 s 0
  | .vsubsat vd va vb xl msk z s => packVR 0x10 vd va vb 0 xl msk z 0 23 0 s 0
  | .vclz vd va xl msk z => packVR 0x10 vd va 0 0 xl msk z 0 24 0 false 0
  | .vpopc vd va xl msk z => packVR 0x10 vd va 0 0 xl msk z 0 25 0 false 0
  | .vdot vd va vb vc xl msk z rm => packVR 0x10 vd va vb vc xl msk z rm 26 0 false 0
  | .vclass vd va xl msk z => packVR 0x10 vd va 0 0 xl msk z 0 27 0 false 0
  | .vcopysign vd va vb xl msk z s => packVR 0x10 vd va vb 0 xl msk z 0 28 0 s 0
  | .vmov vd va xl msk z => packVR 0x10 vd va 0 0 xl msk z 0 29 0 false 0
  | .vsplat vd xb xl msk z ot => packVR 0x10 vd 0 xb 0 xl msk z 0 30 ot true 0
  | .vid vd xl msk z ot => packVR 0x10 vd 0 0 0 xl msk z 0 31 ot false 0
  | .vcmpeq md va vb xl msk z s => packVR 0x11 (md.setWidth 5) va vb 0 xl msk z 0 0 0 s 0
  | .vcmpne md va vb xl msk z s => packVR 0x11 (md.setWidth 5) va vb 0 xl msk z 0 1 0 s 0
  | .vcmplt md va vb xl msk z s => packVR 0x11 (md.setWidth 5) va vb 0 xl msk z 0 2 0 s 0
  | .vcmple md va vb xl msk z s => packVR 0x11 (md.setWidth 5) va vb 0 xl msk z 0 3 0 s 0
  | .vcmpgt md va vb xl msk z s => packVR 0x11 (md.setWidth 5) va vb 0 xl msk z 0 4 0 s 0
  | .vcmpge md va vb xl msk z s => packVR 0x11 (md.setWidth 5) va vb 0 xl msk z 0 5 0 s 0
  | .vcmpun md va vb xl msk z s => packVR 0x11 (md.setWidth 5) va vb 0 xl msk z 0 6 0 s 0
  | .mand md ma mb xl => packVR 0x11 (md.setWidth 5) (ma.setWidth 5) (mb.setWidth 5) 0 xl 0 false 0 7 0 false 0
  | .mor md ma mb xl => packVR 0x11 (md.setWidth 5) (ma.setWidth 5) (mb.setWidth 5) 0 xl 0 false 0 8 0 false 0
  | .mxor md ma mb xl => packVR 0x11 (md.setWidth 5) (ma.setWidth 5) (mb.setWidth 5) 0 xl 0 false 0 9 0 false 0
  | .mandn md ma mb xl => packVR 0x11 (md.setWidth 5) (ma.setWidth 5) (mb.setWidth 5) 0 xl 0 false 0 10 0 false 0
  | .mnot md ma xl => packVR 0x11 (md.setWidth 5) (ma.setWidth 5) 0 0 xl 0 false 0 11 0 false 0
  | .mset md xl => packVR 0x11 (md.setWidth 5) 0 0 0 xl 0 false 0 12 0 false 0
  | .mclr md => packVR 0x11 (md.setWidth 5) 0 0 0 0 0 false 0 13 0 false 0
  | .mpopc xd ma xl => packVR 0x11 xd (ma.setWidth 5) 0 0 xl 0 false 0 14 0 false 0
  | .mfirst xd ma xl => packVR 0x11 xd (ma.setWidth 5) 0 0 xl 0 false 0 15 0 false 0
  | .mfromv md va xl msk z => packVR 0x11 (md.setWidth 5) va 0 0 xl msk z 0 16 0 false 0
  | .mtov vd ma xl msk z ot => packVR 0x11 vd (ma.setWidth 5) 0 0 xl msk z 0 17 ot false 0
  | .vcvt vd va xl msk z rm ot => packVR 0x12 vd va 0 0 xl msk z rm 0 ot false 0
  | .vcvtsat vd va xl msk z rm ot => packVR 0x12 vd va 0 0 xl msk z rm 1 ot false 0
  | .vcvtmx vd va vsc xl rm ot => packVR 0x12 vd va 0 vsc xl 0 false rm 2 ot false 0
  | .vcvtfrommx vd va vb xl msk z rm ot => packVR 0x12 vd va vb 0 xl msk z rm 3 ot false 0
  | .vround vd va xl msk z rm => packVR 0x12 vd va 0 0 xl msk z rm 4 0 false 0
  | .vexp2 vd va xl msk z rm => packVR 0x13 vd va 0 0 xl msk z rm 0 0 false 0
  | .vexp vd va xl msk z rm => packVR 0x13 vd va 0 0 xl msk z rm 1 0 false 0
  | .vlog2 vd va xl msk z rm => packVR 0x13 vd va 0 0 xl msk z rm 2 0 false 0
  | .vrcp vd va xl msk z rm => packVR 0x13 vd va 0 0 xl msk z rm 3 0 false 0
  | .vrsqrt vd va xl msk z rm => packVR 0x13 vd va 0 0 xl msk z rm 4 0 false 0
  | .vsin vd va xl msk z rm => packVR 0x13 vd va 0 0 xl msk z rm 5 0 false 0
  | .vcos vd va xl msk z rm => packVR 0x13 vd va 0 0 xl msk z rm 6 0 false 0
  | .vtanh vd va xl msk z rm => packVR 0x13 vd va 0 0 xl msk z rm 7 0 false 0
  | .vsigmoid vd va xl msk z rm => packVR 0x13 vd va 0 0 xl msk z rm 8 0 false 0
  | .vredsum xd va xl msk rm => packVR 0x14 xd va 0 0 xl msk false rm 0 0 false 0
  | .vredmax xd va xl msk => packVR 0x14 xd va 0 0 xl msk false 0 1 0 false 0
  | .vredmin xd va xl msk => packVR 0x14 xd va 0 0 xl msk false 0 2 0 false 0
  | .vredand xd va xl msk => packVR 0x14 xd va 0 0 xl msk false 0 3 0 false 0
  | .vredor xd va xl msk => packVR 0x14 xd va 0 0 xl msk false 0 4 0 false 0
  | .vscan vd va xl msk z rm => packVR 0x14 vd va 0 0 xl msk z rm 5 0 false 0
  | .vscanx vd va xl msk z rm => packVR 0x14 vd va 0 0 xl msk z rm 6 0 false 0
  | .vscanmax vd va xl msk z => packVR 0x14 vd va 0 0 xl msk z 0 7 0 false 0
  | .vcompress vd va xl msk => packVR 0x14 vd va 0 0 xl msk false 0 8 0 false 0
  | .vexpand vd va vb xl msk z => packVR 0x14 vd va vb 0 xl msk z 0 9 0 false 0
  | .vslideup vd va xb vc xl c => packVR 0x14 vd va xb vc xl 0 false 0 10 0 true ((BitVec.ofBool c).setWidth 11)
  | .vslidedn vd va xb vc xl c => packVR 0x14 vd va xb vc xl 0 false 0 11 0 true ((BitVec.ofBool c).setWidth 11)
  | .vperm vd va vb xl => packVR 0x14 vd va vb 0 xl 0 false 0 12 0 false 0
  | .vrev vd va xl => packVR 0x14 vd va 0 0 xl 0 false 0 13 0 false 0
  | .vzip vd va vb xl => packVR 0x14 vd va vb 0 xl 0 false 0 14 0 false 0
  | .vunzip vd ve va xl => packVR 0x14 vd va ve 0 xl 0 false 0 15 0 false 0
  | .vsegsum vd va vb xl msk rm => packVR 0x15 vd va vb 0 xl msk false rm 0 0 false 0
  | .vsegscan vd va vb xl msk z rm => packVR 0x15 vd va vb 0 xl msk z rm 1 0 false 0
  | .vsegmax vd va vb xl msk => packVR 0x15 vd va vb 0 xl msk false 0 2 0 false 0
  | .vsegmin vd va vb xl msk => packVR 0x15 vd va vb 0 xl msk false 0 3 0 false 0
  | .vmergek vd va vb xl => packVR 0x15 vd va vb 0 xl 0 false 0 4 0 false 0
  | .vsortk vd va xl blk => packVR 0x15 vd va 0 0 xl 0 false 0 5 0 false (blk.setWidth 11)
  | .vconflict md va xl msk => packVR 0x15 (md.setWidth 5) va 0 0 xl msk false 0 6 0 false 0
  | .vld vd xa xl msk asr t imm => packVM 0x18 vd xa 0 xl msk asr 0 0 t imm
  | .vlds vd xa xb xl msk asr t imm => packVM 0x18 vd xa xb xl msk asr 0 1 t imm
  | .vldx vd xa vi xl msk asr t => packVM 0x18 vd xa vi xl msk asr 0 2 t 0
  | .vst vs xa xl msk asr t imm => packVM 0x18 vs xa 0 xl msk asr 0 3 t imm
  | .vsts vs xa xb xl msk asr t imm => packVM 0x18 vs xa xb xl msk asr 0 4 t imm
  | .vstx vs xa vi xl msk asr t => packVM 0x18 vs xa vi xl msk asr 0 5 t 0
  | .vstxadd vs xa vi xl msk asr scope t => packVM 0x18 vs xa vi xl msk asr scope 6 t 0
  | .cnew vd xa t => packVC 0x1A vd 0 0 xa 0 0 t 0
  | .cfree vd => packVC 0x1A vd 0 0 0 0 1 0 0
  | .cshare vd va => packVC 0x1A vd va 0 0 0 2 0 0
  | .cprep vd va vb => packVC 0x1A vd va vb 0 0 3 0 0
  | .csplice vd va vb xa => packVC 0x1A vd va vb xa 0 4 0 0
  | .csplit vd ve va xa => packVC 0x1A vd va ve xa 0 5 0 0
  | .ctrimh vd va xa => packVC 0x1A vd va 0 xa 0 6 0 0
  | .ctrimt vd va xa => packVC 0x1A vd va 0 xa 0 7 0 0
  | .cslice vd va xa xb => packVC 0x1A vd va 0 xa xb 8 0 0
  | .cretag vd va t => packVC 0x1A vd va 0 0 0 9 t 0
  | .clen xd va => packVC 0x1A xd va 0 0 0 10 0 0
  | .cinfo xd va imm => packVC 0x1A xd va 0 0 0 11 0 imm
  | .cflat vd va => packVC 0x1A vd va 0 0 0 12 0 0
  | .cpriv vd va => packVC 0x1A vd va 0 0 0 13 0 0
  | .cpoolst xd => packVC 0x1A xd 0 0 0 0 14 0 0
  | .cwait => packVC 0x1A 0 0 0 0 0 15 0 0
  | .zmode zd xk => packZ 0x20 zd 0 0 xk 0 0 0 0 0
  | .zzero zd => packZ 0x20 zd 0 0 0 0 0 1 0 0
  | .zop zd va vb xk rm => packZ 0x20 zd va vb xk 0 rm 2 0 0
  | .zopmx zd va vb xk rm vsa vsb => packZ 0x20 zd va vb xk 0 rm 3 0 ((0#2 ++ vsa ++ vsb).cast (by decide))
  | .zload zd va xk xs => packZ 0x20 zd va 0 xk xs 0 4 0 0
  | .zdrain zd vd xk xs rm ot => packZ 0x20 zd vd 0 xk xs rm 5 ot 0
  | .zrow zd vd xs => packZ 0x20 zd vd 0 0 xs 0 6 0 0
  | .zchk zd md xs => packZ 0x20 zd (md.setWidth 5) 0 0 xs 0 7 0 0
  | .kacq xd xa xb asr imm => packKE 0x28 xd xa xb 0 asr 0 0 0 imm
  | .klend xd xa xb xc asr imm => packKE 0x28 xd xa xb xc asr 0 0 1 imm
  | .kshare xd xa xb xc asr imm => packKE 0x28 xd xa xb xc asr 0 0 2 imm
  | .kret xd xa xb asr imm => packKE 0x28 xd xa xb 0 asr 0 0 3 imm
  | .kunshare xd xa xb asr imm => packKE 0x28 xd xa xb 0 asr 0 0 4 imm
  | .ksplit xd xa xb asr imm => packKE 0x28 xd xa xb 0 asr 0 0 5 imm
  | .kmerge xd xa xb asr imm => packKE 0x28 xd xa xb 0 asr 0 0 6 imm
  | .kdrop xd xa xb asr imm => packKE 0x28 xd xa xb 0 asr 0 0 7 imm
  | .kquery xd xa asr imm => packKE 0x28 xd xa 0 0 asr 0 0 8 imm
  | .krecover xd xa xb xc asr imm => packKE 0x28 xd xa xb xc asr 0 0 9 imm
  | .kclean xd xa xb asr imm => packKE 0x28 xd xa xb 0 asr 0 0 10 imm
  | .aadd xd xa xb asr scope ord w off => packKE 0x29 xd xa xb 0 asr scope ord 0 ((BitVec.ofBool w ++ off).cast (by decide))
  | .amin xd xa xb asr scope ord w off => packKE 0x29 xd xa xb 0 asr scope ord 1 ((BitVec.ofBool w ++ off).cast (by decide))
  | .amax xd xa xb asr scope ord w off => packKE 0x29 xd xa xb 0 asr scope ord 2 ((BitVec.ofBool w ++ off).cast (by decide))
  | .aminn xd xa xb asr scope ord w off => packKE 0x29 xd xa xb 0 asr scope ord 3 ((BitVec.ofBool w ++ off).cast (by decide))
  | .amaxn xd xa xb asr scope ord w off => packKE 0x29 xd xa xb 0 asr scope ord 4 ((BitVec.ofBool w ++ off).cast (by decide))
  | .aand xd xa xb asr scope ord w off => packKE 0x29 xd xa xb 0 asr scope ord 5 ((BitVec.ofBool w ++ off).cast (by decide))
  | .aor xd xa xb asr scope ord w off => packKE 0x29 xd xa xb 0 asr scope ord 6 ((BitVec.ofBool w ++ off).cast (by decide))
  | .axor xd xa xb asr scope ord w off => packKE 0x29 xd xa xb 0 asr scope ord 7 ((BitVec.ofBool w ++ off).cast (by decide))
  | .aswap xd xa xb asr scope ord w off => packKE 0x29 xd xa xb 0 asr scope ord 8 ((BitVec.ofBool w ++ off).cast (by decide))
  | .acas xd xa xb xc asr scope ord w off => packKE 0x29 xd xa xb xc asr scope ord 9 ((BitVec.ofBool w ++ off).cast (by decide))
  | .afadd xd xa xb rm asr scope ord w off => packKE 0x29 xd xa xb (rm.setWidth 5) asr scope ord 10 ((BitVec.ofBool w ++ off).cast (by decide))
  | .afmax xd xa xb asr scope ord w off => packKE 0x29 xd xa xb 0 asr scope ord 11 ((BitVec.ofBool w ++ off).cast (by decide))
  | .ald xd xa asr scope ord w off => packKE 0x29 xd xa 0 0 asr scope ord 12 ((BitVec.ofBool w ++ off).cast (by decide))
  | .ast xa xb asr scope ord w off => packKE 0x29 0 xa xb 0 asr scope ord 13 ((BitVec.ofBool w ++ off).cast (by decide))
  | .fenceSv xa xb asr scope imm => packKE 0x2A 0 xa xb 0 asr scope 0 0 imm
  | .fenceVs scope => packKE 0x2A 0 0 0 0 0 scope 0 1 0
  | .fenceVv scope => packKE 0x2A 0 0 0 0 0 scope 0 2 0
  | .fenceAll xa xb asr scope imm => packKE 0x2A 0 xa xb 0 asr scope 0 3 imm
  | .gbar xd => packKE 0x2A xd 0 0 0 0 0 0 4 0
  | .gbarin => packKE 0x2A 0 0 0 0 0 0 0 5 0
  | .gbarwt xd => packKE 0x2A xd 0 0 0 0 0 0 6 0
  | .await xd xa xb xc asr scope ord w off => packKE 0x2A xd xa xb xc asr scope ord 7 ((BitVec.ofBool w ++ off).cast (by decide))
  | .ecopy xd xa xb xc asr imm => packKE 0x2B xd xa xb xc asr 0 0 0 imm
  | .ecopyc vd xa xb xl asr t imm => packVM 0x2B vd xa xb xl 0 asr 0 1 t imm
  | .ecast xd xa xb xc asr imm => packKE 0x2B xd xa xb xc asr 0 0 2 imm
  | .ewin xd xa xb xc asr imm => packKE 0x2B xd xa xb xc asr 0 0 3 imm
  | .ewait xd xa => packKE 0x2B xd xa 0 0 0 0 0 4 0
  | .estat xd xa imm => packKE 0x2B xd xa 0 0 0 0 0 5 imm
  | .qsel xd xa xb xc asr imm => packKE 0x2C xd xa xb xc asr 0 0 0 imm
  | .qtopk xd xa xb xc asr imm => packKE 0x2C xd xa xb xc asr 0 0 1 imm
  | .qcount xd xa xb xc asr imm => packKE 0x2C xd xa xb xc asr 0 0 2 imm
  | .setvl xd xa xb => packKE 0x30 xd xa xb 0 0 0 0 0 0
  | .vrel => packKE 0x30 0 0 0 0 0 0 0 1 0
  | .yield xa => packKE 0x30 0 xa 0 0 0 0 0 2 0
  | .exit xa => packKE 0x30 0 xa 0 0 0 0 0 3 0
  | .launch xd xa xb asr imm => packKE 0x30 xd xa xb 0 asr 0 0 4 imm
  | .trapret => packKE 0x31 0 0 0 0 0 0 0 0 0
  | .ecall imm => packKE 0x31 0 0 0 0 0 0 0 1 imm
  | .ebreak imm => packKE 0x31 0 0 0 0 0 0 0 2 imm
  | .hsave xd xa => packKE 0x31 xd xa 0 0 0 0 0 3 0
  | .hload xd xa => packKE 0x31 xd xa 0 0 0 0 0 4 0
  | .engineRow _ => 0
  | .ecopycTransfer _ _ => 0
  | .copyCommandComplete _ => 0
  | .selectionScan _ _ _ => 0
  | .selectionMerge _ _ => 0
  | .reclaimSpine _ => 0
  | .writePerformed _ => 0
  | .keyTransferComplete _ => 0
  | .tlbinvComplete _ => 0
  | .fenceComplete _ => 0
  | .awaitWake _ => 0
  | .awaitTimeout _ => 0
  | .yieldExpiry _ => 0
  | .gatherRequest _ => 0
  | .gatherReply _ => 0
  | .scatter _ => 0
  | .scatterAdd _ => 0
  | .launchDoorbell _ _ _ => 0
  | .launchPacketAdmit _ => 0
  | .launchReady _ => 0
  | .priorityAging _ => 0
  | .gangPlacement => 0
  | .hartStart _ => 0
  | .gangRestore => 0
  | .suspension _ => 0
  | .hartResume _ => 0
  | .hartTerminate _ => 0
  | .eviction _ => 0
  | .evictionComplete _ => 0
  | .hartExitComplete _ => 0
  | .laneDebtTimeout _ => 0
  | .interruptTaken _ => 0
  | .hipRaise _ _ => 0
  | .timerExpiry _ => 0
  | .trapRecordDiscard _ => 0
  | .frameCopyStart _ _ _ _ => 0
  | .frameCopyEnd _ _ => 0
  | .frameEntryFree _ _ => 0
  | .seatClaim _ => 0
  | .seatOffer _ _ => 0
  | .seatAccept _ => 0
  | .seatRelease _ => 0
  | .seatClear => 0
  | .seatRefusedOp _ _ => 0
  | .windowWrite _ _ _ => 0
  | .snapshotTrigger => 0
  | .snapshotLatch => 0
  | .attestationNonce _ _ => 0
  | .hostAccess _ _ _ _ _ _ => 0
  | .fabricRequest _ _ _ _ _ _ => 0
  | .flitReplay _ => 0
  | .portRetrainDone _ => 0
  | .nodeUnreachable _ => 0
  | .stackScrub _ _ => 0
  | .coreScrub _ _ _ => 0
  | .deviceReset => 0
  | .hbmZeroingDone => 0
  | .gueskStart => 0
  | .powerCapCheck _ => 0
  | .thermalThrottle => 0
  | .thermalSuspend => 0
  | .thermalResume => 0
  | .idleEntry => 0
  | .idleExit => 0
  | .powerOff => 0
  | .nodeReadmission _ => 0
  | .snapshotLanded => 0

/-- Bits [lo+n-1:lo] of a word (R3). -/
abbrev fld (w : Word) (lo n : Nat) : BitVec n := w.extractLsb' lo n
/-- Bit lo of a word. -/
abbrev bitAt (w : Word) (lo : Nat) : Bool := w.getLsbD lo

/-- Major 0x01 of Table 03-7: the FN (or COND) field selects the instruction. -/
def decodeMaj01 (w : Word) : Option Instr :=
  match (fld w 28 8).toNat with
  | 0 => some (.add (fld w 51 5) (fld w 46 5) (fld w 41 5))
  | 1 => some (.sub (fld w 51 5) (fld w 46 5) (fld w 41 5))
  | 2 => some (.mul (fld w 51 5) (fld w 46 5) (fld w 41 5))
  | 3 => some (.mulh (fld w 51 5) (fld w 46 5) (fld w 41 5))
  | 4 => some (.mulhn (fld w 51 5) (fld w 46 5) (fld w 41 5))
  | 5 => some (.div (fld w 51 5) (fld w 46 5) (fld w 41 5))
  | 6 => some (.divn (fld w 51 5) (fld w 46 5) (fld w 41 5))
  | 7 => some (.rem (fld w 51 5) (fld w 46 5) (fld w 41 5))
  | 8 => some (.remn (fld w 51 5) (fld w 46 5) (fld w 41 5))
  | 9 => some (.and (fld w 51 5) (fld w 46 5) (fld w 41 5))
  | 10 => some (.or (fld w 51 5) (fld w 46 5) (fld w 41 5))
  | 11 => some (.xor (fld w 51 5) (fld w 46 5) (fld w 41 5))
  | 12 => some (.andn (fld w 51 5) (fld w 46 5) (fld w 41 5))
  | 13 => some (.shl (fld w 51 5) (fld w 46 5) (fld w 41 5))
  | 14 => some (.shr (fld w 51 5) (fld w 46 5) (fld w 41 5))
  | 15 => some (.sra (fld w 51 5) (fld w 46 5) (fld w 41 5))
  | 16 => some (.rotl (fld w 51 5) (fld w 46 5) (fld w 41 5))
  | 17 => some (.rotr (fld w 51 5) (fld w 46 5) (fld w 41 5))
  | 18 => some (.min (fld w 51 5) (fld w 46 5) (fld w 41 5))
  | 19 => some (.max (fld w 51 5) (fld w 46 5) (fld w 41 5))
  | 20 => some (.minn (fld w 51 5) (fld w 46 5) (fld w 41 5))
  | 21 => some (.maxn (fld w 51 5) (fld w 46 5) (fld w 41 5))
  | 22 => some (.slt (fld w 51 5) (fld w 46 5) (fld w 41 5))
  | 23 => some (.sltn (fld w 51 5) (fld w 46 5) (fld w 41 5))
  | 24 => some (.seq (fld w 51 5) (fld w 46 5) (fld w 41 5))
  | 25 => some (.clz (fld w 51 5) (fld w 46 5))
  | 26 => some (.ctz (fld w 51 5) (fld w 46 5))
  | 27 => some (.popc (fld w 51 5) (fld w 46 5))
  | 28 => some (.bswap (fld w 51 5) (fld w 46 5))
  | 29 => some (.sext (fld w 51 5) (fld w 46 5) (fld w 41 5))
  | 30 => some (.zext (fld w 51 5) (fld w 46 5) (fld w 41 5))
  | 31 => some (.sel (fld w 51 5) (fld w 46 5) (fld w 41 5) (fld w 36 5))
  | _ => none

/-- Major 0x02 of Table 03-7: the FN (or COND) field selects the instruction. -/
def decodeMaj02 (w : Word) : Option Instr :=
  match (fld w 38 8).toNat with
  | 0 => some (.addi (fld w 51 5) (fld w 46 5) (fld w 0 32))
  | 1 => some (.andi (fld w 51 5) (fld w 46 5) (fld w 0 32))
  | 2 => some (.ori (fld w 51 5) (fld w 46 5) (fld w 0 32))
  | 3 => some (.xori (fld w 51 5) (fld w 46 5) (fld w 0 32))
  | 4 => some (.shli (fld w 51 5) (fld w 46 5) (fld w 0 32))
  | 5 => some (.shri (fld w 51 5) (fld w 46 5) (fld w 0 32))
  | 6 => some (.srai (fld w 51 5) (fld w 46 5) (fld w 0 32))
  | 7 => some (.slti (fld w 51 5) (fld w 46 5) (fld w 0 32))
  | 8 => some (.sltni (fld w 51 5) (fld w 46 5) (fld w 0 32))
  | 9 => some (.seqi (fld w 51 5) (fld w 46 5) (fld w 0 32))
  | 10 => some (.muli (fld w 51 5) (fld w 46 5) (fld w 0 32))
  | 11 => some (.ldi (fld w 51 5) (fld w 0 32))
  | 12 => some (.ldhi (fld w 51 5) (fld w 0 32))
  | 13 => some (.pcadd (fld w 51 5) (fld w 0 32))
  | _ => none

/-- Major 0x03 of Table 03-7: the FN (or COND) field selects the instruction. -/
def decodeMaj03 (w : Word) : Option Instr :=
  match (fld w 32 8).toNat with
  | 0 => some (.ld (fld w 51 5) (fld w 46 5) (fld w 44 2) (fld w 42 2) (fld w 0 32))
  | 1 => some (.ldn (fld w 51 5) (fld w 46 5) (fld w 44 2) (fld w 42 2) (fld w 0 32))
  | 2 => some (.st (fld w 51 5) (fld w 46 5) (fld w 44 2) (fld w 42 2) (fld w 0 32))
  | _ => none

/-- Major 0x04 of Table 03-7: the FN (or COND) field selects the instruction. -/
def decodeMaj04 (w : Word) : Option Instr :=
  match (fld w 43 3).toNat with
  | 0 => some (.beq (fld w 51 5) (fld w 46 5) (fld w 0 40))
  | 1 => some (.bne (fld w 51 5) (fld w 46 5) (fld w 0 40))
  | 2 => some (.blt (fld w 51 5) (fld w 46 5) (fld w 0 40))
  | 3 => some (.bge (fld w 51 5) (fld w 46 5) (fld w 0 40))
  | 4 => some (.bltn (fld w 51 5) (fld w 46 5) (fld w 0 40))
  | 5 => some (.bgen (fld w 51 5) (fld w 46 5) (fld w 0 40))
  | _ => none

/-- Major 0x05 of Table 03-7: the FN (or COND) field selects the instruction. -/
def decodeMaj05 (w : Word) : Option Instr :=
  match (fld w 48 3).toNat with
  | 0 => some (.jal (fld w 51 5) (fld w 0 43))
  | 1 => some (.jalr (fld w 51 5) (fld w 43 5) (fld w 0 43))
  | _ => none

/-- Major 0x06 of Table 03-7: the FN (or COND) field selects the instruction. -/
def decodeMaj06 (w : Word) : Option Instr :=
  match (fld w 28 8).toNat with
  | 0 => some (.fadd (fld w 51 5) (fld w 46 5) (fld w 41 5) (fld w 25 3) (fld w 23 2))
  | 1 => some (.fsub (fld w 51 5) (fld w 46 5) (fld w 41 5) (fld w 25 3) (fld w 23 2))
  | 2 => some (.fmul (fld w 51 5) (fld w 46 5) (fld w 41 5) (fld w 25 3) (fld w 23 2))
  | 3 => some (.fdiv (fld w 51 5) (fld w 46 5) (fld w 41 5) (fld w 25 3) (fld w 23 2))
  | 4 => some (.fsqrt (fld w 51 5) (fld w 46 5) (fld w 25 3) (fld w 23 2))
  | 5 => some (.fma (fld w 51 5) (fld w 46 5) (fld w 41 5) (fld w 36 5) (fld w 25 3) (fld w 23 2))
  | 6 => some (.fms (fld w 51 5) (fld w 46 5) (fld w 41 5) (fld w 36 5) (fld w 25 3) (fld w 23 2))
  | 7 => some (.fnma (fld w 51 5) (fld w 46 5) (fld w 41 5) (fld w 36 5) (fld w 25 3) (fld w 23 2))
  | 8 => some (.fmin (fld w 51 5) (fld w 46 5) (fld w 41 5) (fld w 23 2))
  | 9 => some (.fmax (fld w 51 5) (fld w 46 5) (fld w 41 5) (fld w 23 2))
  | 10 => some (.feq (fld w 51 5) (fld w 46 5) (fld w 41 5) (fld w 23 2))
  | 11 => some (.flt (fld w 51 5) (fld w 46 5) (fld w 41 5) (fld w 23 2))
  | 12 => some (.fle (fld w 51 5) (fld w 46 5) (fld w 41 5) (fld w 23 2))
  | 13 => some (.fcvtfi (fld w 51 5) (fld w 46 5) (fld w 41 5) (fld w 25 3) (fld w 23 2))
  | 14 => some (.fcvtif (fld w 51 5) (fld w 46 5) (fld w 41 5) (fld w 25 3) (fld w 23 2))
  | 15 => some (.fcvtff (fld w 51 5) (fld w 46 5) (fld w 41 5) (fld w 25 3) (fld w 23 2))
  | 16 => some (.fclass (fld w 51 5) (fld w 46 5) (fld w 23 2))
  | 17 => some (.fsgn (fld w 51 5) (fld w 46 5) (fld w 41 5) (fld w 36 5) (fld w 23 2))
  | _ => none

/-- Major 0x07 of Table 03-7: the FN (or COND) field selects the instruction. -/
def decodeMaj07 (w : Word) : Option Instr :=
  match (fld w 28 8).toNat with
  | 0 => some (.csrr (fld w 51 5) (fld w 36 10))
  | 1 => some (.csrw (fld w 51 5) (fld w 46 5) (fld w 36 10))
  | 2 => some (.csrs (fld w 51 5) (fld w 46 5) (fld w 36 10))
  | 3 => some (.csrc (fld w 51 5) (fld w 46 5) (fld w 36 10))
  | 4 => some (.tlbinv (fld w 46 5) (fld w 41 5) (fld w 36 5))
  | _ => none

/-- Major 0x10 of Table 03-7: the FN (or COND) field selects the instruction. -/
def decodeMaj10 (w : Word) : Option Instr :=
  match (fld w 16 8).toNat with
  | 0 => some (.vadd (fld w 51 5) (fld w 46 5) (fld w 41 5) (fld w 31 5) (fld w 28 3) (bitAt w 27) (fld w 24 3) (bitAt w 11))
  | 1 => some (.vsub (fld w 51 5) (fld w 46 5) (fld w 41 5) (fld w 31 5) (fld w 28 3) (bitAt w 27) (fld w 24 3) (bitAt w 11))
  | 2 => some (.vrsub (fld w 51 5) (fld w 46 5) (fld w 41 5) (fld w 31 5) (fld w 28 3) (bitAt w 27) (fld w 24 3) (bitAt w 11))
  | 3 => some (.vmul (fld w 51 5) (fld w 46 5) (fld w 41 5) (fld w 31 5) (fld w 28 3) (bitAt w 27) (fld w 24 3) (bitAt w 11))
  | 4 => some (.vmulh (fld w 51 5) (fld w 46 5) (fld w 41 5) (fld w 31 5) (fld w 28 3) (bitAt w 27) (bitAt w 11))
  | 5 => some (.vdiv (fld w 51 5) (fld w 46 5) (fld w 41 5) (fld w 31 5) (fld w 28 3) (bitAt w 27) (fld w 24 3) (bitAt w 11))
  | 6 => some (.vrem (fld w 51 5) (fld w 46 5) (fld w 41 5) (fld w 31 5) (fld w 28 3) (bitAt w 27) (fld w 24 3) (bitAt w 11))
  | 7 => some (.vfma (fld w 51 5) (fld w 46 5) (fld w 41 5) (fld w 36 5) (fld w 31 5) (fld w 28 3) (bitAt w 27) (fld w 24 3) (bitAt w 11))
  | 8 => some (.vfms (fld w 51 5) (fld w 46 5) (fld w 41 5) (fld w 36 5) (fld w 31 5) (fld w 28 3) (bitAt w 27) (fld w 24 3) (bitAt w 11))
  | 9 => some (.vfnma (fld w 51 5) (fld w 46 5) (fld w 41 5) (fld w 36 5) (fld w 31 5) (fld w 28 3) (bitAt w 27) (fld w 24 3) (bitAt w 11))
  | 10 => some (.vmin (fld w 51 5) (fld w 46 5) (fld w 41 5) (fld w 31 5) (fld w 28 3) (bitAt w 27) (bitAt w 11))
  | 11 => some (.vmax (fld w 51 5) (fld w 46 5) (fld w 41 5) (fld w 31 5) (fld w 28 3) (bitAt w 27) (bitAt w 11))
  | 12 => some (.vabs (fld w 51 5) (fld w 46 5) (fld w 31 5) (fld w 28 3) (bitAt w 27))
  | 13 => some (.vneg (fld w 51 5) (fld w 46 5) (fld w 31 5) (fld w 28 3) (bitAt w 27))
  | 14 => some (.vsqrt (fld w 51 5) (fld w 46 5) (fld w 31 5) (fld w 28 3) (bitAt w 27) (fld w 24 3))
  | 15 => some (.vand (fld w 51 5) (fld w 46 5) (fld w 41 5) (fld w 31 5) (fld w 28 3) (bitAt w 27) (bitAt w 11))
  | 16 => some (.vor (fld w 51 5) (fld w 46 5) (fld w 41 5) (fld w 31 5) (fld w 28 3) (bitAt w 27) (bitAt w 11))
  | 17 => some (.vxor (fld w 51 5) (fld w 46 5) (fld w 41 5) (fld w 31 5) (fld w 28 3) (bitAt w 27) (bitAt w 11))
  | 18 => some (.vandn (fld w 51 5) (fld w 46 5) (fld w 41 5) (fld w 31 5) (fld w 28 3) (bitAt w 27) (bitAt w 11))
  | 19 => some (.vshl (fld w 51 5) (fld w 46 5) (fld w 41 5) (fld w 31 5) (fld w 28 3) (bitAt w 27) (bitAt w 11))
  | 20 => some (.vshr (fld w 51 5) (fld w 46 5) (fld w 41 5) (fld w 31 5) (fld w 28 3) (bitAt w 27) (bitAt w 11))
  | 21 => some (.vsra (fld w 51 5) (fld w 46 5) (fld w 41 5) (fld w 31 5) (fld w 28 3) (bitAt w 27) (bitAt w 11))
  | 22 => some (.vaddsat (fld w 51 5) (fld w 46 5) (fld w 41 5) (fld w 31 5) (fld w 28 3) (bitAt w 27) (bitAt w 11))
  | 23 => some (.vsubsat (fld w 51 5) (fld w 46 5) (fld w 41 5) (fld w 31 5) (fld w 28 3) (bitAt w 27) (bitAt w 11))
  | 24 => some (.vclz (fld w 51 5) (fld w 46 5) (fld w 31 5) (fld w 28 3) (bitAt w 27))
  | 25 => some (.vpopc (fld w 51 5) (fld w 46 5) (fld w 31 5) (fld w 28 3) (bitAt w 27))
  | 26 => some (.vdot (fld w 51 5) (fld w 46 5) (fld w 41 5) (fld w 36 5) (fld w 31 5) (fld w 28 3) (bitAt w 27) (fld w 24 3))
  | 27 => some (.vclass (fld w 51 5) (fld w 46 5) (fld w 31 5) (fld w 28 3) (bitAt w 27))
  | 28 => some (.vcopysign (fld w 51 5) (fld w 46 5) (fld w 41 5) (fld w 31 5) (fld w 28 3) (bitAt w 27) (bitAt w 11))
  | 29 => some (.vmov (fld w 51 5) (fld w 46 5) (fld w 31 5) (fld w 28 3) (bitAt w 27))
  | 30 => some (.vsplat (fld w 51 5) (fld w 41 5) (fld w 31 5) (fld w 28 3) (bitAt w 27) (fld w 12 4))
  | 31 => some (.vid (fld w 51 5) (fld w 31 5) (fld w 28 3) (bitAt w 27) (fld w 12 4))
  | _ => none

/-- Major 0x11 of Table 03-7: the FN (or COND) field selects the instruction. -/
def decodeMaj11 (w : Word) : Option Instr :=
  match (fld w 16 8).toNat with
  | 0 => some (.vcmpeq (fld w 51 3) (fld w 46 5) (fld w 41 5) (fld w 31 5) (fld w 28 3) (bitAt w 27) (bitAt w 11))
  | 1 => some (.vcmpne (fld w 51 3) (fld w 46 5) (fld w 41 5) (fld w 31 5) (fld w 28 3) (bitAt w 27) (bitAt w 11))
  | 2 => some (.vcmplt (fld w 51 3) (fld w 46 5) (fld w 41 5) (fld w 31 5) (fld w 28 3) (bitAt w 27) (bitAt w 11))
  | 3 => some (.vcmple (fld w 51 3) (fld w 46 5) (fld w 41 5) (fld w 31 5) (fld w 28 3) (bitAt w 27) (bitAt w 11))
  | 4 => some (.vcmpgt (fld w 51 3) (fld w 46 5) (fld w 41 5) (fld w 31 5) (fld w 28 3) (bitAt w 27) (bitAt w 11))
  | 5 => some (.vcmpge (fld w 51 3) (fld w 46 5) (fld w 41 5) (fld w 31 5) (fld w 28 3) (bitAt w 27) (bitAt w 11))
  | 6 => some (.vcmpun (fld w 51 3) (fld w 46 5) (fld w 41 5) (fld w 31 5) (fld w 28 3) (bitAt w 27) (bitAt w 11))
  | 7 => some (.mand (fld w 51 3) (fld w 46 3) (fld w 41 3) (fld w 31 5))
  | 8 => some (.mor (fld w 51 3) (fld w 46 3) (fld w 41 3) (fld w 31 5))
  | 9 => some (.mxor (fld w 51 3) (fld w 46 3) (fld w 41 3) (fld w 31 5))
  | 10 => some (.mandn (fld w 51 3) (fld w 46 3) (fld w 41 3) (fld w 31 5))
  | 11 => some (.mnot (fld w 51 3) (fld w 46 3) (fld w 31 5))
  | 12 => some (.mset (fld w 51 3) (fld w 31 5))
  | 13 => some (.mclr (fld w 51 3))
  | 14 => some (.mpopc (fld w 51 5) (fld w 46 3) (fld w 31 5))
  | 15 => some (.mfirst (fld w 51 5) (fld w 46 3) (fld w 31 5))
  | 16 => some (.mfromv (fld w 51 3) (fld w 46 5) (fld w 31 5) (fld w 28 3) (bitAt w 27))
  | 17 => some (.mtov (fld w 51 5) (fld w 46 3) (fld w 31 5) (fld w 28 3) (bitAt w 27) (fld w 12 4))
  | _ => none

/-- Major 0x12 of Table 03-7: the FN (or COND) field selects the instruction. -/
def decodeMaj12 (w : Word) : Option Instr :=
  match (fld w 16 8).toNat with
  | 0 => some (.vcvt (fld w 51 5) (fld w 46 5) (fld w 31 5) (fld w 28 3) (bitAt w 27) (fld w 24 3) (fld w 12 4))
  | 1 => some (.vcvtsat (fld w 51 5) (fld w 46 5) (fld w 31 5) (fld w 28 3) (bitAt w 27) (fld w 24 3) (fld w 12 4))
  | 2 => some (.vcvtmx (fld w 51 5) (fld w 46 5) (fld w 36 5) (fld w 31 5) (fld w 24 3) (fld w 12 4))
  | 3 => some (.vcvtfrommx (fld w 51 5) (fld w 46 5) (fld w 41 5) (fld w 31 5) (fld w 28 3) (bitAt w 27) (fld w 24 3) (fld w 12 4))
  | 4 => some (.vround (fld w 51 5) (fld w 46 5) (fld w 31 5) (fld w 28 3) (bitAt w 27) (fld w 24 3))
  | _ => none

/-- Major 0x13 of Table 03-7: the FN (or COND) field selects the instruction. -/
def decodeMaj13 (w : Word) : Option Instr :=
  match (fld w 16 8).toNat with
  | 0 => some (.vexp2 (fld w 51 5) (fld w 46 5) (fld w 31 5) (fld w 28 3) (bitAt w 27) (fld w 24 3))
  | 1 => some (.vexp (fld w 51 5) (fld w 46 5) (fld w 31 5) (fld w 28 3) (bitAt w 27) (fld w 24 3))
  | 2 => some (.vlog2 (fld w 51 5) (fld w 46 5) (fld w 31 5) (fld w 28 3) (bitAt w 27) (fld w 24 3))
  | 3 => some (.vrcp (fld w 51 5) (fld w 46 5) (fld w 31 5) (fld w 28 3) (bitAt w 27) (fld w 24 3))
  | 4 => some (.vrsqrt (fld w 51 5) (fld w 46 5) (fld w 31 5) (fld w 28 3) (bitAt w 27) (fld w 24 3))
  | 5 => some (.vsin (fld w 51 5) (fld w 46 5) (fld w 31 5) (fld w 28 3) (bitAt w 27) (fld w 24 3))
  | 6 => some (.vcos (fld w 51 5) (fld w 46 5) (fld w 31 5) (fld w 28 3) (bitAt w 27) (fld w 24 3))
  | 7 => some (.vtanh (fld w 51 5) (fld w 46 5) (fld w 31 5) (fld w 28 3) (bitAt w 27) (fld w 24 3))
  | 8 => some (.vsigmoid (fld w 51 5) (fld w 46 5) (fld w 31 5) (fld w 28 3) (bitAt w 27) (fld w 24 3))
  | _ => none

/-- Major 0x14 of Table 03-7: the FN (or COND) field selects the instruction. -/
def decodeMaj14 (w : Word) : Option Instr :=
  match (fld w 16 8).toNat with
  | 0 => some (.vredsum (fld w 51 5) (fld w 46 5) (fld w 31 5) (fld w 28 3) (fld w 24 3))
  | 1 => some (.vredmax (fld w 51 5) (fld w 46 5) (fld w 31 5) (fld w 28 3))
  | 2 => some (.vredmin (fld w 51 5) (fld w 46 5) (fld w 31 5) (fld w 28 3))
  | 3 => some (.vredand (fld w 51 5) (fld w 46 5) (fld w 31 5) (fld w 28 3))
  | 4 => some (.vredor (fld w 51 5) (fld w 46 5) (fld w 31 5) (fld w 28 3))
  | 5 => some (.vscan (fld w 51 5) (fld w 46 5) (fld w 31 5) (fld w 28 3) (bitAt w 27) (fld w 24 3))
  | 6 => some (.vscanx (fld w 51 5) (fld w 46 5) (fld w 31 5) (fld w 28 3) (bitAt w 27) (fld w 24 3))
  | 7 => some (.vscanmax (fld w 51 5) (fld w 46 5) (fld w 31 5) (fld w 28 3) (bitAt w 27))
  | 8 => some (.vcompress (fld w 51 5) (fld w 46 5) (fld w 31 5) (fld w 28 3))
  | 9 => some (.vexpand (fld w 51 5) (fld w 46 5) (fld w 41 5) (fld w 31 5) (fld w 28 3) (bitAt w 27))
  | 10 => some (.vslideup (fld w 51 5) (fld w 46 5) (fld w 41 5) (fld w 36 5) (fld w 31 5) (bitAt w 0))
  | 11 => some (.vslidedn (fld w 51 5) (fld w 46 5) (fld w 41 5) (fld w 36 5) (fld w 31 5) (bitAt w 0))
  | 12 => some (.vperm (fld w 51 5) (fld w 46 5) (fld w 41 5) (fld w 31 5))
  | 13 => some (.vrev (fld w 51 5) (fld w 46 5) (fld w 31 5))
  | 14 => some (.vzip (fld w 51 5) (fld w 46 5) (fld w 41 5) (fld w 31 5))
  | 15 => some (.vunzip (fld w 51 5) (fld w 41 5) (fld w 46 5) (fld w 31 5))
  | _ => none

/-- Major 0x15 of Table 03-7: the FN (or COND) field selects the instruction. -/
def decodeMaj15 (w : Word) : Option Instr :=
  match (fld w 16 8).toNat with
  | 0 => some (.vsegsum (fld w 51 5) (fld w 46 5) (fld w 41 5) (fld w 31 5) (fld w 28 3) (fld w 24 3))
  | 1 => some (.vsegscan (fld w 51 5) (fld w 46 5) (fld w 41 5) (fld w 31 5) (fld w 28 3) (bitAt w 27) (fld w 24 3))
  | 2 => some (.vsegmax (fld w 51 5) (fld w 46 5) (fld w 41 5) (fld w 31 5) (fld w 28 3))
  | 3 => some (.vsegmin (fld w 51 5) (fld w 46 5) (fld w 41 5) (fld w 31 5) (fld w 28 3))
  | 4 => some (.vmergek (fld w 51 5) (fld w 46 5) (fld w 41 5) (fld w 31 5))
  | 5 => some (.vsortk (fld w 51 5) (fld w 46 5) (fld w 31 5) (fld w 0 4))
  | 6 => some (.vconflict (fld w 51 3) (fld w 46 5) (fld w 31 5) (fld w 28 3))
  | _ => none

/-- Major 0x18 of Table 03-7: the FN (or COND) field selects the instruction. -/
def decodeMaj18 (w : Word) : Option Instr :=
  match (fld w 20 8).toNat with
  | 0 => some (.vld (fld w 51 5) (fld w 46 5) (fld w 36 5) (fld w 33 3) (fld w 31 2) (fld w 16 4) (fld w 0 16))
  | 1 => some (.vlds (fld w 51 5) (fld w 46 5) (fld w 41 5) (fld w 36 5) (fld w 33 3) (fld w 31 2) (fld w 16 4) (fld w 0 16))
  | 2 => some (.vldx (fld w 51 5) (fld w 46 5) (fld w 41 5) (fld w 36 5) (fld w 33 3) (fld w 31 2) (fld w 16 4))
  | 3 => some (.vst (fld w 51 5) (fld w 46 5) (fld w 36 5) (fld w 33 3) (fld w 31 2) (fld w 16 4) (fld w 0 16))
  | 4 => some (.vsts (fld w 51 5) (fld w 46 5) (fld w 41 5) (fld w 36 5) (fld w 33 3) (fld w 31 2) (fld w 16 4) (fld w 0 16))
  | 5 => some (.vstx (fld w 51 5) (fld w 46 5) (fld w 41 5) (fld w 36 5) (fld w 33 3) (fld w 31 2) (fld w 16 4))
  | 6 => some (.vstxadd (fld w 51 5) (fld w 46 5) (fld w 41 5) (fld w 36 5) (fld w 33 3) (fld w 31 2) (fld w 28 3) (fld w 16 4))
  | _ => none

/-- Major 0x1A of Table 03-7: the FN (or COND) field selects the instruction. -/
def decodeMaj1A (w : Word) : Option Instr :=
  match (fld w 23 8).toNat with
  | 0 => some (.cnew (fld w 51 5) (fld w 36 5) (fld w 19 4))
  | 1 => some (.cfree (fld w 51 5))
  | 2 => some (.cshare (fld w 51 5) (fld w 46 5))
  | 3 => some (.cprep (fld w 51 5) (fld w 46 5) (fld w 41 5))
  | 4 => some (.csplice (fld w 51 5) (fld w 46 5) (fld w 41 5) (fld w 36 5))
  | 5 => some (.csplit (fld w 51 5) (fld w 41 5) (fld w 46 5) (fld w 36 5))
  | 6 => some (.ctrimh (fld w 51 5) (fld w 46 5) (fld w 36 5))
  | 7 => some (.ctrimt (fld w 51 5) (fld w 46 5) (fld w 36 5))
  | 8 => some (.cslice (fld w 51 5) (fld w 46 5) (fld w 36 5) (fld w 31 5))
  | 9 => some (.cretag (fld w 51 5) (fld w 46 5) (fld w 19 4))
  | 10 => some (.clen (fld w 51 5) (fld w 46 5))
  | 11 => some (.cinfo (fld w 51 5) (fld w 46 5) (fld w 0 19))
  | 12 => some (.cflat (fld w 51 5) (fld w 46 5))
  | 13 => some (.cpriv (fld w 51 5) (fld w 46 5))
  | 14 => some (.cpoolst (fld w 51 5))
  | 15 => some (.cwait)
  | _ => none

/-- Major 0x20 of Table 03-7: the FN (or COND) field selects the instruction. -/
def decodeMaj20 (w : Word) : Option Instr :=
  match (fld w 16 8).toNat with
  | 0 => some (.zmode (fld w 53 3) (fld w 36 5))
  | 1 => some (.zzero (fld w 53 3))
  | 2 => some (.zop (fld w 53 3) (fld w 46 5) (fld w 41 5) (fld w 36 5) (fld w 24 3))
  | 3 => some (.zopmx (fld w 53 3) (fld w 46 5) (fld w 41 5) (fld w 36 5) (fld w 24 3) (fld w 5 5) (fld w 0 5))
  | 4 => some (.zload (fld w 53 3) (fld w 46 5) (fld w 36 5) (fld w 31 5))
  | 5 => some (.zdrain (fld w 53 3) (fld w 46 5) (fld w 36 5) (fld w 31 5) (fld w 24 3) (fld w 12 4))
  | 6 => some (.zrow (fld w 53 3) (fld w 46 5) (fld w 31 5))
  | 7 => some (.zchk (fld w 53 3) (fld w 46 3) (fld w 31 5))
  | _ => none

/-- Major 0x28 of Table 03-7: the FN (or COND) field selects the instruction. -/
def decodeMaj28 (w : Word) : Option Instr :=
  match (fld w 20 8).toNat with
  | 0 => some (.kacq (fld w 51 5) (fld w 46 5) (fld w 41 5) (fld w 34 2) (fld w 0 20))
  | 1 => some (.klend (fld w 51 5) (fld w 46 5) (fld w 41 5) (fld w 36 5) (fld w 34 2) (fld w 0 20))
  | 2 => some (.kshare (fld w 51 5) (fld w 46 5) (fld w 41 5) (fld w 36 5) (fld w 34 2) (fld w 0 20))
  | 3 => some (.kret (fld w 51 5) (fld w 46 5) (fld w 41 5) (fld w 34 2) (fld w 0 20))
  | 4 => some (.kunshare (fld w 51 5) (fld w 46 5) (fld w 41 5) (fld w 34 2) (fld w 0 20))
  | 5 => some (.ksplit (fld w 51 5) (fld w 46 5) (fld w 41 5) (fld w 34 2) (fld w 0 20))
  | 6 => some (.kmerge (fld w 51 5) (fld w 46 5) (fld w 41 5) (fld w 34 2) (fld w 0 20))
  | 7 => some (.kdrop (fld w 51 5) (fld w 46 5) (fld w 41 5) (fld w 34 2) (fld w 0 20))
  | 8 => some (.kquery (fld w 51 5) (fld w 46 5) (fld w 34 2) (fld w 0 20))
  | 9 => some (.krecover (fld w 51 5) (fld w 46 5) (fld w 41 5) (fld w 36 5) (fld w 34 2) (fld w 0 20))
  | 10 => some (.kclean (fld w 51 5) (fld w 46 5) (fld w 41 5) (fld w 34 2) (fld w 0 20))
  | _ => none

/-- Major 0x29 of Table 03-7: the FN (or COND) field selects the instruction. -/
def decodeMaj29 (w : Word) : Option Instr :=
  match (fld w 20 8).toNat with
  | 0 => some (.aadd (fld w 51 5) (fld w 46 5) (fld w 41 5) (fld w 34 2) (fld w 31 3) (fld w 28 3) (bitAt w 19) (fld w 0 19))
  | 1 => some (.amin (fld w 51 5) (fld w 46 5) (fld w 41 5) (fld w 34 2) (fld w 31 3) (fld w 28 3) (bitAt w 19) (fld w 0 19))
  | 2 => some (.amax (fld w 51 5) (fld w 46 5) (fld w 41 5) (fld w 34 2) (fld w 31 3) (fld w 28 3) (bitAt w 19) (fld w 0 19))
  | 3 => some (.aminn (fld w 51 5) (fld w 46 5) (fld w 41 5) (fld w 34 2) (fld w 31 3) (fld w 28 3) (bitAt w 19) (fld w 0 19))
  | 4 => some (.amaxn (fld w 51 5) (fld w 46 5) (fld w 41 5) (fld w 34 2) (fld w 31 3) (fld w 28 3) (bitAt w 19) (fld w 0 19))
  | 5 => some (.aand (fld w 51 5) (fld w 46 5) (fld w 41 5) (fld w 34 2) (fld w 31 3) (fld w 28 3) (bitAt w 19) (fld w 0 19))
  | 6 => some (.aor (fld w 51 5) (fld w 46 5) (fld w 41 5) (fld w 34 2) (fld w 31 3) (fld w 28 3) (bitAt w 19) (fld w 0 19))
  | 7 => some (.axor (fld w 51 5) (fld w 46 5) (fld w 41 5) (fld w 34 2) (fld w 31 3) (fld w 28 3) (bitAt w 19) (fld w 0 19))
  | 8 => some (.aswap (fld w 51 5) (fld w 46 5) (fld w 41 5) (fld w 34 2) (fld w 31 3) (fld w 28 3) (bitAt w 19) (fld w 0 19))
  | 9 => some (.acas (fld w 51 5) (fld w 46 5) (fld w 41 5) (fld w 36 5) (fld w 34 2) (fld w 31 3) (fld w 28 3) (bitAt w 19) (fld w 0 19))
  | 10 => some (.afadd (fld w 51 5) (fld w 46 5) (fld w 41 5) (fld w 36 3) (fld w 34 2) (fld w 31 3) (fld w 28 3) (bitAt w 19) (fld w 0 19))
  | 11 => some (.afmax (fld w 51 5) (fld w 46 5) (fld w 41 5) (fld w 34 2) (fld w 31 3) (fld w 28 3) (bitAt w 19) (fld w 0 19))
  | 12 => some (.ald (fld w 51 5) (fld w 46 5) (fld w 34 2) (fld w 31 3) (fld w 28 3) (bitAt w 19) (fld w 0 19))
  | 13 => some (.ast (fld w 46 5) (fld w 41 5) (fld w 34 2) (fld w 31 3) (fld w 28 3) (bitAt w 19) (fld w 0 19))
  | _ => none

/-- Major 0x2A of Table 03-7: the FN (or COND) field selects the instruction. -/
def decodeMaj2A (w : Word) : Option Instr :=
  match (fld w 20 8).toNat with
  | 0 => some (.fenceSv (fld w 46 5) (fld w 41 5) (fld w 34 2) (fld w 31 3) (fld w 0 20))
  | 1 => some (.fenceVs (fld w 31 3))
  | 2 => some (.fenceVv (fld w 31 3))
  | 3 => some (.fenceAll (fld w 46 5) (fld w 41 5) (fld w 34 2) (fld w 31 3) (fld w 0 20))
  | 4 => some (.gbar (fld w 51 5))
  | 5 => some (.gbarin)
  | 6 => some (.gbarwt (fld w 51 5))
  | 7 => some (.await (fld w 51 5) (fld w 46 5) (fld w 41 5) (fld w 36 5) (fld w 34 2) (fld w 31 3) (fld w 28 3) (bitAt w 19) (fld w 0 19))
  | _ => none

/-- Major 0x2B of Table 03-7: the FN (or COND) field selects the instruction. -/
def decodeMaj2B (w : Word) : Option Instr :=
  match (fld w 20 8).toNat with
  | 0 => some (.ecopy (fld w 51 5) (fld w 46 5) (fld w 41 5) (fld w 36 5) (fld w 34 2) (fld w 0 20))
  | 1 => some (.ecopyc (fld w 51 5) (fld w 46 5) (fld w 41 5) (fld w 36 5) (fld w 31 2) (fld w 16 4) (fld w 0 16))
  | 2 => some (.ecast (fld w 51 5) (fld w 46 5) (fld w 41 5) (fld w 36 5) (fld w 34 2) (fld w 0 20))
  | 3 => some (.ewin (fld w 51 5) (fld w 46 5) (fld w 41 5) (fld w 36 5) (fld w 34 2) (fld w 0 20))
  | 4 => some (.ewait (fld w 51 5) (fld w 46 5))
  | 5 => some (.estat (fld w 51 5) (fld w 46 5) (fld w 0 20))
  | _ => none

/-- Major 0x2C of Table 03-7: the FN (or COND) field selects the instruction. -/
def decodeMaj2C (w : Word) : Option Instr :=
  match (fld w 20 8).toNat with
  | 0 => some (.qsel (fld w 51 5) (fld w 46 5) (fld w 41 5) (fld w 36 5) (fld w 34 2) (fld w 0 20))
  | 1 => some (.qtopk (fld w 51 5) (fld w 46 5) (fld w 41 5) (fld w 36 5) (fld w 34 2) (fld w 0 20))
  | 2 => some (.qcount (fld w 51 5) (fld w 46 5) (fld w 41 5) (fld w 36 5) (fld w 34 2) (fld w 0 20))
  | _ => none

/-- Major 0x30 of Table 03-7: the FN (or COND) field selects the instruction. -/
noncomputable def decodeMaj30 (w : Word) : Option Instr :=
  match (fld w 20 8).toNat with
  | 0 => some (.setvl (fld w 51 5) (fld w 46 5) (fld w 41 5))
  | 1 => some (.vrel)
  | 2 => some (.yield (fld w 46 5))
  | 3 => some (.exit (fld w 46 5))
  | 4 => some (.launch (fld w 51 5) (fld w 46 5) (fld w 41 5) (fld w 34 2) (fld w 0 20))
  | _ => none

/-- Major 0x31 of Table 03-7: the FN (or COND) field selects the instruction. -/
noncomputable def decodeMaj31 (w : Word) : Option Instr :=
  match (fld w 20 8).toNat with
  | 0 => some (.trapret)
  | 1 => some (.ecall (fld w 0 20))
  | 2 => some (.ebreak (fld w 0 20))
  | 3 => some (.hsave (fld w 51 5) (fld w 46 5))
  | 4 => some (.hload (fld w 51 5) (fld w 46 5))
  | _ => none

/-- Table 03-7: the major opcode selects the group; every other major is reserved (Table 03-8). -/
noncomputable def decodeFields (w : Word) : Option Instr :=
  match (fld w 56 7).toNat with
  | 0x01 => decodeMaj01 w
  | 0x02 => decodeMaj02 w
  | 0x03 => decodeMaj03 w
  | 0x04 => decodeMaj04 w
  | 0x05 => decodeMaj05 w
  | 0x06 => decodeMaj06 w
  | 0x07 => decodeMaj07 w
  | 0x10 => decodeMaj10 w
  | 0x11 => decodeMaj11 w
  | 0x12 => decodeMaj12 w
  | 0x13 => decodeMaj13 w
  | 0x14 => decodeMaj14 w
  | 0x15 => decodeMaj15 w
  | 0x18 => decodeMaj18 w
  | 0x1A => decodeMaj1A w
  | 0x20 => decodeMaj20 w
  | 0x28 => decodeMaj28 w
  | 0x29 => decodeMaj29 w
  | 0x2A => decodeMaj2A w
  | 0x2B => decodeMaj2B w
  | 0x2C => decodeMaj2C w
  | 0x30 => decodeMaj30 w
  | 0x31 => decodeMaj31 w
  | _ => none

/-- The word with its hinge bit cleared: H is no part of the decoding (R73, the value of H does not make an illegal word legal). -/
def dropH (w : Word) : Word := w &&& 0x7FFF_FFFF_FFFF_FFFF
/-- The hinge bit of a word (R53). -/
def hinge (w : Word) : Bool := w.getLsbD 63
/-- The word of an instruction with its hinge bit (R53). -/
def encodeH (h : Bool) (i : Instr) : Word := encode i ||| (if h then 0x8000_0000_0000_0000 else 0)

/-- The instruction a word stands for, or none when the word is illegal (R73). Total on every word. -/
noncomputable def decode (w : Word) : Option Instr :=
  match decodeFields (dropH w) with
  | some i => if i.wf && encode i == dropH w then some i else none
  | none => none

/-- Eight bytes, lowest address first, as a word (R3, R53). -/
def wordOfBytes (bs : List Byte) : Word := bs.foldr (fun b acc => acc <<< 8 ||| zext b) 0

/-- The n bytes of a natural number, lowest first (R3). -/
def bytesOf (n v : Nat) : List Byte := (List.range n).map fun k => BitVec.ofNat 8 (v / 2 ^ (8 * k))

/-- The decoder on bytes: an instruction is one word of eight bytes (R53); a shorter list holds none. -/
noncomputable def decodeBytes (bs : List Byte) : Option (Instr × List Byte) :=
  if bs.length < 8 then none else (decode (wordOfBytes (bs.take 8))).map fun i => (i, bs.drop 8)

/-- The host's question about one opcode-table word: every instruction is one 64-bit word (R53), its bits numbered as the word's own. -/
noncomputable def decodeTableWord (_nbits w : Nat) : Option Instr := (decodeBytes (bytesOf 8 w)).map Prod.fst

end Sys2Proof
end

