-- ==== Sys2Proof/Machine/Reads.lean ====
section
/-! DEFINITION. Which elements of which chains a word reads, and so which rows of the link pool: a row that holds an error beyond correction is
a machine check for the hart that reads it (Table 18-1, R358). -/

namespace Sys2Proof.Machine

/-- The V-class words that read the elements of a chain; the others that name one read its descriptor alone, or copy links whole. -/
def readsElements : Instr → Bool
  | .cshare _ _ => false
  | .cprep _ _ _ => false
  | .csplice _ _ _ _ => false
  | .csplit _ _ _ _ => false
  | .ctrimh _ _ _ => false
  | .ctrimt _ _ _ => false
  | .cslice _ _ _ _ => false
  | .cretag _ _ _ => false
  | .clen _ _ => false
  | .cinfo _ _ _ => false
  | .cflat _ _ => false
  | .cpriv _ _ => false
  | i => isV i

/-- Words whose masked-off elements are zero without Z too, so that a fresh result reads none of them (R241, R244). -/
def zeroesOff : Instr → Bool
  | .vclass _ _ _ _ _ => true
  | .vcvt _ _ _ _ _ _ _ => true
  | .vcvtsat _ _ _ _ _ _ _ => true
  | _ => false

namespace State

/-- The rows, link id × 8 + row, that hold element j of a chain: the slots of its spine and the bytes of its links that are not fresh (R153, R154). -/
def elemRows (s : State) (d : Desc) (j : Nat) : List Nat :=
  let w := tagWidth d.tag
  [j * w / 8, (j * w + w - 1) / 8].flatMap fun b => match spanOf d.spans b with
    | some (sp, o) => (8 * sp + o / 16384) :: (match s.slotGet sp (o / 512) with
        | some l => if s.rowFresh l (o % 512 / 64) then [] else [8 * l + o % 512 / 64]
        | none => [])
    | none => []

/-- The offsets, and the active elements of the segments still to be reduced (R260, R261). -/
def segmentsRead (s : State) (dsts : List VReg) (va vb : VReg) (n : Nat) (msk : MReg) : List (VReg × List Nat) :=
  let o := s.src dsts vb
  let first := (((segments n (s.elems o 0 o.count)).drop s.vstart).map Prod.fst).headD n
  [(vb, List.range o.count), (va, (s.active msk n).filter fun j => decide (first ≤ j))]

/-- The steps of k still to be accumulated, and the scale codes of their blocks (R275). -/
def groupsRead (s : State) (zd : BitVec 3) (va vb : VReg) (xk : XReg) (sc : List (VReg × Nat)) : List (VReg × List Nat) :=
  let ks := (List.range (min (s.x xk).toNat 1024)).filter fun k => decide (s.vstart ≤ k)
  let per (m : Nat) (l : List Nat) : List Nat := l.flatMap fun k => (List.range m).map (k * m + ·)
  [(va, per (s.tile zd).rows ks), (vb, per (s.tile zd).cols ks)] ++ sc.map fun p => (p.1, per p.2 ((ks.map (· / 32)).dedup))

/-- The elements of its sources that the current word reads for the outputs it has still to make, from VSTART on (R344, R347). Of an elementwise
word the first source is read at every index below vl when its result is fresh and Z is clear, and at the active ones otherwise. -/
def elementsRead (s : State) (i : Instr) : List (VReg × List Nat) :=
  let u := uses i
  let v0 := s.vstart
  let n (r : XReg) : Nat := min (s.x r).toNat 8192
  let below (r : XReg) : List Nat := (List.range (n r)).filter fun j => decide (v0 ≤ j)
  let on (m : MReg) (r : XReg) : List Nat := (below r).filter (s.maskOn m)
  let count (r : VReg) : Nat := (s.src u.vw r).count
  match i with
  | .vdot _ va vb vc xl msk z _ =>
    let g := ((dotShape (s.src u.vw va).tag).getD (0, 1)).2
    let ab := (on msk xl).flatMap fun j => (List.range g).map (g * j + ·)
    [(va, ab), (vb, ab), (vc, if z then on msk xl else below xl)]
  | .vcvtfrommx _ va vb xl msk _ _ _ => [(va, on msk xl), (vb, (on msk xl).map (· / 32))]
  | .vcompress _ va xl msk => [(va, (s.active msk (n xl)).drop v0)]
  | .vexpand _ va vb xl msk z =>
    (va, (on msk xl).map fun j => (s.active msk j).length) :: (if z then [] else [(vb, (below xl).filter fun j => !s.maskOn msk j)])
  | .vslideup _ va xb vc xl c =>
    let k := (s.x xb).toNat
    (va, ((below xl).filter fun j => decide (k ≤ j)).map (· - k)) :: (if c then [(vc, (below xl).filter fun j => decide (j < k))] else [])
  | .vslidedn _ va xb vc xl c =>
    let at_ := (below xl).map (· + (s.x xb).toNat)
    (va, at_.filter fun j => decide (j < count va)) ::
      (if c then [(vc, (at_.filter fun j => decide (count va ≤ j)).map (· - count va))] else [])
  | .vperm _ va vb xl =>
    let d := s.src u.vw vb
    [(vb, below xl), (va, (((below xl).map fun j => intOf d.tag (s.elem d j)).filter fun (k : Int) => decide (0 ≤ k ∧ k < (count va : Int))).map Int.toNat)]
  | .vrev _ va xl => [(va, (below xl).map fun j => n xl - 1 - j)]
  | .vzip _ va vb xl =>
    let outs := (List.range (2 * n xl)).filter fun j => decide (v0 ≤ j)
    [(va, (outs.filter fun j => j % 2 == 0).map (· / 2)), (vb, (outs.filter fun j => j % 2 == 1).map (· / 2))]
  | .vunzip _ _ va xl => [(va, (below xl).flatMap fun j => [2 * j, 2 * j + 1])]
  | .vsegsum _ va vb xl msk _ => s.segmentsRead u.vw va vb (n xl) msk
  | .vsegmax _ va vb xl msk => s.segmentsRead u.vw va vb (n xl) msk
  | .vsegmin _ va vb xl msk => s.segmentsRead u.vw va vb (n xl) msk
  | .vsegscan vd va vb xl msk z _ => [(va, if z ∨ vd = va then on msk xl else below xl), (vb, List.range (count vb))]
  | .vmergek _ va vb xl => [(va, List.range (min (n xl) (count va))), (vb, List.range (min (n xl) (count vb)))]
  | .vsortk _ va xl _ => [(va, List.range (n xl))]
  | .vconflict _ va xl msk => [(va, s.active msk (n xl))]
  | .vldx _ _ vi xl msk _ _ => [(vi, on msk xl)]
  | .vst vs _ xl msk _ _ _ => [(vs, on msk xl)]
  | .vsts vs _ _ xl msk _ _ _ => [(vs, on msk xl)]
  | .vstx vs _ vi xl msk _ _ => [(vs, on msk xl), (vi, on msk xl)]
  | .vstxadd vs _ vi xl msk _ _ _ => [(vs, on msk xl), (vi, on msk xl)]
  | .zop zd va vb xk _ => s.groupsRead zd va vb xk []
  | .zopmx zd va vb xk _ vsa vsb => s.groupsRead zd va vb xk [(vsa, (s.tile zd).rows), (vsb, (s.tile zd).cols)]
  | .zload zd va xk _ => [(va, (List.range ((s.x xk).toNat * (s.tile zd).cols)).filter fun j => decide (v0 ≤ j))]
  | _ =>
    let xl := u.xr.headD 0
    let act := on (u.mr.headD 0) xl
    match u.vr with
    | [] => []
    | va :: rest =>
      (va, if u.vw.isEmpty ∨ u.vw.contains va ∨ zeroesOff i ∨ s.h.iword.getLsbD 27 then act else below xl) :: rest.map fun r => (r, act)

/-- From which element on the current word takes the chain of a register from an earlier member of its convoy, as that produces it, and not from the
pool (R182): from 0, or where that member stood when the convoy was last re-entered (R347). None where no member produces it, or one that
has been abandoned (R190). -/
def chainedFrom (s : State) (r : VReg) : Option Nat :=
  ((List.range s.pos).find? fun p =>
    (match s.cv.words[p]? with | some o => (uses o).unit.isSome && (uses o).unit != some .C && (uses o).vw.contains r | none => false)
      && (match s.cv.entry p with | some e => e.state != .abandoned | none => false)).map (assocGet 0 s.cv.pooled)

/-- The first row beyond correction that the current word reads, as far as its sources supply elements (R344) and from the pool (R182). -/
def badRead (s : State) (i : Instr) : Option Nat :=
  if s.core.badRows.isEmpty ∨ !readsElements i then none
  else ((s.elementsRead i).flatMap fun p =>
    (p.2.filter fun j => decide (j < s.availV p.1 (j + 1)) && (match s.chainedFrom p.1 with | some b => decide (j < b) | none => true)).flatMap
      (s.elemRows (s.src (uses i).vw p.1))).find? s.core.badRows.contains

/-- Machine checks that a hart has still to take, those that wait for it to leave mode S first. -/
def checksOf (h : Hart) : List Word := h.mheld ++ h.mcheck

/-- A word that has met an error beyond correction (Table 18-1): a row of the pool that it reads or copies, or a dirty line that it has had written
back. The machine check is raised at this word, inside its convoy (R358): a V-class member stops with it before the elements it has
still to make, another word has done nothing; tval is the row or the line's offset, and further checks that it has met stay pending (log 24).
Replies that a gather has had are given up with it: when it goes on it asks again (R195). -/
def readCheck (s : State) (i : Instr) (o : Out) : Out :=
  let stopped (t : State) (v : Word) (rest : List Word) : Out :=
    let t1 : State := { t with
      h := { t.h with mcheck := t.h.mcheck ++ rest }, packets := t.packets.filter fun p => !(p.hart == t.cur && p.gathers) }
    if isV i then .next (t1.awake.stopV 0x3F v s.vstart 0 s.keptOf (match s.resumed with | some e => e.seen | none => []) false)
    else .next (t1.trapNow ⟨0x3F, v⟩)
  match o with
  | .next u =>
    match (if u.cur = s.cur then (checksOf u.h).drop (checksOf s.h).length else []), s.badRead i with
    | v :: rest, _ => stopped (s.dropBadLines u) v rest
    | [], some row => if u.h.convoy.isSome ∧ u.h.wait = .none ∧ u.h.pc = s.h.pc + 8 then stopped s (BitVec.ofNat 64 row) [] else o
    | [], none => o
  | _ => o

end State

end Sys2Proof.Machine
end

