-- ==== Sys2Proof/Machine/Issue.lean ====
section
/-! DEFINITION. From a hart's turn to the word it issues: where it stands in its convoy (R58, R61, R347), pending events at a hinge
(R326, R339), the fetch (R55) and the checks of R74 before the instruction's own. -/

namespace Sys2Proof.Machine

/-- What a hart's turn comes to: a state in which it has trapped or waits, or an instruction to run in a state. -/
inductive Issued where
  | stop (s : State)
  | word (i : Instr) (s : State)

/-- The ordering under which an atomic may release (R291). -/
def releaseOf : Instr → BitVec 3
  | .aadd _ _ _ _ _ ord _ _ => ord
  | .amin _ _ _ _ _ ord _ _ => ord
  | .amax _ _ _ _ _ ord _ _ => ord
  | .aminn _ _ _ _ _ ord _ _ => ord
  | .amaxn _ _ _ _ _ ord _ _ => ord
  | .aand _ _ _ _ _ ord _ _ => ord
  | .aor _ _ _ _ _ ord _ _ => ord
  | .axor _ _ _ _ _ ord _ _ => ord
  | .aswap _ _ _ _ _ ord _ _ => ord
  | .acas _ _ _ _ _ _ ord _ _ => ord
  | .afadd _ _ _ _ _ _ ord _ _ => ord
  | .afmax _ _ _ _ _ ord _ _ => ord
  | .ast _ _ _ _ ord _ _ => ord
  | _ => 0

/-- The V-class words that access memory or a local store, or hand a command to an engine. -/
def accesses : Instr → Bool
  | .ewait _ _ => false
  | .estat _ _ _ => false
  | .zdrain _ _ _ _ _ _ => true
  | i => match (uses i).unit with
    | some .LD => true
    | some .ST => true
    | some .E => true
    | some .Q => true
    | _ => false
/-- Words that the earlier V-class members of their convoy must have retired before: a read of `vflags` (R216), an arrival at the gang's
barrier and an atomic that releases (R285, R291, R294). -/
def drainsFirst (i : Instr) : Bool := match i with | .csrr _ n => n == 0x024 | .gbarin => true | _ => releases (releaseOf i)
/-- A vector load, and a vector store. -/
def isLoad (i : Instr) : Bool := (uses i).unit == some .LD
def isStore (i : Instr) : Bool := (uses i).unit == some .ST
/-- Whether the word at a position waits for earlier members of its convoy that have stopped, for an `ecopyc` (R148), for reads that are performed later
(R282) or in a convoy that has raised a cause (R344): one that drains it, or that accesses memory when such a member does (R143, R193; log 26).
A store passes a load whose reads come later, as far as it meets none of them (`State.meetsLoad`). -/
def Convoy.holdsBack (c : Convoy) (p : Nat) (i : Instr) : Bool :=
  let before := c.entries.filter fun e => decide (e.word < p)
  ((before.any fun e => e.fill || decide (e.cause ≠ 0)) && drainsFirst i) ||
    (accesses i && before.any fun e => (e.fill || (c.faulted && e.state == .stopped))
      && (match c.words[e.word]? with | some o => accesses o && !(e.fill && isLoad o && isStore i) | none => false))

namespace State

/-- The words of a record that came from a save area, read again as mode U fetches them (R347, R355); one that cannot be read or is
illegal counts as a `nop`. -/
noncomputable def recordAgain (s : State) (c : Convoy) : Convoy :=
  if c.stale then
    let a : Acc := { s.h.acc with bypass := false, bare := false }
    let ws := (List.range c.words.length).map fun k =>
      match s.fetchWordAs a (c.hinge + 8 * BitVec.ofNat 64 k) with
      | .ok (w, _) => (decode w).getD (.addi 0 0 0)
      | .error _ => .addi 0 0 0
    { c with words := ws, stale := false }
  else c
/-- The convoy in progress with its words at hand, and the pool-fault record's in its own handler (R349). -/
noncomputable def reloadWords (s : State) : State :=
  { s with h := { s.h with convoy := s.h.convoy.map s.recordAgain, pfr := if s.h.mode = .d then s.h.pfr.map s.recordAgain else s.h.pfr } }

/-- The words already done, abandoned or at rest with a cause are passed over; after the last of a convoy with nothing left to do, a taken
transfer's target (R344, R347). -/
def passDone (s : State) : State :=
  match s.h.convoy with
  | none => s
  | some c =>
    let p := c.nextWord 16 (c.pos s.h.pc)
    match (if c.words.length ≤ p ∧ !c.faulted ∧ c.filling.isNone then c.nextpc else none) with
    | some t => { s with h := { s.h with convoy := none, pc := t, xfer := some (c.hinge + 8 * BitVec.ofNat 64 (c.words.length - 1)) } }
    | none => { s with h := { s.h with pc := c.hinge + 8 * BitVec.ofNat 64 p } }

/-- The pending event a hart takes at a hinge, in the order 0x3F, 0x20, 0x21, 0x22 (R326, R339). -/
noncomputable def atHinge (s : State) : Option Instr :=
  if !s.h.mcheck.isEmpty then some (.interruptTaken s.cur)
  else if s.h.suspend then some (.suspension s.cur)
  else if s.h.interruptible then some (.interruptTaken s.cur)
  else none

/-- A word joins a convoy and issues. -/
def join (s : State) (c : Convoy) (i : Instr) (w : Word) : Issued :=
  .word i { s with h := { s.h with convoy := some { c with words := c.words ++ [i] }, xfer := none, fresh := false, iword := w, lastIssue := s.tick, since := none } }

/-- The first word of a convoy (R58, R60, R73). -/
noncomputable def openConvoy (s : State) (w : Word) : Issued :=
  if !hinge w ∧ !s.h.fresh then .stop (s.enterHinge 0x02 (s.h.xfer.getD s.h.pc) true)
  else
    let c := { Convoy.empty s.h.pc with anew := s.h.fresh }
    match decode w with
    | none => .stop ({ s with h := { s.h with convoy := some c } }.trapNow ⟨0x01, w⟩)
    | some i => s.join c i w

/-- The convoy takes no further word: it comes to rest when a member has raised a cause (R344), its members that wait for an `ecopyc` go on
first (R148), or else the hart does `next`. -/
def closeConvoy (s : State) (c : Convoy) (next : State) : State :=
  if c.faulted ∨ c.filling.isSome then s.takeRest none else next

/-- A later word of a convoy (R58, R59, R66, R73). A word past the sixteenth that is illegal, like one that cannot be fetched, has no position in the
convoy: it traps by itself, with a record of no word (log 62). -/
noncomputable def nextInConvoy (s : State) (c : Convoy) (w : Word) : Issued :=
  let n := (c.words.filter isV).length
  let apart : State := { s with h := { s.h with convoy := none } }
  match decode w with
  | none => .stop (s.closeConvoy c ((if c.words.length ≥ 16 then apart else s).trapNow ⟨0x01, w⟩))
  | some i =>
    if c.words.length ≥ 16 ∨ isV i ∧ n ≥ 8 then .stop (s.closeConvoy c (apart.enterHinge 0x02 c.hinge true))
    else if conflicts i c.words then .stop (s.closeConvoy c (apart.enterHinge 0x01 w true))
    else if c.holdsBack c.words.length i then .stop (s.takeRest none)
    else s.join c i w

/-- A machine check that is pending while a convoy is in progress is raised at its next word, inside it (R358). -/
def checkInside (s : State) (c : Convoy) (go : State → Issued) : Issued :=
  match s.h.mcheck with
  | v :: rest => if c.words.length < 16 then .stop (s.closeConvoy c ({ s with h := { s.h with mcheck := rest } }.trapNow ⟨0x3F, v⟩)) else go s
  | [] => go s

/-- The fetch of the word at pc, after the alignment check that precedes each (R54, R74). -/
def fetchAligned (s : State) : Except Trap (Word × State) := if s.h.pc &&& 7#64 ≠ 0 then .error ⟨0x0A, s.h.pc⟩ else s.fetchWord s.h.pc

/-- The fetch of the word at pc and what it leads to. Once a member has raised a cause no further word issues, and the words up to the next hinge may
have issued before it did (R344): at which of them it is raised is a free value (log 26). A word that a resumption reads again is
checked for legality alone: its H bit, the limits and the conflicts were checked when it first issued (log 63). -/
noncomputable def fetchAndIssue (s : State) : Issued :=
  match s.h.convoy with
  | none =>
    let c := { Convoy.empty s.h.pc with anew := s.h.fresh }
    let s0 : State := { s with h := { s.h with convoy := some c } }
    match s.fetchAligned with
    | .error t => .stop (s0.trapNow t)
    | .ok (w, s1) => s1.openConvoy w
  | some c =>
    let p := c.pos s.h.pc
    let held := match c.entry p with | some e => e.fill | none => false
    if c.words.length ≤ p ∧ c.nextpc.isSome ∨ c.faulted ∧ !held ∧ Config.causeRaised s.tick then .stop (s.takeRest none)
    else match s.fetchAligned with
      | .error t => .stop (s.closeConvoy c ((if c.words.length ≥ 16 then { s with h := { s.h with convoy := none } } else s).trapNow t))
      | .ok (w, s1) =>
        if p < c.words.length then
          match decode w with
          | none => .stop (s1.trapNow ⟨0x01, w⟩)
          | some i => s1.checkInside c fun s1 =>
            if c.holdsBack p i then .stop (s1.takeRest none)
            else .word i { s1 with h := { s1.h with convoy := some { c with words := c.words.set p i }, iword := w, lastIssue := s1.tick, since := none } }
        else if hinge w then
          if c.faulted ∨ c.filling.isSome then .stop (s1.takeRest none)
          else
            let s2 := { s1 with h := { s1.h with convoy := none } }
            match s2.atHinge with
            | some e => .word e s2
            | none => s2.openConvoy w
        else s1.checkInside c fun s1 => s1.nextInConvoy c w

/-- The word a waiting hart tries again; one that can be left for a pending event is (R294, R296, R326). -/
noncomputable def tryAgain (s : State) (leaves : Bool) (again : Bool) : Issued :=
  match (if leaves then s.atHinge else none), s.word with
  | some e, _ => .word e s
  | none, some i => if again then .word i s else .stop s
  | none, none => .stop s.awake

/-- A vector load whose reads are performed later, when the free choice of this tick makes it so: it has issued and stays where it stood, like a
member that waits for elements, and the words behind it go on (R282, log 23). -/
noncomputable def heldLoad (s : State) (i : Instr) (o : Out) : Out :=
  match o with
  | .next u => .next (if isLoad i ∧ u.cur = s.cur ∧ u.h.wait = .none ∧ (u.cv.entry s.pos).any (fun e => e.state == .done) ∧ Config.loadHeld s.tick
      then s.awake.stopAs { s.resumed.getD (Entry.idle .stopped s.pos) with state := .stopped, fill := true } else u)
  | _ => o

/-- A running hart's turn: a pending event between convoys, or the next word. -/
noncomputable def issue (s : State) : Issued :=
  match s.h.st, s.h.wait with
  | .waiting, .retry ab => s.tryAgain ab true
  | .waiting, .barrier => s.tryAgain true true
  | .waiting, .await _ => s.tryAgain true false
  | .waiting, .yield _ => if s.h.suspend ∨ !s.h.mcheck.isEmpty then s.tryAgain true false else s.tryAgain false (s.h.hip || s.h.tip)
  | .running, .retry _ => s.tryAgain false true
  | .running, .none =>
    let s1 := s.reloadWords.passDone
    match s1.h.convoy with
    | none =>
      match s1.atHinge with
      | some e => .word e s1
      | none => s1.fetchAndIssue
    | some _ => s1.fetchAndIssue
  | _, _ => .stop s

end State

end Sys2Proof.Machine
end

