-- ==== Sys2Proof/Machine/Schedule.lean ====
section
/-! DEFINITION. Who moves next. What has arrived from outside is taken in its order (R360, R361); the manual fixes no order between the steps
of different agents (R279, R282, R288): the harts that the front ends pick (R325) and the steps of the engines and units that are ready are the
candidates, and which of them moves is a free value (log 6). -/

namespace Sys2Proof.Machine

/-- Whether a hart's turn can change something: it runs, tries a waiting word again, or leaves a wait for a pending event. -/
def Hart.movable (h : Hart) : Bool :=
  match h.st, h.wait with
  | .running, .none => true
  | .running, .retry _ => true
  | .waiting, .retry _ => true
  | .waiting, .barrier => true
  | .waiting, .await _ => h.suspend || !h.mcheck.isEmpty || h.interruptible
  | .waiting, .yield _ => h.suspend || !h.mcheck.isEmpty || h.hip || h.tip
  | _, _ => false

/-- One input before another: an earlier clock, then a lower port (R361). -/
def Input.sooner (a b : Input) : Bool := decide (a.clock < b.clock) || (a.clock == b.clock && decide (a.port < b.port))

namespace State

/-- The handed-off writes that may be performed, those of the cluster network apart (R195, R279). -/
noncomputable def writesReady (s : State) : List Instr :=
  ((List.range s.pend.length).filter fun k => s.mayPerform k && (match s.pend[k]? with | some p => p.pkt.isNone | none => false)).map .writePerformed
/-- The packets of the cluster network that move on (R195). -/
noncomputable def packetsReady (s : State) : List Instr :=
  (s.packets.zipIdx).filterMap fun p =>
    let next := match s.scatterNext p.1 with | some i => s.mayPerform i | none => true
    match p.1.kind with
    | 0 => if s.packetNext p.2 then some (.gatherRequest p.2) else none
    | 1 => some (.gatherReply p.2)
    | 2 => if next then some (.scatter p.2) else none
    | 3 => if next then some (.scatterAdd p.2) else none
    | _ => none
/-- The key requests of other nodes whose turn at their controller has come (R111). -/
noncomputable def keysReady (s : State) : List Instr :=
  s.keyQueue.filterMap fun w => match w with
    | .node a ctx space off sup op => match w.name with
      | some (c, sp, base, size) => if s.keyHeld w c sp base size then none else some (.fabricRequest a ctx space off sup op)
      | none => none
    | _ => none
/-- The reclaimers that have a spine to take (R171). -/
noncomputable def reclaimersReady (s : State) : List Instr :=
  ((s.coreNo :: s.cores.map Prod.fst).filter fun n => !(s.coreAt n).reclaim.isEmpty).map .reclaimSpine

/-- The end of a hart's wait, of its start or of its exit, when it has come. -/
noncomputable def waitsOver (s : State) (k : Nat) : List Instr :=
  let t := s.focus k
  match t.h.st, t.h.wait with
  | .running, .fence sc vec cmds sys _ _ => if t.fenceWaits sc vec cmds sys then [] else [.fenceComplete k]
  | .running, .tlbinv before reach => if t.tlbWaits before reach then [] else [.tlbinvComplete k]
  | .waiting, .await lim =>
    .awaitWake k :: (match lim with | some c => if c ≤ t.cycle.toNat then [.awaitTimeout k] else [] | none => [])
  | .waiting, .yield c => if c ≤ t.cycle.toNat then [.yieldExpiry k] else []
  | .running, .key space base size => if t.keyWaits space base.toNat size then [] else [.keyTransferComplete k]
  | .starting, _ => [.hartStart k]
  | .exiting, _ => [.hartExitComplete k]
  | _, _ => []
/-- The steps of the engines for a hart's commands (R121, R137). -/
noncomputable def engineSteps (s : State) (k : Nat) : List Instr :=
  let t := s.focus k
  let copy := match t.copyHead with
    | some c =>
      if t.engineHeld c then []
      else if c.kind = 1 then (if c.next < c.count then [.ecopycTransfer k (rowElems c.tag)] else [.copyCommandComplete k])
      else if c.next < c.n1 * c.n2 then [.engineRow k] else [.copyCommandComplete k]
    | none => []
  let select := (t.h.cmds.filter fun c => decide (8 ≤ c.kind.toNat)).flatMap fun c =>
    if c.parts.length < 12 then
      ((List.range 12).filter fun st => !(c.parts.any fun p => p.stack == st)).map fun st => .selectionScan k c.ticket st
    else [.selectionMerge k c.ticket]
  copy ++ select
/-- What a hart's clocks bring about (R324, R339). -/
noncomputable def hartTimers (s : State) (k : Nat) : List Instr :=
  (match (s.hartAt k).debt with | some c => if c + 16384 ≤ s.cycle.toNat ∧ !(s.hartAt k).preempt then [.laneDebtTimeout k] else [] | none => [])
    ++ (if (s.timer k).2 ∧ (s.timer k).1 < s.nanos then [.timerExpiry k] else [])

/-- The steps of the launch sequencer (R313 to R321, R327). -/
noncomputable def sequencerSteps (s : State) : List Instr :=
  (s.queues.filter fun q => q.2.en && q.2.held != 0).map (fun q => .launchPacketAdmit q.1)
    ++ (s.launches.zipIdx.filter fun p => p.1.ready.isNone).map (fun p => .launchReady p.2)
    ++ (match s.bids.head? with
        | some b => if b.evicted.isSome ∧ (s.seats b []).isSome then [.gangRestore] else [.gangPlacement]
        | none => [])
    ++ s.gangs.flatMap fun g =>
        if g.members.isEmpty then []
        else if s.allIn g .evicting then [.evictionComplete g.id]
        else if s.allIn g .suspended ∧ g.members.any (fun k => (s.hartAt k).preempt) then [.eviction g.id] else []

/-- The steps of the controllers (R95, R365, R363, R368) and of the security processor (R366). -/
noncomputable def deviceSteps (s : State) : List Instr :=
  (match s.boot with | .verify => [.deviceReset] | .zeroing => [.hbmZeroingDone] | .loading => [.gueskStart] | _ => [])
    ++ (s.frames.filter fun f => f.state == 1).map (fun f => .frameCopyEnd f.stack f.index)
    ++ (if s.busy ∧ s.snapAt.isNone then [.snapshotLanded] else [])
    ++ ((List.finRange 16).filter fun i => s.ports[i].retraining).map (fun i => .portRetrainDone i.val)
    ++ (match s.idleSince with
        | some t => if s.power = .on ∧ t + 10000000 ≤ s.nanos then [.idleEntry] else []
        | none => [])
    ++ (if s.power = .idle ∧ (!s.placed.isEmpty ∨ !s.launches.isEmpty) then [.idleExit] else [])

/-- Whether a hart's next word is ready to issue (R325): it runs, no word of it waits to complete, and what its word needs is at hand, a free value
where only timing says. -/
noncomputable def eligible (s : State) (k : Nat) : Bool := (s.hartAt k).st == .running && (s.hartAt k).wait == .none && Config.ready k s.tick
/-- The order in which a front end picks (R325): harts ready for 64 clocks, the longest waiting first; then run priority; then the least recent
issue. -/
noncomputable def issuesBefore (s : State) (a b : Nat) : Bool :=
  let p := s.hartAt a
  let q := s.hartAt b
  let late (h : Hart) : Nat := match h.since with | some c => if c + 64 ≤ s.cycle.toNat then s.cycle.toNat - c else 0 | none => 0
  if late p ≠ late q then decide (late q < late p)
  else if p.prio ≠ q.prio then decide (q.prio < p.prio)
  else if p.lastIssue ≠ q.lastIssue then decide (p.lastIssue < q.lastIssue)
  else decide (a < b)
/-- The harts whose turn may come: of each core the two that its front end picks (R325), and those whose word has issued and waits, which
try it again or leave it without a pick (R150, R329). -/
noncomputable def hartsReady (s : State) : List Nat :=
  let ready := s.placed.filter s.eligible
  (ready.filter fun k => decide ((ready.filter fun o => o / 8 == k / 8 && o != k && s.issuesBefore o k).length < 2))
    ++ s.placed.filter fun k => (s.hartAt k).wait != .none && (s.hartAt k).movable

/-- The steps of the units that are ready. -/
noncomputable def unitSteps (s : State) : List Instr :=
  s.writesReady ++ s.packetsReady ++ s.keysReady ++ s.reclaimersReady
    ++ s.placed.flatMap (fun k => s.waitsOver k ++ s.engineSteps k ++ s.hartTimers k)
    ++ s.sequencerSteps ++ s.deviceSteps

/-- Everything that may move next. -/
noncomputable def candidates (s : State) : List Turn := s.hartsReady.map .hart ++ s.unitSteps.map .event

/-- The arrival that is due: of those whose clock has come the first by clock, then by port, then as listed (R360, R361). -/
def dueInput (s : State) : Option Input :=
  (s.inputs.filter fun i => decide (i.clock ≤ s.cycle.toNat)).foldl (fun a i => match a with | none => some i | some b => if i.sooner b then some i else a) none

/-- A read of an 8-byte unit that an agent performs ahead of its place in program order (R282, log 23), when the free choice of this tick makes one: the agent
has no write there still to be performed, nor its core a line written there that is not yet home (R280), and it holds no older value of it. -/
noncomputable def readAhead (s : State) : State :=
  match Config.earlyRead s.tick with
  | none => s
  | some (k, vec, key0) =>
    let key := key0 / 8 * 8
    if (s.hartAt k).st ≠ .running ∨ s.poisoned key
        ∨ (s.early.any fun e => e.hart == k && e.vec == vec && e.key == key)
        ∨ (!vec && (s.coreAt (k / 8)).l1.any fun l => l.dirty && l.node.isNone && decide (l.key < key + 8 ∧ key < l.key + 64))
        ∨ (s.pend.any fun p => p.hart == k && p.vec == vec && p.node.isNone && decide (p.key < key + 8 ∧ key < p.key + p.data.length)) then s
    else { s with early := s.early ++ [⟨k, vec, key, s.homeRead key 8, s.rels.filter fun r => decide (r.key < key + 8 ∧ key < r.key + r.len)⟩] }

/-- An 8-byte word of its source that a hart's copy engine reads ahead of the row it lies in, when the free choice of this tick makes it: so another
agent's writes there are seen word by word while the command runs (R141, log 23). It does so once the command may read (R143), through the
translations and rights by which it would read the row. -/
noncomputable def rowAhead (s : State) : State :=
  match Config.earlyRow s.tick with
  | none => s
  | some (k, key0) =>
    let key := key0 / 8 * 8
    match (s.focus k).copyHead with
    | none => s
    | some c =>
      if (s.focus k).engineHeld c ∨ s.poisoned key ∨ (c.ahead.any fun w => w.1 == key) ∨ !(s.focus k).readsWord c key then s
      else
        let h := s.hartAt k
        s.setHart k { h with cmds := h.cmds.map fun o => if o.ticket = c.ticket then { o with ahead := o.ahead ++ [(key, s.homeRead key 8)] } else o }

/-- The clocks from which harts have been ready to issue (R325). -/
noncomputable def markReady (s : State) : State :=
  s.placed.foldl (fun t k => let h := t.hartAt k; t.setHart k { h with since := if s.eligible k then some (h.since.getD s.cycle.toNat) else none }) s

/-- The clocks pass: `cycle`, the model's tick, since when no hart has been placed (R368), what is ready, and what is read ahead. -/
noncomputable def pass (s : State) : State :=
  let s1 := { s with tick := s.tick + 1, cycle := s.cycle + 1 + BitVec.ofNat 64 (Config.extraClocks s.tick) }
  ({ s1 with idleSince := if s1.placed.isEmpty then some (s1.idleSince.getD s1.nanos) else none }).markReady.readAhead.rowAhead

/-- A free choice among the candidates. -/
noncomputable def pickTurn (s : State) : Turn := s.candidates.getD (Config.pick s.tick s.candidates.length % s.candidates.length) .idle
/-- The next mover: a snapshot whose clock has come is latched at once (R365), then what has arrived from outside is taken, then a free choice. -/
noncomputable def nextTurn (s : State) : Turn :=
  if (match s.snapAt with | some c => decide (c ≤ s.cycle.toNat) | none => false) then .event .snapshotLatch
  else match s.dueInput with
    | some i => .outside i.what
    | none => s.pickTurn

/-- The clocks pass and the next mover is chosen. -/
noncomputable def reschedule (s : State) : State := { s.pass with turn := s.pass.nextTurn }

/-- An outcome with the next mover chosen. -/
noncomputable def settle (o : Out) : Out :=
  match o with
  | .next t => .next t.reschedule
  | .fault r => .fault r
  | .refused r => .refused r

/-- A step of a unit. -/
noncomputable def runEvent (s : State) (i : Instr) (run : Instr → State → Out) : Out := settle (run i s)

/-- What has arrived from outside is taken from the list of arrivals and has its effect. -/
noncomputable def runOutside (s : State) (o : Outside) (run : Instr → State → Out) : Out :=
  let s1 : State := match s.dueInput with
    | some i => if i.what = o then { s with inputs := s.inputs.erase i } else s
    | none => s
  match o with
  | .event i => settle (run i s1)
  | .windowRead who off => .next (s1.outsideRead who off).reschedule
  | .strike x => .next (s1.strike x).reschedule

/-- A hart's turn: it becomes the current hart and issues. -/
noncomputable def runHart (s : State) (k : Nat) (run : Instr → State → Out) : Out :=
  match (s.focus k).issue with
  | .stop t => .next t.reschedule
  | .word i t => settle (t.heldLoad i (t.readCheck i (run i t)))

/-- The device booted with a hart in mode S, BARE set, about to fetch the given word at its pc: how a program that is loaded from
outside comes to run (log 17). -/
def placeWord (s : State) (_nbits w : Nat) : State :=
  let s1 := match physKey s.h.pc.toNat with
    | some k =>
      { s with
        mem := memSetN s.mem (s.readKeyOf k) (toBytes 8 w)
        poison := s.poison.filter fun p => decide (p ≠ poisonAt (s.readKeyOf k))
        core := { s.core with icache := s.core.icache.filter fun l => decide (l.key ≠ k / 64 * 64) } }
    | none => s
  { s1 with
    boot := .running, power := .on, turn := .hart s.cur
    h := { s1.h with st := .running, wait := .none, mode := .s, bare := true, convoy := none, fresh := true, suspend := false } }

end State

end Sys2Proof.Machine
end

