-- ==== Sys2Proof/Machine/Step.lean ====
section
/-! DEFINITION. One step of the device, and the state in which a given word is the next one to run. -/

namespace Sys2Proof.Machine

/-- One step: a hart issues its next word, a unit takes its next step, or nothing moves and the clock advances. A device whose
power is off takes no step but the reset that turns it on. -/
noncomputable def step (s : State) : Host.Outcome State Fault Refusal :=
  match s.power, s.turn with
  | .off, .event .deviceReset => s.runEvent .deviceReset exec
  | .off, .outside (.event .deviceReset) => s.runOutside (.event .deviceReset) exec
  | .off, _ => .fault .off
  | _, .idle => .next s.reschedule
  | _, .event i => s.runEvent i exec
  | _, .outside o => s.runOutside o exec
  | _, .hart k => s.runHart k exec

/-- The state with the word stored where the next step fetches it: a device that has booted (R366), hart 0 of core 0 in mode S with
BARE set, which fetches without translation at its pc (R85), and the word may open a convoy whatever its H bit. -/
def State.withFetchWord (s : State) (nbits w : Nat) : State := s.placeWord nbits w

end Sys2Proof.Machine
end

