-- ==== Sys2Proof/Safety.lean ====
section
/-! DEFINITION. What the statements about the machine are said in: that an instruction completes, how a word retires, what a scalar or
chain result leaves, and the conditions on a state under which a vector word runs from its first element to its last. -/

namespace Sys2Proof.Machine

/-- An outcome is a next state of which P holds. -/
def completes (o : Out) (P : State → Prop) : Prop := ∃ t, o = .next t ∧ P t

/-- Every byte of memory reads at home as before. -/
def sameBytes (s t : State) : Prop := ∀ k, t.homeByte k = s.homeByte k

/-- Every x register but one reads as before, and the bank that the mode does not use stands (R299, R336). -/
structure OtherX (xd : XReg) (s t : State) : Prop where
  others : ∀ r, r ≠ xd → t.x r = s.x r
  user : s.h.mode = .s → t.h.xu = s.h.xu
  super : s.h.mode ≠ .s → t.h.xs = s.h.xs

/-- The word at pc is done, the hart goes on to the next one and waits for nothing (R61). -/
structure Retired (s t : State) : Prop where
  pc : t.h.pc = s.h.pc + 8
  instret : t.h.instret = s.h.instret + 1
  convoy : t.h.convoy = some (s.cv.mark s.pos)
  wait : t.h.wait = .none

/-- The same for a V-class word, whose entry in the convoy is DONE, with the n elements or outputs that it committed (R61, Table 17-8). -/
structure RetiredV (n : Nat) (s t : State) : Prop where
  pc : t.h.pc = s.h.pc + 8
  instret : t.h.instret = s.h.instret + 1
  convoy : t.h.convoy = some ((s.cv.mark s.pos).setEntry { Entry.idle .done s.pos with vstart := n })
  wait : t.h.wait = .none

/-- The current hart with the fields that a retiring scalar word writes taken from another. -/
def Hart.withScalar (h g : Hart) : Hart :=
  { h with xu := g.xu, xs := g.xs, pc := g.pc, instret := g.instret, convoy := g.convoy, wait := g.wait, st := g.st }

/-- A scalar word has written v to xd (nothing when xd is x0) and retired; all else is as in u, the state its operand reads left. -/
structure XResult (xd : XReg) (v : Word) (s u t : State) : Prop where
  value : t.x xd = if xd = 0 then 0 else v
  others : OtherX xd s t
  retired : Retired s t
  rest : t = { u with h := u.h.withScalar t.h }

/-- The same for a V-class word that delivers to an x register, with the n outputs it committed. -/
structure VXResult (n : Nat) (xd : XReg) (v : Word) (s u t : State) : Prop where
  value : t.x xd = if xd = 0 then 0 else v
  others : OtherX xd s t
  retired : RetiredV n s t
  rest : t = { u with h := u.h.withScalar t.h }

/-- A scalar word without a result has retired; all else is as in u. -/
structure PlainResult (s u t : State) : Prop where
  regs : t.h.xu = s.h.xu ∧ t.h.xs = s.h.xs
  retired : Retired s t
  rest : t = { u with h := u.h.withScalar t.h }

/-- No member of the convoy has stopped or been abandoned: every source is whole and the word begins at its first element (R344). -/
def State.calm (s : State) : Prop := ∀ e ∈ s.cv.entries, e.state ≠ .stopped ∧ e.state ≠ .abandoned

/-- No command of the hart fills one of the chains or marks one of the masks (R142, R148). -/
def State.unclaimed (s : State) (chains : List VReg) (masks : List MReg) : Prop := s.busy? chains masks = false

/-- No lane of the core is about to make an error (R248). -/
def State.soundLanes (s : State) : Prop := s.core.upsets.headD 0 = 0

/-- A live source chain of n elements or more. -/
def State.holdsChain (s : State) (r : VReg) (t : Tag) (n : Nat) : Prop :=
  (s.h.chain r).tag = t ∧ n ≤ (s.h.chain r).count

/-- A core's pool in its canonical form: links by strictly ascending id, the bytes canonical. -/
def Core.tidy (c : Core) : Bool := decide ((c.links.map Prod.fst).Pairwise (· < ·)) && c.pool.wf

/-- Memory and the pool of every core are canonical. -/
def State.tidy (s : State) : Prop := s.mem.wf = true ∧ s.core.tidy = true ∧ ∀ p ∈ s.cores, p.2.tidy = true

/-- Links that a fresh chain of n elements takes: a spine and a data link for each 512 bytes (R154, R162). -/
def linksFor (t : Tag) (n : Nat) : Nat := if n = 0 then 0 else 1 + (chainBytes t n + 511) / 512

/-- The quota and the pool have k more links (R162, R164). -/
def State.roomFor (s : State) (k : Nat) : Prop := s.h.vused + k ≤ s.h.vquota.toNat ∧ s.core.links.length + k ≤ 2048

/-- Links of a flat copy of n elements: a spine for each 131,072 bytes and a data link for each 512 (R177). -/
def flatLinks (t : Tag) (n : Nat) : Nat := (chainBytes t n + 131071) / 131072 + (chainBytes t n + 511) / 512

/-- A chain register holds n elements of a tag with the given values. -/
structure ChainIs (t : State) (r : VReg) (tag : Tag) (n : Nat) (val : Nat → Nat) : Prop where
  hasTag : (t.h.chain r).tag = tag
  hasCount : (t.h.chain r).count = n
  elems : ∀ j, j < n → t.elem (t.h.chain r) j = val j % 2 ^ tagWidth tag

/-- The current hart with the fields that a retiring chain word writes taken from another. -/
def Hart.withChains (h g : Hart) : Hart :=
  { h with v := g.v, vflags := g.vflags, vused := g.vused, mcheck := g.mcheck, pc := g.pc, instret := g.instret, convoy := g.convoy, wait := g.wait, st := g.st }

/-- The core with the pool and the recompute generator taken from another. -/
def Core.withPool (c d : Core) : Core :=
  { c with links := d.links, pool := d.pool, badRows := d.badRows, reclaim := d.reclaim, recompute := d.recompute, upsets := d.upsets }

/-- What a word that writes the chain registers `ds` leaves as it was: every other chain register, every byte of memory, and everything
but the pool, the hart's chains, vector flags and link count; the word has retired with n outputs. A row of the pool beyond correction
that it copied leaves a machine check to be raised at it (Table 18-1). -/
structure ChainFrame (ds : List VReg) (n : Nat) (s t : State) : Prop where
  chains : ∀ r, r ∉ ds → t.h.chain r = s.h.chain r
  bytes : sameBytes s t
  retired : RetiredV n s t
  checks : ∃ l, t.h.mcheck = s.h.mcheck ++ l ∧ ∀ v ∈ l, ∃ r ∈ s.core.badRows, v = BitVec.ofNat 64 r
  rest : t = { s with h := s.h.withChains t.h, core := s.core.withPool t.core }

/-- Every link that was in use reads as before (R167: a fresh result changes no existing chain). -/
def linksStand (s t : State) : Prop := ∀ l, (s.link l).isSome → ∀ b, b < 512 → t.linkByte l b = s.linkByte l b

/-- A fresh result in register vd: the elements, the flags collected, the links charged, and what stands (R167, R215, R162). -/
structure FreshResult (vd : VReg) (tag : Tag) (n : Nat) (val : Nat → Nat) (fl : Flags) (s t : State) : Prop where
  chain : ChainIs t vd tag n val
  flags : t.h.vflags = s.h.vflags ||| fl
  charged : t.h.vused = s.h.vused + linksFor tag n
  links : linksStand s t
  unchecked : t.h.mcheck = s.h.mcheck
  frame : ChainFrame [vd] n s t

/-- The flags of the outputs 0 to n - 1 ORed. -/
def orFlags (n : Nat) (f : Nat → Flags) : Flags := (List.range n).foldl (fun a j => a ||| f j) 0

/-- The current hart with the fields that a retiring mask word writes taken from another. -/
def Hart.withMasks (h g : Hart) : Hart :=
  { h with m := g.m, vflags := g.vflags, pc := g.pc, instret := g.instret, convoy := g.convoy, wait := g.wait, st := g.st }

/-- A mask result: bits below n by a test, 0 from n up; m0 is never written (R235, R242). -/
structure MaskResult (md : MReg) (n : Nat) (bit : Nat → Bool) (fl : Flags) (s t : State) : Prop where
  bits : md ≠ 0 → ∀ j, j < 8192 → (t.h.mask md).getLsbD j = (decide (j < n) && bit j)
  masks : ∀ r, r ≠ md → t.h.mask r = s.h.mask r
  flags : t.h.vflags = s.h.vflags ||| fl
  retired : RetiredV n s t
  rest : t = { s with h := s.h.withMasks t.h, core := { s.core with recompute := t.core.recompute, upsets := t.core.upsets } }

/-- Trap registers after an entry to mode S from mode m (R341 steps 2 and 4). -/
structure EnteredS (cause : BitVec 8) (tval tpc : Word) (s t : State) : Prop where
  mode : t.h.mode = .s
  pc : t.h.pc = s.h.tvec
  cause : t.h.cause = cause
  tval : t.h.tval = tval
  tpc : t.h.tpc = tpc
  ppriv : t.h.ppriv = match s.h.mode with | .u => 0 | .d => 1 | .s => 2
  between : t.h.convoy = none
  running : t.h.st = .running ∧ t.h.wait = .none

/-- Instruction i completes with v in xd and nothing else changed. -/
def computes (i : Instr) (xd : XReg) (v : Word) (s : State) : Prop := completes (exec i s) (XResult xd v s s)

/-- The current hart with the fields that a control transfer writes taken from another. -/
def Hart.withTransfer (h g : Hart) : Hart :=
  { h with xu := g.xu, xs := g.xs, pc := g.pc, instret := g.instret, convoy := g.convoy, wait := g.wait, xfer := g.xfer }

/-- A member of the convoy has stopped or has raised a cause (R344). -/
def State.restless (s : State) : Bool := s.cv.entries.any fun e => e.state == .stopped || e.cause != 0

/-- A control transfer to a target has completed (R58, R60, R305): the convoy ends with the word; while a member of it has stopped or raised a
cause the target waits in NEXTPC and the hart stands behind the convoy's last word (R344, R347). -/
structure Transferred (target : Word) (s t : State) : Prop where
  pc : t.h.pc = if s.restless then s.cv.hinge + 8 * BitVec.ofNat 64 s.cv.words.length else target
  instret : t.h.instret = s.h.instret + 1
  wait : t.h.wait = .none
  xfer : t.h.xfer = some s.h.pc
  convoy : t.h.convoy = if s.restless then some { s.cv.mark s.pos with nextpc := some target } else none
  rest : t = { s with h := s.h.withTransfer t.h }

/-- A floating-point word has written v to xd, ORed its flags into `sflags` and retired (R214, R306). -/
structure FResult (xd : XReg) (v : Nat) (fl : Flags) (s t : State) : Prop where
  flags : t.h.sflags = s.h.sflags ||| fl
  result : XResult xd (BitVec.ofNat 64 v) s { s with h := { s.h with sflags := s.h.sflags ||| fl } } t

/-- The rational number of a finite value, its sign taken in (R203, R204). -/
def Num.val : Num → ℚ
  | .fin neg m e => (if neg then -1 else 1) * m * 2 ^ e
  | _ => 0

/-- A finite value. -/
def Num.finite : Num → Prop
  | .fin _ _ _ => True
  | _ => False

/-- Whether R211 takes the upper neighbour in magnitude of a number k units above 0 and a part of the next one: RNE to the nearer, a tie to the one
with a last bit 0, RNA a tie upward, RTZ never, RDN and RUP by the sign, ROD to the one with a last bit 1. -/
def takesUpper (rm : BitVec 3) (neg : Bool) (k : Int) (part : ℚ) : Prop :=
  0 < part ∧ ((rm = rmRNE ∧ (1 / 2 < part ∨ part = 1 / 2 ∧ k % 2 = 1)) ∨ (rm = rmRNA ∧ 1 / 2 ≤ part) ∨ (rm = rmRDN ∧ neg = true)
    ∨ (rm = rmRUP ∧ neg = false) ∨ (rm = rmROD ∧ k % 2 = 0))

/-- `round` of a number of magnitude x > 0 (R211, R212, Table 10-3): with the spacing of the format at x, the neighbour that the mode takes, NX and UF; above the largest
finite value the overflow result with OF and NX, which a saturating conversion takes as the largest finite value (Table 10-6). -/
structure RoundsTo (f : Fmt) (rm : BitVec 3) (neg : Bool) (x : ℚ) (r : Nat × Flags) (sat : Bool := false) : Prop where
  value : ∃ y : ℚ, let q : ℚ := 2 ^ (max (Int.log 2 x) f.emin - f.frac)
    let k := ⌊x / q⌋
    let part := x / q - k
    (takesUpper rm neg k part ∧ y = (k + 1) * q ∨ ¬ takesUpper rm neg k part ∧ y = k * q)
    ∧ (y ≤ (f.decode f.big).val →
        (∃ m e, f.decode r.1 = .fin neg m e ∧ m * 2 ^ e = y) ∧ r.2 = if part = 0 then 0 else if x < 2 ^ f.emin then fNX ||| fUF else fNX)
    ∧ ((f.decode f.big).val < y →
        r = (if sat = false ∧ (rm = rmRNE ∨ rm = rmRNA ∨ rm = rmRUP) then f.infCode neg else f.big + f.signBit neg, fOF ||| fNX))

/-- The root of a number x > 0 in a format (R211): of the multiples of the spacing there, the one whose square is next below x, or the next one as
the mode has it; no root overflows. -/
def RootsTo (f : Fmt) (rm : BitVec 3) (x : ℚ) (r : Nat × Flags) : Prop :=
  ∃ k : Nat, let q : ℚ := 2 ^ (max (Int.log 2 x / 2) f.emin - f.frac)
    let half : ℚ := (k + 1 / 2) * q
    let up := (rm = rmRNE ∧ (half ^ 2 < x ∨ half ^ 2 = x ∧ k % 2 = 1)) ∨ (rm = rmRNA ∧ half ^ 2 ≤ x) ∨ rm = rmRUP ∨ (rm = rmROD ∧ k % 2 = 0)
    (k * q) ^ 2 ≤ x ∧ x < ((k + 1) * q) ^ 2
    ∧ ∃ y : ℚ, ((k * q) ^ 2 < x ∧ up ∧ y = (k + 1) * q ∨ ((k * q) ^ 2 = x ∨ ¬ up) ∧ y = k * q)
      ∧ (∃ m e, f.decode r.1 = .fin false m e ∧ m * 2 ^ e = y)
      ∧ r.2 = if (k * q) ^ 2 = x then 0 else if x < 2 ^ (2 * f.emin) then fNX ||| fUF else fNX

/-- The order of R209 on values that are not NaN: the infinities at the ends, -0 below +0. -/
def Num.below (x y : Num) : Prop :=
  (x = .inf true ∧ y ≠ .inf true) ∨ (y = .inf false ∧ x ≠ .inf false)
    ∨ (x.finite ∧ y.finite ∧ (x.val < y.val ∨ x.val = y.val ∧ x.sign = true ∧ y.sign = false))

/-- A value delivered in a format by a conversion (R217, R218, Table 10-6). -/
structure FloatResult (f : Fmt) (rm : BitVec 3) (sat : Bool) (x : Num) (r : Nat × Flags) : Prop where
  zero : ∀ neg e, x = .fin neg 0 e → r = (f.signBit neg, 0)
  finite : x.finite → x.val ≠ 0 → RoundsTo f rm (decide (x.val < 0)) |x.val| r sat
  infinite : ∀ neg, x = .inf neg → r = if sat then (f.big + f.signBit neg, fOF) else (f.infCode neg, if f.special = .ieee then 0 else fNV)
  nan : ∀ sig, x = .nan sig → r = if f.special = .e2m1 then (0, fNV) else (f.canon, if sig then fNV else 0)

/-- The integer that a mode takes for a number (R211, R219). -/
def nearestInt (rm : BitVec 3) (v : ℚ) (k : Int) : Prop :=
  let m := ⌊|v|⌋
  (takesUpper rm (decide (v < 0)) m (|v| - m) ∧ k.natAbs = m + 1 ∨ ¬ takesUpper rm (decide (v < 0)) m (|v| - m) ∧ k.natAbs = m)
    ∧ (v < 0 → k ≤ 0) ∧ (0 ≤ v → 0 ≤ k)

/-- A value converted to an integer tag (R219, Table 10-6). -/
structure IntResult (t : Tag) (rm : BitVec 3) (x : Num) (r : Nat × Flags) : Prop where
  finite : x.finite → ∃ k, nearestInt rm x.val k ∧
    (k < intMin t → r = (bitsOf (tagWidth t) (intMin t), fNV)) ∧ (intMax t < k → r = (bitsOf (tagWidth t) (intMax t), fNV))
    ∧ (intMin t ≤ k → k ≤ intMax t → r = (bitsOf (tagWidth t) k, if x.val = k then 0 else fNX))
  infinite : ∀ neg, x = .inf neg → r = (bitsOf (tagWidth t) (if neg then intMin t else intMax t), fNV)
  nan : ∀ sig, x = .nan sig → r = (0, fNV)

/-- The function of the reals that a special function computes (Table 10-9). -/
noncomputable def Special8.real (fn : Special8) (x : ℝ) : ℝ :=
  match fn with
  | .exp2 => (2 : ℝ) ^ x
  | .exp => Real.exp x
  | .log2 => Real.logb 2 x
  | .rcp => 1 / x
  | .rsqrt => 1 / Real.sqrt x
  | .sin => Real.sin x
  | .cos => Real.cos x
  | .tanh => Real.tanh x
  | .sigmoid => 1 / (1 + Real.exp (-x))

/-- ulp(y) in a format (R227). -/
noncomputable def Fmt.ulp (f : Fmt) (y : ℝ) : ℝ := (2 : ℝ) ^ (max (Int.log 2 |y|) f.emin - f.frac)

/-- A number as the unit keeps a check sum of floating cells: rounded to f64 by RNE (R266, R275). -/
def checkSum (x : ℚ) (w : Word) : Prop :=
  (x = 0 → (fmtF64.decode w.toNat).isZero = true) ∧ (x ≠ 0 → ∃ fl, RoundsTo fmtF64 rmRNE (decide (x < 0)) |x| (w.toNat, fl))

/-- The current hart with the fields that taking a trap writes taken from another. -/
def Hart.withTrap (h g : Hart) : Hart :=
  { h with
    st := g.st, wait := g.wait, mode := g.mode, pc := g.pc, tpc := g.tpc, cause := g.cause, cword := g.cword, incv := g.incv, newcv := g.newcv
    tval := g.tval, ppriv := g.ppriv, rr := g.rr, convoy := g.convoy, xfer := g.xfer, fresh := g.fresh, mcheck := g.mcheck, mheld := g.mheld, due := g.due }

/-- Where the copy of a hart's trap record stands: 1,088 bytes at OFF of its slice of scalar data memory, when OFF is at most 111 (R341, Table 17-4). -/
def State.inRecord (s : State) (k : Nat) : Prop :=
  s.h.tresOff.toNat ≤ 111 ∧ sdmKey s.coreNo (s.slotNo * 0x2000 + s.h.tresOff.toNat * 64) ≤ k
    ∧ k < sdmKey s.coreNo (s.slotNo * 0x2000 + s.h.tresOff.toNat * 64) + 1088

/-- A trap word: the hart's state when the word at pc traps and nothing of it has taken effect, for a hart in mode U or D whose convoy has
raised no cause before (R338, R341, R344): the trap registers are written, the record's copy goes to scalar data memory (Table 17-4), which may end the
poison of what it covers, and nothing else of the hart, its core or the device changes. Cause 0x0C of a mode-U hart with PFH.E goes to its own
handler instead. -/
structure TrapTaken (cause : BitVec 8) (tval : Word) (s t : State) : Prop where
  entered : EnteredS cause tval (s.cv.hinge + 8 * BitVec.ofNat 64 s.pos) s t
  word : t.h.cword = s.pos
  inside : t.h.incv = true ∧ t.h.newcv = false
  record : t.h.rr.isSome = true
  regs : t.h.xu = s.h.xu ∧ t.h.xs = s.h.xs ∧ t.h.v = s.h.v ∧ t.h.m = s.h.m ∧ t.h.instret = s.h.instret ∧ t.h.sflags = s.h.sflags
    ∧ t.h.vflags = s.h.vflags
  hart : t.h = s.h.withTrap t.h
  pend : t.pend = s.pend
  keyring : t.keyring = s.keyring
  bytes : s.mem.wf = true → ∀ k, ¬ s.inRecord k → memGet t.mem k = memGet s.mem k
  sound : ∀ p, ¬ s.inRecord p → (p ∈ t.poison ↔ p ∈ s.poison)
  releases : ∀ r, (r ∈ t.rels → r ∈ s.rels) ∧ (r ∈ s.rels → r.key + r.len ≤ sdmBase → r ∈ t.rels)
  rest : t = { s with h := t.h, mem := t.mem, poison := t.poison, rels := t.rels }

/-- The core-local windows that a scalar access may name, its own slice of scalar data memory only when it is no atomic (R80, R82, R290, Table 04-1). -/
def State.inWindow (s : State) (slice : Bool) (a : Nat) : Prop :=
  a < 0x20_0000 ∨ (slice = true ∧ 0x100_0000 + s.slotNo * 0x2000 ≤ a ∧ a < 0x100_0000 + (s.slotNo + 1) * 0x2000)
    ∨ (0x1000_0000 ≤ a ∧ a < 0x1800_0000 ∧ a % 0x100_0000 < 0x20_0000)

/-- Why a scalar access or an atomic of n bytes at an offset of a space is refused below mode S (R302, R290): a reserved space, an offset outside the core-local
windows, a store of no gang member (R82), a misaligned offset, a space with no valid space-table entry (R83, R84), and a page of this
node whose attributes (Table 05-3) or whose key (R98, R99, R104) do not give the right that it needs. -/
inductive ScalarRefused (s : State) (space : BitVec 16) (a n : Nat) (kind : Kind) (slice : Bool) : BitVec 8 → Prop where
  | reserved : 0xFF00 ≤ space.toNat → space ≠ 0xFFFF → ScalarRefused s space a n kind slice 0x08
  | noWindow : space = 0xFFFF → ¬ s.inWindow slice a → ScalarRefused s space a n kind slice 0x08
  | notOfGang : space = 0xFFFF → 0x1000_0000 ≤ a → a < 0x1800_0000 → a % 0x100_0000 < 0x20_0000 → a % n = 0 →
      s.gangOnCore (s.coreNo / 8 * 8 + (a - 0x1000_0000) / 0x100_0000) = false → ScalarRefused s space a n kind slice 0x09
  | misaligned : space.toNat < 0xFF00 ∨ (space = 0xFFFF ∧ s.inWindow slice a) → a % n ≠ 0 → ScalarRefused s space a n kind slice 0x0A
  | noTable (k : Nat) : space.toNat < 0xFF00 → a % n = 0 → s.h.mode ≠ .s → s.walkerOf (s.coreNo / 8) = [] →
      (∀ e ∈ s.core.tlb, ¬ (e.ctx = s.h.kctx ∧ e.space = space ∧ a / e.size = e.page)) →
      physKey (s.h.ptbase.toNat * 2 ^ 15 + space.toNat * 8) = some k → s.poisoned k = false → (s.homeByte k).getLsbD 0 = false →
      ScalarRefused s space a n kind slice 0x08
  | pageBits (e : TlbEntry) (t : State) (k : Nat) : space.toNat < 0xFF00 → a % n = 0 → s.h.mode ≠ .s → s.translate s.h.acc space a = .ok (e, t) →
      e.node = Config.nodeId → physKey (e.frame + a % e.size) = some k →
      (e.im = true ∧ (kind = .write ∨ kind = .atomic)) ∨ (e.at_ = true ∧ (kind = .read ∨ kind = .write)) → ScalarRefused s space a n kind slice 0x09
  | noRight (e : TlbEntry) (t : State) (k : Nat) : space.toNat < 0xFF00 → a % n = 0 → s.h.mode ≠ .s → s.translate s.h.acc space a = .ok (e, t) →
      e.node = Config.nodeId → physKey (e.frame + a % e.size) = some k → e.im = false → e.at_ = false →
      (∀ r ∈ s.core.keys, r.hits s.h.acc space a = false) →
      (match s.entryAt s.h.kctx space a with
        | some o => o.right s.h.agent < (if kind = .read ∨ kind = .aread then 1 else 2)
        | none => space = 0) → ScalarRefused s space a n kind slice 0x09

/-- A hart of which a trap is taken to mode S: not already there, no cause raised before in its convoy, no pool fault delegated. -/
def State.trapsToS (s : State) (cause : BitVec 8) : Prop :=
  s.h.mode ≠ .s ∧ (∀ e ∈ s.cv.entries, e.cause = 0 ∧ e.state ≠ .stopped ∧ e.fill = false) ∧ cause ≠ 0 ∧ cause ≠ 0x0C ∧ cause ≠ 0x3F

/-! Element rows: the instructions that R232 gives one form, with the operation Tables 11-2, 11-4, 11-5 and 11-6 give each. -/

/-- A row: destination, operands, the tags the first source may have, the tag of the result, vl and mask registers, Z, what a masked-off
element holds, whether a recompute check covers it, and the operation on one element of each operand. -/
structure ElementRow where
  vd : VReg
  ops : List Operand
  accept : Tag → Bool
  rtag : Tag → Tag
  xl : XReg
  msk : MReg
  z : Bool
  fill : State.Fill
  checked : Bool
  f : Tag → List Nat → Nat × Flags
  /-- Tags for which the rounding mode is allowed (R213). -/
  rounds : Tag → Bool := fun _ => true

/-- A row of Table 11-6. -/
def specialRow (fn : Special8) (vd va : VReg) (xl : XReg) (msk : MReg) (z : Bool) (rm : BitVec 3) : ElementRow :=
  { vd := vd, ops := [.chain va], accept := isWide, rtag := id, xl := xl, msk := msk, z := z, fill := .first, checked := true
    f := one fun t a => onTag t (a, 0) fun g => g.special8 fn t rm a
    rounds := fun t => decide (tagWidth t < 32) || fn == .rcp || rm == 0 }

/-- The rows by instruction; none for an instruction that is no row. -/
def elementRow : Instr → Option ElementRow
  | .vadd vd va vb xl msk z rm sc => some ⟨vd, [.chain va, operandB sc vb], intOrWide, id, xl, msk, z, .first, true, two (elAdd rm), fun _ => true⟩
  | .vsub vd va vb xl msk z rm sc => some ⟨vd, [.chain va, operandB sc vb], intOrWide, id, xl, msk, z, .first, true, two (elSub rm), fun _ => true⟩
  | .vrsub vd va vb xl msk z rm sc => some ⟨vd, [.chain va, operandB sc vb], intOrWide, id, xl, msk, z, .first, true, two (fun t a b => elSub rm t b a), fun _ => true⟩
  | .vmul vd va vb xl msk z rm sc => some ⟨vd, [.chain va, operandB sc vb], intOrWide, id, xl, msk, z, .first, true, two (elMul rm), fun _ => true⟩
  | .vmulh vd va vb xl msk z sc => some ⟨vd, [.chain va, operandB sc vb], isIntTag, id, xl, msk, z, .first, true, two elMulh, fun _ => true⟩
  | .vdiv vd va vb xl msk z rm sc => some ⟨vd, [.chain va, operandB sc vb], intOrWide, id, xl, msk, z, .first, true, two (elDiv rm), fun _ => true⟩
  | .vrem vd va vb xl msk z _ sc => some ⟨vd, [.chain va, operandB sc vb], intOrWide, id, xl, msk, z, .first, true, two elRem, fun _ => true⟩
  | .vmin vd va vb xl msk z sc => some ⟨vd, [.chain va, operandB sc vb], intOrWide, id, xl, msk, z, .first, true, two (elMinMax false), fun _ => true⟩
  | .vmax vd va vb xl msk z sc => some ⟨vd, [.chain va, operandB sc vb], intOrWide, id, xl, msk, z, .first, true, two (elMinMax true), fun _ => true⟩
  | .vand vd va vb xl msk z sc => some ⟨vd, [.chain va, operandB sc vb], isIntTag, id, xl, msk, z, .first, true, two (fun _ a b => (a &&& b, 0)), fun _ => true⟩
  | .vor vd va vb xl msk z sc => some ⟨vd, [.chain va, operandB sc vb], isIntTag, id, xl, msk, z, .first, true, two (fun _ a b => (a ||| b, 0)), fun _ => true⟩
  | .vxor vd va vb xl msk z sc => some ⟨vd, [.chain va, operandB sc vb], isIntTag, id, xl, msk, z, .first, true, two (fun _ a b => (a ^^^ b, 0)), fun _ => true⟩
  | .vandn vd va vb xl msk z sc => some ⟨vd, [.chain va, operandB sc vb], isIntTag, id, xl, msk, z, .first, true, two elAndn, fun _ => true⟩
  | .vshl vd va vb xl msk z sc => some ⟨vd, [.chain va, operandB sc vb], isIntTag, id, xl, msk, z, .first, true, two elShl, fun _ => true⟩
  | .vshr vd va vb xl msk z sc => some ⟨vd, [.chain va, operandB sc vb], isIntTag, id, xl, msk, z, .first, true, two elShr, fun _ => true⟩
  | .vsra vd va vb xl msk z sc => some ⟨vd, [.chain va, operandB sc vb], isIntTag, id, xl, msk, z, .first, true, two elSra, fun _ => true⟩
  | .vaddsat vd va vb xl msk z sc => some ⟨vd, [.chain va, operandB sc vb], isIntTag, id, xl, msk, z, .first, true, two elAddSat, fun _ => true⟩
  | .vsubsat vd va vb xl msk z sc => some ⟨vd, [.chain va, operandB sc vb], isIntTag, id, xl, msk, z, .first, true, two elSubSat, fun _ => true⟩
  | .vcopysign vd va vb xl msk z sc => some ⟨vd, [.chain va, operandB sc vb], isFloatTag, id, xl, msk, z, .first, true, two elCopySign, fun _ => true⟩
  | .vfma vd va vb vc xl msk z rm sc => some ⟨vd, [.chain va, operandB sc vb, .chain vc], intOrWide, id, xl, msk, z, .first, true, three (elFma false false rm), fun _ => true⟩
  | .vfms vd va vb vc xl msk z rm sc => some ⟨vd, [.chain va, operandB sc vb, .chain vc], intOrWide, id, xl, msk, z, .first, true, three (elFma false true rm), fun _ => true⟩
  | .vfnma vd va vb vc xl msk z rm sc => some ⟨vd, [.chain va, operandB sc vb, .chain vc], intOrWide, id, xl, msk, z, .first, true, three (elFma true false rm), fun _ => true⟩
  | .vabs vd va xl msk z => some ⟨vd, [.chain va], anyTag, id, xl, msk, z, .first, true, one elAbs, fun _ => true⟩
  | .vneg vd va xl msk z => some ⟨vd, [.chain va], anyTag, id, xl, msk, z, .first, true, one elNeg, fun _ => true⟩
  | .vsqrt vd va xl msk z rm => some ⟨vd, [.chain va], isWide, id, xl, msk, z, .first, true, one (elSqrt rm), fun _ => true⟩
  | .vclz vd va xl msk z => some ⟨vd, [.chain va], isIntTag, id, xl, msk, z, .first, true, one (fun t a => (clzNat (tagWidth t) a, 0)), fun _ => true⟩
  | .vpopc vd va xl msk z => some ⟨vd, [.chain va], isIntTag, id, xl, msk, z, .first, true, one (fun t a => (popNat (tagWidth t) a, 0)), fun _ => true⟩
  | .vround vd va xl msk z rm => some ⟨vd, [.chain va], isWide, id, xl, msk, z, .first, true, one (elRound rm), fun _ => true⟩
  | .vmov vd va xl msk z => some ⟨vd, [.chain va], anyTag, id, xl, msk, z, .first, false, one fun _ a => (a, 0), fun _ => true⟩
  | .vclass vd va xl msk z => some ⟨vd, [.chain va], fun t => isWide t || t == 10 || t == 11, nTag, xl, msk, z, .zero, true, one elClass, fun _ => true⟩
  | .vcvt vd va xl msk z rm ot => some ⟨vd, [.chain va], anyTag, fun _ => ot, xl, msk, z, .zero, true, one fun t a => convert t ot rm false a, fun _ => true⟩
  | .vcvtsat vd va xl msk z rm ot => some ⟨vd, [.chain va], anyTag, fun _ => ot, xl, msk, z, .zero, true, one fun t a => convert t ot rm true a, fun _ => true⟩
  | .vexp2 vd va xl msk z rm => some (specialRow .exp2 vd va xl msk z rm)
  | .vexp vd va xl msk z rm => some (specialRow .exp vd va xl msk z rm)
  | .vlog2 vd va xl msk z rm => some (specialRow .log2 vd va xl msk z rm)
  | .vrcp vd va xl msk z rm => some (specialRow .rcp vd va xl msk z rm)
  | .vrsqrt vd va xl msk z rm => some (specialRow .rsqrt vd va xl msk z rm)
  | .vsin vd va xl msk z rm => some (specialRow .sin vd va xl msk z rm)
  | .vcos vd va xl msk z rm => some (specialRow .cos vd va xl msk z rm)
  | .vtanh vd va xl msk z rm => some (specialRow .tanh vd va xl msk z rm)
  | .vsigmoid vd va xl msk z rm => some (specialRow .sigmoid vd va xl msk z rm)
  | _ => none

namespace ElementRow

/-- Chain sources, vl as a number, and the tag of the first source. -/
def srcs (r : ElementRow) : List VReg := r.ops.filterMap Operand.reg
def vl (r : ElementRow) (s : State) : Nat := (s.x r.xl).toNat
def tag (r : ElementRow) (s : State) : Tag := match r.srcs with | v :: _ => (s.h.chain v).tag | [] => 0
/-- An operand at index j, as it stands before the word: a chain's element, or the low bits of an x register (R232). -/
def arg (r : ElementRow) (s : State) (j : Nat) : Operand → Nat
  | .chain v => s.elem (s.h.chain v) j
  | .scalar x => (s.x x).toNat % 2 ^ tagWidth (r.tag s)
/-- The operation at index j. -/
def op (r : ElementRow) (s : State) (j : Nat) : Nat × Flags := r.f (r.tag s) (r.ops.map (r.arg s j))
/-- Element j of the result: the operation's where active, else 0 with Z or where the row fills with 0, else the first source's. -/
def val (r : ElementRow) (s : State) (j : Nat) : Nat :=
  if s.maskOn r.msk j then (r.op s j).1
  else if r.z ∨ r.fill = .zero then 0
  else match r.ops with | o :: _ => r.arg s j o | [] => 0
/-- The flags of index j: none where inactive. -/
def flg (r : ElementRow) (s : State) (j : Nat) : Flags := if s.maskOn r.msk j then (r.op s j).2 else 0
/-- Whether the result takes the place of the first source (R167): same register, same width. -/
def inPlace (r : ElementRow) (s : State) : Prop := r.srcs.head? = some r.vd ∧ tagWidth (r.rtag (r.tag s)) = tagWidth (r.tag s)

/-- The checks of R233 pass, the convoy holds no stopped member, no command holds a chain of the word, no lane errs. -/
structure Ready (r : ElementRow) (s : State) : Prop where
  mode : s.h.mode ≠ .d
  live : r.tag s ≠ 0
  tags : ∀ v ∈ r.srcs, s.holdsChain v (r.tag s) (r.vl s)
  accepted : r.accept (r.tag s) = true
  rounds : r.rounds (r.tag s) = true
  result : r.rtag (r.tag s) ≠ 0
  length : r.vl s ≤ s.vlmax
  calm : s.calm
  unclaimed : s.unclaimed (r.vd :: r.srcs) []
  lanes : s.soundLanes

end ElementRow

/-- The locations of a chain's bytes are all there and all different, in links the pool lists; its spans lie within their spines (R154, R155). -/
def State.apart (s : State) (d : Desc) : Prop :=
  (∀ p ∈ d.spans, p.off + p.len ≤ 131072)
    ∧ (∀ b, b < chainBytes d.tag d.count → ∃ l, s.byteLoc d.spans b = some l ∧ (s.link l.1).isSome ∧ ∀ p ∈ d.spans, l.1 ≠ p.spine)
    ∧ ∀ a b, a < chainBytes d.tag d.count → b < chainBytes d.tag d.count → s.byteLoc d.spans a = s.byteLoc d.spans b → a = b

/-- A result written over the first source in place (R168): the elements of the destination, the flags, and what stands: no link is
taken, and every byte of the pool outside the chain's own locations reads as before. -/
structure InPlaceResult (vd : VReg) (tag : Tag) (n : Nat) (val : Nat → Nat) (fl : Flags) (s t : State) : Prop where
  chain : ChainIs t vd tag n val
  flags : t.h.vflags = s.h.vflags ||| fl
  charged : t.h.vused = s.h.vused
  links : ∀ l b, (∀ c, c < chainBytes (s.h.chain vd).tag (s.h.chain vd).count → s.byteLoc (s.h.chain vd).spans c ≠ some (l, b)) →
    t.linkByte l b = s.linkByte l b
  frame : ChainFrame [vd] n s t

/-- No spine's count is near its limit of 255 (R161): naming a span again takes no private copy. -/
def State.lowCounts (s : State) : Prop := ∀ l, s.rc l ≤ 240

/-- The links that a copy-on-write may take at most (R169): a spine for each span and a data link for each slot that the spans cover. -/
def Desc.copies (d : Desc) : Nat := d.spans.length + (d.spans.map fun p => p.slots.length).sum

/-- A result written over a first source that others share (R169): the elements of the destination, the flags, the links taken, and what stands: every other
chain register reads the same elements, and every link that the destination neither lists nor names the same bytes; where no element changes only spines are copied. -/
structure SharedResult (vd : VReg) (tag : Tag) (n : Nat) (val : Nat → Nat) (fl : Flags) (changes : Prop) (s t : State) : Prop where
  chain : ChainIs t vd tag n val
  flags : t.h.vflags = s.h.vflags ||| fl
  charged : s.h.vused ≤ t.h.vused ∧ t.h.vused ≤ s.h.vused + (s.h.chain vd).copies
  shared : ¬ changes → s.lowCounts → t.h.vused ≤ s.h.vused + (s.h.chain vd).spans.length
  others : ∀ q, q ≠ vd → ∀ j, j < (s.h.chain q).count → t.elem (t.h.chain q) j = s.elem (s.h.chain q) j
  links : ∀ l, (s.link l).isSome = true → (∀ p ∈ (s.h.chain vd).spans, l ≠ p.spine ∧ ∀ i, s.slotGet p.spine i ≠ some l) →
    ∀ b, b < 512 → t.linkByte l b = s.linkByte l b
  frame : ChainFrame [vd] n s t

/-- What every chain or mask word needs to run from its first element to its last: not in mode D, no stopped member, vl within VLMAX,
and the chains and masks it touches not claimed by a command (R233, R344, R148, R142). -/
structure State.MayRun (s : State) (n : Nat) (chains : List VReg) (masks : List MReg) : Prop where
  mode : s.h.mode ≠ .d
  calm : s.calm
  length : n ≤ s.vlmax
  unclaimed : s.unclaimed chains masks

/-- Active elements below n in ascending order (R232). -/
def State.activeList (s : State) (m : MReg) (n : Nat) : List Nat := (List.range n).filter fun j => m == 0 || (s.h.mask m).getLsbD j

/-- What a segmented word needs of its offsets (R260): the tag n32 or n64, at most 8192 of them, the first 0, none below the one before
it, the last not above vl; none only for vl = 0. -/
structure State.GoodOffsets (s : State) (vb : VReg) (n : Nat) : Prop where
  tag : (s.h.chain vb).tag = 7 ∨ (s.h.chain vb).tag = 8
  count : (s.h.chain vb).count ≤ 8192
  some : 0 < n → 0 < (s.h.chain vb).count
  first : 0 < (s.h.chain vb).count → s.elem (s.h.chain vb) 0 = 0
  rising : ∀ k, k + 1 < (s.h.chain vb).count → s.elem (s.h.chain vb) k ≤ s.elem (s.h.chain vb) (k + 1)
  last : ∀ k, k < (s.h.chain vb).count → s.elem (s.h.chain vb) k ≤ n

/-- Segment k of vl elements: first element and number (R260). -/
def State.segment (s : State) (vb : VReg) (n k : Nat) : Nat × Nat :=
  let o (i : Nat) : Nat := s.elem (s.h.chain vb) i
  let stop := if k + 1 < (s.h.chain vb).count then o (k + 1) else n
  (o k, stop - o k)

/-- A chain's spines and the links that hold its bytes are in use, and its spans are at most four (R155). -/
def State.wellHeld (s : State) (d : Desc) : Prop :=
  d.spans.length ≤ 4 ∧ (∀ p ∈ d.spans, (s.link p.spine).isSome = true)
    ∧ ∀ b, b < chainBytes d.tag d.count → ∃ l, s.byteLoc d.spans b = some l ∧ (s.link l.1).isSome = true

/-- The reference counts cover what the hart's chains share with that of vd (R160): a spine counts the spans that name it, a data link the slots that
list it; no spine stands in a slot; spans lie within their spines and end between elements (R155). -/
structure State.Counted (s : State) (vd : VReg) : Prop where
  held : ∀ r, s.wellHeld (s.h.chain r)
  within : ∀ r, ∀ p ∈ (s.h.chain r).spans, p.off + p.len ≤ 131072
  whole : ∀ p ∈ (s.h.chain vd).spans, p.len * 8 % tagWidth (s.h.chain vd).tag = 0
  spines : ∀ r, r ≠ vd → ∀ p ∈ (s.h.chain r).spans, ((s.h.chain vd).spans.filter fun o => o.spine == p.spine).length < s.rc p.spine
  links : ∀ r, r ≠ vd → ∀ p ∈ (s.h.chain r).spans, ∀ i l, i < 256 → s.slotGet p.spine i = some l →
    ((p.spine :: (s.h.chain vd).spans.map Span.spine).dedup.flatMap fun sp => (s.slotList sp).filter fun e => e.2 == l).length ≤ s.rc l
  data : ∀ r r', ∀ p ∈ (s.h.chain r).spans, ∀ p' ∈ (s.h.chain r').spans, ∀ i, i < 256 → s.slotGet p.spine i ≠ some p'.spine

/-- A status n in xd, the word retired, nothing else of the hart changed. -/
structure StatusResult (xd : XReg) (n : Nat) (s t : State) : Prop where
  value : t.x xd = if xd = 0 then 0 else BitVec.ofNat 64 n
  others : OtherX xd s t
  retired : Retired s t
  hart : t.h = s.h.withScalar t.h

/-- The same for a V-class word. -/
structure VStatusResult (xd : XReg) (v : Word) (s t : State) : Prop where
  value : t.x xd = if xd = 0 then 0 else v
  others : OtherX xd s t
  retired : RetiredV 1 s t
  hart : t.h = s.h.withScalar t.h

/-- An extent of n bytes from an exact address that a command may name (R8, R135, R145): it lies within the 64-bit offsets, and in space 0xFFFF in
one local store that the hart may use. -/
def State.mayName (s : State) (space : BitVec 16) (a : Int) (n : Nat) : Prop :=
  n = 0 ∨ (0 ≤ a ∧ a + n ≤ 2 ^ 64 ∧ (space = 0xFFFF → s.storeExtent a.toNat n = none))

/-- The operands of a copy command pass the checks of R145: control word, SHAPE, spaces, alignment, extents, targets. -/
structure State.CopyReady (s : State) (c : Command) (w shape : Word) : Prop where
  mode : s.h.mode ≠ .d
  control : w.extractLsb' 48 2 = 0 ∧
    (if c.kind = 2 then w.extractLsb' 62 2 = 0 ∧ w.extractLsb' 50 8 ≠ 0 ∧ w.extractLsb' 0 48 = 0
     else w.extractLsb' 50 9 = 0 ∧ (c.kind = 0 → w.extractLsb' 0 48 = 0))
  shape : 0 < c.l0 ∧ 0 < c.n1 ∧ 0 < c.n2 ∧ shape.extractLsb' 60 4 = 0 ∧ (c.cm ≠ 0 → c.n1 * c.n2 ≤ 8192)
  spaces : ∀ sp, sp = c.sspace ∨ sp = c.dspace → sp.toNat < 0xFF00 ∨ sp = 0xFFFF
  aligned : c.l0 % 32 = 0 ∧ c.src.toNat % 32 = 0 ∧ c.dst.toNat % 32 = 0 ∧ c.dstr1.toNat % 32 = 0 ∧ c.dstr2.toNat % 32 = 0
    ∧ c.sstr2.toNat % 32 = 0 ∧ (c.kind = 0 → c.sstr1.toNat % 32 = 0)
  sources : ∀ i r : Nat, i < c.n1 → r < c.n2 →
    if c.kind = 3 then s.mayName c.sspace (c.src.toNat + r * c.sstr2.toInt) c.srclen
    else s.mayName c.sspace (c.src.toNat + r * c.sstr2.toInt + i * c.sstr1.toInt) c.l0
  dests : ∀ i r : Nat, i < c.n1 → r < c.n2 →
    let d : Int := c.dst.toNat + r * c.dstr2.toInt + i * c.dstr1.toInt
    if c.kind = 2 then 0 ≤ d ∧ d + c.l0 ≤ 0x20_0000 else s.mayName c.dspace d c.l0
  cast : c.kind = 2 → ∀ i, i < 8 → c.cmask.getLsbD i = true → s.gangOnCore (s.coreNo / 8 * 8 + i) = true

/-- What a command's issue leaves (R136): its ticket BUSY, the other tickets and the chains as they were, the command last in the list. -/
structure IssuedCommand (n : Nat) (c : Command) (s t : State) : Prop where
  ticket : t.h.ticket n = ⟨.busy, 0, c.kind, 0, 0, 0⟩
  tickets : ∀ m, m < 16 → m ≠ n → t.h.ticket m = s.h.ticket m
  command : t.h.cmds = s.h.cmds ++ [c]
  bytes : sameBytes s t

/-- The mode that a value of PPRIV stands for (R336). -/
def modeIs (p : BitVec 2) (m : Mode) : Prop := if p = 0 then m = .u else if p = 1 then m = .d else m = .s

/-- A command of a hart in its list that its earlier vector writes do not hold back (R143). -/
def State.runs (s : State) (k : Nat) (p : Command → Prop) : Prop :=
  ∃ c ∈ (s.hartAt k).cmds, p c ∧ ∀ q ∈ s.pend, q.hart = k → q.vec = true ∨ q.op = .ast → c.since ≤ q.id

/-- When a step of a unit may come (R93, R95, R108, R121, R137, R171, R195, R280, R292, R296, R313 to R327, R333, R339, R363 to R368): what it
acts on is there and what it waits for has come. No other row of the table moves by itself. -/
def State.due (s : State) : Instr → Prop
  | .writePerformed k => ∃ p, s.pend[k]? = some p ∧ p.pkt = none ∧ ∀ q ∈ s.pend.take k, q.before p = false
  | .gatherRequest k => ∃ p, s.packets[k]? = some p ∧ p.kind = 0
  | .gatherReply k => ∃ p, s.packets[k]? = some p ∧ p.kind = 1
  | .scatter k => ∃ p, s.packets[k]? = some p ∧ p.kind = 2
  | .scatterAdd k => ∃ p, s.packets[k]? = some p ∧ p.kind = 3
  | .fabricRequest a ctx space off sup op => KeyWaiter.node a ctx space off sup op ∈ s.keyQueue
  | .reclaimSpine n => (s.coreAt n).reclaim ≠ []
  | .fenceComplete k => (s.hartAt k).st = .running ∧ ∃ sc vec cmds sys a b, (s.hartAt k).wait = .fence sc vec cmds sys a b
      ∧ (s.focus k).fenceWaits sc vec cmds sys = false
  | .tlbinvComplete k => (s.hartAt k).st = .running ∧ ∃ n r, (s.hartAt k).wait = .tlbinv n r ∧ (s.focus k).tlbWaits n r = false
  | .awaitWake k => (s.hartAt k).st = .waiting ∧ ∃ l, (s.hartAt k).wait = .await l
  | .awaitTimeout k => (s.hartAt k).st = .waiting ∧ ∃ c, (s.hartAt k).wait = .await (some c) ∧ c ≤ s.cycle.toNat
  | .yieldExpiry k => (s.hartAt k).st = .waiting ∧ ∃ c, (s.hartAt k).wait = .yield c ∧ c ≤ s.cycle.toNat
  | .keyTransferComplete k => (s.hartAt k).st = .running ∧ ∃ sp b n, (s.hartAt k).wait = .key sp b n ∧ (s.focus k).keyWaits sp b.toNat n = false
  | .hartStart k => (s.hartAt k).st = .starting
  | .hartExitComplete k => (s.hartAt k).st = .exiting
  | .engineRow k => s.runs k fun c => c.kind.toNat < 8 ∧ c.kind ≠ 1 ∧ c.next < c.n1 * c.n2
  | .ecopycTransfer k _ => s.runs k fun c => c.kind = 1 ∧ c.next < c.count
  | .copyCommandComplete k => s.runs k fun c => c.kind.toNat < 8 ∧ (if c.kind = 1 then c.count else c.n1 * c.n2) ≤ c.next
  | .selectionScan k ticket stack => stack < 12 ∧ ∃ c ∈ (s.hartAt k).cmds, c.ticket = ticket ∧ 8 ≤ c.kind.toNat ∧ ∀ p ∈ c.parts, p.stack ≠ stack
  | .selectionMerge k ticket => ∃ c ∈ (s.hartAt k).cmds, c.ticket = ticket ∧ 8 ≤ c.kind.toNat ∧ 12 ≤ c.parts.length
  | .laneDebtTimeout k => ∃ c, (s.hartAt k).debt = some c ∧ c + 16384 ≤ s.cycle.toNat
  | .timerExpiry k => (s.timer k).2 = true ∧ (s.timer k).1 < s.nanos
  | .launchPacketAdmit q => ∃ d, (q, d) ∈ s.queues ∧ d.en = true ∧ d.held ≠ 0
  | .launchReady k => ∃ l, s.launches[k]? = some l ∧ l.ready = none
  | .gangPlacement => ∃ b, s.bids.head? = some b ∧ (b.evicted = none ∨ s.seats b [] = none)
  | .gangRestore => ∃ b w seats, s.bids.head? = some b ∧ b.evicted = some w ∧ s.seats b [] = some seats
  | .evictionComplete n => ∃ g ∈ s.gangs, g.id = n ∧ ∀ k ∈ g.members, (s.hartAt k).st = .evicting
  | .eviction n => ∃ g ∈ s.gangs, g.id = n ∧ (∀ k ∈ g.members, (s.hartAt k).st = .suspended) ∧ ∃ k ∈ g.members, (s.hartAt k).preempt = true
  | .deviceReset => s.boot = .verify ∨ s.boot = .reset
  | .hbmZeroingDone => s.boot = .zeroing
  | .gueskStart => s.boot = .loading
  | .frameCopyEnd stack index => ∃ f ∈ s.frames, f.stack = stack ∧ f.index = index ∧ f.state = 1
  | .snapshotLatch => ∃ c, s.snapAt = some c ∧ c ≤ s.cycle.toNat
  | .snapshotLanded => s.busy = true ∧ s.snapAt = none
  | .portRetrainDone i => ∃ h : i < 16, (s.ports[i]).retraining = true
  | .idleEntry => s.power = .on ∧ ∃ c, s.idleSince = some c ∧ c + 10000000 ≤ s.nanos
  | .idleExit => s.power = .idle ∧ (s.placed ≠ [] ∨ s.launches ≠ [])
  | _ => False

/-- What may move next: a placed hart that can issue or leave its wait (R325, R329), one that issues being of the first two of its core in the front
end's order; a step of a unit that is due; the first arrival from outside whose clock has come, by clock and port (R360, R361); nothing only when no
hart and no unit can move. The idle timer runs only while no hart is placed (R368). -/
structure State.MovesWell (s : State) : Prop where
  harts : ∀ k, s.turn = .hart k → k ∈ s.placed ∧ (s.hartAt k).movable = true
  front : ∀ k, s.turn = .hart k → (s.hartAt k).st = .running →
    ((s.placed.filter fun o => s.eligible o && o / 8 == k / 8 && o != k && s.issuesBefore o k).length < 2 ∧ s.eligible k = true)
  units : ∀ i, s.turn = .event i → s.due i
  arrivals : ∀ o, s.turn = .outside o → ∃ i ∈ s.inputs, i.what = o ∧ i.clock ≤ s.cycle.toNat
    ∧ ∀ j ∈ s.inputs, j.clock ≤ s.cycle.toNat → j.sooner i = false
  rest : s.turn = .idle → s.hartsReady = [] ∧ s.unitSteps = [] ∧ ∀ j ∈ s.inputs, s.cycle.toNat < j.clock
  timer : s.idleSince.isSome = true → s.placed = []

end Sys2Proof.Machine
end

