-- ==== Sys2Proof/Certificates/Slice0/Obligations.lean ====
section
/-! DEFINITION. What is to be proved of the machine: encoding, steps, every instruction's own effect with its frame, the steps of the units,
and the invariants. Each docstring names the rules it says. Where a statement rests on a choice of the model, it names the log entry. -/

open Sys2Proof Sys2Proof.Machine

/-! Encoding and decoding. -/

/-- R53, R71, R73: every legal instruction has a word with each value of the hinge bit, and that word decodes to it: no bit of an
operand is lost. -/
def Obligations.EncodeThenDecodeAgree : Prop :=
  ∀ (h : Bool) (i : Instr), i.wf = true → decode (encodeH h i) = some i ∧ hinge (encodeH h i) = h

/-- R73: a word is legal only when it is exactly the word of a legal instruction: reserved bits 0, assigned numbers only. So no two
instructions share a word. -/
def Obligations.DecodingIsExact : Prop :=
  ∀ (w : Word) (i : Instr), decode w = some i → i.wf = true ∧ encodeH (hinge w) i = w

/-- Words of several families, written out from the tables of the encoding. -/
def Obligations.WordsDecode : Prop :=
  decode 0xB100_0000_0000_0000 = some .trapret ∧ decode 0xB100_0000_0010_0005 = some (.ecall 5)
    ∧ decode 0xB02A_8000_0000_0000 = some (.setvl 5 10 0) ∧ decode 0xB001_0000_0020_0000 = some (.yield 4)
    ∧ decode 0x1320_C002_8000_0000 = some (.vexp2 4 3 5 0 false 0) ∧ decode 0x2B29_0000_0040_0000 = some (.ewait 5 4)
    ∧ decode 0x8 = none

/-! Steps. -/

/-- R53, R58, R59, R66, R74: a running hart whose next word decodes to a legal instruction runs that instruction, and then the next mover is chosen. Between
convoys, with no pending event, the word opens a convoy at pc when it has H set or the hart was told to open one anyway (R340). In a convoy a word
without H joins it when it conflicts with no instruction of it and there is room. A word that cannot run traps in the order of R74: an illegal one (0x01)
and one whose fetch fails inside the convoy it opens or joins; a target without H (0x02, R60), a word past the convoy's limits (0x02, R59) and one that
conflicts with an earlier member (0x01, R66) apart from it, with NEWCV set and no record (R338, R340). Around exec stands the check of the rows of the pool that the
word reads (R358). -/
def Obligations.StepRunsTheDecodedWord : Prop :=
  (let runsSound (s : State) (i : Instr) (u : State) : Prop := u.core.badRows = [] → (∀ l ∈ u.core.l1, l.bad = false) →
    step s = State.settle (exec i u) ∨ isLoad i = true ∧ ∃ e, e.word = u.pos ∧ e.state = .stopped ∧ e.fill = true ∧ step s = .next (u.awake.stopAs e).reschedule
  ∀ (s s1 : State) (i : Instr) (w : Word),
    s.power ≠ .off → s.turn = .hart s.cur → s.h.st = .running → s.h.wait = .none → s.h.convoy = none →
    (s.h.mode = .d → ∀ c, s.h.pfr = some c → c.stale = false) →
    s.h.mcheck = [] → s.h.suspend = false → s.h.interruptible = false →
    s.h.pc &&& 7#64 = 0 → s.fetchWord s.h.pc = .ok (w, s1) → decode w = some i → (hinge w = true ∨ s1.h.fresh = true) →
    let u : State := { s1 with h := { s1.h with
      convoy := some { Convoy.empty s1.h.pc with words := [i], anew := s1.h.fresh }
      xfer := none, fresh := false, iword := w, lastIssue := s1.tick, since := none } }
    step s = State.settle (u.heldLoad i (u.readCheck i (exec i u))) ∧ runsSound s i u)
  ∧ (let runsSound (s : State) (i : Instr) (u : State) : Prop := u.core.badRows = [] → (∀ l ∈ u.core.l1, l.bad = false) →
    step s = State.settle (exec i u) ∨ isLoad i = true ∧ ∃ e, e.word = u.pos ∧ e.state = .stopped ∧ e.fill = true ∧ step s = .next (u.awake.stopAs e).reschedule
  (∀ (s s1 : State) (c : Convoy) (i : Instr) (w : Word),
    s.power ≠ .off → s.turn = .hart s.cur → s.h.st = .running → s.h.wait = .none → s.h.convoy = some c → c.stale = false → c.nextpc = none →
    (s.h.mode = .d → ∀ r, s.h.pfr = some r → r.stale = false) → s.h.mcheck = [] →
    c.nextWord 16 c.words.length = c.words.length → s.h.pc = c.hinge + 8 * BitVec.ofNat 64 c.words.length → c.hinge &&& 7#64 = 0 →
    s.fetchWord s.h.pc = .ok (w, s1) → decode w = some i → (∀ e ∈ c.entries, e.cause = 0) →
    (hinge w = false → c.words.length < 16 → (isV i = true → (c.words.filter isV).length < 8) → conflicts i c.words = false →
      c.holdsBack c.words.length i = false →
      let u : State := { s1 with h := { s1.h with
        convoy := some { c with words := c.words ++ [i] }, xfer := none, fresh := false, iword := w, lastIssue := s1.tick, since := none } }
      step s = State.settle (u.heldLoad i (u.readCheck i (exec i u))) ∧ runsSound s i u)
    ∧ (hinge w = true → (∀ e ∈ c.entries, e.fill = false) → s.h.suspend = false → s.h.interruptible = false →
      let u : State := { s1 with h := { s1.h with
        convoy := some { Convoy.empty s1.h.pc with words := [i], anew := s1.h.fresh }
        xfer := none, fresh := false, iword := w, lastIssue := s1.tick, since := none } }
      step s = State.settle (u.heldLoad i (u.readCheck i (exec i u))) ∧ runsSound s i u))
  ∧ (∀ s : State, s.power ≠ .off → s.turn = .hart s.cur → s.h.st = .running → s.h.wait = .none → s.h.mode ≠ .s →
      (s.h.mode = .d → ∀ r, s.h.pfr = some r → r.stale = false) → s.h.mcheck = [] → s.h.suspend = false → s.h.interruptible = false →
    let traps (cause : BitVec 8) (tval : Word) (v : State) : Prop :=
      v.trapsToS cause → ∃ t, step s = .next t.reschedule ∧ TrapTaken cause tval v t
    let apart (cause : BitVec 8) (tval : Word) (v : State) : Prop :=
      ∃ t, step s = .next t.reschedule ∧ EnteredS cause tval s.h.pc v t ∧ t.h.cword = 0 ∧ t.h.incv = false ∧ t.h.newcv = true ∧ t.h.rr = v.h.rr
        ∧ t.h.xu = v.h.xu ∧ t.h.v = v.h.v ∧ t.h.m = v.h.m ∧ t.pend = v.pend ∧ t.keyring = v.keyring ∧ t.mem = v.mem
    (s.h.convoy = none →
      let opened (v : State) : State := { v with h := { v.h with convoy := some { Convoy.empty s.h.pc with anew := v.h.fresh } } }
      (s.h.pc &&& 7#64 ≠ 0 → traps 0x0A s.h.pc (opened s))
      ∧ (s.h.pc &&& 7#64 = 0 → ∀ f, s.fetchWord s.h.pc = .error f → traps f.cause f.tval (opened s))
      ∧ (s.h.pc &&& 7#64 = 0 → ∀ w s1, s.fetchWord s.h.pc = .ok (w, s1) →
          (hinge w = false → s.h.fresh = false → ∀ x, s.h.xfer = some x → apart 0x02 x s1)
          ∧ ((hinge w = true ∨ s.h.fresh = true) → decode w = none → traps 0x01 w (opened s1))))
    ∧ (∀ c, s.h.convoy = some c → c.stale = false → c.nextpc = none → c.nextWord 16 c.words.length = c.words.length →
        s.h.pc = c.hinge + 8 * BitVec.ofNat 64 c.words.length → (∀ e ∈ c.entries, e.cause = 0 ∧ e.fill = false) →
      (c.hinge &&& 7#64 ≠ 0 → c.words.length < 16 → traps 0x0A s.h.pc s)
      ∧ (c.hinge &&& 7#64 = 0 → c.words.length < 16 → ∀ f, s.fetchWord s.h.pc = .error f → traps f.cause f.tval s)
      ∧ (c.hinge &&& 7#64 = 0 → ∀ w s1, s.fetchWord s.h.pc = .ok (w, s1) → hinge w = false →
          (c.words.length < 16 → decode w = none → traps 0x01 w s1)
          ∧ (∀ i, decode w = some i →
              (16 ≤ c.words.length ∨ isV i = true ∧ 8 ≤ (c.words.filter isV).length → apart 0x02 c.hinge s1)
              ∧ (c.words.length < 16 → (isV i = true → (c.words.filter isV).length < 8) → conflicts i c.words = true → apart 0x01 w s1))))))

/-- R53, R55, R85 (Table 04-1): a hart in mode S with BARE set fetches the eight bytes at its pc, the lowest address first, when no line
is held for them and none of them is poisoned. -/
def Obligations.FetchReadsEightBytes : Prop :=
  ∀ (s : State) (k : Nat), s.h.mode = .s → s.h.bare = true → s.h.pc &&& 7#64 = 0 → physKey s.h.pc.toNat = some k →
    (∀ l ∈ s.core.icache, l.key ≠ k / 64 * 64) → s.poisonIn k 8 = none →
    ∃ s1, s.fetchWord s.h.pc = .ok (wordOfBytes (s.homeRead k 8), s1) ∧ s1.h = s.h ∧ sameBytes s s1

/-- No instruction and no step of a unit ends the machine or is refused, in any state (Table 18-8 alone ends it). -/
def Obligations.EveryInstructionGoesOn : Prop :=
  ∀ (i : Instr) (s : State), ∃ t, exec i s = .next t

/-! Reset and invariants. -/

/-- R7, R366 and the reset values of Tables 08-1, 08-3, 16-1, 17-2, 18-4 and 18-9. That memory lists nothing, and so reads as 0, is log 2; the values of
what no table gives a reset value (the lists of writes, entries, launches and frames among them) are log 1: DESIGN CHOICE, both. Memory and every pool are
canonical, and what moves next may move: the invariants that `StepKeepsMemoryTidy` and `StepLeavesALegalMover` carry on. -/
def Obligations.ResetValues : Prop :=
  State.reset.boot = .reset ∧ State.reset.power = .on ∧ State.reset.placed = [] ∧ State.reset.mem = [] ∧ State.reset.keyring = []
    ∧ State.reset.pend = [] ∧ State.reset.launches = [] ∧ State.reset.frames = [] ∧ State.reset.cycle = 0
    ∧ State.reset.seat = ⟨0xFFFF, 0xFFFF, 0⟩ ∧ State.reset.cap = 2400 ∧ State.reset.missed = 0 ∧ State.reset.busy = false
    ∧ State.reset.core.links = [] ∧ State.reset.core.reclaim = [] ∧ State.reset.core.failed = false
    ∧ State.reset.h.ie = true ∧ State.reset.h.bare = true ∧ State.reset.h.rr = none ∧ State.reset.h.pfr = none
    ∧ State.reset.h.vflags = 0 ∧ State.reset.h.sflags = 0 ∧ (∀ r, (State.reset.h.chain r).tag = 0) ∧ (∀ t, (State.reset.h.ticket t).state = .free)
    ∧ State.reset.queues = [] ∧ (State.reset.queue 5) = Queue.empty
    ∧ State.reset.tidy ∧ State.reset.MovesWell

/-- Memory and every core's pool stay canonical under every step of the device, whoever moves. -/
def Obligations.StepKeepsMemoryTidy : Prop :=
  ∀ s t : State, s.tidy → step s = .next t → t.tidy

/-- Table 16-4, R325, R329, R360, R361: whatever the step was, what moves next may move: a hart that can issue and that its core's front end picks,
a step of a unit that is due, kind by kind, or the first arrival whose clock has come; nothing moves only when nobody can. Which of several moves is
open (log 6). -/
def Obligations.StepLeavesALegalMover : Prop :=
  ∀ s t : State, step s = .next t → t.MovesWell

/-! Scalar integer words. -/

/-- Table 15-2 (R300), with each value written anew on naturals, integers and wider products. x0 takes no value; no flag and no memory
byte changes. -/
def Obligations.IntegerTable : Prop :=
  ∀ (s : State) (xd xa xb xc : XReg),
    let a := s.x xa
    let b := s.x xb
    let k := b.toNat % 64
    let one (p : Bool) : Word := if p then 1 else 0
    computes (.add xd xa xb) xd (BitVec.ofNat 64 (a.toNat + b.toNat)) s
    ∧ computes (.sub xd xa xb) xd (BitVec.ofInt 64 (a.toInt - b.toInt)) s
    ∧ computes (.mul xd xa xb) xd (BitVec.ofNat 64 (a.toNat * b.toNat)) s
    ∧ computes (.mulh xd xa xb) xd ((a.signExtend 128 * b.signExtend 128).extractLsb' 64 64) s
    ∧ computes (.mulhn xd xa xb) xd ((a.zeroExtend 128 * b.zeroExtend 128).extractLsb' 64 64) s
    ∧ computes (.div xd xa xb) xd (if b = 0 then BitVec.allOnes 64 else BitVec.ofInt 64 (a.toInt.tdiv b.toInt)) s
    ∧ computes (.divn xd xa xb) xd (if b = 0 then BitVec.allOnes 64 else BitVec.ofNat 64 (a.toNat / b.toNat)) s
    ∧ computes (.rem xd xa xb) xd (if b = 0 then a else BitVec.ofInt 64 (a.toInt.tmod b.toInt)) s
    ∧ computes (.remn xd xa xb) xd (if b = 0 then a else BitVec.ofNat 64 (a.toNat % b.toNat)) s
    ∧ computes (.and xd xa xb) xd (a &&& b) s ∧ computes (.or xd xa xb) xd (a ||| b) s
    ∧ computes (.xor xd xa xb) xd (a ^^^ b) s ∧ computes (.andn xd xa xb) xd (a &&& ~~~b) s
    ∧ computes (.shl xd xa xb) xd (BitVec.ofNat 64 (a.toNat * 2 ^ k)) s
    ∧ computes (.shr xd xa xb) xd (BitVec.ofNat 64 (a.toNat / 2 ^ k)) s
    ∧ computes (.sra xd xa xb) xd (BitVec.ofInt 64 (a.toInt / 2 ^ k)) s
    ∧ computes (.rotl xd xa xb) xd (a <<< k ||| a >>> (64 - k)) s
    ∧ computes (.rotr xd xa xb) xd (a >>> k ||| a <<< (64 - k)) s
    ∧ computes (.min xd xa xb) xd (if a.toInt ≤ b.toInt then a else b) s
    ∧ computes (.max xd xa xb) xd (if a.toInt ≤ b.toInt then b else a) s
    ∧ computes (.minn xd xa xb) xd (if a.toNat ≤ b.toNat then a else b) s
    ∧ computes (.maxn xd xa xb) xd (if a.toNat ≤ b.toNat then b else a) s
    ∧ computes (.slt xd xa xb) xd (one (decide (a.toInt < b.toInt))) s
    ∧ computes (.sltn xd xa xb) xd (one (decide (a.toNat < b.toNat))) s
    ∧ computes (.seq xd xa xb) xd (one (decide (a = b))) s
    ∧ computes (.clz xd xa) xd (BitVec.ofNat 64 (64 - Nat.size a.toNat)) s
    ∧ computes (.ctz xd xa) xd (BitVec.ofNat 64 (if a = 0 then 64 else padicValNat 2 a.toNat)) s
    ∧ computes (.popc xd xa) xd (BitVec.ofNat 64 ((List.range 64).filter fun i => a.getLsbD i).length) s
    ∧ computes (.bswap xd xa) xd (a.extractLsb' 0 8 ++ a.extractLsb' 8 8 ++ a.extractLsb' 16 8 ++ a.extractLsb' 24 8
        ++ a.extractLsb' 32 8 ++ a.extractLsb' 40 8 ++ a.extractLsb' 48 8 ++ a.extractLsb' 56 8) s
    ∧ computes (.sext xd xa xb) xd ((a.extractLsb' 0 (k + 1)).signExtend 64) s
    ∧ computes (.zext xd xa xb) xd ((a.extractLsb' 0 (k + 1)).zeroExtend 64) s
    ∧ computes (.sel xd xa xb xc) xd (if s.x xc = 0 then b else a) s

/-- Table 15-3 (R301). -/
def Obligations.ImmediateTable : Prop :=
  ∀ (s : State) (xd xa : XReg) (imm : BitVec 32),
    let a := s.x xa
    let se : Word := BitVec.ofInt 64 imm.toInt
    let ze : Word := BitVec.ofNat 64 imm.toNat
    let k := imm.toNat % 64
    let one (p : Bool) : Word := if p then 1 else 0
    computes (.addi xd xa imm) xd (a + se) s
    ∧ computes (.andi xd xa imm) xd (a &&& ze) s ∧ computes (.ori xd xa imm) xd (a ||| ze) s ∧ computes (.xori xd xa imm) xd (a ^^^ ze) s
    ∧ computes (.shli xd xa imm) xd (BitVec.ofNat 64 (a.toNat * 2 ^ k)) s
    ∧ computes (.shri xd xa imm) xd (BitVec.ofNat 64 (a.toNat / 2 ^ k)) s
    ∧ computes (.srai xd xa imm) xd (BitVec.ofInt 64 (a.toInt / 2 ^ k)) s
    ∧ computes (.slti xd xa imm) xd (one (decide (a.toInt < imm.toInt))) s
    ∧ computes (.sltni xd xa imm) xd (one (decide (a.toNat < se.toNat))) s
    ∧ computes (.seqi xd xa imm) xd (one (decide (a = se))) s
    ∧ computes (.muli xd xa imm) xd (BitVec.ofInt 64 (a.toInt * imm.toInt)) s
    ∧ computes (.ldi xd imm) xd se s
    ∧ computes (.ldhi xd imm) xd (BitVec.ofNat 64 (imm.toNat * 2 ^ 32 + (s.x xd).toNat % 2 ^ 32)) s
    ∧ computes (.pcadd xd imm) xd (s.h.pc + se) s

/-- R305 for the conditional branches: a taken one goes to pc + 8*sext(OFF40), another retires; no register changes.
R54, R305 for the jumps: xd receives pc + 8 and the pc the target; xa is read first, so `jalr x1, x1` goes to the old x1; a target of
`jalr` that is no multiple of 8 traps with cause 0x0A, the target in tval and xd unchanged. -/
def Obligations.BranchesAndJumps : Prop :=
  (∀ (s : State) (xa xb : XReg) (off : BitVec 40),
    let a := s.x xa
    let b := s.x xb
    let goes (i : Instr) (taken : Prop) : Prop :=
      (taken → completes (exec i s) fun t => Transferred (s.h.pc + BitVec.ofInt 64 (8 * off.toInt)) s t ∧ t.h.xu = s.h.xu ∧ t.h.xs = s.h.xs)
        ∧ (¬taken → completes (exec i s) (PlainResult s s))
    goes (.beq xa xb off) (a = b) ∧ goes (.bne xa xb off) (a ≠ b)
      ∧ goes (.blt xa xb off) (a.toInt < b.toInt) ∧ goes (.bge xa xb off) (b.toInt ≤ a.toInt)
      ∧ goes (.bltn xa xb off) (a.toNat < b.toNat) ∧ goes (.bgen xa xb off) (b.toNat ≤ a.toNat))
  ∧ (∀ (s : State) (xd xa : XReg) (off : BitVec 43),
    let d : Word := BitVec.ofInt 64 (8 * off.toInt)
    let lands (i : Instr) (target : Word) : Prop := completes (exec i s) fun t =>
      Transferred target s t ∧ OtherX xd s t ∧ t.x xd = if xd = 0 then 0 else s.h.pc + 8
    lands (.jal xd off) (s.h.pc + d)
      ∧ ((s.x xa).toNat % 8 = 0 → lands (.jalr xd xa off) (s.x xa + d))
      ∧ ((s.x xa).toNat % 8 ≠ 0 → s.trapsToS 0x0A → completes (exec (.jalr xd xa off) s) (TrapTaken 0x0A (s.x xa + d) s)))

/-! Scalar memory words. -/

/-- R304, R302: a load whose access is permitted and whose bytes can be read delivers them, the lowest address first, sign-extended
(`ld`) or zero-extended (`ldn`); what else changes is what the read itself leaves (caches, own writes performed first).
R85, R303, R304 in mode S with BARE set: an aligned load of space 0x0000 reads the bytes at home at once, and changes nothing but xd,
when the hart has no write of its own under way, has read nothing ahead of program order (R282) and no byte is poisoned. Below mode S a refused load traps with
cause 0x08, 0x09 or 0x0A and its offset as tval, and writes nothing; one of a poisoned unit traps with cause 0x0B (R79, R302), where tval is the offset of
the unit's first byte (log 52); so does a load of a sound part of a line that holds a poisoned sector (R303), for the line's first one (log 52). -/
def Obligations.LoadsDeliverTheirBytes : Prop :=
  (∀ (s s1 s2 : State) (xd xa : XReg) (asr w : BitVec 2) (imm : BitVec 32) (pl : Place) (bs : List Byte),
    let n := 2 ^ w.toNat
    let a := (s.x xa + BitVec.ofInt 64 imm.toInt).toNat
    s.scalarPlace (s.h.space asr) a n .read true = .ok (pl, s1) → s1.scalarRead (s.h.space asr) a n pl = .ok (bs, s2) →
    bs.length = n →
    completes (exec (.ldn xd xa asr w imm) s) (XResult xd (BitVec.ofNat 64 (ofBytes bs)) s2 s2)
      ∧ completes (exec (.ld xd xa asr w imm) s) (XResult xd ((BitVec.ofNat (8 * n) (ofBytes bs)).signExtend 64) s2 s2))
  ∧ (∀ (s : State) (xd xa : XReg) (asr w : BitVec 2) (imm : BitVec 32) (k : Nat),
    let n := 2 ^ w.toNat
    let a := (s.x xa + BitVec.ofInt 64 imm.toInt).toNat
    (s.h.mode = .s → s.h.bare = true → s.h.space asr = 0 → a % n = 0 → physKey a = some k → s.poisonIn k n = none → s.pend = [] →
      (∀ e ∈ s.early, e.hart ≠ s.cur) →
      computes (.ldn xd xa asr w imm) xd (BitVec.ofNat 64 (ofBytes (s.homeRead k n))) s)
    ∧ ∀ i ∈ ([.ld xd xa asr w imm, .ldn xd xa asr w imm] : List Instr),
      (∀ c, ScalarRefused s (s.h.space asr) a n .read true c → s.trapsToS c → completes (exec i s) (TrapTaken c (BitVec.ofNat 64 a) s))
      ∧ (∀ pl s1 p, s.scalarPlace (s.h.space asr) a n .read true = .ok (pl, s1) → pl.node = none → s1.pend = [] → s.trapsToS 0x0B →
          (s1.uncached pl = true ∨ s1.l1Find (s.h.space asr) pl = none → s1.poisonIn pl.key n = some p →
            completes (exec i s) (TrapTaken 0x0B (BitVec.ofInt 64 ((a : Int) + p - pl.key)) s))
          ∧ (s1.uncached pl = false → s1.l1Find (s.h.space asr) pl = none → s1.poisonIn pl.key n = none → s1.poisonIn (pl.key / 64 * 64) 64 = some p →
            completes (exec i s) (TrapTaken 0x0B (BitVec.ofInt 64 ((a / 64 * 64 : Nat) + p - (pl.key / 64 * 64 : Nat))) s))))

/-- R302 to R304, R61: a permitted store completes. Where it bypasses the L1, or its line is not held and holds a poisoned unit, the low bytes of
xs are handed off at its place and no byte of memory changes yet; where the L1 holds its line, they stand in that line, which is dirty and the
writer's, and no byte of memory changes. A refused store traps with cause 0x08, 0x09 or 0x0A and its offset as tval, and writes nothing. -/
def Obligations.StoresHandOffTheirBytes : Prop :=
  ∀ (s s1 : State) (xs xa : XReg) (asr w : BitVec 2) (imm : BitVec 32) (pl : Place),
    let n := 2 ^ w.toNat
    let a := (s.x xa + BitVec.ofInt 64 imm.toInt).toNat
    let space := s.h.space asr
    let bs := toBytes n (s.x xs).toNat
    let run := exec (.st xs xa asr w imm) s
    (∀ c, ScalarRefused s space a n .write true c → s.trapsToS c → completes run (TrapTaken c (BitVec.ofNat 64 a) s))
    ∧ (s.scalarPlace space a n .write true = .ok (pl, s1) →
    (∀ u, s1.scalarWrite space a pl bs = .ok u → completes run (PlainResult s1 u))
    ∧ ((s1.uncached pl = true ∨ (s1.l1Find space pl = none ∧ pl.node = none ∧ (s1.poisonIn (pl.key / 64 * 64) 64).isSome = true)) → completes run fun t =>
        t.pend = s1.pend ++ [⟨s1.nextId, s1.cur, false, s1.h.agent, s1.h.kctx, space, a, pl.key, pl.node, false, none, .put, bs⟩]
          ∧ sameBytes s1 t ∧ t.core = s1.core ∧ t.h.xu = s.h.xu ∧ t.h.xs = s.h.xs)
    ∧ (∀ l, s1.uncached pl = false → s1.l1Find space pl = some l → l.bad = false → completes run fun t =>
        t.l1Find space pl = some { l with dirty := true, agent := s1.h.agent, data := linePut l.data (pl.key % 64) bs }
          ∧ sameBytes s1 t ∧ t.pend = s1.pend ∧ t.h.xu = s.h.xu ∧ t.h.xs = s.h.xs))

/-! Scalar floating point. -/

/-- R306, R214 (Table 15-4): each operation on the low bits of its sources, the result in xd with the bits above the format 0, its flags
ORed into `sflags`. The operations are those of R204 to R225 on values: of finite operands a sum, a product, a quotient and a fused sum that is not 0 is
the exact number rounded once (R211, R212, R225), in every format, a root is the nearest of its neighbours that the mode takes, a minimum or maximum the
one of its operands that R209 orders first or last, and a conversion delivers the value as R217 to R219 have it. -/
def Obligations.FloatingPointTable : Prop :=
  (∀ (t : Tag) (f : Fmt) (rm : BitVec 3) (a b c : Nat), fmtOf t = some f → rm.toNat ≤ 5 →
    let x := (f.decode a).val
    let y := (f.decode b).val
    let z := (f.decode c).val
    let rounded (v : ℚ) (r : Nat × Flags) : Prop := v ≠ 0 → RoundsTo f rm (decide (v < 0)) |v| r
    (∀ (neg : Bool) (m : Nat) (e : Int), 0 < m → RoundsTo f rm neg (m * 2 ^ e) (f.round rm false neg m e false))
    ∧ ((f.decode a).finite → (f.decode b).finite →
        rounded (x + y) (f.add rm a b) ∧ rounded (x * y) (f.mul rm a b) ∧ (y ≠ 0 → rounded (x / y) (f.div rm a b))
          ∧ ((f.decode c).finite → rounded (x * y + z) (f.fma rm a b c)))
    ∧ (match f.decode a with
        | .fin neg m _ => if m = 0 then f.sqrt rm a = (f.signBit neg, 0) else if neg then f.sqrt rm a = (f.canon, fNV) else RootsTo f rm x (f.sqrt rm a)
        | .inf neg => f.sqrt rm a = if neg then (f.canon, fNV) else (f.infCode false, 0)
        | .nan sig => f.sqrt rm a = (f.canon, if sig then fNV else 0))
    ∧ (let nv : Flags := if f.decode a = .nan true ∨ f.decode b = .nan true then fNV else 0
       match f.decode a, f.decode b with
        | .nan _, .nan _ => ∀ up, f.minmax up a b = (f.canon, nv)
        | .nan _, _ => ∀ up, f.minmax up a b = (b, nv)
        | _, .nan _ => ∀ up, f.minmax up a b = (a, nv)
        | u, v => (u.below v → f.minmax false a b = (a, 0) ∧ f.minmax true a b = (b, 0))
            ∧ (¬ u.below v → f.minmax false a b = (b, 0) ∧ f.minmax true a b = (a, 0)))
    ∧ (∀ sat u, FloatResult f rm sat u (floatToFloat f rm sat u))
    ∧ (∀ sat (v : Int), FloatResult f rm sat (.fin (decide (v < 0)) v.natAbs 0) (intToFloat f rm sat v))
    ∧ ∀ (ti : Tag) u, isIntTag ti = true → IntResult ti rm u (floatToInt ti rm u))
  ∧ ∀ (s : State) (xd xa xb xc : XReg) (rm : BitVec 3) (fmt : BitVec 2),
    let f := fmtOfField fmt
    let a := (s.x xa).toNat % 2 ^ f.w
    let b := (s.x xb).toNat % 2 ^ f.w
    let c := (s.x xc).toNat % 2 ^ f.w
    let gives (i : Instr) (r : Nat × Flags) : Prop := completes (exec i s) (FResult xd r.1 r.2 s)
    let cmp (k : Cmp) : Nat × Flags := let r := Machine.Num.cmp k (f.decode a) (f.decode b); (if r.1 then 1 else 0, r.2)
    gives (.fadd xd xa xb rm fmt) (f.add rm a b) ∧ gives (.fsub xd xa xb rm fmt) (f.sub rm a b)
    ∧ gives (.fmul xd xa xb rm fmt) (f.mul rm a b) ∧ gives (.fdiv xd xa xb rm fmt) (f.div rm a b)
    ∧ gives (.fsqrt xd xa rm fmt) (f.sqrt rm a)
    ∧ gives (.fma xd xa xb xc rm fmt) (f.fma rm a b c) ∧ gives (.fms xd xa xb xc rm fmt) (f.fma rm a b (f.neg c))
    ∧ gives (.fnma xd xa xb xc rm fmt) (f.fma rm (f.neg a) b c)
    ∧ gives (.fmin xd xa xb fmt) (f.minmax false a b) ∧ gives (.fmax xd xa xb fmt) (f.minmax true a b)
    ∧ gives (.feq xd xa xb fmt) (cmp .eq) ∧ gives (.flt xd xa xb fmt) (cmp .lt) ∧ gives (.fle xd xa xb fmt) (cmp .le)
    ∧ (∀ tc, gives (.fcvtfi xd xa tc rm fmt)
        (let r := floatToInt (BitVec.ofNat 4 tc.toNat) rm (f.decode a); ((BitVec.ofInt 64 (intOf (BitVec.ofNat 4 tc.toNat) r.1)).toNat, r.2)))
    ∧ (∀ tc, gives (.fcvtif xd xa tc rm fmt) (intToFloat f rm false (intOf (BitVec.ofNat 4 tc.toNat) (s.x xa).toNat)))
    ∧ (∀ tc, let g := fmtOfField (BitVec.ofNat 2 tc.toNat)
        gives (.fcvtff xd xa tc rm fmt) (floatToFloat f rm false (g.decode ((s.x xa).toNat % 2 ^ g.w))))
    ∧ gives (.fclass xd xa fmt) (f.classOf a, 0)
    ∧ (∀ md, gives (.fsgn xd xa xb md fmt)
        (let h := 2 ^ (f.w - 1)
         let sg := match md.toNat with | 0 => b / h | 1 => 1 - b / h | _ => (a / h + b / h) % 2
         (a % h + sg * h, 0)))

/-! State registers. -/

/-- R307, R308: a permitted read delivers the register; each writing form delivers the old value and writes xa, old or xa, old and not xa,
when no reserved bit would be set. -/
def Obligations.StateRegisterAccesses : Prop :=
  ∀ (s : State) (xd xa : XReg) (csr : BitVec 10), s.csrAllowed csr = true →
    let old := s.csrValue csr.toNat
    let a := s.x xa
    let writes (i : Instr) (new : Word) : Prop :=
      State.csrRefuses csr new = false → completes (exec i s) (XResult xd old (s.csrWrite csr.toNat new a) (s.csrWrite csr.toNat new a))
    computes (.csrr xd csr) xd old s
      ∧ writes (.csrw xd xa csr) a ∧ writes (.csrs xd xa csr) (old ||| a) ∧ writes (.csrc xd xa csr) (old &&& ~~~a)

/-- R307, R5, R6: an unassigned number, a number from 0x100 up outside mode S, and a write that sets a reserved bit trap with cause 0x01
and the word in tval; nothing is written.
Tables 14-12, 17-1, 17-2 and 15-5: what a write of some state registers leaves: the address spaces, the sticky flags, `tvec`, `tpc`,
`tval`, `tscratch`, and of `tstatus` only IE and PPRIV, with HIP and TIP cleared by a 1. -/
def Obligations.StateRegisterRefusalsAndFields : Prop :=
  (∀ (s : State) (xd xa : XReg) (csr : BitVec 10), s.trapsToS 0x01 →
    let old := s.csrValue csr.toNat
    let a := s.x xa
    let refused (i : Instr) : Prop := completes (exec i s) (TrapTaken 0x01 s.h.iword s)
    ((csrBits csr.toNat = none ∨ 0x100 ≤ csr.toNat) →
        refused (.csrr xd csr) ∧ refused (.csrw xd xa csr) ∧ refused (.csrs xd xa csr) ∧ refused (.csrc xd xa csr))
      ∧ (∀ m, csrBits csr.toNat = some m → (a &&& ~~~m ≠ 0 → refused (.csrw xd xa csr)) ∧ ((old ||| a) &&& ~~~m ≠ 0 → refused (.csrs xd xa csr))))
  ∧ (∀ (s : State) (new clear : Word),
    (s.csrWrite 0x031 new clear).h.space 1 = new.extractLsb' 0 16 ∧ (s.csrWrite 0x031 new clear).h.space 2 = s.h.space 2
    ∧ (s.csrWrite 0x024 new clear).h.vflags = new.extractLsb' 0 6 ∧ (s.csrWrite 0x025 new clear).h.sflags = new.extractLsb' 0 6
    ∧ (s.csrWrite 0x100 new clear).h.tvec = new ∧ (s.csrWrite 0x101 new clear).h.tpc = new ∧ (s.csrWrite 0x103 new clear).h.tval = new
    ∧ (s.csrWrite 0x106 new clear).h.tscratch = new ∧ (s.csrWrite 0x105 new clear).h.tresOff = new.extractLsb' 6 7
    ∧ (let t := s.csrWrite 0x104 new clear
       t.h.ie = new.getLsbD 2 ∧ t.h.ppriv = new.extractLsb' 0 2 ∧ t.h.mode = s.h.mode
         ∧ t.h.hip = (s.h.hip && !clear.getLsbD 6) ∧ t.h.tip = (s.h.tip && !clear.getLsbD 5)
         ∧ (t.h.rr.isSome = (s.h.rr.isSome && !clear.getLsbD 3)))
    ∧ (s.csrValue 0x001) = s.h.instret ∧ (s.csrValue 0x014) = BitVec.ofNat 64 (s.cur / 8)
    ∧ (∀ n, n ∈ [0x000, 0x001, 0x002, 0x010, 0x014, 0x020, 0x022, 0x023, 0x041, 0x042, 0x050, 0x102] → s.csrWrite n new clear = s))

/-! Vector words. -/

/-- R167, R232, R237, R241, R244, R247 (the rows of Tables 11-2, 11-4, 11-5 and 11-6): a row whose result does not take the place of its
first source makes a fresh chain of vl elements: the operation's where active, zero with Z, else the first source's (zero where the table
says so); the links of the chain are charged, the flags of active elements collected, and every chain, link and byte that was there reads
as before. -/
def Obligations.ElementRowsMakeFreshChains : Prop :=
  ∀ (i : Instr) (r : ElementRow) (s : State), elementRow i = some r → r.Ready s → ¬ r.inPlace s → s.tidy →
    s.roomFor (linksFor (r.rtag (r.tag s)) (r.vl s)) →
    completes (exec i s) (FreshResult r.vd (r.rtag (r.tag s)) (r.vl s) (r.val s) (orFlags (r.vl s) (r.flg s)) s)

/-- R167, R168, R169: a row whose result takes the place of its first source rewrites it, and elements from vl up go. An exclusive source takes no
link. Of a shared one the spines and the links in which an element changes are copied first, at most one spine for each span and one link for each
slot covered: every other chain register reads the same elements as before. -/
def Obligations.ElementRowsRewriteInPlace : Prop :=
  ∀ (i : Instr) (r : ElementRow) (s : State), elementRow i = some r → r.Ready s → r.inPlace s → s.tidy → s.apart (s.h.chain r.vd) →
    (s.exclusive (s.h.chain r.vd) = true →
      completes (exec i s) (InPlaceResult r.vd (r.rtag (r.tag s)) (r.vl s) (r.val s) (orFlags (r.vl s) (r.flg s)) s))
    ∧ (s.exclusive (s.h.chain r.vd) = false → s.Counted r.vd → s.roomFor (s.h.chain r.vd).copies →
      completes (exec i s) (SharedResult r.vd (r.rtag (r.tag s)) (r.vl s) (r.val s) (orFlags (r.vl s) (r.flg s))
        (∃ j, j < r.vl s ∧ (s.maskOn r.msk j = true ∨ r.z = true ∨ r.fill = .zero)) s))

/-- R202, R237, R238, R239, R241, R244, R227 to R229: the values of elements. Integer rows on elements of w bits: sums, differences and products modulo 2^w with WRAP exactly when the exact
result does not fit the tag; shifts by w or more give 0, `vsra` the sign in every bit, and no flag; saturating forms give the exact result where it fits and
the end of the range with WRAP where it does not; the high half of a product; quotients towards zero, with all ones and DZ for a division by zero and the
minimum with WRAP for its quotient by -1; remainders with the dividend's sign. The class codes of Table 11-3; `vround` gives the integer
that RM takes, with the sign of its element; the special functions give the values of Table 10-10 at special inputs, `vrcp` the correctly rounded reciprocal, `vexp2` and
`vlog2` exact powers and logarithms, and the symmetries of R227 hold, under RDN and RUP of `vcos` alone (log 9). -/
def Obligations.ElementValues : Prop :=
  (∀ (t : Tag) (rm : BitVec 3) (a b : Nat), isIntTag t = true → a < 2 ^ tagWidth t → b < 2 ^ tagWidth t →
    let w := tagWidth t
    let fits (v : Int) : Prop := if isSigned t then -(2 : Int) ^ (w - 1) ≤ v ∧ v < 2 ^ (w - 1) else 0 ≤ v ∧ v < 2 ^ w
    (elAdd rm t a b).1 = (a + b) % 2 ^ w ∧ ((elAdd rm t a b).2 = 0 ↔ fits (intOf t a + intOf t b))
    ∧ (elSub rm t a b).1 = (a + 2 ^ w - b) % 2 ^ w ∧ ((elSub rm t a b).2 = 0 ↔ fits (intOf t a - intOf t b))
    ∧ (elMul rm t a b).1 = a * b % 2 ^ w ∧ ((elMul rm t a b).2 = 0 ↔ fits (intOf t a * intOf t b))
    ∧ (elShl t a b).1 = (if b < w then a * 2 ^ b % 2 ^ w else 0) ∧ (elShr t a b).1 = a / 2 ^ b
    ∧ (elShl t a b).2 = 0 ∧ (elShr t a b).2 = 0
    ∧ (∀ k, k < w → (elSra t a b).1.testBit k = a.testBit (if k + b < w then k + b else w - 1)) ∧ (elSra t a b).1 < 2 ^ w ∧ (elSra t a b).2 = 0
    ∧ (¬ fits (intOf t a + intOf t b) → (elAdd rm t a b).2 = fWRAP) ∧ (¬ fits (intOf t a - intOf t b) → (elSub rm t a b).2 = fWRAP)
    ∧ (¬ fits (intOf t a * intOf t b) → (elMul rm t a b).2 = fWRAP)
    ∧ (let lo : Int := if isSigned t then -(2 : Int) ^ (w - 1) else 0
       let hi : Int := if isSigned t then (2 : Int) ^ (w - 1) - 1 else 2 ^ w - 1
       let clamped (v : Int) (r : Nat × Flags) : Prop := intOf t r.1 = max lo (min hi v) ∧ r.1 < 2 ^ w ∧ (fits v → r.2 = 0) ∧ (¬ fits v → r.2 = fWRAP)
       clamped (intOf t a + intOf t b) (elAddSat t a b) ∧ clamped (intOf t a - intOf t b) (elSubSat t a b)
       ∧ elMulh t a b = ((intOf t a * intOf t b / 2 ^ w % 2 ^ w).toNat, 0)
       ∧ elDiv rm t a b = (if b = 0 then (2 ^ w - 1, fDZ)
           else if isSigned t ∧ intOf t a = lo ∧ intOf t b = -1 then (a, fWRAP) else (((intOf t a).tdiv (intOf t b) % 2 ^ w).toNat, 0))
       ∧ elRem t a b = (if b = 0 then (a, fDZ) else (((intOf t a).tmod (intOf t b) % 2 ^ w).toNat, 0)))
    ∧ (fits (intOf t a + intOf t b) → intOf t (elAddSat t a b).1 = intOf t a + intOf t b)
    ∧ (fits (intOf t a - intOf t b) → intOf t (elSubSat t a b).1 = intOf t a - intOf t b)
    ∧ intOf t (elMinMax false t a b).1 = min (intOf t a) (intOf t b) ∧ intOf t (elMinMax true t a b).1 = max (intOf t a) (intOf t b))
  ∧ (∀ (t : Tag) (f : Fmt) (a : Nat), isWide t = true ∨ t = 10 ∨ t = 11 → fmtOf t = some f → a < 2 ^ f.w →
    elClass t a = (match f.decode a with
      | .nan sig => if sig then 8 else 9
      | .inf neg => if neg then 0 else 7
      | .fin neg m e => if m = 0 then (if neg then 3 else 4) else if m * (2 : ℚ) ^ e < 2 ^ f.emin then (if neg then 2 else 5) else if neg then 1 else 6, 0))
  ∧ (∀ (t : Tag) (f : Fmt) (rm : BitVec 3) (a : Nat), isWide t = true → fmtOf t = some f → rm.toNat ≤ 5 → a < 2 ^ f.w →
    let x := f.decode a
    let sp (fn : Special8) : Nat × Flags := f.special8 fn t rm a
    let is (fn : Special8) (v : ℚ) : Prop := (f.decode (sp fn).1).finite ∧ (f.decode (sp fn).1).val = v ∧ (sp fn).2 = 0
    (match x with
      | .nan sig => elRound rm t a = (f.canon, if sig then fNV else 0)
      | .inf neg => elRound rm t a = (f.infCode neg, 0)
      | .fin neg _ _ => ∃ k m e, nearestInt rm x.val k ∧ f.decode (elRound rm t a).1 = .fin neg m e ∧ (f.decode (elRound rm t a).1).val = k
          ∧ (elRound rm t a).2 = if x.val = k then 0 else fNX)
    ∧ (∀ sig fn, x = .nan sig → sp fn = (f.canon, if sig then fNV else 0))
    ∧ (∀ neg, x = .inf neg → sp .exp2 = (if neg then 0 else f.infCode false, 0) ∧ sp .exp = (if neg then 0 else f.infCode false, 0)
        ∧ sp .log2 = (if neg then (f.canon, fNV) else (f.infCode false, 0)) ∧ sp .rcp = (f.signBit neg, 0) ∧ sp .rsqrt = (if neg then (f.canon, fNV) else (0, 0))
        ∧ sp .sin = (f.canon, fNV) ∧ sp .cos = (f.canon, fNV) ∧ is .tanh (if neg then -1 else 1) ∧ is .sigmoid (if neg then 0 else 1))
    ∧ (∀ neg e, x = .fin neg 0 e → is .exp2 1 ∧ is .exp 1 ∧ sp .log2 = (f.infCode true, fDZ) ∧ sp .rcp = (f.infCode neg, fDZ) ∧ sp .rsqrt = (f.infCode neg, fDZ)
        ∧ sp .sin = (f.signBit neg, 0) ∧ is .cos 1 ∧ sp .tanh = (f.signBit neg, 0) ∧ is .sigmoid (1 / 2))
    ∧ (x.finite → x.val < 0 → sp .log2 = (f.canon, fNV) ∧ sp .rsqrt = (f.canon, fNV))
    ∧ (x.finite → x.val ≠ 0 → RoundsTo f rm (decide (x.val < 0)) (1 / |x.val|) (sp .rcp))
    ∧ (∀ k : Int, x.finite → x.val = k → f.emin - f.frac ≤ k → (2 : ℚ) ^ k ≤ (f.decode f.big).val → is .exp2 (2 ^ k))
    ∧ (∀ k : Int, x.finite → x.val = 2 ^ k → is .log2 k)
    ∧ (let flip (c : Nat) : Nat := (c + 2 ^ (f.w - 1)) % 2 ^ f.w
       x.finite → (rm = rmRNE ∨ rm = rmRTZ ∨ rm = rmRNA → ∀ fn ∈ [Special8.sin, .tanh, .rcp], f.special8 fn t rm (flip a) = (flip (sp fn).1, (sp fn).2))
         ∧ f.special8 .cos t rm (flip a) = sp .cos))

/-- R227, R228 (Table 10-9): what a special function delivers of a finite value, when it does not overflow, lies within the bound of Table 10-9 of the value of the
real function, or, in f16 and bf16 and for `vrcp`, within half an ulp under RNE and one under another mode. The statement grants 2^-100 ulp beyond each bound. -/
def Obligations.SpecialFunctionsMeetTheirBounds : Prop :=
  ∀ (fn : Special8) (t : Tag) (f : Fmt) (rm : BitVec 3) (a : Nat), isWide t = true → fmtOf t = some f → rm.toNat ≤ 4 → a < 2 ^ f.w →
    (32 ≤ f.w → fn ≠ .rcp → rm = rmRNE) →
    let x := f.decode a
    let y : ℝ := fn.real x.val
    let r := f.special8 fn t rm a
    let bound : ℝ := if f.w ≤ 16 ∨ fn = .rcp then (if rm = rmRNE then 1 / 2 else 1)
      else match fn with
        | .sin | .cos => if |x.val| ≤ 2 ^ 20 then 2 else 4
        | .tanh | .sigmoid => 2
        | _ => 1
    x.finite → x.val ≠ 0 → (fn = .log2 ∨ fn = .rsqrt → 0 < x.val) → r.2 &&& fOF = 0 →
    (f.decode r.1).finite ∧ |((f.decode r.1).val : ℝ) - y| ≤ (bound + 2 ^ (-100 : Int)) * f.ulp y

/-- R237, R242: `vsplat`, `vid` and `mtov` make fresh chains, zero where masked off: the low bits of xb, the index, 1 where a mask bit is
set.
R245, R221, R259: the two-chain results: `vcvtmx` delivers the elements of each block of 32 and its scale code, `vunzip` the even and
the odd elements. The scale of a block of finite values that are not all zero comes from the largest of them. -/
def Obligations.GeneratedAndTwoChainResults : Prop :=
  (∀ (s : State) (vd xb xl : BitVec 5) (ma msk : BitVec 3) (z : Bool) (ot : Tag),
    let n := (s.x xl).toNat
    let w := tagWidth ot
    s.MayRun n [vd] [] → s.tidy → s.roomFor (linksFor ot n) → ot ≠ 0 →
    let on (f : Nat → Nat) (j : Nat) : Nat := if s.maskOn msk j then f j else 0
    completes (exec (.vsplat vd xb xl msk z ot) s) (FreshResult vd ot n (on fun _ => (s.x xb).toNat % 2 ^ w) 0 s)
    ∧ completes (exec (.mtov vd ma xl msk z ot) s) (FreshResult vd ot n (on fun j => if s.maskOn ma j then oneOf ot else 0) 0 s)
    ∧ (isIntTag ot = true → completes (exec (.vid vd xl msk z ot) s)
        (FreshResult vd ot n (on fun j => j % 2 ^ w) (orFlags n fun j => if s.maskOn msk j then (intWrap ot j).2 else 0) s)))
  ∧ ((∀ (rm : BitVec 3) (ot : Tag) (xs : List Machine.Num) (x : Machine.Num), isNarrow ot = true → (∀ y ∈ xs, y.finite ∧ |y.val| ≤ |x.val|) → x ∈ xs → x.val ≠ 0 →
    let emax : Int := if ot = 10 then 8 else if ot = 11 then 15 else 2
    ((mxBlock rm ot xs).1 : Int) = max (-127) (min 127 (Int.log 2 |x.val| - emax)) + 127)
  ∧
  (∀ (s : State) (vd va vsc xl : BitVec 5) (rm : BitVec 3) (ot t : Tag) (f : Fmt),
    let n := (s.x xl).toNat
    isWide t = true → fmtOf t = some f → isNarrow ot = true → vd ≠ vsc → s.holdsChain va t n →
    s.MayRun n [vd, vsc, va] [] → s.soundLanes → s.tidy → s.roomFor (linksFor ot n + linksFor 5 ((n + 31) / 32)) →
    let block (k : Nat) : Nat × List Nat × Flags :=
      mxBlock rm ot ((List.range (min 32 (n - 32 * k))).map fun i => f.decode (s.elem (s.h.chain va) (32 * k + i)))
    completes (exec (.vcvtmx vd va vsc xl rm ot) s) fun u =>
      ChainIs u vd ot n (fun j => (block (j / 32)).2.1.getD (j % 32) 0) ∧ ChainIs u vsc 5 ((n + 31) / 32) (fun k => (block k).1)
        ∧ u.h.vflags = s.h.vflags ||| orFlags ((n + 31) / 32) (fun k => (block k).2.2) ∧ linksStand s u ∧ ChainFrame [vd, vsc] n s u)
  ∧ (∀ (s : State) (vd ve va xl : BitVec 5) (t : Tag),
    let n := (s.x xl).toNat
    t ≠ 0 → vd ≠ ve → s.holdsChain va t (2 * n) →
    s.MayRun n [vd, ve, va] [] → s.tidy → s.roomFor (linksFor t n + linksFor t n) →
    let e (j : Nat) : Nat := s.elem (s.h.chain va) j
    completes (exec (.vunzip vd ve va xl) s) fun u =>
      ChainIs u vd t n (fun j => e (2 * j)) ∧ ChainIs u ve t n (fun j => e (2 * j + 1)) ∧ u.h.vflags = s.h.vflags
        ∧ linksStand s u ∧ ChainFrame [vd, ve] n s u))

/-- R240, R246, R220, R225: `vdot` sums groups of products with vc: the exact sum, rounded once, a NaN element making the canonical NaN, or modulo 2^w with WRAP;
`vcvtfrommx` scales elements by the code c of their block of 32, by 2^(c - 127), and converts the product, and the code 0xFF makes a NaN without a flag. -/
def Obligations.DotProductsAndMxBlocks : Prop :=
  (∀ (t rt : Tag) (g : Nat) (rm : BitVec 3) (ab : List (Nat × Nat)) (c : Nat), dotShape t = some (rt, g) → rm.toNat ≤ 4 →
    let r := dotGroup t rt rm ab c
    (∀ f h, fmtOf t = some f → fmtOf rt = some h →
      ((∀ p ∈ ab, (f.decode p.1).finite ∧ (f.decode p.2).finite) → (h.decode c).finite →
        let v := (h.decode c).val + (ab.map fun p => (f.decode p.1).val * (f.decode p.2).val).sum
        (v ≠ 0 → RoundsTo h rm (decide (v < 0)) |v| r) ∧ (v = 0 → (h.decode r.1).isZero = true ∧ r.2 = 0))
      ∧ ((∃ p ∈ ab, (f.decode p.1).isNan = true ∨ (f.decode p.2).isNan = true) ∨ (h.decode c).isNan = true → r.1 = h.canon))
    ∧ (isIntTag t = true →
      let v : Int := intOf rt c + (ab.map fun p => intOf t p.1 * intOf t p.2).sum
      (r.1 : Int) = v % 2 ^ tagWidth rt ∧ r.2 = if v < intMin rt ∨ intMax rt < v then fWRAP else 0))
  ∧ (∀ (ot t : Tag) (g f : Fmt) (rm : BitVec 3) (a c : Nat), isNarrow t = true → isWide ot = true → fmtOf t = some f → fmtOf ot = some g → rm.toNat ≤ 4 →
    (c = 255 → elFromMx rm ot t a c = (g.canon, 0))
    ∧ (c < 255 → match f.decode a with
        | .fin neg m e => FloatResult g rm false (.fin neg m (e + c - 127)) (elFromMx rm ot t a c)
        | y => FloatResult g rm false y (elFromMx rm ot t a c)))
  ∧ (∀ (s : State) (vd va vb vc xl : BitVec 5) (msk : BitVec 3) (z : Bool) (rm : BitVec 3) (t rt : Tag) (g : Nat),
    let n := (s.x xl).toNat
    dotShape t = some (rt, g) → s.holdsChain va t (g * n) → s.holdsChain vb t (g * n) → s.holdsChain vc rt n →
    s.MayRun n [vd, va, vb, vc] [] → s.soundLanes → s.tidy → s.roomFor (linksFor rt n) →
    let e (r : VReg) (j : Nat) : Nat := s.elem (s.h.chain r) j
    let r (j : Nat) : Nat × Flags := dotGroup t rt rm ((List.range g).map fun i => (e va (g * j + i), e vb (g * j + i))) (e vc j)
    completes (exec (.vdot vd va vb vc xl msk z rm) s)
      (FreshResult vd rt n (fun j => if s.maskOn msk j then (r j).1 else if z then 0 else e vc j)
        (orFlags n fun j => if s.maskOn msk j then (r j).2 else 0) s))
  ∧ (∀ (s : State) (vd va vb xl : BitVec 5) (msk : BitVec 3) (z : Bool) (rm : BitVec 3) (ot t : Tag),
    let n := (s.x xl).toNat
    isNarrow t = true → isWide ot = true → s.holdsChain va t n → s.holdsChain vb 5 ((n + 31) / 32) →
    s.MayRun n [vd, va, vb] [] → s.soundLanes → s.tidy → s.roomFor (linksFor ot n) →
    let r (j : Nat) : Nat × Flags := elFromMx rm ot t (s.elem (s.h.chain va) j) (s.elem (s.h.chain vb) (j / 32))
    completes (exec (.vcvtfrommx vd va vb xl msk z rm ot) s)
      (FreshResult vd ot n (fun j => if s.maskOn msk j then (r j).1 else 0) (orFlags n fun j => if s.maskOn msk j then (r j).2 else 0) s))

/-- R242, R208, R264: words that make a mask from chains: bits below vl by the test where active; where inactive 0 with Z (always for
`vconflict`), else the old bit; bits from vl up are 0.
R242, R243: mask logic on bits 0 to vl - 1, vl up to 8192; bits from vl up are 0; `mclr` clears all. -/
def Obligations.MasksFromChainsAndMasks : Prop :=
  (∀ (s : State) (md msk : BitVec 3) (va vb xl : BitVec 5) (z sc : Bool) (t : Tag),
    let n := (s.x xl).toNat
    let a (j : Nat) : Nat := s.elem (s.h.chain va) j
    let b (j : Nat) : Nat := if sc then (s.x vb).toNat % 2 ^ tagWidth t else s.elem (s.h.chain vb) j
    t ≠ 0 → s.holdsChain va t n → s.MayRun n (if sc then [va] else [va, vb]) [md] → s.soundLanes →
    let bit (z : Bool) (test : Nat → Bool) (j : Nat) : Bool := if s.maskOn msk j then test j else !z && (s.h.mask md).getLsbD j
    let cmp (i : Instr) (c : Cmp) : Prop := completes (exec i s)
      (MaskResult md n (bit z fun j => (elCmp c t (a j) (b j)).1) (orFlags n fun j => if s.maskOn msk j then (elCmp c t (a j) (b j)).2 else 0) s)
    ((sc = true ∨ s.holdsChain vb t n) →
      cmp (.vcmpeq md va vb xl msk z sc) .eq ∧ cmp (.vcmpne md va vb xl msk z sc) .ne ∧ cmp (.vcmplt md va vb xl msk z sc) .lt
      ∧ cmp (.vcmple md va vb xl msk z sc) .le ∧ cmp (.vcmpgt md va vb xl msk z sc) .gt ∧ cmp (.vcmpge md va vb xl msk z sc) .ge
      ∧ ((isWide t = true ∨ t = 10 ∨ t = 11) → cmp (.vcmpun md va vb xl msk z sc) .un))
    ∧ (isIntTag t = true →
      completes (exec (.mfromv md va xl msk z) s) (MaskResult md n (bit z fun j => decide (a j ≠ 0)) 0 s)
      ∧ completes (exec (.vconflict md va xl msk) s)
          (MaskResult md n (bit true fun j => decide (∀ i, i < j → ¬ (s.maskOn msk i = true ∧ a i = a j))) 0 s)))
  ∧ (∀ (s : State) (md ma mb : BitVec 3) (xl : BitVec 5),
    let n := (s.x xl).toNat
    let a (j : Nat) : Bool := (s.h.mask ma).getLsbD j
    let b (j : Nat) : Bool := (s.h.mask mb).getLsbD j
    s.h.mode ≠ .d → s.calm → s.unclaimed [] [md] →
    (n ≤ 8192 →
      completes (exec (.mand md ma mb xl) s) (MaskResult md n (fun j => a j && b j) 0 s)
      ∧ completes (exec (.mor md ma mb xl) s) (MaskResult md n (fun j => a j || b j) 0 s)
      ∧ completes (exec (.mxor md ma mb xl) s) (MaskResult md n (fun j => a j != b j) 0 s)
      ∧ completes (exec (.mandn md ma mb xl) s) (MaskResult md n (fun j => a j && !b j) 0 s)
      ∧ completes (exec (.mnot md ma xl) s) (MaskResult md n (fun j => !a j) 0 s)
      ∧ completes (exec (.mset md xl) s) (MaskResult md n (fun _ => true) 0 s))
    ∧ completes (exec (.mclr md) s) (MaskResult md 8192 (fun _ => false) 0 s))

/-- R242, R254, Tables 08-11 and 08-12: x registers that receive a value of masks, chains or the pool: the number of set bits and the first
one, all ones when there is none; reductions in the order of R222; COUNT; header words; the links a chain names and whether it is exclusive; the pool's
counts. The tree S of R222 pairs a value
with the one 2^m above it, an absent one giving way to the other. That `clen`, `cinfo` and `cpoolst` count one output (log 64), and when a lone signalling NaN sets NV
(log 61), is the model's reading.
R254, R202: an integer `vredsum` is the sum of the active elements modulo 2^w, whatever the order of the additions. -/
def Obligations.ValuesFromChainsAndMasks : Prop :=
  ((∀ (k : Fold) (t : Tag) (rm : BitVec 3) (get : Nat → Option Int) (lo n p : Nat) (S : Nat → Nat → Option Int × Flags),
    (∀ i, S 0 i = (if i < n then get (lo + i) else none, 0)) →
    (∀ m i, S (m + 1) i =
      let a := S m i
      let b := S m (i + 2 ^ m)
      match a.1, b.1 with
      | some x, some y => let r := k.combine t rm x y; (some r.1, a.2 ||| b.2 ||| r.2)
      | some x, none => (some x, a.2 ||| b.2)
      | none, y => (y, a.2 ||| b.2)) →
    n ≤ 2 ^ p → (∀ q, q < p → 2 ^ q < n) →
    k.reduce t rm get lo n =
      let o := k.output t ((S p 0).1.getD (k.empty t))
      (o.1, o.2 ||| (S p 0).2 ||| k.signals t ((List.range n).filterMap fun i => get (lo + i)))) ∧
  ∀ (s : State) (xd xl va : BitVec 5) (ma msk : BitVec 3) (rm : BitVec 3),
    let n := (s.x xl).toNat
    let d := s.h.chain va
    s.h.mode ≠ .d → s.calm →
    (n ≤ 8192 →
      completes (exec (.mpopc xd ma xl) s) (VXResult 1 xd (BitVec.ofNat 64 (s.activeList ma n).length) s s)
      ∧ completes (exec (.mfirst xd ma xl) s)
          (VXResult 1 xd (match (s.activeList ma n).head? with | some j => BitVec.ofNat 64 j | none => BitVec.allOnes 64) s s))
    ∧ (n ≤ s.vlmax → n ≤ d.count → d.tag ≠ 0 → s.unclaimed [va] [] →
      let red (i : Instr) (k : Fold) (r : BitVec 3) : Prop :=
        let v := k.reduce d.tag r (fun j => if s.maskOn msk j then some (k.lift d.tag (s.elem d j)) else none) 0 n
        let w := tagWidth d.tag
        completes (exec i s) (VXResult 1 xd
          (if isSigned d.tag then (BitVec.ofNat w v.1).signExtend 64 else BitVec.ofNat 64 v.1) s (s.raise v.2))
      (intOrWide d.tag = true → red (.vredsum xd va xl msk rm) .sum rm ∧ red (.vredmax xd va xl msk) .max 0 ∧ red (.vredmin xd va xl msk) .min 0)
      ∧ (isIntTag d.tag = true → red (.vredand xd va xl msk) .and 0 ∧ red (.vredor xd va xl msk) .or 0))
    ∧ (d.tag ≠ 0 → completes (exec (.clen xd va) s) (VXResult 1 xd (BitVec.ofNat 64 d.count) s s))
    ∧ (∀ imm, imm ≠ 5 → completes (exec (.cinfo xd va imm) s) (VXResult 1 xd ((descWords d).getD imm.toNat 0) s s))
    ∧ (let named := (d.spans.map Span.spine).dedup.length + (d.spans.flatMap fun p => p.slots.filterMap fun i => s.slotGet p.spine i).dedup.length
       let alone := ∀ p ∈ d.spans, s.rc p.spine = 1 ∧ ∀ i ∈ p.slots, ∃ l, s.slotGet p.spine i = some l ∧ s.rc l = 1
       (alone → completes (exec (.cinfo xd va 5) s) (VXResult 1 xd (BitVec.ofNat 64 (named * 2 ^ 32 + 1)) s s))
       ∧ (¬ alone → completes (exec (.cinfo xd va 5) s) (VXResult 1 xd (BitVec.ofNat 64 (named * 2 ^ 32)) s s)))
    ∧ completes (exec (.cpoolst xd) s) (VXResult 1 xd
        (BitVec.ofNat 64 (s.pendLinks * 2 ^ 48 + s.h.vused * 2 ^ 32 + s.h.vquota.toNat * 2 ^ 16 + (2048 - s.core.links.length))) s s))
  ∧ (∀ (s : State) (xd va xl : BitVec 5) (msk rm : BitVec 3),
    let n := (s.x xl).toNat
    let d := s.h.chain va
    let sum : Int := ((s.activeList msk n).map fun j => intOf d.tag (s.elem d j)).sum
    isIntTag d.tag = true → n ≤ d.count → s.MayRun n [va] [] →
    completes (exec (.vredsum xd va xl msk rm) s) fun t =>
      t.x xd = if xd = 0 then 0 else BitVec.ofInt 64 (intOf d.tag (bitsOf (tagWidth d.tag) sum)))

/-- R223, R255, R261: scans make, of each active element, the combination of the active elements up to it (before it for `vscanx`) in its
chain or segment; masked-off elements hold zero with Z, else the source's. Into another register the result is fresh, and over
its source it is written in place, or beside what others share of it (R168, R169). The running value starts anew in each block of 16, and the carry of the blocks
before it joins each output (R223). That a scan sets NV only where a combination meets the NaN is the model's reading (log 61). -/
def Obligations.ScansMakeRunningValues : Prop :=
  (∀ (k : Fold) (t : Tag) (rm : BitVec 3) (excl : Bool) (vals : List (Option Int)) (run carry : Nat → Option Int × Flags),
    let join (a b : Option Int) : Option Int × Flags :=
      match a, b with
      | some x, some y => let r := k.combine t rm x y; (some r.1, r.2)
      | some x, none => (some x, 0)
      | none, y => (y, 0)
    let v (j : Nat) : Option Int := vals.getD j none
    (∀ j, run j = if j % 16 = 0 then (v j, 0) else join (run (j - 1)).1 (v j)) →
    carry 0 = (none, 0) → (∀ b, carry (b + 1) = join (carry b).1 (run (16 * b + 15)).1) →
    ∀ j, j < vals.length →
      let before := if excl then (if j % 16 = 0 then none else (run (j - 1)).1) else (run j).1
      let o := join (carry (j / 16)).1 before
      let made := (run j).2 ||| (if j % 16 = 0 then (carry (j / 16)).2 else 0)
      (k.scan t rm excl vals)[j]? = some (match v j with
        | none => (0, made)
        | some _ => let p := k.output t (o.1.getD (k.empty t)); (p.1, p.2 ||| o.2 ||| made))) ∧
  ∀ (s : State) (vd va vb xl : BitVec 5) (msk : BitVec 3) (z : Bool) (rm : BitVec 3) (t : Tag),
    let n := (s.x xl).toNat
    let e (j : Nat) : Nat := s.elem (s.h.chain va) j
    intOrWide t = true → s.holdsChain va t n → s.MayRun n [vd, va] [] → s.tidy →
    let src (k : Fold) : List (Option Int) := (List.range n).map fun j => if s.maskOn msk j then some (k.lift t (e j)) else none
    let scans (i : Instr) (outs : List (Nat × Flags)) : Prop :=
      let val (j : Nat) : Nat := if s.maskOn msk j then (outs.getD j (0, 0)).1 else if z then 0 else e j
      let fl := orFlags n fun j => (outs.getD j (0, 0)).2
      (vd ≠ va → s.roomFor (linksFor t n) → completes (exec i s) (FreshResult vd t n val fl s))
      ∧ (vd = va → s.apart (s.h.chain va) →
        (s.exclusive (s.h.chain va) = true → completes (exec i s) (InPlaceResult vd t n val fl s))
        ∧ (s.exclusive (s.h.chain va) = false → s.Counted va → s.roomFor (s.h.chain va).copies →
          completes (exec i s) (SharedResult vd t n val fl (∃ j, j < n ∧ (s.maskOn msk j = true ∨ z = true)) s)))
    scans (.vscan vd va xl msk z rm) (Fold.sum.scan t rm false (src .sum))
    ∧ scans (.vscanx vd va xl msk z rm) (Fold.sum.scan t rm true (src .sum))
    ∧ scans (.vscanmax vd va xl msk z) (Fold.max.scan t 0 false (src .max))
    ∧ (s.GoodOffsets vb n → s.unclaimed [vd, va, vb] [] →
        scans (.vsegscan vd va vb xl msk z rm)
          ((List.range (s.h.chain vb).count).flatMap fun k =>
            let g := s.segment vb n k
            Fold.sum.scan t rm false (((src .sum).drop g.1).take g.2)))

/-- R256 to R259, R262, R263: words that move elements into a fresh chain: which element stands at each index of the result. The merge is the
loop of R262 with its two indices.
R263: a block that `vsortk` sorts holds the same words, none before a larger one. -/
def Obligations.MovesAndSortsPlaceElements : Prop :=
  ((∀ (n : Nat) (p q : List Nat), (mergeDown n p q).length = n ∧ ∃ i m : Nat → Nat, i 0 = 0 ∧ m 0 = 0 ∧ ∀ j, j < n →
    let x := p.getD (i j) 0
    let y := q.getD (m j) 0
    if y ≤ x then (mergeDown n p q).getD j 0 = x ∧ i (j + 1) = i j + 1 ∧ m (j + 1) = m j
    else (mergeDown n p q).getD j 0 = y ∧ i (j + 1) = i j ∧ m (j + 1) = m j + 1) ∧
  ∀ (s : State) (vd va vb xb vc xl : BitVec 5) (msk : BitVec 3) (z c : Bool) (blk : BitVec 4) (t : Tag),
    let n := (s.x xl).toNat
    let a (j : Nat) : Nat := s.elem (s.h.chain va) j
    let b (j : Nat) : Nat := s.elem (s.h.chain vb) j
    let cnt (r : VReg) : Nat := (s.h.chain r).count
    let k := (s.x xb).toNat
    t ≠ 0 → (s.h.chain va).tag = t → n ≤ s.vlmax → s.h.mode ≠ .d → s.calm → s.tidy →
    s.unclaimed [vd, va, vb, vc] [] → s.roomFor (linksFor t (2 * n)) →
    let moves (i : Instr) (m : Nat) (val : Nat → Nat) : Prop := completes (exec i s) (FreshResult vd t m val 0 s)
    (n ≤ cnt va → moves (.vcompress vd va xl msk) (s.activeList msk n).length fun j => a ((s.activeList msk n).getD j 0))
    ∧ (n ≤ cnt va → moves (.vrev vd va xl) n fun j => a (n - 1 - j))
    ∧ ((s.activeList msk n).length ≤ cnt va → (z = true ∨ s.holdsChain vb t n) →
        moves (.vexpand vd va vb xl msk z) n fun j =>
          if s.maskOn msk j then a (s.activeList msk j).length else if z then 0 else b j)
    ∧ (n - min k n ≤ cnt va → (c = false ∨ s.holdsChain vc t (min k n)) →
        moves (.vslideup vd va xb vc xl c) n fun j => if k ≤ j then a (j - k) else if c then s.elem (s.h.chain vc) j else 0)
    ∧ ((c = false ∨ s.holdsChain vc t (n + k - cnt va)) →
        moves (.vslidedn vd va xb vc xl c) n fun j =>
          if j + k < cnt va then a (j + k) else if c then s.elem (s.h.chain vc) (j + k - cnt va) else 0)
    ∧ (isIntTag (s.h.chain vb).tag = true → n ≤ cnt vb →
        moves (.vperm vd va vb xl) n fun j =>
          let i := intOf (s.h.chain vb).tag (b j)
          if 0 ≤ i ∧ i < cnt va then a i.toNat else 0)
    ∧ (n ≤ cnt va → s.holdsChain vb t n → moves (.vzip vd va vb xl) (2 * n) fun j => if j % 2 = 0 then a (j / 2) else b (j / 2))
    ∧ (t = 8 → s.holdsChain vb 8 0 →
        moves (.vmergek vd va vb xl) n fun j =>
          (mergeDown n ((List.range (min (cnt va) n)).map a) ((List.range (min (cnt vb) n)).map b)).getD j 0)
    ∧ (t = 8 → n ≤ cnt va →
        moves (.vsortk vd va xl blk) n fun j =>
          (sortBlocks (2 ^ blk.toNat) ((n + 2 ^ blk.toNat - 1) / 2 ^ blk.toNat) ((List.range n).map a)).getD j 0))
  ∧ (∀ l : List Nat, (sortDown l).Perm l ∧ (sortDown l).Pairwise (· ≥ ·))

/-- R260, R261: segmented reductions deliver one element for each segment. That a segment of one signalling NaN sets NV is the model's reading (log 61). -/
def Obligations.SegmentedReductions : Prop :=
  ∀ (s : State) (vd va vb xl : BitVec 5) (msk rm : BitVec 3) (t : Tag),
    let n := (s.x xl).toNat
    let segs := (s.h.chain vb).count
    intOrWide t = true → s.holdsChain va t n → s.GoodOffsets vb n → s.MayRun n [vd, va, vb] [] → s.tidy → s.roomFor (linksFor t segs) →
    let red (k : Fold) (rm : BitVec 3) (j : Nat) : Nat × Flags :=
      let g := s.segment vb n j
      k.reduce t rm (fun i => if s.maskOn msk i then some (k.lift t (s.elem (s.h.chain va) i)) else none) g.1 g.2
    let gives (i : Instr) (k : Fold) (rm : BitVec 3) : Prop :=
      completes (exec i s) (FreshResult vd t segs (fun j => (red k rm j).1) (orFlags segs fun j => (red k rm j).2) s)
    gives (.vsegsum vd va vb xl msk rm) .sum rm ∧ gives (.vsegmax vd va vb xl msk) .max 0 ∧ gives (.vsegmin vd va vb xl msk) .min 0

/-! Vector memory. -/

/-- R187, R190, R195, R198: a vector load whose checks and probe pass and that meets no poison makes a fresh chain of vl elements: each active
element the bytes read at its address, each masked-off one zero. An untranslated load (R85) of sound memory reads the bytes at home. Elements in
the local stores of other cores come by packets: the load sends their requests and waits, and runs when every reply has arrived. That element addresses are
taken modulo 2^64 is the model's choice (log 66). -/
def Obligations.VectorLoadsMakeFreshChains : Prop :=
  ∀ (s : State) (vd xa xb vi xl : BitVec 5) (msk : BitVec 3) (asr : BitVec 2) (t : Tag) (imm : BitVec 16) (i : Instr) (f : Form)
    (base : Word),
    (i = .vld vd xa xl msk asr t imm ∧ f = .contig ∧ base = s.x xa + BitVec.ofInt 64 imm.toInt
      ∨ i = .vlds vd xa xb xl msk asr t imm ∧ f = .strided (s.x xb) ∧ base = s.x xa + BitVec.ofInt 64 imm.toInt
      ∨ i = .vldx vd xa vi xl msk asr t ∧ f = .indexed vi ∧ base = s.x xa) →
    let n := (s.x xl).toNat
    let bytes := (tagWidth t + 7) / 8
    let idx := match f with | .indexed v => s.h.chain v | _ => Desc.released
    let act := s.activeList msk n
    t ≠ 0 → s.calm →
    s.memChecks [vd] none f base t true (s.x xl) msk act = .ok () →
    s.unclaimed (match f with | .indexed v => [vd, v] | _ => [vd]) [] →
    (s.h.mode = .s → s.h.bare = true → s.h.space asr = 0 → s.pend = [] → (∀ e ∈ s.early, e.hart ≠ s.cur) → s.ownPackets = [] →
      (∀ j ∈ act, ∃ k, physKey (s.elemAddr f base t idx j) = some k ∧ s.poisonIn k bytes = none) → s.tidy → s.roomFor (linksFor t n) →
      completes (exec i s) (FreshResult vd t n (fun j => match physKey (s.elemAddr f base t idx j) with
        | some k => if s.maskOn msk j then (if t = 9 then ofBytes (s.homeRead k 1) / 16 ^ (j % 2) % 16 else ofBytes (s.homeRead k bytes)) else 0
        | none => 0) 0 s))
    ∧ ∀ (s1 : State) (spots : List Spot),
    s.awake.probe (s.h.space asr) bytes .read (f == .contig) none (act.map fun j => (j, s.elemAddr f base t idx j)) = .ok (spots, s1) →
    (s1.ownPackets = [] → (∃ sp ∈ spots, (s1.farCore sp.pl).isSome = true) →
      completes (exec i s) fun u =>
        u.packets = s1.packets ++ s1.gatherPackets t (spots.filter fun sp => (s1.farCore sp.pl).isSome) ∧ u.h.wait = .retry false ∧ u.h.pc = s.h.pc)
    ∧ (∀ (s2 : State) (vals : List (Nat × Nat)),
      (s1.ownPackets = [] → ∀ sp ∈ spots, s1.farCore sp.pl = none) → (∀ p ∈ s1.ownPackets, p.kind = 4) →
      s1.vectorReads (s.h.space asr) bytes s1.arrived spots = (vals, none, s2) → s2.tidy → s2.roomFor (linksFor t n) →
      completes (exec i s) (FreshResult vd t n
        (fun j => match vals.find? fun p => p.1 == j with | some p => if t = 9 then p.2 / 16 ^ (j % 2) % 16 else p.2 | none => 0) 0 s2.dropPackets))

/-- The handed-off writes of a vector store in order: one for each element of an indexed form and of a scatter-add; in a contiguous form
neighbours inside one unit are one write (R78, R199, R200), the model's choice (log 69). Element addresses are taken modulo 2^64 (log 66), and a packet carries an e2m1 element as log 70 has it. Those for the local stores of other cores go in packets, by core and block of 64
element indices (R195). No byte changes before they are performed. -/
def Obligations.VectorStoresHandOffTheirElements : Prop :=
  ∀ (s s1 : State) (vs xa xb vi xl : BitVec 5) (msk : BitVec 3) (asr : BitVec 2) (scope : BitVec 3) (t : Tag) (imm : BitVec 16) (i : Instr)
    (f : Form) (base : Word) (add : Bool) (spots : List Spot),
    (i = .vst vs xa xl msk asr t imm ∧ f = .contig ∧ base = s.x xa + BitVec.ofInt 64 imm.toInt ∧ add = false
      ∨ i = .vsts vs xa xb xl msk asr t imm ∧ f = .strided (s.x xb) ∧ base = s.x xa + BitVec.ofInt 64 imm.toInt ∧ add = false
      ∨ i = .vstx vs xa vi xl msk asr t ∧ f = .indexed vi ∧ base = s.x xa ∧ add = false
      ∨ i = .vstxadd vs xa vi xl msk asr scope t ∧ f = .indexed vi ∧ base = s.x xa ∧ add = true
        ∧ (t = 3 ∨ t = 4 ∨ t = 7 ∨ t = 8 ∨ t = 14 ∨ t = 15)) →
    let n := (s.x xl).toNat
    let bytes := (tagWidth t + 7) / 8
    let idx := match f with | .indexed v => s.h.chain v | _ => Desc.released
    let act := s.activeList msk n
    t ≠ 0 → s.calm →
    s.memChecks [] (some vs) f base t true (s.x xl) msk act = .ok () →
    s.unclaimed (match f with | .indexed v => [vs, v] | _ => [vs]) [] →
    s.awake.probe (s.h.space asr) bytes (if add then .atomic else .write) (f == .contig) none (act.map fun j => (j, s.elemAddr f base t idx j)) = .ok (spots, s1) →
    let one := spots.map fun sp => (⟨[sp.j], sp.off, sp.pl, s1.farCore sp.pl, if add then .add t else .put, toBytes bytes (s1.elem (s1.h.chain vs) sp.j)⟩ : Piece)
    let pieces := if t = 9 then joinPieces (nibblePieces s1.farCore (spots.map fun sp => (sp, s1.elem (s1.h.chain vs) sp.j)))
      else if f = .contig then joinPieces one else one
    completes (exec i s) fun u =>
      (u.pend.drop s1.pend.length).map (fun p => (p.vec, p.off, p.key, p.node, p.pkt, p.op, p.data))
          = pieces.map (fun p => (true, p.off, p.pl.key, p.pl.node, p.core.map fun c => (s1.nextId, c), p.op, p.data))
        ∧ u.pend.take s1.pend.length = s1.pend ∧ u.packets = s1.packets ++ s1.scatterPackets (if add then 3 else 2) s1.nextId t pieces
        ∧ RetiredV n s1 u ∧ u.h.v = s1.h.v ∧ u.h.m = s1.h.m ∧ u.h.xu = s1.h.xu ∧ u.h.xs = s1.h.xs ∧ sameBytes s1 u

/-! Chain words. -/

/-- R155 to R162, R171, R176, R177: what a chain word leaves in its destination: a tag and a number of elements, and for the words that only
name existing storage the very elements; every other chain register stands; no byte of memory changes. A join of more than four spans is a flat copy (R177).
That `cfree` leaves every field of the register zero is the model's choice (log 58), and so is what a chain word's entry counts (log 64). -/
def Obligations.ChainWordsMakeTheirChains : Prop :=
  ∀ (s : State) (vd ve va vb xa xb : BitVec 5) (t : Tag),
    let a := s.h.chain va
    let b := s.h.chain vb
    let e (j : Nat) : Nat := s.elem a j
    let p := (s.x xa).toNat
    let q := (s.x xb).toNat
    let even (k : Nat) : Prop := a.tag = 9 → k % 2 = 0
    s.h.mode ≠ .d → s.calm → s.unclaimed [vd, ve, va, vb] [] → s.lowCounts → a.tag ≠ 0 →
    a.spans.length ≤ 4 → b.spans.length ≤ 4 →
    let makes (i : Instr) (tag : Tag) (n : Nat) (val : Nat → Nat) : Prop :=
      completes (exec i s) fun u => ChainIs u vd tag n val ∧ ChainFrame [vd] n s u ∧ u.h.vflags = s.h.vflags
    makes (.cshare vd va) a.tag a.count e
    ∧ (p ≤ a.count → even p → makes (.ctrimh vd va xa) a.tag (a.count - p) fun j => e (p + j))
    ∧ (p ≤ a.count → makes (.ctrimt vd va xa) a.tag (a.count - p) e)
    ∧ (p + q ≤ a.count → even p → makes (.cslice vd va xa xb) a.tag q fun j => e (p + j))
    ∧ (p ≤ a.count → even p → vd ≠ ve → completes (exec (.csplit vd ve va xa) s) fun u =>
        ChainIs u vd a.tag p e ∧ ChainIs u ve a.tag (a.count - p) (fun j => e (p + j)) ∧ ChainFrame [vd, ve] p s u)
    ∧ (a.count * tagWidth a.tag % tagWidth t = 0 → t ≠ 0 → (8 ≤ tagWidth t → ∀ sp ∈ a.spans, sp.len % (tagWidth t / 8) = 0) →
        completes (exec (.cretag vd va t) s) fun u =>
          (u.h.chain vd).tag = t ∧ (u.h.chain vd).count = a.count * tagWidth a.tag / tagWidth t
            ∧ (∀ k, u.chainRead (u.h.chain vd).spans 0 k = s.chainRead a.spans 0 k) ∧ ChainFrame [vd] (a.count * tagWidth a.tag / tagWidth t) s u)
    ∧ (t ≠ 0 → chainBytes t p ≤ 131072 → s.tidy → s.roomFor (linksFor t p) → makes (.cnew vd xa t) t p fun _ => 0)
    ∧ completes (exec (.cfree va) s) (fun u => (u.h.chain va) = Desc.released ∧ ChainFrame [va] 0 s u)
    ∧ (let n := a.count + b.count
       let l (k : Nat) : List Span := mergeSpans (cutElems a 0 k ++ b.spans ++ cutElems a k (a.count - k))
       let joins (i : Instr) (k : Nat) : Prop :=
         b.tag = a.tag → k ≤ a.count → chainBytes a.tag n ≤ 524288 → (a.tag = 9 → k % 2 = 0 ∧ (k < a.count → b.count % 2 = 0)) →
         (a.spans.map Span.len).sum = chainBytes a.tag a.count → (b.spans.map Span.len).sum = chainBytes b.tag b.count →
         let joined (j : Nat) : Nat := if j < k then e j else if j < k + b.count then s.elem b (j - k) else e (j - b.count)
         ((l k).length ≤ 4 → makes i a.tag n joined)
         ∧ (4 < (l k).length → s.tidy → s.wellHeld a → s.wellHeld b → s.roomFor (flatLinks a.tag n) →
           completes (exec i s) fun u => ChainIs u vd a.tag n joined ∧ ChainFrame [vd] n s u ∧ u.h.vflags = s.h.vflags
             ∧ u.h.vused = s.h.vused + flatLinks a.tag n ∧ linksStand s u)
       joins (.cprep vd va vb) 0 ∧ joins (.csplice vd va vb xa) p)

/-- R177, R178: `cflat` and `cpriv` leave tag, count and elements as they are; a chain that is exclusive already needs no link for `cpriv`. One that others
share is exclusive afterwards, at most one spine for each span and one link for each slot covered having been copied, and every other register reads the same
elements as before.
R166, R164, R348: a chain word whose checks pass takes its whole effect, or none of it: when the links it wants are not to be had it
traps with cause 0x0C, the number wanted in tval, and no register of the chains changes. That its entry counts the elements of its first result is the model's
reading (log 64). -/
def Obligations.ChainCopiesAreWholeOrNotAtAll : Prop :=
  (∀ (s : State) (vd va : BitVec 5),
    let a := s.h.chain va
    s.h.mode ≠ .d → s.calm → s.unclaimed [vd, va] [] → s.lowCounts → a.tag ≠ 0 → chainBytes a.tag a.count ≤ 524288 → s.wellHeld a →
    (s.tidy → s.roomFor (flatLinks a.tag a.count) →
      completes (exec (.cflat vd va) s) fun u => ChainIs u vd a.tag a.count (fun j => s.elem a j) ∧ ChainFrame [vd] a.count s u ∧ linksStand s u
        ∧ u.h.vused = s.h.vused + flatLinks a.tag a.count)
    ∧ (vd = va → s.exclusive a = true →
      completes (exec (.cpriv vd va) s) fun u => ChainIs u vd a.tag a.count (fun j => s.elem a j) ∧ ChainFrame [vd] a.count s u ∧ u.h.vused = s.h.vused)
    ∧ (vd = va → s.exclusive a = false → s.tidy → s.apart a → s.Counted vd → s.roomFor a.copies →
        (∀ p ∈ a.spans, 0 < p.len ∧ 1 ≤ s.rc p.spine ∧ ∀ i l, i < 256 → s.slotGet p.spine i = some l → 1 ≤ s.rc l) →
      completes (exec (.cpriv vd va) s) fun u => ChainIs u vd a.tag a.count (fun j => s.elem a j) ∧ ChainFrame [vd] a.count s u
        ∧ (u.h.chain vd).spans.map (fun p => (p.off, p.len)) = a.spans.map (fun p => (p.off, p.len))
        ∧ (∀ p ∈ (u.h.chain vd).spans, u.rc p.spine = 1 ∧ ∀ i ∈ p.slots, ∃ l, u.slotGet p.spine i = some l ∧ u.rc l = 1)
        ∧ u.h.vused ≤ s.h.vused + a.copies ∧ ∀ q, q ≠ vd → ∀ j, j < (s.h.chain q).count → u.elem (u.h.chain q) j = s.elem (s.h.chain q) j))
  ∧ (∀ (s : State) (checks : Except Trap Unit) (srcs dsts : List VReg) (go : State → State),
    s.calm → checks = .ok () → s.unclaimed (srcs ++ dsts) [] → s.h.mode = .u → s.h.pfh.getLsbD 0 = false → s.trapsToS 0x01 →
    ((go s.awake).poolFits = true → s.editChain checks srcs dsts go = .next ((go s.awake).retireV (match dsts with | r :: _ => ((go s.awake).h.chain r).count | [] => 0)))
    ∧ ((go s.awake).poolFits = false → (go s.awake).h.vused ≠ s.h.vused →
        completes (s.editChain checks srcs dsts go) fun u =>
          u.h.v = s.h.v ∧ u.h.mode = .s ∧ u.h.cause = 0x0C ∧ u.h.tval = BitVec.ofNat 64 ((go s.awake).h.vused - s.h.vused)
            ∧ u.h.pc = s.h.tvec ∧ u.core.links = s.core.links ∧ u.h.vused = s.h.vused))

/-- R172: `cwait` waits while the reclaimer holds a spine of the hart, then returns the hart's links of KIND 3 to the pool and to its
quota.
R171 (Table 08-1): the reclaimer takes its first queued spine: the count of each link falls by the slots that list it, a link that none lists any more
and the spine itself become links of KIND 3, and no other link changes. -/
def Obligations.ReclaimedLinksReturn : Prop :=
  (∀ s : State,
    ((∀ q ∈ s.core.reclaim, q.owner ≠ s.cur) → completes (exec .cwait s) fun t =>
      RetiredV 0 s t ∧ t.h.v = s.h.v
        ∧ t.h.vused = s.h.vused - (s.core.links.filter fun p => p.2.kind == .pending && p.2.slot == s.slotNo).length
        ∧ (∀ p ∈ t.core.links, p ∈ s.core.links ∧ ¬ (p.2.kind = .pending ∧ p.2.slot = s.slotNo)))
    ∧ ((∃ q ∈ s.core.reclaim, q.owner = s.cur) → exec .cwait s = .next { s with h := { s.h with wait := .retry false } }))
  ∧ (∀ (s : State) (q : Reclaim) (rest : List Reclaim),
    let listed := ((s.slotList q.spine).filter fun e => decide (q.pos ≤ e.1)).map Prod.snd
    s.core.reclaim = q :: rest → (∀ r ∈ rest, r.spine ≠ q.spine) → q.spine ∉ listed →
    completes (exec (.reclaimSpine s.coreNo) s) fun t =>
      t.core.reclaim = rest ∧ (∀ k, s.link q.spine = some k → t.link q.spine = some { k with kind := .pending })
        ∧ (∀ l k, l ∈ listed → s.link l = some k →
            t.link l = some { k with rc := k.rc - listed.count l, kind := if k.rc ≤ listed.count l then .pending else k.kind })
        ∧ (∀ l, l ≠ q.spine → l ∉ listed → t.link l = s.link l) ∧ t.h = s.h ∧ t.core.pool = s.core.pool ∧ sameBytes s t)

/-! Matrix words. -/

/-- R267, R269, R274, R276 (Tables 13-2 to 13-5): taking and giving up a tile, clearing it, and reading a row of its cells or check
sums.
R266, R276, R277: `zload` fills whole rows and their check rows; `zdrain` delivers scaled, converted cells row by row and clears them when
asked; `zchk` marks the rows that disagree with their check rows. A check row of floating cells holds the exact sums of the cells and of their magnitudes,
rounded to f64 by RNE; the test is |R - c| > T * a. That a drained i32 value with a fraction is rounded by RM and then wraps or is clamped is the model's reading (log 47). -/
def Obligations.TileWordsAndTransfers : Prop :=
  (∀ (s : State) (zd : BitVec 3) (vd xk xs : BitVec 5),
    let w := s.x xk
    let m := (w.extractLsb' 0 8).toNat
    let n := (w.extractLsb' 8 8).toNat
    let kind := (w.extractLsb' 16 2).toNat
    let k : TileKind := match kind with | 0 => .f32 | 1 => .i32 | _ => .f64
    let limit := if kind = 2 then 64 else 128
    let t := s.tile zd
    zd.toNat < 2 → s.h.mode ≠ .d →
    (w.extractLsb' 18 46 = 0 → kind ≠ 3 → 1 ≤ m → m ≤ limit → 1 ≤ n → n ≤ limit → (zd = 0 → s.holds 1 = true → s.holds 0 = true) →
      ((s.holds zd = true ∨ t.freeFor s.slotNo = true) → completes (exec (.zmode zd xk) s) fun u =>
        u.holds zd = true ∧ (u.tile zd).rows = m ∧ (u.tile zd).cols = n ∧ (u.tile zd).kind = k
          ∧ (∀ i j, (u.tile zd).cell i j = 0) ∧ (∀ i, (u.tile zd).check i = (0, 0)) ∧ RetiredV 0 s u ∧ u.h.v = s.h.v ∧ sameBytes s u)
      ∧ (s.holds zd = false → t.freeFor s.slotNo = false → completes (exec (.zmode zd xk) s) fun u =>
        (u.tile zd).queue = (if t.queue.contains s.slotNo then t.queue else t.queue ++ [s.slotNo]) ∧ (u.tile zd).holder = t.holder
          ∧ u.h = { s.h with st := .waiting, wait := .retry true }))
    ∧ (w = 0x4_0000 → s.holds zd = true → completes (exec (.zmode zd xk) s) fun u => (u.tile zd).holder = none ∧ (u.tile zd).queue = t.queue ∧ RetiredV 0 s u)
    ∧ (s.holds zd = true → completes (exec (.zzero zd) s) fun u =>
        (∀ i j, (u.tile zd).cell i j = 0) ∧ (∀ i, (u.tile zd).check i = (0, 0)) ∧ u.holds zd = true ∧ (u.tile zd).rows = t.rows
          ∧ (u.tile zd).cols = t.cols ∧ (u.tile zd).kind = t.kind ∧ RetiredV 0 s u ∧ u.h.v = s.h.v ∧ sameBytes s u)
    ∧ (s.holds zd = true → s.calm → s.unclaimed [vd] [] → s.tidy →
        let x := (s.x xs).toNat
        (x < t.rows → t.cols ≤ 128 → s.roomFor (linksFor t.kind.tag t.cols) →
          completes (exec (.zrow zd vd xs) s) (FreshResult vd t.kind.tag t.cols (t.cell x) 0 s))
        ∧ (x = 128 → t.rows ≤ 128 → s.roomFor (linksFor t.kind.checkTag t.rows) →
          completes (exec (.zrow zd vd xs) s) (FreshResult vd t.kind.checkTag t.rows (fun j => (t.check j).1.toNat) 0 s))
        ∧ (x = 129 → t.rows ≤ 128 → s.roomFor (linksFor t.kind.checkTag t.rows) →
          completes (exec (.zrow zd vd xs) s) (FreshResult vd t.kind.checkTag t.rows (fun j => (t.check j).2.toNat) 0 s))))
  ∧ ((∀ (kind : TileKind) (ot : Tag) (rm : BitVec 3) (sat : Bool) (x : Machine.Num), ot ≠ 0 → rm.toNat ≤ 4 →
    let r := drainConvert kind ot rm sat x
    (∀ g, fmtOf ot = some g → FloatResult g rm sat x r)
    ∧ (isIntTag ot = true → kind ≠ .i32 → IntResult ot rm x r)
    ∧ (isIntTag ot = true → kind = .i32 → x.finite → ∃ k, nearestInt rm x.val k
        ∧ r.1 = bitsOf (tagWidth ot) (if sat then max (intMin ot) (min (intMax ot) k) else k)
        ∧ r.2 = (if k < intMin ot ∨ intMax ot < k then fWRAP else 0) ||| (if x.val = k then 0 else fNX)))
  ∧ (∀ (t : Tile) (tol : Machine.Num) (i : Nat),
    let bad := t.rowBad tol i = true
    let c := fmtF64.decode (t.check i).1.toNat
    let a := fmtF64.decode (t.check i).2.toNat
    (t.kind = .i32 → (bad ↔ ((List.range t.cols).map fun n => intOf 3 (t.cell i n)).sum % 2 ^ 32 ≠ (t.check i).1.toInt % 2 ^ 32))
    ∧ (t.kind ≠ .i32 → ((∃ n, n < t.cols ∧ (t.value i n).isNan = true) ∨ c.isNan = true → bad)
      ∧ ((∀ n, n < t.cols → (t.value i n).finite) → ∃ w, checkSum ((List.range t.cols).map fun n => (t.value i n).val).sum w ∧
        let r := fmtF64.decode w.toNat
        (r.finite → c.finite → a.finite → tol.finite → (bad ↔ tol.val * a.val < |r.val - c.val|))
        ∧ (¬ (r.finite ∧ c.finite) → c.isNan = false → (bad ↔ r ≠ c)))))
  ∧
  ∀ (s : State) (zd md : BitVec 3) (va vd xk xs : BitVec 5) (rm : BitVec 3) (ot : Tag),
    let t := s.tile zd
    let w := s.x xk
    s.h.mode ≠ .d → s.holds zd = true → s.calm →
    (let r := w.toNat
     let row0 := (s.x xs).toNat
     row0 + r ≤ t.rows → s.holdsChain va t.kind.tag (r * t.cols) → s.unclaimed [va] [] →
     completes (exec (.zload zd va xk xs) s) fun u =>
       u.tile zd = (List.range r).foldl (fun v i => v.loadRow (row0 + i) ((List.range t.cols).map fun n => s.elem (s.h.chain va) (i * t.cols + n))) t
         ∧ RetiredV (r * t.cols) s u ∧ u.h.v = s.h.v ∧ sameBytes s u
         ∧ (t.rows ≤ t.kind.limit → t.cols ≤ t.kind.limit → ∀ i, i < r →
           let v (n : Nat) : Machine.Num := (u.tile zd).value (row0 + i) n
           let ck := (u.tile zd).check (row0 + i)
           (∀ n, n < t.cols → (u.tile zd).cell (row0 + i) n = s.elem (s.h.chain va) (i * t.cols + n))
           ∧ (t.kind = .i32 → ck = (BitVec.ofInt 64 ((List.range t.cols).map fun n => intOf 3 (s.elem (s.h.chain va) (i * t.cols + n))).sum, 0))
           ∧ (t.kind ≠ .i32 → (∀ n, n < t.cols → (v n).finite) →
             checkSum ((List.range t.cols).map fun n => (v n).val).sum ck.1 ∧ checkSum ((List.range t.cols).map fun n => |(v n).val|).sum ck.2)
           ∧ (t.kind ≠ .i32 → (∃ n, n < t.cols ∧ (v n).isNan = true) → (fmtF64.decode ck.1.toNat).isNan = true ∧ (fmtF64.decode ck.2.toNat).isNan = true)))
    ∧ (let row0 := (w.extractLsb' 0 7).toNat
       let rows := (w.extractLsb' 7 7).toNat + 1
       let e := (w.extractLsb' 14 8).toInt
       let n := rows * t.cols
       let x (j : Nat) : Machine.Num :=
         match t.value (row0 + j / max t.cols 1) (j % max t.cols 1) with | .fin g m k => .fin g m (k + e) | y => y
       let r (j : Nat) : Nat × Flags := drainConvert t.kind ot rm (w.getLsbD 22) (x j)
       let space := s.h.space (w.extractLsb' 25 2)
       let width := if t.kind = .f64 then 8 else 4
       let f := if t.kind = .f64 then fmtF64 else fmtF32
       let top : Nat × Flags := match maxAbs ((List.range n).map x) with | some y => f.deliver rmRUP y | none => (f.canon, 0)
       w.extractLsb' 30 34 = 0 → (w.extractLsb' 27 3).toNat ≤ 4 → row0 + rows ≤ t.rows →
       chainBytes ot n ≤ 131072 → ot ≠ 0 → s.unclaimed [vd] [] → s.tidy → s.roomFor (linksFor ot n) →
       (w.getLsbD 24 = false → w.getLsbD 23 = false →
         completes (exec (.zdrain zd vd xk xs rm ot) s) (FreshResult vd ot n (fun j => (r j).1) (orFlags n fun j => (r j).2) s))
       ∧ (w.getLsbD 24 = false → w.getLsbD 23 = true → completes (exec (.zdrain zd vd xk xs rm ot) s) fun u =>
           ChainIs u vd ot n (fun j => (r j).1) ∧ RetiredV n s u ∧ sameBytes s u
             ∧ ∀ i, i < rows → (∀ c, c < t.cols → (u.tile zd).cell (row0 + i) c = 0) ∧ (u.tile zd).check (row0 + i) = (0, 0))
       ∧ (∀ pl s1, w.getLsbD 24 = true → (s.x xs).toNat % width = 0 →
           s.locate s.h.acc space (s.x xs).toNat width .atomic false = .ok (pl, s1) → s1.tidy → s1.roomFor (linksFor ot n) →
           completes (exec (.zdrain zd vd xk xs rm ot) s) fun u => ∃ p,
             u.pend = s1.pend ++ [p] ∧ p.key = pl.key ∧ p.node = pl.node ∧ p.off = (s.x xs).toNat ∧ p.data = toBytes width top.1
               ∧ u.h.vflags = s.h.vflags ||| orFlags n (fun j => (r j).2) ||| top.2 ∧ p.op = .fmax (if t.kind = .f64 then 15 else 14) ∧ ChainIs u vd ot n (fun j => (r j).1) ∧ RetiredV n s u))
    ∧ (let tol := fmtF64.decode (s.x xs).toNat
       (t.kind = .i32 ∨ (tol.isNan = false ∧ (tol.sign = true → tol.isZero = true))) → s.unclaimed [] [md] →
       completes (exec (.zchk zd md xs) s) (MaskResult md t.rows (t.rowBad tol) 0 s)))

/-- R275, R225: accumulation over k in groups in ascending k, the last one shorter where g does not divide K. A group adds the exact sum of its products
to each cell and rounds once, or takes it modulo 2^32 with WRAP where a cell wraps; its check sums take the products' exact sums, rounded to f64 by RNE or
modulo 2^64. A scale code c scales by 2^(c - 127), and 0xFF makes a NaN. A signalling NaN sets NV but in a block with the scale code 0xFF (R220). That VSTART of a word that is done counts
its k steps is the model's reading (log 25). -/
def Obligations.AccumulationRunsItsGroups : Prop :=
  (∀ (t : Tile) (rm : BitVec 3) (ks : List Nat) (a b : Nat → Nat → Machine.Num) (sigA sigB : Nat → Nat → Flags),
    let r := t.group rm ks a b sigA sigB
    t.rows ≤ t.kind.limit → t.cols ≤ t.kind.limit → rm.toNat ≤ 4 →
    (∀ f, fmtOf t.kind.tag = some f → (∀ k ∈ ks, (∀ i, i < t.rows → (a k i).finite) ∧ ∀ n, n < t.cols → (b k n).finite) →
      (∀ i n, i < t.rows → n < t.cols → (t.value i n).finite →
        let x := (t.value i n).val + (ks.map fun k => (a k i).val * (b k n).val).sum
        (x ≠ 0 → ∃ fl, RoundsTo f rm (decide (x < 0)) |x| (r.1.cell i n, fl) ∧ fl ||| r.2 = r.2)
          ∧ (x = 0 → (f.decode (r.1.cell i n)).isZero = true))
      ∧ ∀ i, i < t.rows → (fmtF64.decode (t.check i).1.toNat).finite → (fmtF64.decode (t.check i).2.toNat).finite →
        let sum (g : ℚ → ℚ) : ℚ := (ks.map fun k => g (a k i).val * ((List.range t.cols).map fun n => g (b k n).val).sum).sum
        checkSum ((fmtF64.decode (t.check i).1.toNat).val + sum id) (r.1.check i).1
          ∧ checkSum ((fmtF64.decode (t.check i).2.toNat).val + sum fun v => |v|) (r.1.check i).2)
    ∧ (∀ A B : Nat → Nat → Int, t.kind = .i32 → (∀ k i, a k i = .fin (decide (A k i < 0)) (A k i).natAbs 0) → (∀ k n, b k n = .fin (decide (B k n < 0)) (B k n).natAbs 0) →
      let x (i n : Nat) : Int := intOf 3 (t.cell i n) + (ks.map fun k => A k i * B k n).sum
      (∀ i n, i < t.rows → n < t.cols → (r.1.cell i n : Int) = x i n % 2 ^ 32)
        ∧ ((∀ i n, i < t.rows → n < t.cols → -2 ^ 31 ≤ x i n ∧ x i n < 2 ^ 31) → r.2 = 0)
        ∧ ((∃ i n, i < t.rows ∧ n < t.cols ∧ ¬ (-2 ^ 31 ≤ x i n ∧ x i n < 2 ^ 31)) → r.2 = fWRAP)
        ∧ ∀ i, i < t.rows → r.1.check i = (BitVec.ofInt 64 ((t.check i).1.toInt + (ks.map fun k => A k i * ((List.range t.cols).map fun n => B k n).sum).sum), 0)))
  ∧ (∀ (t : Tile) (rm : BitVec 3) (g depth : Nat) (a b : Nat → Nat → Machine.Num) (sigA sigB : Nat → Nat → Flags), 0 < g → depth ≤ 1024 →
    t.groups rm g depth a b sigA sigB 1024 0 = (List.range ((depth + g - 1) / g)).foldl (fun p q =>
      let r := p.1.group rm ((List.range (min g (depth - q * g))).map (q * g + ·)) a b sigA sigB
      (r.1, p.2 ||| r.2)) (t, 0))
  ∧ (∀ (tag : Tag) (f : Fmt) (x c : Nat), fmtOf tag = some f → scaled tag x none = f.decode x ∧ scaled tag x (some 255) = .nan false
      ∧ (c < 255 → (f.decode x).finite → (scaled tag x (some c)).val = (f.decode x).val * 2 ^ ((c : Int) - 127)))
  ∧
  ∀ (s : State) (zd : BitVec 3) (va vb xk vsa vsb : BitVec 5) (rm : BitVec 3) (g : Nat) (mx : Bool),
    let depth := (s.x xk).toNat
    let t := s.tile zd
    let a := s.h.chain va
    let b := s.h.chain vb
    let blocks := (depth + 31) / 32
    let e (r : VReg) (j : Nat) : Nat := s.elem (s.h.chain r) j
    let code (r : VReg) (per k i : Nat) : Option Nat := if mx then some (e r (k / 32 * per + i)) else none
    let sig (tag : Tag) (x : Nat) (c : Option Nat) : Flags := if c = some 255 then 0 else match fmtOf tag with | some f => nvOf [f.decode x] | none => 0
    let r := t.groups rm g depth
      (fun k i => scaled a.tag (e va (k * t.rows + i)) (code vsa t.rows k i)) (fun k n => scaled b.tag (e vb (k * t.cols + n)) (code vsb t.cols k n))
      (fun k i => sig a.tag (e va (k * t.rows + i)) (code vsa t.rows k i)) (fun k n => sig b.tag (e vb (k * t.cols + n)) (code vsb t.cols k n)) 1024 0
    s.h.mode ≠ .d → s.holds zd = true → opShape a.tag b.tag = some (t.kind, g) → a.tag ≠ 0 → b.tag ≠ 0 →
    depth ≤ 1024 → depth * t.rows ≤ a.count → depth * t.cols ≤ b.count →
    (mx = true → isNarrow a.tag = true ∧ s.holdsChain vsa 5 (t.rows * blocks) ∧ s.holdsChain vsb 5 (t.cols * blocks)) →
    s.calm → s.unclaimed (if mx then [va, vb, vsa, vsb] else [va, vb]) [] →
    completes (exec (if mx then .zopmx zd va vb xk rm vsa vsb else .zop zd va vb xk rm) s) fun u =>
      u.tile zd = r.1 ∧ u.h.vflags = s.h.vflags ||| r.2 ∧ RetiredV depth s u ∧ u.h.v = s.h.v ∧ u.core.links = s.core.links ∧ sameBytes s u
        ∧ (zd = 0 → u.tile 1 = s.tile 1) ∧ (zd ≠ 0 → u.tile 0 = s.tile 0)

/-! Key words. -/

/-- Table 05-6 (R102 to R120), the rows that end at once: `kacq` of a free region makes its entry, of a HOME one takes it, of one's own changes nothing (R109:
an acquire all the same), of one that another agent holds, that is orphaned or that finds no room answers 1, 5 or 3; `ksplit` and `kmerge` cut and join entries;
`kclean` clears POISON; `krecover` hands an ORPHANED region on or back. A row that changes an entry waits while it is in transit or an earlier request for it waits,
in the order of arrival (R111). What other nodes' controllers add is open (log 10).
Table 05-12 (R118): `kquery` changes no key and reports OWNER, SIZE, share count, POISON, STATE and the caller's right of the entry that
covers the address, or that there is none. What another node's controller answers for a region that it holds is its own but for the right and the size known here (log 10);
where that node is not reached the address does not translate (R113). -/
def Obligations.KeyringRows : Prop :=
  (∀ (s s1 : State) (xd xa xb xc : XReg) (asr : BitVec 2) (imm : BitVec 20) (r : Region) (d : Nat),
    let me := s1.h.agent
    let ctx := s1.h.kctx
    let at_ (t : State) (base size : Nat) : Option KeyEntry := t.entryOf ctx r.space base size
    let met := s1.overlapping ctx r.space r.base r.size
    let half := 2 ^ (r.size - 1)
    let row (i : Instr) (n : Nat) (P : State → Prop) : Prop := completes (exec i s) fun t => StatusResult xd n s1 t ∧ t.mem = s1.mem ∧ t.pend = s1.pend ∧ P t
    let anew (t : State) : Prop := ∀ k ∈ s1.slotsOfAgent ctx me, ∀ x ∈ t.early, x.hart ≠ k
    s.region xa xb asr imm = .ok (r, s1) → r.die = some d → (∀ w ∈ s1.keyQueue, w.ofHart s1.cur = false) →
    (∀ e, met = [e] → e.owner ≠ me → e.state = .owned → s1.elsewhere r ≠ 5 → row (.kacq xd xa xb asr imm) 1 fun t => t.keyring = s1.keyring)
    ∧ (∀ e, met = [e] → e.state = .orphaned → row (.kacq xd xa xb asr imm) 5 fun t => t.keyring = s1.keyring)
    ∧ (∀ e, met = [e] → e.base = r.base → e.size = r.size → e.state = .owned → e.owner = me →
        row (.kacq xd xa xb asr imm) 0 fun t => t.keyring = s1.keyring ∧ anew t)
    ∧ (met = [] → s1.elsewhere r ≠ 0 → row (.kacq xd xa xb asr imm) (s1.elsewhere r) fun t => t.keyring = s1.keyring)
    ∧ (met = [] → s1.elsewhere r = 0 → 32768 ≤ s1.ringUsed d → row (.kacq xd xa xb asr imm) 3 fun t => t.keyring = s1.keyring)
    ∧ (s1.requestHeld (s1.waiter r) ctx r = true → met = [] → s1.elsewhere r = 0 → s1.ringUsed d < 32768 →
        exec (.kacq xd xa xb asr imm) s = .next { s1 with keyQueue := s1.keyQueue ++ [s1.waiter r], h := { s1.h with wait := .retry false } })
    ∧ (s1.requestHeld (s1.waiter r) ctx r = false →
      (met = [] → s1.elsewhere r = 0 → s1.ringUsed d < 32768 →
        row (.kacq xd xa xb asr imm) 0 fun t => at_ t r.base r.size = some ⟨ctx, r.space, r.base, r.size, .owned, false, [], me, noAgent, d, false, noAgent⟩ ∧ anew t)
      ∧ (∀ e, met = [e] → e.base = r.base → e.size = r.size → e.state = .home →
        row (.kacq xd xa xb asr imm) 4 fun t => at_ t r.base r.size = some { e with state := .owned, owner := me, lender := noAgent } ∧ anew t)
      ∧ (∀ e, at_ s1 r.base r.size = some e → e.state = .owned → e.owner = me →
        row (.kclean xd xa xb asr imm) 0 fun t => at_ t r.base r.size = some { e with poison := false })
      ∧ (∀ e, at_ s1 r.base r.size = some e → e.state = .home → s1.h.mode = .s →
        row (.kclean xd xa xb asr imm) 0 fun t => at_ t r.base r.size = none)
      ∧ (∀ e s2 d2 f, s1.upperDie r = .ok (some d2, s2) → 16 < r.size → at_ s1 r.base r.size = some e → e.state = .owned → e.owner = me →
          s1.ringUsed d2 < 32768 → f = { e with base := r.base + half, size := r.size - 1, die := d2 } →
        row (.ksplit xd xa xb asr imm) 0 fun t => at_ t r.base (r.size - 1) = some { e with size := r.size - 1 } ∧ at_ t (r.base + half) (r.size - 1) = some f ∧ at_ t r.base r.size = none)
      ∧ (∀ l h s2 d2, s1.upperDie r = .ok (some d2, s2) → 16 < r.size → at_ s1 r.base (r.size - 1) = some l → at_ s1 (r.base + half) (r.size - 1) = some h →
          l.state = .owned → h.state = .owned → l.owner = me → h.owner = me → l.lender = h.lender →
        row (.kmerge xd xa xb asr imm) 0 fun t => at_ t r.base r.size = some { l with size := r.size, poison := l.poison || h.poison } ∧ at_ t (r.base + half) (r.size - 1) = none)
      ∧ (∀ e, at_ s1 r.base r.size = some e → s.h.mode = .s → e.state = .orphaned →
          let c := (s1.x xc).extractLsb' 0 32
          (c ≠ noAgent → s1.liveAgent ctx none c = true →
            row (.krecover xd xa xb xc asr imm) 0 fun t => at_ t r.base r.size = some { e with state := .owned, owner := c, lender := noAgent })
          ∧ (c = noAgent → row (.krecover xd xa xb xc asr imm) 0 fun t =>
              at_ t r.base r.size = if e.poison then some { e with state := .home, owner := noAgent, lender := noAgent } else none))))
  ∧ (∀ (s s1 : State) (xd xa : XReg) (asr : BitVec 2) (imm : BitVec 20) (die : Option Nat) (free : Bool),
    let base := (s.x xa + BitVec.ofInt 64 imm.toInt).toNat
    let space := s.h.space asr
    let me := s1.h.agent
    let here := s1.entryAt s1.h.kctx space base
    let there := s1.foreignEntry s1.h.acc space base
    let lost := ∃ b size r nd, there = some (b, size, r, nd) ∧ nd ∈ s1.unreachable
    let run (P : Word → Prop) : Prop := completes (exec (.kquery xd xa asr imm) s) fun t =>
      t.keyring = s1.keyring ∧ t.mem = s1.mem ∧ t.pend = s1.pend ∧ Retired s1 t ∧ OtherX xd s1 t ∧ (xd ≠ 0 → P (t.x xd))
    s.h.mode ≠ .d → space.toNat < 0xFF00 → s.homeDie space base = .ok (die, free, s1) →
    (∀ e, here = some e → e.size < 64 → e.shares.length < 64 → run fun w =>
      w.extractLsb' 32 32 = e.owner ∧ (w.extractLsb' 26 6).toNat = e.size ∧ (w.extractLsb' 20 6).toNat = e.shares.length ∧ w.getLsbD 19 = e.poison
        ∧ w.extractLsb' 17 2 = (match e.state with | .home => 0 | .owned => 1 | .shared => 2 | .orphaned => 3)
        ∧ (e.state = .owned → e.owner = me → w.extractLsb' 15 2 = 2) ∧ (e.state = .shared → e.owner = me ∨ me ∈ e.shares → w.extractLsb' 15 2 = 1)
        ∧ (¬ (e.state = .owned ∧ e.owner = me) → ¬ (e.state = .shared ∧ (e.owner = me ∨ me ∈ e.shares)) → w.extractLsb' 15 2 = 0) ∧ w.extractLsb' 0 15 = 0)
    ∧ (here = none → die.isSome = true → there = none → run fun w => w = 0xFFFF_FFFF_0000_0000)
    ∧ (here = none → ¬ lost → run fun w => w.extractLsb' 0 15 = 0)
    ∧ (here = none → ¬ lost → die.isSome = true → ∀ b size r nd, there = some (b, size, r, nd) → size < 64 → r < 4 → run fun w =>
      (w.extractLsb' 26 6).toNat = size ∧ (w.extractLsb' 15 2).toNat = r)
    ∧ (here = none → lost → s1.trapsToS 0x08 → completes (exec (.kquery xd xa asr imm) s) (TrapTaken 0x08 (BitVec.ofNat 64 base) s1)))

/-- R108, R111, R115 (Tables 05-6 and 05-8): a transfer that no access or command of the issuer holds back completes at once: the entry changes
hands and no other does; the issuer's key-cache entries and instruction lines of the region are dropped; the lines of its L1 that belong to the region
leave, written back but for `kdrop`, and for `kshare` stay clean. A transfer that must wait has its region in transit. Damaged lines are Table 18-1's. -/
def Obligations.KeyTransfersMoveOwnership : Prop :=
  ∀ (s s1 : State) (xd xa xb xc : XReg) (asr : BitVec 2) (imm : BitVec 20) (r : Region) (d : Nat) (e : KeyEntry),
    let me := s1.h.agent
    let ctx := s1.h.kctx
    let c := (s1.x xc).extractLsb' 0 32
    let region (l : L1Line) : Bool := l.ctx == ctx && l.space == r.space && inRegion r.base r.size l.off
    let swept (back keep : Bool) (t : State) : Prop :=
      t.core.l1 = (if keep then s1.core.l1.map fun l => if region l then { l with dirty := false } else l else s1.core.l1.filter fun l => !region l)
      ∧ t.core.keys = s1.core.keys.filter (fun k => !(k.ctx == ctx && k.space == r.space && meetsRegion r.base r.size k.base (2 ^ k.size) && k.agent == me))
      ∧ t.core.icache = s1.core.icache.filter (fun l => !(l.ctx == ctx && r.space == 0 && inRegion r.base r.size l.off))
      ∧ (back = false → t.mem = s1.mem)
      ∧ (back = true → s1.frames = [] → s1.poison = [] → s1.mem.wf = true → ∀ l ∈ s1.core.l1, region l = true → l.dirty = true → l.node = none →
          (∀ o ∈ s1.core.l1, o = l ∨ o.key + 64 ≤ l.key ∨ l.key + 64 ≤ o.key) → t.homeRead l.key 64 = lineBytes l.data 0 64)
    let moves (i : Instr) (back keep : Bool) (new : Option KeyEntry) : Prop :=
      (s1.keyWaits r.space r.base r.size = false → completes (exec i s) fun t =>
        StatusResult xd 0 s1 t ∧ t.entryOf ctx r.space r.base r.size = new.map (fun n => { n with transit := false, issuer := noAgent })
          ∧ (∀ ctx' space base size, ¬ (ctx' = ctx ∧ space = r.space ∧ base = r.base ∧ size = r.size) →
              t.entryOf ctx' space base size = s1.entryOf ctx' space base size)
          ∧ swept back keep t)
      ∧ (s1.keyWaits r.space r.base r.size = true → completes (exec i s) fun t =>
        t.h = { s1.h with wait := .key r.space (BitVec.ofNat 64 r.base) r.size } ∧ t.core = s1.core ∧ t.mem = s1.mem
          ∧ t.entryOf ctx r.space r.base r.size = some { e with transit := true, issuer := me })
    s.region xa xb asr imm = .ok (r, s1) → r.die = some d → s1.entryOf ctx r.space r.base r.size = some e → s1.keyQueue = [] →
    s1.requestHeld (s1.waiter r) ctx r = false → (∀ l ∈ s1.core.l1, l.dirty = true → l.bad = false) →
    (e.state = .owned → e.owner = me → e.lender = noAgent → c ≠ me → c ≠ noAgent → s1.liveAgent ctx (some s1.h.taskid) c = true →
      moves (.klend xd xa xb xc asr imm) true false (some { e with owner := c, lender := me }))
    ∧ (e.state = .owned ∨ e.state = .shared → e.owner = me → c ≠ me → c ≠ noAgent → s1.liveAgent ctx (some s1.h.taskid) c = true →
        c ∉ e.shares → e.shares.length < 63 → s1.sharesUsed e.die < 16384 →
      moves (.kshare xd xa xb xc asr imm) true true (some { e with state := .shared, shares := e.shares ++ [c] }))
    ∧ (e.state = .owned → e.owner = me →
      let new := if e.lender ≠ noAgent then some { e with owner := e.lender, lender := noAgent, shares := [] }
        else if e.poison then some { e with state := .home, owner := noAgent, shares := [] } else none
      moves (.kret xd xa xb asr imm) true false new ∧ moves (.kdrop xd xa xb asr imm) false false new)
    ∧ (e.state = .shared → me ∈ e.shares →
      let l := e.shares.filter (· ≠ me)
      moves (.kunshare xd xa xb asr imm) true false (some { e with shares := l, state := if l = [] then .owned else .shared }))

/-! Atomics and ordering. -/

/-- R290, R291 (Tables 14-11, 05-3): each atomic whose access is permitted and whose release is over delivers the old value, zero-extended or (`amin`,
`amax`) sign-extended, and makes the new one of it and the low bits of xb. One that is refused traps with cause 0x08, 0x0A or 0x09 and its offset as tval, one
of a poisoned location with 0x0B, where tval is the offset of the unit's first byte (log 52): nothing is written and xd stands. -/
def Obligations.AtomicTable : Prop :=
  ∀ (s s1 : State) (xd xa xb xc : XReg) (rm : BitVec 3) (asr : BitVec 2) (scope ord : BitVec 3) (w : Bool) (off : BitVec 19) (pl : Place),
    let n := if w then 8 else 4
    let a := (s.x xa + BitVec.ofInt 64 off.toInt).toNat
    let space := s.h.space asr
    let v := (s.x xb).toNat % 2 ^ (8 * n)
    let c := (s.x xc).toNat % 2 ^ (8 * n)
    let int (k : Nat) : Int := intOf (if n = 8 then 4 else 3) k
    let f : Fmt := if n = 8 then fmtF64 else fmtF32
    let op (i : Instr) (k : AtomOp) (v c : Nat) (new : Nat → Option Nat) (gives : Nat → State → State → Prop) : Prop :=
      (∀ m, atomNew k n v c m = new m)
        ∧ ((k ≠ .ld → (ord = 2 ∨ ord = 3 ∨ ord = 4) → s.outstanding false scope = false ∧ s.outstanding true scope = false) →
          ∀ m s2, s1.atomAt k space a n pl v c scope ord = .ok (m, s2) → completes (exec i s) (gives m s2))
    let old (m : Nat) (s2 : State) : State → Prop := XResult xd (BitVec.ofNat 64 m) s2 s2
    let oldS (m : Nat) (s2 : State) : State → Prop := XResult xd (signLoad n m) s2 s2
    let all : List (Instr × Kind) := (.ald xd xa asr scope ord w off, .aread) :: [.aadd xd xa xb asr scope ord w off, .amin xd xa xb asr scope ord w off,
      .amax xd xa xb asr scope ord w off, .aminn xd xa xb asr scope ord w off, .amaxn xd xa xb asr scope ord w off, .aand xd xa xb asr scope ord w off,
      .aor xd xa xb asr scope ord w off, .axor xd xa xb asr scope ord w off, .aswap xd xa xb asr scope ord w off, .acas xd xa xb xc asr scope ord w off,
      .afadd xd xa xb rm asr scope ord w off, .afmax xd xa xb asr scope ord w off, .ast xa xb asr scope ord w off].map fun i => (i, .atomic)
    (∀ q ∈ all, (∀ cause, ScalarRefused s space a n q.2 false cause → s.trapsToS cause → completes (exec q.1 s) (TrapTaken cause (BitVec.ofNat 64 a) s))
      ∧ (∀ p, s.scalarPlace space a n q.2 false = .ok (pl, s1) → pl.node = none → s1.pend = [] → s1.core.l1 = [] →
        s.outstanding false scope = false → s.outstanding true scope = false → s1.poisonIn pl.key n = some p → s.trapsToS 0x0B →
        completes (exec q.1 s) (TrapTaken 0x0B (BitVec.ofInt 64 ((a : Int) + p - pl.key)) s)))
    ∧ (s.scalarPlace space a n .atomic false = .ok (pl, s1) →
      op (.aadd xd xa xb asr scope ord w off) .add v 0 (fun m => some ((m + v) % 2 ^ (8 * n))) old
      ∧ op (.amin xd xa xb asr scope ord w off) .min v 0 (fun m => some (if int v < int m then v else m)) oldS
      ∧ op (.amax xd xa xb asr scope ord w off) .max v 0 (fun m => some (if int m < int v then v else m)) oldS
      ∧ op (.aminn xd xa xb asr scope ord w off) .minn v 0 (fun m => some (min m v)) old
      ∧ op (.amaxn xd xa xb asr scope ord w off) .maxn v 0 (fun m => some (max m v)) old
      ∧ op (.aand xd xa xb asr scope ord w off) .and v 0 (fun m => some (m &&& v)) old
      ∧ op (.aor xd xa xb asr scope ord w off) .or v 0 (fun m => some (m ||| v)) old
      ∧ op (.axor xd xa xb asr scope ord w off) .xor v 0 (fun m => some (m ^^^ v)) old
      ∧ op (.aswap xd xa xb asr scope ord w off) .swap v 0 (fun _ => some v) old
      ∧ op (.acas xd xa xb xc asr scope ord w off) .cas v c (fun m => if m = c then some v else none) old
      ∧ op (.afadd xd xa xb rm asr scope ord w off) (.fadd rm) v 0 (fun m => some (f.add rm m v).1) old
      ∧ op (.afmax xd xa xb asr scope ord w off) .fmax v 0 (fun m => some (f.minmax true m v).1) old
      ∧ op (.ast xa xb asr scope ord w off) .st v 0 (fun _ => some v) fun _ s2 => PlainResult s2 s2)
    ∧ (s.scalarPlace space a n .aread false = .ok (pl, s1) → op (.ald xd xa asr scope ord w off) .ld 0 0 (fun _ => none) old)

/-- R280, R286, R291, R3: an atomic is one step at the home of its location: the value it delivers is the location's bytes, and the new ones stand there at once;
every other byte reads as before. One that makes no new value, `ald` and an `acas` that does not match, changes no byte. An `ast` that is no release is handed off like
a store instead, and may be performed after later accesses of its hart (R282, log 23). One that releases leaves its release at the location; one that acquires with no
release read leaves its hart no value read ahead of program order.
R296: `await` completes with the value of its location when that differs from the low bits of xb, and acquires under `acq` and `sc`; else it
waits, and changes no register then. -/
def Obligations.AtomicsAndAwaitActAtHome : Prop :=
  (∀ (s : State) (op : AtomOp) (space : BitVec 16) (off n : Nat) (pl : Place) (v c : Nat) (scope ord : BitVec 3),
    let m := ofBytes (s.homeRead pl.key n)
    let handed := op = .st ∧ ¬ (ord = 2 ∨ ord = 3 ∨ ord = 4)
    pl.node = none → s.frames = [] → s.poison = [] → s.pend = [] → s.core.l1 = [] → s.mem.wf = true → (op = .ld → ord ≠ 4 → ∀ e ∈ s.early, e.hart ≠ s.cur) →
    ∃ t, s.atomAt op space off n pl v c scope ord = .ok (m, t) ∧ t.h = s.h
      ∧ (atomNew op n v c m = none → sameBytes s t ∧ t.pend = [] ∧ t.rels = s.rels)
      ∧ (∀ x, atomNew op n v c m = some x →
        (handed → t.pend = [⟨s.nextId, s.cur, false, s.h.agent, s.h.kctx, space, off, pl.key, none, decide (s.h.mode ≠ .s) && !pl.inCore && !pl.at_, none, .ast, toBytes n x⟩]
          ∧ sameBytes s t)
        ∧ (¬ handed → t.pend = [] ∧ t.homeRead pl.key n = toBytes n x ∧ ∀ k, k < pl.key ∨ pl.key + n ≤ k → t.homeByte k = s.homeByte k)
        ∧ ((ord = 2 ∨ ord = 3 ∨ ord = 4) → ⟨pl.key, n, s.h.kctx, s.h.agent, scope⟩ ∈ t.rels))
      ∧ (op ≠ .st → (ord = 1 ∨ ord = 3 ∨ ord = 4) → s.rels = [] → ∀ e ∈ t.early, e.hart ≠ s.cur))
  ∧ (∀ (s s1 s2 : State) (xd xa xb xc : XReg) (asr : BitVec 2) (scope ord : BitVec 3) (w : Bool) (off : BitVec 19) (pl : Place) (m : Nat) (rels : List Rel)
    (e : Option Early),
    let n := if w then 8 else 4
    let a := (s.x xa + BitVec.ofInt 64 off.toInt).toNat
    s.h.mode ≠ .d → s.scalarPlace (s.h.space asr) a n .aread false = .ok (pl, s1) →
    s1.atomRead (s.h.space asr) a n pl (ord == 4) = .ok (m, rels, e, s2) →
    (m ≠ (s.x xb).toNat % 2 ^ (8 * n) →
      let u := if ord = 1 ∨ ord = 3 ∨ ord = 4 then s2.acquire scope rels e else s2
      completes (exec (.await xd xa xb xc asr scope ord w off) s) (XResult xd (BitVec.ofNat 64 m) u u))
    ∧ (m = (s.x xb).toNat % 2 ^ (8 * n) → completes (exec (.await xd xa xb xc asr scope ord w off) s) fun t =>
        t.h.st = .waiting ∧ t.h.pc = s2.h.pc ∧ t.h.xu = s2.h.xu ∧ t.h.xs = s2.h.xs
          ∧ t.h.wait = .await (if s.x xc = 0 then none else some (s2.cycle.toNat + (s.x xc).toNat))))

/-- R292 (Table 14-2): a fence completes when the accesses it names are performed, and else waits for them; `fence.sv` writes back the L1's
dirty lines first, `fence.all` also drops the core's instruction lines. After its end the accesses that it names as later ones are made anew.
R56, R93 (Table 04-9): `tlbinv` of KIND 3 in mode S empties the TLB and the instruction lines of the core, and the walker caches of its
cluster; of KIND 0 it drops those of the selected page and keeps all others. It completes when no write handed off before it by the core's harts is still to be
performed. That REACH 1 takes in the walker of the cluster is the model's reading (log 20). -/
def Obligations.FencesAndTlbinvOrderAccesses : Prop :=
  (∀ (s : State) (scope : BitVec 3),
    let none_ (vec : Bool) : Prop := ∀ p ∈ s.pend, ¬ (p.hart = s.cur ∧ p.vec = vec)
    s.h.mode ≠ .d →
    (none_ true → completes (exec (.fenceVs scope) s) (PlainResult s (s.dropEarly s.cur fun e => if e.vec then false else true))
        ∧ completes (exec (.fenceVv scope) s) (PlainResult s (s.dropEarly s.cur fun e => if e.vec then true else false)))
    ∧ ((∃ p ∈ s.pend, p.hart = s.cur ∧ p.vec = true ∧ p.node = none) →
        exec (.fenceVs scope) s = .next { s with h := { s.h with wait := .fence false true false (scope == 4) true false } })
    ∧ (none_ false → completes (exec (.fenceSv 0 0 0 scope 0) s) fun t =>
        Retired s t ∧ (∀ l ∈ t.core.l1, l.dirty = false) ∧ ((∀ l ∈ s.core.l1, l.dirty = true → l.bad = false) → t.core.l1.length = s.core.l1.length) ∧ t.h.xu = s.h.xu ∧ t.h.xs = s.h.xs ∧ t.h.v = s.h.v
          ∧ ∀ e ∈ t.early, e.hart = s.cur → e.vec = false)
    ∧ (none_ false → none_ true → s.h.cmds = [] → completes (exec (.fenceAll 0 0 0 scope 0) s) fun t =>
        Retired s t ∧ (∀ l ∈ t.core.l1, l.dirty = false) ∧ t.core.icache = [] ∧ t.h.xu = s.h.xu ∧ t.h.xs = s.h.xs ∧ t.h.v = s.h.v
          ∧ ∀ e ∈ t.early, e.hart ≠ s.cur))
  ∧ (∀ (s : State) (xa xb xc : XReg),
    let plain (t : State) : Prop := Retired s t ∧ t.core.l1 = s.core.l1 ∧ sameBytes s t ∧ t.h.xu = s.h.xu ∧ t.h.xs = s.h.xs ∧ t.h.v = s.h.v
    let at_ := (s.x xb).toNat
    s.h.mode = .s → (∀ p ∈ s.pend, p.hart / 8 ≠ s.coreNo) →
    (s.x xc = 0xB → completes (exec (.tlbinv xa xb xc) s) fun t =>
      plain t ∧ t.core.tlb = [] ∧ t.core.icache = [] ∧ (∀ p ∈ t.walkers, p.1 = s.coreNo / 8 → p.2 = []))
    ∧ (s.x xc = 0x8 → completes (exec (.tlbinv xa xb xc) s) fun t => plain t
      ∧ (∀ e, e ∈ t.core.tlb ↔ e ∈ s.core.tlb ∧ ¬ (e.ctx = s.h.kctx ∧ e.space = (s.x xa).extractLsb' 0 16 ∧ at_ / e.size = e.page))
      ∧ (∀ l, l ∈ t.core.icache ↔ l ∈ s.core.icache ∧ ¬ (l.ctx = s.h.kctx ∧ (s.x xa).extractLsb' 0 16 = 0 ∧ l.size ≠ 0 ∧ l.off / l.size = at_ / l.size))))

/-- R293, R294: arriving and waiting at the gang's barrier. The last arrival of a phase completes it and passes at once with the new PHASE; an
earlier one waits in `gbar`, goes on after `gbarin`, and counts. -/
def Obligations.GangBarrier : Prop :=
  ∀ (s : State) (g : Gang) (xd : XReg),
    s.h.mode ≠ .d → s.gangOf s.h = some g → s.gangs.find? (fun x => x.id == g.id) = some g → s.outstanding false 2 = false → s.outstanding true 2 = false →
    let expl := if g.count = 0 then s.h.gbexp.toNat else g.expl
    let last := g.count + 1 = expl
    let pending := s.h.myph = g.phase + 1
    (¬ pending → last → s.h.wait ≠ .barrier → completes (exec (.gbar xd) s) fun t =>
      StatusResult xd (g.phase + 1).toNat { s with h := { s.h with myph := g.phase + 1 } } t ∧ sameBytes s t ∧ t.gangOf t.h = some { g with expl := expl, count := 0, phase := g.phase + 1 })
    ∧ (¬ pending → ¬ last → s.h.wait ≠ .barrier → completes (exec (.gbar xd) s) fun t =>
      t.h = { s.h with myph := g.phase + 1, st := .waiting, wait := .barrier } ∧ sameBytes s t ∧ t.gangOf t.h = some { g with expl := expl, count := g.count + 1 })
    ∧ (¬ pending → completes (exec .gbarin s) fun t =>
      Retired s t ∧ t.h = { s.h.withScalar t.h with myph := g.phase + 1 } ∧ t.h.xu = s.h.xu ∧ t.h.xs = s.h.xs ∧ sameBytes s t
        ∧ t.gangOf t.h = some (if last then { g with expl := expl, count := 0, phase := g.phase + 1 } else { g with expl := expl, count := g.count + 1 }))
    ∧ (¬ pending → completes (exec (.gbarwt xd) s) (XResult xd (zext g.phase) s (s.dropEarly s.cur fun _ => true)))
    ∧ (pending → exec (.gbarwt xd) s = .next { s with h := { s.h with st := .waiting, wait := .barrier } })

/-! Commands, tickets, harts and traps. -/

/-- R136, R138, R139, R142, R145 (Tables 07-2 to 07-4): `ecopy`, `ecast` and `ewin` whose operands pass the checks take the lowest free ticket, clear
their mask and append a command with the operands of the control word and the register group; with no ticket free xd is all ones and
nothing is issued. A source base xa + IMM20 that is no 64-bit offset traps with cause 0x08. That each row is judged by itself, so that rows may lie in different
local stores, and what tval holds, are the model's choice (log 56).
R147: `ecopyc` releases the old chain, makes a chain of vl elements, takes a ticket and appends its command. That an empty chain takes no link, and that addresses are
sums modulo 2^64, is the model's choice (log 57). -/
def Obligations.CopyCommandsIssue : Prop :=
  (∀ (s : State) (xd xa xb xc : XReg) (asr : BitVec 2) (imm : BitVec 20),
    let w := s.x xb
    let g (i : Nat) : Word := s.x (xc + BitVec.ofNat 5 i)
    let issued (s t : State) : State := { s with h := { s.h with m := t.h.m, tickets := t.h.tickets, cmds := t.h.cmds } }
    let c (kind : BitVec 4) (n : Nat) : Command := { Command.blank n kind with
      since := s.nextId, bypass := decide (s.h.mode = .s), bare := decide (s.h.mode = .s) && s.h.bare, ctx := s.h.kctx, ptbase := s.h.ptbase
      sspace := s.h.space asr, src := s.x xa + sext imm, dspace := if kind = 2 then 0xFFFF else s.h.space (w.extractLsb' 62 2), dst := g 0
      l0 := ((g 1).extractLsb' 0 20).toNat, n1 := ((g 1).extractLsb' 20 20).toNat, n2 := ((g 1).extractLsb' 40 20).toNat
      sstr1 := g 2, sstr2 := g 3, dstr1 := g 4, dstr2 := g 5, cm := w.extractLsb' 59 3, bar := w.getLsbD 58, cmask := w.extractLsb' 50 8
      fill := w.extractLsb' 40 8, padl := (w.extractLsb' 20 20).toNat, srclen := (w.extractLsb' 0 20).toNat }
    ∀ p ∈ ([(.ecopy xd xa xb xc asr imm, 0), (.ecast xd xa xb xc asr imm, 2), (.ewin xd xa xb xc asr imm, 3)] : List (Instr × BitVec 4)),
      s.CopyReady (c p.2 0) w (g 1) →
      let base : Int := ((s.x xa).toNat : Int) + imm.toInt
      (base < 0 ∨ 2 ^ 64 ≤ base → s.trapsToS 0x08 → completes (exec p.1 s) (TrapTaken 0x08 (s.x xa + sext imm) s))
      ∧ (0 ≤ base → base < 2 ^ 64 → (∀ n, s.h.freeTicket = some n → s.unclaimed [] [(c p.2 0).cm] →
        completes (exec p.1 s) fun t => VStatusResult xd (BitVec.ofNat 64 n) (issued s t) t ∧ IssuedCommand n (c p.2 n) s t
          ∧ ∀ r, t.h.mask r = if r = (c p.2 0).cm ∧ r ≠ 0 then 0 else s.h.mask r)
      ∧ (s.h.freeTicket = none →
        completes (exec p.1 s) fun t => VStatusResult xd (BitVec.allOnes 64) s t ∧ sameBytes s t)))
  ∧ (∀ (s : State) (vd : VReg) (xa xb xl : XReg) (asr : BitVec 2) (tag : Tag) (imm : BitVec 16) (k : Nat),
    let n := (s.x xl).toNat
    let w := (tagWidth tag + 7) / 8
    let base := s.x xa + sext imm
    let step : Word := if s.x xb = 0 then BitVec.ofNat 64 w else s.x xb
    let at_ (j : Nat) : Nat := if tag = 9 then (base + BitVec.ofNat 64 (j / 2)).toNat else (base + BitVec.ofNat 64 j * step).toNat
    s.h.mode ≠ .d → tag ≠ 0 → n ≤ s.vlmax → ((s.h.space asr).toNat < 0xFF00 ∨ s.h.space asr = 0xFFFF) →
    (s.h.space asr = 0xFFFF → ∀ j, j < n → s.storeExtent (at_ j) w ≠ some 0x08) →
    base.toNat % w = 0 → (s.x xb).toNat % w = 0 → (tag = 9 → s.x xb = 0) → s.h.freeTicket = some k → s.unclaimed [vd] [] →
    s.core.tidy = true → s.roomFor (linksFor tag n) →
    completes (exec (.ecopyc vd xa xb xl asr tag imm) s) fun t =>
      RetiredV n s t ∧ (t.h.chain vd).tag = tag ∧ (t.h.chain vd).count = n ∧ (∀ r, r ≠ vd → t.h.chain r = s.h.chain r)
        ∧ t.h.vused = s.h.vused + linksFor tag n ∧ t.h.xu = s.h.xu ∧ t.h.xs = s.h.xs ∧ t.h.m = s.h.m
        ∧ IssuedCommand k { Command.blank k 1 with
            since := s.nextId, bypass := decide (s.h.mode = .s), bare := decide (s.h.mode = .s) && s.h.bare, ctx := s.h.kctx, ptbase := s.h.ptbase
            sspace := s.h.space asr, src := base, sstr1 := step, vd := vd, chain := t.h.chain vd, tag := tag, count := n } s t)

/-- R149 to R151 (Table 07-6): `ewait` waits while a named ticket is BUSY, unless bit 16 asks it not to; with none BUSY and none FAULTED it
returns the DONE ones and frees them; the lowest FAULTED one traps with cause 0x30 and frees none. While it waits, a member of its convoy that an
`ecopyc` feeds goes on (R148, R150). `estat` reports a ticket, its fault's offset, or its report while it frees it. -/
def Obligations.TicketReports : Prop :=
  ∀ (s : State) (xd xa : XReg),
    let m := s.x xa
    let in_ (st : TicketState) (k : Nat) : Prop := k < 16 ∧ m.getLsbD k = true ∧ (s.h.ticket k).state = st
    let k := m.toNat
    let code : TicketState → Nat | .free => 0 | .busy => 1 | .done => 2 | .faulted => 3
    let but (t : State) : State := { s with h := { s.h with tickets := t.h.tickets } }
    s.h.mode ≠ .d →
    ((m.getLsbD 16 = true ∨ ∀ k, ¬ in_ .busy k) → (∀ k, ¬ in_ .faulted k) →
      completes (exec (.ewait xd xa) s) fun t => ∃ r : Word, VStatusResult xd r (but t) t ∧ sameBytes s t ∧ (∀ k, k < 64 → (r.getLsbD k = true ↔ in_ .done k))
        ∧ (∀ k, k < 16 → (in_ .done k → t.h.ticket k = Ticket.empty) ∧ (¬ in_ .done k → t.h.ticket k = s.h.ticket k)))
    ∧ (∀ j, (m.getLsbD 16 = true ∨ ∀ k, ¬ in_ .busy k) → in_ .faulted j → (∀ k, k < j → ¬ in_ .faulted k) → s.trapsToS 0x30 →
      completes (exec (.ewait xd xa) s) (TrapTaken 0x30 (BitVec.ofNat 64 j) s))
    ∧ (m.getLsbD 16 = false → (∃ k, in_ .busy k) →
      ((∀ e ∈ s.cv.entries, e.fill = false) → exec (.ewait xd xa) s = .next { s with h := { s.h with wait := .retry false } })
      ∧ ((∃ e ∈ s.cv.entries, e.fill = true) → ∃ e ∈ s.cv.entries, e.fill = true ∧
        exec (.ewait xd xa) s = .next { s with h := { s.h with pc := s.cv.hinge + 8 * BitVec.ofNat 64 e.word, wait := .none } }))
    ∧ (k < 16 → (s.h.ticket k).target < 8 → (s.h.ticket k).rows < 2 ^ 32 →
      let u := s.h.ticket k
      let frees := u.state = .done ∨ u.state = .faulted
      let reports (r : Word) : Prop := r.extractLsb' 62 2 = BitVec.ofNat 2 (code u.state) ∧ r.extractLsb' 48 8 = u.cause ∧ r.extractLsb' 44 4 = u.kind
        ∧ r.extractLsb' 32 3 = BitVec.ofNat 3 u.target ∧ r.extractLsb' 0 32 = BitVec.ofNat 32 u.rows
      (completes (exec (.estat xd xa 0) s) fun t => ∃ r, VStatusResult xd r s t ∧ reports r ∧ sameBytes s t)
      ∧ (completes (exec (.estat xd xa 1) s) fun t => VStatusResult xd (if u.state = .faulted then u.offset else 0) s t ∧ sameBytes s t)
      ∧ (completes (exec (.estat xd xa 2) s) fun t => ∃ r, VStatusResult xd r (but t) t ∧ reports r ∧ sameBytes s t
          ∧ t.h.ticket k = (if frees then Ticket.empty else u) ∧ ∀ j, j < 16 → j ≠ k → t.h.ticket j = s.h.ticket j))

/-- R121 to R130 (Tables 06-1, 06-2): `qsel`, `qtopk` and `qcount` whose operands pass the checks take a ticket and append a command with the
operands of the predicate word and the register group; with no ticket free xd is all ones. -/
def Obligations.SelectionCommandsIssue : Prop :=
  ∀ (s : State) (xd xa xb xc : XReg) (asr : BitVec 2) (imm : BitVec 20),
    let w := s.x xb
    let g (i : Nat) : Word := s.x (xc + BitVec.ofNat 5 i)
    let tag : Tag := w.extractLsb' 36 4
    let base := s.x xa + sext imm
    let count := (w.extractLsb' 0 32).toNat
    let limit := (g 1).toNat
    ∀ p ∈ ([(.qsel xd xa xb xc asr imm, 8), (.qtopk xd xa xb xc asr imm, 9), (.qcount xd xa xb xc asr imm, 10)] : List (Instr × BitVec 4)),
      s.h.mode ≠ .d → w.extractLsb' 44 20 = 0 → w.extractLsb' 32 4 = 0 → tag ≠ 0 → (w.extractLsb' 40 4).toNat < 10 →
      (p.2 = 9 → tagWidth tag < 64 ∧ 1 ≤ limit ∧ limit ≤ 4096) → (p.2 = 8 → limit ≤ 65536) → (s.h.space asr).toNat < 0xFF00 →
      (8 ≤ tagWidth tag → base.toNat % (tagWidth tag / 8) = 0) → base.toNat + (count * tagWidth tag + 7) / 8 ≤ 2 ^ 64 → (g 0).toNat % 8 = 0 →
      (g 0).toNat + 8 + 8 * (if p.2 = 10 then 0 else limit) ≤ 0x20_0000 →
      (∀ n, s.h.freeTicket = some n → (∀ st, st < 12 → (s.engineQueue st).length < 32) →
        completes (exec p.1 s) fun t => VStatusResult xd (BitVec.ofNat 64 n) { s with h := { s.h with tickets := t.h.tickets, cmds := t.h.cmds } } t
          ∧ IssuedCommand n { Command.blank n p.2 with
              since := s.nextId, bypass := decide (s.h.mode = .s), bare := decide (s.h.mode = .s) && s.h.bare, ctx := s.h.kctx, ptbase := s.h.ptbase
              sspace := s.h.space asr, src := base, dst := g 0, tag := tag, pred := w.extractLsb' 40 4, count := count, limit := limit
              opa := g 2, opb := g 3 } s t)
      ∧ (s.h.freeTicket = none → completes (exec p.1 s) fun t => VStatusResult xd (BitVec.allOnes 64) s t ∧ sameBytes s t)

/-- R331 to R334: `setvl` ends with a grant above 0 and the smaller of xa and VLMAX in xd, or waits, and takes no group of another hart; the grant is the
smaller of the request and the hart's entitlement (R323), as far as its groups and the free ones reach;
alone on its core a hart is granted all that it asks for. `vrel` gives its groups up, and they are granted to the harts that wait at `setvl`, each the
smaller of what it asked for and its entitlement (R323) as far as they reach: none stays free while a hart waits. `yield` waits, and `exit` begins the exit, the lines that its
agent has written going back to memory first (log 75). -/
def Obligations.LaneGrantsYieldAndExit : Prop :=
  ∀ (s : State) (xd xa xb : XReg),
    let r := (s.x xb).toNat
    let want := if r = 0 then s.h.req else r
    let n := ((s.x xa).extractLsb' 0 20).toNat
    let others (t : State) : Prop := (∀ k, k ≠ s.cur → (∀ g ∈ s.lanesOf k, g ∈ t.lanesOf k) ∧ (s.claims k = false → t.lanesOf k = s.lanesOf k)) ∧ t.mem = s.mem ∧ t.pend = s.pend
    let but (t : State) : State := { s with h := { s.h with req := t.h.req, debt := t.h.debt } }
    s.h.mode ≠ .d →
    (r ≤ 8 → completes (exec (.setvl xd xa xb) s) fun t => others t ∧
      ((t.h.st = .waiting ∧ t.h.wait = .retry true ∧ t.h.pc = s.h.pc ∧ t.vgrant = 0)
        ∨ (0 < t.vgrant ∧ StatusResult xd (min (s.x xa).toNat (1024 * t.vgrant)) (but t) t)))
    ∧ (r ≤ 8 → s.h.st ≠ .free →
        let ent := ({ s with h := { s.h with req := want } }).entOf s.cur
        let n := min (min want ent) ((s.lanesOf s.cur).length + s.core.freeLanes.length)
        0 < n → completes (exec (.setvl xd xa xb) s) fun t => t.vgrant = n ∧ StatusResult xd (min (s.x xa).toNat (1024 * n)) (but t) t)
    ∧ (r ≤ 8 → 0 < want → s.h.st ≠ .free → (∀ i, i < 8 → i ≠ s.slotNo → (s.hartAt (8 * s.coreNo + i)).st = .free) →
        (∀ g : Fin 8, s.core.lanes[g] = none ∨ s.core.lanes[g] = some s.slotNo) →
      completes (exec (.setvl xd xa xb) s) fun t => t.vgrant = min want 8 ∧ StatusResult xd (min (s.x xa).toNat (1024 * min want 8)) (but t) t)
    ∧ (s.h.st = .running → completes (exec .vrel s) fun t =>
        Retired s t ∧ t.lanesOf s.cur = [] ∧ others t ∧ t.h = (but t).h.withScalar t.h ∧ t.h.xu = s.h.xu ∧ t.h.xs = s.h.xs ∧ t.h.req = s.h.req
        ∧ ∀ k, k / 8 = s.coreNo → s.claims k = true → 0 < (s.hartAt k).req →
            (t.lanesOf k = [] → t.core.freeLanes = []) ∧ (t.lanesOf k).length ≤ min (s.hartAt k).req (s.entOf k)
            ∧ ((∀ o, o / 8 = s.coreNo → o ≠ k → s.claims o = false) →
                (t.lanesOf k).length = min (min (s.hartAt k).req (s.entOf k)) (s.core.freeLanes.length + (s.lanesOf s.cur).length)))
    ∧ (n = 0 → completes (exec (.yield xa) s) (PlainResult s { s with h := { s.h with lastIssue := -(s.tick : Int) - 1 } }))
    ∧ (n ≠ 0 → s.h.wait = .none → (s.h.hip = true ∨ s.h.tip = true → completes (exec (.yield xa) s) (PlainResult s s))
      ∧ (s.h.hip = false → s.h.tip = false →
        exec (.yield xa) s = .next { s with h := { s.h with st := .waiting, wait := .yield (s.cycle.toNat + n) } }))
    ∧ (s.h.wait = .none → (∀ w ∈ s.keyQueue, w.ofHart s.cur = false) →
      let left (h : Hart) : Hart := { h with st := .exiting, wait := .exit ((s.x xa).extractLsb' 0 32), convoy := none, suspend := false }
      let mine (l : L1Line) : Prop := l.ctx = s.h.kctx ∧ l.agent = s.h.agent
      ((∀ l ∈ s.core.l1, mine l → l.dirty = false) → exec (.exit xa) s = .next { s with h := left s.h })
      ∧ completes (exec (.exit xa) s) fun t => t.h = left { s.h with mcheck := t.h.mcheck } ∧ (∀ l ∈ t.core.l1, mine l → l.dirty = false)
          ∧ ((∀ l ∈ s.core.l1, l.bad = false) → t.h.mcheck = s.h.mcheck) ∧ t.pend = s.pend ∧ t.keyring = s.keyring)

/-- R335: `launch` puts the 128 bytes it has read into the next slot of a queue that takes device launches of the hart's context, and moves
TAIL; a queue that does not, or is full, is left as it is. -/
def Obligations.LaunchPushesAPacket : Prop :=
  ∀ (s s1 : State) (xd xa xb : XReg) (asr : BitVec 2) (imm : BitVec 20) (bytes : List Byte) (k : Nat),
    let q := (s.x xb).toNat
    let a := (s.x xa + sext imm).toNat
    let d := s1.queue q
    let mine := d.en = true ∧ d.devl = true ∧ d.owner = s1.h.kctx ∧ ofBytes bytes / 2 ^ 64 % 2 ^ 16 = d.owner.toNat
    let log := min d.log2.toNat 12
    let held := (d.tail - d.head).toNat
    s.h.mode ≠ .d → q < 64 → a % 8 = 0 → ((s.packetCheck { s.h.acc with bypass := true } (s.h.space asr) (· == 0x09) a 16).bind fun t =>
      t.packetCheck t.h.acc (s.h.space asr) (fun _ => false) a 16).bind (fun t => t.readPacket (s.h.space asr) a 16) = .ok (bytes, s1) →
    (mine → held < 2 ^ log → (∀ p ∈ s1.pend, p.hart ≠ s1.cur) →
      completes (exec (.launch xd xa xb asr imm) s) fun t =>
        StatusResult xd 0 s1 t ∧ t.queue q = { d with tail := d.tail + 1 } ∧ (∀ j, j ≠ q → t.queue j = s1.queue j)
          ∧ (physKey (d.base.toNat * 128 + d.tail.toNat % 2 ^ log * 128) = some k → s1.frames = [] → s1.poison = [] → s1.mem.wf = true →
              t.homeRead k 128 = bytes ∧ ∀ j, j < k ∨ k + 128 ≤ j → t.homeByte j = s1.homeByte j))
    ∧ (¬ mine → completes (exec (.launch xd xa xb asr imm) s) fun t => StatusResult xd 2 s1 t ∧ t.queues = s1.queues ∧ t.mem = s1.mem)
    ∧ (mine → 2 ^ log ≤ held → completes (exec (.launch xd xa xb asr imm) s) fun t => StatusResult xd 1 s1 t ∧ t.queues = s1.queues ∧ t.mem = s1.mem)

/-- R341, R353: `ecall` and `ebreak` complete and trap: mode S is entered at `tvec`, with cause, tval, the word's address and the record saved. In mode
S the core is declared failed: its harts end, and what its caches hold is lost (R342, R358).
R336, R341, R352, R354, R355, R93, R120, Table 05-6: below mode S the privileged instructions trap with cause 0x01, and in mode D (R349) every other word
that its handler may not run traps with cause 0x06, but for those whose operands are illegal (a fence's length, the tag of `vid`); tval is the word, and nothing
else of it happens. So does a `cfree` of a register that an undone word of the pool-fault record names, with the register in tval. -/
def Obligations.TrapsEnterTheSupervisor : Prop :=
  (∀ (s : State) (imm : BitVec 20),
    ∀ p ∈ ([(.ecall imm, 0x10), (.ebreak imm, 0x11)] : List (Instr × BitVec 8)),
      (s.trapsToS p.2 → (∀ i, s.cv.words[s.pos]? = some i → isV i = false) →
        completes (exec p.1 s) fun t =>
          EnteredS p.2 (zext imm) (s.cv.hinge + 8 * BitVec.ofNat 64 s.pos) s t ∧ t.h.instret = s.h.instret + 1 ∧ t.h.cword = s.pos ∧ t.h.incv = true
            ∧ t.h.newcv = false ∧ (∃ c, t.h.rr = some c ∧ c.hinge = s.cv.hinge ∧ c.words = s.cv.words ∧ c.done = s.cv.done ||| BitVec.ofNat 16 (2 ^ s.pos)
              ∧ c.entries = s.cv.entries.map (fun e => { e with dests := match s.cv.words[e.word]? with | some i => (uses i).vw.map s.h.chain | none => e.dests })
              ∧ c.rcause = p.2 ∧ c.rword = s.pos)
            ∧ t.h.xu = s.h.xu ∧ t.h.xs = s.h.xs ∧ t.h.v = s.h.v ∧ t.h.m = s.h.m ∧ t.pend = s.pend ∧ t.keyring = s.keyring
            ∧ (s.mem.wf = true → ∀ k, k < sdmBase → memGet t.mem k = memGet s.mem k))
      ∧ (s.h.mode = .s → (∀ e ∈ s.cv.entries, e.cause = 0 ∧ e.fill = false) → s.core.failed = false → completes (exec p.1 s) fun t =>
        (t.coreAt s.coreNo).failed = true ∧ (t.coreAt s.coreNo).l1 = [] ∧ (t.coreAt s.coreNo).keys = [] ∧ ∀ i, i < 8 → (t.hartAt (8 * s.coreNo + i)).st = .free))
  ∧ (∀ (s : State) (xd xa xb xc : XReg) (asr : BitVec 2) (imm : BitVec 20),
    let privileged : List Instr := [.tlbinv xa xb xc, .hsave xd xa, .hload xd xa, .krecover xd xa xb xc asr imm]
    (s.h.mode = .u → s.trapsToS 0x01 →
      ∀ i ∈ .trapret :: privileged, completes (exec i s) (TrapTaken 0x01 s.h.iword s))
    ∧ (s.h.mode = .d → s.trapsToS 0x01 →
      ∀ i ∈ privileged, completes (exec i s) (TrapTaken 0x01 s.h.iword s))
    ∧ (s.h.mode = .d → s.trapsToS 0x06 → s.h.cmds = [] → ∀ i : Instr, i.wf = true →
      let major := ((encodeH false i).extractLsb' 56 8).toNat
      let allowed : Bool := match i with
        | .cfree _ | .cinfo _ _ _ | .cpoolst _ | .cwait | .trapret | .ecall _ | .ebreak _ => true
        | .fenceSv _ xb _ _ _ | .fenceAll _ xb _ _ _ => decide (2 ^ 32 < (s.x xb).toNat)
        | .vid _ _ _ _ ot => !isIntTag ot
        | _ => decide (1 ≤ major ∧ major ≤ 7) || major == 0x29
      allowed = false → (∀ xa xb xc xd asr imm, i ∉ ([.tlbinv xa xb xc, .hsave xd xa, .hload xd xa, .krecover xd xa xb xc asr imm] : List Instr)) →
        completes (exec i s) (TrapTaken 0x06 s.h.iword s))
    ∧ (s.h.mode = .d → s.trapsToS 0x06 → ∀ (va : VReg) (c : Convoy) (q : Nat) (i : Instr), s.h.pfr = some c →
      c.words[q]? = some i → c.done.getLsbD q = false → va ∈ (uses i).vr ∨ va ∈ (uses i).vw →
        completes (exec (.cfree va) s) (TrapTaken 0x06 (zext va) s)))

/-- R164, R348: a chain word in mode U whose links cannot be had goes to the hart's own handler while PFH.E is set: mode D at PFH, with the word's
address, its place, its first missing element and the links it needed; no trap register of mode S is written and nothing of the word is done.
R54, R347, R352: `trapret` in mode S enters the mode of PPRIV: at `tpc` when there is no record, else in the recorded convoy at its first word that is
neither done nor abandoned, with every member's cause cleared and RR reading 0; all else of the device stands. In mode D it goes back to mode U the same
way. A machine check that waited for the hart to leave mode S is pending again, and an interrupt pending at a return to mode U is taken at the next hinge (R339).
A target, of `tpc` or a record, that is no multiple of 8 transfers no control: `trapret` traps with cause 0x0A in the new mode (log 18). -/
def Obligations.PoolFaultsAndReturns : Prop :=
  (∀ (s : State), s.h.mode = .u → s.h.pfh.getLsbD 0 = true → (∀ e ∈ s.cv.entries, e.cause = 0 ∧ e.state ≠ .stopped ∧ e.state ≠ .abandoned ∧ e.fill = false) →
    let handled (need : Nat) (t : State) : Prop :=
      t.h.mode = .d ∧ t.h.pc = s.h.pfh - s.h.pfh % 8 ∧ t.h.pfneed = need ∧ t.h.pfword = s.pos ∧ t.h.pfvstart = 0
        ∧ t.h.pfpc = s.cv.hinge + 8 * BitVec.ofNat 64 s.pos ∧ t.h.pfr.isSome = true ∧ t.h.rr = s.h.rr ∧ t.h.cause = s.h.cause ∧ t.h.tpc = s.h.tpc
        ∧ t.h.tval = s.h.tval ∧ t.h.xu = s.h.xu ∧ t.h.v = s.h.v ∧ t.h.st = .running ∧ t.mem = s.mem ∧ t.core.links = s.core.links ∧ t.h.vused = s.h.vused
    (∀ (checks : Except Trap Unit) (srcs dsts : List VReg) (go : State → State),
      checks = .ok () → s.unclaimed (srcs ++ dsts) [] → (go s.awake).poolFits = false → (go s.awake).h.vused ≠ s.h.vused →
      completes (s.editChain checks srcs dsts go) (handled ((go s.awake).h.vused - s.h.vused)))
    ∧ (∀ (vd xa : BitVec 5) (tag : Tag),
      let n := (s.x xa).toNat
      0 < n → tag ≠ 0 → chainBytes tag n ≤ 131072 → s.unclaimed [vd] [] → s.h.vquota.toNat < s.h.vused + linksFor tag n → completes (exec (.cnew vd xa tag) s) (handled (linksFor tag n))))
  ∧ (∀ (s : State) (c : Convoy) (p : Nat) (m : Mode),
    let back (h : Hart) : Hart :=
      if c.words = [] then { h with instret := s.h.instret + 1, convoy := none, pc := c.hinge, xfer := some s.h.pc, fresh := c.anew }
      else { h with instret := s.h.instret + 1, pc := c.hinge + 8 * BitVec.ofNat 64 p, xfer := none
                    convoy := some { c with
                      rcause := 0, rword := 0, tval := 0, entries := c.entries.map fun e => { e with cause := 0 }
                      pooled := c.entries.map fun e => (e.word, e.vstart) } }
    let moded (m : Mode) (h : Hart) : Hart := { h with
      mode := m, due := decide (m = .u) && h.ie && (h.hip || h.tip)
      mcheck := if m = .s then h.mcheck else h.mheld ++ h.mcheck, mheld := if m = .s then h.mheld else [] }
    let past (q : Nat) : Prop := c.done.getLsbD q = true ∨ ∃ e, c.entry q = some e ∧ e.state = .abandoned
    let first := p ≤ 16 ∧ (p < 16 → ¬ past p) ∧ ∀ q, q < p → past q
    (s.h.mode = .s → s.h.rr = none → s.h.tpc % 8 = 0 → modeIs s.h.ppriv m →
      exec .trapret s = .next { s with h := { moded m s.h with
        pc := s.h.tpc, convoy := none, instret := s.h.instret + 1, fresh := s.h.newcv, xfer := if s.h.newcv then none else some s.h.pc } })
    ∧ (s.h.mode = .s → s.h.rr = some c → c.hinge % 8 = 0 → (c.words = [] ∨ first) → modeIs s.h.ppriv m →
      exec .trapret s = .next { s with h := back { moded m s.h with rr := none } })
    ∧ (s.h.mode = .d → s.h.pfr = some c → c.hinge % 8 = 0 → (c.words = [] ∨ first) →
      exec .trapret s = .next { s with h := back { moded .u s.h with pfr := none } })
    ∧ ((∀ e ∈ s.cv.entries, e.cause = 0 ∧ e.state ≠ .stopped ∧ e.fill = false) →
      let refused (m : Mode) (target : Word) : Prop := completes (exec .trapret s) fun t =>
        EnteredS 0x0A target (s.cv.hinge + 8 * BitVec.ofNat 64 s.pos) { s with h := { s.h with mode := m } } t ∧ t.h.instret = s.h.instret
      (s.h.mode = .s → s.h.rr = none → s.h.tpc % 8 ≠ 0 → modeIs s.h.ppriv m → m ≠ .s → refused m s.h.tpc)
      ∧ (c.hinge % 8 ≠ 0 → (c.words = [] → p = 0) → (c.words = [] ∨ first) →
        (s.h.mode = .s → s.h.rr = some c → modeIs s.h.ppriv m → m ≠ .s → refused m (c.hinge + 8 * BitVec.ofNat 64 p))
        ∧ (s.h.mode = .d → s.h.pfr = some c → refused .u (c.hinge + 8 * BitVec.ofNat 64 p)))))

/-- R350, R354, R355 (Tables 17-11, 17-13): `hsave` in mode S returns 0 and leaves a header that names the hart and where `trapret` would go; with a reserved bit
it returns 1; with REL it gives the hart's chains, masks, tickets and tiles up (that a chain register given up also counts and spans nothing is log 58).
`hload` gives 1 while the hart owns links, holds a tile or has a ticket that is not FREE, 2 for a bad image or another context's and 3 for one whose USED is
above its quota or the free links. A good image of the context it takes: the saved user registers, masks and state registers, their reserved bits zero (R6). That the header holds PRIV := PPRIV, pc := tpc and cause := tcause.CAUSE is the model's
reading (log 45). -/
def Obligations.SaveAreasHoldAHart : Prop :=
  ∀ (s : State) (xd xa : XReg) (k : Nat),
    let a := s.x xa
    let base := s.h.saBase.toNat * 2 ^ 22
    let h := s.readHead base
    let reg (i : Nat) : Word := s.physWord (base + 0x200 + 8 * i)
    s.h.mode = .s →
    (a.toNat < 2 → s.h.cmds = [] → (∀ q ∈ s.core.reclaim, q.owner ≠ s.cur) → completes (exec (.hsave xd xa) s) fun t =>
      StatusResult xd 0 { s with h := { s.h with vused := t.h.vused, mcheck := t.h.mcheck } } t ∧ (s.core.badRows = [] → t.h.mcheck = s.h.mcheck) ∧ t.pend = s.pend ∧ t.keyring = s.keyring ∧
        (physKey base = some k → s.frames = [] → s.poison = [] → s.mem.wf = true →
          let g := t.readHead base
          g.ctx = s.h.kctx ∧ g.hartid = s.h.hartid ∧ g.taskid = s.h.taskid ∧ g.priv = s.h.ppriv ∧ g.cause = s.h.cause ∧ g.pc = s.h.tpc ∧ g.myph = s.h.myph
            ∧ g.rr = s.h.rr.isSome ∧ g.pfr = s.h.pfr.isSome ∧ g.ls = a.getLsbD 0))
    ∧ (a.toNat < 4 → a.getLsbD 1 = true → s.h.cmds = [] → (∀ q ∈ s.core.reclaim, q.owner ≠ s.cur) → completes (exec (.hsave xd xa) s) fun t =>
      (xd ≠ 0 → t.x xd = 0) ∧ Retired s t ∧ (∀ r, t.h.chain r = Desc.released) ∧ (∀ r, r ≠ 0 → t.h.mask r = 0) ∧ (∀ j, j < 16 → t.h.ticket j = Ticket.empty)
        ∧ t.core.za0.holder ≠ some s.slotNo ∧ t.core.za1.holder ≠ some s.slotNo)
    ∧ (4 ≤ a.toNat → completes (exec (.hsave xd xa) s) (StatusResult xd 1 s) ∧ completes (exec (.hload xd xa) s) (StatusResult xd 1 s))
    ∧ (let free := a.toNat < 4 ∧ s.h.vused = 0 ∧ s.core.za0.holder ≠ some s.slotNo ∧ s.core.za1.holder ≠ some s.slotNo
          ∧ ∀ i, i < 16 → (s.h.ticket i).state = .free
      let good := s.imageGood base h = true ∧ h.ctx = s.h.kctx
      (a.toNat < 4 → ¬ free → completes (exec (.hload xd xa) s) (StatusResult xd 1 s))
      ∧ (free → ¬ good → completes (exec (.hload xd xa) s) (StatusResult xd 2 s))
      ∧ (free → good → h.quota < h.used ∨ 0 < h.used ∧ 2048 < h.used + s.core.links.length →
          completes (exec (.hload xd xa) s) (StatusResult xd 3 s))
      ∧ (free → good → h.used ≤ h.quota → h.used + s.core.links.length ≤ 2048 → (h.tile0 = true → s.core.za0.freeFor s.slotNo = true) →
          (h.tile1 = true → s.core.za1.freeFor s.slotNo = true) → completes (exec (.hload xd xa) s) fun t =>
        (xd ≠ 0 → t.x xd = 0) ∧ t.h.mode = .s ∧ t.h.pc = s.h.pc + 8 ∧ t.h.ppriv = h.priv ∧ t.h.myph = h.myph
          ∧ (∀ i : Fin 32, i ≠ 0 → t.h.xu[i] = s.physWord (base + 0x100 + 8 * i.val))
          ∧ (∀ r : MReg, r ≠ 0 → t.h.mask r = BitVec.ofNat 8192 (ofBytes (s.readPhys (base + 0x2000 + 1024 * (r.toNat - 1)) 1024)))
          ∧ t.h.tpc = reg 22 ∧ t.h.pfh = reg 16 &&& ~~~6#64 ∧ t.h.tvec = reg 21 &&& ~~~7#64 ∧ t.h.sflags = (reg 11).extractLsb' 0 6))

/-! Steps of the units and of the outside. -/

/-- R137, R140, R142, R143, R147, R151 (Table 07-6): the running copy command makes its next row or elements, counts them in its ticket and marks its mask; a row or
element that fails ends it FAULTED; after the last its ticket is DONE, the arrivals of an `ecast` with BAR made. A row of an untranslated `ecopy` carries its source's
bytes to its destination, each as it stood when the engine read its 8-byte word (R141), one of an `ecast` to every target, one of an `ewin` with FILL where
its window leaves the source row (R145), and an untranslated `ecopyc` puts the elements that it reads into its chain. That the addresses of an `ecopyc` are sums modulo 2^64 is the
model's choice (log 57), and that a row's writes are one step is log 77.
R123, R126 to R129, R151 (Tables 06-3, 06-4): an engine counts and ranks the qualifying elements that its stack is home to, in ascending index, and for `qtopk`
keeps the largest; when every engine has answered, the rank words, by ascending index or the largest first, and then the count word are written and the ticket is
DONE, or the failure at the lowest offset ends the command. A command is merged after those that came before it at its first stack's engine (R130). Which offset a
failing page records is the model's choice (log 56), and so is when an engine's queue entry frees (log 78). -/
def Obligations.CommandsMakeProgress : Prop :=
  (∀ (s : State) (hart count : Nat) (c : Command),
    let t := s.focus hart
    let moved (n : Nat) (u v : State) : Prop := (v.h.ticket c.ticket).rows = n
      ∧ v.h.cmds = u.h.cmds.map (fun o => if o.ticket = c.ticket then { o with next := n } else o) ∧ v.mem = u.mem ∧ v.poison = u.poison
    let ended (st : TicketState) (cause : BitVec 8) (off n : Nat) (u v : State) : Prop := (v.h.ticket c.ticket).state = st ∧ (v.h.ticket c.ticket).cause = cause
      ∧ (v.h.ticket c.ticket).offset = BitVec.ofNat 64 off ∧ (v.h.ticket c.ticket).rows = n ∧ v.h.cmds = u.h.cmds.filter (fun o => decide (o.ticket ≠ c.ticket))
      ∧ v.mem = u.mem ∧ v.poison = u.poison
    let i : Int := ((c.next % c.n1 : Nat) : Int)
    let r : Int := ((c.next / c.n1 : Nat) : Int)
    let a := ((c.src.toNat : Int) + r * c.sstr2.toInt + i * c.sstr1.toInt).toNat
    let d := ((c.dst.toNat : Int) + r * c.dstr2.toInt + i * c.dstr1.toInt).toNat
    let marked (u v : State) : Prop := (∀ m, m ≠ 0 → ∀ j, j < 8192 → (v.h.mask m).getLsbD j = ((u.h.mask m).getLsbD j || (decide (m = c.cm) && decide (j = c.next))))
      ∧ (c.cm ≠ 0 → ∀ e ∈ v.early, e.hart ≠ hart)
    let w := (tagWidth c.tag + 7) / 8
    let at_ (j : Nat) : Nat := if c.tag = 9 then (c.src + BitVec.ofNat 64 (j / 2)).toNat else (c.src + BitVec.ofNat 64 j * c.sstr1).toNat
    let read (j : Nat) : Nat := match physKey (at_ j) with
      | some k => if c.tag = 9 then ofBytes (t.homeRead k 1) / 16 ^ (j % 2) % 16 else ofBytes (t.homeRead k w)
      | none => 0
    let last := c.next + min count (c.count - c.next)
    let source (k : Nat) : Byte := match c.ahead.find? (fun w => w.1 == k / 8 * 8) with | some w => w.2.getD (k % 8) 0 | none => t.homeByte k
    t.copyHead = some c → (∀ p ∈ t.pend, p.hart = t.cur → p.vec = true ∨ p.op = .ast → c.since ≤ p.id) →
    (c.kind ≠ 1 → c.next < c.n1 * c.n2 → completes (exec (.engineRow hart) s) fun v => match t.moveRow c c.next with
      | .ok u => moved (c.next + 1) u v ∧ marked u v
      | .error f => ended .faulted f.cause f.off c.next t v ∧ v.h.m = t.h.m)
    ∧ (∀ ks kd, c.kind = 0 → c.next < c.n1 * c.n2 → c.bare = true → c.bypass = true → c.sspace = 0 → c.dspace = 0 → 0 < c.l0 →
        a % 4096 + c.l0 ≤ 4096 → d % 4096 + c.l0 ≤ 4096 → physKey a = some ks → physKey d = some kd → t.frames = [] → t.poison = [] → t.mem.wf = true →
      completes (exec (.engineRow hart) s) fun v => (v.h.ticket c.ticket).rows = c.next + 1 ∧ marked t v ∧ (∀ b, b < c.l0 → v.homeByte (kd + b) = source (ks + b))
        ∧ ∀ k, k < kd ∨ kd + c.l0 ≤ k → v.homeByte k = t.homeByte k)
    ∧ (∀ ks, c.kind = 2 → c.next < c.n1 * c.n2 → c.bare = true → c.bypass = true → c.sspace = 0 → 0 < c.l0 →
        a % 4096 + c.l0 ≤ 4096 → d + c.l0 ≤ 2 ^ 21 → physKey a = some ks → t.frames = [] → t.poison = [] → t.mem.wf = true →
        let dest (x : Nat) : Nat := t.coreNo / 8 * 8 + x
        (∀ x, x < 8 → c.cmask.getLsbD x = true → t.gangOnCore (dest x) = true) →
      completes (exec (.engineRow hart) s) fun v => (v.h.ticket c.ticket).rows = c.next + 1 ∧ marked t v
        ∧ (∀ x b, x < 8 → c.cmask.getLsbD x = true → b < c.l0 → v.homeByte (lsKey (dest x) (d + b)) = source (ks + b))
        ∧ ∀ k, (∀ x, x < 8 → c.cmask.getLsbD x = true → k < lsKey (dest x) d ∨ lsKey (dest x) d + c.l0 ≤ k) → v.homeByte k = t.homeByte k)
    ∧ (∀ ks kd, c.kind = 3 → c.next < c.n1 * c.n2 → c.bare = true → c.bypass = true → c.sspace = 0 → c.dspace = 0 → 0 < c.l0 →
        let at0 : Int := i * c.sstr1.toInt - c.padl
        let lo := max 0 at0
        let e := ((c.src.toNat : Int) + r * c.sstr2.toInt + lo).toNat
        e % 4096 + (min (c.srclen : Int) (at0 + c.l0) - lo).toNat ≤ 4096 → d % 4096 + c.l0 ≤ 4096 → physKey e = some ks → physKey d = some kd →
        t.frames = [] → t.poison = [] → t.mem.wf = true →
      completes (exec (.engineRow hart) s) fun v => (v.h.ticket c.ticket).rows = c.next + 1 ∧ marked t v
        ∧ (∀ b, b < c.l0 → v.homeByte (kd + b) = if 0 ≤ at0 + b ∧ at0 + b < c.srclen then source (ks + (at0 + b - lo).toNat) else c.fill)
        ∧ ∀ k, k < kd ∨ kd + c.l0 ≤ k → v.homeByte k = t.homeByte k)
    ∧ (c.kind = 1 → c.next < c.count → completes (exec (.ecopycTransfer hart count) s) fun v =>
      let u := t.moveElems c c.next (min count (c.count - c.next))
      match u.2.2 with
      | some f => ended .faulted f.cause f.off u.2.1 u.1 v
      | none => moved u.2.1 u.1 v)
    ∧ (c.kind = 1 → c.next < c.count → c.ahead = [] → c.bare = true → c.sspace = 0 → (∀ j, j < c.count → ∃ k, physKey (at_ j) = some k ∧ ∀ b, b < w → t.poisoned (k + b) = false) →
        (t.h.chain c.vd).tag = c.tag → (t.h.chain c.vd).count = c.count → c.tag ≠ 0 → t.apart (t.h.chain c.vd) → t.tidy →
      completes (exec (.ecopycTransfer hart count) s) fun v => moved last t v ∧ v.h.chain c.vd = t.h.chain c.vd ∧ ∀ j, j < c.count →
        v.elem (v.h.chain c.vd) j = if c.next ≤ j ∧ j < last then read j else t.elem (t.h.chain c.vd) j)
    ∧ ((if c.kind = 1 then c.count else c.n1 * c.n2) ≤ c.next → completes (exec (.copyCommandComplete hart) s) fun v =>
      ended .done 0 0 c.next t v ∧ (c.bar = false → v.gangs = t.gangs)
        ∧ ∀ g, t.gangOf t.h = some g → t.gangs.find? (fun x => x.id == g.id) = some g →
          let n := ((List.range 8).filter fun x => c.cmask.getLsbD x).length
          let expl := if g.count = 0 then t.h.gbexp.toNat else g.expl
          c.bar = true → 0 < n → (g.count + n < expl → v.gangOf v.h = some { g with expl := expl, count := g.count + n })
            ∧ (g.count + n = expl → v.gangOf v.h = some { g with expl := expl, count := 0, phase := g.phase + 1 })))
  ∧ (∀ (s : State) (hart ticket stack : Nat) (c : Command),
    let t := s.focus hart
    let w := tagWidth c.tag
    let at_ (j : Nat) : Nat := c.src.toNat + j * w / 8
    let value (j k : Nat) : Nat := if c.tag = 9 then (t.homeByte k).toNat / 16 ^ (j % 2) % 16 else ofBytes (t.homeRead k (w / 8))
    let hit (j : Nat) : Bool := match physKey (at_ j) with
      | some k => decide (keyStack k = stack) && qualifies c.tag c.pred.toNat (c.opa.toNat % 2 ^ w) (c.opb.toNat % 2 ^ w) (value j k)
      | none => false
    let hits := (List.range c.count).filter hit
    let words := hits.map fun j => match physKey (at_ j) with
      | some k => rankVal c.tag (value j k) * 2 ^ 32 + (0xFFFF_FFFF - j) | none => 0
    let top (key : Nat → Nat) (l kept rest : List Nat) : Prop :=
      l.Perm (kept ++ rest) ∧ kept.Pairwise (fun a b => key b ≤ key a) ∧ ∀ a ∈ kept, ∀ b ∈ rest, key b ≤ key a
    let added (p : Partial) (v : State) : Prop := v.h.cmds = t.h.cmds.map (fun o => if o.ticket = c.ticket then { c with parts := c.parts ++ [p] } else o) ∧ sameBytes s v
    let fails := c.parts.flatMap (·.fails)
    let all := (c.parts.flatMap (·.ranks)).map (·.toNat)
    let kept := if c.kind = 8 ∨ c.kind = 9 then min c.limit all.length else 0
    let slots := if c.kind = 9 then c.limit else kept
    let d := lsKey t.coreNo c.dst.toNat
    t.selection ticket = some c →
    (stack < 12 → (∀ p ∈ c.parts, p.stack ≠ stack) → (∀ q ∈ t.engineQueue stack, c.since ≤ q) → (∀ p ∈ t.pend, p.hart = t.cur → p.vec = true ∨ p.op = .ast → c.since ≤ p.id) →
      completes (exec (.selectionScan hart ticket stack) s) (added (t.scanStack c stack (c.parts.any fun p => !p.fails.isEmpty)))
      ∧ ((∀ p ∈ c.parts, p.fails = []) → c.bare = true → c.sspace = 0 → c.src.toNat + (c.count * w + 7) / 8 ≤ 2 ^ 64 → 4 ≤ w → c.src.toNat % max 1 (w / 8) = 0 →
          (∀ o, c.src.toNat ≤ o → o < c.src.toNat + (c.count * w + 7) / 8 → ∃ k, physKey o = some k ∧ (keyStack k = stack → t.poisoned k = false)) →
        completes (exec (.selectionScan hart ticket stack) s) fun v => ∃ ranks : List Nat, added ⟨stack, hits.length, ranks.map (BitVec.ofNat 64), []⟩ v
          ∧ (c.kind ≠ 9 → ranks = words)
          ∧ (c.kind = 9 → ranks.length = min c.limit words.length ∧ ∃ rest, top id words ranks rest)))
    ∧ (12 ≤ c.parts.length → t.mergeWaits c = false → fails = [] → c.dst.toNat % 8 = 0 → t.mem.wf = true →
      completes (exec (.selectionMerge hart ticket) s) fun v =>
        v.homeRead d 8 = toBytes 8 ((c.parts.map (·.qual)).sum % 2 ^ 32 * 2 ^ 32 + kept)
          ∧ (∃ l rest : List Nat, l.length = kept ∧ (c.kind = 8 → top (fun x => x % 2 ^ 32) all l rest) ∧ (c.kind = 9 → top id all l rest)
            ∧ ∀ n, n < slots → v.homeRead (d + 8 + 8 * n) 8 = toBytes 8 (l.getD n 0))
          ∧ (v.h.ticket c.ticket).state = .done ∧ v.h.cmds = t.h.cmds.filter (fun o => decide (o.ticket ≠ c.ticket))
          ∧ ∀ k, k < d ∨ d + 8 + 8 * slots ≤ k → v.homeByte k = t.homeByte k)
    ∧ (12 ≤ c.parts.length → t.mergeWaits c = false → fails ≠ [] →
      completes (exec (.selectionMerge hart ticket) s) fun v => sameBytes s v ∧ (v.h.ticket c.ticket).state = .faulted
        ∧ ∃ f ∈ fails, (v.h.ticket c.ticket).cause = f.2 ∧ (v.h.ticket c.ticket).offset = f.1 ∧ ∀ g ∈ fails, f.1.toNat ≤ g.1.toNat))

/-- R192, R195, R199, R200, R276, R279, R280: a handed-off write that no earlier write of its agent comes before is performed: a vector write takes its line out of the
issuing core's L1, a dirty one written back first, and its bytes stand at home, or it leaves for its node. The elements of a scatter packet are applied in order, then
it is gone. A gather request brings back the bytes at its core, and a reply reaches the hart. -/
def Obligations.HandedOffWritesArePerformed : Prop :=
  ∀ (s : State) (k : Nat),
    let performed (i : Nat) (p : Pending) (e : Instr) : Prop :=
      let covers (l : L1Line) : Bool := l.covers p.node p.ctx p.space p.key p.data.length
      let u := if p.flush then s.sweepAt (p.hart / 8) covers true false else s
      let n := p.data.length
      completes (exec e s) fun t => t.pend = s.pend.eraseIdx i ∧ ((∀ l ∈ (s.coreAt (p.hart / 8)).l1, l.bad = false) → t.h = s.h)
        ∧ (p.flush = true → (t.coreAt (p.hart / 8)).l1 = (s.coreAt (p.hart / 8)).l1.filter fun l => !covers l)
        ∧ (p.node = none → s.frames = [] → s.poison = [] → s.mem.wf = true →
            t.homeRead p.key n = applyOp p.op (u.homeRead p.key n) p.data ∧ (∀ j, j < p.key ∨ p.key + n ≤ j → t.homeByte j = u.homeByte j)
            ∧ ∀ l ∈ (s.coreAt (p.hart / 8)).l1, p.flush = true → covers l = true → l.dirty = true → l.bad = false →
                (∀ o ∈ (s.coreAt (p.hart / 8)).l1, o = l ∨ covers o = false) → ∀ b, b < 64 → (l.key + b < p.key ∨ p.key + n ≤ l.key + b) →
                [t.homeByte (l.key + b)] = lineBytes l.data b 1)
        ∧ ∀ nd, p.node = some nd → t.mem = u.mem ∧ t.remote = u.remote ++ [⟨nd, p.ctx, p.space, p.off, p.agent, p.op, p.data⟩]
    (∀ p, s.pend[k]? = some p → p.pkt = none → (∀ q ∈ s.pend.take k, q.before p = false) → performed k p (.writePerformed k))
    ∧ (∀ q, s.packets[k]? = some q →
      let e : Instr := if q.kind = 3 then .scatterAdd k else .scatter k
      (∀ i p, q.kind = 2 ∨ q.kind = 3 → s.pend[i]? = some p → p.id ∈ q.ids → (∀ j x, j < i → s.pend[j]? = some x → x.id ∉ q.ids) →
        (∀ x ∈ s.pend.take i, x.before p = false) → performed i p e)
      ∧ (q.kind = 2 ∨ q.kind = 3 → (∀ x ∈ s.pend, x.id ∉ q.ids) → exec e s = .next { s with packets := s.packets.eraseIdx k })
      ∧ (q.kind = 0 → (∀ x ∈ s.packets.take k, ¬ (x.hart = q.hart ∧ x.target = q.target ∧ x.kind = 0)) → (∀ x ∈ s.pend, x.hart = q.hart → x.vec = false) →
        exec (.gatherRequest k) s = .next { s with packets := s.packets.set k { q with kind := 1, elems := q.elems.map fun e =>
          let n := (tagWidth q.tag + 7) / 8
          (e.1, e.2.1, if (s.poisonIn (lsKey q.target e.1) n).isSome then [] else s.homeRead (lsKey q.target e.1) n) } })
      ∧ (q.kind = 1 → exec (.gatherReply k) s = .next { s with packets := s.packets.set k { q with kind := 4 } }))

/-- R93, R108, R292, R296, R333: a waiting fence, `tlbinv`, `yield`, `await` or key transfer ends once what it waits for has come, with the result that
the instruction would have had; the end of a transfer is its row of Table 05-6 with the sweep of Table 05-8. That an `await` translates again at each read is the model's choice (log 55). -/
def Obligations.WaitsEndWithTheirResult : Prop :=
  ∀ (s : State) (hart : Nat) (xd xa xb xc : XReg) (asr : BitVec 2) (scope ord : BitVec 3) (w : Bool) (off : BitVec 19) (imm : BitVec 20),
    let t := s.focus hart
    let n := if w then 8 else 4
    let a := (t.x xa + sext off).toNat
    let space := t.h.space asr
    (∀ sc vec cmds sys thenS thenV, t.h.st = .running → t.h.wait = .fence sc vec cmds sys thenS thenV → t.fenceWaits sc vec cmds sys = false →
      completes (exec (.fenceComplete hart) s) fun u =>
        Retired t u ∧ u.h.st = .running ∧ u.h.xu = t.h.xu ∧ u.h.xs = t.h.xs ∧ u.h.v = t.h.v ∧ u.core.icache = (if cmds then [] else t.core.icache)
          ∧ ∀ e, e ∈ u.early ↔ e ∈ t.early ∧ ¬ (e.hart = hart ∧ (if e.vec then thenV else thenS) = true))
    ∧ (∀ before reach, t.h.st = .running → t.h.wait = .tlbinv before reach → t.tlbWaits before reach = false →
      completes (exec (.tlbinvComplete hart) s) (PlainResult t t))
    ∧ (∀ lim, t.h.st = .waiting → t.h.wait = .yield lim → lim ≤ t.cycle.toNat → completes (exec (.yieldExpiry hart) s) (PlainResult t t))
    ∧ (∀ lim pl m rels e s1 s2, t.h.st = .waiting → t.h.wait = .await lim → t.word = some (.await xd xa xb xc asr scope ord w off) →
        t.scalarPlace space a n .aread false = .ok (pl, s1) → s1.atomRead space a n pl (ord == 4) = .ok (m, rels, e, s2) →
      let s3 := if ord = 1 ∨ ord = 3 ∨ ord = 4 then s2.acquire scope rels e else s2
      (m ≠ (t.x xb).toNat % 2 ^ (8 * n) → completes (exec (.awaitWake hart) s) (XResult xd (BitVec.ofNat 64 m) s3 s3))
        ∧ (m = (t.x xb).toNat % 2 ^ (8 * n) → exec (.awaitWake hart) s = .next s)
        ∧ ∀ l, lim = some l → l ≤ t.cycle.toNat → completes (exec (.awaitTimeout hart) s) (XResult xd (BitVec.ofNat 64 m) s3 s3))
    ∧ (∀ sp base size e, t.h.st = .running → t.h.wait = .key sp base size → t.keyWaits sp base.toNat size = false →
        t.entryOf t.h.kctx sp base.toNat size = some e → t.keyQueue = [] → (∀ l ∈ t.core.l1, l.dirty = true → l.bad = false) →
      let me := t.h.agent
      let region (l : L1Line) : Bool := l.ctx == t.h.kctx && l.space == sp && inRegion base.toNat size l.off
      let ends (i : Instr) (back keep : Bool) (new : Option KeyEntry) : Prop := t.word = some i → completes (exec (.keyTransferComplete hart) s) fun u =>
        StatusResult xd 0 t u ∧ u.entryOf t.h.kctx sp base.toNat size = new.map (fun n => { n with transit := false, issuer := noAgent })
          ∧ (∀ ctx' space' base' size', ¬ (ctx' = t.h.kctx ∧ space' = sp ∧ base' = base.toNat ∧ size' = size) →
              u.entryOf ctx' space' base' size' = t.entryOf ctx' space' base' size')
          ∧ u.core.l1 = (if keep then t.core.l1.map fun l => if region l then { l with dirty := false } else l else t.core.l1.filter fun l => !region l)
          ∧ (∀ k ∈ u.core.keys, ¬ (k.ctx = t.h.kctx ∧ k.space = sp ∧ meetsRegion base.toNat size k.base (2 ^ k.size) = true ∧ k.agent = me))
          ∧ (back = false → u.mem = t.mem)
      let c := (t.x xc).extractLsb' 0 32
      let l := e.shares.filter (· ≠ me)
      let gone := if e.lender ≠ noAgent then some { e with state := .owned, owner := e.lender, lender := noAgent, shares := [] }
        else if e.poison then some { e with state := .home, owner := noAgent, shares := [] } else none
      ends (.klend xd xa xb xc asr imm) true false (some { e with owner := c, lender := e.owner })
        ∧ ends (.kshare xd xa xb xc asr imm) true true (some { e with state := .shared, shares := e.shares ++ [c] })
        ∧ ends (.kret xd xa xb asr imm) true false gone ∧ ends (.kdrop xd xa xb asr imm) false false gone
        ∧ ends (.kunshare xd xa xb asr imm) true false (some { e with shares := l, state := if l = [] then .owned else .shared }))

/-- R313, R315 to R322, R351 (Tables 16-1 to 16-4): the doorbell moves TAIL when the packets fit; the packet at HEAD enters the table with the fields of Table 16-2, or is
dropped with ERR where R315 refuses it; a launch whose dependences are met is READY; the first waiting gang is placed, each hart with every other register at its reset value; a starting hart
takes its first state, or goes on with the image loaded for it, and runs. How `time`
counts clocks, that the first hart of a core finds a new context, and that an aged priority is computed when it is needed are the model's readings (logs 14, 40 and 43). -/
def Obligations.LaunchesAreAdmittedAndPlaced : Prop :=
  ∀ (s : State) (q k hart : Nat),
    let d := s.queue q
    let log := min d.log2.toNat 12
    let at_ := d.base.toNat * 128 + d.head.toNat % 2 ^ log * 128
    let p := ofBytes (s.readPhys at_ 128)
    let f (lo n : Nat) : Nat := p / 2 ^ lo % 2 ^ n
    let word (i : Nat) : Word := BitVec.ofNat 64 (f (64 * i) 64)
    let gone (err : Bool) : State := s.setQueue q { d with head := d.head + 1, err := err }
    (∀ who tail, whoOf who ≠ .smbus → s.boot ≠ .bootfail → q < 64 → completes (exec (.launchDoorbell who q tail) s) fun t =>
      t.queue q = { d with tail := if 2 ^ log < (BitVec.ofNat 16 tail - d.head).toNat then d.tail else BitVec.ofNat 16 tail }
        ∧ ∀ j, j ≠ q → t.queue j = s.queue j)
    ∧ (q < 64 → d.en = true → d.tail ≠ d.head → s.launches.length < 256 → s.physSound at_ 128 = true → (∀ l ∈ s.launches, l.task.toNat ≠ f 80 16) →
        let onAt (off : Word) : Prop := ∃ pl,
          s.devicePlace (BitVec.ofNat 16 (f 64 16)) (BitVec.ofNat 16 (f 160 16)) off.toNat noAgent false true .aread = .ok pl ∧ pl.at_ = true
        let refused : Prop := f 176 16 ≠ 0 ∨ f 119 1 ≠ 0 ∨ f 0 64 % 8 ≠ 0 ∨ BitVec.ofNat 16 (f 64 16) ≠ d.owner
          ∨ f 96 4 = 0 ∨ 8 < f 96 4 ∨ f 100 4 = 0 ∨ 8 < f 100 4 ∨ f 104 12 = 0 ∨ 2048 < f 104 12 ∨ f 128 32 = 0 ∨ 8 < f 124 4 ∨ 65536 < f 128 32 * f 96 4
          ∨ f 192 64 % 8 ≠ 0 ∨ f 256 64 % 8 ≠ 0 ∨ f 384 64 % 8 ≠ 0
          ∨ (word 3 ≠ 0 ∧ ¬ (onAt (word 3) ∧ onAt (word 3 + 8))) ∨ (word 5 ≠ 0 ∧ ¬ onAt (word 4)) ∨ (word 7 ≠ 0 ∧ ¬ onAt (word 6))
        (refused → exec (.launchPacketAdmit q) s = .next (gone true))
        ∧ (¬ refused → exec (.launchPacketAdmit q) s = .next { gone d.err with
            nextId := s.nextId + 1
            launches := s.launches ++ [{ id := s.nextId, queue := q, entry := word 0, ctx := BitVec.ofNat 16 (f 64 16), task := BitVec.ofNat 16 (f 80 16)
                                         gang := f 96 4, lanes := f 100 4, quota := f 104 12, prio := f 116 3, diemask := BitVec.ofNat 4 (f 120 4)
                                         ngangs := f 128 32, gspace := BitVec.ofNat 16 (f 160 16), comp := word 3, dep0addr := word 4, dep0val := word 5
                                         dep1addr := word 6, dep1val := word 7, args := (List.range (f 124 4)).map fun i => word (8 + i)
                                         ready := none, placed := 0, exited := 0, maxcode := 0 }] }))
    ∧ (∀ l, s.launches[k]? = some l → l.ready = none → s.depMet l l.dep0addr l.dep0val = true → s.depMet l l.dep1addr l.dep1val = true →
        exec (.launchReady k) s = .next { s with launches := s.launches.set k { l with ready := some (s.cycle.toNat * 20 / 17) } })
    ∧ (exec (.priorityAging k) s = .next s ∧ ∀ base since, base < 6 → s.effPrio base since = min 6 (base + (s.nanos - since) / 1000000))
    ∧ (∀ b seats, s.bids.head? = some b → b.evicted = none → s.seats b [] = some seats → (seats.map fun e => 8 * e.1 + e.2).Nodup →
        completes (exec .gangPlacement s) fun t =>
          (∃ g ∈ t.gangs, g.id = s.nextId ∧ g.launch = b.launch.id ∧ g.number = b.launch.placed ∧ g.members = seats.map (fun e => 8 * e.1 + e.2)
            ∧ g.phase = 0 ∧ g.count = 0)
          ∧ t.launches = s.launches.map (fun x => if x.id = b.launch.id then { x with placed := x.placed + 1 } else x)
          ∧ ∀ i (_ : i < seats.length), let h := t.hartAt (8 * seats[i].1 + seats[i].2)
              h.st = .starting ∧ h.gang = some s.nextId ∧ h.kctx = b.launch.ctx ∧ h.taskid = b.launch.task ∧ h.req = b.launch.lanes
                ∧ h.hartid = BitVec.ofNat 16 (b.launch.placed * b.launch.gang + i) ∧ h.ganghart = BitVec.ofNat 3 i ∧ h.vused = 0
                ∧ h.vquota = BitVec.ofNat 12 b.launch.quota ∧ h.gbexp = BitVec.ofNat 12 b.launch.gang ∧ h.prio = b.prio
                ∧ h.xu = Vector.replicate 32 0 ∧ h.xs = Vector.replicate 32 0 ∧ h.tscratch = 0 ∧ h.tresOff = 0)
    ∧ (∀ g l, let t := s.focus hart
        t.h.st = .starting → t.h.restoring = false → s.gangOf t.h = some g → s.launches.find? (fun x => x.id == g.launch) = some l → s.mem.wf = true →
        completes (exec (.hartStart hart) s) fun u =>
          u.h.st = .running ∧ u.h.pc = l.entry ∧ u.h.xu[2] = BitVec.ofNat 64 (0x0100_0000 + t.slotNo * 0x2000 + 0x2000)
            ∧ (∀ i : Fin 32, 10 ≤ i.val → u.h.xu[i] = l.args.getD (i.val - 10) 0) ∧ (∀ i : Fin 32, i.val < 10 → i.val ≠ 2 → u.h.xu[i] = 0)
            ∧ (∀ o, o < 0x2000 → u.homeByte (sdmKey t.coreNo (t.slotNo * 0x2000 + o)) = 0)
            ∧ ∀ k ∈ g.members, (s.coreAt (k / 8)).lastCtx ≠ some t.h.kctx → ∀ o, o < 2 ^ 21 → u.homeByte (lsKey (k / 8) o) = 0)
    ∧ (∀ t, t = s.focus hart → t.h.st = .starting → t.h.restoring = true →
        exec (.hartStart hart) s = .next { t with h := { t.h with st := .running, restoring := false } })

/-- R317, R318, R321, R327, R350, R351 (Tables 16-4, 17-11): a suspended gang whose commands, links and writes are back is evicted: each member's save area holds its header
and registers, then its slots and lane groups are free and the gang is among those that wait; its members come back STARTING on the seats found for them, at the
priority the gang had reached, with the mode, pc and registers of their images. That a restoration does not check the image again is the model's reading (log 45). -/
def Obligations.GangsLeaveAndReturn : Prop :=
  ∀ (s : State) (g : Gang) (k : Nat),
    s.gangs.find? (fun x => x.id == g.id) = some g → g.members ≠ [] →
    ((∀ k ∈ g.members, (s.hartAt k).st = .suspended ∧ (s.hartAt k).cmds = [] ∧ ∀ r ∈ (s.coreAt (k / 8)).reclaim, r.owner ≠ k) → (∀ p ∈ s.pend, p.hart ∉ g.members) →
      completes (exec (.eviction g.id) s) fun t => (∀ k ∈ g.members, (t.hartAt k).st = .evicting)
        ∧ (∀ k, k ∉ g.members → (t.hartAt k).st = (s.hartAt k).st ∧ (t.hartAt k).pc = (s.hartAt k).pc) ∧ t.gangs = s.gangs ∧ t.keyring = s.keyring
        ∧ (g.members.Nodup → (∀ k ∈ g.members, (s.hartAt k).saBase.toNat * 2 ^ 22 < 0xC0_0000_0000) →
            (∀ j ∈ g.members, ∀ k ∈ g.members, (s.hartAt j).saBase = (s.hartAt k).saBase → j = k) →
            (∀ k ∈ g.members, (s.coreAt (k / 8)).links.length ≤ 2048 ∧ ∀ l ∈ (s.coreAt (k / 8)).l1, l.dirty = false) →
            s.frames = [] → s.poison = [] → s.mem.wf = true →
          ∀ k ∈ g.members, let u := s.hartAt k
            let base := u.saBase.toNat * 2 ^ 22
            let h := t.readHead base
            h.ctx = u.kctx ∧ h.hartid = u.hartid ∧ h.taskid = u.taskid ∧ modeIs h.priv u.mode ∧ h.cause = (if u.preempt then 0x20 else 0) ∧ h.pc = u.tpc ∧ h.myph = u.myph
              ∧ h.rr = u.rr.isSome ∧ h.pfr = u.pfr.isSome ∧ ∀ i : Fin 32, i ≠ 0 → t.physWord (base + 0x100 + 8 * i.val) = u.xu[i]))
    ∧ ((∀ k ∈ g.members, (s.hartAt k).st = .evicting) → completes (exec (.evictionComplete g.id) s) fun t =>
      (∀ k ∈ g.members, (t.hartAt k).st = .free ∧ t.lanesOf k = []) ∧ (∀ x ∈ t.gangs, x.id ≠ g.id) ∧ t.launches = s.launches ∧ t.keyring = s.keyring
        ∧ ∃ w, t.waiting = s.waiting ++ [w] ∧ w.gang = g ∧ w.since = s.nanos ∧ w.members.map (·.slot) = g.members
          ∧ w.members.map (fun e => (e.hartid, e.saBase, e.fresh, e.mcheck, e.mheld))
            = g.members.map fun k => ((s.hartAt k).hartid, (s.hartAt k).saBase, (s.hartAt k).fresh, (s.hartAt k).mcheck, (s.hartAt k).mheld))
    ∧ (∀ b w seats, s.bids.head? = some b → b.evicted = some w → s.seats b [] = some seats → seats.length = w.members.length → w.gang.id = k → s.mem.wf = true →
        (seats.map fun e => 8 * e.1 + e.2).Nodup → completes (exec .gangRestore s) fun t =>
      (∃ x ∈ t.gangs, x.id = k ∧ x.members = seats.map (fun e => 8 * e.1 + e.2) ∧ x.phase = w.gang.phase ∧ x.count = w.gang.count ∧ x.prio = b.prio)
        ∧ (∀ y ∈ t.waiting, y.gang.id ≠ k)
        ∧ ∀ i (_ : i < seats.length) (m : Evicted), w.members[i]? = some m → let h := t.hartAt (8 * seats[i].1 + seats[i].2)
            let base := m.saBase.toNat * 2 ^ 22
            let head := s.readHead base
            h.st = .starting ∧ h.restoring = true ∧ h.gang = some k ∧ h.prio = b.prio ∧ h.fresh = m.fresh ∧ h.mcheck = m.mcheck ∧ h.mheld = m.mheld
              ∧ modeIs head.priv h.mode ∧ h.pc = head.pc ∧ h.myph = head.myph ∧ h.kctx = (s.physWord (base + 0x200 + 8 * 28)).extractLsb' 0 16
              ∧ ∀ r : Fin 32, r ≠ 0 → h.xu[r] = s.physWord (base + 0x100 + 8 * r.val))

/-- R114, R324, R326, R328, R329, R368 (Table 16-4): a hart asked to stop does so at its hinge and goes on from there when it is resumed; its gang is asked with
it; a hart is ended, and its exit completes with every key released. Heat stops every hart and lets it go on. That tpc is written in every mode, and how heat is kept apart
from other reasons to stop, are the model's readings (log 43). -/
def Obligations.HartsStopResumeAndEnd : Prop :=
  ∀ (s : State) (hart : Nat),
    let h := s.hartAt hart
    let members := match s.gangOf h with | some g => g.members | none => [hart]
    (h.suspend = true → h.atHinge = true → completes (exec (.suspension hart) s) fun t =>
      (t.hartAt hart).st = .suspended ∧ (t.hartAt hart).tpc = h.pc ∧ (t.hartAt hart).convoy = none ∧ (t.hartAt hart).xu = h.xu ∧ (t.hartAt hart).v = h.v
        ∧ (t.hartAt hart).fresh = (h.fresh || match h.convoy with | some c => c.anew | none => false))
    ∧ (h.suspend = false → h.st = .running ∨ h.st = .waiting ∨ h.st = .starting → completes (exec (.suspension hart) s) fun t =>
      (∀ k ∈ members, (t.hartAt k).suspend = true ∧ (t.hartAt k).st = (s.hartAt k).st) ∧ ∀ k, k ∉ members → (t.hartAt k).suspend = (s.hartAt k).suspend)
    ∧ (h.st = .suspended → completes (exec (.hartResume hart) s) fun t =>
      t.hartAt hart = { h with st := .running, pc := h.tpc, suspend := false, preempt := false, heat := false })
    ∧ (h.st = .running ∨ h.st = .waiting ∨ h.st = .suspended → completes (exec (.hartTerminate hart) s) fun t =>
      (t.hartAt hart).st = .exiting ∧ (t.hartAt hart).wait = .exit 0xFFFF_FFFF ∧ (t.hartAt hart).convoy = none ∧ (∀ w ∈ t.keyQueue, w.ofHart hart = false)
        ∧ (s.keyQueue = [] → ∀ k, k ≠ hart → t.hartAt k = s.hartAt k))
    ∧ (∀ code, h.st = .exiting → h.wait = .exit code → h.cmds = [] → (∀ p ∈ s.pend, p.hart ≠ hart) → h.mcheck = [] → s.keyQueue = [] → h.agent ≠ noAgent →
        (∀ e ∈ s.keyring, e.transit = false) → (∀ n, ∀ l ∈ (s.coreAt n).l1, l.bad = false) →
        s.keyring.Pairwise (fun a b => sameRegion a b = false) → (∀ e ∈ s.keyring, e.owner = h.agent → e.lender ≠ h.agent ∧ (e.state = .owned ∨ e.state = .shared)) →
      completes (exec (.hartExitComplete hart) s) fun t => (t.hartAt hart).st = .free ∧ t.lanesOf hart = []
        ∧ ∀ e ∈ t.keyring, e.ctx = h.kctx → e.owner ≠ h.agent ∧ e.lender ≠ h.agent ∧ h.agent ∉ e.shares)
    ∧ (∀ c, h.debt = some c → c + 16384 ≤ s.cycle.toNat → completes (exec (.laneDebtTimeout hart) s) fun t =>
      ∀ k ∈ members, (t.hartAt k).suspend = true ∧ (t.hartAt k).preempt = true)
    ∧ (completes (exec .thermalSuspend s) fun t => t.therm = true ∧ t.throttle = true ∧ ∀ k ∈ s.placed, (t.hartAt k).suspend = true ∧ (t.hartAt k).st = (s.hartAt k).st)
    ∧ (completes (exec .thermalResume s) fun t => t.throttle = false ∧ t.therm = s.therm ∧
      ∀ k ∈ s.placed, (s.hartAt k).heat = true → (s.hartAt k).preempt = false → (t.hartAt k).suspend = false
        ∧ ((s.hartAt k).st = .suspended → (t.hartAt k).st = .running ∧ (t.hartAt k).pc = (s.hartAt k).tpc))

/-- R338, R339, R341, R346, R358, R360: an interruptible hart at a hinge, in mode U or just returned to it (log 74), takes a pending interrupt, the host's before the
timer's; a pending machine check comes before both and is taken inside a convoy, the one of the word that waits or one of no word,
and in mode S, or as the third of its core within 2^30 clocks, fails the core: its harts end and what its caches hold is lost. Checks still pending wait for the hart to
leave mode S (log 24). A permitted raise and a deadline
set their bits; a record is discarded in mode S. How an event is coded in `inputs`, and which word of the
window raises, is the model's choice (logs 5 and 19). -/
def Obligations.EventsReachAHart : Prop :=
  ∀ (s : State) (hart : Nat),
    let t := s.focus hart
    (t.h.mcheck = [] → t.h.suspend = false → t.h.atHinge = true → t.h.mode = .u ∨ (t.h.mode = .d ∧ t.h.due = true) → t.h.ie = true → t.h.hip = true ∨ t.h.tip = true →
      completes (exec (.interruptTaken hart) s) fun u => EnteredS (if t.h.hip then 0x21 else 0x22) u.h.tval t.h.pc t u ∧ u.h.incv = false ∧ u.h.cword = 0
        ∧ u.h.newcv = t.h.fresh ∧ u.h.rr = t.h.rr ∧ u.h.xu = t.h.xu ∧ u.h.xs = t.h.xs ∧ u.h.v = t.h.v ∧ u.h.instret = t.h.instret ∧ sameBytes s u)
    ∧ (t.h.atHinge = false → exec (.interruptTaken hart) s = .next s)
    ∧ (∀ v rest, t.h.mcheck = v :: rest → t.h.atHinge = true → (∀ e ∈ t.cv.entries, e.cause = 0 ∧ e.fill = false) →
      let recent := (t.core.mchecks.filter fun c => decide (t.cycle.toNat < c + 2 ^ 30)).length
      (t.h.mode ≠ .s → recent < 2 → completes (exec (.interruptTaken hart) s) fun u =>
          EnteredS 0x3F v (t.cv.hinge + 8 * BitVec.ofNat 64 t.pos) t u ∧ u.h.incv = true ∧ u.h.cword = t.pos ∧ u.h.mcheck = [] ∧ u.h.mheld = t.h.mheld ++ rest
          ∧ (∃ c, u.h.rr = some c ∧ c.hinge = t.cv.hinge ∧ c.words = t.cv.words ∧ c.rcause = 0x3F ∧ c.tval = v)
          ∧ u.core.mchecks.length = recent + 1 ∧ u.h.xu = t.h.xu ∧ u.h.xs = t.h.xs ∧ u.h.v = t.h.v ∧ u.core.failed = t.core.failed
          ∧ (t.mem.wf = true → ∀ k, ¬ t.inRecord k → memGet u.mem k = memGet t.mem k))
        ∧ (t.h.mode = .s ∨ 2 ≤ recent → t.core.failed = false → completes (exec (.interruptTaken hart) s) fun u => (u.coreAt t.coreNo).failed = true
          ∧ (u.coreAt t.coreNo).l1 = [] ∧ (u.coreAt t.coreNo).keys = [] ∧ ∀ i, i < 8 → (u.hartAt (8 * t.coreNo + i)).st = .free))
    ∧ (∀ who, whoOf who = .guesk ∨ (∃ n, whoOf who = .host n ∧ n = s.seat.holder ∧ n ≠ 0xFFFF) → s.boot ≠ .bootfail → hart < 768 →
      completes (exec (.hipRaise who hart) s) fun u => u.hartAt hart = { s.hartAt hart with hip := true } ∧ ∀ k, k ≠ hart → u.hartAt k = s.hartAt k)
    ∧ ((s.timer hart).2 = true → (s.timer hart).1 < s.nanos → completes (exec (.timerExpiry hart) s) fun u =>
      u.hartAt hart = { s.hartAt hart with tip := true } ∧ (u.timer hart).2 = false ∧ ∀ k, k ≠ hart → u.hartAt k = s.hartAt k ∧ u.timer k = s.timer k)
    ∧ (t.h.mode = .s → completes (exec (.trapRecordDiscard hart) s) fun u => u.h.rr = none ∧ u.h.v = t.h.v ∧ u.h.pc = t.h.pc ∧ sameBytes s u)

/-- R5, R94, R95 (Table 04-11): an entry starts a frame's copy; at its end the frame is read and written at TO, with the bytes it had; a freed entry reads 0; an entry
that Guesk writes with STATE 0 reads back its TO and FROM. Where in the window the entry of a stack stands is the model's reading (log 19).
R113, R356, R357, R358, R363 (Table 18-1): the eighth replay in a row makes a port retrain; an unreachable node's owned keys are ORPHANED and POISON, and it loses the seat; scrubs
count what they find, poison what cannot be corrected, and leave a row of a pool bad for its reader; an error beyond correction in a core's link tables fails the core.
The coding of findings, the numbers of the counters, that errors of the hardware are inputs, and whether a good flit came between two replays are the model's choice (logs 5, 13, 51 and 59). -/
def Obligations.FramesLinksNodesAndScrubs : Prop :=
  (∀ (s : State) (stack index src dst : Nat),
    let a := stack * 2 ^ 36 + src * 4096
    let b := stack * 2 ^ 36 + dst * 4096
    let here (f : Frame) : Prop := f.stack = stack ∧ f.index = index
    stack < 12 → index < 256 → src < 2 ^ 24 → dst < 2 ^ 24 →
    ((∀ f ∈ s.frames, f.stack = stack → f.src = src → f.state ≠ 0 → f.index = index) → completes (exec (.frameCopyStart stack index src dst) s) fun t =>
      t.frameWord stack index = BitVec.ofNat 64 (2 ^ 62 + dst * 2 ^ 32 + src) ∧ t.mem = s.mem ∧ ∀ f, f ∈ t.frames → ¬ here f → f ∈ s.frames)
    ∧ (∀ f, f ∈ s.frames → f = ⟨stack, index, 1, src, dst⟩ → (∀ o ∈ s.frames, here o ∨ (o.stack = stack ∧ o.src = src ∧ o.state ≠ 0) → o = f) → s.mem.wf = true →
      completes (exec (.frameCopyEnd stack index) s) fun t =>
        (∀ o, o < 4096 → t.homeByte (a + o) = s.homeByte (a + o) ∧ t.readKeyOf (a + o) = b + o ∧ t.poisoned (a + o) = s.poisoned (a + o))
          ∧ t.frameWord stack index = BitVec.ofNat 64 (2 ^ 63 + dst * 2 ^ 32 + src))
    ∧ completes (exec (.frameEntryFree stack index) s) (fun t => t.frameWord stack index = 0 ∧ t.mem = s.mem ∧ ∀ f, f ∈ t.frames ↔ f ∈ s.frames ∧ ¬ here f)
    ∧ (∀ v : Word, s.boot ≠ .bootfail → v.extractLsb' 62 2 = 0 → completes (exec (.windowWrite 0x10000 (0x10000 + 8 * (256 * stack + index)) v) s) fun t =>
        t.frameWord stack index = v &&& 0x00FF_FFFF_00FF_FFFF#64 ∧ t.mem = s.mem ∧ ∀ f, ¬ here f → (f ∈ t.frames ↔ f ∈ s.frames)))
  ∧ (∀ (s : State) (port : Fin 16) (node sector core row finding : Nat),
    let n := BitVec.ofNat 16 node
    let p := s.ports[port]
    let k := sector * 32
    let cell := lsKey core ((row - 16384) * 64 + (finding - 2) % 8 * 8)
    let others (t : State) : Prop := ∀ i : Fin 16, i ≠ port → t.ports[i] = s.ports[i]
    (p.retraining = true → completes (exec (.flitReplay port.val) s) fun t => t.ports[port] = p ∧ others t)
    ∧ (p.retraining = false → Config.goodFlit port.val s.tick = false → completes (exec (.flitReplay port.val) s) fun t =>
      t.ports[port] = (if p.replays < 7 then ⟨p.replays + 1, false⟩ else ⟨0, true⟩) ∧ others t)
    ∧ (p.retraining = false → Config.goodFlit port.val s.tick = true → completes (exec (.flitReplay port.val) s) fun t => t.ports[port] = ⟨1, false⟩ ∧ others t)
    ∧ (completes (exec (.portRetrainDone port.val) s) fun t => t.ports[port] = (if p.retraining then ⟨0, false⟩ else p) ∧ others t)
    ∧ (n ≠ Config.nodeId → n ∉ s.unreachable → n ≠ 0xFFFF → s.keyring.Pairwise (fun a b => sameRegion a b = false) → (∀ e ∈ s.keyring, e.transit = false) → s.keyQueue = [] →
      completes (exec (.nodeUnreachable node) s) fun t => t.unreachable = n :: s.unreachable ∧ t.seat.holder ≠ n
        ∧ (∀ e ∈ s.keyring, e.state = .owned → e.owner ≠ noAgent → e.owner.extractLsb' 16 16 = n →
            t.entryOf e.ctx e.space e.base e.size = some { e with state := .orphaned, poison := true, shares := [], owner := noAgent, lender := noAgent })
        ∧ ∀ e ∈ s.keyring, (∀ a, a = e.owner ∨ a = e.lender ∨ a ∈ e.shares → a.extractLsb' 16 16 ≠ n) → t.entryOf e.ctx e.space e.base e.size = some e)
    ∧ exec (.nodeReadmission node) s = .next { s with unreachable := s.unreachable.filter fun m => decide (m ≠ n) }
    ∧ (k < 12 * 2 ^ 36 → finding = 1 → exec (.stackScrub sector finding) s = .next (s.count (correctedCount 0 (k / 2 ^ 36))))
    ∧ (k < 12 * 2 ^ 36 → 2 ≤ finding → completes (exec (.stackScrub sector finding) s) fun t =>
      (∀ q, q ∈ t.poison ↔ q = k ∨ q ∈ s.poison) ∧ t.mem = s.mem ∧ t.counters = (s.count (uncorrectedCount 0 (k / 2 ^ 36))).counters)
    ∧ (core < 96 → 16384 ≤ row → row < 49152 → 2 ≤ finding → completes (exec (.coreScrub core row finding) s) fun t =>
      (∀ q, q ∈ t.poison ↔ q = cell ∨ q ∈ s.poison) ∧ t.mem = s.mem ∧ t.counters = (s.count (uncorrectedCount 2 core)).counters)
    ∧ (core < 96 → row < 16384 → 2 ≤ finding → completes (exec (.coreScrub core row finding) s) fun t =>
      (∀ q, q ∈ (t.coreAt core).badRows ↔ q = row ∨ q ∈ (s.coreAt core).badRows) ∧ (∀ k, t.hartAt k = s.hartAt k) ∧ t.poison = s.poison
        ∧ t.counters = (s.count (uncorrectedCount 3 core)).counters)
    ∧ (core < 96 → row < 49152 → finding = 1 → exec (.coreScrub core row finding) s = .next (s.count (correctedCount (if row < 16384 then 3 else 2) core)))
    ∧ (core < 96 → s.power ≠ .off → s.turn = .outside (.strike ⟨.tables core, true⟩) → (s.coreAt core).failed = false → ∃ t, step s = .next t
      ∧ (t.coreAt core).failed = true ∧ ∀ i, i < 8 → (t.hartAt (8 * core + i)).st = .free))

/-- R361, R362 (Table 18-4): each operation on the seat whose condition holds does what it says, EPOCH counts the changes of HOLDER; one whose condition
fails, and an operation that is none, changes nothing and answers 1. How a requester is numbered and that the reply over SMBus names no agent are the model's choice (logs 5 and 39).
R359, R360, R365, R366, R367, R368 (Tables 18-3, 18-9): a host that does not hold the seat changes no register of the window but the seat and the doorbells; the
holder sets the power limit within its range, and writes the nonce, which makes the report once. A host reads any register. A trigger starts a snapshot or is counted as
missed; the latch comes at its clock, and BUSY ends with it. The places of the window and the words of the report are the model's choice (logs 12, 13 and 19). -/
def Obligations.SeatAndWindow : Prop :=
  (∀ (s : State) (node target : Nat),
    let n := BitVec.ofNat 16 node
    let seat := s.seat
    let agent : BitVec 32 := n ++ (0xFFFF : BitVec 16)
    let held (h : BitVec 16) : BitVec 13 := if h = seat.holder then seat.epoch else seat.epoch + 1
    let gives (i : Instr) (new : Seat) (who : BitVec 32) (status : BitVec 8) : Prop :=
      exec i s = .next { s with seat := new, replies := s.replies ++ [⟨who, status, 0x1000, []⟩] }
    s.boot ≠ .bootfail → node < 0xFFFF →
    (seat.holder = 0xFFFF → gives (.seatClaim node) ⟨n, seat.offer, seat.epoch + 1⟩ agent 0)
    ∧ (seat.holder ≠ 0xFFFF → gives (.seatClaim node) seat agent 1)
    ∧ (seat.holder = n → gives (.seatOffer node target) ⟨n, BitVec.ofNat 16 target, seat.epoch⟩ agent 0)
    ∧ (seat.holder ≠ n → gives (.seatOffer node target) seat agent 1)
    ∧ (seat.offer = n → gives (.seatAccept node) ⟨n, 0xFFFF, held n⟩ agent 0)
    ∧ (seat.offer ≠ n → gives (.seatAccept node) seat agent 1)
    ∧ (seat.holder = n → gives (.seatRelease node) ⟨0xFFFF, 0xFFFF, seat.epoch + 1⟩ agent 0)
    ∧ (seat.holder ≠ n → gives (.seatRelease node) seat agent 1)
    ∧ gives .seatClear ⟨0xFFFF, 0xFFFF, held 0xFFFF⟩ noAgent 0
    ∧ ∀ op, op = 0 ∨ op = 6 ∨ op = 7 → gives (.seatRefusedOp node op) seat agent 1)
  ∧ (∀ (s : State) (node off : Nat) (v nonce : Word),
    let n := BitVec.ofNat 16 node
    let reg := off / 8 * 8
    let agent : BitVec 32 := n ++ (0xFFFF : BitVec 16)
    (s.boot ≠ .bootfail → node < 0xFFFF →
      (s.seat.holder ≠ n → reg ≠ 0x1000 → ¬ (0x2000 ≤ reg ∧ reg < 0x2400 ∧ reg % 16 = 0) →
        exec (.windowWrite node off v) s = .next { s with replies := s.replies ++ [⟨agent, 1, BitVec.ofNat 64 reg, []⟩] })
      ∧ (s.seat.holder = n → reg = 0x50000 → completes (exec (.windowWrite node off v) s) fun t =>
        t.cap.toNat = max 600 (min 2400 (v.toNat % 4096)) ∧ t.therm = (s.therm && !v.getLsbD 33) ∧ t.meas = s.meas ∧ t.capped = s.capped ∧ t.seat = s.seat)
      ∧ (∀ q, q < 64 → reg = 0x2008 + 16 * q → completes (exec (.windowWrite 0x10000 off v) s) fun t =>
        t.queue q = ⟨v.extractLsb' 27 37, v.extractLsb' 23 4, (s.queue q).err && !v.getLsbD 21, v.getLsbD 20, v.getLsbD 19, v.extractLsb' 0 16, (s.queue q).head, (s.queue q).tail⟩
          ∧ ∀ j, j ≠ q → t.queue j = s.queue j)
      ∧ (s.seat.holder = n → completes (exec (.attestationNonce node nonce) s) fun t => t.nonce = nonce
        ∧ (s.report ≠ none → t.report = s.report ∧ t.attctr = s.attctr)
        ∧ (s.report = none → ∃ r, t.report = some r ∧ r.measurement = s.meas256 ∧ r.fwctr = s.fwctr ∧ r.nonce = nonce ∧ r.node = Config.nodeId ∧ r.boot = s.bootCount
          ∧ (s.attctr < 1024 → t.attctr = s.attctr + 1 ∧ r.signature.isSome = true ∧ t.exhausted = false)
          ∧ (1024 ≤ s.attctr → t.attctr = s.attctr ∧ r.signature = none ∧ t.exhausted = true)))
      ∧ (s.busy = false → exec .snapshotTrigger s = .next { s with busy := true, snapAt := some (s.cycle.toNat + 64) })
      ∧ (s.busy = true → exec .snapshotTrigger s = .next { s with missed := if s.missed = 0xFFFF_FFFF then s.missed else s.missed + 1 }))
    ∧ (s.boot = .bootfail → exec (.windowWrite node off v) s = .next s ∧ exec .snapshotTrigger s = .next s)
    ∧ (s.power ≠ .off → s.turn = .outside (.windowRead (.host n) off) → ∃ t, step s = .next t ∧ t.mem = s.mem
        ∧ t.replies = s.replies ++ [⟨agent, 0, BitVec.ofNat 64 off, toBytes 8 (s.windowRead off).toNat⟩]
        ∧ (off = 0x1000 → s.windowRead off = s.seat.holder ++ s.seat.offer ++ (0 : BitVec 16) ++ s.seat.epoch ++ (0 : BitVec 3))
        ∧ (off = 0x50000 → (s.windowRead off).extractLsb' 0 12 = s.cap ∧ (s.windowRead off).extractLsb' 12 20 = s.meas))
    ∧ (∀ c, s.snapAt = some c → c ≤ s.cycle.toNat → completes (exec .snapshotLatch s) fun t => t.snapAt = none ∧ t.busy = s.busy
      ∧ (∀ i, i < 96 → (i, BitVec.ofNat 64 c) ∈ t.latched) ∧ ∀ k ∈ s.placed, (1024 + k, (s.hartAt k).pc) ∈ t.latched ∧ (2048 + k, (s.hartAt k).instret) ∈ t.latched)
    ∧ (s.snapAt = none → exec .snapshotLanded s = .next { s with busy := false }))

/-- R23, R86, R113, R291, R363, R385 (Tables 05-2, 05-6): a request of a host, under its node's host agent number, or of another node is checked at home and served there: a read
answers the bytes, a write stores them, an atomic changes its location in one step, a transfer leaves its region in transit until its issuer has ended it (how that end
reaches this node is the model's, log 60), and a refusal answers its cause and changes no byte. The exit of another node's hart, or the failure of its core, changes the entries
here by the rows of Table 05-6 (R113, R114, R116). A device in IDLE comes ON. A host's request in a device space is refused with 0x08; that another node's is too is an
inference (log 46). -/
def Obligations.OutsideRequestsAreServedAtHome : Prop :=
  ∀ (s : State) (who ctx space off : Nat) (data : List Byte) (sup : Bool) (p : Place) (c : BitVec 8),
    let u : State := { s with power := if s.power = .idle then .on else s.power, idleSince := none }
    let me : BitVec 32 := BitVec.ofNat 32 who
    let answers (agent : BitVec 32) (cause : BitVec 8) (bs : List Byte) : List Reply := s.replies ++ [⟨agent, cause, BitVec.ofNat 64 off, bs⟩]
    let place (agent : BitVec 32) (host byp : Bool) (kind : Kind) : Except (BitVec 8) Place := u.devicePlace (BitVec.ofNat 16 ctx) (BitVec.ofNat 16 space) off agent host byp kind
    let n := data.length
    s.boot ≠ .bootfail → data ≠ [] → off % 4096 + n ≤ 4096 →
    (∀ r ∈ ([(.hostAccess who ctx space off false data, .hostAccess who ctx space off true data, BitVec.ofNat 32 (who % 65536 * 65536 + 0xFFFF), true, false),
        (.fabricRequest who ctx space off sup (.read n), .fabricRequest who ctx space off sup (.write data), me, false, sup)] : List (Instr × Instr × BitVec 32 × Bool × Bool)),
      (0 < space → space < 0xFF00 → p.node = none → (∀ i, i < n → s.poisoned (p.key + i) = false) →
        (place r.2.2.1 r.2.2.2.1 r.2.2.2.2 .read = .ok p → exec r.1 s = .next { u with replies := answers r.2.2.1 0 (s.homeRead p.key n) })
        ∧ (place r.2.2.1 r.2.2.2.1 r.2.2.2.2 .write = .ok p → completes (exec r.2.1 s) fun t => t.replies = answers r.2.2.1 0 [] ∧ t.h = s.h ∧ t.core = s.core ∧ t.power = u.power
            ∧ (s.frames = [] → s.mem.wf = true → t.homeRead p.key n = data ∧ ∀ k, k < p.key ∨ p.key + n ≤ k → t.homeByte k = s.homeByte k)))
      ∧ (0 < space → space < 0xFF00 → (place r.2.2.1 r.2.2.2.1 r.2.2.2.2 .read = .error c → exec r.1 s = .next { u with replies := answers r.2.2.1 c [] })
        ∧ (place r.2.2.1 r.2.2.2.1 r.2.2.2.2 .write = .error c → exec r.2.1 s = .next { u with replies := answers r.2.2.1 c [] }))
      ∧ ((space = 0 ∨ (0xFF00 ≤ space ∧ space < 65536)) → exec r.1 s = .next { u with replies := answers r.2.2.1 0x08 [] } ∧ exec r.2.1 s = .next { u with replies := answers r.2.2.1 0x08 [] }))
    ∧ (∀ v : Word, off % 8 = 0 → 0 < space → space < 0xFF00 → p.node = none → place me false sup .atomic = .ok p → s.frames = [] → s.poison = [] → s.mem.wf = true →
      completes (exec (.fabricRequest who ctx space off sup (.atomic .add false v 0)) s) fun t => t.replies = answers me 0 (s.homeRead p.key 8)
        ∧ t.homeRead p.key 8 = toBytes 8 ((ofBytes (s.homeRead p.key 8) + v.toNat) % 2 ^ 64) ∧ ∀ k, k < p.key ∨ p.key + 8 ≤ k → t.homeByte k = s.homeByte k)
    ∧ (∀ e die, let o : Origin := ⟨BitVec.ofNat 16 ctx, BitVec.ofNat 16 space, me, false, sup⟩
        let at_ (t : State) : Option KeyEntry := t.entryOf o.ctx o.space off e.size
        u.outsideDie o off = .ok (some die, false) → 16 ≤ e.size → e.size ≤ 40 → off % 2 ^ e.size = 0 → e.state = .owned → e.owner = me → e.lender ≠ noAgent → s.keyring = [e] → e.ctx = o.ctx → e.space = o.space →
        e.base = off → s.keyQueue = [] → me ≠ noAgent →
      (e.transit = false → completes (exec (.fabricRequest who ctx space off sup (.key .ret e.size 0)) s) fun t =>
        at_ t = some { e with transit := true, issuer := me } ∧ t.replies = answers me 0 (toBytes 8 0))
      ∧ (e.transit = true → e.issuer = me → completes (exec (.fabricRequest who ctx space off sup (.keyDone .ret e.size)) s) fun t =>
        at_ t = some { e with owner := e.lender, lender := noAgent, shares := [], transit := false, issuer := noAgent } ∧ t.replies = answers me 0 (toBytes 8 0))
      ∧ (e.transit = false → completes (exec (.fabricRequest who ctx space off sup .exits) s) fun t =>
        at_ t = some { e with owner := e.lender, lender := noAgent, shares := [] } ∧ t.replies = answers me 0 (toBytes 8 0))
      ∧ (e.transit = false → completes (exec (.fabricRequest who ctx space off sup (.coreFails [(o.ctx, me)])) s) fun t =>
        at_ t = some { e with state := .orphaned, poison := true, shares := [], owner := noAgent, lender := noAgent } ∧ t.replies = answers me 0 (toBytes 8 0)))

/-- R366 (Table 18-10): reset starts the boot and keeps storage; a good image is measured and its index kept, a bad one ends in BOOTFAIL; HBM4E is zeroed and the
image written from offset 0; then hart 0 runs in mode S at the entry, when that word may open a convoy.
What reset keeps and that VERIFY is the first state are inferences (log 42); whether a signature is good is open (log 12).
R368 (Tables 18-8, 18-9): the power limit withholds issue while the measured power is above it; heat throttles; a device that has held no hart for 10 ms goes
IDLE and comes back ON; with board power removed no step is taken but a reset. The coding of the inputs is the model's choice (log 5). -/
def Obligations.BootAndPower : Prop :=
  (∀ (s : State),
    let entry := s.physWord 0
    let good := Config.signatureGood s.image s.fwctr = true ∧ s.fwctr ≤ Config.keyIndex s.image
    (s.boot ≠ .verify ∨ s.power = .off → completes (exec .deviceReset s) fun t =>
      t.boot = .verify ∧ t.power = .on ∧ t.placed = [] ∧ t.mem = s.mem ∧ t.poison = s.poison ∧ t.keyring = [] ∧ t.pend = [] ∧ t.launches = [] ∧ t.cycle = 0
        ∧ t.seat = ⟨0xFFFF, 0xFFFF, 0⟩ ∧ t.cap = 2400 ∧ t.fwctr = s.fwctr ∧ t.attctr = s.attctr ∧ t.bootCount = s.bootCount + 1)
    ∧ (s.boot = .verify → s.power ≠ .off → good → exec .deviceReset s =
        .next { s with boot := .zeroing, meas256 := Config.measurement s.image, fwctr := Config.keyIndex s.image })
    ∧ (s.boot = .verify → s.power ≠ .off → ¬ good → exec .deviceReset s = .next { s with boot := .bootfail })
    ∧ (s.boot = .zeroing → s.frames = [] → s.mem.wf = true → s.image.length ≤ 0xC0_0000_0000 → completes (exec .hbmZeroingDone s) fun t =>
      t.boot = .loading ∧ (∀ i (_ : i < s.image.length), ∃ k, physKey i = some k ∧ t.homeByte k = s.image[i])
        ∧ (∀ k, k < lsBase → (∀ i, i < s.image.length → physKey i ≠ some k) → t.homeByte k = 0) ∧ ∀ p ∈ t.poison, lsBase ≤ p)
    ∧ (s.boot = .loading → (s.physWord entry.toNat).getLsbD 63 = true → completes (exec .gueskStart s) fun t =>
      t.boot = .running ∧ t.cur = 0 ∧ t.h.st = .running ∧ t.h.mode = .s ∧ t.h.bare = true ∧ t.h.pc = entry ∧ t.mem = s.mem)
    ∧ (s.boot = .loading → (s.physWord entry.toNat).getLsbD 63 = false → completes (exec .gueskStart s) fun t =>
      t.boot = .bootfail ∧ (t.coreAt 0).failed = true))
  ∧ (∀ (s : State) (watts since : Nat),
    exec (.powerCapCheck watts) s = .next { s with meas := BitVec.ofNat 20 watts, capped := decide (s.cap.toNat < watts) }
    ∧ exec .thermalThrottle s = .next { s with throttle := true }
    ∧ (s.idleSince = some since → s.power = .on → s.placed = [] → since + 10000000 ≤ s.nanos → exec .idleEntry s = .next { s with power := .idle })
    ∧ (s.power = .idle → exec .idleExit s = .next { s with power := .on, idleSince := none })
    ∧ exec .powerOff s = .next { s with power := .off }
    ∧ (s.power = .off → s.turn = .event .deviceReset ∨ s.turn = .outside (.event .deviceReset) → ∃ t, step s = .next t ∧ t.power = .on ∧ t.boot = .verify)
    ∧ (s.power = .off → s.turn ≠ .event .deviceReset → s.turn ≠ .outside (.event .deviceReset) → step s = .fault .off))
end

