-- ==== Sys2Proof/Laws/Decode.lean ====
section
/-! SUPPORT. Reading one field of a word laid out from fields, and when the decoder answers. -/

namespace Sys2Proof

/-! A field or a bit of two joined fields stands in one of them. -/

theorem field_of_low {a : BitVec w} {b : BitVec m} (h : lo + n ≤ m) : (a ++ b).extractLsb' lo n = b.extractLsb' lo n := by
  ext i hi; simp [BitVec.getLsbD_append]; omega

theorem field_of_high {a : BitVec w} {b : BitVec m} (h : m ≤ lo) : (a ++ b).extractLsb' lo n = a.extractLsb' (lo - m) n := by
  ext i hi; simp [BitVec.getLsbD_append]; rw [if_neg (by omega)]; congr 1; omega

theorem field_of_cast {a : BitVec w} (h : w = v) : (a.cast h).extractLsb' lo n = a.extractLsb' lo n := by
  subst h; rfl

theorem field_whole {a : BitVec w} : a.extractLsb' 0 w = a := by simp

theorem field_of_setWidth {a : BitVec w} (h : w ≤ v) : (a.setWidth v).extractLsb' 0 w = a := by
  apply BitVec.eq_of_getLsbD_eq; intro i hi
  simp [hi, Nat.lt_of_lt_of_le hi h]

theorem bit_of_low {a : BitVec w} {b : BitVec m} (h : lo < m) : (a ++ b).getLsbD lo = b.getLsbD lo := by
  simp [BitVec.getLsbD_append, h]

theorem bit_of_high {a : BitVec w} {b : BitVec m} (h : m ≤ lo) : (a ++ b).getLsbD lo = a.getLsbD (lo - m) := by
  simp [BitVec.getLsbD_append, Nat.not_lt.2 h]

theorem bit_of_cast {a : BitVec w} (h : w = v) : (a.cast h).getLsbD lo = a.getLsbD lo := by
  subst h; rfl

theorem bit_of_setWidth {a : BitVec w} (h : lo < v) : (a.setWidth v).getLsbD lo = a.getLsbD lo := by
  simp [h]

/-! The hinge bit. -/

/-- Bit i of a word with H dropped (R53). -/
theorem dropH_bit (w : Word) (i : Nat) (h : i < 64) : (dropH w).getLsbD i = (w.getLsbD i && decide (i ≠ 63)) := by
  have : ∀ i : Fin 64, (0x7FFFFFFFFFFFFFFF#64).getLsbD i = decide (i.val ≠ 63) := by decide
  rw [dropH, BitVec.getLsbD_and]; congr 1; exact this ⟨i, h⟩

theorem dropH_of_clear {w : Word} (h : hinge w = false) : dropH w = w := by
  apply BitVec.eq_of_getLsbD_eq; intro i hi
  rw [dropH_bit w i hi]
  by_cases h6 : i = 63
  · subst h6; rw [show w.getLsbD 63 = false from h]; rfl
  · simp [h6]

/-- A word is the word without H, and H. -/
theorem word_eq (w : Word) : w = dropH w ||| (if hinge w then 0x8000_0000_0000_0000 else 0) := by
  apply BitVec.eq_of_getLsbD_eq; intro i hi
  have k : ∀ i : Fin 64, (0x8000000000000000#64).getLsbD i = decide (i.val = 63) := by decide
  have k := k ⟨i, hi⟩
  rw [BitVec.getLsbD_or, dropH_bit w i hi]
  by_cases h6 : i = 63
  · subst h6
    cases e : w.getLsbD 63 <;> rw [hinge, e] <;> simp
  · cases e : hinge w
    · simp [h6]
    · simp [h6] at k; simp [h6, k]

/-- The decoder answers i exactly when the fields read as i, i is well formed, and i's word is the word read (R73). -/
theorem decode_iff (w : Word) (i : Instr) :
    decode w = some i ↔ decodeFields (dropH w) = some i ∧ i.wf = true ∧ encode i = dropH w := by
  unfold decode
  cases e : decodeFields (dropH w) with
  | none => simp
  | some k =>
    show (if k.wf && encode k == dropH w then some k else none) = some i ↔ _
    by_cases h : k.wf && encode k == dropH w
    · rw [if_pos h]; simp only [Bool.and_eq_true, beq_iff_eq] at h
      constructor
      · rintro ⟨⟩; exact ⟨rfl, h.1, h.2⟩
      · rintro ⟨⟨⟩, -, -⟩; rfl
    · rw [if_neg h]
      constructor
      · intro h'; cases h'
      · rintro ⟨⟨⟩, h1, h2⟩; exact absurd (by simp [h1, h2]) h

/-- What a word decodes to does not depend on H (R53). -/
theorem decode_dropH (w : Word) : decode w = decode (dropH w) := by
  have e : dropH (dropH w) = dropH w := by
    apply dropH_of_clear; rw [hinge, dropH_bit w 63 (by decide)]; simp
  unfold decode; rw [e]

end Sys2Proof
end

