-- ==== Sys2Proof/Laws/Memory.lean ====
section
/-! SUPPORT. Memory by key: every operation keeps the canonical form, and a read after a write. -/

namespace Sys2Proof.Machine

/-- A lower bound may be lowered. -/
theorem memWfFrom_mono {a b : Nat} (h : a ≤ b) : ∀ m, memWfFrom (some b) m → memWfFrom (some a) m
  | [], _ => rfl
  | (k, v) :: t, hm => by
    simp only [memWfFrom, Bool.and_eq_true, decide_eq_true_eq] at hm ⊢
    exact ⟨⟨by omega, hm.1.2⟩, hm.2⟩

/-- A bound may be dropped. -/
theorem memWfFrom_none {a : Nat} : ∀ m, memWfFrom (some a) m → memWfFrom none m
  | [], _ => rfl
  | (k, v) :: t, hm => by
    simp only [memWfFrom, Bool.and_eq_true, decide_eq_true_eq] at hm ⊢
    exact ⟨⟨trivial, hm.1.2⟩, hm.2⟩

/-- The first listed key is what bounds the rest. -/
theorem memWfFrom_cons {lo : Option Nat} {k : Nat} {v : Byte} {t : Memory} :
    memWfFrom lo ((k, v) :: t) ↔ (∀ l, lo = some l → l < k) ∧ v ≠ 0 ∧ memWfFrom (some k) t := by
  cases lo <;> simp [memWfFrom, and_assoc]

/-- A memory with one byte changed is canonical, above the same bound when the key is. -/
theorem memSet_wfFrom (k : Nat) (v : Byte) : ∀ (lo : Option Nat) (m : Memory), (∀ l, lo = some l → l < k) →
    memWfFrom lo m → memWfFrom lo (memSet m k v)
  | lo, [], hk, _ => by
    unfold memSet
    split
    · rfl
    · exact memWfFrom_cons.2 ⟨hk, ‹_›, rfl⟩
  | lo, (a, b) :: t, hk, hm => by
    have h := memWfFrom_cons.1 hm
    unfold memSet
    split
    · split
      · exact hm
      · exact memWfFrom_cons.2 ⟨hk, ‹_›, memWfFrom_cons.2 ⟨by rintro _ ⟨⟩; assumption, h.2⟩⟩
    · split
      · subst_vars
        split
        · cases lo with
          | none => exact memWfFrom_none _ h.2.2
          | some l => exact memWfFrom_mono (Nat.le_of_lt (h.1 l rfl)) _ h.2.2
        · exact memWfFrom_cons.2 ⟨hk, ‹_›, h.2.2⟩
      · exact memWfFrom_cons.2 ⟨h.1, h.2.1, memSet_wfFrom k v (some a) t (by rintro _ ⟨⟩; omega) h.2.2⟩

theorem memSet_wf (m : Memory) (k : Nat) (v : Byte) (h : m.wf) : (memSet m k v).wf :=
  memSet_wfFrom k v none m (by simp) h

theorem memSetN_wf (bs : List Byte) : ∀ (m : Memory) (k : Nat), m.wf → (memSetN m k bs).wf := by
  induction bs with
  | nil => exact fun _ _ h => h
  | cons b t ih => exact fun m k h => ih _ _ (memSet_wf m k b h)

/-- A part of a canonical memory is canonical. -/
theorem filter_wfFrom (p : Host.Cell → Bool) : ∀ (lo : Option Nat) (m : Memory), memWfFrom lo m → memWfFrom lo (m.filter p)
  | _, [], _ => rfl
  | lo, (a, b) :: t, hm => by
    have h := memWfFrom_cons.1 hm
    rw [List.filter_cons]
    split
    · exact memWfFrom_cons.2 ⟨h.1, h.2.1, filter_wfFrom p _ t h.2.2⟩
    · cases lo with
      | none => exact memWfFrom_none _ (filter_wfFrom p _ t h.2.2)
      | some l => exact memWfFrom_mono (Nat.le_of_lt (h.1 l rfl)) _ (filter_wfFrom p _ t h.2.2)

theorem memClear_wf (m : Memory) (lo n : Nat) (h : m.wf) : (memClear m lo n).wf := filter_wfFrom _ _ m h

theorem memCopy_wf (src dst : Memory) (a b n : Nat) (h : dst.wf) : (memCopy src dst a b n).wf := by
  unfold memCopy
  generalize memSlice src a n = l
  have h0 := memClear_wf dst b n h
  generalize memClear dst b n = m at h0 ⊢
  induction l generalizing m with
  | nil => exact h0
  | cons c t ih => exact ih _ (memSet_wf _ _ _ h0)

theorem reset_mem_wf : State.reset.mem.wf := rfl

/-- Below the first key nothing is listed. -/
theorem memGet_below {a k : Nat} : ∀ m, memWfFrom (some a) m → k ≤ a → memGet m k = 0
  | [], _, _ => rfl
  | (b, v) :: t, hm, hk => by
    have h := memWfFrom_cons.1 hm
    have hb := h.1 a rfl
    unfold memGet
    rw [if_neg (by omega), if_pos (by omega)]

/-- A write reads back, and no other key changes. -/
theorem memGet_memSet (k j : Nat) (v : Byte) : ∀ m : Memory, m.wf → memGet (memSet m k v) j = if j = k then v else memGet m j := by
  suffices H : ∀ (lo : Option Nat) (m : Memory), memWfFrom lo m → memGet (memSet m k v) j = if j = k then v else memGet m j from
    fun m h => H none m h
  intro lo m
  induction m generalizing lo with
  | nil =>
    intro _
    by_cases hv : v = 0
    · subst hv; simp [memSet, memGet]
    · by_cases hj : j = k
      · subst hj; rw [memSet, if_neg hv]; simp [memGet]
      · rw [memSet, if_neg hv]; simp [memGet, hj, show ¬ k = j by omega]
  | cons c t ih =>
    obtain ⟨a, b⟩ := c
    intro hm
    have h := memWfFrom_cons.1 hm
    have low : ∀ i, i ≤ a → memGet t i = 0 := fun i hi => memGet_below t h.2.2 hi
    unfold memSet
    by_cases h1 : k < a
    · rw [if_pos h1]
      by_cases hv : v = 0
      · rw [if_pos hv]
        by_cases hj : j = k
        · subst hj; subst hv
          simp [memGet, show ¬ a = j by omega, h1]
        · rw [if_neg hj]
      · rw [if_neg hv]
        by_cases hj : j = k
        · subst hj; simp [memGet]
        · rw [if_neg hj]
          by_cases hlt : j < k
          · simp [memGet, show ¬ k = j by omega, hlt, show ¬ a = j by omega, show j < a by omega]
          · simp [memGet, show ¬ k = j by omega, hlt]
    · rw [if_neg h1]
      by_cases h2 : k = a
      · subst h2
        rw [if_pos rfl]
        by_cases hv : v = 0
        · rw [if_pos hv]
          by_cases hj : j = k
          · subst hj; subst hv; simp [low j (Nat.le_refl _)]
          · rw [if_neg hj]
            by_cases hlt : j < k
            · rw [low j (by omega)]; simp [memGet, show ¬ k = j by omega, hlt]
            · simp [memGet, show ¬ k = j by omega, hlt]
        · rw [if_neg hv]
          by_cases hj : j = k
          · subst hj; simp [memGet]
          · rw [if_neg hj]; simp [memGet, show ¬ k = j by omega]
      · rw [if_neg h2]
        have hi := ih _ h.2.2
        by_cases ha : a = j
        · subst ha; simp [memGet, show ¬ a = k by omega]
        · by_cases hlt : j < a
          · simp [memGet, ha, hlt, show ¬ j = k by omega]
          · simp [memGet, ha, hlt, hi]

/-- Storage put byte by byte keeps the form. -/
theorem putBytes_wf (bs : List Byte) : ∀ (s : State) (k : Nat), s.mem.wf → (s.putBytes k bs).mem.wf := by
  induction bs with
  | nil => exact fun _ _ h => h
  | cons b t ih =>
    intro s k h
    refine ih _ _ ?_
    unfold State.putByte
    split
    · exact h
    · exact memSet_wf _ _ _ h

/-- A write at home keeps the form. -/
theorem homeWrite_wf (s : State) (k : Nat) (bs : List Byte) (h : s.mem.wf) : (s.homeWrite k bs).mem.wf := by
  have h1 : (((s.cutRels k bs.length).healUnits (s.readKeyOf k) bs.length).putBytes (s.readKeyOf k) bs).mem.wf := putBytes_wf bs _ _ h
  unfold State.homeWrite
  split
  · exact putBytes_wf bs _ _ h1
  · exact h1

/-- A line written back keeps the form. -/
theorem writeBack_wf (s : State) (n : Nat) (l : L1Line) (h : s.mem.wf) : (s.writeBack n l).mem.wf := by
  unfold State.writeBack State.lineCheck State.setHart
  repeat' split
  all_goals first | exact h | exact homeWrite_wf _ _ _ h

/-- A sweep of an L1 keeps the form. -/
theorem sweepAt_wf (s : State) (n : Nat) (test : L1Line → Bool) (back keep : Bool) (h : s.mem.wf) : (s.sweepAt n test back keep).mem.wf := by
  have hf (l : List L1Line) : ∀ s : State, s.mem.wf → (l.foldl (fun t l => t.writeBack n l) s).mem.wf := by
    induction l with
    | nil => exact fun _ h => h
    | cons a t ih => exact fun s h => ih _ (writeBack_wf s n a h)
  unfold State.sweepAt State.setCore
  cases back
  · simp only [Bool.false_eq_true, if_false]; split <;> exact h
  · simp only [if_true]; split <;> exact hf _ s h

/-- A handed-off write performed keeps the form. -/
theorem perform_wf (s : State) (p : Pending) (h : s.mem.wf) : (s.perform p).mem.wf := by
  have hs := sweepAt_wf s (p.hart / 8) (fun l => l.covers p.node p.ctx p.space p.key p.data.length) true false h
  unfold State.perform
  generalize h0 : (if p.flush then (s.sweepAt (p.hart / 8) (fun l => l.covers p.node p.ctx p.space p.key p.data.length) true false).dropFills
    p.hart p.node p.key p.data.length else s) = s0
  have h0 : s0.mem.wf := by
    rw [← h0]
    split
    · exact hs
    · exact h
  dsimp only
  split
  · exact h0
  · exact homeWrite_wf _ _ _ h0

end Sys2Proof.Machine
end

