-- ==== Sys2Proof/Laws/State.lean ====
section
/-! SUPPORT. What the plain updates of the state leave as it is and what they write: one lemma per field and update, true by `rfl`. -/

namespace Sys2Proof.Machine

namespace State

/-! `setX` changes the current hart only. -/

@[simp] theorem setX_cur (s : State) (r : XReg) (w : Word) : (s.setX r w).cur = s.cur := rfl
@[simp] theorem setX_core (s : State) (r : XReg) (w : Word) : (s.setX r w).core = s.core := rfl
@[simp] theorem setX_harts (s : State) (r : XReg) (w : Word) : (s.setX r w).harts = s.harts := rfl
@[simp] theorem setX_cores (s : State) (r : XReg) (w : Word) : (s.setX r w).cores = s.cores := rfl
@[simp] theorem setX_walkers (s : State) (r : XReg) (w : Word) : (s.setX r w).walkers = s.walkers := rfl
@[simp] theorem setX_mem (s : State) (r : XReg) (w : Word) : (s.setX r w).mem = s.mem := rfl
@[simp] theorem setX_poison (s : State) (r : XReg) (w : Word) : (s.setX r w).poison = s.poison := rfl
@[simp] theorem setX_pend (s : State) (r : XReg) (w : Word) : (s.setX r w).pend = s.pend := rfl
@[simp] theorem setX_packets (s : State) (r : XReg) (w : Word) : (s.setX r w).packets = s.packets := rfl
@[simp] theorem setX_remote (s : State) (r : XReg) (w : Word) : (s.setX r w).remote = s.remote := rfl
@[simp] theorem setX_replies (s : State) (r : XReg) (w : Word) : (s.setX r w).replies = s.replies := rfl
@[simp] theorem setX_rels (s : State) (r : XReg) (w : Word) : (s.setX r w).rels = s.rels := rfl
@[simp] theorem setX_early (s : State) (r : XReg) (w : Word) : (s.setX r w).early = s.early := rfl
@[simp] theorem setX_keyring (s : State) (r : XReg) (w : Word) : (s.setX r w).keyring = s.keyring := rfl
@[simp] theorem setX_keyQueue (s : State) (r : XReg) (w : Word) : (s.setX r w).keyQueue = s.keyQueue := rfl
@[simp] theorem setX_contexts (s : State) (r : XReg) (w : Word) : (s.setX r w).contexts = s.contexts := rfl
@[simp] theorem setX_gangs (s : State) (r : XReg) (w : Word) : (s.setX r w).gangs = s.gangs := rfl
@[simp] theorem setX_launches (s : State) (r : XReg) (w : Word) : (s.setX r w).launches = s.launches := rfl
@[simp] theorem setX_waiting (s : State) (r : XReg) (w : Word) : (s.setX r w).waiting = s.waiting := rfl
@[simp] theorem setX_scans (s : State) (r : XReg) (w : Word) : (s.setX r w).scans = s.scans := rfl
@[simp] theorem setX_queues (s : State) (r : XReg) (w : Word) : (s.setX r w).queues = s.queues := rfl
@[simp] theorem setX_frames (s : State) (r : XReg) (w : Word) : (s.setX r w).frames = s.frames := rfl
@[simp] theorem setX_timers (s : State) (r : XReg) (w : Word) : (s.setX r w).timers = s.timers := rfl
@[simp] theorem setX_cycle (s : State) (r : XReg) (w : Word) : (s.setX r w).cycle = s.cycle := rfl
@[simp] theorem setX_dcaddr (s : State) (r : XReg) (w : Word) : (s.setX r w).dcaddr = s.dcaddr := rfl
@[simp] theorem setX_missed (s : State) (r : XReg) (w : Word) : (s.setX r w).missed = s.missed := rfl
@[simp] theorem setX_busy (s : State) (r : XReg) (w : Word) : (s.setX r w).busy = s.busy := rfl
@[simp] theorem setX_snapAt (s : State) (r : XReg) (w : Word) : (s.setX r w).snapAt = s.snapAt := rfl
@[simp] theorem setX_latched (s : State) (r : XReg) (w : Word) : (s.setX r w).latched = s.latched := rfl
@[simp] theorem setX_seat (s : State) (r : XReg) (w : Word) : (s.setX r w).seat = s.seat := rfl
@[simp] theorem setX_boot (s : State) (r : XReg) (w : Word) : (s.setX r w).boot = s.boot := rfl
@[simp] theorem setX_power (s : State) (r : XReg) (w : Word) : (s.setX r w).power = s.power := rfl
@[simp] theorem setX_therm (s : State) (r : XReg) (w : Word) : (s.setX r w).therm = s.therm := rfl
@[simp] theorem setX_capped (s : State) (r : XReg) (w : Word) : (s.setX r w).capped = s.capped := rfl
@[simp] theorem setX_meas (s : State) (r : XReg) (w : Word) : (s.setX r w).meas = s.meas := rfl
@[simp] theorem setX_cap (s : State) (r : XReg) (w : Word) : (s.setX r w).cap = s.cap := rfl
@[simp] theorem setX_throttle (s : State) (r : XReg) (w : Word) : (s.setX r w).throttle = s.throttle := rfl
@[simp] theorem setX_counters (s : State) (r : XReg) (w : Word) : (s.setX r w).counters = s.counters := rfl
@[simp] theorem setX_image (s : State) (r : XReg) (w : Word) : (s.setX r w).image = s.image := rfl
@[simp] theorem setX_fwctr (s : State) (r : XReg) (w : Word) : (s.setX r w).fwctr = s.fwctr := rfl
@[simp] theorem setX_attctr (s : State) (r : XReg) (w : Word) : (s.setX r w).attctr = s.attctr := rfl
@[simp] theorem setX_bootCount (s : State) (r : XReg) (w : Word) : (s.setX r w).bootCount = s.bootCount := rfl
@[simp] theorem setX_meas256 (s : State) (r : XReg) (w : Word) : (s.setX r w).meas256 = s.meas256 := rfl
@[simp] theorem setX_nonce (s : State) (r : XReg) (w : Word) : (s.setX r w).nonce = s.nonce := rfl
@[simp] theorem setX_report (s : State) (r : XReg) (w : Word) : (s.setX r w).report = s.report := rfl
@[simp] theorem setX_exhausted (s : State) (r : XReg) (w : Word) : (s.setX r w).exhausted = s.exhausted := rfl
@[simp] theorem setX_unreachable (s : State) (r : XReg) (w : Word) : (s.setX r w).unreachable = s.unreachable := rfl
@[simp] theorem setX_ports (s : State) (r : XReg) (w : Word) : (s.setX r w).ports = s.ports := rfl
@[simp] theorem setX_idleSince (s : State) (r : XReg) (w : Word) : (s.setX r w).idleSince = s.idleSince := rfl
@[simp] theorem setX_nextId (s : State) (r : XReg) (w : Word) : (s.setX r w).nextId = s.nextId := rfl
@[simp] theorem setX_tick (s : State) (r : XReg) (w : Word) : (s.setX r w).tick = s.tick := rfl
@[simp] theorem setX_turn (s : State) (r : XReg) (w : Word) : (s.setX r w).turn = s.turn := rfl
@[simp] theorem setX_inputs (s : State) (r : XReg) (w : Word) : (s.setX r w).inputs = s.inputs := rfl

/-! `setChain` changes the current hart only. -/

@[simp] theorem setChain_cur (s : State) (r : VReg) (d : Desc) : (s.setChain r d).cur = s.cur := rfl
@[simp] theorem setChain_core (s : State) (r : VReg) (d : Desc) : (s.setChain r d).core = s.core := rfl
@[simp] theorem setChain_harts (s : State) (r : VReg) (d : Desc) : (s.setChain r d).harts = s.harts := rfl
@[simp] theorem setChain_cores (s : State) (r : VReg) (d : Desc) : (s.setChain r d).cores = s.cores := rfl
@[simp] theorem setChain_walkers (s : State) (r : VReg) (d : Desc) : (s.setChain r d).walkers = s.walkers := rfl
@[simp] theorem setChain_mem (s : State) (r : VReg) (d : Desc) : (s.setChain r d).mem = s.mem := rfl
@[simp] theorem setChain_poison (s : State) (r : VReg) (d : Desc) : (s.setChain r d).poison = s.poison := rfl
@[simp] theorem setChain_pend (s : State) (r : VReg) (d : Desc) : (s.setChain r d).pend = s.pend := rfl
@[simp] theorem setChain_packets (s : State) (r : VReg) (d : Desc) : (s.setChain r d).packets = s.packets := rfl
@[simp] theorem setChain_remote (s : State) (r : VReg) (d : Desc) : (s.setChain r d).remote = s.remote := rfl
@[simp] theorem setChain_replies (s : State) (r : VReg) (d : Desc) : (s.setChain r d).replies = s.replies := rfl
@[simp] theorem setChain_rels (s : State) (r : VReg) (d : Desc) : (s.setChain r d).rels = s.rels := rfl
@[simp] theorem setChain_early (s : State) (r : VReg) (d : Desc) : (s.setChain r d).early = s.early := rfl
@[simp] theorem setChain_keyring (s : State) (r : VReg) (d : Desc) : (s.setChain r d).keyring = s.keyring := rfl
@[simp] theorem setChain_keyQueue (s : State) (r : VReg) (d : Desc) : (s.setChain r d).keyQueue = s.keyQueue := rfl
@[simp] theorem setChain_contexts (s : State) (r : VReg) (d : Desc) : (s.setChain r d).contexts = s.contexts := rfl
@[simp] theorem setChain_gangs (s : State) (r : VReg) (d : Desc) : (s.setChain r d).gangs = s.gangs := rfl
@[simp] theorem setChain_launches (s : State) (r : VReg) (d : Desc) : (s.setChain r d).launches = s.launches := rfl
@[simp] theorem setChain_waiting (s : State) (r : VReg) (d : Desc) : (s.setChain r d).waiting = s.waiting := rfl
@[simp] theorem setChain_scans (s : State) (r : VReg) (d : Desc) : (s.setChain r d).scans = s.scans := rfl
@[simp] theorem setChain_queues (s : State) (r : VReg) (d : Desc) : (s.setChain r d).queues = s.queues := rfl
@[simp] theorem setChain_frames (s : State) (r : VReg) (d : Desc) : (s.setChain r d).frames = s.frames := rfl
@[simp] theorem setChain_timers (s : State) (r : VReg) (d : Desc) : (s.setChain r d).timers = s.timers := rfl
@[simp] theorem setChain_cycle (s : State) (r : VReg) (d : Desc) : (s.setChain r d).cycle = s.cycle := rfl
@[simp] theorem setChain_dcaddr (s : State) (r : VReg) (d : Desc) : (s.setChain r d).dcaddr = s.dcaddr := rfl
@[simp] theorem setChain_missed (s : State) (r : VReg) (d : Desc) : (s.setChain r d).missed = s.missed := rfl
@[simp] theorem setChain_busy (s : State) (r : VReg) (d : Desc) : (s.setChain r d).busy = s.busy := rfl
@[simp] theorem setChain_snapAt (s : State) (r : VReg) (d : Desc) : (s.setChain r d).snapAt = s.snapAt := rfl
@[simp] theorem setChain_latched (s : State) (r : VReg) (d : Desc) : (s.setChain r d).latched = s.latched := rfl
@[simp] theorem setChain_seat (s : State) (r : VReg) (d : Desc) : (s.setChain r d).seat = s.seat := rfl
@[simp] theorem setChain_boot (s : State) (r : VReg) (d : Desc) : (s.setChain r d).boot = s.boot := rfl
@[simp] theorem setChain_power (s : State) (r : VReg) (d : Desc) : (s.setChain r d).power = s.power := rfl
@[simp] theorem setChain_therm (s : State) (r : VReg) (d : Desc) : (s.setChain r d).therm = s.therm := rfl
@[simp] theorem setChain_capped (s : State) (r : VReg) (d : Desc) : (s.setChain r d).capped = s.capped := rfl
@[simp] theorem setChain_meas (s : State) (r : VReg) (d : Desc) : (s.setChain r d).meas = s.meas := rfl
@[simp] theorem setChain_cap (s : State) (r : VReg) (d : Desc) : (s.setChain r d).cap = s.cap := rfl
@[simp] theorem setChain_throttle (s : State) (r : VReg) (d : Desc) : (s.setChain r d).throttle = s.throttle := rfl
@[simp] theorem setChain_counters (s : State) (r : VReg) (d : Desc) : (s.setChain r d).counters = s.counters := rfl
@[simp] theorem setChain_image (s : State) (r : VReg) (d : Desc) : (s.setChain r d).image = s.image := rfl
@[simp] theorem setChain_fwctr (s : State) (r : VReg) (d : Desc) : (s.setChain r d).fwctr = s.fwctr := rfl
@[simp] theorem setChain_attctr (s : State) (r : VReg) (d : Desc) : (s.setChain r d).attctr = s.attctr := rfl
@[simp] theorem setChain_bootCount (s : State) (r : VReg) (d : Desc) : (s.setChain r d).bootCount = s.bootCount := rfl
@[simp] theorem setChain_meas256 (s : State) (r : VReg) (d : Desc) : (s.setChain r d).meas256 = s.meas256 := rfl
@[simp] theorem setChain_nonce (s : State) (r : VReg) (d : Desc) : (s.setChain r d).nonce = s.nonce := rfl
@[simp] theorem setChain_report (s : State) (r : VReg) (d : Desc) : (s.setChain r d).report = s.report := rfl
@[simp] theorem setChain_exhausted (s : State) (r : VReg) (d : Desc) : (s.setChain r d).exhausted = s.exhausted := rfl
@[simp] theorem setChain_unreachable (s : State) (r : VReg) (d : Desc) : (s.setChain r d).unreachable = s.unreachable := rfl
@[simp] theorem setChain_ports (s : State) (r : VReg) (d : Desc) : (s.setChain r d).ports = s.ports := rfl
@[simp] theorem setChain_idleSince (s : State) (r : VReg) (d : Desc) : (s.setChain r d).idleSince = s.idleSince := rfl
@[simp] theorem setChain_nextId (s : State) (r : VReg) (d : Desc) : (s.setChain r d).nextId = s.nextId := rfl
@[simp] theorem setChain_tick (s : State) (r : VReg) (d : Desc) : (s.setChain r d).tick = s.tick := rfl
@[simp] theorem setChain_turn (s : State) (r : VReg) (d : Desc) : (s.setChain r d).turn = s.turn := rfl
@[simp] theorem setChain_inputs (s : State) (r : VReg) (d : Desc) : (s.setChain r d).inputs = s.inputs := rfl

/-! `setMask` changes the current hart only. -/

@[simp] theorem setMask_cur (s : State) (r : MReg) (w : BitVec 8192) : (s.setMask r w).cur = s.cur := rfl
@[simp] theorem setMask_core (s : State) (r : MReg) (w : BitVec 8192) : (s.setMask r w).core = s.core := rfl
@[simp] theorem setMask_harts (s : State) (r : MReg) (w : BitVec 8192) : (s.setMask r w).harts = s.harts := rfl
@[simp] theorem setMask_cores (s : State) (r : MReg) (w : BitVec 8192) : (s.setMask r w).cores = s.cores := rfl
@[simp] theorem setMask_walkers (s : State) (r : MReg) (w : BitVec 8192) : (s.setMask r w).walkers = s.walkers := rfl
@[simp] theorem setMask_mem (s : State) (r : MReg) (w : BitVec 8192) : (s.setMask r w).mem = s.mem := rfl
@[simp] theorem setMask_poison (s : State) (r : MReg) (w : BitVec 8192) : (s.setMask r w).poison = s.poison := rfl
@[simp] theorem setMask_pend (s : State) (r : MReg) (w : BitVec 8192) : (s.setMask r w).pend = s.pend := rfl
@[simp] theorem setMask_packets (s : State) (r : MReg) (w : BitVec 8192) : (s.setMask r w).packets = s.packets := rfl
@[simp] theorem setMask_remote (s : State) (r : MReg) (w : BitVec 8192) : (s.setMask r w).remote = s.remote := rfl
@[simp] theorem setMask_replies (s : State) (r : MReg) (w : BitVec 8192) : (s.setMask r w).replies = s.replies := rfl
@[simp] theorem setMask_rels (s : State) (r : MReg) (w : BitVec 8192) : (s.setMask r w).rels = s.rels := rfl
@[simp] theorem setMask_early (s : State) (r : MReg) (w : BitVec 8192) : (s.setMask r w).early = s.early := rfl
@[simp] theorem setMask_keyring (s : State) (r : MReg) (w : BitVec 8192) : (s.setMask r w).keyring = s.keyring := rfl
@[simp] theorem setMask_keyQueue (s : State) (r : MReg) (w : BitVec 8192) : (s.setMask r w).keyQueue = s.keyQueue := rfl
@[simp] theorem setMask_contexts (s : State) (r : MReg) (w : BitVec 8192) : (s.setMask r w).contexts = s.contexts := rfl
@[simp] theorem setMask_gangs (s : State) (r : MReg) (w : BitVec 8192) : (s.setMask r w).gangs = s.gangs := rfl
@[simp] theorem setMask_launches (s : State) (r : MReg) (w : BitVec 8192) : (s.setMask r w).launches = s.launches := rfl
@[simp] theorem setMask_waiting (s : State) (r : MReg) (w : BitVec 8192) : (s.setMask r w).waiting = s.waiting := rfl
@[simp] theorem setMask_scans (s : State) (r : MReg) (w : BitVec 8192) : (s.setMask r w).scans = s.scans := rfl
@[simp] theorem setMask_queues (s : State) (r : MReg) (w : BitVec 8192) : (s.setMask r w).queues = s.queues := rfl
@[simp] theorem setMask_frames (s : State) (r : MReg) (w : BitVec 8192) : (s.setMask r w).frames = s.frames := rfl
@[simp] theorem setMask_timers (s : State) (r : MReg) (w : BitVec 8192) : (s.setMask r w).timers = s.timers := rfl
@[simp] theorem setMask_cycle (s : State) (r : MReg) (w : BitVec 8192) : (s.setMask r w).cycle = s.cycle := rfl
@[simp] theorem setMask_dcaddr (s : State) (r : MReg) (w : BitVec 8192) : (s.setMask r w).dcaddr = s.dcaddr := rfl
@[simp] theorem setMask_missed (s : State) (r : MReg) (w : BitVec 8192) : (s.setMask r w).missed = s.missed := rfl
@[simp] theorem setMask_busy (s : State) (r : MReg) (w : BitVec 8192) : (s.setMask r w).busy = s.busy := rfl
@[simp] theorem setMask_snapAt (s : State) (r : MReg) (w : BitVec 8192) : (s.setMask r w).snapAt = s.snapAt := rfl
@[simp] theorem setMask_latched (s : State) (r : MReg) (w : BitVec 8192) : (s.setMask r w).latched = s.latched := rfl
@[simp] theorem setMask_seat (s : State) (r : MReg) (w : BitVec 8192) : (s.setMask r w).seat = s.seat := rfl
@[simp] theorem setMask_boot (s : State) (r : MReg) (w : BitVec 8192) : (s.setMask r w).boot = s.boot := rfl
@[simp] theorem setMask_power (s : State) (r : MReg) (w : BitVec 8192) : (s.setMask r w).power = s.power := rfl
@[simp] theorem setMask_therm (s : State) (r : MReg) (w : BitVec 8192) : (s.setMask r w).therm = s.therm := rfl
@[simp] theorem setMask_capped (s : State) (r : MReg) (w : BitVec 8192) : (s.setMask r w).capped = s.capped := rfl
@[simp] theorem setMask_meas (s : State) (r : MReg) (w : BitVec 8192) : (s.setMask r w).meas = s.meas := rfl
@[simp] theorem setMask_cap (s : State) (r : MReg) (w : BitVec 8192) : (s.setMask r w).cap = s.cap := rfl
@[simp] theorem setMask_throttle (s : State) (r : MReg) (w : BitVec 8192) : (s.setMask r w).throttle = s.throttle := rfl
@[simp] theorem setMask_counters (s : State) (r : MReg) (w : BitVec 8192) : (s.setMask r w).counters = s.counters := rfl
@[simp] theorem setMask_image (s : State) (r : MReg) (w : BitVec 8192) : (s.setMask r w).image = s.image := rfl
@[simp] theorem setMask_fwctr (s : State) (r : MReg) (w : BitVec 8192) : (s.setMask r w).fwctr = s.fwctr := rfl
@[simp] theorem setMask_attctr (s : State) (r : MReg) (w : BitVec 8192) : (s.setMask r w).attctr = s.attctr := rfl
@[simp] theorem setMask_bootCount (s : State) (r : MReg) (w : BitVec 8192) : (s.setMask r w).bootCount = s.bootCount := rfl
@[simp] theorem setMask_meas256 (s : State) (r : MReg) (w : BitVec 8192) : (s.setMask r w).meas256 = s.meas256 := rfl
@[simp] theorem setMask_nonce (s : State) (r : MReg) (w : BitVec 8192) : (s.setMask r w).nonce = s.nonce := rfl
@[simp] theorem setMask_report (s : State) (r : MReg) (w : BitVec 8192) : (s.setMask r w).report = s.report := rfl
@[simp] theorem setMask_exhausted (s : State) (r : MReg) (w : BitVec 8192) : (s.setMask r w).exhausted = s.exhausted := rfl
@[simp] theorem setMask_unreachable (s : State) (r : MReg) (w : BitVec 8192) : (s.setMask r w).unreachable = s.unreachable := rfl
@[simp] theorem setMask_ports (s : State) (r : MReg) (w : BitVec 8192) : (s.setMask r w).ports = s.ports := rfl
@[simp] theorem setMask_idleSince (s : State) (r : MReg) (w : BitVec 8192) : (s.setMask r w).idleSince = s.idleSince := rfl
@[simp] theorem setMask_nextId (s : State) (r : MReg) (w : BitVec 8192) : (s.setMask r w).nextId = s.nextId := rfl
@[simp] theorem setMask_tick (s : State) (r : MReg) (w : BitVec 8192) : (s.setMask r w).tick = s.tick := rfl
@[simp] theorem setMask_turn (s : State) (r : MReg) (w : BitVec 8192) : (s.setMask r w).turn = s.turn := rfl
@[simp] theorem setMask_inputs (s : State) (r : MReg) (w : BitVec 8192) : (s.setMask r w).inputs = s.inputs := rfl

/-! `retire` changes the current hart only. -/

@[simp] theorem retire_cur (s : State) : (s.retire).cur = s.cur := rfl
@[simp] theorem retire_core (s : State) : (s.retire).core = s.core := rfl
@[simp] theorem retire_harts (s : State) : (s.retire).harts = s.harts := rfl
@[simp] theorem retire_cores (s : State) : (s.retire).cores = s.cores := rfl
@[simp] theorem retire_walkers (s : State) : (s.retire).walkers = s.walkers := rfl
@[simp] theorem retire_mem (s : State) : (s.retire).mem = s.mem := rfl
@[simp] theorem retire_poison (s : State) : (s.retire).poison = s.poison := rfl
@[simp] theorem retire_pend (s : State) : (s.retire).pend = s.pend := rfl
@[simp] theorem retire_packets (s : State) : (s.retire).packets = s.packets := rfl
@[simp] theorem retire_remote (s : State) : (s.retire).remote = s.remote := rfl
@[simp] theorem retire_replies (s : State) : (s.retire).replies = s.replies := rfl
@[simp] theorem retire_rels (s : State) : (s.retire).rels = s.rels := rfl
@[simp] theorem retire_early (s : State) : (s.retire).early = s.early := rfl
@[simp] theorem retire_keyring (s : State) : (s.retire).keyring = s.keyring := rfl
@[simp] theorem retire_keyQueue (s : State) : (s.retire).keyQueue = s.keyQueue := rfl
@[simp] theorem retire_contexts (s : State) : (s.retire).contexts = s.contexts := rfl
@[simp] theorem retire_gangs (s : State) : (s.retire).gangs = s.gangs := rfl
@[simp] theorem retire_launches (s : State) : (s.retire).launches = s.launches := rfl
@[simp] theorem retire_waiting (s : State) : (s.retire).waiting = s.waiting := rfl
@[simp] theorem retire_scans (s : State) : (s.retire).scans = s.scans := rfl
@[simp] theorem retire_queues (s : State) : (s.retire).queues = s.queues := rfl
@[simp] theorem retire_frames (s : State) : (s.retire).frames = s.frames := rfl
@[simp] theorem retire_timers (s : State) : (s.retire).timers = s.timers := rfl
@[simp] theorem retire_cycle (s : State) : (s.retire).cycle = s.cycle := rfl
@[simp] theorem retire_dcaddr (s : State) : (s.retire).dcaddr = s.dcaddr := rfl
@[simp] theorem retire_missed (s : State) : (s.retire).missed = s.missed := rfl
@[simp] theorem retire_busy (s : State) : (s.retire).busy = s.busy := rfl
@[simp] theorem retire_snapAt (s : State) : (s.retire).snapAt = s.snapAt := rfl
@[simp] theorem retire_latched (s : State) : (s.retire).latched = s.latched := rfl
@[simp] theorem retire_seat (s : State) : (s.retire).seat = s.seat := rfl
@[simp] theorem retire_boot (s : State) : (s.retire).boot = s.boot := rfl
@[simp] theorem retire_power (s : State) : (s.retire).power = s.power := rfl
@[simp] theorem retire_therm (s : State) : (s.retire).therm = s.therm := rfl
@[simp] theorem retire_capped (s : State) : (s.retire).capped = s.capped := rfl
@[simp] theorem retire_meas (s : State) : (s.retire).meas = s.meas := rfl
@[simp] theorem retire_cap (s : State) : (s.retire).cap = s.cap := rfl
@[simp] theorem retire_throttle (s : State) : (s.retire).throttle = s.throttle := rfl
@[simp] theorem retire_counters (s : State) : (s.retire).counters = s.counters := rfl
@[simp] theorem retire_image (s : State) : (s.retire).image = s.image := rfl
@[simp] theorem retire_fwctr (s : State) : (s.retire).fwctr = s.fwctr := rfl
@[simp] theorem retire_attctr (s : State) : (s.retire).attctr = s.attctr := rfl
@[simp] theorem retire_bootCount (s : State) : (s.retire).bootCount = s.bootCount := rfl
@[simp] theorem retire_meas256 (s : State) : (s.retire).meas256 = s.meas256 := rfl
@[simp] theorem retire_nonce (s : State) : (s.retire).nonce = s.nonce := rfl
@[simp] theorem retire_report (s : State) : (s.retire).report = s.report := rfl
@[simp] theorem retire_exhausted (s : State) : (s.retire).exhausted = s.exhausted := rfl
@[simp] theorem retire_unreachable (s : State) : (s.retire).unreachable = s.unreachable := rfl
@[simp] theorem retire_ports (s : State) : (s.retire).ports = s.ports := rfl
@[simp] theorem retire_idleSince (s : State) : (s.retire).idleSince = s.idleSince := rfl
@[simp] theorem retire_nextId (s : State) : (s.retire).nextId = s.nextId := rfl
@[simp] theorem retire_tick (s : State) : (s.retire).tick = s.tick := rfl
@[simp] theorem retire_turn (s : State) : (s.retire).turn = s.turn := rfl
@[simp] theorem retire_inputs (s : State) : (s.retire).inputs = s.inputs := rfl

/-! `awake` changes the current hart only. -/

@[simp] theorem awake_cur (s : State) : (s.awake).cur = s.cur := rfl
@[simp] theorem awake_core (s : State) : (s.awake).core = s.core := rfl
@[simp] theorem awake_harts (s : State) : (s.awake).harts = s.harts := rfl
@[simp] theorem awake_cores (s : State) : (s.awake).cores = s.cores := rfl
@[simp] theorem awake_walkers (s : State) : (s.awake).walkers = s.walkers := rfl
@[simp] theorem awake_mem (s : State) : (s.awake).mem = s.mem := rfl
@[simp] theorem awake_poison (s : State) : (s.awake).poison = s.poison := rfl
@[simp] theorem awake_pend (s : State) : (s.awake).pend = s.pend := rfl
@[simp] theorem awake_packets (s : State) : (s.awake).packets = s.packets := rfl
@[simp] theorem awake_remote (s : State) : (s.awake).remote = s.remote := rfl
@[simp] theorem awake_replies (s : State) : (s.awake).replies = s.replies := rfl
@[simp] theorem awake_rels (s : State) : (s.awake).rels = s.rels := rfl
@[simp] theorem awake_early (s : State) : (s.awake).early = s.early := rfl
@[simp] theorem awake_keyring (s : State) : (s.awake).keyring = s.keyring := rfl
@[simp] theorem awake_keyQueue (s : State) : (s.awake).keyQueue = s.keyQueue := rfl
@[simp] theorem awake_contexts (s : State) : (s.awake).contexts = s.contexts := rfl
@[simp] theorem awake_gangs (s : State) : (s.awake).gangs = s.gangs := rfl
@[simp] theorem awake_launches (s : State) : (s.awake).launches = s.launches := rfl
@[simp] theorem awake_waiting (s : State) : (s.awake).waiting = s.waiting := rfl
@[simp] theorem awake_scans (s : State) : (s.awake).scans = s.scans := rfl
@[simp] theorem awake_queues (s : State) : (s.awake).queues = s.queues := rfl
@[simp] theorem awake_frames (s : State) : (s.awake).frames = s.frames := rfl
@[simp] theorem awake_timers (s : State) : (s.awake).timers = s.timers := rfl
@[simp] theorem awake_cycle (s : State) : (s.awake).cycle = s.cycle := rfl
@[simp] theorem awake_dcaddr (s : State) : (s.awake).dcaddr = s.dcaddr := rfl
@[simp] theorem awake_missed (s : State) : (s.awake).missed = s.missed := rfl
@[simp] theorem awake_busy (s : State) : (s.awake).busy = s.busy := rfl
@[simp] theorem awake_snapAt (s : State) : (s.awake).snapAt = s.snapAt := rfl
@[simp] theorem awake_latched (s : State) : (s.awake).latched = s.latched := rfl
@[simp] theorem awake_seat (s : State) : (s.awake).seat = s.seat := rfl
@[simp] theorem awake_boot (s : State) : (s.awake).boot = s.boot := rfl
@[simp] theorem awake_power (s : State) : (s.awake).power = s.power := rfl
@[simp] theorem awake_therm (s : State) : (s.awake).therm = s.therm := rfl
@[simp] theorem awake_capped (s : State) : (s.awake).capped = s.capped := rfl
@[simp] theorem awake_meas (s : State) : (s.awake).meas = s.meas := rfl
@[simp] theorem awake_cap (s : State) : (s.awake).cap = s.cap := rfl
@[simp] theorem awake_throttle (s : State) : (s.awake).throttle = s.throttle := rfl
@[simp] theorem awake_counters (s : State) : (s.awake).counters = s.counters := rfl
@[simp] theorem awake_image (s : State) : (s.awake).image = s.image := rfl
@[simp] theorem awake_fwctr (s : State) : (s.awake).fwctr = s.fwctr := rfl
@[simp] theorem awake_attctr (s : State) : (s.awake).attctr = s.attctr := rfl
@[simp] theorem awake_bootCount (s : State) : (s.awake).bootCount = s.bootCount := rfl
@[simp] theorem awake_meas256 (s : State) : (s.awake).meas256 = s.meas256 := rfl
@[simp] theorem awake_nonce (s : State) : (s.awake).nonce = s.nonce := rfl
@[simp] theorem awake_report (s : State) : (s.awake).report = s.report := rfl
@[simp] theorem awake_exhausted (s : State) : (s.awake).exhausted = s.exhausted := rfl
@[simp] theorem awake_unreachable (s : State) : (s.awake).unreachable = s.unreachable := rfl
@[simp] theorem awake_ports (s : State) : (s.awake).ports = s.ports := rfl
@[simp] theorem awake_idleSince (s : State) : (s.awake).idleSince = s.idleSince := rfl
@[simp] theorem awake_nextId (s : State) : (s.awake).nextId = s.nextId := rfl
@[simp] theorem awake_tick (s : State) : (s.awake).tick = s.tick := rfl
@[simp] theorem awake_turn (s : State) : (s.awake).turn = s.turn := rfl
@[simp] theorem awake_inputs (s : State) : (s.awake).inputs = s.inputs := rfl

/-! `hold` changes the current hart only. -/

@[simp] theorem hold_cur (s : State) (w : Wait) : (s.hold w).cur = s.cur := rfl
@[simp] theorem hold_core (s : State) (w : Wait) : (s.hold w).core = s.core := rfl
@[simp] theorem hold_harts (s : State) (w : Wait) : (s.hold w).harts = s.harts := rfl
@[simp] theorem hold_cores (s : State) (w : Wait) : (s.hold w).cores = s.cores := rfl
@[simp] theorem hold_walkers (s : State) (w : Wait) : (s.hold w).walkers = s.walkers := rfl
@[simp] theorem hold_mem (s : State) (w : Wait) : (s.hold w).mem = s.mem := rfl
@[simp] theorem hold_poison (s : State) (w : Wait) : (s.hold w).poison = s.poison := rfl
@[simp] theorem hold_pend (s : State) (w : Wait) : (s.hold w).pend = s.pend := rfl
@[simp] theorem hold_packets (s : State) (w : Wait) : (s.hold w).packets = s.packets := rfl
@[simp] theorem hold_remote (s : State) (w : Wait) : (s.hold w).remote = s.remote := rfl
@[simp] theorem hold_replies (s : State) (w : Wait) : (s.hold w).replies = s.replies := rfl
@[simp] theorem hold_rels (s : State) (w : Wait) : (s.hold w).rels = s.rels := rfl
@[simp] theorem hold_early (s : State) (w : Wait) : (s.hold w).early = s.early := rfl
@[simp] theorem hold_keyring (s : State) (w : Wait) : (s.hold w).keyring = s.keyring := rfl
@[simp] theorem hold_keyQueue (s : State) (w : Wait) : (s.hold w).keyQueue = s.keyQueue := rfl
@[simp] theorem hold_contexts (s : State) (w : Wait) : (s.hold w).contexts = s.contexts := rfl
@[simp] theorem hold_gangs (s : State) (w : Wait) : (s.hold w).gangs = s.gangs := rfl
@[simp] theorem hold_launches (s : State) (w : Wait) : (s.hold w).launches = s.launches := rfl
@[simp] theorem hold_waiting (s : State) (w : Wait) : (s.hold w).waiting = s.waiting := rfl
@[simp] theorem hold_scans (s : State) (w : Wait) : (s.hold w).scans = s.scans := rfl
@[simp] theorem hold_queues (s : State) (w : Wait) : (s.hold w).queues = s.queues := rfl
@[simp] theorem hold_frames (s : State) (w : Wait) : (s.hold w).frames = s.frames := rfl
@[simp] theorem hold_timers (s : State) (w : Wait) : (s.hold w).timers = s.timers := rfl
@[simp] theorem hold_cycle (s : State) (w : Wait) : (s.hold w).cycle = s.cycle := rfl
@[simp] theorem hold_dcaddr (s : State) (w : Wait) : (s.hold w).dcaddr = s.dcaddr := rfl
@[simp] theorem hold_missed (s : State) (w : Wait) : (s.hold w).missed = s.missed := rfl
@[simp] theorem hold_busy (s : State) (w : Wait) : (s.hold w).busy = s.busy := rfl
@[simp] theorem hold_snapAt (s : State) (w : Wait) : (s.hold w).snapAt = s.snapAt := rfl
@[simp] theorem hold_latched (s : State) (w : Wait) : (s.hold w).latched = s.latched := rfl
@[simp] theorem hold_seat (s : State) (w : Wait) : (s.hold w).seat = s.seat := rfl
@[simp] theorem hold_boot (s : State) (w : Wait) : (s.hold w).boot = s.boot := rfl
@[simp] theorem hold_power (s : State) (w : Wait) : (s.hold w).power = s.power := rfl
@[simp] theorem hold_therm (s : State) (w : Wait) : (s.hold w).therm = s.therm := rfl
@[simp] theorem hold_capped (s : State) (w : Wait) : (s.hold w).capped = s.capped := rfl
@[simp] theorem hold_meas (s : State) (w : Wait) : (s.hold w).meas = s.meas := rfl
@[simp] theorem hold_cap (s : State) (w : Wait) : (s.hold w).cap = s.cap := rfl
@[simp] theorem hold_throttle (s : State) (w : Wait) : (s.hold w).throttle = s.throttle := rfl
@[simp] theorem hold_counters (s : State) (w : Wait) : (s.hold w).counters = s.counters := rfl
@[simp] theorem hold_image (s : State) (w : Wait) : (s.hold w).image = s.image := rfl
@[simp] theorem hold_fwctr (s : State) (w : Wait) : (s.hold w).fwctr = s.fwctr := rfl
@[simp] theorem hold_attctr (s : State) (w : Wait) : (s.hold w).attctr = s.attctr := rfl
@[simp] theorem hold_bootCount (s : State) (w : Wait) : (s.hold w).bootCount = s.bootCount := rfl
@[simp] theorem hold_meas256 (s : State) (w : Wait) : (s.hold w).meas256 = s.meas256 := rfl
@[simp] theorem hold_nonce (s : State) (w : Wait) : (s.hold w).nonce = s.nonce := rfl
@[simp] theorem hold_report (s : State) (w : Wait) : (s.hold w).report = s.report := rfl
@[simp] theorem hold_exhausted (s : State) (w : Wait) : (s.hold w).exhausted = s.exhausted := rfl
@[simp] theorem hold_unreachable (s : State) (w : Wait) : (s.hold w).unreachable = s.unreachable := rfl
@[simp] theorem hold_ports (s : State) (w : Wait) : (s.hold w).ports = s.ports := rfl
@[simp] theorem hold_idleSince (s : State) (w : Wait) : (s.hold w).idleSince = s.idleSince := rfl
@[simp] theorem hold_nextId (s : State) (w : Wait) : (s.hold w).nextId = s.nextId := rfl
@[simp] theorem hold_tick (s : State) (w : Wait) : (s.hold w).tick = s.tick := rfl
@[simp] theorem hold_turn (s : State) (w : Wait) : (s.hold w).turn = s.turn := rfl
@[simp] theorem hold_inputs (s : State) (w : Wait) : (s.hold w).inputs = s.inputs := rfl

@[simp] theorem setChain_h_st (s : State) (r : VReg) (d : Desc) : (s.setChain r d).h.st = s.h.st := rfl
@[simp] theorem setChain_h_wait (s : State) (r : VReg) (d : Desc) : (s.setChain r d).h.wait = s.h.wait := rfl
@[simp] theorem setChain_h_mode (s : State) (r : VReg) (d : Desc) : (s.setChain r d).h.mode = s.h.mode := rfl
@[simp] theorem setChain_h_pc (s : State) (r : VReg) (d : Desc) : (s.setChain r d).h.pc = s.h.pc := rfl
@[simp] theorem setChain_h_xu (s : State) (r : VReg) (d : Desc) : (s.setChain r d).h.xu = s.h.xu := rfl
@[simp] theorem setChain_h_xs (s : State) (r : VReg) (d : Desc) : (s.setChain r d).h.xs = s.h.xs := rfl
@[simp] theorem setChain_h_v (s : State) (r : VReg) (d : Desc) : (s.setChain r d).h.v = s.h.v.set r.toNat d r.isLt := rfl
@[simp] theorem setChain_h_m (s : State) (r : VReg) (d : Desc) : (s.setChain r d).h.m = s.h.m := rfl
@[simp] theorem setChain_h_instret (s : State) (r : VReg) (d : Desc) : (s.setChain r d).h.instret = s.h.instret := rfl
@[simp] theorem setChain_h_hartid (s : State) (r : VReg) (d : Desc) : (s.setChain r d).h.hartid = s.h.hartid := rfl
@[simp] theorem setChain_h_gangid (s : State) (r : VReg) (d : Desc) : (s.setChain r d).h.gangid = s.h.gangid := rfl
@[simp] theorem setChain_h_ganghart (s : State) (r : VReg) (d : Desc) : (s.setChain r d).h.ganghart = s.h.ganghart := rfl
@[simp] theorem setChain_h_gangsize (s : State) (r : VReg) (d : Desc) : (s.setChain r d).h.gangsize = s.h.gangsize := rfl
@[simp] theorem setChain_h_taskid (s : State) (r : VReg) (d : Desc) : (s.setChain r d).h.taskid = s.h.taskid := rfl
@[simp] theorem setChain_h_gbexp (s : State) (r : VReg) (d : Desc) : (s.setChain r d).h.gbexp = s.h.gbexp := rfl
@[simp] theorem setChain_h_myph (s : State) (r : VReg) (d : Desc) : (s.setChain r d).h.myph = s.h.myph := rfl
@[simp] theorem setChain_h_vquota (s : State) (r : VReg) (d : Desc) : (s.setChain r d).h.vquota = s.h.vquota := rfl
@[simp] theorem setChain_h_vused (s : State) (r : VReg) (d : Desc) : (s.setChain r d).h.vused = s.h.vused := rfl
@[simp] theorem setChain_h_vflags (s : State) (r : VReg) (d : Desc) : (s.setChain r d).h.vflags = s.h.vflags := rfl
@[simp] theorem setChain_h_sflags (s : State) (r : VReg) (d : Desc) : (s.setChain r d).h.sflags = s.h.sflags := rfl
@[simp] theorem setChain_h_as (s : State) (r : VReg) (d : Desc) : (s.setChain r d).h.as = s.h.as := rfl
@[simp] theorem setChain_h_pfh (s : State) (r : VReg) (d : Desc) : (s.setChain r d).h.pfh = s.h.pfh := rfl
@[simp] theorem setChain_h_pfpc (s : State) (r : VReg) (d : Desc) : (s.setChain r d).h.pfpc = s.h.pfpc := rfl
@[simp] theorem setChain_h_pfneed (s : State) (r : VReg) (d : Desc) : (s.setChain r d).h.pfneed = s.h.pfneed := rfl
@[simp] theorem setChain_h_pfword (s : State) (r : VReg) (d : Desc) : (s.setChain r d).h.pfword = s.h.pfword := rfl
@[simp] theorem setChain_h_pfvstart (s : State) (r : VReg) (d : Desc) : (s.setChain r d).h.pfvstart = s.h.pfvstart := rfl
@[simp] theorem setChain_h_tvec (s : State) (r : VReg) (d : Desc) : (s.setChain r d).h.tvec = s.h.tvec := rfl
@[simp] theorem setChain_h_tpc (s : State) (r : VReg) (d : Desc) : (s.setChain r d).h.tpc = s.h.tpc := rfl
@[simp] theorem setChain_h_cause (s : State) (r : VReg) (d : Desc) : (s.setChain r d).h.cause = s.h.cause := rfl
@[simp] theorem setChain_h_cword (s : State) (r : VReg) (d : Desc) : (s.setChain r d).h.cword = s.h.cword := rfl
@[simp] theorem setChain_h_incv (s : State) (r : VReg) (d : Desc) : (s.setChain r d).h.incv = s.h.incv := rfl
@[simp] theorem setChain_h_newcv (s : State) (r : VReg) (d : Desc) : (s.setChain r d).h.newcv = s.h.newcv := rfl
@[simp] theorem setChain_h_tval (s : State) (r : VReg) (d : Desc) : (s.setChain r d).h.tval = s.h.tval := rfl
@[simp] theorem setChain_h_hip (s : State) (r : VReg) (d : Desc) : (s.setChain r d).h.hip = s.h.hip := rfl
@[simp] theorem setChain_h_tip (s : State) (r : VReg) (d : Desc) : (s.setChain r d).h.tip = s.h.tip := rfl
@[simp] theorem setChain_h_ie (s : State) (r : VReg) (d : Desc) : (s.setChain r d).h.ie = s.h.ie := rfl
@[simp] theorem setChain_h_ppriv (s : State) (r : VReg) (d : Desc) : (s.setChain r d).h.ppriv = s.h.ppriv := rfl
@[simp] theorem setChain_h_tresOff (s : State) (r : VReg) (d : Desc) : (s.setChain r d).h.tresOff = s.h.tresOff := rfl
@[simp] theorem setChain_h_tscratch (s : State) (r : VReg) (d : Desc) : (s.setChain r d).h.tscratch = s.h.tscratch := rfl
@[simp] theorem setChain_h_kctx (s : State) (r : VReg) (d : Desc) : (s.setChain r d).h.kctx = s.h.kctx := rfl
@[simp] theorem setChain_h_bare (s : State) (r : VReg) (d : Desc) : (s.setChain r d).h.bare = s.h.bare := rfl
@[simp] theorem setChain_h_ptbase (s : State) (r : VReg) (d : Desc) : (s.setChain r d).h.ptbase = s.h.ptbase := rfl
@[simp] theorem setChain_h_saBase (s : State) (r : VReg) (d : Desc) : (s.setChain r d).h.saBase = s.h.saBase := rfl
@[simp] theorem setChain_h_rr (s : State) (r : VReg) (d : Desc) : (s.setChain r d).h.rr = s.h.rr := rfl
@[simp] theorem setChain_h_pfr (s : State) (r : VReg) (d : Desc) : (s.setChain r d).h.pfr = s.h.pfr := rfl
@[simp] theorem setChain_h_convoy (s : State) (r : VReg) (d : Desc) : (s.setChain r d).h.convoy = s.h.convoy := rfl
@[simp] theorem setChain_h_xfer (s : State) (r : VReg) (d : Desc) : (s.setChain r d).h.xfer = s.h.xfer := rfl
@[simp] theorem setChain_h_fresh (s : State) (r : VReg) (d : Desc) : (s.setChain r d).h.fresh = s.h.fresh := rfl
@[simp] theorem setChain_h_tickets (s : State) (r : VReg) (d : Desc) : (s.setChain r d).h.tickets = s.h.tickets := rfl
@[simp] theorem setChain_h_cmds (s : State) (r : VReg) (d : Desc) : (s.setChain r d).h.cmds = s.h.cmds := rfl
@[simp] theorem setChain_h_req (s : State) (r : VReg) (d : Desc) : (s.setChain r d).h.req = s.h.req := rfl
@[simp] theorem setChain_h_debt (s : State) (r : VReg) (d : Desc) : (s.setChain r d).h.debt = s.h.debt := rfl
@[simp] theorem setChain_h_prio (s : State) (r : VReg) (d : Desc) : (s.setChain r d).h.prio = s.h.prio := rfl
@[simp] theorem setChain_h_gang (s : State) (r : VReg) (d : Desc) : (s.setChain r d).h.gang = s.h.gang := rfl
@[simp] theorem setChain_h_suspend (s : State) (r : VReg) (d : Desc) : (s.setChain r d).h.suspend = s.h.suspend := rfl
@[simp] theorem setChain_h_preempt (s : State) (r : VReg) (d : Desc) : (s.setChain r d).h.preempt = s.h.preempt := rfl
@[simp] theorem setChain_h_heat (s : State) (r : VReg) (d : Desc) : (s.setChain r d).h.heat = s.h.heat := rfl
@[simp] theorem setChain_h_restoring (s : State) (r : VReg) (d : Desc) : (s.setChain r d).h.restoring = s.h.restoring := rfl
@[simp] theorem setChain_h_mcheck (s : State) (r : VReg) (d : Desc) : (s.setChain r d).h.mcheck = s.h.mcheck := rfl
@[simp] theorem setChain_h_mheld (s : State) (r : VReg) (d : Desc) : (s.setChain r d).h.mheld = s.h.mheld := rfl
@[simp] theorem setChain_h_due (s : State) (r : VReg) (d : Desc) : (s.setChain r d).h.due = s.h.due := rfl
@[simp] theorem setChain_h_lastIssue (s : State) (r : VReg) (d : Desc) : (s.setChain r d).h.lastIssue = s.h.lastIssue := rfl
@[simp] theorem setChain_h_since (s : State) (r : VReg) (d : Desc) : (s.setChain r d).h.since = s.h.since := rfl
@[simp] theorem setChain_h_iword (s : State) (r : VReg) (d : Desc) : (s.setChain r d).h.iword = s.h.iword := rfl

@[simp] theorem retire_h_st (s : State) : (s.retire).h.st = s.h.st := rfl
@[simp] theorem retire_h_wait (s : State) : (s.retire).h.wait = .none := rfl
@[simp] theorem retire_h_mode (s : State) : (s.retire).h.mode = s.h.mode := rfl
@[simp] theorem retire_h_pc (s : State) : (s.retire).h.pc = s.h.pc + 8 := rfl
@[simp] theorem retire_h_xu (s : State) : (s.retire).h.xu = s.h.xu := rfl
@[simp] theorem retire_h_xs (s : State) : (s.retire).h.xs = s.h.xs := rfl
@[simp] theorem retire_h_v (s : State) : (s.retire).h.v = s.h.v := rfl
@[simp] theorem retire_h_m (s : State) : (s.retire).h.m = s.h.m := rfl
@[simp] theorem retire_h_instret (s : State) : (s.retire).h.instret = s.h.instret + 1 := rfl
@[simp] theorem retire_h_hartid (s : State) : (s.retire).h.hartid = s.h.hartid := rfl
@[simp] theorem retire_h_gangid (s : State) : (s.retire).h.gangid = s.h.gangid := rfl
@[simp] theorem retire_h_ganghart (s : State) : (s.retire).h.ganghart = s.h.ganghart := rfl
@[simp] theorem retire_h_gangsize (s : State) : (s.retire).h.gangsize = s.h.gangsize := rfl
@[simp] theorem retire_h_taskid (s : State) : (s.retire).h.taskid = s.h.taskid := rfl
@[simp] theorem retire_h_gbexp (s : State) : (s.retire).h.gbexp = s.h.gbexp := rfl
@[simp] theorem retire_h_myph (s : State) : (s.retire).h.myph = s.h.myph := rfl
@[simp] theorem retire_h_vquota (s : State) : (s.retire).h.vquota = s.h.vquota := rfl
@[simp] theorem retire_h_vused (s : State) : (s.retire).h.vused = s.h.vused := rfl
@[simp] theorem retire_h_vflags (s : State) : (s.retire).h.vflags = s.h.vflags := rfl
@[simp] theorem retire_h_sflags (s : State) : (s.retire).h.sflags = s.h.sflags := rfl
@[simp] theorem retire_h_as (s : State) : (s.retire).h.as = s.h.as := rfl
@[simp] theorem retire_h_pfh (s : State) : (s.retire).h.pfh = s.h.pfh := rfl
@[simp] theorem retire_h_pfpc (s : State) : (s.retire).h.pfpc = s.h.pfpc := rfl
@[simp] theorem retire_h_pfneed (s : State) : (s.retire).h.pfneed = s.h.pfneed := rfl
@[simp] theorem retire_h_pfword (s : State) : (s.retire).h.pfword = s.h.pfword := rfl
@[simp] theorem retire_h_pfvstart (s : State) : (s.retire).h.pfvstart = s.h.pfvstart := rfl
@[simp] theorem retire_h_tvec (s : State) : (s.retire).h.tvec = s.h.tvec := rfl
@[simp] theorem retire_h_tpc (s : State) : (s.retire).h.tpc = s.h.tpc := rfl
@[simp] theorem retire_h_cause (s : State) : (s.retire).h.cause = s.h.cause := rfl
@[simp] theorem retire_h_cword (s : State) : (s.retire).h.cword = s.h.cword := rfl
@[simp] theorem retire_h_incv (s : State) : (s.retire).h.incv = s.h.incv := rfl
@[simp] theorem retire_h_newcv (s : State) : (s.retire).h.newcv = s.h.newcv := rfl
@[simp] theorem retire_h_tval (s : State) : (s.retire).h.tval = s.h.tval := rfl
@[simp] theorem retire_h_hip (s : State) : (s.retire).h.hip = s.h.hip := rfl
@[simp] theorem retire_h_tip (s : State) : (s.retire).h.tip = s.h.tip := rfl
@[simp] theorem retire_h_ie (s : State) : (s.retire).h.ie = s.h.ie := rfl
@[simp] theorem retire_h_ppriv (s : State) : (s.retire).h.ppriv = s.h.ppriv := rfl
@[simp] theorem retire_h_tresOff (s : State) : (s.retire).h.tresOff = s.h.tresOff := rfl
@[simp] theorem retire_h_tscratch (s : State) : (s.retire).h.tscratch = s.h.tscratch := rfl
@[simp] theorem retire_h_kctx (s : State) : (s.retire).h.kctx = s.h.kctx := rfl
@[simp] theorem retire_h_bare (s : State) : (s.retire).h.bare = s.h.bare := rfl
@[simp] theorem retire_h_ptbase (s : State) : (s.retire).h.ptbase = s.h.ptbase := rfl
@[simp] theorem retire_h_saBase (s : State) : (s.retire).h.saBase = s.h.saBase := rfl
@[simp] theorem retire_h_rr (s : State) : (s.retire).h.rr = s.h.rr := rfl
@[simp] theorem retire_h_pfr (s : State) : (s.retire).h.pfr = s.h.pfr := rfl
@[simp] theorem retire_h_convoy (s : State) : (s.retire).h.convoy = some (s.cv.mark s.pos) := rfl
@[simp] theorem retire_h_xfer (s : State) : (s.retire).h.xfer = s.h.xfer := rfl
@[simp] theorem retire_h_fresh (s : State) : (s.retire).h.fresh = s.h.fresh := rfl
@[simp] theorem retire_h_tickets (s : State) : (s.retire).h.tickets = s.h.tickets := rfl
@[simp] theorem retire_h_cmds (s : State) : (s.retire).h.cmds = s.h.cmds := rfl
@[simp] theorem retire_h_req (s : State) : (s.retire).h.req = s.h.req := rfl
@[simp] theorem retire_h_debt (s : State) : (s.retire).h.debt = s.h.debt := rfl
@[simp] theorem retire_h_prio (s : State) : (s.retire).h.prio = s.h.prio := rfl
@[simp] theorem retire_h_gang (s : State) : (s.retire).h.gang = s.h.gang := rfl
@[simp] theorem retire_h_suspend (s : State) : (s.retire).h.suspend = s.h.suspend := rfl
@[simp] theorem retire_h_preempt (s : State) : (s.retire).h.preempt = s.h.preempt := rfl
@[simp] theorem retire_h_heat (s : State) : (s.retire).h.heat = s.h.heat := rfl
@[simp] theorem retire_h_restoring (s : State) : (s.retire).h.restoring = s.h.restoring := rfl
@[simp] theorem retire_h_mcheck (s : State) : (s.retire).h.mcheck = s.h.mcheck := rfl
@[simp] theorem retire_h_mheld (s : State) : (s.retire).h.mheld = s.h.mheld := rfl
@[simp] theorem retire_h_due (s : State) : (s.retire).h.due = s.h.due := rfl
@[simp] theorem retire_h_lastIssue (s : State) : (s.retire).h.lastIssue = s.h.lastIssue := rfl
@[simp] theorem retire_h_since (s : State) : (s.retire).h.since = s.h.since := rfl
@[simp] theorem retire_h_iword (s : State) : (s.retire).h.iword = s.h.iword := rfl

@[simp] theorem awake_h_st (s : State) : (s.awake).h.st = .running := rfl
@[simp] theorem awake_h_wait (s : State) : (s.awake).h.wait = .none := rfl
@[simp] theorem awake_h_mode (s : State) : (s.awake).h.mode = s.h.mode := rfl
@[simp] theorem awake_h_pc (s : State) : (s.awake).h.pc = s.h.pc := rfl
@[simp] theorem awake_h_xu (s : State) : (s.awake).h.xu = s.h.xu := rfl
@[simp] theorem awake_h_xs (s : State) : (s.awake).h.xs = s.h.xs := rfl
@[simp] theorem awake_h_v (s : State) : (s.awake).h.v = s.h.v := rfl
@[simp] theorem awake_h_m (s : State) : (s.awake).h.m = s.h.m := rfl
@[simp] theorem awake_h_instret (s : State) : (s.awake).h.instret = s.h.instret := rfl
@[simp] theorem awake_h_hartid (s : State) : (s.awake).h.hartid = s.h.hartid := rfl
@[simp] theorem awake_h_gangid (s : State) : (s.awake).h.gangid = s.h.gangid := rfl
@[simp] theorem awake_h_ganghart (s : State) : (s.awake).h.ganghart = s.h.ganghart := rfl
@[simp] theorem awake_h_gangsize (s : State) : (s.awake).h.gangsize = s.h.gangsize := rfl
@[simp] theorem awake_h_taskid (s : State) : (s.awake).h.taskid = s.h.taskid := rfl
@[simp] theorem awake_h_gbexp (s : State) : (s.awake).h.gbexp = s.h.gbexp := rfl
@[simp] theorem awake_h_myph (s : State) : (s.awake).h.myph = s.h.myph := rfl
@[simp] theorem awake_h_vquota (s : State) : (s.awake).h.vquota = s.h.vquota := rfl
@[simp] theorem awake_h_vused (s : State) : (s.awake).h.vused = s.h.vused := rfl
@[simp] theorem awake_h_vflags (s : State) : (s.awake).h.vflags = s.h.vflags := rfl
@[simp] theorem awake_h_sflags (s : State) : (s.awake).h.sflags = s.h.sflags := rfl
@[simp] theorem awake_h_as (s : State) : (s.awake).h.as = s.h.as := rfl
@[simp] theorem awake_h_pfh (s : State) : (s.awake).h.pfh = s.h.pfh := rfl
@[simp] theorem awake_h_pfpc (s : State) : (s.awake).h.pfpc = s.h.pfpc := rfl
@[simp] theorem awake_h_pfneed (s : State) : (s.awake).h.pfneed = s.h.pfneed := rfl
@[simp] theorem awake_h_pfword (s : State) : (s.awake).h.pfword = s.h.pfword := rfl
@[simp] theorem awake_h_pfvstart (s : State) : (s.awake).h.pfvstart = s.h.pfvstart := rfl
@[simp] theorem awake_h_tvec (s : State) : (s.awake).h.tvec = s.h.tvec := rfl
@[simp] theorem awake_h_tpc (s : State) : (s.awake).h.tpc = s.h.tpc := rfl
@[simp] theorem awake_h_cause (s : State) : (s.awake).h.cause = s.h.cause := rfl
@[simp] theorem awake_h_cword (s : State) : (s.awake).h.cword = s.h.cword := rfl
@[simp] theorem awake_h_incv (s : State) : (s.awake).h.incv = s.h.incv := rfl
@[simp] theorem awake_h_newcv (s : State) : (s.awake).h.newcv = s.h.newcv := rfl
@[simp] theorem awake_h_tval (s : State) : (s.awake).h.tval = s.h.tval := rfl
@[simp] theorem awake_h_hip (s : State) : (s.awake).h.hip = s.h.hip := rfl
@[simp] theorem awake_h_tip (s : State) : (s.awake).h.tip = s.h.tip := rfl
@[simp] theorem awake_h_ie (s : State) : (s.awake).h.ie = s.h.ie := rfl
@[simp] theorem awake_h_ppriv (s : State) : (s.awake).h.ppriv = s.h.ppriv := rfl
@[simp] theorem awake_h_tresOff (s : State) : (s.awake).h.tresOff = s.h.tresOff := rfl
@[simp] theorem awake_h_tscratch (s : State) : (s.awake).h.tscratch = s.h.tscratch := rfl
@[simp] theorem awake_h_kctx (s : State) : (s.awake).h.kctx = s.h.kctx := rfl
@[simp] theorem awake_h_bare (s : State) : (s.awake).h.bare = s.h.bare := rfl
@[simp] theorem awake_h_ptbase (s : State) : (s.awake).h.ptbase = s.h.ptbase := rfl
@[simp] theorem awake_h_saBase (s : State) : (s.awake).h.saBase = s.h.saBase := rfl
@[simp] theorem awake_h_rr (s : State) : (s.awake).h.rr = s.h.rr := rfl
@[simp] theorem awake_h_pfr (s : State) : (s.awake).h.pfr = s.h.pfr := rfl
@[simp] theorem awake_h_convoy (s : State) : (s.awake).h.convoy = s.h.convoy := rfl
@[simp] theorem awake_h_xfer (s : State) : (s.awake).h.xfer = s.h.xfer := rfl
@[simp] theorem awake_h_fresh (s : State) : (s.awake).h.fresh = s.h.fresh := rfl
@[simp] theorem awake_h_tickets (s : State) : (s.awake).h.tickets = s.h.tickets := rfl
@[simp] theorem awake_h_cmds (s : State) : (s.awake).h.cmds = s.h.cmds := rfl
@[simp] theorem awake_h_req (s : State) : (s.awake).h.req = s.h.req := rfl
@[simp] theorem awake_h_debt (s : State) : (s.awake).h.debt = s.h.debt := rfl
@[simp] theorem awake_h_prio (s : State) : (s.awake).h.prio = s.h.prio := rfl
@[simp] theorem awake_h_gang (s : State) : (s.awake).h.gang = s.h.gang := rfl
@[simp] theorem awake_h_suspend (s : State) : (s.awake).h.suspend = s.h.suspend := rfl
@[simp] theorem awake_h_preempt (s : State) : (s.awake).h.preempt = s.h.preempt := rfl
@[simp] theorem awake_h_heat (s : State) : (s.awake).h.heat = s.h.heat := rfl
@[simp] theorem awake_h_restoring (s : State) : (s.awake).h.restoring = s.h.restoring := rfl
@[simp] theorem awake_h_mcheck (s : State) : (s.awake).h.mcheck = s.h.mcheck := rfl
@[simp] theorem awake_h_mheld (s : State) : (s.awake).h.mheld = s.h.mheld := rfl
@[simp] theorem awake_h_due (s : State) : (s.awake).h.due = s.h.due := rfl
@[simp] theorem awake_h_lastIssue (s : State) : (s.awake).h.lastIssue = s.h.lastIssue := rfl
@[simp] theorem awake_h_since (s : State) : (s.awake).h.since = s.h.since := rfl
@[simp] theorem awake_h_iword (s : State) : (s.awake).h.iword = s.h.iword := rfl

@[simp] theorem hold_h_st (s : State) (w : Wait) : (s.hold w).h.st = if w.parks then .waiting else s.h.st := rfl
@[simp] theorem hold_h_wait (s : State) (w : Wait) : (s.hold w).h.wait = w := rfl
@[simp] theorem hold_h_mode (s : State) (w : Wait) : (s.hold w).h.mode = s.h.mode := rfl
@[simp] theorem hold_h_pc (s : State) (w : Wait) : (s.hold w).h.pc = s.h.pc := rfl
@[simp] theorem hold_h_xu (s : State) (w : Wait) : (s.hold w).h.xu = s.h.xu := rfl
@[simp] theorem hold_h_xs (s : State) (w : Wait) : (s.hold w).h.xs = s.h.xs := rfl
@[simp] theorem hold_h_v (s : State) (w : Wait) : (s.hold w).h.v = s.h.v := rfl
@[simp] theorem hold_h_m (s : State) (w : Wait) : (s.hold w).h.m = s.h.m := rfl
@[simp] theorem hold_h_instret (s : State) (w : Wait) : (s.hold w).h.instret = s.h.instret := rfl
@[simp] theorem hold_h_hartid (s : State) (w : Wait) : (s.hold w).h.hartid = s.h.hartid := rfl
@[simp] theorem hold_h_gangid (s : State) (w : Wait) : (s.hold w).h.gangid = s.h.gangid := rfl
@[simp] theorem hold_h_ganghart (s : State) (w : Wait) : (s.hold w).h.ganghart = s.h.ganghart := rfl
@[simp] theorem hold_h_gangsize (s : State) (w : Wait) : (s.hold w).h.gangsize = s.h.gangsize := rfl
@[simp] theorem hold_h_taskid (s : State) (w : Wait) : (s.hold w).h.taskid = s.h.taskid := rfl
@[simp] theorem hold_h_gbexp (s : State) (w : Wait) : (s.hold w).h.gbexp = s.h.gbexp := rfl
@[simp] theorem hold_h_myph (s : State) (w : Wait) : (s.hold w).h.myph = s.h.myph := rfl
@[simp] theorem hold_h_vquota (s : State) (w : Wait) : (s.hold w).h.vquota = s.h.vquota := rfl
@[simp] theorem hold_h_vused (s : State) (w : Wait) : (s.hold w).h.vused = s.h.vused := rfl
@[simp] theorem hold_h_vflags (s : State) (w : Wait) : (s.hold w).h.vflags = s.h.vflags := rfl
@[simp] theorem hold_h_sflags (s : State) (w : Wait) : (s.hold w).h.sflags = s.h.sflags := rfl
@[simp] theorem hold_h_as (s : State) (w : Wait) : (s.hold w).h.as = s.h.as := rfl
@[simp] theorem hold_h_pfh (s : State) (w : Wait) : (s.hold w).h.pfh = s.h.pfh := rfl
@[simp] theorem hold_h_pfpc (s : State) (w : Wait) : (s.hold w).h.pfpc = s.h.pfpc := rfl
@[simp] theorem hold_h_pfneed (s : State) (w : Wait) : (s.hold w).h.pfneed = s.h.pfneed := rfl
@[simp] theorem hold_h_pfword (s : State) (w : Wait) : (s.hold w).h.pfword = s.h.pfword := rfl
@[simp] theorem hold_h_pfvstart (s : State) (w : Wait) : (s.hold w).h.pfvstart = s.h.pfvstart := rfl
@[simp] theorem hold_h_tvec (s : State) (w : Wait) : (s.hold w).h.tvec = s.h.tvec := rfl
@[simp] theorem hold_h_tpc (s : State) (w : Wait) : (s.hold w).h.tpc = s.h.tpc := rfl
@[simp] theorem hold_h_cause (s : State) (w : Wait) : (s.hold w).h.cause = s.h.cause := rfl
@[simp] theorem hold_h_cword (s : State) (w : Wait) : (s.hold w).h.cword = s.h.cword := rfl
@[simp] theorem hold_h_incv (s : State) (w : Wait) : (s.hold w).h.incv = s.h.incv := rfl
@[simp] theorem hold_h_newcv (s : State) (w : Wait) : (s.hold w).h.newcv = s.h.newcv := rfl
@[simp] theorem hold_h_tval (s : State) (w : Wait) : (s.hold w).h.tval = s.h.tval := rfl
@[simp] theorem hold_h_hip (s : State) (w : Wait) : (s.hold w).h.hip = s.h.hip := rfl
@[simp] theorem hold_h_tip (s : State) (w : Wait) : (s.hold w).h.tip = s.h.tip := rfl
@[simp] theorem hold_h_ie (s : State) (w : Wait) : (s.hold w).h.ie = s.h.ie := rfl
@[simp] theorem hold_h_ppriv (s : State) (w : Wait) : (s.hold w).h.ppriv = s.h.ppriv := rfl
@[simp] theorem hold_h_tresOff (s : State) (w : Wait) : (s.hold w).h.tresOff = s.h.tresOff := rfl
@[simp] theorem hold_h_tscratch (s : State) (w : Wait) : (s.hold w).h.tscratch = s.h.tscratch := rfl
@[simp] theorem hold_h_kctx (s : State) (w : Wait) : (s.hold w).h.kctx = s.h.kctx := rfl
@[simp] theorem hold_h_bare (s : State) (w : Wait) : (s.hold w).h.bare = s.h.bare := rfl
@[simp] theorem hold_h_ptbase (s : State) (w : Wait) : (s.hold w).h.ptbase = s.h.ptbase := rfl
@[simp] theorem hold_h_saBase (s : State) (w : Wait) : (s.hold w).h.saBase = s.h.saBase := rfl
@[simp] theorem hold_h_rr (s : State) (w : Wait) : (s.hold w).h.rr = s.h.rr := rfl
@[simp] theorem hold_h_pfr (s : State) (w : Wait) : (s.hold w).h.pfr = s.h.pfr := rfl
@[simp] theorem hold_h_convoy (s : State) (w : Wait) : (s.hold w).h.convoy = s.h.convoy := rfl
@[simp] theorem hold_h_xfer (s : State) (w : Wait) : (s.hold w).h.xfer = s.h.xfer := rfl
@[simp] theorem hold_h_fresh (s : State) (w : Wait) : (s.hold w).h.fresh = s.h.fresh := rfl
@[simp] theorem hold_h_tickets (s : State) (w : Wait) : (s.hold w).h.tickets = s.h.tickets := rfl
@[simp] theorem hold_h_cmds (s : State) (w : Wait) : (s.hold w).h.cmds = s.h.cmds := rfl
@[simp] theorem hold_h_req (s : State) (w : Wait) : (s.hold w).h.req = s.h.req := rfl
@[simp] theorem hold_h_debt (s : State) (w : Wait) : (s.hold w).h.debt = s.h.debt := rfl
@[simp] theorem hold_h_prio (s : State) (w : Wait) : (s.hold w).h.prio = s.h.prio := rfl
@[simp] theorem hold_h_gang (s : State) (w : Wait) : (s.hold w).h.gang = s.h.gang := rfl
@[simp] theorem hold_h_suspend (s : State) (w : Wait) : (s.hold w).h.suspend = s.h.suspend := rfl
@[simp] theorem hold_h_preempt (s : State) (w : Wait) : (s.hold w).h.preempt = s.h.preempt := rfl
@[simp] theorem hold_h_heat (s : State) (w : Wait) : (s.hold w).h.heat = s.h.heat := rfl
@[simp] theorem hold_h_restoring (s : State) (w : Wait) : (s.hold w).h.restoring = s.h.restoring := rfl
@[simp] theorem hold_h_mcheck (s : State) (w : Wait) : (s.hold w).h.mcheck = s.h.mcheck := rfl
@[simp] theorem hold_h_mheld (s : State) (w : Wait) : (s.hold w).h.mheld = s.h.mheld := rfl
@[simp] theorem hold_h_due (s : State) (w : Wait) : (s.hold w).h.due = s.h.due := rfl
@[simp] theorem hold_h_lastIssue (s : State) (w : Wait) : (s.hold w).h.lastIssue = s.h.lastIssue := rfl
@[simp] theorem hold_h_since (s : State) (w : Wait) : (s.hold w).h.since = s.h.since := rfl
@[simp] theorem hold_h_iword (s : State) (w : Wait) : (s.hold w).h.iword = s.h.iword := rfl

end State

/-! `Hart.setX` and `Hart.setMask` write one bank, or nothing (R299, R235). -/

@[simp] theorem Hart.setX_st (h : Hart) (r : XReg) (w : Word) : (h.setX r w).st = h.st := by unfold Hart.setX; split <;> [rfl; (split <;> rfl)]
@[simp] theorem Hart.setX_wait (h : Hart) (r : XReg) (w : Word) : (h.setX r w).wait = h.wait := by unfold Hart.setX; split <;> [rfl; (split <;> rfl)]
@[simp] theorem Hart.setX_mode (h : Hart) (r : XReg) (w : Word) : (h.setX r w).mode = h.mode := by unfold Hart.setX; split <;> [rfl; (split <;> rfl)]
@[simp] theorem Hart.setX_pc (h : Hart) (r : XReg) (w : Word) : (h.setX r w).pc = h.pc := by unfold Hart.setX; split <;> [rfl; (split <;> rfl)]
@[simp] theorem Hart.setX_v (h : Hart) (r : XReg) (w : Word) : (h.setX r w).v = h.v := by unfold Hart.setX; split <;> [rfl; (split <;> rfl)]
@[simp] theorem Hart.setX_m (h : Hart) (r : XReg) (w : Word) : (h.setX r w).m = h.m := by unfold Hart.setX; split <;> [rfl; (split <;> rfl)]
@[simp] theorem Hart.setX_instret (h : Hart) (r : XReg) (w : Word) : (h.setX r w).instret = h.instret := by unfold Hart.setX; split <;> [rfl; (split <;> rfl)]
@[simp] theorem Hart.setX_hartid (h : Hart) (r : XReg) (w : Word) : (h.setX r w).hartid = h.hartid := by unfold Hart.setX; split <;> [rfl; (split <;> rfl)]
@[simp] theorem Hart.setX_gangid (h : Hart) (r : XReg) (w : Word) : (h.setX r w).gangid = h.gangid := by unfold Hart.setX; split <;> [rfl; (split <;> rfl)]
@[simp] theorem Hart.setX_ganghart (h : Hart) (r : XReg) (w : Word) : (h.setX r w).ganghart = h.ganghart := by unfold Hart.setX; split <;> [rfl; (split <;> rfl)]
@[simp] theorem Hart.setX_gangsize (h : Hart) (r : XReg) (w : Word) : (h.setX r w).gangsize = h.gangsize := by unfold Hart.setX; split <;> [rfl; (split <;> rfl)]
@[simp] theorem Hart.setX_taskid (h : Hart) (r : XReg) (w : Word) : (h.setX r w).taskid = h.taskid := by unfold Hart.setX; split <;> [rfl; (split <;> rfl)]
@[simp] theorem Hart.setX_gbexp (h : Hart) (r : XReg) (w : Word) : (h.setX r w).gbexp = h.gbexp := by unfold Hart.setX; split <;> [rfl; (split <;> rfl)]
@[simp] theorem Hart.setX_myph (h : Hart) (r : XReg) (w : Word) : (h.setX r w).myph = h.myph := by unfold Hart.setX; split <;> [rfl; (split <;> rfl)]
@[simp] theorem Hart.setX_vquota (h : Hart) (r : XReg) (w : Word) : (h.setX r w).vquota = h.vquota := by unfold Hart.setX; split <;> [rfl; (split <;> rfl)]
@[simp] theorem Hart.setX_vused (h : Hart) (r : XReg) (w : Word) : (h.setX r w).vused = h.vused := by unfold Hart.setX; split <;> [rfl; (split <;> rfl)]
@[simp] theorem Hart.setX_vflags (h : Hart) (r : XReg) (w : Word) : (h.setX r w).vflags = h.vflags := by unfold Hart.setX; split <;> [rfl; (split <;> rfl)]
@[simp] theorem Hart.setX_sflags (h : Hart) (r : XReg) (w : Word) : (h.setX r w).sflags = h.sflags := by unfold Hart.setX; split <;> [rfl; (split <;> rfl)]
@[simp] theorem Hart.setX_as (h : Hart) (r : XReg) (w : Word) : (h.setX r w).as = h.as := by unfold Hart.setX; split <;> [rfl; (split <;> rfl)]
@[simp] theorem Hart.setX_pfh (h : Hart) (r : XReg) (w : Word) : (h.setX r w).pfh = h.pfh := by unfold Hart.setX; split <;> [rfl; (split <;> rfl)]
@[simp] theorem Hart.setX_pfpc (h : Hart) (r : XReg) (w : Word) : (h.setX r w).pfpc = h.pfpc := by unfold Hart.setX; split <;> [rfl; (split <;> rfl)]
@[simp] theorem Hart.setX_pfneed (h : Hart) (r : XReg) (w : Word) : (h.setX r w).pfneed = h.pfneed := by unfold Hart.setX; split <;> [rfl; (split <;> rfl)]
@[simp] theorem Hart.setX_pfword (h : Hart) (r : XReg) (w : Word) : (h.setX r w).pfword = h.pfword := by unfold Hart.setX; split <;> [rfl; (split <;> rfl)]
@[simp] theorem Hart.setX_pfvstart (h : Hart) (r : XReg) (w : Word) : (h.setX r w).pfvstart = h.pfvstart := by unfold Hart.setX; split <;> [rfl; (split <;> rfl)]
@[simp] theorem Hart.setX_tvec (h : Hart) (r : XReg) (w : Word) : (h.setX r w).tvec = h.tvec := by unfold Hart.setX; split <;> [rfl; (split <;> rfl)]
@[simp] theorem Hart.setX_tpc (h : Hart) (r : XReg) (w : Word) : (h.setX r w).tpc = h.tpc := by unfold Hart.setX; split <;> [rfl; (split <;> rfl)]
@[simp] theorem Hart.setX_cause (h : Hart) (r : XReg) (w : Word) : (h.setX r w).cause = h.cause := by unfold Hart.setX; split <;> [rfl; (split <;> rfl)]
@[simp] theorem Hart.setX_cword (h : Hart) (r : XReg) (w : Word) : (h.setX r w).cword = h.cword := by unfold Hart.setX; split <;> [rfl; (split <;> rfl)]
@[simp] theorem Hart.setX_incv (h : Hart) (r : XReg) (w : Word) : (h.setX r w).incv = h.incv := by unfold Hart.setX; split <;> [rfl; (split <;> rfl)]
@[simp] theorem Hart.setX_newcv (h : Hart) (r : XReg) (w : Word) : (h.setX r w).newcv = h.newcv := by unfold Hart.setX; split <;> [rfl; (split <;> rfl)]
@[simp] theorem Hart.setX_tval (h : Hart) (r : XReg) (w : Word) : (h.setX r w).tval = h.tval := by unfold Hart.setX; split <;> [rfl; (split <;> rfl)]
@[simp] theorem Hart.setX_hip (h : Hart) (r : XReg) (w : Word) : (h.setX r w).hip = h.hip := by unfold Hart.setX; split <;> [rfl; (split <;> rfl)]
@[simp] theorem Hart.setX_tip (h : Hart) (r : XReg) (w : Word) : (h.setX r w).tip = h.tip := by unfold Hart.setX; split <;> [rfl; (split <;> rfl)]
@[simp] theorem Hart.setX_ie (h : Hart) (r : XReg) (w : Word) : (h.setX r w).ie = h.ie := by unfold Hart.setX; split <;> [rfl; (split <;> rfl)]
@[simp] theorem Hart.setX_ppriv (h : Hart) (r : XReg) (w : Word) : (h.setX r w).ppriv = h.ppriv := by unfold Hart.setX; split <;> [rfl; (split <;> rfl)]
@[simp] theorem Hart.setX_tresOff (h : Hart) (r : XReg) (w : Word) : (h.setX r w).tresOff = h.tresOff := by unfold Hart.setX; split <;> [rfl; (split <;> rfl)]
@[simp] theorem Hart.setX_tscratch (h : Hart) (r : XReg) (w : Word) : (h.setX r w).tscratch = h.tscratch := by unfold Hart.setX; split <;> [rfl; (split <;> rfl)]
@[simp] theorem Hart.setX_kctx (h : Hart) (r : XReg) (w : Word) : (h.setX r w).kctx = h.kctx := by unfold Hart.setX; split <;> [rfl; (split <;> rfl)]
@[simp] theorem Hart.setX_bare (h : Hart) (r : XReg) (w : Word) : (h.setX r w).bare = h.bare := by unfold Hart.setX; split <;> [rfl; (split <;> rfl)]
@[simp] theorem Hart.setX_ptbase (h : Hart) (r : XReg) (w : Word) : (h.setX r w).ptbase = h.ptbase := by unfold Hart.setX; split <;> [rfl; (split <;> rfl)]
@[simp] theorem Hart.setX_saBase (h : Hart) (r : XReg) (w : Word) : (h.setX r w).saBase = h.saBase := by unfold Hart.setX; split <;> [rfl; (split <;> rfl)]
@[simp] theorem Hart.setX_rr (h : Hart) (r : XReg) (w : Word) : (h.setX r w).rr = h.rr := by unfold Hart.setX; split <;> [rfl; (split <;> rfl)]
@[simp] theorem Hart.setX_pfr (h : Hart) (r : XReg) (w : Word) : (h.setX r w).pfr = h.pfr := by unfold Hart.setX; split <;> [rfl; (split <;> rfl)]
@[simp] theorem Hart.setX_convoy (h : Hart) (r : XReg) (w : Word) : (h.setX r w).convoy = h.convoy := by unfold Hart.setX; split <;> [rfl; (split <;> rfl)]
@[simp] theorem Hart.setX_xfer (h : Hart) (r : XReg) (w : Word) : (h.setX r w).xfer = h.xfer := by unfold Hart.setX; split <;> [rfl; (split <;> rfl)]
@[simp] theorem Hart.setX_fresh (h : Hart) (r : XReg) (w : Word) : (h.setX r w).fresh = h.fresh := by unfold Hart.setX; split <;> [rfl; (split <;> rfl)]
@[simp] theorem Hart.setX_tickets (h : Hart) (r : XReg) (w : Word) : (h.setX r w).tickets = h.tickets := by unfold Hart.setX; split <;> [rfl; (split <;> rfl)]
@[simp] theorem Hart.setX_cmds (h : Hart) (r : XReg) (w : Word) : (h.setX r w).cmds = h.cmds := by unfold Hart.setX; split <;> [rfl; (split <;> rfl)]
@[simp] theorem Hart.setX_req (h : Hart) (r : XReg) (w : Word) : (h.setX r w).req = h.req := by unfold Hart.setX; split <;> [rfl; (split <;> rfl)]
@[simp] theorem Hart.setX_debt (h : Hart) (r : XReg) (w : Word) : (h.setX r w).debt = h.debt := by unfold Hart.setX; split <;> [rfl; (split <;> rfl)]
@[simp] theorem Hart.setX_prio (h : Hart) (r : XReg) (w : Word) : (h.setX r w).prio = h.prio := by unfold Hart.setX; split <;> [rfl; (split <;> rfl)]
@[simp] theorem Hart.setX_gang (h : Hart) (r : XReg) (w : Word) : (h.setX r w).gang = h.gang := by unfold Hart.setX; split <;> [rfl; (split <;> rfl)]
@[simp] theorem Hart.setX_suspend (h : Hart) (r : XReg) (w : Word) : (h.setX r w).suspend = h.suspend := by unfold Hart.setX; split <;> [rfl; (split <;> rfl)]
@[simp] theorem Hart.setX_preempt (h : Hart) (r : XReg) (w : Word) : (h.setX r w).preempt = h.preempt := by unfold Hart.setX; split <;> [rfl; (split <;> rfl)]
@[simp] theorem Hart.setX_heat (h : Hart) (r : XReg) (w : Word) : (h.setX r w).heat = h.heat := by unfold Hart.setX; split <;> [rfl; (split <;> rfl)]
@[simp] theorem Hart.setX_restoring (h : Hart) (r : XReg) (w : Word) : (h.setX r w).restoring = h.restoring := by unfold Hart.setX; split <;> [rfl; (split <;> rfl)]
@[simp] theorem Hart.setX_mcheck (h : Hart) (r : XReg) (w : Word) : (h.setX r w).mcheck = h.mcheck := by unfold Hart.setX; split <;> [rfl; (split <;> rfl)]
@[simp] theorem Hart.setX_mheld (h : Hart) (r : XReg) (w : Word) : (h.setX r w).mheld = h.mheld := by unfold Hart.setX; split <;> [rfl; (split <;> rfl)]
@[simp] theorem Hart.setX_due (h : Hart) (r : XReg) (w : Word) : (h.setX r w).due = h.due := by unfold Hart.setX; split <;> [rfl; (split <;> rfl)]
@[simp] theorem Hart.setX_lastIssue (h : Hart) (r : XReg) (w : Word) : (h.setX r w).lastIssue = h.lastIssue := by unfold Hart.setX; split <;> [rfl; (split <;> rfl)]
@[simp] theorem Hart.setX_since (h : Hart) (r : XReg) (w : Word) : (h.setX r w).since = h.since := by unfold Hart.setX; split <;> [rfl; (split <;> rfl)]
@[simp] theorem Hart.setX_iword (h : Hart) (r : XReg) (w : Word) : (h.setX r w).iword = h.iword := by unfold Hart.setX; split <;> [rfl; (split <;> rfl)]
@[simp] theorem Hart.setMask_st (h : Hart) (r : MReg) (w : BitVec 8192) : (h.setMask r w).st = h.st := by unfold Hart.setMask; split <;> rfl
@[simp] theorem Hart.setMask_wait (h : Hart) (r : MReg) (w : BitVec 8192) : (h.setMask r w).wait = h.wait := by unfold Hart.setMask; split <;> rfl
@[simp] theorem Hart.setMask_mode (h : Hart) (r : MReg) (w : BitVec 8192) : (h.setMask r w).mode = h.mode := by unfold Hart.setMask; split <;> rfl
@[simp] theorem Hart.setMask_pc (h : Hart) (r : MReg) (w : BitVec 8192) : (h.setMask r w).pc = h.pc := by unfold Hart.setMask; split <;> rfl
@[simp] theorem Hart.setMask_xu (h : Hart) (r : MReg) (w : BitVec 8192) : (h.setMask r w).xu = h.xu := by unfold Hart.setMask; split <;> rfl
@[simp] theorem Hart.setMask_xs (h : Hart) (r : MReg) (w : BitVec 8192) : (h.setMask r w).xs = h.xs := by unfold Hart.setMask; split <;> rfl
@[simp] theorem Hart.setMask_v (h : Hart) (r : MReg) (w : BitVec 8192) : (h.setMask r w).v = h.v := by unfold Hart.setMask; split <;> rfl
@[simp] theorem Hart.setMask_instret (h : Hart) (r : MReg) (w : BitVec 8192) : (h.setMask r w).instret = h.instret := by unfold Hart.setMask; split <;> rfl
@[simp] theorem Hart.setMask_hartid (h : Hart) (r : MReg) (w : BitVec 8192) : (h.setMask r w).hartid = h.hartid := by unfold Hart.setMask; split <;> rfl
@[simp] theorem Hart.setMask_gangid (h : Hart) (r : MReg) (w : BitVec 8192) : (h.setMask r w).gangid = h.gangid := by unfold Hart.setMask; split <;> rfl
@[simp] theorem Hart.setMask_ganghart (h : Hart) (r : MReg) (w : BitVec 8192) : (h.setMask r w).ganghart = h.ganghart := by unfold Hart.setMask; split <;> rfl
@[simp] theorem Hart.setMask_gangsize (h : Hart) (r : MReg) (w : BitVec 8192) : (h.setMask r w).gangsize = h.gangsize := by unfold Hart.setMask; split <;> rfl
@[simp] theorem Hart.setMask_taskid (h : Hart) (r : MReg) (w : BitVec 8192) : (h.setMask r w).taskid = h.taskid := by unfold Hart.setMask; split <;> rfl
@[simp] theorem Hart.setMask_gbexp (h : Hart) (r : MReg) (w : BitVec 8192) : (h.setMask r w).gbexp = h.gbexp := by unfold Hart.setMask; split <;> rfl
@[simp] theorem Hart.setMask_myph (h : Hart) (r : MReg) (w : BitVec 8192) : (h.setMask r w).myph = h.myph := by unfold Hart.setMask; split <;> rfl
@[simp] theorem Hart.setMask_vquota (h : Hart) (r : MReg) (w : BitVec 8192) : (h.setMask r w).vquota = h.vquota := by unfold Hart.setMask; split <;> rfl
@[simp] theorem Hart.setMask_vused (h : Hart) (r : MReg) (w : BitVec 8192) : (h.setMask r w).vused = h.vused := by unfold Hart.setMask; split <;> rfl
@[simp] theorem Hart.setMask_vflags (h : Hart) (r : MReg) (w : BitVec 8192) : (h.setMask r w).vflags = h.vflags := by unfold Hart.setMask; split <;> rfl
@[simp] theorem Hart.setMask_sflags (h : Hart) (r : MReg) (w : BitVec 8192) : (h.setMask r w).sflags = h.sflags := by unfold Hart.setMask; split <;> rfl
@[simp] theorem Hart.setMask_as (h : Hart) (r : MReg) (w : BitVec 8192) : (h.setMask r w).as = h.as := by unfold Hart.setMask; split <;> rfl
@[simp] theorem Hart.setMask_pfh (h : Hart) (r : MReg) (w : BitVec 8192) : (h.setMask r w).pfh = h.pfh := by unfold Hart.setMask; split <;> rfl
@[simp] theorem Hart.setMask_pfpc (h : Hart) (r : MReg) (w : BitVec 8192) : (h.setMask r w).pfpc = h.pfpc := by unfold Hart.setMask; split <;> rfl
@[simp] theorem Hart.setMask_pfneed (h : Hart) (r : MReg) (w : BitVec 8192) : (h.setMask r w).pfneed = h.pfneed := by unfold Hart.setMask; split <;> rfl
@[simp] theorem Hart.setMask_pfword (h : Hart) (r : MReg) (w : BitVec 8192) : (h.setMask r w).pfword = h.pfword := by unfold Hart.setMask; split <;> rfl
@[simp] theorem Hart.setMask_pfvstart (h : Hart) (r : MReg) (w : BitVec 8192) : (h.setMask r w).pfvstart = h.pfvstart := by unfold Hart.setMask; split <;> rfl
@[simp] theorem Hart.setMask_tvec (h : Hart) (r : MReg) (w : BitVec 8192) : (h.setMask r w).tvec = h.tvec := by unfold Hart.setMask; split <;> rfl
@[simp] theorem Hart.setMask_tpc (h : Hart) (r : MReg) (w : BitVec 8192) : (h.setMask r w).tpc = h.tpc := by unfold Hart.setMask; split <;> rfl
@[simp] theorem Hart.setMask_cause (h : Hart) (r : MReg) (w : BitVec 8192) : (h.setMask r w).cause = h.cause := by unfold Hart.setMask; split <;> rfl
@[simp] theorem Hart.setMask_cword (h : Hart) (r : MReg) (w : BitVec 8192) : (h.setMask r w).cword = h.cword := by unfold Hart.setMask; split <;> rfl
@[simp] theorem Hart.setMask_incv (h : Hart) (r : MReg) (w : BitVec 8192) : (h.setMask r w).incv = h.incv := by unfold Hart.setMask; split <;> rfl
@[simp] theorem Hart.setMask_newcv (h : Hart) (r : MReg) (w : BitVec 8192) : (h.setMask r w).newcv = h.newcv := by unfold Hart.setMask; split <;> rfl
@[simp] theorem Hart.setMask_tval (h : Hart) (r : MReg) (w : BitVec 8192) : (h.setMask r w).tval = h.tval := by unfold Hart.setMask; split <;> rfl
@[simp] theorem Hart.setMask_hip (h : Hart) (r : MReg) (w : BitVec 8192) : (h.setMask r w).hip = h.hip := by unfold Hart.setMask; split <;> rfl
@[simp] theorem Hart.setMask_tip (h : Hart) (r : MReg) (w : BitVec 8192) : (h.setMask r w).tip = h.tip := by unfold Hart.setMask; split <;> rfl
@[simp] theorem Hart.setMask_ie (h : Hart) (r : MReg) (w : BitVec 8192) : (h.setMask r w).ie = h.ie := by unfold Hart.setMask; split <;> rfl
@[simp] theorem Hart.setMask_ppriv (h : Hart) (r : MReg) (w : BitVec 8192) : (h.setMask r w).ppriv = h.ppriv := by unfold Hart.setMask; split <;> rfl
@[simp] theorem Hart.setMask_tresOff (h : Hart) (r : MReg) (w : BitVec 8192) : (h.setMask r w).tresOff = h.tresOff := by unfold Hart.setMask; split <;> rfl
@[simp] theorem Hart.setMask_tscratch (h : Hart) (r : MReg) (w : BitVec 8192) : (h.setMask r w).tscratch = h.tscratch := by unfold Hart.setMask; split <;> rfl
@[simp] theorem Hart.setMask_kctx (h : Hart) (r : MReg) (w : BitVec 8192) : (h.setMask r w).kctx = h.kctx := by unfold Hart.setMask; split <;> rfl
@[simp] theorem Hart.setMask_bare (h : Hart) (r : MReg) (w : BitVec 8192) : (h.setMask r w).bare = h.bare := by unfold Hart.setMask; split <;> rfl
@[simp] theorem Hart.setMask_ptbase (h : Hart) (r : MReg) (w : BitVec 8192) : (h.setMask r w).ptbase = h.ptbase := by unfold Hart.setMask; split <;> rfl
@[simp] theorem Hart.setMask_saBase (h : Hart) (r : MReg) (w : BitVec 8192) : (h.setMask r w).saBase = h.saBase := by unfold Hart.setMask; split <;> rfl
@[simp] theorem Hart.setMask_rr (h : Hart) (r : MReg) (w : BitVec 8192) : (h.setMask r w).rr = h.rr := by unfold Hart.setMask; split <;> rfl
@[simp] theorem Hart.setMask_pfr (h : Hart) (r : MReg) (w : BitVec 8192) : (h.setMask r w).pfr = h.pfr := by unfold Hart.setMask; split <;> rfl
@[simp] theorem Hart.setMask_convoy (h : Hart) (r : MReg) (w : BitVec 8192) : (h.setMask r w).convoy = h.convoy := by unfold Hart.setMask; split <;> rfl
@[simp] theorem Hart.setMask_xfer (h : Hart) (r : MReg) (w : BitVec 8192) : (h.setMask r w).xfer = h.xfer := by unfold Hart.setMask; split <;> rfl
@[simp] theorem Hart.setMask_fresh (h : Hart) (r : MReg) (w : BitVec 8192) : (h.setMask r w).fresh = h.fresh := by unfold Hart.setMask; split <;> rfl
@[simp] theorem Hart.setMask_tickets (h : Hart) (r : MReg) (w : BitVec 8192) : (h.setMask r w).tickets = h.tickets := by unfold Hart.setMask; split <;> rfl
@[simp] theorem Hart.setMask_cmds (h : Hart) (r : MReg) (w : BitVec 8192) : (h.setMask r w).cmds = h.cmds := by unfold Hart.setMask; split <;> rfl
@[simp] theorem Hart.setMask_req (h : Hart) (r : MReg) (w : BitVec 8192) : (h.setMask r w).req = h.req := by unfold Hart.setMask; split <;> rfl
@[simp] theorem Hart.setMask_debt (h : Hart) (r : MReg) (w : BitVec 8192) : (h.setMask r w).debt = h.debt := by unfold Hart.setMask; split <;> rfl
@[simp] theorem Hart.setMask_prio (h : Hart) (r : MReg) (w : BitVec 8192) : (h.setMask r w).prio = h.prio := by unfold Hart.setMask; split <;> rfl
@[simp] theorem Hart.setMask_gang (h : Hart) (r : MReg) (w : BitVec 8192) : (h.setMask r w).gang = h.gang := by unfold Hart.setMask; split <;> rfl
@[simp] theorem Hart.setMask_suspend (h : Hart) (r : MReg) (w : BitVec 8192) : (h.setMask r w).suspend = h.suspend := by unfold Hart.setMask; split <;> rfl
@[simp] theorem Hart.setMask_preempt (h : Hart) (r : MReg) (w : BitVec 8192) : (h.setMask r w).preempt = h.preempt := by unfold Hart.setMask; split <;> rfl
@[simp] theorem Hart.setMask_heat (h : Hart) (r : MReg) (w : BitVec 8192) : (h.setMask r w).heat = h.heat := by unfold Hart.setMask; split <;> rfl
@[simp] theorem Hart.setMask_restoring (h : Hart) (r : MReg) (w : BitVec 8192) : (h.setMask r w).restoring = h.restoring := by unfold Hart.setMask; split <;> rfl
@[simp] theorem Hart.setMask_mcheck (h : Hart) (r : MReg) (w : BitVec 8192) : (h.setMask r w).mcheck = h.mcheck := by unfold Hart.setMask; split <;> rfl
@[simp] theorem Hart.setMask_mheld (h : Hart) (r : MReg) (w : BitVec 8192) : (h.setMask r w).mheld = h.mheld := by unfold Hart.setMask; split <;> rfl
@[simp] theorem Hart.setMask_due (h : Hart) (r : MReg) (w : BitVec 8192) : (h.setMask r w).due = h.due := by unfold Hart.setMask; split <;> rfl
@[simp] theorem Hart.setMask_lastIssue (h : Hart) (r : MReg) (w : BitVec 8192) : (h.setMask r w).lastIssue = h.lastIssue := by unfold Hart.setMask; split <;> rfl
@[simp] theorem Hart.setMask_since (h : Hart) (r : MReg) (w : BitVec 8192) : (h.setMask r w).since = h.since := by unfold Hart.setMask; split <;> rfl
@[simp] theorem Hart.setMask_iword (h : Hart) (r : MReg) (w : BitVec 8192) : (h.setMask r w).iword = h.iword := by unfold Hart.setMask; split <;> rfl

namespace State

@[simp] theorem setX_h (s : State) (r : XReg) (w : Word) : (s.setX r w).h = s.h.setX r w := rfl
@[simp] theorem setMask_h (s : State) (r : MReg) (w : BitVec 8192) : (s.setMask r w).h = s.h.setMask r w := rfl

end State

/-- x0 reads zero (R299). -/
@[simp] theorem Hart.x_zero (h : Hart) : h.x 0 = 0 := rfl

/-- A written x register reads back, x0 stays zero, and no other x register of the bank changes (R299). -/
theorem Hart.x_setX (h : Hart) (r q : XReg) (w : Word) : (h.setX r w).x q = if q = 0 then 0 else if q = r then w else h.x q := by
  by_cases h0 : q = 0
  · rw [if_pos h0, h0]; rfl
  · rw [if_neg h0]
    by_cases hr : r = 0
    · rw [show h.setX r w = h from if_pos hr, if_neg (hr ▸ h0)]
    · have hne : q ≠ r → r.toNat ≠ q.toNat := fun hq he => hq (BitVec.eq_of_toNat_eq he.symm)
      unfold Hart.x
      rw [if_neg h0, if_neg h0, Hart.setX_mode]
      unfold Hart.setX
      rw [if_neg hr]
      cases h.mode <;> by_cases hq : q = r <;> simp only [Vector.getElem_set, hq, if_true, if_false, hne, ne_eq, not_false_eq_true]

/-- A written chain register reads back and no other one changes. -/
theorem Hart.chain_setChain (h : Hart) (r q : VReg) (d : Desc) : (h.setChain r d).chain q = if q = r then d else h.chain q := by
  have hne : q ≠ r → r.toNat ≠ q.toNat := fun hq he => hq (BitVec.eq_of_toNat_eq he.symm)
  unfold Hart.chain Hart.setChain
  by_cases hq : q = r <;> simp only [Vector.getElem_set, hq, if_true, if_false, hne, ne_eq, not_false_eq_true]

/-- A written mask register reads back, m0 stays all ones, and no other one changes (R235). -/
theorem Hart.mask_setMask (h : Hart) (r q : MReg) (w : BitVec 8192) :
    (h.setMask r w).mask q = if q = 0 then BitVec.allOnes 8192 else if q = r then w else h.mask q := by
  by_cases h0 : q = 0
  · rw [if_pos h0]; exact if_pos h0
  · rw [if_neg h0]
    by_cases hr : r = 0
    · rw [show h.setMask r w = h from if_pos hr, if_neg (hr ▸ h0)]
    · have hne : q ≠ r → r.toNat ≠ q.toNat := fun hq he => hq (BitVec.eq_of_toNat_eq he.symm)
      unfold Hart.mask
      rw [if_neg h0, if_neg h0]
      unfold Hart.setMask
      rw [if_neg hr]
      by_cases hq : q = r <;> simp only [Vector.getElem_set, hq, if_true, if_false, hne, ne_eq, not_false_eq_true]

end Sys2Proof.Machine
end

