-- ==== Sys2Proof/Laws/Ops.lean ====
section
/-! SUPPORT. What each shared operation leaves, said once: a scalar result, a word's retirement, a control transfer, a wait for a command,
a checked operand, and taking a trap. The lemmas for a single instruction rest on these. -/

namespace Sys2Proof.Machine

/-! Registers. -/

theorem State.x_setX (s : State) (r q : XReg) (w : Word) : (s.setX r w).x q = if q = 0 then 0 else if q = r then w else s.x q := Hart.x_setX s.h r q w

/-- A register write is a write of the banks alone. -/
theorem Hart.setX_eq (h : Hart) (r : XReg) (w : Word) : h.setX r w = { h with xu := (h.setX r w).xu, xs := (h.setX r w).xs } := by
  unfold Hart.setX
  split
  · rfl
  · split <;> rfl

/-- The bank that the mode does not use stands. -/
theorem setX_others (s : State) (r : XReg) (w : Word) : OtherX r s (s.setX r w) where
  others q hq := by
    rw [State.x_setX, if_neg hq]
    split
    · subst_vars; rfl
    · rfl
  user h := by
    show (s.h.setX r w).xu = _
    unfold Hart.setX
    split
    · rfl
    · simp [h]
  super h := by
    show (s.h.setX r w).xs = _
    unfold Hart.setX
    split
    · rfl
    · cases hm : s.h.mode <;> simp_all

/-! Retirement. -/

theorem retire_retired (s : State) : Retired s s.retire := ⟨rfl, rfl, rfl, rfl⟩
theorem retire_x (s : State) (r : XReg) : s.retire.x r = s.x r := rfl
theorem retireV_retired (s : State) (n : Nat) : RetiredV n s (s.retireV n) := ⟨rfl, rfl, rfl, rfl⟩

theorem setX_convoy (s : State) (r : XReg) (w : Word) :
    (s.setX r w).h.convoy = s.h.convoy ∧ (s.setX r w).h.pc = s.h.pc ∧ (s.setX r w).h.instret = s.h.instret ∧ (s.setX r w).h.wait = s.h.wait := by
  show (s.h.setX r w).convoy = _ ∧ (s.h.setX r w).pc = _ ∧ (s.h.setX r w).instret = _ ∧ (s.h.setX r w).wait = _
  rw [Hart.setX_eq]
  exact ⟨rfl, rfl, rfl, rfl⟩
theorem setX_cv (s : State) (r : XReg) (w : Word) : (s.setX r w).cv = s.cv ∧ (s.setX r w).pos = s.pos := by
  obtain ⟨h1, h2, -⟩ := setX_convoy s r w
  have h : (s.setX r w).cv = s.cv := by rw [State.cv, State.cv, h1, h2]
  exact ⟨h, by rw [State.pos, State.pos, h, h2]⟩

/-- A scalar word that has read its operands in s and left u, whose registers and convoy are s's, completes with v in xd. -/
theorem wr_completes {s u : State} (hr : u.h.mode = s.h.mode ∧ u.h.xu = s.h.xu ∧ u.h.xs = s.h.xs)
    (hc : u.h.convoy = s.h.convoy ∧ u.h.pc = s.h.pc ∧ u.h.instret = s.h.instret) (xd : XReg) (v : Word) :
    completes (u.wr xd v) (XResult xd v s u) := by
  obtain ⟨c1, c2, c3, -⟩ := setX_convoy u xd v
  obtain ⟨v1, v2⟩ := setX_cv u xd v
  have hx (q : XReg) : u.x q = s.x q := by unfold State.x Hart.x; rw [hr.1, hr.2.1, hr.2.2]
  have hv : u.cv = s.cv := by rw [State.cv, State.cv, hc.1, hc.2.1]
  have hp : u.pos = s.pos := by rw [State.pos, State.pos, hv, hc.2.1]
  have o := setX_others u xd v
  refine ⟨_, rfl, ⟨?_, ⟨?_, ?_, ?_⟩, ⟨?_, ?_, ?_, rfl⟩, ?_⟩⟩
  · rw [retire_x, State.x_setX, if_pos rfl]
  · exact fun q hq => (retire_x _ q).trans ((o.others q hq).trans (hx q))
  · exact fun h => (o.user (hr.1.trans h)).trans hr.2.1
  · exact fun h => (o.super (hr.1 ▸ h)).trans hr.2.2
  · rw [← hc.2.1, ← c2]; rfl
  · rw [← hc.2.2, ← c3]; rfl
  · show some ((u.setX xd v).cv.mark (u.setX xd v).pos) = _
    rw [v1, v2, hv, hp]
  · show ({ u.setX xd v with h := _ } : State) = _
    have e : u.setX xd v = { u with h := { u.h with xu := (u.h.setX xd v).xu, xs := (u.h.setX xd v).xs } } := by
      show ({ u with h := u.h.setX xd v } : State) = _
      rw [Hart.setX_eq]
    rw [State.retire]
    unfold Hart.withScalar
    rw [e]

/-- The same when reading the operands has changed nothing. -/
theorem wr_computes (s : State) (xd : XReg) (v : Word) : completes (s.wr xd v) (XResult xd v s s) := wr_completes ⟨rfl, rfl, rfl⟩ ⟨rfl, rfl, rfl⟩ xd v

/-- A word without a result completes. -/
theorem ok_completes (s : State) : completes s.ok (PlainResult s s) := ⟨_, rfl, ⟨rfl, rfl⟩, retire_retired s, rfl⟩

/-- A control transfer completes (R58, R60, R305). -/
theorem transfer_transferred (s : State) (t : Word) : Transferred t s (s.transfer t) := ⟨rfl, rfl, rfl, rfl, rfl, rfl⟩

/-! A word that waits for a command, and a checked operand. -/

theorem whenFree_cases (s : State) (chains : List VReg) (masks : List MReg) (go : State → Out) :
    (s.unclaimed chains masks ∧ s.whenFree chains masks go = go s.awake)
      ∨ (¬ s.unclaimed chains masks ∧ s.whenFree chains masks go = .next (s.hold (.retry false))) := by
  unfold State.whenFree State.unclaimed
  cases h : s.busy? chains masks
  · exact .inl ⟨rfl, rfl⟩
  · exact .inr ⟨by simp, rfl⟩

theorem orTrap_cases (s : State) (c : Except Trap α) (go : α → Out) :
    (∃ a, c = .ok a ∧ s.orTrap c go = go a) ∨ ∃ t, c = .error t ∧ s.orTrap c go = if t.cause = 0 then s.waitWhole else .next (s.trapNow t) := by
  cases c with
  | ok a => exact .inl ⟨a, rfl, rfl⟩
  | error t => exact .inr ⟨t, rfl, rfl⟩

/-! Taking a trap. -/

/-- Bytes put into storage change memory only, and only under their keys. -/
theorem putBytes_outside (bs : List Byte) : ∀ (s : State) (k j : Nat), s.mem.wf → (j < k ∨ k + bs.length ≤ j) →
    memGet (s.putBytes k bs).mem j = memGet s.mem j := by
  induction bs with
  | nil => exact fun _ _ _ _ _ => rfl
  | cons b t ih =>
    intro s k j hw hj
    have hl : (b :: t).length = t.length + 1 := rfl
    have h1 : (s.putByte k b).mem.wf := by
      unfold State.putByte
      split
      · exact hw
      · exact memSet_wf _ _ _ hw
    have h2 : memGet (s.putByte k b).mem j = memGet s.mem j := by
      unfold State.putByte
      split
      · rfl
      · exact (memGet_memSet k j b _ hw).trans (if_neg (by omega))
    exact (ih _ _ j h1 (by omega)).trans h2

/-- Bytes written at storage keys change the memory alone. -/
theorem putBytes_mem (s : State) (k : Nat) (bs : List Byte) : s.putBytes k bs = { s with mem := (s.putBytes k bs).mem } := by
  have h : ∃ m, s.putBytes k bs = { s with mem := m } := by
    induction bs generalizing s k with
    | nil => exact ⟨s.mem, rfl⟩
    | cons b t ih =>
      obtain ⟨m, hm⟩ := ih (s.putByte k b) (k + 1)
      refine ⟨m, hm.trans ?_⟩
      unfold State.putByte
      split <;> rfl
  obtain ⟨m, hm⟩ := h
  rw [hm]

theorem recordWords_length (c : Convoy) : (recordWords c).length = 136 := by
  unfold recordWords
  simp only [List.length_append, List.length_cons, List.length_nil, List.length_take, List.length_replicate]
  omega

theorem wordsBytes_length (l : List Word) : (wordsBytes l).length = 8 * l.length := by
  unfold wordsBytes
  induction l with
  | nil => rfl
  | cons w t ih =>
    rw [List.flatMap_cons, List.length_append, ih]
    have : (toBytes 8 w.toNat).length = 8 := rfl
    rw [this, List.length_cons]
    omega

/-- The copy of a trap record: what it writes, and what stands. -/
theorem copyRecord_frame (s : State) (c : Convoy) :
    s.copyRecord c = { s with mem := (s.copyRecord c).mem, poison := (s.copyRecord c).poison, rels := (s.copyRecord c).rels }
      ∧ (s.mem.wf = true → ∀ k, ¬ s.inRecord k → memGet (s.copyRecord c).mem k = memGet s.mem k)
      ∧ (∀ p, ¬ s.inRecord p → (p ∈ (s.copyRecord c).poison ↔ p ∈ s.poison))
      ∧ ∀ r, (r ∈ (s.copyRecord c).rels → r ∈ s.rels) ∧ (r ∈ s.rels → r.key + r.len ≤ sdmBase → r ∈ (s.copyRecord c).rels) := by
  unfold State.copyRecord
  split
  · rename_i ho
    have hn : (wordsBytes (recordWords c)).length = 1088 := by rw [wordsBytes_length, recordWords_length]
    generalize wordsBytes (recordWords c) = bs at hn
    have hin (p : Nat) : ¬ s.inRecord p → ¬ (sdmKey s.coreNo (s.slotNo * 0x2000 + s.h.tresOff.toNat * 64) ≤ p
        ∧ p < sdmKey s.coreNo (s.slotNo * 0x2000 + s.h.tresOff.toNat * 64) + 1088) := fun h1 h2 => h1 ⟨ho, h2⟩
    generalize hp : (fun p => ¬ s.inRecord p) = out at *
    have hk : sdmBase ≤ sdmKey s.coreNo (s.slotNo * 0x2000 + s.h.tresOff.toNat * 64) := by unfold sdmKey; omega
    generalize sdmKey s.coreNo (s.slotNo * 0x2000 + s.h.tresOff.toNat * 64) = k at hk hin
    have h1 : ¬ k < lsBase := by unfold lsBase; unfold sdmBase at hk; omega
    have hr : s.readKeyOf k = k := if_neg h1
    have ht : s.twinKeyOf k = none := if_neg h1
    unfold State.homeWrite
    rw [ht, hr]
    dsimp only
    rw [hn]
    have hm := putBytes_mem ((s.cutRels k 1088).healUnits k 1088) k bs
    have hpo : (((s.cutRels k 1088).healUnits k 1088).putBytes k bs).poison = s.poison.filter fun p => !(decide (k ≤ p) && decide (p + poisonUnit p ≤ k + 1088)) := by
      rw [hm]; rfl
    have hre : (((s.cutRels k 1088).healUnits k 1088).putBytes k bs).rels = s.rels.filter fun r => !decide (r.key < k + 1088 ∧ k < r.key + r.len) := by
      rw [hm]; rfl
    refine ⟨?_, ?_, ?_, ?_⟩
    · conv_lhs => rw [hm]
      rw [hpo, hre]
      rfl
    · intro hw j hj
      have := hin j hj
      exact putBytes_outside bs _ k j hw (by omega)
    · intro p hp
      have h2 := hin p hp
      rw [hpo, List.mem_filter]
      refine ⟨fun h => h.1, fun h => ⟨h, ?_⟩⟩
      have hu : 0 < poisonUnit p := by unfold poisonUnit; split <;> omega
      simp only [Bool.not_eq_true', Bool.and_eq_false_iff, decide_eq_false_iff_not]
      omega
    · intro r
      rw [hre, List.mem_filter]
      refine ⟨fun h => h.1, fun h hl => ⟨h, ?_⟩⟩
      simp only [Bool.not_eq_true', decide_eq_false_iff_not]
      omega
  · exact ⟨rfl, fun _ _ _ => rfl, fun _ _ => Iff.rfl, fun r => ⟨fun h => h, fun h _ => h⟩⟩

/-- A word of a hart outside mode S whose convoy has raised nothing traps (R341): what is written, and what stands. -/
theorem trapNow_taken {s : State} {cause : BitVec 8} (h : s.trapsToS cause) (tval : Word) : TrapTaken cause tval s (s.trapNow ⟨cause, tval⟩) := by
  obtain ⟨hm, he, h0, h1, h2⟩ := h
  have hf : (s.cv.entry s.pos).filter (fun e => e.state == .stopped) = none := by
    cases e : s.cv.entry s.pos with
    | none => rfl
    | some o =>
      have := (he o (List.mem_of_find?_eq_some e)).2.1
      simp [this]
  have hc : Convoy.causes s.cv = [] := by
    unfold Convoy.causes
    rw [List.filter_eq_nil_iff]
    intro e hme
    simp [(he e hme).1]
  let own : Entry := ⟨.notIssued, cause, s.pos, 0, tval, 0, none, [], [], false, []⟩
  have ho : s.ownEntry .notIssued cause tval 0 = own := by unfold State.ownEntry; rw [hf]; rfl
  have hfill : s.cv.entries.find? (fun e => e.fill && !((some own).any fun o => o.word == e.word)) = none := by
    rw [List.find?_eq_none]
    intro e hme
    simp [(he e hme).2.2]
  have hne : ((own.cause == 0x3F) = false) := by simpa using h2
  have hpool : (own.cause == 0x0C) = false := by simpa using h1
  have key : ∃ c : Convoy, s.trapNow ⟨cause, tval⟩ = s.enterInside c ∧ c.rcause = cause ∧ c.rword = s.pos ∧ c.tval = tval ∧ c.hinge = s.cv.hinge := by
    unfold State.trapNow State.takeRest
    dsimp only
    rw [ho, hfill]
    simp only [hc, Option.toList_some, List.nil_append, List.head?_cons, List.foldl_cons, List.foldl_nil, List.filter_cons, List.filter_nil, hne, List.length_nil, Bool.false_eq_true,
      if_false, State.countChecks, Nat.lt_irrefl, false_and, List.all_cons, hpool, Bool.false_and, and_false]
    refine ⟨_, rfl, ?_, ?_, ?_, ?_⟩ <;> dsimp only [own]
    all_goals first | simp | (split <;> try split) <;> rfl
  obtain ⟨c, hk, k1, k2, k3, k4⟩ := key
  rw [hk]
  obtain ⟨f1, f2, f3, f4⟩ := copyRecord_frame s c
  have fh : (s.copyRecord c).h = s.h := by rw [f1]
  unfold State.enterInside
  rw [if_neg hm]
  constructor
  · constructor <;> simp [State.enterS, k1, k2, k3, k4, fh]
    all_goals rfl
  · exact k2
  · exact ⟨rfl, rfl⟩
  · rfl
  · simp [State.enterS, fh]
  · simp [State.enterS, Hart.withTrap, fh]
  · rw [State.enterS, f1]
  · rw [State.enterS, f1]
  · exact f2
  · exact f3
  · exact f4
  · have hx : ∃ m q l, s.copyRecord c = { s with mem := m, poison := q, rels := l } := ⟨_, _, _, f1⟩
    obtain ⟨m, q, l, hx⟩ := hx
    rw [hx]
    rfl

end Sys2Proof.Machine
end

