-- ==== Sys2Proof/Laws/Step.lean ====
section
/-! SUPPORT. What the outermost layer of a step is: somebody acts, and then the next mover is chosen. -/

namespace Sys2Proof.Machine

/-- Choosing the next mover turns an outcome with a next state into one with a next state. -/
theorem settle_next {o : Out} {u : State} (h : State.settle o = .next u) : ∃ t, o = .next t ∧ u = t.reschedule := by
  cases o with
  | next t => exact ⟨t, rfl, by cases h; rfl⟩
  | fault r => cases h
  | refused r => cases h

/-- A word at which a machine check is raised: stopped where it stood, or trapped, with further checks left pending and the replies of a gather given up. -/
def State.checkedAt (x : State) (s : State) (i : Instr) (v : Word) (rest : List Word) : State :=
  let t : State := { x with
    h := { x.h with mcheck := x.h.mcheck ++ rest }, packets := x.packets.filter fun p => !(p.hart == x.cur && p.gathers) }
  if isV i then t.awake.stopV 0x3F v s.vstart 0 s.keptOf (match s.resumed with | some e => e.seen | none => []) false else t.trapNow ⟨0x3F, v⟩

/-- A read check leaves an outcome with a next state as it is, or raises a machine check at the word instead: for a dirty line that the word has had
written back, which is lost, or for a row of the pool that it reads (R358, Table 18-1). -/
theorem readCheck_next {s u : State} {i : Instr} {o : Out} (h : s.readCheck i o = .next u) :
    o = .next u ∨ ∃ t, o = .next t ∧ ((∃ v rest, (State.checksOf t.h).drop (State.checksOf s.h).length = v :: rest ∧ u = (s.dropBadLines t).checkedAt s i v rest)
      ∨ ∃ row, s.badRead i = some row ∧ u = s.checkedAt s i (BitVec.ofNat 64 row) []) := by
  have stopped {x : State} {v : Word} {rest : List Word} (h : (if isV i then (.next ((State.awake { x with
        h := { x.h with mcheck := x.h.mcheck ++ rest }, packets := x.packets.filter fun p => !(p.hart == x.cur && p.gathers) }).stopV 0x3F v s.vstart 0 s.keptOf
          (match s.resumed with | some e => e.seen | none => []) false) : Out)
      else .next (State.trapNow { x with
        h := { x.h with mcheck := x.h.mcheck ++ rest }, packets := x.packets.filter fun p => !(p.hart == x.cur && p.gathers) } ⟨0x3F, v⟩)) = .next u) :
      u = x.checkedAt s i v rest := by
    unfold State.checkedAt
    split at h <;> (cases h; simp [*])
  unfold State.readCheck at h
  cases o with
  | fault r => exact .inl h
  | refused r => exact .inl h
  | next t =>
    dsimp only at h
    split at h
    · rename_i _ _ v rest hm
      refine .inr ⟨t, rfl, .inl ⟨v, rest, ?_, stopped h⟩⟩
      split at hm
      · exact hm
      · cases hm
    · split at h
      · exact .inr ⟨t, rfl, .inr ⟨_, ‹_›, stopped h⟩⟩
      · exact .inl h
    · exact .inl h

/-- A word completes as its check leaves it, or, when it is a load, stays where it stood to read later (R282). -/
theorem heldLoad_next {s u : State} {i : Instr} {o : Out} (h : s.heldLoad i o = .next u) :
    o = .next u ∨ isLoad i = true ∧ ∃ e, u = s.awake.stopAs e := by
  cases o with
  | fault r => exact .inl h
  | refused r => exact .inl h
  | next t =>
    unfold State.heldLoad at h
    dsimp only at h
    cases h
    split
    · exact .inr ⟨by simp_all, _, rfl⟩
    · exact .inl rfl

/-- The state in which an arrival has its effect: taken from the list of arrivals. -/
def State.taken (s : State) (o : Outside) : State :=
  match s.dueInput with
  | some i => if i.what = o then { s with inputs := s.inputs.erase i } else s
  | none => s

/-- Everything a step with a next state can be: the clock alone, a step of a unit (with board power removed, the reset), an arrival from outside, a
hart that stops before it issues, or a hart's word with the check of the rows it read and the choice to read later; and then the next mover is chosen. -/
theorem step_cases {s u : State} (h : step s = .next u) :
    (∃ t, u = t.reschedule ∧
      ((s.turn = .idle ∧ t = s)
      ∨ (∃ i, s.turn = .event i ∧ exec i s = .next t)
      ∨ (∃ i, s.turn = .outside (.event i) ∧ exec i (s.taken (.event i)) = .next t)
      ∨ (∃ w off, s.turn = .outside (.windowRead w off) ∧ t = (s.taken (.windowRead w off)).outsideRead w off)
      ∨ (∃ x, s.turn = .outside (.strike x) ∧ t = (s.taken (.strike x)).strike x)
      ∨ (∃ k, s.turn = .hart k ∧ (s.focus k).issue = .stop t)
      ∨ (∃ k i v, s.turn = .hart k ∧ (s.focus k).issue = .word i v ∧ v.heldLoad i (v.readCheck i (exec i v)) = .next t))) := by
  have ev : ∀ i, s.runEvent i exec = .next u → ∃ t, exec i s = .next t ∧ u = t.reschedule := fun i h => settle_next h
  have ou : ∀ o, s.turn = .outside o → s.runOutside o exec = .next u → ∃ t, u = t.reschedule ∧
      ((∃ i, s.turn = .outside (.event i) ∧ exec i (s.taken (.event i)) = .next t)
      ∨ (∃ w off, s.turn = .outside (.windowRead w off) ∧ t = (s.taken (.windowRead w off)).outsideRead w off)
      ∨ (∃ x, s.turn = .outside (.strike x) ∧ t = (s.taken (.strike x)).strike x)) := by
    intro o hs h
    cases o with
    | event i => obtain ⟨t, h1, h2⟩ := settle_next h; exact ⟨t, h2, .inl ⟨i, hs, h1⟩⟩
    | windowRead w off => exact ⟨_, by cases h; rfl, .inr (.inl ⟨w, off, hs, rfl⟩)⟩
    | strike x => exact ⟨_, by cases h; rfl, .inr (.inr ⟨x, hs, rfl⟩)⟩
  have ht : ∀ k, s.runHart k exec = .next u → ∃ t, u = t.reschedule ∧
      ((s.focus k).issue = .stop t ∨ ∃ i v, (s.focus k).issue = .word i v ∧ v.heldLoad i (v.readCheck i (exec i v)) = .next t) := by
    intro k h
    unfold State.runHart at h
    cases e : (s.focus k).issue with
    | stop t => rw [e] at h; exact ⟨t, by cases h; rfl, .inl rfl⟩
    | word i v => rw [e] at h; obtain ⟨t, h1, h2⟩ := settle_next h; exact ⟨t, h2, .inr ⟨i, v, rfl, h1⟩⟩
  unfold step at h
  split at h
  · obtain ⟨t, h1, h2⟩ := ev _ h; exact ⟨t, h2, .inr (.inl ⟨_, ‹_›, h1⟩)⟩
  · obtain ⟨t, h2, h1⟩ := ou _ ‹_› h; exact ⟨t, h2, .inr (.inr (h1.imp_right fun h => h.imp_right .inl))⟩
  · cases h
  · exact ⟨s, by cases h; rfl, .inl ⟨‹_›, rfl⟩⟩
  · obtain ⟨t, h1, h2⟩ := ev _ h; exact ⟨t, h2, .inr (.inl ⟨_, ‹_›, h1⟩)⟩
  · obtain ⟨t, h2, h1⟩ := ou _ ‹_› h; exact ⟨t, h2, .inr (.inr (h1.imp_right fun h => h.imp_right .inl))⟩
  · obtain ⟨t, h2, h1 | ⟨i, v, h1, h3⟩⟩ := ht _ h
    · exact ⟨t, h2, .inr (.inr (.inr (.inr (.inr (.inl ⟨_, ‹_›, h1⟩)))))⟩
    · exact ⟨t, h2, .inr (.inr (.inr (.inr (.inr (.inr ⟨_, i, v, ‹_›, h1, h3⟩)))))⟩

/-! Choosing the next mover: the clocks, the idle clock, what the harts are ready for, the reads made ahead, and the turn. -/

/-- Memory and pools are not touched by the clocks. -/
theorem markReady_keeps (s : State) : s.markReady.mem = s.mem ∧ s.markReady.core = s.core ∧ s.markReady.cores = s.cores ∧ s.markReady.pend = s.pend := by
  have h (l : List Nat) : ∀ t : State, t.mem = s.mem ∧ t.core = s.core ∧ t.cores = s.cores ∧ t.pend = s.pend →
      let u := l.foldl (fun t k => let h := t.hartAt k; t.setHart k { h with since := if s.eligible k then some (h.since.getD s.cycle.toNat) else none }) t
      u.mem = s.mem ∧ u.core = s.core ∧ u.cores = s.cores ∧ u.pend = s.pend := by
    induction l with
    | nil => exact fun _ h => h
    | cons k l ih =>
      intro t ht
      refine ih _ ?_
      unfold State.setHart
      dsimp only
      split <;> exact ht
  exact h s.placed s ⟨rfl, rfl, rfl, rfl⟩

theorem readAhead_keeps (s : State) : s.readAhead.mem = s.mem ∧ s.readAhead.core = s.core ∧ s.readAhead.cores = s.cores ∧ s.readAhead.pend = s.pend := by
  unfold State.readAhead
  split
  · exact ⟨rfl, rfl, rfl, rfl⟩
  · dsimp only
    split <;> exact ⟨rfl, rfl, rfl, rfl⟩

theorem rowAhead_keeps (s : State) : s.rowAhead.mem = s.mem ∧ s.rowAhead.core = s.core ∧ s.rowAhead.cores = s.cores ∧ s.rowAhead.pend = s.pend := by
  unfold State.rowAhead
  split
  · exact ⟨rfl, rfl, rfl, rfl⟩
  · dsimp only
    split
    · exact ⟨rfl, rfl, rfl, rfl⟩
    · split
      · exact ⟨rfl, rfl, rfl, rfl⟩
      · unfold State.setHart
        split <;> exact ⟨rfl, rfl, rfl, rfl⟩

/-- Choosing the next mover writes no byte of memory and no core. -/
theorem reschedule_keeps (s : State) :
    s.reschedule.mem = s.mem ∧ s.reschedule.core = s.core ∧ s.reschedule.cores = s.cores ∧ s.reschedule.pend = s.pend := by
  unfold State.reschedule State.pass
  dsimp only
  obtain ⟨c1, c2, c3, c4⟩ := rowAhead_keeps (State.readAhead _)
  obtain ⟨a1, a2, a3, a4⟩ := readAhead_keeps (State.markReady _)
  obtain ⟨b1, b2, b3, b4⟩ := markReady_keeps _
  exact ⟨c1.trans (a1.trans b1), c2.trans (a2.trans b2), c3.trans (a3.trans b3), c4.trans (a4.trans b4)⟩

theorem reschedule_mem (s : State) : s.reschedule.mem = s.mem := (reschedule_keeps s).1

end Sys2Proof.Machine
end

