-- ==== Sys2Proof/Tests/Slice0.lean ====
section
/-! SUPPORT. Tests: what the encoding's tables and the manual's examples say, and for every obligation with hypotheses a state that meets
them. -/

namespace Sys2Proof.Tests
open Sys2Proof Sys2Proof.Machine
set_option Elab.async false

/-- Each word decodes to its instruction, with H 0 and with H 1. -/
noncomputable def decodesTo (l : List (Word × Instr)) : Bool :=
  l.all fun p => decide (decode p.1 = some p.2) && decide (decode (p.1 ||| 0x8000_0000_0000_0000) = some p.2)

/-- Table 03-7, major 0x01. -/
theorem test_words_01 : decodesTo [
    (0x01AA_BE00_0000_0000, .add 21 10 31), (0x0157_C200_1000_0000, .sub 10 31 1), (0x01F8_6000_2000_0000, .mul 31 1 16),
    (0x010C_3600_3000_0000, .mulh 1 16 27), (0x0186_CC00_4000_0000, .mulhn 16 27 6), (0x01D9_AA00_5000_0000, .div 27 6 21),
    (0x0135_5400_6000_0000, .divn 6 21 10), (0x01AA_BE00_7000_0000, .rem 21 10 31), (0x0157_C200_8000_0000, .remn 10 31 1),
    (0x01F8_6000_9000_0000, .and 31 1 16), (0x010C_3600_A000_0000, .or 1 16 27), (0x0186_CC00_B000_0000, .xor 16 27 6),
    (0x01D9_AA00_C000_0000, .andn 27 6 21), (0x0135_5400_D000_0000, .shl 6 21 10), (0x01AA_BE00_E000_0000, .shr 21 10 31),
    (0x0157_C200_F000_0000, .sra 10 31 1), (0x01F8_6001_0000_0000, .rotl 31 1 16), (0x010C_3601_1000_0000, .rotr 1 16 27),
    (0x0186_CC01_2000_0000, .min 16 27 6), (0x01D9_AA01_3000_0000, .max 27 6 21), (0x0135_5401_4000_0000, .minn 6 21 10),
    (0x01AA_BE01_5000_0000, .maxn 21 10 31), (0x0157_C201_6000_0000, .slt 10 31 1), (0x01F8_6001_7000_0000, .sltn 31 1 16),
    (0x010C_3601_8000_0000, .seq 1 16 27), (0x0186_C001_9000_0000, .clz 16 27), (0x01D9_8001_A000_0000, .ctz 27 6),
    (0x0135_4001_B000_0000, .popc 6 21), (0x01AA_8001_C000_0000, .bswap 21 10), (0x0157_C201_D000_0000, .sext 10 31 1),
    (0x01F8_6001_E000_0000, .zext 31 1 16), (0x010C_3661_F000_0000, .sel 1 16 27 6)] = true := by decide +kernel

/-- Table 03-7, major 0x02. -/
theorem test_words_02 : decodesTo [
    (0x0286_C000_8000_05C3, .addi 16 27 0x800005C3), (0x02D9_8040_8000_05C4, .andi 27 6 0x800005C4), (0x0235_4080_8000_05C5, .ori 6 21 0x800005C5),
    (0x02AA_80C0_8000_05C6, .xori 21 10 0x800005C6), (0x0257_C100_0000_003F, .shli 10 31 0x3F), (0x02F8_4140_0000_0021, .shri 31 1 0x21),
    (0x020C_0180_0000_0001, .srai 1 16 1), (0x0286_C1C0_8000_05CA, .slti 16 27 0x800005CA), (0x02D9_8200_8000_05CB, .sltni 27 6 0x800005CB),
    (0x0235_4240_8000_05CC, .seqi 6 21 0x800005CC), (0x02AA_8280_8000_05CD, .muli 21 10 0x800005CD), (0x0250_02C0_8000_05CE, .ldi 10 0x800005CE),
    (0x02F8_0300_8000_05CF, .ldhi 31 0x800005CF), (0x0208_0340_8000_05D0, .pcadd 1 0x800005D0)] = true := by decide +kernel

/-- Table 03-7, major 0x03. -/
theorem test_words_03 : decodesTo [
    (0x0386_D800_8000_05D1, .ld 16 27 1 2 0x800005D1), (0x03D9_AC01_8000_05D2, .ldn 27 6 2 3 0x800005D2),
    (0x0335_7402_8000_05D3, .st 6 21 3 1 0x800005D3)] = true := by decide +kernel

/-- Table 03-7, major 0x04. -/
theorem test_words_04 : decodesTo [
    (0x04AA_8080_0000_05D4, .beq 21 10 0x80000005D4), (0x0457_C880_0000_05D5, .bne 10 31 0x80000005D5),
    (0x04F8_5080_0000_05D6, .blt 31 1 0x80000005D6), (0x040C_1880_0000_05D7, .bge 1 16 0x80000005D7),
    (0x0486_E080_0000_05D8, .bltn 16 27 0x80000005D8), (0x04D9_A880_0000_05D9, .bgen 27 6 0x80000005D9)] = true := by decide +kernel

/-- Table 03-7, major 0x05. -/
theorem test_words_05 : decodesTo [
    (0x0530_0400_0000_05DA, .jal 6 0x400000005DA), (0x05A9_5400_0000_05DB, .jalr 21 10 0x400000005DB)] = true := by decide +kernel

/-- Table 03-7, major 0x06. -/
theorem test_words_06 : decodesTo [
    (0x0657_C200_0100_0000, .fadd 10 31 1 0 2), (0x06F8_6000_1380_0000, .fsub 31 1 16 1 3), (0x060C_3600_2400_0000, .fmul 1 16 27 2 0),
    (0x0686_CC00_3680_0000, .fdiv 16 27 6 3 1), (0x06D9_8000_4700_0000, .fsqrt 27 6 3 2), (0x0635_55F0_5380_0000, .fma 6 21 10 31 1 3),
    (0x06AA_BE10_6400_0000, .fms 21 10 31 1 2 0), (0x0657_C300_7680_0000, .fnma 10 31 1 16 3 1), (0x06F8_6000_8100_0000, .fmin 31 1 16 2),
    (0x060C_3600_9180_0000, .fmax 1 16 27 3), (0x0686_CC00_A000_0000, .feq 16 27 6 0), (0x06D9_AA00_B080_0000, .flt 27 6 21 1),
    (0x0635_5400_C100_0000, .fle 6 21 10 2), (0x06AA_8E00_D780_0000, .fcvtfi 21 10 7 3 3), (0x0657_D000_E800_0000, .fcvtif 10 31 8 4 0),
    (0x06F8_4400_F080_0000, .fcvtff 31 1 2 0 1), (0x060C_0001_0100_0000, .fclass 1 16 2), (0x0686_CC21_1180_0000, .fsgn 16 27 6 2 3)] = true := by decide +kernel

/-- Table 03-7, major 0x07. -/
theorem test_words_07 : decodesTo [
    (0x07D8_3FF0_0000_0000, .csrr 27 0x3FF), (0x0735_4310_1000_0000, .csrw 6 21 0x31), (0x07AA_9040_2000_0000, .csrs 21 10 0x104),
    (0x0757_EA50_3000_0000, .csrc 10 31 0x2A5), (0x0707_C300_4000_0000, .tlbinv 31 1 16)] = true := by decide +kernel

/-- Table 03-7, major 0x10. -/
theorem test_words_10 : decodesTo [
    (0x100C_3603_6900_0800, .vadd 1 16 27 6 6 true 1 true), (0x1086_CC0A_DA01_0800, .vsub 16 27 6 21 5 true 2 true),
    (0x10D9_AA05_3B02_0800, .vrsub 27 6 21 10 3 true 3 true), (0x1035_540F_FC03_0800, .vmul 6 21 10 31 7 true 4 true),
    (0x10AA_BE00_A804_0800, .vmulh 21 10 31 1 2 true true), (0x1057_C208_6905_0800, .vdiv 10 31 1 16 6 true 1 true),
    (0x10F8_600D_DA06_0800, .vrem 31 1 16 27 5 true 2 true), (0x100C_366A_FC07_0800, .vfma 1 16 27 6 21 7 true 4 true),
    (0x1086_CD55_2808_0800, .vfms 16 27 6 21 10 2 true 0 true), (0x10D9_AAAF_E909_0800, .vfnma 27 6 21 10 31 6 true 1 true),
    (0x1035_540F_E80A_0800, .vmin 6 21 10 31 6 true true), (0x10AA_BE00_D80B_0800, .vmax 21 10 31 1 5 true true),
    (0x1057_C000_D80C_0000, .vabs 10 31 1 5 true), (0x10F8_4008_380D_0000, .vneg 31 1 16 3 true), (0x100C_000D_FC0E_0000, .vsqrt 1 16 27 7 true 4),
    (0x1086_CC0A_E80F_0800, .vand 16 27 6 21 6 true true), (0x10D9_AA05_5810_0800, .vor 27 6 21 10 5 true true),
    (0x1035_540F_B811_0800, .vxor 6 21 10 31 3 true true), (0x10AA_BE00_F812_0800, .vandn 21 10 31 1 7 true true),
    (0x1057_C208_2813_0800, .vshl 10 31 1 16 2 true true), (0x10F8_600D_E814_0800, .vshr 31 1 16 27 6 true true),
    (0x100C_3603_5815_0800, .vsra 1 16 27 6 5 true true), (0x1086_CC0A_B816_0800, .vaddsat 16 27 6 21 3 true true),
    (0x10D9_AA05_7817_0800, .vsubsat 27 6 21 10 7 true true), (0x1035_4005_7818_0000, .vclz 6 21 10 7 true),
    (0x10AA_800F_A819_0000, .vpopc 21 10 31 2 true), (0x1057_C30D_BB1A_0000, .vdot 10 31 1 16 27 3 true 3),
    (0x10F8_4008_581B_0000, .vclass 31 1 16 5 true), (0x100C_3603_781C_0800, .vcopysign 1 16 27 6 7 true true),
    (0x1086_C003_781D_0000, .vmov 16 27 6 7 true), (0x10D8_0C0A_A81E_B800, .vsplat 27 6 21 2 true 11), (0x1030_000A_A81F_2000, .vid 6 21 2 true 2)] = true := by decide +kernel

/-- Table 03-7, major 0x11. -/
theorem test_words_11 : decodesTo [
    (0x113A_BE00_B800_0800, .vcmpeq 7 10 31 1 3 true true), (0x1117_C208_7801_0800, .vcmpne 2 31 1 16 7 true true),
    (0x1130_600D_A802_0800, .vcmplt 6 1 16 27 2 true true), (0x112C_3603_6803_0800, .vcmple 5 16 27 6 6 true true),
    (0x111E_CC0A_D804_0800, .vcmpgt 3 27 6 21 5 true true), (0x1139_AA05_3805_0800, .vcmpge 7 6 21 10 3 true true),
    (0x1115_540F_F806_0800, .vcmpun 2 21 10 31 7 true true), (0x1131_4600_8007_0000, .mand 6 5 3 1), (0x1128_CE08_0008_0000, .mor 5 3 7 16),
    (0x1119_C40D_8009_0000, .mxor 3 7 2 27), (0x1138_8C03_000A_0000, .mandn 7 2 6 6), (0x1111_8003_000B_0000, .mnot 2 6 6),
    (0x1130_0003_000C_0000, .mset 6 6), (0x1128_0000_000D_0000, .mclr 5), (0x11A9_C00F_800E_0000, .mpopc 21 7 31),
    (0x1150_8000_800F_0000, .mfirst 10 2 1), (0x1110_4008_3810_0000, .mfromv 2 1 16 3 true), (0x1109_400D_F811_9000, .mtov 1 5 27 7 true 9)] = true := by decide +kernel

/-- Table 03-7, major 0x12. -/
theorem test_words_12 : decodesTo [
    (0x1286_C003_2B00_2000, .vcvt 16 27 6 2 true 3 2), (0x12D9_800A_EC01_9000, .vcvtsat 27 6 21 6 true 4 9),
    (0x1235_40AF_8402_F000, .vcvtmx 6 21 10 31 4 15), (0x12AA_BE00_F903_9000, .vcvtfrommx 21 10 31 1 7 true 1 9),
    (0x1257_C000_F904_0000, .vround 10 31 1 7 true 1)] = true := by decide +kernel

/-- Table 03-7, major 0x13. -/
theorem test_words_13 : decodesTo [
    (0x13F8_4008_2800_0000, .vexp2 31 1 16 2 true 0), (0x130C_000D_E901_0000, .vexp 1 16 27 6 true 1),
    (0x1386_C003_5A02_0000, .vlog2 16 27 6 5 true 2), (0x13D9_800A_BB03_0000, .vrcp 27 6 21 3 true 3),
    (0x1335_4005_7C04_0000, .vrsqrt 6 21 10 7 true 4), (0x13AA_800F_A805_0000, .vsin 21 10 31 2 true 0),
    (0x1357_C000_E906_0000, .vcos 10 31 1 6 true 1), (0x13F8_4008_5A07_0000, .vtanh 31 1 16 5 true 2),
    (0x130C_000D_BB08_0000, .vsigmoid 1 16 27 3 true 3)] = true := by decide +kernel

/-- Table 03-7, major 0x14. -/
theorem test_words_14 : decodesTo [
    (0x1486_C003_7300_0000, .vredsum 16 27 6 7 3), (0x14D9_800A_A001_0000, .vredmax 27 6 21 2), (0x1435_4005_6002_0000, .vredmin 6 21 10 6),
    (0x14AA_800F_D003_0000, .vredand 21 10 31 5), (0x1457_C000_B004_0000, .vredor 10 31 1 3), (0x14F8_4008_7C05_0000, .vscan 31 1 16 7 true 4),
    (0x140C_000D_A806_0000, .vscanx 1 16 27 2 true 0), (0x1486_C003_6807_0000, .vscanmax 16 27 6 6 true),
    (0x14D9_800A_D008_0000, .vcompress 27 6 21 5), (0x1435_540F_F009_0000, .vexpand 6 21 10 31 7 false),
    (0x14AA_BE18_000A_0801, .vslideup 21 10 31 1 16 true), (0x1457_C30D_800B_0801, .vslidedn 10 31 1 16 27 true),
    (0x14F8_600D_800C_0000, .vperm 31 1 16 27), (0x140C_000D_800D_0000, .vrev 1 16 27), (0x1486_CC0A_800E_0000, .vzip 16 27 6 21),
    (0x14DD_4C05_000F_0000, .vunzip 27 6 21 10)] = true := by decide +kernel

/-- Table 03-7, major 0x15. -/
theorem test_words_15 : decodesTo [
    (0x1535_540F_E000_0000, .vsegsum 6 21 10 31 6 0), (0x15AA_BE00_DA01_0000, .vsegscan 21 10 31 1 5 true 2),
    (0x1557_C208_3002_0000, .vsegmax 10 31 1 16 3), (0x15F8_600D_F003_0000, .vsegmin 31 1 16 27 7), (0x150C_3603_0004_0000, .vmergek 1 16 27 6),
    (0x1586_C003_0005_000A, .vsortk 16 27 6 10), (0x1519_800A_E006_0000, .vconflict 3 6 21 6)] = true := by decide +kernel

/-- Table 03-7, major 0x18. -/
theorem test_words_18 : decodesTo [
    (0x1835_40AB_0005_864A, .vld 6 21 10 5 2 5 0x864A), (0x18AA_BE1F_801D_864B, .vlds 21 10 31 1 7 3 13 0x864B),
    (0x1857_C304_8025_0000, .vldx 10 31 1 16 2 1 5), (0x18F8_4105_003B_864D, .vst 31 1 16 2 2 11 0x864D),
    (0x180C_366B_8044_864E, .vsts 1 16 27 6 5 3 4 0x864E), (0x1886_CD56_805B_0000, .vstx 16 27 6 21 3 1 11),
    (0x18D9_AAAF_1064_0000, .vstxadd 27 6 21 10 7 2 1 4)] = true := by decide +kernel

/-- Table 03-7, major 0x1A. -/
theorem test_words_1A : decodesTo [
    (0x1A30_0150_0030_0000, .cnew 6 21 6), (0x1AA8_0000_0080_0000, .cfree 21), (0x1A57_C000_0100_0000, .cshare 10 31),
    (0x1AF8_6000_0180_0000, .cprep 31 1 16), (0x1A0C_3660_0200_0000, .csplice 1 16 27 6), (0x1A81_B750_0280_0000, .csplit 16 27 6 21),
    (0x1AD9_8150_0300_0000, .ctrimh 27 6 21), (0x1A35_40A0_0380_0000, .ctrimt 6 21 10), (0x1AAA_81F0_8400_0000, .cslice 21 10 31 1),
    (0x1A57_C000_04C8_0000, .cretag 10 31 9), (0x1AF8_4000_0500_0000, .clen 31 1), (0x1A0C_0000_0580_0004, .cinfo 1 16 4),
    (0x1A86_C000_0600_0000, .cflat 16 27), (0x1ADE_C000_0680_0000, .cpriv 27 27), (0x1A30_0000_0700_0000, .cpoolst 6), (0x1A00_0000_0780_0000, .cwait)] = true := by decide +kernel

/-- Table 03-7, major 0x20. -/
theorem test_words_20 : decodesTo [
    (0x2020_01F0_0000_0000, .zmode 1 31), (0x2020_0000_0001_0000, .zzero 1), (0x2024_3660_0102_0000, .zop 1 16 27 6 1),
    (0x2026_CD50_0203_03E1, .zopmx 1 27 6 21 2 31 1), (0x2021_8155_0004_0000, .zload 1 6 21 10), (0x2025_40AF_8405_6000, .zdrain 1 21 10 31 4 6),
    (0x2022_800F_8006_0000, .zrow 1 10 31), (0x2020_8000_8007_0000, .zchk 1 2 1)] = true := by decide +kernel

/-- Table 03-7, major 0x28. -/
theorem test_words_28 : decodesTo [
    (0x28F8_600C_0008_0669, .kacq 31 1 16 3 0x80669), (0x280C_3664_0018_066A, .klend 1 16 27 6 1 0x8066A),
    (0x2886_CD58_0028_066B, .kshare 16 27 6 21 2 0x8066B), (0x28D9_AA0C_0038_066C, .kret 27 6 21 3 0x8066C),
    (0x2835_5404_0048_066D, .kunshare 6 21 10 1 0x8066D), (0x28AA_BE08_0058_066E, .ksplit 21 10 31 2 0x8066E),
    (0x2857_C20C_0068_066F, .kmerge 10 31 1 3 0x8066F), (0x28F8_6004_0078_0670, .kdrop 31 1 16 1 0x80670),
    (0x280C_0008_0088_0671, .kquery 1 16 2 0x80671), (0x2886_CD5C_0098_0672, .krecover 16 27 6 21 3 0x80672),
    (0x28D9_AA04_00A8_0673, .kclean 27 6 21 1 0x80673)] = true := by decide +kernel

/-- Table 03-7, major 0x29. -/
theorem test_words_29 : decodesTo [
    (0x2935_5408_400C_0674, .aadd 6 21 10 2 0 4 true 0x40674), (0x29AA_BE0E_0014_0675, .amin 21 10 31 3 4 0 false 0x40675),
    (0x2957_C205_902C_0676, .amax 10 31 1 1 3 1 true 0x40676), (0x29F8_6009_2034_0677, .aminn 31 1 16 2 2 2 false 0x40677),
    (0x290C_360C_B04C_0678, .amaxn 1 16 27 3 1 3 true 0x40678), (0x2986_CC04_4054_0679, .aand 16 27 6 1 0 4 false 0x40679),
    (0x29D9_AA0A_006C_067A, .aor 27 6 21 2 4 0 true 0x4067A), (0x2935_540D_9074_067B, .axor 6 21 10 3 3 1 false 0x4067B),
    (0x29AA_BE05_208C_067C, .aswap 21 10 31 1 2 2 true 0x4067C), (0x2957_C308_B094_067D, .acas 10 31 1 16 2 1 3 false 0x4067D),
    (0x29F8_602C_40AC_067E, .afadd 31 1 16 2 3 0 4 true 0x4067E), (0x290C_3606_00B4_067F, .afmax 1 16 27 1 4 0 false 0x4067F),
    (0x2986_C009_C0CC_0680, .ald 16 27 2 3 4 true 0x40680), (0x2906_CC0D_20D4_0681, .ast 27 6 3 2 2 false 0x40681)] = true := by decide +kernel

/-- Table 03-7, major 0x2A. -/
theorem test_words_2A : decodesTo [
    (0x2A01_AA04_8008_0682, .fenceSv 6 21 1 1 0x80682), (0x2A00_0000_0010_0000, .fenceVs 0), (0x2A00_0002_0020_0000, .fenceVv 4),
    (0x2A07_C205_8038_0685, .fenceAll 31 1 1 3 0x80685), (0x2A08_0000_0040_0000, .gbar 1), (0x2A00_0000_0050_0000, .gbarin),
    (0x2AD8_0000_0060_0000, .gbarwt 27), (0x2A35_55FA_1074_0689, .await 6 21 10 31 2 4 1 false 0x40689)] = true := by decide +kernel

/-- Table 03-7, major 0x2B. -/
theorem test_words_2B : decodesTo [
    (0x2BAA_BFAC_0008_068A, .ecopy 21 10 31 26 3 0x8068A), (0x2B57_C300_801A_868B, .ecopyc 10 31 1 16 1 10 0x868B),
    (0x2BF8_61A8_0028_068C, .ecast 31 1 16 26 2 0x8068C), (0x2B0C_37AC_0038_068D, .ewin 1 16 27 26 3 0x8068D), (0x2B86_C000_0040_0000, .ewait 16 27),
    (0x2BD9_8000_0050_0002, .estat 27 6 2)] = true := by decide +kernel

/-- Table 03-7, major 0x2C. -/
theorem test_words_2C : decodesTo [
    (0x2C35_55CC_0008_0690, .qsel 6 21 10 28 3 0x80690), (0x2CAA_BFC4_0018_0691, .qtopk 21 10 31 28 1 0x80691),
    (0x2C57_C3C8_0028_0692, .qcount 10 31 1 28 2 0x80692)] = true := by decide +kernel

/-- Table 03-7, major 0x30. -/
theorem test_words_30 : decodesTo [
    (0x30F8_6000_0000_0000, .setvl 31 1 16), (0x3000_0000_0010_0000, .vrel), (0x3004_0000_0020_0000, .yield 16), (0x3006_C000_0030_0000, .exit 27),
    (0x3035_5404_0048_0697, .launch 6 21 10 1 0x80697)] = true := by decide +kernel

/-- Table 03-7, major 0x31. -/
theorem test_words_31 : decodesTo [
    (0x3100_0000_0000_0000, .trapret), (0x3100_0000_0018_0699, .ecall 0x80699), (0x3100_0000_0028_069A, .ebreak 0x8069A),
    (0x310C_0000_0030_0000, .hsave 1 16), (0x3186_C000_0040_0000, .hload 16 27)] = true := by decide +kernel

/-! Translation: spaces 0 and 1 of the page table at 0 are one page of 2^40 bytes of this device, frame 0; the low byte of its leaf is `b`. -/

section
variable {b : Byte}

/-- The tables: the space table's entries 0 and 1, a table at 0x8000 with the table at 0x10000, and there the leaf, whose NODE is the device's own. Beside
them the words `addi x0, x0, 0` at 0x108 and `addi x7, x7, 1` at 0x110. -/
@[irreducible] def leafKey : Nat := 0x40_0000_1000
def tables (b : Byte) : Memory := [(0, 1), (1, 0x80), (8, 1), (9, 0x80), (0x10F, 2), (0x110, 1), (0x115, 0xC0), (0x116, 0x39), (0x117, 2), (leafKey, b), (0x80_0000_0000, 1), (0x80_0000_0000 + 2, 1)]
def leafBytes (b : Byte) : Memory := memSetN (tables b) (leafKey + 6) (toBytes 2 Config.nodeId.toNat)
def mapped (b : Byte) (s : State) : State := { s with mem := leafBytes b }
def leafWord (b : Byte) : Word := Config.nodeId ++ b.setWidth 48
/-- A leaf byte of a plain page and of one with IM. -/
abbrev Leaf (b : Byte) : Prop := b = 3 ∨ b = 7

theorem tables_wf (hb : Leaf b) : (tables b).wf = true := by
  rcases hb with rfl | rfl <;> decide +kernel
theorem leafBytes_get (hb : Leaf b) (k : Nat) : memGet (leafBytes b) k = if k = leafKey + 6 + 1 then BitVec.ofNat 8 (Config.nodeId.toNat / 256) else if k = leafKey + 6 then BitVec.ofNat 8 Config.nodeId.toNat
    else memGet (tables b) k := by
  simp only [leafBytes, toBytes, memSetN]
  rw [memGet_memSet _ _ _ _ (memSet_wf _ _ _ (tables_wf hb)), memGet_memSet _ _ _ _ (tables_wf hb)]
theorem leafBytes_away (hb : Leaf b) (n : Nat) : ∀ k, k + n ≤ leafKey + 6 ∨ leafKey + 8 ≤ k → memGetN (leafBytes b) k n = memGetN (tables b) k n := by
  induction n with
  | zero => exact fun _ _ => rfl
  | succ n ih =>
    intro k h
    rw [memGetN, memGetN, leafBytes_get hb, if_neg (by omega), if_neg (by omega), ih _ (by omega)]
theorem mapped_wf (hb : Leaf b) (s : State) : (mapped b s).mem.wf = true := memSetN_wf _ _ _ (tables_wf hb)

/-- A device with no frame redirected and no poison but in the sector at 0x200. -/
abbrev Plain (s : State) : Prop := s.frames = [] ∧ (s.poison.all (· == 0x200)) = true
theorem sound_of {s : State} (h : Plain s) {k : Nat} (hk : poisonAt k ≠ 0x200) : s.poisoned k = false := by
  have hr : s.readKeyOf k = k := by simp [State.readKeyOf, h.1]
  rw [State.poisoned, hr]
  by_contra hc
  rw [Bool.not_eq_false, List.contains_iff_mem] at hc
  exact hk (beq_iff_eq.mp (List.all_eq_true.mp h.2 _ hc))
theorem mapped_byte {s : State} (h : Plain s) (k : Nat) : (mapped b s).homeByte k = memGet (leafBytes b) k := by
  have hr : (mapped b s).readKeyOf k = k := by simp [State.readKeyOf, mapped, h.1]
  rw [State.homeByte, hr]
  rfl
theorem mapped_home {s : State} (h : Plain s) (n : Nat) : ∀ k, (mapped b s).homeRead k n = memGetN (leafBytes b) k n := by
  induction n with
  | zero => exact fun _ => rfl
  | succ n ih => exact fun k => by rw [State.homeRead, memGetN, ih, mapped_byte h]
theorem mapped_read {s : State} (h : Plain s) {p k : Nat} {l : List Byte} (hk : physKey p = some k) (hq : poisonAt k ≠ 0x200) (hl : memGetN (leafBytes b) k 8 = l) :
    (mapped b s).physRead p = .ok (BitVec.ofNat 64 (ofBytes l)) := by
  have hp : (mapped b s).poisoned k = false := sound_of (s := mapped b s) h hq
  rw [State.physRead, hk]
  simp [hp, mapped_home h, hl]
theorem low_read {s : State} (h : Plain s) (hb : Leaf b) {p k : Nat} {l : List Byte} (hk : physKey p = some k)
    (hl : (decide (poisonAt k ≠ 0x200) && decide (k + 8 ≤ 0x40_0000_1006 ∨ 0x40_0000_1008 ≤ k) && [3, 7].all fun c => decide (memGetN (tables c) k 8 = l)) = true) :
    (mapped b s).physRead p = .ok (BitVec.ofNat 64 (ofBytes l)) := by
  simp only [Bool.and_eq_true, decide_eq_true_eq, List.all_eq_true] at hl
  have hk0 : leafKey = 0x40_0000_1000 := by unfold leafKey; rfl
  refine mapped_read h hk hl.1.1 ((leafBytes_away hb 8 k (by omega)).trans (hl.2 b ?_))
  rcases hb with rfl | rfl <;> decide
theorem space_word {s : State} (h : Plain s) (hb : Leaf b) {space : BitVec 16} (hs : space = 0 ∨ space = 1) : (mapped b s).physRead (space.toNat * 8) = .ok 0x8001 := by
  rcases hs with rfl | rfl
  · exact low_read (l := [1, 0x80, 0, 0, 0, 0, 0, 0]) h hb (k := 0) (by decide +kernel) (by decide +kernel)
  · exact low_read (l := [1, 0x80, 0, 0, 0, 0, 0, 0]) h hb (k := 8) (by decide +kernel) (by decide +kernel)
theorem table_word {s : State} (h : Plain s) (hb : Leaf b) : (mapped b s).physRead 0x8000 = .ok 0x1_0001 :=
  low_read (l := [1, 0, 1, 0, 0, 0, 0, 0]) h hb (k := 0x80_0000_0000) (by decide +kernel) (by decide +kernel)
theorem leaf_bytes (hb : Leaf b) : memGetN (leafBytes b) leafKey (6 + 2) = [b, 0, 0, 0, 0, 0, BitVec.ofNat 8 Config.nodeId.toNat, BitVec.ofNat 8 (Config.nodeId.toNat / 256)] := by
  have cut (m : Memory) (n i : Nat) : ∀ k, memGetN m k (n + i) = memGetN m k n ++ memGetN m (k + n) i := by
    induction n with
    | zero => intro k; simp [memGetN]
    | succ n ih => intro k; rw [Nat.succ_add_eq_add_succ, ← Nat.succ_eq_add_one, Nat.add_succ, memGetN, ih, memGetN, Nat.add_right_comm k 1 n]; rfl
  have g6 : memGet (leafBytes b) (leafKey + 6) = BitVec.ofNat 8 Config.nodeId.toNat := by
    rw [leafBytes_get hb, if_neg (by omega)]
    exact if_pos rfl
  have g7 : memGet (leafBytes b) (leafKey + 6 + 1) = BitVec.ofNat 8 (Config.nodeId.toNat / 256) := by
    rw [leafBytes_get hb]
    exact if_pos rfl
  have t : memGetN (tables b) leafKey 6 = [b, 0, 0, 0, 0, 0] := by rcases hb with rfl | rfl <;> decide +kernel
  have e : memGetN (leafBytes b) (leafKey + 6) 2 = [memGet (leafBytes b) (leafKey + 6), memGet (leafBytes b) (leafKey + 6 + 1)] := rfl
  rw [cut, leafBytes_away hb 6 leafKey (by omega), t, e, g6, g7]
  rfl
theorem leafWord_eq : BitVec.ofNat 64 (ofBytes [b, 0, 0, 0, 0, 0, BitVec.ofNat 8 Config.nodeId.toNat, BitVec.ofNat 8 (Config.nodeId.toNat / 256)]) = leafWord b := by
  have go (n : BitVec 16) : BitVec.ofNat 64 (ofBytes [b, 0, 0, 0, 0, 0, BitVec.ofNat 8 n.toNat, BitVec.ofNat 8 (n.toNat / 256)]) = n ++ b.setWidth 48 := by
    apply BitVec.eq_of_toNat_eq
    have := n.isLt
    have := b.isLt
    rw [BitVec.toNat_append, ← Nat.shiftLeft_add_eq_or_of_lt (BitVec.isLt _), Nat.shiftLeft_eq]
    simp [ofBytes]
    omega
  exact go _
theorem leaf_word {s : State} (h : Plain s) (hb : Leaf b) : (mapped b s).physRead 0x1_0000 = .ok (leafWord b) :=
  (mapped_read h (k := leafKey) (by decide +kernel) (by decide +kernel) (leaf_bytes hb)).trans (congrArg _ leafWord_eq)

/-- The fields of the leaf. -/
theorem leaf_low (s l : Nat) (h : s + l ≤ 48) : (leafWord b).extractLsb' s l = (b.setWidth 48).extractLsb' s l := by
  have go (n : BitVec 16) (m : BitVec 48) : (n ++ m).extractLsb' s l = m.extractLsb' s l := by
    ext i hi
    rw [BitVec.getElem_extractLsb', BitVec.getElem_extractLsb', BitVec.getLsbD_append]
    simp [show s + i < 48 by omega]
  exact go _ _
theorem leaf_bit (i : Nat) (h : i < 48) : (leafWord b).getLsbD i = (b.setWidth 48).getLsbD i := by
  have go (n : BitVec 16) (m : BitVec 48) : (n ++ m).getLsbD i = m.getLsbD i := by
    rw [BitVec.getLsbD_append]
    simp [h]
  exact go _ _
theorem leaf_node : (leafWord b).extractLsb' 48 16 = Config.nodeId := by
  have go (n : BitVec 16) (m : BitVec 48) : (n ++ m).extractLsb' 48 16 = n := by
    ext i hi
    rw [BitVec.getElem_extractLsb', BitVec.getLsbD_append]
    simp [hi]
  exact go _ _

theorem leaf_ok (hb : Leaf b) : leafOk (leafWord b) (pageSize 1) = true := by
  have hf : ((b.setWidth 48).extractLsb' 16 28).toNat * 2 ^ 16 = 0 := by rcases hb with rfl | rfl <;> decide
  have hp : (physKey 0 != none) = true := by decide
  simp only [leafOk, leaf_node, if_true, leaf_low _ _ (show 16 + 28 ≤ 48 by decide), leaf_low _ _ (show 44 + 4 ≤ 48 by decide), leaf_low _ _ (show 4 + 12 ≤ 48 by decide),
    leaf_bit 0 (by decide), leaf_bit 1 (by decide), leaf_bit 2 (by decide), leaf_bit 3 (by decide), hf, Nat.zero_mod, hp]
  rcases hb with rfl | rfl <;> decide

/-- One level of a walk with nothing held: a non-leaf entry, and a leaf. -/
theorem walk_down {s : State} {ctx space : BitVec 16} {off fuel lvl table : Nat} {seen : List WalkEntry} {cached : Nat → Option Nat} {e : Word} (hc : cached lvl = none)
    (hr : s.physRead (table + off / pageSize lvl % 4096 * 8) = .ok e) (hb : e.getLsbD 1 = false) (hl : lvl ≠ 3) (hk : nonLeafOk e = true) :
    s.walkFrom ctx space off cached (fuel + 1) lvl table seen
      = s.walkFrom ctx space off cached fuel (lvl + 1) ((e.extractLsb' 15 29).toNat * 2 ^ 15) (⟨ctx, space, lvl + 1, off / pageSize lvl, (e.extractLsb' 15 29).toNat * 2 ^ 15⟩ :: seen) := by
  simp only [State.walkFrom, hc, hr, hb, hl, hk]
  rfl
theorem walk_leaf {s : State} {ctx space : BitVec 16} {off fuel lvl table : Nat} {seen : List WalkEntry} {cached : Nat → Option Nat} {e : Word} (hc : cached lvl = none)
    (hr : s.physRead (table + off / pageSize lvl % 4096 * 8) = .ok e) (hb : e.getLsbD 1 = true) (hl : lvl ≠ 0) (hk : leafOk e (pageSize lvl) = true) :
    s.walkFrom ctx space off cached (fuel + 1) lvl table seen
      = .ok (⟨ctx, space, off / pageSize lvl, pageSize lvl, e.extractLsb' 48 16, (e.extractLsb' 16 28).toNat * 2 ^ 16, e.getLsbD 2, e.getLsbD 3⟩, seen) := by
  simp only [State.walkFrom, hc, hr, hb, hl, hk]
  rfl
/-- What a walk finds: the page, with its IM bit. -/
def page (b : Byte) (ctx space : BitVec 16) : TlbEntry := ⟨ctx, space, 0, 2 ^ 40, Config.nodeId, 0, b.getLsbD 2, false⟩
theorem walk_of {s : State} (h : Plain s) (hb : Leaf b) (a : Acc) (ha : a.ptbase = 0) {space : BitVec 16} (hsp : space = 0 ∨ space = 1) (off : Nat) (ho : off < 4096) :
    (mapped b s).walk a space off [] = .ok (page b a.ctx space, [⟨a.ctx, space, 1, 0, 0x1_0000⟩, ⟨a.ctx, space, 0, 0, 0x8000⟩]) := by
  have d0 : off / pageSize 0 = 0 := Nat.div_eq_of_lt (Nat.lt_trans ho (by decide))
  have d1 : off / pageSize (0 + 1) = 0 := Nat.div_eq_of_lt (Nat.lt_trans ho (by decide))
  have ok0 : spaceEntryOk 0x8001 = true := by decide +kernel
  have t0 : ((0x8001 : Word).extractLsb' 15 29).toNat * 2 ^ 15 = 0x8000 := by decide +kernel
  have t1 : ((0x1_0001 : Word).extractLsb' 15 29).toNat * 2 ^ 15 = 0x1_0000 := by decide +kernel
  have i0 : (mapped b s).physRead (0x8000 + off / pageSize 0 % 4096 * 8) = .ok 0x1_0001 := by rw [d0]; exact table_word h hb
  have i1 : (mapped b s).physRead (0x1_0000 + off / pageSize (0 + 1) % 4096 * 8) = .ok (leafWord b) := by rw [d1]; exact leaf_word h hb
  have low : (b.setWidth 48).getLsbD 1 = true ∧ (b.setWidth 48).getLsbD 2 = b.getLsbD 2 ∧ (b.setWidth 48).getLsbD 3 = false
      ∧ ((b.setWidth 48).extractLsb' 16 28).toNat * 2 ^ 16 = 0 := by rcases hb with rfl | rfl <;> decide
  have n1 : (leafWord b).getLsbD 1 = true := (leaf_bit 1 (by decide)).trans low.1
  have p2 : (leafWord b).getLsbD 2 = b.getLsbD 2 := (leaf_bit 2 (by decide)).trans low.2.1
  have p3 : (leafWord b).getLsbD 3 = false := (leaf_bit 3 (by decide)).trans low.2.2.1
  have lf : ((leafWord b).extractLsb' 16 28).toNat * 2 ^ 16 = 0 := by rw [leaf_low _ _ (by decide)]; exact low.2.2.2
  have go (cached : Nat → Option Nat) (hc : ∀ l, cached l = none) (seen : List WalkEntry) : (mapped b s).walkFrom a.ctx space off cached 4 0 0x8000 seen
      = .ok (page b a.ctx space, ⟨a.ctx, space, 1, 0, 0x1_0000⟩ :: seen) := by
    rw [walk_down (hc 0) i0 (by decide) (by decide) (by decide +kernel), t1, walk_leaf (hc _) i1 n1 (by decide) (leaf_ok hb), d0, d1, leaf_node, p2, p3, lf]
    rfl
  have hs : (mapped b s).physRead (a.ptbase.toNat * 2 ^ 15 + space.toNat * 8) = .ok 0x8001 := by
    have hz : (0 : BitVec 29).toNat * 2 ^ 15 = 0 := by decide
    rw [ha, hz, Nat.zero_add]
    exact space_word h hb hsp
  unfold State.walk
  simp only [List.find?_nil, Option.map_none, hs, ok0, if_true, t0]
  exact go _ (fun _ => rfl) _

/-- A core that holds no translation: the page is found by a walk, and held. -/
theorem translate_of {s : State} (h : Plain s) (hb : Leaf b) (ht : s.core.tlb = []) (hw : s.walkers = []) (a : Acc) (ha : a.ptbase = 0) {space : BitVec 16}
    (hsp : space = 0 ∨ space = 1) {off : Nat} (ho : off < 4096) :
    ∃ s1, (mapped b s).translate a space off = .ok (page b a.ctx space, s1) ∧ s1.h = s.h ∧ s1.keyring = s.keyring ∧ s1.core.l1 = s.core.l1 ∧ s1.core.keys = s.core.keys
      ∧ s1.core.icache = s.core.icache ∧ s1.mem = leafBytes b ∧ Plain s1 ∧ s1.pend = s.pend ∧ s1.poison = s.poison := by
  have hl : (mapped b s).walkerOf ((mapped b s).coreNo / 8) = [] := by simp [State.walkerOf, mapped, hw, assocGet]
  have hn : (mapped b s).core.tlb.find? (fun e => e.ctx == a.ctx && e.space == space && off / e.size == e.page) = none := by
    have : (mapped b s).core.tlb = [] := ht
    rw [this]; rfl
  refine ⟨{ mapped b s with
      core := { (mapped b s).core with tlb := (page b a.ctx space :: (mapped b s).core.tlb).take 2048 }
      walkers := assocSet (mapped b s).walkers ((mapped b s).coreNo / 8) ([⟨a.ctx, space, 1, 0, 0x1_0000⟩, ⟨a.ctx, space, 0, 0, 0x8000⟩] ++ [])
      early := (mapped b s).early.filter fun x => !(x.hart / 8 == (mapped b s).coreNo && (page b a.ctx space).holds x.key) }, ?_,
    rfl, rfl, rfl, rfl, rfl, rfl, h, rfl, rfl⟩
  unfold State.translate
  simp only [hn, hl, walk_of h hb a ha hsp off ho, ite_self]
  rfl

theorem root_of {s : State} (hc : s.contexts = []) : ((mapped b s).ctxRegs 0).ptbase = 0 := by simp [State.ctxRegs, mapped, hc, assocGet]
theorem frame_of {off : Nat} (ho : off < 4096) : physKey (0 + off % 2 ^ 40) = some off := by
  have : off % 2 ^ 40 = off := Nat.mod_eq_of_lt (Nat.lt_trans ho (by decide))
  have h2 : off / 4096 = 0 := Nat.div_eq_of_lt ho
  rw [Nat.zero_add, this, physKey, if_pos (by omega), h2, Nat.mod_eq_of_lt ho]
  simp
theorem device_place {s : State} (h : Plain s) (hc : s.contexts = []) {off : Nat} (ho : off < 4096) {agent : BitVec 32} {host bypass : Bool} {kind : Kind}
    (hr : bypass = true ∨ kind.need ≤ (mapped 3 s).rightOf ⟨0, agent, bypass, false, 0⟩ 1 off host) : (mapped 3 s).devicePlace 0 1 off agent host bypass kind = .ok ⟨off, false, false, false, none⟩ := by
  have hl : ¬ 0xFF00 ≤ (1 : BitVec 16).toNat := by decide
  have hk : kind.refused false false = false := by cases kind <;> rfl
  have hz : BitVec.getLsbD (3 : Byte) 2 = false := rfl
  have hg : (false || false || bypass || decide (kind.need ≤ (mapped 3 s).rightOf ⟨0, agent, bypass, false, 0⟩ 1 off host)) = true := by
    rcases hr with hr | hr
    · simp [hr]
    · rw [decide_eq_true hr, Bool.or_true]
  simp only [State.devicePlace, root_of hc, walk_of h (.inl rfl) ⟨0, agent, bypass, false, 0⟩ rfl (.inr rfl) off ho, page, frame_of ho, hl, if_false, ne_eq, not_true, hz, hk, hg]
  rfl
theorem outside_die {s : State} (h : Plain s) (hc : s.contexts = []) {off : Nat} (ho : off < 4096) {agent : BitVec 32} {sup : Bool} :
    (mapped 3 s).outsideDie ⟨0, 1, agent, false, sup⟩ off = .ok (some (stackDie (keyStack off)), false) := by
  have hl : ¬ ((1 : BitVec 16) = 0 ∨ 0xFF00 ≤ (1 : BitVec 16).toNat) := by decide
  have hz : BitVec.getLsbD (3 : Byte) 2 = false := rfl
  simp only [State.outsideDie, root_of hc, walk_of h (.inl rfl) ⟨0, agent, false, false, 0⟩ rfl (.inr rfl) off ho, page, frame_of ho, hl, if_false, ne_eq, not_true, hz]
  rfl

/-- A fetch of a page with IM below mode S, by a core that holds nothing: the bytes at home. -/
theorem fetch_of {s : State} (h : Plain s) (ht : s.core.tlb = []) (hw : s.walkers = []) (hi : s.core.icache = []) (hm : s.h.mode ≠ .s) (hp : s.h.ptbase = 0) {w : Word}
    (hs : poisonAt s.h.pc.toNat ≠ 0x200 ∧ s.h.pc.toNat % 8 = 0) (hn : s.h.pc.toNat < 4096) (ho : BitVec.ofNat 64 (ofBytes (lineBytes (lineOf (memGetN (leafBytes 7) (s.h.pc.toNat / 64 * 64) 64)) (s.h.pc.toNat % 64) 8)) = w) :
    ∃ s1, (mapped 7 s).fetchWord (mapped 7 s).h.pc = .ok (w, s1) ∧ s1.h = s.h := by
  obtain ⟨s1, t1, t2, -, -, -, t6, t7, t8, -⟩ := translate_of h (.inr rfl) ht hw s.h.acc hp (.inl rfl) hn
  have hb : s.h.acc.bare = false := by simp [Hart.acc, hm]
  have hz : BitVec.getLsbD (7 : Byte) 2 = true := rfl
  have hl : (mapped 7 s).locateMem s.h.acc 0 s.h.pc.toNat .read = .ok (⟨s.h.pc.toNat, true, false, false, none⟩, s1) := by
    unfold State.locateMem
    rw [hb]
    simp only [t1, page, frame_of hn, hz, Bool.false_eq_true, false_and, if_false, ne_eq, not_true]
    rfl
  have hq : s1.poisonIn s.h.pc.toNat 8 = none := by
    have hu (i : Nat) (hi : i < 8) : s1.poisoned (s.h.pc.toNat + i) = false := by
      refine sound_of t8 ?_
      have := hs.1
      simp only [poisonAt, poisonUnit, lsBase] at this ⊢
      rw [if_pos (by omega)] at this ⊢
      omega
    rw [State.poisonIn, Option.map_eq_none_iff, List.find?_eq_none]
    exact fun i hi => by rw [hu i (List.mem_range.mp hi)]; decide
  have hh (n : Nat) : ∀ k, s1.homeRead k n = memGetN (leafBytes 7) k n := by
    induction n with
    | zero => exact fun _ => rfl
    | succ n ih => exact fun k => by rw [State.homeRead, memGetN, ih, State.homeByte, State.readKeyOf, t7]; simp [t8.1]
  show ∃ s1, (mapped 7 s).fetchWordAs s.h.acc s.h.pc = .ok (w, s1) ∧ s1.h = s.h
  unfold State.fetchWordAs
  rw [hl]
  simp only [State.poisonTrap, hq, t6, hi, List.find?_nil, hh]
  rw [ho]
  exact ⟨_, rfl, t2⟩
end

/-! Concrete states. -/

/-- A booted device whose current hart runs in mode U at 0x1000, holds every lane group of its core and has a quota of 64 links. -/
def base : State :=
  { State.reset with
    boot := .running, turn := .hart 0, nextId := 9
    h := { Hart.reset with st := .running, pc := 0x1000, tvec := 0x8000, vquota := 64 }
    core := { Core.reset with lanes := Vector.replicate 8 (some 0) } }

/-- A state with x registers set. -/
def regs (s : State) (l : List (Nat × Nat)) : State := l.foldl (fun t p => t.setX (BitVec.ofNat 5 p.1) (BitVec.ofNat 64 p.2)) s
/-- The hart in mode S with BARE set. -/
def sup (s : State) : State := { s with h := { s.h with mode := .s, bare := true } }
/-- The hart in mode D. -/
def handler (s : State) : State := { s with h := { s.h with mode := .d } }
/-- The hart with another of its fields. -/
def hart (s : State) (f : Hart → Hart) : State := { s with h := f s.h }

/-- A check answers a value of which P holds; an outcome is a next state. -/
def okAnd {ε α : Type} (e : Except ε α) (P : α → Bool) : Bool := match e with | .ok a => P a | .error _ => false
def isNext (o : Out) : Bool := match o with | .next _ => true | _ => false

theorem ok_of {ε α : Type} {e : Except ε α} {P : α → Bool} (h : okAnd e P = true) : ∃ a, e = .ok a ∧ P a = true := by
  cases e with
  | ok a => exact ⟨a, rfl, h⟩
  | error c => cases h

theorem some_of {α : Type} {o : Option α} {P : α → Bool} (h : o.any P = true) : ∃ a, o = some a ∧ P a = true := by
  cases o with
  | none => cases h
  | some a => exact ⟨a, rfl, h⟩

theorem next_of {o : Out} (h : isNext o = true) : ∃ t, o = .next t := by
  cases o with
  | next t => exact ⟨t, rfl⟩
  | fault _ => cases h
  | refused _ => cases h

theorem holds_of {s : State} {r : VReg} {t : Tag} {n : Nat} (h : decide ((s.h.chain r).tag = t ∧ n ≤ (s.h.chain r).count) = true) :
    s.holdsChain r t n :=
  of_decide_eq_true (p := _ ∧ _) h

theorem calm_of {s : State} (h : s.cv.entries.isEmpty = true) : s.calm := by
  intro e he
  rw [List.isEmpty_iff.mp h] at he
  cases he

theorem mayRun_of {s : State} {n : Nat} {c : List VReg} {m : List MReg}
    (h : (decide (s.h.mode ≠ .d) && s.cv.entries.isEmpty && decide (n ≤ s.vlmax) && !s.busy? c m) = true) : s.MayRun n c m := by
  simp only [Bool.and_eq_true, decide_eq_true_eq, Bool.not_eq_true'] at h
  exact ⟨h.1.1.1, calm_of h.1.1.2, h.1.2, h.2⟩

theorem tidy_of {s : State} (h : (s.mem.wf && s.core.tidy && s.cores.all fun p => p.2.tidy) = true) : s.tidy := by
  simp only [Bool.and_eq_true, List.all_eq_true] at h
  exact ⟨h.1.1, h.1.2, h.2⟩

theorem room_of {s : State} {k : Nat} (h : decide (s.h.vused + k ≤ s.h.vquota.toNat ∧ s.core.links.length + k ≤ 2048) = true) : s.roomFor k :=
  of_decide_eq_true (p := _ ∧ _) h

theorem trapsToS_of {s : State} {c : BitVec 8}
    (h : (decide (s.h.mode ≠ .s) && s.cv.entries.isEmpty && decide (c ≠ 0 ∧ c ≠ 0x0C ∧ c ≠ 0x3F)) = true) : s.trapsToS c := by
  simp only [Bool.and_eq_true, decide_eq_true_eq] at h
  refine ⟨h.1.1, ?_, h.2⟩
  rw [List.isEmpty_iff.mp h.1.2]
  exact fun _ he => nomatch he

/-! Encoding: what the checks refuse. -/

/-- A term for each check of well-formedness (R69 to R71, R73), and a step of a unit, which has no word. -/
theorem test_ill_formed_terms : [Instr.shli 1 2 64, .srai 1 2 64, .shri 1 2 0x8000_0000, .fadd 1 2 3 5 0, .fcvtfi 1 2 0 0 0, .fcvtif 1 2 9 0 0, .fcvtff 1 2 4 0 0,
    .fsgn 1 2 3 3 0, .vsplat 1 2 3 0 false 0, .vcvt 1 2 3 0 false 6 3, .vcvt 1 2 3 0 false 0 0, .vadd 1 2 3 4 0 false 5 false, .vcvtmx 4 2 4 3 0 10,
    .vexpand 1 2 3 4 0 true, .vslideup 1 2 3 4 5 false, .vunzip 7 7 2 3, .vsortk 1 2 3 0, .vsortk 1 2 3 11, .vld 1 2 3 0 0 0 0, .vstxadd 1 2 3 4 0 0 5 3,
    .cnew 1 2 0, .csplit 6 6 1 2, .cretag 1 2 0, .cinfo 1 2 6, .cpriv 1 2, .zmode 2 1, .zop 0 1 2 3 5, .zdrain 0 1 2 3 0 0, .aadd 1 2 3 0 5 0 true 0,
    .aadd 1 2 3 0 0 5 true 0, .afadd 1 2 3 6 0 0 0 true 0, .ald 1 2 0 0 2 true 0, .ast 1 2 0 0 1 true 0, .fenceSv 0 0 0 5 0, .await 1 2 3 4 0 0 3 true 0,
    .ecopy 1 2 3 0 0 0, .ecopy 1 2 3 27 0 0, .ewin 1 2 3 31 0 0, .qsel 1 2 3 29 0 0, .estat 1 2 3, .ecopyc 1 2 3 4 0 0 0, .engineRow 0, .deviceReset].all
    (fun i => !i.wf) = true := by decide +kernel

/-- Words that are no instruction: major 0 and unassigned majors and numbers, a reserved bit, RM 5 and 6, FMT outside major 0x06, an unused
field, tag 0, SCOPE and ORD 5, zd 2, md 8, S where it is not accepted, a step of a unit (R68 to R73). -/
theorem test_illegal_words : [(0x0000_0000_0000_0000 : Word), 0x0800_0000_0000_0000, 0x2D00_0000_0000_0000, 0x0100_0002_0000_0000, 0x0100_0000_0000_0001,
    0x0100_0000_0080_0000, 0x0600_0000_0A00_0000, 0x0600_0000_0C00_0000, 0x0100_0010_0000_0000, 0x1000_0000_0018_0800, 0x1A00_0000_0000_0000,
    0x2000_0000_0000_0000 ||| 2 <<< 53, 0x1140_0000_0000_0000, 0x2900_0002_8000_0000, 0x2900_0000_5000_0000, 0x1020_0000_000C_0800, 0x2B00_0000_0060_0000,
    0x3000_0000_0000_0001, 0x0208_0000_0000_0040 ||| 4 <<< 38].all (fun w => decide (decode w = none)) = true := by decide +kernel

theorem witness_EncodeThenDecodeAgree : [Instr.qsel 1 2 3 28 3 0xFFFFF, .ecopy 31 2 3 26 3 0, .shli 31 31 63, .zchk 1 7 31, .jal 1 (BitVec.ofInt 43 (-1))].all Instr.wf = true := by
  decide +kernel
theorem witness_DecodingIsExact : decode 0x8200_0000_0000_0000 = some (.addi 0 0 0) := by decide +kernel

/-! Steps. -/

/-- A device about to run a word at 0x1000 in mode S, and the same with a convoy of one word in progress. -/
def toRun (w : Nat) : State := State.withFetchWord (sup base) 64 w
def inConvoy (w : Nat) : State :=
  hart (toRun w) fun h => { h with fresh := false, convoy := some { Convoy.empty 0xFF8 with words := [.addi 5 0 1], done := 1 } }

theorem fetches {s : State} {w0 : Word} (h : okAnd (s.fetchWord s.h.pc) (fun a => decide (a.1 = w0)) = true) : ∃ s1, s.fetchWord s.h.pc = .ok (w0, s1) := by
  obtain ⟨⟨w, s1⟩, h1, h2⟩ := ok_of h
  exact ⟨s1, of_decide_eq_true h2 ▸ h1⟩
theorem witness_StepRunsWordAtPc : ∃ s s1 : State, ∃ i w, (s.power ≠ .off ∧ s.turn = .hart s.cur ∧ s.h.st = .running ∧ s.h.wait = .none ∧ s.h.convoy = none
      ∧ s.h.mode ≠ .d ∧ s.h.mcheck = [] ∧ s.h.suspend = false ∧ s.h.interruptible = false ∧ s.h.pc &&& 7#64 = 0 ∧ decode w = some i
      ∧ hinge w = true ∧ s.core.badRows = []) ∧ s.fetchWord s.h.pc = .ok (w, s1) := by
  obtain ⟨s1, h1⟩ := fetches (s := toRun 0x8100_4000_0000_0000) (w0 := 0x8100_4000_0000_0000) (by decide +kernel)
  exact ⟨toRun 0x8100_4000_0000_0000, s1, .add 0 1 0, 0x8100_4000_0000_0000, by decide +kernel, h1⟩
theorem witness_StepRunsNextWordOfConvoy : ∃ s s1 : State, ∃ c i w, (s.power ≠ .off ∧ s.turn = .hart s.cur ∧ s.h.st = .running ∧ s.h.wait = .none ∧ s.h.convoy = some c
      ∧ c.stale = false ∧ c.nextpc = none ∧ s.h.mode ≠ .d ∧ s.h.mcheck = [] ∧ c.nextWord 16 c.words.length = c.words.length
      ∧ s.h.pc = c.hinge + 8 * BitVec.ofNat 64 c.words.length ∧ c.hinge &&& 7#64 = 0 ∧ decode w = some i ∧ hinge w = false ∧ c.words.length < 16
      ∧ (isV i = true → (c.words.filter isV).length < 8) ∧ conflicts i c.words = false ∧ c.entries = [] ∧ c.holdsBack c.words.length i = false) ∧ s.fetchWord s.h.pc = .ok (w, s1) := by
  obtain ⟨s1, h1⟩ := fetches (s := inConvoy 0x0100_4000_0000_0000) (w0 := 0x0100_4000_0000_0000) (by decide +kernel)
  exact ⟨inConvoy 0x0100_4000_0000_0000, s1, { Convoy.empty 0xFF8 with words := [.addi 5 0 1], done := 1 }, .add 0 1 0, 0x0100_4000_0000_0000, by decide +kernel, h1⟩
/-- The convoy falls through to a word with H. -/
theorem witness_StepRunsNextWordOfConvoy_hinge : ∃ s s1 : State, ∃ c i w, (s.power ≠ .off ∧ s.turn = .hart s.cur ∧ s.h.st = .running ∧ s.h.wait = .none ∧ s.h.convoy = some c
      ∧ c.stale = false ∧ c.nextpc = none ∧ s.h.mode ≠ .d ∧ s.h.mcheck = [] ∧ c.nextWord 16 c.words.length = c.words.length
      ∧ s.h.pc = c.hinge + 8 * BitVec.ofNat 64 c.words.length ∧ c.hinge &&& 7#64 = 0 ∧ decode w = some i ∧ hinge w = true ∧ c.entries = []
      ∧ s.h.suspend = false ∧ s.h.interruptible = false) ∧ s.fetchWord s.h.pc = .ok (w, s1) := by
  obtain ⟨s1, h1⟩ := fetches (s := inConvoy 0x8100_4000_0000_0000) (w0 := 0x8100_4000_0000_0000) (by decide +kernel)
  exact ⟨inConvoy 0x8100_4000_0000_0000, s1, { Convoy.empty 0xFF8 with words := [.addi 5 0 1], done := 1 }, .add 0 1 0, 0x8100_4000_0000_0000, by decide +kernel, h1⟩

/-- What the clauses about words that cannot run ask of the state. -/
def poised (s : State) : Prop :=
  s.power ≠ .off ∧ s.turn = .hart s.cur ∧ s.h.st = .running ∧ s.h.wait = .none ∧ s.h.mode = .u ∧ s.h.mcheck = [] ∧ s.h.suspend = false ∧ s.h.interruptible = false
/-- Whether a trap of a hart goes to mode S depends on the hart alone. -/
theorem trapsToS_hart {s t : State} {c : BitVec 8} (e : t.h = s.h) (h : s.trapsToS c) : t.trapsToS c := by
  have he : t.cv = s.cv := by unfold State.cv; rw [e]
  exact ⟨e ▸ h.1, he ▸ h.2.1, h.2.2⟩
theorem trapsToS_opens {s t : State} {c : BitVec 8} {o : Hart → Option Convoy} (e : t.h = s.h) (h : State.trapsToS { s with h := { s.h with convoy := o s.h } } c) :
    State.trapsToS { t with h := { t.h with convoy := o t.h } } c :=
  trapsToS_hart (by rw [e]) h

/-- A core that holds no translation refuses a space whose space-table entry reads 0. -/
theorem untranslated {s : State} (ht : s.core.tlb = []) (hw : s.walkers = []) (a : Acc) (space : BitVec 16) (off : Nat)
    (hr : s.physRead (a.ptbase.toNat * 2 ^ 15 + space.toNat * 8) = .ok 0) : s.translate a space off = .error 0x08 := by
  have h0 : spaceEntryOk 0 = false := rfl
  have hk : s.walk a space off [] = .error 0x08 := by
    unfold State.walk
    rw [hr]
    simp only [List.find?_nil, Option.map_none, h0]
    rfl
  have hl : s.walkerOf (s.coreNo / 8) = [] := by simp [State.walkerOf, hw, assocGet]
  simp only [State.translate, ht, hl, hk, List.find?_nil, ite_self]
  rfl
theorem unmapped_fetch {s : State} (ht : s.core.tlb = []) (hw : s.walkers = []) (hm : s.h.mode ≠ .s)
    (hr : s.physRead (s.h.acc.ptbase.toNat * 2 ^ 15 + (0 : BitVec 16).toNat * 8) = .ok 0) : s.fetchWord s.h.pc = .error ⟨0x08, s.h.pc⟩ := by
  have hb : s.h.acc.bare = false := by simp [Hart.acc, hm]
  have hl : s.locateMem s.h.acc 0 s.h.pc.toNat .read = .error 0x08 := by
    unfold State.locateMem
    rw [untranslated ht hw s.h.acc 0 s.h.pc.toNat hr, hb]
    rfl
  unfold State.fetchWord State.fetchWordAs
  rw [hl]

/-- The hart at a word of the page, between convoys or in one. -/
def atWord (pc : Word) (f : Hart → Hart) : State := mapped 7 (hart base fun h => f { h with pc := pc })
theorem reads (pc : Word) (f : Hart → Hart) {w : Word} (hh : (f { base.h with pc := pc }).mode = .u ∧ (f { base.h with pc := pc }).ptbase = 0 ∧ (f { base.h with pc := pc }).pc = pc ∧ pc.toNat < 4096 ∧ poisonAt pc.toNat ≠ 0x200 ∧ pc.toNat % 8 = 0)
    (ho : BitVec.ofNat 64 (ofBytes (lineBytes (lineOf (memGetN (leafBytes 7) (pc.toNat / 64 * 64) 64)) (pc.toNat % 64) 8)) = w) :
    ∃ s1, (atWord pc f).fetchWord (atWord pc f).h.pc = .ok (w, s1) ∧ s1.h = (f { base.h with pc := pc }) := by
  refine fetch_of (s := hart base fun h => f { h with pc := pc }) ⟨rfl, rfl⟩ rfl rfl rfl ?_ hh.2.1 ?_ ?_ ?_
  · show (f { base.h with pc := pc }).mode ≠ .s
    rw [hh.1]; decide
  · show poisonAt (f { base.h with pc := pc }).pc.toNat ≠ 0x200 ∧ (f { base.h with pc := pc }).pc.toNat % 8 = 0
    rw [hh.2.2.1]; exact hh.2.2.2.2
  · show (f { base.h with pc := pc }).pc.toNat < 4096
    rw [hh.2.2.1]; exact hh.2.2.2.1
  · show BitVec.ofNat 64 (ofBytes (lineBytes (lineOf (memGetN (leafBytes 7) ((f { base.h with pc := pc }).pc.toNat / 64 * 64) 64)) ((f { base.h with pc := pc }).pc.toNat % 64) 8)) = w
    rw [hh.2.2.1]; exact ho
/-- The line at 0x100 holds the words 0, `addi x0, x0, 0` and `addi x7, x7, 1`. -/
theorem line_of {w : Word} (k : Nat) (h : (decide (k < 64) && decide (BitVec.ofNat 64 (ofBytes (lineBytes (lineOf (memGetN (tables 7) 0x100 64)) k 8)) = w)) = true) :
    BitVec.ofNat 64 (ofBytes (lineBytes (lineOf (memGetN (leafBytes 7) 0x100 64)) k 8)) = w := by
  have hk0 : leafKey = 0x40_0000_1000 := by unfold leafKey; rfl
  rw [leafBytes_away (.inr rfl) 64 0x100 (by omega)]
  exact of_decide_eq_true (Bool.and_eq_true_iff.mp h).2

/-- A convoy of 16 words before 0x108, and one of a `vadd` that reads x7 before 0x110. -/
def full : Convoy := { Convoy.empty 0x88 with words := List.replicate 16 (.addi 0 0 0), done := 0xFFFF }
def reader : Convoy := { Convoy.empty 0x108 with words := [.vadd 1 2 3 7 0 false 0 false], done := 1 }
def after (pc : Word) : Convoy := { Convoy.empty (pc - 8) with words := [.addi 5 0 1], done := 1 }

/-- The words of a convoy's opening that cannot run: a misaligned pc, a failed fetch, a target without H, an illegal word. -/
theorem witness_StepRunsTheDecodedWord_opening :
    (let s := hart base fun h => { h with pc := 0x1004 }
     poised s ∧ s.h.convoy = none ∧ s.h.pc &&& 7#64 ≠ 0 ∧ State.trapsToS { s with h := { s.h with convoy := some { Convoy.empty s.h.pc with anew := s.h.fresh } } } 0x0A)
    ∧ (poised base ∧ base.h.convoy = none ∧ base.fetchWord base.h.pc = .error ⟨0x08, base.h.pc⟩
      ∧ State.trapsToS { base with h := { base.h with convoy := some { Convoy.empty base.h.pc with anew := base.h.fresh } } } 0x08)
    ∧ (let s := atWord 0x100 fun h => { h with xfer := some 0x40 }
       poised s ∧ s.h.convoy = none ∧ s.h.fresh = false ∧ s.h.xfer = some 0x40 ∧ hinge 0 = false ∧ ∃ s1, s.fetchWord s.h.pc = .ok (0, s1))
    ∧ (let s := atWord 0x100 fun h => { h with fresh := true }
       poised s ∧ s.h.convoy = none ∧ s.h.fresh = true ∧ decode 0 = none
        ∧ ∃ s1, s.fetchWord s.h.pc = .ok (0, s1) ∧ State.trapsToS { s1 with h := { s1.h with convoy := some { Convoy.empty s.h.pc with anew := s1.h.fresh } } } 0x01) := by
  refine ⟨⟨by unfold poised; decide +kernel, by decide +kernel, by decide +kernel, trapsToS_of (by decide +kernel)⟩,
    ⟨by unfold poised; decide +kernel, by decide +kernel, unmapped_fetch rfl rfl (by decide +kernel) (by decide +kernel), trapsToS_of (by decide +kernel)⟩,
    ⟨by unfold poised; decide +kernel, rfl, rfl, rfl, rfl, ?_⟩, by unfold poised; decide +kernel, rfl, rfl, by decide +kernel, ?_⟩
  · obtain ⟨s1, h, -⟩ := reads 0x100 (fun h => { h with xfer := some 0x40 }) (w := 0) (by decide +kernel) (line_of 0 (by decide +kernel))
    exact ⟨s1, h⟩
  · obtain ⟨s1, h, e⟩ := reads 0x100 (fun h => { h with fresh := true }) (w := 0) (by decide +kernel) (line_of 0 (by decide +kernel))
    exact ⟨s1, h, trapsToS_opens (s := hart base fun h => { h with fresh := true, pc := 0x100 }) (o := fun h => some { Convoy.empty 0x100 with anew := h.fresh }) e
      (trapsToS_of (by decide +kernel))⟩

/-- The words of a convoy in progress that cannot run: a hinge that is not aligned, a failed fetch, an illegal word, the 17th word, a structural conflict. -/
theorem witness_StepRunsTheDecodedWord_inside :
    let plain (s : State) (c : Convoy) : Prop := poised s ∧ s.h.convoy = some c ∧ c.stale = false ∧ c.nextpc = none ∧ c.nextWord 16 c.words.length = c.words.length
      ∧ s.h.pc = c.hinge + 8 * BitVec.ofNat 64 c.words.length ∧ c.entries = []
    (let s := hart base fun h => { h with pc := 0x1004, convoy := some (after 0x1004) }
     plain s (after 0x1004) ∧ (after 0x1004).hinge &&& 7#64 ≠ 0 ∧ (after 0x1004).words.length < 16 ∧ s.trapsToS 0x0A)
    ∧ (after 0x1000).hinge &&& 7#64 = 0 ∧ (after 0x100).hinge &&& 7#64 = 0 ∧ full.hinge &&& 7#64 = 0 ∧ reader.hinge &&& 7#64 = 0
    ∧ (let s := hart base fun h => { h with convoy := some (after 0x1000) }
     plain s (after 0x1000) ∧ (after 0x1000).words.length < 16 ∧ s.fetchWord s.h.pc = .error ⟨0x08, s.h.pc⟩ ∧ s.trapsToS 0x08)
    ∧ (let s := atWord 0x100 fun h => { h with convoy := some (after 0x100) }
       plain s (after 0x100) ∧ hinge 0 = false ∧ decode 0 = none ∧ ∃ s1, s.fetchWord s.h.pc = .ok (0, s1) ∧ s1.trapsToS 0x01)
    ∧ (let s := atWord 0x108 fun h => { h with convoy := some full }
       let w : Word := 0x0200_0000_0000_0000
       plain s full ∧ hinge w = false ∧ decode w = some (.addi 0 0 0) ∧ 16 ≤ full.words.length ∧ ∃ s1, s.fetchWord s.h.pc = .ok (w, s1))
    ∧ (let s := atWord 0x110 fun h => { h with convoy := some reader }
       let w : Word := 0x0239_C000_0000_0001
       plain s reader ∧ hinge w = false ∧ decode w = some (.addi 7 7 1) ∧ conflicts (.addi 7 7 1) reader.words = true ∧ ∃ s1, s.fetchWord s.h.pc = .ok (w, s1)) := by
  unfold poised
  refine ⟨⟨by decide +kernel, by decide +kernel, by decide +kernel, trapsToS_of (by decide +kernel)⟩, by decide +kernel, by decide +kernel, by decide +kernel,
    by decide +kernel, ⟨by decide +kernel, by decide +kernel, unmapped_fetch rfl rfl (by decide +kernel) (by decide +kernel), trapsToS_of (by decide +kernel)⟩,
    ⟨by decide +kernel, by decide +kernel, by decide +kernel, ?_⟩, ⟨by decide +kernel, by decide +kernel, by decide +kernel, by decide +kernel, ?_⟩,
    by decide +kernel, by decide +kernel, by decide +kernel, by decide +kernel, ?_⟩
  · obtain ⟨s1, h, e⟩ := reads 0x100 (fun h => { h with convoy := some (after 0x100) }) (w := 0) (by decide +kernel) (line_of 0 (by decide +kernel))
    exact ⟨s1, h, trapsToS_hart (s := hart base fun h => { h with pc := 0x100, convoy := some (after 0x100) }) e (trapsToS_of (by decide +kernel))⟩
  · obtain ⟨s1, h, -⟩ := reads 0x108 (fun h => { h with convoy := some full }) (w := 0x0200_0000_0000_0000) (by decide +kernel) (line_of 8 (by decide +kernel))
    exact ⟨s1, h⟩
  · obtain ⟨s1, h, -⟩ := reads 0x110 (fun h => { h with convoy := some reader }) (w := 0x0239_C000_0000_0001) (by decide +kernel) (line_of 16 (by decide +kernel))
    exact ⟨s1, h⟩

theorem witness_FetchReadsEightBytes : ∃ s : State, ∃ k, s.h.mode = .s ∧ s.h.bare = true ∧ s.h.pc &&& 7#64 = 0 ∧ physKey s.h.pc.toNat = some k
    ∧ (∀ l ∈ s.core.icache, l.key ≠ k / 64 * 64) ∧ s.poisonIn k 8 = none :=
  ⟨toRun 0x8100_4000_0000_0000, 0x10_0000_0000, by decide +kernel⟩

/-- A step from reset answers a next state. -/
theorem witness_StepKeepsMemoryTidy : State.reset.tidy ∧ ∃ t, step State.reset = .next t :=
  ⟨tidy_of (by decide +kernel), next_of (by decide +kernel)⟩
theorem witness_StepLeavesALegalMover : ∃ t, step State.reset = .next t := next_of (by decide +kernel)
/-- The word that the host places runs as the next step. -/
theorem test_placed_word_runs : ∃ t, step (State.reset.withFetchWord 64 0x8200_0000_0000_0000) = .next t :=
  next_of (by decide +kernel)

/-- Words that the manual writes out beside their assembly: chapters 02, 03, 07 to 15, and the programs of 20 to 23. -/
theorem test_words_of_the_manual : ([(0x0200_0000_0000_0000, .addi 0 0 0), (0x8228_02C0_0000_0003, .ldi 5 3), (0x8229_4000_FFFF_FFFF, .addi 5 5 (BitVec.ofInt 32 (-1))),
    (0x0428_08FF_FFFF_FFFF, .bne 5 0 (BitVec.ofInt 40 (-1))), (0x2B29_0C84_0000_0000, .ecopy 5 4 6 8 1 0), (0x2B19_0050_801C_0002, .ecopyc 3 4 0 5 1 12 2),
    (0x2B29_0000_0040_0000, .ewait 5 4), (0x1A08_0050_0070_0000, .cnew 1 5 14), (0x1A08_0000_0080_0000, .cfree 1), (0x1A30_C000_0580_0002, .cinfo 6 3 2),
    (0x1A00_0000_0780_0000, .cwait), (0x183A_1253_001F_0040, .vlds 7 8 9 5 1 2 15 64), (0x1819_0C52_B067_0000, .vstxadd 3 4 6 5 1 1 3 7),
    (0x1029_8E04_0000_0800, .vadd 5 6 7 8 0 false 0 true), (0x1118_4402_8002_0000, .vcmplt 3 1 2 5 0 false false), (0x1210_4002_8100_C000, .vcvt 2 1 5 0 false 1 12),
    (0x1320_C002_8000_0000, .vexp2 4 3 5 0 false 0), (0x1430_C002_8000_0000, .vredsum 6 3 5 0 0), (0x1420_5222_800A_0801, .vslideup 4 1 9 2 5 true),
    (0x1510_4002_8005_000A, .vsortk 2 1 5 10), (0x1511_C002_9006_0000, .vconflict 2 7 5 1), (0x2000_4450_0003_0064, .zopmx 0 1 2 5 0 3 4),
    (0x2001_8074_0005_C000, .zdrain 0 6 7 8 0 12), (0x2929_0C05_B008_0008, .aadd 5 4 6 1 3 3 true 8), (0x2929_0C35_A0A0_0000, .afadd 5 4 6 3 1 3 2 false 0),
    (0x812A_8001_9000_0000, .clz 5 10), (0x0328_B800_0000_0010, .ld 5 2 3 2 16), (0x0508_0000_0000_0008, .jal 1 8), (0x0501_0800_0000_0000, .jalr 0 1 0),
    (0x0629_8E80_5680_0000, .fma 5 6 7 8 3 1), (0x0728_0240_0000_0000, .csrr 5 0x024), (0x0250_0300_1234_5678, .ldhi 10 0x1234_5678), (0x0162_8C01_0000_0000, .rotl 12 10 6),
    (0x1031_0C02_A000_0800, .vadd 6 4 6 5 2 false 0 true), (0x1830_0655_8057_0000, .vstx 6 0 3 5 2 3 7), (0x1138_4002_800E_0000, .mpopc 7 1 5),
    (0x299B_0001_80C8_0000, .ald 19 12 0 3 0 true 0), (0x2903_2601_80D8_0000, .ast 12 19 0 3 0 true 0), (0x1010_0E04_001E_3800, .vsplat 2 7 8 0 false 3),
    (0x1852_80D0_0033_0000, .vst 10 10 13 0 0 3 0), (0x2CC2_D900_0010_0000, .qtopk 24 11 12 16 0 0), (0x1108_800A_8001_0800, .vcmpne 1 2 0 21 0 false true),
    (0x1520_4608_8004_0000, .vmergek 4 1 3 17), (0x1431_4E08_800F_0000, .vunzip 6 7 5 17), (0x11F0_8008_800F_0000, .mfirst 30 2 17),
    (0x147A_3C0D_000B_0800, .vslidedn 15 8 30 0 26 false), (0x158B_A00A_8000_0000, .vsegsum 17 14 16 21 0 0), (0x10AC_8D39_B807_0800, .vfma 21 18 6 19 19 3 true 0 true),
    (0x2005_D530_0002_0000, .zop 0 23 10 19 0)] : List (Word × Instr)).all (fun p => decide (decode p.1 = some p.2)) = true := by decide +kernel

/-! Scalar words. -/

/-- A hart with numbers in x1 to x9: 1, a large one, the most negative one, an address, a misaligned address, an address in the core-local window. -/
def user : State := regs base [(1, 1), (2, 0xFFFF_FFFF_FFFF_FFF0), (3, 2 ^ 63), (4, 0x4000), (5, 0x4002), (6, 0x100), (7, 8192), (8, 3), (9, 0x1F_FFF8)]
/-- The same in mode S with BARE set, its addresses in the supervisor bank. -/
def superv : State := regs (sup base) [(1, 1), (4, 0x4000), (5, 0x4002), (6, 0x100), (8, 3)]
/-- Space 0xFFFF, the core-local window, in as1. -/
def withLocal (s : State) : State := hart s fun h => { h with as := h.as.set 1 0xFFFF }

theorem witness_BranchesAndJumps :
    (user.x 1 = user.x 1 ∧ user.x 1 ≠ user.x 2 ∧ (user.x 3).toInt < (user.x 2).toInt ∧ (user.x 3).toInt ≤ (user.x 3).toInt ∧ (user.x 1).toNat < (user.x 2).toNat
      ∧ (user.x 2).toNat ≤ (user.x 2).toNat ∧ ¬ (user.x 2).toInt < (user.x 3).toInt ∧ ¬ (user.x 2).toNat < (user.x 1).toNat)
    ∧ ((user.x 4).toNat % 8 = 0) ∧ ((user.x 5).toNat % 8 ≠ 0 ∧ user.trapsToS 0x0A) :=
  ⟨by decide +kernel, by decide +kernel, by decide +kernel, trapsToS_of (by decide +kernel)⟩

/-- The old x1 is the target and x1 the link, in one word (R305). -/
theorem test_jalr_reads_before_it_writes : (match exec (.jalr 4 4 (BitVec.ofInt 43 (-1))) user with
    | .next t => decide (t.h.pc = 0x3FF8 ∧ t.x 4 = 0x1008 ∧ t.h.convoy = none) | _ => false) = true := by decide +kernel
theorem test_sra_keeps_the_sign : (match exec (.sra 9 3 8) user with | .next t => decide (t.x 9 = 0xF000_0000_0000_0000 ∧ t.h.pc = 0x1008) | _ => false) = true := by
  decide +kernel
theorem test_x0_takes_no_value : (match exec (.add 0 1 2) user with | .next t => decide (t.x 0 = 0 ∧ t.h.xu = user.h.xu) | _ => false) = true := by decide +kernel
theorem test_div_by_zero : (match exec (.div 9 2 0) user with | .next t => decide (t.x 9 = 0xFFFF_FFFF_FFFF_FFFF) | _ => false) = true := by decide +kernel

theorem witness_LoadsDeliverTheirBytes :
    (∃ (s s1 s2 : State) (xa : XReg) (asr w : BitVec 2) (imm : BitVec 32) (pl : Place) (bs : List Byte),
      let n := 2 ^ w.toNat
      let a := (s.x xa + BitVec.ofInt 64 imm.toInt).toNat
      s.scalarPlace (s.h.space asr) a n .read true = .ok (pl, s1) ∧ s1.scalarRead (s.h.space asr) a n pl = .ok (bs, s2) ∧ bs.length = n)
    ∧ (∃ (s : State) (xa : XReg) (k : Nat), let a := (s.x xa).toNat
      s.h.mode = .s ∧ s.h.bare = true ∧ s.h.space 0 = 0 ∧ a % 8 = 0 ∧ physKey a = some k ∧ s.poisonIn k 8 = none ∧ s.pend = [] ∧ s.early = []) := by
  refine ⟨?_, ⟨superv, 4, 0x1_0000_0000 * 16 * 4, by decide +kernel⟩⟩
  have h : okAnd ((withLocal user).scalarPlace ((withLocal user).h.space 1) 0x1F_FFF8 8 .read true)
      (fun p => okAnd (p.2.scalarRead ((withLocal user).h.space 1) 0x1F_FFF8 8 p.1) fun q => decide (q.1.length = 8)) = true := by decide +kernel
  obtain ⟨⟨pl, s1⟩, h1, h2⟩ := ok_of h
  obtain ⟨⟨bs, s2⟩, h3, h4⟩ := ok_of h2
  exact ⟨withLocal user, s1, s2, 9, 1, 3, 0, pl, bs, h1, h3, of_decide_eq_true h4⟩

/-- The refusals of scalar accesses, one by one; of the pages, one that has IM and one whose key nobody has. -/
def whole : State := regs user [(10, 0x40)]
theorem witness_LoadsAndStores_refused :
    (let s := hart user fun h => { h with as := h.as.set 1 0xFF00 }
     ScalarRefused s (s.h.space 1) 0x4000 4 .read true 0x08 ∧ s.trapsToS 0x08)
    ∧ (ScalarRefused (withLocal user) 0xFFFF 0x20_0000 4 .read true 0x08 ∧ (withLocal user).h.space 1 = 0xFFFF)
    ∧ (ScalarRefused (withLocal user) 0xFFFF 0x1100_0000 4 .read true 0x09 ∧ (withLocal user).trapsToS 0x09)
    ∧ (ScalarRefused user 0 (user.x 5).toNat 4 .read true 0x0A ∧ user.trapsToS 0x0A)
    ∧ ScalarRefused (withLocal user) 0xFFFF ((withLocal user).x 5).toNat 4 .read true 0x0A
    ∧ ScalarRefused user 0 (user.x 4).toNat 4 .read true 0x08
    ∧ ScalarRefused (mapped 7 whole) 0 (whole.x 10).toNat 4 .write true 0x09 ∧ ScalarRefused (mapped 3 whole) 0 (whole.x 10).toNat 4 .read true 0x09
    ∧ ∀ b, (mapped b whole).x 10 = 0x40 ∧ (mapped b whole).trapsToS 0x09 := by
  have ha : (whole.x 10).toNat = 0x40 := by decide +kernel
  have page (b : Byte) (hb : Leaf b) := translate_of (s := whole) ⟨rfl, rfl⟩ hb rfl rfl whole.h.acc rfl (space := 0) (.inl rfl) (off := 0x40) (by decide)
  refine ⟨⟨.reserved (by decide +kernel) (by decide +kernel), trapsToS_of (by decide +kernel)⟩, ⟨.noWindow rfl (by unfold State.inWindow; decide +kernel), by decide +kernel⟩,
    ⟨.notOfGang rfl (by decide) (by decide) (by decide) (by decide) (by decide +kernel), trapsToS_of (by decide +kernel)⟩,
    ⟨.misaligned (.inl (by decide)) (by decide +kernel), trapsToS_of (by decide +kernel)⟩,
    .misaligned (.inr ⟨rfl, .inl (by decide +kernel)⟩) (by decide +kernel),
    .noTable 0 (by decide) (by decide +kernel) (by decide +kernel) (by decide +kernel) (fun _ he => nomatch he) (by decide +kernel) (by decide +kernel) (by decide +kernel), ?_, ?_,
    fun b => ⟨(by decide +kernel : whole.x 10 = 0x40), trapsToS_hart (s := whole) rfl (trapsToS_of (by decide +kernel))⟩⟩
  · obtain ⟨t, h, -⟩ := page 7 (.inr rfl)
    rw [ha]
    exact .pageBits _ t 0x40 (by decide) (by decide) (by decide +kernel) h rfl (frame_of (by decide)) (.inl ⟨rfl, .inl rfl⟩)
  · obtain ⟨t, h, -⟩ := page 3 (.inl rfl)
    rw [ha]
    exact .noRight _ t 0x40 (by decide) (by decide) (by decide +kernel) h rfl (frame_of (by decide)) rfl rfl (fun _ he => nomatch he) rfl

/-- A load of a poisoned unit, of the local store and of a line that the L1 does not hold; and one of a sound part of such a line. -/
def spoiled (a : Nat) : State := { regs user [(10, a)] with poison := [0x200] }
theorem spoiled_line {a : Nat} (ha : a < 4096 ∧ a / 64 = 8) (hx : ((spoiled a).x 10).toNat = a) (hb : (spoiled a).trapsToS 0x0B) :
    ∃ s1, let s : State := mapped 7 (spoiled a)
      let pl : Place := ⟨a, true, false, false, none⟩
      s.scalarPlace (s.h.space 0) (s.x 10).toNat 1 .read true = .ok (pl, s1) ∧ s1.pend = [] ∧ s.trapsToS 0x0B ∧ s1.uncached pl = false
        ∧ s1.l1Find (s.h.space 0) pl = none ∧ s1.frames = [] ∧ s1.poison = [0x200] := by
  let t : State := spoiled a
  obtain ⟨s1, t1, t2, -, t4, -, -, -, t8, t9, t10⟩ := translate_of (s := t) ⟨rfl, rfl⟩ (b := 7) (.inr rfl) rfl rfl t.h.acc rfl (space := 0) (.inl rfl) (off := a) ha.1
  have hz : BitVec.getLsbD (7 : Byte) 2 = true := rfl
  have hl : (mapped 7 t).locateMem t.h.acc 0 a .read = .ok (⟨a, true, false, false, none⟩, s1) := by
    have hb : t.h.acc.bare = false := rfl
    unfold State.locateMem
    rw [hb]
    simp only [t1, page, frame_of ha.1, hz, Bool.false_eq_true, false_and, if_false, ne_eq, not_true]
    rfl
  refine ⟨s1, ?_, t9, trapsToS_hart (s := t) rfl hb, ?_, ?_, t8.1, t10⟩
  · show (mapped 7 t).scalarPlace 0 ((mapped 7 t).x 10).toNat 1 .read true = _
    rw [show ((mapped 7 t).x 10).toNat = a from hx]
    unfold State.scalarPlace
    rw [show (mapped 7 t).h.acc = t.h.acc from rfl, hl]
    simp only [Nat.mod_one]
    rfl
  · rw [State.uncached, t2]; rfl
  · rw [State.l1Find, t4]; rfl
theorem witness_LoadsDeliverTheirBytes_poison :
    (∃ pl s1, let s : State := { withLocal user with poison := [lsBase + 0x1F_FFF8] }
      s.scalarPlace (s.h.space 1) (s.x 9).toNat 8 .read true = .ok (pl, s1) ∧ pl.node = none ∧ s1.pend = [] ∧ s.trapsToS 0x0B ∧ s1.uncached pl = true
        ∧ (s1.poisonIn pl.key 8).isSome = true)
    ∧ (∃ pl s1, let s : State := mapped 7 (spoiled 0x208)
      s.scalarPlace (s.h.space 0) (s.x 10).toNat 1 .read true = .ok (pl, s1) ∧ pl.node = none ∧ s1.pend = [] ∧ s.trapsToS 0x0B
        ∧ s1.l1Find (s.h.space 0) pl = none ∧ (s1.poisonIn pl.key 1).isSome = true)
    ∧ (∃ pl s1, let s : State := mapped 7 (spoiled 0x228)
      s.scalarPlace (s.h.space 0) (s.x 10).toNat 1 .read true = .ok (pl, s1) ∧ pl.node = none ∧ s1.pend = [] ∧ s.trapsToS 0x0B ∧ s1.uncached pl = false
        ∧ s1.l1Find (s.h.space 0) pl = none ∧ s1.poisonIn pl.key 1 = none ∧ (s1.poisonIn (pl.key / 64 * 64) 64).isSome = true) := by
  refine ⟨?_, ?_, ?_⟩
  · have h : okAnd (State.scalarPlace { withLocal user with poison := [lsBase + 0x1F_FFF8] } 0xFFFF 0x1F_FFF8 8 .read true) (fun p =>
        p.1.node.isNone && p.2.pend.isEmpty && p.2.uncached p.1 && (p.2.poisonIn p.1.key 8).isSome) = true := by decide +kernel
    obtain ⟨⟨pl, s1⟩, h1, h2⟩ := ok_of h
    simp only [Bool.and_eq_true, Option.isNone_iff_eq_none, List.isEmpty_iff] at h2
    exact ⟨pl, s1, h1, h2.1.1.1, h2.1.1.2, trapsToS_of (by decide +kernel), h2.1.2, h2.2⟩
  · obtain ⟨s1, h1, h2, h3, -, h5, hf, hp⟩ := spoiled_line (a := 0x208) (by decide) (by decide +kernel) (trapsToS_of (by decide +kernel))
    refine ⟨_, s1, h1, rfl, h2, h3, h5, ?_⟩
    have hr (k : Nat) : s1.readKeyOf k = k := by simp [State.readKeyOf, hf]
    rw [State.poisonIn, Option.isSome_map, List.find?_isSome]
    exact ⟨0, by decide, by rw [State.poisoned, hr, hp]; decide +kernel⟩
  · obtain ⟨s1, h1, h2, h3, h4, h5, hf, hp⟩ := spoiled_line (a := 0x228) (by decide) (by decide +kernel) (trapsToS_of (by decide +kernel))
    have hr (k : Nat) : s1.readKeyOf k = k := by simp [State.readKeyOf, hf]
    refine ⟨_, s1, h1, rfl, h2, h3, h4, h5, ?_, ?_⟩
    · rw [State.poisonIn, Option.map_eq_none_iff, List.find?_eq_none]
      intro i hi
      have : i = 0 := by simpa using hi
      rw [this, State.poisoned, hr, hp]
      decide +kernel
    · rw [State.poisonIn, Option.isSome_map, List.find?_isSome]
      exact ⟨0, by decide, by rw [State.poisoned, hr, hp]; decide +kernel⟩

/-- The first two clauses: a place that bypasses the L1, and one whose line is not held and holds a poisoned unit. -/
theorem witness_StoresHandOffTheirBytes : ∃ (s s1 : State) (xa : XReg) (pl : Place) (u : State), let a := (s.x xa).toNat
    let space := s.h.space 1
    s.scalarPlace space a 8 .write true = .ok (pl, s1) ∧ s1.scalarWrite space a pl (toBytes 8 (s.x 2).toNat) = .ok u ∧ s1.uncached pl = true ∧ s1.l1Find space pl = none
      ∧ pl.node = none ∧ (s1.poisonIn (pl.key / 64 * 64) 64).isSome = true := by
  let s : State := { withLocal user with poison := [lsBase + 0x1F_FFC0] }
  have h : okAnd (s.scalarPlace (s.h.space 1) 0x1F_FFF8 8 .write true) (fun p => (okAnd (p.2.scalarWrite (s.h.space 1) 0x1F_FFF8 p.1 (toBytes 8 (s.x 2).toNat)) fun _ => true)
      && (p.2.uncached p.1 && (p.2.l1Find (s.h.space 1) p.1).isNone && p.1.node.isNone && (p.2.poisonIn (p.1.key / 64 * 64) 64).isSome)) = true := by decide +kernel
  obtain ⟨⟨pl, s1⟩, h1, h2⟩ := ok_of h
  simp only [Bool.and_eq_true, Option.isNone_iff_eq_none] at h2
  obtain ⟨u, h3, -⟩ := ok_of h2.1
  exact ⟨s, s1, 9, pl, u, h1, h3, h2.2.1.1.1, h2.2.1.1.2, h2.2.1.2, h2.2.2⟩

/-- A store of the last 8 bytes of the local store is handed off, lowest byte first; memory does not change yet (R61, R303). -/
theorem test_store_is_handed_off : (match exec (.st 2 9 1 3 0) (withLocal user) with
    | .next t => decide (t.mem = []) && t.pend.map (fun p => (p.key, p.data)) == [(lsBase + 0x1F_FFF8, [0xF0, 0xFF, 0xFF, 0xFF, 0xFF, 0xFF, 0xFF, 0xFF])] | _ => false) = true := by
  decide +kernel
/-- Beyond the local store the access faults with cause 0x08 (R82). -/
theorem test_load_beyond_the_store_traps : (match exec (.ld 3 9 1 3 8) (withLocal user) with
    | .next t => decide (t.h.mode = .s ∧ t.h.cause = 0x08 ∧ t.h.tval = 0x20_0000 ∧ t.h.tpc = 0x1000) | _ => false) = true := by decide +kernel

/-- Two finite f32 values that are not zero, 1.0 and 3.0. -/
theorem witness_FloatingPointTable : fmtOf 14 = some fmtF32 ∧ (0 : BitVec 3).toNat ≤ 5 ∧ (fmtF32.decode 0x3F80_0000).finite ∧ (fmtF32.decode 0x4040_0000).finite
    ∧ (fmtF32.decode 0x4040_0000).val ≠ 0 ∧ (fmtF32.decode 0x3F80_0000).val + (fmtF32.decode 0x4040_0000).val ≠ 0 ∧ 0 < 1 := by
  have h1 : fmtF32.decode 0x3F80_0000 = .fin false (2 ^ 23) (-23) := by decide +kernel
  have h2 : fmtF32.decode 0x4040_0000 = .fin false (3 * 2 ^ 22) (-22) := by decide +kernel
  rw [h1, h2]
  exact ⟨rfl, by decide, trivial, trivial, by norm_num [Machine.Num.val], by norm_num [Machine.Num.val], by decide⟩

/-- 1.0 + 2^-53 in f64 is exact only beyond the format: NX is set (R214). -/
theorem test_fadd_is_inexact : (match exec (.fadd 9 1 2 0 0) (regs base [(1, 0x3FF0_0000_0000_0000), (2, 0x3CA0_0000_0000_0000)]) with
    | .next t => decide (t.x 9 = 0x3FF0_0000_0000_0000 ∧ t.h.sflags ≠ 0) | _ => false) = true := by decide +kernel
theorem test_fcvtfi_rounds_to_even : (match exec (.fcvtfi 9 1 3 0 0) (regs base [(1, 0x4004_0000_0000_0000)]) with
    | .next t => decide (t.x 9 = 2) | _ => false) = true := by decide +kernel

theorem witness_StateRegisterAccesses : user.csrAllowed 0x031 = true ∧ user.csrAllowed 0x0FF = false ∧ superv.csrAllowed 0x106 = true
    ∧ State.csrRefuses 0x031 0xFFFF = false ∧ State.csrRefuses 0x031 0x1_0000 = true := by decide +kernel
theorem witness_StateRegisterRefusalsAndFields : user.trapsToS 0x01 ∧ csrBits 0x0FF = none ∧ (0x100 : BitVec 10).toNat = 0x100
    ∧ (∃ m, csrBits 0x031 = some m ∧ user.x 2 &&& ~~~m ≠ 0) :=
  ⟨trapsToS_of (by decide +kernel), by decide +kernel, by decide +kernel, bits 0 16, by decide +kernel, by decide +kernel⟩
theorem test_csrs_delivers_the_old_value : (match exec (.csrs 9 8 0x025) (hart user fun h => { h with sflags := 4 }) with
    | .next t => decide (t.x 9 = 4 ∧ t.h.sflags = 7) | _ => false) = true := by decide +kernel

/-! Chains, masks and vector words. -/

theorem lowCounts_of {s : State} (h : (s.core.links.all fun p => decide (p.2.rc ≤ 240)) = true) : s.lowCounts := by
  intro l
  unfold State.rc State.link
  cases e : s.core.links.find? fun p => p.1 == l with
  | none => exact Nat.zero_le _
  | some p => exact of_decide_eq_true (List.all_eq_true.mp h p (List.mem_of_find?_eq_some e))

theorem wellHeld_of {s : State} {d : Desc} (h : (decide (d.spans.length ≤ 4) && d.spans.all (fun p => (s.link p.spine).isSome)
    && (List.range (chainBytes d.tag d.count)).all fun b => match s.byteLoc d.spans b with | some l => (s.link l.1).isSome | none => false) = true) : s.wellHeld d := by
  simp only [Bool.and_eq_true, decide_eq_true_eq, List.all_eq_true, List.mem_range] at h
  refine ⟨h.1.1, h.1.2, fun b hb => ?_⟩
  have := h.2 b hb
  cases e : s.byteLoc d.spans b with
  | none => simp [e] at this
  | some l => exact ⟨l, rfl, by simpa [e] using this⟩

theorem apart_of {s : State} {d : Desc}
    (h : (d.spans.all (fun p => decide (p.off + p.len ≤ 131072)) && let n := chainBytes d.tag d.count
          (List.range n).all (fun b => match s.byteLoc d.spans b with | some l => (s.link l.1).isSome && d.spans.all (fun p => l.1 != p.spine) | none => false)
            && (List.range n).all fun a => (List.range n).all fun b => decide (s.byteLoc d.spans a = s.byteLoc d.spans b → a = b)) = true) : s.apart d := by
  simp only [Bool.and_eq_true, decide_eq_true_eq, List.all_eq_true, List.mem_range] at h
  refine ⟨h.1, fun b hb => ?_, fun a b ha hb => h.2.2 a ha b hb⟩
  have := h.2.1 b hb
  cases e : s.byteLoc d.spans b with
  | none => simp [e] at this
  | some l =>
    simp only [e, Bool.and_eq_true, List.all_eq_true, bne_iff_ne] at this
    exact ⟨l, rfl, this⟩

theorem ready_of {r : ElementRow} {s : State} (tag : decide (r.tag s ≠ 0 ∧ r.rtag (r.tag s) ≠ 0 ∧ r.accept (r.tag s) = true ∧ r.rounds (r.tag s) = true) = true)
    (srcs : (r.srcs.all fun v => decide ((s.h.chain v).tag = r.tag s ∧ r.vl s ≤ (s.h.chain v).count)) = true) (run : s.MayRun (r.vl s) (r.vd :: r.srcs) [])
    (lanes : s.core.upsets.headD 0 = 0) : r.Ready s :=
  let t := of_decide_eq_true (p := _ ∧ _) tag
  { live := t.1, result := t.2.1, accepted := t.2.2.1, rounds := t.2.2.2
    tags := fun v hv => of_decide_eq_true (p := _ ∧ _) (List.all_eq_true.mp srcs v hv)
    mode := run.mode, calm := run.calm, length := run.length, unclaimed := run.unclaimed, lanes := lanes }

/-- A chain in each listed register: tag, count and bytes; register number i of the list has spine 2i and data link 2i + 1. -/
def withChains (s : State) (l : List (Nat × Tag × Nat × List Byte)) : State :=
  { s with
    h := { s.h with
      vused := 2 * l.length
      v := Vector.ofFn fun r : Fin 32 => match l.findIdx? fun c => c.1 == r.val with
        | some i => match l[i]? with | some c => ⟨c.2.1, c.2.2.1, [⟨2 * i, 0, c.2.2.2.length⟩]⟩ | none => Desc.released
        | none => Desc.released }
    core := { s.core with
      links := l.zipIdx.flatMap fun p => [(2 * p.2, ⟨.spine, 0, 0xFE, 1, 1⟩), (2 * p.2 + 1, ⟨.data, 0, 0xFE, 1, 0⟩)]
      pool := l.zipIdx.flatMap fun p => [(1024 * p.2, BitVec.ofNat 8 (2 * p.2 + 1)), (1024 * p.2 + 1, 0x80)]
        ++ (p.1.2.2.2.zipIdx.filter fun q => q.1 != 0).map fun q => (1024 * p.2 + 512 + q.2, q.1) } }

/-- v1 and v2: three i32 elements; v3: i8, 12 elements; v4: n32 offsets 0, 1, 3; v5: f32; v6: e4m3; v7: n8 scale codes; v8: n64 keys;
m1: bits 0 and 2. x5 holds 3, x6 2, x7 8192, x8 1. -/
def vec : State := hart (withChains (regs (withLocal base) [(5, 3), (6, 2), (7, 8192), (8, 1), (9, 4)])
  [(1, 3, 3, [5, 0, 0, 0, 255, 255, 255, 255, 7, 0, 0, 0]), (2, 3, 3, [1, 0, 0, 0, 0, 0, 0, 128, 3, 0, 0, 0]), (3, 1, 12, [1, 2, 3, 4, 5, 6, 7, 8, 9, 10, 11, 12]),
   (4, 7, 3, [0, 0, 0, 0, 1, 0, 0, 0, 3, 0, 0, 0]), (5, 14, 3, [0, 0, 128, 63, 0, 0, 0, 64, 0, 0, 128, 191]), (6, 10, 3, [0x38, 0x40, 0x30]), (7, 5, 1, [127]),
   (8, 8, 3, [9, 0, 0, 0, 0, 0, 0, 0, 7, 0, 0, 0, 0, 0, 0, 0, 1, 0, 0, 0, 0, 0, 0, 0])])
  fun h => { h with m := h.m.set 1 5 }

/-- Two chains of two i8 elements and one mask; x5 holds 2, x8 1. -/
def mini : State := hart (withChains (regs (withLocal base) [(5, 2), (8, 1)]) [(1, 1, 2, [5, 255]), (2, 1, 2, [251, 128])]) fun h => { h with m := h.m.set 1 1 }
def elems (t : State) (r : VReg) : List Nat := (List.range (t.h.chain r).count).map (t.elem (t.h.chain r))

theorem slot_mem {s : State} {sp i l : Nat} (hi : i < 256) (h : s.slotGet sp i = some l) : (i, l) ∈ s.slotList sp := by
  simp only [State.slotList, List.mem_filterMap, List.mem_range]
  exact ⟨i, hi, by rw [h]; rfl⟩

theorem counted_of {s : State} {vd : VReg} (h : (let all (P : VReg → Bool) : Bool := (List.range 32).all fun r => P (BitVec.ofNat 5 r)
      let spans (r : VReg) : List Span := (s.h.chain r).spans
      let own := spans vd
      all (fun r => decide ((spans r).length ≤ 4) && (spans r).all (fun p => (s.link p.spine).isSome && decide (p.off + p.len ≤ 131072))
        && (List.range (chainBytes (s.h.chain r).tag (s.h.chain r).count)).all fun b => match s.byteLoc (spans r) b with | some l => (s.link l.1).isSome | none => false)
      && own.all (fun p => p.len * 8 % tagWidth (s.h.chain vd).tag == 0)
      && all (fun r => r == vd || (spans r).all fun p => decide ((own.filter fun o => o.spine == p.spine).length < s.rc p.spine)
          && (s.slotList p.spine).all fun e => decide (((p.spine :: own.map Span.spine).dedup.flatMap fun sp => (s.slotList sp).filter fun o => o.2 == e.2).length ≤ s.rc e.2))
      && (let sps := (List.range 32).flatMap fun r => (spans (BitVec.ofNat 5 r)).map Span.spine
          sps.all fun sp => (s.slotList sp).all fun e => !sps.contains e.2)) = true) : s.Counted vd := by
  have reg (r : VReg) : r = BitVec.ofNat 5 r.toNat := by simp
  simp only [Bool.and_eq_true, List.all_eq_true, List.mem_range, decide_eq_true_eq, Bool.or_eq_true, beq_iff_eq, Bool.not_eq_true'] at h
  obtain ⟨⟨⟨h1, h2⟩, h3⟩, h4⟩ := h
  have g1 (r : VReg) := h1 r.toNat r.isLt
  have g3 (r : VReg) := h3 r.toNat r.isLt
  simp only [← reg] at g1 g3
  refine ⟨fun r => ⟨(g1 r).1.1, fun p hp => ((g1 r).1.2 p hp).1, fun b hb => ?_⟩, fun r p hp => ((g1 r).1.2 p hp).2, h2,
    fun r hr p hp => ((g3 r).resolve_left hr p hp).1, fun r hr p hp i l hi hl => ((g3 r).resolve_left hr p hp).2 (i, l) (slot_mem hi hl), fun r r' p hp p' hp' i hi hl => ?_⟩
  · have := (g1 r).2 b hb
    cases e : s.byteLoc (s.h.chain r).spans b with
    | none => simp [e] at this
    | some l => exact ⟨l, rfl, by simpa [e] using this⟩
  · have mem {q : VReg} {o : Span} (ho : o ∈ (s.h.chain q).spans) :
        o.spine ∈ (List.range 32).flatMap fun r => (s.h.chain (BitVec.ofNat 5 r)).spans.map Span.spine := by
      rw [List.mem_flatMap]
      exact ⟨q.toNat, List.mem_range.mpr q.isLt, by rw [← reg]; exact List.mem_map_of_mem ho⟩
    have := h4 _ (mem hp) (i, p'.spine) (slot_mem hi hl)
    rw [List.contains_iff_mem.mpr (mem hp')] at this
    cases this

/-- The chain of v1 named by v9 too (R176). -/
def sharing : State :=
  { hart mini (fun h => h.setChain 9 (mini.h.chain 1)) with
    core := { mini.core with links := mini.core.links.map fun p => if p.1 = 0 then (0, { p.2 with rc := 2 }) else p } }

theorem witness_ElementRowsMakeFreshChains : ∃ i r s, elementRow i = some r ∧ r.Ready s ∧ ¬ r.inPlace s ∧ s.tidy ∧ s.roomFor (linksFor (r.rtag (r.tag s)) (r.vl s)) :=
  ⟨.vadd 9 1 2 5 1 false 0 false, _, vec, rfl, ready_of (by decide +kernel) (by decide +kernel) (mayRun_of (by decide +kernel)) (by decide +kernel), fun h => absurd h.1 (by decide +kernel), tidy_of (by decide +kernel), room_of (by decide +kernel)⟩
theorem witness_ElementRowsRewriteInPlace : ∃ i r s, elementRow i = some r ∧ r.Ready s ∧ r.inPlace s ∧ s.tidy ∧ s.exclusive (s.h.chain r.vd) = true ∧ s.apart (s.h.chain r.vd) :=
  ⟨.vadd 1 1 2 5 1 false 0 false, _, vec, rfl, ready_of (by decide +kernel) (by decide +kernel) (mayRun_of (by decide +kernel)) (by decide +kernel), ⟨by decide +kernel, by decide +kernel⟩, tidy_of (by decide +kernel), by decide +kernel,
    apart_of (by decide +kernel)⟩
theorem witness_ElementRowsRewriteInPlace_shared : ∃ i r s, elementRow i = some r ∧ r.Ready s ∧ r.inPlace s ∧ s.tidy ∧ s.exclusive (s.h.chain r.vd) = false ∧ s.apart (s.h.chain r.vd)
    ∧ s.Counted r.vd ∧ s.roomFor (s.h.chain r.vd).copies ∧ s.lowCounts ∧ ∃ j, j < r.vl s ∧ s.maskOn r.msk j = true :=
  ⟨.vadd 1 1 2 5 1 false 0 false, _, sharing, rfl, ready_of (by decide +kernel) (by decide +kernel) (mayRun_of (by decide +kernel)) (by decide +kernel), ⟨by decide +kernel, by decide +kernel⟩, tidy_of (by decide +kernel), by decide +kernel,
    apart_of (by decide +kernel), counted_of (by decide +kernel), room_of (by decide +kernel), lowCounts_of (by decide +kernel), 0, by decide +kernel, by decide +kernel⟩
/-- Integers, a format, and in f32 a NaN, an infinity, zero, -1.0, 4.0 as an integer and as a power of two, and RTZ. -/
theorem witness_ElementValues : isIntTag 3 = true ∧ 0xFFFF_FFFF < 2 ^ tagWidth 3 ∧ isIntTag 8 = true ∧ 2 ^ 64 - 1 < 2 ^ tagWidth 8
    ∧ isWide 14 = true ∧ fmtOf 14 = some fmtF32 ∧ (0 : BitVec 3).toNat ≤ 5 ∧ fmtF32.decode 0x7F80_0001 = .nan true ∧ fmtF32.decode 0xFF80_0000 = .inf true
    ∧ (∃ e, fmtF32.decode 0x8000_0000 = .fin true 0 e) ∧ ((fmtF32.decode 0xBF80_0000).finite ∧ (fmtF32.decode 0xBF80_0000).val < 0)
    ∧ ((fmtF32.decode 0x4080_0000).finite ∧ (fmtF32.decode 0x4080_0000).val = (4 : Int) ∧ (fmtF32.decode 0x4080_0000).val = (2 : ℚ) ^ (2 : Int)
      ∧ fmtF32.emin - fmtF32.frac ≤ 4 ∧ (2 : ℚ) ^ (4 : Int) ≤ (fmtF32.decode fmtF32.big).val) := by
  have h1 : fmtF32.decode 0xBF80_0000 = .fin true (2 ^ 23) (-23) := by decide +kernel
  have h2 : fmtF32.decode 0x4080_0000 = .fin false (2 ^ 23) (-21) := by decide +kernel
  have h3 : fmtF32.decode fmtF32.big = .fin false (2 ^ 24 - 1) 104 := by decide +kernel
  rw [h1, h2, h3]
  exact ⟨by decide +kernel, by decide +kernel, by decide +kernel, by decide +kernel, by decide +kernel, rfl, by decide, by decide +kernel, by decide +kernel,
    ⟨-149, by decide +kernel⟩, ⟨trivial, by norm_num [Machine.Num.val]⟩, trivial, by norm_num [Machine.Num.val], by norm_num [Machine.Num.val], by decide +kernel,
    by norm_num [Machine.Num.val]⟩
/-- 1/3 in f32, `vtanh` of 1 in bf16, and log2 of 3 in f16. -/
theorem witness_SpecialFunctionsMeetTheirBounds : ∀ p ∈ [(Special8.rcp, (14 : Tag), fmtF32, 0x4040_0000), (.tanh, 12, fmtBf16, 0x3F80), (.log2, 13, fmtF16, 0x4200)],
    isWide p.2.1 = true ∧ fmtOf p.2.1 = some p.2.2.1 ∧ p.2.2.2 < 2 ^ p.2.2.1.w ∧ (p.2.2.1.decode p.2.2.2).finite ∧ 0 < (p.2.2.1.decode p.2.2.2).val
      ∧ (p.2.2.1.special8 p.1 p.2.1 0 p.2.2.2).2 &&& fOF = 0 := by
  have h1 : fmtF32.decode 0x4040_0000 = .fin false (3 * 2 ^ 22) (-22) := by decide +kernel
  have h2 : fmtBf16.decode 0x3F80 = .fin false (2 ^ 7) (-7) := by decide +kernel
  have h3 : fmtF16.decode 0x4200 = .fin false (3 * 2 ^ 9) (-9) := by decide +kernel
  simp only [List.forall_mem_cons, List.not_mem_nil, false_implies, implies_true, and_true, h1, h2, h3]
  refine ⟨⟨by decide +kernel, rfl, by decide +kernel, trivial, by norm_num [Machine.Num.val], by decide +kernel⟩,
    ⟨by decide +kernel, rfl, by decide +kernel, trivial, by norm_num [Machine.Num.val], by decide +kernel⟩,
    by decide +kernel, rfl, by decide +kernel, trivial, by norm_num [Machine.Num.val], by decide +kernel⟩

theorem witness_GeneratedAndTwoChainResults :
    (vec.MayRun (vec.x 5).toNat [9] [] ∧ vec.tidy ∧ vec.roomFor (linksFor 3 (vec.x 5).toNat) ∧ isIntTag 3 = true)
    ∧ (isWide 14 = true ∧ fmtOf 14 = some fmtF32 ∧ isNarrow 10 = true ∧ (9 : VReg) ≠ 10 ∧ vec.holdsChain 5 14 (vec.x 5).toNat ∧ vec.MayRun (vec.x 5).toNat [9, 10, 5] []
      ∧ vec.soundLanes ∧ vec.roomFor (linksFor 10 (vec.x 5).toNat + linksFor 5 (((vec.x 5).toNat + 31) / 32)))
    ∧ (vec.holdsChain 3 1 (2 * (vec.x 5).toNat) ∧ vec.MayRun (vec.x 5).toNat [9, 10, 3] [] ∧ vec.roomFor (linksFor 1 (vec.x 5).toNat + linksFor 1 (vec.x 5).toNat)) :=
  ⟨⟨mayRun_of (by decide +kernel), tidy_of (by decide +kernel), room_of (by decide +kernel), by decide +kernel⟩,
    ⟨by decide +kernel, rfl, by decide +kernel, by decide +kernel, holds_of (by decide +kernel), mayRun_of (by decide +kernel), by unfold State.soundLanes; decide +kernel,
      room_of (by decide +kernel)⟩,
    holds_of (by decide +kernel), mayRun_of (by decide +kernel), room_of (by decide +kernel)⟩

/-- A block of two finite values of which the second is the largest. -/
theorem witness_TwoChainResults : ∃ (xs : List Machine.Num) (x : Machine.Num), isNarrow 10 = true ∧ (∀ y ∈ xs, y.finite ∧ |y.val| ≤ |x.val|) ∧ x ∈ xs ∧ x.val ≠ 0 := by
  refine ⟨[.fin true 1 0, .fin false 3 1], .fin false 3 1, by decide +kernel, ?_, by simp, by norm_num [Machine.Num.val]⟩
  simp only [List.forall_mem_cons, List.not_mem_nil, false_implies, implies_true, and_true]
  exact ⟨⟨trivial, by norm_num [Machine.Num.val]⟩, trivial, by norm_num [Machine.Num.val]⟩

theorem witness_DotProductsAndMxBlocks :
    (dotShape 1 = some (3, 4) ∧ vec.holdsChain 3 1 (4 * (vec.x 5).toNat) ∧ vec.holdsChain 1 3 (vec.x 5).toNat ∧ vec.MayRun (vec.x 5).toNat [9, 3, 3, 1] [] ∧ vec.soundLanes
      ∧ vec.tidy ∧ vec.roomFor (linksFor 3 (vec.x 5).toNat))
    ∧ (isNarrow 10 = true ∧ isWide 12 = true ∧ vec.holdsChain 6 10 (vec.x 5).toNat ∧ vec.holdsChain 7 5 (((vec.x 5).toNat + 31) / 32)
      ∧ vec.MayRun (vec.x 5).toNat [9, 6, 7] [] ∧ vec.roomFor (linksFor 12 (vec.x 5).toNat)) :=
  ⟨⟨by decide +kernel, holds_of (by decide +kernel), holds_of (by decide +kernel), mayRun_of (by decide +kernel), by unfold State.soundLanes; decide +kernel,
      tidy_of (by decide +kernel), room_of (by decide +kernel)⟩,
    by decide +kernel, by decide +kernel, holds_of (by decide +kernel), holds_of (by decide +kernel), mayRun_of (by decide +kernel), room_of (by decide +kernel)⟩

/-- Elements of a dot product: finite, a NaN, integers; an MX element and a code. -/
theorem witness_DotProductsAndMxBlocks_values :
    (dotShape 10 = some (14, 4) ∧ fmtOf 10 = some fmtE4m3 ∧ fmtOf 14 = some fmtF32 ∧ rmRNE.toNat ≤ 4 ∧ (fmtE4m3.decode 0x7F).isNan = true)
    ∧ ((fmtE4m3.decode 0x38).finite ∧ (fmtE4m3.decode 0x40).finite ∧ (fmtF32.decode 0x3F80_0000).finite) ∧ (dotShape 1 = some (3, 4) ∧ isIntTag 1 = true)
    ∧ (isNarrow 10 = true ∧ isWide 14 = true ∧ (127 : Nat) < 255) := ⟨by decide +kernel, ⟨trivial, trivial, trivial⟩, by decide +kernel, by decide +kernel⟩

theorem witness_MasksFromChainsAndMasks :
    (vec.holdsChain 1 3 (vec.x 5).toNat ∧ vec.MayRun (vec.x 5).toNat [1, 2] [2] ∧ vec.MayRun (vec.x 5).toNat [1] [2] ∧ vec.soundLanes ∧ vec.holdsChain 2 3 (vec.x 5).toNat ∧ isIntTag 3 = true)
    ∧ (vec.holdsChain 5 14 (vec.x 5).toNat ∧ isWide 14 = true)
    ∧ (vec.h.mode ≠ .d ∧ vec.calm ∧ vec.unclaimed [] [2] ∧ (vec.x 7).toNat = 8192) :=
  ⟨⟨holds_of (by decide +kernel), mayRun_of (by decide +kernel), mayRun_of (by decide +kernel), by unfold State.soundLanes; decide +kernel, holds_of (by decide +kernel), by decide +kernel⟩,
    ⟨holds_of (by decide +kernel), by decide +kernel⟩, by decide +kernel, calm_of (by decide +kernel), by unfold State.unclaimed; decide +kernel, by decide +kernel⟩

theorem witness_ValuesFromChainsAndMasks : vec.h.mode ≠ .d ∧ vec.calm ∧ (vec.x 5).toNat ≤ vec.vlmax ∧ (vec.x 5).toNat ≤ (vec.h.chain 1).count ∧ (vec.h.chain 1).tag ≠ 0
    ∧ vec.unclaimed [1] [] ∧ isIntTag (vec.h.chain 1).tag = true ∧ intOrWide (vec.h.chain 5).tag = true ∧ vec.MayRun (vec.x 5).toNat [1] [] ∧ (4 : BitVec 19) ≠ 5 :=
  ⟨by decide +kernel, calm_of (by decide +kernel), by decide +kernel, by decide +kernel, by decide +kernel, by unfold State.unclaimed; decide +kernel, by decide +kernel,
    by decide +kernel, mayRun_of (by decide +kernel), by decide⟩

/-- A chain that nothing else names, and one that another register names too. -/
theorem witness_ValuesFromChainsAndMasks_alone :
    (∀ p ∈ (mini.h.chain 1).spans, mini.rc p.spine = 1 ∧ ∀ i ∈ p.slots, ∃ l, mini.slotGet p.spine i = some l ∧ mini.rc l = 1)
    ∧ ¬ ∀ p ∈ (sharing.h.chain 1).spans, sharing.rc p.spine = 1 ∧ ∀ i ∈ p.slots, ∃ l, sharing.slotGet p.spine i = some l ∧ sharing.rc l = 1 := by
  have hp : (mini.h.chain 1).spans = [⟨0, 0, 2⟩] := by decide +kernel
  have hi : (⟨0, 0, 2⟩ : Span).slots = [0] := by decide +kernel
  constructor
  · rw [hp]
    simp only [List.mem_singleton, forall_eq, hi]
    exact ⟨by decide +kernel, 1, by decide +kernel, by decide +kernel⟩
  · exact fun h => absurd (h ⟨0, 0, 2⟩ (by decide +kernel)).1 (by decide +kernel)

/-- The tree of R222 over any values, and the running values and carries of R223. -/
theorem witness_ValuesFromChainsAndMasks_tree (k : Fold) (t : Tag) (rm : BitVec 3) (get : Nat → Option Int) (lo : Nat) : ∃ S : Nat → Nat → Option Int × Flags,
    (∀ i, S 0 i = (if i < 3 then get (lo + i) else none, 0)) ∧ (∀ m i, S (m + 1) i =
      let a := S m i
      let b := S m (i + 2 ^ m)
      match a.1, b.1 with
      | some x, some y => let r := k.combine t rm x y; (some r.1, a.2 ||| b.2 ||| r.2)
      | some x, none => (some x, a.2 ||| b.2)
      | none, y => (y, a.2 ||| b.2)) ∧ 3 ≤ 2 ^ 2 ∧ ∀ q, q < 2 → 2 ^ q < 3 :=
  ⟨fun m => m.rec (fun i => (if i < 3 then get (lo + i) else none, 0)) fun m S i =>
      let a := S i
      let b := S (i + 2 ^ m)
      match a.1, b.1 with
      | some x, some y => let r := k.combine t rm x y; (some r.1, a.2 ||| b.2 ||| r.2)
      | some x, none => (some x, a.2 ||| b.2)
      | none, y => (y, a.2 ||| b.2), fun _ => rfl, fun _ _ => rfl, by decide, by decide⟩
theorem witness_ScansMakeRunningValues_carry (k : Fold) (t : Tag) (rm : BitVec 3) (vals : List (Option Int)) : ∃ run carry : Nat → Option Int × Flags,
    let join (a b : Option Int) : Option Int × Flags :=
      match a, b with
      | some x, some y => let r := k.combine t rm x y; (some r.1, r.2)
      | some x, none => (some x, 0)
      | none, y => (y, 0)
    (∀ j, run j = if j % 16 = 0 then (vals.getD j none, 0) else join (run (j - 1)).1 (vals.getD j none))
      ∧ carry 0 = (none, 0) ∧ ∀ b, carry (b + 1) = join (carry b).1 (run (16 * b + 15)).1 := by
  let join (a b : Option Int) : Option Int × Flags :=
    match a, b with
    | some x, some y => let r := k.combine t rm x y; (some r.1, r.2)
    | some x, none => (some x, 0)
    | none, y => (y, 0)
  let run (j : Nat) : Option Int × Flags :=
    j.rec (vals.getD 0 none, 0) fun i r => if (i + 1) % 16 = 0 then (vals.getD (i + 1) none, 0) else join r.1 (vals.getD (i + 1) none)
  let carry (b : Nat) : Option Int × Flags := b.rec (none, 0) fun b c => join c.1 (run (16 * b + 15)).1
  refine ⟨run, carry, fun j => ?_, rfl, fun _ => rfl⟩
  cases j with
  | zero => rfl
  | succ j => rfl

theorem good_offsets : vec.GoodOffsets 4 (vec.x 5).toNat where
  tag := by decide +kernel
  count := by decide +kernel
  some := by decide +kernel
  first := by decide +kernel
  rising := fun k hk => by
    have hc : (vec.h.chain 4).count = 3 := by decide +kernel
    rw [hc] at hk
    have : k = 0 ∨ k = 1 := by omega
    rcases this with rfl | rfl <;> decide +kernel
  last := fun k hk => by
    have hc : (vec.h.chain 4).count = 3 := by decide +kernel
    rw [hc] at hk
    have : k = 0 ∨ k = 1 ∨ k = 2 := by omega
    rcases this with rfl | rfl | rfl <;> decide +kernel

theorem witness_ScansMakeRunningValues : intOrWide 3 = true ∧ vec.holdsChain 1 3 (vec.x 5).toNat ∧ vec.MayRun (vec.x 5).toNat [9, 1] [] ∧ vec.tidy
    ∧ vec.roomFor (linksFor 3 (vec.x 5).toNat) ∧ (9 : VReg) ≠ 1 ∧ vec.GoodOffsets 4 (vec.x 5).toNat ∧ vec.unclaimed [9, 1, 4] [] :=
  ⟨by decide +kernel, holds_of (by decide +kernel), mayRun_of (by decide +kernel), tidy_of (by decide +kernel), room_of (by decide +kernel), by decide, good_offsets,
    by unfold State.unclaimed; decide +kernel⟩
/-- The same over its source, exclusive and shared with another register. -/
theorem witness_ScansMakeRunningValues_inPlace :
    (vec.MayRun (vec.x 5).toNat [1, 1] [] ∧ vec.apart (vec.h.chain 1) ∧ vec.exclusive (vec.h.chain 1) = true)
    ∧ (sharing.holdsChain 1 1 (sharing.x 5).toNat ∧ sharing.MayRun (sharing.x 5).toNat [1, 1] [] ∧ sharing.tidy ∧ sharing.apart (sharing.h.chain 1) ∧ sharing.exclusive (sharing.h.chain 1) = false
      ∧ sharing.Counted 1 ∧ sharing.roomFor (sharing.h.chain 1).copies ∧ ∃ j, j < (sharing.x 5).toNat ∧ sharing.maskOn 1 j = true) :=
  ⟨⟨mayRun_of (by decide +kernel), apart_of (by decide +kernel), by decide +kernel⟩, holds_of (by decide +kernel), mayRun_of (by decide +kernel), tidy_of (by decide +kernel),
    apart_of (by decide +kernel), by decide +kernel, counted_of (by decide +kernel), room_of (by decide +kernel), 0, by decide +kernel, by decide +kernel⟩
theorem witness_SegmentedReductions : intOrWide 3 = true ∧ vec.holdsChain 1 3 (vec.x 5).toNat ∧ vec.GoodOffsets 4 (vec.x 5).toNat ∧ vec.MayRun (vec.x 5).toNat [9, 1, 4] []
    ∧ vec.tidy ∧ vec.roomFor (linksFor 3 (vec.h.chain 4).count) :=
  ⟨by decide +kernel, holds_of (by decide +kernel), good_offsets, mayRun_of (by decide +kernel), tidy_of (by decide +kernel), room_of (by decide +kernel)⟩

theorem witness_MovesAndSortsPlaceElements :
    (vec.h.mode ≠ .d ∧ vec.calm ∧ vec.tidy ∧ (vec.x 5).toNat ≤ vec.vlmax ∧ vec.unclaimed [9, 1, 2, 2] [] ∧ vec.roomFor (linksFor 3 (2 * (vec.x 5).toNat))
      ∧ (vec.x 5).toNat ≤ (vec.h.chain 1).count ∧ (vec.activeList 1 (vec.x 5).toNat).length ≤ (vec.h.chain 1).count ∧ vec.holdsChain 2 3 (vec.x 5).toNat
      ∧ (vec.x 5).toNat - min (vec.x 8).toNat (vec.x 5).toNat ≤ (vec.h.chain 1).count ∧ vec.holdsChain 2 3 (min (vec.x 8).toNat (vec.x 5).toNat)
      ∧ vec.holdsChain 2 3 ((vec.x 5).toNat + (vec.x 8).toNat - (vec.h.chain 1).count) ∧ isIntTag (vec.h.chain 2).tag = true)
    ∧ ((vec.h.chain 8).tag = 8 ∧ vec.holdsChain 8 8 0 ∧ (vec.x 5).toNat ≤ (vec.h.chain 8).count) :=
  ⟨⟨by decide +kernel, calm_of (by decide +kernel), tidy_of (by decide +kernel), by decide +kernel, by unfold State.unclaimed; decide +kernel, room_of (by decide +kernel),
      by decide +kernel, by decide +kernel, holds_of (by decide +kernel), by decide +kernel, holds_of (by decide +kernel), holds_of (by decide +kernel), by decide +kernel⟩,
    by decide +kernel, holds_of (by decide +kernel), by decide +kernel⟩

/-- The hart's gang runs on core 1 too; x10 is an offset in that core's local store. -/
def far : State := { hart (regs vec [(10, 0x1100_0100)]) (fun h => { h with gang := some 4 }) with gangs := [⟨4, 2, 0, [0, 8], 3, 0, 0, 3, 0⟩] }

theorem witness_VectorLoadsMakeFreshChains :
    (∃ (s1 s2 : State) (spots : List Spot) (vals : List (Nat × Nat)), vec.calm ∧ vec.memChecks [9] none .contig (vec.x 0) 3 true (vec.x 5) 1 (vec.activeList 1 3) = .ok () ∧ vec.unclaimed [9] []
      ∧ vec.awake.probe (vec.h.space 1) 4 .read true none ((vec.activeList 1 3).map fun j => (j, vec.elemAddr .contig (vec.x 0) 3 Desc.released j)) = .ok (spots, s1)
      ∧ s1.ownPackets = [] ∧ (∀ sp ∈ spots, s1.farCore sp.pl = none) ∧ s1.vectorReads (vec.h.space 1) 4 s1.arrived spots = (vals, none, s2) ∧ s2.tidy ∧ s2.roomFor (linksFor 3 3))
    ∧ (∃ (s1 : State) (spots : List Spot), far.calm ∧ far.memChecks [9] none .contig (far.x 10) 3 true (far.x 5) 1 (far.activeList 1 3) = .ok () ∧ far.unclaimed [9] []
      ∧ far.awake.probe (far.h.space 1) 4 .read true none ((far.activeList 1 3).map fun j => (j, far.elemAddr .contig (far.x 10) 3 Desc.released j)) = .ok (spots, s1)
      ∧ s1.ownPackets = [] ∧ ∃ sp ∈ spots, (s1.farCore sp.pl).isSome = true) := by
  constructor
  · have h : okAnd (vec.awake.probe (vec.h.space 1) 4 .read true none ((vec.activeList 1 3).map fun j => (j, vec.elemAddr .contig (vec.x 0) 3 Desc.released j)))
        (fun a => a.1.all (fun sp => (a.2.farCore sp.pl).isNone) && a.2.ownPackets.isEmpty && (let r := a.2.vectorReads (vec.h.space 1) 4 a.2.arrived a.1
          r.2.1.isNone && (r.2.2.mem.wf && r.2.2.core.tidy && r.2.2.cores.all fun p => p.2.tidy)
            && decide (r.2.2.h.vused + linksFor 3 3 ≤ r.2.2.h.vquota.toNat ∧ r.2.2.core.links.length + linksFor 3 3 ≤ 2048))) = true := by decide +kernel
    obtain ⟨⟨spots, s1⟩, h1, h2⟩ := ok_of h
    simp only [Bool.and_eq_true, List.all_eq_true, Option.isNone_iff_eq_none, List.isEmpty_iff] at h2
    obtain ⟨⟨ha, hb⟩, ⟨hc, hd⟩, he⟩ := h2
    exact ⟨s1, _, spots, _, calm_of (by decide +kernel), by decide +kernel, by unfold State.unclaimed; decide +kernel, h1, hb, ha,
      Prod.ext rfl (Prod.ext hc rfl), tidy_of (by simpa only [Bool.and_eq_true, List.all_eq_true] using hd), room_of he⟩
  · have h : okAnd (far.awake.probe (far.h.space 1) 4 .read true none ((far.activeList 1 3).map fun j => (j, far.elemAddr .contig (far.x 10) 3 Desc.released j)))
        (fun a => a.2.ownPackets.isEmpty && a.1.any fun sp => (a.2.farCore sp.pl).isSome) = true := by decide +kernel
    obtain ⟨⟨spots, s1⟩, h1, h2⟩ := ok_of h
    simp only [Bool.and_eq_true, List.isEmpty_iff, List.any_eq_true] at h2
    exact ⟨s1, spots, calm_of (by decide +kernel), by decide +kernel, by unfold State.unclaimed; decide +kernel, h1, h2.1, h2.2⟩

/-- The same load when its reply has arrived. -/
def replied : State := { far with packets := [⟨0, 1, 4, 3, 0, 5, [(0x100, 0, [1, 0, 0, 0]), (0x108, 2, [2, 0, 0, 0])], []⟩] }
theorem witness_VectorLoadsMakeFreshChains_packets : ∃ (s1 s2 : State) (spots : List Spot) (vals : List (Nat × Nat)), replied.calm
    ∧ replied.memChecks [9] none .contig (replied.x 10) 3 true (replied.x 5) 1 (replied.activeList 1 3) = .ok () ∧ replied.unclaimed [9] []
    ∧ replied.awake.probe (replied.h.space 1) 4 .read true none ((replied.activeList 1 3).map fun j => (j, replied.elemAddr .contig (replied.x 10) 3 Desc.released j)) = .ok (spots, s1)
    ∧ s1.ownPackets ≠ [] ∧ (∀ p ∈ s1.ownPackets, p.kind = 4) ∧ s1.vectorReads (replied.h.space 1) 4 s1.arrived spots = (vals, none, s2) ∧ s2.tidy ∧ s2.roomFor (linksFor 3 3) := by
  have h : okAnd (replied.awake.probe (replied.h.space 1) 4 .read true none ((replied.activeList 1 3).map fun j => (j, replied.elemAddr .contig (replied.x 10) 3 Desc.released j)))
      (fun a => !a.2.ownPackets.isEmpty && a.2.ownPackets.all (fun p => p.kind == 4) && (let r := a.2.vectorReads (replied.h.space 1) 4 a.2.arrived a.1
        r.2.1.isNone && (r.2.2.mem.wf && r.2.2.core.tidy && r.2.2.cores.all fun p => p.2.tidy)
          && decide (r.2.2.h.vused + linksFor 3 3 ≤ r.2.2.h.vquota.toNat ∧ r.2.2.core.links.length + linksFor 3 3 ≤ 2048))) = true := by decide +kernel
  obtain ⟨⟨spots, s1⟩, h1, h2⟩ := ok_of h
  simp only [Bool.and_eq_true, List.all_eq_true, Option.isNone_iff_eq_none, Bool.not_eq_true', List.isEmpty_eq_false_iff, beq_iff_eq] at h2
  obtain ⟨⟨ha, hb⟩, ⟨hc, hd⟩, he⟩ := h2
  exact ⟨s1, _, spots, _, calm_of (by decide +kernel), by decide +kernel, by unfold State.unclaimed; decide +kernel, h1, ha, hb,
    Prod.ext rfl (Prod.ext hc rfl), tidy_of (by simpa only [Bool.and_eq_true, List.all_eq_true] using hd), room_of he⟩

/-- The untranslated form, in mode S with BARE set: three i32 elements from physical 0x100 on. -/
def untranslatedLoad : State := regs (sup vec) [(5, 3), (6, 0x100)]
theorem witness_VectorLoadsMakeFreshChains_untranslated : let s := untranslatedLoad
    (s.calm ∧ s.memChecks [9] none .contig (s.x 6) 3 true (s.x 5) 1 (s.activeList 1 3) = .ok () ∧ s.unclaimed [9] [] ∧ s.tidy ∧ s.roomFor (linksFor 3 3))
    ∧ (s.h.mode = .s ∧ s.h.bare = true ∧ s.h.space 0 = 0 ∧ s.pend = [] ∧ s.early = [] ∧ s.ownPackets = [])
    ∧ ∀ j ∈ s.activeList 1 3, ∃ k, physKey (s.elemAddr .contig (s.x 6) 3 Desc.released j) = some k ∧ s.poisonIn k 4 = none := by
  intro s
  have h : ((s.activeList 1 3).all fun j => (physKey (s.elemAddr .contig (s.x 6) 3 Desc.released j)).any fun k => (s.poisonIn k 4).isNone) = true := by decide +kernel
  refine ⟨⟨calm_of (by decide +kernel), by decide +kernel, by unfold State.unclaimed; decide +kernel, tidy_of (by decide +kernel), room_of (by decide +kernel)⟩, by decide +kernel, fun j hj => ?_⟩
  obtain ⟨k, hk, hq⟩ := some_of (List.all_eq_true.mp h j hj)
  exact ⟨k, hk, Option.isNone_iff_eq_none.mp hq⟩

/-- The strided and the indexed form (the offsets of v4 with x0 as base), and a scatter-add of v1 at an offset of core 1, each with its checks and its probe. -/
theorem witness_VectorStoresHandOffTheirElements :
    (∃ s1 spots, vec.calm ∧ vec.memChecks [] (some 1) (.strided (vec.x 9)) (vec.x 0) 3 true (vec.x 5) 0 (vec.activeList 0 3) = .ok ()
      ∧ vec.unclaimed [1] [] ∧ vec.awake.probe (vec.h.space 1) 4 .write false none ((vec.activeList 0 3).map fun j => (j, vec.elemAddr (.strided (vec.x 9)) (vec.x 0) 3 Desc.released j)) = .ok (spots, s1))
    ∧ (∃ s1 spots, vec.memChecks [] (some 3) (.indexed 4) (vec.x 0) 1 true (vec.x 5) 0 (vec.activeList 0 3) = .ok () ∧ vec.unclaimed [3, 4] []
      ∧ vec.awake.probe (vec.h.space 1) 1 .write false none ((vec.activeList 0 3).map fun j => (j, vec.elemAddr (.indexed 4) (vec.x 0) 1 (vec.h.chain 4) j)) = .ok (spots, s1))
    ∧ (∃ s1 spots, far.calm ∧ far.memChecks [] (some 1) (.indexed 4) (far.x 10) 3 true (far.x 8) 0 (far.activeList 0 1) = .ok () ∧ far.unclaimed [1, 4] []
      ∧ far.awake.probe (far.h.space 1) 4 .atomic false none ((far.activeList 0 1).map fun j => (j, far.elemAddr (.indexed 4) (far.x 10) 3 (far.h.chain 4) j)) = .ok (spots, s1)) := by
  have ok {s : State} {l kind n} {b : Bool} (h : okAnd (s.awake.probe (s.h.space 1) n kind b none l) (fun _ => true) = true) :
      ∃ s1 spots, s.awake.probe (s.h.space 1) n kind b none l = .ok (spots, s1) := by
    obtain ⟨⟨a, t⟩, e, -⟩ := ok_of h
    exact ⟨t, a, e⟩
  obtain ⟨s1, p1, e1⟩ := ok (s := vec) (l := (vec.activeList 0 3).map fun j => (j, vec.elemAddr (.strided (vec.x 9)) (vec.x 0) 3 Desc.released j)) (kind := .write) (n := 4) (b := false) (by decide +kernel)
  obtain ⟨s2, p2, e2⟩ := ok (s := vec) (l := (vec.activeList 0 3).map fun j => (j, vec.elemAddr (.indexed 4) (vec.x 0) 1 (vec.h.chain 4) j)) (kind := .write) (n := 1) (b := false) (by decide +kernel)
  obtain ⟨s3, p3, e3⟩ := ok (s := far) (l := (far.activeList 0 1).map fun j => (j, far.elemAddr (.indexed 4) (far.x 10) 3 (far.h.chain 4) j)) (kind := .atomic) (n := 4) (b := false) (by decide +kernel)
  exact ⟨⟨s1, p1, calm_of (by decide +kernel), by decide +kernel, by unfold State.unclaimed; decide +kernel, e1⟩,
    ⟨s2, p2, by decide +kernel, by unfold State.unclaimed; decide +kernel, e2⟩, s3, p3, calm_of (by decide +kernel), by decide +kernel, by unfold State.unclaimed; decide +kernel, e3⟩

/-- The masked-off element of a load is zero, the other is the byte read (R198). -/
theorem test_vld_masks : (match exec (.vld 9 0 5 1 1 1 0) { mini with mem := [(lsBase, 7), (lsBase + 1, 8)] } with
    | .next t => decide ((t.h.chain 9).tag = 1) && elems t 9 == [7, 0] && t.h.vused == 6 | _ => false) = true := by decide +kernel
/-- i8 sums wrap and say so; the masked-off element is the first source's (R202, R232). -/
theorem test_vadd_masks : (match exec (.vadd 9 1 2 5 1 false 0 false) mini with
    | .next t => elems t 9 == [0, 255] && decide (t.h.vflags = 0) && t.h.vused == 6 | _ => false) = true := by decide +kernel
theorem test_vadd_in_place_wraps : (match exec (.vadd 1 1 2 5 0 false 0 false) mini with
    | .next t => elems t 1 == [0, 127] && decide (t.h.vflags = fWRAP) && t.h.vused == 4 | _ => false) = true := by decide +kernel
theorem test_vredmin_is_signed : (match exec (.vredmin 9 2 5 0) mini with | .next t => decide (t.x 9 = 0xFFFF_FFFF_FFFF_FF80) | _ => false) = true := by decide +kernel
theorem test_vscanx_starts_with_zero : (match exec (.vscanx 9 1 5 0 false 0) mini with | .next t => elems t 9 == [0, 5] | _ => false) = true := by decide +kernel
theorem test_vslideup_fills_with_zero : (match exec (.vslideup 9 1 8 0 5 false) mini with | .next t => elems t 9 == [0, 5] | _ => false) = true := by decide +kernel
theorem test_vcmplt_is_signed : (match exec (.vcmplt 2 1 2 5 0 false false) mini with | .next t => decide (t.h.mask 2 = 0) | _ => false) = true := by decide +kernel
theorem test_mnot_clears_from_vl_up : (match exec (.mnot 2 1 5) mini with | .next t => decide (t.h.mask 2 = 2) | _ => false) = true := by decide +kernel

/-! Chain words. -/

theorem witness_ChainWordsMakeTheirChains : let a := vec.h.chain 1; let b := vec.h.chain 2
    (vec.calm ∧ vec.unclaimed [9, 10, 1, 2] [] ∧ vec.lowCounts ∧ vec.tidy ∧ vec.roomFor (linksFor 3 (vec.x 6).toNat))
    ∧ vec.h.mode ≠ .d ∧ a.tag ≠ 0 ∧ a.spans.length ≤ 4 ∧ b.spans.length ≤ 4 ∧ (vec.x 6).toNat ≤ a.count ∧ (vec.x 6).toNat + (vec.x 8).toNat ≤ a.count
      ∧ (a.count * tagWidth a.tag % tagWidth 2 = 0 ∧ ∀ sp ∈ a.spans, sp.len % (tagWidth 2 / 8) = 0) ∧ chainBytes 3 (vec.x 6).toNat ≤ 131072
      ∧ b.tag = a.tag ∧ chainBytes 3 (a.count + b.count) ≤ 524288 ∧ (mergeSpans (cutElems a 0 2 ++ b.spans ++ cutElems a 2 1)).length ≤ 4
      ∧ (a.spans.map Span.len).sum = chainBytes 3 a.count ∧ (b.spans.map Span.len).sum = chainBytes 3 b.count :=
  ⟨⟨calm_of (by decide +kernel), by unfold State.unclaimed; decide +kernel, lowCounts_of (by decide +kernel), tidy_of (by decide +kernel), room_of (by decide +kernel)⟩, by decide +kernel⟩

/-- Five chains of one i8 element; v11 names the first three of them, v12 the others. -/
def pieces : State :=
  let s := withChains (regs (withLocal base) [(5, 1)]) ((List.range 5).map fun i => (i + 1, 1, 1, [BitVec.ofNat 8 (i + 7)]))
  hart s fun h => (h.setChain 11 ⟨1, 3, [⟨0, 0, 1⟩, ⟨2, 0, 1⟩, ⟨4, 0, 1⟩]⟩).setChain 12 ⟨1, 2, [⟨6, 0, 1⟩, ⟨8, 0, 1⟩]⟩
theorem witness_ChainWordsMakeTheirChains_flat :
    (let a := pieces.h.chain 11; let b := pieces.h.chain 12
     4 < (mergeSpans (cutElems a 0 0 ++ b.spans ++ cutElems a 0 3)).length ∧ 4 < (mergeSpans (cutElems a 0 1 ++ b.spans ++ cutElems a 1 2)).length ∧ b.tag = a.tag
       ∧ chainBytes 1 5 ≤ 524288 ∧ (a.spans.map Span.len).sum = chainBytes 1 3 ∧ (b.spans.map Span.len).sum = chainBytes 1 2 ∧ (pieces.x 5).toNat ≤ a.count)
    ∧ (pieces.h.mode ≠ .d ∧ pieces.calm ∧ pieces.unclaimed [9, 10, 11, 12] [] ∧ pieces.lowCounts)
    ∧ (pieces.tidy ∧ pieces.wellHeld (pieces.h.chain 11) ∧ pieces.wellHeld (pieces.h.chain 12) ∧ pieces.roomFor (flatLinks 1 5)) :=
  ⟨by decide +kernel, ⟨by decide +kernel, calm_of (by decide +kernel), by unfold State.unclaimed; decide +kernel, lowCounts_of (by decide +kernel)⟩,
    tidy_of (by decide +kernel), wellHeld_of (by decide +kernel), wellHeld_of (by decide +kernel), room_of (by decide +kernel)⟩

/-- An edit that wants more links than the quota gives, and one that wants none. -/
def greedy (s : State) : State := { s with h := { s.h with vused := s.h.vused + 100 } }

theorem witness_ChainCopiesAreWholeOrNotAtAll : let a := vec.h.chain 1
    (vec.calm ∧ vec.unclaimed [9, 1] [] ∧ vec.lowCounts ∧ vec.wellHeld a ∧ vec.tidy ∧ vec.roomFor (flatLinks 3 a.count) ∧ vec.trapsToS 0x01)
    ∧ vec.h.mode = .u ∧ a.tag ≠ 0 ∧ chainBytes 3 a.count ≤ 524288 ∧ vec.exclusive a = true ∧ vec.h.pfh.getLsbD 0 = false
      ∧ (id vec.awake).poolFits = true ∧ (greedy vec.awake).poolFits = false ∧ (greedy vec.awake).h.vused ≠ vec.h.vused :=
  ⟨⟨calm_of (by decide +kernel), by unfold State.unclaimed; decide +kernel, lowCounts_of (by decide +kernel), wellHeld_of (by decide +kernel), tidy_of (by decide +kernel),
    room_of (by decide +kernel), trapsToS_of (by decide +kernel)⟩, by decide +kernel⟩

/-- A chain that another register names too is made exclusive. -/
theorem witness_ChainCopiesAreWholeOrNotAtAll_shared : let a := sharing.h.chain 1
    sharing.exclusive a = false ∧ (sharing.tidy ∧ sharing.apart a ∧ sharing.Counted 1 ∧ sharing.roomFor a.copies ∧ sharing.lowCounts ∧ sharing.wellHeld a)
    ∧ ∀ p ∈ a.spans, 0 < p.len ∧ 1 ≤ sharing.rc p.spine ∧ ∀ i l, i < 256 → sharing.slotGet p.spine i = some l → 1 ≤ sharing.rc l := by
  refine ⟨by decide +kernel, ⟨tidy_of (by decide +kernel), apart_of (by decide +kernel), counted_of (by decide +kernel), room_of (by decide +kernel), lowCounts_of (by decide +kernel),
    wellHeld_of (by decide +kernel)⟩, ?_⟩
  have hp : (sharing.h.chain 1).spans = [⟨0, 0, 2⟩] := by decide +kernel
  have hs : sharing.slotList 0 = [(0, 1)] := by decide +kernel
  simp only [hp, List.mem_singleton, forall_eq]
  refine ⟨by decide, by decide +kernel, fun i l hi hl => ?_⟩
  have := slot_mem hi hl
  rw [hs, List.mem_singleton, Prod.mk.injEq] at this
  rw [this.2]
  decide +kernel

/-- v1's storage released: its spine is queued (R171). -/
def released : State := vec.releaseReg 1
theorem witness_ReclaimedLinksReturn :
    ((∀ q ∈ vec.core.reclaim, q.owner ≠ vec.cur) ∧ ∃ q ∈ released.core.reclaim, q.owner = released.cur)
    ∧ (∃ q rest, released.core.reclaim = q :: rest ∧ (∀ r ∈ rest, r.spine ≠ q.spine)
      ∧ q.spine ∉ ((released.slotList q.spine).filter fun e => decide (q.pos ≤ e.1)).map Prod.snd) :=
  ⟨by decide +kernel, ⟨0, 0, 0⟩, [], by decide +kernel, by decide +kernel, by decide +kernel⟩

/-- A run shares its storage; a split gives both parts (R176, R177). -/
theorem test_ctrimh_and_csplit : (match exec (.ctrimh 9 1 8) mini, exec (.csplit 9 10 1 8) mini with
    | .next t, .next u => elems t 9 == [255] && t.h.vused == 4 && elems u 9 == [5] && elems u 10 == [255] | _, _ => false) = true := by decide +kernel
theorem test_csplice_in_the_middle : (match exec (.csplice 9 1 2 8) mini with | .next t => elems t 9 == [5, 251, 128, 255] | _ => false) = true := by decide +kernel
/-- A fault of the pool takes nothing and says how many links were wanted (R166). -/
theorem test_cnew_beyond_the_quota : (match exec (.cnew 9 5 3) (hart mini fun h => { h with vquota := 5, tresOff := 127 }) with
    | .next t => decide (t.h.cause = 0x0C ∧ t.h.tval = 2 ∧ t.h.v = mini.h.v ∧ t.core.links = mini.core.links) | _ => false) = true := by decide +kernel

/-! Matrix words. -/

/-- The hart holds za1, two by three f32 cells; x10 asks for two by three f32, x11 releases; x12 drains row 0; x13 drains it with AMAX to as1; x14 is 1.0. -/
def tiled : State := regs
  { vec with core := { vec.core with za1 := { Tile.empty with holder := some 0, rows := 2, cols := 3, kind := .f32, cells := [(0, 0x3F80_0000), (129, 5)] } } }
  [(10, 0x302), (11, 0x4_0000), (12, 0x80_0000), (13, 0x300_0000), (14, 0x3FF0_0000_0000_0000), (15, 128), (16, 1), (17, 0x100)]

/-- The same while another hart holds za0. -/
def taken : State := { tiled with core := { tiled.core with za0 := { Tile.empty with holder := some 3, queue := [2] } } }

theorem witness_TileWordsAndTransfers :
    (tiled.calm ∧ tiled.unclaimed [9] [] ∧ tiled.unclaimed [5] [] ∧ tiled.unclaimed [] [2] ∧ tiled.tidy ∧ tiled.roomFor (linksFor 14 3) ∧ tiled.roomFor (linksFor 15 2) ∧ tiled.roomFor (linksFor 3 3))
    ∧ ((1 : BitVec 3).toNat < 2 ∧ tiled.h.mode ≠ .d ∧ (tiled.x 10).extractLsb' 18 46 = 0 ∧ (tiled.tile 0).freeFor tiled.slotNo = true ∧ taken.holds 0 = false ∧ (taken.tile 0).freeFor taken.slotNo = false ∧ tiled.x 11 = 0x4_0000
      ∧ tiled.holds 1 = true ∧ (tiled.x 16).toNat < (tiled.tile 1).rows ∧ (tiled.x 15).toNat = 128)
    ∧ ((tiled.x 16).toNat + (tiled.x 8).toNat ≤ (tiled.tile 1).rows ∧ tiled.holdsChain 5 (tiled.tile 1).kind.tag ((tiled.x 8).toNat * (tiled.tile 1).cols))
    ∧ ((tiled.x 12).extractLsb' 30 34 = 0 ∧ (tiled.x 12).getLsbD 24 = false ∧ (tiled.x 12).getLsbD 23 = true ∧ (tiled.x 13).getLsbD 24 = true ∧ (tiled.x 13).getLsbD 23 = false
      ∧ ((tiled.x 12).extractLsb' 0 7).toNat + (((tiled.x 12).extractLsb' 7 7).toNat + 1) ≤ (tiled.tile 1).rows ∧ chainBytes 3 3 ≤ 131072)
    ∧ (∃ pl, (withLocal tiled).locate (withLocal tiled).h.acc ((withLocal tiled).h.space 1) (tiled.x 17).toNat 4 .atomic false = .ok (pl, withLocal tiled))
    ∧ (fmtF64.decode (tiled.x 14).toNat).isNan = false ∧ (fmtF64.decode (tiled.x 14).toNat).sign = false :=
  ⟨⟨calm_of (by decide +kernel), by unfold State.unclaimed; decide +kernel, by unfold State.unclaimed; decide +kernel, by unfold State.unclaimed; decide +kernel, tidy_of (by decide +kernel),
      room_of (by decide +kernel), room_of (by decide +kernel), room_of (by decide +kernel)⟩,
    by decide +kernel, ⟨by decide +kernel, holds_of (by decide +kernel)⟩, by decide +kernel, ⟨⟨lsKey 0 0x100, false, false, true, none⟩, rfl⟩, by decide +kernel⟩

/-- Finite values to deliver and to load, a tile of zeros to test, and a check word that is no finite value against cells that are. -/
theorem witness_TileWordsAndTransfers_values :
    (∃ x : Machine.Num, x.finite ∧ (3 : Tag) ≠ 0 ∧ rmRNE.toNat ≤ 4 ∧ isIntTag 3 = true ∧ fmtOf 14 = some fmtF32 ∧ TileKind.f32 ≠ .i32)
    ∧ (∀ n, n < (tiled.tile 1).cols → ((tiled.tile 1).value 1 n).finite ∧ (fmtF32.decode (tiled.elem (tiled.h.chain 5) n)).finite)
    ∧ (fmtF64.decode ((tiled.tile 1).check 1).1.toNat).finite ∧ (fmtF64.decode ((tiled.tile 1).check 1).2.toNat).finite
    ∧ (fmtF64.decode 0x7FF0_0000_0000_0000).isNan = false ∧ ¬ (fmtF64.decode 0x7FF0_0000_0000_0000).finite
    ∧ ((tiled.tile 1).kind ≠ .i32 ∧ (tiled.tile 1).rows ≤ (tiled.tile 1).kind.limit ∧ (tiled.tile 1).cols ≤ (tiled.tile 1).kind.limit) := by
  refine ⟨⟨.fin false 3 (-1), trivial, by decide⟩, ?_, trivial, trivial, by decide +kernel, id, by decide +kernel⟩
  intro n hn
  have hc : (tiled.tile 1).cols = 3 := by decide +kernel
  rw [hc] at hn
  have : n = 0 ∨ n = 1 ∨ n = 2 := by omega
  rcases this with rfl | rfl | rfl <;> exact ⟨trivial, trivial⟩

/-- An f32 outer product of depth 1 on v5, and an MX one of one by one cells on v6 with the codes of v7. -/
def small : State := { tiled with core := { tiled.core with za1 := { tiled.core.za1 with rows := 1, cols := 1 } } }
theorem witness_AccumulationRunsItsGroups :
    ((tiled.h.mode ≠ .d ∧ tiled.holds 1 = true ∧ opShape (tiled.h.chain 5).tag (tiled.h.chain 5).tag = some ((tiled.tile 1).kind, 1) ∧ (tiled.x 8).toNat ≤ 1024
      ∧ (tiled.x 8).toNat * (tiled.tile 1).rows ≤ (tiled.h.chain 5).count ∧ (tiled.x 8).toNat * (tiled.tile 1).cols ≤ (tiled.h.chain 5).count) ∧ tiled.calm ∧ tiled.unclaimed [5, 5] [])
    ∧ ((small.holds 1 = true ∧ opShape (small.h.chain 6).tag (small.h.chain 6).tag = some ((small.tile 1).kind, 8) ∧ isNarrow (small.h.chain 6).tag = true)
      ∧ small.holdsChain 7 5 ((small.tile 1).rows * (((small.x 8).toNat + 31) / 32)) ∧ small.calm ∧ small.unclaimed [6, 6, 7, 7] []) :=
  ⟨⟨by decide +kernel, calm_of (by decide +kernel), by unfold State.unclaimed; decide +kernel⟩,
    by decide +kernel, holds_of (by decide +kernel), calm_of (by decide +kernel), by unfold State.unclaimed; decide +kernel⟩

/-- One product in a group, as finite values and as the integers 1; an i32 cell at the end of its range; a group count and a scale code. -/
theorem witness_AccumulationRunsItsGroups_values :
    let t : Tile := { Tile.empty with rows := 1, cols := 1, kind := .i32, cells := [(0, 0x7FFF_FFFF)] }
    let one : Machine.Num := .fin false 1 0
    (t.rows ≤ t.kind.limit ∧ t.cols ≤ t.kind.limit ∧ rmRNE.toNat ≤ 4 ∧ one = .fin (decide ((1 : Int) < 0)) (1 : Int).natAbs 0
      ∧ ¬ (-2 ^ 31 ≤ intOf 3 (t.cell 0 0) + ((1 : Int) * 1 + 0) ∧ intOf 3 (t.cell 0 0) + ((1 : Int) * 1 + 0) < 2 ^ 31))
    ∧ one.finite ∧ fmtOf TileKind.f32.tag = some fmtF32 ∧ ((tiled.tile 1).value 0 0).finite ∧ (fmtF64.decode ((tiled.tile 1).check 0).1.toNat).finite
    ∧ (0 < 8 ∧ 20 ≤ 1024) ∧ ((130 : Nat) < 255 ∧ fmtOf 10 = some fmtE4m3 ∧ (fmtE4m3.decode 0x38).finite) :=
  ⟨by decide +kernel, trivial, rfl, trivial, trivial, by decide, by decide, rfl, trivial⟩

/-- 1.0 * 1.0 added to the cell 1.0, with the check column beside it (R275). -/
theorem test_zop_adds_products : (match exec (.zop 1 5 5 8 0) small with
    | .next t => (t.tile 1).cell 0 0 == 0x4000_0000 && decide ((t.tile 1).check 0 = (0x3FF0_0000_0000_0000, 0x3FF0_0000_0000_0000)) | _ => false) = true := by decide +kernel
theorem test_zmode_clears_its_tile : (match exec (.zmode 1 10) tiled with | .next t => (t.tile 1).cell 0 0 == 0 && (t.tile 1).rows == 2 && (t.tile 1).cols == 3 | _ => false) = true := by
  decide +kernel

/-! Atomics, fences and the barrier. -/

theorem witness_AtomicTable : (withLocal user).outstanding false 2 = false ∧ (withLocal user).outstanding true 2 = false
    ∧ (∃ pl s1 m s2, (withLocal user).scalarPlace 0xFFFF 0x1F_FFF8 8 .atomic false = .ok (pl, s1) ∧ s1.atomAt .add 0xFFFF 0x1F_FFF8 8 pl 1 0 2 3 = .ok (m, s2))
    ∧ (∃ pl s1 m s2, (withLocal user).scalarPlace 0xFFFF 0x1F_FFF8 8 .aread false = .ok (pl, s1) ∧ s1.atomAt .ld 0xFFFF 0x1F_FFF8 8 pl 0 0 2 1 = .ok (m, s2)) := by
  have go (kind : Kind) (op : AtomOp) (v : Nat) (o : BitVec 3)
      (h : okAnd ((withLocal user).scalarPlace 0xFFFF 0x1F_FFF8 8 kind false) (fun a => okAnd (a.2.atomAt op 0xFFFF 0x1F_FFF8 8 a.1 v 0 2 o) fun _ => true) = true) :
      ∃ pl s1 m s2, (withLocal user).scalarPlace 0xFFFF 0x1F_FFF8 8 kind false = .ok (pl, s1) ∧ s1.atomAt op 0xFFFF 0x1F_FFF8 8 pl v 0 2 o = .ok (m, s2) := by
    obtain ⟨⟨pl, s1⟩, h1, h2⟩ := ok_of h
    obtain ⟨⟨m, s2⟩, h3, -⟩ := ok_of h2
    exact ⟨pl, s1, m, s2, h1, h3⟩
  exact ⟨by decide +kernel, by decide +kernel, go _ _ _ _ (by decide +kernel), go _ _ _ _ (by decide +kernel)⟩

/-- Atomics refused: a misaligned one, a reserved space, an IM page, an AT page for a load, and one of a poisoned unit. -/
theorem witness_AtomicTable_refused :
    (ScalarRefused user 0 (user.x 5).toNat 8 .atomic false 0x0A ∧ user.trapsToS 0x0A)
    ∧ (ScalarRefused (hart user fun h => { h with as := h.as.set 1 0xFF00 }) 0xFF00 0x4000 4 .atomic false 0x08 ∧ user.trapsToS 0x08)
    ∧ ScalarRefused (withLocal user) 0xFFFF 0x100_0000 4 .aread false 0x08
    ∧ (ScalarRefused (mapped 7 whole) 0 (whole.x 10).toNat 8 .atomic false 0x09 ∧ (mapped 7 whole).trapsToS 0x09)
    ∧ (∃ pl s1, let s : State := { withLocal user with poison := [lsBase + 0x1F_FFF8] }
      s.scalarPlace (s.h.space 1) (s.x 9).toNat 8 .atomic false = .ok (pl, s1) ∧ pl.node = none ∧ s1.pend = [] ∧ s1.core.l1 = [] ∧ s.outstanding false 2 = false
        ∧ s.outstanding true 2 = false ∧ (s1.poisonIn pl.key 8).isSome = true ∧ s.trapsToS 0x0B) := by
  refine ⟨⟨.misaligned (.inl (by decide)) (by decide +kernel), trapsToS_of (by decide +kernel)⟩, ⟨.reserved (by decide +kernel) (by decide +kernel), trapsToS_of (by decide +kernel)⟩,
    .noWindow rfl (by unfold State.inWindow; decide +kernel), ⟨?_, trapsToS_hart (s := whole) rfl (trapsToS_of (by decide +kernel))⟩, ?_⟩
  · obtain ⟨t, h, -⟩ := translate_of (s := whole) ⟨rfl, rfl⟩ (b := 7) (.inr rfl) rfl rfl whole.h.acc rfl (space := 0) (.inl rfl) (off := 0x40) (by decide)
    rw [show (whole.x 10).toNat = 0x40 by decide +kernel]
    exact .pageBits _ t 0x40 (by decide) (by decide) (by decide +kernel) h rfl (frame_of (by decide)) (.inl ⟨rfl, .inr rfl⟩)
  · have h : okAnd (State.scalarPlace { withLocal user with poison := [lsBase + 0x1F_FFF8] } 0xFFFF 0x1F_FFF8 8 .atomic false) (fun p =>
        p.1.node.isNone && p.2.pend.isEmpty && p.2.core.l1.isEmpty && (p.2.poisonIn p.1.key 8).isSome) = true := by decide +kernel
    obtain ⟨⟨pl, s1⟩, h1, h2⟩ := ok_of h
    simp only [Bool.and_eq_true, Option.isNone_iff_eq_none, List.isEmpty_iff] at h2
    exact ⟨pl, s1, h1, h2.1.1.1, h2.1.1.2, h2.1.2, by decide +kernel, by decide +kernel, h2.2, trapsToS_of (by decide +kernel)⟩

/-- An `aadd` with ORD ar, whose hart has read ahead of program order, and an `ast` that is no release; an `ald` and an `acas` that does not match; an `await` whose location holds 0, against 0 and against 1. -/
theorem witness_AtomicsAndAwaitActAtHome :
    (∃ (s : State) (pl : Place) (x : Nat), pl.node = none ∧ s.frames = [] ∧ s.poison = [] ∧ s.pend = [] ∧ s.core.l1 = [] ∧ s.mem.wf = true
      ∧ atomNew .add 8 1 0 (ofBytes (s.homeRead pl.key 8)) = some x ∧ s.rels = [] ∧ s.early ≠ []
      ∧ atomNew .st 8 1 0 (ofBytes (s.homeRead pl.key 8)) = some x ∧ atomNew .ld 8 0 0 (ofBytes (s.homeRead pl.key 8)) = none
      ∧ atomNew .cas 8 1 7 (ofBytes (s.homeRead pl.key 8)) = none)
    ∧ ((withLocal user).h.mode ≠ .d ∧ ∃ pl s1 m rels e s2, (withLocal user).scalarPlace 0xFFFF 0x1F_FFF8 8 .aread false = .ok (pl, s1) ∧ s1.atomRead 0xFFFF 0x1F_FFF8 8 pl false = .ok (m, rels, e, s2)
      ∧ m = (user.x 0).toNat ∧ m ≠ (user.x 1).toNat) := by
  refine ⟨⟨{ user with early := [⟨0, false, 64, [], []⟩] }, ⟨0, false, false, false, none⟩, 1, by decide +kernel⟩, by decide +kernel, ?_⟩
  have h : okAnd ((withLocal user).scalarPlace 0xFFFF 0x1F_FFF8 8 .aread false) (fun a => okAnd (a.2.atomRead 0xFFFF 0x1F_FFF8 8 a.1 false)
    fun b => decide (b.1 = (user.x 0).toNat ∧ b.1 ≠ (user.x 1).toNat)) = true := by decide +kernel
  obtain ⟨⟨pl, s1⟩, h1, h2⟩ := ok_of h
  obtain ⟨⟨m, rels, e, s2⟩, h3, h4⟩ := ok_of h2
  exact ⟨pl, s1, m, rels, e, s2, h1, h3, of_decide_eq_true h4⟩

/-- The old value, sign-extended, and the larger one at home at once (R291). -/
theorem test_amax_w : (match exec (.amax 9 9 1 1 3 0 false 0) { withLocal user with mem := [(lsBase + 0x1F_FFFB, 0x80)] } with
    | .next t => decide (t.x 9 = 0xFFFF_FFFF_8000_0000 ∧ t.mem = [(lsBase + 0x1F_FFF8, 1)] ∧ t.pend = []) | _ => false) = true := by decide +kernel
theorem test_acas_fails : (match exec (.acas 9 9 1 8 1 3 0 true 0) (withLocal user) with | .next t => decide (t.x 9 = 0 ∧ t.mem = []) | _ => false) = true := by decide +kernel

/-- One vector write of the hart to its own local store, still to be performed. -/
def stored : State := { user with pend := [⟨5, 0, true, 0, 0, 0xFFFF, 64, lsKey 0 64, none, true, none, .put, [7, 8]⟩] }
theorem witness_FencesAndTlbinvOrderAccesses :
    (user.h.mode ≠ .d ∧ (∀ p ∈ user.pend, ¬ (p.hart = user.cur ∧ p.vec = true)) ∧ (∀ p ∈ stored.pend, ¬ (p.hart = stored.cur ∧ p.vec = false)) ∧ user.h.cmds = []
      ∧ ∃ p ∈ stored.pend, p.hart = stored.cur ∧ p.vec = true ∧ p.node = none)
    ∧ (superv.h.mode = .s ∧ (regs superv [(9, 0xB), (10, 8)]).x 9 = 0xB ∧ (regs superv [(9, 0xB), (10, 8)]).x 10 = 8 ∧ ∀ p ∈ superv.pend, p.hart / 8 ≠ superv.coreNo) := by decide +kernel

/-- A gang of the hart alone at phase 3, and one of two of which one has arrived. -/
def ganged (count expl : Nat) (my : BitVec 16) : State :=
  { user with
    gangs := [⟨4, 2, 0, [0], 3, count, expl, 3, 0⟩]
    h := { user.h with gang := some 4, myph := my, gbexp := 1 } }
theorem witness_GangBarrier :
    ((ganged 0 0 3).h.mode ≠ .d ∧ (ganged 0 0 3).gangOf (ganged 0 0 3).h = some ⟨4, 2, 0, [0], 3, 0, 0, 3, 0⟩ ∧ (ganged 0 0 3).outstanding false 2 = false ∧ (ganged 0 0 3).outstanding true 2 = false
      ∧ (ganged 0 0 3).h.myph ≠ 3 + 1 ∧ 0 + 1 = (ganged 0 0 3).h.gbexp.toNat ∧ (ganged 0 0 3).h.wait ≠ .barrier)
    ∧ ((ganged 1 3 3).gangOf (ganged 1 3 3).h = some ⟨4, 2, 0, [0], 3, 1, 3, 3, 0⟩ ∧ (ganged 1 3 3).h.myph ≠ 3 + 1 ∧ 1 + 1 ≠ 3) ∧ (ganged 1 3 4).h.myph = 3 + 1 := by decide +kernel
theorem test_gbar_of_one_passes : (match exec (.gbar 9) (ganged 0 0 3) with | .next t => decide (t.x 9 = 4 ∧ t.h.myph = 4 ∧ t.h.st = .running) | _ => false) = true := by decide +kernel

/-! Keys. -/

/-- Hart 0 in mode S with BARE set and hart 1 of the same context and task; x4 holds 0x20000, x6 17, x7 the agent number of hart 1. -/
def keyed : State :=
  let s := regs (sup base) [(4, 0x2_0000), (6, 17)]
  { s with
    h := { s.h with xs := s.h.xs.set 7 ((Config.nodeId ++ (1 : BitVec 16)).setWidth 64) }
    harts := [(1, { s.h with hartid := 1 })] }
/-- The agent number of a hart of this device, and its low half. -/
def agent (n : BitVec 16) : BitVec 32 := Config.nodeId ++ n
theorem agent_low (n : BitVec 16) : (agent n).extractLsb' 0 16 = n := by
  have h (m k : BitVec 16) : (m ++ k).extractLsb' 0 16 = k := by
    ext i hi
    rw [BitVec.getElem_extractLsb', BitVec.getLsbD_append]
    simp [hi]
  exact h _ n
theorem agent_ne {n : BitVec 16} {a : BitVec 32} (h : a.extractLsb' 0 16 ≠ n) : agent n ≠ a := fun e => h (e ▸ agent_low n)
/-- An entry of the region of 2^17 bytes at 0x20000, and states with entries. -/
def entry (st : KeyState) (owner lender : BitVec 32) (shares : List (BitVec 32)) : KeyEntry := ⟨0, 0, 0x2_0000, 17, st, false, shares, owner, lender, 2, false, noAgent⟩
def ring (l : List KeyEntry) : State := { keyed with keyring := l }

theorem home_of {s : State} (hs : s.h = keyed.h) {a k : Nat} (hk : physKey a = some k) : s.homeDie 0 a = .ok (some (stackDie (keyStack k)), false, s) := by
  have hb : keyed.h.acc.bare = true := rfl
  simp only [State.homeDie, hs, hb, hk, true_and, if_true]
theorem region_of {s : State} (hs : s.h = keyed.h) : s.region 4 6 0 0 = .ok (⟨0, 0x2_0000, 17, some 2⟩, s) := by
  have ho : offset (0x2_0000 : Word) (0 : BitVec 20) = 0x2_0000 := by decide +kernel
  have h1 : keyed.h.mode = .s ∧ keyed.h.x 4 = 0x2_0000 ∧ keyed.h.x 6 = 17 ∧ keyed.h.space 0 = 0 :=
    ⟨rfl, (by decide +kernel : keyed.x 4 = 0x2_0000), (by decide +kernel : keyed.x 6 = 17), (by decide +kernel : keyed.h.space 0 = 0)⟩
  have hh := home_of hs (a := 0x2_0000) (k := 8 * 2 ^ 36 + 0x2000) (by decide +kernel)
  have hd : stackDie (keyStack (8 * 2 ^ 36 + 0x2000)) = 2 := by decide +kernel
  simp only [State.region, State.x, hs, h1, ho, hh, hd]
  rfl
theorem upper_of {s : State} (hs : s.h = keyed.h) : s.upperDie ⟨0, 0x2_0000, 17, some 2⟩ = .ok (some 0, s) := by
  have hh := home_of hs (a := 0x3_0000) (k := 0 * 2 ^ 36 + 0x4000) (by decide +kernel)
  have hd : stackDie (keyStack (0 * 2 ^ 36 + 0x4000)) = 0 := by decide +kernel
  have hu : (0x2_0000 + 2 ^ (17 - 1)) % 2 ^ 64 = 0x3_0000 := by decide
  simp only [State.upperDie, hu, hh, hd]

theorem agents_differ : agent 1 ≠ agent 0 ∧ agent 1 ≠ noAgent ∧ agent 0 ≠ noAgent ∧ isHostAgent (agent 1) = false :=
  ⟨agent_ne (by rw [agent_low]; decide), agent_ne (by decide), agent_ne (by decide), by rw [isHostAgent, agent_low]; decide⟩

/-- x7's low half names hart 1, which is live. -/
theorem names_hart1 (l : List KeyEntry) : ((ring l).x 7).extractLsb' 0 32 = (agent 1) := by
  have h (a : BitVec 32) : (a.setWidth 64).extractLsb' 0 32 = a := by
    ext i hi
    simp [hi, BitVec.getLsbD_setWidth]
    omega
  exact h (agent 1)
theorem hart1_lives (l : List KeyEntry) (t : Option (BitVec 16)) (ht : t = none ∨ t = some 0) : (ring l).liveAgent 0 t (agent 1) = true := by
  have hp : (ring l).placed = [0, 1] := rfl
  have h1 : ((ring l).hartAt 1).agent = (agent 1) := rfl
  simp only [State.liveAgent, hp, List.any_cons, Bool.or_eq_true]
  refine .inr (.inr (.inl ?_))
  rw [h1, beq_self_eq_true]
  rcases ht with rfl | rfl <;> rfl
/-- The current hart's write to the region is under way. -/
def held (l : List KeyEntry) : State := { ring l with pend := [⟨5, 0, false, 0, 0, 0, 0x2_0000, 64, none, false, none, .put, [1]⟩] }
/-- A request of hart 1 for the region waits; a controller without room. -/
def queued : State := { keyed with keyQueue := [.hart 1 0 0 0x2_0000 17] }
def crowd : KeyEntry := { entry .owned noAgent noAgent [] with base := 0x10_0000 }
def crowded : State := { keyed with keyring := List.replicate 32768 crowd }
theorem crowded_full : crowded.overlapping 0 0 0x2_0000 17 = [] ∧ 32768 ≤ crowded.ringUsed 2 := by
  have h : (crowd.die == 2) = true := by decide
  have o : (crowd.ctx == 0 && crowd.space == 0 && meetsRegion 0x2_0000 17 crowd.base (2 ^ crowd.size)) = false := by decide
  rw [State.overlapping, State.ringUsed, crowded, List.filter_replicate, List.filter_replicate, if_pos h, List.length_replicate]
  exact ⟨if_neg (by rw [o]; decide), le_rfl⟩

theorem witness_KeyringRows :
    (keyed.overlapping 0 0 0x2_0000 17 = [] ∧ keyed.elsewhere ⟨0, 0x2_0000, 17, some 2⟩ = 0 ∧ keyed.ringUsed 2 < 32768
      ∧ keyed.requestHeld (keyed.waiter ⟨0, 0x2_0000, 17, some 2⟩) 0 ⟨0, 0x2_0000, 17, some 2⟩ = false)
    ∧ (queued.h = keyed.h ∧ queued.overlapping 0 0 0x2_0000 17 = [] ∧ (∀ w ∈ queued.keyQueue, w.ofHart queued.cur = false)
      ∧ queued.requestHeld (queued.waiter ⟨0, 0x2_0000, 17, some 2⟩) 0 ⟨0, 0x2_0000, 17, some 2⟩ = true)
    ∧ (∃ r, crowded.region 4 6 0 0 = .ok (r, crowded) ∧ queued.region 4 6 0 0 = .ok (r, queued) ∧ keyed.region 4 6 0 0 = .ok (r, keyed)) :=
  ⟨by decide +kernel, ⟨rfl, by decide +kernel⟩, _, region_of rfl, region_of rfl, region_of rfl⟩
/-- Entries of one region, by state and owner; each ring has no request waiting. -/
theorem witness_KeyringRows_entries :
    (let s := ring [entry .owned (agent 1) noAgent []]
     ∃ r e, s.region 4 6 0 0 = .ok (r, s) ∧ s.overlapping 0 r.space r.base r.size = [e] ∧ e.owner ≠ s.h.agent ∧ e.state = .owned ∧ s.elsewhere r ≠ 5)
    ∧ (let s := ring [entry .home noAgent noAgent []]
       ∃ r e, s.region 4 6 0 0 = .ok (r, s) ∧ s.overlapping 0 r.space r.base r.size = [e] ∧ e.base = r.base ∧ e.size = r.size ∧ e.state = .home
        ∧ s.requestHeld (s.waiter r) 0 r = false ∧ s.entryOf 0 r.space r.base r.size = some e ∧ s.h.mode = .s)
    ∧ (let s := ring [entry .owned (agent 0) noAgent []]
       ∃ r e, s.region 4 6 0 0 = .ok (r, s) ∧ s.entryOf 0 r.space r.base r.size = some e ∧ s.overlapping 0 r.space r.base r.size = [e] ∧ e.base = r.base ∧ e.size = r.size
        ∧ e.state = .owned ∧ e.owner = s.h.agent ∧ s.requestHeld (s.waiter r) 0 r = false ∧ s.upperDie r = .ok (some 0, s) ∧ 16 < r.size ∧ s.ringUsed 0 < 32768)
    ∧ (∃ s : State, ∃ r l h, s.region 4 6 0 0 = .ok (r, s) ∧ s.upperDie r = .ok (some 0, s) ∧ s.entryOf 0 r.space r.base (r.size - 1) = some l
      ∧ s.entryOf 0 r.space (r.base + 2 ^ (r.size - 1)) (r.size - 1) = some h ∧ l.state = .owned ∧ h.state = .owned ∧ l.owner = s.h.agent ∧ h.owner = s.h.agent ∧ l.lender = h.lender
      ∧ s.requestHeld (s.waiter r) 0 r = false)
    ∧ (let s := ring [entry .orphaned noAgent noAgent []]
       ∃ r e, s.region 4 6 0 0 = .ok (r, s) ∧ s.overlapping 0 r.space r.base r.size = [e] ∧ s.entryOf 0 r.space r.base r.size = some e ∧ s.h.mode = .s ∧ e.state = .orphaned
        ∧ s.requestHeld (s.waiter r) 0 r = false ∧ ((s.x 7).extractLsb' 0 32 ≠ noAgent ∧ s.liveAgent s.h.kctx none ((s.x 7).extractLsb' 0 32) = true)
        ∧ (({ s with h := { s.h with xs := s.h.xs.set 7 0xFFFF_FFFF } } : State).x 7).extractLsb' 0 32 = noAgent)
    ∧ (∃ e, (ring [entry .owned (agent 0) noAgent []]).homeDie 0 0x2_0000 = .ok (some 2, false, ring [entry .owned (agent 0) noAgent []]) ∧ keyed.entryAt 0 0 0x2_0000 = none
      ∧ (ring [entry .owned (agent 0) noAgent []]).entryAt 0 0 0x2_0000 = some e ∧ e.size < 64 ∧ e.shares.length < 64) := by
  refine ⟨⟨_, entry .owned (agent 1) noAgent [], region_of rfl, rfl, agents_differ.1, rfl, (by decide : (0 : Nat) ≠ 5)⟩,
    ⟨_, entry .home noAgent noAgent [], region_of rfl, rfl, rfl, rfl, rfl, rfl, rfl, rfl⟩,
    ⟨_, entry .owned (agent 0) noAgent [], region_of rfl, rfl, rfl, rfl, rfl, rfl, rfl, rfl, upper_of rfl, by decide, by decide +kernel⟩,
    ⟨ring [{ entry .owned (agent 0) noAgent [] with size := 16 }, { entry .owned (agent 0) noAgent [] with base := 0x3_0000, size := 16, die := 0 }], _,
      { entry .owned (agent 0) noAgent [] with size := 16 }, { entry .owned (agent 0) noAgent [] with base := 0x3_0000, size := 16, die := 0 }, region_of rfl, upper_of rfl, rfl, rfl, rfl, rfl, rfl, rfl,
      rfl, rfl⟩,
    ⟨_, entry .orphaned noAgent noAgent [], region_of rfl, rfl, rfl, rfl, rfl, rfl, ⟨?_, ?_⟩, ?_⟩,
    ⟨entry .owned (agent 0) noAgent [], rfl, rfl, rfl, by decide +kernel, by decide +kernel⟩⟩
  · rw [names_hart1]; exact agents_differ.2.1
  · rw [names_hart1]; exact hart1_lives _ none (.inl rfl)
  · exact congrArg (BitVec.extractLsb' 0 32) (by decide +kernel : ({ keyed with h := { keyed.h with xs := keyed.h.xs.set 7 0xFFFF_FFFF } } : State).x 7 = 0xFFFF_FFFF)
/-- Another node's controller holds a part of a region in a global space, when it says so. -/
theorem witness_KeyringRows_elsewhere (n : Nat) (h : Config.remoteAnswer keyed.tick % 3 = n) (hn : n = 1 ∨ n = 2) : keyed.elsewhere ⟨1, 0x2_0000, 17, some 2⟩ ≠ 0 := by
  have e : keyed.elsewhere ⟨1, 0x2_0000, 17, some 2⟩ = ([0, 1, 5] : List Nat).getD (Config.remoteAnswer keyed.tick % 3) 0 := rfl
  rw [e, h]
  rcases hn with rfl | rfl <;> decide

/-- Space 1 as as1; it is one page, which the tables give another node while the core holds it as one of this node (R92): a region that covers an offset there has its base on
that node, and `kquery` asks of it. -/
def abroadHart : State := hart user fun h => { h with as := h.as.set 1 1 }
def abroad (nd : Byte) (lost : List (BitVec 16)) : State :=
  { abroadHart with
    mem := [(0, 1), (1, 0x80), (8, 1), (9, 0x80), (0x40_0000_1000, 3)] ++ (if nd = 0 then [] else [(0x40_0000_1006, nd)]) ++ [(0x80_0000_0000, 1), (0x80_0000_0002, 1)]
    unreachable := lost
    core := { base.core with tlb := [⟨0, 1, 0, 2 ^ 40, Config.nodeId, 0, false, false⟩] } }
theorem abroad_walk {nd : Byte} (hn : nd = 0 ∨ nd = 1) (hne : nd.setWidth 16 ≠ Config.nodeId) {off : Nat} (ho : off < 4096) {u : List (BitVec 16)} :
    (abroad nd u).walk user.h.acc 1 off [] = .ok (⟨0, 1, 0, 2 ^ 40, nd.setWidth 16, 0, false, false⟩, [⟨0, 1, 1, 0, 0x1_0000⟩, ⟨0, 1, 0, 0, 0x8000⟩]) := by
  have d0 : off / pageSize 0 = 0 := Nat.div_eq_of_lt (Nat.lt_trans ho (by decide))
  have d1 : off / pageSize (0 + 1) = 0 := Nat.div_eq_of_lt (Nat.lt_trans ho (by decide))
  have rd : (abroad nd u).physRead 8 = .ok 0x8001 ∧ (abroad nd u).physRead 0x8000 = .ok 0x1_0001 ∧ (abroad nd u).physRead 0x1_0000 = .ok ((nd.setWidth 16 : BitVec 16) ++ (3 : BitVec 48)) := by
    have hp (p : Nat) : (abroad nd u).physRead p = (abroad nd []).physRead p := rfl
    rw [hp, hp, hp]
    rcases hn with rfl | rfl <;> decide +kernel
  have i0 : (abroad nd u).physRead (0x8000 + off / pageSize 0 % 4096 * 8) = .ok 0x1_0001 := by rw [d0]; exact rd.2.1
  have i1 : (abroad nd u).physRead (0x1_0000 + off / pageSize (0 + 1) % 4096 * 8) = .ok ((nd.setWidth 16 : BitVec 16) ++ (3 : BitVec 48)) := by rw [d1]; exact rd.2.2
  have fields : ((nd.setWidth 16 : BitVec 16) ++ (3 : BitVec 48)).extractLsb' 48 16 = nd.setWidth 16 := by rcases hn with rfl | rfl <;> decide +kernel
  have ok : leafOk ((nd.setWidth 16 : BitVec 16) ++ (3 : BitVec 48)) (pageSize 1) = true := by
    simp only [leafOk, fields, if_neg hne]
    rcases hn with rfl | rfl <;> decide +kernel
  have one (cached : Nat → Option Nat) (hc : ∀ l, cached l = none) (seen : List WalkEntry) : (abroad nd u).walkFrom 0 1 off cached 4 0 0x8000 seen
      = .ok (⟨0, 1, 0, 2 ^ 40, nd.setWidth 16, 0, false, false⟩, ⟨0, 1, 1, 0, 0x1_0000⟩ :: seen) := by
    rw [walk_down (hc 0) i0 (by decide) (by decide) (by decide +kernel), show ((0x1_0001 : Word).extractLsb' 15 29).toNat * 2 ^ 15 = 0x1_0000 by decide +kernel,
      walk_leaf (hc _) i1 (by rcases hn with rfl | rfl <;> decide +kernel) (by decide) ok, d0, d1, fields]
    rcases hn with rfl | rfl <;> rfl
  have hs : (abroad nd u).physRead (user.h.acc.ptbase.toNat * 2 ^ 15 + (1 : BitVec 16).toNat * 8) = .ok 0x8001 := rd.1
  have sp : spaceEntryOk 0x8001 = true := by decide +kernel
  unfold State.walk
  simp only [List.find?_nil, Option.map_none, hs, sp, if_true, show ((0x8001 : Word).extractLsb' 15 29).toNat * 2 ^ 15 = 0x8000 by decide +kernel]
  exact one _ (fun _ => rfl) _
theorem abroad_entry {nd : Byte} (hn : nd = 0 ∨ nd = 1) (hne : nd.setWidth 16 ≠ Config.nodeId) (hr : (Config.remoteRegion 1 0x40 user.h.acc.agent.toNat 0).2 % 4 = 2) :
    ∃ size, size < 64 ∧ ∀ u, (abroad nd u).foreignEntry user.h.acc 1 0x40 = some (0, size, 2, nd.setWidth 16) := by
  have hno (u : List (BitVec 16)) : (abroad nd u).nodeOf user.h.acc 1 0 = some (nd.setWidth 16) := by rw [State.nodeOf, abroad_walk hn hne (by decide)]
  obtain ⟨size, hsize⟩ : ∃ n, n = 16 + (Config.remoteRegion 1 0x40 user.h.acc.agent.toNat 0).1 % 25 := ⟨_, rfl⟩
  have hbase : 0x40 / 2 ^ size * 2 ^ size = 0 := by
    rw [hsize, Nat.div_eq_of_lt (Nat.lt_of_lt_of_le (by decide : 0x40 < 2 ^ 16) (Nat.pow_le_pow_right (by decide) (by omega))), Nat.zero_mul]
  have h0 : (1 : BitVec 16).toNat = 1 := rfl
  have h1 (u : List (BitVec 16)) : (abroad nd u).tick = 0 := rfl
  have h3 : (nd.setWidth 16 != Config.nodeId) = true := bne_iff_ne.mpr hne
  have hspan (u : List (BitVec 16)) : (abroad nd u).foreignSpan user.h.acc 1 0x40 = (0, size) := by
    have h2 : (abroad nd u).overlapping user.h.acc.ctx 1 0 size = [] := rfl
    simp only [State.foreignSpan, h0, h1, ← hsize, hbase, hno u, h3, h2, List.isEmpty_nil, Bool.and_self, if_true]
  refine ⟨size, by omega, fun u => ?_⟩
  unfold State.foreignEntry
  simp only [hspan u, hno u, h0, h1, hr, hne]
  simp
theorem abroad_translate {nd : Byte} (hn : nd = 0 ∨ nd = 1) (hne : nd.setWidth 16 ≠ Config.nodeId) (hc : Config.cacheForgets 1 = false) :
    (abroad nd []).translate user.h.acc 1 0x40 = .ok (⟨0, 1, 0, 2 ^ 40, Config.nodeId, 0, false, false⟩, abroad nd []) := by
  have hk : Config.cacheForgets (4 * (abroad nd []).tick + 1) = false := hc
  have hfnd : (abroad nd []).core.tlb.find? (fun e => e.ctx == user.h.acc.ctx && e.space == 1 && 0x40 / e.size == e.page)
      = some ⟨0, 1, 0, 2 ^ 40, Config.nodeId, 0, false, false⟩ := rfl
  have hd : some (⟨0, 1, 0, 2 ^ 40, nd.setWidth 16, 0, false, false⟩ : TlbEntry) ≠ some ⟨0, 1, 0, 2 ^ 40, Config.nodeId, 0, false, false⟩ := fun e => hne (by injection e with e; injection e)
  unfold State.translate
  simp only [abroad_walk hn hne (show 0x40 < 4096 by decide), hfnd, hk, Except.toOption, Option.map_some, if_neg hd, Bool.false_eq_true, if_false]
theorem witness_KeyringRows_abroad (hc : Config.cacheForgets 1 = false) (hr : (Config.remoteRegion 1 0x40 user.h.acc.agent.toNat 0).2 % 4 = 2) :
    ∃ (s : State) (nd : BitVec 16) (b size r : Nat) (die : Nat),
      s.homeDie 1 0x40 = .ok (some die, false, s) ∧ s.entryAt s.h.kctx 1 0x40 = none ∧ s.foreignEntry s.h.acc 1 0x40 = some (b, size, r, nd) ∧ size < 64 ∧ r < 4
        ∧ nd ∉ s.unreachable ∧ s.h.mode ≠ .d ∧ s.h.space 1 = 1
        ∧ ∃ v : State, v.foreignEntry v.h.acc 1 0x40 = some (b, size, r, nd) ∧ nd ∈ v.unreachable ∧ v.trapsToS 0x08 := by
  obtain ⟨nd, hn, hne⟩ : ∃ nd : Byte, (nd = 0 ∨ nd = 1) ∧ nd.setWidth 16 ≠ Config.nodeId := by
    by_cases h : ((0 : Byte).setWidth 16 : BitVec 16) = Config.nodeId
    · exact ⟨1, .inr rfl, fun e => by rw [← h] at e; revert e; decide⟩
    · exact ⟨0, .inl rfl, h⟩
  obtain ⟨size, hs, hf⟩ := abroad_entry hn hne hr
  have ha (u : List (BitVec 16)) : (abroad nd u).h.acc = user.h.acc := rfl
  have hd : (abroad nd []).homeDie 1 0x40 = .ok (some 0, false, abroad nd []) := by
    have hb : user.h.acc.bare = false := rfl
    have hk : physKey (0 + 0x40 % 2 ^ 40) = some 0x40 := frame_of (by decide)
    have h0 : stackDie (keyStack 0x40) = 0 := by decide +kernel
    simp only [State.homeDie, ha, hb, abroad_translate hn hne hc, hk, h0, false_and, if_false, ne_eq, not_true, Bool.false_eq_true, Bool.or_self]
  refine ⟨abroad nd [], nd.setWidth 16, 0, size, 2, 0, hd, rfl, ?_, hs, by decide, List.not_mem_nil (a := nd.setWidth 16), (by decide : Mode.u ≠ .d), rfl,
    abroad nd [nd.setWidth 16], ?_, List.mem_singleton.mpr rfl, trapsToS_hart (s := abroadHart) rfl (trapsToS_of (by decide +kernel))⟩
  · rw [ha]; exact hf []
  · rw [ha]; exact hf _

/-- An unlent region that its owner lends or shares; the same region lent, which goes back; a shared one whose holder leaves; and one whose transfer waits for a write. A dirty
line of the region stands in the L1. -/
theorem witness_KeyTransfersMoveOwnership :
    (∃ s : State, ∃ r e, s.region 4 6 0 0 = .ok (r, s) ∧ r.die = some 2 ∧ s.entryOf s.h.kctx r.space r.base r.size = some e ∧ s.keyQueue = [] ∧ s.requestHeld (s.waiter r) s.h.kctx r = false
      ∧ (∀ l ∈ s.core.l1, l.dirty = true → l.bad = false) ∧ s.keyWaits r.space r.base r.size = false
      ∧ e.state = .owned ∧ e.owner = s.h.agent ∧ e.lender = noAgent ∧ (s.x 7).extractLsb' 0 32 ≠ s.h.agent ∧ (s.x 7).extractLsb' 0 32 ≠ noAgent
      ∧ s.liveAgent s.h.kctx (some s.h.taskid) ((s.x 7).extractLsb' 0 32) = true ∧ (s.x 7).extractLsb' 0 32 ∉ e.shares ∧ e.shares.length < 63 ∧ s.sharesUsed e.die < 16384)
    ∧ (∃ s : State, ∃ r e, s.region 4 6 0 0 = .ok (r, s) ∧ s.entryOf s.h.kctx r.space r.base r.size = some e ∧ s.keyQueue = [] ∧ s.requestHeld (s.waiter r) s.h.kctx r = false
      ∧ (∀ l ∈ s.core.l1, l.dirty = true → l.bad = false) ∧ (∃ l ∈ s.core.l1, l.ctx = s.h.kctx ∧ l.space = r.space ∧ inRegion r.base r.size l.off = true ∧ l.dirty = true ∧ l.node = none)
      ∧ s.frames = [] ∧ s.poison = [] ∧ s.mem.wf = true ∧ s.keyWaits r.space r.base r.size = false ∧ e.state = .owned ∧ e.owner = s.h.agent ∧ e.lender ≠ noAgent)
    ∧ (∃ s : State, ∃ r e, s.region 4 6 0 0 = .ok (r, s) ∧ s.entryOf s.h.kctx r.space r.base r.size = some e ∧ s.keyQueue = [] ∧ s.requestHeld (s.waiter r) s.h.kctx r = false
      ∧ s.core.l1 = [] ∧ e.state = .shared ∧ s.h.agent ∈ e.shares)
    ∧ (∃ s : State, ∃ r e, s.region 4 6 0 0 = .ok (r, s) ∧ s.entryOf s.h.kctx r.space r.base r.size = some e ∧ s.keyQueue = [] ∧ s.requestHeld (s.waiter r) s.h.kctx r = false
      ∧ s.core.l1 = [] ∧ e.state = .owned ∧ e.owner = s.h.agent ∧ s.keyWaits r.space r.base r.size = true) := by
  let line : L1Line := ⟨0, 0, 0x2_0000, 4096, 64, none, agent 0, true, false, 5⟩
  refine ⟨⟨ring [entry .owned (agent 0) noAgent []], _, entry .owned (agent 0) noAgent [], region_of rfl, rfl, rfl, rfl, rfl, (fun _ h => nomatch h), by decide +kernel,
      rfl, rfl, rfl, ?_, ?_, ?_, (fun h => nomatch h), by decide +kernel, by decide +kernel⟩,
    ⟨{ ring [entry .owned (agent 0) (agent 1) []] with core := { keyed.core with l1 := [line] } }, ⟨0, 0x2_0000, 17, some 2⟩, entry .owned (agent 0) (agent 1) [], region_of rfl, rfl, rfl, rfl, ?_,
      ⟨line, .head _, rfl, rfl, by decide, rfl, rfl⟩, rfl, rfl, rfl, rfl, rfl, rfl, agents_differ.2.1⟩,
    ⟨ring [entry .shared (agent 1) noAgent [agent 0]], _, entry .shared (agent 1) noAgent [agent 0], region_of rfl, rfl, rfl, rfl, rfl, rfl, .head _⟩,
    ⟨held [entry .owned (agent 0) noAgent []], _, entry .owned (agent 0) noAgent [], region_of rfl, rfl, rfl, rfl, rfl, rfl, rfl, by decide +kernel⟩⟩
  · rw [names_hart1]; exact agents_differ.1
  · rw [names_hart1]; exact agents_differ.2.1
  · rw [names_hart1]; exact hart1_lives _ _ (.inr rfl)
  · intro l hl _
    obtain rfl : l = line := List.mem_singleton.mp hl
    rfl

/-- `kacq` of a free region answers 0 and makes its entry; its page must be aligned to its size (R119). -/
theorem test_kacq_takes_a_free_region : (match exec (.kacq 9 4 6 0 0) keyed with | .next t => decide (t.x 9 = 0 ∧ t.keyring.map (·.base) = [0x2_0000]) | _ => false) = true := by decide +kernel

/-! Commands, harts and traps. -/

/-- One row of 32 bytes from x4 to the group at x8; x5 a control word that casts to core 0, x7 names the operands of an `ecopyc`. -/
def copying : State := regs base [(4, 0x2_0000), (5, 2 ^ 50), (7, 4), (8, 0x100), (9, 2 ^ 40 + 2 ^ 20 + 32)]
/-- No ticket of the hart is free. -/
def ticketless (s : State) : State := hart s fun h => { h with tickets := Vector.replicate 16 ⟨.busy, 0, 0, 0, 0, 0⟩ }

theorem copyReady_of {s : State} {c : Command} {w shape : Word} (h : s.h.mode ≠ .d
    ∧ (w.extractLsb' 48 2 = 0 ∧ if c.kind = 2 then w.extractLsb' 62 2 = 0 ∧ w.extractLsb' 50 8 ≠ 0 ∧ w.extractLsb' 0 48 = 0
      else w.extractLsb' 50 9 = 0 ∧ (c.kind = 0 → w.extractLsb' 0 48 = 0))
    ∧ (c.l0 = 32 ∧ c.n1 = 1 ∧ c.n2 = 1 ∧ shape.extractLsb' 60 4 = 0) ∧ (c.sspace.toNat < 0xFF00 ∧ (c.dspace.toNat < 0xFF00 ∨ c.kind = 2 ∧ c.dspace = 0xFFFF))
    ∧ (c.src.toNat % 32 = 0 ∧ c.dst.toNat % 32 = 0 ∧ c.dstr1.toNat % 32 = 0 ∧ c.dstr2.toNat % 32 = 0 ∧ c.sstr2.toNat % 32 = 0 ∧ (c.kind = 0 → c.sstr1.toNat % 32 = 0))
    ∧ (c.src = 0x2_0000 ∧ c.dst = 0x100 ∧ c.srclen < 2 ^ 20) ∧ (c.kind = 2 → c.cmask = 1 ∧ s.coreNo / 8 * 8 = s.coreNo)) : s.CopyReady c w shape := by
  obtain ⟨h0, h1, h2, h3, h4, h5, h6⟩ := h
  have only {i r n m : Nat} (hi : i < n) (hr : r < m) (hn : n = 1) (hm : m = 1) : i = 0 ∧ r = 0 := by omega
  refine { mode := h0, control := h1, shape := ⟨by omega, by omega, by omega, h2.2.2.2, fun _ => by rw [h2.2.1, h2.2.2.1]; decide⟩, spaces := ?_, aligned := ⟨by omega, h4⟩
           sources := ?_, dests := ?_, cast := ?_ }
  · rintro sp (rfl | rfl)
    · exact .inl h3.1
    · exact h3.2.imp id And.right
  · intro i r hi hr
    obtain ⟨rfl, rfl⟩ := only hi hr h2.2.1 h2.2.2.1
    have hs : c.sspace ≠ 0xFFFF := fun h => absurd (h ▸ h3.1) (by decide)
    have ht : (0x2_0000 : Word).toNat = 0x2_0000 := by decide
    simp only [h5.1, h2.1, Nat.cast_zero, zero_mul, add_zero, ht]
    split <;> exact .inr ⟨by omega, by omega, fun h => absurd h hs⟩
  · intro i r hi hr
    obtain ⟨rfl, rfl⟩ := only hi hr h2.2.1 h2.2.2.1
    have ht : (0x100 : Word).toNat = 0x100 := by decide
    simp only [h5.2.1, h2.1, Nat.cast_zero, zero_mul, add_zero, ht]
    split
    · omega
    · refine .inr ⟨by omega, by omega, fun h => ?_⟩
      rcases h3.2 with hd | hd
      · exact absurd (h ▸ hd) (by decide)
      · exact absurd hd.1 ‹_›
  · intro hk i hi hb
    rw [(h6 hk).1] at hb
    obtain rfl : i = 0 := by
      by_contra hne
      simp [hne] at hb
    rw [Nat.add_zero, (h6 hk).2, State.gangOnCore, beq_self_eq_true]
    rfl

/-- The same with a base past 2^64. -/
def wrapping : State := regs copying [(4, 2 ^ 64 - 0x1_0000)]
theorem witness_CopyCommandsIssue :
    (∀ p ∈ [((0 : BitVec 4), (0 : XReg)), (2, 5), (3, 0)], copying.CopyReady (copying.copyCommand p.1 4 p.2 8 0 0) (copying.x p.2) (copying.x (8 + BitVec.ofNat 5 1))
      ∧ wrapping.CopyReady (wrapping.copyCommand p.1 4 p.2 8 0 0x3_0000) (wrapping.x p.2) (wrapping.x (8 + BitVec.ofNat 5 1)))
    ∧ wrapping.trapsToS 0x08 ∧ copying.unclaimed [] [0] ∧ copying.unclaimed [3] [] ∧ copying.roomFor (linksFor 3 4)
    ∧ 2 ^ 64 ≤ ((wrapping.x 4).toNat : Int) + (0x3_0000 : BitVec 20).toInt ∧ copying.h.freeTicket = some 0 ∧ (ticketless copying).h.freeTicket = none
    ∧ copying.h.mode ≠ .d ∧ (copying.x 7).toNat ≤ copying.vlmax ∧ (copying.h.space 0).toNat < 0xFF00 ∧ (copying.x 4 + sext (0 : BitVec 16)).toNat % 4 = 0
      ∧ (copying.x 0).toNat % 4 = 0 ∧ copying.core.tidy = true := by
  refine ⟨?_, trapsToS_of (by decide +kernel), by unfold State.unclaimed; decide +kernel, by unfold State.unclaimed; decide +kernel, room_of (by decide +kernel), by decide +kernel⟩
  simp only [List.forall_mem_cons, List.not_mem_nil, false_implies, implies_true, and_true]
  exact ⟨⟨copyReady_of (by decide +kernel), copyReady_of (by decide +kernel)⟩, ⟨copyReady_of (by decide +kernel), copyReady_of (by decide +kernel)⟩, copyReady_of (by decide +kernel), copyReady_of (by decide +kernel)⟩

/-- Ticket 1 is DONE with 3 rows, ticket 2 FAULTED, ticket 3 BUSY; x4 to x6 name one each, x7 is 1. -/
def ticketed : State := regs (hart base fun h => { h with tickets := (((h.tickets.set 1 ⟨.done, 0, 1, 0, 3, 0⟩).set 2 ⟨.faulted, 9, 0, 0, 0, 0x40⟩).set 3 ⟨.busy, 0, 0, 0, 0, 0⟩) })
  [(4, 2), (5, 4), (6, 8), (7, 1)]
theorem witness_TicketReports : ticketed.h.mode ≠ .d ∧ ticketed.trapsToS 0x30
    ∧ (∀ k, k < 16 → (ticketed.x 4).getLsbD k = true → (ticketed.h.ticket k).state = .done)
    ∧ (∀ k, k < 16 → (ticketed.x 5).getLsbD k = true → (ticketed.h.ticket k).state = .faulted ∧ k = 2)
    ∧ ((ticketed.x 6).getLsbD 16 = false ∧ (ticketed.x 6).getLsbD 3 = true ∧ (ticketed.h.ticket 3).state = .busy)
    ∧ (let k := (ticketed.x 7).toNat; k < 16 ∧ (ticketed.h.ticket k).target < 8 ∧ (ticketed.h.ticket k).rows < 2 ^ 32) :=
  ⟨by decide +kernel, trapsToS_of (by decide +kernel), by decide +kernel, by decide +kernel, by decide +kernel, by decide +kernel⟩
/-- A hart at an `ewait` on a BUSY ticket, behind a `vst` that waits for the elements of an `ecopyc`. -/
def feeding : State := hart ticketed fun h => { h with
  pc := 0x1008, convoy := some { Convoy.empty 0x1000 with words := [.vst 1 0 5 0 0 3 0, .ewait 5 6], entries := [⟨.stopped, 0, 0, 0, 0, 0, none, [], [], true, []⟩] } }
theorem witness_TicketReports_feeding : feeding.h.mode ≠ .d ∧ (feeding.x 6).getLsbD 16 = false ∧ (feeding.x 6).getLsbD 3 = true ∧ (feeding.h.ticket 3).state = .busy
    ∧ ∃ e ∈ feeding.cv.entries, e.fill = true := by decide +kernel
/-- `estat` with 2 reports the word of Table 07-6 and frees the ticket. -/
theorem test_estat_frees : (match exec (.estat 9 7 2) ticketed with
    | .next t => decide (t.x 9 = 0x8000_1000_0000_0003 ∧ (t.h.ticket 1).state = .free) | _ => false) = true := by decide +kernel

/-- A predicate word for four i32 elements at x4, two rank words at 0x100. -/
def selecting : State := regs base [(4, 0x2_0000), (5, 0x30_0000_0004), (8, 0x100), (9, 2)]
theorem witness_SelectionCommandsIssue :
    (let w := selecting.x 5; selecting.h.mode ≠ .d ∧ w.extractLsb' 44 20 = 0 ∧ w.extractLsb' 32 4 = 0 ∧ w.extractLsb' 36 4 = 3 ∧ (w.extractLsb' 40 4).toNat < 10)
    ∧ (selecting.x (8 + BitVec.ofNat 5 1)).toNat = 2 ∧ (selecting.h.space 0).toNat < 0xFF00 ∧ (selecting.x 4 + sext (0 : BitVec 20)).toNat = 0x2_0000
    ∧ (selecting.x (8 + BitVec.ofNat 5 0)).toNat = 0x100 ∧ selecting.h.freeTicket = some 0 ∧ (∀ st, st < 12 → (selecting.engineQueue st).length < 32)
    ∧ (ticketless selecting).h.freeTicket = none := by decide +kernel

theorem witness_LaneGrantsYieldAndExit :
    let s := regs base [(4, 4), (5, 9)]
    let t := hart s fun h => { h with tip := true }
    s.h.mode ≠ .d ∧ (s.x 4).toNat ≤ 8 ∧ 0 < (s.x 4).toNat ∧ s.h.st ≠ .free ∧ (∀ i, i < 8 → i ≠ s.slotNo → (s.hartAt (8 * s.coreNo + i)).st = .free)
      ∧ (∀ g : Fin 8, s.core.lanes[g] = none ∨ s.core.lanes[g] = some s.slotNo) ∧ s.h.wait = .none ∧ s.h.st = .running ∧ ((s.x 0).extractLsb' 0 20).toNat = 0
      ∧ ((s.x 5).extractLsb' 0 20).toNat ≠ 0 ∧ s.h.hip = false ∧ s.h.tip = false ∧ t.h.tip = true ∧ t.h.wait = .none
      ∧ 0 < min (min (s.x 4).toNat (({ s with h := { s.h with req := (s.x 4).toNat } } : State).entOf s.cur)) ((s.lanesOf s.cur).length + s.core.freeLanes.length) := by decide +kernel
/-- A hart that waits at `setvl` for two groups, beside the one that gives up all eight. -/
def claiming : State :=
  let g : Hart := { base.h with hartid := 1, st := .waiting, req := 2, convoy := some { Convoy.empty 0x1000 with words := [.setvl 5 4 4] } }
  { base with harts := [(1, g)] }
theorem witness_LaneGrantsYieldAndExit_claims : claiming.h.st = .running ∧ (claiming.claims 1 = true ∧ 1 / 8 = claiming.coreNo ∧ 0 < (claiming.hartAt 1).req)
    ∧ ∀ o, o / 8 = claiming.coreNo → o ≠ 1 → claiming.claims o = false := by
  refine ⟨by decide +kernel, by decide +kernel, fun o ho hn => ?_⟩
  have hc : claiming.coreNo = 0 := by decide +kernel
  have h8 : ∀ o, o < 8 → o ≠ 1 → claiming.claims o = false := by decide +kernel
  exact h8 o (by omega) hn
/-- `setvl` gives VLMAX of the grant when more is asked for (R331). -/
theorem test_setvl : (match exec (.setvl 9 1 4) (regs base [(1, 100000), (4, 4)]) with | .next t => decide (t.x 9 = 4096 ∧ t.vgrant = 4) | _ => false) = true := by decide +kernel

/-- Queue 3 takes device launches of context 0 and has four slots, queue 4 is full. -/
def launching : State := { regs (sup base) [(4, 0x2_0000), (5, 3), (6, 4), (7, 63)] with
  queues := [(3, ⟨0x800, 2, false, true, true, 0, 0, 0⟩), (4, ⟨0x800, 2, false, true, true, 0, 0, 4⟩)] }
noncomputable def packetRead (s : State) : Except Trap (List Byte × State) :=
  ((s.packetCheck { s.h.acc with bypass := true } (s.h.space 0) (· == 0x09) 0x2_0000 16).bind fun t => t.packetCheck t.h.acc (s.h.space 0) (fun _ => false) 0x2_0000 16).bind
    fun t => t.readPacket (s.h.space 0) 0x2_0000 16
theorem witness_LaunchPushesAPacket : launching.h.mode ≠ .d ∧ (launching.x 4 + sext (0 : BitVec 20)).toNat = 0x2_0000 ∧ (launching.x 5).toNat = 3 ∧ (launching.x 6).toNat = 4 ∧ (launching.x 7).toNat = 63
    ∧ (0x2_0000 : Nat) % 8 = 0 ∧ ∃ bytes s1, packetRead launching = .ok (bytes, s1)
      ∧ (ofBytes bytes / 2 ^ 64 % 2 ^ 16 = 0 ∧ s1.h.kctx = 0 ∧ s1.pend = [] ∧ s1.frames = [] ∧ s1.poison = [] ∧ s1.mem.wf = true)
      ∧ s1.queue 3 = ⟨0x800, 2, false, true, true, 0, 0, 0⟩ ∧ s1.queue 4 = ⟨0x800, 2, false, true, true, 0, 0, 4⟩ ∧ (s1.queue 63).en = false
      ∧ (physKey (0x800 * 128)).isSome = true := by
  have h : okAnd (packetRead launching) (fun a => decide ((ofBytes a.1 / 2 ^ 64 % 2 ^ 16 = 0 ∧ a.2.h.kctx = 0 ∧ a.2.pend = [] ∧ a.2.frames = []
      ∧ a.2.poison = [] ∧ a.2.mem.wf = true) ∧ a.2.queue 3 = ⟨0x800, 2, false, true, true, 0, 0, 0⟩ ∧ a.2.queue 4 = ⟨0x800, 2, false, true, true, 0, 0, 4⟩ ∧ (a.2.queue 63).en = false
      ∧ (physKey (0x800 * 128)).isSome = true)) = true := by decide +kernel
  obtain ⟨⟨b, s1⟩, h1, h2⟩ := ok_of h
  exact ⟨by decide +kernel, by decide +kernel, by decide +kernel, by decide +kernel, by decide +kernel, by decide, b, s1, h1, of_decide_eq_true (p := _ ∧ _) h2⟩

theorem scalar_of {s : State} (h : (s.cv.words[s.pos]?).all (fun i => !isV i) = true) : ∀ i, s.cv.words[s.pos]? = some i → isV i = false := by
  intro i hi
  rw [hi] at h
  simpa using h

/-- The hart in a convoy of two words at 0x1000, the first done, about to run the second; its trap record is not copied. -/
def mid (i : Instr) (s : State) : State :=
  hart s fun h => { h with tresOff := 127, pc := 0x1008, convoy := some { Convoy.empty 0x1000 with words := [.addi 5 0 1, i], done := 1 } }
/-- A record with one word, not done. -/
def undone : Convoy := { Convoy.empty 0x1000 with words := [.vadd 1 2 3 5 0 false 0 false] }
theorem witness_TrapsEnterTheSupervisor :
    (∀ p ∈ [(Instr.ecall 5, (0x10 : BitVec 8)), (.ebreak 5, 0x11)], (mid p.1 base).trapsToS p.2 ∧ (∀ i, (mid p.1 base).cv.words[(mid p.1 base).pos]? = some i → isV i = false)
      ∧ (mid p.1 (sup base)).h.mode = .s ∧ (mid p.1 (sup base)).cv.entries = [] ∧ (mid p.1 (sup base)).core.failed = false)
    ∧ (let s := mid (.hsave 5 4) (handler base)
       s.trapsToS 0x01 ∧ s.trapsToS 0x06 ∧ (∀ i, s.cv.words[s.pos]? = some i → isV i = false) ∧ s.h.mode = .d ∧ s.h.cmds = [] ∧ (Instr.gbarin).wf = true)
    ∧ (let s := mid (.cfree 2) (hart (handler base) fun h => { h with pfr := some undone })
       s.h.mode = .d ∧ s.trapsToS 0x06 ∧ s.h.pfr = some undone ∧ undone.words[0]? = some (.vadd 1 2 3 5 0 false 0 false) ∧ undone.done.getLsbD 0 = false
        ∧ (2 : VReg) ∈ (uses (.vadd 1 2 3 5 0 false 0 false)).vr)
    ∧ ((mid .trapret base).h.mode = .u ∧ (mid .trapret base).trapsToS 0x01 ∧ ∀ i, (mid .trapret base).cv.words[(mid .trapret base).pos]? = some i → isV i = false) := by
  simp only [List.forall_mem_cons, List.not_mem_nil, false_implies, implies_true, and_true]
  exact ⟨⟨⟨trapsToS_of (by decide +kernel), scalar_of (by decide +kernel), by decide +kernel⟩, trapsToS_of (by decide +kernel), scalar_of (by decide +kernel), by decide +kernel⟩,
    ⟨trapsToS_of (by decide +kernel), trapsToS_of (by decide +kernel), scalar_of (by decide +kernel), by decide +kernel⟩,
    ⟨rfl, trapsToS_of (by decide +kernel), rfl, rfl, rfl, by decide +kernel⟩,
    by decide +kernel, trapsToS_of (by decide +kernel), scalar_of (by decide +kernel)⟩
/-- `ecall` completes and enters mode S at tvec (R341, R353). -/
theorem test_ecall : (match exec (.ecall 5) (mid (.ecall 5) base) with
    | .next t => decide (t.h.pc = 0x8000 ∧ t.h.mode = .s ∧ t.h.cause = 0x10 ∧ t.h.tval = 5 ∧ t.h.tpc = 0x1008 ∧ t.h.cword = 1 ∧ t.h.instret = 1) | _ => false) = true := by decide +kernel

/-- A record of a convoy whose first word is done. -/
def record : Convoy := { Convoy.empty 0x1000 with words := [.addi 5 0 1, .trapret], done := 1 }
/-- The hart's handler takes pool faults, and no link is left to it; it returns to a misaligned address. -/
def poor : State := hart vec fun h => { h with pfh := 0x2001, vquota := 17 }
def crooked : State := hart (sup base) fun h => { h with tpc := 0x2004 }
theorem witness_PoolFaultsAndReturns :
    (poor.unclaimed [9, 1] [] ∧ poor.unclaimed [9] [] ∧ poor.cv.entries = [] ∧ poor.h.mode = .u ∧ poor.h.pfh.getLsbD 0 = true ∧ (greedy poor.awake).poolFits = false
      ∧ (greedy poor.awake).h.vused ≠ poor.h.vused ∧ 0 < (poor.x 6).toNat ∧ chainBytes 3 (poor.x 6).toNat ≤ 131072 ∧ poor.h.vquota.toNat < poor.h.vused + linksFor 3 (poor.x 6).toNat)
    ∧ (modeIs (sup base).h.ppriv .u ∧ (sup base).h.mode = .s ∧ (sup base).h.rr = none ∧ (sup base).h.tpc % 8 = 0)
    ∧ ((let s := hart (sup base) fun h => { h with rr := some record }; s.h.mode = .s ∧ s.h.rr = some record)
      ∧ let s := hart (handler base) fun h => { h with pfr := some record }; s.h.mode = .d ∧ s.h.pfr = some record)
    ∧ ((¬ (record.done.getLsbD 1 = true ∨ ∃ e, record.entry 1 = some e ∧ e.state = .abandoned)) ∧ ∀ q, q < 1 → record.done.getLsbD q = true)
    ∧ (modeIs crooked.h.ppriv .u ∧ crooked.h.mode = .s ∧ crooked.h.rr = none ∧ crooked.h.tpc % 8 ≠ 0 ∧ crooked.cv.entries = [])
    ∧ (record.hinge % 8 = 0 ∧ ({ record with hinge := 0x1004 } : Convoy).hinge % 8 ≠ 0) := by
  refine ⟨⟨by unfold State.unclaimed; decide +kernel, by unfold State.unclaimed; decide +kernel, by decide +kernel⟩, ⟨rfl, by decide +kernel⟩, by decide +kernel,
    ⟨fun h => ?_, by decide +kernel⟩, ⟨rfl, by decide +kernel⟩, by decide +kernel⟩
  rcases h with h | ⟨e, h, -⟩
  · exact absurd h (by decide +kernel)
  · exact nomatch (show (none : Option Entry) = some e from h)
/-- `trapret` goes back into the recorded convoy at its first word not done (R347, R352). -/
theorem test_trapret : (match exec .trapret (hart (sup base) fun h => { h with rr := some record }) with
    | .next t => decide (t.h.mode = .u ∧ t.h.pc = 0x1008 ∧ t.h.rr = none) | _ => false) = true := by decide +kernel

/-- An image of zeros, or one whose header's USED is 1, its check word, and a device whose save area holds that image. -/
def blank (u : Bool) : State := { sup base with mem := if u then [(12, 1)] else [] }
def headOf (u : Bool) : SaveHead := SaveHead.ofWords 0 (if u then 2 ^ 32 else 0) 0 0
def imageCrc (u : Bool) : BitVec 32 := crc32c ((blank u).readPhys 0 24 ++ (blank u).readPhys 32 32 ++ (headOf u).parts.flatMap fun p => (blank u).readPhys p.1 p.2)
def imaged (u : Bool) (c : BitVec 32) : State := { sup base with mem := memSetN (blank u).mem 24 (toBytes 4 c.toNat) }

theorem imaged_byte (u : Bool) (c : BitVec 32) (k : Nat) : (imaged u c).homeByte k = if 24 ≤ k ∧ k < 28 then (toBytes 4 c.toNat).getD (k - 24) 0 else (blank u).homeByte k := by
  have hr : (imaged u c).readKeyOf k = k := by simp [State.readKeyOf, imaged, sup, base, State.reset]
  have hb : (blank u).readKeyOf k = k := by simp [State.readKeyOf, blank, sup, base, State.reset]
  have hw : (blank u).mem.wf = true := by cases u <;> rfl
  rw [State.homeByte, State.homeByte, hr, hb]
  show memGet (memSetN (blank u).mem 24 (toBytes 4 c.toNat)) k = _
  simp only [toBytes, memSetN]
  rw [memGet_memSet _ _ _ _ (memSet_wf _ _ _ (memSet_wf _ _ _ (memSet_wf _ _ _ hw))), memGet_memSet _ _ _ _ (memSet_wf _ _ _ (memSet_wf _ _ _ hw)),
    memGet_memSet _ _ _ _ (memSet_wf _ _ _ hw), memGet_memSet _ _ _ _ hw]
  by_cases h : 24 ≤ k ∧ k < 28
  · have : k = 24 ∨ k = 25 ∨ k = 26 ∨ k = 27 := by omega
    rcases this with rfl | rfl | rfl | rfl <;> rfl
  · rw [if_neg (by omega), if_neg (by omega), if_neg (by omega), if_neg (by omega), if_neg h]
theorem imaged_bytes (u : Bool) (c : BitVec 32) (n : Nat) : ∀ k, k + n ≤ 24 ∨ 28 ≤ k → (imaged u c).homeRead k n = (blank u).homeRead k n := by
  induction n with
  | zero => exact fun _ _ => rfl
  | succ n ih =>
    intro k h
    rw [State.homeRead, State.homeRead, ih (k + 1) (by omega), imaged_byte, if_neg (by omega)]
/-- Blocks that are there, and lie away from the check word. -/
def clear (p n : Nat) : Bool := (blocksOf p n).all fun b => (physKey b.1).any fun k => decide (k + b.2 ≤ 24 ∨ 28 ≤ k)
theorem imaged_reads (u : Bool) (c : BitVec 32) {p n : Nat} (h : clear p n = true) : (imaged u c).readPhys p n = (blank u).readPhys p n := by
  unfold State.readPhys
  refine List.flatMap_congr fun b hb => ?_
  obtain ⟨k, hk, hc⟩ := some_of (List.all_eq_true.mp h b hb)
  rw [hk]
  exact imaged_bytes u c _ _ (of_decide_eq_true (p := _ ∨ _) hc)
theorem imaged_head (u : Bool) (c : BitVec 32) : (imaged u c).readHead 0 = headOf u := by
  have w {p : Nat} {v : Word} (h : (clear p 8 && decide ((blank false).physWord p = if p = 8 then 0 else v) && decide ((blank true).physWord p = v)) = true) :
      (imaged u c).physWord p = if p = 8 then (if u then v else 0) else v := by
    simp only [Bool.and_eq_true, decide_eq_true_eq] at h
    rw [State.physWord, imaged_reads u c h.1.1]
    cases u
    · exact h.1.2
    · rw [if_pos rfl, ite_self]; exact h.2
  rw [State.readHead, w (p := 0) (v := 0) (by decide +kernel), w (p := 0 + 8) (v := 2 ^ 32) (by decide +kernel), w (p := 0 + 16) (v := 0) (by decide +kernel),
    w (p := 0 + 32) (v := 0) (by decide +kernel)]
  rfl
theorem imaged_check (u : Bool) (c : BitVec 32) : ((imaged u c).physWord (0 + 24)).extractLsb' 0 32 = c := by
  have hb : blocksOf (0 + 24) 8 = [(24, 8)] := by decide +kernel
  have hk : physKey 24 = some 24 := by decide +kernel
  have hr : (imaged u c).physWord (0 + 24) = BitVec.ofNat 64 (ofBytes ((imaged u c).homeRead 24 8)) := by
    rw [State.physWord, State.readPhys, hb]
    simp [hk]
  have hz : (blank u).homeByte 28 = 0 ∧ (blank u).homeByte 29 = 0 ∧ (blank u).homeByte 30 = 0 ∧ (blank u).homeByte 31 = 0 := by cases u <;> decide +kernel
  have hv : ofBytes ((imaged u c).homeRead 24 8) = c.toNat := by
    simp only [State.homeRead, imaged_byte, toBytes, ofBytes]
    have := c.isLt
    simp [hz]
    omega
  rw [hr, hv]
  apply BitVec.eq_of_toNat_eq
  have := c.isLt
  simp [BitVec.extractLsb'_toNat]
  omega
theorem imaged_good (u : Bool) (c : BitVec 32) (hc : c = imageCrc u) : (imaged u c).imageGood 0 ((imaged u c).readHead 0) = true := by
  rw [imaged_head, State.imageGood, imaged_check]
  have hn (k n : Nat) : (imaged u c).poisonIn k n = none := by
    have h (i : Nat) : (imaged u c).poisoned i = false := rfl
    simp [State.poisonIn, h]
  have hs {p n : Nat} (h : clear p n = true) : (imaged u c).physSound p n = true := by
    refine List.all_eq_true.mpr fun b hb => ?_
    obtain ⟨k, hk, -⟩ := some_of (List.all_eq_true.mp h b hb)
    simp [hk, hn]
  have hall : ((headOf u).parts.all fun p => clear (0 + p.1) p.2) = true := by cases u <;> decide +kernel
  have hp : ((headOf u).parts.all fun p => (imaged u c).physSound (0 + p.1) p.2) = true :=
    List.all_eq_true.mpr fun p hm => hs (List.all_eq_true.mp hall p hm)
  have h0 : (imaged u c).physSound 0 64 = true := List.all_eq_true.mpr fun b hb => by
    have hb : b ∈ [(0, 64)] := hb
    obtain rfl := List.mem_singleton.mp hb
    have hk : physKey 0 = some 0 := by decide +kernel
    simp [hk, hn]
  have hl : ((headOf u).parts.flatMap fun p => (imaged u c).readPhys (0 + p.1) p.2) = (headOf u).parts.flatMap fun p => (blank u).readPhys p.1 p.2 :=
    List.flatMap_congr fun p hm => by rw [imaged_reads u c (List.all_eq_true.mp hall p hm), Nat.zero_add]
  rw [hp, h0, imaged_reads u c (p := 0) (n := 24) (by decide +kernel), imaged_reads u c (p := 0 + 32) (n := 32) (by decide +kernel), hl, hc, imageCrc]
  simp

/-- The hart owns nothing, and both images are good ones of its context; of the second the quota is too small. -/
theorem witness_SaveAreasHoldAHart_load (u : Bool) :
    let s := imaged u (imageCrc u)
    let h := s.readHead 0
    (s.h.mode = .s ∧ (s.x 0).toNat < 4 ∧ s.h.vused = 0 ∧ s.core.za0.holder ≠ some s.slotNo ∧ s.core.za1.holder ≠ some s.slotNo ∧ (∀ i, i < 16 → (s.h.ticket i).state = .free)
      ∧ s.h.saBase.toNat * 2 ^ 22 = 0) ∧ (s.imageGood 0 h = true ∧ h.ctx = s.h.kctx)
    ∧ (u = true → h.quota < h.used) ∧ (u = false → h.used ≤ h.quota ∧ h.used + s.core.links.length ≤ 2048 ∧ h.tile0 = false ∧ h.tile1 = false)
    ∧ (h.ctx ≠ (hart s fun g => { g with kctx := 1 }).h.kctx) := by
  intro s h
  have hh : h = headOf u := imaged_head u _
  refine ⟨(by decide +kernel : (sup base).h.mode = .s ∧ ((sup base).x 0).toNat < 4 ∧ (sup base).h.vused = 0 ∧ (sup base).core.za0.holder ≠ some (sup base).slotNo ∧ (sup base).core.za1.holder ≠ some (sup base).slotNo
      ∧ (∀ i, i < 16 → ((sup base).h.ticket i).state = .free) ∧ (sup base).h.saBase.toNat * 2 ^ 22 = 0), ⟨imaged_good u _ rfl, ?_⟩, ?_⟩
  · rw [hh]; cases u <;> rfl
  · rw [hh]
    cases u
    · exact ⟨nofun, fun _ => (by decide +kernel : (headOf false).used ≤ (headOf false).quota ∧ (headOf false).used + (sup base).core.links.length ≤ 2048 ∧ (headOf false).tile0 = false ∧ (headOf false).tile1 = false),
        (by decide +kernel : (headOf false).ctx ≠ 1)⟩
    · exact ⟨fun _ => by decide +kernel, nofun, (by decide +kernel : (headOf true).ctx ≠ 1)⟩
/-- Operands of `hsave`, and harts that own a link or hold a tile. -/
theorem witness_SaveAreasHoldAHart : let s := regs (sup base) [(4, 1), (5, 4), (6, 2)]
    (s.h.mode = .s ∧ (s.x 4).toNat < 2 ∧ s.h.cmds = [] ∧ s.core.reclaim = [] ∧ physKey (s.h.saBase.toNat * 2 ^ 22) = some 0 ∧ s.frames = [] ∧ s.poison = [] ∧ s.mem.wf = true)
    ∧ (4 ≤ (s.x 5).toNat ∧ (s.x 6).toNat < 4 ∧ (s.x 6).getLsbD 1 = true) ∧ (sup vec).h.vused ≠ 0 ∧ (sup tiled).core.za1.holder = some (sup tiled).slotNo
    ∧ ((sup (ticketless base)).h.ticket 3).state ≠ .free := by decide +kernel

/-! Steps of the units. -/

/-- The hart's one command in progress, on ticket 0: one row of 32 bytes from 0x20000 to 0x30000, untranslated. -/
def running (c : Command) : State := hart (sup base) fun h => { h with cmds := [c], tickets := h.tickets.set 0 ⟨.busy, 0, c.kind, 0, 0, 0⟩ }
def row : Command := { Command.blank 0 0 with bypass := true, bare := true, src := 0x2_0000, dst := 0x3_0000, l0 := 32, n1 := 1, n2 := 1 }
/-- An `ecopyc` into v1 of `vec`, a cast to cores 0 and 1 with its arrivals, and a selection on four i32 elements with the results of its engines. -/
def ecopycCmd : Command := { Command.blank 0 1 with bypass := true, bare := true, src := 0x2_0000, sstr1 := 4, vd := 1, tag := 3, count := 3 }
def filling : State := hart (sup vec) fun h => { h with cmds := [ecopycCmd], tickets := h.tickets.set 0 ⟨.busy, 0, 1, 0, 0, 0⟩ }
def cast : Command := { Command.blank 0 2 with dst := 0x100, l0 := 32, n1 := 1, n2 := 1, cmask := 3, bar := true, next := 1 }
def casting (count : Nat) : State := { hart (running cast) (fun h => { h with gang := some 4 }) with gangs := [⟨4, 2, 0, [0, 8], 3, count, 4, 3, 0⟩] }
def scan (kind : BitVec 4) (l : List Partial) : Command :=
  { Command.blank 0 kind with bypass := true, bare := true, src := 0x2_0000, dst := 0x100, tag := 3, count := 4, limit := 2, parts := l }
def parts (f : List (Word × BitVec 8)) : List Partial := (List.range 12).map fun k => ⟨k, 0, [], f⟩

theorem witness_CopyEngineMovesRows :
    (let t := running row
     t.copyHead = some row ∧ t.pend = [] ∧ row.kind ≠ 1 ∧ row.next < row.n1 * row.n2 ∧ (∃ u, t.moveRow row row.next = .ok u)
      ∧ (∃ f, ({ t with poison := [8 * 2 ^ 36 + 0x2000] } : State).moveRow row row.next = .error f)
      ∧ (row.kind = 0 ∧ row.bare = true ∧ row.bypass = true ∧ row.sspace = 0 ∧ row.dspace = 0 ∧ 0 < row.l0 ∧ 0x2_0000 % 4096 + row.l0 ≤ 4096 ∧ 0x3_0000 % 4096 + row.l0 ≤ 4096
        ∧ (physKey 0x2_0000).isSome = true ∧ (physKey 0x3_0000).isSome = true ∧ t.frames = [] ∧ t.poison = [] ∧ t.mem.wf = true))
    ∧ (filling.apart (filling.h.chain ecopycCmd.vd) ∧ filling.tidy
      ∧ (∀ j, j < ecopycCmd.count → ∃ k, physKey (ecopycCmd.src + BitVec.ofNat 64 j * ecopycCmd.sstr1).toNat = some k ∧ ∀ b, b < 4 → filling.poisoned (k + b) = false)
      ∧ filling.copyHead = some ecopycCmd ∧ filling.pend = [] ∧ ecopycCmd.kind = 1 ∧ ecopycCmd.next < ecopycCmd.count ∧ ecopycCmd.ahead = [] ∧ ecopycCmd.bare = true ∧ ecopycCmd.sspace = 0
      ∧ (filling.h.chain ecopycCmd.vd).tag = ecopycCmd.tag ∧ (filling.h.chain ecopycCmd.vd).count = ecopycCmd.count)
    ∧ ((running { row with next := 1 }).copyHead = some { row with next := 1 } ∧ (casting 0).copyHead = some cast ∧ cast.n1 * cast.n2 ≤ cast.next)
    ∧ (∀ count, count ≤ 2 → ∃ g, (casting count).gangOf (casting count).h = some g ∧ (casting count).gangs.find? (fun x => x.id == g.id) = some g ∧ g.count = count) := by
  refine ⟨⟨by decide +kernel, by decide +kernel, by decide +kernel, by decide +kernel, ?_, ⟨⟨0x0B, 0x2_0000, 0⟩, by decide +kernel⟩, by decide +kernel⟩,
    ⟨apart_of (by decide +kernel), tidy_of (by decide +kernel), ?_, by decide +kernel⟩, by decide +kernel, fun count _ => ⟨⟨4, 2, 0, [0, 8], 3, count, 4, 3, 0⟩, rfl, rfl, rfl⟩⟩
  · obtain ⟨u, h, -⟩ := ok_of (P := fun _ => true) (show okAnd ((running row).moveRow row row.next) _ = true by decide +kernel)
    exact ⟨u, h⟩
  · intro j hj
    have : j = 0 ∨ j = 1 ∨ j = 2 := by have : ecopycCmd.count = 3 := rfl; omega
    rcases this with rfl | rfl | rfl
    exacts [⟨8 * 2 ^ 36 + 0x2000, by decide +kernel⟩, ⟨8 * 2 ^ 36 + 0x2004, by decide +kernel⟩, ⟨8 * 2 ^ 36 + 0x2008, by decide +kernel⟩]

/-- A row of 32 bytes for the group at 0x100 of cores 0 and 1, and one whose window has 8 bytes before its source row of 16. -/
def castRow : Command := { row with kind := 2, dst := 0x100, cmask := 3 }
def winRow : Command := { row with kind := 3, srclen := 16, padl := 8, fill := 0xEE }
theorem witness_CopyEngineMovesRows_targets :
    (let t : State := { hart (running castRow) (fun h => { h with gang := some 4 }) with gangs := [⟨4, 2, 0, [0, 8], 3, 0, 0, 3, 0⟩] }
     t.copyHead = some castRow ∧ t.pend = [] ∧ castRow.next < castRow.n1 * castRow.n2 ∧ 0x2_0000 % 4096 + castRow.l0 ≤ 4096 ∧ 0x100 + castRow.l0 ≤ 2 ^ 21
      ∧ t.frames = [] ∧ t.poison = [] ∧ t.mem.wf = true ∧ castRow.cmask.getLsbD 1 = true
      ∧ ∀ x, x < 8 → castRow.cmask.getLsbD x = true → t.gangOnCore (t.coreNo / 8 * 8 + x) = true)
    ∧ (let at0 : Int := 0 * winRow.sstr1.toInt - winRow.padl
       let lo := max 0 at0
       (running winRow).copyHead = some winRow ∧ winRow.next < winRow.n1 * winRow.n2 ∧ at0 = -8 ∧ ((0x2_0000 : Int) + lo).toNat = 0x2_0000
        ∧ 0x2_0000 % 4096 + (min (winRow.srclen : Int) (at0 + winRow.l0) - lo).toNat ≤ 4096 ∧ (physKey 0x2_0000).isSome = true) := by decide +kernel

theorem witness_SelectionEnginesScanAndMerge :
    (∀ kind ∈ [(8 : BitVec 4), 9, 10], let t := running (scan kind [])
       t.selection 0 = some (scan kind []) ∧ t.pend = [] ∧ (∀ q ∈ t.engineQueue 8, (scan kind []).since ≤ q) ∧ (scan kind []).bare = true ∧ (scan kind []).sspace = 0
        ∧ (scan kind []).src.toNat % 4 = 0 ∧ (∀ o, 0x2_0000 ≤ o → o < 0x2_0000 + (4 * 32 + 7) / 8 → (physKey o).isSome = true) ∧ t.poison = [])
    ∧ (∀ kind ∈ [(8 : BitVec 4), 9, 10], let c := scan kind (parts [])
       (running c).selection 0 = some c ∧ 12 ≤ c.parts.length ∧ (running c).mergeWaits c = false ∧ c.parts.flatMap (·.fails) = [] ∧ c.dst.toNat % 8 = 0 ∧ (running c).mem.wf = true)
    ∧ (let c := scan 8 (parts [(0x2_0000, 0x0B)])
       (running c).selection 0 = some c ∧ 12 ≤ c.parts.length ∧ (running c).mergeWaits c = false ∧ c.parts.flatMap (·.fails) ≠ []) := by decide +kernel

/-- A row moved: its ticket counts it (R140, R151). -/
theorem test_engine_row : (match exec (.engineRow 0) (running row) with | .next t => decide ((t.h.ticket 0).rows = 1 ∧ t.h.cmds.map (·.next) = [1]) | _ => false) = true := by decide +kernel

/-- One handed-off write: of the hart's vector agent to HBM4E, with a dirty line of its own in the L1, to node 5, and an element of a scatter packet to core 1. -/
def handed (p : Pending) : State := { base with pend := [p], core := { base.core with l1 := [⟨0, 1, 0x40, 4096, 0x40, none, 0, true, false, 9⟩] } }
def homeWrite1 : Pending := ⟨8, 0, true, 0, 0, 1, 0x40, 0x40, none, true, none, .put, [1, 2]⟩
def farWrite (op : WriteOp) : Pending := ⟨8, 0, true, 0, 0, 0xFFFF, 0x1100_0100, lsKey 1 0x100, none, true, some (7, 1), op, [1, 2, 3, 4]⟩
def sent (kind : Nat) (l : List Pending) : State := { base with pend := l, packets := [⟨0, 1, kind, 3, 0, 1, [(0x100, 0, [])], [8]⟩] }
theorem witness_HandedOffWritesArePerformed :
    (∀ p ∈ [homeWrite1, { homeWrite1 with node := some 5 }], let s := handed p
      s.pend[0]? = some p ∧ p.pkt = none ∧ (∀ q ∈ s.pend.take 0, q.before p = false) ∧ p.flush = true ∧ s.frames = [] ∧ s.poison = [] ∧ s.mem.wf = true
        ∧ (∀ l ∈ s.core.l1, l.bad = false ∧ (p.node = none → l.covers p.node p.ctx p.space p.key p.data.length = true)))
    ∧ (∀ e ∈ [(2, WriteOp.put), (3, .add 3)], let s := sent e.1 [farWrite e.2]
      s.pend[0]? = some (farWrite e.2) ∧ ∃ q, s.packets[0]? = some q ∧ q.kind = e.1 ∧ (farWrite e.2).id ∈ q.ids ∧ (∀ x ∈ s.pend.take 0, x.before (farWrite e.2) = false))
    ∧ (∃ q, (sent 2 []).packets[0]? = some q ∧ q.kind = 2 ∧ ∀ x ∈ (sent 2 []).pend, x.id ∉ q.ids)
    ∧ (∃ q, (sent 0 []).packets[0]? = some q ∧ q.kind = 0 ∧ (sent 0 []).packets.take 0 = [] ∧ (sent 0 []).pend = [])
    ∧ (∃ q, (sent 1 []).packets[0]? = some q ∧ q.kind = 1) := by
  refine ⟨by decide +kernel, ?_, ⟨_, rfl, by decide +kernel⟩, ⟨_, rfl, by decide +kernel⟩, ⟨_, rfl, rfl⟩⟩
  simp only [List.forall_mem_cons, List.not_mem_nil, false_implies, implies_true, and_true]
  exact ⟨⟨rfl, _, rfl, by decide +kernel⟩, rfl, _, rfl, by decide +kernel⟩
theorem test_write_performed : (match exec (.writePerformed 0) (handed homeWrite1) with | .next t => decide (t.homeRead 0x40 2 = [1, 2] ∧ t.pend = []) | _ => false) = true := by decide +kernel

/-- The hart waits at a word for something. -/
def waits (i : Instr) (st : RunState) (w : Wait) (s : State) : State := hart (mid i s) fun h => { h with st := st, wait := w }
/-- The key of its region is in transit, by a transfer of the hart. -/
def moving (i : Instr) (e : KeyEntry) : State := waits i .running (.key 0 0x2_0000 17) (ring [{ e with transit := true, issuer := agent 0 }])

theorem witness_WaitsEndWithTheirResult :
    (let t := waits (.fenceAll 0 0 0 2 0) .running (.fence true true true false true true) base
     t.h.st = .running ∧ t.fenceWaits true true true false = false)
    ∧ (let t := waits (.tlbinv 4 5 6) .running (.tlbinv 3 1) (sup base)
       t.h.st = .running ∧ t.tlbWaits 3 1 = false)
    ∧ (let t := waits (.yield 4) .waiting (.yield 0) base
       t.h.st = .waiting ∧ t.cycle.toNat = 0)
    ∧ (let t := waits (.await 9 9 0 8 1 0 3 true 0) .waiting (.await (some 0)) (withLocal user)
       t.h.st = .waiting ∧ t.word = some (.await 9 9 0 8 1 0 3 true 0)
        ∧ ∃ pl m rels e s1 s2, t.scalarPlace (t.h.space 1) (t.x 9 + sext (0 : BitVec 19)).toNat 8 .aread false = .ok (pl, s1)
          ∧ s1.atomRead (t.h.space 1) (t.x 9 + sext (0 : BitVec 19)).toNat 8 pl false = .ok (m, rels, e, s2) ∧ m = (t.x 0).toNat ∧ m ≠ (t.x 1).toNat)
    ∧ (∀ p ∈ [(Instr.klend 9 4 6 7 0 0, entry .owned (agent 0) noAgent []), (.kshare 9 4 6 7 0 0, entry .owned (agent 0) noAgent []), (.kret 9 4 6 0 0, entry .owned (agent 0) (agent 1) []),
        (.kdrop 9 4 6 0 0, entry .owned (agent 0) noAgent []), (.kunshare 9 4 6 0 0, entry .shared (agent 1) noAgent [agent 0])],
      let t := moving p.1 p.2
      t.h.st = .running ∧ t.h.wait = .key 0 0x2_0000 17 ∧ t.word = some p.1 ∧ t.keyWaits 0 0x2_0000 17 = false
        ∧ t.entryOf t.h.kctx 0 0x2_0000 17 = some { p.2 with transit := true, issuer := agent 0 } ∧ t.keyQueue = [] ∧ t.core.l1 = []) := by
  refine ⟨by decide +kernel, by decide +kernel, by decide +kernel, ⟨by decide +kernel, by decide +kernel, ?_⟩, ?_⟩
  · have h : okAnd ((waits (.await 9 9 0 8 1 0 3 true 0) .waiting (.await (some 0)) (withLocal user)).scalarPlace 0xFFFF 0x1F_FFF8 8 .aread false)
        (fun a => okAnd (a.2.atomRead 0xFFFF 0x1F_FFF8 8 a.1 false) fun b => decide (b.1 = (user.x 0).toNat ∧ b.1 ≠ (user.x 1).toNat)) = true := by decide +kernel
    obtain ⟨⟨pl, s1⟩, h1, h2⟩ := ok_of h
    obtain ⟨⟨m, rels, e, s2⟩, h3, h4⟩ := ok_of h2
    exact ⟨pl, m, rels, e, s1, s2, h1, h3, of_decide_eq_true (p := _ ∧ _) h4⟩
  · simp only [List.forall_mem_cons, List.not_mem_nil, false_implies, implies_true, and_true]
    refine ⟨?_, ?_, ?_, ?_, ?_⟩ <;> exact ⟨rfl, rfl, by decide +kernel, by decide +kernel, rfl, rfl, rfl⟩

/-! Launches, gangs, harts and events. -/

/-- A packet at the head of queue 3: context 0, task 5, gangs of one hart with one lane group and 64 links; `bad` makes its LANES 0, which is refused. -/
def packetWords (bad : Bool) : List Byte := toBytes 8 0x4000 ++ toBytes 8 (5 * 2 ^ 16 + 2 ^ 32 + (if bad then 0 else 2 ^ 36) + 64 * 2 ^ 40) ++ toBytes 8 1
def packed (bad : Bool) : State :=
  ({ launching with queues := [(3, ⟨0x800, 2, false, true, true, 0, 0, 1⟩)] } : State).writePhys 0x4_0000 (packetWords bad)
/-- The launch of that packet, with number 4, ready and not. -/
def launched (r : Option Nat) : Launch := { launchOf 4 3 (ofBytes (packetWords false)) with ready := r }
/-- A gang of hart 0 for it. -/
def gang : Gang := ⟨6, 4, 0, [0], 0, 0, 0, 0, 0⟩
/-- Hart 0 in that gang, in a given state. -/
def inGang (st : RunState) : State := { hart base (fun h => { h with st := st, gang := some 6, convoy := none }) with gangs := [gang], launches := [launched (some 0)] }

theorem witness_LaunchesAreAdmittedAndPlaced :
    ((∀ who ∈ [0, 0x1_0000], whoOf who ≠ .smbus) ∧ base.boot ≠ .bootfail)
    ∧ (∀ b, let s := packed b
        (s.queue 3).en = true ∧ (s.queue 3).tail ≠ (s.queue 3).head ∧ s.launches = [] ∧ s.physSound 0x4_0000 128 = true ∧ s.refusesPacket (s.queue 3) (ofBytes (s.readPhys 0x4_0000 128)) = b
        ∧ (let f (lo n : Nat) : Nat := ofBytes (s.readPhys 0x4_0000 128) / 2 ^ lo % 2 ^ n
           (b = true → f 100 4 = 0) ∧ (b = false → f 176 16 = 0 ∧ f 119 1 = 0 ∧ f 0 64 % 8 = 0 ∧ BitVec.ofNat 16 (f 64 16) = (s.queue 3).owner ∧ 0 < f 96 4 ∧ f 96 4 ≤ 8 ∧ 0 < f 100 4 ∧ f 100 4 ≤ 8
             ∧ 0 < f 104 12 ∧ f 104 12 ≤ 2048 ∧ 0 < f 128 32 ∧ f 124 4 ≤ 8 ∧ f 128 32 * f 96 4 ≤ 65536 ∧ [3, 4, 5, 6, 7].all (fun i => f (64 * i) 64 == 0) = true)))
    ∧ (let s : State := { base with launches := [launched none] }
       s.launches[0]? = some (launched none) ∧ (launched none).ready = none ∧ s.depMet (launched none) (launched none).dep0addr (launched none).dep0val = true
        ∧ s.depMet (launched none) (launched none).dep1addr (launched none).dep1val = true)
    ∧ (let s : State := { base with launches := [launched (some 0)] }
       ∃ b seats, s.bids.head? = some b ∧ b.evicted = none ∧ s.seats b [] = some seats ∧ (seats.map fun e => 8 * e.1 + e.2).Nodup)
    ∧ (let s := inGang .starting
       s.h.st = .starting ∧ s.h.restoring = false ∧ s.gangOf s.h = some gang ∧ s.launches.find? (fun x => x.id == gang.launch) = some (launched (some 0)) ∧ s.mem.wf = true)
    ∧ (let s := hart (inGang .starting) fun h => { h with restoring := true }
       s.h.st = .starting ∧ s.h.restoring = true) := by
  refine ⟨by decide +kernel, by decide +kernel, by decide +kernel, ?_, by decide +kernel, by decide +kernel⟩
  have h : (let s : State := { base with launches := [launched (some 0)] }
      s.bids.head?.any fun b => b.evicted.isNone && (s.seats b []).any fun l => decide (l.map fun e => 8 * e.1 + e.2).Nodup) = true := by decide +kernel
  obtain ⟨b, h1, h2⟩ := some_of h
  simp only [Bool.and_eq_true, Option.isNone_iff_eq_none] at h2
  obtain ⟨l, h3, h4⟩ := some_of h2.2
  exact ⟨b, l, h1, h2.1, h3, of_decide_eq_true h4⟩
/-- The fields of Table 16-2 stand in the table. -/
theorem test_packet_admitted : (match exec (.launchPacketAdmit 3) (packed false) with
    | .next t => decide (t.launches.map (fun l => (l.entry, l.task, l.gang, l.lanes, l.quota, l.ngangs)) = [(0x4000, 5, 1, 1, 64, 1)] ∧ (t.queue 3).head = 1) | _ => false) = true := by
  decide +kernel

/-- The gang evicted: its member left slot 0. -/
def away : Waiting := ⟨gang, 0, [⟨0, 0, 0, 1, false, 64, false, false, false, [], []⟩]⟩
theorem witness_GangsLeaveAndReturn :
    (let s := inGang .suspended
     s.gangs.find? (fun x => x.id == gang.id) = some gang ∧ gang.members ≠ [] ∧ (∀ k ∈ gang.members, (s.hartAt k).st = .suspended ∧ (s.hartAt k).cmds = [] ∧ (s.coreAt (k / 8)).reclaim = []) ∧ s.pend = []
      ∧ gang.members.Nodup ∧ (∀ k ∈ gang.members, (s.hartAt k).saBase.toNat * 2 ^ 22 < 0xC0_0000_0000)
      ∧ (∀ j ∈ gang.members, ∀ k ∈ gang.members, (s.hartAt j).saBase = (s.hartAt k).saBase → j = k)
      ∧ (∀ k ∈ gang.members, (s.coreAt (k / 8)).links.length ≤ 2048 ∧ (s.coreAt (k / 8)).l1 = []) ∧ s.frames = [] ∧ s.poison = [] ∧ s.mem.wf = true)
    ∧ (let s := inGang .evicting
       s.gangs.find? (fun x => x.id == gang.id) = some gang ∧ ∀ k ∈ gang.members, (s.hartAt k).st = .evicting)
    ∧ (let s : State := { hart base (fun h => { h with st := .free }) with gangs := [{ gang with id := 7 }], launches := [launched none], waiting := [away], core := Core.reset }
       s.gangs.find? (fun x => x.id == 7) = some { gang with id := 7 } ∧ ∃ b seats, s.bids.head? = some b ∧ b.evicted = some away ∧ s.seats b [] = some seats ∧ seats.length = away.members.length
        ∧ (seats.map fun e => 8 * e.1 + e.2).Nodup ∧ s.mem.wf = true) := by
  refine ⟨by decide +kernel, by decide +kernel, by decide +kernel, ?_⟩
  have h : (let s : State := { hart base (fun h => { h with st := .free }) with gangs := [{ gang with id := 7 }], launches := [launched none], waiting := [away], core := Core.reset }
      s.bids.head?.any fun b => decide (b.evicted = some away) && (s.seats b []).any fun l => decide (l.length = away.members.length ∧ (l.map fun e => 8 * e.1 + e.2).Nodup)) = true := by decide +kernel
  obtain ⟨b, h1, h2⟩ := some_of h
  simp only [Bool.and_eq_true, decide_eq_true_eq] at h2
  obtain ⟨l, h3, h4⟩ := some_of h2.2
  exact ⟨b, l, h1, h2.1, h3, (of_decide_eq_true (p := _ ∧ _) h4).1, (of_decide_eq_true (p := _ ∧ _) h4).2, rfl⟩

/-- Hart 0 exiting with code 3, and the owner of a key. -/
def leaving : State := { hart base (fun h => { h with st := .exiting, wait := .exit 3 }) with keyring := [entry .owned (agent 0) noAgent []] }
theorem witness_HartsStopResumeAndEnd :
    (let h := ({ base.h with suspend := true } : Hart); h.suspend = true ∧ h.atHinge = true)
    ∧ (base.h.suspend = false ∧ base.h.st = .running) ∧ (inGang .suspended).h.st = .suspended
    ∧ (leaving.h.st = .exiting ∧ leaving.h.wait = .exit 3 ∧ leaving.h.cmds = [] ∧ leaving.pend = [] ∧ leaving.h.mcheck = [] ∧ leaving.keyQueue = [] ∧ leaving.h.agent ≠ noAgent
      ∧ (∀ e ∈ leaving.keyring, e.transit = false) ∧ (∀ n, ∀ l ∈ (leaving.coreAt n).l1, l.bad = false)
      ∧ leaving.keyring.Pairwise (fun a b => sameRegion a b = false) ∧ ∀ e ∈ leaving.keyring, e.owner = leaving.h.agent → e.lender ≠ leaving.h.agent ∧ (e.state = .owned ∨ e.state = .shared))
    ∧ (let s := hart { base with cycle := 20000 } fun h => { h with debt := some 100 }
       s.h.debt = some 100 ∧ 100 + 16384 ≤ s.cycle.toNat)
    ∧ (let h := ({ base.h with suspend := true, heat := true } : Hart); h.heat = true ∧ h.preempt = false) := by
  refine ⟨by decide +kernel, by decide +kernel, by decide +kernel, ⟨rfl, rfl, rfl, rfl, rfl, rfl, agents_differ.2.2.1, ?_, ?_, List.pairwise_singleton _ _, ?_⟩, by decide +kernel, by decide +kernel⟩
  · exact fun e he => by rw [List.mem_singleton.mp he]; rfl
  · intro n l hl
    have hn : (leaving.coreAt n).l1 = [] := by
      have e : leaving.coreAt n = if n = 0 then leaving.core else Core.reset := rfl
      rw [e]
      split <;> rfl
    rw [hn] at hl
    cases hl
  · intro e he _
    obtain rfl : e = entry .owned (agent 0) noAgent [] := List.mem_singleton.mp he
    exact ⟨fun h => agents_differ.2.2.1 h.symm, .inl rfl⟩

/-- Both interrupts pend at a hinge. -/
def pending : State := hart base fun h => { h with hip := true, tip := true }
/-- A machine check pends for the hart at its hinge. -/
def checked : State := hart base fun h => { h with mcheck := [7, 8] }
theorem witness_EventsReachAHart :
    (pending.h.mcheck = [] ∧ pending.h.suspend = false ∧ pending.h.atHinge = true ∧ pending.h.mode = .u ∧ pending.h.ie = true ∧ pending.h.hip = true
      ∧ let h := ({ pending.h with mode := .d, due := true } : Hart); h.atHinge = true ∧ h.mode = .d ∧ h.due = true)
    ∧ (mid .cwait base).h.atHinge = false
    ∧ (whoOf 0x1_0000 = .guesk ∧ (let s : State := { base with seat := ⟨2, 0xFFFF, 1⟩ }; ∃ n, whoOf 2 = .host n ∧ n = s.seat.holder ∧ n ≠ 0xFFFF) ∧ base.boot ≠ .bootfail)
    ∧ (let s : State := { base with timers := [(0, 5, true)], cycle := 100 }; (s.timer 0).2 = true ∧ (s.timer 0).1 < s.nanos)
    ∧ (checked.h.mcheck = 7 :: [8] ∧ checked.cv.entries = [] ∧ checked.h.atHinge = true ∧ checked.h.mode ≠ .s ∧ checked.core.failed = false
      ∧ (checked.core.mchecks.filter fun c => decide (checked.cycle.toNat < c + 2 ^ 30)).length < 2
      ∧ (let s : State := { checked with core := { checked.core with mchecks := [0, 0] } }
         2 ≤ (s.core.mchecks.filter fun c => decide (s.cycle.toNat < c + 2 ^ 30)).length) ∧ (sup checked).h.mode = .s ∧ (sup checked).h.atHinge = true)
    ∧ (sup base).h.mode = .s :=
  ⟨by decide +kernel, by decide +kernel, ⟨by decide +kernel, ⟨2, by decide +kernel, by decide +kernel, by decide⟩, by decide +kernel⟩, by decide +kernel, by decide +kernel, by decide +kernel⟩
/-- The host's interrupt comes before the timer's (R339). -/
theorem test_interrupt : (match exec (.interruptTaken 0) pending with
    | .next t => decide (t.h.mode = .s ∧ t.h.cause = 0x21 ∧ t.h.pc = 0x8000 ∧ t.h.tpc = 0x1000 ∧ t.h.incv = false) | _ => false) = true := by decide +kernel

/-! The device. -/

theorem other_node : ∃ node, let n := BitVec.ofNat 16 node; n ≠ Config.nodeId ∧ n ≠ 0xFFFF := by
  by_cases h : Config.nodeId = 0
  · exact ⟨1, by rw [h]; decide, by decide⟩
  · exact ⟨0, fun e => h e.symm, by decide⟩
/-- Frame 3 of stack 1 copied by entry 2. -/
def copied : Frame := ⟨1, 2, 1, 3, 9⟩
theorem witness_FramesLinksNodesAndScrubs :
    (base.frames = [] ∧ (1 < 12 ∧ 2 < 256 ∧ 3 < 2 ^ 24 ∧ 9 < 2 ^ 24))
    ∧ (let s : State := { base with frames := [copied] }
       copied ∈ s.frames ∧ copied = ⟨1, 2, 1, 3, 9⟩ ∧ (∀ o ∈ s.frames, o = copied) ∧ s.mem.wf = true)
    ∧ (∃ node, let n := BitVec.ofNat 16 node; let s := ring [entry .owned (agent 0) noAgent []]
        n ≠ Config.nodeId ∧ n ∉ s.unreachable ∧ n ≠ 0xFFFF ∧ s.keyQueue = [] ∧ s.keyring.Pairwise (fun a b => sameRegion a b = false) ∧ ∀ e ∈ s.keyring, e.transit = false)
    ∧ (64 * 32 < 12 * 2 ^ 36 ∧ (4 < 96 ∧ 16384 ≤ 20000 ∧ 20000 < 49152 ∧ 100 < 16384))
    ∧ (base.boot ≠ .bootfail ∧ (0x0000_0009_0000_0003 : Word).extractLsb' 62 2 = 0)
    ∧ (base.ports[3].retraining = false ∧ (Config.goodFlit 3 base.tick = false ∨ Config.goodFlit 3 base.tick = true) ∧ (base.ports.set 3 ⟨0, true⟩)[3].retraining = true)
    ∧ (let s : State := { base with turn := .outside (.strike ⟨.tables 4, true⟩) }
       s.power ≠ .off ∧ s.turn = .outside (.strike ⟨.tables 4, true⟩) ∧ (s.coreAt 4).failed = false) := by
  obtain ⟨node, h1, h2⟩ := other_node
  exact ⟨by decide +kernel, by decide +kernel, ⟨node, h1, (fun h => nomatch h), h2, rfl, List.pairwise_singleton _ _, fun e he => by rw [List.mem_singleton.mp he]; rfl⟩, by decide, by decide +kernel,
    ⟨by decide +kernel, (Bool.eq_false_or_eq_true _).symm, by decide +kernel⟩, by decide +kernel⟩
theorem test_replays_retrain (h : Config.goodFlit 3 0 = false) : ∃ t, exec (.flitReplay 3) { base with ports := base.ports.set 3 ⟨7, false⟩ } = .next t ∧ t.ports[3] = ⟨0, true⟩ := by
  have hb : base.tick = 0 := rfl
  simp [exec, execFlitReplay, withPort, hb, h]

theorem witness_SeatAndWindow :
    let free := base
    let held : State := { base with seat := ⟨2, 0xFFFF, 1⟩ }
    let offered : State := { base with seat := ⟨3, 2, 1⟩ }
    (base.boot ≠ .bootfail ∧ 2 < 0xFFFF ∧ free.seat.holder = 0xFFFF ∧ held.seat.holder = BitVec.ofNat 16 2 ∧ held.seat.holder ≠ 0xFFFF ∧ offered.seat.offer = BitVec.ofNat 16 2
      ∧ offered.seat.holder ≠ BitVec.ofNat 16 2 ∧ held.seat.offer ≠ BitVec.ofNat 16 2)
    ∧ (free.report = none ∧ ({ held with report := some ⟨0, 0, 0, 0, 0, none⟩ } : State).report ≠ none ∧ free.attctr < 1024 ∧ 1024 ≤ ({ free with attctr := 1024 } : State).attctr)
    ∧ (({ free with boot := .bootfail } : State).boot = .bootfail ∧ (let s : State := { free with turn := .outside (.windowRead (.host 2) 0x1000) }; s.power ≠ .off ∧ s.turn = .outside (.windowRead (.host 2) 0x1000)))
    ∧ (free.busy = false ∧ ({ free with busy := true } : State).busy = true ∧ ({ free with snapAt := some 0 } : State).snapAt = some 0 ∧ 0 ≤ free.cycle.toNat ∧ free.snapAt = none) := by decide +kernel
theorem test_seat_claim : (match exec (.seatClaim 2) base with | .next t => decide (t.seat = ⟨2, 0xFFFF, 1⟩ ∧ t.replies.map (·.cause) = [0]) | _ => false) = true := by decide +kernel

/-- Storage that holds an entry address, 0x2000, at physical 0 and a word with H set there. -/
def loaded : State := (({ State.reset with boot := .loading } : State).writePhys 0 (toBytes 8 0x2000)).writePhys 0x2000 (toBytes 8 0x8200_0000_0000_0000)
theorem witness_BootAndPower :
    (State.reset.boot ≠ .verify)
    ∧ (let s : State := { State.reset with boot := .verify }; s.boot = .verify ∧ s.power ≠ .off)
    ∧ (let s : State := { State.reset with boot := .zeroing, image := [1, 2, 3] }; s.boot = .zeroing ∧ s.frames = [] ∧ s.mem.wf = true ∧ s.image.length ≤ 0xC0_0000_0000)
    ∧ (loaded.boot = .loading ∧ (loaded.physWord (loaded.physWord 0).toNat).getLsbD 63 = true)
    ∧ (let s : State := { State.reset with boot := .loading }; s.boot = .loading ∧ (s.physWord (s.physWord 0).toNat).getLsbD 63 = false)
    ∧ (let s : State := { State.reset with idleSince := some 0, cycle := 10000000 }; s.idleSince = some 0 ∧ s.power = .on ∧ s.placed = [] ∧ 0 + 10000000 ≤ s.nanos)
    ∧ (let s : State := { State.reset with power := .idle }; s.power = .idle)
    ∧ (let s : State := { State.reset with power := .off }; s.power = .off ∧ s.turn = .event .deviceReset ∧ ({ s with turn := .outside (.event .deviceReset) } : State).turn = .outside (.event .deviceReset) ∧ ({ s with turn := .hart 0 } : State).turn ≠ .event .deviceReset) := by
  decide +kernel
theorem test_guesk_start : (match exec .gueskStart loaded with | .next t => decide (t.h.pc = 0x2000 ∧ t.h.mode = .s ∧ t.h.st = .running ∧ t.boot = .running) | _ => false) = true := by decide +kernel

/-- The page of this device holds the base of every region around offset 8, so no other node's controller has one there. -/
theorem no_foreign (agent : BitVec 32) (byp : Bool) : (mapped 3 base).foreignEntry ⟨0, agent, byp, false, 0⟩ 1 8 = none := by
  have size (c : Bool) (x : Nat) : 8 / 2 ^ (if c = true then 16 + x % 25 else 16) * 2 ^ (if c = true then 16 + x % 25 else 16) = 0 := by
    have h (n : Nat) (hn : 16 ≤ n) : 8 / 2 ^ n * 2 ^ n = 0 := by
      rw [Nat.div_eq_of_lt (Nat.lt_of_lt_of_le (by decide : 8 < 2 ^ 16) (Nat.pow_le_pow_right (by decide) hn)), Nat.zero_mul]
    exact h _ (by cases c <;> simp)
  have base0 : ((mapped 3 base).foreignSpan ⟨0, agent, byp, false, 0⟩ 1 8).1 = 0 := by
    unfold State.foreignSpan
    exact size _ _
  have node0 : (mapped 3 base).nodeOf ⟨0, agent, byp, false, 0⟩ 1 0 = some Config.nodeId := by
    rw [State.nodeOf, walk_of (s := base) ⟨rfl, rfl⟩ (.inl rfl) ⟨0, agent, byp, false, 0⟩ rfl (.inr rfl) 0 (by decide)]
    rfl
  unfold State.foreignEntry
  simp only [base0, node0, if_true, ite_self]

/-- A key of space 1 that the agent 7 of another node's requester holds, lent by agent 9. -/
def awayKey (transit : Bool) : KeyEntry := ⟨0, 1, 0, 20, .owned, false, [], 7, 9, 0, transit, if transit then 7 else noAgent⟩
/-- Reads, writes and atomics: of a host in its context, of another node's supervisor, whose accesses need no key, and a write that no page takes; then a key that
goes back, before and in its transit. -/
theorem witness_OutsideRequestsAreServedAtHome :
    (let s := mapped 3 base
     let host : BitVec 32 := BitVec.ofNat 32 (0 % 65536 * 65536 + 0xFFFF)
     s.boot ≠ .bootfail ∧ [(1 : Byte), 2] ≠ [] ∧ 8 % 4096 + [(1 : Byte), 2].length ≤ 4096 ∧ s.poison = [] ∧ s.frames = [] ∧ s.mem.wf = true
      ∧ (∀ kind ∈ [Kind.read, .write], ∃ p, p.node = none ∧ s.devicePlace (BitVec.ofNat 16 0) (BitVec.ofNat 16 1) 8 host true false kind = .ok p)
      ∧ (∀ kind ∈ [Kind.read, .write, .atomic], ∃ p, p.node = none ∧ s.devicePlace (BitVec.ofNat 16 0) (BitVec.ofNat 16 1) 8 (BitVec.ofNat 32 7) false true kind = .ok p)
      ∧ ∃ c, base.devicePlace (BitVec.ofNat 16 0) (BitVec.ofNat 16 1) 8 host true false .write = .error c)
    ∧ (∀ b, let s : State := { mapped 3 base with keyring := [awayKey b] }
        let e := awayKey b
        (∃ die, s.outsideDie ⟨BitVec.ofNat 16 0, BitVec.ofNat 16 1, BitVec.ofNat 32 7, false, false⟩ 0 = .ok (some die, false)) ∧ 16 ≤ e.size ∧ e.size ≤ 40 ∧ 0 % 2 ^ e.size = 0 ∧ e.state = .owned
          ∧ e.owner = BitVec.ofNat 32 7 ∧ e.lender ≠ noAgent ∧ s.keyring = [e] ∧ e.ctx = BitVec.ofNat 16 0 ∧ e.space = BitVec.ofNat 16 1 ∧ e.base = 0
          ∧ (7 : BitVec 32) ≠ noAgent ∧ e.transit = b ∧ (b = true → e.issuer = BitVec.ofNat 32 7) ∧ s.keyQueue = []) := by
  have go {agent : BitVec 32} {host bypass : Bool} {kind : Kind} (hr : bypass = true ∨ kind.need ≤ (mapped 3 base).rightOf ⟨0, agent, bypass, false, 0⟩ 1 8 host) :=
    device_place (s := base) ⟨rfl, rfl⟩ rfl (off := 8) (by decide) hr
  refine ⟨⟨by decide, by decide, by decide, rfl, rfl, mapped_wf (.inl rfl) _, ?_, ?_, 0x08, (by decide +kernel : base.devicePlace 0 1 8 0xFFFF true false .write = .error 0x08)⟩, fun b => ?_⟩
  · intro kind hk
    refine ⟨_, rfl, go (.inr ?_)⟩
    have hr : (mapped 3 base).rightOf ⟨0, 0xFFFF, false, false, 0⟩ 1 8 true = 2 := by
      have he : (mapped 3 base).entryAt 0 1 8 = none := rfl
      simp only [State.rightOf, he, no_foreign, if_true]
    exact hr ▸ (by cases kind <;> decide)
  · exact fun kind _ => ⟨_, rfl, go (.inl rfl)⟩
  · have h := outside_die (s := { base with keyring := [awayKey b] }) (off := 0) (agent := 7) (sup := false) ⟨rfl, rfl⟩ rfl (by decide)
    have hs : (awayKey b).size = 20 := rfl
    exact ⟨⟨_, h⟩, by rw [hs]; decide, by rw [hs]; decide, by rw [hs]; decide, rfl, rfl, by simp only [awayKey]; decide, rfl, rfl, rfl, rfl, by decide, rfl, fun hb => by rw [hb]; rfl, rfl⟩

/-- Mode U, space 1 in as1, the key of its first 2^20 bytes held, and the line of offset 0x40 in the L1. -/
def cached : State :=
  { hart base fun h => { h with as := h.as.set 1 1 } with
    keyring := [⟨0, 1, 0, 20, .owned, false, [], base.h.agent, noAgent, 0, false, noAgent⟩]
    core := { base.core with l1 := [⟨0, 1, 0x40, 2 ^ 40, 0x40, none, 0, false, false, 0⟩] } }
/-- The clause of `StoresHandOffTheirBytes` for a line that the L1 holds. -/
theorem witness_StoresHandOffTheirBytes_cached : let s := mapped 3 (regs cached [(4, 0x40)])
    ∃ pl s1 l, s.scalarPlace (s.h.space 1) (s.x 4).toNat 8 .write true = .ok (pl, s1) ∧ s1.uncached pl = false ∧ s1.l1Find (s.h.space 1) pl = some l ∧ l.bad = false := by
  let t := regs cached [(4, 0x40)]
  obtain ⟨s1, h1, h2, h3, h4, h5, -⟩ := translate_of (s := t) ⟨rfl, rfl⟩ (.inl rfl) rfl rfl t.h.acc rfl (.inr rfl) (off := 0x40) (by decide)
  have hx : ((mapped 3 t).x 4).toNat = 0x40 := (by decide +kernel : (t.x 4).toNat = 0x40)
  have hs : (mapped 3 t).h.space 1 = 1 := (by decide +kernel : t.h.space 1 = 1)
  have hr : s1.entryAt t.h.acc.ctx 1 0x40 = some ⟨0, 1, 0, 20, .owned, false, [], base.h.agent, noAgent, 0, false, noAgent⟩ := by
    rw [State.entryAt, h3]
    rfl
  have hg : (⟨0, 1, 0, 20, .owned, false, [], base.h.agent, noAgent, 0, false, noAgent⟩ : KeyEntry).right t.h.acc.agent = 2 := if_pos rfl
  have hc : ∃ s2, s1.keyCheck t.h.acc 1 0x40 Kind.write.need = some s2 ∧ s2.h = t.h ∧ s2.core.l1 = t.core.l1 := by
    have hh : s1.keyHit t.h.acc 1 0x40 Kind.write.need = none := by rw [State.keyHit, h5]; rfl
    unfold State.keyCheck
    simp only [hh, hr, hg]
    exact ⟨_, rfl, h2, h4⟩
  obtain ⟨s2, h6, h7, h8⟩ := hc
  refine ⟨⟨0x40, false, false, false, none⟩, s2, ⟨0, 1, 0x40, 2 ^ 40, 0x40, none, 0, false, false, 0⟩, ?_, ?_, ?_, rfl⟩
  · show (mapped 3 t).scalarPlace ((mapped 3 t).h.space 1) ((mapped 3 t).x 4).toNat 8 .write true = _
    rw [hs, hx]
    have ha : (mapped 3 t).h.acc = t.h.acc := rfl
    have hb : ¬ ((t.h.acc.bare = true) ∧ (1 : BitVec 16) = 0) := fun h => absurd h.2 (by decide)
    have hy : t.h.acc.bypass = false := rfl
    have hk : physKey (0 + 0x40 % 2 ^ 40) = some 0x40 := frame_of (by decide)
    have hz : BitVec.getLsbD (3 : Byte) 2 = false := rfl
    simp only [State.scalarPlace, State.locateMem, ha, hb, h1, page, hk, h6, hy, hz, ne_eq, not_true, if_false]
    rfl
  · rw [State.uncached, h7]; rfl
  · show s2.l1Find ((mapped 3 t).h.space 1) _ = _
    rw [hs, State.l1Find, h8]; rfl

end Sys2Proof.Tests
end

section
/-! PROOFS. What reset leaves. -/

namespace Sys2Proof.Machine

/-- Nothing is listed at reset, in memory or in a pool. -/
theorem reset_tidy : State.reset.tidy := ⟨reset_mem_wf, rfl, fun _ h => nomatch h⟩

/-- The one thing that moves after reset is the reset's own step, which is due in the boot state RESET. -/
theorem reset_movesWell : State.reset.MovesWell where
  harts _ h := nomatch h
  front _ h := nomatch h
  units i h := by
    cases h
    exact .inr rfl
  arrivals _ h := nomatch h
  rest h := nomatch h
  timer h := nomatch h

theorem reset_chain (r : VReg) : State.reset.h.chain r = Desc.released := Vector.getElem_replicate ..
theorem reset_ticket (t : Nat) : State.reset.h.ticket t = Ticket.empty := Vector.getElem_replicate ..

end Sys2Proof.Machine

open Sys2Proof Sys2Proof.Machine

/-- Settles O7: each register field is the reset value by definition; the two invariants are `reset_tidy` and `reset_movesWell`. -/
theorem resetValues : Obligations.ResetValues := by
  unfold Obligations.ResetValues
  exact ⟨rfl, rfl, rfl, rfl, rfl, rfl, rfl, rfl, rfl, rfl, rfl, rfl, rfl, rfl, rfl, rfl, rfl, rfl, rfl, rfl, rfl, rfl,
    fun r => by rw [reset_chain]; rfl, fun t => by rw [reset_ticket]; rfl, rfl, rfl, reset_tidy, reset_movesWell⟩

end

section
/-! PROOFS. Freeing a frame-indirection entry: the write of STATE 0 also has FROM 0, which may be another entry's. -/

namespace Sys2Proof.Machine

/-- FRAME_ENTRY_FREE is a write of 0 to the entry (R95). -/
theorem exec_frameEntryFree {stack index : Nat} (s : State) (hs : stack < 12) (hi : index < 256) :
    exec (.frameEntryFree stack index) s = .next (s.frameWrite stack index 0) := if_neg (by omega)

/-- Entry 0 of stack 0 is to be freed while entry 1 redirects frame 0 of the stack. -/
def redirectsFrameZero : State := { State.reset with frames := [⟨0, 0, 2, 3, 9⟩, ⟨0, 1, 2, 0, 5⟩] }

/-- Duplicate FROM (R95) is judged on the 0 of the freeing write: the entry's STATE becomes 0, but its TO and FROM stand. -/
theorem frameWord_freed_beside_frame_zero :
    (redirectsFrameZero.frameWrite 0 0 0).frameWord 0 0 = BitVec.ofNat 64 (9 * 2 ^ 32 + 3) := by decide +kernel

end Sys2Proof.Machine

open Sys2Proof Sys2Proof.Machine

/-- Refutes O57: a freed entry does not read 0 when another entry in force has FROM 0 (`redirectsFrameZero`). -/
theorem not_framesLinksNodesAndScrubs : ¬ Obligations.FramesLinksNodesAndScrubs := by
  unfold Obligations.FramesLinksNodesAndScrubs
  rintro ⟨frames, -⟩
  obtain ⟨-, -, freed, -⟩ := frames redirectsFrameZero 0 0 0 0 (by decide) (by decide) (by decide) (by decide)
  rw [exec_frameEntryFree _ (by decide) (by decide)] at freed
  obtain ⟨t, ht, reads0, -⟩ := freed
  cases ht
  rw [frameWord_freed_beside_frame_zero] at reads0
  exact absurd reads0 (by decide)

end

section
/-! PROOFS. What the steps of `hsave` and `hload` leave of the current hart. -/

namespace Sys2Proof.Machine

/-! Storage: a write at home, or of an image, changes memory, poison and the two lists that go with them. -/

/-- t is s but for storage, the releases that stand and what scans need. -/
def SameButStorage (s t : State) : Prop := ∃ m p r c, t = { s with mem := m, poison := p, rels := r, scans := c }

theorem SameButStorage.refl (s : State) : SameButStorage s s := ⟨_, _, _, _, rfl⟩

theorem SameButStorage.trans {s t u : State} : SameButStorage s t → SameButStorage t u → SameButStorage s u := by
  rintro ⟨_, _, _, _, rfl⟩ ⟨_, _, _, _, rfl⟩
  exact ⟨_, _, _, _, rfl⟩

theorem SameButStorage.foldl {f : State → α → State} (h : ∀ s a, SameButStorage s (f s a)) (s : State) (l : List α) :
    SameButStorage s (l.foldl f s) :=
  List.foldlRecOn l f (.refl s) fun t ht a _ => ht.trans (h t a)

theorem putBytes_storage (s : State) (k : Nat) (bs : List Byte) : SameButStorage s (s.putBytes k bs) :=
  ⟨_, _, _, _, putBytes_mem s k bs⟩

theorem homeWrite_storage (s : State) (k : Nat) (bs : List Byte) : SameButStorage s (s.homeWrite k bs) := by
  have healed (u : State) (j : Nat) : SameButStorage u ((u.healUnits j bs.length).putBytes j bs) :=
    .trans ⟨_, _, _, _, rfl⟩ (putBytes_storage _ _ _)
  have first : SameButStorage s (((s.cutRels k bs.length).healUnits (s.readKeyOf k) bs.length).putBytes (s.readKeyOf k) bs) :=
    .trans ⟨_, _, _, _, rfl⟩ (healed (s.cutRels k bs.length) _)
  unfold State.homeWrite
  split
  · exact first.trans (healed _ _)
  · exact first

theorem putPhys_storage (l : List (Nat × Nat)) : ∀ (s : State) (bs : List Byte), SameButStorage s (s.putPhys l bs) := by
  induction l with
  | nil => exact fun s _ => .refl s
  | cons b l ih =>
    obtain ⟨p, n⟩ := b
    intro s bs
    unfold State.putPhys
    split
    · exact (homeWrite_storage _ _ _).trans (ih _ _)
    · exact ih _ _

theorem writePhys_storage (s : State) (p : Nat) (bs : List Byte) : SameButStorage s (s.writePhys p bs) := putPhys_storage _ _ _

theorem keepScans_storage (s : State) (base : Nat) (check : BitVec 32) : SameButStorage s (s.keepScans base check) := ⟨_, _, _, _, rfl⟩

theorem writeImage_storage (s : State) (base : Nat) (h : SaveHead) : SameButStorage s (s.writeImage base h) := by
  unfold State.writeImage
  generalize s.saveBytes h = body
  have parts := SameButStorage.foldl (f := fun (t : State) (p : Nat × List Byte) => t.writePhys (base + p.1) p.2)
    (fun t p => writePhys_storage t (base + p.1) p.2) s ((h.parts.map Prod.fst).zip body)
  exact (parts.trans (writePhys_storage _ _ _)).trans (keepScans_storage _ _ _)

theorem loadStore_storage (s : State) (base : Nat) : SameButStorage s (s.loadStore base) := homeWrite_storage _ _ _

/-! The hart that saves or loads: its registers and convoy through the changes of lanes, caches and tiles of its core. -/

/-- The hart of t is that of s but for what it owes and the machine checks that wait, and its core's tiles are held as before. -/
structure SameHeld (s t : State) : Prop where
  cur : t.cur = s.cur
  hart : ∃ d m, t.h = { s.h with debt := d, mcheck := m }
  za0 : t.core.za0 = s.core.za0
  za1 : t.core.za1 = s.core.za1

theorem SameHeld.refl (s : State) : SameHeld s s := ⟨rfl, ⟨_, _, rfl⟩, rfl, rfl⟩

theorem SameHeld.trans {s t u : State} (h : SameHeld s t) (g : SameHeld t u) : SameHeld s u := by
  obtain ⟨d, m, hh⟩ := h.hart
  obtain ⟨e, n, hg⟩ := g.hart
  exact ⟨g.cur.trans h.cur, ⟨e, n, by rw [hg, hh]⟩, g.za0.trans h.za0, g.za1.trans h.za1⟩

theorem SameHeld.foldl {f : State → α → State} (h : ∀ s a, SameHeld s (f s a)) (s : State) (l : List α) : SameHeld s (l.foldl f s) :=
  List.foldlRecOn l f (.refl s) fun t ht a _ => ht.trans (h t a)

theorem SameButStorage.held {s t : State} : SameButStorage s t → SameHeld s t := by
  rintro ⟨_, _, _, _, rfl⟩
  exact ⟨rfl, ⟨_, _, rfl⟩, rfl, rfl⟩

theorem setHart_held (s : State) (k : Nat) (h : Hart) (hh : ∃ d m, h = { s.hartAt k with debt := d, mcheck := m }) :
    SameHeld s (s.setHart k h) := by
  unfold State.setHart
  split
  · next hk =>
    have same : s.hartAt k = s.h := if_pos hk
    exact ⟨rfl, same ▸ hh, rfl, rfl⟩
  · exact ⟨rfl, ⟨_, _, rfl⟩, rfl, rfl⟩

theorem setCore_held (s : State) (n : Nat) (c : Core) (h0 : c.za0 = (s.coreAt n).za0) (h1 : c.za1 = (s.coreAt n).za1) :
    SameHeld s (s.setCore n c) := by
  unfold State.setCore
  split
  · next hn =>
    have hc : s.coreAt n = s.core := if_pos hn
    exact ⟨rfl, ⟨_, _, rfl⟩, h0.trans (by rw [hc]), h1.trans (by rw [hc])⟩
  · exact ⟨rfl, ⟨_, _, rfl⟩, rfl, rfl⟩

theorem entitle_held (s : State) (n : Nat) : SameHeld s (s.entitle n) := by
  unfold State.entitle
  generalize s.entitlements n = e
  exact .foldl (fun t p => setHart_held t (8 * n + p.1) _ ⟨_, _, rfl⟩) s e

theorem handOut_held (s : State) (n : Nat) : SameHeld s (s.handOut n) := by
  refine .foldl (fun t i => ?_) s _
  dsimp only
  split
  · exact setCore_held t n _ rfl rfl
  · exact .refl t

theorem lineCheck_held (s : State) (n : Nat) (l : L1Line) : SameHeld s (s.lineCheck n l) := by
  unfold State.lineCheck
  split
  · exact setHart_held s _ _ ⟨_, _, rfl⟩
  · exact .refl s

theorem writeBack_held (s : State) (n : Nat) (l : L1Line) : SameHeld s (s.writeBack n l) := by
  unfold State.writeBack
  split
  · exact lineCheck_held s n l
  · split
    · exact ⟨rfl, ⟨_, _, rfl⟩, rfl, rfl⟩
    · exact (homeWrite_storage _ _ _).held

theorem sweepAt_held (s : State) (n : Nat) (test : L1Line → Bool) (back keep : Bool) : SameHeld s (s.sweepAt n test back keep) := by
  have written : SameHeld s (if back then (((s.coreAt n).l1.filter test).filter (·.dirty)).foldl (fun t l => t.writeBack n l) s else s) := by
    split
    · exact .foldl (fun t l => writeBack_held t n l) s _
    · exact .refl s
  exact written.trans (setCore_held _ n _ rfl rfl)

theorem evictCaches_held (s : State) : SameHeld s s.evictCaches :=
  ((SameHeld.foldl (fun t (_ : KeyEntry) => sweepAt_held t t.coreNo _ true false) s _).trans (sweepAt_held _ _ _ _ _)).trans
    (setCore_held _ _ _ rfl rfl)

end Sys2Proof.Machine

end

section
/-! PROOFS. The header of a save area: what is written at a physical address reads back, and the header's words give its fields. -/

namespace Sys2Proof.Machine

/-! Reads depend on memory and on the frames alone. -/

theorem homeByte_congr {s t : State} (hm : t.mem = s.mem) (hf : t.frames = s.frames) (k : Nat) : t.homeByte k = s.homeByte k := by
  unfold State.homeByte State.readKeyOf
  rw [hm, hf]

theorem homeRead_congr {s t : State} (hm : t.mem = s.mem) (hf : t.frames = s.frames) (n : Nat) : ∀ k, t.homeRead k n = s.homeRead k n := by
  induction n with
  | zero => exact fun _ => rfl
  | succ n ih => exact fun k => by rw [State.homeRead, State.homeRead, homeByte_congr hm hf, ih]

theorem readPhys_congr {s t : State} (hm : t.mem = s.mem) (hf : t.frames = s.frames) (p n : Nat) : t.readPhys p n = s.readPhys p n := by
  unfold State.readPhys
  simp only [homeRead_congr hm hf]

theorem physWord_congr {s t : State} (hm : t.mem = s.mem) (hf : t.frames = s.frames) (p : Nat) : t.physWord p = s.physWord p := by
  rw [State.physWord, State.physWord, readPhys_congr hm hf]

theorem readHead_congr {s t : State} (hm : t.mem = s.mem) (hf : t.frames = s.frames) (base : Nat) : t.readHead base = s.readHead base := by
  unfold State.readHead
  simp only [physWord_congr hm hf]

/-! Inside one 4 KiB block physical addresses and storage keys go together. -/

theorem blocksOf_inside {p n : Nat} (hn : 0 < n) (h : p % 4096 + n ≤ 4096) : blocksOf p n = [(p, n)] := by
  have one : (p + n - 1) / 4096 + 1 - p / 4096 = 1 := by omega
  unfold blocksOf
  rw [if_neg (by omega), one]
  simp only [List.range_one, List.map_cons, List.map_nil, Nat.add_zero]
  congr 2 <;> omega

theorem physKey_add {p i k : Nat} (hp : p % 4096 = 0) (hi : i < 4096) (hk : physKey p = some k) : physKey (p + i) = some (k + i) := by
  have inWin : (p + i) / 4096 = p / 4096 := by omega
  unfold physKey at hk ⊢
  split at hk
  · next h =>
    rw [if_pos (by omega)]
    simp only [Option.some.injEq] at hk ⊢
    rw [inWin]
    omega
  · next h =>
    rw [if_neg (by omega)]
    split at hk
    · next h2 =>
      rw [if_pos (by omega)]
      have hd : (p + i - 2 ^ 40) / 2 ^ 38 = (p - 2 ^ 40) / 2 ^ 38 := by omega
      have hq : (p + i - 2 ^ 40) % 2 ^ 38 = (p - 2 ^ 40) % 2 ^ 38 + i := by omega
      have h4 : (p - 2 ^ 40) % 2 ^ 38 % 4096 = 0 := by omega
      dsimp only at hk ⊢
      rw [hd, hq]
      split at hk
      · next h3 =>
        rw [if_pos (by omega)]
        have hb : ((p - 2 ^ 40) % 2 ^ 38 + i) / 4096 = (p - 2 ^ 40) % 2 ^ 38 / 4096 := by omega
        simp only [Option.some.injEq] at hk ⊢
        rw [hb]
        omega
      · cases hk
    · cases hk

/-! Without frames and poison a write at home reads back. -/

theorem putBytes_read (bs : List Byte) : ∀ (s : State) (k : Nat), s.poison = [] → s.mem.wf = true → ∀ i (h : i < bs.length),
    memGet (s.putBytes k bs).mem (k + i) = bs[i] := by
  induction bs with
  | nil => exact fun s k _ _ i h => absurd h (Nat.not_lt_zero i)
  | cons b bs ih =>
    intro s k hp hw i hi
    have put : s.putByte k b = { s with mem := memSet s.mem k b } := by
      unfold State.putByte
      rw [hp]
      rfl
    have wf' : (s.putByte k b).mem.wf = true := by rw [put]; exact memSet_wf _ _ _ hw
    rw [State.putBytes]
    cases i with
    | zero =>
      rw [putBytes_outside bs _ _ _ wf' (by omega), put]
      exact (memGet_memSet _ _ _ _ hw).trans (if_pos rfl)
    | succ i =>
      have := ih (s.putByte k b) (k + 1) (by rw [put]; exact hp) wf' i (by simpa using hi)
      rw [show k + (i + 1) = k + 1 + i by omega, this]
      rfl

theorem readKeyOf_noFrames {s : State} (hf : s.frames = []) (k : Nat) : s.readKeyOf k = k := by
  unfold State.readKeyOf
  rw [hf]
  simp

theorem homeWrite_noFrames {s : State} (hf : s.frames = []) (k : Nat) (bs : List Byte) :
    s.homeWrite k bs = ((s.cutRels k bs.length).healUnits k bs.length).putBytes k bs := by
  have twin : s.twinKeyOf k = none := by
    unfold State.twinKeyOf
    rw [hf]
    simp
  unfold State.homeWrite
  rw [twin, readKeyOf_noFrames hf]

theorem homeByte_homeWrite {s : State} (hf : s.frames = []) (hp : s.poison = []) (hw : s.mem.wf = true) (k : Nat) (bs : List Byte) (i : Nat)
    (hi : i < bs.length) : (s.homeWrite k bs).homeByte (k + i) = bs[i] := by
  obtain ⟨m, p, r, c, same⟩ := homeWrite_storage s k bs
  have hf' : (s.homeWrite k bs).frames = [] := by rw [same]; exact hf
  unfold State.homeByte
  rw [readKeyOf_noFrames hf', homeWrite_noFrames hf]
  exact putBytes_read bs ((s.cutRels k bs.length).healUnits k bs.length) k (by simp [State.healUnits, State.cutRels, hp]) hw i hi

theorem homeRead_getElem (s : State) (n : Nat) : ∀ k, s.homeRead k n = (List.range n).map fun i => s.homeByte (k + i) := by
  induction n with
  | zero => exact fun _ => rfl
  | succ n ih =>
    intro k
    rw [State.homeRead, ih, List.range_succ_eq_map, List.map_cons, List.map_map]
    congr 1
    exact List.map_congr_left fun i _ => by simp only [Function.comp_apply]; congr 1; omega

theorem homeRead_homeWrite {s : State} (hf : s.frames = []) (hp : s.poison = []) (hw : s.mem.wf = true) (k : Nat) (bs : List Byte) {i n : Nat}
    (h : i + n ≤ bs.length) : (s.homeWrite k bs).homeRead (k + i) n = (bs.drop i).take n := by
  rw [homeRead_getElem]
  refine List.ext_getElem (by simp; omega) fun j h1 h2 => ?_
  have hj : j < n := by simpa using h1
  rw [List.getElem_map, List.getElem_range, Nat.add_assoc, homeByte_homeWrite hf hp hw k bs (i + j) (by omega), List.getElem_take, List.getElem_drop]

/-! Words. -/

theorem ofBytes_toBytes (n v : Nat) : ofBytes (toBytes n v) = v % 256 ^ n := by
  induction n generalizing v with
  | zero => simp [toBytes, ofBytes, Nat.mod_one]
  | succ n ih =>
    rw [toBytes, ofBytes, ih, BitVec.toNat_ofNat, Nat.pow_succ' (m := 256), Nat.mod_mul]

theorem wordsBytes_word (l : List Word) (j : Nat) (h : j < l.length) : ((wordsBytes l).drop (8 * j)).take 8 = toBytes 8 l[j].toNat := by
  induction l generalizing j with
  | nil => exact absurd h (Nat.not_lt_zero j)
  | cons w l ih =>
    have cut : wordsBytes (w :: l) = toBytes 8 w.toNat ++ wordsBytes l := rfl
    have len : (toBytes 8 w.toNat).length = 8 := rfl
    cases j with
    | zero => rw [cut, Nat.mul_zero, List.drop_zero, List.take_left' len]; rfl
    | succ j =>
      rw [cut, show 8 * (j + 1) = 8 + 8 * j by omega, ← List.drop_drop, List.drop_left' len]
      exact ih j (by simpa using h)

/-- A word of a list that has been written at a block's start reads back. -/
theorem physWord_writePhys {s : State} (hf : s.frames = []) (hp : s.poison = []) (hw : s.mem.wf = true) {base k : Nat} (hb : base % 4096 = 0)
    (hk : physKey base = some k) (l : List Word) (hl : l.length ≤ 512) (j : Nat) (h : j < l.length) :
    (s.writePhys base (wordsBytes l)).physWord (base + 8 * j) = l.getD j 0 := by
  have written : s.writePhys base (wordsBytes l) = s.homeWrite k (wordsBytes l) := by
    unfold State.writePhys
    rw [blocksOf_inside (by rw [wordsBytes_length]; omega) (by rw [wordsBytes_length]; omega)]
    simp only [State.putPhys, hk, List.take_length]
  unfold State.physWord State.readPhys
  rw [written, blocksOf_inside (by omega) (by omega), List.flatMap_singleton]
  dsimp only
  rw [physKey_add hb (by omega) hk]
  dsimp only
  rw [List.getD_eq_getElem _ _ h, homeRead_homeWrite hf hp hw k _ (by rw [wordsBytes_length]; omega), wordsBytes_word l j h, ofBytes_toBytes]
  exact BitVec.eq_of_toNat_eq (by simp [l[j].isLt])

/-! The header's fields. -/

theorem extractLsb'_of_div {w : Word} {a n : Nat} {v : BitVec n} (h : w.toNat / 2 ^ a % 2 ^ n = v.toNat) : w.extractLsb' a n = v :=
  BitVec.eq_of_toNat_eq (by rw [BitVec.extractLsb'_toNat, Nat.shiftRight_eq_div_pow, h])

theorem getLsbD_of_div {w : Word} {i : Nat} {b : Bool} (h : w.toNat / 2 ^ i % 2 = b.toNat) : w.getLsbD i = b := by
  rw [← BitVec.testBit_toNat, Nat.testBit_eq_decide_div_mod_eq, h]
  cases b <;> rfl

/-- The fields of word 0 of a header (Table 17-11). -/
theorem idWord_fields (t d c : BitVec 16) : let w : Word := BitVec.ofNat 64 (t.toNat * 2 ^ 32 + d.toNat * 2 ^ 16 + c.toNat)
    w.extractLsb' 0 16 = c ∧ w.extractLsb' 16 16 = d ∧ w.extractLsb' 32 16 = t := by
  have hc := c.isLt
  have hd := d.isLt
  have ht := t.isLt
  refine ⟨extractLsb'_of_div ?_, extractLsb'_of_div ?_, extractLsb'_of_div ?_⟩ <;> rw [BitVec.toNat_ofNat] <;> omega

/-- The fields of word 1, the counts cut to 12 bits. -/
theorem flagWord_fields (q u : Nat) (c : BitVec 8) (p : BitVec 2) (b4 b3 b2 b1 b0 : Bool) :
    let w : Word := BitVec.ofNat 64 (q % 4096 * 2 ^ 48 + u % 4096 * 2 ^ 32 + c.toNat * 2 ^ 16 + p.toNat * 2 ^ 8 + b4.toNat * 16 + b3.toNat * 8 + b2.toNat * 4
      + b1.toNat * 2 + b0.toNat)
    (w.getLsbD 0 = b0 ∧ w.getLsbD 1 = b1 ∧ w.getLsbD 2 = b2 ∧ w.getLsbD 3 = b3 ∧ w.getLsbD 4 = b4) ∧ w.extractLsb' 8 2 = p ∧ w.extractLsb' 16 8 = c
      ∧ (w.extractLsb' 32 12).toNat = u % 4096 ∧ (w.extractLsb' 48 12).toNat = q % 4096 := by
  have hc := c.isLt
  have hp := p.isLt
  have h0 := b0.toNat_le
  have h1 := b1.toNat_le
  have h2 := b2.toNat_le
  have h3 := b3.toNat_le
  have h4 := b4.toNat_le
  have count (a n : Nat) (w : Word) : (w.extractLsb' a n).toNat = w.toNat / 2 ^ a % 2 ^ n := by rw [BitVec.extractLsb'_toNat, Nat.shiftRight_eq_div_pow]
  refine ⟨⟨getLsbD_of_div ?_, getLsbD_of_div ?_, getLsbD_of_div ?_, getLsbD_of_div ?_, getLsbD_of_div ?_⟩, extractLsb'_of_div ?_, extractLsb'_of_div ?_,
    (count _ _ _).trans ?_, (count _ _ _).trans ?_⟩ <;> rw [BitVec.toNat_ofNat] <;> omega

/-- The fields of word 4, slot and request cut to theirs. -/
theorem slotWord_fields (r s : Nat) (m : BitVec 16) : let w : Word := BitVec.ofNat 64 (r % 16 * 2 ^ 20 + s % 8 * 2 ^ 16 + m.toNat)
    w.extractLsb' 0 16 = m ∧ (w.extractLsb' 16 3).toNat = s % 8 ∧ (w.extractLsb' 20 4).toNat = r % 16 := by
  have hm := m.isLt
  have count (a n : Nat) (w : Word) : (w.extractLsb' a n).toNat = w.toNat / 2 ^ a % 2 ^ n := by rw [BitVec.extractLsb'_toNat, Nat.shiftRight_eq_div_pow]
  refine ⟨extractLsb'_of_div ?_, (count _ _ _).trans ?_, (count _ _ _).trans ?_⟩ <;> rw [BitVec.toNat_ofNat] <;> omega

/-- A header read back from its own words: a count too large for its field is cut to it. -/
theorem ofWords_words (h : SaveHead) (check : BitVec 32) :
    SaveHead.ofWords ((h.words check).getD 0 0) ((h.words check).getD 1 0) ((h.words check).getD 2 0) ((h.words check).getD 4 0)
      = { h with used := h.used % 4096, quota := h.quota % 4096, slot := h.slot % 8, req := h.req % 16 } := by
  obtain ⟨ctx, hartid, taskid⟩ := idWord_fields h.taskid h.hartid h.ctx
  obtain ⟨⟨ls, tile0, tile1, rr, pfr⟩, priv, cause, used, quota⟩ := flagWord_fields h.quota h.used h.cause h.priv h.pfr h.rr h.tile1 h.tile0 h.ls
  obtain ⟨myph, slot, req⟩ := slotWord_fields h.req h.slot h.myph
  simp only [SaveHead.words, SaveHead.ofWords, List.getD_cons_zero, List.getD_cons_succ, ctx, hartid, taskid, ls, tile0, tile1, rr, pfr, priv, cause, used,
    quota, myph, slot, req]

/-! An image written, and its header. -/

/-- Every write goes to its own place and is kept: no frame redirects, no unit is poisoned, memory is canonical. -/
structure ClearStore (s : State) : Prop where
  frames : s.frames = []
  poison : s.poison = []
  wf : s.mem.wf = true

theorem homeWrite_clear {s : State} (h : ClearStore s) (k : Nat) (bs : List Byte) : ClearStore (s.homeWrite k bs) where
  frames := by
    obtain ⟨m, p, r, c, same⟩ := homeWrite_storage s k bs
    rw [same]
    exact h.frames
  poison := by
    rw [homeWrite_noFrames h.frames, putBytes_mem]
    simp [State.healUnits, State.cutRels, h.poison]
  wf := homeWrite_wf s k bs h.wf

theorem putPhys_clear (l : List (Nat × Nat)) : ∀ {s : State} (_ : ClearStore s) (bs : List Byte), ClearStore (s.putPhys l bs) := by
  induction l with
  | nil => exact fun h _ => h
  | cons b l ih =>
    obtain ⟨p, n⟩ := b
    intro s h bs
    unfold State.putPhys
    split
    · exact ih (homeWrite_clear h _ _) _
    · exact ih h _

/-- The header is the last part of an image that is written. -/
theorem writeImage_header {s : State} (clear : ClearStore s) (base : Nat) (h : SaveHead) :
    ∃ u check, ClearStore u ∧ s.writeImage base h = (u.writePhys base (wordsBytes (h.words check))).keepScans base check := by
  unfold State.writeImage
  generalize s.saveBytes h = body
  exact ⟨_, _, List.foldlRecOn _ _ clear fun t ht p _ => putPhys_clear _ ht _, rfl⟩

theorem readHead_keepScans (s : State) (base : Nat) (check : BitVec 32) (p : Nat) : (s.keepScans base check).readHead p = s.readHead p :=
  readHead_congr (s := s) (t := s.keepScans base check) rfl rfl p

/-- It reads back, counts too large for their fields cut to them. -/
theorem readHead_writeImage {s : State} (clear : ClearStore s) {base k : Nat} (hb : base % 4096 = 0) (hk : physKey base = some k) (h : SaveHead) :
    (s.writeImage base h).readHead base = { h with used := h.used % 4096, quota := h.quota % 4096, slot := h.slot % 8, req := h.req % 16 } := by
  obtain ⟨u, check, store, written⟩ := writeImage_header clear base h
  have word (j : Nat) (hj : j < 8) : (u.writePhys base (wordsBytes (h.words check))).physWord (base + 8 * j) = (h.words check).getD j 0 :=
    physWord_writePhys store.frames store.poison store.wf hb hk (h.words check) (by decide : 8 ≤ 512) j hj
  rw [written, readHead_keepScans]
  unfold State.readHead
  rw [← ofWords_words h check, ← word 0 (by decide), ← word 1 (by decide), ← word 2 (by decide), ← word 4 (by decide)]
  rfl

end Sys2Proof.Machine

end

section
/-! PROOFS. `hsave`: the image it writes, and what REL gives up (R354). -/

namespace Sys2Proof.Machine

/-! Results of a scalar word. -/

/-- A word that writes a status and has left its hart awake but for what it writes completes with that status. -/
theorem wr_status {s u : State} (h : u.h = s.awake.h) (xd : XReg) (n : Nat) :
    completes (u.wr xd (BitVec.ofNat 64 n)) fun t => StatusResult xd n s t ∧ t = { u with h := u.h.withScalar t.h } := by
  obtain ⟨t, ht, r⟩ := wr_completes (s := s) (u := u) (by rw [h]; exact ⟨rfl, rfl, rfl⟩) (by rw [h]; exact ⟨rfl, rfl, rfl⟩) xd (BitVec.ofNat 64 n)
  refine ⟨t, ht, ⟨r.value, r.others, r.retired, ?_⟩, r.rest⟩
  have hart : t.h = u.h.withScalar t.h := congrArg State.h r.rest
  rw [hart, h]
  rfl

theorem awake_status (s : State) (xd : XReg) (n : Nat) : completes (s.awake.wr xd (BitVec.ofNat 64 n)) (StatusResult xd n s) := by
  obtain ⟨t, ht, r, -⟩ := wr_status (u := s.awake) rfl xd n
  exact ⟨t, ht, r⟩

/-! Before the image: links returned and rows read. -/

theorem returnLinks_eq (s : State) : ∃ n l, s.returnLinks = { s with h := { s.h with vused := n }, core := { s.core with links := l } } := by
  have freed (mine : List (Nat × Link)) : ∃ l, mine.foldl (fun (t : State) p => t.freeLink p.1) s = { s with core := { s.core with links := l } } := by
    refine List.foldlRecOn (motive := fun t : State => ∃ l, t = { s with core := { s.core with links := l } }) mine _ ⟨_, rfl⟩ ?_
    rintro t ⟨l, rfl⟩ p _
    exact ⟨_, rfl⟩
  unfold State.returnLinks
  dsimp only
  obtain ⟨l, hl⟩ := freed (s.core.links.filter fun p => p.2.kind == .pending && p.2.slot == s.slotNo)
  rw [hl]
  exact ⟨_, _, rfl⟩

theorem readRows_eq (s : State) (rows : List Nat) :
    ∃ m, s.readRows rows = { s with h := { s.h with mcheck := m } } ∧ (s.core.badRows = [] → m = s.h.mcheck) := by
  unfold State.readRows
  split
  · next r hr =>
    refine ⟨_, rfl, fun none => ?_⟩
    have bad := List.find?_some hr
    rw [none] at bad
    cases bad
  · exact ⟨_, rfl, fun _ => rfl⟩

/-! `hsave`. -/

/-- What an image is made of: the hart awake, its returned links free, its links read. -/
def State.readyToSave (s : State) : State := s.awake.returnLinks.readLinks

/-- The image written for `hsave`, with the local store or without. -/
def State.saved (s : State) (ls : Bool) : State :=
  let t := s.readyToSave
  t.writeImage t.saveBase (t.saveHead ls t.h.ppriv t.h.cause t.h.tpc)

theorem readyToSave_eq (s : State) :
    ∃ n m c, s.readyToSave = { s with h := { s.awake.h with vused := n, mcheck := m }, core := c } ∧ (s.core.badRows = [] → m = s.h.mcheck) := by
  obtain ⟨n, l, returned⟩ := returnLinks_eq s.awake
  obtain ⟨m, read, sound⟩ := readRows_eq s.awake.returnLinks (s.awake.returnLinks.ownLinks.flatMap fun p => s.awake.returnLinks.linkRows p.1)
  refine ⟨n, m, { s.core with links := l }, ?_, ?_⟩
  · rw [State.readyToSave, State.readLinks, read, returned]
    rfl
  · rw [returned] at sound
    exact sound

theorem saved_eq (s : State) (ls : Bool) :
    ∃ n m, (s.saved ls).h = { s.awake.h with vused := n, mcheck := m } ∧ (s.saved ls).cur = s.cur ∧ (s.saved ls).pend = s.pend
      ∧ (s.saved ls).keyring = s.keyring ∧ (s.core.badRows = [] → m = s.h.mcheck) := by
  obtain ⟨n, m, c, ready, sound⟩ := readyToSave_eq s
  have image : SameButStorage s.readyToSave (s.saved ls) := writeImage_storage _ _ _
  obtain ⟨_, _, _, _, written⟩ := image
  refine ⟨n, m, ?_⟩
  rw [written, ready]
  exact ⟨rfl, rfl, rfl, rfl, sound⟩

theorem reserved_iff (a : Word) : a.extractLsb' 2 62 ≠ 0 ↔ 4 ≤ a.toNat := by
  have hl := a.isLt
  have zero : (0 : BitVec 62).toNat = 0 := rfl
  rw [Ne, ← BitVec.toNat_inj, BitVec.extractLsb'_toNat, Nat.shiftRight_eq_div_pow, zero]
  omega

/-- `hsave` in mode S with no reserved bit, no command in flight and nothing of its own to reclaim (R354). -/
theorem hsave_saves {s : State} (xd xa : XReg) (hm : s.h.mode = .s) (ha : (s.x xa).toNat < 4) (hc : s.h.cmds = [])
    (hr : ∀ q ∈ s.core.reclaim, q.owner ≠ s.cur) : exec (.hsave xd xa) s =
      (if (s.x xa).getLsbD 1 then (s.saved ((s.x xa).getLsbD 0)).releaseAll else s.saved ((s.x xa).getLsbD 0)).wr xd 0 := by
  have legal : ¬ (s.x xa).extractLsb' 2 62 ≠ 0 := by rw [reserved_iff]; omega
  have settled : ¬ ((!s.h.cmds.isEmpty) = true ∨ s.core.reclaim.any (fun q => q.owner == s.cur) = true) := by
    rw [hc, List.any_eq_true]
    rintro (h | ⟨q, hq, h⟩)
    · cases h
    · exact hr q hq (by simpa using h)
  show execHsave xd xa s = _
  unfold execHsave
  rw [if_neg (not_not_intro hm), if_neg legal, if_neg settled]
  rfl

theorem hsave_reserved {s : State} (xd xa : XReg) (hm : s.h.mode = .s) (ha : 4 ≤ (s.x xa).toNat) :
    exec (.hsave xd xa) s = s.awake.wr xd 1 := by
  show execHsave xd xa s = _
  unfold execHsave
  rw [if_neg (not_not_intro hm), if_pos ((reserved_iff _).2 ha)]

/-- The header of the image that `hsave` writes. -/
theorem saved_readHead {s : State} (store : ClearStore s) (ls : Bool) {k : Nat} (hk : physKey (s.h.saBase.toNat * 2 ^ 22) = some k) :
    let g := (s.saved ls).readHead (s.h.saBase.toNat * 2 ^ 22)
    g.ctx = s.h.kctx ∧ g.hartid = s.h.hartid ∧ g.taskid = s.h.taskid ∧ g.priv = s.h.ppriv ∧ g.cause = s.h.cause ∧ g.pc = s.h.tpc ∧ g.myph = s.h.myph
      ∧ g.rr = s.h.rr.isSome ∧ g.pfr = s.h.pfr.isSome ∧ g.ls = ls := by
  obtain ⟨n, m, c, ready, -⟩ := readyToSave_eq s
  have clear : ClearStore s.readyToSave := by
    rw [ready]
    exact ⟨store.frames, store.poison, store.wf⟩
  have base : s.readyToSave.saveBase = s.h.saBase.toNat * 2 ^ 22 := by
    rw [ready]
    rfl
  have head := readHead_writeImage clear (base := s.h.saBase.toNat * 2 ^ 22) (by omega) hk
    (s.readyToSave.saveHead ls s.readyToSave.h.ppriv s.readyToSave.h.cause s.readyToSave.h.tpc)
  rw [← base] at head
  dsimp only
  rw [← base]
  refine head ▸ ?_
  rw [ready]
  exact ⟨rfl, rfl, rfl, rfl, rfl, rfl, rfl, rfl, rfl, rfl⟩

/-! REL: what a hart gives up (R354). -/

/-- A hart that has given up its chains, masks, tickets and tiles, its scalar registers and convoy as they were. -/
structure GaveUp (s t : State) : Prop where
  regs : t.h.mode = s.h.mode ∧ t.h.xu = s.h.xu ∧ t.h.xs = s.h.xs
  convoy : t.h.convoy = s.h.convoy ∧ t.h.pc = s.h.pc ∧ t.h.instret = s.h.instret
  chains : ∀ r, t.h.chain r = Desc.released
  masks : t.h.m = Vector.replicate 8 0
  tickets : t.h.tickets = Vector.replicate 16 Ticket.empty
  za0 : t.core.za0.holder ≠ some s.slotNo
  za1 : t.core.za1.holder ≠ some s.slotNo

/-- t is s but for the pool of the core: links and the queue of the reclaimer. -/
def SameButPool (s t : State) : Prop := ∃ c, t = { s with core := c }

theorem SameButPool.trans {s t u : State} : SameButPool s t → SameButPool t u → SameButPool s u := by
  rintro ⟨_, rfl⟩ ⟨_, rfl⟩
  exact ⟨_, rfl⟩

theorem SameButPool.foldl {f : State → α → State} (h : ∀ s a, SameButPool s (f s a)) (s : State) (l : List α) : SameButPool s (l.foldl f s) :=
  List.foldlRecOn l f ⟨_, rfl⟩ fun t ht a _ => ht.trans (h t a)

theorem setRc_pool (s : State) (l n : Nat) : SameButPool s (s.setRc l n) := by
  unfold State.setRc
  split <;> exact ⟨_, rfl⟩

theorem releaseDesc_pool (s : State) (d : Desc) : SameButPool s (s.releaseDesc d) := by
  refine (SameButPool.foldl (fun t (p : Span) => setRc_pool t p.spine _) s d.spans).trans (.foldl (fun t p => ?_) _ _)
  dsimp only
  split
  · split <;> exact ⟨_, rfl⟩
  · exact ⟨_, rfl⟩

theorem releaseReg_eq (s : State) (r : VReg) : ∃ c, s.releaseReg r = { s with h := s.h.setChain r Desc.released, core := c } := by
  obtain ⟨c, hc⟩ := releaseDesc_pool (s.setChain r Desc.released) (s.h.chain r)
  exact ⟨c, hc⟩

/-- Registers released one after the other: each is marked, none is taken back. -/
theorem releaseRegs_eq (l : List (Fin 32)) : ∀ s : State, ∃ v c, l.foldl (fun (t : State) r => t.releaseReg (BitVec.ofFin r)) s = { s with h := { s.h with v := v }, core := c }
    ∧ ∀ i : Fin 32, (i ∈ l ∨ s.h.v[i] = Desc.released) → v[i] = Desc.released := by
  induction l with
  | nil => exact fun s => ⟨_, _, rfl, fun i h => h.resolve_left (List.not_mem_nil)⟩
  | cons r l ih =>
    intro s
    obtain ⟨c0, first⟩ := releaseReg_eq s (BitVec.ofFin r)
    obtain ⟨v, c, rest, marked⟩ := ih (s.releaseReg (BitVec.ofFin r))
    refine ⟨v, c, ?_, fun i hi => marked i ?_⟩
    · rw [List.foldl_cons, rest, first]
      rfl
    · have chain : (s.releaseReg (BitVec.ofFin r)).h.v[i] = if i = r then Desc.released else s.h.v[i] := by
        rw [first]
        simp only [Hart.setChain, Fin.getElem_fin, Vector.getElem_set, BitVec.toNat_ofFin, Fin.ext_iff, eq_comm]
      rw [chain]
      by_cases hr : i = r
      · exact .inr (if_pos hr)
      · rw [if_neg hr]
        exact hi.imp_left fun h => (List.mem_cons.1 h).resolve_left hr

theorem dropTile_holder (s : State) (t : Tile) : (s.dropTile t).holder ≠ some s.slotNo := by
  unfold State.dropTile
  split
  · exact nofun
  · assumption

/-- Chains kept by a record are released, and no longer kept. -/
theorem releaseDescs_pool (s : State) (l : List Desc) : SameButPool s (l.foldl (fun (t : State) d => t.releaseDesc d) s) :=
  .foldl releaseDesc_pool s l

theorem GaveUp.of_held {s t u : State} (h : GaveUp s t) (same : SameHeld t u) : GaveUp s u := by
  obtain ⟨cur, ⟨d, m, hart⟩, za0, za1⟩ := same
  obtain ⟨regs, convoy, chains, masks, tickets, h0, h1⟩ := h
  refine ⟨?_, ?_, ?_, ?_, ?_, za0 ▸ h0, za1 ▸ h1⟩ <;> rw [hart]
  · exact regs
  · exact convoy
  · exact chains
  · exact masks
  · exact tickets

theorem releaseAll_gaveUp (s : State) : GaveUp s s.releaseAll := by
  unfold State.releaseAll
  dsimp only
  refine .of_held ?_ (((entitle_held _ _).trans (handOut_held _ _)).trans (evictCaches_held _))
  obtain ⟨v, c, released, marked⟩ := releaseRegs_eq (List.finRange 32) s
  rw [released]
  generalize (_ ++ _ : List Desc) = kept
  obtain ⟨d, kept⟩ := releaseDescs_pool { s with h := { s.h with v := v }, core := c } kept
  rw [kept]
  exact ⟨⟨rfl, rfl, rfl⟩, ⟨rfl, rfl, rfl⟩, fun r => marked r.toFin (.inl (List.mem_finRange _)), rfl, rfl, dropTile_holder _ _, dropTile_holder _ _⟩

/-! What the word leaves. -/

/-- A status 0 written beside a new count of links and new machine checks. -/
theorem wr_statusBeside {s u : State} {n : Nat} {m : List Word} (hart : u.h = { s.awake.h with vused := n, mcheck := m }) (xd : XReg) :
    completes (u.wr xd 0) fun t => StatusResult xd 0 { s with h := { s.h with vused := t.h.vused, mcheck := t.h.mcheck } } t ∧ t.h.mcheck = m
      ∧ t.pend = u.pend ∧ t.keyring = u.keyring ∧ ∀ p, t.readHead p = u.readHead p := by
  obtain ⟨t, ht, status, rest⟩ := wr_status (s := { s with h := { s.h with vused := n, mcheck := m } }) hart xd 0
  have vused : t.h.vused = n := by
    rw [rest]
    exact congrArg Hart.vused hart
  have mcheck : t.h.mcheck = m := by
    rw [rest]
    exact congrArg Hart.mcheck hart
  have kept : t.pend = u.pend ∧ t.keyring = u.keyring ∧ t.mem = u.mem ∧ t.frames = u.frames := by
    rw [rest]
    exact ⟨rfl, rfl, rfl, rfl⟩
  obtain ⟨pend, keyring, mem, frames⟩ := kept
  refine ⟨t, ht, ?_, mcheck, pend, keyring, readHead_congr mem frames⟩
  rw [vused, mcheck]
  exact status

/-- `hsave` without REL completes with status 0 and changes nothing else but its links' count and the check of a bad row. -/
theorem saved_completes (s : State) (ls : Bool) (xd : XReg) : completes ((s.saved ls).wr xd 0) fun t =>
    StatusResult xd 0 { s with h := { s.h with vused := t.h.vused, mcheck := t.h.mcheck } } t ∧ (s.core.badRows = [] → t.h.mcheck = s.h.mcheck)
      ∧ t.pend = s.pend ∧ t.keyring = s.keyring ∧ ∀ p, t.readHead p = (s.saved ls).readHead p := by
  obtain ⟨n, m, hart, -, pend, keyring, sound⟩ := saved_eq s ls
  obtain ⟨t, ht, status, mcheck, keptPend, keptRing, head⟩ := wr_statusBeside hart xd
  exact ⟨t, ht, status, fun none => mcheck.trans (sound none), keptPend.trans pend, keptRing.trans keyring, head⟩

/-- A word that completes after its hart has given up what it held. -/
theorem wr_gaveUp {s u : State} (h : GaveUp s u) (xd : XReg) : completes (u.wr xd 0) fun t =>
    (xd ≠ 0 → t.x xd = 0) ∧ Retired s t ∧ (∀ r, t.h.chain r = Desc.released) ∧ (∀ r, r ≠ 0 → t.h.mask r = 0) ∧ (∀ j, j < 16 → t.h.ticket j = Ticket.empty)
      ∧ t.core.za0.holder ≠ some s.slotNo ∧ t.core.za1.holder ≠ some s.slotNo := by
  obtain ⟨regs, convoy, chains, masks, tickets, za0, za1⟩ := h
  obtain ⟨t, ht, r⟩ := wr_completes regs convoy xd 0
  have hart : t.h.v = u.h.v ∧ t.h.m = u.h.m ∧ t.h.tickets = u.h.tickets ∧ t.core = u.core := by
    rw [r.rest]
    exact ⟨rfl, rfl, rfl, rfl⟩
  obtain ⟨hv, hmask, ht', hcore⟩ := hart
  refine ⟨t, ht, fun h => r.value.trans (if_neg h), r.retired, fun r => ?_, fun r hr => ?_, fun j _ => ?_, hcore ▸ za0, hcore ▸ za1⟩
  · rw [← chains r, Hart.chain, Hart.chain]
    simp only [hv]
  · simp only [Hart.mask, if_neg hr, hmask, masks, Vector.getElem_replicate]
  · simp only [Hart.ticket, ht', tickets, Vector.getElem_replicate]

theorem saved_gaveUp (s : State) (ls : Bool) : GaveUp s (s.saved ls).releaseAll := by
  obtain ⟨n, m, hart, cur, -⟩ := saved_eq s ls
  obtain ⟨regs, convoy, chains, masks, tickets, za0, za1⟩ := releaseAll_gaveUp (s.saved ls)
  rw [hart] at regs convoy
  rw [State.slotNo, cur] at za0 za1
  exact ⟨regs, convoy, chains, masks, tickets, za0, za1⟩

end Sys2Proof.Machine

end

section
/-! PROOFS. `hload`: what an image gives the hart, and when it is taken (R351, R355). -/

namespace Sys2Proof.Machine

/-! What the image gives the hart. -/

/-- Links taken for an image leave the hart's place in the program as it is. -/
theorem loadLinks_pc (s : State) (base : Nat) (h : SaveHead) : (s.loadLinks base h).2.h.pc = s.h.pc := by
  unfold State.loadLinks
  dsimp only
  refine List.foldlRecOn (motive := fun t : State => t.h.pc = s.h.pc) _ _ ?_ fun _ ht _ _ => ht
  exact List.foldlRecOn (motive := fun a : List (Nat × Nat) × State => a.2.h.pc = s.h.pc) _ _ rfl fun _ ht _ _ => ht

/-- A saved state register's word, its reserved bits zero (R6). -/
def State.savedReg (s : State) (base i : Nat) : Word := s.physWord (base + 0x200 + 8 * i) &&& ((savedRegs[i]?).bind csrBits).getD 0

/-- A hart has what the image at a save area says: MYPH, the user registers, masks and state registers (R351). -/
structure ImageLoaded (s : State) (base : Nat) (h : SaveHead) (g : Hart) : Prop where
  myph : g.myph = h.myph
  regs : ∀ i : Fin 32, i ≠ 0 → g.xu[i] = s.physWord (base + 0x100 + 8 * i.val)
  masks : ∀ r : MReg, r ≠ 0 → g.mask r = BitVec.ofNat 8192 (ofBytes (s.readPhys (base + 0x2000 + 1024 * (r.toNat - 1)) 1024))
  tpc : g.tpc = s.savedReg base 22
  pfh : g.pfh = s.savedReg base 16
  tvec : g.tvec = s.savedReg base 21
  sflags : g.sflags = (s.savedReg base 11).extractLsb' 0 6

theorem loadImage_loaded (s : State) (base : Nat) (h : SaveHead) :
    (s.loadImage base h).h.pc = s.h.pc ∧ ImageLoaded s base h (s.loadImage base h).h := by
  unfold State.loadImage
  dsimp only
  obtain ⟨_, _, _, _, written⟩ := homeWrite_storage _ _ _
  rw [written]
  refine ⟨loadLinks_pc s base h, rfl, fun i hi => ?_, fun r hr => ?_, rfl, rfl, rfl, rfl⟩
  · have off : i.val ≠ 0 := fun e => hi (Fin.ext e)
    simp only [Fin.getElem_fin, Vector.getElem_ofFn, if_neg off]
  · have off : r.toNat ≠ 0 := fun e => hr (BitVec.eq_of_toNat_eq e)
    simp only [Hart.mask, if_neg hr, Vector.getElem_ofFn, if_neg off]

theorem awake_physWord (s : State) (p : Nat) : s.awake.physWord p = s.physWord p := physWord_congr (s := s) (t := s.awake) rfl rfl p
theorem awake_readPhys (s : State) (p n : Nat) : s.awake.readPhys p n = s.readPhys p n := readPhys_congr (s := s) (t := s.awake) rfl rfl p n

theorem ImageLoaded.of_awake {s : State} {base : Nat} {h : SaveHead} {g : Hart} (i : ImageLoaded s.awake base h g) : ImageLoaded s base h g := by
  obtain ⟨myph, regs, masks, tpc, pfh, tvec, sflags⟩ := i
  simp only [State.savedReg, awake_physWord, awake_readPhys] at regs masks tpc pfh tvec sflags
  exact ⟨myph, regs, masks, tpc, pfh, tvec, sflags⟩

/-- What `hload` makes of a good image before the lanes are settled: the image loaded, the local store too when that is asked for and there, and the hart in
mode S with the saved mode as PPRIV. -/
def State.loaded (s : State) (ls : Bool) : State :=
  let h := s.readHead s.saveBase
  let t := s.awake.loadImage s.saveBase h
  let u := if ls ∧ h.ls then t.loadStore s.saveBase else t
  { u with h := { u.h with mode := .s, ppriv := h.priv } }

/-- What the image gives the hart of `loaded`; the mode saved in the header is that which `trapret` will enter. -/
theorem loaded_gives (s : State) (ls : Bool) : (s.loaded ls).h.mode = .s ∧ (s.loaded ls).h.ppriv = (s.readHead s.saveBase).priv
    ∧ (s.loaded ls).h.pc = s.h.pc ∧ ImageLoaded s s.saveBase (s.readHead s.saveBase) (s.loaded ls).h := by
  obtain ⟨pc, image⟩ := loadImage_loaded s.awake s.saveBase (s.readHead s.saveBase)
  obtain ⟨myph, regs, masks, tpc, pfh, tvec, sflags⟩ := image.of_awake
  have stored : SameButStorage (s.awake.loadImage s.saveBase (s.readHead s.saveBase))
      (if ls ∧ (s.readHead s.saveBase).ls then (s.awake.loadImage s.saveBase (s.readHead s.saveBase)).loadStore s.saveBase
        else s.awake.loadImage s.saveBase (s.readHead s.saveBase)) := by
    split
    · exact loadStore_storage _ _
    · exact .refl _
  obtain ⟨_, _, _, _, stored⟩ := stored
  unfold State.loaded
  dsimp only
  rw [stored]
  exact ⟨rfl, rfl, pc, myph, regs, masks, tpc, pfh, tvec, sflags⟩

/-! The bits of the saved registers that are not reserved (Tables 15-5, 17-1, 17-5). -/

theorem savedReg_tpc (s : State) (base : Nat) : s.savedReg base 22 = s.physWord (base + 0x200 + 8 * 22) := by
  have all : ((savedRegs[22]?).bind csrBits).getD 0 = BitVec.allOnes 64 := by decide
  rw [State.savedReg, all, BitVec.and_allOnes]

theorem savedReg_pfh (s : State) (base : Nat) : s.savedReg base 16 = s.physWord (base + 0x200 + 8 * 16) &&& ~~~6#64 := by
  have bits : ((savedRegs[16]?).bind csrBits).getD 0 = ~~~6#64 := by decide
  rw [State.savedReg, bits]

theorem savedReg_tvec (s : State) (base : Nat) : s.savedReg base 21 = s.physWord (base + 0x200 + 8 * 21) &&& ~~~7#64 := by
  have bits : ((savedRegs[21]?).bind csrBits).getD 0 = ~~~7#64 := by decide
  rw [State.savedReg, bits]

theorem savedReg_sflags (s : State) (base : Nat) :
    (s.savedReg base 11).extractLsb' 0 6 = (s.physWord (base + 0x200 + 8 * 11)).extractLsb' 0 6 := by
  have bits : ((savedRegs[11]?).bind csrBits).getD 0 = 0x3F#64 := by decide
  rw [State.savedReg, bits, BitVec.extractLsb'_and]
  exact BitVec.and_allOnes

/-! `hload`: when it takes the image, and the status of what it refuses (R355). -/

/-- The hart owns no link and no tile, and every ticket of it is FREE. -/
def State.OwnsNothing (s : State) : Prop :=
  s.h.vused = 0 ∧ s.core.za0.holder ≠ some s.slotNo ∧ s.core.za1.holder ≠ some s.slotNo ∧ ∀ i, i < 16 → (s.h.ticket i).state = .free

/-- The save area holds a good image of the hart's context. -/
def State.HoldsImage (s : State) : Prop :=
  s.imageGood s.saveBase (s.readHead s.saveBase) = true ∧ (s.readHead s.saveBase).ctx = s.h.kctx

theorem anyTicket_iff (h : Hart) : h.tickets.toList.any (fun t => t.state != .free) = true ↔ ¬ ∀ i, i < 16 → (h.ticket i).state = .free := by
  have all : (∀ t ∈ h.tickets.toList, t.state = .free) ↔ ∀ i, i < 16 → (h.ticket i).state = .free := by
    constructor
    · intro f i hi
      exact f _ (Vector.mem_toList_iff.2 (Vector.getElem_mem _))
    · intro f t ht
      obtain ⟨i, hi, rfl⟩ := Vector.getElem_of_mem (Vector.mem_toList_iff.1 ht)
      have := f i hi
      unfold Hart.ticket at this
      simpa only [Nat.mod_eq_of_lt hi] using this
  rw [← all, List.any_eq_true]
  simp only [bne_iff_ne, not_forall, exists_prop, ne_eq]

theorem hload_statusOne_iff (s : State) (a : Word) :
    (a.extractLsb' 2 62 ≠ 0 ∨ s.h.vused ≠ 0 ∨ [s.core.za0, s.core.za1].any (fun t => t.holder == some s.slotNo) = true
      ∨ s.h.tickets.toList.any (fun t => t.state != .free) = true) ↔ ¬ (a.toNat < 4 ∧ s.OwnsNothing) := by
  unfold State.OwnsNothing
  rw [reserved_iff, anyTicket_iff]
  simp only [List.any_cons, List.any_nil, Bool.or_false, Bool.or_eq_true, beq_iff_eq, ← Nat.not_lt]
  tauto

theorem hload_statusTwo_iff (s : State) :
    ((!s.imageGood s.saveBase (s.readHead s.saveBase)) = true ∨ (s.readHead s.saveBase).ctx ≠ s.h.kctx) ↔ ¬ s.HoldsImage := by
  rw [State.HoldsImage, Bool.not_eq_true', ← Bool.not_eq_true, Ne, ← not_and_or]

section
variable {s : State} (xd xa : XReg) (hm : s.h.mode = .s)
include hm

theorem hload_notReady (h : ¬ ((s.x xa).toNat < 4 ∧ s.OwnsNothing)) : exec (.hload xd xa) s = s.awake.wr xd 1 := by
  show execHload xd xa s = _
  unfold execHload
  rw [if_neg (not_not_intro hm), if_pos ((hload_statusOne_iff s _).2 h)]

variable (ready : (s.x xa).toNat < 4 ∧ s.OwnsNothing)
include ready

theorem hload_badImage (bad : ¬ s.HoldsImage) : exec (.hload xd xa) s = s.awake.wr xd 2 := by
  show execHload xd xa s = _
  unfold execHload
  rw [if_neg (not_not_intro hm), if_neg fun c => (hload_statusOne_iff s _).1 c ready, if_pos ((hload_statusTwo_iff s).2 bad)]

variable (good : s.HoldsImage)
include good

theorem hload_tooLarge (large : (s.readHead s.saveBase).quota < (s.readHead s.saveBase).used
      ∨ 0 < (s.readHead s.saveBase).used ∧ 2048 < (s.readHead s.saveBase).used + s.core.links.length) :
    exec (.hload xd xa) s = s.awake.wr xd 3 := by
  have status3 : (s.readHead s.saveBase).quota < (s.readHead s.saveBase).used ∨ s.freeLinks < (s.readHead s.saveBase).used := by
    unfold State.freeLinks
    omega
  show execHload xd xa s = _
  unfold execHload
  rw [if_neg (not_not_intro hm), if_neg fun c => (hload_statusOne_iff s _).1 c ready, if_neg fun c => (hload_statusTwo_iff s).1 c good, if_pos status3]

/-- The image is taken, and the hart has what it says but for what the hart owes in lanes. -/
theorem hload_loads (fits : (s.readHead s.saveBase).used ≤ (s.readHead s.saveBase).quota)
    (room : (s.readHead s.saveBase).used + s.core.links.length ≤ 2048)
    (tile0 : (s.readHead s.saveBase).tile0 = true → s.core.za0.freeFor s.slotNo = true)
    (tile1 : (s.readHead s.saveBase).tile1 = true → s.core.za1.freeFor s.slotNo = true) :
    ∃ v : State, exec (.hload xd xa) s = v.wr xd 0 ∧ v.h.mode = .s ∧ v.h.ppriv = (s.readHead s.saveBase).priv ∧ v.h.pc = s.h.pc
      ∧ ImageLoaded s s.saveBase (s.readHead s.saveBase) v.h := by
  have small : ¬ ((s.readHead s.saveBase).quota < (s.readHead s.saveBase).used ∨ s.freeLinks < (s.readHead s.saveBase).used) := by
    unfold State.freeLinks
    omega
  have free : ¬ (((s.readHead s.saveBase).tile0 = true ∧ (!s.core.za0.freeFor s.slotNo) = true)
      ∨ ((s.readHead s.saveBase).tile1 = true ∧ (!s.core.za1.freeFor s.slotNo) = true)) := by
    rintro (⟨h, n⟩ | ⟨h, n⟩)
    · simp [tile0 h] at n
    · simp [tile1 h] at n
  have takes : ∃ v : State, exec (.hload xd xa) s = v.wr xd 0 ∧ ∃ d m, v.h = { (s.loaded ((s.x xa).getLsbD 0)).h with debt := d, mcheck := m } := by
    show ∃ v : State, execHload xd xa s = v.wr xd 0 ∧ _
    unfold execHload
    rw [if_neg (not_not_intro hm), if_neg fun c => (hload_statusOne_iff s _).1 c ready, if_neg fun c => (hload_statusTwo_iff s).1 c good, if_neg small,
      if_neg free]
    exact ⟨_, rfl, ((entitle_held _ _).trans (handOut_held _ _)).hart⟩
  obtain ⟨v, takes, d, m, hart⟩ := takes
  obtain ⟨mode, ppriv, pc, ⟨myph, regs, masks, tpc, pfh, tvec, sflags⟩⟩ := loaded_gives s ((s.x xa).getLsbD 0)
  refine ⟨v, takes, ?_⟩
  rw [hart]
  exact ⟨mode, ppriv, pc, myph, regs, masks, tpc, pfh, tvec, sflags⟩

end

/-- A hart that has taken an image completes the word in mode S; of the registers only xd, which is of the other bank, is written. -/
theorem wr_loaded {s v : State} {base : Nat} {h : SaveHead} (mode : v.h.mode = .s) (image : ImageLoaded s base h v.h) (xd : XReg) :
    completes (v.wr xd 0) fun t => (xd ≠ 0 → t.x xd = 0) ∧ t.h.mode = .s ∧ t.h.pc = v.h.pc + 8 ∧ t.h.ppriv = v.h.ppriv ∧ ImageLoaded s base h t.h := by
  obtain ⟨t, ht, r⟩ := wr_completes (s := v) ⟨rfl, rfl, rfl⟩ ⟨rfl, rfl, rfl⟩ xd 0
  have user : t.h.xu = v.h.xu := r.others.user mode
  have hart : t.h = v.h.withScalar t.h := congrArg State.h r.rest
  obtain ⟨myph, regs, masks, tpc, pfh, tvec, sflags⟩ := image
  have same : t.h.mode = v.h.mode ∧ t.h.ppriv = v.h.ppriv ∧ t.h.myph = v.h.myph ∧ t.h.m = v.h.m ∧ t.h.tpc = v.h.tpc ∧ t.h.pfh = v.h.pfh
      ∧ t.h.tvec = v.h.tvec ∧ t.h.sflags = v.h.sflags := by
    rw [hart]
    exact ⟨rfl, rfl, rfl, rfl, rfl, rfl, rfl, rfl⟩
  obtain ⟨sMode, sPpriv, sMyph, sM, sTpc, sPfh, sTvec, sSflags⟩ := same
  refine ⟨t, ht, fun n => r.value.trans (if_neg n), sMode.trans mode, r.retired.pc, sPpriv, sMyph.trans myph, ?_, ?_, sTpc.trans tpc, sPfh.trans pfh,
    sTvec.trans tvec, sSflags.trans sflags⟩
  · rw [user]
    exact regs
  · simpa only [Hart.mask, sM] using masks

end Sys2Proof.Machine

open Sys2Proof Sys2Proof.Machine

/-- Settles O49, word by word: `hsave` by the header that reads back as written (`saved_readHead`) and what REL gives up (`saved_gaveUp`), `hload` by the status
that each condition gives and what the image leaves in the hart (`loaded_gives`). -/
theorem saveAreasHoldAHart : Obligations.SaveAreasHoldAHart := by
  unfold Obligations.SaveAreasHoldAHart
  intro s xd xa k
  dsimp only
  intro hm
  refine ⟨fun ha hc hr => ?_, fun ha rel hc hr => ?_, fun ha => ⟨?_, ?_⟩, fun ha busy => ?_, fun free bad => ?_, fun free good large => ?_,
    fun free good fits room tile0 tile1 => ?_⟩
  · have keep : (s.x xa).getLsbD 1 = false := getLsbD_of_div (by simp only [Bool.toNat_false]; omega)
    rw [hsave_saves xd xa hm (by omega) hc hr, keep]
    obtain ⟨t, ht, status, sound, pend, keyring, head⟩ := saved_completes s ((s.x xa).getLsbD 0) xd
    refine ⟨t, ht, status, sound, pend, keyring, fun hk f p w => ?_⟩
    rw [head]
    exact saved_readHead ⟨f, p, w⟩ _ hk
  · rw [hsave_saves xd xa hm ha hc hr, if_pos rel]
    exact wr_gaveUp (saved_gaveUp s _) xd
  · rw [hsave_reserved xd xa hm ha]
    exact awake_status s xd 1
  · rw [hload_notReady xd xa hm (fun h => by omega)]
    exact awake_status s xd 1
  · rw [hload_notReady xd xa hm busy]
    exact awake_status s xd 1
  · rw [hload_badImage xd xa hm free bad]
    exact awake_status s xd 2
  · rw [hload_tooLarge xd xa hm free good large]
    exact awake_status s xd 3
  · obtain ⟨v, takes, mode, ppriv, pc, image⟩ := hload_loads xd xa hm free good fits room tile0 tile1
    rw [takes]
    obtain ⟨t, ht, value, tMode, tPc, tPpriv, ⟨myph, regs, masks, tpc, pfh, tvec, sflags⟩⟩ := wr_loaded mode image xd
    exact ⟨t, ht, value, tMode, pc ▸ tPc, tPpriv.trans ppriv, myph, regs, masks, tpc.trans (savedReg_tpc s _), pfh.trans (savedReg_pfh s _),
      tvec.trans (savedReg_tvec s _), sflags.trans (savedReg_sflags s _)⟩

end

section
/-! PROOFS. An atomic of another node's hart (R291): it answers as many bytes as its W bit says, so one with W = 0 does not answer 8. -/

namespace Sys2Proof.Machine

/-! The answer of a served atomic. -/

/-- One access that stays inside a 4 KiB block of a memory space is checked at one place. -/
theorem outsideAt_placed {s : State} {o : Origin} {kind : Kind} {off n : Nat} {p : Place} (go : List (Nat × Nat × Place) → State)
    (memory : ¬ (o.space = 0 ∨ 0xFF00 ≤ o.space.toNat)) (some_ : 0 < n) (inside : off % 4096 + n ≤ 4096)
    (placed : s.devicePlace o.ctx o.space off o.agent o.host o.bypass kind = .ok p) : s.outsideAt o kind off n go = go [(off, n, p)] := by
  have places : s.outsidePlaces o kind (blocksOf off n) = .ok [(off, n, p)] := by
    rw [blocksOf_inside some_ inside, State.outsidePlaces, placed]
    rfl
  rw [State.outsideAt, if_neg memory, places]

theorem poisonIn_noPoison {s : State} (hp : s.poison = []) (k n : Nat) : s.poisonIn k n = none := by
  simp [State.poisonIn, State.poisoned, hp]

/-- Bytes that an atomic reads and writes. -/
def atomBytes (w : Bool) : Nat := if w then 8 else 4

/-- What is read goes back, in the width of the atomic, whatever its operation writes. -/
theorem outsideAtomic_replies {s : State} {o : Origin} {off : Nat} {op : AtomOp} {w : Bool} {p : Place} (v c : Word)
    (memory : ¬ (o.space = 0 ∨ 0xFF00 ≤ o.space.toNat)) (aligned : off % atomBytes w = 0) (home : p.node = none) (sound : s.poison = [])
    (placed : s.devicePlace o.ctx o.space off o.agent o.host o.bypass (atomKind op) = .ok p) :
    (s.outsideAtomic o off op w v c).replies
      = s.replies ++ [⟨o.agent, 0, BitVec.ofNat 64 off, toBytes (atomBytes w) (ofBytes (s.homeRead p.key (atomBytes w)))⟩] := by
  have width : atomBytes w = 4 ∨ atomBytes w = 8 := by cases w <;> simp [atomBytes]
  have inside : off % 4096 + atomBytes w ≤ 4096 := by rcases width with e | e <;> rw [e] at aligned ⊢ <;> omega
  have whole : ¬ off % max 1 (atomBytes w) ≠ 0 := by rw [Nat.max_eq_right (by omega)]; exact not_not_intro aligned
  have kept (x : Nat) : (s.atomWrite op p (atomBytes w) x o.ctx o.agent none).replies = s.replies := by
    obtain ⟨_, _, _, _, written⟩ := homeWrite_storage s p.key (toBytes (atomBytes w) x)
    unfold State.atomWrite
    rw [written]
  unfold State.outsideAtomic
  dsimp only
  rw [← atomBytes, State.outsideChange, if_neg whole, outsideAt_placed _ memory (by omega) inside placed]
  dsimp only
  rw [home, if_pos rfl, poisonIn_noPoison sound]
  dsimp only
  split
  · rw [State.reply, kept]
  · rfl

/-! A device whose one page of tables maps space 1. -/

/-- A table's word is read at home where nothing is poisoned. -/
theorem physRead_clear {s : State} (hp : s.poison = []) {p k : Nat} (inside : p % 4096 + 8 ≤ 4096) (hk : physKey p = some k) :
    s.physRead p = .ok (s.physWord p) := by
  simp [State.physRead, State.physWord, State.readPhys, State.poisoned, blocksOf_inside (by decide : 0 < 8) inside, hk, hp]

/-- The words at physical address 0. Word 1 is the space table's entry of space 1 and names the table at 0; word 0 is an entry of that table and names it
too; word 2 is a leaf of the own node, a plain page of 2^40 bytes from frame 0. -/
def selfTable : List Word := [1, 1, Config.nodeId ++ (3 : BitVec 48)]

/-- A running device with these tables and nothing else in memory. -/
def selfMapped : State := { State.reset with boot := .running, mem := (State.reset.writePhys 0 (wordsBytes selfTable)).mem }

theorem selfTable_written : ClearStore (State.reset.writePhys 0 (wordsBytes selfTable)) := putPhys_clear _ ⟨rfl, rfl, reset_mem_wf⟩ _

theorem selfMapped_physRead {p j : Nat} (hp : p = 8 * j) (hj : j < 3) : selfMapped.physRead p = .ok (selfTable.getD j 0) := by
  subst hp
  have key : physKey (8 * j) = some (8 * j) := by simpa using physKey_add (p := 0) (i := 8 * j) (k := 0) rfl (by omega) rfl
  have word := physWord_writePhys (s := State.reset) rfl rfl reset_mem_wf (base := 0) (k := 0) rfl rfl selfTable (by decide) j hj
  rw [Nat.zero_add] at word
  rw [physRead_clear (s := selfMapped) rfl (by omega) key, ← word]
  exact congrArg _ (physWord_congr (s := State.reset.writePhys 0 (wordsBytes selfTable)) (t := selfMapped) rfl selfTable_written.frames.symm _)

/-- The fields of the leaf (Table 04-8), which is in order for a page of level 1. -/
theorem leaf_fields : let e : Word := Config.nodeId ++ (3 : BitVec 48)
    e.extractLsb' 48 16 = Config.nodeId ∧ (e.extractLsb' 16 28).toNat * 2 ^ 16 = 0 ∧ e.getLsbD 1 = true ∧ e.getLsbD 2 = false ∧ e.getLsbD 3 = false
      ∧ leafOk e (pageSize 1) = true := by
  dsimp only
  have node : (Config.nodeId ++ (3 : BitVec 48)).extractLsb' 48 16 = Config.nodeId := (field_of_high (Nat.le_refl 48)).trans field_whole
  have frame : ((Config.nodeId ++ (3 : BitVec 48)).extractLsb' 16 28).toNat * 2 ^ 16 = 0 := by rw [field_of_low (by decide)]; rfl
  have low (i : Nat) (hi : i < 48) : (Config.nodeId ++ (3 : BitVec 48)).getLsbD i = (3 : BitVec 48).getLsbD i := bit_of_low hi
  refine ⟨node, frame, low 1 (by decide), low 2 (by decide), low 3 (by decide), ?_⟩
  unfold leafOk
  dsimp only
  rw [node, frame, low 0 (by decide), low 1 (by decide), low 2 (by decide), low 3 (by decide), field_of_low (by decide), field_of_low (by decide), if_pos rfl]
  decide

/-- The leaf maps offsets from 2^41 of space 1 to frame 0. -/
theorem selfMapped_walk (a : Acc) (root : a.ptbase = 0) :
    ∃ seen, selfMapped.walk a 1 0x200_0000_0040 [] = .ok (⟨a.ctx, 1, 2, 2 ^ 40, Config.nodeId, 0, false, false⟩, seen) := by
  have space : selfMapped.physRead (a.ptbase.toNat * 2 ^ 15 + (1 : BitVec 16).toNat * 8) = .ok 1 := by
    rw [root]
    exact selfMapped_physRead (j := 1) rfl (by decide)
  have table : selfMapped.physRead (0 + 0x200_0000_0040 / pageSize 0 % 4096 * 8) = .ok 1 := selfMapped_physRead (j := 0) rfl (by decide)
  have leaf : selfMapped.physRead (0 + 0x200_0000_0040 / pageSize (0 + 1) % 4096 * 8) = .ok (Config.nodeId ++ (3 : BitVec 48)) :=
    selfMapped_physRead (j := 2) rfl (by decide)
  have here : ((1 : Word).extractLsb' 15 29).toNat * 2 ^ 15 = 0 := by decide
  obtain ⟨node, frame, isLeaf, im, at_, good⟩ := leaf_fields
  have entry : spaceEntryOk 1 = true ∧ nonLeafOk 1 = true ∧ (1 : Word).getLsbD 1 = false := by decide
  obtain ⟨entry, nonLeaf, below⟩ := entry
  simp only [State.walk, List.find?_nil, Option.map_none, space, entry, if_true, here, State.walkFrom, table, below, nonLeaf, leaf, isLeaf, good,
    node, frame, im, at_]
  exact ⟨_, rfl⟩

theorem selfMapped_place (agent : BitVec 32) :
    selfMapped.devicePlace 0 1 0x200_0000_0040 agent false true .atomic = .ok ⟨0x40, false, false, false, none⟩ := by
  obtain ⟨_, walk⟩ := selfMapped_walk ⟨0, agent, true, false, (selfMapped.ctxRegs 0).ptbase⟩ rfl
  have memory : ¬ 0xFF00 ≤ (1 : BitVec 16).toNat := by decide
  have key : physKey (0 + 0x200_0000_0040 % 2 ^ 40) = some 0x40 := rfl
  simp only [State.devicePlace, if_neg memory, walk, key, ne_eq, not_true, if_false]
  rfl

end Sys2Proof.Machine

open Sys2Proof Sys2Proof.Machine

/-- Refutes O59: the atomic it names has W = 0 and so answers the 4 bytes of its location (`outsideAtomic_replies`), not 8; shown by a request of the supervisor
of another node to the device `selfMapped`. -/
theorem not_outsideRequestsAreServedAtHome : ¬ Obligations.OutsideRequestsAreServedAtHome := by
  unfold Obligations.OutsideRequestsAreServedAtHome
  intro served
  obtain ⟨-, atomic, -⟩ := served selfMapped 7 0 1 0x200_0000_0040 [0] true ⟨0x40, false, false, false, none⟩ 0 (by decide) (by decide) (by decide)
  obtain ⟨t, next, eight, -⟩ := atomic 0 (by decide) (by decide) (by decide) rfl (selfMapped_place 7) rfl rfl selfTable_written.wf
  have four := outsideAtomic_replies (s := selfMapped) (o := ⟨0, 1, 7, false, true⟩) (op := .add) (w := false) 0 0 (by decide) (by decide) rfl rfl
    (selfMapped_place 7)
  have same : t = selfMapped.outsideAtomic ⟨0, 1, 7, false, true⟩ 0x200_0000_0040 .add false 0 0 := by
    cases next
    rfl
  rw [same, four, List.append_cancel_left_eq, List.singleton_inj, Reply.mk.injEq] at eight
  obtain ⟨-, -, -, bytes⟩ := eight
  exact absurd (congrArg List.length bytes) (by decide : (4 : Nat) ≠ 8)

end

section
/-! PROOFS. The fields of an encoded word: each format of Table 03-4 read back, and the instruction that the decoder finds in a word (R53, R73). -/

namespace Sys2Proof

section
variable {maj : BitVec 7} {xd xa xb xc vd va vb vc xl xk xs : BitVec 5} {fn : BitVec 8} {cond rm msk scope ord zd : BitVec 3} {fmt asr wd : BitVec 2}
  {csr : BitVec 10} {ot : BitVec 4} {z sc : Bool}

/-! The formats: the hinge bit is 0, the major opcode and FN (or COND) are the first two fields, and every other field reads as it was laid. -/

theorem packSR_fields :
    let w := Enc.packSR maj xd xa xb xc fn rm fmt
    hinge w = false ∧ fld w 56 7 = maj ∧ fld w 28 8 = fn ∧ fld w 51 5 = xd ∧ fld w 46 5 = xa ∧ fld w 41 5 = xb ∧ fld w 36 5 = xc
      ∧ fld w 25 3 = rm ∧ fld w 23 2 = fmt := by
  simp (disch := omega) only [fld, Enc.packSR, hinge, bit_of_cast, bit_of_high, field_of_cast, field_of_low, field_of_high]
  simp
theorem packSR_hinge : hinge (Enc.packSR maj xd xa xb xc fn rm fmt) = false := by simp only [packSR_fields]
theorem packSR_major : fld (Enc.packSR maj xd xa xb xc fn rm fmt) 56 7 = maj := by simp only [packSR_fields]
theorem packSR_fn : fld (Enc.packSR maj xd xa xb xc fn rm fmt) 28 8 = fn := by simp only [packSR_fields]

theorem packCSR_fields :
    let w := Enc.packCSR maj xd xa csr fn
    hinge w = false ∧ fld w 56 7 = maj ∧ fld w 28 8 = fn ∧ fld w 51 5 = xd ∧ fld w 46 5 = xa ∧ fld w 36 10 = csr := by
  simp (disch := omega) only [fld, Enc.packCSR, hinge, bit_of_cast, bit_of_high, field_of_cast, field_of_low, field_of_high]
  simp
theorem packCSR_hinge : hinge (Enc.packCSR maj xd xa csr fn) = false := by simp only [packCSR_fields]
theorem packCSR_major : fld (Enc.packCSR maj xd xa csr fn) 56 7 = maj := by simp only [packCSR_fields]
theorem packCSR_fn : fld (Enc.packCSR maj xd xa csr fn) 28 8 = fn := by simp only [packCSR_fields]

theorem packSI_fields {imm : BitVec 32} :
    let w := Enc.packSI maj xd xa fn imm
    hinge w = false ∧ fld w 56 7 = maj ∧ fld w 38 8 = fn ∧ fld w 51 5 = xd ∧ fld w 46 5 = xa ∧ fld w 0 32 = imm := by
  simp (disch := omega) only [fld, Enc.packSI, hinge, bit_of_cast, bit_of_high, field_of_cast, field_of_low, field_of_high]
  simp
theorem packSI_hinge {imm : BitVec 32} : hinge (Enc.packSI maj xd xa fn imm) = false := by simp only [packSI_fields]
theorem packSI_major {imm : BitVec 32} : fld (Enc.packSI maj xd xa fn imm) 56 7 = maj := by simp only [packSI_fields]
theorem packSI_fn {imm : BitVec 32} : fld (Enc.packSI maj xd xa fn imm) 38 8 = fn := by simp only [packSI_fields]

theorem packSM_fields {imm : BitVec 32} :
    let w := Enc.packSM maj xd xa asr wd fn imm
    hinge w = false ∧ fld w 56 7 = maj ∧ fld w 32 8 = fn ∧ fld w 51 5 = xd ∧ fld w 46 5 = xa ∧ fld w 44 2 = asr ∧ fld w 42 2 = wd
      ∧ fld w 0 32 = imm := by
  simp (disch := omega) only [fld, Enc.packSM, hinge, bit_of_cast, bit_of_high, field_of_cast, field_of_low, field_of_high]
  simp
theorem packSM_hinge {imm : BitVec 32} : hinge (Enc.packSM maj xd xa asr wd fn imm) = false := by simp only [packSM_fields]
theorem packSM_major {imm : BitVec 32} : fld (Enc.packSM maj xd xa asr wd fn imm) 56 7 = maj := by simp only [packSM_fields]
theorem packSM_fn {imm : BitVec 32} : fld (Enc.packSM maj xd xa asr wd fn imm) 32 8 = fn := by simp only [packSM_fields]

theorem packSB_fields {off : BitVec 40} :
    let w := Enc.packSB maj xa xb cond off
    hinge w = false ∧ fld w 56 7 = maj ∧ fld w 43 3 = cond ∧ fld w 51 5 = xa ∧ fld w 46 5 = xb ∧ fld w 0 40 = off := by
  simp (disch := omega) only [fld, Enc.packSB, hinge, bit_of_cast, bit_of_high, field_of_cast, field_of_low, field_of_high]
  simp
theorem packSB_hinge {off : BitVec 40} : hinge (Enc.packSB maj xa xb cond off) = false := by simp only [packSB_fields]
theorem packSB_major {off : BitVec 40} : fld (Enc.packSB maj xa xb cond off) 56 7 = maj := by simp only [packSB_fields]
theorem packSB_fn {off : BitVec 40} : fld (Enc.packSB maj xa xb cond off) 43 3 = cond := by simp only [packSB_fields]

theorem packSJ_fields {off : BitVec 43} :
    let w := Enc.packSJ maj xd cond xa off
    hinge w = false ∧ fld w 56 7 = maj ∧ fld w 48 3 = cond ∧ fld w 51 5 = xd ∧ fld w 43 5 = xa ∧ fld w 0 43 = off := by
  simp (disch := omega) only [fld, Enc.packSJ, hinge, bit_of_cast, bit_of_high, field_of_cast, field_of_low, field_of_high]
  simp
theorem packSJ_hinge {off : BitVec 43} : hinge (Enc.packSJ maj xd cond xa off) = false := by simp only [packSJ_fields]
theorem packSJ_major {off : BitVec 43} : fld (Enc.packSJ maj xd cond xa off) 56 7 = maj := by simp only [packSJ_fields]
theorem packSJ_fn {off : BitVec 43} : fld (Enc.packSJ maj xd cond xa off) 48 3 = cond := by simp only [packSJ_fields]

/-- A mask register stands in the low bits of its field, a block size and C in the low bits of MOD. -/
theorem packVR_fields {mod : BitVec 11} :
    let w := Enc.packVR maj vd va vb vc xl msk z rm fn ot sc mod
    hinge w = false ∧ fld w 56 7 = maj ∧ fld w 16 8 = fn ∧ fld w 51 5 = vd ∧ fld w 51 3 = vd.extractLsb' 0 3 ∧ fld w 46 5 = va
      ∧ fld w 46 3 = va.extractLsb' 0 3 ∧ fld w 41 5 = vb ∧ fld w 41 3 = vb.extractLsb' 0 3 ∧ fld w 36 5 = vc ∧ fld w 31 5 = xl
      ∧ fld w 28 3 = msk ∧ bitAt w 27 = z ∧ fld w 24 3 = rm ∧ fld w 12 4 = ot ∧ bitAt w 11 = sc ∧ fld w 0 4 = mod.extractLsb' 0 4
      ∧ bitAt w 0 = mod.getLsbD 0 := by
  simp (disch := omega) only [fld, bitAt, Enc.packVR, hinge, bit_of_cast, bit_of_high, bit_of_low, field_of_cast, field_of_low, field_of_high]
  simp
theorem packVR_hinge {mod : BitVec 11} : hinge (Enc.packVR maj vd va vb vc xl msk z rm fn ot sc mod) = false := by simp only [packVR_fields]
theorem packVR_major {mod : BitVec 11} : fld (Enc.packVR maj vd va vb vc xl msk z rm fn ot sc mod) 56 7 = maj := by simp only [packVR_fields]
theorem packVR_fn {mod : BitVec 11} : fld (Enc.packVR maj vd va vb vc xl msk z rm fn ot sc mod) 16 8 = fn := by simp only [packVR_fields]

theorem packVM_fields {imm : BitVec 16} :
    let w := Enc.packVM maj vd xa xb xl msk asr scope fn ot imm
    hinge w = false ∧ fld w 56 7 = maj ∧ fld w 20 8 = fn ∧ fld w 51 5 = vd ∧ fld w 46 5 = xa ∧ fld w 41 5 = xb ∧ fld w 36 5 = xl
      ∧ fld w 33 3 = msk ∧ fld w 31 2 = asr ∧ fld w 28 3 = scope ∧ fld w 16 4 = ot ∧ fld w 0 16 = imm := by
  simp (disch := omega) only [fld, Enc.packVM, hinge, bit_of_cast, bit_of_high, field_of_cast, field_of_low, field_of_high]
  simp
theorem packVM_hinge {imm : BitVec 16} : hinge (Enc.packVM maj vd xa xb xl msk asr scope fn ot imm) = false := by simp only [packVM_fields]
theorem packVM_major {imm : BitVec 16} : fld (Enc.packVM maj vd xa xb xl msk asr scope fn ot imm) 56 7 = maj := by simp only [packVM_fields]
theorem packVM_fn {imm : BitVec 16} : fld (Enc.packVM maj vd xa xb xl msk asr scope fn ot imm) 20 8 = fn := by simp only [packVM_fields]

theorem packVC_fields {imm : BitVec 19} :
    let w := Enc.packVC maj vd va vb xa xb fn ot imm
    hinge w = false ∧ fld w 56 7 = maj ∧ fld w 23 8 = fn ∧ fld w 51 5 = vd ∧ fld w 46 5 = va ∧ fld w 41 5 = vb ∧ fld w 36 5 = xa
      ∧ fld w 31 5 = xb ∧ fld w 19 4 = ot ∧ fld w 0 19 = imm := by
  simp (disch := omega) only [fld, Enc.packVC, hinge, bit_of_cast, bit_of_high, field_of_cast, field_of_low, field_of_high]
  simp
theorem packVC_hinge {imm : BitVec 19} : hinge (Enc.packVC maj vd va vb xa xb fn ot imm) = false := by simp only [packVC_fields]
theorem packVC_major {imm : BitVec 19} : fld (Enc.packVC maj vd va vb xa xb fn ot imm) 56 7 = maj := by simp only [packVC_fields]
theorem packVC_fn {imm : BitVec 19} : fld (Enc.packVC maj vd va vb xa xb fn ot imm) 23 8 = fn := by simp only [packVC_fields]

/-- A mask register stands in the low bits of its field, the registers of the two scales in MOD. -/
theorem packZ_fields {mod : BitVec 12} :
    let w := Enc.packZ maj zd va vb xk xs rm fn ot mod
    hinge w = false ∧ fld w 56 7 = maj ∧ fld w 16 8 = fn ∧ fld w 53 3 = zd ∧ fld w 46 5 = va ∧ fld w 46 3 = va.extractLsb' 0 3 ∧ fld w 41 5 = vb
      ∧ fld w 36 5 = xk ∧ fld w 31 5 = xs ∧ fld w 24 3 = rm ∧ fld w 12 4 = ot ∧ fld w 5 5 = mod.extractLsb' 5 5 ∧ fld w 0 5 = mod.extractLsb' 0 5 := by
  simp (disch := omega) only [fld, Enc.packZ, hinge, bit_of_cast, bit_of_high, field_of_cast, field_of_low, field_of_high]
  simp
theorem packZ_hinge {mod : BitVec 12} : hinge (Enc.packZ maj zd va vb xk xs rm fn ot mod) = false := by simp only [packZ_fields]
theorem packZ_major {mod : BitVec 12} : fld (Enc.packZ maj zd va vb xk xs rm fn ot mod) 56 7 = maj := by simp only [packZ_fields]
theorem packZ_fn {mod : BitVec 12} : fld (Enc.packZ maj zd va vb xk xs rm fn ot mod) 16 8 = fn := by simp only [packZ_fields]

/-- A rounding mode stands in the low bits of the xc field, W above the offset in the immediate. -/
theorem packKE_fields {imm : BitVec 20} :
    let w := Enc.packKE maj xd xa xb xc asr scope ord fn imm
    hinge w = false ∧ fld w 56 7 = maj ∧ fld w 20 8 = fn ∧ fld w 51 5 = xd ∧ fld w 46 5 = xa ∧ fld w 41 5 = xb ∧ fld w 36 5 = xc
      ∧ fld w 36 3 = xc.extractLsb' 0 3 ∧ fld w 34 2 = asr ∧ fld w 31 3 = scope ∧ fld w 28 3 = ord ∧ fld w 0 20 = imm
      ∧ bitAt w 19 = imm.getLsbD 19 ∧ fld w 0 19 = imm.extractLsb' 0 19 := by
  simp (disch := omega) only [fld, bitAt, Enc.packKE, hinge, bit_of_cast, bit_of_high, bit_of_low, field_of_cast, field_of_low, field_of_high]
  simp
theorem packKE_hinge {imm : BitVec 20} : hinge (Enc.packKE maj xd xa xb xc asr scope ord fn imm) = false := by simp only [packKE_fields]
theorem packKE_major {imm : BitVec 20} : fld (Enc.packKE maj xd xa xb xc asr scope ord fn imm) 56 7 = maj := by simp only [packKE_fields]
theorem packKE_fn {imm : BitVec 20} : fld (Enc.packKE maj xd xa xb xc asr scope ord fn imm) 20 8 = fn := by simp only [packKE_fields]

end

/-! Fields inside a field. -/

theorem mask_in_field (m : BitVec 3) : (m.setWidth 5).extractLsb' 0 3 = m := field_of_setWidth (by decide)

theorem block_in_mod (blk : BitVec 4) : (blk.setWidth 11).extractLsb' 0 4 = blk := field_of_setWidth (by decide)

theorem flag_in_mod (c : Bool) : ((BitVec.ofBool c).setWidth 11).getLsbD 0 = c := by cases c <;> rfl

/-- W above the offset of an atomic (R289). -/
theorem immediate_fields (w : Bool) (off : BitVec 19) :
    let imm : BitVec 20 := (BitVec.ofBool w ++ off).cast (by decide)
    imm.getLsbD 19 = w ∧ imm.extractLsb' 0 19 = off := by
  simp (disch := omega) only [bit_of_cast, bit_of_high, field_of_cast, field_of_low]
  simp

/-- The registers of the two scales of `zopmx` (R275). -/
theorem scale_fields (vsa vsb : BitVec 5) :
    let mod : BitVec 12 := (0#2 ++ vsa ++ vsb).cast (by decide)
    mod.extractLsb' 5 5 = vsa ∧ mod.extractLsb' 0 5 = vsb := by
  simp (disch := omega) only [field_of_cast, field_of_low, field_of_high]
  simp

/-! The decoder on the word of an instruction. -/

/-- The word of a legal instruction has H clear, and its fields read as the instruction: the major opcode selects the group of Table 03-7, FN the
instruction, and each operand is a field. -/
theorem encode_reads (i : Instr) (legal : i.wf = true) : hinge (encode i) = false ∧ decodeFields (encode i) = some i := by
  cases i with
  | add | sub | mul | mulh | mulhn | div | divn | rem | remn | and | or | xor | andn | shl | shr | sra | rotl | rotr | min | max | minn
    | maxn | slt | sltn | seq | clz | ctz | popc | bswap | sext | zext | sel =>
    change hinge (Enc.packSR ..) = _ ∧ decodeFields (Enc.packSR ..) = _
    rw [packSR_hinge, decodeFields, packSR_major]; change _ ∧ decodeMaj01 _ = _
    rw [decodeMaj01, packSR_fn]; change _ ∧ some _ = _
    simp only [packSR_fields, and_self]
  | addi | andi | ori | xori | shli | shri | srai | slti | sltni | seqi | muli | ldi | ldhi | pcadd =>
    change hinge (Enc.packSI ..) = _ ∧ decodeFields (Enc.packSI ..) = _
    rw [packSI_hinge, decodeFields, packSI_major]; change _ ∧ decodeMaj02 _ = _
    rw [decodeMaj02, packSI_fn]; change _ ∧ some _ = _
    simp only [packSI_fields, and_self]
  | ld | ldn | st =>
    change hinge (Enc.packSM ..) = _ ∧ decodeFields (Enc.packSM ..) = _
    rw [packSM_hinge, decodeFields, packSM_major]; change _ ∧ decodeMaj03 _ = _
    rw [decodeMaj03, packSM_fn]; change _ ∧ some _ = _
    simp only [packSM_fields, and_self]
  | beq | bne | blt | bge | bltn | bgen =>
    change hinge (Enc.packSB ..) = _ ∧ decodeFields (Enc.packSB ..) = _
    rw [packSB_hinge, decodeFields, packSB_major]; change _ ∧ decodeMaj04 _ = _
    rw [decodeMaj04, packSB_fn]; change _ ∧ some _ = _
    simp only [packSB_fields, and_self]
  | jal | jalr =>
    change hinge (Enc.packSJ ..) = _ ∧ decodeFields (Enc.packSJ ..) = _
    rw [packSJ_hinge, decodeFields, packSJ_major]; change _ ∧ decodeMaj05 _ = _
    rw [decodeMaj05, packSJ_fn]; change _ ∧ some _ = _
    simp only [packSJ_fields, and_self]
  | fadd | fsub | fmul | fdiv | fsqrt | fma | fms | fnma | fmin | fmax | feq | flt | fle | fcvtfi | fcvtif | fcvtff | fclass | fsgn =>
    change hinge (Enc.packSR ..) = _ ∧ decodeFields (Enc.packSR ..) = _
    rw [packSR_hinge, decodeFields, packSR_major]; change _ ∧ decodeMaj06 _ = _
    rw [decodeMaj06, packSR_fn]; change _ ∧ some _ = _
    simp only [packSR_fields, and_self]
  | csrr | csrw | csrs | csrc =>
    change hinge (Enc.packCSR ..) = _ ∧ decodeFields (Enc.packCSR ..) = _
    rw [packCSR_hinge, decodeFields, packCSR_major]; change _ ∧ decodeMaj07 _ = _
    rw [decodeMaj07, packCSR_fn]; change _ ∧ some _ = _
    simp only [packCSR_fields, and_self]
  | tlbinv =>
    change hinge (Enc.packSR ..) = _ ∧ decodeFields (Enc.packSR ..) = _
    rw [packSR_hinge, decodeFields, packSR_major]; change _ ∧ decodeMaj07 _ = _
    rw [decodeMaj07, packSR_fn]; change _ ∧ some _ = _
    simp only [packSR_fields, and_self]
  | vadd | vsub | vrsub | vmul | vmulh | vdiv | vrem | vfma | vfms | vfnma | vmin | vmax | vabs | vneg | vsqrt | vand | vor | vxor | vandn
    | vshl | vshr | vsra | vaddsat | vsubsat | vclz | vpopc | vdot | vclass | vcopysign | vmov | vsplat | vid =>
    change hinge (Enc.packVR ..) = _ ∧ decodeFields (Enc.packVR ..) = _
    rw [packVR_hinge, decodeFields, packVR_major]; change _ ∧ decodeMaj10 _ = _
    rw [decodeMaj10, packVR_fn]; change _ ∧ some _ = _
    simp only [packVR_fields, and_self]
  | vcmpeq | vcmpne | vcmplt | vcmple | vcmpgt | vcmpge | vcmpun | mand | mor | mxor | mandn | mnot | mset | mclr | mpopc | mfirst | mfromv
    | mtov =>
    change hinge (Enc.packVR ..) = _ ∧ decodeFields (Enc.packVR ..) = _
    rw [packVR_hinge, decodeFields, packVR_major]; change _ ∧ decodeMaj11 _ = _
    rw [decodeMaj11, packVR_fn]; change _ ∧ some _ = _
    simp only [packVR_fields, mask_in_field, and_self]
  | vcvt | vcvtsat | vcvtmx | vcvtfrommx | vround =>
    change hinge (Enc.packVR ..) = _ ∧ decodeFields (Enc.packVR ..) = _
    rw [packVR_hinge, decodeFields, packVR_major]; change _ ∧ decodeMaj12 _ = _
    rw [decodeMaj12, packVR_fn]; change _ ∧ some _ = _
    simp only [packVR_fields, and_self]
  | vexp2 | vexp | vlog2 | vrcp | vrsqrt | vsin | vcos | vtanh | vsigmoid =>
    change hinge (Enc.packVR ..) = _ ∧ decodeFields (Enc.packVR ..) = _
    rw [packVR_hinge, decodeFields, packVR_major]; change _ ∧ decodeMaj13 _ = _
    rw [decodeMaj13, packVR_fn]; change _ ∧ some _ = _
    simp only [packVR_fields, and_self]
  | vredsum | vredmax | vredmin | vredand | vredor | vscan | vscanx | vscanmax | vcompress | vexpand | vslideup | vslidedn | vperm | vrev
    | vzip | vunzip =>
    change hinge (Enc.packVR ..) = _ ∧ decodeFields (Enc.packVR ..) = _
    rw [packVR_hinge, decodeFields, packVR_major]; change _ ∧ decodeMaj14 _ = _
    rw [decodeMaj14, packVR_fn]; change _ ∧ some _ = _
    simp only [packVR_fields, flag_in_mod, and_self]
  | vsegsum | vsegscan | vsegmax | vsegmin | vmergek | vsortk | vconflict =>
    change hinge (Enc.packVR ..) = _ ∧ decodeFields (Enc.packVR ..) = _
    rw [packVR_hinge, decodeFields, packVR_major]; change _ ∧ decodeMaj15 _ = _
    rw [decodeMaj15, packVR_fn]; change _ ∧ some _ = _
    simp only [packVR_fields, mask_in_field, block_in_mod, and_self]
  | vld | vlds | vldx | vst | vsts | vstx | vstxadd =>
    change hinge (Enc.packVM ..) = _ ∧ decodeFields (Enc.packVM ..) = _
    rw [packVM_hinge, decodeFields, packVM_major]; change _ ∧ decodeMaj18 _ = _
    rw [decodeMaj18, packVM_fn]; change _ ∧ some _ = _
    simp only [packVM_fields, and_self]
  | cnew | cfree | cshare | cprep | csplice | csplit | ctrimh | ctrimt | cslice | cretag | clen | cinfo | cflat | cpriv | cpoolst | cwait =>
    change hinge (Enc.packVC ..) = _ ∧ decodeFields (Enc.packVC ..) = _
    rw [packVC_hinge, decodeFields, packVC_major]; change _ ∧ decodeMaj1A _ = _
    rw [decodeMaj1A, packVC_fn]; change _ ∧ some _ = _
    simp only [packVC_fields, and_self]
  | zmode | zzero | zop | zopmx | zload | zdrain | zrow | zchk =>
    change hinge (Enc.packZ ..) = _ ∧ decodeFields (Enc.packZ ..) = _
    rw [packZ_hinge, decodeFields, packZ_major]; change _ ∧ decodeMaj20 _ = _
    rw [decodeMaj20, packZ_fn]; change _ ∧ some _ = _
    simp only [packZ_fields, mask_in_field, scale_fields, and_self]
  | kacq | klend | kshare | kret | kunshare | ksplit | kmerge | kdrop | kquery | krecover | kclean =>
    change hinge (Enc.packKE ..) = _ ∧ decodeFields (Enc.packKE ..) = _
    rw [packKE_hinge, decodeFields, packKE_major]; change _ ∧ decodeMaj28 _ = _
    rw [decodeMaj28, packKE_fn]; change _ ∧ some _ = _
    simp only [packKE_fields, and_self]
  | aadd | amin | amax | aminn | amaxn | aand | aor | axor | aswap | acas | afadd | afmax | ald | ast =>
    change hinge (Enc.packKE ..) = _ ∧ decodeFields (Enc.packKE ..) = _
    rw [packKE_hinge, decodeFields, packKE_major]; change _ ∧ decodeMaj29 _ = _
    rw [decodeMaj29, packKE_fn]; change _ ∧ some _ = _
    simp only [packKE_fields, mask_in_field, immediate_fields, and_self]
  | fenceSv | fenceVs | fenceVv | fenceAll | gbar | gbarin | gbarwt | await =>
    change hinge (Enc.packKE ..) = _ ∧ decodeFields (Enc.packKE ..) = _
    rw [packKE_hinge, decodeFields, packKE_major]; change _ ∧ decodeMaj2A _ = _
    rw [decodeMaj2A, packKE_fn]; change _ ∧ some _ = _
    simp only [packKE_fields, immediate_fields, and_self]
  | ecopy | ecast | ewin | ewait | estat =>
    change hinge (Enc.packKE ..) = _ ∧ decodeFields (Enc.packKE ..) = _
    rw [packKE_hinge, decodeFields, packKE_major]; change _ ∧ decodeMaj2B _ = _
    rw [decodeMaj2B, packKE_fn]; change _ ∧ some _ = _
    simp only [packKE_fields, and_self]
  | ecopyc =>
    change hinge (Enc.packVM ..) = _ ∧ decodeFields (Enc.packVM ..) = _
    rw [packVM_hinge, decodeFields, packVM_major]; change _ ∧ decodeMaj2B _ = _
    rw [decodeMaj2B, packVM_fn]; change _ ∧ some _ = _
    simp only [packVM_fields, and_self]
  | qsel | qtopk | qcount =>
    change hinge (Enc.packKE ..) = _ ∧ decodeFields (Enc.packKE ..) = _
    rw [packKE_hinge, decodeFields, packKE_major]; change _ ∧ decodeMaj2C _ = _
    rw [decodeMaj2C, packKE_fn]; change _ ∧ some _ = _
    simp only [packKE_fields, and_self]
  | setvl | vrel | yield | exit | launch =>
    change hinge (Enc.packKE ..) = _ ∧ decodeFields (Enc.packKE ..) = _
    rw [packKE_hinge, decodeFields, packKE_major]; change _ ∧ decodeMaj30 _ = _
    rw [decodeMaj30, packKE_fn]; change _ ∧ some _ = _
    simp only [packKE_fields, and_self]
  | trapret | ecall | ebreak | hsave | hload =>
    change hinge (Enc.packKE ..) = _ ∧ decodeFields (Enc.packKE ..) = _
    rw [packKE_hinge, decodeFields, packKE_major]; change _ ∧ decodeMaj31 _ = _
    rw [decodeMaj31, packKE_fn]; change _ ∧ some _ = _
    simp only [packKE_fields, and_self]
  | _ => cases legal

theorem hinge_setH (w : Word) (h : Bool) (clear : hinge w = false) : hinge (w ||| (if h then 0x8000_0000_0000_0000 else 0)) = h := by
  unfold hinge at clear ⊢
  rw [BitVec.getLsbD_or, clear]
  cases h <;> rfl

theorem dropH_setH (w : Word) (h : Bool) (clear : hinge w = false) : dropH (w ||| (if h then 0x8000_0000_0000_0000 else 0)) = w := by
  apply BitVec.eq_of_getLsbD_eq
  intro i hi
  have high : ∀ i : Fin 64, (0x8000_0000_0000_0000#64).getLsbD i = decide (i.val = 63) := by decide
  rw [dropH_bit _ i hi, BitVec.getLsbD_or]
  by_cases top : i = 63
  · subst top
    rw [show w.getLsbD 63 = false from clear]
    simp
  · cases h with
    | false => simp [top]
    | true => simp [top, high ⟨i, hi⟩]

end Sys2Proof

open Sys2Proof

/-- Settles O1: the fields of the word without H read as the instruction (`encode_reads`), and H is no part of them. -/
theorem encodeThenDecodeAgree : Obligations.EncodeThenDecodeAgree := by
  unfold Obligations.EncodeThenDecodeAgree
  intro h i legal
  obtain ⟨clear, reads⟩ := encode_reads i legal
  have word : dropH (encodeH h i) = encode i := dropH_setH _ h clear
  exact ⟨(decode_iff _ i).2 ⟨word ▸ reads, legal, word.symm⟩, hinge_setH _ h clear⟩

/-- Settles O2: the decoder compares the word with the encoder's, and H is what is left of it. -/
theorem decodingIsExact : Obligations.DecodingIsExact := by
  unfold Obligations.DecodingIsExact
  intro w i decodes
  obtain ⟨-, legal, word⟩ := (decode_iff w i).1 decodes
  refine ⟨legal, ?_⟩
  rw [encodeH, word]
  exact (word_eq w).symm

/-- Settles O3: six of the words are the encoder's of a legal instruction, and major 0x00 is reserved. -/
theorem wordsDecode : Obligations.WordsDecode := by
  unfold Obligations.WordsDecode
  have reads (h : Bool) (i : Instr) (legal : i.wf = true) : decode (encodeH h i) = some i := (encodeThenDecodeAgree h i legal).1
  exact ⟨reads true .trapret rfl, reads true (.ecall 5) rfl, reads true (.setvl 5 10 0) rfl, reads true (.yield 4) rfl,
    reads false (.vexp2 4 3 5 0 false 0) rfl, reads false (.ewait 5 4) rfl, rfl⟩

end

section
/-! PROOFS. Every instruction and every step of a unit answers a next state: one lemma per shared operation, then the instructions over them. -/

namespace Sys2Proof.Machine

/-- An outcome with a next state. -/
def GoesOn (o : Out) : Prop := ∃ t, o = .next t

/-! The ways on: a next state, a choice of two, an operand that is checked first and a chain that is waited for. -/

theorem next_goesOn (t : State) : GoesOn (.next t) := ⟨t, rfl⟩

theorem ite_goesOn {c : Prop} [Decidable c] {a b : Out} (ha : GoesOn a) (hb : GoesOn b) : GoesOn (if c then a else b) := by
  split
  · exact ha
  · exact hb

theorem guard_goesOn {c : Prop} [Decidable c] {t : State} {o : Out} (h : GoesOn o) : GoesOn (if c then .next t else o) := ite_goesOn (next_goesOn t) h

theorem whenFree_goesOn {s : State} {chains : List VReg} {masks : List MReg} {go : State → Out} (h : ∀ u, GoesOn (go u)) :
    GoesOn (s.whenFree chains masks go) := by
  obtain ⟨-, e⟩ | ⟨-, e⟩ := whenFree_cases s chains masks go
  · exact e ▸ h _
  · exact e ▸ next_goesOn _

theorem orTrap_goesOn {s : State} {c : Except Trap α} {go : α → Out} (h : ∀ a, GoesOn (go a)) : GoesOn (s.orTrap c go) := by
  obtain ⟨a, -, e⟩ | ⟨t, -, e⟩ := orTrap_cases s c go
  · exact e ▸ h a
  · exact e ▸ guard_goesOn (next_goesOn _)

/-! Scalar words and atomics. -/

theorem load_goesOn (s : State) (xd xa : XReg) (asr w : BitVec 2) (imm : BitVec 32) (ext : Nat → Nat → Word) : GoesOn (load s xd xa asr w imm ext) := by
  unfold load
  dsimp only
  split <;> exact next_goesOn _

theorem store_goesOn (s : State) (xs xa : XReg) (asr w : BitVec 2) (imm : BitVec 32) : GoesOn (execSt xs xa asr w imm s) := by
  unfold execSt
  split <;> exact next_goesOn _

theorem atomic_goesOn (s : State) (op : AtomOp) (xd xa : XReg) (v c : Word) (asr : BitVec 2) (scope ord : BitVec 3) (w : Bool) (off : BitVec 19) :
    GoesOn (s.atomic op xd xa v c asr scope ord w off) := by
  unfold State.atomic
  dsimp only
  split
  · exact next_goesOn _
  · refine guard_goesOn ?_
    split
    · exact next_goesOn _
    · exact guard_goesOn (next_goesOn _)

/-! Vector words: an output is made, or the word stops at one. -/

theorem produce_goesOn (s : State) (c : Job) : GoesOn (s.produce c) := by
  unfold State.produce
  dsimp only
  split
  · exact next_goesOn _
  · split
    · exact next_goesOn _
    · exact next_goesOn _
    · exact guard_goesOn (next_goesOn _)

theorem produceMask_goesOn (s : State) (md msk : MReg) (z : Bool) (vl limit per : Nat) (checked : Bool) (bit : Nat → Bool × Flags) :
    GoesOn (s.produceMask md msk z vl limit per checked bit) := by
  unfold State.produceMask
  dsimp only
  split
  · exact next_goesOn _
  · exact guard_goesOn (next_goesOn _)

/-- A word that checks its operands, waits for its chains and then makes a chain. -/
theorem job_goesOn {s : State} {c : Except Trap α} {r : α → State} {chains : List VReg} {masks : List MReg} {job : α → State → Job} :
    GoesOn (s.orTrap c fun a => (r a).whenFree chains masks fun u => u.produce (job a u)) :=
  orTrap_goesOn fun _ => whenFree_goesOn fun _ => produce_goesOn ..

theorem elementwise_goesOn (s : State) (vd : VReg) (ops : List Operand) (accept : Tag → Bool) (rtag : Tag → Tag) (xl : XReg) (msk : MReg) (z : Bool)
    (fill : State.Fill) (checked : Bool) (extra : Tag → Except Trap Unit) (f : Tag → List Nat → Nat × Flags) :
    GoesOn (s.elementwise vd ops accept rtag xl msk z fill checked extra f) := job_goesOn

theorem arith1_goesOn (s : State) (vd va : VReg) (xl : XReg) (msk : MReg) (z : Bool) (accept : Tag → Bool) (f : Tag → Nat → Nat × Flags) :
    GoesOn (s.arith1 vd va xl msk z accept f) := elementwise_goesOn ..

theorem arith2_goesOn (s : State) (vd va vb : VReg) (xl : XReg) (msk : MReg) (z sc : Bool) (accept : Tag → Bool) (f : Tag → Nat → Nat → Nat × Flags) :
    GoesOn (s.arith2 vd va vb xl msk z sc accept f) := elementwise_goesOn ..

theorem arith3_goesOn (s : State) (vd va vb vc : VReg) (xl : XReg) (msk : MReg) (z sc : Bool) (f : Tag → Nat → Nat → Nat → Nat × Flags) :
    GoesOn (s.arith3 vd va vb vc xl msk z sc f) := elementwise_goesOn ..

theorem special_goesOn (s : State) (fn : Special8) (vd va : VReg) (xl : XReg) (msk : MReg) (z : Bool) (rm : BitVec 3) :
    GoesOn (s.special fn vd va xl msk z rm) := elementwise_goesOn ..

theorem generate_goesOn (s : State) (vd : VReg) (ot : Tag) (xl : XReg) (msk : MReg) (masks : List MReg) (f : State → Nat → Nat × Flags) :
    GoesOn (s.generate vd ot xl msk masks f) := job_goesOn

theorem scan_goesOn (s : State) (k : Fold) (excl : Bool) (vd va : VReg) (xl : XReg) (msk : MReg) (z : Bool) (rm : BitVec 3) :
    GoesOn (s.scan k excl vd va xl msk z rm) := job_goesOn

theorem move_goesOn (s : State) (vd : VReg) (srcs whole : List VReg) (checks : Except Trap Unit) (tag : Tag) (n limit : State → Nat)
    (out : State → Nat → Nat) (known : State → Bool) : GoesOn (s.move vd srcs whole checks tag n limit out known) :=
  orTrap_goesOn fun _ => whenFree_goesOn fun _ => guard_goesOn (produce_goesOn ..)

theorem segReduce_goesOn (s : State) (k : Fold) (vd va vb : VReg) (xl : XReg) (msk : MReg) (rm : BitVec 3) : GoesOn (s.segReduce k vd va vb xl msk rm) :=
  orTrap_goesOn fun _ => whenFree_goesOn fun _ => guard_goesOn (orTrap_goesOn fun _ => produce_goesOn ..)

theorem segScan_goesOn (s : State) (vd va vb xl : BitVec 5) (msk : BitVec 3) (z : Bool) (rm : BitVec 3) : GoesOn (execVsegscan vd va vb xl msk z rm s) :=
  orTrap_goesOn fun _ => whenFree_goesOn fun _ => guard_goesOn (orTrap_goesOn fun _ => produce_goesOn ..)

theorem reduce_goesOn (s : State) (k : Fold) (xd : XReg) (va : VReg) (xl : XReg) (msk : MReg) (rm : BitVec 3) (accept : Tag → Bool) :
    GoesOn (s.reduce k xd va xl msk rm accept) :=
  orTrap_goesOn fun _ => whenFree_goesOn fun _ => guard_goesOn (next_goesOn _)

theorem compare_goesOn (s : State) (md : MReg) (va vb : VReg) (xl : XReg) (msk : MReg) (z sc : Bool) (accept : Tag → Bool) (c : Cmp) :
    GoesOn (s.compare md va vb xl msk z sc accept c) :=
  orTrap_goesOn fun _ => whenFree_goesOn fun _ => guard_goesOn (produceMask_goesOn ..)

theorem maskLogic_goesOn (s : State) (md : MReg) (srcs : List MReg) (xl : XReg) (f : List Bool → Bool) : GoesOn (s.maskLogic md srcs xl f) :=
  orTrap_goesOn fun _ => whenFree_goesOn fun _ => guard_goesOn (produceMask_goesOn ..)

theorem maskValue_goesOn (s : State) (xd : XReg) (ma : MReg) (xl : XReg) (f : State → Nat → Word) : GoesOn (s.maskValue xd ma xl f) :=
  orTrap_goesOn fun _ => guard_goesOn (next_goesOn _)

/-- A mask made from a chain: `mfromv` and `vconflict`. -/
theorem maskJob_goesOn {s r : State} {c : Except Trap α} {chains : List VReg} {masks : List MReg} {same : State → Prop} [∀ u, Decidable (same u)]
    {md msk : MReg} {z : Bool} {n per : Nat} {limit : State → Nat} {checked : Bool} {bit : State → Nat → Bool × Flags} :
    GoesOn (s.orTrap c fun _ => r.whenFree chains masks fun u =>
      if same u then u.waitWhole else u.produceMask md msk z n (limit u) per checked (bit u)) :=
  orTrap_goesOn fun _ => whenFree_goesOn fun _ => guard_goesOn (produceMask_goesOn ..)

theorem vcvtmx_goesOn (s : State) (vd va vsc xl : BitVec 5) (rm : BitVec 3) (ot : BitVec 4) : GoesOn (execVcvtmx vd va vsc xl rm ot s) := by
  refine orTrap_goesOn fun _ => whenFree_goesOn fun u => ?_
  dsimp only
  split
  · exact next_goesOn _
  · exact next_goesOn _
  · exact guard_goesOn (next_goesOn _)

theorem vunzip_goesOn (s : State) (vd ve va xl : BitVec 5) : GoesOn (execVunzip vd ve va xl s) := by
  refine orTrap_goesOn fun _ => whenFree_goesOn fun u => ?_
  dsimp only
  split
  · exact next_goesOn _
  · exact guard_goesOn (next_goesOn _)

theorem accumulate_goesOn (s : State) (zd : BitVec 3) (va vb : VReg) (xk : XReg) (rm : BitVec 3) (scales : Option (VReg × VReg)) :
    GoesOn (s.accumulate zd va vb xk rm scales) :=
  orTrap_goesOn fun _ => whenFree_goesOn fun _ => guard_goesOn (next_goesOn _)

/-! Vector memory. -/

theorem vectorLoad_goesOn (s : State) (vd : VReg) (f : Form) (base : Word) (xl : XReg) (msk : MReg) (asr : BitVec 2) (t : Tag) :
    GoesOn (s.vectorLoad vd f base xl msk asr t) := by
  refine orTrap_goesOn fun _ => whenFree_goesOn fun u => ?_
  dsimp only
  split
  · exact next_goesOn _
  · refine guard_goesOn (guard_goesOn ?_)
    split
    · exact produce_goesOn ..
    · split <;> exact next_goesOn _

theorem vectorStore_goesOn (s : State) (vs : VReg) (f : Form) (base : Word) (xl : XReg) (msk : MReg) (asr : BitVec 2) (t : Tag) (add accept : Bool) :
    GoesOn (s.vectorStore vs f base xl msk asr t add accept) := by
  refine orTrap_goesOn fun _ => whenFree_goesOn fun u => ?_
  dsimp only
  split
  · exact next_goesOn _
  · exact guard_goesOn (guard_goesOn (next_goesOn _))

/-! Chain words. -/

theorem editChain_goesOn (s : State) (checks : Except Trap Unit) (srcs dsts : List VReg) (go : State → State) : GoesOn (s.editChain checks srcs dsts go) := by
  refine guard_goesOn (orTrap_goesOn fun _ => whenFree_goesOn fun u => ?_)
  split <;> exact next_goesOn _

/-! Fences, the barrier and `await`. -/

theorem barrierWait_goesOn (s : State) (xd : XReg) : GoesOn (s.barrierWait xd) := by
  unfold State.barrierWait
  split
  · exact next_goesOn _
  · exact guard_goesOn (next_goesOn _)

theorem awaitTry_goesOn {s : State} {xd xa xb : XReg} {asr : BitVec 2} {scope ord : BitVec 3} {w : Bool} {off : BitVec 19} {timeUp : Bool}
    {again : State → Out} (h : ∀ u, GoesOn (again u)) : GoesOn (s.awaitTry xd xa xb asr scope ord w off timeUp again) := by
  unfold State.awaitTry
  dsimp only
  split
  · exact next_goesOn _
  · split
    · exact next_goesOn _
    · exact guard_goesOn (h _)

/-! Commands of the engines. -/

theorem copyIssue_goesOn (s : State) (kind : BitVec 4) (xd xa xb xc : XReg) (asr : BitVec 2) (imm : BitVec 20) :
    GoesOn (s.copyIssue kind xd xa xb xc asr imm) := by
  unfold State.copyIssue
  dsimp only
  split
  · exact next_goesOn _
  · split
    · exact next_goesOn _
    · exact guard_goesOn (whenFree_goesOn fun _ => next_goesOn _)

theorem ecopyc_goesOn (s : State) (vd : VReg) (xa xb xl : XReg) (asr : BitVec 2) (t : Tag) (imm : BitVec 16) : GoesOn (execEcopyc vd xa xb xl asr t imm s) := by
  unfold execEcopyc
  dsimp only
  refine guard_goesOn (guard_goesOn (guard_goesOn (guard_goesOn ?_)))
  split
  · exact next_goesOn _
  · refine whenFree_goesOn fun u => ?_
    split <;> exact next_goesOn _

theorem ewait_goesOn (s : State) (xd xa : XReg) : GoesOn (execEwait xd xa s) := by
  refine guard_goesOn (guard_goesOn ?_)
  split <;> exact next_goesOn _

theorem select_goesOn (s : State) (kind : BitVec 4) (xd xa xb xc : XReg) (asr : BitVec 2) (imm : BitVec 20) :
    GoesOn (s.select kind xd xa xb xc asr imm) := by
  unfold State.select
  dsimp only
  repeat' refine guard_goesOn ?_
  split
  · exact next_goesOn _
  · exact guard_goesOn (next_goesOn _)

theorem csrUpdate_goesOn (s : State) (xd xa : XReg) (csr : BitVec 10) (f : Word → Word → Word) : GoesOn (s.csrUpdate xd xa csr f) :=
  guard_goesOn (guard_goesOn (next_goesOn _))

/-! Key words. -/

theorem keyed_goesOn {s : State} {xa xb : XReg} {asr : BitVec 2} {imm : BitVec 20} {go : Region → State → Out} (h : ∀ r u, GoesOn (go r u)) :
    GoesOn (s.keyed xa xb asr imm go) := by
  unfold State.keyed
  split
  · exact next_goesOn _
  · exact h _ _

theorem askRemote_goesOn (s : State) (r : Region) (xd : XReg) (allowed : List Nat) (done : State → State) : GoesOn (s.askRemote r xd allowed done) := by
  unfold State.askRemote
  split <;> exact next_goesOn _

theorem transferRemote_goesOn (s : State) (op : Transfer) (r : Region) (xd : XReg) (allowed : List Nat) : GoesOn (s.transferRemote op r xd allowed) :=
  guard_goesOn (askRemote_goesOn ..)

theorem answer_goesOn (s : State) (r : Region) (xd : XReg) (v : Verdict) : GoesOn (s.answer r xd v) := by
  cases v with
  | refuse => exact next_goesOn _
  | status n => exact next_goesOn _
  | again t => exact next_goesOn _
  | change n t => exact guard_goesOn (next_goesOn _)
  | transfer op e => exact guard_goesOn (guard_goesOn (next_goesOn _))

theorem request_goesOn {s : State} {op : KeyOp} {r : Region} {xd : XReg} {remote : Out} (h : GoesOn remote) : GoesOn (s.request op r xd remote) := by
  unfold State.request
  split
  · split
    · exact h
    · exact guard_goesOn (next_goesOn _)
  · exact answer_goesOn ..

theorem ksplit_goesOn (s : State) (xd xa xb : XReg) (asr : BitVec 2) (imm : BitVec 20) : GoesOn (execKsplit xd xa xb asr imm s) := by
  refine keyed_goesOn fun r u => ?_
  split
  · exact next_goesOn _
  · split
    · exact answer_goesOn ..
    · exact guard_goesOn (askRemote_goesOn ..)
    · exact guard_goesOn (ite_goesOn (askRemote_goesOn ..) (askRemote_goesOn ..))

theorem kmerge_goesOn (s : State) (xd xa xb : XReg) (asr : BitVec 2) (imm : BitVec 20) : GoesOn (execKmerge xd xa xb asr imm s) := by
  refine keyed_goesOn fun r u => ?_
  split
  · exact next_goesOn _
  · split
    · exact answer_goesOn ..
    · exact guard_goesOn (askRemote_goesOn ..)
    · refine guard_goesOn ?_
      split
      · exact next_goesOn _
      · exact ite_goesOn (askRemote_goesOn ..) (next_goesOn _)

theorem kquery_goesOn (s : State) (xd xa : XReg) (asr : BitVec 2) (imm : BitVec 20) : GoesOn (execKquery xd xa asr imm s) := by
  refine guard_goesOn (guard_goesOn ?_)
  split
  · exact next_goesOn _
  · split
    · exact next_goesOn _
    · exact guard_goesOn (next_goesOn _)

/-! Hart words. -/

theorem yield_goesOn (s : State) (xa : XReg) : GoesOn (execYield xa s) := by
  refine guard_goesOn (guard_goesOn ?_)
  split
  · exact next_goesOn _
  · exact guard_goesOn (next_goesOn _)

theorem launch_goesOn (s : State) (xd xa xb : XReg) (asr : BitVec 2) (imm : BitVec 20) : GoesOn (execLaunch xd xa xb asr imm s) := by
  refine guard_goesOn (guard_goesOn (guard_goesOn ?_))
  split
  · exact next_goesOn _
  · exact guard_goesOn (guard_goesOn (guard_goesOn (next_goesOn _)))

/-! Steps of the units: each branch is a next state. -/

theorem engineRow_goesOn (s : State) (hart : Nat) : GoesOn (execEngineRow hart s) := by
  unfold execEngineRow
  dsimp only
  (repeat' split) <;> exact next_goesOn _

theorem ecopycTransfer_goesOn (s : State) (hart count : Nat) : GoesOn (execEcopycTransfer hart count s) := by
  unfold execEcopycTransfer
  dsimp only
  (repeat' split) <;> exact next_goesOn _

theorem copyCommandComplete_goesOn (s : State) (hart : Nat) : GoesOn (execCopyCommandComplete hart s) := by
  unfold execCopyCommandComplete
  dsimp only
  (repeat' split) <;> exact next_goesOn _

theorem selectionScan_goesOn (s : State) (hart ticket stack : Nat) : GoesOn (execSelectionScan hart ticket stack s) := by
  unfold execSelectionScan
  dsimp only
  (repeat' split) <;> exact next_goesOn _

theorem selectionMerge_goesOn (s : State) (hart ticket : Nat) : GoesOn (execSelectionMerge hart ticket s) := by
  unfold execSelectionMerge
  dsimp only
  (repeat' split) <;> exact next_goesOn _

theorem fenceComplete_goesOn (s : State) (hart : Nat) : GoesOn (execFenceComplete hart s) := by
  unfold execFenceComplete
  dsimp only
  (repeat' split) <;> exact next_goesOn _

theorem tlbinvComplete_goesOn (s : State) (hart : Nat) : GoesOn (execTlbinvComplete hart s) := by
  unfold execTlbinvComplete
  dsimp only
  (repeat' split) <;> exact next_goesOn _

theorem yieldExpiry_goesOn (s : State) (hart : Nat) : GoesOn (execYieldExpiry hart s) := by
  unfold execYieldExpiry
  dsimp only
  (repeat' split) <;> exact next_goesOn _

theorem keyTransferComplete_goesOn (s : State) (hart : Nat) : GoesOn (execKeyTransferComplete hart s) := by
  unfold execKeyTransferComplete
  dsimp only
  (repeat' split) <;> exact next_goesOn _

theorem gatherRequest_goesOn (s : State) (k : Nat) : GoesOn (execGatherRequest k s) := by
  unfold execGatherRequest
  dsimp only
  (repeat' split) <;> exact next_goesOn _

theorem gatherReply_goesOn (s : State) (k : Nat) : GoesOn (execGatherReply k s) := by
  unfold execGatherReply
  (repeat' split) <;> exact next_goesOn _

theorem writePerformed_goesOn (s : State) (k : Nat) : GoesOn (execWritePerformed k s) := by
  unfold execWritePerformed
  (repeat' split) <;> exact next_goesOn _

theorem launchPacketAdmit_goesOn (s : State) (queue : Nat) : GoesOn (execLaunchPacketAdmit queue s) := by
  unfold execLaunchPacketAdmit
  dsimp only
  (repeat' split) <;> exact next_goesOn _

theorem launchReady_goesOn (s : State) (k : Nat) : GoesOn (execLaunchReady k s) := by
  unfold execLaunchReady
  (repeat' split) <;> exact next_goesOn _

theorem gangPlacement_goesOn (s : State) : GoesOn (execGangPlacement s) := by
  unfold execGangPlacement
  (repeat' split) <;> exact next_goesOn _

theorem gangRestore_goesOn (s : State) : GoesOn (execGangRestore s) := by
  unfold execGangRestore
  (repeat' split) <;> exact next_goesOn _

theorem hartStart_goesOn (s : State) (hart : Nat) : GoesOn (execHartStart hart s) := by
  unfold execHartStart
  dsimp only
  (repeat' split) <;> exact next_goesOn _

theorem hartTerminate_goesOn (s : State) (hart : Nat) : GoesOn (execHartTerminate hart s) := by
  unfold execHartTerminate
  (repeat' split) <;> exact next_goesOn _

theorem hartExitComplete_goesOn (s : State) (hart : Nat) : GoesOn (execHartExitComplete hart s) := by
  unfold execHartExitComplete
  dsimp only
  (repeat' split) <;> exact next_goesOn _

theorem eviction_goesOn (s : State) (gang : Nat) : GoesOn (execEviction gang s) := by
  unfold execEviction
  dsimp only
  (repeat' split) <;> exact next_goesOn _

theorem evictionComplete_goesOn (s : State) (gang : Nat) : GoesOn (execEvictionComplete gang s) := by
  unfold execEvictionComplete
  dsimp only
  (repeat' split) <;> exact next_goesOn _

theorem laneDebtTimeout_goesOn (s : State) (hart : Nat) : GoesOn (execLaneDebtTimeout hart s) := by
  unfold execLaneDebtTimeout
  (repeat' split) <;> exact next_goesOn _

theorem interruptTaken_goesOn (s : State) (hart : Nat) : GoesOn (execInterruptTaken hart s) := by
  unfold execInterruptTaken
  dsimp only
  (repeat' split) <;> exact next_goesOn _

theorem snapshotLatch_goesOn (s : State) : GoesOn (execSnapshotLatch s) := by
  unfold execSnapshotLatch
  (repeat' split) <;> exact next_goesOn _

theorem idleEntry_goesOn (s : State) : GoesOn (execIdleEntry s) := by
  unfold execIdleEntry
  (repeat' split) <;> exact next_goesOn _

theorem scatter_goesOn (s : State) (kind k : Nat) : GoesOn (scatter kind k s) := by
  unfold scatter
  (repeat' split) <;> exact next_goesOn _

theorem awaitWake_goesOn (s : State) (hart : Nat) : GoesOn (execAwaitWake hart s) := by
  unfold execAwaitWake
  dsimp only
  split
  · exact awaitTry_goesOn fun _ => next_goesOn _
  · exact next_goesOn _

theorem awaitTimeout_goesOn (s : State) (hart : Nat) : GoesOn (execAwaitTimeout hart s) := by
  unfold execAwaitTimeout
  dsimp only
  split
  · exact guard_goesOn (awaitTry_goesOn fun _ => next_goesOn _)
  · exact next_goesOn _

/-- Every instruction and every step has a next state: the words of one form by the lemma of their shared operation, the others branch by branch. -/
theorem exec_goesOn (i : Instr) (s : State) : GoesOn (exec i s) := by
  unfold exec
  cases i with
  | ld | ldn => exact load_goesOn ..
  | st => exact store_goesOn ..
  | beq | bne | blt | bge | bltn | bgen | jalr | csrr | cinfo | cwait | vrel | exit | trapret | launchDoorbell | hartResume | timerExpiry
    | trapRecordDiscard | frameCopyStart | frameEntryFree | seatRefusedOp | hostAccess | fabricRequest | nodeUnreachable | hbmZeroingDone
    | snapshotLanded => exact guard_goesOn (next_goesOn _)
  | csrw | csrs | csrc => exact csrUpdate_goesOn ..
  | tlbinv | fenceSv | fenceAll | estat | setvl | hsave | suspension | coreScrub =>
    exact guard_goesOn (guard_goesOn (guard_goesOn (next_goesOn _)))
  | vadd | vsub | vrsub | vmul | vmulh | vdiv | vrem | vmin | vmax | vand | vor | vxor | vandn | vshl | vshr | vsra | vaddsat | vsubsat
    | vcopysign => exact arith2_goesOn ..
  | vfma | vfms | vfnma => exact arith3_goesOn ..
  | vabs | vneg | vsqrt | vclz | vpopc | vround => exact arith1_goesOn ..
  | vclass | vmov | vcvt | vcvtsat => exact elementwise_goesOn ..
  | vexp2 | vexp | vlog2 | vrcp | vrsqrt | vsin | vcos | vtanh | vsigmoid => exact special_goesOn ..
  | vdot | vcvtfrommx | zdrain | zrow => exact job_goesOn
  | vsplat | mtov => exact generate_goesOn ..
  | vid => exact guard_goesOn (generate_goesOn ..)
  | vcmpeq | vcmpne | vcmplt | vcmple | vcmpgt | vcmpge | vcmpun => exact compare_goesOn ..
  | mand | mor | mxor | mandn | mnot | mset => exact maskLogic_goesOn ..
  | mclr | zchk => exact orTrap_goesOn fun _ => whenFree_goesOn fun _ => next_goesOn _
  | mpopc | mfirst => exact maskValue_goesOn ..
  | mfromv | vconflict => exact maskJob_goesOn
  | vcvtmx => exact vcvtmx_goesOn ..
  | vredsum | vredmax | vredmin | vredand | vredor => exact reduce_goesOn ..
  | vscan | vscanx | vscanmax => exact scan_goesOn ..
  | vcompress | vexpand | vslideup | vslidedn | vperm | vrev | vzip | vmergek | vsortk => exact move_goesOn ..
  | vunzip => exact vunzip_goesOn ..
  | vsegsum | vsegmax | vsegmin => exact segReduce_goesOn ..
  | vsegscan => exact segScan_goesOn ..
  | vld | vlds | vldx => exact vectorLoad_goesOn ..
  | vst | vsts | vstx | vstxadd => exact vectorStore_goesOn ..
  | cnew | cshare | cprep | csplice | csplit | ctrimh | ctrimt | cslice | cretag | cflat | cpriv => exact editChain_goesOn ..
  | cfree => exact guard_goesOn (whenFree_goesOn fun _ => next_goesOn _)
  | clen => exact guard_goesOn (orTrap_goesOn fun _ => next_goesOn _)
  | zmode =>
    exact guard_goesOn (guard_goesOn (guard_goesOn (guard_goesOn (guard_goesOn (guard_goesOn (next_goesOn _))))))
  | zzero => exact orTrap_goesOn fun _ => next_goesOn _
  | zop | zopmx => exact accumulate_goesOn ..
  | zload => exact orTrap_goesOn fun _ => whenFree_goesOn fun _ => guard_goesOn (next_goesOn _)
  | kacq | kclean => exact keyed_goesOn fun _ _ => request_goesOn (askRemote_goesOn ..)
  | klend | kshare => exact keyed_goesOn fun _ _ => request_goesOn (guard_goesOn (transferRemote_goesOn ..))
  | kret | kunshare | kdrop => exact keyed_goesOn fun _ _ => request_goesOn (transferRemote_goesOn ..)
  | ksplit => exact ksplit_goesOn ..
  | kmerge => exact kmerge_goesOn ..
  | kquery => exact kquery_goesOn ..
  | krecover => exact guard_goesOn (keyed_goesOn fun _ _ => request_goesOn (askRemote_goesOn ..))
  | aadd | amin | amax | aminn | amaxn | aand | aor | axor | aswap | acas | afadd | afmax | ald | ast => exact atomic_goesOn ..
  | fenceVs | fenceVv | gbarin | stackScrub | gueskStart => exact guard_goesOn (guard_goesOn (next_goesOn _))
  | gbar => exact guard_goesOn (ite_goesOn (barrierWait_goesOn ..) (guard_goesOn (barrierWait_goesOn ..)))
  | gbarwt => exact guard_goesOn (barrierWait_goesOn ..)
  | await => exact guard_goesOn (awaitTry_goesOn fun _ => next_goesOn _)
  | ecopy | ecast | ewin => exact copyIssue_goesOn ..
  | ecopyc => exact ecopyc_goesOn ..
  | ewait => exact ewait_goesOn ..
  | qsel | qtopk | qcount => exact select_goesOn ..
  | yield => exact yield_goesOn ..
  | launch => exact launch_goesOn ..
  | hload =>
    exact guard_goesOn (guard_goesOn (guard_goesOn (guard_goesOn (guard_goesOn (next_goesOn _)))))
  | engineRow => exact engineRow_goesOn ..
  | ecopycTransfer => exact ecopycTransfer_goesOn ..
  | copyCommandComplete => exact copyCommandComplete_goesOn ..
  | selectionScan => exact selectionScan_goesOn ..
  | selectionMerge => exact selectionMerge_goesOn ..
  | writePerformed => exact writePerformed_goesOn ..
  | keyTransferComplete => exact keyTransferComplete_goesOn ..
  | tlbinvComplete => exact tlbinvComplete_goesOn ..
  | fenceComplete => exact fenceComplete_goesOn ..
  | awaitWake => exact awaitWake_goesOn ..
  | awaitTimeout => exact awaitTimeout_goesOn ..
  | yieldExpiry => exact yieldExpiry_goesOn ..
  | gatherRequest => exact gatherRequest_goesOn ..
  | gatherReply => exact gatherReply_goesOn ..
  | scatter | scatterAdd => exact scatter_goesOn ..
  | launchPacketAdmit => exact launchPacketAdmit_goesOn ..
  | launchReady => exact launchReady_goesOn ..
  | gangPlacement => exact gangPlacement_goesOn ..
  | hartStart => exact hartStart_goesOn ..
  | gangRestore => exact gangRestore_goesOn ..
  | hartTerminate => exact hartTerminate_goesOn ..
  | eviction => exact eviction_goesOn ..
  | evictionComplete => exact evictionComplete_goesOn ..
  | hartExitComplete => exact hartExitComplete_goesOn ..
  | laneDebtTimeout => exact laneDebtTimeout_goesOn ..
  | interruptTaken => exact interruptTaken_goesOn ..
  | snapshotLatch => exact snapshotLatch_goesOn ..
  | deviceReset => exact ite_goesOn (guard_goesOn (next_goesOn _)) (next_goesOn _)
  | idleEntry => exact idleEntry_goesOn ..
  | _ => exact next_goesOn _

end Sys2Proof.Machine

open Sys2Proof Sys2Proof.Machine

/-- Settles O6: `exec_goesOn`, instruction by instruction. -/
theorem everyInstructionGoesOn : Obligations.EveryInstructionGoesOn := by
  unfold Obligations.EveryInstructionGoesOn
  exact exec_goesOn

end

section
/-! PROOFS. A fetch with BARE: the eight bytes at home are the word, whether they are read alone or out of their line (R55, R85). -/

namespace Sys2Proof.Machine

/-! Bytes and numbers. -/

theorem toBytes_eq_map (n : Nat) : ∀ v, toBytes n v = (List.range n).map fun i => BitVec.ofNat 8 (v / 256 ^ i) := by
  induction n with
  | zero => exact fun _ => rfl
  | succ n ih =>
    intro v
    rw [toBytes, ih, List.range_succ_eq_map, List.map_cons, List.map_map]
    simp [Function.comp_def, Nat.div_div_eq_div_mul, Nat.pow_succ']

theorem ofBytes_lt (bs : List Byte) : ofBytes bs < 256 ^ bs.length := by
  induction bs with
  | nil => decide
  | cons b bs ih =>
    have := b.isLt
    rw [ofBytes, List.length_cons, Nat.pow_succ]
    omega

/-- Byte i of a number is byte i of the list it was made of (R3). -/
theorem byte_of_ofBytes (bs : List Byte) : ∀ i (h : i < bs.length), BitVec.ofNat 8 (ofBytes bs / 256 ^ i) = bs[i] := by
  induction bs with
  | nil => exact fun _ h => nomatch h
  | cons b bs ih =>
    intro i h
    have hb := b.isLt
    cases i with
    | zero =>
      apply BitVec.eq_of_toNat_eq
      rw [ofBytes, BitVec.toNat_ofNat, pow_zero, Nat.div_one, List.getElem_cons_zero]
      omega
    | succ i =>
      have : (b.toNat + 256 * ofBytes bs) / 256 = ofBytes bs := by omega
      rw [ofBytes, Nat.pow_succ', ← Nat.div_div_eq_div_mul, this, List.getElem_cons_succ]
      exact ih i (Nat.lt_of_succ_lt_succ h)

theorem wordOfBytes_eq (bs : List Byte) : wordOfBytes bs = BitVec.ofNat 64 (ofBytes bs) := by
  induction bs with
  | nil => rfl
  | cons b bs ih =>
    have hb := b.isLt
    have apart : wordOfBytes bs <<< 8 &&& (zext b : Word) = 0 := by
      apply BitVec.eq_of_getLsbD_eq
      intro i hi
      by_cases low : i < 8
      · simp [zext, low]
      · simp [zext, low, BitVec.getLsbD_of_ge b i (Nat.le_of_not_lt low)]
    show wordOfBytes bs <<< 8 ||| (zext b : Word) = _
    rw [← BitVec.add_eq_or_of_and_eq_zero _ _ apart, ih]
    apply BitVec.eq_of_toNat_eq
    simp only [zext, ofBytes, BitVec.toNat_add, BitVec.toNat_shiftLeft, BitVec.toNat_ofNat, BitVec.toNat_setWidth, Nat.shiftLeft_eq]
    omega

theorem toNat_ofNat_of_lt_bytes {w n : Nat} (h : n < 256 ^ w) : (BitVec.ofNat (8 * w) n).toNat = n := by
  rw [BitVec.toNat_ofNat, Nat.pow_mul]
  exact Nat.mod_eq_of_lt h

/-- Bytes read out of a line of 64 (R303). -/
theorem lineBytes_lineOf {bs : List Byte} (h : bs.length = 64) {i n : Nat} (hi : i + n ≤ 64) : lineBytes (lineOf bs) i n = (bs.drop i).take n := by
  have whole : (lineOf bs).toNat = ofBytes bs := toNat_ofNat_of_lt_bytes (w := 64) (h ▸ ofBytes_lt bs)
  apply List.ext_getElem
  · simp [lineBytes, toBytes_eq_map]; omega
  · intro j h1 h2
    have hj : j < n := by simpa [lineBytes, toBytes_eq_map] using h1
    simp only [lineBytes, toBytes_eq_map, List.getElem_map, List.getElem_range, List.getElem_take, List.getElem_drop, whole]
    rw [← byte_of_ofBytes bs (i + j) (by omega), Nat.div_div_eq_div_mul, Nat.pow_mul, ← Nat.pow_add]

/-- A key of an 8-byte unit lies on a boundary of 8 bytes as its physical address does (Table 04-1). -/
theorem physKey_aligned {p k : Nat} (h : physKey p = some k) (hp : p % 8 = 0) : k % 8 = 0 := by
  unfold physKey at h
  split at h
  · simp only [Option.some.injEq] at h
    omega
  · split at h
    · dsimp only at h
      split at h
      · simp only [Option.some.injEq] at h
        omega
      · exact nomatch h
    · exact nomatch h

/-- The word of a line is the eight bytes at home. -/
theorem line_word (s : State) {k : Nat} (h : k % 8 = 0) :
    BitVec.ofNat 64 (ofBytes (lineBytes (lineOf (s.homeRead (k / 64 * 64) 64)) (k % 64) 8)) = wordOfBytes (s.homeRead k 8) := by
  have part : ((s.homeRead (k / 64 * 64) 64).drop (k % 64)).take 8 = s.homeRead k 8 := by
    apply List.ext_getElem
    · simp [homeRead_getElem]; omega
    · intro i h1 h2
      simp only [homeRead_getElem, List.getElem_take, List.getElem_drop, List.getElem_map, List.getElem_range]
      congr 1
      omega
  rw [lineBytes_lineOf (by simp [homeRead_getElem]) (by omega), part, wordOfBytes_eq]

/-- In mode S with BARE an offset of space 0 is a physical address (R85). -/
theorem locateMem_bare {s : State} (mode : s.h.mode = .s) (bare : s.h.bare = true) {off k : Nat} (place : physKey off = some k) (kind : Kind) :
    s.locateMem s.h.acc 0 off kind = .ok (⟨k, false, false, false, none⟩, s) := by
  have isBare : s.h.acc.bare = true := by simp [Hart.acc, mode, bare]
  rw [State.locateMem, if_pos ⟨isBare, rfl⟩, place]

end Sys2Proof.Machine

open Sys2Proof Sys2Proof.Machine

/-- Settles O5: with no line held the fetch fills one from home (`line_word`) and writes nothing else. -/
theorem fetchReadsEightBytes : Obligations.FetchReadsEightBytes := by
  unfold Obligations.FetchReadsEightBytes
  intro s k mode bare aligned place unheld sound
  have pc8 : s.h.pc.toNat % 8 = 0 := by
    have := congrArg BitVec.toNat aligned
    rw [BitVec.toNat_and, show (7#64).toNat = 2 ^ 3 - 1 from rfl, Nat.and_two_pow_sub_one_eq_mod] at this
    exact this
  have miss : s.core.icache.find? (fun l => l.key == k / 64 * 64) = none :=
    List.find?_eq_none.2 fun l hl => by simpa using unheld l hl
  rw [State.fetchWord, State.fetchWordAs, locateMem_bare mode bare place]
  simp only [State.poisonTrap, sound, miss, line_word s (physKey_aligned place pc8)]
  exact ⟨_, rfl, rfl, fun _ => rfl⟩

end

section
/-! PROOFS. A return from a record whose raiser is still to run: the target that the new trap reports lies after that word. -/

namespace Sys2Proof.Tests
open Sys2Proof.Machine

/-- A record at a misaligned hinge: its only word stopped for want of links and is to run again (R164, R347). -/
def wanting : Convoy :=
  { Convoy.empty 0x1004 with
    words := [.vadd 1 2 3 5 0 false 0 false], entries := [{ Entry.idle .stopped 0 with cause := 0x0C }], rcause := 0x0C }
/-- A handler about to return to that record. -/
def returning : State := hart (handler base) fun h => { h with pfr := some wanting }

/-- The first word of the record that is neither done nor abandoned is its word 0. -/
theorem wanting_first : ¬ (wanting.done.getLsbD 0 = true ∨ ∃ e, wanting.entry 0 = some e ∧ e.state = .abandoned) := by
  rintro (h | ⟨e, h, st⟩)
  · exact absurd h (by decide)
  · have : e.state = .stopped := by
      simp only [show wanting.entry 0 = some _ from rfl, Option.some.injEq] at h
      rw [← h]
      rfl
    exact nomatch this.symm.trans st

/-- `trapret` reports the address after that word, since it passes over the word that raised the cause. -/
theorem returning_tval : (match exec .trapret returning with | .next t => decide (t.h.tval = 0x100C) | _ => false) = true := by decide +kernel

end Sys2Proof.Tests

open Sys2Proof Sys2Proof.Machine Sys2Proof.Tests

/-- Refutes O48: `trapret` to a misaligned record is to report the address of the record's first word that is neither done nor abandoned, and for a word 0
at 0x1004 that stopped with cause 0x0C it reports 0x100C: where an aligned record resumes its causes are cleared first, and here they are not. -/
theorem not_poolFaultsAndReturns : ¬ Obligations.PoolFaultsAndReturns := by
  unfold Obligations.PoolFaultsAndReturns
  rintro ⟨-, returns⟩
  obtain ⟨-, -, -, misaligned⟩ := returns returning wanting 0 .u
  have record := (misaligned (by decide)).2 (by decide) (by decide) (.inr ⟨by decide, fun _ => wanting_first, fun _ h => nomatch h⟩)
  obtain ⟨t, taken, entered, -⟩ := record.2 rfl rfl
  have after := returning_tval
  rw [taken] at after
  exact absurd (entered.tval.symm.trans (of_decide_eq_true after)) (by decide)

end

section
/-! PROOFS. A convoy whose addresses wrap: its next address is its hinge, so what runs there is its word 0 and not a word past the sixteenth. -/

namespace Sys2Proof.Machine

/-! Choosing the next mover leaves the mode of the current hart. -/

theorem setHart_mode {s : State} {k : Nat} {h : Hart} (same : h.mode = (s.hartAt k).mode) : (s.setHart k h).h.mode = s.h.mode := by
  unfold State.setHart
  split
  · next here => rw [show s.hartAt k = s.h from if_pos here] at same; exact same
  · rfl

theorem markReady_mode (s : State) : s.markReady.h.mode = s.h.mode :=
  List.foldlRecOn (motive := fun t : State => t.h.mode = s.h.mode) s.placed _ rfl fun t h k _ => by
    refine Eq.trans ?_ h
    exact setHart_mode rfl

theorem readAhead_mode (s : State) : s.readAhead.h.mode = s.h.mode := by
  unfold State.readAhead
  split
  · rfl
  · dsimp only
    split <;> rfl

theorem rowAhead_mode (s : State) : s.rowAhead.h.mode = s.h.mode := by
  unfold State.rowAhead
  split
  · rfl
  · dsimp only
    split
    · rfl
    · split
      · rfl
      · exact setHart_mode rfl

theorem reschedule_mode (s : State) : s.reschedule.h.mode = s.h.mode :=
  (rowAhead_mode _).trans ((readAhead_mode _).trans (markReady_mode _))

/-! A step of the hart whose turn it is. -/

theorem step_hart {s : State} (on : s.power ≠ .off) (turn : s.turn = .hart s.cur) : step s = s.runHart s.cur exec := by
  unfold step
  rw [turn]
  cases h : s.power with
  | off => exact absurd h on
  | on | idle => rfl

theorem runHart_word {s u : State} {i : Instr} (word : s.issue = .word i u) :
    s.runHart s.cur exec = State.settle (u.heldLoad i (u.readCheck i (exec i u))) := by
  rw [State.runHart, show s.focus s.cur = s from if_pos rfl, word]

/-- A hart that stands in a convoy at a word which is neither done nor a raiser goes on to its fetch. -/
theorem issue_inside {s : State} {c : Convoy} (run : s.h.st = .running) (wait : s.h.wait = .none) (mode : s.h.mode ≠ .d) (convoy : s.h.convoy = some c)
    (known : c.stale = false) (goes : c.nextpc = none) (here : s.h.pc = c.hinge + 8 * BitVec.ofNat 64 (c.nextWord 16 (c.pos s.h.pc))) :
    s.issue = s.fetchAndIssue := by
  have words : s.h.convoy.map s.recordAgain = s.h.convoy := by simp [State.recordAgain, convoy, known]
  have record : (if s.h.mode = .d then s.h.pfr.map s.recordAgain else s.h.pfr) = s.h.pfr := if_neg mode
  have reload : s.reloadWords = s := by rw [State.reloadWords, words, record]
  have stay : s.passDone = s := by
    simp only [State.passDone, convoy, goes, ite_self]
    rw [← here, ← convoy]
  simp only [State.issue, run, wait, reload, stay, convoy]

/-- A word of a convoy in progress that its hart comes to again issues once more. -/
theorem fetchAndIssue_again {s s1 : State} {c : Convoy} {w : Word} {i : Instr} (convoy : s.h.convoy = some c) (quiet : c.entries = []) (goes : c.nextpc = none)
    (again : c.pos s.h.pc < c.words.length) (aligned : s.h.pc &&& 7#64 = 0) (fetch : s.fetchWord s.h.pc = .ok (w, s1)) (word : decode w = some i)
    (checks : s1.h.mcheck = []) :
    s.fetchAndIssue = .word i { s1 with h := { s1.h with
      convoy := some { c with words := c.words.set (c.pos s.h.pc) i }, iword := w, lastIssue := s1.tick, since := none } } := by
  have calm : c.faulted = false := by simp [Convoy.faulted, quiet]
  have free : c.holdsBack (c.pos s.h.pc) i = false := by simp [Convoy.holdsBack, quiet]
  simp [State.fetchAndIssue, State.fetchAligned, State.checkInside, convoy, goes, calm, aligned, fetch, again, word, checks, free]

theorem exec_nop (s : State) : exec (.addi 0 0 0) s = .next s.retire := rfl

theorem readsElements_of_scalar {i : Instr} (scalar : (uses i).unit = none) : readsElements i = false := by
  unfold readsElements
  split
  case h_13 => simp [isV, scalar]
  all_goals rfl

/-- A scalar word that raises no machine check completes as it is. -/
theorem scalar_unchecked {s t : State} {i : Instr} (goes : exec i s = .next t) (scalar : (uses i).unit = none) (checks : State.checksOf t.h = State.checksOf s.h) :
    s.heldLoad i (s.readCheck i (exec i s)) = .next t := by
  have row : s.badRead i = none := if_pos (.inr (by rw [readsElements_of_scalar scalar]; rfl))
  have more : (State.checksOf t.h).drop (State.checksOf s.h).length = [] := by rw [checks, List.drop_length]
  have load : isLoad i = false := by simp [isLoad, scalar]
  simp [goes, State.readCheck, row, more, State.heldLoad, load]

end Sys2Proof.Machine

namespace Sys2Proof.Tests
open Sys2Proof.Machine

/-- A convoy at 0x108 of the given words, none of them done. -/
def unended (ws : List Instr) : Convoy := { Convoy.empty 0x108 with words := ws }
/-- A hart of mode U that stands at its hinge, where an `addi x0, x0, 0` without H lies. -/
def wrapped (ws : List Instr) : State := atWord 0x108 fun h => { h with convoy := some (unended ws) }

theorem unended_nextWord (ws : List Instr) (p : Nat) : (unended ws).nextWord 16 p = p := by
  simp [unended, Convoy.empty, Convoy.entry, Convoy.nextWord]

theorem wrapped_pos (ws : List Instr) : (unended ws).pos (wrapped ws).h.pc = 0 := show (((0x108 : Word) - 0x108) / 8).toNat = 0 by decide

theorem unended_aligned (ws : List Instr) : (unended ws).hinge &&& 7#64 = 0 := show (0x108 : Word) &&& 7#64 = 0 by decide

/-- It runs the word and stays in mode U. -/
theorem wrapped_step {ws : List Instr} (nonempty : 0 < ws.length) {s1 : State} {w : Word} (word : decode w = some (.addi 0 0 0))
    (fetch : (wrapped ws).fetchWord (wrapped ws).h.pc = .ok (w, s1)) (hart : s1.h = (wrapped ws).h) :
    ∃ t : State, step (wrapped ws) = .next t.reschedule ∧ t.h.mode = .u := by
  have issue : (wrapped ws).issue = (wrapped ws).fetchAndIssue := issue_inside (c := unended ws) rfl rfl nofun rfl rfl rfl
    (by rw [unended_nextWord, wrapped_pos]; exact show (0x108 : Word) = 0x108 + 8 * 0#64 by decide)
  have again := fetchAndIssue_again (c := unended ws) rfl rfl rfl (by rw [wrapped_pos]; exact nonempty) (unended_aligned ws) fetch word (by rw [hart]; rfl)
  have run := runHart_word (issue.trans again)
  rw [scalar_unchecked (exec_nop _) rfl rfl] at run
  exact ⟨_, (step_hart (s := wrapped ws) nofun rfl).trans run, by exact congrArg Hart.mode hart⟩

end Sys2Proof.Tests

open Sys2Proof Sys2Proof.Machine Sys2Proof.Tests

/-- Refutes O4: a word that follows 16 or more words of a convoy is to trap with cause 0x02, and the statement bounds the convoy's length nowhere (R59
does). In a convoy of 2^61 words, none done, the address after the last is the hinge again: the hart stands there at word 0, and an `addi x0, x0, 0` runs in
mode U where mode S is to be entered. -/
theorem not_stepRunsTheDecodedWord : ¬ Obligations.StepRunsTheDecodedWord := by
  unfold Obligations.StepRunsTheDecodedWord
  rintro ⟨-, -, traps⟩
  obtain ⟨ws, length⟩ : ∃ ws : List Instr, ws.length = 2 ^ 61 := ⟨List.replicate (2 ^ 61) (.addi 0 0 0), List.length_replicate⟩
  let w : Word := 0x0200_0000_0000_0000
  have word : decode w = some (.addi 0 0 0) := by decide +kernel
  obtain ⟨s1, fetch, hart⟩ := reads 0x108 (fun h => { h with convoy := some (unended ws) }) (w := w)
    ⟨rfl, rfl, rfl, by decide, by decide, by decide⟩ (line_of 8 (by decide +kernel))
  have here : (0x108 : Word) = 0x108 + 8 * BitVec.ofNat 64 ws.length := by rw [length]; decide
  obtain ⟨-, inside⟩ := traps (wrapped ws) nofun rfl rfl rfl nofun nofun rfl rfl rfl
  obtain ⟨-, -, limits⟩ := inside (unended ws) rfl rfl rfl (unended_nextWord ws _) here nofun
  obtain ⟨t, trapped, entered, -⟩ := ((limits (unended_aligned ws) w s1 fetch (by decide)).2 _ word).1 (.inl (by rw [show (unended ws).words = ws from rfl, length]; decide))
  obtain ⟨u, ran, mode⟩ := wrapped_step (by rw [length]; decide) word fetch hart
  have same : t.reschedule = u.reschedule := Host.Outcome.next.inj (trapped.symm.trans ran)
  have : t.h.mode = u.h.mode := (reschedule_mode t).symm.trans ((congrArg (·.h.mode) same).trans (reschedule_mode u))
  exact absurd (entered.mode.symm.trans (this.trans mode)) nofun
end

section
/-! PROOFS. The end of a wait (R93, R292, R296, R333): the word retires as it would have done without the wait. -/

namespace Sys2Proof.Machine

theorem focus_cur (s : State) (k : Nat) : (s.focus k).cur = k := by
  unfold State.focus
  split
  · next h => exact h.symm
  · dsimp only
    split <;> rfl

/-! A word that has waited completes in the state in which its hart runs again. -/

theorem awake_ok (s : State) : completes s.awake.ok (PlainResult s s) := ⟨_, rfl, ⟨rfl, rfl⟩, ⟨rfl, rfl, rfl, rfl⟩, rfl⟩

theorem awake_wr (s : State) (xd : XReg) (v : Word) : completes (s.awake.wr xd v) (XResult xd v s s) := by
  obtain ⟨t, ht, value, others, retired, rest⟩ := wr_completes (s := s) (u := s.awake) ⟨rfl, rfl, rfl⟩ ⟨rfl, rfl, rfl⟩ xd v
  exact ⟨t, ht, value, others, retired, rest⟩

/-! Fences, `tlbinv` and `yield`. -/

/-- What a fence leaves when it ends (R285, R292): `fence.all` (`cmds`) has dropped the instruction lines of the core, and the hart reads again what the agents
named by `thenS` and `thenV` had read ahead. -/
theorem fenceEnd_completes (t : State) (cmds thenS thenV : Bool) : completes (.next (t.fenceEnd cmds thenS thenV)) fun u =>
    Retired t u ∧ u.h.st = .running ∧ u.h.xu = t.h.xu ∧ u.h.xs = t.h.xs ∧ u.h.v = t.h.v ∧ u.core.icache = (if cmds then [] else t.core.icache)
      ∧ ∀ e, e ∈ u.early ↔ e ∈ t.early ∧ ¬ (e.hart = t.cur ∧ (if e.vec then thenV else thenS) = true) := by
  have early (e : Early) : e ∈ (t.dropEarly t.cur fun e => if e.vec then thenV else thenS).early ↔
      e ∈ t.early ∧ ¬ (e.hart = t.cur ∧ (if e.vec then thenV else thenS) = true) := by
    simp [State.dropEarly, List.mem_filter, imp_iff_not_or]
  cases cmds <;> exact ⟨_, rfl, ⟨rfl, rfl, rfl, rfl⟩, rfl, rfl, rfl, rfl, rfl, early⟩

theorem fenceComplete_ends {s : State} {hart : Nat} {sc vec cmds sys thenS thenV : Bool} (run : (s.focus hart).h.st = .running)
    (wait : (s.focus hart).h.wait = .fence sc vec cmds sys thenS thenV) (past : (s.focus hart).fenceWaits sc vec cmds sys = false) :
    exec (.fenceComplete hart) s = .next ((s.focus hart).fenceEnd cmds thenS thenV) := by
  show execFenceComplete hart s = _
  simp only [execFenceComplete, run, wait, past, Bool.false_eq_true, if_false]

theorem tlbinvComplete_ends {s : State} {hart before reach : Nat} (run : (s.focus hart).h.st = .running)
    (wait : (s.focus hart).h.wait = .tlbinv before reach) (past : (s.focus hart).tlbWaits before reach = false) :
    exec (.tlbinvComplete hart) s = (s.focus hart).awake.ok := by
  show execTlbinvComplete hart s = _
  simp only [execTlbinvComplete, run, wait, past, Bool.false_eq_true, if_false]
  rfl

theorem yieldExpiry_ends {s : State} {hart lim : Nat} (waiting : (s.focus hart).h.st = .waiting) (wait : (s.focus hart).h.wait = .yield lim)
    (past : lim ≤ (s.focus hart).cycle.toNat) : exec (.yieldExpiry hart) s = (s.focus hart).awake.ok := by
  show execYieldExpiry hart s = _
  simp only [execYieldExpiry, waiting, wait, Nat.not_lt.2 past, if_false]

/-! `await`: a pass that has read its value ends the wait or goes on with it (R296). -/

theorem acquires_iff (ord : BitVec 3) : acquires ord = true ↔ ord = 1 ∨ ord = 3 ∨ ord = 4 := by
  simp [acquires, or_assoc]

/-- The state in which an `await` that has read writes its result: with an acquire when its ordering asks for one. -/
def State.afterAwait (s : State) (scope ord : BitVec 3) (rels : List Rel) (e : Option Early) : State :=
  if ord = 1 ∨ ord = 3 ∨ ord = 4 then s.acquire scope rels e else s

section
variable {t s1 s2 : State} {xd xa xb : XReg} {asr : BitVec 2} {scope ord : BitVec 3} {w : Bool} {off : BitVec 19} {pl : Place} {m : Nat} {rels : List Rel}
  {e : Option Early}
  (place : t.scalarPlace (t.h.space asr) (offset (t.x xa) off) (if w then 8 else 4) .aread false = .ok (pl, s1))
  (read : s1.atomRead (t.h.space asr) (offset (t.x xa) off) (if w then 8 else 4) pl (ord == 4) = .ok (m, rels, e, s2))
include place read

theorem awaitTry_read (timeUp : Bool) (again : State → Out) : t.awaitTry xd xa xb asr scope ord w off timeUp again =
    if m ≠ (t.x xb).toNat % 2 ^ (8 * if w then 8 else 4) ∨ timeUp then (s2.afterAwait scope ord rels e).awake.wr xd (BitVec.ofNat 64 m) else again s2 := by
  simp only [State.awaitTry, place, read, acquires_iff, State.afterAwait]

end

section
variable {s : State} {hart : Nat} {xd xa xb xc : XReg} {asr : BitVec 2} {scope ord : BitVec 3} {w : Bool} {off : BitVec 19}
  (waiting : (s.focus hart).h.st = .waiting) (word : (s.focus hart).word = some (.await xd xa xb xc asr scope ord w off))
include waiting word

theorem awaitWake_tries {lim : Option Nat} (wait : (s.focus hart).h.wait = .await lim) :
    exec (.awaitWake hart) s = (s.focus hart).awaitTry xd xa xb asr scope ord w off false fun _ => .next s := by
  show execAwaitWake hart s = _
  simp only [execAwaitWake, waiting, wait, word]

theorem awaitTimeout_tries {lim : Nat} (wait : (s.focus hart).h.wait = .await (some lim)) (past : lim ≤ (s.focus hart).cycle.toNat) :
    exec (.awaitTimeout hart) s = (s.focus hart).awaitTry xd xa xb asr scope ord w off true fun _ => .next s := by
  show execAwaitTimeout hart s = _
  simp only [execAwaitTimeout, waiting, wait, word, Nat.not_lt.2 past, if_false]

end

end Sys2Proof.Machine
end

section
/-! PROOFS. The end of a transfer (R108): the sweep of the core's caches (Table 05-8), then the row of Table 05-6. -/

namespace Sys2Proof.Machine

/-! Lines written back. -/

/-- t is s but for storage and what has left for other nodes. -/
def SameButHomes (s t : State) : Prop := ∃ m p r c w, t = { s with mem := m, poison := p, rels := r, scans := c, remote := w }

theorem SameButHomes.refl (s : State) : SameButHomes s s := ⟨_, _, _, _, _, rfl⟩

theorem SameButHomes.trans {s t u : State} : SameButHomes s t → SameButHomes t u → SameButHomes s u := by
  rintro ⟨_, _, _, _, _, rfl⟩ ⟨_, _, _, _, _, rfl⟩
  exact ⟨_, _, _, _, _, rfl⟩

/-- A line without an error beyond correction goes to its home and changes nothing else. -/
theorem writeBack_homes (s : State) (n : Nat) {l : L1Line} (sound : l.bad = false) : SameButHomes s (s.writeBack n l) := by
  unfold State.writeBack
  rw [if_neg (by simp [sound])]
  split
  · exact ⟨_, _, _, _, _, rfl⟩
  · obtain ⟨_, _, _, _, written⟩ := homeWrite_storage s l.key (lineBytes l.data 0 64)
    exact ⟨_, _, _, _, _, written⟩

theorem writeBacks_homes (s : State) (n : Nat) (ls : List L1Line) (sound : ∀ l ∈ ls, l.bad = false) :
    SameButHomes s (ls.foldl (fun t l => t.writeBack n l) s) :=
  List.foldlRecOn ls _ (.refl s) fun t ht l hl => ht.trans (writeBack_homes t n (sound l hl))

/-- The lines of an L1 after a sweep without an error beyond correction (Table 05-8): those that satisfy the test kept clean, or gone. -/
def sweptLines (test : L1Line → Bool) (keep : Bool) (ls : List L1Line) : List L1Line :=
  if keep then ls.map fun l => if test l then { l with dirty := false } else l else ls.filter fun l => !test l

/-- The sweep of the current core: the write-backs, then the lines that stay. -/
theorem sweepL1_written {s u : State} (written : SameButHomes s u) (test : L1Line → Bool) {back : Bool} (keep : Bool)
    (backs : (if back then ((s.core.l1.filter test).filter (·.dirty)).foldl (fun t l => t.writeBack s.coreNo l) s else s) = u)
    (sound : ∀ l ∈ s.core.l1, l.dirty = true → l.bad = false) :
    s.sweepL1 test back keep = { u with core := { s.core with l1 := sweptLines test keep s.core.l1 } } := by
  have noneLost : s.core.l1.filter (fun l => !(test l && l.dirty && l.bad)) = s.core.l1 := by
    refine List.filter_eq_self.2 fun l hl => ?_
    cases dirty : l.dirty
    · simp
    · simp [sound l hl dirty]
  have own (v : State) (same : v.cur = s.cur) : v.coreAt s.coreNo = v.core := if_pos (congrArg (· / 8) same.symm)
  have put (v : State) (c : Core) (same : v.cur = s.cur) : v.setCore s.coreNo c = { v with core := c } := if_pos (congrArg (· / 8) same.symm)
  have same : u.cur = s.cur ∧ u.core = s.core := by
    obtain ⟨_, _, _, _, _, rfl⟩ := written
    exact ⟨rfl, rfl⟩
  obtain ⟨cur, core⟩ := same
  unfold State.sweepL1 State.sweepAt
  dsimp only
  rw [own s rfl, backs, own u cur, put u _ cur, core, noneLost, sweptLines]

/-- A sweep of a core whose dirty lines are sound: what it writes back goes to its home, and the lines that it keeps stay. -/
theorem sweepL1_sound {s : State} (sound : ∀ l ∈ s.core.l1, l.dirty = true → l.bad = false) (test : L1Line → Bool) (back keep : Bool) :
    ∃ u, SameButHomes s u ∧ (back = false → u = s)
      ∧ s.sweepL1 test back keep = { u with core := { s.core with l1 := sweptLines test keep s.core.l1 } } := by
  cases back with
  | false => exact ⟨s, .refl s, fun _ => rfl, sweepL1_written (.refl s) test keep rfl sound⟩
  | true =>
    have written := writeBacks_homes s s.coreNo ((s.core.l1.filter test).filter (·.dirty)) fun l hl => by
      obtain ⟨hl, dirty⟩ := List.mem_filter.1 hl
      exact sound l (List.mem_filter.1 hl).1 dirty
    exact ⟨_, written, nofun, sweepL1_written written test keep rfl sound⟩

/-! The keyring: entries by the region that names them. -/

/-- An entry is that of a region of a space of a context. -/
def KeyEntry.isOf (e : KeyEntry) (ctx space : BitVec 16) (base size : Nat) : Prop := e.ctx = ctx ∧ e.space = space ∧ e.base = base ∧ e.size = size

theorem isOf_of_entryOf {s : State} {ctx space : BitVec 16} {base size : Nat} {e : KeyEntry} (h : s.entryOf ctx space base size = some e) :
    e.isOf ctx space base size := by
  simpa [KeyEntry.isOf, and_assoc] using List.find?_some h

/-- u is s but for the entry of a region, which is `new`, or none any more. -/
structure EntryReplaced (ctx space : BitVec 16) (base size : Nat) (new : Option KeyEntry) (s u : State) : Prop where
  entry : u.entryOf ctx space base size = new
  others : ∀ ctx' space' base' size', ¬ (ctx' = ctx ∧ space' = space ∧ base' = base ∧ size' = size) →
    u.entryOf ctx' space' base' size' = s.entryOf ctx' space' base' size'
  rest : u = { s with keyring := u.keyring }

section
variable {e : KeyEntry} {ctx space : BitVec 16} {base size : Nat} (s : State) (h : e.isOf ctx space base size)
include h

theorem sameRegion_iff (o : KeyEntry) : sameRegion o e = true ↔ o.isOf ctx space base size := by
  obtain ⟨rfl, rfl, rfl, rfl⟩ := h
  simp [sameRegion, KeyEntry.isOf, and_assoc]

theorem delEntry_replaces : EntryReplaced ctx space base size none s (s.delEntry e) where
  entry := by
    refine List.find?_eq_none.2 fun o ho named => ?_
    have other := (List.mem_filter.1 ho).2
    rw [(sameRegion_iff h o).2 (by simpa [KeyEntry.isOf, and_assoc] using named)] at other
    exact nomatch other
  others ctx' space' base' size' other := by
    show (s.keyring.filter fun o => !sameRegion o e).find? _ = s.keyring.find? _
    rw [List.find?_filter]
    congr 1
    funext o
    rw [Bool.eq_iff_iff, decide_eq_true_iff, and_iff_right_iff_imp, Bool.not_eq_true', ← Bool.not_eq_true, sameRegion_iff h]
    simp only [Bool.and_eq_true, beq_iff_eq, and_assoc]
    rintro ⟨rfl, rfl, rfl, rfl⟩ ⟨hctx, hspace, hbase, hsize⟩
    exact other ⟨hctx, hspace, hbase, hsize⟩
  rest := rfl

theorem putEntry_replaces : EntryReplaced ctx space base size (some e) s (s.putEntry e) where
  entry := by
    obtain ⟨rfl, rfl, rfl, rfl⟩ := h
    exact List.find?_cons_of_pos (by simp)
  others ctx' space' base' size' other := by
    refine .trans (List.find?_cons_of_neg fun named => other ?_) ((delEntry_replaces s h).others _ _ _ _ other)
    simp only [Bool.and_eq_true, beq_iff_eq, and_assoc] at named
    obtain ⟨rfl, rfl, rfl, rfl⟩ := named
    exact h
  rest := rfl

end

/-! The rows of Table 05-6 for transfers. -/

/-- What becomes of an entry whose region its owner gives back (Table 05-6): the lender's, or at HOME for its POISON alone, or gone. -/
def KeyEntry.givenBack (e : KeyEntry) : Option KeyEntry :=
  if e.lender ≠ noAgent then some { e with state := .owned, owner := e.lender, lender := noAgent, shares := [] }
  else if e.poison then some { e with state := .home, owner := noAgent, shares := [] } else none

/-- The entry once an agent's share has ended (Table 05-6). -/
def KeyEntry.withoutShare (e : KeyEntry) (agent : BitVec 32) : KeyEntry :=
  let l := e.shares.filter (· ≠ agent)
  { e with shares := l, state := if l = [] then .owned else .shared }

/-- What becomes of an entry by a transfer of an agent (Table 05-6). -/
def Transfer.entryAfter (op : Transfer) (me : BitVec 32) (e : KeyEntry) : Option KeyEntry :=
  match op with
  | .lend c => some { e with owner := c, lender := e.owner }
  | .share c => some { e with state := .shared, shares := e.shares ++ [c] }
  | .ret => e.givenBack
  | .drop => e.givenBack
  | .unshare => some (e.withoutShare me)

/-- An entry that is no longer in transit. -/
def KeyEntry.atRest (e : KeyEntry) : KeyEntry := { e with transit := false, issuer := noAgent }

theorem givenBack_atRest (e : KeyEntry) : e.atRest.givenBack = e.givenBack.map KeyEntry.atRest := by
  unfold KeyEntry.givenBack
  rw [apply_ite (Option.map KeyEntry.atRest), apply_ite (Option.map KeyEntry.atRest)]
  rfl

theorem settleKeys_quiet {s : State} (quiet : s.keyQueue = []) : s.settleKeys = s := by
  rw [State.settleKeys, quiet]
  rfl

theorem leaveQueue_quiet {s : State} (quiet : s.keyQueue = []) (test : KeyWaiter → Bool) : s.leaveQueue test = s := by
  rw [State.leaveQueue, quiet]
  rfl

section
variable {e : KeyEntry} {ctx space : BitVec 16} {base size : Nat} {s : State} (h : e.isOf ctx space base size)
include h

theorem returnEntry_replaces : EntryReplaced ctx space base size e.givenBack s (s.returnEntry e) := by
  unfold State.returnEntry KeyEntry.givenBack
  split
  · exact putEntry_replaces s h
  · split
    · exact putEntry_replaces s h
    · exact delEntry_replaces s h

theorem removeShare_replaces (agent : BitVec 32) : EntryReplaced ctx space base size (some (e.withoutShare agent)) s (s.removeShare e agent) := by
  have row : s.removeShare e agent = s.putEntry (e.withoutShare agent) := by
    simp only [State.removeShare, KeyEntry.withoutShare, List.isEmpty_iff]
  rw [row]
  exact putEntry_replaces s h

/-- The row of Table 05-6 when nothing waits at the controllers (R108 step 5). -/
theorem transferRow_replaces (quiet : s.keyQueue = []) (me : BitVec 32) (op : Transfer) :
    EntryReplaced ctx space base size ((op.entryAfter me e).map KeyEntry.atRest) s (s.transferRow me op e) := by
  have settled {new : Option KeyEntry} {u : State} (row : EntryReplaced ctx space base size new s u) :
      EntryReplaced ctx space base size new s u.settleKeys := by
    have still : u.keyQueue = [] := by
      rw [row.rest]
      exact quiet
    rwa [settleKeys_quiet still]
  have rest : e.atRest.isOf ctx space base size := h
  unfold State.transferRow
  cases op with
  | lend c => exact settled (putEntry_replaces s h)
  | share c => exact settled (putEntry_replaces s h)
  | ret => exact settled (givenBack_atRest e ▸ returnEntry_replaces rest)
  | drop => exact settled (givenBack_atRest e ▸ returnEntry_replaces rest)
  | unshare => exact settled (removeShare_replaces rest me)

end

/-! The sweep of a transfer (R108 steps 3 and 4, Table 05-8). -/

/-- A line of a region of a space of a context. -/
def L1Line.inKey (ctx space : BitVec 16) (base size : Nat) (l : L1Line) : Bool := l.ctx == ctx && l.space == space && inRegion base size l.off

/-- A `kshare` leaves the lines of its region clean; every other transfer takes them. -/
def Transfer.keepsLines : Transfer → Bool
  | .share _ => true
  | _ => false

/-- A `kdrop` writes no line back; every other transfer does. -/
def Transfer.writesBack : Transfer → Bool
  | .drop => false
  | _ => true

/-- What the sweep of a transfer leaves: the hart and the keyring, the lines that stay, no right of the agent over the region, and memory when the transfer
writes nothing back. -/
structure TransferSwept (op : Transfer) (space : BitVec 16) (base size : Nat) (s u : State) : Prop where
  hart : u.h = s.h
  keyring : u.keyring = s.keyring
  keyQueue : u.keyQueue = s.keyQueue
  lines : u.core.l1 = sweptLines (L1Line.inKey s.h.kctx space base size) op.keepsLines s.core.l1
  rights : ∀ k ∈ u.core.keys, ¬ (k.ctx = s.h.kctx ∧ k.space = space ∧ meetsRegion base size k.base (2 ^ k.size) = true ∧ k.agent = s.h.agent)
  unwritten : op.writesBack = false → u.mem = s.mem

theorem transferSweep_swept {s : State} (sound : ∀ l ∈ s.core.l1, l.dirty = true → l.bad = false) (op : Transfer) (space : BitVec 16) (base size : Nat) :
    TransferSwept op space base size s (s.transferSweep op space base size) := by
  obtain ⟨u, homes, same, swept⟩ := sweepL1_sound sound (L1Line.inKey s.h.kctx space base size) op.writesBack op.keepsLines
  have whole : s.transferSweep op space base size =
      (s.sweepL1 (L1Line.inKey s.h.kctx space base size) op.writesBack op.keepsLines).dropOwnRights s.h.kctx space base size s.h.agent := by
    cases op <;> rfl
  have kept : u.h = s.h ∧ u.keyring = s.keyring ∧ u.keyQueue = s.keyQueue := by
    obtain ⟨_, _, _, _, _, rfl⟩ := homes
    exact ⟨rfl, rfl, rfl⟩
  obtain ⟨hart, keyring, keyQueue⟩ := kept
  have unwritten (none : op.writesBack = false) : u.mem = s.mem := by rw [same none]
  rw [whole, swept]
  refine ⟨hart, keyring, keyQueue, rfl, fun k hk => ?_, unwritten⟩
  rintro ⟨ctx, space, meets, agent⟩
  have left := (List.mem_filter.1 hk).2
  simp [ctx, space, meets, agent] at left

/-! The end of a transfer. -/

/-- A transfer of the hart of s has ended in u with status 0 (R108): the row of Table 05-6 for its entry, no other entry changed, and the sweep. -/
abbrev TransferMade (op : Transfer) (xd : XReg) (space : BitVec 16) (base size : Nat) (e : KeyEntry) (s u : State) : Prop :=
  StatusResult xd 0 s u
    ∧ u.entryOf s.h.kctx space base size = (op.entryAfter s.h.agent e).map KeyEntry.atRest
    ∧ (∀ ctx' space' base' size', ¬ (ctx' = s.h.kctx ∧ space' = space ∧ base' = base ∧ size' = size) →
        u.entryOf ctx' space' base' size' = s.entryOf ctx' space' base' size')
    ∧ u.core.l1 = sweptLines (L1Line.inKey s.h.kctx space base size) op.keepsLines s.core.l1
    ∧ (∀ k ∈ u.core.keys, ¬ (k.ctx = s.h.kctx ∧ k.space = space ∧ meetsRegion base size k.base (2 ^ k.size) = true ∧ k.agent = s.h.agent))
    ∧ (op.writesBack = false → u.mem = s.mem)

theorem entryOf_congr {s t : State} (h : t.keyring = s.keyring) (ctx space : BitVec 16) (base size : Nat) :
    t.entryOf ctx space base size = s.entryOf ctx space base size := by
  rw [State.entryOf, State.entryOf, h]

theorem transferEnd_made {s : State} {space : BitVec 16} {base size : Nat} {e : KeyEntry} (entry : s.entryOf s.h.kctx space base size = some e)
    (quiet : s.keyQueue = []) (sound : ∀ l ∈ s.core.l1, l.dirty = true → l.bad = false) (op : Transfer) (xd : XReg) :
    completes (s.transferEnd op space base size xd) (TransferMade op xd space base size e s) := by
  obtain ⟨hart, keyring, keyQueue, lines, rights, unwritten⟩ := transferSweep_swept sound op space base size
  unfold State.transferEnd
  generalize s.transferSweep op space base size = v at *
  have ring (ctx sp : BitVec 16) (b n : Nat) : v.entryOf ctx sp b n = s.entryOf ctx sp b n := entryOf_congr keyring ctx sp b n
  have row := transferRow_replaces (isOf_of_entryOf entry) (keyQueue.trans quiet) s.h.agent op
  dsimp only
  rw [hart, ring, entry]
  dsimp only
  generalize v.transferRow s.h.agent op e = r at row
  obtain ⟨changed, others, rest⟩ := row
  have served : r.served = r := leaveQueue_quiet (by rw [rest]; exact keyQueue.trans quiet) _
  have same : r.h = s.h := by
    rw [rest]
    exact hart
  have awake : r.awake.h = s.awake.h := by simp only [State.awake, same]
  rw [served]
  obtain ⟨u, hu, status, left⟩ := wr_status awake xd 0
  have kept : u.keyring = r.keyring ∧ u.core = v.core ∧ u.mem = v.mem := by
    rw [left]
    exact ⟨rfl, by rw [rest]; rfl, by rw [rest]; rfl⟩
  obtain ⟨uring, ucore, umem⟩ := kept
  refine ⟨u, hu, status, ?_, fun ctx' space' base' size' other => ?_, ucore ▸ lines, ucore ▸ rights, fun none => umem.trans (unwritten none)⟩
  · rw [entryOf_congr uring, changed]
  · rw [entryOf_congr uring, others _ _ _ _ other, ring]

/-- KEY_TRANSFER_COMPLETE when nothing is waited for any more (R108). -/
theorem keyTransferComplete_made {s : State} {hart size : Nat} {sp : BitVec 16} {base : Word} {e : KeyEntry} (run : (s.focus hart).h.st = .running)
    (wait : (s.focus hart).h.wait = .key sp base size) (past : (s.focus hart).keyWaits sp base.toNat size = false)
    (entry : (s.focus hart).entryOf (s.focus hart).h.kctx sp base.toNat size = some e) (quiet : (s.focus hart).keyQueue = [])
    (sound : ∀ l ∈ (s.focus hart).core.l1, l.dirty = true → l.bad = false) {i : Instr} (word : (s.focus hart).word = some i) {op : Transfer} {xd : XReg}
    (transfer : transferOf (s.focus hart) i = some (op, xd)) :
    completes (exec (.keyTransferComplete hart) s) (TransferMade op xd sp base.toNat size e (s.focus hart)) := by
  have asked : ((s.focus hart).h.convoy.bind fun c => c.words[c.pos (s.focus hart).h.pc]?).bind (transferOf (s.focus hart)) = some (op, xd) :=
    (congrArg (·.bind (transferOf (s.focus hart))) word).trans transfer
  have ends : exec (.keyTransferComplete hart) s = (s.focus hart).transferEnd op sp base.toNat size xd := by
    show execKeyTransferComplete hart s = _
    simp only [execKeyTransferComplete, run, wait, asked, past, Bool.false_eq_true, if_false]
  rw [ends]
  exact transferEnd_made entry quiet sound op xd

end Sys2Proof.Machine

open Sys2Proof Sys2Proof.Machine

/-- Settles O52, wait by wait: a fence, `tlbinv` and `yield` retire, an `await` writes what its last pass has read, and a transfer makes its row and its sweep. -/
theorem waitsEndWithTheirResult : Obligations.WaitsEndWithTheirResult := by
  unfold Obligations.WaitsEndWithTheirResult
  intro s hart xd xa xb xc asr scope ord w off imm
  dsimp only
  refine ⟨fun sc vec cmds sys thenS thenV run wait past => ?_, fun before reach run wait past => ?_, fun lim waiting wait past => ?_,
    fun lim pl m rels e s1 s2 waiting wait word place read => ⟨fun changed => ?_, fun same => ?_, fun l limited past => ?_⟩,
    fun sp base size e run wait past entry quiet sound => ?_⟩
  · rw [fenceComplete_ends run wait past]
    simpa only [focus_cur] using fenceEnd_completes (s.focus hart) cmds thenS thenV
  · rw [tlbinvComplete_ends run wait past]
    exact awake_ok _
  · rw [yieldExpiry_ends waiting wait past]
    exact awake_ok _
  · rw [awaitWake_tries waiting word wait, awaitTry_read place read, if_pos (.inl changed)]
    exact awake_wr _ _ _
  · rw [awaitWake_tries waiting word wait, awaitTry_read place read, if_neg (by simpa using same)]
  · rw [awaitTimeout_tries waiting word (limited ▸ wait) past, awaitTry_read place read, if_pos (.inr rfl)]
    exact awake_wr _ _ _
  · have made (op : Transfer) {i : Instr} (transfer : transferOf (s.focus hart) i = some (op, xd)) (word : (s.focus hart).word = some i) :=
      keyTransferComplete_made run wait past entry quiet sound word transfer
    exact ⟨made (.lend _) rfl, made (.share _) rfl, made .ret rfl, made .drop rfl, made .unshare rfl⟩

end

section
/-! PROOFS. A store behind a load that is done and yet marked as one that waits for elements: the store goes back to the load instead of handing anything off. -/

namespace Sys2Proof.Tests
open Sys2Proof.Machine

/-- A load of two bytes of the local store and a store to the same bytes; the load's entry is DONE and still has the mark of a member that waits. -/
def markedLoad : Convoy :=
  { Convoy.empty 0x1000 with
    words := [.vld 9 0 5 0 1 1 0, .vst 1 0 5 0 1 1 0], done := 1, entries := [{ Entry.idle .done 0 with fill := true }] }
/-- A hart at that store, its two elements in v1. -/
def behindMarked : State := hart mini fun h => { h with pc := 0x1008, convoy := some markedLoad }

theorem behindMarked_calm : behindMarked.calm := by
  intro e he
  rw [List.mem_singleton.1 he]
  exact ⟨nofun, nofun⟩

/-- The probe passes and leaves the hart where it stands. -/
theorem behindMarked_probe : ∃ spots s1,
    behindMarked.awake.probe (behindMarked.h.space 1) ((tagWidth 1 + 7) / 8) .write true none
      ((behindMarked.activeList 0 (behindMarked.x 5).toNat).map fun j => (j, behindMarked.elemAddr .contig 0 1 Desc.released j)) = .ok (spots, s1)
    ∧ s1.h.pc = 0x1008 := by
  have passes : okAnd (behindMarked.awake.probe (behindMarked.h.space 1) ((tagWidth 1 + 7) / 8) .write true none
      ((behindMarked.activeList 0 (behindMarked.x 5).toNat).map fun j => (j, behindMarked.elemAddr .contig 0 1 Desc.released j)))
      (fun a => decide (a.2.h.pc = 0x1008)) = true := by decide +kernel
  obtain ⟨⟨spots, s1⟩, probe, pc⟩ := ok_of passes
  exact ⟨spots, s1, probe, of_decide_eq_true pc⟩

/-- The store meets the load's bytes, and the hart returns to the load (R193). -/
theorem behindMarked_returns :
    (match exec (.vst 1 0 5 0 1 1 0) behindMarked with | .next u => decide (u.h.pc = 0x1000) | _ => false) = true := by decide +kernel

end Sys2Proof.Tests

open Sys2Proof Sys2Proof.Machine Sys2Proof.Tests

/-- Refutes O30: the statement asks of the convoy that no member has stopped or been abandoned, and not that none is marked as one that waits for elements.
Behind a load that is DONE with that mark, and whose bytes it meets, a store does not retire: the hart goes back to the load (`behindMarked_returns`). The
model sets the mark only where it stops a member (`stopAs`), and the statement does not say so. -/
theorem not_vectorStoresHandOffTheirElements : ¬ Obligations.VectorStoresHandOffTheirElements := by
  unfold Obligations.VectorStoresHandOffTheirElements
  intro stores
  obtain ⟨spots, s1, probe, pc⟩ := behindMarked_probe
  obtain ⟨u, next, -, -, -, retired, -⟩ := stores behindMarked s1 1 0 0 0 5 0 1 0 1 0 (.vst 1 0 5 0 1 1 0) .contig 0 false spots
    (.inl ⟨rfl, rfl, by decide +kernel, rfl⟩) (by decide) behindMarked_calm (by decide +kernel) (by unfold State.unclaimed; decide +kernel) probe
  have back := behindMarked_returns
  rw [next] at back
  have stays : (0x1000 : Word) = 0x1008 + 8 := (of_decide_eq_true back).symm.trans (retired.pc.trans (by rw [pc]))
  exact absurd stays (by decide)

end

section
/-! PROOFS. Key instructions (R102 to R120): the region that one names, and the answer of a controller of this node. -/

namespace Sys2Proof.Machine

/-! What the parts of a key instruction change. -/

/-- t is s but for the translations that the core and its cluster hold, and for what harts have read ahead in a page newly translated. -/
def SameButLookups (s t : State) : Prop :=
  ∃ tlb early walkers, t = { s with core := { s.core with tlb := tlb }, early := early, walkers := walkers }

theorem translate_lookups {s t : State} {a : Acc} {space : BitVec 16} {off : Nat} {e : TlbEntry} (h : s.translate a space off = .ok (e, t)) :
    SameButLookups s t := by
  have unchanged {e' : TlbEntry} (h : (.ok (e', s) : Except (BitVec 8) (TlbEntry × State)) = .ok (e, t)) : SameButLookups s t := by
    cases h
    exact ⟨_, _, _, rfl⟩
  unfold State.translate at h
  dsimp only at h
  generalize (if Config.cacheForgets (4 * s.tick) then _ else _ : Except (BitVec 8) (TlbEntry × List WalkEntry)) = walked at h
  have filled {fill : TlbEntry × List WalkEntry → TlbEntry × State} (each : ∀ r, SameButLookups s (fill r).2) (h : walked.map fill = .ok (e, t)) :
      SameButLookups s t := by
    cases walked with
    | error c => exact nomatch h
    | ok r =>
      have same : fill r = (e, t) := Except.ok.inj h
      have looked := each r
      rwa [same] at looked
  split at h
  · split at h
    · exact unchanged h
    · split at h
      · exact filled (fun _ => ⟨_, _, _, rfl⟩) h
      · exact unchanged h
  · exact filled (fun _ => ⟨_, _, _, rfl⟩) h

theorem homeDie_lookups {s t : State} {space : BitVec 16} {off : Nat} {die : Option Nat} {free : Bool} (h : s.homeDie space off = .ok (die, free, t)) :
    SameButLookups s t := by
  unfold State.homeDie at h
  split at h
  · split at h
    · cases h
      exact ⟨_, _, _, rfl⟩
    · exact nomatch h
  · split at h
    · exact nomatch h
    · next found =>
      have looked := translate_lookups found
      split at h
      · split at h
        · exact nomatch h
        · cases h
          exact looked
      · split at h
        · cases h
          exact looked
        · exact nomatch h

theorem region_lookups {s t : State} {xa xb : XReg} {asr : BitVec 2} {imm : BitVec 20} {r : Region} (h : s.region xa xb asr imm = .ok (r, t)) :
    SameButLookups s t := by
  unfold State.region at h
  dsimp only at h
  split at h
  · exact nomatch h
  · split at h
    · exact nomatch h
    · split at h
      · exact nomatch h
      · split at h
        · exact nomatch h
        · next found =>
          split at h
          · exact nomatch h
          · cases h
            exact homeDie_lookups found

theorem upperDie_lookups {s t : State} {r : Region} {up : Option Nat} (h : s.upperDie r = .ok (up, t)) : SameButLookups s t := by
  unfold State.upperDie at h
  dsimp only at h
  split at h
  · exact nomatch h
  · next found =>
    cases h
    exact homeDie_lookups found

/-- t is s but for the keyring, what is held in caches of the device, and what harts have read ahead. -/
def SameButKeys (s t : State) : Prop :=
  ∃ ring early core cores walkers, t = { s with keyring := ring, early := early, core := core, cores := cores, walkers := walkers }

theorem SameButKeys.refl (s : State) : SameButKeys s s := ⟨_, _, _, _, _, rfl⟩

theorem SameButKeys.trans {s t u : State} : SameButKeys s t → SameButKeys t u → SameButKeys s u := by
  rintro ⟨_, _, _, _, _, rfl⟩ ⟨_, _, _, _, _, rfl⟩
  exact ⟨_, _, _, _, _, rfl⟩

theorem SameButLookups.keys {s t : State} : SameButLookups s t → SameButKeys s t := by
  rintro ⟨_, _, _, rfl⟩
  exact ⟨_, _, _, _, _, rfl⟩

/-- The hart, the ring and what waits at the controllers stand. -/
theorem SameButLookups.kept {s t : State} (h : SameButLookups s t) :
    t.h = s.h ∧ t.keyring = s.keyring ∧ t.requestHeld (t.waiter r) t.h.kctx r = s.requestHeld (s.waiter r) s.h.kctx r := by
  obtain ⟨_, _, _, rfl⟩ := h
  exact ⟨rfl, rfl, rfl⟩

theorem putEntry_keys (s : State) (e : KeyEntry) : SameButKeys s (s.putEntry e) := ⟨_, _, _, _, _, rfl⟩
theorem delEntry_keys (s : State) (e : KeyEntry) : SameButKeys s (s.delEntry e) := ⟨_, _, _, _, _, rfl⟩
theorem dropAgent_keys (s : State) (a : Asker) : SameButKeys s (s.dropAgent a) := ⟨_, _, _, _, _, rfl⟩
theorem purgeRegion_keys (s : State) (ctx space : BitVec 16) (base size : Nat) : SameButKeys s (s.purgeRegion ctx space base size) := ⟨_, _, _, _, _, rfl⟩

/-! The request reaches the controller. -/

theorem keyed_region {s s1 : State} {xa xb : XReg} {asr : BitVec 2} {imm : BitVec 20} {r : Region} (named : s.region xa xb asr imm = .ok (r, s1))
    (go : Region → State → Out) : s.keyed xa xb asr imm go = go r s1 := by
  rw [State.keyed, named]

theorem request_here {s : State} {r : Region} {d : Nat} (here : r.die = some d) (op : KeyOp) (xd : XReg) (remote : Out) :
    s.request op r xd remote = s.answer r xd (s.judge s.h.asker op r d) := by
  rw [State.request, here]

/-- No request of the current hart waits at a controller. -/
def State.asksNothing (s : State) : Prop := ∀ w ∈ s.keyQueue, w.ofHart s.cur = false

theorem served_asksNothing {s : State} (idle : s.asksNothing) : s.served = s := by
  have none : s.keyQueue.any (·.ofHart s.cur) = false := List.any_eq_false.2 fun w hw => by simp [idle w hw]
  rw [State.served, State.leaveQueue, none]
  rfl

/-- A key instruction of the hart of s has ended with status n, the keyring and what is read ahead as in u. -/
structure KeyAnswered (xd : XReg) (n : Nat) (s u t : State) : Prop where
  status : StatusResult xd n s t
  mem : t.mem = s.mem
  pend : t.pend = s.pend
  keyring : t.keyring = u.keyring
  early : t.early = u.early

theorem status_answers {s u : State} (same : SameButKeys s u) (idle : s.asksNothing) (xd : XReg) (n : Nat) :
    completes (u.served.status xd n) (KeyAnswered xd n s u) := by
  have kept : u.asksNothing ∧ u.awake.h = s.awake.h ∧ u.mem = s.mem ∧ u.pend = s.pend := by
    obtain ⟨_, _, _, _, _, rfl⟩ := same
    exact ⟨idle, rfl, rfl, rfl⟩
  obtain ⟨idle, hart, mem, pend⟩ := kept
  rw [served_asksNothing idle]
  obtain ⟨t, ht, status, rest⟩ := wr_status hart xd n
  exact ⟨t, ht, status, (congrArg State.mem rest).trans mem, (congrArg State.pend rest).trans pend, (congrArg State.keyring rest).trans rfl,
    (congrArg State.early rest).trans rfl⟩

/-- What follows from the keyring and what is read ahead holds once the instruction has ended. -/
theorem answered_row {xd : XReg} {n : Nat} {s u : State} {o : Out} {P : State → Prop} (ends : completes o (KeyAnswered xd n s u))
    (leaves : ∀ t, t.keyring = u.keyring → t.early = u.early → P t) :
    completes o fun t => StatusResult xd n s t ∧ t.mem = s.mem ∧ t.pend = s.pend ∧ P t := by
  obtain ⟨t, ht, status, mem, pend, keyring, early⟩ := ends
  exact ⟨t, ht, status, mem, pend, leaves t keyring early⟩

/-! The controller's answers, in w, the state in which the request is judged. -/

section
variable {s w u : State} {xd : XReg} {n : Nat} {r : Region} (idle : s.asksNothing)
include idle

theorem answer_status : completes (s.answer r xd (.status n)) (KeyAnswered xd n s s) := status_answers (.refl s) idle xd n

theorem answer_again (same : SameButKeys s u) : completes (w.answer r xd (.again u)) (KeyAnswered xd 0 s u) := status_answers same idle xd 0

theorem answer_change (same : SameButKeys s u) (free : w.requestHeld (w.waiter r) w.h.kctx r = false) :
    completes (w.answer r xd (.change n u)) (KeyAnswered xd n s u) := by
  rw [State.answer, free]
  exact status_answers same idle xd n

end

/-- A change that its region's transit or an earlier request holds back waits in the queue (R111). -/
theorem answer_held {s u : State} {r : Region} (idle : s.asksNothing) (held : s.requestHeld (s.waiter r) s.h.kctx r = true) (xd : XReg) (n : Nat) :
    s.answer r xd (.change n u) = .next { s with keyQueue := s.keyQueue ++ [s.waiter r], h := { s.h with wait := .retry false } } := by
  have none : s.keyQueue.any (·.ofHart s.cur) = false := List.any_eq_false.2 fun w hw => by simp [idle w hw]
  rw [State.answer, if_pos held, State.queued, none]
  rfl

/-! The rows of Table 05-6 by what the controller finds. -/

section
variable {s : State} {a : Asker} {r : Region} {d : Nat}

theorem judge_acq_free (free : s.overlapping a.ctx r.space r.base r.size = []) (nowhere : s.elsewhere r = 0) (room : s.ringUsed d < 32768) :
    s.judge a .acq r d = .change 0 ((s.putEntry (KeyEntry.new a r d)).dropAgent a) := by
  simp only [State.judge, free, nowhere, ne_eq, not_true, if_false, Nat.not_le.2 room]

theorem judge_acq_noRoom (free : s.overlapping a.ctx r.space r.base r.size = []) (nowhere : s.elsewhere r = 0) (full : 32768 ≤ s.ringUsed d) :
    s.judge a .acq r d = .status 3 := by
  simp only [State.judge, free, nowhere, ne_eq, not_true, if_false, if_pos full]

theorem judge_acq_elsewhere (free : s.overlapping a.ctx r.space r.base r.size = []) (there : s.elsewhere r ≠ 0) :
    s.judge a .acq r d = .status (s.elsewhere r) := by
  simp only [State.judge, free, ne_eq, if_pos there]

variable {e : KeyEntry} (met : s.overlapping a.ctx r.space r.base r.size = [e])
include met

theorem judge_acq_orphaned (orphaned : e.state = .orphaned) : s.judge a .acq r d = .status 5 := by
  simp [State.judge, met, orphaned]

theorem judge_acq_others (owned : e.state = .owned) (other : e.owner ≠ a.agent) (nowhere : s.elsewhere r ≠ 5) : s.judge a .acq r d = .status 1 := by
  simp [State.judge, met, owned, other, nowhere]

variable (base : e.base = r.base) (size : e.size = r.size)
include base size

theorem judge_acq_own (owned : e.state = .owned) (owner : e.owner = a.agent) : s.judge a .acq r d = .again (s.dropAgent a) := by
  simp [State.judge, met, base, size, owned, owner]

theorem judge_acq_home (home : e.state = .home) :
    s.judge a .acq r d = .change 4 ((s.putEntry { e with state := .owned, owner := a.agent, lender := noAgent }).dropAgent a) := by
  simp [State.judge, met, base, size, home]

end

section
variable {s : State} {a : Asker} {r : Region} {d : Nat} {e : KeyEntry} (entry : s.entryOf a.ctx r.space r.base r.size = some e)
include entry

theorem judge_clean_owned (owned : e.state = .owned) (owner : e.owner = a.agent) :
    s.judge a .clean r d = .change 0 (s.putEntry { e with poison := false }) := by
  simp [State.judge, entry, owned, owner]

theorem judge_clean_home (home : e.state = .home) (sup : a.sup = true) : s.judge a .clean r d = .change 0 (s.delEntry e) := by
  simp [State.judge, entry, home, sup]

theorem judge_recover_to {c : BitVec 32} (orphaned : e.state = .orphaned) (sup : a.sup = true) (named : c ≠ noAgent) (live : s.liveAgent a.ctx none c = true) :
    s.judge a (.recover c) r d =
      .change 0 ((s.purgeRegion a.ctx r.space r.base r.size).putEntry { e with state := .owned, owner := c, lender := noAgent }) := by
  simp only [State.judge, entry, orphaned, sup, named, live, Bool.not_true, Bool.false_eq_true, ne_eq, not_true, or_self, if_false]

theorem judge_recover_home (orphaned : e.state = .orphaned) (sup : a.sup = true) :
    s.judge a (.recover noAgent) r d = .change 0 (if e.poison
      then (s.purgeRegion a.ctx r.space r.base r.size).putEntry { e with state := .home, owner := noAgent, lender := noAgent }
      else (s.purgeRegion a.ctx r.space r.base r.size).delEntry e) := by
  simp [State.judge, entry, orphaned, sup]

theorem judgeSplit_owned (wide : 16 < r.size) (owned : e.state = .owned) (owner : e.owner = a.agent) {d2 : Nat} (room : s.ringUsed d2 < 32768) :
    s.judgeSplit a r (some d2) = .change 0 (((s.delEntry e).putEntry { e with size := r.size - 1 }).putEntry
      { e with base := r.base + 2 ^ (r.size - 1), size := r.size - 1, die := d2 }) := by
  simp [State.judgeSplit, entry, owned, owner, KeyEntry.ownedBy, Nat.ne_of_gt wide, Nat.not_le.2 room]

end

theorem judgeMerge_owned {s : State} {a : Asker} {r : Region} {l h : KeyEntry} (lower : s.entryOf a.ctx r.space r.base (r.size - 1) = some l)
    (upper : s.entryOf a.ctx r.space (r.base + 2 ^ (r.size - 1)) (r.size - 1) = some h) (lOwned : l.state = .owned) (hOwned : h.state = .owned)
    (lOwner : l.owner = a.agent) (hOwner : h.owner = a.agent) (lender : l.lender = h.lender) (d2 : Nat) :
    s.judgeMerge a r (some d2) = .change 0 (((s.delEntry l).delEntry h).putEntry { l with size := r.size, poison := l.poison || h.poison }) := by
  simp [State.judgeMerge, lower, upper, lOwned, hOwned, lOwner, hOwner, lender]

end Sys2Proof.Machine
end

section
/-! PROOFS. `kquery` (Table 05-12): the word that it answers. -/

namespace Sys2Proof.Machine

/-- A field of a word read off its number. -/
theorem field_ofNat {x : Nat} (small : x < 2 ^ 64) (lo n : Nat) : ((BitVec.ofNat 64 x).extractLsb' lo n).toNat = x / 2 ^ lo % 2 ^ n := by
  rw [BitVec.extractLsb'_toNat, BitVec.toNat_ofNat, Nat.mod_eq_of_lt small, Nat.shiftRight_eq_div_pow]

theorem code_lt (k : KeyState) : k.code < 4 := by cases k <;> decide

theorem right_lt (e : KeyEntry) (me : BitVec 32) : e.right me < 3 := by
  unfold KeyEntry.right
  repeat' split
  all_goals decide

/-- The word of an entry, field by field. -/
theorem queryWord_fields {e : KeyEntry} (size : e.size < 64) (shares : e.shares.length < 64) (me : BitVec 32) :
    let w := queryWord (some e) me
    w.extractLsb' 32 32 = e.owner ∧ (w.extractLsb' 26 6).toNat = e.size ∧ (w.extractLsb' 20 6).toNat = e.shares.length ∧ w.getLsbD 19 = e.poison
      ∧ (w.extractLsb' 17 2).toNat = e.state.code ∧ (w.extractLsb' 15 2).toNat = e.right me ∧ w.extractLsb' 0 15 = 0 := by
  have owner := e.owner.isLt
  have code := code_lt e.state
  have right := right_lt e me
  have poison := Bool.toNat_le e.poison
  have small : e.owner.toNat * 2 ^ 32 + e.size * 2 ^ 26 + e.shares.length * 2 ^ 20 + e.poison.toNat * 2 ^ 19
      + e.state.code * 2 ^ 17 + e.right me * 2 ^ 15 < 2 ^ 64 := by omega
  dsimp only [queryWord]
  refine ⟨BitVec.eq_of_toNat_eq ((field_ofNat small 32 32).trans ?owner), (field_ofNat small 26 6).trans ?size, (field_ofNat small 20 6).trans ?shares, ?poison,
    (field_ofNat small 17 2).trans ?code, (field_ofNat small 15 2).trans ?right, BitVec.eq_of_toNat_eq ((field_ofNat small 0 15).trans (?low : _ = 0))⟩
  case poison =>
    rw [BitVec.getLsbD_ofNat, Nat.testBit_eq_decide_div_mod_eq]
    cases e.poison <;> simp <;> omega
  all_goals omega

/-- The caller's right (Table 05-2). -/
theorem right_cases (e : KeyEntry) (me : BitVec 32) :
    (e.state = .owned → e.owner = me → e.right me = 2) ∧ (e.state = .shared → e.owner = me ∨ me ∈ e.shares → e.right me = 1)
      ∧ (¬ (e.state = .owned ∧ e.owner = me) → ¬ (e.state = .shared ∧ (e.owner = me ∨ me ∈ e.shares)) → e.right me = 0) := by
  unfold KeyEntry.right
  cases e.state <;> simp +contextual

/-- The word that stands for no entry: OWNER all ones, all else 0. -/
theorem queryWord_none (me : BitVec 32) : queryWord none me = 0xFFFF_FFFF_0000_0000 :=
  show BitVec.ofNat 64 (0xFFFF_FFFF * 2 ^ 32) = _ by decide

/-- A field that a mask leaves out of a free word is that of the number put there. -/
theorem maskedField (free m v : Word) {lo n : Nat} (out : (~~~m).extractLsb' lo n = 0#n) :
    ((free &&& ~~~m) ||| v).extractLsb' lo n = v.extractLsb' lo n := by
  rw [BitVec.extractLsb'_or, BitVec.extractLsb'_and, out, BitVec.and_zero, BitVec.zero_or]

section
variable {s : State} {a : Acc} {space : BitVec 16} {off : Nat}

theorem foreignWord_none (here : Bool) (none : s.foreignEntry a space off = none) (there : here = true) :
    s.foreignWord a space off here = 0xFFFF_FFFF_0000_0000 := by
  simp only [State.foreignWord, there, if_true, none, queryWord_none]

/-- The size of the entry and the agent's right, as far as they are known here. -/
theorem foreignWord_some {b size r : Nat} {nd : BitVec 16} (entry : s.foreignEntry a space off = some (b, size, r, nd)) (hs : size < 64) (hr : r < 4) :
    ((s.foreignWord a space off true).extractLsb' 26 6).toNat = size ∧ ((s.foreignWord a space off true).extractLsb' 15 2).toNat = r := by
  simp only [State.foreignWord, entry, if_true]
  rw [maskedField _ _ _ (by decide), maskedField _ _ _ (by decide), field_ofNat (by omega), field_ofNat (by omega)]
  omega

/-- Bits that the table leaves reserved read 0. -/
theorem foreignWord_low (here : Bool) : (s.foreignWord a space off here).extractLsb' 0 15 = 0 := by
  cases here with
  | false =>
    show ((Config.freeWord (2 * s.tick + 1) &&& ~~~0x7FFF#64).extractLsb' 0 15) = 0
    rw [BitVec.extractLsb'_and, show (~~~0x7FFF#64).extractLsb' 0 15 = 0#15 by decide, BitVec.and_zero]
    rfl
  | true =>
    cases entry : s.foreignEntry a space off with
    | none => rw [foreignWord_none true entry rfl]; decide
    | some known =>
      obtain ⟨b, size, r, nd⟩ := known
      simp only [State.foreignWord, entry, if_true]
      rw [maskedField _ _ _ (by decide)]
      apply BitVec.eq_of_toNat_eq
      rw [BitVec.extractLsb'_toNat, BitVec.toNat_ofNat, show (0 : BitVec 15).toNat = 0 from rfl]
      omega

/-- An offset that no entry covers does not translate exactly where its region's home is not reached (R113). -/
theorem keyCause_lost (uncovered : s.entryAt a.ctx space off = none) :
    s.keyCause a space off = 0x08 ↔ ∃ b size r nd, s.foreignEntry a space off = some (b, size, r, nd) ∧ nd ∈ s.unreachable := by
  unfold State.keyCause
  cases entry : s.foreignEntry a space off with
  | none => simp [uncovered]
  | some known =>
    obtain ⟨b, size, r, nd⟩ := known
    by_cases lost : nd ∈ s.unreachable <;> simp [uncovered, lost]

end

/-! The instruction. -/

section
variable {s s1 : State} {asr : BitVec 2} {die : Option Nat} {free : Bool} (xd : XReg) {xa : XReg} {imm : BitVec 20} (mode : s.h.mode ≠ .d)
  (memory : (s.h.space asr).toNat < 0xFF00) (home : s.homeDie (s.h.space asr) (offset (s.x xa) imm) = .ok (die, free, s1))
include mode memory home

theorem kquery_covered {e : KeyEntry} (entry : s1.entryAt s1.h.kctx (s.h.space asr) (offset (s.x xa) imm) = some e) :
    exec (.kquery xd xa asr imm) s = s1.wr xd (queryWord (some e) s1.h.agent) := by
  show execKquery xd xa asr imm s = _
  simp only [execKquery, mode, Nat.not_le.2 memory, home, entry, if_false]

variable (uncovered : s1.entryAt s1.h.kctx (s.h.space asr) (offset (s.x xa) imm) = none)
include uncovered

theorem kquery_uncovered (reached : ¬ ∃ b size r nd, s1.foreignEntry s1.h.acc (s.h.space asr) (offset (s.x xa) imm) = some (b, size, r, nd) ∧ nd ∈ s1.unreachable) :
    exec (.kquery xd xa asr imm) s = s1.wr xd (s1.foreignWord s1.h.acc (s.h.space asr) (offset (s.x xa) imm) die.isSome) := by
  have known : ¬ s1.keyCause s1.h.acc (s.h.space asr) (offset (s.x xa) imm) = 0x08 := fun h => reached ((keyCause_lost uncovered).1 h)
  show execKquery xd xa asr imm s = _
  simp only [execKquery, mode, Nat.not_le.2 memory, home, uncovered, known, if_false]

theorem kquery_lost (lost : ∃ b size r nd, s1.foreignEntry s1.h.acc (s.h.space asr) (offset (s.x xa) imm) = some (b, size, r, nd) ∧ nd ∈ s1.unreachable) :
    exec (.kquery xd xa asr imm) s = s1.trap 0x08 (BitVec.ofNat 64 (offset (s.x xa) imm)) := by
  have refused := (keyCause_lost (a := s1.h.acc) uncovered).2 lost
  show execKquery xd xa asr imm s = _
  simp only [execKquery, mode, Nat.not_le.2 memory, home, uncovered, refused, if_false, if_true]

end

/-- A word that only answers v leaves keys, memory and what is handed off as they were. -/
theorem query_answers (s : State) (xd : XReg) (v : Word) {Q : State → Prop} (answers : ∀ t : State, (xd ≠ 0 → t.x xd = v) → Q t) :
    completes (s.wr xd v) fun t => t.keyring = s.keyring ∧ t.mem = s.mem ∧ t.pend = s.pend ∧ Retired s t ∧ OtherX xd s t ∧ Q t := by
  obtain ⟨t, ht, value, others, retired, rest⟩ := wr_computes s xd v
  have kept : t.keyring = s.keyring ∧ t.mem = s.mem ∧ t.pend = s.pend := by
    rw [rest]
    exact ⟨rfl, rfl, rfl⟩
  obtain ⟨keyring, mem, pend⟩ := kept
  exact ⟨t, ht, keyring, mem, pend, retired, others, answers t fun written => value.trans (if_neg written)⟩

end Sys2Proof.Machine
end

section
/-! PROOFS. The rows of Table 05-6 that end at once. -/

namespace Sys2Proof.Machine

section
variable {s s1 : State} {xa xb : XReg} {asr : BitVec 2} {imm : BitVec 20} {r : Region} {d : Nat} (xd : XReg)
  (named : s.region xa xb asr imm = .ok (r, s1)) (here : r.die = some d)
include named here

theorem kacq_answers : exec (.kacq xd xa xb asr imm) s = s1.answer r xd (s1.judge s1.h.asker .acq r d) :=
  (keyed_region named _).trans (request_here here _ _ _)

theorem kclean_answers : exec (.kclean xd xa xb asr imm) s = s1.answer r xd (s1.judge s1.h.asker .clean r d) :=
  (keyed_region named _).trans (request_here here _ _ _)

theorem krecover_answers (xc : XReg) (mode : s.h.mode = .s) :
    exec (.krecover xd xa xb xc asr imm) s = s1.answer r xd (s1.judge s1.h.asker (.recover ((s1.x xc).extractLsb' 0 32)) r d) :=
  (if_neg (not_not_intro mode)).trans ((keyed_region named _).trans (request_here here _ _ _))

variable {s2 : State} {up : Option Nat} (upper : s1.upperDie r = .ok (up, s2))
include upper

theorem ksplit_answers : exec (.ksplit xd xa xb asr imm) s = s2.answer r xd (s2.judgeSplit s2.h.asker r up) := by
  refine (keyed_region named _).trans ?_
  simp only [upper, here]

theorem kmerge_answers : exec (.kmerge xd xa xb asr imm) s = s2.answer r xd (s2.judgeMerge s2.h.asker r up) := by
  refine (keyed_region named _).trans ?_
  simp only [upper, here]

end

/-- The region's own entry, where it is the one that the region meets. -/
theorem isOf_of_overlapping {s : State} {ctx space : BitVec 16} {base size : Nat} {e : KeyEntry} (met : s.overlapping ctx space base size = [e])
    (hbase : e.base = base) (hsize : e.size = size) : e.isOf ctx space base size := by
  have found : e ∈ s.overlapping ctx space base size := met ▸ List.mem_singleton.2 rfl
  have named := (List.mem_filter.1 found).2
  simp only [Bool.and_eq_true, beq_iff_eq] at named
  obtain ⟨⟨hctx, hspace⟩, -⟩ := named
  exact ⟨hctx, hspace, hbase, hsize⟩

/-- What an acquire has the agent's harts read again (R109). -/
theorem dropAgent_early {s : State} {a : Asker} {k : Nat} (hk : k ∈ s.slotsOfAgent a.ctx a.agent) {x : Early} (hx : x ∈ (s.dropAgent a).early) : x.hart ≠ k := by
  rintro rfl
  have left := (List.mem_filter.1 hx).2
  simp [hk] at left

theorem entryOf_put {s t : State} {e : KeyEntry} {ctx space : BitVec 16} {base size : Nat} (h : e.isOf ctx space base size)
    (ring : t.keyring = (s.putEntry e).keyring) : t.entryOf ctx space base size = some e :=
  (entryOf_congr ring _ _ _ _).trans (putEntry_replaces s h).entry

theorem entryOf_deleted {s t : State} {e : KeyEntry} {ctx space : BitVec 16} {base size : Nat} (h : e.isOf ctx space base size)
    (ring : t.keyring = (s.delEntry e).keyring) : t.entryOf ctx space base size = none :=
  (entryOf_congr ring _ _ _ _).trans (delEntry_replaces s h).entry

section
variable {s t : State} {ctx space : BitVec 16} {base size die : Nat}

/-- An entry cut in two halves (`ksplit`). -/
theorem entryOf_split {e : KeyEntry} (h : e.isOf ctx space base size) (wide : 16 < size)
    (ring : t.keyring = (((s.delEntry e).putEntry { e with size := size - 1 }).putEntry
      { e with base := base + 2 ^ (size - 1), size := size - 1, die := die }).keyring) :
    t.entryOf ctx space base (size - 1) = some { e with size := size - 1 }
      ∧ t.entryOf ctx space (base + 2 ^ (size - 1)) (size - 1) = some { e with base := base + 2 ^ (size - 1), size := size - 1, die := die }
      ∧ t.entryOf ctx space base size = none := by
  have half : 0 < 2 ^ (size - 1) := Nat.two_pow_pos _
  have whole := delEntry_replaces s h
  obtain ⟨hctx, hspace, hbase, -⟩ := h
  have lower := putEntry_replaces (s.delEntry e) (e := { e with size := size - 1 }) ⟨hctx, hspace, hbase, rfl⟩
  have upper := putEntry_replaces ((s.delEntry e).putEntry { e with size := size - 1 })
    (e := { e with base := base + 2 ^ (size - 1), size := size - 1, die := die }) ⟨hctx, hspace, rfl, rfl⟩
  refine ⟨?_, (entryOf_congr ring _ _ _ _).trans upper.entry, ?_⟩
  · rw [entryOf_congr ring, upper.others _ _ _ _ (by dsimp only; omega), lower.entry]
  · rw [entryOf_congr ring, upper.others _ _ _ _ (by dsimp only; omega), lower.others _ _ _ _ (by dsimp only; omega), whole.entry]

/-- Two halves joined (`kmerge`). -/
theorem entryOf_merged {l h : KeyEntry} {poison : Bool} (hl : l.isOf ctx space base (size - 1)) (hh : h.isOf ctx space (base + 2 ^ (size - 1)) (size - 1))
    (_positive : 0 < size) (ring : t.keyring = (((s.delEntry l).delEntry h).putEntry { l with size := size, poison := poison }).keyring) :
    t.entryOf ctx space base size = some { l with size := size, poison := poison }
      ∧ t.entryOf ctx space (base + 2 ^ (size - 1)) (size - 1) = none := by
  have half : 0 < 2 ^ (size - 1) := Nat.two_pow_pos _
  have upper := delEntry_replaces (s.delEntry l) hh
  obtain ⟨hctx, hspace, hbase, -⟩ := hl
  have joined := putEntry_replaces ((s.delEntry l).delEntry h) (e := { l with size := size, poison := poison }) ⟨hctx, hspace, hbase, rfl⟩
  refine ⟨(entryOf_congr ring _ _ _ _).trans joined.entry, ?_⟩
  rw [entryOf_congr ring, joined.others _ _ _ _ (by dsimp only; omega), upper.entry]

end

section
variable {s s1 s2 : State} {xa xb : XReg} {asr : BitVec 2} {imm : BitVec 20} {r : Region} {d d2 : Nat} (xd : XReg)
  (named : s.region xa xb asr imm = .ok (r, s1)) (here : r.die = some d) (idle : s1.asksNothing)
  (clear : s1.requestHeld (s1.waiter r) s1.h.kctx r = false) (upper : s1.upperDie r = .ok (some d2, s2)) (wide : 16 < r.size)
include named here idle clear upper wide

theorem ksplit_row {e : KeyEntry} (entry : s1.entryOf s1.h.kctx r.space r.base r.size = some e) (owned : e.state = .owned) (owner : e.owner = s1.h.agent)
    (room : s1.ringUsed d2 < 32768) : completes (exec (.ksplit xd xa xb asr imm) s) fun t =>
      StatusResult xd 0 s1 t ∧ t.mem = s1.mem ∧ t.pend = s1.pend ∧ t.entryOf s1.h.kctx r.space r.base (r.size - 1) = some { e with size := r.size - 1 }
        ∧ t.entryOf s1.h.kctx r.space (r.base + 2 ^ (r.size - 1)) (r.size - 1)
          = some { e with base := r.base + 2 ^ (r.size - 1), size := r.size - 1, die := d2 }
        ∧ t.entryOf s1.h.kctx r.space r.base r.size = none := by
  have looked := upperDie_lookups upper
  obtain ⟨hart, ring, held⟩ := looked.kept (r := r)
  have entry2 : s2.entryOf s2.h.asker.ctx r.space r.base r.size = some e := by rw [hart, entryOf_congr ring]; exact entry
  have room2 : s2.ringUsed d2 < 32768 := by rw [State.ringUsed, ring]; exact room
  rw [ksplit_answers xd named here upper, judgeSplit_owned entry2 wide owned (hart ▸ owner) room2]
  refine answered_row (answer_change idle (.trans looked.keys ?_) (held.trans clear)) fun t left _ => entryOf_split (isOf_of_entryOf entry) wide left
  exact ((delEntry_keys _ _).trans (putEntry_keys _ _)).trans (putEntry_keys _ _)

theorem kmerge_row {l h : KeyEntry} (lower : s1.entryOf s1.h.kctx r.space r.base (r.size - 1) = some l)
    (high : s1.entryOf s1.h.kctx r.space (r.base + 2 ^ (r.size - 1)) (r.size - 1) = some h) (lOwned : l.state = .owned) (hOwned : h.state = .owned)
    (lOwner : l.owner = s1.h.agent) (hOwner : h.owner = s1.h.agent) (lender : l.lender = h.lender) : completes (exec (.kmerge xd xa xb asr imm) s) fun t =>
      StatusResult xd 0 s1 t ∧ t.mem = s1.mem ∧ t.pend = s1.pend
        ∧ t.entryOf s1.h.kctx r.space r.base r.size = some { l with size := r.size, poison := l.poison || h.poison }
        ∧ t.entryOf s1.h.kctx r.space (r.base + 2 ^ (r.size - 1)) (r.size - 1) = none := by
  have looked := upperDie_lookups upper
  obtain ⟨hart, ring, held⟩ := looked.kept (r := r)
  have half (b n : Nat) : s2.entryOf s2.h.asker.ctx r.space b n = s1.entryOf s1.h.kctx r.space b n := by rw [hart, entryOf_congr ring]; rfl
  rw [kmerge_answers xd named here upper,
    judgeMerge_owned ((half _ _).trans lower) ((half _ _).trans high) lOwned hOwned (hart ▸ lOwner) (hart ▸ hOwner) lender]
  refine answered_row (answer_change idle (.trans looked.keys ?_) (held.trans clear)) fun t left _ =>
    entryOf_merged (isOf_of_entryOf lower) (isOf_of_entryOf high) (by omega) left
  exact ((delEntry_keys _ _).trans (delEntry_keys _ _)).trans (putEntry_keys _ _)

end

end Sys2Proof.Machine

open Sys2Proof Sys2Proof.Machine

/-- Settles O36, row by row: what the controller finds decides the verdict (`judge_acq_free` to `judgeMerge_owned`), and a verdict that ends at once leaves the
ring that it names (`status_answers`); `kquery` by the fields of the word that it answers (`queryWord_fields`, `foreignWord_some`). -/
theorem keyringRows : Obligations.KeyringRows := by
  unfold Obligations.KeyringRows
  refine ⟨fun s s1 xd xa xb xc asr imm r d => ?_, fun s s1 xd xa asr imm die free => ?_⟩
  · dsimp only
    intro named here idle
    have hart : s1.h = s.h := by
      obtain ⟨_, _, _, rfl⟩ := region_lookups named
      rfl
    refine ⟨fun e met other owned nowhere => ?_, fun e met orphaned => ?_, fun e met base size owned owner => ?_, fun free there => ?_,
      fun free nowhere full => ?_, fun held free nowhere room => ?_, fun clear => ⟨fun free nowhere room => ?_, fun e met base size home => ?_,
      fun e entry owned owner => ?_, fun e entry home mode => ?_, fun e s2 d2 f upper wide entry owned owner room halved => ?_,
      fun l h s2 d2 upper wide lower high lOwned hOwned lOwner hOwner lender => ?_, fun e entry mode orphaned => ⟨fun named' live => ?_, fun home => ?_⟩⟩⟩
    · rw [kacq_answers xd named here, judge_acq_others (a := s1.h.asker) met owned other nowhere]
      exact answered_row (answer_status idle) fun t ring _ => ring
    · rw [kacq_answers xd named here, judge_acq_orphaned (a := s1.h.asker) met orphaned]
      exact answered_row (answer_status idle) fun t ring _ => ring
    · rw [kacq_answers xd named here, judge_acq_own (a := s1.h.asker) met base size owned owner]
      exact answered_row (answer_again idle (dropAgent_keys _ _)) fun t ring early => ⟨ring, fun k hk x hx => dropAgent_early hk (early ▸ hx)⟩
    · rw [kacq_answers xd named here, judge_acq_elsewhere (a := s1.h.asker) free there]
      exact answered_row (answer_status idle) fun t ring _ => ring
    · rw [kacq_answers xd named here, judge_acq_noRoom (a := s1.h.asker) free nowhere full]
      exact answered_row (answer_status idle) fun t ring _ => ring
    · rw [kacq_answers xd named here, judge_acq_free (a := s1.h.asker) free nowhere room]
      exact answer_held idle held xd 0
    · rw [kacq_answers xd named here, judge_acq_free (a := s1.h.asker) free nowhere room]
      exact answered_row (answer_change idle ((putEntry_keys _ _).trans (dropAgent_keys _ _)) clear) fun t ring early =>
        ⟨entryOf_put ⟨rfl, rfl, rfl, rfl⟩ ring, fun k hk x hx => dropAgent_early (s := s1.putEntry _) hk (early ▸ hx)⟩
    · rw [kacq_answers xd named here, judge_acq_home (a := s1.h.asker) met base size home]
      have region := isOf_of_overlapping met base size
      exact answered_row (answer_change idle ((putEntry_keys _ _).trans (dropAgent_keys _ _)) clear) fun t ring early =>
        ⟨entryOf_put region ring, fun k hk x hx => dropAgent_early (s := s1.putEntry _) hk (early ▸ hx)⟩
    · rw [kclean_answers xd named here, judge_clean_owned (a := s1.h.asker) entry owned owner]
      have region := isOf_of_entryOf entry
      exact answered_row (answer_change idle (putEntry_keys _ _) clear) fun t ring _ => entryOf_put region ring
    · rw [kclean_answers xd named here, judge_clean_home (a := s1.h.asker) entry home (by simp [Hart.asker, mode])]
      have region := isOf_of_entryOf entry
      exact answered_row (answer_change idle (delEntry_keys _ _) clear) fun t ring _ => entryOf_deleted region ring
    · exact halved ▸ ksplit_row xd named here idle clear upper wide entry owned owner room
    · exact kmerge_row xd named here idle clear upper wide lower high lOwned hOwned lOwner hOwner lender
    · rw [krecover_answers xd named here xc mode, judge_recover_to (a := s1.h.asker) entry orphaned (by simp [Hart.asker, hart, mode]) named' live]
      have region := isOf_of_entryOf entry
      exact answered_row (answer_change idle ((purgeRegion_keys _ _ _ _ _).trans (putEntry_keys _ _)) clear) fun t ring _ =>
        entryOf_put region ring
    · rw [krecover_answers xd named here xc mode, home, judge_recover_home (a := s1.h.asker) entry orphaned (by simp [Hart.asker, hart, mode])]
      have region := isOf_of_entryOf entry
      split
      · exact answered_row (answer_change idle ((purgeRegion_keys _ _ _ _ _).trans (putEntry_keys _ _)) clear) fun t ring _ =>
          entryOf_put region ring
      · exact answered_row (answer_change idle ((purgeRegion_keys _ _ _ _ _).trans (delEntry_keys _ _)) clear) fun t ring _ =>
          entryOf_deleted region ring
  · have address : (s.x xa + BitVec.ofInt 64 imm.toInt).toNat = offset (s.x xa) imm := rfl
    dsimp only
    rw [address]
    intro mode memory home
    refine ⟨fun e entry size shares => ?_, fun uncovered there none => ?_, fun uncovered reached => ?_, fun uncovered reached there b size r nd entry hs hr => ?_,
      fun uncovered lost traps => ?_⟩
    · rw [kquery_covered xd mode memory home entry]
      obtain ⟨owner, hsize, hshares, poison, code, right, low⟩ := queryWord_fields size shares s1.h.agent
      obtain ⟨own, share, without⟩ := right_cases e s1.h.agent
      have rights {n : Nat} (hn : n < 4) (h : e.right s1.h.agent = n) : (queryWord (some e) s1.h.agent).extractLsb' 15 2 = BitVec.ofNat 2 n :=
        BitVec.eq_of_toNat_eq (by rw [right, h, BitVec.toNat_ofNat, Nat.mod_eq_of_lt hn])
      refine query_answers s1 xd _ fun t value written => ?_
      rw [value written]
      refine ⟨owner, hsize, hshares, poison, ?_, fun o w => rights (by decide) (own o w), fun o w => rights (by decide) (share o w),
        fun o w => rights (by decide) (without o w), low⟩
      apply BitVec.eq_of_toNat_eq
      rw [code]
      cases e.state <;> rfl
    · rw [kquery_uncovered xd mode memory home uncovered (by rw [none]; simp), foreignWord_none _ none there]
      exact query_answers s1 xd _ fun t value => value
    · rw [kquery_uncovered xd mode memory home uncovered reached]
      exact query_answers s1 xd _ fun t value written => value written ▸ foreignWord_low _
    · rw [kquery_uncovered xd mode memory home uncovered reached, there]
      exact query_answers s1 xd _ fun t value written => value written ▸ foreignWord_some entry hs hr
    · rw [kquery_lost xd mode memory home uncovered lost]
      exact ⟨_, rfl, trapNow_taken traps _⟩

end

section
/-! PROOFS. The transfers of Table 05-6 as their instructions make them (R108, R111, R115): what the sweep leaves of the core's caches and of memory. -/

namespace Sys2Proof.Machine

/-! Dirty lines written back: where nothing else stands in the bytes of a line, those bytes read as the line has them. -/

theorem homeByte_homeWrite_outside {s : State} (store : ClearStore s) (k : Nat) (bs : List Byte) {j : Nat} (outside : j < k ∨ k + bs.length ≤ j) :
    (s.homeWrite k bs).homeByte j = s.homeByte j := by
  unfold State.homeByte
  rw [readKeyOf_noFrames (homeWrite_clear store k bs).frames, readKeyOf_noFrames store.frames, homeWrite_noFrames store.frames]
  exact putBytes_outside bs _ k j store.wf outside

theorem homeRead_homeWrite_outside {s : State} (store : ClearStore s) (k : Nat) (bs : List Byte) {j n : Nat} (outside : j + n ≤ k ∨ k + bs.length ≤ j) :
    (s.homeWrite k bs).homeRead j n = s.homeRead j n := by
  rw [homeRead_getElem, homeRead_getElem]
  refine List.map_congr_left fun i hi => homeByte_homeWrite_outside store k bs ?_
  have := List.mem_range.1 hi
  omega

theorem lineBytes_length (d : BitVec 512) (i n : Nat) : (lineBytes d i n).length = n := by
  simp [lineBytes, toBytes_eq_map]

section
variable {s : State} (store : ClearStore s) (n : Nat) {o l : L1Line} (sound : o.bad = false)
include store sound

theorem writeBack_clear : ClearStore (s.writeBack n o) := by
  unfold State.writeBack
  rw [if_neg (by simp [sound])]
  split
  · exact ⟨store.frames, store.poison, store.wf⟩
  · exact homeWrite_clear store _ _

/-- A line that another one does not meet at home keeps its bytes when that is written back. -/
theorem writeBack_apart (apart : o.key + 64 ≤ l.key ∨ l.key + 64 ≤ o.key) : (s.writeBack n o).homeRead l.key 64 = s.homeRead l.key 64 := by
  unfold State.writeBack
  rw [if_neg (by simp [sound])]
  split
  · exact homeRead_congr rfl rfl 64 l.key
  · exact homeRead_homeWrite_outside store _ _ (by rw [lineBytes_length]; omega)

theorem writeBack_reads (home : o.node = none) : (s.writeBack n o).homeRead o.key 64 = lineBytes o.data 0 64 := by
  unfold State.writeBack
  rw [if_neg (by simp [sound]), home]
  have whole := homeRead_homeWrite store.frames store.poison store.wf o.key (lineBytes o.data 0 64) (i := 0) (n := 64) (by rw [lineBytes_length])
  refine whole.trans ?_
  rw [List.drop_zero, List.take_of_length_le (by rw [lineBytes_length])]

end

/-- After a row of write-backs a line among them that no other meets stands at home. -/
theorem writeBacks_read {l : L1Line} (home : l.node = none) (n : Nat) (ls : List L1Line) :
    ∀ {s : State}, ClearStore s → (∀ o ∈ ls, o.bad = false) → (∀ o ∈ ls, o = l ∨ o.key + 64 ≤ l.key ∨ l.key + 64 ≤ o.key) →
      (l ∈ ls ∨ s.homeRead l.key 64 = lineBytes l.data 0 64) → (ls.foldl (fun t o => t.writeBack n o) s).homeRead l.key 64 = lineBytes l.data 0 64 := by
  induction ls with
  | nil => exact fun _ _ _ stands => stands.resolve_left (List.not_mem_nil)
  | cons o ls ih =>
    intro s store sound apart stands
    have osound := sound o (.head _)
    refine ih (writeBack_clear store n osound) (fun p hp => sound p (.tail _ hp)) (fun p hp => apart p (.tail _ hp)) ?_
    obtain rfl | away := apart o (.head _)
    · exact .inr (writeBack_reads store n osound home)
    · rw [writeBack_apart store n osound away]
      exact stands.imp_left fun h => (List.mem_cons.1 h).resolve_left fun same => by subst same; omega

/-! The sweep of a transfer, with all that it leaves. -/

/-- What a transfer leaves of the core's caches and of memory (Table 05-8). -/
def CachesSwept (op : Transfer) (space : BitVec 16) (base size : Nat) (s t : State) : Prop :=
  t.core.l1 = sweptLines (L1Line.inKey s.h.kctx space base size) op.keepsLines s.core.l1
    ∧ t.core.keys = s.core.keys.filter (fun k => !(k.ctx == s.h.kctx && k.space == space && meetsRegion base size k.base (2 ^ k.size) && k.agent == s.h.agent))
    ∧ t.core.icache = s.core.icache.filter (fun l => !(l.ctx == s.h.kctx && space == 0 && inRegion base size l.off))
    ∧ (op.writesBack = false → t.mem = s.mem)
    ∧ (op.writesBack = true → s.frames = [] → s.poison = [] → s.mem.wf = true → ∀ l ∈ s.core.l1, L1Line.inKey s.h.kctx space base size l = true →
        l.dirty = true → l.node = none → (∀ o ∈ s.core.l1, o = l ∨ o.key + 64 ≤ l.key ∨ l.key + 64 ≤ o.key) →
          t.homeRead l.key 64 = lineBytes l.data 0 64)

theorem CachesSwept.congr {op : Transfer} {space : BitVec 16} {base size : Nat} {s t u : State} (swept : CachesSwept op space base size s t)
    (core : u.core = t.core) (mem : u.mem = t.mem) (frames : u.frames = t.frames) : CachesSwept op space base size s u := by
  unfold CachesSwept
  rw [core, mem]
  simp only [homeRead_congr mem frames]
  exact swept

/-- The dirty lines of the current core's L1 that satisfy a test. -/
def State.dirtyLines (s : State) (test : L1Line → Bool) : List L1Line := (s.core.l1.filter test).filter (·.dirty)

theorem mem_dirtyLines {s : State} {test : L1Line → Bool} {l : L1Line} : l ∈ s.dirtyLines test ↔ (l ∈ s.core.l1 ∧ test l = true) ∧ l.dirty = true := by
  rw [State.dirtyLines, List.mem_filter, List.mem_filter]

theorem transferSweep_caches {s : State} (sound : ∀ l ∈ s.core.l1, l.dirty = true → l.bad = false) (op : Transfer) (space : BitVec 16) (base size : Nat) :
    CachesSwept op space base size s (s.transferSweep op space base size) := by
  have soundHit : ∀ l ∈ s.dirtyLines (L1Line.inKey s.h.kctx space base size), l.bad = false := fun l hl => by
    obtain ⟨⟨listed, -⟩, dirty⟩ := mem_dirtyLines.1 hl
    exact sound l listed dirty
  have whole : s.transferSweep op space base size =
      (s.sweepL1 (L1Line.inKey s.h.kctx space base size) op.writesBack op.keepsLines).dropOwnRights s.h.kctx space base size s.h.agent := by
    cases op <;> rfl
  rw [whole]
  cases back : op.writesBack with
  | false =>
    rw [sweepL1_written (.refl s) _ op.keepsLines (back := false) rfl sound]
    have none : ¬ op.writesBack = true := by simp [back]
    exact ⟨rfl, rfl, rfl, fun _ => rfl, fun h => absurd h none⟩
  | true =>
    have written := writeBacks_homes s s.coreNo _ soundHit
    rw [sweepL1_written written _ op.keepsLines (back := true) rfl sound]
    have some : ¬ op.writesBack = false := by simp [back]
    refine ⟨rfl, rfl, rfl, fun h => absurd h some, fun _ frames poison wf l hl named dirty home apart => ?_⟩
    refine (homeRead_congr rfl rfl 64 l.key).trans
      (writeBacks_read home s.coreNo _ ⟨frames, poison, wf⟩ soundHit (fun o ho => apart o (mem_dirtyLines.1 ho).1.1) (.inl ?_))
    exact mem_dirtyLines.2 ⟨⟨hl, named⟩, dirty⟩

/-- The row of Table 05-6 and the status come after the sweep and touch neither caches nor memory. -/
theorem transferEnd_caches {s u : State} {op : Transfer} {space : BitVec 16} {base size : Nat} {xd : XReg} {e : KeyEntry}
    (entry : s.entryOf s.h.kctx space base size = some e) (quiet : s.keyQueue = []) (sound : ∀ l ∈ s.core.l1, l.dirty = true → l.bad = false)
    (ends : s.transferEnd op space base size xd = .next u) : CachesSwept op space base size s u := by
  obtain ⟨hart, keyring, keyQueue, -⟩ := transferSweep_swept sound op space base size
  have swept := transferSweep_caches sound op space base size
  unfold State.transferEnd at ends
  generalize s.transferSweep op space base size = v at *
  have row := (transferRow_replaces (isOf_of_entryOf entry) (keyQueue.trans quiet) s.h.agent op).rest
  dsimp only at ends
  rw [hart, entryOf_congr keyring, entry] at ends
  dsimp only at ends
  generalize v.transferRow s.h.agent op e = r at row ends
  have served : r.served = r := leaveQueue_quiet (by rw [row]; exact keyQueue.trans quiet) _
  rw [served] at ends
  cases ends
  exact swept.congr (by rw [row]; rfl) (by rw [row]; rfl) (by rw [row]; rfl)

/-! The instructions. -/

section
variable {s s1 : State} {xa xb : XReg} {asr : BitVec 2} {imm : BitVec 20} {r : Region} {d : Nat} (xd : XReg)
  (named : s.region xa xb asr imm = .ok (r, s1)) (here : r.die = some d)
include named here

theorem klend_answers (xc : XReg) :
    exec (.klend xd xa xb xc asr imm) s = s1.answer r xd (s1.judge s1.h.asker (.lend ((s1.x xc).extractLsb' 0 32)) r d) :=
  (keyed_region named _).trans (request_here here _ _ _)

theorem kshare_answers (xc : XReg) :
    exec (.kshare xd xa xb xc asr imm) s = s1.answer r xd (s1.judge s1.h.asker (.share ((s1.x xc).extractLsb' 0 32)) r d) :=
  (keyed_region named _).trans (request_here here _ _ _)

theorem kret_answers : exec (.kret xd xa xb asr imm) s = s1.answer r xd (s1.judge s1.h.asker .ret r d) :=
  (keyed_region named _).trans (request_here here _ _ _)

theorem kdrop_answers : exec (.kdrop xd xa xb asr imm) s = s1.answer r xd (s1.judge s1.h.asker .drop r d) :=
  (keyed_region named _).trans (request_here here _ _ _)

theorem kunshare_answers : exec (.kunshare xd xa xb asr imm) s = s1.answer r xd (s1.judge s1.h.asker .unshare r d) :=
  (keyed_region named _).trans (request_here here _ _ _)

end

/-! The transfers that the controller grants (Table 05-6). -/

section
variable {s : State} {a : Asker} {r : Region} {d : Nat} {e : KeyEntry} (entry : s.entryOf a.ctx r.space r.base r.size = some e)
include entry

theorem judge_unshare_granted (shared : e.state = .shared) (holds : a.agent ∈ e.shares) : s.judge a .unshare r d = .transfer .unshare e := by
  simp [State.judge, entry, shared, holds]

variable (owner : e.owner = a.agent)
include owner

theorem judge_ret_granted (owned : e.state = .owned) : s.judge a .ret r d = .transfer .ret e := by
  simp [State.judge, entry, KeyEntry.ownedBy, owned, owner]

theorem judge_drop_granted (owned : e.state = .owned) : s.judge a .drop r d = .transfer .drop e := by
  simp [State.judge, entry, KeyEntry.ownedBy, owned, owner]

variable {c : BitVec 32} (other : c ≠ a.agent) (named : c ≠ noAgent) (live : s.liveAgent a.ctx (some a.task) c = true)
include other named live

theorem judge_lend_granted (owned : e.state = .owned) (unlent : e.lender = noAgent) : s.judge a (.lend c) r d = .transfer (.lend c) e := by
  have mine : e.ownedBy a = true := by simp [KeyEntry.ownedBy, owned, owner]
  have held : e.state ≠ .shared := by simp [owned]
  simp only [State.judge, entry, mine, other, named, unlent, held, live, Bool.not_true, Bool.false_eq_true, ne_eq, not_true, or_self, if_false]

theorem judge_share_granted (held : e.state = .owned ∨ e.state = .shared) (apart : c ∉ e.shares) (few : e.shares.length < 63)
    (room : s.sharesUsed e.die < 16384) : s.judge a (.share c) r d = .transfer (.share c) e := by
  have mine : e.ownedBy a = true := by simpa [KeyEntry.ownedBy, owner] using held
  simp only [State.judge, entry, mine, other, named, live, List.contains_eq_mem, apart, Nat.not_le.2 few, Nat.not_le.2 room, decide_false, Bool.not_true,
    Bool.false_eq_true, or_self, if_false]

end

/-- The lender of what an owner gives back has it again (Table 05-6). -/
theorem givenBack_owned {e : KeyEntry} (owned : e.state = .owned) : e.givenBack =
    if e.lender ≠ noAgent then some { e with owner := e.lender, lender := noAgent, shares := [] }
    else if e.poison then some { e with state := .home, owner := noAgent, shares := [] } else none := by
  rw [KeyEntry.givenBack, ← owned]

section
variable {s s1 : State} {r : Region} {e : KeyEntry} {op : Transfer} {new : Option KeyEntry} {i : Instr} {xd : XReg}
  (entry : s1.entryOf s1.h.kctx r.space r.base r.size = some e) (quiet : s1.keyQueue = [])
  (clear : s1.requestHeld (s1.waiter r) s1.h.kctx r = false)
  (asks : exec i s = s1.answer r xd (.transfer op e))
include entry quiet clear asks

/-- A transfer that is granted makes its sweep and its row at once where nothing of the issuer holds it back (R108). -/
theorem transfer_made (sound : ∀ l ∈ s1.core.l1, l.dirty = true → l.bad = false) (after : op.entryAfter s1.h.agent e = new)
    (ready : s1.keyWaits r.space r.base r.size = false) : completes (exec i s) fun t =>
      StatusResult xd 0 s1 t ∧ t.entryOf s1.h.kctx r.space r.base r.size = new.map KeyEntry.atRest
        ∧ (∀ ctx' space base size, ¬ (ctx' = s1.h.kctx ∧ space = r.space ∧ base = r.base ∧ size = r.size) →
            t.entryOf ctx' space base size = s1.entryOf ctx' space base size)
        ∧ CachesSwept op r.space r.base r.size s1 t := by
  obtain ⟨-, hspace, hbase, hsize⟩ := isOf_of_entryOf entry
  rw [asks, State.answer, clear, State.keyTransfer, hspace, hbase, hsize, ready, ← after]
  obtain ⟨t, ht, status, row, others, -⟩ := transferEnd_made entry quiet sound op xd
  exact ⟨t, ht, status, row, others, transferEnd_caches entry quiet sound ht⟩

/-- One that is held back waits with its region in transit (R111). -/
theorem transfer_held (waits : s1.keyWaits r.space r.base r.size = true) : completes (exec i s) fun t =>
    t.h = { s1.h with wait := .key r.space (BitVec.ofNat 64 r.base) r.size } ∧ t.core = s1.core ∧ t.mem = s1.mem
      ∧ t.entryOf s1.h.kctx r.space r.base r.size = some { e with transit := true, issuer := s1.h.agent } := by
  have region := isOf_of_entryOf entry
  have row := (putEntry_replaces s1 (e := { e with transit := true, issuer := s1.h.agent }) region).entry
  have served : (s1.putEntry { e with transit := true, issuer := s1.h.agent }).served = s1.putEntry { e with transit := true, issuer := s1.h.agent } :=
    leaveQueue_quiet (s := s1.putEntry _) quiet _
  obtain ⟨-, hspace, hbase, hsize⟩ := region
  have waitsHere : s1.keyWaits e.space e.base e.size = true := by rw [hspace, hbase, hsize, waits]
  rw [asks, State.answer, clear, State.keyTransfer, if_neg nofun, if_pos waitsHere, served]
  refine ⟨_, rfl, ?_, rfl, rfl, row⟩
  show { s1.h with wait := .key e.space (BitVec.ofNat 64 e.base) e.size } = _
  rw [hspace, hbase, hsize]

end

end Sys2Proof.Machine

open Sys2Proof Sys2Proof.Machine

/-- Settles O37: each transfer is granted by its row of Table 05-6 (`judge_lend_granted` to `judge_unshare_granted`), and is then made at once (`transfer_made`) or
waits in transit (`transfer_held`). -/
theorem keyTransfersMoveOwnership : Obligations.KeyTransfersMoveOwnership := by
  unfold Obligations.KeyTransfersMoveOwnership
  intro s s1 xd xa xb xc asr imm r d e
  dsimp only
  intro named here entry quiet clear sound
  refine ⟨fun owned owner unlent other agent live => ?_, fun held owner other agent live apart few room => ?_, fun owned owner => ⟨?_, ?_⟩, fun shared holds => ?_⟩
  · have asks := (klend_answers xd named here xc).trans (congrArg _ (judge_lend_granted (a := s1.h.asker) entry owner other agent live owned unlent))
    exact ⟨transfer_made entry quiet clear asks sound (by rw [← owner]; rfl), transfer_held entry quiet clear asks⟩
  · have asks := (kshare_answers xd named here xc).trans (congrArg _ (judge_share_granted (a := s1.h.asker) entry owner other agent live held apart few room))
    exact ⟨transfer_made entry quiet clear asks sound rfl, transfer_held entry quiet clear asks⟩
  · have asks := (kret_answers xd named here).trans (congrArg _ (judge_ret_granted (a := s1.h.asker) entry owner owned))
    exact ⟨transfer_made entry quiet clear asks sound (givenBack_owned owned), transfer_held entry quiet clear asks⟩
  · have asks := (kdrop_answers xd named here).trans (congrArg _ (judge_drop_granted (a := s1.h.asker) entry owner owned))
    exact ⟨transfer_made entry quiet clear asks sound (givenBack_owned owned), transfer_held entry quiet clear asks⟩
  · have asks := (kunshare_answers xd named here).trans (congrArg _ (judge_unshare_granted (a := s1.h.asker) entry shared holds))
    exact ⟨transfer_made entry quiet clear asks sound rfl, transfer_held entry quiet clear asks⟩

end

section
/-! PROOFS. Harts and cores by their numbers: what is read after one is replaced. -/

namespace Sys2Proof.Machine

theorem assocGet_assocSet (d a : α) (i j : Nat) (l : List (Nat × α)) : assocGet d (assocSet l i a) j = if j = i then a else assocGet d l j := by
  induction l with
  | nil => simp [assocSet, assocGet, eq_comm]
  | cons p l ih =>
    obtain ⟨k, b⟩ := p
    unfold assocSet
    split
    · simp [assocGet, eq_comm]
    · split
      · next same =>
        subst same
        by_cases h : j = i
        · simp [assocGet, h]
        · simp [assocGet, h, Ne.symm h]
      · next other =>
        rw [assocGet, assocGet, ih]
        split
        · next same =>
          subst same
          rw [if_neg (Ne.symm other)]
        · rfl

theorem assocGet_assocDel (d : α) {i j : Nat} (other : j ≠ i) (l : List (Nat × α)) : assocGet d (assocDel l i) j = assocGet d l j := by
  unfold assocDel
  induction l with
  | nil => rfl
  | cons p l ih =>
    obtain ⟨k, b⟩ := p
    by_cases h : k = i
    · rw [List.filter_cons_of_neg (by simp [h]), assocGet, ih, if_neg (by omega)]
    · rw [List.filter_cons_of_pos (by simp [h]), assocGet, assocGet, ih]

section
variable (s : State) (k n : Nat)

theorem hartAt_own {t : State} (cur : t.cur = k) : t.hartAt k = t.h := if_pos cur.symm

@[simp] theorem setHart_hartAt (h : Hart) (j : Nat) : (s.setHart k h).hartAt j = if j = k then h else s.hartAt j := by
  unfold State.setHart
  by_cases here : k = s.cur
  · rw [if_pos here]
    by_cases same : j = k
    · subst same; rw [if_pos rfl]; exact if_pos here
    · rw [if_neg same]
      exact (if_neg (here ▸ same)).trans (if_neg (here ▸ same)).symm
  · rw [if_neg here]
    unfold State.hartAt
    dsimp only
    rw [assocGet_assocSet]
    by_cases same : j = k
    · rw [if_neg (same ▸ here), if_pos same, if_pos same]
    · rw [if_neg same, if_neg same]

@[simp] theorem setCore_coreAt (c : Core) (m : Nat) : (s.setCore n c).coreAt m = if m = n then c else s.coreAt m := by
  unfold State.setCore
  by_cases here : n = s.coreNo
  · rw [if_pos here]
    by_cases same : m = n
    · subst same; rw [if_pos rfl]; exact if_pos here
    · rw [if_neg same]
      exact (if_neg (here ▸ same)).trans (if_neg (here ▸ same)).symm
  · rw [if_neg here]
    show (if m = s.coreNo then s.core else assocGet Core.reset (assocSet s.cores n c) m) = _
    rw [assocGet_assocSet]
    by_cases same : m = n
    · rw [if_neg (same ▸ here), if_pos same, if_pos same]
    · rw [if_neg same, if_neg same]
      rfl

/-- A hart replaced touches no core, a core replaced no hart. -/
@[simp] theorem setHart_coreAt (h : Hart) : (s.setHart k h).coreAt n = s.coreAt n := by
  unfold State.setHart
  split <;> rfl

@[simp] theorem setCore_hartAt (c : Core) : (s.setCore n c).hartAt k = s.hartAt k := by
  unfold State.setCore
  split <;> rfl

theorem focus_coreAt : (s.focus k).coreAt n = s.coreAt n := by
  unfold State.focus
  split
  · rfl
  · next away =>
    dsimp only
    split
    · next same =>
      show (if n = k / 8 then s.core else assocGet Core.reset s.cores n) = if n = s.coreNo then s.core else assocGet Core.reset s.cores n
      rw [same]
    · next other =>
      show (if n = k / 8 then s.coreAt (k / 8) else assocGet Core.reset (assocSet (assocDel s.cores (k / 8)) s.coreNo s.core) n) = s.coreAt n
      split
      · next here => rw [here]
      · next there =>
        rw [assocGet_assocSet, assocGet_assocDel _ there]
        rfl

/-- The focused hart is the current one, and nothing else of the device is other than it was. -/
theorem focus_eq : ∃ harts core cores, s.focus k = { s with cur := k, h := s.hartAt k, harts := harts, core := core, cores := cores } := by
  unfold State.focus
  split
  · next here =>
    subst here
    exact ⟨s.harts, s.core, s.cores, by rw [hartAt_own _ rfl]⟩
  · dsimp only
    split <;> exact ⟨_, _, _, rfl⟩

end

/-- One change of each hart of a list, which made again changes nothing more. -/
theorem foldl_setHart_hartAt {f : Hart → Hart} (again : ∀ h, f (f h) = f h) (l : List Nat) (k : Nat) : ∀ s : State,
    (l.foldl (fun t m => t.setHart m (f (t.hartAt m))) s).hartAt k = if k ∈ l then f (s.hartAt k) else s.hartAt k := by
  induction l with
  | nil => exact fun s => (if_neg List.not_mem_nil).symm
  | cons m l ih =>
    intro s
    rw [List.foldl_cons, ih, setHart_hartAt]
    by_cases same : k = m
    · subst same
      simp [again]
    · simp [same]

theorem foldl_setHart_rest (f : Hart → Hart) (s : State) (l : List Nat) :
    ∃ h harts, l.foldl (fun t m => t.setHart m (f (t.hartAt m))) s = { s with h := h, harts := harts } := by
  refine List.foldlRecOn (motive := fun t : State => ∃ h harts, t = { s with h := h, harts := harts }) l _ ⟨_, _, rfl⟩ ?_
  rintro t ⟨h, harts, rfl⟩ m -
  unfold State.setHart
  split <;> exact ⟨_, _, rfl⟩

end Sys2Proof.Machine
end

section
/-! PROOFS. Harts that are asked to stop, stop and run again (R324, R326, R329, R368). -/

namespace Sys2Proof.Machine

/-- A hart asked to stop (R326), to be evicted or not (R343). -/
def Hart.asked (pre : Bool) (h : Hart) : Hart := { h with suspend := true, preempt := h.preempt || pre }

/-- Those who are asked to stop with a hart: its gang (R311). -/
def State.gangWith (s : State) (k : Nat) : List Nat := match s.gangOf (s.hartAt k) with | some g => g.members | none => [k]

theorem requestStop_hartAt (s : State) (k : Nat) (pre : Bool) (j : Nat) :
    (s.requestStop k pre).hartAt j = if j ∈ s.gangWith k then (s.hartAt j).asked pre else s.hartAt j :=
  foldl_setHart_hartAt (f := Hart.asked pre) (fun h => by simp [Hart.asked]) (s.gangWith k) j s

theorem mapHarts_hartAt {f : Hart → Hart} (again : ∀ h, f (f h) = f h) (s : State) {k : Nat} (placed : k ∈ s.placed) :
    (s.mapHarts f).hartAt k = f (s.hartAt k) :=
  (foldl_setHart_hartAt again s.placed k s).trans (if_pos placed)

theorem live_of_atHinge {h : Hart} (hinge : h.atHinge = true) : h.st = .running ∨ h.st = .waiting := by
  unfold Hart.atHinge at hinge
  split at hinge
  · exact .inl ‹_›
  · exact .inr ‹_›
  · exact nomatch hinge

theorem suspension_stops {s : State} {hart : Nat} (asked : (s.hartAt hart).suspend = true) (hinge : (s.hartAt hart).atHinge = true) :
    exec (.suspension hart) s = .next (s.focus hart).suspendNow := by
  have live : ¬ ((s.hartAt hart).st = .free ∨ (s.hartAt hart).st = .exiting ∨ (s.hartAt hart).st = .evicting ∨ (s.hartAt hart).st = .suspended) := by
    rcases live_of_atHinge hinge with h | h <;> simp [h]
  show execSuspension hart s = _
  simp only [execSuspension, live, asked, hinge, Bool.not_true, Bool.false_eq_true, if_false, if_true]

theorem suspension_asks {s : State} {hart : Nat} (quiet : (s.hartAt hart).suspend = false)
    (live : (s.hartAt hart).st = .running ∨ (s.hartAt hart).st = .waiting ∨ (s.hartAt hart).st = .starting) :
    exec (.suspension hart) s = .next (s.requestStop hart false) := by
  have live : ¬ ((s.hartAt hart).st = .free ∨ (s.hartAt hart).st = .exiting ∨ (s.hartAt hart).st = .evicting ∨ (s.hartAt hart).st = .suspended) := by
    rcases live with h | h | h <;> simp [h]
  show execSuspension hart s = _
  simp only [execSuspension, live, quiet, Bool.not_false, if_false, if_true]

end Sys2Proof.Machine
end

section
/-! PROOFS. Keys given up by a hart that ends (R114, R328): what the sweeps of its core and each row of Table 05-6 leave. -/

namespace Sys2Proof.Machine

/-! Sweeps: the keyring and what waits at the controllers stand, and sound lines raise no machine check. -/

/-- No line of an L1 holds an error beyond correction. -/
def State.linesSound (s : State) : Prop := ∀ n, ∀ l ∈ (s.coreAt n).l1, l.bad = false

/-- t is s but for caches and what their lines write: the keyring and its waiters stand, and while all lines are sound they stay so and no check comes. -/
structure CachesOnly (s t : State) : Prop where
  cur : t.cur = s.cur
  keyring : t.keyring = s.keyring
  keyQueue : t.keyQueue = s.keyQueue
  sound : s.linesSound → t.linesSound ∧ t.h = s.h

theorem CachesOnly.refl (s : State) : CachesOnly s s := ⟨rfl, rfl, rfl, fun h => ⟨h, rfl⟩⟩

theorem CachesOnly.trans {s t u : State} (h : CachesOnly s t) (g : CachesOnly t u) : CachesOnly s u where
  cur := g.cur.trans h.cur
  keyring := g.keyring.trans h.keyring
  keyQueue := g.keyQueue.trans h.keyQueue
  sound sound := by
    obtain ⟨lines, hart⟩ := h.sound sound
    obtain ⟨lines', hart'⟩ := g.sound lines
    exact ⟨lines', hart'.trans hart⟩

theorem CachesOnly.foldl {f : State → α → State} (h : ∀ s a, CachesOnly s (f s a)) (s : State) (l : List α) : CachesOnly s (l.foldl f s) :=
  List.foldlRecOn l f (.refl s) fun t ht a _ => ht.trans (h t a)

theorem setHart_keys (s : State) (k : Nat) (h : Hart) :
    (s.setHart k h).cur = s.cur ∧ (s.setHart k h).keyring = s.keyring ∧ (s.setHart k h).keyQueue = s.keyQueue := by
  unfold State.setHart
  split <;> exact ⟨rfl, rfl, rfl⟩

theorem setCore_keys (s : State) (n : Nat) (c : Core) :
    (s.setCore n c).cur = s.cur ∧ (s.setCore n c).keyring = s.keyring ∧ (s.setCore n c).keyQueue = s.keyQueue ∧ (s.setCore n c).h = s.h := by
  unfold State.setCore
  split <;> exact ⟨rfl, rfl, rfl, rfl⟩

theorem setCore_caches (s : State) (n : Nat) {c : Core} (lines : ∀ l ∈ c.l1, ∃ o ∈ (s.coreAt n).l1, l.bad = o.bad) : CachesOnly s (s.setCore n c) where
  cur := (setCore_keys s n c).1
  keyring := (setCore_keys s n c).2.1
  keyQueue := (setCore_keys s n c).2.2.1
  sound sound := by
    refine ⟨fun m l hl => ?_, (setCore_keys s n c).2.2.2⟩
    rw [setCore_coreAt] at hl
    split at hl
    · obtain ⟨o, ho, same⟩ := lines l hl
      exact same.trans (sound n o ho)
    · exact sound m l hl

theorem mapCores_coreAt_lines {f : Nat → Core → Core} (fewer : ∀ n c, ∀ l ∈ (f n c).l1, l ∈ c.l1) (s : State) (n : Nat) :
    ∀ l ∈ ((s.mapCores f).coreAt n).l1, l ∈ (s.coreAt n).l1 := by
  have listed (cs : List (Nat × Core)) : ∀ l ∈ (assocGet Core.reset (cs.map fun p => (p.1, f p.1 p.2)) n).l1, l ∈ (assocGet Core.reset cs n).l1 := by
    induction cs with
    | nil => exact fun _ hl => hl
    | cons p cs ih =>
      rw [List.map_cons, assocGet, assocGet]
      split
      · exact fewer _ _
      · exact ih
  show ∀ l ∈ (if n = s.coreNo then f s.coreNo s.core else assocGet Core.reset (s.cores.map fun p => (p.1, f p.1 p.2)) n).l1,
    l ∈ (if n = s.coreNo then s.core else assocGet Core.reset s.cores n).l1
  split
  · exact fewer _ _
  · exact listed s.cores

theorem mapCores_caches {f : Nat → Core → Core} (fewer : ∀ n c, ∀ l ∈ (f n c).l1, l ∈ c.l1) (s : State) : CachesOnly s (s.mapCores f) :=
  ⟨rfl, rfl, rfl, fun sound => ⟨fun n l hl => sound n l (mapCores_coreAt_lines fewer s n l hl), rfl⟩⟩

theorem lineCheck_keys (s : State) (n : Nat) (l : L1Line) :
    (s.lineCheck n l).cur = s.cur ∧ (s.lineCheck n l).keyring = s.keyring ∧ (s.lineCheck n l).keyQueue = s.keyQueue := by
  unfold State.lineCheck
  split
  · exact setHart_keys ..
  · exact ⟨rfl, rfl, rfl⟩

theorem lineCheck_coreAt (s : State) (n : Nat) (l : L1Line) (m : Nat) : (s.lineCheck n l).coreAt m = s.coreAt m := by
  unfold State.lineCheck
  split
  · exact setHart_coreAt ..
  · rfl

theorem SameButHomes.coreAt {s t : State} (h : SameButHomes s t) (n : Nat) : t.coreAt n = s.coreAt n := by
  obtain ⟨_, _, _, _, _, rfl⟩ := h
  rfl

/-- Lines of a core written back: no cache changes, and sound ones raise no check. -/
theorem writeBack_caches (s : State) (n : Nat) (l : L1Line) :
    ((s.writeBack n l).cur = s.cur ∧ (s.writeBack n l).keyring = s.keyring ∧ (s.writeBack n l).keyQueue = s.keyQueue)
      ∧ (∀ m, (s.writeBack n l).coreAt m = s.coreAt m) ∧ (l.bad = false → (s.writeBack n l).h = s.h) := by
  cases bad : l.bad with
  | true =>
    have checked : s.writeBack n l = s.lineCheck n l := if_pos bad
    rw [checked]
    exact ⟨lineCheck_keys s n l, lineCheck_coreAt s n l, nofun⟩
  | false =>
    have homes := writeBack_homes s n bad
    refine ⟨?_, homes.coreAt, fun _ => ?_⟩
    all_goals
      obtain ⟨_, _, _, _, _, same⟩ := homes
      rw [same]
    exact ⟨rfl, rfl, rfl⟩

theorem writeBacks_caches (s : State) (n : Nat) (ls : List L1Line) : ∀ t, t = ls.foldl (fun t l => t.writeBack n l) s →
    (t.cur = s.cur ∧ t.keyring = s.keyring ∧ t.keyQueue = s.keyQueue) ∧ (∀ m, t.coreAt m = s.coreAt m) ∧ ((∀ l ∈ ls, l.bad = false) → t.h = s.h) := by
  rintro t rfl
  refine List.foldlRecOn (motive := fun t : State => (t.cur = s.cur ∧ t.keyring = s.keyring ∧ t.keyQueue = s.keyQueue) ∧ (∀ m, t.coreAt m = s.coreAt m)
    ∧ ((∀ l ∈ ls, l.bad = false) → t.h = s.h)) ls _ ⟨⟨rfl, rfl, rfl⟩, fun _ => rfl, fun _ => rfl⟩ ?_
  rintro t ⟨⟨cur, ring, queue⟩, cores, hart⟩ l hl
  obtain ⟨⟨cur', ring', queue'⟩, cores', hart'⟩ := writeBack_caches t n l
  exact ⟨⟨cur'.trans cur, ring'.trans ring, queue'.trans queue⟩, fun m => (cores' m).trans (cores m), fun sound => (hart' (sound l hl)).trans (hart sound)⟩

theorem sweepAt_caches (s : State) (n : Nat) (test : L1Line → Bool) (back keep : Bool) : CachesOnly s (s.sweepAt n test back keep) := by
  have written : CachesOnly s (if back then (((s.coreAt n).l1.filter test).filter (·.dirty)).foldl (fun t l => t.writeBack n l) s else s) := by
    split
    · obtain ⟨⟨cur, ring, queue⟩, cores, hart⟩ := writeBacks_caches s n (((s.coreAt n).l1.filter test).filter (·.dirty)) _ rfl
      exact ⟨cur, ring, queue, fun sound => ⟨fun m l hl => sound m l (cores m ▸ hl),
        hart fun l hl => sound n l (List.mem_filter.1 (List.mem_filter.1 hl).1).1⟩⟩
    · exact .refl s
  refine written.trans (setCore_caches _ n fun l hl => ?_)
  dsimp only at hl
  split at hl
  · obtain ⟨o, ho, rfl⟩ := List.mem_map.1 hl
    refine ⟨o, (List.mem_filter.1 ho).1, ?_⟩
    split <;> rfl
  · exact ⟨l, (List.mem_filter.1 hl).1, rfl⟩

theorem dropHolder_caches (s : State) (ctx space : BitVec 16) (base size : Nat) (who : List (BitVec 32)) :
    CachesOnly s (s.dropHolder ctx space base size who) := by
  unfold State.dropHolder
  refine mapCores_caches (fun n c l hl => ?_) s
  split at hl
  · exact (List.mem_filter.1 hl).1
  · exact hl

/-- The sweep of the cores on which an agent that ends runs, for one region (R108, R114). -/
def State.exitSweep (t : State) (ctx : BitVec 16) (agent : BitVec 32) (e : KeyEntry) : State :=
  ((t.slotsOfAgent ctx agent).map (· / 8)).foldl (fun u n =>
    let v := u.sweepAt n (fun l => l.ctx == ctx && l.space == e.space && inRegion e.base e.size l.off) true false
    v.setCore n ((v.coreAt n).dropRights ctx e.space e.base e.size (· == agent))) t

theorem exitSweep_caches (t : State) (ctx : BitVec 16) (agent : BitVec 32) (e : KeyEntry) : CachesOnly t (t.exitSweep ctx agent e) := by
  refine .foldl (fun u n => ?_) t _
  exact (sweepAt_caches u n _ true false).trans (setCore_caches _ n fun l hl => ⟨l, hl, rfl⟩)

theorem exitRow_eq (s : State) (ctx : BitVec 16) (agent : BitVec 32) (e : KeyEntry) : s.exitRow ctx agent e =
    if e.ctx ≠ ctx then s
    else if e.owner = agent ∧ e.state = .owned then (s.exitSweep ctx agent e).returnEntry e
    else if e.owner = agent ∧ e.state = .shared then ((s.dropShares e).exitSweep ctx agent e).returnEntry { e with state := .owned, shares := [] }
    else if e.shares.contains agent then (s.exitSweep ctx agent e).removeShare { e with lender := if e.lender = agent then noAgent else e.lender } agent
    else if e.lender = agent then s.putEntry { e with lender := noAgent }
    else s := rfl

theorem sweepForeign_caches (s : State) (n : Nat) (ctx : BitVec 16) (agent : BitVec 32) : CachesOnly s (s.sweepForeign n ctx agent) :=
  (sweepAt_caches s n _ true false).trans (setCore_caches _ n fun l hl => ⟨l, hl, rfl⟩)

/-! What waits at the controllers. -/

theorem returnEntry_keyQueue (s : State) (e : KeyEntry) : (s.returnEntry e).keyQueue = s.keyQueue := by
  unfold State.returnEntry
  split
  · rfl
  · split <;> rfl

theorem dropShares_keyQueue (s : State) (e : KeyEntry) : (s.dropShares e).keyQueue = s.keyQueue := (dropHolder_caches s e.ctx e.space e.base e.size e.shares).keyQueue

theorem exitRow_keyQueue (s : State) (ctx : BitVec 16) (agent : BitVec 32) (e : KeyEntry) : (s.exitRow ctx agent e).keyQueue = s.keyQueue := by
  have swept (t : State) : (t.exitSweep ctx agent e).keyQueue = t.keyQueue := (exitSweep_caches t ctx agent e).keyQueue
  rw [exitRow_eq]
  split
  · rfl
  · split
    · exact (returnEntry_keyQueue _ _).trans (swept s)
    · split
      · exact (returnEntry_keyQueue _ _).trans ((swept _).trans (dropShares_keyQueue s e))
      · split
        · exact swept s
        · split <;> rfl

theorem failRow_keyQueue (s : State) (g : Gone) (e : KeyEntry) : (s.failRow g e).keyQueue = s.keyQueue := by
  unfold State.failRow
  dsimp only
  split
  · show (if _ then s.dropShares _ else s).keyQueue = _
    split
    · exact dropShares_keyQueue s _
    · rfl
  · split <;> rfl

theorem goneRow_keyQueue (s : State) (g : Gone) (e : KeyEntry) : (s.goneRow g e).keyQueue = s.keyQueue := by
  cases g with
  | exit ctx agent => exact exitRow_keyQueue s ctx agent e
  | core who => exact failRow_keyQueue s _ e
  | node n => exact failRow_keyQueue s _ e

/-- Events whose turn has come leave the queue, and nothing joins it. -/
theorem settleKeysN_keyQueue (n : Nat) : ∀ (s : State), ∀ w ∈ (State.settleKeysN n s).keyQueue, w ∈ s.keyQueue := by
  induction n with
  | zero => exact fun _ _ hw => hw
  | succ n ih =>
    intro s w hw
    unfold State.settleKeysN at hw
    dsimp only at hw
    split at hw
    · have kept := ih _ w hw
      rw [List.foldlRecOn (motive := fun t : State => t.keyQueue = s.keyQueue.erase _) _ _ rfl] at kept
      · exact List.mem_of_mem_erase kept
      · intro t ht e he
        split
        · split
          · exact (goneRow_keyQueue t _ _).trans ht
          · exact ht
        · exact ht
    · exact hw

/-- Those that leave the queue are no longer in it. -/
theorem leaveQueue_gone (s : State) (test : KeyWaiter → Bool) : ∀ w ∈ (s.leaveQueue test).keyQueue, test w = false := by
  intro w hw
  unfold State.leaveQueue at hw
  split at hw
  · have kept := settleKeysN_keyQueue _ _ w hw
    simpa using (List.mem_filter.1 kept).2
  · next none => simpa using List.any_eq_false.1 (Bool.not_eq_true _ ▸ none) w hw

end Sys2Proof.Machine
end

section
/-! PROOFS. The keys of a hart whose exit completes (R114, R328): once every entry has had its row, none names the agent. -/

namespace Sys2Proof.Machine

/-- An entry of a context gives an agent no key, nor is it lent by it. -/
def KeyEntry.freeOf (ctx : BitVec 16) (agent : BitVec 32) (e : KeyEntry) : Prop :=
  e.ctx = ctx → e.owner ≠ agent ∧ e.lender ≠ agent ∧ agent ∉ e.shares

/-- What the rows for an exit rest on: an owner has not lent to itself, and what it owns is OWNED or SHARED (Table 05-6). -/
def KeyEntry.ownedWell (agent : BitVec 32) (e : KeyEntry) : Prop := e.owner = agent → e.lender ≠ agent ∧ (e.state = .owned ∨ e.state = .shared)

/-- An entry's row has been made: new stands for every entry of its region, the others stand, and only caches and what their lines write have changed. -/
structure RowMade (new : Option KeyEntry) (e : KeyEntry) (s t : State) : Prop where
  cur : t.cur = s.cur
  keyring : t.keyring = new.toList ++ s.keyring.filter fun o => !sameRegion o e
  keyQueue : t.keyQueue = s.keyQueue
  sound : s.linesSound → t.linesSound ∧ t.h = s.h

theorem CachesOnly.made {new : Option KeyEntry} {e : KeyEntry} {s t u : State} (swept : CachesOnly s t) (row : RowMade new e t u) : RowMade new e s u where
  cur := row.cur.trans swept.cur
  keyring := swept.keyring ▸ row.keyring
  keyQueue := row.keyQueue.trans swept.keyQueue
  sound sound := by
    obtain ⟨lines, hart⟩ := swept.sound sound
    obtain ⟨lines', hart'⟩ := row.sound lines
    exact ⟨lines', hart'.trans hart⟩

theorem RowMade.caches {new : Option KeyEntry} {e : KeyEntry} {s t u : State} (row : RowMade new e s t) (swept : CachesOnly t u) : RowMade new e s u where
  cur := swept.cur.trans row.cur
  keyring := swept.keyring.trans row.keyring
  keyQueue := swept.keyQueue.trans row.keyQueue
  sound sound := by
    obtain ⟨lines, hart⟩ := row.sound sound
    obtain ⟨lines', hart'⟩ := swept.sound lines
    exact ⟨lines', hart'.trans hart⟩

/-- A second row of one region stands in the place of the first. -/
theorem RowMade.trans {first new : Option KeyEntry} {e : KeyEntry} {s t u : State} (row : RowMade first e s t) (next : RowMade new e t u)
    (same : ∀ o ∈ first, sameRegion o e = true) : RowMade new e s u where
  cur := next.cur.trans row.cur
  keyring := by
    rw [next.keyring, row.keyring, List.filter_append, List.filter_filter]
    have gone : first.toList.filter (fun o => !sameRegion o e) = [] :=
      List.filter_eq_nil_iff.2 fun o ho => by simp [same o (Option.mem_toList.1 ho)]
    simp [gone]
  keyQueue := next.keyQueue.trans row.keyQueue
  sound sound := by
    obtain ⟨lines, hart⟩ := row.sound sound
    obtain ⟨lines', hart'⟩ := next.sound lines
    exact ⟨lines', hart'.trans hart⟩

/-- A row is the same for every entry of its region. -/
theorem RowMade.region {new : Option KeyEntry} {e e' : KeyEntry} {s t : State} (row : RowMade new e' s t) (same : ∀ o, sameRegion o e' = sameRegion o e) :
    RowMade new e s t where
  cur := row.cur
  keyring := by simpa only [same] using row.keyring
  keyQueue := row.keyQueue
  sound := row.sound

theorem sameRegion_self (e : KeyEntry) : sameRegion e e = true := by simp [sameRegion]

theorem putEntry_made (s : State) (e : KeyEntry) : RowMade (some e) e s (s.putEntry e) := ⟨rfl, rfl, rfl, fun sound => ⟨sound, rfl⟩⟩

theorem returnEntry_made (s : State) (e : KeyEntry) : RowMade e.givenBack e s (s.returnEntry e) := by
  unfold State.returnEntry KeyEntry.givenBack
  split
  · exact (putEntry_made s { e with state := .owned, owner := e.lender, lender := noAgent, shares := [] }).region fun _ => rfl
  · split
    · exact (putEntry_made s { e with state := .home, owner := noAgent, shares := [] }).region fun _ => rfl
    · exact ⟨rfl, rfl, rfl, fun sound => ⟨sound, rfl⟩⟩

theorem removeShare_made (s : State) (e : KeyEntry) (agent : BitVec 32) : RowMade (some (e.withoutShare agent)) e s (s.removeShare e agent) := by
  have row : s.removeShare e agent = s.putEntry (e.withoutShare agent) := by
    simp only [State.removeShare, KeyEntry.withoutShare, List.isEmpty_iff]
  rw [row]
  exact (putEntry_made s (e.withoutShare agent)).region fun _ => rfl

theorem dropShares_made (s : State) (e : KeyEntry) : RowMade (some { e with state := .owned, shares := [] }) e s (s.dropShares e) :=
  (dropHolder_caches s e.ctx e.space e.base e.size e.shares).made
    ((putEntry_made _ { e with state := .owned, shares := [] }).region fun _ => rfl)

section
variable {ctx : BitVec 16} {agent : BitVec 32} (named : agent ≠ noAgent)
include named

theorem exit_has (ctx' : BitVec 16) (a : BitVec 32) : (Gone.exit ctx agent).has ctx' a = true ↔ ctx = ctx' ∧ agent = a := by
  simp only [Gone.has, Bool.and_eq_true, bne_iff_ne, beq_iff_eq, and_iff_right_iff_imp]
  rintro ⟨-, rfl⟩
  exact named

theorem exit_changes (e : KeyEntry) : (Gone.exit ctx agent).changes e = false ↔ e.freeOf ctx agent := by
  rw [← Bool.not_eq_true, Gone.changes, Bool.or_eq_true, Bool.or_eq_true, List.any_eq_true, exit_has named, exit_has named]
  simp only [exit_has named]
  unfold KeyEntry.freeOf
  grind

/-- What an entry becomes that is given back names the agent no more. -/
theorem givenBack_freeOf {e : KeyEntry} (unlent : e.lender ≠ agent) : ∀ o ∈ e.givenBack, o.freeOf ctx agent ∧ o.transit = e.transit ∧ sameRegion o e = true := by
  intro o ho
  unfold KeyEntry.givenBack at ho
  split at ho
  · obtain rfl := Option.mem_some.1 ho
    exact ⟨fun _ => ⟨unlent, named.symm, List.not_mem_nil⟩, rfl, sameRegion_self e⟩
  · split at ho
    · obtain rfl := Option.mem_some.1 ho
      exact ⟨fun _ => ⟨named.symm, unlent, List.not_mem_nil⟩, rfl, sameRegion_self e⟩
    · exact nomatch ho

/-- The row of Table 05-6 for an exit, on an entry that names the agent (R114). -/
theorem exitRow_made (s : State) {e : KeyEntry} (changes : (Gone.exit ctx agent).changes e = true) (well : e.ownedWell agent) :
    ∃ new, RowMade new e s (s.exitRow ctx agent e) ∧ ∀ o ∈ new, o.freeOf ctx agent ∧ o.transit = e.transit ∧ sameRegion o e = true := by
  have taken : ¬ e.freeOf ctx agent := by
    rw [← exit_changes named, changes]
    exact nofun
  rw [exitRow_eq]
  split
  · next other => exact absurd (fun same => absurd same other) taken
  split
  · next own =>
    exact ⟨_, (exitSweep_caches s ctx agent e).made (returnEntry_made _ e), givenBack_freeOf named (well own.1).1⟩
  split
  · next own =>
    refine ⟨_, ((dropShares_made s e).caches (exitSweep_caches _ ctx agent e)).trans
      ((returnEntry_made _ { e with state := .owned, shares := [] }).region fun _ => rfl) ?_, givenBack_freeOf (e := { e with state := .owned, shares := [] }) named (well own.1).1⟩
    rintro o ho
    obtain rfl := Option.mem_some.1 ho
    exact sameRegion_self e
  next notOwned notShared =>
  have notOwner : e.owner ≠ agent := fun own => (well own).2.elim (fun h => notOwned ⟨own, h⟩) (fun h => notShared ⟨own, h⟩)
  split
  · next holds =>
    refine ⟨_, (exitSweep_caches s ctx agent e).made ((removeShare_made _ { e with lender := if e.lender = agent then noAgent else e.lender } agent).region fun _ => rfl), ?_⟩
    rintro o ho
    obtain rfl := Option.mem_some.1 ho
    refine ⟨fun _ => ⟨notOwner, ?_, fun still => ?_⟩, rfl, sameRegion_self e⟩
    · show (if e.lender = agent then noAgent else e.lender) ≠ agent
      split
      · exact named.symm
      · assumption
    · exact of_decide_eq_true (List.mem_filter.1 still).2 rfl
  next apart =>
  have notHolder : agent ∉ e.shares := fun held => apart (List.contains_iff_mem.2 held)
  split
  · refine ⟨_, (putEntry_made s { e with lender := noAgent }).region fun _ => rfl, fun o ho => ?_⟩
    obtain rfl := Option.mem_some.1 ho
    exact ⟨fun _ => ⟨notOwner, named.symm, notHolder⟩, rfl, sameRegion_self e⟩
  · next unlent => exact absurd (fun _ => ⟨notOwner, unlent, notHolder⟩) taken

end

/-- While the entries of rest have not had their row: those of the device still as they were that name the agent are among them. -/
structure ExitPending (ctx : BitVec 16) (agent : BitVec 32) (s : State) (rest : List KeyEntry) (t : State) : Prop where
  cur : t.cur = s.cur
  hart : t.h = s.h
  quiet : t.keyQueue = []
  sound : t.linesSound
  unique : ∀ a ∈ t.keyring, ∀ b ∈ t.keyring, sameRegion a b = true → a = b
  entries : ∀ e ∈ t.keyring, e.transit = false ∧ (e.freeOf ctx agent ∨ (e ∈ s.keyring ∧ ∃ e0 ∈ rest, sameRegion e e0 = true))

theorem sameRegion_trans {a b c : KeyEntry} (h : sameRegion a b = true) (g : sameRegion b c = true) : sameRegion a c = true := by
  simp only [sameRegion, Bool.and_eq_true, beq_iff_eq] at *
  obtain ⟨⟨⟨h1, h2⟩, h3⟩, h4⟩ := h
  rw [h1, h2, h3, h4]
  exact g

theorem sameRegion_comm (a b : KeyEntry) : sameRegion a b = sameRegion b a := by
  simp [sameRegion, Bool.beq_comm]

/-- A fold that keeps a property of what is left of the list and of the value so far. -/
theorem foldl_keeps {f : β → α → β} {P : List α → β → Prop} (step : ∀ a l b, P (a :: l) b → P l (f b a)) :
    ∀ (l : List α) (b : β), P l b → P [] (l.foldl f b)
  | [], _, h => h
  | a :: l, b, h => foldl_keeps step l _ (step a l b h)

namespace ExitPending
variable {ctx : BitVec 16} {agent : BitVec 32} {s t : State} {e0 : KeyEntry} {rest : List KeyEntry}

/-- An entry whose region is no longer there has had its row. -/
theorem skip (h : ExitPending ctx agent s (e0 :: rest) t) (done : ∀ e ∈ t.keyring, sameRegion e e0 = true → e.freeOf ctx agent) : ExitPending ctx agent s rest t where
  cur := h.cur
  hart := h.hart
  quiet := h.quiet
  sound := h.sound
  unique := h.unique
  entries e he := by
    obtain ⟨still, free | ⟨old, e1, among, same⟩⟩ := h.entries e he
    · exact ⟨still, .inl free⟩
    · rcases List.mem_cons.1 among with rfl | later
      · exact ⟨still, .inl (done e he same)⟩
      · exact ⟨still, .inr ⟨old, e1, later, same⟩⟩

/-- An entry's row is made. -/
theorem made {new : Option KeyEntry} {e : KeyEntry} {u : State} (h : ExitPending ctx agent s (e0 :: rest) t) (row : RowMade new e t u) (same : sameRegion e e0 = true)
    (still : e.transit = false) (free : ∀ o ∈ new, o.freeOf ctx agent ∧ o.transit = e.transit ∧ sameRegion o e = true) : ExitPending ctx agent s rest u := by
  have known : ∀ o ∈ u.keyring, o ∈ new ∨ (o ∈ t.keyring ∧ sameRegion o e = false) := by
    intro o ho
    rw [row.keyring, List.mem_append, Option.mem_toList, List.mem_filter, Bool.not_eq_true'] at ho
    exact ho
  obtain ⟨lines, hart⟩ := row.sound h.sound
  refine ⟨row.cur.trans h.cur, hart.trans h.hart, row.keyQueue.trans h.quiet, lines, fun a ha b hb ab => ?_, fun o ho => ?_⟩
  · rcases known a ha with na | ⟨ta, oa⟩ <;> rcases known b hb with nb | ⟨tb, ob⟩
    · exact Option.mem_unique na nb
    · rw [sameRegion_trans (sameRegion_comm a b ▸ ab) (free a na).2.2] at ob
      exact nomatch ob
    · rw [sameRegion_trans ab (free b nb).2.2] at oa
      exact nomatch oa
    · exact h.unique a ta b tb ab
  · rcases known o ho with no | ⟨there, other⟩
    · obtain ⟨freed, transit, -⟩ := free o no
      exact ⟨transit.trans still, .inl freed⟩
    · obtain ⟨rests, freed | ⟨old, e1, among, at1⟩⟩ := h.entries o there
      · exact ⟨rests, .inl freed⟩
      · refine ⟨rests, .inr ⟨old, e1, ?_, at1⟩⟩
        rcases List.mem_cons.1 among with rfl | later
        · rw [sameRegion_trans at1 (sameRegion_comm e _ ▸ same)] at other
          exact nomatch other
        · exact later

/-- No row waits where nothing is in transit and nothing waits (R111). -/
theorem not_held (h : ExitPending ctx agent s rest t) (me : KeyWaiter) (ctx' space : BitVec 16) (base size : Nat) :
    t.keyHeld me ctx' space base size = false := by
  have still : t.inTransit ctx' space base size = false :=
    List.any_eq_false.2 fun e he => Bool.not_eq_true _ ▸ (h.entries e (List.mem_filter.1 he).1).1
  rw [State.keyHeld, State.keyAhead, still, h.quiet]
  rfl

end ExitPending

/-- Every key of an agent that exits is released, where nothing is in transit and nothing waits (R111, R114). -/
theorem loseHolders_exit {s : State} {agent : BitVec 32} (ctx : BitVec 16) (named : agent ≠ noAgent) (quiet : s.keyQueue = []) (sound : s.linesSound)
    (still : ∀ e ∈ s.keyring, e.transit = false) (apart : s.keyring.Pairwise fun a b => sameRegion a b = false) (well : ∀ e ∈ s.keyring, e.ownedWell agent) :
    ExitPending ctx agent s [] (s.loseHolders (.exit ctx agent)) := by
  unfold State.loseHolders
  refine foldl_keeps (P := ExitPending ctx agent s) (fun e0 rest t pending => ?_) s.keyring s
    ⟨rfl, rfl, quiet, sound, fun a ha b hb same => ?_, fun e he => ⟨still e he, .inr ⟨he, e, he, sameRegion_self e⟩⟩⟩
  · split
    · next none =>
      exact pending.skip fun e he same => absurd same (List.find?_eq_none.1 none e he)
    · next e found =>
      have listed := List.mem_of_find?_eq_some found
      have same : sameRegion e e0 = true := List.find?_some (p := fun o => sameRegion o e0) found
      have rests : e.transit = false := (pending.entries e listed).1
      have kept : State.issuerFails (.exit ctx agent) e = false := by simp [State.issuerFails, rests]
      have given : ¬ (e.transit = true ∧ (Gone.exit ctx agent).has e.ctx e.issuer = true) := by simp [rests]
      simp only [kept, Bool.false_eq_true, if_false, if_neg given, found, pending.quiet, List.contains_nil, pending.not_held]
      split
      · next changes =>
        have well : e.ownedWell agent := by
          rcases (pending.entries e listed).2 with free | ⟨old, -⟩
          · rw [(exit_changes named e).2 free] at changes
            exact nomatch changes
          · exact well e old
        obtain ⟨new, row, free⟩ := exitRow_made named t changes well
        exact pending.made row same rests free
      · next free =>
        refine pending.skip fun o ho at0 => ?_
        rw [pending.unique o ho e listed (sameRegion_trans at0 (sameRegion_comm e e0 ▸ same))]
        exact (exit_changes named e).1 (Bool.not_eq_true _ ▸ free)
  · by_contra other
    have : Std.Symm fun a b => sameRegion a b = false := ⟨fun a b h => sameRegion_comm a b ▸ h⟩
    exact nomatch same.symm.trans (apart.forall ha hb other)

end Sys2Proof.Machine
end

section
/-! PROOFS. A slot that becomes FREE (R328): its lane groups go back to the core, and no other hart's claim gives it any. -/

namespace Sys2Proof.Machine

theorem lanesOf_nil_iff {s : State} {k : Nat} : s.lanesOf k = [] ↔ ∀ g < 8, (s.coreAt (k / 8)).lanes[g]? ≠ some (some (k % 8)) := by
  simp [State.lanesOf, List.filter_eq_nil_iff]

theorem freeSlot_lanes (c : Core) (k g : Nat) : (State.Core.freeSlot c k).lanes[g]? ≠ some (some (k % 8)) := by
  show (c.lanes.map fun o => if o = some (k % 8) then none else o)[g]? ≠ _
  rw [Vector.getElem?_map]
  cases c.lanes[g]? with
  | none => exact nofun
  | some o =>
    rw [Option.map_some]
    split
    · exact nofun
    · next other => exact fun same => other (Option.some.inj same)

/-- Groups given to another slot are none of this one's. -/
theorem setLanes_lanes {c : Core} {i j : Nat} (other : i ≠ j) (l : List Nat) {g : Nat} (free : c.lanes[g]? ≠ some (some j)) :
    (c.setLanes l (some i)).lanes[g]? ≠ some (some j) := by
  show (Vector.ofFn fun g : Fin 8 => if l.contains g.val then some i else c.lanes[g])[g]? ≠ _
  rw [Vector.getElem?_ofFn]
  split
  · next small =>
    dsimp only
    split
    · simpa using other
    · exact Vector.getElem?_eq_getElem small ▸ free
  · exact nofun

/-- The slot k is FREE and owns no lane group. -/
def State.slotFree (s : State) (k : Nat) : Prop := (s.hartAt k).st = .free ∧ s.lanesOf k = []

/-- New entitlements change the debts of harts alone (R323, R324). -/
theorem entitle_keeps (s : State) (n : Nat) : (s.entitle n).keyring = s.keyring ∧ (∀ k, ((s.entitle n).hartAt k).st = (s.hartAt k).st)
    ∧ ∀ m, (s.entitle n).coreAt m = s.coreAt m := by
  unfold State.entitle
  refine List.foldlRecOn (motive := fun t : State => t.keyring = s.keyring ∧ (∀ k, (t.hartAt k).st = (s.hartAt k).st) ∧ ∀ m, t.coreAt m = s.coreAt m)
    _ _ ⟨rfl, fun _ => rfl, fun _ => rfl⟩ ?_
  rintro t ⟨ring, harts, cores⟩ p -
  refine ⟨(setHart_keys ..).2.1.trans ring, fun k => ?_, fun m => (setHart_coreAt ..).trans (cores m)⟩
  rw [setHart_hartAt]
  split
  · next same => exact same ▸ harts _
  · exact harts k

theorem entitle_slotFree {s : State} {k : Nat} (free : s.slotFree k) (n : Nat) : (s.entitle n).slotFree k := by
  obtain ⟨-, harts, cores⟩ := entitle_keeps s n
  refine ⟨(harts k).trans free.1, ?_⟩
  rw [lanesOf_nil_iff, cores]
  exact lanesOf_nil_iff.1 free.2

/-- A free slot claims no lane group (R331). -/
theorem not_claims_of_free {s : State} {k : Nat} (free : (s.hartAt k).st = .free) : s.claims k = false := by
  simp [State.claims, free]

theorem handOut_slotFree {s : State} {k : Nat} (free : s.slotFree k) : (s.handOut (k / 8)).slotFree k ∧ (s.handOut (k / 8)).keyring = s.keyring := by
  unfold State.handOut
  refine List.foldlRecOn (motive := fun t : State => t.slotFree k ∧ t.keyring = s.keyring) _ _ ⟨free, rfl⟩ ?_
  rintro t ⟨⟨st, lanes⟩, ring⟩ i -
  dsimp only
  split
  · next claims =>
    have other : i ≠ k % 8 := by
      rintro rfl
      rw [Nat.div_add_mod, not_claims_of_free st] at claims
      exact nomatch claims
    refine ⟨⟨by rwa [setCore_hartAt], lanesOf_nil_iff.2 fun g small => ?_⟩, (setCore_keys ..).2.1.trans ring⟩
    rw [setCore_coreAt, if_pos rfl]
    exact setLanes_lanes other _ (lanesOf_nil_iff.1 lanes g small)
  · exact ⟨⟨st, lanes⟩, ring⟩

/-- A slot reset, with what its core kept of the hart freed. -/
def State.slotReset (s : State) (k : Nat) : State := (s.setCore (k / 8) (Core.freeSlot (s.coreAt (k / 8)) k)).setHart k Hart.reset

theorem freeHart_eq (s : State) (k : Nat) : ∃ packets early,
    s.freeHart k = (({ s.slotReset k with packets := packets, early := early } : State).entitle (k / 8)).handOut (k / 8) := ⟨_, _, rfl⟩

theorem slotReset_slotFree (s : State) (k : Nat) : (s.slotReset k).slotFree k := by
  unfold State.slotReset
  refine ⟨by rw [setHart_hartAt, if_pos rfl]; rfl, lanesOf_nil_iff.2 fun g _ => ?_⟩
  rw [setHart_coreAt, setCore_coreAt, if_pos rfl]
  exact freeSlot_lanes _ k g

theorem freeHart_slotFree (s : State) (k : Nat) : (s.freeHart k).slotFree k ∧ (s.freeHart k).keyring = s.keyring := by
  obtain ⟨packets, early, freed⟩ := freeHart_eq s k
  have reset : ({ s.slotReset k with packets := packets, early := early } : State).slotFree k := slotReset_slotFree s k
  obtain ⟨free, same⟩ := handOut_slotFree (entitle_slotFree reset (k / 8))
  rw [freed]
  exact ⟨free, same.trans ((entitle_keeps ..).1.trans ((setHart_keys ..).2.1.trans (setCore_keys ..).2.1))⟩

/-! What the end of a hart reports leaves the keyring alone. -/

theorem leaveBarrier_keyring (s : State) (k : Nat) (h : Hart) : (s.leaveBarrier k h).keyring = s.keyring := by
  have told (l : List Nat) : (l.foldl (fun t m => t.setHart m { t.hartAt m with gbexp := h.gbexp - 1 }) s).keyring = s.keyring := by
    obtain ⟨_, _, same⟩ := foldl_setHart_rest (fun o => { o with gbexp := h.gbexp - 1 }) s l
    rw [same]
  unfold State.leaveBarrier
  split
  · rfl
  · dsimp only
    split <;> exact told _

theorem sequencerAtomic_keyring {s t : State} {ctx space : BitVec 16} {off v : Nat} {op : WriteOp} (done : s.sequencerAtomic ctx space off op v = some t) :
    t.keyring = s.keyring := by
  unfold State.sequencerAtomic at done
  split at done
  · split at done
    · exact nomatch done
    · split at done
      · obtain rfl := Option.some.inj done
        rfl
      · split at done
        · exact nomatch done
        · obtain rfl := Option.some.inj done
          obtain ⟨_, _, _, _, same⟩ := homeWrite_storage s _ _
          rw [same]
  · exact nomatch done

theorem completeLaunch_keyring (s : State) (l : Launch) : (s.completeLaunch l).keyring = s.keyring := by
  have tried (t : State) (ctx space : BitVec 16) (off v : Nat) (op : WriteOp) : ((t.sequencerAtomic ctx space off op v).getD t).keyring = t.keyring := by
    cases done : t.sequencerAtomic ctx space off op v with
    | none => rfl
    | some u => exact sequencerAtomic_keyring done
  unfold State.completeLaunch
  dsimp only
  split
  · rfl
  · split <;> exact (tried ..).trans (tried ..)

theorem reportExit_keyring (s : State) (h : Hart) (code : BitVec 32) : (s.reportExit h code).keyring = s.keyring := by
  unfold State.reportExit
  split
  · rfl
  · split
    · rfl
    · dsimp only
      split
      · exact completeLaunch_keyring ..
      · rfl

/-- A hart that ends leaves its slot FREE and touches no key (R328). -/
theorem endHart_slotFree (s : State) (k : Nat) (code : BitVec 32) : (s.endHart k code).slotFree k ∧ (s.endHart k code).keyring = s.keyring := by
  obtain ⟨free, ring⟩ := freeHart_slotFree ((s.reportExit (s.hartAt k) code).leaveBarrier k (s.hartAt k)) k
  exact ⟨free, ring.trans ((leaveBarrier_keyring ..).trans (reportExit_keyring ..))⟩

end Sys2Proof.Machine
end

section
/-! PROOFS. Harts stop, run again and end (R114, R324, R326, R328, R329, R368): each event of Table 16-4, then O55. -/

namespace Sys2Proof.Machine

theorem focus_keeps (s : State) (k : Nat) : (s.focus k).cur = k ∧ (s.focus k).h = s.hartAt k ∧ (s.focus k).keyring = s.keyring
    ∧ (s.focus k).keyQueue = s.keyQueue ∧ (s.focus k).pend = s.pend := by
  obtain ⟨_, _, _, same⟩ := focus_eq s k
  rw [same]
  exact ⟨rfl, rfl, rfl, rfl, rfl⟩

/-! Heat (R368). -/

/-- What heat asks of each hart (R368), unless it is asked to stop already. -/
def Hart.heated (h : Hart) : Hart := if h.suspend then h else { h with suspend := true, heat := true }

/-- A hart that heat alone had asked to stop goes on. -/
def Hart.cooled (h : Hart) : Hart := if !h.heat then h else if h.preempt then { h with heat := false } else State.resumeHart h

theorem Hart.heated_suspend (h : Hart) : h.heated.suspend = true ∧ h.heated.st = h.st := by
  unfold Hart.heated
  split
  · next asked => exact ⟨asked, rfl⟩
  · exact ⟨rfl, rfl⟩

theorem Hart.heated_heated (h : Hart) : h.heated.heated = h.heated := if_pos h.heated_suspend.1

theorem Hart.cooled_heat (h : Hart) : h.cooled.heat = false := by
  unfold Hart.cooled
  split
  · next cold => simpa using cold
  · split <;> rfl

theorem Hart.cooled_cooled (h : Hart) : h.cooled.cooled = h.cooled := if_pos (by rw [h.cooled_heat]; rfl)

theorem Hart.cooled_of_heat {h : Hart} (hot : h.heat = true) (alone : h.preempt = false) : h.cooled = State.resumeHart h := by
  simp [Hart.cooled, hot, alone]

theorem mapHarts_rest (s : State) (f : Hart → Hart) : ∃ h harts, s.mapHarts f = { s with h := h, harts := harts } := foldl_setHart_rest f s s.placed

theorem thermalSuspend_asks (s : State) : completes (exec .thermalSuspend s) fun t =>
    t.therm = true ∧ t.throttle = true ∧ ∀ k ∈ s.placed, (t.hartAt k).suspend = true ∧ (t.hartAt k).st = (s.hartAt k).st := by
  obtain ⟨_, _, rest⟩ := mapHarts_rest { s with therm := true, throttle := true } Hart.heated
  refine ⟨({ s with therm := true, throttle := true } : State).mapHarts Hart.heated, rfl, by rw [rest], by rw [rest], fun k placed => ?_⟩
  have heated : (({ s with therm := true, throttle := true } : State).mapHarts Hart.heated).hartAt k = (s.hartAt k).heated :=
    mapHarts_hartAt Hart.heated_heated { s with therm := true, throttle := true } placed
  rw [heated]
  exact Hart.heated_suspend (s.hartAt k)

theorem thermalResume_resumes (s : State) : completes (exec .thermalResume s) fun t => t.throttle = false ∧ t.therm = s.therm ∧
    ∀ k ∈ s.placed, (s.hartAt k).heat = true → (s.hartAt k).preempt = false → (t.hartAt k).suspend = false
      ∧ ((s.hartAt k).st = .suspended → (t.hartAt k).st = .running ∧ (t.hartAt k).pc = (s.hartAt k).tpc) := by
  obtain ⟨_, _, rest⟩ := mapHarts_rest { s with throttle := false } Hart.cooled
  refine ⟨({ s with throttle := false } : State).mapHarts Hart.cooled, rfl, by rw [rest], by rw [rest], fun k placed hot alone => ?_⟩
  have cooled : (({ s with throttle := false } : State).mapHarts Hart.cooled).hartAt k = State.resumeHart (s.hartAt k) :=
    (mapHarts_hartAt Hart.cooled_cooled { s with throttle := false } placed).trans (Hart.cooled_of_heat hot alone)
  rw [cooled]
  exact ⟨rfl, fun stopped => ⟨if_pos stopped, if_pos stopped⟩⟩

/-! Stops and resumptions (R324, R326, R329). -/

theorem suspension_stopped {s : State} {hart : Nat} (asked : (s.hartAt hart).suspend = true) (hinge : (s.hartAt hart).atHinge = true) :
    completes (exec (.suspension hart) s) fun t =>
      (t.hartAt hart).st = .suspended ∧ (t.hartAt hart).tpc = (s.hartAt hart).pc ∧ (t.hartAt hart).convoy = none
        ∧ (t.hartAt hart).xu = (s.hartAt hart).xu ∧ (t.hartAt hart).v = (s.hartAt hart).v
        ∧ (t.hartAt hart).fresh = ((s.hartAt hart).fresh || match (s.hartAt hart).convoy with | some c => c.anew | none => false) := by
  refine ⟨_, suspension_stops asked hinge, ?_⟩
  obtain ⟨cur, own, -⟩ := focus_keeps s hart
  rw [hartAt_own hart (t := (s.focus hart).suspendNow) cur, ← own]
  exact ⟨rfl, rfl, rfl, rfl, rfl, rfl⟩

theorem suspension_asked {s : State} {hart : Nat} (quiet : (s.hartAt hart).suspend = false)
    (live : (s.hartAt hart).st = .running ∨ (s.hartAt hart).st = .waiting ∨ (s.hartAt hart).st = .starting) :
    completes (exec (.suspension hart) s) fun t => (∀ k ∈ s.gangWith hart, (t.hartAt k).suspend = true ∧ (t.hartAt k).st = (s.hartAt k).st)
      ∧ ∀ k, k ∉ s.gangWith hart → (t.hartAt k).suspend = (s.hartAt k).suspend := by
  refine ⟨_, suspension_asks quiet live, fun k member => ?_, fun k other => ?_⟩
  · rw [requestStop_hartAt, if_pos member]
    exact ⟨rfl, rfl⟩
  · rw [requestStop_hartAt, if_neg other]

theorem hartResume_runs {s : State} {hart : Nat} (stopped : (s.hartAt hart).st = .suspended) : completes (exec (.hartResume hart) s) fun t =>
    t.hartAt hart = { s.hartAt hart with st := .running, pc := (s.hartAt hart).tpc, suspend := false, preempt := false, heat := false } := by
  refine ⟨_, if_pos stopped, (setHart_hartAt ..).trans ?_⟩
  rw [if_pos rfl, State.resumeHart, if_pos stopped, if_pos stopped]

theorem laneDebtTimeout_asks {s : State} {hart c : Nat} (owes : (s.hartAt hart).debt = some c) (late : c + 16384 ≤ s.cycle.toNat) :
    completes (exec (.laneDebtTimeout hart) s) fun t => ∀ k ∈ s.gangWith hart, (t.hartAt k).suspend = true ∧ (t.hartAt k).preempt = true := by
  have made : exec (.laneDebtTimeout hart) s = .next (s.requestStop hart true) := by
    show execLaneDebtTimeout hart s = _
    rw [execLaneDebtTimeout, owes]
    exact if_pos late
  refine ⟨_, made, fun k member => ?_⟩
  rw [requestStop_hartAt, if_pos member]
  exact ⟨rfl, Bool.or_true _⟩

/-! Ends (R114, R328, R329). -/

/-- The transfer a hart waits for, given up (R328). -/
def State.givesUpTransfer (s : State) (h : Hart) : State :=
  match h.wait with
  | .key space base size => (match s.entryOf h.kctx space base.toNat size with | some e => s.abandon e | none => s)
  | _ => s

theorem startExit_eq (s : State) (k : Nat) (code : BitVec 32) : s.startExit k code =
    ((s.givesUpTransfer (s.hartAt k)).leaveQueue (·.ofHart k)).setHart k
      { s.hartAt k with st := .exiting, wait := .exit code, convoy := none, suspend := false } := rfl

theorem givesUpTransfer_quiet {s : State} (quiet : s.keyQueue = []) (h : Hart) :
    (s.givesUpTransfer h).keyQueue = [] ∧ ∀ k, (s.givesUpTransfer h).hartAt k = s.hartAt k := by
  unfold State.givesUpTransfer
  split
  · split
    · next e _ =>
      rw [State.abandon, settleKeys_quiet (show (s.putEntry { e with transit := false, issuer := noAgent }).keyQueue = [] from quiet)]
      exact ⟨quiet, fun _ => rfl⟩
    · exact ⟨quiet, fun _ => rfl⟩
  · exact ⟨quiet, fun _ => rfl⟩

theorem hartTerminate_starts {s : State} {hart : Nat} (live : (s.hartAt hart).st = .running ∨ (s.hartAt hart).st = .waiting ∨ (s.hartAt hart).st = .suspended) :
    exec (.hartTerminate hart) s = .next (s.startExit hart 0xFFFF_FFFF) := by
  show execHartTerminate hart s = _
  unfold execHartTerminate
  rcases live with st | st | st <;> rw [st]

theorem hartTerminate_ends {s : State} {hart : Nat} (live : (s.hartAt hart).st = .running ∨ (s.hartAt hart).st = .waiting ∨ (s.hartAt hart).st = .suspended) :
    completes (exec (.hartTerminate hart) s) fun t =>
      (t.hartAt hart).st = .exiting ∧ (t.hartAt hart).wait = .exit 0xFFFF_FFFF ∧ (t.hartAt hart).convoy = none ∧ (∀ w ∈ t.keyQueue, w.ofHart hart = false)
        ∧ (s.keyQueue = [] → ∀ k, k ≠ hart → t.hartAt k = s.hartAt k) := by
  have own : (s.startExit hart 0xFFFF_FFFF).hartAt hart = { s.hartAt hart with st := .exiting, wait := .exit 0xFFFF_FFFF, convoy := none, suspend := false } := by
    rw [startExit_eq, setHart_hartAt, if_pos rfl]
  refine ⟨_, hartTerminate_starts live, by rw [own], by rw [own], by rw [own], fun w hw => ?_, fun quiet k other => ?_⟩
  · rw [startExit_eq, (setHart_keys ..).2.2] at hw
    exact leaveQueue_gone _ _ w hw
  · obtain ⟨still, harts⟩ := givesUpTransfer_quiet quiet (s.hartAt hart)
    rw [startExit_eq, setHart_hartAt, if_neg other, leaveQueue_quiet still, harts]

/-- With no check pending an exit finishes at once (R358). -/
theorem exitCheck_quiet {u : State} (quiet : u.h.mcheck = []) (finish : State → State) : exitCheck u finish = finish u := by
  have same : ({ u with h := { u.h with mcheck := [] } } : State) = u := by rw [← quiet]
  unfold exitCheck
  rw [same, quiet]
  rfl

/-- Once nothing waits, an exit whose commands have ended sweeps what other nodes home and ends the hart (R113, R328). -/
theorem hartExitComplete_finishes {s u w : State} {hart : Nat} {code : BitVec 32} (exits : (s.hartAt hart).st = .exiting) (coded : (s.hartAt hart).wait = .exit code)
    (ended : (s.hartAt hart).cmds = []) (performed : ∀ p ∈ s.pend, p.hart ≠ hart)
    (released : u = (s.focus hart).loseHolders (.exit (s.hartAt hart).kctx (s.hartAt hart).agent)) (quiet : u.keyQueue = [])
    (swept : w = u.sweepForeign u.coreNo (s.hartAt hart).kctx (s.hartAt hart).agent) (sound : w.h.mcheck = []) (still : w.keyQueue = []) :
    exec (.hartExitComplete hart) s = .next (w.endHart hart code) := by
  obtain ⟨-, own, -, -, pend⟩ := focus_keeps s hart
  have done : ¬ ((!(s.hartAt hart).cmds.isEmpty) = true ∨ (s.pend.any fun p => p.hart == hart) = true) := by
    simpa [ended] using performed
  show execHartExitComplete hart s = _
  unfold execHartExitComplete
  simp only [own, exits, coded, pend, if_neg done, ← released, quiet, List.any_nil, Bool.false_eq_true, if_false, ← swept, exitCheck_quiet sound, still]

theorem hartExitComplete_ends {s : State} {hart : Nat} {code : BitVec 32} (exits : (s.hartAt hart).st = .exiting) (coded : (s.hartAt hart).wait = .exit code)
    (ended : (s.hartAt hart).cmds = []) (performed : ∀ p ∈ s.pend, p.hart ≠ hart) (unchecked : (s.hartAt hart).mcheck = []) (quiet : s.keyQueue = [])
    (named : (s.hartAt hart).agent ≠ noAgent) (still : ∀ e ∈ s.keyring, e.transit = false) (sound : s.linesSound)
    (apart : s.keyring.Pairwise fun a b => sameRegion a b = false) (well : ∀ e ∈ s.keyring, e.ownedWell (s.hartAt hart).agent) :
    completes (exec (.hartExitComplete hart) s) fun t => t.slotFree hart ∧ ∀ e ∈ t.keyring, e.freeOf (s.hartAt hart).kctx (s.hartAt hart).agent := by
  obtain ⟨-, own, ring, queue, -⟩ := focus_keeps s hart
  have lines : (s.focus hart).linesSound := fun n l hl => sound n l (focus_coreAt s hart n ▸ hl)
  have released := loseHolders_exit (s.hartAt hart).kctx named (queue.trans quiet) lines (ring ▸ still) (ring ▸ apart) (ring ▸ well)
  have swept := sweepForeign_caches ((s.focus hart).loseHolders (.exit (s.hartAt hart).kctx (s.hartAt hart).agent))
    ((s.focus hart).loseHolders (.exit (s.hartAt hart).kctx (s.hartAt hart).agent)).coreNo
    (s.hartAt hart).kctx (s.hartAt hart).agent
  have uncheckedStill := congrArg Hart.mcheck (((swept.sound released.sound).2.trans released.hart).trans own)
  refine ⟨_, hartExitComplete_finishes exits coded ended performed rfl released.quiet rfl (uncheckedStill.trans unchecked) (swept.keyQueue.trans released.quiet), ?_⟩
  obtain ⟨free, same⟩ := endHart_slotFree _ hart code
  refine ⟨free, fun e he => ?_⟩
  rw [same, swept.keyring] at he
  rcases (released.entries e he).2 with freed | ⟨-, _, none, -⟩
  · exact freed
  · exact nomatch none

end Sys2Proof.Machine

open Sys2Proof Sys2Proof.Machine

/-- Settles O55: each event of Table 16-4 by its lemma; an exit releases every key because each entry of the ring has had its row. -/
theorem hartsStopResumeAndEnd : Obligations.HartsStopResumeAndEnd := by
  unfold Obligations.HartsStopResumeAndEnd
  intro s hart
  refine ⟨suspension_stopped, suspension_asked, hartResume_runs, hartTerminate_ends, ?_, fun c => laneDebtTimeout_asks, thermalSuspend_asks s, thermalResume_resumes s⟩
  intro code exits coded ended performed unchecked quiet named still sound apart well
  obtain ⟨t, ends, ⟨free, lanes⟩, freed⟩ := hartExitComplete_ends exits coded ended performed unchecked quiet named still sound apart well
  exact ⟨t, ends, free, lanes, freed⟩

end

section
/-! PROOFS. Selection commands: the ticket and the command that an issue leaves, and the checks of its operands. -/

namespace Sys2Proof.Machine

/-! Results of a V-class word. -/

/-- A V-class word that writes a status and has left its hart awake but for what it writes completes with that status. -/
theorem wrV_status {s u : State} (awake : u.h = s.awake.h) (xd : XReg) (v : Word) :
    completes (u.wrV xd v) fun t => VStatusResult xd v s t ∧ t = { u with h := u.h.withScalar t.h } := by
  obtain ⟨_, retired, value, others, word, rest⟩ := wr_completes (s := s) (u := u) (by rw [awake]; exact ⟨rfl, rfl, rfl⟩)
    (by rw [awake]; exact ⟨rfl, rfl, rfl⟩) xd v
  cases retired
  have hart : (u.setX xd v).retire.h = u.h.withScalar (u.setX xd v).retire.h := congrArg State.h rest
  have marked : (u.setX xd v).retire.cv = s.cv.mark s.pos := by rw [State.cv, word.convoy]; rfl
  have placed : (u.setX xd v).pos = s.pos := by
    rw [(setX_cv u xd v).2, State.pos, State.pos, State.cv, State.cv, awake]
    rfl
  refine ⟨_, rfl, ⟨value, ⟨others.others, others.user, others.super⟩, ⟨word.pc, word.instret, ?_, word.wait⟩, ?_⟩, ?_⟩
  · rw [← marked, ← placed]; rfl
  · rw [State.retireV, hart, awake]; rfl
  · rw [State.retireV, rest]; rfl

/-! Issue of a command on a ticket (R136). -/

theorem ticket_setTicket_same (h : Hart) (n : Nat) (k : Ticket) : (h.setTicket n k).ticket n = k := Vector.getElem_set_self ..

theorem ticket_setTicket_other (h : Hart) {m n : Nat} (k : Ticket) (hm : m < 16) (hn : n < 16) (ne : m ≠ n) :
    (h.setTicket n k).ticket m = h.ticket m :=
  Vector.getElem_set_ne (Nat.mod_lt _ (by decide)) (Nat.mod_lt _ (by decide)) (by omega)

theorem freeTicket_lt {h : Hart} {n : Nat} (free : h.freeTicket = some n) : n < 16 := List.mem_range.1 (List.mem_of_find?_eq_some free)

/-- What an issue writes into the command: its number and the context of its hart (R83, R143). -/
def State.stamped (s : State) (c : Command) : Command :=
  { c with
    since := s.nextId, ctx := s.h.kctx, bypass := decide (s.h.mode = .s), bare := decide (s.h.mode = .s) && s.h.bare, ptbase := s.h.ptbase }

theorem issueCommand_issued (s : State) (c : Command) (ticket : c.ticket < 16) :
    IssuedCommand c.ticket (s.stamped c) s (s.awake.issueCommand c) where
  ticket := ticket_setTicket_same ..
  tickets _ hm ne := ticket_setTicket_other _ _ hm ticket ne
  command := rfl
  bytes := homeByte_congr rfl rfl

/-- A retiring word leaves what the issue has made. -/
theorem IssuedCommand.retired {n : Nat} {c : Command} {s u t : State} (issued : IssuedCommand n c s u) (rest : t = { u with h := u.h.withScalar t.h }) :
    IssuedCommand n c s t := by
  rw [rest]
  exact ⟨issued.ticket, issued.tickets, issued.command, issued.bytes⟩

/-- A word that issues a command completes with the command's ticket as its status. -/
theorem issueCommand_status (s : State) (c : Command) (xd : XReg) (ticket : c.ticket < 16) :
    completes ((s.awake.issueCommand c).wrV xd (BitVec.ofNat 64 c.ticket)) fun t =>
      VStatusResult xd (BitVec.ofNat 64 c.ticket) { s with h := { s.h with tickets := t.h.tickets, cmds := t.h.cmds } } t
        ∧ IssuedCommand c.ticket (s.stamped c) s t := by
  let u := s.awake.issueCommand c
  obtain ⟨t, ht, status, rest⟩ := wrV_status (s := { s with h := { s.h with tickets := u.h.tickets, cmds := u.h.cmds } }) (u := u) rfl xd
    (BitVec.ofNat 64 c.ticket)
  have tickets : t.h.tickets = u.h.tickets := by rw [rest]; rfl
  have cmds : t.h.cmds = u.h.cmds := by rw [rest]; rfl
  refine ⟨t, ht, ?_, (issueCommand_issued s c ticket).retired rest⟩
  rw [tickets, cmds]
  exact status

/-- With no ticket free the status is all that an issue leaves. -/
theorem awake_wrV (s : State) (xd : XReg) (v : Word) : completes (s.awake.wrV xd v) fun t => VStatusResult xd v s t ∧ sameBytes s t := by
  obtain ⟨t, ht, status, rest⟩ := wrV_status (u := s.awake) rfl xd v
  exact ⟨t, ht, status, by rw [rest]; exact homeByte_congr rfl rfl⟩

/-! The checks of a selection command. -/

/-- The operands of a selection command on ticket k: the predicate word and the register group (Tables 06-1, 06-2). -/
def State.selectCommand (s : State) (k : Nat) (kind : BitVec 4) (xa xb xc : XReg) (asr : BitVec 2) (imm : BitVec 20) : Command :=
  let w := s.x xb
  let g (i : Nat) : Word := s.x (xc + BitVec.ofNat 5 i)
  { Command.blank k kind with
    sspace := s.h.space asr, src := s.x xa + sext imm, dst := g 0, tag := w.extractLsb' 36 4, pred := w.extractLsb' 40 4
    count := (w.extractLsb' 0 32).toNat, limit := (g 1).toNat, opa := g 2, opb := g 3 }

/-- The operands of a selection command pass the checks of R124, R125 and R129; w is the predicate word. -/
structure State.SelectReady (s : State) (c : Command) (w : Word) : Prop where
  mode : s.h.mode ≠ .d
  zeros : w.extractLsb' 44 20 = 0 ∧ w.extractLsb' 32 4 = 0
  tag : c.tag ≠ 0
  pred : c.pred.toNat < 10
  topk : c.kind = 9 → tagWidth c.tag < 64 ∧ 1 ≤ c.limit ∧ c.limit ≤ 4096
  sel : c.kind = 8 → c.limit ≤ 65536
  space : c.sspace.toNat < 0xFF00
  srcAligned : 8 ≤ tagWidth c.tag → c.src.toNat % (tagWidth c.tag / 8) = 0
  srcExtent : c.src.toNat + c.extent ≤ 2 ^ 64
  dstAligned : c.dst.toNat % 8 = 0
  dstExtent : c.dst.toNat + 8 + 8 * (if c.kind = 10 then 0 else c.limit) ≤ 0x20_0000

/-- An element of less than a byte is aligned anywhere (R125). -/
theorem mod_elemBytes_eq_zero {n w : Nat} (aligned : 8 ≤ w → n % (w / 8) = 0) : n % max 1 (w / 8) = 0 := by
  rcases Nat.lt_or_ge w 8 with narrow | wide
  · rw [Nat.div_eq_of_lt narrow]
    exact Nat.mod_one n
  · rw [max_eq_right (by omega)]
    exact aligned wide

/-- An offset within a local store has no bit from 21 up (R125). -/
theorem storeOffset_high_eq_zero {a : Word} (within : a.toNat < 0x20_0000) : a.extractLsb' 21 43 = 0 := by
  apply BitVec.eq_of_toNat_eq
  rw [BitVec.extractLsb'_toNat, Nat.shiftRight_eq_div_pow, Nat.div_eq_of_lt within]
  rfl

theorem State.SelectReady.dst_lt {s : State} {c : Command} {w : Word} (ready : s.SelectReady c w) : c.dst.toNat < 0x20_0000 := by
  have extent := ready.dstExtent
  omega

/-- What is left of a selection command once its operands have passed the checks: a ticket, and room in every engine's queue (R130). -/
def State.issueSelection (s : State) (xd : XReg) (c : Nat → Command) : Out :=
  match s.h.freeTicket with
  | none => s.awake.wrV xd (BitVec.allOnes 64)
  | some k =>
    if (List.range 12).any fun st => decide (32 ≤ (s.engineQueue st).length) then .next (s.hold (.retry false))
    else (s.awake.issueCommand (c k)).wrV xd (BitVec.ofNat 64 k)

/-- No trap of the issue is taken: each check in its order. -/
theorem select_ready {s : State} {kind : BitVec 4} {xa xb xc : XReg} {asr : BitVec 2} {imm : BitVec 20} (xd : XReg)
    (ready : s.SelectReady (s.selectCommand 0 kind xa xb xc asr imm) (s.x xb)) :
    s.select kind xd xa xb xc asr imm = s.issueSelection xd fun k => s.selectCommand k kind xa xb xc asr imm := by
  have within := ready.dst_lt
  obtain ⟨mode, ⟨high, low⟩, tag, pred, topk, sel, space, srcAligned, srcExtent, dstAligned, dstExtent⟩ := ready
  unfold State.select State.issueSelection
  refine (if_neg mode).trans <| (if_neg ?word).trans <| (if_neg ?width).trans <| (if_neg ?limit).trans <| (if_neg (Nat.not_le.2 space)).trans <|
    (if_neg (not_not.2 (mod_elemBytes_eq_zero srcAligned))).trans <| (if_neg (Nat.not_lt.2 srcExtent)).trans <|
    (if_neg (not_not.2 dstAligned)).trans <| if_neg ?store
  case word =>
    rintro (h | h | h | h)
    · exact h high
    · exact h low
    · exact tag h
    · exact Nat.not_le.2 pred h
  case width => exact fun ⟨kind9, wide⟩ => (topk kind9).1.ne wide
  case limit =>
    rintro (⟨kind9, outside⟩ | ⟨kind8, more⟩)
    · obtain ⟨-, least, most⟩ := topk kind9
      exact outside.elim (Nat.not_lt.2 least) (Nat.not_lt.2 most)
    · exact Nat.not_lt.2 (sel kind8) more
  case store =>
    rintro (h | h)
    · exact h (storeOffset_high_eq_zero within)
    · exact Nat.not_lt.2 dstExtent h

theorem issueSelection_issues {s : State} {n : Nat} (free : s.h.freeTicket = some n) (room : ∀ st, st < 12 → (s.engineQueue st).length < 32)
    (xd : XReg) (c : Nat → Command) : s.issueSelection xd c = (s.awake.issueCommand (c n)).wrV xd (BitVec.ofNat 64 n) := by
  have notFull : ¬ ((List.range 12).any fun st => decide (32 ≤ (s.engineQueue st).length)) = true := by
    simpa using room
  rw [State.issueSelection, free]
  exact if_neg notFull

theorem issueSelection_refuses {s : State} (noTicket : s.h.freeTicket = none) (xd : XReg) (c : Nat → Command) :
    s.issueSelection xd c = s.awake.wrV xd (BitVec.allOnes 64) := by
  rw [State.issueSelection, noTicket]

end Sys2Proof.Machine

open Sys2Proof Sys2Proof.Machine

/-- Settles O44: with its operands checked (`select_ready`) each form comes to its issue, which takes the free ticket (`issueCommand_status`) or has none. -/
theorem selectionCommandsIssue : Obligations.SelectionCommandsIssue := by
  unfold Obligations.SelectionCommandsIssue
  intro s xd xa xb xc asr imm w g tag base count limit p hp mode high low htag pred topk sel space srcAligned srcExtent dstAligned dstExtent
  have runs : exec p.1 s = s.select p.2 xd xa xb xc asr imm := by
    simp only [List.mem_cons, List.not_mem_nil, or_false] at hp
    rcases hp with rfl | rfl | rfl <;> rfl
  rw [runs, select_ready xd ⟨mode, ⟨high, low⟩, htag, pred, topk, sel, space, srcAligned, srcExtent, dstAligned, dstExtent⟩]
  constructor
  · intro n free room
    rw [issueSelection_issues free room]
    exact issueCommand_status s (s.selectCommand n p.2 xa xb xc asr imm) xd (freeTicket_lt free)
  · intro noTicket
    rw [issueSelection_refuses noTicket]
    exact awake_wrV s xd _

end

section
/-! PROOFS. Tickets collected and reported by `ewait` and `estat` (R149 to R151). -/

namespace Sys2Proof.Machine

/-! Results of a V-class word that has not waited, and of one that traps after it has. -/

/-- A V-class word that writes a status completes with it, whether or not it has waited. -/
theorem wrV_result (s : State) (xd : XReg) (v : Word) : completes (s.wrV xd v) fun t => VStatusResult xd v s t ∧ t = { s with h := s.h.withScalar t.h } := by
  have banks : s.setX xd v = { s with h := { s.h with xu := (s.h.setX xd v).xu, xs := (s.h.setX xd v).xs } } := by
    rw [← Hart.setX_eq]
    rfl
  obtain ⟨others, user, super⟩ := setX_others s xd v
  refine ⟨_, rfl, ⟨(State.x_setX s xd xd v).trans (by rw [if_pos rfl]), ⟨others, user, super⟩, ?_, ?_⟩, ?_⟩ <;> rw [banks]
  · exact ⟨rfl, rfl, rfl, rfl⟩
  all_goals rfl

/-- What a V-class word leaves of its hart is said of the hart alone. -/
theorem VStatusResult.of_hart {s u t : State} {xd : XReg} {v : Word} (same : u.h = s.h) (status : VStatusResult xd v u t) : VStatusResult xd v s t := by
  obtain ⟨value, ⟨others, user, super⟩, ⟨pc, instret, convoy, wait⟩, hart⟩ := status
  unfold State.pos State.cv at convoy
  unfold State.x at others
  rw [same] at user super pc instret convoy hart
  simp only [same] at others
  exact ⟨value, ⟨others, user, super⟩, ⟨pc, instret, convoy, wait⟩, hart⟩

/-- A word that traps after it has waited traps as one that has not. -/
theorem awake_trapNow_taken {s : State} {cause : BitVec 8} (traps : s.trapsToS cause) (tval : Word) :
    TrapTaken cause tval s (s.awake.trapNow ⟨cause, tval⟩) := by
  obtain ⟨⟨mode, pc, cause, tval, tpc, ppriv, between, running⟩, word, inside, record, regs, hart, pend, keyring, bytes, sound, releases, rest⟩ :=
    trapNow_taken (s := s.awake) traps tval
  exact ⟨⟨mode, pc, cause, tval, tpc, ppriv, between, running⟩, word, inside, record, regs, hart, pend, keyring, bytes, sound, releases, rest⟩

/-! The tickets that an `ewait` names. -/

/-- The tickets named by a mask that are in a state, in ascending order. -/
def State.ticketsIn (s : State) (m : Word) (st : TicketState) : List Nat :=
  ((List.range 16).filter fun k => m.getLsbD k).filter fun k => (s.h.ticket k).state == st

theorem mem_ticketsIn {s : State} {m : Word} {st : TicketState} {k : Nat} :
    k ∈ s.ticketsIn m st ↔ k < 16 ∧ m.getLsbD k = true ∧ (s.h.ticket k).state = st := by
  simp [State.ticketsIn, and_comm]

theorem ticketsIn_sorted (s : State) (m : Word) (st : TicketState) : (s.ticketsIn m st).SortedLT :=
  List.sortedLT_iff_pairwise.2 ((List.pairwise_lt_range.filter _).filter _)

theorem ticketsIn_eq_nil {s : State} {m : Word} {st : TicketState}
    (none : ∀ k, ¬ (k < 16 ∧ m.getLsbD k = true ∧ (s.h.ticket k).state = st)) : s.ticketsIn m st = [] :=
  List.eq_nil_iff_forall_not_mem.2 fun k named => none k (mem_ticketsIn.1 named)

/-- The first ticket listed is the lowest. -/
theorem head_ticketsIn {s : State} {m : Word} {st : TicketState} {j : Nat} (named : j ∈ s.ticketsIn m st) (lowest : ∀ k, k < j → k ∉ s.ticketsIn m st) :
    (s.ticketsIn m st).head? = some j := by
  have sorted := (ticketsIn_sorted s m st).pairwise
  generalize s.ticketsIn m st = l at *
  cases l with
  | nil => cases named
  | cons a l =>
    have above := (List.pairwise_cons.1 sorted).1
    rcases List.mem_cons.1 named with rfl | later
    · rfl
    · exact absurd List.mem_cons_self (lowest a (above j later))

/-- A word with a bit set for each listed ticket. -/
theorem bit_ticketsIn {s : State} {m : Word} {st : TicketState} {k : Nat} (low : k < 64) :
    (BitVec.ofNat 64 ((s.ticketsIn m st).map fun i => 2 ^ i).sum).getLsbD k = true ↔ k ∈ s.ticketsIn m st := by
  rw [BitVec.getLsbD_ofNat, decide_eq_true low, Bool.true_and, ← Nat.mem_bitIndices, Nat.bitIndices_sum_map_two_pow (ticketsIn_sorted s m st)]

/-! Tickets freed. -/

/-- Listed tickets become FREE. -/
def Hart.freeTickets (h : Hart) (l : List Nat) : Hart := l.foldl (fun h k => h.setTicket k Ticket.empty) h

theorem freeTickets_eq (l : List Nat) : ∀ h : Hart, h.freeTickets l = { h with tickets := (h.freeTickets l).tickets } := by
  induction l with
  | nil => exact fun _ => rfl
  | cons k l ih => exact fun h => ih (h.setTicket k Ticket.empty)

theorem ticket_freeTickets {k : Nat} (low : k < 16) (l : List Nat) : ∀ h : Hart, (∀ j ∈ l, j < 16) →
    (h.freeTickets l).ticket k = if k ∈ l then Ticket.empty else h.ticket k := by
  induction l with
  | nil => exact fun _ _ => rfl
  | cons j l ih =>
    intro h within
    have first := within j List.mem_cons_self
    refine (ih (h.setTicket j Ticket.empty) fun i hi => within i (List.mem_cons_of_mem j hi)).trans ?_
    by_cases same : k = j
    · subst same
      simp [ticket_setTicket_same]
    · simp [same, ticket_setTicket_other h Ticket.empty low first same]

/-- With no cause to report, the hart returns to the first member that an `ecopyc` feeds. -/
theorem takeRest_fills {s : State} {e : Entry} (fills : s.cv.filling = some e) :
    s.takeRest none = { s with h := { s.h with pc := s.cv.hinge + 8 * BitVec.ofNat 64 e.word, wait := .none } } := by
  have found : (s.cv.entries.find? fun e => e.fill && !((none : Option Entry).any fun o => o.word == e.word)) = some e := by
    simpa [Convoy.filling] using fills
  unfold State.takeRest
  dsimp only
  rw [found]

/-! `ewait`. -/

section
variable {s : State} {xd xa : XReg} (mode : s.h.mode ≠ .d)
include mode

/-- While a named ticket is BUSY and no member of the convoy is fed by an `ecopyc`, the hart waits (R150). -/
theorem ewait_holds (patient : (s.x xa).getLsbD 16 = false) (busy : s.ticketsIn (s.x xa) .busy ≠ []) (alone : ∀ e ∈ s.cv.entries, e.fill = false) :
    exec (.ewait xd xa) s = .next { s with h := { s.h with wait := .retry false } } := by
  have none : s.cv.filling = none := List.find?_eq_none.2 fun e he => by simp [alone e he]
  refine (if_neg mode).trans ((if_pos ⟨by rw [patient]; rfl, busy⟩).trans ?_)
  rw [none]
  rfl

/-- Meanwhile a member that an `ecopyc` feeds goes on, the first of them (R148, R150). -/
theorem ewait_feeds (patient : (s.x xa).getLsbD 16 = false) (busy : s.ticketsIn (s.x xa) .busy ≠ []) {e : Entry} (fills : s.cv.filling = some e) :
    exec (.ewait xd xa) s = .next { s with h := { s.h with pc := s.cv.hinge + 8 * BitVec.ofNat 64 e.word, wait := .none } } := by
  refine (if_neg mode).trans ((if_pos ⟨by rw [patient]; rfl, busy⟩).trans ?_)
  rw [fills, takeRest_fills fills]
  rfl

/-- Once it waits no longer, the lowest FAULTED ticket traps, or the DONE ones are collected. -/
theorem ewait_collects (ready : (s.x xa).getLsbD 16 = true ∨ s.ticketsIn (s.x xa) .busy = []) :
    exec (.ewait xd xa) s = match (s.ticketsIn (s.x xa) .faulted).head? with
      | some k => .next (s.awake.trapNow ⟨0x30, BitVec.ofNat 64 k⟩)
      | none =>
        let done := s.ticketsIn (s.x xa) .done
        let freed : State := { s with h := s.h.freeTickets done }
        (if done = [] then freed else freed.dropEarly s.cur fun _ => true).awake.wrV xd (BitVec.ofNat 64 (done.map fun k => 2 ^ k).sum) := by
  refine (if_neg mode).trans ((if_neg ?_).trans rfl)
  rintro ⟨patient, busy⟩
  rcases ready with now | none
  · rw [now] at patient
    cases patient
  · exact busy none

end

/-- The collected tickets are FREE, their bits stand in xd, and no byte of memory changes. -/
theorem collected_status (s : State) (xd : XReg) (m : Word) : let done := s.ticketsIn m .done
    let freed : State := { s with h := s.h.freeTickets done }
    let r := BitVec.ofNat 64 (done.map fun k => 2 ^ k).sum
    completes ((if done = [] then freed else freed.dropEarly s.cur fun _ => true).awake.wrV xd r) fun t =>
      VStatusResult xd r { s with h := { s.h with tickets := t.h.tickets } } t ∧ sameBytes s t
        ∧ ∀ k, k < 16 → t.h.ticket k = if k ∈ done then Ticket.empty else s.h.ticket k := by
  intro done freed r
  let u := if done = [] then freed else freed.dropEarly s.cur fun _ => true
  have left : u.h = s.h.freeTickets done ∧ u.mem = s.mem ∧ u.frames = s.frames := by
    dsimp only [u]
    split <;> exact ⟨rfl, rfl, rfl⟩
  obtain ⟨hart, mem, frames⟩ := left
  obtain ⟨t, ht, status, rest⟩ := wrV_status (s := u) (u := u.awake) rfl xd r
  have tickets : t.h.tickets = (s.h.freeTickets done).tickets := by
    rw [rest, ← hart]
    rfl
  have bytes : t.mem = s.mem ∧ t.frames = s.frames := by
    rw [rest]
    exact ⟨mem, frames⟩
  refine ⟨t, ht, status.of_hart ?_, homeByte_congr bytes.1 bytes.2, fun k low => ?_⟩
  · rw [hart, tickets]
    exact freeTickets_eq done s.h
  · rw [← ticket_freeTickets low done s.h fun j named => (mem_ticketsIn.1 named).1]
    unfold Hart.ticket
    rw [tickets]

/-! `estat`. -/

theorem ticketCode_lt (st : TicketState) : st.code < 4 := by cases st <;> decide

/-- The word of a ticket, field by field (Table 07-6). -/
theorem ticketWord_fields {k : Ticket} (target : k.target < 8) (rows : k.rows < 2 ^ 32) :
    k.word.extractLsb' 62 2 = BitVec.ofNat 2 k.state.code ∧ k.word.extractLsb' 48 8 = k.cause ∧ k.word.extractLsb' 44 4 = k.kind
      ∧ k.word.extractLsb' 32 3 = BitVec.ofNat 3 k.target ∧ k.word.extractLsb' 0 32 = BitVec.ofNat 32 k.rows := by
  have code := ticketCode_lt k.state
  have cause := k.cause.isLt
  have kind := k.kind.isLt
  have small : k.state.code * 2 ^ 62 + k.cause.toNat * 2 ^ 48 + k.kind.toNat * 2 ^ 44 + k.target % 8 * 2 ^ 32 + min k.rows 0xFFFF_FFFF < 2 ^ 64 := by omega
  unfold Ticket.word
  refine ⟨BitVec.eq_of_toNat_eq ((field_ofNat small 62 2).trans ?code), BitVec.eq_of_toNat_eq ((field_ofNat small 48 8).trans ?cause),
    BitVec.eq_of_toNat_eq ((field_ofNat small 44 4).trans ?kind), BitVec.eq_of_toNat_eq ((field_ofNat small 32 3).trans ?target),
    BitVec.eq_of_toNat_eq ((field_ofNat small 0 32).trans ?rows)⟩
  case cause | kind => omega
  all_goals
    rw [BitVec.toNat_ofNat]
    omega

section
variable {s : State} {xd xa : XReg} (mode : s.h.mode ≠ .d) (named : (s.x xa).toNat < 16)
include mode named

/-- SEL 1 reports the offset of a fault. -/
theorem estat_offset : exec (.estat xd xa 1) s =
    s.wrV xd (if (s.h.ticket (s.x xa).toNat).state = .faulted then (s.h.ticket (s.x xa).toNat).offset else 0) :=
  (if_neg mode).trans ((if_neg (by omega)).trans (if_pos rfl))

/-- SEL 0 reports the ticket's word. -/
theorem estat_word : exec (.estat xd xa 0) s = s.wrV xd (s.h.ticket (s.x xa).toNat).word :=
  (if_neg mode).trans ((if_neg (by omega)).trans rfl)

/-- SEL 2 reports it too, and frees a ticket that is DONE or FAULTED. -/
theorem estat_frees : let k := (s.x xa).toNat
    completes (exec (.estat xd xa 2) s) fun t => VStatusResult xd (s.h.ticket k).word { s with h := { s.h with tickets := t.h.tickets } } t ∧ sameBytes s t
      ∧ t.h.ticket k = (if (s.h.ticket k).state = .done ∨ (s.h.ticket k).state = .faulted then Ticket.empty else s.h.ticket k)
      ∧ ∀ j, j < 16 → j ≠ k → t.h.ticket j = s.h.ticket j := by
  intro k
  let frees : Prop := (s.h.ticket k).state = .done ∨ (s.h.ticket k).state = .faulted
  let after : Hart := if frees then s.h.setTicket k Ticket.empty else s.h
  obtain ⟨u, answers, mem, frames, hart⟩ : ∃ u : State, exec (.estat xd xa 2) s = u.wrV xd (s.h.ticket k).word ∧ u.mem = s.mem ∧ u.frames = s.frames
      ∧ u.h = after := by
    refine ⟨_, (if_neg mode).trans ((if_neg (by omega)).trans rfl), ?_⟩
    refine ⟨?_, ?_, ?_⟩ <;> split <;> simp [State.dropEarly, after, frees, k]
  obtain ⟨t, ht, status, rest⟩ := wrV_result u xd (s.h.ticket k).word
  have tickets : t.h.tickets = after.tickets := by
    rw [rest, ← hart]
    rfl
  have reads (j : Nat) : t.h.ticket j = after.ticket j := by
    unfold Hart.ticket
    rw [tickets]
  have bytes : sameBytes s t := by
    rw [rest]
    exact homeByte_congr mem frames
  refine ⟨t, answers.trans ht, status.of_hart ?_, bytes, (reads k).trans ?_, fun j low other => (reads j).trans ?_⟩
  · rw [hart, tickets]
    dsimp only [after]
    split <;> rfl
  · dsimp only [after]
    split
    · exact ticket_setTicket_same ..
    · rfl
  · dsimp only [after]
    split
    · exact ticket_setTicket_other _ _ low named other
    · rfl

end

end Sys2Proof.Machine

open Sys2Proof Sys2Proof.Machine

/-- Settles O43: `ewait` collects the tickets of `ticketsIn`, traps for the first FAULTED one or waits, and `estat` reports the fields of `Ticket.word`. -/
theorem ticketReports : Obligations.TicketReports := by
  unfold Obligations.TicketReports
  intro s xd xa m in_ k code but mode
  have ready (h : m.getLsbD 16 = true ∨ ∀ k, ¬ in_ .busy k) : m.getLsbD 16 = true ∨ s.ticketsIn m .busy = [] := h.imp_right ticketsIn_eq_nil
  refine ⟨fun free sound => ?collect, fun j free faulted lowest traps => ?trap, fun patient ⟨j, busy⟩ => ?wait, fun low target rows => ?report⟩
  case collect =>
    obtain ⟨t, ht, status, bytes, tickets⟩ := collected_status s xd m
    refine ⟨t, ?_, _, status, bytes, fun k low => (bit_ticketsIn low).trans mem_ticketsIn, fun k low => ⟨fun done => ?_, fun kept => ?_⟩⟩
    · rw [ewait_collects mode (ready free), ticketsIn_eq_nil sound]
      exact ht
    · exact (tickets k low).trans (if_pos (mem_ticketsIn.2 done))
    · exact (tickets k low).trans (if_neg fun done => kept (mem_ticketsIn.1 done))
  case trap =>
    rw [ewait_collects mode (ready free), head_ticketsIn (mem_ticketsIn.2 faulted) fun k below named => lowest k below (mem_ticketsIn.1 named)]
    exact ⟨_, rfl, awake_trapNow_taken traps _⟩
  case wait =>
    have busy : s.ticketsIn m .busy ≠ [] := List.ne_nil_of_mem (mem_ticketsIn.2 busy)
    refine ⟨ewait_holds mode patient busy, fun ⟨e0, he0, fill0⟩ => ?_⟩
    obtain ⟨e, fills⟩ : ∃ e, s.cv.filling = some e := Option.isSome_iff_exists.1 (List.find?_isSome.2 ⟨e0, he0, fill0⟩)
    exact ⟨e, List.mem_of_find?_eq_some fills, List.find?_some fills, ewait_feeds mode patient busy fills⟩
  case report =>
    have fields := ticketWord_fields target rows
    have coded : code (s.h.ticket k).state = (s.h.ticket k).state.code := by cases (s.h.ticket k).state <;> rfl
    rw [← coded] at fields
    refine ⟨?word, ?offset, ?frees⟩
    case word =>
      obtain ⟨t, ht, status, rest⟩ := wrV_result s xd (s.h.ticket k).word
      exact ⟨t, (estat_word mode low).trans ht, _, status, fields, by rw [rest]; exact homeByte_congr rfl rfl⟩
    case offset =>
      obtain ⟨t, ht, status, rest⟩ := wrV_result s xd (if (s.h.ticket k).state = .faulted then (s.h.ticket k).offset else 0)
      exact ⟨t, (estat_offset mode low).trans ht, status, by rw [rest]; exact homeByte_congr rfl rfl⟩
    case frees =>
      obtain ⟨t, ht, status, bytes, tickets⟩ := estat_frees (xd := xd) mode low
      exact ⟨t, ht, _, status, fields, bytes, tickets⟩

end

section
/-! PROOFS. An `ecopy` behind a word that has still to read its completion mask: the engine does not take the command yet (R62). -/

namespace Sys2Proof.Tests
open Sys2Proof.Machine

/-- A masked `vadd` that waits for elements of v2, and an `ecopy` whose completion mask is the mask of that word. -/
def maskedAdd : Convoy :=
  { Convoy.empty 0x1000 with
    words := [.vadd 1 2 3 7 1 false 0 false, .ecopy 9 4 6 8 0 0], entries := [{ Entry.idle .stopped 0 with fill := true }] }
/-- A hart at that `ecopy`, the `ecopyc` that fills v2 on ticket 0; x6 is a control word that names m1. -/
def behindMaskedAdd : State := hart (regs copying [(6, 2 ^ 59)]) fun h =>
  { h with
    pc := 0x1008, convoy := some maskedAdd, tickets := h.tickets.set 0 ⟨.busy, 0, 1, 0, 0, 0⟩
    cmds := [{ Command.blank 0 1 with src := 0x2_0000, sstr1 := 4, vd := 2, tag := 3, count := 4 }] }

/-- The `ecopy` leaves its ticket and its mask alone, and the hart goes back to the `vadd`. -/
theorem behindMaskedAdd_returns : (match exec (.ecopy 9 4 6 8 0 0) behindMaskedAdd with | .next t => decide (t.h.pc = 0x1000) | _ => false) = true := by
  decide +kernel

end Sys2Proof.Tests

open Sys2Proof Sys2Proof.Machine Sys2Proof.Tests

/-- Refutes O42: the statement asks that no command marks the completion mask, and not that no earlier member of the convoy has still to read it. An
`ecopy` that names m1 behind a `vadd` under m1, which has stopped until an `ecopyc` fills its source, has a free ticket and passes every check, and issues
nothing: the hart goes back to the `vadd` (`behindMaskedAdd_returns`), since the command would clear the mask that the `vadd` is still to read (R62). -/
theorem not_copyCommandsIssue : ¬ Obligations.CopyCommandsIssue := by
  unfold Obligations.CopyCommandsIssue
  rintro ⟨copies, -⟩
  obtain ⟨-, within⟩ := copies behindMaskedAdd 9 4 6 8 0 0 (.ecopy 9 4 6 8 0 0, 0) List.mem_cons_self (copyReady_of (by decide +kernel))
  obtain ⟨issues, -⟩ := within (by decide +kernel) (by decide +kernel)
  obtain ⟨t, next, ⟨-, -, retired, -⟩, -⟩ := issues 1 (by decide +kernel) (by unfold State.unclaimed; decide +kernel)
  have back := behindMaskedAdd_returns
  rw [next] at back
  have stays : (0x1000 : Word) = 0x1008 + 8 := (of_decide_eq_true back).symm.trans retired.pc
  exact absurd stays (by decide)

end

section
/-! PROOFS. A merge beside a frame-indirection entry whose TO lies beyond its stack: a byte of HBM4E is read where the count word is written. -/

namespace Sys2Proof.Tests
open Sys2Proof.Machine

/-- A `qcount` that each of the twelve engines has answered with one element; its count word goes to 0x100 of the core's local store. -/
def counted : Command := scan 10 ((List.range 12).map fun k => ⟨k, 1, [], []⟩)
/-- It is about to be merged; frame 0 of stack 0 is redirected to frame 2^28, which a stack does not have: the local store of core 0 stands there. -/
def merging : State := { running counted with frames := [⟨0, 0, 2, 0, 2 ^ 28⟩] }

/-- The number of elements, in byte 4 of the count word, is what byte 0x104 of stack 0 reads as from then on. -/
theorem merging_redirected : merging.homeByte 0x104 = 0
    ∧ (match exec (.selectionMerge 0 0) merging with | .next t => decide (t.homeByte 0x104 = 12) | _ => false) = true := by decide +kernel

end Sys2Proof.Tests

open Sys2Proof Sys2Proof.Machine Sys2Proof.Tests

/-- Refutes O50: a merge is to change no byte outside the words that it writes, and the statement bounds the TO of a frame-indirection entry nowhere. An
entry that sends frame 0 of stack 0 to frame 2^28 makes byte 0x104 of that stack read byte 0x104 of core 0's local store, into which the merge writes its count word
(`merging_redirected`). The model writes a TO of 24 bits alone (Table 04-11), and the statement does not say so. -/
theorem not_commandsMakeProgress : ¬ Obligations.CommandsMakeProgress := by
  unfold Obligations.CommandsMakeProgress
  rintro ⟨-, selections⟩
  obtain ⟨-, merges, -⟩ := selections merging 0 0 0 counted (by decide +kernel)
  obtain ⟨v, next, -, -, -, -, stands⟩ := merges (by decide +kernel) (by decide +kernel) (by decide +kernel) (by decide +kernel) (by decide +kernel)
  obtain ⟨before, after⟩ := merging_redirected
  rw [next] at after
  have same : v.homeByte 0x104 = merging.homeByte 0x104 := stands 0x104 (.inl (by decide +kernel))
  rw [before, of_decide_eq_true after] at same
  exact absurd same (by decide)

end

section
/-! PROOFS. Chains whose spans do not fit their elements: an element that lies in two spans, and a span longer than the elements are. -/

namespace Sys2Proof.Tests
open Sys2Proof.Machine

/-- A hart with vl = 1 in x8 and one chain, v1, in a pool of its own. -/
def withOneChain (d : Desc) (links : List (Nat × Link)) (pool : Memory) : State :=
  let s := hart (regs (withLocal base) [(8, 1)]) fun h => h.setChain 1 d
  { s with core := { s.core with links := links, pool := pool } }

/-- One i16 element in v1 whose two bytes lie in two spans; slot 1 of the first span's spine, which the chain does not cover, lists a link of RC 2. -/
def straddling : State := withOneChain ⟨2, 1, [⟨0, 511, 1⟩, ⟨1, 0, 1⟩]⟩
  [(0, ⟨.spine, 0, 0xFE, 1, 2⟩), (1, ⟨.spine, 0, 0xFE, 1, 1⟩), (2, ⟨.data, 0, 0, 1, 0⟩), (3, ⟨.data, 0, 0, 2, 0⟩), (4, ⟨.data, 0, 0, 1, 0⟩)]
  [(0, 2), (1, 0x80), (2, 3), (3, 0x80), (512, 4), (513, 0x80)]

theorem straddling_tidy : straddling.tidy := tidy_of (by decide +kernel)
theorem straddling_apart : straddling.apart (straddling.h.chain 1) := apart_of (by decide +kernel)
theorem straddling_exclusive : straddling.exclusive (straddling.h.chain 1) = true := by decide +kernel

/-- Writing the element copies the link in slot 1, which holds none of its bytes, and charges the copy. -/
theorem straddling_vmov_charged : (match exec (.vmov 1 1 8 0 false) straddling with | .next t => decide (t.h.vused = 1) | _ => false) = true := by
  decide +kernel
theorem straddling_vscan_charged : (match exec (.vscan 1 1 8 0 false 0) straddling with | .next t => decide (t.h.vused = 1) | _ => false) = true := by
  decide +kernel

/-- A result that takes the place of v1 in `straddling` and charges a link is not what R168 says. -/
theorem straddling_not_inPlaceResult {o : Out} (charged : (match o with | .next t => decide (t.h.vused = 1) | _ => false) = true)
    {tag : Tag} {n : Nat} {val : Nat → Nat} {fl : Flags} : ¬ completes o (InPlaceResult 1 tag n val fl straddling) := by
  rintro ⟨t, rfl, result⟩
  have free : t.h.vused = 0 := result.charged.trans (by decide +kernel)
  exact absurd (free.symm.trans (of_decide_eq_true charged)) (by decide)

/-- One byte in v1, whose span is 1,024 bytes long; of the two slots that the span covers the second is empty. -/
def overlong : State := withOneChain ⟨1, 1, [⟨0, 0, 1024⟩]⟩ [(0, ⟨.spine, 0, 0xFE, 1, 1⟩), (1, ⟨.data, 0, 0, 1, 0⟩)] [(0, 1), (1, 0x80)]

/-- Every count of `overlong` is 1, and every slot but the first of its spine is empty. -/
theorem overlong_counts : overlong.rc 0 = 1 ∧ overlong.rc 1 = 1 ∧ overlong.slotList 0 = [(0, 1)] := by decide +kernel

/-- `cpriv` leaves v1 with its one span and fills no slot. -/
theorem overlong_cpriv : (match exec (.cpriv 1 1) overlong with
    | .next t => decide ((t.h.chain 1).spans = [⟨0, 0, 1024⟩] ∧ t.slotGet 0 1 = none) | _ => false) = true := by decide +kernel

end Sys2Proof.Tests

open Sys2Proof Sys2Proof.Machine Sys2Proof.Tests

/-- Refutes O20: nothing in the statement keeps an element of an exclusive chain within one span (R155). In `straddling` the rewriting of such an element
looks at the slot behind its first byte's, which the span does not cover, finds a shared link there, and copies it, so a link is charged
(`straddling_vmov_charged`). -/
theorem not_elementRowsRewriteInPlace : ¬ Obligations.ElementRowsRewriteInPlace := by
  unfold Obligations.ElementRowsRewriteInPlace
  intro rewrites
  have ready : ElementRow.Ready ⟨1, [.chain 1], anyTag, id, 8, 0, false, .first, false, one fun _ a => (a, 0), fun _ => true⟩ straddling :=
    ready_of (by decide +kernel) (by decide +kernel) (mayRun_of (by decide +kernel)) (by decide +kernel)
  obtain ⟨inPlace, -⟩ := rewrites (.vmov 1 1 8 0 false) _ straddling rfl ready ⟨rfl, rfl⟩ straddling_tidy straddling_apart
  exact straddling_not_inPlaceResult straddling_vmov_charged (inPlace straddling_exclusive)

/-- Refutes O26, with the state that refutes O20: a `vscan` of v1 over itself writes the element that lies in two spans, and so is charged a link
(`straddling_vscan_charged`). -/
theorem not_scansMakeRunningValues : ¬ Obligations.ScansMakeRunningValues := by
  unfold Obligations.ScansMakeRunningValues
  rintro ⟨-, scans⟩
  obtain ⟨⟨-, inPlace⟩, -⟩ := scans straddling 1 1 1 8 0 false 0 2 (by decide +kernel) (holds_of (by decide +kernel)) (mayRun_of (by decide +kernel)) straddling_tidy
  exact straddling_not_inPlaceResult straddling_vscan_charged ((inPlace rfl straddling_apart).1 straddling_exclusive)

/-- Refutes O32: nothing in the statement has the spans of the chain end where its elements end. In `overlong` a slot that a span covers beyond the elements
is empty; `cpriv` leaves it so (`overlong_cpriv`), and the statement asks for a data link of RC 1 in it. -/
theorem not_chainCopiesAreWholeOrNotAtAll : ¬ Obligations.ChainCopiesAreWholeOrNotAtAll := by
  unfold Obligations.ChainCopiesAreWholeOrNotAtAll
  rintro ⟨copies, -⟩
  obtain ⟨rcSpine, rcData, slots⟩ := overlong_counts
  have spans : (overlong.h.chain 1).spans = [⟨0, 0, 1024⟩] := by decide +kernel
  have counted : ∀ p ∈ (overlong.h.chain 1).spans, 0 < p.len ∧ 1 ≤ overlong.rc p.spine ∧ ∀ i l, i < 256 → overlong.slotGet p.spine i = some l → 1 ≤ overlong.rc l := by
    simp only [spans, List.mem_singleton, forall_eq]
    refine ⟨by decide, rcSpine.ge, fun i l hi listed => ?_⟩
    have mem := slot_mem hi listed
    rw [slots, List.mem_singleton, Prod.mk.injEq] at mem
    exact mem.2 ▸ rcData.ge
  obtain ⟨-, -, private_⟩ := copies overlong 1 1 (by decide +kernel) (calm_of (by decide +kernel)) (by unfold State.unclaimed; decide +kernel)
    (lowCounts_of (by decide +kernel)) (by decide +kernel) (by decide +kernel) (wellHeld_of (by decide +kernel))
  obtain ⟨t, next, -, -, -, exclusive, -⟩ := private_ rfl (by decide +kernel) (tidy_of (by decide +kernel)) (apart_of (by decide +kernel)) (counted_of (by decide +kernel))
    (room_of (by decide +kernel)) counted
  have left := overlong_cpriv
  rw [next] at left
  obtain ⟨same, empty⟩ := of_decide_eq_true left
  obtain ⟨-, filled⟩ := exclusive ⟨0, 0, 1024⟩ (by rw [same]; exact List.mem_singleton_self _)
  obtain ⟨l, listed, -⟩ := filled 1 (by decide)
  rw [empty] at listed
  cases listed

end

section
/-! PROOFS. The reclaimer (R171, R172): what it does to the header of each link that a queued spine lists. -/

namespace Sys2Proof.Machine

/-! Headers: what a link reads after each operation on the list of links. -/

theorem find?_assocSet (l : List (Nat × α)) (i j : Nat) (a : α) :
    ((assocSet l i a).find? fun p => p.1 == j).map Prod.snd = if j = i then some a else (l.find? fun p => p.1 == j).map Prod.snd := by
  induction l with
  | nil => by_cases ji : j = i <;> simp [assocSet, ji, Ne.symm]
  | cons p l ih =>
    obtain ⟨k, b⟩ := p
    unfold assocSet
    split
    · by_cases ji : j = i
      · simp [ji]
      · simp [ji, Ne.symm ji]
    · split
      · subst_vars
        by_cases ji : j = k
        · simp [ji]
        · simp [ji, Ne.symm ji]
      · by_cases jk : j = k
        · subst jk
          simp [Ne.symm ‹¬ i = j›]
        · simpa [Ne.symm jk] using ih

theorem link_setLink (s : State) (l j : Nat) (k : Link) : (s.setLink l k).link j = if j = l then some k else s.link j :=
  find?_assocSet s.core.links l j k

/-- The bytes of the links read by the pool and by the FRESH bits of their headers (R153). -/
theorem linkByte_congr {s t : State} (pool : t.core.pool = s.core.pool) {l : Nat} (fresh : (t.link l).map Link.fresh = (s.link l).map Link.fresh) (b : Nat) :
    t.linkByte l b = s.linkByte l b := by
  have rows : t.rowFresh l (b / 64) = s.rowFresh l (b / 64) := by
    unfold State.rowFresh
    cases ht : t.link l <;> cases hs : s.link l <;> simp_all
  unfold State.linkByte
  rw [rows, pool]

theorem linkBytes_congr {s t : State} {l : Nat} (same : ∀ b, t.linkByte l b = s.linkByte l b) (n : Nat) : ∀ b, t.linkBytes l b n = s.linkBytes l b n := by
  induction n with
  | zero => exact fun _ => rfl
  | succ n ih => exact fun b => congrArg₂ List.cons (same b) (ih _)

theorem slotGet_congr {s t : State} {sp : Nat} (same : ∀ b, t.linkByte sp b = s.linkByte sp b) (i : Nat) : t.slotGet sp i = s.slotGet sp i := by
  unfold State.slotGet
  rw [linkBytes_congr same]

theorem slotList_congr {s t : State} {sp : Nat} (same : ∀ b, t.linkByte sp b = s.linkByte sp b) : t.slotList sp = s.slotList sp := by
  unfold State.slotList
  simp only [slotGet_congr same]


/-! The slots that a queued spine still has to give up. -/

/-- The valid slots of a queued spine from the place on that the reclaimer has reached. -/
def State.toReclaim (s : State) (q : Reclaim) : List (Nat × Nat) := (s.slotList q.spine).filter fun e => decide (q.pos ≤ e.1)

theorem slotList_ascending (s : State) (sp : Nat) : (s.slotList sp).Pairwise fun a b => a.1 < b.1 := by
  refine List.Pairwise.filterMap _ (fun i j rising a ha b hb => ?_) List.pairwise_lt_range
  simp only [Option.map_eq_some_iff] at ha hb
  obtain ⟨_, -, rfl⟩ := ha
  obtain ⟨_, -, rfl⟩ := hb
  exact rising

theorem toReclaim_length_le (s : State) (q : Reclaim) : (s.toReclaim q).length ≤ 256 :=
  (List.length_filter_le ..).trans ((List.length_filterMap_le ..).trans (by simp))

theorem toReclaim_next {s : State} {q : Reclaim} {e : Nat × Nat} {l : List (Nat × Nat)} (pending : s.toReclaim q = e :: l) :
    s.toReclaim { q with pos := e.1 + 1 } = l := by
  have sorted : (e :: l).Pairwise fun a b => a.1 < b.1 := pending ▸ (slotList_ascending s q.spine).filter _
  have reached : q.pos ≤ e.1 := of_decide_eq_true (List.mem_filter.1 (pending ▸ List.mem_cons_self : e ∈ s.toReclaim q)).2
  have again : s.toReclaim { q with pos := e.1 + 1 } = (s.toReclaim q).filter fun o => decide (e.1 + 1 ≤ o.1) := by
    unfold State.toReclaim
    rw [List.filter_filter]
    refine List.filter_congr fun o _ => ?_
    simp only [← Bool.decide_and, decide_eq_decide]
    omega
  rw [again, pending, List.filter_cons_of_neg (by simp), List.filter_eq_self]
  exact fun o ho => decide_eq_true (List.rel_of_pairwise_cons sorted ho)

/-! One step of the reclaimer. -/

/-- A link that a slot lists no more: its count falls, and one that nothing lists is of KIND 3 (R171, Table 08-1). -/
def Link.dropped (k : Link) : Link := { k with rc := k.rc - 1, kind := if k.rc - 1 = 0 then .pending else k.kind }

theorem dropped_iterate (n : Nat) : ∀ k : Link, Link.dropped^[n + 1] k = { k with rc := k.rc - (n + 1), kind := if k.rc ≤ n + 1 then .pending else k.kind } := by
  induction n with
  | zero => intro k; simp [Link.dropped, Nat.sub_eq_zero_iff_le]
  | succ n ih =>
    intro k
    rw [Function.iterate_succ_apply', ih]
    simp only [Link.dropped, Link.mk.injEq, true_and, and_true]
    refine ⟨?_, by omega⟩
    by_cases done : k.rc ≤ n + 1
    · simp [done, show k.rc ≤ n + 1 + 1 by omega]
    · simp [done, show k.rc - (n + 1) - 1 = 0 ↔ k.rc ≤ n + 1 + 1 by omega]

/-- A link whose count a slot of the reclaimed spine no longer holds up. -/
def State.dropListed (s : State) (l : Nat) : State :=
  let s1 := s.setRc l (s.rc l - 1)
  if s1.rc l = 0 then (match s1.link l with | some k => s1.setLink l { k with kind := .pending } | none => s1) else s1

theorem dropListed_none {s : State} {l : Nat} (free : s.link l = none) : s.dropListed l = s := by
  simp [State.dropListed, State.setRc, free]

theorem dropListed_some {s : State} {l : Nat} {k : Link} (used : s.link l = some k) :
    s.dropListed l = (s.setLink l { k with rc := k.rc - 1 }) ∧ k.rc - 1 ≠ 0
      ∨ s.dropListed l = (s.setLink l { k with rc := k.rc - 1 }).setLink l { k with rc := k.rc - 1, kind := .pending } ∧ k.rc - 1 = 0 := by
  have counted : s.setRc l (s.rc l - 1) = s.setLink l { k with rc := k.rc - 1 } := by simp [State.setRc, State.rc, used]
  have left : (s.setLink l { k with rc := k.rc - 1 }).link l = some { k with rc := k.rc - 1 } := by simp [link_setLink]
  have rest : (s.setLink l { k with rc := k.rc - 1 }).rc l = k.rc - 1 := by simp [State.rc, left]
  unfold State.dropListed
  simp only [counted, rest, left]
  by_cases gone : k.rc - 1 = 0
  · exact .inr ⟨if_pos gone, gone⟩
  · exact .inl ⟨if_neg gone, gone⟩

theorem dropListed_eq (s : State) (l : Nat) : ∃ links, s.dropListed l = { s with core := { s.core with links := links } } := by
  cases used : s.link l with
  | none => exact ⟨_, dropListed_none used⟩
  | some k =>
    obtain ⟨e, -⟩ | ⟨e, -⟩ := dropListed_some used
    · exact ⟨_, e⟩
    · exact ⟨_, e⟩

theorem link_dropListed (s : State) (l j : Nat) : (s.dropListed l).link j = if j = l then (s.link j).map Link.dropped else s.link j := by
  cases used : s.link l with
  | none =>
    rw [dropListed_none used]
    by_cases jl : j = l
    · simp [jl, used]
    · simp [jl]
  | some k =>
    obtain ⟨e, left⟩ | ⟨e, left⟩ := dropListed_some used
    · by_cases jl : j = l
      · simp [e, link_setLink, jl, used, Link.dropped, left]
      · simp [e, link_setLink, jl]
    · by_cases jl : j = l
      · simp [e, link_setLink, jl, used, Link.dropped, left]
      · simp [e, link_setLink, jl]

theorem reclaimStep_slot {s : State} {q : Reclaim} {rest : List Reclaim} {e : Nat × Nat} {l : List (Nat × Nat)} (queue : s.core.reclaim = q :: rest)
    (pending : s.toReclaim q = e :: l) :
    (∃ links, s.reclaimStep = { s with core := { s.core with links := links, reclaim := { q with pos := e.1 + 1 } :: rest } })
    ∧ ∀ j, s.reclaimStep.link j = if j = e.2 then (s.link j).map Link.dropped else s.link j := by
  have found : (s.slotList q.spine).find? (fun il => decide (q.pos ≤ il.1)) = some e := by
    rw [← List.head?_filter, show List.filter _ (s.slotList q.spine) = e :: l from pending]
    rfl
  have step : s.reclaimStep = { s.dropListed e.2 with core := { (s.dropListed e.2).core with reclaim := { q with pos := e.1 + 1 } :: rest } } := by
    unfold State.reclaimStep
    rw [queue]
    dsimp only
    rw [found]
    rfl
  obtain ⟨links, changed⟩ := dropListed_eq s e.2
  exact ⟨⟨links, by rw [step, changed]⟩, fun j => by rw [step]; exact link_dropListed s e.2 j⟩

theorem reclaimStep_spine {s : State} {q : Reclaim} {rest : List Reclaim} (queue : s.core.reclaim = q :: rest) (pending : s.toReclaim q = []) :
    (∃ links, s.reclaimStep = { s with core := { s.core with links := links, reclaim := rest } })
    ∧ ∀ j, s.reclaimStep.link j = if j = q.spine then (s.link j).map fun k => { k with kind := .pending } else s.link j := by
  have found : (s.slotList q.spine).find? (fun il => decide (q.pos ≤ il.1)) = none := by
    rw [← List.head?_filter, show List.filter _ (s.slotList q.spine) = [] from pending]
    rfl
  unfold State.reclaimStep
  rw [queue]
  dsimp only
  rw [found]
  have keeps (u : State) (j : Nat) : ({ u with core := { u.core with reclaim := rest } } : State).link j = u.link j := rfl
  cases header : s.link q.spine with
  | none =>
    refine ⟨⟨_, rfl⟩, fun j => ?_⟩
    rw [keeps]
    by_cases jq : j = q.spine
    · simp [jq, header]
    · simp [jq]
  | some k =>
    refine ⟨⟨_, rfl⟩, fun j => ?_⟩
    rw [keeps, link_setLink]
    by_cases jq : j = q.spine
    · simp [jq, header]
    · simp [jq]

/-! The first queued spine, reclaimed whole. -/

/-- What `reclaimFirst` does again and again. -/
def State.reclaimWhile (sp : Nat) (t : State) : State := if (t.core.reclaim.head?.map (·.spine)) = some sp then t.reclaimStep else t

/-- A queued spine reclaimed: the links that its slots list have dropped once for each of them, and the spine is of KIND 3. -/
structure SpineReclaimed (q : Reclaim) (listed : List Nat) (rest : List Reclaim) (s t : State) : Prop where
  frame : ∃ links, t = { s with core := { s.core with links := links, reclaim := rest } }
  spine : t.link q.spine = (s.link q.spine).map fun k => { k with kind := .pending }
  others : ∀ j, j ≠ q.spine → t.link j = (s.link j).map Link.dropped^[listed.count j]

theorem reclaimWhile_others {sp : Nat} (l : List α) {t : State} (rest : ∀ r ∈ t.core.reclaim, r.spine ≠ sp) : l.foldl (fun u _ => State.reclaimWhile sp u) t = t := by
  have head : t.reclaimWhile sp = t := by
    refine if_neg fun named => ?_
    obtain ⟨r, first, same⟩ := Option.map_eq_some_iff.1 named
    exact rest r (List.mem_of_mem_head? first) same
  induction l with
  | nil => rfl
  | cons _ _ ih => rw [List.foldl_cons, head, ih]

theorem reclaimWhile_reclaims {rest : List Reclaim} (steps : List α) : ∀ {s : State} {q : Reclaim}, s.core.reclaim = q :: rest → (∀ r ∈ rest, r.spine ≠ q.spine) →
    (s.toReclaim q).length < steps.length → q.spine ∉ (s.toReclaim q).map Prod.snd →
    SpineReclaimed q ((s.toReclaim q).map Prod.snd) rest s (steps.foldl (fun u _ => State.reclaimWhile q.spine u) s) := by
  induction steps with
  | nil => exact fun _ _ few => absurd few (Nat.not_lt_zero _)
  | cons _ steps ih =>
    intro s q queue once few apart
    have goes : s.reclaimWhile q.spine = s.reclaimStep := if_pos (by rw [queue]; rfl)
    rw [List.foldl_cons, goes]
    cases pending : s.toReclaim q with
    | nil =>
      obtain ⟨⟨links, step⟩, headers⟩ := reclaimStep_spine queue pending
      rw [reclaimWhile_others steps (by rw [step]; exact once)]
      exact ⟨⟨links, step⟩, by rw [headers, if_pos rfl], fun j other => by rw [headers, if_neg other]; exact Option.map_id'.symm⟩
    | cons e l =>
      obtain ⟨⟨links, step⟩, headers⟩ := reclaimStep_slot queue pending
      rw [pending] at few apart
      obtain ⟨other, apart⟩ : q.spine ≠ e.2 ∧ q.spine ∉ l.map Prod.snd := by simpa using apart
      have stands : s.reclaimStep.link q.spine = s.link q.spine := by rw [headers, if_neg other]
      have next : s.reclaimStep.toReclaim { q with pos := e.1 + 1 } = l := by
        rw [← toReclaim_next pending]
        exact congrArg (List.filter _) (slotList_congr (linkByte_congr (by rw [step]) (by rw [stands])))
      obtain ⟨⟨links', frame⟩, spine, others⟩ := ih (s := s.reclaimStep) (q := { q with pos := e.1 + 1 }) (by rw [step]) once
        (by rw [next]; exact Nat.lt_of_succ_lt_succ few) (by rw [next]; exact apart)
      refine ⟨⟨links', frame.trans (by rw [step])⟩, spine.trans (by rw [stands]), fun j hj => (others j hj).trans ?_⟩
      rw [next, headers]
      by_cases je : j = e.2
      · subst je
        rw [if_pos rfl, List.map_cons, List.count_cons_self, Option.map_map]
        rfl
      · rw [if_neg je, List.map_cons, List.count_cons_of_ne (Ne.symm je)]

theorem reclaimFirst_reclaims {s : State} {q : Reclaim} {rest : List Reclaim} (queue : s.core.reclaim = q :: rest) (once : ∀ r ∈ rest, r.spine ≠ q.spine)
    (apart : q.spine ∉ (s.toReclaim q).map Prod.snd) : SpineReclaimed q ((s.toReclaim q).map Prod.snd) rest s s.reclaimFirst := by
  have whole : s.reclaimFirst = (List.range 257).foldl (fun u _ => State.reclaimWhile q.spine u) s := by
    unfold State.reclaimFirst
    rw [queue]
    rfl
  rw [whole]
  exact reclaimWhile_reclaims _ queue once (by rw [List.length_range]; exact Nat.lt_succ_of_le (toReclaim_length_le s q)) apart

/-! `cwait`: the hart's links of KIND 3 are free again. -/

theorem freeLinks_links (l : List (Nat × Link)) : ∀ s : State, (l.foldl (fun t p => t.freeLink p.1) s).core.links =
    s.core.links.filter fun p => decide (∀ o ∈ l, p.1 ≠ o.1) := by
  induction l with
  | nil => intro s; simp
  | cons o l ih =>
    intro s
    rw [List.foldl_cons, ih]
    show List.filter _ (assocDel s.core.links o.1) = _
    rw [assocDel, List.filter_filter]
    exact List.filter_congr fun p _ => by simp only [List.forall_mem_cons, Bool.decide_and, Bool.and_comm]

theorem mem_returnLinks {s : State} {p : Nat × Link} (h : p ∈ s.returnLinks.core.links) : p ∈ s.core.links ∧ ¬ (p.2.kind = .pending ∧ p.2.slot = s.slotNo) := by
  have kept : p ∈ (List.foldl (fun (t : State) (o : Nat × Link) => t.freeLink o.1) s
    (s.core.links.filter fun o => o.2.kind == .pending && o.2.slot == s.slotNo)).core.links := h
  rw [freeLinks_links, List.mem_filter] at kept
  obtain ⟨mem, others⟩ := kept
  refine ⟨mem, fun mine => of_decide_eq_true others p (List.mem_filter.2 ⟨mem, ?_⟩) rfl⟩
  simp [mine]

theorem returnLinks_vused (s : State) : s.returnLinks.h.vused = s.h.vused - (s.core.links.filter fun p => p.2.kind == .pending && p.2.slot == s.slotNo).length := by
  have same (l : List (Nat × Link)) : (l.foldl (fun (t : State) p => t.freeLink p.1) s).h = s.h :=
    List.foldlRecOn (motive := fun t : State => t.h = s.h) l _ rfl fun _ ht _ _ => ht
  unfold State.returnLinks
  dsimp only
  rw [same]

end Sys2Proof.Machine

open Sys2Proof Sys2Proof.Machine

/-- Settles O33: `cwait` by what `returnLinks` takes from the list of links; the reclaimer by induction on the slots that it still has to give up. -/
theorem reclaimedLinksReturn : Obligations.ReclaimedLinksReturn := by
  unfold Obligations.ReclaimedLinksReturn
  refine ⟨fun s => ⟨fun none => ?_, fun some => ?_⟩, fun s q rest => ?_⟩
  · have runs : exec .cwait s = .next s.awake.returnLinks.retireV := if_neg (by simpa using none)
    obtain ⟨n, l, returned⟩ := returnLinks_eq s.awake
    refine ⟨_, runs, ?_, ?_, returnLinks_vused s.awake, fun p hp => mem_returnLinks (s := s.awake) hp⟩
    · rw [returned]
      exact ⟨rfl, rfl, rfl, rfl⟩
    · rw [returned]
      rfl
  · exact if_pos (by simpa using some)
  · intro listed queue once apart
    have runs : exec (.reclaimSpine s.coreNo) s = .next s.reclaimFirst := by
      show Host.Outcome.next (State.reclaimFirst (s.focus (if s.coreNo = s.coreNo then s.cur else _))) = _
      rw [if_pos rfl, State.focus, if_pos rfl]
    obtain ⟨⟨links, frame⟩, spine, others⟩ := reclaimFirst_reclaims queue once apart
    refine ⟨_, runs, by rw [frame], fun k hk => by rw [spine, hk]; rfl, fun l k mem hk => ?_, fun l other unlisted => ?_, by rw [frame], by rw [frame], ?_⟩
    · obtain ⟨n, count⟩ := Nat.exists_eq_succ_of_ne_zero (List.count_pos_iff.2 mem).ne'
      rw [others l (fun e => apart (e ▸ mem)), hk, Option.map_some, count]
      show some (Link.dropped^[List.count l listed] k) = _
      rw [count, dropped_iterate]
    · have never : List.count l ((s.toReclaim q).map Prod.snd) = 0 := List.count_eq_zero.2 unlisted
      rw [others l other, never]
      exact Option.map_id'
    · rw [frame]
      exact fun _ => rfl

end

section
/-! PROOFS. Memory and the pools stay canonical (R152, R279): each operation that writes memory, a cache or a pool keeps them so, and with them each
word, each step of a unit, and the step of the device. -/

namespace Sys2Proof.Machine
set_option Elab.async false

/-! The parts of the device that are kept canonical. -/

/-- A state that differs from a tidy one in no byte of memory, no header or byte of the current core's pool and in none of the other cores is tidy. -/
theorem State.tidy.congr {s t : State} (h : s.tidy) (mem : t.mem = s.mem := by rfl) (links : t.core.links = s.core.links := by rfl)
    (pool : t.core.pool = s.core.pool := by rfl) (cores : t.cores = s.cores := by rfl) : t.tidy := by
  unfold State.tidy Core.tidy
  rw [mem, links, pool, cores]
  exact h

theorem Core.tidy_congr {c d : Core} (h : d.tidy = true) (links : c.links = d.links) (pool : c.pool = d.pool) : c.tidy = true := by
  unfold Core.tidy
  rw [links, pool]
  exact h

theorem Core.tidy_iff {c : Core} : c.tidy = true ↔ (c.links.map Prod.fst).Pairwise (· < ·) ∧ c.pool.wf = true := by
  simp [Core.tidy]

theorem State.tidy.withMem {s t : State} (h : s.tidy) (mem : t.mem.wf = true) (core : t.core = s.core := by rfl) (cores : t.cores = s.cores := by rfl) :
    t.tidy :=
  ⟨mem, by rw [core]; exact h.2.1, by rw [cores]; exact h.2.2⟩

theorem State.tidy.withCore {s t : State} (h : s.tidy) (core : t.core.tidy = true) (mem : t.mem = s.mem := by rfl) (cores : t.cores = s.cores := by rfl)
    : t.tidy :=
  ⟨by rw [mem]; exact h.1, core, by rw [cores]; exact h.2.2⟩

theorem mem_assocSet {l : List (Nat × α)} {i : Nat} {a : α} {p : Nat × α} (h : p ∈ assocSet l i a) : p = (i, a) ∨ p ∈ l := by
  induction l with
  | nil => exact .inl (List.mem_singleton.1 h)
  | cons q l ih =>
    unfold assocSet at h
    split at h
    · exact (List.mem_cons.1 h)
    · split at h
      · exact (List.mem_cons.1 h).imp_right (List.mem_cons_of_mem _)
      · obtain rfl | h := List.mem_cons.1 h
        · exact .inr List.mem_cons_self
        · exact (ih h).imp_right (List.mem_cons_of_mem _)

theorem assocGet_mem (d : α) (l : List (Nat × α)) (i : Nat) : assocGet d l i = d ∨ ∃ p ∈ l, assocGet d l i = p.2 := by
  induction l with
  | nil => exact .inl rfl
  | cons q l ih =>
    unfold assocGet
    split
    · exact .inr ⟨q, List.mem_cons_self, rfl⟩
    · exact ih.imp_right fun ⟨p, hp, e⟩ => ⟨p, List.mem_cons_of_mem _ hp, e⟩

/-- Every core of a tidy device is tidy: the current one, a listed one, one at reset. -/
theorem State.tidy.coreAt {s : State} (h : s.tidy) (n : Nat) : (s.coreAt n).tidy = true := by
  unfold State.coreAt
  split
  · exact h.2.1
  · obtain e | ⟨p, hp, e⟩ := assocGet_mem Core.reset s.cores n
    · rw [e]; rfl
    · rw [e]; exact h.2.2 p hp

theorem State.tidy.setCoreTo {s : State} (h : s.tidy) {n : Nat} {c : Core} (core : c.tidy = true) : (s.setCore n c).tidy := by
  unfold State.setCore
  split
  · exact h.withCore core
  · exact ⟨h.1, h.2.1, fun p hp => (mem_assocSet hp).elim (fun e => e ▸ core) (h.2.2 p)⟩

/-- A core replaced by one with the same links and bytes in its pool. -/
theorem State.tidy.setCore {s : State} (h : s.tidy) {n : Nat} {c : Core} (links : c.links = (s.coreAt n).links := by rfl)
    (pool : c.pool = (s.coreAt n).pool := by rfl) : (s.setCore n c).tidy :=
  h.setCoreTo (Core.tidy_congr (h.coreAt n) links pool)

theorem State.tidy.setHart {s : State} (h : s.tidy) {k : Nat} {x : Hart} : (s.setHart k x).tidy := by
  unfold State.setHart
  split <;> exact h

theorem State.tidy.focus {s : State} (h : s.tidy) {k : Nat} : (s.focus k).tidy := by
  unfold State.focus
  split
  · exact h
  · dsimp only
    split
    · exact h
    · refine ⟨h.1, h.coreAt _, fun p hp => ?_⟩
      obtain rfl | hp := mem_assocSet hp
      · exact h.2.1
      · exact h.2.2 p (List.mem_of_mem_filter hp)

theorem State.tidy.foldl {s : State} (h : s.tidy) {f : State → α → State} {l : List α} (step : ∀ (t : State) (a : α), t.tidy → (f t a).tidy) :
    (l.foldl f s).tidy :=
  List.foldlRecOn l f h fun t ht a _ => step t a ht

theorem State.tidy.mapCores {s : State} (h : s.tidy) {f : Nat → Core → Core} (same : ∀ n c, (f n c).links = c.links ∧ (f n c).pool = c.pool) :
    (s.mapCores f).tidy := by
  refine ⟨h.1, Core.tidy_congr h.2.1 (same _ _).1 (same _ _).2, fun p hp => ?_⟩
  obtain ⟨q, hq, rfl⟩ := List.mem_map.1 hp
  exact Core.tidy_congr (h.2.2 q hq) (same _ _).1 (same _ _).2

/-! Answers that carry a state. -/

/-- Whatever state a checked answer carries is tidy. -/
def Carries {ε α : Type} (r : Except ε α) (state : α → State) : Prop := ∀ a, r = .ok a → (state a).tidy

theorem Carries.ok {ε α : Type} {a : α} {state : α → State} (h : (state a).tidy) : Carries (.ok a : Except ε α) state := by
  rintro _ ⟨⟩
  exact h

theorem Carries.error {ε α : Type} {c : ε} {state : α → State} : Carries (.error c) state := nofun

theorem Carries.map {ε α β : Type} {r : Except ε α} {f : α → β} {state : β → State} (h : Carries r fun a => state (f a)) : Carries (r.map f) state := by
  cases r with
  | error c => exact .error
  | ok a => exact .ok (h a rfl)

theorem Carries.of_forall {ε α : Type} {r : Except ε α} {state : α → State} (h : ∀ a, (state a).tidy) : Carries r state := fun a _ => h a

/-- The same of an answer that may be none. -/
def CarriesSome {α : Type} (r : Option α) (state : α → State) : Prop := ∀ a, r = .some a → (state a).tidy

theorem CarriesSome.some {α : Type} {a : α} {state : α → State} (h : (state a).tidy) : CarriesSome (.some a) state := by
  rintro _ ⟨⟩
  exact h

theorem CarriesSome.none {α : Type} {state : α → State} : CarriesSome .none state := nofun

/-- An outcome with a next state has a tidy one. -/
def TidyOut (o : Out) : Prop := ∀ t, o = .next t → t.tidy

theorem State.tidy.next {t : State} (h : t.tidy) : TidyOut (.next t) := by
  rintro _ ⟨⟩
  exact h

/-! Updates of other fields. -/

section
variable {s : State} (h : s.tidy)
include h

theorem State.tidy.setX {r : XReg} {w : Word} : (s.setX r w).tidy := h
theorem State.tidy.setChain {r : VReg} {d : Desc} : (s.setChain r d).tidy := h
theorem State.tidy.setMask {r : MReg} {w : BitVec 8192} : (s.setMask r w).tidy := h
theorem State.tidy.setGang {g : Gang} : (s.setGang g).tidy := h
theorem State.tidy.cutRels {k n : Nat} : (s.cutRels k n).tidy := h
theorem State.tidy.healUnits {k n : Nat} : (s.healUnits k n).tidy := h
theorem State.tidy.dropEarly {hart : Nat} {test : Early → Bool} : (s.dropEarly hart test).tidy := h
theorem State.tidy.dropFills {hart : Nat} {node : Option (BitVec 16)} {key n : Nat} : (s.dropFills hart node key n).tidy := h
theorem State.tidy.keyFill {a : Acc} {space : BitVec 16} {off base size : Nat} {write : Bool} : (s.keyFill a space off base size write).tidy := h
theorem State.tidy.l1Touch {l : L1Line} : (s.l1Touch l).tidy := h
theorem State.tidy.dropBadLines {t : State} : (s.dropBadLines t).tidy := h
theorem State.tidy.handOffIn {pkt : Option (Nat × Nat)} {vec : Bool} {ctx space : BitVec 16} {off : Nat} {pl : Place} {op : WriteOp} {data : List Byte} :
    (s.handOffIn pkt vec ctx space off pl op data).tidy := h
theorem State.tidy.handOff {vec : Bool} {ctx space : BitVec 16} {off : Nat} {pl : Place} {op : WriteOp} {data : List Byte} :
    (s.handOff vec ctx space off pl op data).tidy := h
theorem State.tidy.retire : s.retire.tidy := h
theorem State.tidy.retireV {n : Nat} : (s.retireV n).tidy := h
theorem State.tidy.transfer {t : Word} : (s.transfer t).tidy := h
theorem State.tidy.stopAs {e : Entry} : (s.stopAs e).tidy := h
theorem State.tidy.stopV {cause : BitVec 8} {tval : Word} {vstart need : Nat} {kept : Option Desc} {seen : List Nat} {fill : Bool} :
    (s.stopV cause tval vstart need kept seen fill).tidy := h
theorem State.tidy.abandonV {tval : Word} : (s.abandonV tval).tidy := h
theorem State.tidy.hold {w : Wait} : (s.hold w).tidy := h
theorem State.tidy.awake : s.awake.tidy := h
theorem State.tidy.raise {f : Flags} : (s.raise f).tidy := h

theorem State.tidy.poisonUnitAt {k : Nat} : (s.poisonUnitAt k).tidy := by
  unfold State.poisonUnitAt
  dsimp only
  split <;> exact h

end

/-! Memory: what is performed at home, at once or later. -/

theorem State.tidy.putBytes {s : State} (h : s.tidy) {k : Nat} {bs : List Byte} : (s.putBytes k bs).tidy := by
  obtain ⟨_, _, _, _, e⟩ := putBytes_storage s k bs
  exact h.withMem (putBytes_wf bs s k h.1) (by rw [e]) (by rw [e])

theorem State.tidy.homeWrite {s : State} (h : s.tidy) {k : Nat} {bs : List Byte} : (s.homeWrite k bs).tidy := by
  obtain ⟨_, _, _, _, e⟩ := homeWrite_storage s k bs
  exact h.withMem (homeWrite_wf s k bs h.1) (by rw [e]) (by rw [e])

theorem State.tidy.lineCheck {s : State} (h : s.tidy) {n : Nat} {l : L1Line} : (s.lineCheck n l).tidy := by
  unfold State.lineCheck
  split
  · exact h.setHart
  · exact h

theorem State.tidy.writeBack {s : State} (h : s.tidy) {n : Nat} {l : L1Line} : (s.writeBack n l).tidy := by
  unfold State.writeBack
  split
  · exact h.lineCheck
  · split
    · exact h.congr
    · exact h.homeWrite

theorem State.tidy.sweepAt {s : State} (h : s.tidy) {n : Nat} {test : L1Line → Bool} {back keep : Bool} : (s.sweepAt n test back keep).tidy := by
  unfold State.sweepAt
  dsimp only
  split
  · exact (h.foldl fun _ _ ht => ht.writeBack).setCore
  · exact h.setCore

theorem State.tidy.perform {s : State} (h : s.tidy) {p : Pending} : (s.perform p).tidy := by
  unfold State.perform
  dsimp only
  split
  · split
    · exact h.sweepAt.congr
    · exact h.congr
  · split
    · exact h.sweepAt.dropFills.homeWrite
    · exact h.homeWrite

theorem State.tidy.performAt {s : State} (h : s.tidy) {k : Nat} : (s.performAt k).tidy := by
  unfold State.performAt
  split
  · exact h.perform.congr
  · exact h

theorem State.tidy.performAll {s : State} (h : s.tidy) {test : Pending → Bool} : (s.performAll test).tidy :=
  (h.foldl fun _ _ ht => ht.perform).congr

theorem State.tidy.performOwn {s : State} (h : s.tidy) {vec : Bool} {pl : Place} {space : BitVec 16} {n : Nat} : (s.performOwn vec pl space n).tidy :=
  h.performAll

theorem State.tidy.sweepL1 {s : State} (h : s.tidy) {test : L1Line → Bool} {back keep : Bool} : (s.sweepL1 test back keep).tidy := h.sweepAt

theorem State.tidy.flushLines {s : State} (h : s.tidy) {pl : Place} {space : BitVec 16} {n : Nat} : (s.flushLines pl space n).tidy := by
  unfold State.flushLines
  dsimp only
  split
  · exact h
  · split
    · exact h.sweepL1.dropEarly
    · exact h.sweepL1

theorem State.tidy.agentReadState {s : State} (h : s.tidy) {vec : Bool} {key n : Nat} : (s.agentReadState vec key n).tidy := by
  unfold State.agentReadState
  split
  · exact h
  · exact h.dropEarly

/-! Translation and scalar accesses: what they read they may keep in the caches of the core. -/

theorem State.tidy.translate {s : State} (h : s.tidy) {a : Acc} {space : BitVec 16} {off : Nat} : Carries (s.translate a space off) Prod.snd := by
  unfold State.translate
  dsimp only
  split
  · split
    · exact .ok h
    · split
      · exact .map (.of_forall fun _ => h.congr)
      · exact .ok h
  · exact .map (.of_forall fun _ => h.congr)

theorem State.tidy.keyCheck {s : State} (h : s.tidy) {a : Acc} {space : BitVec 16} {off need : Nat} :
    CarriesSome (s.keyCheck a space off need) (fun t => t) := by
  unfold State.keyCheck
  dsimp only
  split
  · exact .some h.congr
  · split
    · split
      · exact .none
      · exact .some h.keyFill
    · split
      · split
        · exact .none
        · exact .some h.keyFill
      · exact .none

theorem State.tidy.keyKeep {s : State} (h : s.tidy) {a : Acc} {space : BitVec 16} {off need : Nat} : (s.keyKeep a space off need).tidy := by
  unfold State.keyKeep
  dsimp only
  split
  · exact h.congr
  · exact h.keyFill
  · exact h.keyFill

theorem State.tidy.locateMem {s : State} (h : s.tidy) {a : Acc} {space : BitVec 16} {off : Nat} {kind : Kind} :
    Carries (s.locateMem a space off kind) Prod.snd := by
  unfold State.locateMem
  dsimp only
  split
  · split
    · exact .ok h
    · exact .error
  · split
    · exact .error
    · next s1 e =>
        have hs1 : s1.tidy := h.translate _ e
        split
        · split
          · exact .map (.of_forall fun _ => hs1)
          · exact .map (.of_forall fun _ => hs1.keyKeep)
        · split
          · exact .error
          · split
            · exact .error
            · split
              · exact .ok hs1
              · split
                · next s2 e =>
                    have hs2 : s2.tidy := hs1.keyCheck _ e
                    exact .ok hs2
                · exact .error

theorem State.tidy.locate {s : State} (h : s.tidy) {a : Acc} {space : BitVec 16} {off n : Nat} {kind : Kind} {scalar : Bool} :
    Carries (s.locate a space off n kind scalar) Prod.snd := by
  unfold State.locate
  split
  · exact .map (.of_forall fun _ => h)
  · split
    · exact .error
    · exact h.locateMem

theorem State.tidy.unitsRead {s : State} (h : s.tidy) {key n : Nat} : (s.unitsRead key n).2.tidy := by
  induction n generalizing s key with
  | zero => exact h
  | succ n ih => exact ih h.agentReadState

theorem State.tidy.l1Fill {s : State} (h : s.tidy) {space : BitVec 16} {off : Nat} {pl : Place} : (s.l1Fill space off pl).1.tidy := by
  unfold State.l1Fill
  dsimp only
  split
  · split
    · split
      · exact h.performOwn.sweepL1.congr
      · exact h.performOwn.congr
    · exact h.performOwn.congr
  · generalize units : State.unitsRead _ _ _ = r
    have hr : r.2.tidy := units ▸ h.performOwn.unitsRead
    split
    · split
      · exact hr.sweepL1.congr
      · exact hr.congr
    · exact hr.congr

theorem State.tidy.scalarRead {s : State} (h : s.tidy) {space : BitVec 16} {off n : Nat} {pl : Place} :
    Carries (s.scalarRead space off n pl) Prod.snd := by
  unfold State.scalarRead
  dsimp only
  split
  · split
    · exact .error
    · exact .ok h.performOwn
    · exact .ok h.performOwn.agentReadState
  · split
    · split
      · exact .error
      · exact .ok h.l1Touch
    · split
      · exact .error
      · exact .error
      · exact .ok h.performOwn.l1Fill

theorem State.tidy.scalarWrite {s : State} (h : s.tidy) {space : BitVec 16} {off : Nat} {pl : Place} {bs : List Byte} :
    Carries (s.scalarWrite space off pl bs) (fun t => t) := by
  unfold State.scalarWrite
  dsimp only
  split
  · exact .ok h.handOff
  · split
    · split
      · exact .error
      · exact .ok h.l1Touch.dropEarly
    · split
      · exact .ok h.handOff
      · exact .ok h.l1Fill.l1Touch.dropEarly

theorem State.tidy.scalarPlace {s : State} (h : s.tidy) {space : BitVec 16} {off n : Nat} {kind : Kind} {slice : Bool} :
    Carries (s.scalarPlace space off n kind slice) Prod.snd := by
  unfold State.scalarPlace
  dsimp only
  split
  · exact .error
  · split
    · split
      · split <;> exact .error
      · exact .error
      · split
        · exact .error
        · exact .ok h
    · split
      · exact .error
      · split
        · exact .error
        · next e =>
            have hx := h.locateMem _ e
            exact .ok hx

theorem State.tidy.scalarLoad {s : State} (h : s.tidy) {space : BitVec 16} {off n : Nat} : Carries (s.scalarLoad space off n) Prod.snd := by
  unfold State.scalarLoad
  split
  · exact .error
  · next s1 e =>
      have hs1 : s1.tidy := h.scalarPlace _ e
      split
      · exact .error
      · next s2 e =>
          have hs2 : s2.tidy := hs1.scalarRead _ e
          exact .ok hs2

theorem State.tidy.scalarStore {s : State} (h : s.tidy) {space : BitVec 16} {off : Nat} {bs : List Byte} :
    Carries (s.scalarStore space off bs) (fun t => t) := by
  unfold State.scalarStore
  split
  · exact .error
  · next s1 e =>
      have hs1 : s1.tidy := h.scalarPlace _ e
      exact hs1.scalarWrite

theorem State.tidy.fetchWordAs {s : State} (h : s.tidy) {a : Acc} {pc : Word} : Carries (s.fetchWordAs a pc) Prod.snd := by
  unfold State.fetchWordAs
  dsimp only
  split
  · exact .error
  · next s1 e =>
      have hs1 : s1.tidy := h.locateMem _ e
      split
      · exact .error
      · split
        · exact .ok hs1
        · split
          · split
            · exact .ok hs1
            · split
              · exact .ok hs1.congr
              · exact .ok hs1
          · exact .ok hs1.congr

/-! The pool: headers stay in ascending order, the bytes canonical. -/

theorem assocSet_ascending {l : List (Nat × α)} (h : (l.map Prod.fst).Pairwise (· < ·)) (i : Nat) (a : α) : ((assocSet l i a).map Prod.fst).Pairwise
    (· < ·) := by
  induction l with
  | nil => exact List.pairwise_singleton ..
  | cons p l ih =>
    obtain ⟨k, b⟩ := p
    obtain ⟨above, rest⟩ := List.pairwise_cons.1 h
    unfold assocSet
    split
    · next low => exact List.pairwise_cons.2 ⟨fun j hj => (List.mem_cons.1 hj).elim (fun e => e ▸ low) fun hj => low.trans (above j hj), h⟩
    · split
      · next same => exact same ▸ h
      · next high other =>
        refine List.pairwise_cons.2 ⟨fun j hj => ?_, ih rest⟩
        obtain ⟨q, hq, rfl⟩ := List.mem_map.1 hj
        obtain rfl | hq := mem_assocSet hq
        · exact Nat.lt_of_le_of_ne (Nat.le_of_not_lt high) (Ne.symm other)
        · exact above q.1 (List.mem_map_of_mem hq)

theorem filter_ascending {l : List (Nat × α)} (h : (l.map Prod.fst).Pairwise (· < ·)) (p : Nat × α → Bool) : ((l.filter p).map Prod.fst).Pairwise
    (· < ·) :=
  h.sublist (List.filter_sublist.map _)

section
variable {s : State} (h : s.tidy)
include h

theorem State.tidy.setLink {l : Nat} {k : Link} : (s.setLink l k).tidy := by
  obtain ⟨links, pool⟩ := Core.tidy_iff.1 h.2.1
  exact h.withCore (Core.tidy_iff.2 ⟨assocSet_ascending links l k, pool⟩)

theorem State.tidy.freeLink {l : Nat} : (s.freeLink l).tidy := by
  obtain ⟨links, pool⟩ := Core.tidy_iff.1 h.2.1
  exact h.withCore (Core.tidy_iff.2 ⟨filter_ascending links _, pool⟩)

/-- The bytes of the current core's pool replaced by canonical ones. -/
theorem State.tidy.withPool {t : State} (pool : t.core.pool.wf = true) (links : t.core.links = s.core.links := by rfl) (mem : t.mem = s.mem := by rfl)
    (cores : t.cores = s.cores := by rfl) : t.tidy :=
  h.withCore (Core.tidy_iff.2 ⟨by rw [links]; exact (Core.tidy_iff.1 h.2.1).1, pool⟩) mem cores

theorem State.tidy.pool : s.core.pool.wf = true := (Core.tidy_iff.1 h.2.1).2

end

theorem State.tidy.setRc {s : State} (h : s.tidy) {l n : Nat} : (s.setRc l n).tidy := by
  unfold State.setRc
  split
  · exact h.setLink
  · exact h

theorem State.tidy.allocLink {s : State} (h : s.tidy) {kind : LinkKind} : (s.allocLink kind).2.tidy :=
  h.setLink.congr

theorem State.tidy.openRow {s : State} (h : s.tidy) {l row : Nat} : (s.openRow l row).tidy := by
  unfold State.openRow
  split
  · split
    · exact h.setLink.withPool (memClear_wf _ _ _ h.setLink.pool)
    · exact h
  · exact h

theorem State.tidy.linkPut {s : State} (h : s.tidy) {l b : Nat} {bs : List Byte} : (s.linkPut l b bs).tidy :=
  h.openRow.withPool (memSetN_wf _ _ _ h.openRow.pool)

theorem State.tidy.slotPut {s : State} (h : s.tidy) {sp i l : Nat} : (s.slotPut sp i l).tidy := by
  unfold State.slotPut
  dsimp only
  split
  · split
    · exact h.linkPut.setLink
    · exact h.linkPut
  · exact h.linkPut

theorem State.tidy.chainPut {s : State} (h : s.tidy) {spans : List Span} {b : Nat} {bs : List Byte} : (s.chainPut spans b bs).tidy := by
  induction bs generalizing s b with
  | nil => exact h
  | cons v bs ih =>
    refine ih ?_
    split
    · exact h.linkPut
    · exact h

theorem State.tidy.putElem {s : State} (h : s.tidy) {d : Desc} {j v : Nat} : (s.putElem d j v).tidy := by
  unfold State.putElem
  dsimp only
  split <;> exact h.chainPut

theorem State.tidy.readRows {s : State} (h : s.tidy) {rows : List Nat} : (s.readRows rows).tidy := by
  unfold State.readRows
  dsimp only
  split
  · exact h.congr
  · exact h

theorem State.tidy.copyLink {s : State} (h : s.tidy) {l : Nat} : (s.copyLink l).2.tidy := by
  have copied : ((s.readRows (s.linkRows l)).allocLink .data).2.tidy := h.readRows.allocLink
  unfold State.copyLink
  dsimp only
  split
  · exact copied.setLink.withPool (memCopy_wf _ _ _ _ _ copied.setLink.pool)
  · exact copied.setRc

theorem State.tidy.copySpine {s : State} (h : s.tidy) {p : Span} : (s.copySpine p).2.tidy := by
  refine h.readRows.allocLink.foldl fun t i ht => ?_
  dsimp only
  split
  · split
    · exact ht.setRc.slotPut
    · exact ht.copyLink.slotPut
  · exact ht

theorem State.tidy.refSpan {s : State} (h : s.tidy) {p : Span} : (s.refSpan p).2.tidy := by
  unfold State.refSpan
  dsimp only
  split
  · exact h.setRc
  · exact h.copySpine.setRc

theorem State.tidy.refSpans {s : State} (h : s.tidy) {l : List Span} : (s.refSpans l).2.tidy := by
  induction l generalizing s with
  | nil => exact h
  | cons p l ih => exact ih h.refSpan

theorem State.tidy.unrefSpans {s : State} (h : s.tidy) {l : List Span} : (s.unrefSpans l).tidy :=
  h.foldl fun _ _ ht => ht.setRc

theorem State.tidy.queueSpines {s : State} (h : s.tidy) {l : List Span} : (s.queueSpines l).tidy := by
  refine h.foldl fun t p ht => ?_
  dsimp only
  split
  · split
    · exact ht.congr
    · exact ht
  · exact ht

theorem State.tidy.releaseDesc {s : State} (h : s.tidy) {d : Desc} : (s.releaseDesc d).tidy := h.unrefSpans.queueSpines

theorem State.tidy.writeDesc {s : State} (h : s.tidy) {r : VReg} {tag : Tag} {count : Nat} {spans : List Span} : (s.writeDesc r tag count spans).tidy :=
  (State.tidy.setChain h.unrefSpans.refSpans).queueSpines

theorem State.tidy.releaseReg {s : State} (h : s.tidy) {r : VReg} : (s.releaseReg r).tidy := h.setChain.releaseDesc

theorem State.tidy.privateSpines {s : State} (h : s.tidy) {l : List Span} : (s.privateSpines l).2.tidy := by
  induction l generalizing s with
  | nil => exact h
  | cons p l ih =>
    unfold State.privateSpines
    split
    · exact ih h.copySpine.setRc.setRc
    · exact ih h

theorem State.tidy.privateLink {s : State} (h : s.tidy) {sp i : Nat} : (s.privateLink sp i).tidy := by
  unfold State.privateLink
  dsimp only
  split
  · split
    · exact h.copyLink.slotPut.setRc
    · exact h
  · exact h

theorem State.tidy.newSpine {s : State} (h : s.tidy) {n : Nat} : (s.newSpine n).2.tidy :=
  h.allocLink.foldl fun _ _ ht => ht.allocLink.setRc.slotPut

theorem State.tidy.reclaimStep {s : State} (h : s.tidy) : s.reclaimStep.tidy := by
  unfold State.reclaimStep
  dsimp only
  split
  · exact h
  · split
    · split
      · split
        · exact h.setRc.setLink.congr
        · exact h.setRc.congr
      · exact h.setRc.congr
    · split
      · exact h.setLink.congr
      · exact h.congr

theorem State.tidy.reclaimFirst {s : State} (h : s.tidy) : s.reclaimFirst.tidy := by
  unfold State.reclaimFirst
  split
  · exact h
  · refine h.foldl fun t _ ht => ?_
    split
    · exact ht.reclaimStep
    · exact ht

theorem State.tidy.returnLinks {s : State} (h : s.tidy) : s.returnLinks.tidy :=
  (h.foldl fun _ _ ht => ht.freeLink).congr

theorem State.tidy.drainReclaim {s : State} (h : s.tidy) : s.drainReclaim.tidy :=
  (h.foldl fun _ _ ht => ht.reclaimFirst).returnLinks

/-! The keyring, and a hart's leave. -/

theorem State.tidy.putEntry {s : State} (h : s.tidy) {e : KeyEntry} : (s.putEntry e).tidy :=
  h.congr

theorem State.tidy.delEntry {s : State} (h : s.tidy) {e : KeyEntry} : (s.delEntry e).tidy :=
  h.congr

theorem State.tidy.sweepRegion {s : State} (h : s.tidy) {ctx space : BitVec 16} {base size : Nat} {back keep : Bool} :
    (s.sweepRegion ctx space base size back keep).tidy :=
  h.sweepL1

theorem State.tidy.dropOwnRights {s : State} (h : s.tidy) {ctx space : BitVec 16} {base size : Nat} {agent : BitVec 32} :
    (s.dropOwnRights ctx space base size agent).tidy :=
  h.congr

theorem State.tidy.dropHolder {s : State} (h : s.tidy) {ctx space : BitVec 16} {base size : Nat} {who : List (BitVec 32)} :
    (s.dropHolder ctx space base size who).tidy := by
  refine h.mapCores fun n c => ?_
  dsimp only
  split <;> exact ⟨rfl, rfl⟩

theorem State.tidy.dropShares {s : State} (h : s.tidy) {e : KeyEntry} : (s.dropShares e).tidy :=
  h.dropHolder.putEntry

theorem State.tidy.returnEntry {s : State} (h : s.tidy) {e : KeyEntry} : (s.returnEntry e).tidy := by
  unfold State.returnEntry
  split
  · exact h.putEntry
  · split
    · exact h.putEntry
    · exact h.delEntry

theorem State.tidy.removeShare {s : State} (h : s.tidy) {e : KeyEntry} {agent : BitVec 32} : (s.removeShare e agent).tidy :=
  h.putEntry

/-- The rights of a core dropped. -/
theorem State.tidy.setDropped {s : State} (h : s.tidy) {n : Nat} {ctx space : BitVec 16} {base size : Nat} {who : BitVec 32 → Bool} :
    (s.setCore n ((s.coreAt n).dropRights ctx space base size who)).tidy := h.setCore

theorem State.tidy.mapDropped {s : State} (h : s.tidy) {ctx space : BitVec 16} {base size : Nat} {who : BitVec 32 → Bool} :
    (s.mapCores fun _ c => c.dropRights ctx space base size who).tidy := h.mapCores fun _ _ => ⟨rfl, rfl⟩

theorem State.tidy.exitRow {s : State} (h : s.tidy) {ctx : BitVec 16} {agent : BitVec 32} {e : KeyEntry} : (s.exitRow ctx agent e).tidy := by
  unfold State.exitRow
  dsimp only
  split
  · exact h
  · split
    · exact (h.foldl (fun _ _ ht => ht.sweepAt.setDropped)).returnEntry
    · split
      · exact (h.dropShares.foldl (fun _ _ ht => ht.sweepAt.setDropped)).returnEntry
      · split
        · exact (h.foldl (fun _ _ ht => ht.sweepAt.setDropped)).removeShare
        · split
          · exact h.putEntry
          · exact h

theorem State.tidy.failRow {s : State} (h : s.tidy) {g : Gone} {e : KeyEntry} : (s.failRow g e).tidy := by
  unfold State.failRow
  dsimp only
  split
  · split
    · exact h.dropShares.mapDropped.putEntry
    · exact h.mapDropped.putEntry
  · split <;> exact h.putEntry

theorem State.tidy.goneRow {s : State} (h : s.tidy) {g : Gone} {e : KeyEntry} : (s.goneRow g e).tidy := by
  unfold State.goneRow
  split
  · exact h.exitRow
  · exact h.failRow
  · exact h.failRow

theorem State.tidy.settleKeysN {s : State} (h : s.tidy) {n : Nat} : (State.settleKeysN n s).tidy := by
  induction n generalizing s with
  | zero => exact h
  | succ n ih =>
    unfold State.settleKeysN
    dsimp only
    split
    · refine ih (State.tidy.foldl h.congr fun t e ht => ?_)
      split
      · split
        · exact ht.goneRow
        · exact ht
      · exact ht
    · exact h

theorem State.tidy.settleKeys {s : State} (h : s.tidy) : s.settleKeys.tidy :=
  h.settleKeysN

theorem State.tidy.leaveQueue {s : State} (h : s.tidy) {test : KeyWaiter → Bool} : (s.leaveQueue test).tidy := by
  unfold State.leaveQueue
  split
  · exact h.congr.settleKeys
  · exact h

theorem State.tidy.abandon {s : State} (h : s.tidy) {e : KeyEntry} : (s.abandon e).tidy :=
  h.putEntry.settleKeys

theorem State.tidy.failIssuer {s : State} (h : s.tidy) {g : Gone} {e : KeyEntry} : (s.failIssuer g e).tidy := by
  unfold State.failIssuer
  dsimp only
  split
  · exact h.putEntry.goneRow.settleKeys
  · exact h.putEntry.settleKeys

theorem State.tidy.loseHolders {s : State} (h : s.tidy) {g : Gone} : (s.loseHolders g).tidy := by
  refine h.foldl fun t a ht => ?_
  dsimp only
  split
  · exact ht
  · split
    · exact ht.failIssuer
    · split
      · split
        · exact ht.abandon
        · exact ht
      · split
        · split
          · exact ht.abandon
          · split
            · split
              · split
                · exact ht.abandon.congr
                · exact ht.abandon
              · exact ht.abandon.congr
            · split
              · exact ht.abandon.goneRow
              · exact ht.abandon
        · split
          · exact ht
          · split
            · split
              · split
                · exact ht.congr
                · exact ht
              · exact ht.congr
            · split
              · exact ht.goneRow
              · exact ht

theorem State.tidy.loseEntry {s : State} (h : s.tidy) {e : KeyEntry} : (s.loseEntry e).tidy := by
  unfold State.loseEntry
  dsimp only
  split
  · exact h.dropShares.mapDropped.putEntry.settleKeys
  · exact h.mapDropped.putEntry.settleKeys

theorem State.tidy.sweepForeign {s : State} (h : s.tidy) {n : Nat} {ctx : BitVec 16} {agent : BitVec 32} : (s.sweepForeign n ctx agent).tidy :=
  h.sweepAt.setCore

theorem State.tidy.sequencerAtomic {s : State} (h : s.tidy) {ctx space : BitVec 16} {off : Nat} {op : WriteOp} {v : Nat} :
    CarriesSome (s.sequencerAtomic ctx space off op v) (fun t => t) := by
  unfold State.sequencerAtomic
  split
  · split
    · exact .none
    · split
      · exact .some h.congr
      · split
        · exact .none
        · exact .some h.homeWrite
  · exact .none

theorem State.tidy.setQueue {s : State} (h : s.tidy) {q : Nat} {d : Queue} : (s.setQueue q d).tidy :=
  h.congr

theorem State.tidy.getD {s : State} (h : s.tidy) {r : Option State} (hr : CarriesSome r fun t => t) : (r.getD s).tidy := by
  cases r with
  | none => exact h
  | some t => exact hr t rfl

theorem State.tidy.completeLaunch {s : State} (h : s.tidy) {l : Launch} : (s.completeLaunch l).tidy := by
  unfold State.completeLaunch
  dsimp only
  split
  · exact h.congr
  · split
    · exact ((h.congr.getD h.congr.sequencerAtomic).getD ((h.congr.getD h.congr.sequencerAtomic).sequencerAtomic)).setQueue
    · exact (h.congr.getD h.congr.sequencerAtomic).getD ((h.congr.getD h.congr.sequencerAtomic).sequencerAtomic)

theorem State.tidy.leaveBarrier {s : State} (hs : s.tidy) {k : Nat} {h : Hart} : (s.leaveBarrier k h).tidy := by
  unfold State.leaveBarrier
  dsimp only
  split
  · exact hs
  · split
    · exact (hs.foldl (fun _ _ ht => ht.setHart)).congr
    · exact (hs.foldl (fun _ _ ht => ht.setHart)).setGang

theorem State.tidy.reportExit {s : State} (hs : s.tidy) {h : Hart} {code : BitVec 32} : (s.reportExit h code).tidy := by
  unfold State.reportExit
  dsimp only
  split
  · exact hs
  · split
    · exact hs
    · split
      · exact hs.completeLaunch
      · exact hs.congr

theorem State.tidy.entitle {s : State} (h : s.tidy) {n : Nat} : (s.entitle n).tidy :=
  h.foldl (fun _ _ ht => ht.setHart)

theorem State.tidy.handOut {s : State} (h : s.tidy) {n : Nat} : (s.handOut n).tidy := by
  refine h.foldl fun t a ht => ?_
  dsimp only
  split
  · exact ht.setCore
  · exact ht

theorem State.tidy.freeSlot {s : State} (h : s.tidy) {n k : Nat} : (s.setCore n (Core.freeSlot (s.coreAt n) k)).tidy := by
  obtain ⟨links, pool⟩ := Core.tidy_iff.1 (h.coreAt n)
  exact h.setCoreTo (Core.tidy_iff.2 ⟨filter_ascending links _, pool⟩)

theorem State.tidy.freeHart {s : State} (h : s.tidy) {k : Nat} : (s.freeHart k).tidy :=
  h.freeSlot.setHart.congr.dropEarly.entitle.handOut

theorem State.tidy.endHart {s : State} (h : s.tidy) {k : Nat} {code : BitVec 32} : (s.endHart k code).tidy :=
  h.reportExit.leaveBarrier.freeHart

theorem State.tidy.failCore {s : State} (h : s.tidy) {n : Nat} : (s.failCore n).tidy := by
  unfold State.failCore
  dsimp only
  split
  · exact h
  · exact h.setCore.leaveQueue.loseHolders.foldl (fun _ _ ht => ht.endHart)

/-! Traps, and what every meaning uses. -/

theorem State.tidy.discard {s : State} (h : s.tidy) {c : Convoy} : (s.discard c).tidy := by
  refine h.foldl fun t e ht => ?_
  split
  · exact ht.releaseDesc
  · exact ht

theorem State.tidy.discardRr {s : State} (h : s.tidy) : s.discardRr.tidy := by
  unfold State.discardRr
  dsimp only
  split
  · exact h.discard.congr
  · exact h

theorem State.tidy.copyRecord {s : State} (h : s.tidy) {c : Convoy} : (s.copyRecord c).tidy := by
  unfold State.copyRecord
  split
  · exact h.homeWrite
  · exact h

theorem State.tidy.machineCheckS {s : State} (h : s.tidy) : s.machineCheckS.tidy :=
  h.failCore

theorem State.tidy.enterS {s : State} (h : s.tidy) {cause : BitVec 8} {tval tpc : Word} {word : Nat} {incv newcv : Bool} :
    (s.enterS cause tval tpc word incv newcv).tidy :=
  h.congr

theorem State.tidy.enterInside {s : State} (h : s.tidy) {c : Convoy} : (s.enterInside c).tidy := by
  unfold State.enterInside
  dsimp only
  split
  · exact h.machineCheckS
  · exact h.copyRecord.congr.enterS

theorem State.tidy.enterHinge {s : State} (h : s.tidy) {cause : BitVec 8} {tval : Word} {newcv : Bool} : (s.enterHinge cause tval newcv).tidy := by
  unfold State.enterHinge
  split
  · exact h.machineCheckS
  · exact h.enterS

theorem State.tidy.delegate {s : State} (h : s.tidy) {c : Convoy} {need vstart : Nat} : (s.delegate c need vstart).tidy :=
  h.congr

theorem State.tidy.countChecks {s : State} (h : s.tidy) {n : Nat} : (s.countChecks n).tidy := by
  unfold State.countChecks
  dsimp only
  split
  · exact h
  · exact h.congr

theorem State.tidy.takeRest {s : State} (h : s.tidy) {own : Option Entry} : (s.takeRest own).tidy := by
  unfold State.takeRest
  dsimp only
  split
  · exact h.congr
  · split
    · exact h
    · split
      · exact h.countChecks.failCore
      · split
        · exact h.countChecks.delegate
        · exact h.countChecks.enterInside

theorem State.tidy.trapNow {s : State} (h : s.tidy) {t : Trap} : (s.trapNow t).tidy :=
  h.takeRest

theorem State.tidy.poolTrap {s : State} (h : s.tidy) {need : Nat} {tval : Word} : (s.poolTrap need tval).tidy :=
  h.takeRest

theorem State.tidy.probeTrap {s : State} (h : s.tidy) {t : Trap} : (s.probeTrap t).tidy :=
  h.takeRest

theorem State.tidy.trapDone {s : State} (h : s.tidy) {t : Trap} : (s.trapDone t).tidy :=
  h.congr.takeRest

theorem State.tidy.resume {s : State} (h : s.tidy) {c : Convoy} : (s.resume c).tidy := by
  unfold State.resume
  dsimp only
  split <;> exact h.congr

theorem State.tidy.toMode {s : State} (h : s.tidy) {m : Mode} : (s.toMode m).tidy :=
  h.congr

theorem State.tidy.returnFromTrap {s : State} (h : s.tidy) : s.returnFromTrap.tidy := by
  unfold State.returnFromTrap
  dsimp only
  split
  · split
    · exact h.toMode.trapNow
    · exact h.congr.resume
  · split
    · exact h.discardRr.toMode.trapNow
    · exact h.congr.resume
  · split
    · exact h.toMode.trapNow
    · exact h.congr
  · exact h

/-! Scalar outcomes, atomics, and the device's window. -/

theorem TidyOut.ite {c : Prop} [Decidable c] {a b : Out} (ha : TidyOut a) (hb : TidyOut b) : TidyOut (if c then a else b) := by
  split
  · exact ha
  · exact hb

theorem State.tidy.wr {s : State} (h : s.tidy) {xd : XReg} {v : Word} : TidyOut (s.wr xd v) :=
  h.setX.retire.next

theorem State.tidy.ok {s : State} (h : s.tidy) : TidyOut s.ok :=
  h.retire.next

theorem State.tidy.trap {s : State} (h : s.tidy) {cause : BitVec 8} {tval : Word} : TidyOut (s.trap cause tval) :=
  h.trapNow.next

theorem State.tidy.trapWord {s : State} (h : s.tidy) {cause : BitVec 8} : TidyOut (s.trapWord cause) :=
  h.trap

theorem State.tidy.acquire {s : State} (h : s.tidy) {scope : BitVec 3} {rels : List Rel} {at_ : Option Early} : (s.acquire scope rels at_).tidy := by
  unfold State.acquire
  dsimp only
  split
  · exact h
  · split
    · exact h.dropEarly
    · exact h.congr

theorem State.tidy.atomWrite {s : State} (h : s.tidy) {op : AtomOp} {pl : Place} {n v : Nat} {ctx : BitVec 16} {agent : BitVec 32}
    {rel : Option (BitVec 3)} : (s.atomWrite op pl n v ctx agent rel).tidy :=
  h.homeWrite.congr

theorem State.tidy.atomReady {s : State} (h : s.tidy) {space : BitVec 16} {n : Nat} {pl : Place} : (s.atomReady space n pl).tidy := by
  unfold State.atomReady
  split
  · exact h.performOwn
  · exact h.flushLines.performOwn

theorem State.tidy.atomRead {s : State} (h : s.tidy) {space : BitVec 16} {off n : Nat} {pl : Place} {sc : Bool} :
    Carries (s.atomRead space off n pl sc) (fun r => r.2.2.2) := by
  unfold State.atomRead
  dsimp only
  split
  · exact .error
  · split
    · exact .ok h.atomReady
    · split
      · exact .ok h.atomReady.dropEarly
      · exact .ok h.atomReady

theorem State.tidy.atomAt {s : State} (h : s.tidy) {op : AtomOp} {space : BitVec 16} {off n : Nat} {pl : Place} {v c : Nat} {scope ord : BitVec 3} :
    Carries (s.atomAt op space off n pl v c scope ord) Prod.snd := by
  unfold State.atomAt
  dsimp only
  split
  · exact .error
  · next s1 e =>
      have hs1 : s1.tidy := h.atomRead _ e
      split
      · split
        · exact .ok hs1.acquire
        · exact .ok hs1
      · split
        · split
          · exact .ok hs1.acquire.handOff
          · exact .ok hs1.handOff
        · split
          · exact .ok hs1.acquire.atomWrite
          · exact .ok hs1.atomWrite
      · split
        · exact .ok hs1.acquire.congr
        · exact .ok hs1.congr

theorem State.tidy.atomic {s : State} (h : s.tidy) {op : AtomOp} {xd xa : XReg} {v c : Word} {asr : BitVec 2} {scope ord : BitVec 3} {w : Bool}
    {off : BitVec 19} : TidyOut (s.atomic op xd xa v c asr scope ord w off) := by
  unfold State.atomic
  dsimp only
  split
  · exact h.trapNow.next
  · next s1 e =>
      have hs1 : s1.tidy := h.scalarPlace _ e
      split
      · exact h.hold.next
      · split
        · exact h.trapNow.next
        · next s2 e =>
            have hs2 : s2.tidy := hs1.atomAt _ e
            exact hs2.ok.ite hs2.wr

theorem State.tidy.branch {s : State} (h : s.tidy) {off : BitVec 40} {taken : Bool} : TidyOut (branch s off taken) :=
  h.transfer.next.ite h.ok

theorem State.tidy.frameWrite {s : State} (h : s.tidy) {stack index : Nat} {v : Word} : (s.frameWrite stack index v).tidy := by
  unfold State.frameWrite
  dsimp only
  split
  · exact h
  · split
    · split
      · exact h.congr
      · exact h
    · exact h.congr

theorem State.tidy.frameEnd {s : State} (h : s.tidy) {stack index : Nat} : (s.frameEnd stack index).tidy := by
  unfold State.frameEnd
  split
  · exact h
  · exact h.withMem (memCopy_wf _ _ _ _ _ h.1)

theorem State.tidy.setHolder {s : State} (h : s.tidy) {holder offer : BitVec 16} : (s.setHolder holder offer).tidy :=
  h.congr

theorem State.tidy.seatClaim {s : State} (h : s.tidy) {node : BitVec 16} : (s.seatClaim node).tidy := by
  unfold State.seatClaim
  split
  · exact h.setHolder
  · exact h

theorem State.tidy.seatOffer {s : State} (h : s.tidy) {node target : BitVec 16} : (s.seatOffer node target).tidy := by
  unfold State.seatOffer
  dsimp only
  split
  · exact h.congr
  · exact h

theorem State.tidy.seatAccept {s : State} (h : s.tidy) {node : BitVec 16} : (s.seatAccept node).tidy := by
  unfold State.seatAccept
  split
  · exact h.setHolder
  · exact h

theorem State.tidy.seatRelease {s : State} (h : s.tidy) {node : BitVec 16} : (s.seatRelease node).tidy := by
  unfold State.seatRelease
  split
  · exact h.setHolder
  · exact h

theorem State.tidy.seatClear {s : State} (h : s.tidy) : s.seatClear.tidy :=
  h.setHolder

theorem State.tidy.seatWrite {s : State} (h : s.tidy) {who : Who} {v : Word} : (s.seatWrite who v).tidy := by
  unfold State.seatWrite
  generalize (v.extractLsb' 0 3).toNat = op
  cases who with
  | guesk => exact h
  | host n =>
    match op with
    | 1 => exact h.seatClaim
    | 2 => exact h.seatOffer
    | 3 => exact h.seatAccept
    | 4 => exact h.seatRelease
    | 0 | _ + 5 => exact h
  | smbus =>
    match op with
    | 5 => exact h.setHolder
    | 0 | 1 | 2 | 3 | 4 | _ + 6 => exact h

theorem State.tidy.snapTrigger {s : State} (h : s.tidy) : s.snapTrigger.tidy := by
  unfold State.snapTrigger
  split <;> exact h.congr

theorem State.tidy.count {s : State} (h : s.tidy) {unit : Nat} : (s.count unit).tidy :=
  h.congr

theorem State.tidy.powerWrite {s : State} (h : s.tidy) {v clear : Word} : (s.powerWrite v clear).tidy :=
  h.congr

theorem State.tidy.attest {s : State} (h : s.tidy) {n : Word} : (s.attest n).tidy := by
  unfold State.attest
  dsimp only
  split <;> exact h.congr

theorem State.tidy.windowWrite {s : State} (h : s.tidy) {who : Who} {off : Nat} {v clear : Word} : (s.windowWrite who off v clear).tidy := by
  unfold State.windowWrite
  dsimp only
  split
  · exact h.seatWrite
  · split
    · split
      · split
        · exact h
        · exact h.setQueue
      · split
        · exact h.setQueue
        · exact h
    · split
      · split
        · exact h.frameWrite
        · exact h
      · split
        · split
          · split
            · split
              · exact h.setHart
              · exact h
            · exact h.congr
          · exact h
        · split
          · split
            · split
              · exact h.congr
              · exact h
            · exact h
          · split
            · split
              · exact h.powerWrite
              · exact h
            · split
              · split
                · exact h.attest
                · exact h
              · exact h

theorem State.tidy.reply {s : State} (h : s.tidy) {agent : BitVec 32} {cause : BitVec 8} {off : Nat} {data : List Byte} :
    (s.reply agent cause off data).tidy :=
  h.congr

theorem State.tidy.outsideRead {s : State} (h : s.tidy) {who : Who} {off : Nat} : (s.outsideRead who off).tidy := by
  unfold State.outsideRead
  dsimp only
  split
  · exact h
  · exact h.reply
  · exact h.reply

theorem State.tidy.outsideWrite {s : State} (h : s.tidy) {who : Who} {off : Nat} {v clear : Word} : (s.outsideWrite who off v clear).tidy := by
  unfold State.outsideWrite
  dsimp only
  split
  · exact h
  · split
    · exact h.windowWrite
    · exact h.windowWrite.reply
    · exact h.windowWrite.reply

/-! Vector words. -/

theorem State.tidy.whenFree {s : State} (h : s.tidy) {chains : List VReg} {masks : List MReg} {go : State → Out} (hgo : ∀ u, u.tidy → TidyOut (go u)) :
    TidyOut (s.whenFree chains masks go) := by
  obtain ⟨-, e⟩ | ⟨-, e⟩ := whenFree_cases s chains masks go
  · exact e ▸ hgo _ h.awake
  · exact e ▸ h.hold.next

theorem State.tidy.waitWhole {s : State} (h : s.tidy) : TidyOut s.waitWhole :=
  h.stopAs.next

theorem State.tidy.orTrap {s : State} (h : s.tidy) {c : Except Trap α} {go : α → Out} (hgo : ∀ a, TidyOut (go a)) : TidyOut (s.orTrap c go) := by
  obtain ⟨a, -, e⟩ | ⟨t, -, e⟩ := orTrap_cases s c go
  · exact e ▸ hgo a
  · exact e ▸ h.waitWhole.ite h.trapNow.next

theorem State.tidy.fits {s t : State} (h : t.tidy) : Carries (s.fits t) fun u => u := by
  unfold State.fits
  split
  · exact .ok h
  · exact .error

/-- A new link with its count. -/
theorem State.tidy.setAlloc {s : State} (h : s.tidy) {kind : LinkKind} {n : Nat} : ((s.allocLink kind).2.setRc (s.allocLink kind).1 n).tidy :=
    h.allocLink.setRc

theorem State.tidy.extend {s : State} (h : s.tidy) {vd : VReg} : Carries (s.extend vd) (fun t => t) := by
  unfold State.extend
  dsimp only
  split
  · exact h.setAlloc.setAlloc.slotPut.setChain.fits
  · split
    · exact .ok h.setChain
    · exact h.setAlloc.slotPut.setChain.fits

theorem State.tidy.append {s : State} (h : s.tidy) {vd : VReg} {v : Nat} : Carries (s.append vd v) (fun t => t) :=
  .map fun t e => (h.extend t e).putElem

theorem State.tidy.rewrite {s : State} (h : s.tidy) {vd : VReg} {j v : Nat} : Carries (s.rewrite vd j v) (fun t => t) := by
  unfold State.rewrite
  dsimp only
  split
  · exact .map fun t e => (h.privateLink.privateLink.fits t e).putElem
  · exact .ok h

theorem State.tidy.of_fst {r : State × α} {t : State} {a : α} (h : r.1.tidy) (e : r = (t, a)) : t.tidy := by
  subst e
  exact h

theorem State.tidy.ownSpans {s : State} (h : s.tidy) {vd : VReg} {before l : List Span} : (s.ownSpans vd before l).1.tidy := by
  induction l generalizing s before with
  | nil => exact h
  | cons p rest ih =>
    unfold State.ownSpans
    dsimp only
    split
    · split
      · next t e =>
          have ht : t.tidy := h.copySpine.setRc.setRc.setChain.fits _ e
          exact ih ht
      · exact h
    · exact ih h

theorem State.tidy.openDest {s : State} (h : s.tidy) {vd : VReg} {tag : Tag} {inPlace keep : Bool} : (s.openDest vd tag inPlace keep).1.tidy := by
  unfold State.openDest
  split
  · exact h.ownSpans
  · split
    · exact h
    · split
      · exact h.setChain
      · exact h.releaseReg.setChain

theorem State.tidy.closeDest {s : State} (h : s.tidy) {vd : VReg} {tag : Tag} {n : Nat} {inPlace : Bool} {kept : Option Desc} :
    (s.closeDest vd tag n inPlace kept).tidy := by
  unfold State.closeDest
  dsimp only
  split
  · split
    · exact h.writeDesc
    · exact h.setChain
  · split
    · exact h.releaseDesc
    · exact h

theorem State.tidy.chooseStar {s : State} (h : s.tidy) {act : List Nat} : (s.chooseStar act).1.tidy := by
  unfold State.chooseStar
  dsimp only
  split
  · exact h
  · exact h.congr

theorem State.tidy.testStar {s : State} (h : s.tidy) {j per : Nat} : (s.testStar j per).1.tidy := by
  unfold State.testStar
  dsimp only
  split
  · exact h.congr
  · exact h.congr.count
  · exact h.congr

theorem State.tidy.recheck {s : State} (h : s.tidy) {act : List Nat} {v0 done per : Nat} : (s.recheck act v0 done per).1.tidy := by
  unfold State.recheck
  have hc := h.chooseStar (act := act.filter fun j => decide (v0 ≤ j ∧ j < done))
  revert hc
  generalize s.chooseStar (act.filter fun j => decide (v0 ≤ j ∧ j < done)) = r
  intro hc
  obtain ⟨t, _ | j⟩ := r
  · exact hc
  · exact State.tidy.testStar hc

theorem State.tidy.put {s : State} (h : s.tidy) {c : Job} {j : Nat} {e : Emit} : Carries (c.put s j e) fun t => t := by
  unfold Job.put
  split
  · split
    · exact h.rewrite
    · exact .ok h
  · split
    · exact h.extend
    · exact h.append

theorem State.tidy.run {s : State} (h : s.tidy) {c : Job} {j k : Nat} : (c.run s j k).s.tidy := by
  induction k generalizing s j with
  | zero => exact h
  | succ k ih =>
    unfold Job.run
    dsimp only
    split
    · exact h
    · next t e =>
        have ht : t.tidy := h.put _ e
        exact ih ht.raise

theorem State.tidy.produce {s : State} (h : s.tidy) {c : Job} (hafter : ∀ t, t.tidy → (c.after t).tidy) : TidyOut (s.produce c) := by
  unfold State.produce
  extract_lets v0 goes stop act kept halt
  have ho := h.openDest (vd := c.vd) (tag := c.tag) (inPlace := c.inPlace) (keep := c.keep)
  split
  · next e => exact (ho.of_fst e).stopAs.next
  · next t e =>
    have ht := ho.of_fst e
    extract_lets r chk
    have hchk : chk.1.tidy := ht.run.recheck
    split
    · exact ht.recheck.run.stopAs.next
    · exact hchk.stopAs.next
    · exact .ite (hafter _ hchk.closeDest).retireV.next hchk.stopAs.next

theorem State.tidy.elementwise {s : State} (h : s.tidy) {vd : VReg} {ops : List Operand} {accept : Tag → Bool} {rtag : Tag → Tag} {xl : XReg}
    {msk : MReg} {z : Bool} {fill : Fill} {checked : Bool} {extra : Tag → Except Trap Unit} {f : Tag → List Nat → Nat × Flags} : TidyOut (s.elementwise vd ops accept rtag xl msk z fill checked extra f) := by
  refine h.orTrap fun _ => h.whenFree fun u hu => ?_
  exact hu.produce (fun _ ht => ht)

theorem State.tidy.writeMaskBits {s : State} (h : s.tidy) {md : MReg} {vl v0 stop : Nat} {res : Nat → Bool} : (s.writeMaskBits md vl v0 stop res).tidy :=
  h.setMask

theorem State.tidy.produceMask {s : State} (h : s.tidy) {md msk : MReg} {z : Bool} {vl limit per : Nat} {checked : Bool} {bit : Nat → Bool × Flags} :
    TidyOut (s.produceMask md msk z vl limit per checked bit) := by
  unfold State.produceMask
  extract_lets v0 goes stop chk last old res fl t halt
  have ht : t.tidy := h.recheck.writeMaskBits.raise
  split
  · exact ht.stopAs.next
  · exact .ite ht.retireV.next ht.stopAs.next

theorem State.tidy.arith2 {s : State} (h : s.tidy) {vd va : VReg} {vb : VReg} {xl : XReg} {msk : MReg} {z sc : Bool} {accept : Tag → Bool}
    {f : Tag → Nat → Nat → Nat × Flags} : TidyOut (s.arith2 vd va vb xl msk z sc accept f) :=
  h.elementwise

theorem State.tidy.arith1 {s : State} (h : s.tidy) {vd va : VReg} {xl : XReg} {msk : MReg} {z : Bool} {accept : Tag → Bool}
    {f : Tag → Nat → Nat × Flags} : TidyOut (s.arith1 vd va xl msk z accept f) :=
  h.elementwise

theorem State.tidy.arith3 {s : State} (h : s.tidy) {vd va vb vc : VReg} {xl : XReg} {msk : MReg} {z sc : Bool} {f : Tag → Nat → Nat → Nat → Nat × Flags} :
    TidyOut (s.arith3 vd va vb vc xl msk z sc f) :=
  h.elementwise

theorem State.tidy.generate {s : State} (h : s.tidy) {vd : VReg} {ot : Tag} {xl : XReg} {msk : MReg} {masks : List MReg} {f : State → Nat → Nat × Flags} :
    TidyOut (s.generate vd ot xl msk masks f) := by
  refine h.orTrap fun _ => h.whenFree fun u hu => ?_
  exact hu.produce (fun _ ht => ht)

/-! Chain words, fences and the barrier. -/

theorem State.tidy.execVdot {s : State} (h : s.tidy) {vd va vb vc xl : BitVec 5} {msk : BitVec 3} {z : Bool} {rm : BitVec 3} :
    TidyOut (execVdot vd va vb vc xl msk z rm s) := by
  refine h.orTrap fun _ => h.whenFree fun u hu => ?_
  exact hu.produce (fun _ ht => ht)

theorem State.tidy.editChain {s : State} (h : s.tidy) {checks : Except Trap Unit} {srcs dsts : List VReg} {go : State → State}
    (hgo : ∀ u, u.tidy → (go u).tidy) :
    TidyOut (s.editChain checks srcs dsts go) := by
  refine .ite h.waitWhole (h.orTrap fun _ => h.whenFree fun u hu => ?_)
  split
  · exact hu.poolTrap.next
  · next e => exact ((hgo u hu).fits _ e).retireV.next

theorem State.tidy.flatFrom {s : State} (h : s.tidy) {list : List Span} {total fuel lo : Nat} : (s.flatFrom list total fuel lo).2.tidy := by
  induction fuel generalizing s lo with
  | zero => exact h
  | succ fuel ih =>
    unfold State.flatFrom
    split
    · exact h
    · exact ih h.newSpine

theorem State.tidy.copyRows {s : State} (h : s.tidy) {src dst : List Span} {total : Nat} : (s.copyRows src dst total).tidy := by
  refine h.foldl fun t a ht => ?_
  dsimp only
  split
  · exact ht
  · exact ht.chainPut

theorem State.tidy.flatten {s : State} (h : s.tidy) {vd : VReg} {tag : Tag} {count : Nat} {list : List Span} : (s.flatten vd tag count list).tidy :=
  h.flatFrom.copyRows.readRows.writeDesc

theorem State.tidy.readChain {s : State} (h : s.tidy) {xd : XReg} {w : State → Word} : TidyOut (s.readChain xd w) :=
  h.setX.retireV.next

theorem State.tidy.privateLinks {s : State} (h : s.tidy) {l : List Span} : (s.privateLinks l).tidy :=
  h.readRows.foldl fun _ _ ht => ht.foldl fun _ _ hu => hu.privateLink

theorem State.tidy.execCnew {s : State} (h : s.tidy) {vd xa : BitVec 5} {t : BitVec 4} : TidyOut (execCnew vd xa t s) := by
  refine h.editChain fun u hu => ?_
  dsimp only
  split
  · exact hu.writeDesc
  · exact hu.newSpine.writeDesc

theorem State.tidy.execCfree {s : State} (h : s.tidy) {vd : BitVec 5} : TidyOut (execCfree vd s) :=
  h.trapNow.next.ite (h.whenFree (fun _ ht => ht.releaseReg.retireV.next))

theorem State.tidy.execCshare {s : State} (h : s.tidy) {vd va : BitVec 5} : TidyOut (execCshare vd va s) := by
  refine h.editChain fun u hu => ?_
  split
  · exact hu
  · exact hu.writeDesc

theorem State.tidy.splice {s : State} (h : s.tidy) {vd va vb : VReg} {p : Nat} {pw : Word} : TidyOut (s.splice vd va vb p pw) := by
  refine h.editChain fun u hu => ?_
  dsimp only
  split
  · exact hu.flatten
  · exact hu.writeDesc

theorem State.tidy.execCsplit {s : State} (h : s.tidy) {vd ve va xa : BitVec 5} : TidyOut (execCsplit vd ve va xa s) := by
  refine h.editChain fun u hu => ?_
  exact hu.unrefSpans.unrefSpans.refSpans.refSpans.setChain.setChain.queueSpines

theorem State.tidy.keepRun {s : State} (h : s.tidy) {vd va : VReg} {start n : Nat} {ok : Bool} {tval : Word} :
    TidyOut (s.keepRun vd va start n ok tval) := by
  refine h.editChain fun u hu => ?_
  exact hu.writeDesc

theorem State.tidy.execCretag {s : State} (h : s.tidy) {vd va : BitVec 5} {t : BitVec 4} : TidyOut (execCretag vd va t s) := by
  refine h.editChain fun u hu => ?_
  exact hu.writeDesc

theorem State.tidy.execClen {s : State} (h : s.tidy) {xd va : BitVec 5} : TidyOut (execClen xd va s) :=
  h.waitWhole.ite (h.orTrap (fun _ => h.readChain))

theorem State.tidy.execCinfo {s : State} (h : s.tidy) {xd va : BitVec 5} {imm : BitVec 19} : TidyOut (execCinfo xd va imm s) := by
  unfold Machine.execCinfo
  dsimp only
  split
  · exact h.waitWhole
  · split
    · exact h.readRows.readChain
    · exact h.readChain

theorem State.tidy.execCflat {s : State} (h : s.tidy) {vd va : BitVec 5} : TidyOut (execCflat vd va s) := by
  refine h.editChain fun u hu => ?_
  exact hu.flatten

theorem State.tidy.execCpriv {s : State} (h : s.tidy) {vd va : BitVec 5} : TidyOut (execCpriv vd va s) := by
  refine h.editChain fun u hu => ?_
  exact hu.privateSpines.setChain.privateLinks

theorem State.tidy.execCwait {s : State} (h : s.tidy) : TidyOut (execCwait s) :=
  h.hold.next.ite h.awake.returnLinks.retireV.next

theorem State.tidy.execReclaimSpine {s : State} (h : s.tidy) {core : Nat} : TidyOut (execReclaimSpine core s) := h.focus.reclaimFirst.next

theorem State.tidy.fenceEnd {s : State} (h : s.tidy) {cmds thenS thenV : Bool} : (s.fenceEnd cmds thenS thenV).tidy := by
  unfold State.fenceEnd
  dsimp only
  split
  · exact h.congr.awake.retire
  · exact h.dropEarly.awake.retire

theorem State.tidy.fence {s : State} (h : s.tidy) {sc vec cmds thenS thenV : Bool} {scope : BitVec 3} : TidyOut (s.fence sc vec cmds thenS thenV scope) :=
  h.hold.next.ite h.fenceEnd.next

theorem CarriesSome.map {α β : Type} {r : Option α} {f : α → β} {state : β → State} (h : ∀ a, (state (f a)).tidy) : CarriesSome (r.map f) state := by
  intro b e
  obtain ⟨a, -, rfl⟩ := Option.map_eq_some_iff.1 e
  exact h a

theorem State.tidy.rangeHome {s : State} (h : s.tidy) {space : BitVec 16} {off : Nat} : CarriesSome (s.rangeHome space off) (fun r => r.2.2) := by
  unfold State.rangeHome
  split
  · exact .none
  · split
    · exact .map fun _ => h
    · split
      · exact .none
      · next e =>
        have ht := h.translate _ e
        split
        · exact .some ht
        · exact .map fun _ => ht

theorem State.tidy.fenceBack {s : State} (h : s.tidy) {xa xb : XReg} {asr : BitVec 2} {imm : BitVec 20} : (s.fenceBack xa xb asr imm).tidy := by
  unfold State.fenceBack
  split
  · exact h.sweepL1
  · refine h.foldl fun t i ht => ?_
    dsimp only
    split
    · next t1 e =>
        have ht1 : t1.tidy := ht.rangeHome _ e
        exact ht1.sweepL1
    · exact ht

theorem State.tidy.arrive {s : State} (h : s.tidy) {g : Gang} {expect : Nat} : (s.arrive g expect).2.tidy :=
  h.setGang

theorem State.tidy.arriveSelf {s : State} (h : s.tidy) : s.arriveSelf.tidy := by
  unfold State.arriveSelf
  dsimp only
  split
  · exact h
  · split
    · exact h
    · exact h.congr.arrive

theorem State.tidy.barrierWait {s : State} (h : s.tidy) {xd : XReg} : TidyOut (s.barrierWait xd) := by
  unfold State.barrierWait
  split
  · exact h.awake.wr
  · exact h.hold.next.ite h.dropEarly.awake.wr

theorem State.tidy.awaitTry {s : State} (h : s.tidy) {xd xa xb : XReg} {asr : BitVec 2} {scope ord : BitVec 3} {w : Bool} {off : BitVec 19} {timeUp : Bool}
    {again : State → Out} (hagain : ∀ u, u.tidy → TidyOut (again u)) : TidyOut (s.awaitTry xd xa xb asr scope ord w off timeUp again) := by
  unfold State.awaitTry
  dsimp only
  split
  · exact h.awake.trapNow.next
  · next s1 e =>
      have hs1 : s1.tidy := h.scalarPlace _ e
      split
      · exact h.awake.trapNow.next
      · next s1 _ _ _ _ _ s1 e =>
          have hs1 : s1.tidy := hs1.atomRead _ e
          split
          · split
            · split
              · exact hs1.acquire.awake.wr
              · exact hs1.awake.wr
            · exact hagain _ hs1
          · split
            · split
              · exact hs1.acquire.awake.wr
              · exact hs1.awake.wr
            · exact hagain _ hs1

theorem State.tidy.execFenceSv {s : State} (h : s.tidy) {xa xb : XReg} {asr : BitVec 2} {scope : BitVec 3} {imm : BitVec 20} :
    TidyOut (execFenceSv xa xb asr scope imm s) :=
  h.trapWord.ite (h.trapWord.ite h.fenceBack.fence)

theorem State.tidy.execFenceVs {s : State} (h : s.tidy) {scope : BitVec 3} : TidyOut (execFenceVs scope s) :=
  h.trapWord.ite h.fence

theorem State.tidy.execFenceVv {s : State} (h : s.tidy) {scope : BitVec 3} : TidyOut (execFenceVv scope s) :=
  h.trapWord.ite h.fence

theorem State.tidy.execFenceAll {s : State} (h : s.tidy) {xa xb : XReg} {asr : BitVec 2} {scope : BitVec 3} {imm : BitVec 20} :
    TidyOut (execFenceAll xa xb asr scope imm s) :=
  h.trapWord.ite (h.trapWord.ite h.fenceBack.fence)

theorem State.tidy.execGbar {s : State} (h : s.tidy) {xd : XReg} : TidyOut (execGbar xd s) :=
  h.trapWord.ite (h.barrierWait.ite (h.hold.next.ite h.arriveSelf.barrierWait))

theorem State.tidy.execGbarin {s : State} (h : s.tidy) : TidyOut (execGbarin s) :=
  h.trapWord.ite (h.hold.next.ite h.arriveSelf.awake.retire.next)

theorem State.tidy.execGbarwt {s : State} (h : s.tidy) {xd : XReg} : TidyOut (execGbarwt xd s) :=
  h.trapWord.ite h.barrierWait

theorem State.tidy.execAwait {s : State} (h : s.tidy) {xd xa xb xc : XReg} {asr : BitVec 2} {scope ord : BitVec 3} {w : Bool} {off : BitVec 19} :
    TidyOut (execAwait xd xa xb xc asr scope ord w off s) :=
  h.trapWord.ite (h.awaitTry (fun _ ht => ht.hold.next))

theorem State.tidy.execFenceComplete {s : State} (h : s.tidy) {hart : Nat} : TidyOut (execFenceComplete hart s) := by
  unfold Machine.execFenceComplete
  dsimp only
  split
  · exact h.next.ite h.focus.fenceEnd.next
  · exact h.next

theorem State.tidy.execTlbinvComplete {s : State} (h : s.tidy) {hart : Nat} : TidyOut (execTlbinvComplete hart s) := by
  unfold Machine.execTlbinvComplete
  dsimp only
  split
  · exact h.next.ite h.focus.awake.retire.next
  · exact h.next

theorem State.tidy.execAwaitWake {s : State} (h : s.tidy) {hart : Nat} : TidyOut (execAwaitWake hart s) := by
  unfold Machine.execAwaitWake
  dsimp only
  split
  · exact h.focus.awaitTry (fun _ ht => h.next)
  · exact h.next

theorem State.tidy.execAwaitTimeout {s : State} (h : s.tidy) {hart : Nat} : TidyOut (execAwaitTimeout hart s) := by
  unfold Machine.execAwaitTimeout
  dsimp only
  split
  · exact h.next.ite (h.focus.awaitTry (fun _ ht => h.next))
  · exact h.next

theorem State.tidy.execTlbinv {s : State} (h : s.tidy) {xa xb xc : XReg} : TidyOut (execTlbinv xa xb xc s) := by
  refine .ite h.trapWord (.ite h.trapWord ?_)
  extract_lets space at_ near named line page walk back s1 s2 s3
  have hs1 : s1.tidy := by
    refine h.foldl fun t n ht => ?_
    unfold back
    split
    · exact ht.foldl (fun _ _ hu => hu.writeBack)
    · exact ht
  have hs2 : s2.tidy := hs1.mapCores fun n k => by
    split <;> exact ⟨rfl, rfl⟩
  have hs3 : s3.tidy := hs2.congr
  exact .ite hs3.hold.next hs3.ok

/-! Vector memory. -/

theorem State.tidy.probe {s : State} (h : s.tidy) {space : BitVec 16} {n : Nat} {kind : Kind} {contig : Bool} {first : Option Nat} {l : List (Nat × Nat)} :
    Carries (s.probe space n kind contig first l) Prod.snd := by
  induction l generalizing s first with
  | nil => exact .ok h
  | cons p l ih =>
    unfold State.probe
    split
    · exact .error
    · split
      · exact .error
      · next e =>
        have ht := h.locate _ e
        split
        · exact .error
        · next e =>
          have hu := ih ht _ e
          exact .ok hu

theorem State.tidy.vectorRead {s : State} (h : s.tidy) {space : BitVec 16} {n : Nat} {sp : Spot} : (s.vectorRead space n sp).2.tidy := by
  unfold State.vectorRead
  dsimp only
  split
  · exact h.performOwn
  · exact h.performOwn
  · exact h.performOwn.agentReadState

theorem State.tidy.vectorReads {s : State} (h : s.tidy) {space : BitVec 16} {n : Nat} {given : List (Nat × List Byte)} {l : List Spot} :
    (s.vectorReads space n given l).2.2.tidy := by
  induction l generalizing s with
  | nil => exact h
  | cons sp l ih =>
    unfold State.vectorReads
    extract_lets r
    have hr : r.2.tidy := by
      unfold r
      split
      · exact h
      · exact h.vectorRead
    split
    · exact hr
    · exact ih hr

theorem State.tidy.dropPackets {s : State} (h : s.tidy) : s.dropPackets.tidy :=
  h.congr

theorem State.tidy.handPieces {s : State} (h : s.tidy) {space : BitVec 16} {kind : Nat} {tag : Tag} {pieces : List Piece} :
    (s.handPieces space kind tag pieces).tidy :=
  (h.foldl (fun _ _ ht => ht.handOffIn)).congr

theorem State.tidy.vectorLoad {s : State} (h : s.tidy) {vd : VReg} {f : Form} {base : Word} {xl : XReg} {msk : MReg} {asr : BitVec 2} {t : Tag} :
    TidyOut (s.vectorLoad vd f base xl msk asr t) := by
  refine h.orTrap fun _ => h.whenFree fun u hu => ?_
  split
  · exact hu.dropPackets.probeTrap.next
  · next s1 e =>
    have hs : s1.tidy := hu.probe _ e
    refine .ite hs.congr.hold.next (.ite hs.hold.next ?_)
    extract_lets r s2 kept limit job run u1 u2
    have hs2 : s2.tidy := hs.vectorReads.dropPackets
    have hrun : run.s.tidy := hs2.openDest.run
    have hu2 : u2.tidy := by
      unfold u2
      clear_value kept
      split
      · exact hrun.releaseReg.releaseDesc
      · exact hrun.releaseReg
    split
    · exact hs2.produce fun _ ht => ht
    · split
      · exact hrun.stopAs.next
      · exact hu2.abandonV.next

theorem State.tidy.vectorStore {s : State} (h : s.tidy) {vs : VReg} {f : Form} {base : Word} {xl : XReg} {msk : MReg} {asr : BitVec 2} {t : Tag}
    {add accept : Bool} : TidyOut (s.vectorStore vs f base xl msk asr t add accept) := by
  refine h.orTrap fun _ => h.whenFree fun u hu => ?_
  split
  · exact hu.probeTrap.next
  · next s1 e =>
    have hs : s1.tidy := hu.probe _ e
    exact .ite h.takeRest.next (.ite hs.handPieces.retireV.next hs.handPieces.stopV.next)

theorem State.tidy.foldl_snd {b : β × State} (h : b.2.tidy) {f : β × State → α → β × State} {l : List α} (step : ∀ p a, p.2.tidy → (f p a).2.tidy) :
    (l.foldl f b).2.tidy :=
  List.foldlRecOn (motive := fun p => p.2.tidy) l f h fun p hp a _ => step p a hp

theorem State.tidy.execGatherRequest {s : State} (h : s.tidy) {k : Nat} : TidyOut (execGatherRequest k s) := by
  unfold Machine.execGatherRequest
  split
  · refine .ite h.next ?_
    extract_lets n read r
    have hr : r.2.tidy := State.tidy.foldl_snd h fun p e hp => by
      unfold read
      dsimp only
      split <;> exact hp.performAll
    exact hr.congr.next
  · exact h.next

theorem State.tidy.execGatherReply {s : State} (h : s.tidy) {k : Nat} : TidyOut (execGatherReply k s) := by
  unfold Machine.execGatherReply
  split
  · exact h.next.ite h.congr.next
  · exact h.next

theorem State.tidy.execWritePerformed {s : State} (h : s.tidy) {k : Nat} : TidyOut (execWritePerformed k s) := by
  unfold Machine.execWritePerformed
  split
  · exact h.performAt.next.ite h.next
  · exact h.next

theorem State.tidy.scatter {s : State} (h : s.tidy) {kind k : Nat} : TidyOut (scatter kind k s) := by
  unfold Machine.scatter
  split
  · split
    · exact h.next
    · split
      · exact h.congr.next
      · exact h.performAt.next.ite h.next
  · exact h.next

/-! The copy engine. -/

theorem State.tidy.engineProbe {s : State} (h : s.tidy) {a : Acc} {space : BitVec 16} {kind : Kind} {l : List (Nat × Nat)} :
    Carries (s.engineProbe a space kind l) Prod.snd := by
  induction l generalizing s with
  | nil => exact .ok h
  | cons p l ih =>
    unfold State.engineProbe
    split
    · exact .error
    · next e =>
      have ht := h.locate _ e
      split
      · exact .error
      · next e =>
        have hu := ih ht _ e
        exact .ok hu

theorem State.tidy.engineWrite {s : State} (h : s.tidy) {c : Command} {l : List (Nat × Nat × Place)} {bs : List Byte} : (s.engineWrite c l bs).tidy := by
  induction l generalizing s bs with
  | nil => exact h
  | cons p l ih =>
    obtain ⟨off, n, pl⟩ := p
    unfold State.engineWrite
    extract_lets now s0 s1
    have hs0 : s0.tidy := by
      unfold s0
      split
      · exact h
      · exact h.sweepL1.dropFills
    refine ih ?_
    unfold s1
    split
    · exact hs0.congr
    · exact hs0.homeWrite

theorem State.tidy.castWrite {s : State} (h : s.tidy) {d : Nat} {bs : List Byte} {targets : List Nat} : (s.castWrite d bs targets).tidy :=
  h.foldl (fun _ _ ht => ht.homeWrite)

theorem State.tidy.dropAhead {s : State} (h : s.tidy) {c : Command} {ranges : List (Nat × Nat)} : (s.dropAhead c ranges).tidy :=
  h.congr

theorem State.tidy.moveRow {s : State} (h : s.tidy) {c : Command} {q : Nat} : Carries (s.moveRow c q) (fun t => t) := by
  unfold State.moveRow
  dsimp only
  split
  · exact .error
  · next s2 e =>
      have hs2 : s2.tidy := h.engineProbe _ e
      split
      · split
        · exact .error
        · split
          · exact .error
          · exact .ok hs2.castWrite.dropAhead
      · split
        · exact .error
        · next s2 _ _ _ _ s2 e =>
            have hs2 : s2.tidy := hs2.engineProbe _ e
            split
            · exact .error
            · exact .ok hs2.engineWrite.dropAhead

theorem State.tidy.endCommand {s : State} (h : s.tidy) {c : Command} {st : TicketState} {f : Failure} {rows : Nat} : (s.endCommand c st f rows).tidy :=
  h.congr

theorem State.tidy.rowsDone {s : State} (h : s.tidy) {c : Command} {n : Nat} : (s.rowsDone c n).tidy :=
  h.congr

theorem State.tidy.setCommand {s : State} (h : s.tidy) {c : Command} : (s.setCommand c).tidy :=
  h.congr

theorem State.tidy.issueCommand {s : State} (h : s.tidy) {c : Command} : (s.issueCommand c).tidy :=
  h.congr

theorem State.tidy.wrV {s : State} (h : s.tidy) {xd : XReg} {v : Word} : TidyOut (s.wrV xd v) :=
  h.setX.retireV.next

theorem State.tidy.copyIssue {s : State} (h : s.tidy) {kind : BitVec 4} {xd xa xb xc : XReg} {asr : BitVec 2} {imm : BitVec 20} :
    TidyOut (s.copyIssue kind xd xa xb xc asr imm) := by
  unfold State.copyIssue
  dsimp only
  split
  · exact h.awake.trapNow.next
  · split
    · exact h.awake.wrV
    · exact h.takeRest.next.ite (h.whenFree (fun _ ht => ht.congr.issueCommand.wrV))

theorem State.tidy.execEcopyc {s : State} (h : s.tidy) {vd : VReg} {xa xb xl : XReg} {asr : BitVec 2} {t : Tag} {imm : BitVec 16} :
    TidyOut (execEcopyc vd xa xb xl asr t imm s) := by
  unfold Machine.execEcopyc
  extract_lets vl n space base w step at_ outside bytes
  refine .ite h.trapWord (.ite h.trap (.ite h.trap (.ite h.trap ?_)))
  split
  · exact h.trap
  · refine h.whenFree fun u hu => ?_
    extract_lets s2 r made
    have hs2 : s2.tidy := hu.releaseReg
    have hmade : Carries made fun t => t := by
      unfold made
      split
      · exact .ok hs2.writeDesc
      · exact .map fun t e => (hs2.newSpine.fits t e).writeDesc
    clear_value made
    split
    · exact hu.poolTrap.next
    · next t => exact (hmade t rfl).issueCommand.retireV.next

theorem State.tidy.execEwait {s : State} (h : s.tidy) {xd xa : XReg} : TidyOut (execEwait xd xa s) := by
  unfold Machine.execEwait
  dsimp only
  split
  · exact h.trapWord
  · split
    · split
      · exact h.takeRest.next
      · exact h.hold.next
    · split
      · exact h.awake.trapNow.next
      · split
        · exact h.congr.awake.wrV
        · exact h.congr.dropEarly.awake.wrV

theorem State.tidy.execEstat {s : State} (h : s.tidy) {xd xa : XReg} {sel : BitVec 20} : TidyOut (execEstat xd xa sel s) := by
  unfold Machine.execEstat
  dsimp only
  split
  · exact h.trapWord
  · split
    · exact h.trap
    · split
      · exact h.wrV
      · split
        · exact h.congr.dropEarly.wrV
        · exact h.congr.wrV

theorem State.tidy.execEngineRow {s : State} (h : s.tidy) {hart : Nat} : TidyOut (execEngineRow hart s) := by
  unfold Machine.execEngineRow
  dsimp only
  split
  · split
    · exact h.next
    · split
      · exact h.focus.endCommand.next
      · next t1 e =>
          have ht1 : t1.tidy := h.focus.moveRow _ e
          split <;> exact ht1.congr.rowsDone.next
  · exact h.next

theorem State.tidy.moveElem {s : State} (h : s.tidy) {c : Command} {j : Nat} : Carries (s.moveElem c j) (fun t => t) := by
  unfold State.moveElem
  dsimp only
  split
  · exact .error
  · next s2 e =>
      have hs2 : s2.tidy := h.engineProbe _ e
      split
      · exact .error
      · exact .ok hs2.putElem

theorem State.tidy.moveElems {s : State} (h : s.tidy) {c : Command} {j k : Nat} : (s.moveElems c j k).1.tidy := by
  induction k generalizing s j with
  | zero => exact h
  | succ k ih =>
    unfold State.moveElems
    split
    · exact h
    · next t1 e =>
        have ht1 : t1.tidy := h.moveElem _ e
        exact ih ht1

theorem State.tidy.execEcopycTransfer {s : State} (h : s.tidy) {hart count : Nat} : TidyOut (execEcopycTransfer hart count s) := by
  unfold Machine.execEcopycTransfer
  dsimp only
  split
  · split
    · exact h.next
    · split
      · exact h.focus.moveElems.endCommand.next
      · exact h.focus.moveElems.congr.rowsDone.next
  · exact h.next

theorem State.tidy.execCopyCommandComplete {s : State} (h : s.tidy) {hart : Nat} : TidyOut (execCopyCommandComplete hart s) := by
  unfold Machine.execCopyCommandComplete
  extract_lets t
  have ht : t.tidy := h.focus
  split
  · refine .ite h.next ?_
    extract_lets t1
    have ht1 : t1.tidy := by
      unfold t1
      split
      · refine ht.foldl fun u _ hu => ?_
        split
        · exact hu.arrive
        · exact hu
      · exact ht
    exact ht1.endCommand.next
  · exact h.next

/-! State registers. -/

theorem State.tidy.noteContext {s : State} (h : s.tidy) : s.noteContext.tidy :=
  h.congr

theorem State.tidy.setGbexp {s : State} (h : s.tidy) {e : BitVec 12} : (s.setGbexp e).tidy := by
  unfold State.setGbexp
  dsimp only
  split
  · exact h
  · split
    · exact h.congr.foldl (fun _ _ ht => ht.setHart)
    · exact h.congr

theorem State.tidy.csrWrite {s : State} (h : s.tidy) {n : Nat} {new clear : Word} : (s.csrWrite n new clear).tidy := by
  unfold State.csrWrite
  dsimp only
  split
  · exact h.setGbexp
  · exact h.congr
  · exact h.congr
  · exact h.congr
  · exact h.congr
  · exact h.congr
  · exact h.congr
  · exact h.congr
  · exact h.congr.noteContext
  · exact h.congr
  · exact h.congr
  · split
    · exact h.congr.discardRr
    · exact h.congr
  · exact h.congr
  · exact h.congr
  · split
    · exact h.congr
    · exact h.congr.noteContext
  · exact h.congr.noteContext
  · exact h.congr.noteContext
  · split
    · exact h.congr.snapTrigger
    · exact h.congr
  · exact h.congr
  · exact h.windowWrite
  · exact h

theorem State.tidy.csrUpdate {s : State} (h : s.tidy) {xd xa : XReg} {csr : BitVec 10} {f : Word → Word → Word} : TidyOut (s.csrUpdate xd xa csr f) :=
  h.trapWord.ite (h.trapWord.ite h.csrWrite.wr)

theorem State.tidy.execCsrr {s : State} (h : s.tidy) {xd : XReg} {csr : BitVec 10} : TidyOut (execCsrr xd csr s) :=
  h.trapWord.ite h.wr

/-! Key words. -/

/-- The state that a controller's answer leaves is tidy. -/
def VerdictTidy : Verdict → Prop
  | .again t => t.tidy
  | .change _ t => t.tidy
  | _ => True

theorem VerdictTidy.refuse : VerdictTidy .refuse := trivial
theorem VerdictTidy.status {n : Nat} : VerdictTidy (.status n) := trivial
theorem VerdictTidy.transfer {op : Transfer} {e : KeyEntry} : VerdictTidy (.transfer op e) := trivial
theorem State.tidy.again {s : State} (h : s.tidy) : VerdictTidy (.again s) := h
theorem State.tidy.change {s : State} (h : s.tidy) {n : Nat} : VerdictTidy (.change n s) := h

theorem State.tidy.homeDie {s : State} (h : s.tidy) {space : BitVec 16} {off : Nat} : Carries (s.homeDie space off) (fun r => r.2.2) := by
  unfold State.homeDie
  split
  · split
    · exact .ok h
    · exact .error
  · split
    · exact .error
    · next s1 e =>
        have hs1 : s1.tidy := h.translate _ e
        split
        · split
          · exact .error
          · exact .ok hs1
        · split
          · exact .ok hs1
          · exact .error

theorem State.tidy.region {s : State} (h : s.tidy) {xa xb : XReg} {asr : BitVec 2} {imm : BitVec 20} : Carries (s.region xa xb asr imm) Prod.snd := by
  unfold State.region
  dsimp only
  split
  · exact .error
  · split
    · exact .error
    · split
      · exact .error
      · split
        · exact .error
        · next s1 e =>
            have hs1 : s1.tidy := h.homeDie _ e
            split
            · exact .error
            · exact .ok hs1

theorem State.tidy.served {s : State} (h : s.tidy) : s.served.tidy :=
  h.leaveQueue

theorem State.tidy.keyed {s : State} (h : s.tidy) {xa xb : XReg} {asr : BitVec 2} {imm : BitVec 20} {go : Region → State → Out}
    (hgo : ∀ r u, u.tidy → TidyOut (go r u)) : TidyOut (s.keyed xa xb asr imm go) := by
  unfold State.keyed
  split
  · exact h.served.trapNow.next
  · next e => exact hgo _ _ (h.region _ e)

theorem State.tidy.status {s : State} (h : s.tidy) {xd : XReg} {n : Nat} : TidyOut (s.status xd n) :=
  h.awake.wr

theorem State.tidy.notHolder {s : State} (h : s.tidy) {base : Nat} : TidyOut (s.notHolder base) :=
  h.awake.trapNow.next

theorem State.tidy.askRemote {s : State} (h : s.tidy) {r : Region} {xd : XReg} {allowed : List Nat} {done : State → State}
    (hdone : ∀ u, u.tidy → (done u).tidy) :
    TidyOut (s.askRemote r xd allowed done) := by
  unfold State.askRemote
  split
  · exact h.notHolder
  · exact (hdone _ h).status
  · exact (hdone _ h).status
  · exact h.status

theorem State.tidy.transferSweep {s : State} (h : s.tidy) {op : Transfer} {space : BitVec 16} {base size : Nat} :
    (s.transferSweep op space base size).tidy :=
  h.sweepRegion.dropOwnRights

theorem State.tidy.transferRow {s : State} (h : s.tidy) {agent : BitVec 32} {op : Transfer} {e0 : KeyEntry} : (s.transferRow agent op e0).tidy := by
  unfold State.transferRow
  dsimp only
  split
  · exact h.putEntry.settleKeys
  · exact h.putEntry.settleKeys
  · exact h.returnEntry.settleKeys
  · exact h.returnEntry.settleKeys
  · exact h.removeShare.settleKeys

theorem State.tidy.transferEnd {s : State} (h : s.tidy) {op : Transfer} {space : BitVec 16} {base size : Nat} {xd : XReg} :
    TidyOut (s.transferEnd op space base size xd) := by
  unfold State.transferEnd
  dsimp only
  split
  · exact h.transferSweep.transferRow.served.status
  · exact h.transferSweep.served.status

theorem State.tidy.keyTransfer {s : State} (h : s.tidy) {op : Transfer} {e : KeyEntry} {xd : XReg} : TidyOut (s.keyTransfer op e xd) :=
  h.putEntry.served.hold.next.ite h.transferEnd

theorem State.tidy.transferRemote {s : State} (h : s.tidy) {op : Transfer} {r : Region} {xd : XReg} {allowed : List Nat} :
    TidyOut (s.transferRemote op r xd allowed) :=
  .ite h.hold.next (h.askRemote fun _ hu => hu.transferSweep)

theorem State.tidy.upperDie {s : State} (h : s.tidy) {r : Region} : Carries (s.upperDie r) Prod.snd := by
  unfold State.upperDie
  dsimp only
  split
  · exact .error
  · next s1 e =>
      have hs1 : s1.tidy := h.homeDie _ e
      exact .ok hs1

theorem State.tidy.purgeRegion {s : State} (h : s.tidy) {ctx space : BitVec 16} {base size : Nat} : (s.purgeRegion ctx space base size).tidy :=
  h.mapDropped

theorem State.tidy.dropAgent {s : State} (h : s.tidy) {a : Asker} : (s.dropAgent a).tidy :=
  h.congr

theorem State.tidy.judge {s : State} (h : s.tidy) {a : Asker} {op : KeyOp} {r : Region} {die : Nat} : VerdictTidy (s.judge a op r die) := by
  unfold State.judge
  dsimp only
  split
  · split
    · split
      · exact .status
      · split
        · exact .status
        · exact h.putEntry.dropAgent.change
    · split
      · exact h.dropAgent.again
      · split
        · exact h.putEntry.dropAgent.change
        · split <;> exact .status
  · split
    · exact .refuse
    · split
      · exact .status
      · split
        · exact .status
        · exact .transfer
  · split
    · exact .refuse
    · split
      · exact .status
      · split
        · exact .status
        · split
          · exact .status
          · split
            · exact .status
            · exact .transfer
  · split
    · exact .refuse
    · split
      · exact .status
      · exact .transfer
  · split
    · exact .refuse
    · split
      · exact .status
      · exact .transfer
  · split
    · exact .transfer
    · exact .refuse
  · split
    · exact .refuse
    · split
      · split
        · exact h.purgeRegion.putEntry.change
        · exact h.purgeRegion.delEntry.change
      · split
        · exact .status
        · exact h.purgeRegion.putEntry.change
  · split
    · exact h.putEntry.change
    · split
      · exact h.delEntry.change
      · exact .refuse
  · exact .refuse

theorem State.tidy.queued {s : State} (h : s.tidy) {r : Region} : TidyOut (s.queued r) :=
  h.congr.hold.next

theorem State.tidy.answer {s : State} (h : s.tidy) {r : Region} {xd : XReg} {v : Verdict} (hv : VerdictTidy v) : TidyOut (s.answer r xd v) := by
  cases v with
  | refuse => exact h.served.notHolder
  | status n => exact h.served.status
  | again t => exact State.tidy.status (State.tidy.served hv)
  | change n t => exact .ite h.queued (State.tidy.status (State.tidy.served hv))
  | transfer op e => exact .ite h.queued h.keyTransfer

theorem State.tidy.judgeSplit {s : State} (h : s.tidy) {a : Asker} {r : Region} {up : Option Nat} : VerdictTidy (s.judgeSplit a r up) := by
  unfold State.judgeSplit
  dsimp only
  split
  · exact .refuse
  · split
    · exact .refuse
    · split
      · exact .status
      · split
        · split
          · exact .status
          · exact h.delEntry.putEntry.putEntry.change
        · split
          · exact .status
          · exact h.delEntry.putEntry.change

theorem State.tidy.judgeMerge {s : State} (h : s.tidy) {a : Asker} {r : Region} {up : Option Nat} : VerdictTidy (s.judgeMerge a r up) := by
  unfold State.judgeMerge
  dsimp only
  split
  · exact .refuse
  · split
    · exact .refuse
    · split
      · exact .refuse
      · exact h.delEntry.putEntry.change
  · split
    · exact .refuse
    · split
      · exact .refuse
      · exact h.delEntry.delEntry.putEntry.change

theorem State.tidy.halfIn {s : State} (h : s.tidy) {a : Asker} {r : Region} {die : Nat} {lender : BitVec 32} {poison : Bool} :
    (s.halfIn a r die lender poison).tidy :=
  h.putEntry

theorem State.tidy.request {s : State} (h : s.tidy) {op : KeyOp} {r : Region} {xd : XReg} {remote : Out} (hremote : TidyOut remote) :
    TidyOut (s.request op r xd remote) := by
  unfold State.request
  split
  · split
    · exact hremote
    · exact h.status.ite h.notHolder
  · exact h.answer h.judge

theorem State.tidy.execKacq {s : State} (h : s.tidy) {xd xa xb : XReg} {asr : BitVec 2} {imm : BitVec 20} : TidyOut (execKacq xd xa xb asr imm s) := by
  refine h.keyed fun r u hu => ?_
  exact hu.request (hu.askRemote (fun _ ht => ht.dropAgent))

theorem State.tidy.execKlend {s : State} (h : s.tidy) {xd xa xb xc : XReg} {asr : BitVec 2} {imm : BitVec 20} :
    TidyOut (execKlend xd xa xb xc asr imm s) := by
  refine h.keyed fun r u hu => ?_
  exact hu.request (hu.notHolder.ite hu.transferRemote)

theorem State.tidy.execKshare {s : State} (h : s.tidy) {xd xa xb xc : XReg} {asr : BitVec 2} {imm : BitVec 20} :
    TidyOut (execKshare xd xa xb xc asr imm s) := by
  refine h.keyed fun r u hu => ?_
  exact hu.request (hu.notHolder.ite hu.transferRemote)

theorem State.tidy.execKret {s : State} (h : s.tidy) {xd xa xb : XReg} {asr : BitVec 2} {imm : BitVec 20} : TidyOut (execKret xd xa xb asr imm s) := by
  refine h.keyed fun r u hu => ?_
  exact hu.request hu.transferRemote

theorem State.tidy.execKdrop {s : State} (h : s.tidy) {xd xa xb : XReg} {asr : BitVec 2} {imm : BitVec 20} : TidyOut (execKdrop xd xa xb asr imm s) := by
  refine h.keyed fun r u hu => ?_
  exact hu.request hu.transferRemote

theorem State.tidy.execKunshare {s : State} (h : s.tidy) {xd xa xb : XReg} {asr : BitVec 2} {imm : BitVec 20} :
    TidyOut (execKunshare xd xa xb asr imm s) := by
  refine h.keyed fun r u hu => ?_
  exact hu.request hu.transferRemote

theorem State.tidy.execKsplit {s : State} (h : s.tidy) {xd xa xb : XReg} {asr : BitVec 2} {imm : BitVec 20} : TidyOut (execKsplit xd xa xb asr imm s) := by
  refine h.keyed fun r u hu => ?_
  split
  · exact hu.awake.trapNow.next
  · next s2 e =>
      have hs2 : s2.tidy := hu.upperDie _ e
      split
      · exact hs2.answer hs2.judgeSplit
      · exact hs2.notHolder.ite (hs2.askRemote (fun _ ht => ht))
      · exact hs2.notHolder.ite ((hs2.askRemote (fun _ ht => ht)).ite (hs2.askRemote (fun _ ht => ht.halfIn)))

theorem State.tidy.execKmerge {s : State} (h : s.tidy) {xd xa xb : XReg} {asr : BitVec 2} {imm : BitVec 20} : TidyOut (execKmerge xd xa xb asr imm s) := by
  refine h.keyed fun r u hu => ?_
  split
  · exact hu.awake.trapNow.next
  · next s2 e =>
      have hs2 : s2.tidy := hu.upperDie _ e
      split
      · exact hs2.answer hs2.judgeMerge
      · exact hs2.notHolder.ite (hs2.askRemote (fun _ ht => ht))
      · split
        · exact hs2.notHolder
        · split
          · exact hs2.notHolder
          · exact (hs2.askRemote (fun _ ht => ht.delEntry)).ite hs2.notHolder

theorem State.tidy.execKquery {s : State} (h : s.tidy) {xd xa : XReg} {asr : BitVec 2} {imm : BitVec 20} : TidyOut (execKquery xd xa asr imm s) := by
  unfold Machine.execKquery
  dsimp only
  split
  · exact h.trapWord
  · split
    · exact h.trap
    · split
      · exact h.trap
      · next s1 e =>
          have hs1 : s1.tidy := h.homeDie _ e
          split
          · exact hs1.wr
          · exact hs1.trap.ite hs1.wr

theorem State.tidy.execKrecover {s : State} (h : s.tidy) {xd xa xb xc : XReg} {asr : BitVec 2} {imm : BitVec 20} :
    TidyOut (execKrecover xd xa xb xc asr imm s) := by
  refine .ite h.trapWord (h.keyed fun r u hu => ?_)
  exact hu.request (hu.askRemote (fun _ ht => ht.purgeRegion))

theorem State.tidy.execKclean {s : State} (h : s.tidy) {xd xa xb : XReg} {asr : BitVec 2} {imm : BitVec 20} : TidyOut (execKclean xd xa xb asr imm s) := by
  refine h.keyed fun r u hu => ?_
  exact hu.request (hu.askRemote (fun _ ht => ht))

theorem State.tidy.execKeyTransferComplete {s : State} (h : s.tidy) {hart : Nat} : TidyOut (execKeyTransferComplete hart s) := by
  unfold Machine.execKeyTransferComplete
  dsimp only
  split
  · exact h.next.ite h.focus.transferEnd
  · exact h.next

/-! Hart words. -/

theorem State.tidy.takeLanes {s : State} (h : s.tidy) : s.takeLanes.tidy := by
  unfold State.takeLanes
  extract_lets want held
  split
  · exact State.tidy.handOut h.congr
  · exact h.congr

theorem State.tidy.requestStop {s : State} (h : s.tidy) {k : Nat} {pre : Bool} : (s.requestStop k pre).tidy := by
  refine h.foldl fun t a ht => ?_
  exact ht.setHart

theorem State.tidy.suspendNow {s : State} (h : s.tidy) : s.suspendNow.tidy :=
  h.congr

theorem State.tidy.startExit {s : State} (h : s.tidy) {k : Nat} {code : BitVec 32} : (s.startExit k code).tidy := by
  unfold State.startExit
  extract_lets x s1
  have hs1 : s1.tidy := by
    unfold s1
    split
    · split
      · exact h.abandon
      · exact h
    · exact h
  exact hs1.leaveQueue.setHart

theorem State.tidy.pushPacket {s : State} (h : s.tidy) {q : Nat} {bytes : List Byte} : (s.pushPacket q bytes).tidy := by
  unfold State.pushPacket
  dsimp only
  split
  · exact h.homeWrite.setQueue
  · exact h.setQueue

theorem State.tidy.packetCheck {s : State} (h : s.tidy) {a : Acc} {space : BitVec 16} {pass : BitVec 8 → Bool} {off n : Nat} :
    Carries (s.packetCheck a space pass off n) fun t => t := by
  induction n generalizing s off with
  | zero => exact .ok h
  | succ n ih =>
    unfold State.packetCheck
    split
    · split
      · exact ih h
      · exact .error
    · next e =>
      have ht := h.locate _ e
      exact ih ht

theorem State.tidy.readPacket {s : State} (h : s.tidy) {space : BitVec 16} {off n : Nat} : Carries (s.readPacket space off n) Prod.snd := by
  induction n generalizing s off with
  | zero => exact .ok h
  | succ n ih =>
    unfold State.readPacket
    split
    · exact .error
    · next e =>
      have ht := h.scalarLoad _ e
      split
      · exact .error
      · next e =>
        have hu := ih ht _ e
        exact .ok hu

theorem State.tidy.execSetvl {s : State} (h : s.tidy) {xd xa xb : XReg} : TidyOut (execSetvl xd xa xb s) := by
  unfold Machine.execSetvl
  extract_lets r h1 s1 s2
  have hs1 : s1.tidy := by
    unfold s1
    split
    · exact h
    · exact State.tidy.entitle h.congr
  have hs2 : s2.tidy := hs1.takeLanes.entitle
  exact .ite h.trapWord (.ite h.trap (.ite hs2.hold.next hs2.awake.wr))

theorem State.tidy.execVrel {s : State} (h : s.tidy) : TidyOut (execVrel s) :=
  .ite h.trapWord (State.tidy.entitle h.congr).handOut.ok

theorem State.tidy.execYield {s : State} (h : s.tidy) {xa : XReg} : TidyOut (execYield xa s) := by
  unfold Machine.execYield
  dsimp only
  split
  · exact h.trapWord
  · split
    · exact h.congr.ok
    · split
      · exact h.awake.ok
      · exact h.ok.ite h.hold.next

theorem State.tidy.execExit {s : State} (h : s.tidy) {xa : XReg} : TidyOut (execExit xa s) :=
  h.trapWord.ite h.sweepL1.startExit.next

theorem Carries.bind {ε α β : Type} {r : Except ε α} {f : α → Except ε β} {state : β → State} (h : ∀ a, r = .ok a → Carries (f a) state) :
    Carries (r.bind f) state := by
  cases r with
  | error c => exact .error
  | ok a => exact h a rfl

theorem State.tidy.execLaunch {s : State} (h : s.tidy) {xd xa xb : XReg} {asr : BitVec 2} {imm : BitVec 20} : TidyOut (execLaunch xd xa xb asr imm s) := by
  refine .ite h.trapWord (.ite h.trap (.ite h.trap ?_))
  have hr (q : Acc) (space : BitVec 16) (p1 p2 : BitVec 8 → Bool) (off n : Nat) :
      Carries (((s.packetCheck q space p1 off n).bind fun t => t.packetCheck t.h.acc space p2 off n).bind fun t => t.readPacket space off n) Prod.snd :=
    .bind fun t e => (Carries.bind (fun u e => (h.packetCheck u e).packetCheck) t e).readPacket
  split
  · exact h.awake.trapNow.next
  · next e =>
    have hs := hr _ _ _ _ _ _ _ e
    exact .ite hs.awake.wr (.ite hs.awake.wr (.ite h.hold.next hs.pushPacket.awake.wr))

theorem State.tidy.execYieldExpiry {s : State} (h : s.tidy) {hart : Nat} : TidyOut (execYieldExpiry hart s) := by
  unfold Machine.execYieldExpiry
  dsimp only
  split
  · exact h.next.ite h.focus.awake.ok
  · exact h.next

theorem State.tidy.execSuspension {s : State} (h : s.tidy) {hart : Nat} : TidyOut (execSuspension hart s) :=
  h.next.ite (h.requestStop.next.ite (h.focus.suspendNow.next.ite h.next))

theorem State.tidy.execHartResume {s : State} (h : s.tidy) {hart : Nat} : TidyOut (execHartResume hart s) :=
  h.setHart.next.ite h.next

theorem State.tidy.execHartTerminate {s : State} (h : s.tidy) {hart : Nat} : TidyOut (execHartTerminate hart s) := by
  unfold Machine.execHartTerminate
  split
  · exact h.startExit.next
  · exact h.startExit.next
  · exact h.startExit.next
  · exact h.next

theorem State.tidy.exitCheck {s : State} (h : s.tidy) {finish : State → State} (hfinish : ∀ u, u.tidy → (finish u).tidy) : (exitCheck s finish).tidy := by
  unfold Machine.exitCheck
  extract_lets n h1 u
  have hu : u.tidy := State.tidy.countChecks h.congr
  split
  · exact hu.failCore
  · exact hfinish u hu

theorem State.tidy.execHartExitComplete {s : State} (h : s.tidy) {hart : Nat} : TidyOut (execHartExitComplete hart s) := by
  unfold Machine.execHartExitComplete
  extract_lets t u w
  have hw : w.tidy := by
    unfold w
    split
    · exact h.focus.loseHolders
    · exact h.focus.loseHolders.sweepForeign
  split
  · refine .ite h.next (hw.exitCheck fun v hv => ?_).next
    split
    · exact hv
    · exact hv.endHart
  · exact h.next

theorem State.tidy.execLaneDebtTimeout {s : State} (h : s.tidy) {hart : Nat} : TidyOut (execLaneDebtTimeout hart s) := by
  unfold Machine.execLaneDebtTimeout
  split
  · exact h.requestStop.next.ite h.next
  · exact h.next

/-! Conversions and tiles. -/

theorem State.tidy.appendAll {s : State} (h : s.tidy) {vd : VReg} {l : List Nat} : Carries (s.appendAll vd l) fun t => t := by
  induction l generalizing s with
  | nil => exact .ok h
  | cons v l ih =>
    unfold State.appendAll
    split
    · exact .error
    · next e => exact ih (h.append _ e)

theorem State.tidy.mxRun {s : State} (h : s.tidy) {vd vsc : VReg} {rm : BitVec 3} {ot : Tag} {vl last : Nat} {val : Nat → Num} {fuel k : Nat} :
    (s.mxRun vd vsc rm ot vl last val fuel k).s.tidy := by
  induction fuel generalizing s k with
  | zero => exact h
  | succ fuel ih =>
    unfold State.mxRun
    split
    · exact h
    · extract_lets b
      split
      · exact h
      · next e =>
        have ht := h.appendAll _ e
        split
        · exact h
        · next e => exact ih (ht.append _ e).raise

theorem State.tidy.execVcvtmx {s : State} (h : s.tidy) {vd va vsc xl : BitVec 5} {rm : BitVec 3} {ot : BitVec 4} :
    TidyOut (execVcvtmx vd va vsc xl rm ot s) := by
  refine h.orTrap fun _ => h.whenFree fun s1 h1 => ?_
  extract_lets v0 keep kept have_ upTo goes stop val t0 t r halt chk
  have ht : t.tidy := h1.openDest.openDest
  have hchk : chk.1.tidy := ht.mxRun.recheck
  split
  · exact ht.recheck.mxRun.stopAs.next
  · exact hchk.stopAs.next
  · refine .ite (State.tidy.next (State.tidy.retireV ?_)) hchk.stopAs.next
    clear_value kept
    split
    · exact hchk.releaseDesc
    · exact hchk

theorem State.tidy.execVcvtfrommx {s : State} (h : s.tidy) {vd va vb xl : BitVec 5} {msk : BitVec 3} {_z : Bool} {rm : BitVec 3} {ot : BitVec 4} :
    TidyOut (execVcvtfrommx vd va vb xl msk _z rm ot s) := by
  refine h.orTrap fun _ => h.whenFree fun u hu => ?_
  exact hu.produce (fun _ ht => ht)

theorem State.tidy.setTile {s : State} (h : s.tidy) {zd : BitVec 3} {t : Tile} : (s.setTile zd t).tidy := by
  unfold State.setTile
  dsimp only
  split <;> exact h.congr

theorem State.tidy.accumulate {s : State} (h : s.tidy) {zd : BitVec 3} {va vb : VReg} {xk : XReg} {rm : BitVec 3} {scales : Option (VReg × VReg)} :
    TidyOut (s.accumulate zd va vb xk rm scales) :=
  h.orTrap fun _ => h.whenFree fun _ hu => .ite hu.setTile.raise.retireV.next hu.setTile.raise.stopV.next

theorem State.tidy.maxWord {s : State} (h : s.tidy) {am : Bool} {space : BitVec 16} {xs : Word} {n : Nat} :
    Carries (s.maxWord am space xs n) Prod.snd := by
  unfold State.maxWord
  split
  · exact .ok h
  · split
    · exact .error
    · split
      · exact .error
      · next s1 e =>
          have hs1 : s1.tidy := h.locate _ e
          exact .ok hs1

theorem State.tidy.execZmode {s : State} (h : s.tidy) {zd : BitVec 3} {xk : BitVec 5} : TidyOut (execZmode zd xk s) := by
  unfold Machine.execZmode
  dsimp only
  split
  · exact h.trapWord
  · split
    · exact h.trap
    · split
      · split
        · exact h.setTile.retireV.next
        · exact h.retireV.next
      · exact h.trap.ite (h.trap.ite (h.awake.setTile.retireV.next.ite h.setTile.hold.next))

theorem State.tidy.execZzero {s : State} (h : s.tidy) {zd : BitVec 3} : TidyOut (execZzero zd s) := by
  refine h.orTrap fun _ => ?_
  exact h.setTile.retireV.next

theorem State.tidy.execZload {s : State} (h : s.tidy) {zd : BitVec 3} {va xk xs : BitVec 5} : TidyOut (execZload zd va xk xs s) :=
  h.orTrap fun _ => h.whenFree fun _ hu => .ite hu.setTile.retireV.next hu.setTile.stopV.next

theorem State.tidy.execZrow {s : State} (h : s.tidy) {zd : BitVec 3} {vd xs : BitVec 5} : TidyOut (execZrow zd vd xs s) :=
  h.orTrap fun _ => h.whenFree fun _ hu => hu.produce fun _ ht => ht

theorem State.tidy.execZchk {s : State} (h : s.tidy) {zd md : BitVec 3} {xs : BitVec 5} : TidyOut (execZchk zd md xs s) :=
  h.orTrap fun _ => h.whenFree fun _ hu => hu.setMask.retireV.next

/-- Operands whose check carries a state. -/
theorem State.tidy.orTrapWith {s : State} (h : s.tidy) {c : Except Trap α} {state : α → State} {go : α → Out} (hc : Carries c state)
    (hgo : ∀ a, (state a).tidy → TidyOut (go a)) : TidyOut (s.orTrap c go) := by
  obtain ⟨a, e, eq⟩ | ⟨t, -, eq⟩ := orTrap_cases s c go
  · exact eq ▸ hgo a (hc a e)
  · exact eq ▸ h.waitWhole.ite h.trapNow.next

theorem Carries.guard {ε α β : Type} {r : Except ε β} {f : β → Except ε α} {state : α → State} (h : ∀ b, Carries (f b) state) : Carries (r >>= f) state :=
  Carries.bind fun b _ => h b

theorem State.tidy.execZdrain {s : State} (h : s.tidy) {zd : BitVec 3} {vd xk xs : BitVec 5} {rm : BitVec 3} {ot : BitVec 4} :
    TidyOut (execZdrain zd vd xk xs rm ot s) := by
  refine h.orTrapWith (state := Prod.snd) (.guard fun _ => .guard fun _ => .guard fun _ => h.maxWord) fun p hp => hp.whenFree fun s1 h1 => ?_
  extract_lets x n update wipe
  refine h1.produce fun t ht => ?_
  have hupdate : (update t).tidy := by
    unfold update
    split
    · exact ht.raise.handOff
    · exact ht
  dsimp only
  unfold wipe
  split
  · exact hupdate.setTile
  · exact hupdate

/-! Save areas. -/

theorem State.tidy.putPhys {s : State} (h : s.tidy) {l : List (Nat × Nat)} {bs : List Byte} : (s.putPhys l bs).tidy := by
  induction l generalizing s bs with
  | nil => exact h
  | cons p l ih =>
    unfold State.putPhys
    split
    · exact ih h.homeWrite
    · exact ih h

theorem State.tidy.writePhys {s : State} (h : s.tidy) {p : Nat} {bs : List Byte} : (s.writePhys p bs).tidy :=
  h.putPhys

theorem State.tidy.readLinks {s : State} (h : s.tidy) : s.readLinks.tidy :=
  h.readRows

theorem State.tidy.keepScans {s : State} (h : s.tidy) {base : Nat} {check : BitVec 32} : (s.keepScans base check).tidy :=
  h.congr

theorem State.tidy.writeImage {s : State} (h : s.tidy) {base : Nat} {x : SaveHead} : (s.writeImage base x).tidy :=
  (h.foldl fun _ _ ht => ht.writePhys).writePhys.keepScans

theorem State.tidy.loadLinks {s : State} (h : s.tidy) {base : Nat} {x : SaveHead} : (s.loadLinks base x).2.tidy := by
  unfold State.loadLinks
  extract_lets words r ren t
  have hr : r.2.tidy := State.tidy.foldl_snd h fun _ _ hp => hp.allocLink.setLink
  exact hr.foldl fun t _ ht => ht.withPool (memSetN_wf _ _ _ ht.pool)

theorem State.tidy.loadImage {s : State} (h : s.tidy) {base : Nat} {x : SaveHead} : (s.loadImage base x).tidy := by
  unfold State.loadImage
  extract_lets q ren t
  have ht : t.tidy := h.loadLinks
  exact State.tidy.homeWrite ht.congr

theorem State.tidy.loadStore {s : State} (h : s.tidy) {base : Nat} : (s.loadStore base).tidy :=
  h.homeWrite

theorem State.tidy.evictCaches {s : State} (h : s.tidy) : s.evictCaches.tidy :=
  (h.foldl fun _ _ ht => ht.sweepRegion).sweepForeign

theorem State.tidy.releaseAll {s : State} (h : s.tidy) : s.releaseAll.tidy := by
  unfold State.releaseAll
  extract_lets s1 kept s2 strip h1 core1 s3
  have hs1 : s1.tidy := h.foldl fun _ _ ht => ht.releaseReg
  have hs2 : s2.tidy := hs1.foldl fun _ _ ht => ht.releaseDesc
  have hs3 : s3.tidy := hs2.congr
  exact hs3.entitle.handOut.evictCaches

theorem State.tidy.execHsave {s : State} (h : s.tidy) {xd xa : XReg} : TidyOut (execHsave xd xa s) := by
  unfold Machine.execHsave
  extract_lets a s1 s2
  have hs2 : s2.tidy := h.awake.returnLinks.readLinks.writeImage
  refine .ite h.trapWord (.ite h.awake.wr (.ite h.hold.next ?_))
  split
  · exact hs2.releaseAll.wr
  · exact hs2.wr

/-- The tiles of the core replaced. -/
theorem State.tidy.withTiles {s : State} (h : s.tidy) {a b : Tile} : State.tidy { s with core := { s.core with za0 := a, za1 := b } } := h.congr

theorem State.tidy.execHload {s : State} (h : s.tidy) {xd xa : XReg} : TidyOut (execHload xd xa s) := by
  unfold Machine.execHload
  extract_lets a base x tiles wish core0 grant s1 s2 h2 s3 held lanes s4
  refine .ite h.trapWord (.ite h.awake.wr (.ite h.awake.wr (.ite h.awake.wr (.ite h.withTiles.hold.next ?_))))
  have hs1 : s1.tidy := h.awake.loadImage
  have hs2 : s2.tidy := by
    unfold s2
    split
    · exact hs1.loadStore
    · exact hs1
  have hs4 : s4.tidy := by
    unfold s4 lanes
    split <;> exact hs2.congr
  exact hs4.entitle.handOut.wr

/-! Launches and placement. -/

theorem State.tidy.preemptFor {s : State} (h : s.tidy) {b : Bid} : (s.preemptFor b).tidy := by
  unfold State.preemptFor
  extract_lets asked rests leaving order still running makesRoom fewest
  split
  · refine h.foldl fun t g ht => ?_
    split
    · exact ht.requestStop
    · exact ht
  · exact h

theorem State.tidy.powerOn {s : State} (h : s.tidy) : s.powerOn.tidy :=
  h.congr

theorem State.tidy.placeGang {s : State} (h : s.tidy) {b : Bid} {at_ : Seats} : (s.placeGang b at_).tidy :=
  ((State.tidy.foldl h.congr fun _ _ ht => ht.setHart).foldl fun _ _ ht => ht.entitle).powerOn

theorem State.tidy.zeroed {s : State} (h : s.tidy) {key n : Nat} : (s.zeroed key n).tidy := h.withMem (memClear_wf _ _ _ h.1)

theorem State.tidy.readyStore {s : State} (h : s.tidy) {n : Nat} {ctx : BitVec 16} : (s.readyStore n ctx).tidy := by
  unfold State.readyStore
  dsimp only
  split
  · exact h
  · exact h.zeroed.setCore

/-- The current hart replaced. -/
theorem State.tidy.withHart {s : State} (h : s.tidy) {x : Hart} : State.tidy { s with h := x } := h.congr

theorem State.tidy.restoreGang {s : State} (h : s.tidy) {w : Waiting} {prio : Nat} {at_ : Seats} : (s.restoreGang w prio at_).tidy := by
  unfold State.restoreGang
  extract_lets slots g0 g s1 h0 s2
  have hs1 : s1.tidy := h.congr
  have hs2 : s2.tidy := hs1.foldl fun t p ht => by
    extract_lets u u1 head u2 h1 u3 u4
    have hu : u.tidy := ht.focus
    have hu1 : u1.tidy := hu.congr
    have hu2 : u2.tidy := hu1.loadImage
    have hu3 : u3.tidy := hu2.withHart
    have hu4 : u4.tidy := hu3.readyStore
    split
    · exact hu4.loadStore
    · exact hu4
  exact (hs2.foldl fun _ _ ht => ht.entitle).powerOn

theorem State.tidy.execLaunchDoorbell {s : State} (h : s.tidy) {who queue tail : Nat} : TidyOut (execLaunchDoorbell who queue tail s) :=
  h.next.ite h.outsideWrite.next

theorem State.tidy.execLaunchPacketAdmit {s : State} (h : s.tidy) {queue : Nat} : TidyOut (execLaunchPacketAdmit queue s) :=
  h.next.ite (h.next.ite (h.setQueue.next.ite h.congr.next))

theorem State.tidy.execLaunchReady {s : State} (h : s.tidy) {k : Nat} : TidyOut (execLaunchReady k s) := by
  unfold Machine.execLaunchReady
  split
  · exact h.congr.next.ite h.next
  · exact h.next

theorem State.tidy.execGangPlacement {s : State} (h : s.tidy) : TidyOut (execGangPlacement s) := by
  unfold Machine.execGangPlacement
  split
  · exact h.next
  · split
    · exact h.preemptFor.next
    · exact h.next.ite h.placeGang.next

theorem State.tidy.execGangRestore {s : State} (h : s.tidy) : TidyOut (execGangRestore s) := by
  unfold Machine.execGangRestore
  split
  · exact h.next
  · split
    · exact h.restoreGang.next
    · exact h.next

theorem State.tidy.execHartStart {s : State} (h : s.tidy) {hart : Nat} : TidyOut (execHartStart hart s) := by
  unfold Machine.execHartStart
  dsimp only
  split
  · exact h.next
  · split
    · exact h.focus.congr.next
    · split
      · exact h.next
      · exact (((h.focus.foldl (fun _ _ ht => ht.readyStore)).zeroed).congr).next

theorem State.tidy.execEviction {s : State} (h : s.tidy) {gang : Nat} : TidyOut (execEviction gang s) := by
  unfold Machine.execEviction
  split
  · exact h.next
  · refine .ite h.next (State.tidy.next (h.foldl fun t k ht => ?_))
    extract_lets u alone u1
    have hu1 : u1.tidy := ht.focus.returnLinks.evictCaches.readLinks.writeImage
    exact hu1.withHart

theorem State.tidy.execEvictionComplete {s : State} (h : s.tidy) {gang : Nat} : TidyOut (execEvictionComplete gang s) := by
  unfold Machine.execEvictionComplete
  split
  · exact h.next
  · exact .ite h.next (State.tidy.next (State.tidy.congr (h.foldl fun _ _ ht => ht.freeHart)))

/-! The device from outside. -/

theorem State.tidy.outsidePut {s : State} (h : s.tidy) {o : Origin} {l : List (Nat × Nat × Place)} {bs : List Byte} : (s.outsidePut o l bs).tidy := by
  induction l generalizing s bs with
  | nil => exact h
  | cons p l ih =>
    obtain ⟨off, n, pl⟩ := p
    unfold State.outsidePut
    dsimp only
    split
    · exact ih h.congr
    · exact ih h.homeWrite

theorem State.tidy.outsideAt {s : State} (h : s.tidy) {o : Origin} {kind : Kind} {off n : Nat} {go : List (Nat × Nat × Place) → State}
    (hgo : ∀ l, (go l).tidy) : (s.outsideAt o kind off n go).tidy := by
  unfold State.outsideAt
  split
  · exact h.reply
  · split
    · exact h.reply
    · exact hgo _

theorem State.tidy.outsideGet {s : State} (h : s.tidy) {o : Origin} {off n : Nat} : (s.outsideGet o off n).tidy := by
  refine h.outsideAt fun l => ?_
  split <;> exact h.reply

theorem State.tidy.outsideSet {s : State} (h : s.tidy) {o : Origin} {off : Nat} {data : List Byte} : (s.outsideSet o off data).tidy := by
  refine h.outsideAt fun l => ?_
  exact h.outsidePut.reply

theorem State.tidy.outsideChange {s : State} (h : s.tidy) {o : Origin} {kind : Kind} {off n : Nat} {go : State → Place → State} {poisoned : Bool}
    (hgo : ∀ pl, (go s pl).tidy) : (s.outsideChange o kind off n go poisoned).tidy := by
  unfold State.outsideChange
  split
  · exact h.reply
  · refine h.outsideAt fun l => ?_
    split
    · split
      · exact h.reply
      · exact h.reply
      · exact hgo _
    · exact h

theorem State.tidy.outsideOp {s : State} (h : s.tidy) {o : Origin} {off : Nat} {op : WriteOp} {data : List Byte} : (s.outsideOp o off op data).tidy := by
  refine h.outsideChange fun pl => ?_
  exact h.homeWrite.reply

theorem State.tidy.outsideAtomic {s : State} (h : s.tidy) {o : Origin} {off : Nat} {op : AtomOp} {w : Bool} {v c : Word} :
    (s.outsideAtomic o off op w v c).tidy := by
  refine h.outsideChange fun pl => ?_
  dsimp only
  split
  · exact h.atomWrite.reply
  · exact h.reply

theorem State.tidy.outsideJudge {s : State} (h : s.tidy) {a : Asker} {o : Origin} {op : KeyOp} {r : Region} {die : Nat} {v : Verdict}
    (e : s.outsideJudge a o op r die = .ok v) : VerdictTidy v := by
  unfold State.outsideJudge at e
  dsimp only at e
  split at e
  · split at e
    · exact Except.ok.inj e ▸ h.judgeSplit
    · cases e
  · split at e
    · exact Except.ok.inj e ▸ h.judgeMerge
    · cases e
  · exact Except.ok.inj e ▸ h.judge

theorem State.tidy.keyReply {s : State} (h : s.tidy) {o : Origin} {off n : Nat} : (s.keyReply o off n).tidy :=
  h.reply

theorem State.tidy.outsideKey {s : State} (h : s.tidy) {o : Origin} {me : KeyWaiter} {off : Nat} {sup : Bool} {op : KeyOp} {size : Nat}
    {task : BitVec 16} :
    (s.outsideKey o me off sup op size task).tidy := by
  unfold State.outsideKey
  extract_lets gone wait
  have hgone : gone.tidy := h.leaveQueue
  have hwait : wait.tidy := h.congr
  split
  · exact hgone.reply
  · exact hgone.reply
  · dsimp only
    split
    · exact hgone.reply
    · split
      · exact hgone.reply
      · split
        · exact hgone.reply
        · split
          · exact hgone.reply
          · exact hgone.reply
          · exact hgone.keyReply
          · next e => exact State.tidy.keyReply (State.tidy.leaveQueue (h.outsideJudge e))
          · next e =>
            split
            · exact hwait
            · exact State.tidy.keyReply (State.tidy.leaveQueue (h.outsideJudge e))
          · split
            · exact hwait
            · exact h.putEntry.leaveQueue.keyReply

theorem State.tidy.outsideDone {s : State} (h : s.tidy) {o : Origin} {off : Nat} {op : KeyOp} {size : Nat} : (s.outsideDone o off op size).tidy := by
  unfold State.outsideDone
  extract_lets row
  have hrow (t : Transfer) : (row t).tidy := by
    unfold row
    split
    · split
      · exact h.transferRow
      · exact h
    · exact h
  cases op with
  | lend c | share c => exact (hrow _).keyReply
  | ret | drop | unshare => exact (hrow _).keyReply
  | _ => exact h.keyReply

theorem State.tidy.outsideHalf {s : State} (h : s.tidy) {o : Origin} {me : KeyWaiter} {off size : Nat} {lender : BitVec 32} {put : Option Bool} :
    (s.outsideHalf o me off size lender put).tidy := by
  unfold State.outsideHalf
  dsimp only
  split
  · exact h.leaveQueue.reply
  · exact h.leaveQueue.reply
  · split
    · exact h.congr
    · split
      · split
        · exact h.leaveQueue.reply
        · split
          · exact h.leaveQueue.keyReply
          · exact h.putEntry.leaveQueue.keyReply
      · split
        · split
          · exact h.delEntry.leaveQueue.keyReply
          · exact h.leaveQueue.reply
        · exact h.leaveQueue.reply

theorem State.tidy.rebooted {s : State} (h : s.tidy) : s.rebooted.tidy := ⟨h.1, rfl, nofun⟩

theorem State.tidy.mapHarts {s : State} (h : s.tidy) {f : Hart → Hart} : (s.mapHarts f).tidy := by
  refine h.foldl fun t a ht => ?_
  exact ht.setHart

theorem State.tidy.execFrameCopyStart {s : State} (h : s.tidy) {stack index src dst : Nat} : TidyOut (execFrameCopyStart stack index src dst s) :=
  h.next.ite h.frameWrite.next

theorem State.tidy.execFrameEntryFree {s : State} (h : s.tidy) {stack index : Nat} : TidyOut (execFrameEntryFree stack index s) :=
  h.next.ite h.frameWrite.next

theorem State.tidy.execSeatRefusedOp {s : State} (h : s.tidy) {node op : Nat} : TidyOut (execSeatRefusedOp node op s) :=
  h.outsideWrite.congr.next.ite h.next

theorem State.tidy.execSnapshotTrigger {s : State} (h : s.tidy) : TidyOut (execSnapshotTrigger s) := by
  unfold Machine.execSnapshotTrigger
  split
  · exact h.next
  · exact h.snapTrigger.next

theorem State.tidy.execSnapshotLatch {s : State} (h : s.tidy) : TidyOut (execSnapshotLatch s) := by
  unfold Machine.execSnapshotLatch
  split
  · exact h.next.ite h.congr.next
  · exact h.next

theorem State.tidy.execSnapshotLanded {s : State} (h : s.tidy) : TidyOut (execSnapshotLanded s) :=
  h.congr.next.ite h.next

theorem State.tidy.execHostAccess {s : State} (h : s.tidy) {node ctx space off : Nat} {write : Bool} {data : List Byte} :
    TidyOut (execHostAccess node ctx space off write data s) := by
  unfold Machine.execHostAccess
  dsimp only
  split
  · exact h.next
  · split
    · exact h.powerOn.outsideSet.next
    · exact h.powerOn.outsideGet.next

theorem State.tidy.execFabricRequest {s : State} (h : s.tidy) {agent ctx space off : Nat} {sup : Bool} {op : FabricOp} :
    TidyOut (execFabricRequest agent ctx space off sup op s) := by
  have ht := h.powerOn
  unfold Machine.execFabricRequest
  refine .ite h.next (State.tidy.next ?_)
  split
  · exact ht.outsideGet
  · exact ht.outsideSet
  · exact ht.outsideOp
  · exact ht.outsideOp
  · exact ht.outsideAtomic
  · exact ht.outsideKey
  · exact ht.outsideDone
  · exact ht.outsideHalf
  · exact ht.outsideHalf
  · exact ht.leaveQueue.loseHolders.keyReply
  · exact ht.leaveQueue.loseHolders.keyReply
  · exact ht.dropHolder.keyReply
  · exact ht.purgeRegion.keyReply

theorem State.tidy.withPort {s : State} (h : s.tidy) {n : Nat} {f : Port → Port} : (withPort s n f).tidy := h.congr

theorem State.tidy.execNodeUnreachable {s : State} (h : s.tidy) {node : Nat} : TidyOut (execNodeUnreachable node s) :=
  h.next.ite h.congr.leaveQueue.loseHolders.seatRelease.next

theorem State.tidy.execStackScrub {s : State} (h : s.tidy) {sector finding : Nat} : TidyOut (execStackScrub sector finding s) :=
  h.next.ite (h.count.next.ite h.congr.next)

theorem State.tidy.spoilRow {s : State} (h : s.tidy) {core row : Nat} : (s.spoilRow core row).tidy := h.setCore

theorem State.tidy.spoilUnit {s : State} (h : s.tidy) {k : Nat} : (s.spoilUnit k).tidy := h.congr

theorem State.tidy.execCoreScrub {s : State} (h : s.tidy) {core row finding : Nat} : TidyOut (execCoreScrub core row finding s) :=
  h.next.ite (h.count.next.ite (h.count.spoilRow.next.ite h.count.spoilUnit.next))

theorem State.tidy.strike {s : State} (h : s.tidy) {x : Strike} : (s.strike x).tidy := by
  unfold State.strike
  extract_lets counted
  have hc (row unit : Nat) : (counted row unit).tidy := h.count
  split
  · dsimp only
    split
    · exact h
    · split
      · exact (hc _ _).spoilUnit
      · exact hc _ _
  · dsimp only
    split
    · exact h
    · split
      · exact (hc _ _).spoilUnit
      · exact hc _ _
  · split
    · exact h
    · split
      · exact (hc _ _).spoilRow
      · exact hc _ _
  · split
    · exact h
    · split
      · exact (hc _ _).setCore
      · exact hc _ _
  · split
    · exact h
    · exact h.count.setCore
  · split
    · exact h
    · exact h.count.setCore
  · split
    · exact h
    · exact h.congr
  · split
    · exact h
    · exact h.count.setCore
  · split
    · exact h
    · split
      · exact (hc _ _).failCore
      · exact hc _ _
  · split
    · exact h
    · split
      · exact (hc _ _).loseEntry
      · exact hc _ _

theorem State.tidy.execDeviceReset {s : State} (h : s.tidy) : TidyOut (execDeviceReset s) :=
  .ite (.ite (State.tidy.next h.congr) (State.tidy.next h.congr)) (State.tidy.next (State.tidy.congr h.rebooted))

theorem State.tidy.execHbmZeroingDone {s : State} (h : s.tidy) : TidyOut (execHbmZeroingDone s) :=
  .ite h.next (State.tidy.next (State.tidy.writePhys (h.withMem (memClear_wf _ _ _ h.1))))

theorem State.tidy.execGueskStart {s : State} (h : s.tidy) : TidyOut (execGueskStart s) :=
  .ite h.next (.ite (State.tidy.next (State.tidy.congr h.focus)) (State.tidy.next (State.tidy.congr h.focus.failCore)))

theorem State.tidy.execThermalSuspend {s : State} (h : s.tidy) : TidyOut (execThermalSuspend s) :=
  h.congr.mapHarts.next

theorem State.tidy.execThermalResume {s : State} (h : s.tidy) : TidyOut (execThermalResume s) :=
  h.congr.mapHarts.next

theorem State.tidy.execIdleEntry {s : State} (h : s.tidy) : TidyOut (execIdleEntry s) := by
  unfold Machine.execIdleEntry
  split
  · exact h.congr.next.ite h.next
  · exact h.next

/-! Reductions, scans, moves and masks. -/

theorem State.tidy.reduce {s : State} (h : s.tidy) {k : Fold} {xd : XReg} {va : VReg} {xl : XReg} {msk : MReg} {rm : BitVec 3} {accept : Tag → Bool} :
    TidyOut (s.reduce k xd va xl msk rm accept) := by
  refine h.orTrap fun _ => h.whenFree fun u hu => ?_
  exact hu.waitWhole.ite hu.raise.setX.retireV.next

theorem State.tidy.scanOut {s : State} (h : s.tidy) {vd va : VReg} {srcs : List VReg} {tag : Tag} {n limit : Nat} {msk : MReg} {z : Bool}
    {srcVals : List Nat}
    {outs : List (Nat × Flags)} : TidyOut (s.scanOut vd va srcs tag n limit msk z srcVals outs) := h.produce fun _ ht => ht

theorem State.tidy.scan {s : State} (h : s.tidy) {k : Fold} {excl : Bool} {vd va : VReg} {xl : XReg} {msk : MReg} {z : Bool} {rm : BitVec 3} :
    TidyOut (s.scan k excl vd va xl msk z rm) := h.orTrap fun _ => h.whenFree fun _ hu => hu.scanOut

theorem State.tidy.move {s : State} (h : s.tidy) {vd : VReg} {srcs whole : List VReg} {checks : Except Trap Unit} {tag : Tag} {n limit : State → Nat}
    {out : State → Nat → Nat} {known : State → Bool} : TidyOut (s.move vd srcs whole checks tag n limit out known) :=
  h.orTrap fun _ => h.whenFree fun _ hu => .ite hu.waitWhole (hu.produce fun _ ht => ht)

theorem State.tidy.segReduce {s : State} (h : s.tidy) {k : Fold} {vd va vb : VReg} {xl : XReg} {msk : MReg} {rm : BitVec 3} :
    TidyOut (s.segReduce k vd va vb xl msk rm) :=
  h.orTrap fun _ => h.whenFree fun _ hu => .ite hu.waitWhole (hu.orTrap fun _ => hu.produce fun _ ht => ht)

theorem State.tidy.extendBoth {s : State} (h : s.tidy) {vd ve : VReg} : Carries (s.extendBoth vd ve) fun t => t := by
  unfold State.extendBoth
  split
  · exact .error
  · next e =>
    have ht := h.extend _ e
    split
    · exact .error
    · next e =>
      have hu := ht.extend _ e
      exact .ok hu

theorem State.tidy.unzipRun {s : State} (h : s.tidy) {vd ve : VReg} {out : Nat → Nat} {j k : Nat} : (s.unzipRun vd ve out j k).s.tidy := by
  induction k generalizing s j with
  | zero => exact h
  | succ k ih =>
    unfold State.unzipRun
    split
    · exact h
    · next e =>
      have ht := h.extendBoth _ e
      exact ih ht.putElem.putElem

theorem State.tidy.execVunzip {s : State} (h : s.tidy) {vd ve va xl : BitVec 5} : TidyOut (execVunzip vd ve va xl s) := by
  refine h.orTrap fun _ => h.whenFree fun u hu => ?_
  extract_lets v0 kept stop halt t r
  have hr : r.s.tidy := hu.openDest.openDest.unzipRun
  split
  · exact hr.stopAs.next
  · refine .ite (State.tidy.next (State.tidy.retireV ?_)) hr.stopAs.next
    clear_value kept
    split
    · exact hr.releaseDesc
    · exact hr

theorem State.tidy.execVsegscan {s : State} (h : s.tidy) {vd va vb xl : BitVec 5} {msk : BitVec 3} {z : Bool} {rm : BitVec 3} :
    TidyOut (execVsegscan vd va vb xl msk z rm s) :=
  h.orTrap fun _ => h.whenFree fun _ hu => .ite hu.waitWhole (hu.orTrap fun _ => hu.scanOut)

theorem State.tidy.compare {s : State} (h : s.tidy) {md : MReg} {va vb : VReg} {xl : XReg} {msk : MReg} {z sc : Bool} {accept : Tag → Bool} {c : Cmp} :
    TidyOut (s.compare md va vb xl msk z sc accept c) := h.orTrap fun _ => h.whenFree fun _ hu => .ite hu.waitWhole hu.produceMask

theorem State.tidy.maskLogic {s : State} (h : s.tidy) {md : MReg} {srcs : List MReg} {xl : XReg} {f : List Bool → Bool} :
    TidyOut (s.maskLogic md srcs xl f) :=
  h.orTrap fun _ => h.whenFree fun _ hu => .ite hu.waitWhole hu.produceMask

theorem State.tidy.maskValue {s : State} (h : s.tidy) {xd : XReg} {ma : MReg} {xl : XReg} {f : State → Nat → Word} : TidyOut (s.maskValue xd ma xl f) :=
  h.orTrap fun _ => .ite h.waitWhole h.setX.retireV.next

/-- A mask made from a chain: `mfromv` and `vconflict`. -/
theorem State.tidy.maskJob {s : State} (h : s.tidy) {c : Except Trap α} {chains : List VReg} {masks : List MReg} {same : State → Prop}
    [∀ u, Decidable (same u)]
    {md msk : MReg} {z : Bool} {n per : Nat} {limit : State → Nat} {checked : Bool} {bit : State → Nat → Bool × Flags} :
    TidyOut (s.orTrap c fun _ => s.whenFree chains masks fun u =>
      if same u then u.waitWhole else u.produceMask md msk z n (limit u) per checked (bit u)) :=
  h.orTrap fun _ => h.whenFree fun _ hu => .ite hu.waitWhole hu.produceMask

theorem State.tidy.execMclr {s : State} (h : s.tidy) {md : BitVec 3} : TidyOut (execMclr md s) :=
  h.orTrap fun _ => h.whenFree fun _ hu => hu.setMask.retireV.next

/-! Scalar memory and floating point. -/

theorem State.tidy.wrF {s : State} (h : s.tidy) {xd : XReg} {r : Nat × Flags} : TidyOut (s.wrF xd r) := h.withHart.wr

theorem State.tidy.load {s : State} (h : s.tidy) {xd xa : XReg} {asr w : BitVec 2} {imm : BitVec 32} {ext : Nat → Nat → Word} :
    TidyOut (load s xd xa asr w imm ext) := by
  unfold Machine.load
  dsimp only
  split
  · exact h.trapNow.next
  · next s2 e =>
      have hs2 : s2.tidy := h.scalarLoad _ e
      exact hs2.wr

theorem State.tidy.execSt {s : State} (h : s.tidy) {xs xa : XReg} {asr w : BitVec 2} {imm : BitVec 32} : TidyOut (execSt xs xa asr w imm s) := by
  unfold Machine.execSt
  split
  · exact h.trapNow.next
  · next s1 e =>
      have hs1 : s1.tidy := h.scalarStore _ e
      exact hs1.ok

/-! Selection and the steps of the traps. -/

theorem State.tidy.select {s : State} (h : s.tidy) {kind : BitVec 4} {xd xa xb xc : XReg} {asr : BitVec 2} {imm : BitVec 20} :
    TidyOut (s.select kind xd xa xb xc asr imm) := by
  refine .ite h.trapWord (.ite h.trap (.ite h.trap (.ite h.trap (.ite h.trap (.ite h.trap (.ite h.trap (.ite h.trap (.ite h.trap ?_))))))))
  split
  · exact h.awake.wrV
  · exact .ite h.hold.next h.awake.issueCommand.wrV

theorem State.tidy.execSelectionScan {s : State} (h : s.tidy) {hart ticket stack : Nat} : TidyOut (execSelectionScan hart ticket stack s) := by
  unfold Machine.execSelectionScan
  dsimp only
  split
  · exact h.next.ite h.focus.setCommand.next
  · exact h.next

theorem State.tidy.execSelectionMerge {s : State} (h : s.tidy) {hart ticket : Nat} : TidyOut (execSelectionMerge hart ticket s) := by
  unfold Machine.execSelectionMerge
  dsimp only
  split
  · split
    · exact h.next
    · split
      · exact h.focus.endCommand.next
      · exact h.focus.homeWrite.homeWrite.endCommand.next
  · exact h.next

theorem State.tidy.execTrapret {s : State} (h : s.tidy) : TidyOut (execTrapret s) :=
  h.trapWord.ite h.returnFromTrap.next

theorem State.tidy.leaveQueues {s : State} (h : s.tidy) : s.leaveQueues.tidy :=
  h.congr

theorem State.tidy.takeMachineCheck {s : State} (h : s.tidy) {tval : Word} : (s.takeMachineCheck tval).tidy := by
  unfold State.takeMachineCheck
  extract_lets c
  split
  · exact h.takeRest
  · exact h.withHart.trapNow

theorem State.tidy.execInterruptTaken {s : State} (h : s.tidy) {hart : Nat} : TidyOut (execInterruptTaken hart s) := by
  unfold Machine.execInterruptTaken
  dsimp only
  split
  · exact h.next
  · split
    · exact h.focus.leaveQueues.takeMachineCheck.next
    · exact h.next.ite h.focus.leaveQueues.enterHinge.next

theorem State.tidy.execTimerExpiry {s : State} (h : s.tidy) {hart : Nat} : TidyOut (execTimerExpiry hart s) :=
  .ite (State.tidy.next (State.tidy.congr h.setHart)) h.next

theorem State.tidy.execTrapRecordDiscard {s : State} (h : s.tidy) {hart : Nat} : TidyOut (execTrapRecordDiscard hart s) :=
  h.focus.discardRr.next.ite h.next

/-! A turn: the word that a hart issues, and what becomes of its outcome. -/

/-- The state in which a word issues, or in which the hart stops without one, is tidy. -/
def TidyIssue : Issued → Prop
  | .stop t => t.tidy
  | .word _ t => t.tidy

theorem State.tidy.stop {s : State} (h : s.tidy) : TidyIssue (.stop s) := h

theorem State.tidy.word {s : State} (h : s.tidy) {i : Instr} : TidyIssue (.word i s) := h

theorem TidyIssue.ite {c : Prop} [Decidable c] {a b : Issued} (ha : TidyIssue a) (hb : TidyIssue b) : TidyIssue (if c then a else b) := by
  split
  · exact ha
  · exact hb

theorem State.tidy.passDone {s : State} (h : s.tidy) : s.passDone.tidy := by
  unfold State.passDone
  dsimp only
  split
  · exact h
  · split <;> exact h.congr

theorem State.tidy.join {s : State} (h : s.tidy) {c : Convoy} {i : Instr} {w : Word} : TidyIssue (s.join c i w) := h.withHart.word

theorem State.tidy.openConvoy {s : State} (h : s.tidy) {w : Word} : TidyIssue (s.openConvoy w) := by
  unfold State.openConvoy
  split
  · exact h.enterHinge.stop
  · extract_lets c
    split
    · exact h.withHart.trapNow.stop
    · exact h.join

theorem State.tidy.closeConvoy {s : State} (h : s.tidy) {c : Convoy} {next : State} (hnext : next.tidy) : (s.closeConvoy c next).tidy := by
  unfold State.closeConvoy
  split
  · exact h.takeRest
  · exact hnext

theorem State.tidy.nextInConvoy {s : State} (h : s.tidy) {c : Convoy} {w : Word} : TidyIssue (s.nextInConvoy c w) := by
  unfold State.nextInConvoy
  extract_lets n h1 apart
  have hapart : apart.tidy := h.withHart
  split
  · refine (h.closeConvoy ?_).stop
    split
    · exact hapart.trapNow
    · exact h.trapNow
  · split
    · exact (h.closeConvoy hapart.enterHinge).stop
    · split
      · exact (h.closeConvoy hapart.enterHinge).stop
      · split
        · exact h.takeRest.stop
        · exact h.join

theorem State.tidy.checkInside {s : State} (h : s.tidy) {c : Convoy} {go : State → Issued} (hgo : ∀ u, u.tidy → TidyIssue (go u)) :
    TidyIssue (s.checkInside c go) := by
  unfold State.checkInside
  split
  · split
    · exact (h.closeConvoy h.withHart.trapNow).stop
    · exact hgo _ h
  · exact hgo _ h

theorem State.tidy.fetchAligned {s : State} (h : s.tidy) : Carries s.fetchAligned Prod.snd := by
  unfold State.fetchAligned
  split
  · exact .error
  · exact h.fetchWordAs

theorem State.tidy.fetchAndIssue {s : State} (h : s.tidy) : TidyIssue s.fetchAndIssue := by
  unfold State.fetchAndIssue
  split
  · split
    · exact h.withHart.trapNow.stop
    · next e => exact (h.fetchAligned _ e).openConvoy
  · extract_lets p held
    refine .ite h.takeRest.stop ?_
    split
    · refine (h.closeConvoy (State.tidy.trapNow ?_)).stop
      split
      · exact h.withHart
      · exact h
    · next e =>
      have ht := h.fetchAligned _ e
      refine .ite ?_ (.ite ?_ (ht.checkInside fun u hu => hu.nextInConvoy))
      · split
        · exact ht.trapNow.stop
        · exact ht.checkInside fun u hu => .ite hu.takeRest.stop hu.withHart.word
      · refine .ite ht.takeRest.stop ?_
        extract_lets h1 s2
        have hs2 : s2.tidy := ht.withHart
        split
        · exact hs2.word
        · exact hs2.openConvoy

theorem State.tidy.tryAgain {s : State} (h : s.tidy) {leaves again : Bool} : TidyIssue (s.tryAgain leaves again) := by
  unfold State.tryAgain
  split
  · exact h.word
  · exact h.word.ite h.stop
  · exact h.awake.stop

theorem State.tidy.reloadWords {s : State} (h : s.tidy) : s.reloadWords.tidy := h.withHart

theorem State.tidy.issue {s : State} (h : s.tidy) : TidyIssue s.issue := by
  unfold State.issue
  dsimp only
  split
  · exact h.tryAgain
  · exact h.tryAgain
  · exact h.tryAgain
  · exact h.tryAgain.ite h.tryAgain
  · exact h.tryAgain
  · split
    · split
      · exact h.reloadWords.passDone.word
      · exact h.reloadWords.passDone.fetchAndIssue
    · exact h.reloadWords.passDone.fetchAndIssue
  · exact h.stop

theorem State.tidy.checkedAt {t : State} (h : t.tidy) {s : State} {i : Instr} {v : Word} {rest : List Word} : (t.checkedAt s i v rest).tidy := by
  unfold State.checkedAt
  dsimp only
  split
  · exact h.congr.awake.stopV
  · exact h.congr.trapNow

theorem State.tidy.readCheck {s : State} (h : s.tidy) {i : Instr} {o : Out} (ho : TidyOut o) : TidyOut (s.readCheck i o) := by
  intro u e
  obtain e | ⟨t, e, ⟨v, rest, -, hu⟩ | ⟨row, -, hu⟩⟩ := readCheck_next e
  · exact ho u e
  · rw [hu]
    exact h.dropBadLines.checkedAt
  · rw [hu]
    exact h.checkedAt

theorem State.tidy.heldLoad {s : State} (h : s.tidy) {i : Instr} {o : Out} (ho : TidyOut o) : TidyOut (s.heldLoad i o) := by
  intro u e
  obtain rfl | ⟨-, x, rfl⟩ := heldLoad_next e
  · exact ho u rfl
  · exact h.awake.stopAs

theorem State.tidy.reschedule {s : State} (h : s.tidy) : s.reschedule.tidy := by
  obtain ⟨mem, core, cores, -⟩ := reschedule_keeps s
  unfold State.tidy
  rw [mem, core, cores]
  exact h

theorem State.tidy.taken {s : State} (h : s.tidy) {o : Outside} : (s.taken o).tidy := by
  unfold State.taken
  split
  · split
    · exact h.congr
    · exact h
  · exact h

/-! The words whose operation is given by a function of its own, each by the lemma of the shared operation. -/

theorem State.tidy.special {s : State} (h : s.tidy) {fn : Special8} {vd va : VReg} {xl : XReg} {msk : MReg} {z : Bool} {rm : BitVec 3} :
    TidyOut (s.special fn vd va xl msk z rm) := by
  unfold State.special
  exact h.elementwise

theorem State.tidy.execLdn {s : State} (h : s.tidy) {xd xa : XReg} {asr w : BitVec 2} {imm : BitVec 32} : TidyOut (execLdn xd xa asr w imm s) := by
  unfold Machine.execLdn
  exact h.load

theorem State.tidy.execCsrw {s : State} (h : s.tidy) {xd xa : XReg} {csr : BitVec 10} : TidyOut (execCsrw xd xa csr s) := by
  unfold Machine.execCsrw
  exact h.csrUpdate

theorem State.tidy.execCsrc {s : State} (h : s.tidy) {xd xa : XReg} {csr : BitVec 10} : TidyOut (execCsrc xd xa csr s) := by
  unfold Machine.execCsrc
  exact h.csrUpdate

theorem State.tidy.execVclass {s : State} (h : s.tidy) {vd va xl : BitVec 5} {msk : BitVec 3} {z : Bool} : TidyOut (execVclass vd va xl msk z s) := by
  unfold Machine.execVclass
  exact h.elementwise

theorem State.tidy.execVmov {s : State} (h : s.tidy) {vd va xl : BitVec 5} {msk : BitVec 3} {z : Bool} : TidyOut (execVmov vd va xl msk z s) := by
  unfold Machine.execVmov
  exact h.elementwise

theorem State.tidy.execVcvt {s : State} (h : s.tidy) {vd va xl : BitVec 5} {msk : BitVec 3} {z : Bool} {rm : BitVec 3} {ot : BitVec 4} :
    TidyOut (execVcvt vd va xl msk z rm ot s) := by
  unfold Machine.execVcvt
  exact h.elementwise

theorem State.tidy.execVcvtsat {s : State} (h : s.tidy) {vd va xl : BitVec 5} {msk : BitVec 3} {z : Bool} {rm : BitVec 3} {ot : BitVec 4} :
    TidyOut (execVcvtsat vd va xl msk z rm ot s) := by
  unfold Machine.execVcvtsat
  exact h.elementwise

theorem State.tidy.execMand {s : State} (h : s.tidy) {md ma mb : BitVec 3} {xl : BitVec 5} : TidyOut (execMand md ma mb xl s) := by
  unfold Machine.execMand
  exact h.maskLogic

theorem State.tidy.execMor {s : State} (h : s.tidy) {md ma mb : BitVec 3} {xl : BitVec 5} : TidyOut (execMor md ma mb xl s) := by
  unfold Machine.execMor
  exact h.maskLogic

theorem State.tidy.execMxor {s : State} (h : s.tidy) {md ma mb : BitVec 3} {xl : BitVec 5} : TidyOut (execMxor md ma mb xl s) := by
  unfold Machine.execMxor
  exact h.maskLogic

theorem State.tidy.execMandn {s : State} (h : s.tidy) {md ma mb : BitVec 3} {xl : BitVec 5} : TidyOut (execMandn md ma mb xl s) := by
  unfold Machine.execMandn
  exact h.maskLogic

theorem State.tidy.execMnot {s : State} (h : s.tidy) {md ma : BitVec 3} {xl : BitVec 5} : TidyOut (execMnot md ma xl s) := by
  unfold Machine.execMnot
  exact h.maskLogic

theorem State.tidy.execMset {s : State} (h : s.tidy) {md : BitVec 3} {xl : BitVec 5} : TidyOut (execMset md xl s) := by
  unfold Machine.execMset
  exact h.maskLogic

theorem State.tidy.execMpopc {s : State} (h : s.tidy) {xd : BitVec 5} {ma : BitVec 3} {xl : BitVec 5} : TidyOut (execMpopc xd ma xl s) := by
  unfold Machine.execMpopc
  exact h.maskValue

theorem State.tidy.execMfirst {s : State} (h : s.tidy) {xd : BitVec 5} {ma : BitVec 3} {xl : BitVec 5} : TidyOut (execMfirst xd ma xl s) := by
  unfold Machine.execMfirst
  exact h.maskValue

theorem State.tidy.execCpoolst {s : State} (h : s.tidy) {xd : BitVec 5} : TidyOut (execCpoolst xd s) := by
  unfold Machine.execCpoolst
  exact h.readChain

theorem State.tidy.execZop {s : State} (h : s.tidy) {zd : BitVec 3} {va vb xk : BitVec 5} {rm : BitVec 3} : TidyOut (execZop zd va vb xk rm s) := by
  unfold Machine.execZop
  exact h.accumulate

theorem State.tidy.execZopmx {s : State} (h : s.tidy) {zd : BitVec 3} {va vb xk : BitVec 5} {rm : BitVec 3} {vsa vsb : BitVec 5} :
    TidyOut (execZopmx zd va vb xk rm vsa vsb s) := by
  unfold Machine.execZopmx
  exact h.accumulate

/-- Every instruction and every step of a unit keeps memory and the pools canonical: the words of one form by the lemma of their shared operation. -/
theorem State.tidy.exec {s : State} (h : s.tidy) (i : Instr) : TidyOut (exec i s) := by
  cases i with
  | ld => exact h.load
  | ldn => exact h.execLdn
  | st => exact h.execSt
  | beq | bne | blt | bge | bltn | bgen => exact h.branch
  | jalr => exact .ite h.trap h.setX.transfer.next
  | csrr => exact h.execCsrr
  | csrs => exact h.csrUpdate
  | csrw => exact h.execCsrw
  | csrc => exact h.execCsrc
  | tlbinv => exact h.execTlbinv
  | fenceSv => exact h.execFenceSv
  | fenceAll => exact h.execFenceAll
  | estat => exact h.execEstat
  | setvl => exact h.execSetvl
  | hsave => exact h.execHsave
  | suspension => exact h.execSuspension
  | coreScrub => exact h.execCoreScrub
  | vadd | vsub | vrsub | vmul | vmulh | vdiv | vrem | vmin | vmax | vand | vor | vxor | vandn | vshl | vshr | vsra | vaddsat | vsubsat
    | vcopysign => exact h.arith2
  | vfma | vfms | vfnma => exact h.arith3
  | vabs | vneg | vsqrt | vclz | vpopc | vround => exact h.arith1
  | vclass => exact h.execVclass
  | vmov => exact h.execVmov
  | vcvt => exact h.execVcvt
  | vcvtsat => exact h.execVcvtsat
  | vexp2 | vexp | vlog2 | vrcp | vrsqrt | vsin | vcos | vtanh | vsigmoid => exact h.special
  | vdot => exact h.execVdot
  | vcvtfrommx vd va vb xl msk z => exact h.execVcvtfrommx (_z := z)
  | zdrain => exact h.execZdrain
  | zrow => exact h.execZrow
  | vsplat | mtov => exact h.generate
  | vid => exact .ite h.trapWord h.generate
  | vcmpeq | vcmpne | vcmplt | vcmple | vcmpgt | vcmpge | vcmpun => exact h.compare
  | mand => exact h.execMand
  | mor => exact h.execMor
  | mxor => exact h.execMxor
  | mandn => exact h.execMandn
  | mnot => exact h.execMnot
  | mset => exact h.execMset
  | mclr => exact h.execMclr
  | zchk => exact h.execZchk
  | mpopc => exact h.execMpopc
  | mfirst => exact h.execMfirst
  | mfromv | vconflict => exact h.maskJob
  | vcvtmx => exact h.execVcvtmx
  | vredsum | vredmax | vredmin | vredand | vredor => exact h.reduce
  | vscan | vscanx | vscanmax => exact h.scan
  | vcompress | vexpand | vslideup | vslidedn | vperm | vrev | vzip | vmergek | vsortk => exact h.move
  | vunzip => exact h.execVunzip
  | vsegsum | vsegmax | vsegmin => exact h.segReduce
  | vsegscan => exact h.execVsegscan
  | vld | vlds | vldx => exact h.vectorLoad
  | vst | vsts | vstx | vstxadd => exact h.vectorStore
  | cnew => exact h.execCnew
  | cshare => exact h.execCshare
  | cprep | csplice => exact h.splice
  | csplit => exact h.execCsplit
  | ctrimh | ctrimt | cslice => exact h.keepRun
  | cretag => exact h.execCretag
  | cflat => exact h.execCflat
  | cpriv => exact h.execCpriv
  | cfree => exact h.execCfree
  | clen => exact h.execClen
  | cinfo => exact h.execCinfo
  | cpoolst => exact h.execCpoolst
  | cwait => exact h.execCwait
  | reclaimSpine => exact h.execReclaimSpine
  | zmode => exact h.execZmode
  | zzero => exact h.execZzero
  | zop => exact h.execZop
  | zopmx => exact h.execZopmx
  | zload => exact h.execZload
  | kacq => exact h.execKacq
  | klend => exact h.execKlend
  | kshare => exact h.execKshare
  | kret => exact h.execKret
  | kdrop => exact h.execKdrop
  | kunshare => exact h.execKunshare
  | ksplit => exact h.execKsplit
  | kmerge => exact h.execKmerge
  | kquery => exact h.execKquery
  | krecover => exact h.execKrecover
  | kclean => exact h.execKclean
  | keyTransferComplete => exact h.execKeyTransferComplete
  | aadd | amin | amax | aminn | amaxn | aand | aor | axor | aswap | acas | afadd | afmax | ald | ast => exact h.atomic
  | fenceVs => exact h.execFenceVs
  | fenceVv => exact h.execFenceVv
  | gbar => exact h.execGbar
  | gbarin => exact h.execGbarin
  | gbarwt => exact h.execGbarwt
  | await => exact h.execAwait
  | fenceComplete => exact h.execFenceComplete
  | tlbinvComplete => exact h.execTlbinvComplete
  | awaitWake => exact h.execAwaitWake
  | awaitTimeout => exact h.execAwaitTimeout
  | ecopy | ecast | ewin => exact h.copyIssue
  | ecopyc => exact h.execEcopyc
  | ewait => exact h.execEwait
  | engineRow => exact h.execEngineRow
  | ecopycTransfer => exact h.execEcopycTransfer
  | copyCommandComplete => exact h.execCopyCommandComplete
  | qsel | qtopk | qcount => exact h.select
  | selectionScan => exact h.execSelectionScan
  | selectionMerge => exact h.execSelectionMerge
  | vrel => exact h.execVrel
  | yield => exact h.execYield
  | exit => exact h.execExit
  | launch => exact h.execLaunch
  | yieldExpiry => exact h.execYieldExpiry
  | hartResume => exact h.execHartResume
  | hartTerminate => exact h.execHartTerminate
  | hartExitComplete => exact h.execHartExitComplete
  | laneDebtTimeout => exact h.execLaneDebtTimeout
  | hload => exact h.execHload
  | gatherRequest => exact h.execGatherRequest
  | gatherReply => exact h.execGatherReply
  | scatter | scatterAdd => exact h.scatter
  | writePerformed => exact h.execWritePerformed
  | launchDoorbell => exact h.execLaunchDoorbell
  | launchPacketAdmit => exact h.execLaunchPacketAdmit
  | launchReady => exact h.execLaunchReady
  | priorityAging => exact h.next
  | gangPlacement => exact h.execGangPlacement
  | gangRestore => exact h.execGangRestore
  | hartStart => exact h.execHartStart
  | eviction => exact h.execEviction
  | evictionComplete => exact h.execEvictionComplete
  | frameCopyStart => exact h.execFrameCopyStart
  | frameCopyEnd => exact h.frameEnd.next
  | frameEntryFree => exact h.execFrameEntryFree
  | seatClaim | seatOffer | seatAccept | seatRelease | seatClear | windowWrite | attestationNonce | hipRaise => exact h.outsideWrite.next
  | seatRefusedOp => exact h.execSeatRefusedOp
  | snapshotTrigger => exact h.execSnapshotTrigger
  | snapshotLatch => exact h.execSnapshotLatch
  | snapshotLanded => exact h.execSnapshotLanded
  | hostAccess => exact h.execHostAccess
  | fabricRequest => exact h.execFabricRequest
  | flitReplay | portRetrainDone => exact h.withPort.next
  | nodeUnreachable => exact h.execNodeUnreachable
  | stackScrub => exact h.execStackScrub
  | deviceReset => exact h.execDeviceReset
  | hbmZeroingDone => exact h.execHbmZeroingDone
  | gueskStart => exact h.execGueskStart
  | thermalSuspend => exact h.execThermalSuspend
  | thermalResume => exact h.execThermalResume
  | idleEntry => exact h.execIdleEntry
  | trapret => exact h.execTrapret
  | ecall | ebreak => exact h.trapDone.next
  | interruptTaken => exact h.execInterruptTaken
  | timerExpiry => exact h.execTimerExpiry
  | trapRecordDiscard => exact h.execTrapRecordDiscard
  | nodeReadmission | powerCapCheck | thermalThrottle | idleExit | powerOff => exact State.tidy.next h.congr
  | jal => exact h.setX.transfer.next
  | add | sub | mul | mulh | mulhn | div | divn | rem | remn | and | or | xor | andn | shl | shr | sra | rotl | rotr | min | max | minn | maxn | slt | sltn | seq
    | clz | ctz | popc | bswap | sext | zext | sel => exact h.wr
  | addi | andi | ori | xori | shli | shri | srai | slti | sltni | seqi | muli | ldi | ldhi | pcadd => exact h.wr
  | fadd | fsub | fmul | fdiv | fsqrt | fma | fms | fnma | fmin | fmax | feq | flt | fle | fcvtfi | fcvtif | fcvtff | fclass | fsgn => exact h.wrF
/-- The next mover chosen does not matter: whatever moves leaves memory and the pools canonical. -/
theorem State.tidy.step {s t : State} (h : s.tidy) (e : Machine.step s = .next t) : t.tidy := by
  obtain ⟨u, ht, hu⟩ := step_cases e
  rw [ht]
  refine State.tidy.reschedule ?_
  obtain ⟨-, hu⟩ | ⟨i, -, hu⟩ | ⟨i, -, hu⟩ | ⟨w, off, -, hu⟩ | ⟨x, -, hu⟩ | ⟨k, -, hu⟩ | ⟨k, i, v, -, hv, hu⟩ := hu
  · exact hu ▸ h
  · exact h.exec i u hu
  · exact h.taken.exec i u hu
  · exact hu ▸ h.taken.outsideRead
  · exact hu ▸ h.taken.strike
  · have hissue : TidyIssue (s.focus k).issue := h.focus.issue
    rw [hu] at hissue
    exact hissue
  · have hissue : TidyIssue (s.focus k).issue := h.focus.issue
    rw [hv] at hissue
    exact State.tidy.heldLoad hissue (State.tidy.readCheck hissue (State.tidy.exec hissue i)) u hu

end Sys2Proof.Machine

open Sys2Proof Sys2Proof.Machine

/-- Settles O9: each operation that moves or writes memory or a pool keeps it canonical, hence so does each word and each step of a unit. -/
theorem stepKeepsMemoryTidy : Obligations.StepKeepsMemoryTidy := by
  unfold Obligations.StepKeepsMemoryTidy
  intro s t h e
  exact h.step e

end

section
/-! PROOFS. A chain with a span past the end of its spine: its slots are then read in the link that follows. -/

namespace Sys2Proof.Tests
open Sys2Proof.Machine

/-- Two chains of five i8 elements in five spans of one spine, all in link 2. The first span of v1 begins behind the 256 slots of the spine, and so what
lists its data link are bytes of link 1, which is free. -/
def pastSpine : State :=
  let s := withOneChain ⟨1, 4, [⟨0, 131072, 1⟩, ⟨0, 0, 1⟩, ⟨0, 2, 1⟩, ⟨0, 4, 1⟩]⟩ [(0, ⟨.spine, 0, 0xFE, 5, 1⟩), (2, ⟨.data, 0, 0, 1, 0⟩)]
    [(0, 2), (1, 0x80), (512, 2), (513, 0x80), (1024, 7)]
  hart s fun h => h.setChain 2 ⟨1, 1, [⟨0, 6, 1⟩]⟩

theorem pastSpine_wellHeld : pastSpine.wellHeld (pastSpine.h.chain 1) ∧ pastSpine.wellHeld (pastSpine.h.chain 2) :=
  ⟨wellHeld_of (by decide +kernel), wellHeld_of (by decide +kernel)⟩

/-- The flat copy takes link 1 for its spine, and copies 0 for the 7 of that element, the second of the join. -/
theorem pastSpine_cprep : (match exec (.cprep 9 1 2) pastSpine with | .next t => decide (t.elem (t.h.chain 9) 1 = 0) | _ => false) = true := by
  decide +kernel

end Sys2Proof.Tests

open Sys2Proof Sys2Proof.Machine Sys2Proof.Tests

/-- Refutes O31: nothing in the statement keeps the spans of a joined chain within their spines (R154). In `pastSpine` a flat copy of more than four spans takes
for its own spine the link whose bytes list an element of v1, and so loses that element (`pastSpine_cprep`). -/
theorem not_chainWordsMakeTheirChains : ¬ Obligations.ChainWordsMakeTheirChains := by
  unfold Obligations.ChainWordsMakeTheirChains
  intro makes
  obtain ⟨-, -, -, -, -, -, -, -, joins, -⟩ := makes pastSpine 9 10 1 2 0 0 1 (by decide +kernel) (calm_of (by decide +kernel))
    (by unfold State.unclaimed; decide +kernel) (lowCounts_of (by decide +kernel)) (by decide +kernel) (by decide +kernel) (by decide +kernel)
  obtain ⟨-, flat⟩ := joins (by decide +kernel) (Nat.zero_le _) (by decide +kernel) (by decide +kernel) (by decide +kernel) (by decide +kernel)
  obtain ⟨t, next, joined, -⟩ := flat (by decide +kernel) (tidy_of (by decide +kernel)) pastSpine_wellHeld.1 pastSpine_wellHeld.2 (room_of (by decide +kernel))
  have copied := pastSpine_cprep
  rw [next] at copied
  have kept : t.elem (t.h.chain 9) 1 = 7 := (joined.elems 1 (by decide +kernel)).trans (by decide +kernel)
  exact absurd (kept.symm.trans (of_decide_eq_true copied)) (by decide)

end

section
/-! PROOFS. A fresh chain (R154, R162, R165, R167, R170): the reads and writes of the link pool, the storage that a chain takes, the elements put into
it one after the other, and the rows of Tables 11-2, 11-4, 11-5 and 11-6 that make one. -/

namespace Sys2Proof.Machine
set_option Elab.async false

/-! Bytes of a memory after several are written or cleared. -/

theorem memGet_memSetN (bs : List Byte) : ∀ (m : Memory) (k j : Nat), m.wf → memGet (memSetN m k bs) j = if k ≤ j ∧ j < k + bs.length then bs.getD
    (j - k) 0 else memGet m j := by
  induction bs with
  | nil => intro m k j _; rw [if_neg (by simp), memSetN]
  | cons b bs ih =>
    intro m k j wf
    rw [memSetN, ih _ _ _ (memSet_wf m k b wf), memGet_memSet k j b m wf, List.length_cons]
    by_cases here : j = k
    · subst here
      simp
    · by_cases inside : k ≤ j ∧ j < k + (bs.length + 1)
      · obtain ⟨d, rfl⟩ : ∃ d, j = k + 1 + d := ⟨j - (k + 1), by omega⟩
        rw [if_pos (by omega), if_pos inside, show k + 1 + d - k = d + 1 by omega, Nat.add_sub_cancel_left, List.getD_cons_succ]
      · rw [if_neg (by omega), if_neg here, if_neg inside]

theorem memGet_filter (p : Nat → Bool) (j : Nat) : ∀ (lo : Option Nat) (m : Memory), memWfFrom lo m →
    memGet (m.filter fun c => p c.1) j = if p j then memGet m j else 0 := by
  intro lo m
  induction m generalizing lo with
  | nil => intro _; simp [memGet]
  | cons c m ih =>
    obtain ⟨k, v⟩ := c
    intro wf
    obtain ⟨-, -, wf⟩ := memWfFrom_cons.1 wf
    have above : j ≤ k → memGet (m.filter fun c => p c.1) j = 0 := fun below => memGet_below _ (filter_wfFrom _ _ _ wf) below
    rw [List.filter_cons]
    by_cases kept : p k = true
    · rw [if_pos kept, memGet, memGet, ih _ wf]
      by_cases here : k = j
      · rw [if_pos here, if_pos here, if_pos (here ▸ kept)]
      · rw [if_neg here, if_neg here]
        split
        · exact (ite_self 0).symm
        · rfl
    · rw [if_neg kept, ih _ wf, memGet]
      by_cases here : k = j
      · rw [if_neg (here ▸ kept), if_neg (here ▸ kept)]
      · rw [if_neg here]
        by_cases below : j < k
        · rw [if_pos below, memGet_below _ wf below.le]
        · rw [if_neg below]

theorem memGet_memClear {m : Memory} (wf : m.wf) (lo n j : Nat) : memGet (memClear m lo n) j = if lo ≤ j ∧ j < lo + n then 0 else memGet m j := by
  have cleared := memGet_filter (fun k => decide (k < lo ∨ lo + n ≤ k)) j none m wf
  unfold memClear
  rw [cleared]
  by_cases inside : lo ≤ j ∧ j < lo + n
  · rw [if_pos inside, if_neg (by simp; omega)]
  · rw [if_neg inside, if_pos (by simp; omega)]

/-! The list of links: how long it is, and the link taken next. -/

theorem length_assocSet {l : List (Nat × α)} (sorted : (l.map Prod.fst).Pairwise (· < ·)) (i : Nat) (a : α) :
    (assocSet l i a).length = if (l.find? fun p => p.1 == i).isSome then l.length else l.length + 1 := by
  induction l with
  | nil => rfl
  | cons p l ih =>
    obtain ⟨k, b⟩ := p
    rw [List.map_cons, List.pairwise_cons] at sorted
    obtain ⟨above, sorted⟩ := sorted
    have absent : i < k → (l.find? fun p => p.1 == i) = none := fun below => by
      rw [List.find?_eq_none]
      intro q hq
      have := above q.1 (List.mem_map_of_mem hq)
      simp
      omega
    unfold assocSet
    by_cases below : i < k
    · simp [below, absent below, show k ≠ i by omega]
    · by_cases here : i = k
      · simp [here]
      · simp only [below, here, if_false, List.length_cons, ih sorted]
        rw [List.find?_cons_of_neg (by simpa using Ne.symm here)]
        split <;> rfl

theorem le_firstFree (l : List (Nat × Link)) : ∀ i, i ≤ firstFree l i := by
  induction l with
  | nil => exact fun _ => le_rfl
  | cons q l ih =>
    intro i
    unfold firstFree
    split
    · exact (Nat.le_succ i).trans (ih (i + 1))
    · exact le_rfl

theorem firstFree_spec : ∀ (l : List (Nat × Link)) (i : Nat), (l.map Prod.fst).Pairwise (· < ·) → (∀ p ∈ l, i ≤ p.1) →
    firstFree l i ≤ i + l.length ∧ ∀ p ∈ l, p.1 ≠ firstFree l i := by
  intro l
  induction l with
  | nil => intro i _ _; exact ⟨le_rfl, fun _ h => nomatch h⟩
  | cons p l ih =>
    obtain ⟨k, a⟩ := p
    intro i sorted least
    rw [List.map_cons, List.pairwise_cons] at sorted
    obtain ⟨above, sorted⟩ := sorted
    have first : i ≤ k := least _ List.mem_cons_self
    have rest : ∀ q ∈ l, k < q.1 := fun q hq => above _ (List.mem_map_of_mem hq)
    unfold firstFree
    rw [List.length_cons]
    by_cases here : k = i
    · obtain ⟨bound, free⟩ := ih (i + 1) sorted fun q hq => here ▸ rest q hq
      rw [if_pos here]
      refine ⟨by omega, fun q hq => ?_⟩
      obtain rfl | hq := List.mem_cons.1 hq
      · exact ((here ▸ Nat.lt_succ_self _ : k < i + 1).trans_le (le_firstFree l _)).ne
      · exact free q hq
    · rw [if_neg here]
      refine ⟨by omega, fun q hq => ?_⟩
      obtain rfl | hq := List.mem_cons.1 hq
      · exact here
      · exact (first.trans_lt (rest q hq)).ne'

theorem State.tidy.sorted {s : State} (h : s.tidy) : (s.core.links.map Prod.fst).Pairwise (· < ·) := (Core.tidy_iff.1 h.2.1).1

/-- The link taken next is free, and its id is at most the number of links in use (R162). -/
theorem State.tidy.firstFree {s : State} (h : s.tidy) : s.link (firstFree s.core.links 0) = none
    ∧ Machine.firstFree s.core.links 0 ≤ s.core.links.length := by
  obtain ⟨bound, free⟩ := firstFree_spec s.core.links 0 h.sorted fun _ _ => Nat.zero_le _
  refine ⟨?_, by omega⟩
  unfold State.link
  rw [List.find?_eq_none.2 fun p hp => by simpa using free p hp]
  rfl

/-! Operations that change headers and bytes of the pool, and take no link and give none back. -/

/-- Nothing differs but the current core's pool and the hart's count of links. -/
def PoolEdit (s t : State) : Prop :=
  ∃ vused links pool bad reclaim, t = { s with
    h := { s.h with vused := vused }, core := { s.core with links := links, pool := pool, badRows := bad, reclaim := reclaim } }

theorem PoolEdit.refl (s : State) : PoolEdit s s := ⟨_, _, _, _, _, rfl⟩

theorem PoolEdit.trans {s t u : State} (first : PoolEdit s t) (then_ : PoolEdit t u) : PoolEdit s u := by
  obtain ⟨_, _, _, _, _, rfl⟩ := first
  obtain ⟨_, _, _, _, _, rfl⟩ := then_
  exact ⟨_, _, _, _, _, rfl⟩

/-- The pool is edited and the same links are in use. -/
structure Rewrites (s t : State) : Prop where
  edit : PoolEdit s t
  charged : t.h.vused = s.h.vused
  used : ∀ m, (t.link m).isSome = (s.link m).isSome
  length : s.tidy → t.core.links.length = s.core.links.length
  tidy : s.tidy → t.tidy

theorem Rewrites.refl (s : State) : Rewrites s s := ⟨.refl s, rfl, fun _ => rfl, fun _ => rfl, id⟩

theorem Rewrites.trans {s t u : State} (first : Rewrites s t) (then_ : Rewrites t u) : Rewrites s u where
  edit := first.edit.trans then_.edit
  charged := then_.charged.trans first.charged
  used m := (then_.used m).trans (first.used m)
  length h := (then_.length (first.tidy h)).trans (first.length h)
  tidy h := then_.tidy (first.tidy h)

theorem Rewrites.foldl {α : Type} {f : State → α → State} (one : ∀ t a, Rewrites t (f t a)) (l : List α) (s : State) : Rewrites s (l.foldl f s) :=
  List.foldlRecOn (motive := Rewrites s) l f (.refl s) fun t ht a _ => ht.trans (one t a)

theorem setLink_rewrites {s : State} {l : Nat} (used : (s.link l).isSome) (new : Link) : Rewrites s (s.setLink l new) where
  edit := ⟨_, _, _, _, _, rfl⟩
  charged := rfl
  used m := by
    rw [link_setLink]
    split
    · next e => rw [e, used]; rfl
    · rfl
  length h := by
    have listed : (s.core.links.find? fun p => p.1 == l).isSome := by simpa [State.link] using used
    exact (length_assocSet h.sorted l new).trans (if_pos listed)
  tidy h := h.setLink

theorem setRc_rewrites (s : State) (l n : Nat) : Rewrites s (s.setRc l n) := by
  unfold State.setRc
  split
  · next k e => exact setLink_rewrites (by rw [e]; rfl) _
  · exact .refl s

theorem openRow_rewrites (s : State) (l row : Nat) : Rewrites s (s.openRow l row) := by
  unfold State.openRow
  split
  · next k e =>
    split
    · have set := setLink_rewrites (s := s) (l := l) (by rw [e]; rfl) { k with fresh := k.fresh &&& ~~~(BitVec.ofNat 8 (2 ^ row)) }
      exact set.trans ⟨⟨_, _, _, _, _, rfl⟩, rfl, fun _ => rfl, fun _ => rfl, fun h => h.withPool (memClear_wf _ _ _ h.pool)⟩
    · exact .refl s
  · exact .refl s

theorem linkPut_rewrites (s : State) (l b : Nat) (bs : List Byte) : Rewrites s (s.linkPut l b bs) :=
  (openRow_rewrites s l (b / 64)).trans ⟨⟨_, _, _, _, _, rfl⟩, rfl, fun _ => rfl, fun _ => rfl, fun h => h.withPool (memSetN_wf _ _ _ h.pool)⟩

theorem slotPut_rewrites (s : State) (sp i l : Nat) : Rewrites s (s.slotPut sp i l) := by
  unfold State.slotPut
  refine (linkPut_rewrites s sp (2 * i) (toBytes 2 (2 ^ 15 + l))).trans ?_
  dsimp only
  split
  · next k e =>
    split
    · exact setLink_rewrites (by rw [e]; rfl) _
    · exact .refl _
  · exact .refl _

theorem chainPut_rewrites (bs : List Byte) : ∀ (s : State) (spans : List Span) (b : Nat), Rewrites s (s.chainPut spans b bs) := by
  induction bs with
  | nil => exact fun s _ _ => .refl s
  | cons v bs ih =>
    intro s spans b
    unfold State.chainPut
    refine Rewrites.trans ?_ (ih _ _ _)
    split
    · exact linkPut_rewrites s _ _ _
    · exact .refl s

theorem putElem_rewrites (s : State) (d : Desc) (j v : Nat) : Rewrites s (s.putElem d j v) := by
  unfold State.putElem
  split
  · exact chainPut_rewrites _ _ _ _
  · exact chainPut_rewrites _ _ _ _

theorem unrefSpans_rewrites (s : State) (l : List Span) : Rewrites s (s.unrefSpans l) :=
  .foldl (fun (t : State) (p : Span) => setRc_rewrites t p.spine (t.rc p.spine - 1)) l s

theorem queueSpines_rewrites (s : State) (l : List Span) : Rewrites s (s.queueSpines l) := by
  refine .foldl (fun t p => ?_) l s
  split
  · split
    · exact ⟨⟨_, _, _, _, _, rfl⟩, rfl, fun _ => rfl, fun _ => rfl, fun h => h.congr⟩
    · exact .refl t
  · exact .refl t

theorem releaseDesc_rewrites (s : State) (d : Desc) : Rewrites s (s.releaseDesc d) := (unrefSpans_rewrites s _).trans (queueSpines_rewrites _ _)

/-! Operations on counts alone: every link reads as before. -/

/-- Every byte of every link reads as before. -/
def BytesStand (s t : State) : Prop := ∀ l b, t.linkByte l b = s.linkByte l b

theorem BytesStand.refl (s : State) : BytesStand s s := fun _ _ => rfl
theorem BytesStand.trans {s t u : State} (first : BytesStand s t) (then_ : BytesStand t u) : BytesStand s u := fun l b => (then_ l b).trans (first l b)
theorem BytesStand.foldl {α : Type} {f : State → α → State} (one : ∀ t a, BytesStand t (f t a)) (l : List α) (s : State) : BytesStand s (l.foldl f s) :=
  List.foldlRecOn (motive := BytesStand s) l f (.refl s) fun t ht a _ => ht.trans (one t a)

theorem setLink_bytesStand {s : State} {l : Nat} {k new : Link} (used : s.link l = some k) (fresh : new.fresh = k.fresh) : BytesStand s
    (s.setLink l new) := by
  intro m b
  refine linkByte_congr (s := s) (t := s.setLink l new) rfl ?_ b
  rw [link_setLink]
  split
  · next e => rw [e, used, Option.map_some, Option.map_some, fresh]
  · rfl

theorem setRc_bytesStand (s : State) (l n : Nat) : BytesStand s (s.setRc l n) := by
  unfold State.setRc
  split
  · next k e => exact setLink_bytesStand e rfl
  · exact .refl s

theorem unrefSpans_bytesStand (s : State) (l : List Span) : BytesStand s (s.unrefSpans l) :=
  .foldl (fun (t : State) (p : Span) => setRc_bytesStand t p.spine (t.rc p.spine - 1)) l s

theorem queueSpines_bytesStand (s : State) (l : List Span) : BytesStand s (s.queueSpines l) := by
  refine .foldl (fun t p => ?_) l s
  split
  · split
    · exact fun _ _ => rfl
    · exact .refl t
  · exact .refl t

theorem releaseDesc_bytesStand (s : State) (d : Desc) : BytesStand s (s.releaseDesc d) := (unrefSpans_bytesStand s _).trans (queueSpines_bytesStand _ _)

/-! What a link reads after bytes of a link are written, and what a spine lists after a slot is entered. -/

theorem rowFresh_eq (s : State) (l row : Nat) : s.rowFresh l row = ((s.link l).map fun k => k.fresh.getLsbD row).getD false := by
  unfold State.rowFresh
  cases s.link l <;> rfl

theorem linkByte_of {t : State} {m : Nat} {o : Option Link} {pool : Memory} (header : t.link m = o) (bytes : t.core.pool = pool) (b : Nat) :
    t.linkByte m b = if (o.map fun k => k.fresh.getLsbD (b / 64)).getD false then 0 else memGet pool (512 * m + b) := by
  unfold State.linkByte
  rw [rowFresh_eq, header, bytes]

theorem getLsbD_rowOpened (fresh : BitVec 8) {row r : Nat} (hr : r < 8) :
    (fresh &&& ~~~(BitVec.ofNat 8 (2 ^ row))).getLsbD r = (fresh.getLsbD r && decide (r ≠ row)) := by
  rw [BitVec.getLsbD_and, BitVec.getLsbD_not, BitVec.getLsbD_ofNat, Nat.testBit_two_pow]
  simp [hr, eq_comm]

/-- A row that is fresh is cleared and marked so, and any other stays as it is (R153). -/
theorem openRow_cases (s : State) (l row : Nat) :
    (∃ k, s.link l = some k ∧ k.fresh.getLsbD row = true
      ∧ (∀ m, (s.openRow l row).link m = if m = l then some { k with fresh := k.fresh &&& ~~~(BitVec.ofNat 8 (2 ^ row)) } else s.link m)
      ∧ (s.openRow l row).core.pool = memClear s.core.pool (512 * l + 64 * row) 64)
    ∨ s.openRow l row = s ∧ s.rowFresh l row = false := by
  unfold State.openRow
  split
  · next k used =>
    split
    · next fresh => exact .inl ⟨k, used, fresh, fun m => link_setLink s l m _, rfl⟩
    · next fresh => exact .inr ⟨rfl, by rw [rowFresh_eq, used]; simpa using fresh⟩
  · next free => exact .inr ⟨rfl, by rw [rowFresh_eq, free]; rfl⟩

/-- A row opened reads as before: its fresh bytes, which read as zero, are zero now (R153). -/
theorem linkByte_openRow {s : State} (wf : s.core.pool.wf) {l row : Nat} (hrow : row < 8) (m : Nat) {b : Nat} (hb : b < 512) :
    (s.openRow l row).linkByte m b = s.linkByte m b := by
  obtain ⟨k, used, fresh, links, pool⟩ | ⟨same, -⟩ := openRow_cases s l row
  · rw [linkByte_of (links m) pool, linkByte_of (t := s) (m := m) rfl rfl, memGet_memClear wf]
    by_cases here : m = l
    · subst here
      rw [if_pos rfl, used, Option.map_some, Option.getD_some, Option.map_some, Option.getD_some, getLsbD_rowOpened _ (by omega)]
      by_cases inside : b / 64 = row
      · rw [inside, fresh, if_pos (c := _ ∧ _) (by omega), if_pos rfl]
        exact ite_self 0
      · rw [if_neg (c := _ ∧ _) (by omega), decide_eq_true inside, Bool.and_true]
    · rw [if_neg here, if_neg (c := _ ∧ _) (by omega)]
  · rw [same]

/-- The row opened is no longer fresh. -/
theorem rowFresh_openRow (s : State) {l row : Nat} (hrow : row < 8) : (s.openRow l row).rowFresh l row = false := by
  obtain ⟨k, -, -, links, -⟩ | ⟨same, sound⟩ := openRow_cases s l row
  · rw [rowFresh_eq, links, if_pos rfl, Option.map_some, Option.getD_some, getLsbD_rowOpened _ hrow]
    simp
  · rw [same, sound]

theorem linkByte_linkPut {s : State} (h : s.tidy) {l b : Nat} {bs : List Byte} (hb : b < 512) (row : b % 64 + bs.length ≤ 64) (m : Nat) {c : Nat}
    (hc : c < 512) :
    (s.linkPut l b bs).linkByte m c = if m = l ∧ b ≤ c ∧ c < b + bs.length then bs.getD (c - b) 0 else s.linkByte m c := by
  have before := linkByte_openRow h.pool (l := l) (row := b / 64) (by omega) m hc
  have opened := rowFresh_openRow s (l := l) (row := b / 64) (by omega)
  have wf := ((openRow_rewrites s l (b / 64)).tidy h).pool
  unfold State.linkPut
  dsimp only
  generalize s.openRow l (b / 64) = t at before opened wf
  have put : State.linkByte { t with core := { t.core with pool := memSetN t.core.pool (512 * l + b) bs } } m c
      = if t.rowFresh m (c / 64) then 0 else memGet (memSetN t.core.pool (512 * l + b) bs) (512 * m + c) := rfl
  rw [put, memGet_memSetN _ _ _ _ wf]
  by_cases inside : m = l ∧ b ≤ c ∧ c < b + bs.length
  · obtain ⟨rfl, low, high⟩ := inside
    have same : c / 64 = b / 64 := by omega
    rw [same, opened, if_neg Bool.false_ne_true, if_pos (by omega), if_pos (by omega), show 512 * m + c - (512 * m + b) = c - b by omega]
  · rw [if_neg inside, ← before, if_neg (c := _ ∧ _) (by omega)]
    rfl

/-- A slot entered changes two bytes of the spine, and the number of slots in its header. -/
theorem linkByte_slotPut {s : State} (h : s.tidy) {sp i l : Nat} (hi : i < 256) (m : Nat) {c : Nat} (hc : c < 512) :
    (s.slotPut sp i l).linkByte m c = if m = sp ∧ 2 * i ≤ c ∧ c < 2 * i + 2 then (toBytes 2 (2 ^ 15 + l)).getD (c - 2 * i) 0 else s.linkByte m c := by
  refine Eq.trans ?_ (linkByte_linkPut h (l := sp) (b := 2 * i) (bs := toBytes 2 (2 ^ 15 + l)) (by omega) (by simp [toBytes]; omega) m hc)
  unfold State.slotPut
  dsimp only
  split
  · next k used =>
    split
    · exact setLink_bytesStand (new := { k with nvalid := k.nvalid + 1 }) used rfl m c
    · rfl
  · rfl

theorem slotGet_eq (s : State) (sp i : Nat) : s.slotGet sp i = slotWord (ofBytes [s.linkByte sp (2 * i), s.linkByte sp (2 * i + 1)]) := rfl

theorem slotWord_listed {l : Nat} (hl : l < 2 ^ 15) : slotWord (ofBytes (toBytes 2 (2 ^ 15 + l))) = some l := by
  rw [ofBytes_toBytes, slotWord]
  rw [if_pos (by omega)]
  congr 1
  omega

theorem slotGet_slotPut {s : State} (h : s.tidy) {sp i l : Nat} (hi : i < 256) (hl : l < 2 ^ 15) {j : Nat} (hj : j < 256) :
    (s.slotPut sp i l).slotGet sp j = if j = i then some l else s.slotGet sp j := by
  rw [slotGet_eq, linkByte_slotPut h hi sp (by omega), linkByte_slotPut h hi sp (by omega)]
  by_cases here : j = i
  · subst here
    rw [if_pos (by omega), if_pos (by omega), if_pos rfl, ← slotWord_listed hl]
    simp [toBytes]
  · rw [if_neg (by omega), if_neg (by omega), if_neg here, slotGet_eq]

/-! A link taken (R162). -/

/-- What a link taken leaves: the lowest free one is in use with every row fresh, and the others stand. -/
structure LinkTaken (l : Nat) (s t : State) : Prop where
  edit : PoolEdit s t
  charged : t.h.vused = s.h.vused + 1
  length : t.core.links.length = s.core.links.length + 1
  tidy : t.tidy
  free : s.link l = none
  id : l ≤ s.core.links.length
  used : ∀ m, (t.link m).isSome = (decide (m = l) || (s.link m).isSome)
  zero : ∀ b, b < 512 → t.linkByte l b = 0
  others : ∀ m, m ≠ l → ∀ b, t.linkByte m b = s.linkByte m b

theorem allocLink_taken {s : State} (h : s.tidy) (kind : LinkKind) : LinkTaken (s.allocLink kind).1 s (s.allocLink kind).2 := by
  obtain ⟨free, bound⟩ := h.firstFree
  have links : ∀ m, (s.allocLink kind).2.link m = if m = firstFree s.core.links 0 then some ⟨kind, s.slotNo, 0xFF, 0, 0⟩ else s.link m :=
      fun m => link_setLink s _ m _
  refine ⟨⟨_, _, _, _, _, rfl⟩, rfl, ?_, h.allocLink, free, bound, fun m => ?_, fun b hb => ?_, fun m hm b => ?_⟩
  · have listed : (s.core.links.find? fun p => p.1 == firstFree s.core.links 0) = none := by simpa [State.link] using free
    exact (length_assocSet h.sorted _ _).trans (by rw [listed]; rfl)
  · rw [links]
    by_cases here : m = firstFree s.core.links 0
    · simp [here, State.allocLink]
    · simp [here, State.allocLink]
  · unfold State.linkByte
    rw [rowFresh_eq, links]
    have row : b / 64 < 8 := by omega
    have fresh : (0xFF : BitVec 8).getLsbD (b / 64) = true := by
      generalize b / 64 = r at row
      revert r
      decide
    rw [show (s.allocLink kind).1 = firstFree s.core.links 0 from rfl, if_pos rfl, Option.map_some, Option.getD_some, fresh, if_pos rfl]
  · refine linkByte_congr (s := s) (t := (s.allocLink kind).2) rfl ?_ b
    rw [links]
    exact congrArg _ (if_neg hm)

/-! A fresh chain's storage: one spine taken since a state, and the data links it lists from slot 0 up (R154, R162). -/

/-- Spine sp with data links ls has been taken since s, and what was in use stands. -/
structure FreshStore (s : State) (sp : Nat) (ls : List Nat) (t : State) : Prop where
  tidy : t.tidy
  charged : t.h.vused = s.h.vused + 1 + ls.length
  length : t.core.links.length = s.core.links.length + 1 + ls.length
  used : ∀ m, (s.link m).isSome → (t.link m).isSome
  stand : linksStand s t
  spine : s.link sp = none ∧ (t.link sp).isSome
  data : ∀ l ∈ ls, s.link l = none ∧ (t.link l).isSome ∧ l ≠ sp
  nodup : ls.Nodup
  slots : ∀ i, i < 256 → t.slotGet sp i = ls[i]?

/-- A link that was not in use is not one that was. -/
theorem ne_of_link {s : State} {l m : Nat} (free : s.link l = none) (used : (s.link m).isSome) : m ≠ l := by
  rintro rfl
  rw [free] at used
  cases used

/-- Storage is what the headers and bytes of the pool and the count of links say; the registers play no part. -/
theorem FreshStore.congr {s t u : State} {sp : Nat} {ls : List Nat} (f : FreshStore s sp ls t) (edit : Rewrites t u) (stand : BytesStand t u) :
    FreshStore s sp ls u where
  tidy := edit.tidy f.tidy
  charged := edit.charged.trans f.charged
  length := (edit.length f.tidy).trans f.length
  used m h := (edit.used m).trans (f.used m h)
  stand l h b hb := (stand l b).trans (f.stand l h b hb)
  spine := ⟨f.spine.1, (edit.used _).trans f.spine.2⟩
  data l hl := ⟨(f.data l hl).1, (edit.used _).trans (f.data l hl).2.1, (f.data l hl).2.2⟩
  nodup := f.nodup
  slots i hi := (slotGet_congr (stand sp) i).trans (f.slots i hi)

theorem FreshStore.setChain {s t : State} {sp : Nat} {ls : List Nat} (f : FreshStore s sp ls t) {r : VReg} {d : Desc} : FreshStore s sp ls (t.setChain r d) :=
  ⟨f.tidy, f.charged, f.length, f.used, f.stand, f.spine, f.data, f.nodup, f.slots⟩

theorem FreshStore.raise {s t : State} {sp : Nat} {ls : List Nat} (f : FreshStore s sp ls t) {fl : Flags} : FreshStore s sp ls (t.raise fl) :=
  ⟨f.tidy, f.charged, f.length, f.used, f.stand, f.spine, f.data, f.nodup, f.slots⟩

/-- A spine taken lists nothing. -/
theorem freshStore_spine {s : State} (h : s.tidy) : FreshStore s (s.allocLink .spine).1 [] (s.allocLink .spine).2 := by
  have taken := allocLink_taken h .spine
  refine ⟨taken.tidy, taken.charged, taken.length, fun m hm => ?_, fun l hl b _ => taken.others l (ne_of_link taken.free hl) b, ⟨taken.free, ?_⟩,
      nofun, List.nodup_nil,
    fun i hi => ?_⟩
  · rw [taken.used, hm, Bool.or_true]
  · rw [taken.used]
    simp
  · rw [slotGet_eq, taken.zero _ (by omega), taken.zero _ (by omega)]
    rfl

/-- One more data link of a fresh store. -/
def State.addLink (t : State) (sp i : Nat) : State := ((t.allocLink .data).2.setRc (t.allocLink .data).1 1).slotPut sp i (t.allocLink .data).1

theorem addLink_edit {t : State} (h : t.tidy) (sp i : Nat) : PoolEdit t (t.addLink sp i) :=
  (allocLink_taken h .data).edit.trans ((setRc_rewrites _ _ _).edit.trans (slotPut_rewrites _ _ _ _).edit)

/-- A data link more stands in the next slot, reads as zero, and leaves the data links before it as they were. -/
theorem FreshStore.addLink {s t : State} {sp : Nat} {ls : List Nat} (f : FreshStore s sp ls t) (slot : ls.length < 256) (room : t.core.links.length < 2048) :
    FreshStore s sp (ls ++ [(t.allocLink .data).1]) (t.addLink sp ls.length)
    ∧ (∀ l ∈ ls, ∀ b, b < 512 → (t.addLink sp ls.length).linkByte l b = t.linkByte l b)
    ∧ ∀ b, b < 512 → (t.addLink sp ls.length).linkByte (t.allocLink .data).1 b = 0 := by
  have taken := allocLink_taken f.tidy .data
  unfold State.addLink
  generalize (t.allocLink .data).1 = l at taken
  generalize (t.allocLink .data).2 = u at taken
  have count := setRc_rewrites u l 1
  have counted := setRc_bytesStand u l 1
  generalize u.setRc l 1 = v at count counted
  have vtidy := count.tidy taken.tidy
  have put := slotPut_rewrites v sp ls.length l
  have bytes : ∀ m, m ≠ sp → ∀ b, b < 512 → (v.slotPut sp ls.length l).linkByte m b = u.linkByte m b := fun m hm b hb => by
    rw [linkByte_slotPut vtidy slot m hb, if_neg (by tauto), counted]
  have slots := fun j => slotGet_slotPut (sp := sp) (i := ls.length) (l := l) vtidy slot (by have := taken.id; omega) (j := j)
  generalize v.slotPut sp ls.length l = w at put bytes slots
  have fresh : sp ≠ l := ne_of_link taken.free f.spine.2
  have used : ∀ m, (t.link m).isSome → (w.link m).isSome := fun m hm => by rw [put.used, count.used, taken.used, hm, Bool.or_true]
  have old : ∀ m, m ≠ sp → (t.link m).isSome → ∀ b, b < 512 → w.linkByte m b = t.linkByte m b := fun m hm hu b hb => by
    rw [bytes m hm b hb, taken.others m (ne_of_link taken.free hu)]
  refine ⟨⟨put.tidy vtidy, ?_, ?_, fun m hm => used m (f.used m hm), fun m hm b hb => ?_, ⟨f.spine.1, used sp f.spine.2⟩, fun m hm => ?_, ?_, fun i hi => ?_⟩,
    fun m hm => old m (f.data m hm).2.2 (f.data m hm).2.1, fun b hb => ?_⟩
  · rw [put.charged, count.charged, taken.charged, f.charged, List.length_append, List.length_singleton]
    omega
  · rw [put.length vtidy, count.length taken.tidy, taken.length, f.length, List.length_append, List.length_singleton]
    omega
  · rw [old m (ne_of_link f.spine.1 hm) (f.used m hm) b hb, f.stand m hm b hb]
  · obtain hm | hm := List.mem_append.1 hm
    · exact ⟨(f.data m hm).1, used m (f.data m hm).2.1, (f.data m hm).2.2⟩
    · obtain rfl := List.mem_singleton.1 hm
      refine ⟨?_, by rw [put.used, count.used, taken.used]; simp, fresh.symm⟩
      cases e : s.link m with
      | none => rfl
      | some k =>
        have := f.used m (by rw [e]; rfl)
        rw [taken.free] at this
        cases this
  · refine List.nodup_append.2 ⟨f.nodup, List.nodup_singleton l, fun a ha b hb => ?_⟩
    rw [List.mem_singleton.1 hb]
    exact ne_of_link taken.free (f.data a ha).2.1
  · rw [slots i hi]
    by_cases here : i = ls.length
    · rw [if_pos here, here, List.getElem?_concat_length]
    · have before : v.slotGet sp i = t.slotGet sp i := by
        rw [slotGet_eq, slotGet_eq, counted, counted, taken.others sp fresh, taken.others sp fresh]
      rw [if_neg here, before, f.slots i hi]
      by_cases below : i < ls.length
      · rw [List.getElem?_append_left below]
      · rw [List.getElem?_eq_none (by omega), List.getElem?_eq_none (by simp; omega)]
  · rw [bytes l fresh.symm b hb, taken.zero b hb]

/-! The bytes of a fresh store, one after the other. -/

/-- Byte c of the data links of a store. -/
def State.storeByte (t : State) (ls : List Nat) (c : Nat) : Byte := match ls[c / 512]? with | some l => t.linkByte l (c % 512) | none => 0

theorem storeByte_some {t : State} {ls : List Nat} {c l : Nat} (listed : ls[c / 512]? = some l) : t.storeByte ls c = t.linkByte l (c % 512) := by
  unfold State.storeByte
  rw [listed]

/-- Where byte c of a fresh chain of n bytes lies. -/
theorem FreshStore.byteLoc {s t : State} {sp : Nat} {ls : List Nat} (f : FreshStore s sp ls t) {n c : Nat} (hc : c < n) (bound : c < 131072) :
    t.byteLoc [⟨sp, 0, n⟩] c = ls[c / 512]?.map fun l => (l, c % 512) := by
  unfold State.byteLoc spanOf
  rw [if_pos hc, Option.bind_some, Nat.zero_add]
  dsimp only
  rw [f.slots _ (by omega)]

theorem FreshStore.chainRead {s t : State} {sp : Nat} {ls : List Nat} (f : FreshStore s sp ls t) {n : Nat} (bound : n ≤ 131072) (k : Nat) : ∀ c, c + k ≤ n →
    t.chainRead [⟨sp, 0, n⟩] c k = (List.range k).map fun i => t.storeByte ls (c + i) := by
  induction k with
  | zero => exact fun _ _ => rfl
  | succ k ih =>
    intro c hc
    rw [State.chainRead, ih (c + 1) (by omega), f.byteLoc (by omega) (by omega), List.range_succ_eq_map, List.map_cons, List.map_map]
    congr 1
    · unfold State.storeByte
      rw [Nat.add_zero]
      cases ls[c / 512]? <;> rfl
    · refine List.map_congr_left fun i _ => ?_
      rw [Function.comp_apply, Nat.succ_eq_add_one, Nat.add_right_comm, Nat.add_assoc]

/-- Bytes written into a fresh chain read back, and its other bytes stand. -/
theorem FreshStore.chainPut {s : State} {sp : Nat} {ls : List Nat} {n : Nat} (bound : n ≤ 131072) (held : n ≤ 512 * ls.length) (bs : List Byte) :
    ∀ {t : State} {b : Nat}, FreshStore s sp ls t → b + bs.length ≤ n → FreshStore s sp ls (t.chainPut [⟨sp, 0, n⟩] b bs)
      ∧ ∀ c, c < 512 * ls.length → (t.chainPut [⟨sp, 0, n⟩] b bs).storeByte ls c = if b ≤ c ∧ c < b + bs.length then bs.getD
          (c - b) 0 else t.storeByte ls c := by
  induction bs with
  | nil =>
    intro t b f _
    refine ⟨f, fun c _ => ?_⟩
    rw [if_neg (by simp)]
    rfl
  | cons v bs ih =>
    intro t b f hb
    rw [List.length_cons] at hb
    obtain ⟨l, listed⟩ : ∃ l, ls[b / 512]? = some l := ⟨_, List.getElem?_eq_getElem (by omega)⟩
    have data := f.data l (List.mem_of_getElem? listed)
    have edit := linkPut_rewrites t l (b % 512) [v]
    have bytes := linkByte_linkPut f.tidy (l := l) (b := b % 512) (bs := [v]) (Nat.mod_lt _ (by omega)) (by rw [List.length_singleton]; omega)
    have step : t.chainPut [⟨sp, 0, n⟩] b (v :: bs) = (t.linkPut l (b % 512) [v]).chainPut [⟨sp, 0, n⟩] (b + 1) bs := by
      rw [State.chainPut, f.byteLoc (by omega) (by omega), listed]
      rfl
    rw [step]
    generalize t.linkPut l (b % 512) [v] = u at edit bytes
    have others : ∀ m, m ≠ l → ∀ c, c < 512 → u.linkByte m c = t.linkByte m c := fun m hm c hc => by rw [bytes m hc, if_neg fun h => hm h.1]
    have next : FreshStore s sp ls u :=
      { tidy := edit.tidy f.tidy
        charged := edit.charged.trans f.charged
        length := (edit.length f.tidy).trans f.length
        used := fun m h => (edit.used m).trans (f.used m h)
        stand := fun m h c hc => (others m (ne_of_link data.1 h) c hc).trans (f.stand m h c hc)
        spine := ⟨f.spine.1, (edit.used _).trans f.spine.2⟩
        data := fun m hm => ⟨(f.data m hm).1, (edit.used _).trans (f.data m hm).2.1, (f.data m hm).2.2⟩
        nodup := f.nodup
        slots := fun i hi => by rw [slotGet_eq, others sp data.2.2.symm _ (by omega), others sp data.2.2.symm _ (by omega), ← slotGet_eq, f.slots i hi] }
    obtain ⟨result, reads⟩ := ih (b := b + 1) next (by omega)
    refine ⟨result, fun c hc => ?_⟩
    obtain ⟨m, at_c⟩ : ∃ m, ls[c / 512]? = some m := ⟨_, List.getElem?_eq_getElem (by omega)⟩
    have first : u.storeByte ls c = if c = b then v else t.storeByte ls c := by
      rw [storeByte_some at_c, storeByte_some at_c, bytes m (Nat.mod_lt _ (by omega))]
      have same : m = l ↔ c / 512 = b / 512 := by
        refine ⟨fun e => ?_, fun e => ?_⟩
        · exact (List.getElem?_inj (by omega) f.nodup).1 (by rw [at_c, listed, e])
        · rw [e, listed] at at_c
          exact (Option.some.inj at_c).symm
      by_cases here : c = b
      · subst here
        rw [if_pos ⟨same.2 rfl, le_rfl, by simp⟩, if_pos rfl, Nat.sub_self]
        rfl
      · rw [if_neg, if_neg here]
        rintro ⟨e, low, high⟩
        have := same.1 e
        rw [List.length_singleton] at high
        omega
    rw [reads c hc, first, List.length_cons]
    by_cases inside : b + 1 ≤ c ∧ c < b + 1 + bs.length
    · obtain ⟨d, rfl⟩ : ∃ d, c = b + 1 + d := ⟨c - (b + 1), by omega⟩
      rw [if_pos inside, if_pos (by omega), Nat.add_sub_cancel_left, show b + 1 + d - b = d + 1 by omega, List.getD_cons_succ]
    · rw [if_neg inside]
      by_cases here : c = b
      · rw [if_pos here, if_pos (by omega), here, Nat.sub_self]
        rfl
      · rw [if_neg here, if_neg (by omega)]

/-! The elements of a fresh chain by the bytes of its store. -/

theorem tagWidth_cases {t : Tag} (live : t ≠ 0) : t = 9 ∨ t ≠ 9 ∧ ∃ k, tagWidth t = 8 * k ∧ (k = 1 ∨ k = 2 ∨ k = 4 ∨ k = 8) := by
  have all : ∀ t : Tag, t ≠ 0 → t = 9 ∨ t ≠ 9 ∧ (tagWidth t = 8 * 1 ∨ tagWidth t = 8 * 2 ∨ tagWidth t = 8 * 4 ∨ tagWidth t = 8 * 8) := by decide
  obtain nibble | ⟨whole, width⟩ := all t live
  · exact .inl nibble
  · refine .inr ⟨whole, ?_⟩
    obtain w | w | w | w := width
    · exact ⟨1, w, by simp⟩
    · exact ⟨2, w, by simp⟩
    · exact ⟨4, w, by simp⟩
    · exact ⟨8, w, by simp⟩

/-- Element j among bytes that stand one after the other (R9, R155). -/
def elemOf (t : Tag) (byte : Nat → Byte) (j : Nat) : Nat :=
  if t = 9 then (if j % 2 = 0 then (byte (j / 2)).toNat % 16 else (byte (j / 2)).toNat / 16)
  else ofBytes ((List.range (tagWidth t / 8)).map fun i => byte (j * (tagWidth t / 8) + i))

theorem elemOf_nibble (byte : Nat → Byte) (j : Nat) :
    elemOf 9 byte j = if j % 2 = 0 then (byte (j / 2)).toNat % 16 else (byte (j / 2)).toNat / 16 := if_pos rfl

theorem elemOf_whole {t : Tag} {k : Nat} (whole : t ≠ 9) (width : tagWidth t = 8 * k) (byte : Nat → Byte) (j : Nat) :
    elemOf t byte j = ofBytes ((List.range k).map fun i => byte (j * k + i)) := by
  unfold elemOf
  rw [if_neg whole, width, Nat.mul_div_cancel_left k (by decide)]

theorem chainBytes_nibble (n : Nat) : chainBytes 9 n = (n * 4 + 7) / 8 := rfl

theorem chainBytes_whole {t : Tag} {k : Nat} (width : tagWidth t = 8 * k) (n : Nat) : chainBytes t n = n * k := by
  unfold chainBytes
  rw [width, Nat.mul_left_comm]
  omega

theorem elemOf_congr {t : Tag} (live : t ≠ 0) {f g : Nat → Byte} {j : Nat} (same : ∀ c, c < chainBytes t (j + 1) →
    f c = g c) : elemOf t f j = elemOf t g j := by
  obtain rfl | ⟨whole, k, width, -⟩ := tagWidth_cases live
  · rw [elemOf_nibble, elemOf_nibble, same (j / 2) (by rw [chainBytes_nibble]; omega)]
  · rw [elemOf_whole whole width, elemOf_whole whole width]
    refine congrArg ofBytes (List.map_congr_left fun i hi => same _ ?_)
    rw [chainBytes_whole width, Nat.succ_mul]
    have := List.mem_range.1 hi
    omega

/-- An element of whole bytes rewritten is the number written, and the others stand. -/
theorem elemOf_whole_put {t : Tag} {k : Nat} (whole : t ≠ 9) (width : tagWidth t = 8 * k) (size : k = 1 ∨ k = 2 ∨ k = 4 ∨ k = 8) {f g : Nat →
    Byte} {j v : Nat} (i : Nat)
    (put : ∀ c, c < chainBytes t (i + 1) → g c = if j * k ≤ c ∧ c < j * k + k then (toBytes k v).getD (c - j * k) 0 else f c) :
    elemOf t g i = if i = j then v % 2 ^ tagWidth t else elemOf t f i := by
  rw [chainBytes_whole width] at put
  have here : ∀ c, c < k → i * k + c < (i + 1) * k := fun c hc => by rw [Nat.succ_mul]; omega
  rw [elemOf_whole whole width]
  by_cases same : i = j
  · subst same
    have bytes : ((List.range k).map fun c => g (i * k + c)) = toBytes k v := by
      rw [toBytes_eq_map]
      refine List.map_congr_left fun c hc => ?_
      have hc := List.mem_range.1 hc
      rw [put _ (here c hc), if_pos (by omega), Nat.add_sub_cancel_left, toBytes_eq_map, List.getD_eq_getElem?_getD, List.getElem?_map,
          List.getElem?_range hc]
      rfl
    rw [if_pos rfl, bytes, ofBytes_toBytes, width, Nat.pow_mul]
  · rw [if_neg same, elemOf_whole whole width]
    refine congrArg ofBytes (List.map_congr_left fun c hc => ?_)
    have hc := List.mem_range.1 hc
    rw [put _ (here c hc), if_neg]
    obtain rfl | rfl | rfl | rfl := size <;> omega

/-- The byte that holds a nibble, with the nibble rewritten. -/
def nibbleByte (b j v : Nat) : Byte := BitVec.ofNat 8 (if j % 2 = 0 then b / 16 * 16 + v % 16 else b % 16 + v % 16 * 16)

theorem elemOf_nibble_put {f g : Nat → Byte} {j v : Nat} (i : Nat)
    (put : ∀ c, c < chainBytes 9 (i + 1) → g c = if c = j / 2 then nibbleByte (f (j / 2)).toNat j v else f c) :
    elemOf 9 g i = if i = j then v % 2 ^ tagWidth 9 else elemOf 9 f i := by
  rw [elemOf_nibble, elemOf_nibble, put _ (by rw [chainBytes_nibble]; omega)]
  have byte := (f (j / 2)).isLt
  by_cases same : i / 2 = j / 2
  · rw [if_pos same, same, nibbleByte, BitVec.toNat_ofNat, show tagWidth 9 = 4 from rfl]
    by_cases even : j % 2 = 0
    · rw [if_pos even]
      by_cases here : i = j
      · subst here
        rw [if_pos even, if_pos rfl]
        omega
      · rw [if_neg (by omega), if_neg here, if_neg (by omega)]
        omega
    · rw [if_neg even]
      by_cases here : i = j
      · subst here
        rw [if_neg even, if_pos rfl]
        omega
      · rw [if_pos (by omega), if_neg here, if_pos (by omega)]
        omega
  · rw [if_neg same, if_neg (c := i = j) fun here => same (by rw [here])]

section
variable {s t : State} {sp : Nat} {ls : List Nat} {tag : Tag} {n : Nat} (f : FreshStore s sp ls t) (live : tag ≠ 0) (bound : n ≤ 131072)
include f live bound

/-- An element of a fresh chain of n bytes. -/
theorem FreshStore.elem {j : Nat} (inside : chainBytes tag (j + 1) ≤ n) (count : Nat) : t.elem ⟨tag, count, [⟨sp, 0, n⟩]⟩ j = elemOf tag
    (t.storeByte ls) j := by
  unfold State.elem
  obtain rfl | ⟨whole, k, width, -⟩ := tagWidth_cases live
  · rw [chainBytes_nibble] at inside
    dsimp only
    rw [if_pos rfl, elemOf_nibble, f.chainRead bound 1 _ (by omega)]
    simp [ofBytes]
  · rw [chainBytes_whole width, Nat.succ_mul] at inside
    dsimp only
    rw [if_neg whole, elemOf_whole whole width, width, Nat.mul_div_cancel_left k (by decide), f.chainRead bound k _ inside]

/-- An element written into a fresh chain reads back, and the others stand. -/
theorem FreshStore.putElem (held : n ≤ 512 * ls.length) {j : Nat} (inside : chainBytes tag (j + 1) ≤ n) (count v : Nat) :
    FreshStore s sp ls (t.putElem ⟨tag, count, [⟨sp, 0, n⟩]⟩ j v)
      ∧ ∀ i, chainBytes tag (i + 1) ≤ n → elemOf tag ((t.putElem ⟨tag, count, [⟨sp, 0, n⟩]⟩ j v).storeByte ls) i
          = if i = j then v % 2 ^ tagWidth tag else elemOf tag (t.storeByte ls) i := by
  unfold State.putElem
  obtain rfl | ⟨whole, k, width, size⟩ := tagWidth_cases live
  · have inside' := inside
    rw [chainBytes_nibble] at inside'
    dsimp only
    rw [if_pos rfl, f.chainRead bound 1 _ (by omega)]
    have byte : ofBytes ((List.range 1).map fun i => t.storeByte ls (j / 2 + i)) = (t.storeByte ls (j / 2)).toNat := by simp [ofBytes]
    rw [byte]
    obtain ⟨next, reads⟩ := f.chainPut bound held [nibbleByte (t.storeByte ls (j / 2)).toNat j v] (b := j / 2) (by rw [List.length_singleton]; omega)
    refine ⟨next, fun i hi => elemOf_nibble_put i fun c hc => (reads c (by omega)).trans ?_⟩
    rw [List.length_singleton]
    by_cases here : c = j / 2
    · rw [if_pos here, if_pos (by omega), here, Nat.sub_self]
      rfl
    · rw [if_neg here, if_neg (by omega)]
  · have inside' := inside
    rw [chainBytes_whole width, Nat.succ_mul] at inside'
    have bytes : tagWidth tag / 8 = k := by omega
    dsimp only
    rw [if_neg whole, bytes]
    have size_bytes : (toBytes k v).length = k := by rw [toBytes_eq_map, List.length_map, List.length_range]
    obtain ⟨next, reads⟩ := f.chainPut bound held (toBytes k v) (b := j * k) (by omega)
    refine ⟨next, fun i hi => elemOf_whole_put whole width size i fun c hc => (reads c (by omega)).trans ?_⟩
    rw [size_bytes]

end

/-! A fresh chain grown element by element (R162, R165). -/

/-- Nothing differs but the pool and the hart's chains, vector flags and count of links. -/
def ChainsEdit (s t : State) : Prop :=
  ∃ v vflags vused links pool bad reclaim, t = { s with
    h := { s.h with v := v, vflags := vflags, vused := vused }, core := { s.core with links := links, pool := pool, badRows := bad, reclaim := reclaim } }

theorem ChainsEdit.refl (s : State) : ChainsEdit s s := ⟨_, _, _, _, _, _, _, rfl⟩

theorem ChainsEdit.trans {s t u : State} (first : ChainsEdit s t) (then_ : ChainsEdit t u) : ChainsEdit s u := by
  obtain ⟨_, _, _, _, _, _, _, rfl⟩ := first
  obtain ⟨_, _, _, _, _, _, _, rfl⟩ := then_
  exact ⟨_, _, _, _, _, _, _, rfl⟩

theorem PoolEdit.chains {s t : State} (edit : PoolEdit s t) : ChainsEdit s t := by
  obtain ⟨_, _, _, _, _, rfl⟩ := edit
  exact ⟨_, _, _, _, _, _, _, rfl⟩

theorem PoolEdit.v {s t : State} (edit : PoolEdit s t) : t.h.v = s.h.v ∧ t.h.vflags = s.h.vflags := by
  obtain ⟨_, _, _, _, _, rfl⟩ := edit
  exact ⟨rfl, rfl⟩

theorem PoolEdit.chain {s t : State} (edit : PoolEdit s t) (r : VReg) : t.h.chain r = s.h.chain r := by
  obtain ⟨_, _, _, _, _, rfl⟩ := edit
  rfl

theorem setChain_edit (s : State) (r : VReg) (d : Desc) : ChainsEdit s (s.setChain r d) := ⟨_, _, _, _, _, _, _, rfl⟩

theorem raise_edit (s : State) (f : Flags) : ChainsEdit s (s.raise f) := ⟨_, _, _, _, _, _, _, rfl⟩

theorem ChainsEdit.vquota {s t : State} (edit : ChainsEdit s t) : t.h.vquota = s.h.vquota := by
  obtain ⟨_, _, _, _, _, _, _, rfl⟩ := edit
  rfl

theorem ChainsEdit.upsets {s t : State} (edit : ChainsEdit s t) : t.core.upsets = s.core.upsets := by
  obtain ⟨_, _, _, _, _, _, _, rfl⟩ := edit
  rfl

theorem chainBytes_succ {t : Tag} (live : t ≠ 0) (n : Nat) :
    chainBytes t n ≤ chainBytes t (n + 1) ∧ chainBytes t (n + 1) ≤ chainBytes t n + 8 ∧ 0 < chainBytes t (n + 1) := by
  obtain rfl | ⟨-, k, width, size⟩ := tagWidth_cases live
  · rw [chainBytes_nibble, chainBytes_nibble]
    omega
  · rw [chainBytes_whole width, chainBytes_whole width, Nat.succ_mul]
    omega

theorem chainBytes_mono {t : Tag} (live : t ≠ 0) {m n : Nat} (le : m ≤ n) : chainBytes t m ≤ chainBytes t n :=
  monotone_nat_of_le_succ (fun n => (chainBytes_succ live n).1) le

/-- Data links for n elements. -/
def dataLinks (t : Tag) (n : Nat) : Nat := (chainBytes t n + 511) / 512

theorem linksFor_pos {t : Tag} {n : Nat} (some : 0 < n) : linksFor t n = 1 + dataLinks t n := if_neg some.ne'

theorem fits_of_poolFits {s t : State} (fits : t.poolFits = true) : s.fits t = .ok t := if_pos (.inr fits)

/-- A fresh store fits where there is room for it. -/
theorem FreshStore.poolFits {s t : State} {sp : Nat} {ls : List Nat} (f : FreshStore s sp ls t) (quota : t.h.vquota = s.h.vquota) (room : s.roomFor
    (1 + ls.length)) :
    t.poolFits = true := by
  obtain ⟨used, links⟩ := room
  unfold State.poolFits
  rw [f.charged, f.length, quota]
  simp
  omega

theorem PoolEdit.vquota {s t : State} (edit : PoolEdit s t) : t.h.vquota = s.h.vquota := edit.chains.vquota

/-- The first element of a chain takes a spine and a data link. -/
theorem extend_first {s : State} (h : s.tidy) {vd : VReg} {tag : Tag} (chain : s.h.chain vd = ⟨tag, 0, []⟩) (room : s.roomFor 2) :
    ∃ u sp l, s.extend vd = .ok (u.setChain vd ⟨tag, 1, [⟨sp, 0, chainBytes tag 1⟩]⟩) ∧ FreshStore s sp [l] u ∧ PoolEdit s u := by
  have spine := freshStore_spine h
  have taken := allocLink_taken h .spine
  have named := spine.congr (setRc_rewrites _ (s.allocLink .spine).1 1) (setRc_bytesStand _ _ _)
  have edit := taken.edit.trans (setRc_rewrites _ (s.allocLink .spine).1 1).edit
  have charged := named.length
  obtain ⟨store, -⟩ := named.addLink (by decide) (by have := room.2; simp at charged; omega)
  have edits := edit.trans (addLink_edit named.tidy (s.allocLink .spine).1 0)
  refine ⟨_, (s.allocLink .spine).1, _, ?_, store, edits⟩
  unfold State.extend
  rw [chain]
  exact fits_of_poolFits (store.setChain.poolFits edits.vquota room)

/-- One more element of a chain stands in the last data link, or takes the next one. -/
theorem extend_next {s t : State} {sp : Nat} {ls : List Nat} (f : FreshStore s sp ls t) {vd : VReg} {tag : Tag} (live : tag ≠ 0) {j : Nat}
    (chain : t.h.chain vd = ⟨tag, j, [⟨sp, 0, chainBytes tag j⟩]⟩) (size : ls.length = dataLinks tag j) (bound : chainBytes tag (j + 1) ≤ 131072)
    (room : s.roomFor (1 + dataLinks tag (j + 1))) (quota : t.h.vquota = s.h.vquota) :
    ∃ u ls', t.extend vd = .ok (u.setChain vd ⟨tag, j + 1, [⟨sp, 0, chainBytes tag (j + 1)⟩]⟩) ∧ FreshStore s sp ls' u ∧ ls'.length = dataLinks tag (j + 1)
      ∧ PoolEdit t u ∧ ∀ c, c < 512 * ls.length → u.storeByte ls' c = t.storeByte ls c := by
  obtain ⟨grows, little, pos⟩ := chainBytes_succ live j
  unfold dataLinks at size room ⊢
  have slot : t.slotGet sp ((chainBytes tag (j + 1) - 1) / 512) = ls[(chainBytes tag (j + 1) - 1) / 512]? := f.slots _ (by omega)
  unfold State.extend
  rw [chain]
  dsimp only
  rw [slot]
  by_cases inside : (chainBytes tag (j + 1) - 1) / 512 < ls.length
  · rw [List.getElem?_eq_getElem inside]
    exact ⟨t, ls, rfl, f, by omega, .refl t, fun _ _ => rfl⟩
  · have last : (chainBytes tag (j + 1) - 1) / 512 = ls.length := by omega
    have charged := f.length
    obtain ⟨store, kept, -⟩ := f.addLink (by omega) (by have := room.2; omega)
    have edit := addLink_edit f.tidy sp ls.length
    rw [List.getElem?_eq_none (by omega), last]
    refine ⟨t.addLink sp ls.length, _, fits_of_poolFits (store.setChain.poolFits (edit.vquota.trans quota) ?_), store, ?_, edit, fun c hc => ?_⟩
    · rw [List.length_append, List.length_singleton]
      rwa [show ls.length + 1 = (chainBytes tag (j + 1) + 511) / 512 by omega]
    · rw [List.length_append, List.length_singleton]
      omega
    · obtain ⟨l, listed⟩ : ∃ l, ls[c / 512]? = some l := ⟨_, List.getElem?_eq_getElem (by omega)⟩
      rw [storeByte_some listed, storeByte_some (l := l) (by rw [List.getElem?_append_left (by omega), listed]), kept l
          (List.mem_of_getElem? listed) _ (Nat.mod_lt _ (by omega))]

/-- A register holds a fresh chain of j elements, in a store of its own, taken since s. -/
structure FilledStore (s : State) (vd : VReg) (tag : Tag) (val : Nat → Nat) (fl : Flags) (j sp : Nat) (ls : List Nat) (t : State) : Prop where
  edit : ChainsEdit s t
  flags : t.h.vflags = s.h.vflags ||| fl
  others : ∀ r, r ≠ vd → t.h.chain r = s.h.chain r
  chain : t.h.chain vd = ⟨tag, j, [⟨sp, 0, chainBytes tag j⟩]⟩
  store : FreshStore s sp ls t
  size : ls.length = dataLinks tag j
  elems : ∀ i, i < j → elemOf tag (t.storeByte ls) i = val i % 2 ^ tagWidth tag

/-- The next element put into storage made ready for it. -/
theorem FreshStore.filled {s u : State} {sp : Nat} {ls : List Nat} (f : FreshStore s sp ls u) {vd : VReg} {tag : Tag} (live : tag ≠ 0) {j : Nat}
    (size : ls.length = dataLinks tag (j + 1)) (bound : chainBytes tag (j + 1) ≤ 131072) {val : Nat → Nat} {fl : Flags}
    (edit : ChainsEdit s u) (flags : u.h.vflags = s.h.vflags ||| fl) (others : ∀ r, r ≠ vd → u.h.chain r = s.h.chain r)
    (elems : ∀ i, i < j → elemOf tag (u.storeByte ls) i = val i % 2 ^ tagWidth tag) (more : Flags) :
    FilledStore s vd tag val (fl ||| more) (j + 1) sp ls
      (((u.setChain vd ⟨tag, j + 1, [⟨sp, 0, chainBytes tag (j + 1)⟩]⟩).putElem ⟨tag, j + 1, [⟨sp, 0, chainBytes tag (j + 1)⟩]⟩ j (val j)).raise more) := by
  have named : FreshStore s sp ls (u.setChain vd ⟨tag, j + 1, [⟨sp, 0, chainBytes tag (j + 1)⟩]⟩) := f.setChain
  have chain : (u.setChain vd ⟨tag, j + 1, [⟨sp, 0, chainBytes tag (j + 1)⟩]⟩).h.chain vd = ⟨tag, j + 1, [⟨sp, 0, chainBytes tag (j + 1)⟩]⟩ :=
    (Hart.chain_setChain ..).trans (if_pos rfl)
  have apart : ∀ r, r ≠ vd → (u.setChain vd ⟨tag, j + 1, [⟨sp, 0, chainBytes tag (j + 1)⟩]⟩).h.chain r = u.h.chain r :=
    fun r hr => (Hart.chain_setChain ..).trans (if_neg hr)
  have edits := edit.trans (setChain_edit u vd ⟨tag, j + 1, [⟨sp, 0, chainBytes tag (j + 1)⟩]⟩)
  have same : (u.setChain vd ⟨tag, j + 1, [⟨sp, 0, chainBytes tag (j + 1)⟩]⟩).storeByte ls = u.storeByte ls := rfl
  have sameFlags : (u.setChain vd ⟨tag, j + 1, [⟨sp, 0, chainBytes tag (j + 1)⟩]⟩).h.vflags = u.h.vflags := rfl
  generalize u.setChain vd ⟨tag, j + 1, [⟨sp, 0, chainBytes tag (j + 1)⟩]⟩ = w at named chain apart edits same sameFlags
  have put := (putElem_rewrites w ⟨tag, j + 1, [⟨sp, 0, chainBytes tag (j + 1)⟩]⟩ j (val j)).edit
  obtain ⟨store, reads⟩ := named.putElem live bound (by rw [size]; unfold dataLinks; omega) le_rfl (j + 1) (val j)
  generalize w.putElem ⟨tag, j + 1, [⟨sp, 0, chainBytes tag (j + 1)⟩]⟩ j (val j) = x at put store reads
  refine ⟨(edits.trans put.chains).trans (raise_edit x more), ?_, fun r hr => ((put.chain r).trans (apart r hr)).trans (others r hr),
      (put.chain vd).trans chain, store.raise,
    size, fun i hi => ?_⟩
  · show x.h.vflags ||| more = _
    rw [put.v.2, sameFlags, flags, BitVec.or_assoc]
  · show elemOf tag (x.storeByte ls) i = _
    rw [reads i (chainBytes_mono live (by omega)), same]
    by_cases last : i = j
    · rw [if_pos last, last]
    · rw [if_neg last, elems i (by omega)]

/-- A register before the first element of a fresh chain, or with the elements put so far. -/
def Filling (s : State) (vd : VReg) (tag : Tag) (val : Nat → Nat) (fl : Flags) (j : Nat) (t : State) : Prop :=
  (j = 0 ∧ fl = 0 ∧ t = s) ∨ (0 < j ∧ ∃ sp ls, FilledStore s vd tag val fl j sp ls t)

/-- An element appended while there is room (R162, R164). -/
theorem Filling.append {s t : State} {vd : VReg} {tag : Tag} {val : Nat → Nat} {fl : Flags} {j n : Nat} (f : Filling s vd tag val fl j t) (h : s.tidy)
    (start : s.h.chain vd = ⟨tag, 0, []⟩) (live : tag ≠ 0) (below : j < n) (bound : chainBytes tag n ≤ 131072) (room : s.roomFor (linksFor tag n))
        (more : Flags) :
    ∃ u, t.append vd (val j) = .ok u ∧ Filling s vd tag val (fl ||| more) (j + 1) (u.raise more) := by
  have fits : s.roomFor (1 + dataLinks tag (j + 1)) := by
    have le : dataLinks tag (j + 1) ≤ dataLinks tag n := Nat.div_le_div_right (Nat.add_le_add_right (chainBytes_mono live below) _)
    obtain ⟨used, links⟩ := room
    rw [linksFor_pos (by omega)] at used links
    exact ⟨by omega, by omega⟩
  have within : chainBytes tag (j + 1) ≤ 131072 := (chainBytes_mono live below).trans bound
  unfold State.append
  obtain ⟨rfl, rfl, rfl⟩ | ⟨-, sp, ls, filled⟩ := f
  · have one : dataLinks tag 1 = 1 := by
      obtain ⟨-, little, pos⟩ := chainBytes_succ live 0
      have none : chainBytes tag 0 = 0 := by simp [chainBytes]
      rw [Nat.zero_add] at little pos
      unfold dataLinks
      omega
    obtain ⟨u, sp, l, extended, store, edit⟩ := extend_first h start (by rwa [Nat.zero_add, one] at fits)
    have put := store.filled (vd := vd) live (j := 0) (by rw [Nat.zero_add, one]; rfl) within (val := val) (fl := 0) edit.chains
        (edit.v.2.trans BitVec.or_zero.symm) (fun r _ => edit.chain r)
      (fun i hi => absurd hi (Nat.not_lt_zero i)) more
    rw [extended, start]
    refine ⟨_, rfl, .inr ⟨Nat.one_pos, sp, [l], ?_⟩⟩
    dsimp only
    rw [show ((u.setChain vd ⟨tag, 1, [⟨sp, 0, chainBytes tag 1⟩]⟩).h.chain vd) = ⟨tag, 1, [⟨sp, 0, chainBytes tag 1⟩]⟩ from
        (Hart.chain_setChain ..).trans (if_pos rfl)]
    exact put
  · obtain ⟨u, ls', extended, store, size, edit, kept⟩ := extend_next filled.store live filled.chain filled.size within fits filled.edit.vquota
    have put := store.filled (vd := vd) live size within (val := val) (filled.edit.trans edit.chains) (edit.v.2.trans filled.flags) (fun r hr =>
        (edit.chain r).trans (filled.others r hr))
      (fun i hi => (elemOf_congr live fun c hc => kept c (by
        have := chainBytes_mono live (show i + 1 ≤ j by omega)
        rw [filled.size]
        unfold dataLinks
        omega)).trans (filled.elems i hi)) more
    rw [extended, filled.chain]
    refine ⟨_, rfl, .inr ⟨Nat.succ_pos j, sp, ls', ?_⟩⟩
    dsimp only
    rw [show ((u.setChain vd ⟨tag, j + 1, [⟨sp, 0, chainBytes tag (j + 1)⟩]⟩).h.chain vd) = ⟨tag, j + 1, [⟨sp, 0, chainBytes tag (j + 1)⟩]⟩ from
      (Hart.chain_setChain ..).trans (if_pos rfl)]
    exact put

/-! A word that no stopped member and no command holds back. -/

section
variable {s : State} (calm : s.calm)
include calm

theorem State.calm.stopEntry (writes : Instr → Bool) : s.stopEntry writes = none := by
  unfold State.stopEntry
  rw [List.find?_eq_none]
  intro e he
  obtain ⟨stopped, abandoned⟩ := calm e he
  simp [stopped, abandoned]

theorem State.calm.resumed : s.resumed = none := by
  unfold State.resumed Convoy.entry
  rw [Option.filter_eq_none_iff]
  intro e he
  simpa using (calm e (List.mem_of_find?_eq_some he)).1

theorem State.calm.vstart : s.vstart = 0 := by
  unfold State.vstart
  rw [calm.resumed]

theorem State.calm.keptOf : s.keptOf = none := by
  unfold State.keptOf
  rw [calm.resumed]
  rfl

theorem State.calm.promised (r : VReg) : s.promised r = none := by
  unfold State.promised
  rw [calm.stopEntry]
  rfl

theorem State.calm.src (dsts : List VReg) (r : VReg) : s.src dsts r = s.h.chain r := by
  unfold State.src
  rw [calm.promised, calm.keptOf, ite_self]

theorem State.calm.availM (m : MReg) (n : Nat) : s.availM m n = n := by
  have whole : s.stopM? m = none := by
    unfold State.stopM? State.stopOf
    rw [calm.stopEntry]
    exact ite_self none
  unfold State.availM
  rw [whole]

theorem State.calm.availV {r : VReg} (free : s.filling r = false) (n : Nat) : s.availV r n = n := by
  have whole : s.stopV? r = none := by
    unfold State.stopV? State.stopOf
    rw [calm.stopEntry]
    rfl
  have unfilled : s.filled r = none := by simpa [State.filling] using free
  unfold State.availV State.supplyV
  rw [whole, unfilled]
  rfl

end

theorem State.unclaimed.filling {s : State} {chains : List VReg} (free : s.unclaimed chains []) {r : VReg} (mem : r ∈ chains) : s.filling r = false := by
  unfold State.unclaimed State.busy? at free
  rw [List.any_nil, Bool.or_false, List.any_eq_false] at free
  simpa using free r mem

theorem whenFree_unclaimed {s : State} {chains : List VReg} {masks : List MReg} (free : s.unclaimed chains masks) (go : State → Out) :
    s.whenFree chains masks go = go s.awake := by
  unfold State.whenFree
  rw [show s.busy? chains masks = false from free]
  rfl

/-! A fresh destination from its opening to the word's end. -/

/-- The destination register names a fresh chain without elements, and every link reads as before. -/
structure Opened (s : State) (vd : VReg) (tag : Tag) (t : State) : Prop where
  edit : ChainsEdit s.awake t
  flags : t.h.vflags = s.h.vflags
  charged : t.h.vused = s.h.vused
  others : ∀ r, r ≠ vd → t.h.chain r = s.h.chain r
  chain : t.h.chain vd = ⟨tag, 0, []⟩
  length : t.core.links.length = s.core.links.length
  used : ∀ m, (t.link m).isSome = (s.link m).isSome
  stand : BytesStand s t
  tidy : t.tidy

theorem openDest_opened {s : State} (h : s.tidy) (calm : s.calm) (vd : VReg) (tag : Tag) (keep : Bool) :
    ∃ t, s.awake.openDest vd tag false keep = (t, none) ∧ Opened s vd tag t := by
  have first : s.awake.vstart = 0 := State.calm.vstart (s := s.awake) calm
  unfold State.openDest
  rw [if_neg Bool.false_ne_true, if_neg (fun started => started first)]
  cases keep with
  | true =>
    exact ⟨_, rfl, setChain_edit _ _ _, rfl, rfl, fun r hr => (Hart.chain_setChain ..).trans (if_neg hr), (Hart.chain_setChain ..).trans
        (if_pos rfl), rfl, fun _ => rfl,
      fun _ _ => rfl, h⟩
  | false =>
    have release := releaseDesc_rewrites (s.awake.setChain vd Desc.released) (s.awake.h.chain vd)
    have stand := releaseDesc_bytesStand (s.awake.setChain vd Desc.released) (s.awake.h.chain vd)
    have apart : ∀ r, r ≠ vd → (s.awake.setChain vd Desc.released).h.chain r = s.h.chain r := fun r hr => (Hart.chain_setChain ..).trans (if_neg hr)
    refine ⟨_, rfl, ?_⟩
    unfold State.releaseReg
    dsimp only
    generalize (s.awake.setChain vd Desc.released).releaseDesc (s.awake.h.chain vd) = t at release stand
    exact ⟨((setChain_edit _ _ _).trans release.edit.chains).trans (setChain_edit _ _ _), release.edit.v.2, release.charged,
      fun r hr => (Hart.chain_setChain ..).trans ((if_neg hr).trans ((release.edit.chain r).trans (apart r hr))), (Hart.chain_setChain ..).trans (if_pos rfl),
      release.length h, release.used, stand, release.tidy h⟩

theorem orFlags_succ (n : Nat) (f : Nat → Flags) : orFlags (n + 1) f = orFlags n f ||| f n := by
  unfold orFlags
  rw [List.range_succ, List.foldl_append]
  rfl

/-- A run of outputs into a fresh chain makes them all while there is room. -/
theorem Filling.run {s : State} {c : Job} (fresh : c.inPlace = false) (dense : c.sparse = false) (h : s.tidy) (start : s.h.chain c.vd = ⟨c.tag, 0, []⟩)
    (live : c.tag ≠ 0) (bound : chainBytes c.tag c.n ≤ 131072) (room : s.roomFor (linksFor c.tag c.n)) (k : Nat) : ∀ {j : Nat} {t : State}, j + k = c.n →
    Filling s c.vd c.tag (fun j => (c.out j).bits) (orFlags j fun j => (c.out j).flags) j t →
    ∃ u, c.run t j k = ⟨u, c.n, none⟩ ∧ Filling s c.vd c.tag (fun j => (c.out j).bits) (orFlags c.n fun j => (c.out j).flags) c.n u := by
  induction k with
  | zero =>
    rintro j t rfl f
    exact ⟨t, rfl, f⟩
  | succ k ih =>
    intro j t hj f
    obtain ⟨u, put, next⟩ := f.append h start live (show j < c.n by omega) bound room (c.out j).flags
    rw [← orFlags_succ j fun j => (c.out j).flags] at next
    obtain ⟨w, run, filled⟩ := ih (by omega) next
    refine ⟨w, ?_, filled⟩
    have one : c.put t j (c.out j) = .ok u := by
      unfold Job.put
      rw [fresh, dense]
      exact put
    rw [Job.run, one]
    exact run

theorem testStar_sound {s : State} (sound : s.soundLanes) (j per : Nat) :
    s.testStar j per = ({ s with core := { s.core with upsets := s.core.upsets.tail } }, none) := by
  unfold State.testStar
  rw [show s.core.upsets.headD 0 = 0 from sound]
  rfl

/-- A recompute check on lanes that make no error finds none (R249). -/
theorem recheck_sound {s : State} (sound : s.soundLanes) (act : List Nat) (v0 done per : Nat) :
    ∃ recompute upsets, s.recheck act v0 done per = ({ s with core := { s.core with recompute := recompute, upsets := upsets } }, none) := by
  unfold State.recheck State.chooseStar
  dsimp only
  generalize act.filter (fun j => decide (v0 ≤ j ∧ j < done)) = tested
  cases empty : tested.isEmpty with
  | true => exact ⟨_, _, rfl⟩
  | false => exact ⟨_, _, testStar_sound (s := { s with core := { s.core with recompute := Config.recomputeNext s.core.recompute } }) sound _ _⟩

/-- Nothing differs but what a word that writes chains may change before it retires. -/
def WordEdit (s t : State) : Prop :=
  ∃ v vflags vused links pool bad reclaim recompute upsets, t = { s with
    h := { s.h with v := v, vflags := vflags, vused := vused }
    core := { s.core with links := links, pool := pool, badRows := bad, reclaim := reclaim, recompute := recompute, upsets := upsets } }

theorem WordEdit.retires {s t : State} (edit : WordEdit s.awake t) (n : Nat) :
    RetiredV n s (t.retireV n) ∧ sameBytes s (t.retireV n) ∧ (t.retireV n).h.mcheck = s.h.mcheck
      ∧ t.retireV n = { s with h := s.h.withChains (t.retireV n).h, core := s.core.withPool (t.retireV n).core } := by
  obtain ⟨_, _, _, _, _, _, _, _, _, rfl⟩ := edit
  exact ⟨⟨rfl, rfl, rfl, rfl⟩, fun k => homeByte_congr rfl rfl k, rfl, rfl⟩

theorem chainRead_stand {s t : State} (stand : BytesStand s t) (spans : List Span) (n : Nat) : ∀ b, t.chainRead spans b n = s.chainRead spans b n := by
  have at_ : ∀ b, t.byteLoc spans b = s.byteLoc spans b := fun b => by
    unfold State.byteLoc
    simp only [slotGet_congr (stand _)]
  induction n with
  | zero => exact fun _ => rfl
  | succ n ih =>
    intro b
    rw [State.chainRead, State.chainRead, at_, ih]
    cases s.byteLoc spans b with
    | none => rfl
    | some p => exact congrArg (· :: _) (stand p.1 p.2)

theorem elem_stand {s t : State} (stand : BytesStand s t) (d : Desc) (j : Nat) : t.elem d j = s.elem d j := by
  unfold State.elem
  simp only [chainRead_stand stand]

/-- A finished destination: the lanes checked, and the kept source released. -/
structure Closed (s t : State) : Prop where
  edit : ∃ links pool bad reclaim recompute upsets, t = { s with
    core := { s.core with links := links, pool := pool, badRows := bad, reclaim := reclaim, recompute := recompute, upsets := upsets } }
  stand : BytesStand s t

theorem releaseDesc_core (s : State) (d : Desc) : ∃ links pool bad reclaim, s.releaseDesc d = { s with
    core := { s.core with links := links, pool := pool, badRows := bad, reclaim := reclaim } } := by
  have release := releaseDesc_rewrites s d
  generalize s.releaseDesc d = t at release
  obtain ⟨⟨_, _, _, _, _, rfl⟩, charged, -, -, -⟩ := release
  obtain rfl : _ = s.h.vused := charged
  exact ⟨_, _, _, _, rfl⟩

theorem closeDest_closed (s : State) (recompute : BitVec 32) (upsets : List Nat) (vd : VReg) (tag : Tag) (n : Nat) (kept : Option Desc) :
    Closed s (State.closeDest { s with core := { s.core with recompute := recompute, upsets := upsets } } vd tag n false kept) := by
  unfold State.closeDest
  rw [if_neg Bool.false_ne_true]
  cases kept with
  | none => exact ⟨⟨_, _, _, _, _, _, rfl⟩, fun _ _ => rfl⟩
  | some d =>
    dsimp only
    have stand := releaseDesc_bytesStand { s with core := { s.core with recompute := recompute, upsets := upsets } } d
    obtain ⟨links, pool, bad, reclaim, released⟩ := releaseDesc_core { s with core := { s.core with recompute := recompute, upsets := upsets } } d
    rw [released] at stand ⊢
    exact ⟨⟨_, _, _, _, _, _, rfl⟩, stand⟩

/-- The edits of a fresh result, from the word's start to its last output, are those that a word that writes chains may make. -/
theorem WordEdit.of_closed {s t u w : State} (opened : ChainsEdit s t) (filled : ChainsEdit t u) (closed : Closed u w) : WordEdit s w := by
  obtain ⟨⟨_, _, _, _, _, _, rfl⟩, -⟩ := closed
  obtain ⟨_, _, _, _, _, _, _, rfl⟩ := opened.trans filled
  exact ⟨_, _, _, _, _, _, _, _, _, rfl⟩

theorem Closed.h {s t : State} (closed : Closed s t) : t.h = s.h := by
  obtain ⟨⟨_, _, _, _, _, _, rfl⟩, -⟩ := closed
  rfl

/-- What a run of outputs into a fresh chain has made, however many they are. -/
structure Filled (s : State) (vd : VReg) (tag : Tag) (n : Nat) (val : Nat → Nat) (fl : Flags) (t : State) : Prop where
  edit : ChainsEdit s t
  flags : t.h.vflags = s.h.vflags ||| fl
  others : ∀ r, r ≠ vd → t.h.chain r = s.h.chain r
  chain : ChainIs t vd tag n val
  charged : t.h.vused = s.h.vused + linksFor tag n
  stand : linksStand s t

theorem Filling.filled {s t : State} {vd : VReg} {tag : Tag} {val : Nat → Nat} {fl : Flags} {n : Nat} (f : Filling s vd tag val fl n t) (live : tag ≠ 0)
    (start : s.h.chain vd = ⟨tag, 0, []⟩) (bound : chainBytes tag n ≤ 131072) : Filled s vd tag n val fl t := by
  obtain ⟨rfl, rfl, rfl⟩ | ⟨pos, sp, ls, filled⟩ := f
  · exact ⟨.refl _, BitVec.or_zero.symm, fun _ _ => rfl, ⟨by rw [start], by rw [start], fun j hj => absurd hj (Nat.not_lt_zero j)⟩, rfl, fun _ _ _ _ => rfl⟩
  · refine ⟨filled.edit, filled.flags, filled.others, ⟨by rw [filled.chain], by rw [filled.chain], fun j hj => ?_⟩, ?_, filled.store.stand⟩
    · rw [filled.chain, filled.store.elem live bound (chainBytes_mono live hj), filled.elems j hj]
    · rw [filled.store.charged, filled.size, linksFor_pos pos, Nat.add_assoc]

theorem Filled.result {s s1 w y : State} {vd : VReg} {tag : Tag} {n : Nat} {val : Nat → Nat} {fl : Flags} (opened : Opened s vd tag s1)
    (filled : Filled s1 vd tag n val fl w) (closed : Closed w y) : FreshResult vd tag n val fl s (y.retireV n) := by
  obtain ⟨retired, bytes, unchecked, rest⟩ := (WordEdit.of_closed opened.edit filled.edit closed).retires n
  have regs : ∀ r, (y.retireV n).h.chain r = w.h.chain r := fun r => show y.h.chain r = w.h.chain r by rw [closed.h]
  refine ⟨⟨?_, ?_, fun j hj => ?_⟩, ?_, ?_, fun l used b hb => ?_, unchecked, fun r hr => ?_, bytes, retired, ⟨[], by rw [unchecked,
      List.append_nil], nofun⟩, rest⟩
  · rw [regs, filled.chain.hasTag]
  · rw [regs, filled.chain.hasCount]
  · rw [regs, elem_stand (s := y) (t := y.retireV n) fun _ _ => rfl, elem_stand closed.stand, filled.chain.elems j hj]
  · exact (congrArg Hart.vflags closed.h).trans (filled.flags.trans (by rw [opened.flags]))
  · exact (congrArg Hart.vused closed.h).trans (filled.charged.trans (by rw [opened.charged]))
  · exact (closed.stand l b).trans ((filled.stand l ((opened.used l).trans used) b hb).trans (opened.stand l b))
  · have apart : r ≠ vd := fun e => hr (List.mem_singleton.2 e)
    rw [regs, filled.others r apart, opened.others r apart]

/-- A word that makes a fresh chain makes it whole when nothing holds it back and the pool has room (R162, R165, R167, R170). -/
theorem produce_fresh {s : State} {c : Job} (fresh : c.inPlace = false) (dense : c.sparse = false) (last : c.after = id) (whole : c.limit = c.n) (h : s.tidy)
    (calm : s.calm) (sound : s.soundLanes) (live : c.tag ≠ 0) (bound : chainBytes c.tag c.n ≤ 131072) (room : s.roomFor (linksFor c.tag c.n)) :
    completes (s.awake.produce c) (FreshResult c.vd c.tag c.n (fun j => (c.out j).bits) (orFlags c.n fun j => (c.out j).flags) s) := by
  obtain ⟨s1, open_, opened⟩ := openDest_opened h calm c.vd c.tag c.keep
  have room1 : s1.roomFor (linksFor c.tag c.n) := by
    unfold State.roomFor
    rw [opened.charged, opened.length, opened.edit.vquota]
    exact room
  obtain ⟨w, run, filling⟩ := Filling.run fresh dense opened.tidy opened.chain live bound room1 c.n (j := 0) (Nat.zero_add _) (.inl ⟨rfl, rfl, rfl⟩)
  have filled := filling.filled live opened.chain bound
  have lanes : w.soundLanes := by
    unfold State.soundLanes
    rw [filled.edit.upsets, opened.edit.upsets]
    exact sound
  have first : s.awake.vstart = 0 := State.calm.vstart (s := s.awake) calm
  unfold State.produce
  extract_lets v0 goes stop act kept halt
  have hv0 : v0 = 0 := first
  have hstop : stop = c.n := by simp [stop, goes, hv0, whole]
  obtain ⟨recompute, upsets, checked⟩ := recheck_sound lanes act 0 c.n c.per
  clear_value v0 stop act kept halt
  subst hv0 hstop
  rw [fresh, open_]
  dsimp only
  rw [Nat.sub_zero, run]
  dsimp only
  rw [checked]
  dsimp only
  rw [if_pos le_rfl, last]
  exact ⟨_, rfl, filled.result opened (closeDest_closed w recompute upsets _ _ _ _)⟩

/-- The same with the result's elements and flags given by the index. -/
theorem produce_makes {s : State} {c : Job} {vd : VReg} {tag : Tag} {n : Nat} {val : Nat → Nat} {fl : Nat → Flags} (fresh : c.inPlace = false)
    (dense : c.sparse = false) (last : c.after = id) (whole : c.limit = c.n) (hvd : c.vd = vd) (htag : c.tag = tag) (hn : c.n = n)
    (bits : ∀ j, (c.out j).bits = val j) (flags : ∀ j, (c.out j).flags = fl j) (h : s.tidy) (calm : s.calm) (sound : s.soundLanes) (live : tag ≠ 0)
    (bound : chainBytes tag n ≤ 131072) (room : s.roomFor (linksFor tag n)) :
    completes (s.awake.produce c) (FreshResult vd tag n val (orFlags n fl) s) := by
  subst hvd htag hn
  have made := produce_fresh fresh dense last whole h calm sound live bound room
  rwa [funext bits, funext flags] at made

/-! The rows of Tables 11-2, 11-4, 11-5 and 11-6 over the skeleton of R232. -/

theorem specialOk_of_rounds {fn : Special8} {rm : BitVec 3} {t : Tag} (rounds : (decide (tagWidth t < 32) || fn == .rcp || rm == 0) = true) :
    specialOk fn rm t = .ok () := by
  refine if_neg ?_
  rintro ⟨wide, other, mode⟩
  rw [decide_eq_false (by omega), Bool.false_or, Bool.or_eq_true, beq_iff_eq, beq_iff_eq] at rounds
  exact rounds.elim other mode

/-- A row's instruction is the skeleton over what the row says, with a further check that passes where the rounding mode is allowed. -/
theorem exec_elementRow {i : Instr} {r : ElementRow} (row : elementRow i = some r) (s : State) :
    ∃ extra, exec i s = s.elementwise r.vd r.ops r.accept r.rtag r.xl r.msk r.z r.fill r.checked extra r.f ∧ ∀ t, r.rounds t = true → extra t = .ok () := by
  cases i with
  | vadd | vsub | vrsub | vmul | vmulh | vdiv | vrem | vmin | vmax | vand | vor | vxor | vandn | vshl | vshr | vsra | vaddsat | vsubsat | vcopysign =>
    cases row
    exact ⟨noExtra, rfl, fun _ _ => rfl⟩
  | vfma | vfms | vfnma | vabs | vneg | vsqrt | vclz | vpopc | vround | vmov | vclass | vcvt | vcvtsat =>
    cases row
    exact ⟨noExtra, rfl, fun _ _ => rfl⟩
  | vexp2 | vexp | vlog2 | vrcp | vrsqrt | vsin | vcos | vtanh | vsigmoid =>
    cases row
    exact ⟨_, rfl, fun _ => specialOk_of_rounds⟩
  | _ => cases row

theorem vlmax_le (s : State) : s.vlmax ≤ 8192 := by
  have grant : s.vgrant ≤ 8 := (List.length_filter_le ..).trans (List.length_range (n := 8)).le
  unfold State.vlmax
  omega

/-- A chain of at most VLMAX elements has room in one spine. -/
theorem chainBytes_le_spine (t : Tag) {n : Nat} (length : n ≤ 8192) : chainBytes t n ≤ 131072 := by
  have width : tagWidth t ≤ 64 := by
    revert t
    decide
  have bits : n * tagWidth t ≤ 8192 * 64 := Nat.mul_le_mul length width
  unfold chainBytes
  omega

namespace ElementRow

section
variable {r : ElementRow} {s : State} (ready : r.Ready s)
include ready

theorem Ready.src (dsts : List VReg) (v : VReg) : s.src dsts v = s.h.chain v := ready.calm.src dsts v

/-- The tag that the skeleton reads is that of the first source. -/
theorem Ready.firstTag : (match r.ops.filterMap Operand.reg with | v :: _ => (s.src [r.vd] v).tag | [] => 0) = r.tag s := by
  unfold tag srcs
  cases r.ops.filterMap Operand.reg with
  | nil => rfl
  | cons v _ => exact congrArg Desc.tag (ready.src [r.vd] v)

theorem Ready.chainsOk : s.chainsOk [r.vd] r.srcs = .ok () := by
  have live : r.srcs.find? (fun v => (s.src [r.vd] v).tag == 0 && s.promised v != some none) = none := by
    rw [List.find?_eq_none]
    intro v hv
    rw [ready.src, (ready.tags v hv).1, beq_eq_false_iff_ne.2 ready.live, Bool.false_and]
    exact Bool.false_ne_true
  have whole : (r.srcs.any fun v => s.promised v == some none) = false := by
    rw [List.any_eq_false]
    intro v _
    rw [ready.calm.promised]
    exact Bool.false_ne_true
  unfold State.chainsOk
  rw [if_neg ready.mode, live]
  dsimp only
  rw [whole]
  rfl

theorem Ready.tagsOk : s.tagsOk [r.vd] r.srcs r.accept = .ok () := by
  have accepted := ready.accepted
  have tags := ready.tags
  unfold tag at accepted tags
  unfold State.tagsOk
  cases sources : r.srcs with
  | nil => rfl
  | cons v vs =>
    rw [sources] at accepted tags
    dsimp only at accepted tags ⊢
    have equal : vs.find? (fun q => (s.src [r.vd] q).tag != (s.h.chain v).tag) = none := by
      rw [List.find?_eq_none]
      intro q hq
      rw [ready.src, (tags q (List.mem_cons_of_mem v hq)).1]
      simp
    rw [ready.src, accepted, equal]
    rfl

theorem Ready.lengthOk : s.lengthOk [r.vd] (s.x r.xl) (r.srcs.map fun v => (v, (s.x r.xl).toNat)) = .ok () := by
  have long : ((r.srcs.map fun v => (v, (s.x r.xl).toNat)).any fun p => s.short [r.vd] p.1 p.2) = false := by
    rw [List.any_map, List.any_eq_false]
    intro v hv
    have count := (ready.tags v hv).2
    unfold ElementRow.vl at count
    rw [Function.comp_apply]
    unfold State.short
    rw [ready.calm.promised, ready.src]
    simpa using count
  have sure : ((r.srcs.map fun v => (v, (s.x r.xl).toNat)).any fun p => s.unsure p.1 p.2) = false := by
    rw [List.any_map, List.any_eq_false]
    intro v _
    rw [Function.comp_apply]
    unfold State.unsure
    rw [ready.calm.promised]
    exact Bool.false_ne_true
  have within : ¬ s.vlmax < (s.x r.xl).toNat := not_lt.2 ready.length
  unfold State.lengthOk
  rw [long, if_neg (by simp [within]), sure]
  rfl

/-- No stopped member and no command keeps an element of a source back. -/
theorem Ready.limit (n : Nat) : (r.srcs.map fun v => s.awake.availV v n).foldl min (s.awake.availM r.msk n) = n := by
  have calm : s.awake.calm := ready.calm
  rw [calm.availM, List.foldl_map]
  refine List.foldlRecOn (motive := fun m => m = n) r.srcs _ rfl fun m hm v hv => ?_
  have free : s.awake.filling v = false := ready.unclaimed.filling (List.mem_cons_of_mem _ hv)
  rw [calm.availV free, hm, Nat.min_self]

theorem Ready.operandAt (o : Operand) (j : Nat) : s.awake.operandAt [r.vd] (r.tag s) o j = r.arg s j o := by
  cases o with
  | chain v =>
    have source : s.awake.src [r.vd] v = s.h.chain v := State.calm.src (s := s.awake) ready.calm _ _
    unfold State.operandAt arg
    dsimp only
    rw [source]
    exact elem_stand (s := s) (t := s.awake) (fun _ _ => rfl) _ _
  | scalar x => rfl

/-- A row that is ready and does not take the place of its first source makes its fresh chain. -/
theorem Ready.elementwise_fresh (apart : ¬ r.inPlace s) (h : s.tidy) (room : s.roomFor (linksFor (r.rtag (r.tag s)) (r.vl s))) {extra : Tag →
    Except Trap Unit}
    (allowed : extra (r.tag s) = .ok ()) :
    completes (s.elementwise r.vd r.ops r.accept r.rtag r.xl r.msk r.z r.fill r.checked extra r.f)
      (FreshResult r.vd (r.rtag (r.tag s)) (r.vl s) (r.val s) (orFlags (r.vl s) (r.flg s)) s) := by
  have elsewhere : (tagWidth (r.rtag (r.tag s)) == tagWidth (r.tag s) && r.srcs.head? == some r.vd) = false := by
    rw [Bool.eq_false_iff]
    intro same
    rw [Bool.and_eq_true, beq_iff_eq, beq_iff_eq] at same
    exact apart same.symm
  have dest : s.unclaimed [r.vd] [] := by
    have free := ready.unclaimed
    unfold State.unclaimed State.busy? at free ⊢
    rw [List.any_nil, Bool.or_false, List.any_cons, Bool.or_eq_false_iff] at free
    simpa using free.1
  have same : s.awake.maskOn r.msk = s.maskOn r.msk := rfl
  have args (j : Nat) : (r.ops.map fun o => s.awake.operandAt [r.vd] (r.tag s) o j) = r.ops.map (r.arg s j) :=
    List.map_congr_left fun o _ => ready.operandAt o j
  unfold State.elementwise
  extract_lets srcs vl n t checks
  have ht : t = r.tag s := ready.firstTag
  have hchecks : checks = .ok () := by
    show (do s.chainsOk [r.vd] r.srcs; s.tagsOk [r.vd] r.srcs r.accept; extra t; s.lengthOk [r.vd] (s.x r.xl) (r.srcs.map fun v => (v, (s.x r.xl).toNat))) = _
    rw [ht, ready.chainsOk, ready.tagsOk, allowed, ready.lengthOk]
    rfl
  clear_value t checks
  subst ht hchecks
  unfold State.orTrap
  dsimp only
  rw [whenFree_unclaimed dest]
  refine produce_makes elsewhere rfl rfl (ready.limit _) rfl rfl rfl (fun j => ?_) (fun j => ?_) h ready.calm ready.lanes ready.result
    (chainBytes_le_spine _ (ready.length.trans (vlmax_le s))) room
  · dsimp only
    rw [same, args j]
    unfold val op
    by_cases active : s.maskOn r.msk j = true
    · rw [if_pos active, if_pos active]
    · rw [if_neg active, if_neg active]
      cases r.z with
      | true => rfl
      | false =>
        cases r.fill with
        | zero => rfl
        | first =>
          cases r.ops with
          | nil => rfl
          | cons o _ => exact ready.operandAt o j
  · dsimp only
    rw [same, args j]
    unfold flg op
    by_cases active : s.maskOn r.msk j = true
    · rw [if_pos active, if_pos active]
    · rw [if_neg active, if_neg active]
      cases r.z with
      | true => rfl
      | false =>
        cases r.fill with
        | zero => rfl
        | first => cases r.ops <;> rfl

end

end ElementRow

end Sys2Proof.Machine

open Sys2Proof Sys2Proof.Machine

/-- Settles O19, by induction on the elements put: the chain so far stands in a store of its own. -/
theorem elementRowsMakeFreshChains : Obligations.ElementRowsMakeFreshChains := by
  unfold Obligations.ElementRowsMakeFreshChains
  intro i r s row ready apart tidy room
  obtain ⟨extra, meaning, allowed⟩ := exec_elementRow row s
  rw [meaning]
  exact ready.elementwise_fresh apart tidy room (allowed _ ready.rounds)

end

section
/-! PROOFS. Handed-off writes performed (R192, R195, R276, R279, R280): what a performed write leaves of the issuing core's L1 and of its home, and what becomes
of the packets of the cluster network. -/

namespace Sys2Proof.Machine

/-! A core's L1 swept of the lines that satisfy a test, the dirty ones written back (Table 05-8). -/

theorem setHart_clear {s : State} (store : ClearStore s) (k : Nat) (h : Hart) : ClearStore (s.setHart k h) := by
  unfold State.setHart
  split <;> exact ⟨store.frames, store.poison, store.wf⟩

theorem setCore_clear {s : State} (store : ClearStore s) (n : Nat) (c : Core) : ClearStore (s.setCore n c) := by
  unfold State.setCore
  split <;> exact ⟨store.frames, store.poison, store.wf⟩

/-- A line beyond correction leaves the store as it is, any other is written to it or to another node. -/
theorem lineGone_clear {s : State} (store : ClearStore s) (n : Nat) (l : L1Line) : ClearStore (s.writeBack n l) := by
  cases bad : l.bad with
  | false => exact writeBack_clear store n bad
  | true =>
    have checked : s.writeBack n l = s.lineCheck n l := if_pos bad
    rw [checked]
    unfold State.lineCheck
    split
    · exact setHart_clear store _ _
    · exact store

section
variable (s : State) (n : Nat) (test : L1Line → Bool)

/-- The dirty lines of a core's L1 that satisfy a test, written back. -/
def State.dirtyBack : State := (((s.coreAt n).l1.filter test).filter (·.dirty)).foldl (fun t l => t.writeBack n l) s

theorem sweepAt_eq : ∃ c : Core, s.sweepAt n test true false = (s.dirtyBack n test).setCore n c ∧ c.l1 = (s.coreAt n).l1.filter fun l => !test l := by
  obtain ⟨-, cores, -⟩ := writeBacks_caches s n (((s.coreAt n).l1.filter test).filter (·.dirty)) _ rfl
  refine ⟨_, rfl, ?_⟩
  show ((s.dirtyBack n test).coreAt n).l1.filter (fun l => !test l) = _
  rw [State.dirtyBack, cores]

theorem sweepAt_lines : ((s.sweepAt n test true false).coreAt n).l1 = (s.coreAt n).l1.filter fun l => !test l := by
  obtain ⟨c, swept, lines⟩ := sweepAt_eq s n test
  rw [swept, setCore_coreAt, if_pos rfl, lines]

theorem sweepAt_hart (sound : ∀ l ∈ (s.coreAt n).l1, l.bad = false) : (s.sweepAt n test true false).h = s.h := by
  obtain ⟨-, -, hart⟩ := writeBacks_caches s n (((s.coreAt n).l1.filter test).filter (·.dirty)) _ rfl
  obtain ⟨c, swept, -⟩ := sweepAt_eq s n test
  rw [swept, (setCore_keys _ n c).2.2.2]
  exact hart fun l hl => sound l (List.mem_filter.1 (List.mem_filter.1 hl).1).1

theorem sweepAt_clear (store : ClearStore s) : ClearStore (s.sweepAt n test true false) := by
  obtain ⟨c, swept, -⟩ := sweepAt_eq s n test
  rw [swept]
  exact setCore_clear (List.foldlRecOn _ _ store fun t ht l _ => lineGone_clear ht n l) n c

theorem setCore_homeRead (c : Core) (k len : Nat) : (s.setCore n c).homeRead k len = s.homeRead k len := by
  have store : (s.setCore n c).mem = s.mem ∧ (s.setCore n c).frames = s.frames := by
    unfold State.setCore
    split <;> exact ⟨rfl, rfl⟩
  exact homeRead_congr store.1 store.2 len k

/-- The one line of this device that is swept stands whole at home when it is dirty. -/
theorem sweepAt_reads (store : ClearStore s) {l : L1Line} (listed : l ∈ (s.coreAt n).l1) (hit : test l = true) (dirty : l.dirty = true) (sound : l.bad = false)
    (home : l.node = none) (alone : ∀ o ∈ (s.coreAt n).l1, o = l ∨ test o = false) :
    (s.sweepAt n test true false).homeRead l.key 64 = lineBytes l.data 0 64 := by
  have same : ∀ o ∈ ((s.coreAt n).l1.filter test).filter (·.dirty), o = l := fun o ho => by
    obtain ⟨here, hits⟩ := List.mem_filter.1 (List.mem_filter.1 ho).1
    exact (alone o here).resolve_right (by rw [hits]; exact Bool.noConfusion)
  obtain ⟨c, swept, -⟩ := sweepAt_eq s n test
  rw [swept, setCore_homeRead]
  refine writeBacks_read home n _ store (fun o ho => ?_) (fun o ho => .inl (same o ho)) (.inl ?_)
  · rw [same o ho, sound]
  · exact List.mem_filter.2 ⟨List.mem_filter.2 ⟨listed, hit⟩, dirty⟩

end

/-- One byte of a line that stands whole at home. -/
theorem homeByte_of_line {s : State} {k : Nat} {d : BitVec 512} (whole : s.homeRead k 64 = lineBytes d 0 64) {b : Nat} (hb : b < 64) :
    [s.homeByte (k + b)] = lineBytes d b 1 := by
  rw [homeRead_getElem, lineBytes, toBytes_eq_map] at whole
  have byte := congrArg (fun l => l[b]?) whole
  simp only [List.getElem?_map, List.getElem?_range hb, Option.map_some, Option.some.injEq, Nat.mul_zero, Nat.pow_zero, Nat.div_one] at byte
  rw [byte, lineBytes, Nat.pow_mul]
  rfl

/-! A write performed (R192, R276, R279). -/

/-- The state in which a handed-off write finds its home: a vector write has taken its line out of the issuing core's L1 (R192). -/
def State.lineTaken (s : State) (p : Pending) : State :=
  if p.flush then s.sweepAt (p.hart / 8) (fun l => l.covers p.node p.ctx p.space p.key p.data.length) true false else s

theorem length_applyOp (op : WriteOp) (old new : List Byte) : (applyOp op old new).length = new.length := by
  have size (v : Nat) : (toBytes new.length v).length = new.length := by simp [toBytes_eq_map]
  cases op with
  | put | ast => rfl
  | maxn => exact size _
  | nib hi =>
    unfold applyOp
    dsimp only
    split
    · rfl
    · rfl
  | add t =>
    unfold applyOp
    dsimp only
    split
    · exact size _
    · exact size _
  | fmax t =>
    unfold applyOp
    dsimp only
    split
    · exact size _
    · rfl

section
variable (s : State) (p : Pending)

theorem lineTaken_clear (store : ClearStore s) : ClearStore (s.lineTaken p) := by
  unfold State.lineTaken
  split
  · exact sweepAt_clear s _ _ store
  · exact store

theorem lineTaken_hart (sound : ∀ l ∈ (s.coreAt (p.hart / 8)).l1, l.bad = false) : (s.lineTaken p).h = s.h := by
  unfold State.lineTaken
  split
  · exact sweepAt_hart s _ _ sound
  · rfl

/-- A write whose home is another node leaves for it (R86, R279). -/
theorem perform_away {nd : BitVec 16} (away : p.node = some nd) : ∃ early, s.perform p =
    { s.lineTaken p with early := early, remote := (s.lineTaken p).remote ++ [⟨nd, p.ctx, p.space, p.off, p.agent, p.op, p.data⟩] } := by
  unfold State.perform State.lineTaken
  rw [away]
  split
  · exact ⟨_, rfl⟩
  · exact ⟨_, rfl⟩

/-- Any other makes of the bytes at home what its operation says (R199, R200, R276). -/
theorem perform_home (home : p.node = none) : ∃ early, s.perform p =
    State.homeWrite { s.lineTaken p with early := early } p.key (applyOp p.op ((s.lineTaken p).homeRead p.key p.data.length) p.data) := by
  unfold State.perform State.lineTaken
  rw [home]
  split
  · refine ⟨_, congrArg (fun old => State.homeWrite _ p.key (applyOp p.op old p.data)) ?_⟩
    exact homeRead_congr (by rfl) (by rfl) _ _
  · exact ⟨_, rfl⟩

/-- However it goes, the cores and the harts are those that the taking of the line leaves. -/
theorem perform_rest : (s.perform p).h = (s.lineTaken p).h ∧ ∀ n, (s.perform p).coreAt n = (s.lineTaken p).coreAt n := by
  cases node : p.node with
  | some nd =>
    obtain ⟨_, made⟩ := perform_away s p node
    rw [made]
    exact ⟨rfl, fun _ => rfl⟩
  | none =>
    obtain ⟨early, made⟩ := perform_home s p node
    obtain ⟨_, _, _, _, written⟩ := homeWrite_storage { s.lineTaken p with early := early } p.key
      (applyOp p.op ((s.lineTaken p).homeRead p.key p.data.length) p.data)
    rw [made, written]
    exact ⟨rfl, fun _ => rfl⟩

theorem perform_reads (home : p.node = none) (store : ClearStore s) :
    (s.perform p).homeRead p.key p.data.length = applyOp p.op ((s.lineTaken p).homeRead p.key p.data.length) p.data := by
  obtain ⟨early, made⟩ := perform_home s p home
  have taken := lineTaken_clear s p store
  have whole := homeRead_homeWrite (s := { s.lineTaken p with early := early }) taken.frames taken.poison taken.wf p.key
    (applyOp p.op ((s.lineTaken p).homeRead p.key p.data.length) p.data) (i := 0) (n := p.data.length) (by rw [length_applyOp, Nat.zero_add])
  rw [made]
  refine whole.trans ?_
  rw [List.drop_zero, List.take_of_length_le (by rw [length_applyOp])]

theorem perform_outside (home : p.node = none) (store : ClearStore s) {j : Nat} (outside : j < p.key ∨ p.key + p.data.length ≤ j) :
    (s.perform p).homeByte j = (s.lineTaken p).homeByte j := by
  obtain ⟨early, made⟩ := perform_home s p home
  have taken := lineTaken_clear s p store
  rw [made]
  exact homeByte_homeWrite_outside (s := { s.lineTaken p with early := early }) ⟨taken.frames, taken.poison, taken.wf⟩ _ _ (by rwa [length_applyOp])

end

/-- What a handed-off write that is performed leaves (R192, R276, R279): the hand-off is gone, the lines it meets have left the issuing core's L1, those that were
dirty written back, and its bytes stand at home or go to their node. -/
def WritePerformed (s : State) (i : Nat) (p : Pending) (t : State) : Prop :=
  let covers (l : L1Line) : Bool := l.covers p.node p.ctx p.space p.key p.data.length
  let n := p.data.length
  t.pend = s.pend.eraseIdx i ∧ ((∀ l ∈ (s.coreAt (p.hart / 8)).l1, l.bad = false) → t.h = s.h)
    ∧ (p.flush = true → (t.coreAt (p.hart / 8)).l1 = (s.coreAt (p.hart / 8)).l1.filter fun l => !covers l)
    ∧ (p.node = none → s.frames = [] → s.poison = [] → s.mem.wf = true →
        t.homeRead p.key n = applyOp p.op ((s.lineTaken p).homeRead p.key n) p.data
        ∧ (∀ j, j < p.key ∨ p.key + n ≤ j → t.homeByte j = (s.lineTaken p).homeByte j)
        ∧ ∀ l ∈ (s.coreAt (p.hart / 8)).l1, p.flush = true → covers l = true → l.dirty = true → l.bad = false →
            (∀ o ∈ (s.coreAt (p.hart / 8)).l1, o = l ∨ covers o = false) → ∀ b, b < 64 → (l.key + b < p.key ∨ p.key + n ≤ l.key + b) →
            [t.homeByte (l.key + b)] = lineBytes l.data b 1)
    ∧ ∀ nd, p.node = some nd → t.mem = (s.lineTaken p).mem
        ∧ t.remote = (s.lineTaken p).remote ++ [⟨nd, p.ctx, p.space, p.off, p.agent, p.op, p.data⟩]

theorem performAt_performed {s : State} {i : Nat} {p : Pending} (listed : s.pend[i]? = some p) : WritePerformed s i p (s.performAt i) := by
  have made : s.performAt i = { s.perform p with pend := s.pend.eraseIdx i } := by
    unfold State.performAt
    rw [listed]
  have bytes : ∀ j, (s.performAt i).homeByte j = (s.perform p).homeByte j := fun j => by
    rw [made]
    exact homeByte_congr rfl rfl j
  have reads : (s.performAt i).homeRead p.key p.data.length = (s.perform p).homeRead p.key p.data.length := by
    rw [made]
    exact homeRead_congr (by rfl) (by rfl) _ _
  obtain ⟨hart, cores⟩ := perform_rest s p
  refine ⟨by rw [made], fun sound => ?_, fun flush => ?_, fun home frames poison wf => ⟨?_, fun j outside => ?_, ?_⟩, fun nd away => ?_⟩
  · rw [made]
    exact hart.trans (lineTaken_hart s p sound)
  · rw [made]
    refine (congrArg Core.l1 (cores _)).trans ?_
    rw [State.lineTaken, if_pos flush, sweepAt_lines]
  · rw [reads, perform_reads s p home ⟨frames, poison, wf⟩]
  · rw [bytes, perform_outside s p home ⟨frames, poison, wf⟩ outside]
  · intro l here flush hit dirty sound alone b hb outside
    have node : l.node = none := by
      unfold L1Line.covers at hit
      simp only [Bool.and_eq_true, beq_iff_eq] at hit
      rw [hit.1.1, home]
    have whole := sweepAt_reads s (p.hart / 8) _ ⟨frames, poison, wf⟩ here hit dirty sound node alone
    rw [bytes, perform_outside s p home ⟨frames, poison, wf⟩ outside, State.lineTaken, if_pos flush]
    exact homeByte_of_line whole hb
  · obtain ⟨early, away⟩ := perform_away s p away
    rw [made, away]
    exact ⟨rfl, rfl⟩

/-! The steps (R195, R279, R280). -/

theorem mayPerform_of {s : State} {i : Nat} {p : Pending} (listed : s.pend[i]? = some p) (first : ∀ q ∈ s.pend.take i, q.before p = false) :
    s.mayPerform i = true := by
  unfold State.mayPerform
  rw [listed]
  exact List.all_eq_true.2 fun q hq => by rw [first q hq]; rfl

theorem execWritePerformed_next {s : State} {k : Nat} {p : Pending} (listed : s.pend[k]? = some p) (alone : p.pkt = none)
    (first : ∀ q ∈ s.pend.take k, q.before p = false) : execWritePerformed k s = .next (s.performAt k) := by
  unfold execWritePerformed
  rw [listed]
  exact if_pos ⟨by rw [alone]; rfl, mayPerform_of listed first⟩

/-- The step of a scatter packet is that of its kind. -/
theorem exec_scatter {q : Packet} (kind : q.kind = 2 ∨ q.kind = 3) (k : Nat) (s : State) :
    exec (if q.kind = 3 then .scatterAdd k else .scatter k) s = scatter q.kind k s := by
  obtain two | three := kind
  · rw [two]
    rfl
  · rw [three]
    rfl

section
variable {s : State} {k : Nat} {q : Packet} (sent : s.packets[k]? = some q)
include sent

/-- The next element of a packet is its first that is still handed off (R194, R195). -/
theorem scatter_applies {i : Nat} {p : Pending} (listed : s.pend[i]? = some p) (mine : p.id ∈ q.ids)
    (next : ∀ j x, j < i → s.pend[j]? = some x → x.id ∉ q.ids) (first : ∀ x ∈ s.pend.take i, x.before p = false) :
    scatter q.kind k s = .next (s.performAt i) := by
  have found : s.scatterNext q = some i := by
    obtain ⟨below, here⟩ := List.getElem?_eq_some_iff.1 listed
    refine List.findIdx?_eq_some_iff_getElem.2 ⟨below, by rw [here]; simpa using mine, fun j hj => ?_⟩
    simpa using next j _ hj (List.getElem?_eq_getElem (by omega))
  unfold scatter
  rw [sent]
  refine (if_neg (not_not.2 rfl)).trans ?_
  rw [found]
  exact if_pos (mayPerform_of listed first)

theorem scatter_gone (done : ∀ x ∈ s.pend, x.id ∉ q.ids) : scatter q.kind k s = .next { s with packets := s.packets.eraseIdx k } := by
  have none : s.scatterNext q = none := List.findIdx?_eq_none_iff.2 fun x hx => by simpa using done x hx
  unfold scatter
  rw [sent]
  refine (if_neg (not_not.2 rfl)).trans ?_
  rw [none]

end

/-- Nothing is needed before a read that no handed-off write meets. -/
theorem needed_nil {test : Pending → Bool} {l : List Pending} (apart : ∀ p ∈ l, test p = false) : needed test l = [] := by
  induction l with
  | nil => rfl
  | cons p l ih =>
    rw [needed, ih fun q hq => apart q (.tail _ hq), apart p (.head _)]
    rfl

theorem performAll_nil (s : State) : s.performAll ([] : List Pending).contains = s := by
  have none : s.pend.filter ([] : List Pending).contains = [] := List.filter_eq_nil_iff.2 fun _ _ => Bool.false_ne_true
  have all : s.pend.filter (fun p => !([] : List Pending).contains p) = s.pend := List.filter_eq_self.2 fun _ _ => rfl
  unfold State.performAll
  dsimp only
  rw [none, List.foldl_nil, all]

/-- Requests whose hart has no vector write in flight bring back what stands at their core (R195); a poisoned word gives nothing (R190). -/
theorem gatherRequest_serves {s : State} {k : Nat} {q : Packet} (sent : s.packets[k]? = some q) (request : q.kind = 0)
    (first : ∀ x ∈ s.packets.take k, ¬ (x.hart = q.hart ∧ x.target = q.target ∧ x.kind = 0)) (quiet : ∀ x ∈ s.pend, x.hart = q.hart → x.vec = false) :
    execGatherRequest k s = .next { s with packets := s.packets.set k { q with kind := 1, elems := q.elems.map fun e =>
      let n := (tagWidth q.tag + 7) / 8
      (e.1, e.2.1, if (s.poisonIn (lsKey q.target e.1) n).isSome then [] else s.homeRead (lsKey q.target e.1) n) } } := by
  have turn : s.packetNext k = true := by
    unfold State.packetNext
    rw [sent]
    refine List.all_eq_true.2 fun x hx => ?_
    have other := first x hx
    simpa [request, imp_iff_not_or, not_and_or, or_assoc] using other
  unfold execGatherRequest
  rw [sent]
  refine (if_neg (by simp [request, turn])).trans ?_
  extract_lets n read r
  have still (off : Nat) : read s off = (if (s.poisonIn (lsKey q.target off) n).isSome then [] else s.homeRead (lsKey q.target off) n, s) := by
    unfold read
    dsimp only
    rw [needed_nil fun x hx => ?_, performAll_nil]
    · split <;> rfl
    · by_cases mine : x.hart = q.hart
      · simp [quiet x hx mine]
      · simp [mine]
  have served (l : List (Nat × Nat × List Byte)) : ∀ before, l.foldl (fun a e => (a.1 ++ [(e.1, e.2.1, (read a.2 e.1).1)], (read a.2 e.1).2)) (before, s) =
      (before ++ l.map fun e => (e.1, e.2.1, if (s.poisonIn (lsKey q.target e.1) n).isSome then [] else s.homeRead (lsKey q.target e.1) n), s) := by
    induction l with
    | nil => exact fun before => by rw [List.map_nil, List.append_nil]; rfl
    | cons e l ih =>
      intro before
      rw [List.foldl_cons, still, ih, List.map_cons, List.append_assoc]
      rfl
  have all : r = _ := served q.elems []
  clear_value r
  subst all
  rfl

theorem gatherReply_lands {s : State} {k : Nat} {q : Packet} (sent : s.packets[k]? = some q) (reply : q.kind = 1) :
    execGatherReply k s = .next { s with packets := s.packets.set k { q with kind := 4 } } := by
  unfold execGatherReply
  rw [sent]
  exact if_neg (not_not.2 reply)

end Sys2Proof.Machine

open Sys2Proof Sys2Proof.Machine

/-- Settles O51: the step of a write, or of the packet that carries it, is `performAt`, which leaves what `performAt_performed` says; requests and replies move as
`gatherRequest_serves` and `gatherReply_lands` say. -/
theorem handedOffWritesArePerformed : Obligations.HandedOffWritesArePerformed := by
  unfold Obligations.HandedOffWritesArePerformed
  intro s k
  refine ⟨fun p listed alone first => ?_, fun q sent => ⟨fun i p kind listed mine next first => ?_, fun kind done => ?_, fun request first quiet => ?_, fun reply => ?_⟩⟩
  · exact ⟨_, execWritePerformed_next listed alone first, performAt_performed listed⟩
  · exact ⟨_, (exec_scatter kind k s).trans (scatter_applies sent listed mine next first), performAt_performed listed⟩
  · exact (exec_scatter kind k s).trans (scatter_gone sent done)
  · exact gatherRequest_serves sent request first quiet
  · exact gatherReply_lands sent reply

end

section
/-! PROOFS. A fresh chain with elements left as they are (R153, R198): a masked-off element of a load takes its storage and nothing is put there, so that
it reads as the zero of its fresh row. -/

namespace Sys2Proof.Machine

/-! Storage that nothing has been put into reads as zero. -/

theorem ofBytes_zero {α : Type} (l : List α) {f : α → Byte} (zero : ∀ a ∈ l, f a = 0) : ofBytes (l.map f) = 0 := by
  induction l with
  | nil => rfl
  | cons a l ih =>
    rw [List.map_cons, ofBytes, zero a (.head _), ih fun b hb => zero b (.tail _ hb)]
    rfl

/-- An element that ends past the last data link has no byte in a data link. -/
theorem elemOf_beyond {t : Tag} (live : t ≠ 0) {f : Nat → Byte} {m j : Nat} (beyond : 512 * m < chainBytes t (j + 1)) (zero : ∀ c, 512 * m ≤ c → f c = 0) :
    elemOf t f j = 0 := by
  obtain rfl | ⟨whole, k, width, size⟩ := tagWidth_cases live
  · rw [chainBytes_nibble] at beyond
    rw [elemOf_nibble, zero (j / 2) (by omega)]
    exact ite_self 0
  · rw [chainBytes_whole width] at beyond
    rw [elemOf_whole whole width]
    refine ofBytes_zero _ fun i _ => zero _ ?_
    obtain rfl | rfl | rfl | rfl := size <;> omega

theorem storeByte_past {t : State} {ls : List Nat} {c : Nat} (past : 512 * ls.length ≤ c) : t.storeByte ls c = 0 := by
  unfold State.storeByte
  rw [List.getElem?_eq_none (by omega)]

/-- A byte of the data link taken last. -/
theorem storeByte_last {t : State} {ls : List Nat} {l c : Nat} (zero : ∀ b, b < 512 → t.linkByte l b = 0) (past : 512 * ls.length ≤ c) :
    t.storeByte (ls ++ [l]) c = 0 := by
  by_cases last : c / 512 = ls.length
  · rw [storeByte_some (l := l) (by rw [last, List.getElem?_concat_length]), zero _ (Nat.mod_lt _ (by decide))]
  · exact storeByte_past (by rw [List.length_append, List.length_singleton]; omega)

/-! The length of a span plays no part for what lies inside it. -/

section
variable (sp : Nat) {n n' : Nat}

theorem byteLoc_span (t : State) {c : Nat} (inside : c < n) (inside' : c < n') : t.byteLoc [⟨sp, 0, n⟩] c = t.byteLoc [⟨sp, 0, n'⟩] c := by
  unfold State.byteLoc spanOf
  rw [if_pos inside, if_pos inside']

theorem chainPut_span (bs : List Byte) : ∀ (t : State) {b : Nat}, b + bs.length ≤ n → b + bs.length ≤ n' →
    t.chainPut [⟨sp, 0, n⟩] b bs = t.chainPut [⟨sp, 0, n'⟩] b bs := by
  induction bs with
  | nil => exact fun _ _ _ _ => rfl
  | cons v bs ih =>
    intro t b inside inside'
    rw [List.length_cons] at inside inside'
    rw [State.chainPut, State.chainPut, byteLoc_span sp t (n' := n') (by omega) (by omega)]
    exact ih _ (by omega) (by omega)

theorem putElem_span (t : State) {tag : Tag} (live : tag ≠ 0) {j : Nat} (inside : chainBytes tag (j + 1) ≤ n) (inside' : chainBytes tag (j + 1) ≤ n')
    (count v : Nat) : t.putElem ⟨tag, count, [⟨sp, 0, n⟩]⟩ j v = t.putElem ⟨tag, count, [⟨sp, 0, n'⟩]⟩ j v := by
  unfold State.putElem
  obtain rfl | ⟨whole, k, width, -⟩ := tagWidth_cases live
  · rw [chainBytes_nibble] at inside inside'
    have read : t.chainRead [⟨sp, 0, n⟩] (j / 2) 1 = t.chainRead [⟨sp, 0, n'⟩] (j / 2) 1 := by
      rw [State.chainRead, State.chainRead, byteLoc_span sp t (n' := n') (by omega) (by omega)]
      rfl
    dsimp only
    rw [if_pos rfl, if_pos rfl, read]
    exact chainPut_span sp _ t (by rw [List.length_singleton]; omega) (by rw [List.length_singleton]; omega)
  · rw [chainBytes_whole width, Nat.succ_mul] at inside inside'
    have size (w : Nat) : (toBytes k w).length = k := by rw [toBytes_eq_map, List.length_map, List.length_range]
    dsimp only
    rw [if_neg whole, if_neg whole, width, Nat.mul_div_cancel_left k (by decide)]
    exact chainPut_span sp _ t (by rw [size]; omega) (by rw [size]; omega)

end

/-- From element j on a store reads as zero. -/
def State.blankFrom (t : State) (tag : Tag) (ls : List Nat) (j : Nat) : Prop := ∀ i, j ≤ i → elemOf tag (t.storeByte ls) i = 0

/-- An element put leaves what comes after it blank. -/
theorem FreshStore.putElem_blank {s t : State} {sp : Nat} {ls : List Nat} (f : FreshStore s sp ls t) {tag : Tag} (live : tag ≠ 0) {n j : Nat}
    (inside : chainBytes tag (j + 1) ≤ n) (held : n ≤ 512 * ls.length) (few : 512 * ls.length ≤ 131072) (blank : t.blankFrom tag ls (j + 1)) (count v : Nat) :
    (t.putElem ⟨tag, count, [⟨sp, 0, n⟩]⟩ j v).blankFrom tag ls (j + 1) := by
  intro i later
  by_cases beyond : 512 * ls.length < chainBytes tag (i + 1)
  · exact elemOf_beyond live beyond fun c => storeByte_past
  · obtain ⟨-, reads⟩ := f.putElem live few le_rfl (inside.trans held) count v
    rw [putElem_span sp t live inside (inside.trans held), reads i (by omega), if_neg (by omega), blank i later]

/-! Storage for the next element, which reads as zero (R153, R162). -/

/-- A data link taken changes no byte of the store: its own read as zero, as what lay past the last one did. -/
theorem FreshStore.addLink_storeByte {s t : State} {sp : Nat} {ls : List Nat} (f : FreshStore s sp ls t) (slot : ls.length < 256)
    (room : t.core.links.length < 2048) (c : Nat) : (t.addLink sp ls.length).storeByte (ls ++ [(t.allocLink .data).1]) c = t.storeByte ls c := by
  obtain ⟨-, kept, zero⟩ := f.addLink slot room
  by_cases past : 512 * ls.length ≤ c
  · rw [storeByte_last zero past, storeByte_past past]
  · obtain ⟨l, listed⟩ : ∃ l, ls[c / 512]? = some l := ⟨_, List.getElem?_eq_getElem (by omega)⟩
    rw [storeByte_some listed, storeByte_some (l := l) (by rw [List.getElem?_append_left (by omega), listed]), kept l (List.mem_of_getElem? listed) _
      (Nat.mod_lt _ (by decide))]

/-- Storage for j + 1 elements, of which the first j have been put. -/
structure Readied (s : State) (vd : VReg) (tag : Tag) (val : Nat → Nat) (fl : Flags) (j sp : Nat) (ls : List Nat) (u : State) : Prop where
  edit : ChainsEdit s u
  flags : u.h.vflags = s.h.vflags ||| fl
  others : ∀ r, r ≠ vd → u.h.chain r = s.h.chain r
  store : FreshStore s sp ls u
  size : ls.length = dataLinks tag (j + 1)
  elems : ∀ i, i < j → elemOf tag (u.storeByte ls) i = val i % 2 ^ tagWidth tag
  blank : u.blankFrom tag ls j

/-- A register before the first element of a fresh chain, or with the elements put so far and nothing behind them. -/
def SparseFilling (s : State) (vd : VReg) (tag : Tag) (val : Nat → Nat) (fl : Flags) (j : Nat) (t : State) : Prop :=
  (j = 0 ∧ fl = 0 ∧ t = s) ∨ (0 < j ∧ ∃ sp ls, FilledStore s vd tag val fl j sp ls t ∧ t.blankFrom tag ls j)

theorem SparseFilling.filling {s t : State} {vd : VReg} {tag : Tag} {val : Nat → Nat} {fl : Flags} {j : Nat} (f : SparseFilling s vd tag val fl j t) :
    Filling s vd tag val fl j t :=
  f.imp_right fun ⟨pos, sp, ls, filled, _⟩ => ⟨pos, sp, ls, filled⟩

/-- The first element has a spine and a data link. -/
theorem extend_readied_first {s : State} (h : s.tidy) {vd : VReg} {tag : Tag} (live : tag ≠ 0) (start : s.h.chain vd = ⟨tag, 0, []⟩)
    (room : s.roomFor (1 + dataLinks tag 1)) (val : Nat → Nat) :
    ∃ u sp ls, s.extend vd = .ok (u.setChain vd ⟨tag, 1, [⟨sp, 0, chainBytes tag 1⟩]⟩) ∧ Readied s vd tag val 0 0 sp ls u := by
  have one : dataLinks tag 1 = 1 := by
    obtain ⟨-, little, pos⟩ := chainBytes_succ live 0
    have none : chainBytes tag 0 = 0 := by simp [chainBytes]
    rw [Nat.zero_add] at little pos
    unfold dataLinks
    omega
  rw [one] at room
  have taken := allocLink_taken h .spine
  have named := (freshStore_spine h).congr (setRc_rewrites _ (s.allocLink .spine).1 1) (setRc_bytesStand _ _ _)
  have left : ((s.allocLink .spine).2.setRc (s.allocLink .spine).1 1).core.links.length < 2048 := by
    have count := named.length
    have := room.2
    rw [List.length_nil] at count
    omega
  obtain ⟨store, -⟩ := named.addLink (by decide) left
  have edit := (taken.edit.trans (setRc_rewrites _ (s.allocLink .spine).1 1).edit).trans (addLink_edit named.tidy (s.allocLink .spine).1 0)
  refine ⟨_, _, _, ?_, edit.chains, edit.v.2.trans BitVec.or_zero.symm, fun r _ => edit.chain r, store, one.symm, fun i hi => absurd hi (Nat.not_lt_zero i),
    fun i _ => elemOf_beyond (m := 0) live (chainBytes_succ live i).2.2 fun c _ => (named.addLink_storeByte (by decide) left c).trans (storeByte_past (Nat.zero_le c))⟩
  unfold State.extend
  rw [start]
  exact fits_of_poolFits (store.setChain.poolFits edit.vquota room)

/-- Every other stands in the last data link, or has the next one. -/
theorem FilledStore.extend_readied {s t : State} {vd : VReg} {tag : Tag} {val : Nat → Nat} {fl : Flags} {j sp : Nat} {ls : List Nat}
    (f : FilledStore s vd tag val fl j sp ls t) (live : tag ≠ 0) (blank : t.blankFrom tag ls j) (bound : chainBytes tag (j + 1) ≤ 131072)
    (room : s.roomFor (1 + dataLinks tag (j + 1))) :
    ∃ u ls', t.extend vd = .ok (u.setChain vd ⟨tag, j + 1, [⟨sp, 0, chainBytes tag (j + 1)⟩]⟩) ∧ Readied s vd tag val fl j sp ls' u := by
  obtain ⟨grows, little, pos⟩ := chainBytes_succ live j
  have size := f.size
  unfold dataLinks at size
  have slot : t.slotGet sp ((chainBytes tag (j + 1) - 1) / 512) = ls[(chainBytes tag (j + 1) - 1) / 512]? := f.store.slots _ (by omega)
  unfold State.extend
  rw [f.chain]
  dsimp only
  rw [slot]
  by_cases inside : (chainBytes tag (j + 1) - 1) / 512 < ls.length
  · rw [List.getElem?_eq_getElem inside]
    exact ⟨t, ls, rfl, f.edit, f.flags, f.others, f.store, by unfold dataLinks; omega, f.elems, blank⟩
  · have last : (chainBytes tag (j + 1) - 1) / 512 = ls.length := by omega
    have more : ls.length + 1 = dataLinks tag (j + 1) := by unfold dataLinks; omega
    have left : t.core.links.length < 2048 := by
      have count := f.store.length
      have := room.2
      omega
    obtain ⟨store, -⟩ := f.store.addLink (by omega) left
    have edit := addLink_edit f.store.tidy sp ls.length
    have bytes := funext (f.store.addLink_storeByte (by omega) left)
    have length : (ls ++ [(t.allocLink .data).1]).length = dataLinks tag (j + 1) := by rw [List.length_append, List.length_singleton, more]
    rw [List.getElem?_eq_none (by omega), last]
    refine ⟨t.addLink sp ls.length, _, fits_of_poolFits (store.setChain.poolFits (edit.vquota.trans f.edit.vquota) (by rw [length]; exact room)),
      f.edit.trans edit.chains, edit.v.2.trans f.flags, fun r hr => (edit.chain r).trans (f.others r hr), store, length, fun i hi => ?_, fun i hi => ?_⟩
    · rw [bytes, f.elems i hi]
    · rw [bytes, blank i hi]

theorem SparseFilling.extend {s t : State} {vd : VReg} {tag : Tag} {val : Nat → Nat} {fl : Flags} {j n : Nat} (f : SparseFilling s vd tag val fl j t)
    (h : s.tidy) (start : s.h.chain vd = ⟨tag, 0, []⟩) (live : tag ≠ 0) (below : j < n) (bound : chainBytes tag n ≤ 131072)
    (room : s.roomFor (linksFor tag n)) :
    (t.h.chain vd).count = j
      ∧ ∃ u sp ls, t.extend vd = .ok (u.setChain vd ⟨tag, j + 1, [⟨sp, 0, chainBytes tag (j + 1)⟩]⟩) ∧ Readied s vd tag val fl j sp ls u := by
  have fits : s.roomFor (1 + dataLinks tag (j + 1)) := by
    have le : dataLinks tag (j + 1) ≤ dataLinks tag n := Nat.div_le_div_right (Nat.add_le_add_right (chainBytes_mono live below) _)
    obtain ⟨used, links⟩ := room
    rw [linksFor_pos (by omega)] at used links
    exact ⟨by omega, by omega⟩
  obtain ⟨rfl, rfl, rfl⟩ | ⟨-, sp, ls, filled, blank⟩ := f
  · exact ⟨by rw [start], extend_readied_first h live start fits val⟩
  · obtain ⟨u, ls', readied⟩ := filled.extend_readied live blank ((chainBytes_mono live below).trans bound) fits
    exact ⟨by rw [filled.chain], u, sp, ls', readied⟩

/-! The next element put, or left as it is. -/

section
variable {s u : State} {vd : VReg} {tag : Tag} {val : Nat → Nat} {fl : Flags} {j sp : Nat} {ls : List Nat} (r : Readied s vd tag val fl j sp ls u)
include r

theorem Readied.put (live : tag ≠ 0) (bound : chainBytes tag (j + 1) ≤ 131072) (more : Flags) : SparseFilling s vd tag val (fl ||| more) (j + 1)
    (((u.setChain vd ⟨tag, j + 1, [⟨sp, 0, chainBytes tag (j + 1)⟩]⟩).putElem ⟨tag, j + 1, [⟨sp, 0, chainBytes tag (j + 1)⟩]⟩ j (val j)).raise more) := by
  have filled := r.store.filled (vd := vd) live r.size bound r.edit r.flags r.others r.elems more
  have size := r.size
  unfold dataLinks at size
  have blank := r.store.setChain (r := vd) (d := ⟨tag, j + 1, [⟨sp, 0, chainBytes tag (j + 1)⟩]⟩).putElem_blank live (j := j) le_rfl (by omega) (by omega)
    (fun i later => r.blank i (by omega)) (j + 1) (val j)
  exact .inr ⟨Nat.succ_pos j, sp, ls, filled, blank⟩

theorem Readied.skip (zero : val j = 0) (more : Flags) : SparseFilling s vd tag val (fl ||| more) (j + 1)
    ((u.setChain vd ⟨tag, j + 1, [⟨sp, 0, chainBytes tag (j + 1)⟩]⟩).raise more) := by
  refine .inr ⟨Nat.succ_pos j, sp, ls, ⟨(r.edit.trans (setChain_edit u vd _)).trans (raise_edit _ more), ?_, fun q hq => ?_, ?_, r.store.setChain.raise, r.size,
    fun i hi => ?_⟩, fun i later => r.blank i (by omega)⟩
  · show u.h.vflags ||| more = _
    rw [r.flags, BitVec.or_assoc]
  · exact (Hart.chain_setChain ..).trans ((if_neg hq).trans (r.others q hq))
  · exact (Hart.chain_setChain ..).trans (if_pos rfl)
  · show elemOf tag (u.storeByte ls) i = _
    by_cases last : i = j
    · rw [last, zero, Nat.zero_mod, r.blank j le_rfl]
    · exact r.elems i (by omega)

end

theorem orFlags_zero (n : Nat) : orFlags n (fun _ => 0) = 0 := by
  induction n with
  | zero => rfl
  | succ n ih => rw [orFlags_succ, ih]; rfl

section
variable {s : State} {c : Job} (fresh : c.inPlace = false) (sparse : c.sparse = true) (skipped : ∀ j, (c.out j).put = false → (c.out j).bits = 0)
include fresh sparse skipped

/-- One output of a sparse run while there is room. -/
theorem SparseFilling.put {t : State} {fl : Flags} {j : Nat} (f : SparseFilling s c.vd c.tag (fun j => (c.out j).bits) fl j t) (h : s.tidy)
    (start : s.h.chain c.vd = ⟨c.tag, 0, []⟩) (live : c.tag ≠ 0) (below : j < c.n) (bound : chainBytes c.tag c.n ≤ 131072)
    (room : s.roomFor (linksFor c.tag c.n)) : ∃ u, c.put t j (c.out j) = .ok u
      ∧ SparseFilling s c.vd c.tag (fun j => (c.out j).bits) (fl ||| (c.out j).flags) (j + 1) (u.raise (c.out j).flags) := by
  obtain ⟨count, u, sp, ls, extended, readied⟩ := f.extend h start live below bound room
  unfold Job.put
  rw [fresh, sparse]
  cases put : (c.out j).put with
  | true =>
    refine ⟨_, ?_, readied.put live ((chainBytes_mono live below).trans bound) _⟩
    have named : (u.setChain c.vd ⟨c.tag, j + 1, [⟨sp, 0, chainBytes c.tag (j + 1)⟩]⟩).h.chain c.vd = ⟨c.tag, j + 1, [⟨sp, 0, chainBytes c.tag (j + 1)⟩]⟩ :=
      (Hart.chain_setChain ..).trans (if_pos rfl)
    show t.append c.vd (c.out j).bits = _
    rw [State.append, extended, count, Except.map, named]
  | false => exact ⟨_, extended, readied.skip (skipped j put) _⟩

/-- A sparse run of outputs into a fresh chain makes them all while there is room. -/
theorem SparseFilling.run (h : s.tidy) (start : s.h.chain c.vd = ⟨c.tag, 0, []⟩) (live : c.tag ≠ 0) (bound : chainBytes c.tag c.n ≤ 131072)
    (room : s.roomFor (linksFor c.tag c.n)) (k : Nat) : ∀ {j : Nat} {t : State}, j + k = c.n →
    SparseFilling s c.vd c.tag (fun j => (c.out j).bits) (orFlags j fun j => (c.out j).flags) j t →
    ∃ u, c.run t j k = ⟨u, c.n, none⟩ ∧ SparseFilling s c.vd c.tag (fun j => (c.out j).bits) (orFlags c.n fun j => (c.out j).flags) c.n u := by
  induction k with
  | zero =>
    rintro j t rfl f
    exact ⟨t, rfl, f⟩
  | succ k ih =>
    intro j t hj f
    obtain ⟨u, put, next⟩ := f.put fresh sparse skipped h start live (by omega) bound room
    rw [← orFlags_succ j fun j => (c.out j).flags] at next
    obtain ⟨w, run, filled⟩ := ih (by omega) next
    exact ⟨w, by rw [Job.run, put]; exact run, filled⟩

/-- A word of a hart that runs and waits for nothing makes its sparse fresh chain whole when nothing holds it back and the pool has room. -/
theorem produce_sparse (running : s.awake = s) (unchecked : c.checks = none) (last : c.after = id) (whole : c.limit = c.n) (h : s.tidy) (calm : s.calm)
    (live : c.tag ≠ 0) (bound : chainBytes c.tag c.n ≤ 131072) (room : s.roomFor (linksFor c.tag c.n)) :
    completes (s.produce c) (FreshResult c.vd c.tag c.n (fun j => (c.out j).bits) (orFlags c.n fun j => (c.out j).flags) s) := by
  obtain ⟨s1, open_, opened⟩ := openDest_opened h calm c.vd c.tag c.keep
  rw [running] at open_
  have room1 : s1.roomFor (linksFor c.tag c.n) := by
    unfold State.roomFor
    rw [opened.charged, opened.length, opened.edit.vquota]
    exact room
  obtain ⟨w, run, filling⟩ := SparseFilling.run fresh sparse skipped opened.tidy opened.chain live bound room1 c.n (j := 0) (Nat.zero_add _)
    (.inl ⟨rfl, rfl, rfl⟩)
  have filled := filling.filling.filled live opened.chain bound
  unfold State.produce
  extract_lets v0 goes stop act kept halt
  have hv0 : v0 = 0 := calm.vstart
  have hstop : stop = c.n := by simp [stop, goes, hv0, whole]
  have hact : act = [] := by simp [act, unchecked]
  clear_value v0 stop act kept halt
  subst hv0 hstop hact
  rw [fresh, open_]
  dsimp only
  rw [Nat.sub_zero, run]
  dsimp only
  rw [show w.recheck [] 0 c.n c.per = (w, none) from rfl]
  dsimp only
  rw [if_pos le_rfl, last]
  exact ⟨_, rfl, filled.result opened (closeDest_closed w w.core.recompute w.core.upsets _ _ _ _)⟩

end

/-- The same with the result's elements given by the index, and without flags. -/
theorem produce_sparse_makes {s : State} {c : Job} {vd : VReg} {tag : Tag} {n : Nat} {val : Nat → Nat} (fresh : c.inPlace = false) (sparse : c.sparse = true)
    (skipped : ∀ j, (c.out j).put = false → (c.out j).bits = 0) (running : s.awake = s) (unchecked : c.checks = none) (last : c.after = id)
    (whole : c.limit = c.n) (hvd : c.vd = vd) (htag : c.tag = tag) (hn : c.n = n) (bits : ∀ j, (c.out j).bits = val j) (flags : ∀ j, (c.out j).flags = 0)
    (h : s.tidy) (calm : s.calm) (live : tag ≠ 0) (bound : chainBytes tag n ≤ 131072) (room : s.roomFor (linksFor tag n)) :
    completes (s.produce c) (FreshResult vd tag n val 0 s) := by
  subst hvd htag hn
  have made := produce_sparse fresh sparse skipped running unchecked last whole h calm live bound room
  rwa [funext bits, funext flags, orFlags_zero] at made

/-! A fresh result by its elements. -/

/-- Only the elements of the chain count. -/
theorem FreshResult.congr {vd : VReg} {tag : Tag} {n : Nat} {val val' : Nat → Nat} {fl : Flags} {s t : State} (made : FreshResult vd tag n val fl s t)
    (same : ∀ j, j < n → val j = val' j) : FreshResult vd tag n val' fl s t :=
  { made with chain := { made.chain with elems := fun j hj => (made.chain.elems j hj).trans (by rw [same j hj]) } }

/-- What a word has made is counted from the state before it waited as well. -/
theorem FreshResult.of_awake {vd : VReg} {tag : Tag} {n : Nat} {val : Nat → Nat} {fl : Flags} {s t : State} (made : FreshResult vd tag n val fl s.awake t) :
    FreshResult vd tag n val fl s t := by
  obtain ⟨chain, flags, charged, links, unchecked, chains, bytes, ⟨pc, instret, convoy, wait⟩, checks, rest⟩ := made
  exact ⟨chain, flags, charged, links, unchecked, chains, fun k => (bytes k).trans (homeByte_congr rfl rfl k), ⟨pc, instret, convoy, wait⟩, checks, rest⟩

end Sys2Proof.Machine
end

section
/-! PROOFS. Vector loads (R187, R190, R195, R198): what the probe and the reads leave of the hart, the requests of a gather, and the fresh chain. -/

namespace Sys2Proof.Machine

/-! Translation, the probe and the reads of the vector agent change caches and memory, and of the hart only the machine checks that wait. -/

/-- Whatever state a checked answer carries has the hart of s. -/
def CarriesHeld {ε α : Type} (s : State) (r : Except ε α) (state : α → State) : Prop := ∀ a, r = .ok a → SameHeld s (state a)

section
variable {s : State} {ε α β : Type}

theorem CarriesHeld.ok {a : α} {state : α → State} (h : SameHeld s (state a)) : CarriesHeld s (.ok a : Except ε α) state := by
  rintro _ ⟨⟩
  exact h

theorem CarriesHeld.error {c : ε} {state : α → State} : CarriesHeld s (.error c) state := nofun

theorem CarriesHeld.map {r : Except ε α} {f : α → β} {state : β → State} (h : ∀ a, SameHeld s (state (f a))) : CarriesHeld s (r.map f) state := by
  cases r with
  | error c => exact .error
  | ok a => exact .ok (h a)

end

theorem SameHeld.caches {s t : State} (cur : t.cur = s.cur) (hart : t.h = s.h) (za0 : t.core.za0 = s.core.za0) (za1 : t.core.za1 = s.core.za1) :
    SameHeld s t :=
  ⟨cur, ⟨s.h.debt, s.h.mcheck, hart⟩, za0, za1⟩

section
variable (s : State) (a : Acc) (space : BitVec 16) (off : Nat)

theorem translate_held : CarriesHeld s (s.translate a space off) Prod.snd := by
  unfold State.translate
  dsimp only
  split
  · split
    · exact .ok (.refl s)
    · split
      · exact .map fun _ => .caches rfl rfl rfl rfl
      · exact .ok (.refl s)
  · exact .map fun _ => .caches rfl rfl rfl rfl

theorem keyCheck_held {need : Nat} {t : State} (checked : s.keyCheck a space off need = some t) : SameHeld s t := by
  unfold State.keyCheck at checked
  split at checked
  · cases checked
    exact .caches rfl rfl rfl rfl
  · split at checked
    · split at checked
      · cases checked
      · cases checked
        exact .caches rfl rfl rfl rfl
    · split at checked
      · split at checked
        · cases checked
        · cases checked
          exact .caches rfl rfl rfl rfl
      · cases checked

theorem keyKeep_held (need : Nat) : SameHeld s (s.keyKeep a space off need) := by
  unfold State.keyKeep
  split <;> exact .caches rfl rfl rfl rfl

theorem locateMem_held (kind : Kind) : CarriesHeld s (s.locateMem a space off kind) Prod.snd := by
  unfold State.locateMem
  split
  · split
    · exact .ok (.refl s)
    · exact .error
  · split
    · exact .error
    · next e s1 walked =>
      have h1 : SameHeld s s1 := translate_held s a space off _ walked
      dsimp only
      split
      · refine .map fun _ => ?_
        dsimp only
        split
        · exact h1
        · exact h1.trans (keyKeep_held ..)
      · split
        · exact .error
        · split
          · exact .error
          · split
            · exact .ok h1
            · split
              · next s2 checked => exact .ok (h1.trans (keyCheck_held _ _ _ _ checked))
              · exact .error

theorem locate_held (n : Nat) (kind : Kind) (scalar : Bool) : CarriesHeld s (s.locate a space off n kind scalar) Prod.snd := by
  unfold State.locate
  split
  · exact .map fun _ => .refl s
  · split
    · exact .error
    · exact locateMem_held s a space off kind

end

theorem probe_held (space : BitVec 16) (n : Nat) (kind : Kind) (contig : Bool) (l : List (Nat × Nat)) :
    ∀ (s : State) (first : Option Nat), CarriesHeld s (s.probe space n kind contig first l) Prod.snd := by
  induction l with
  | nil => exact fun s _ => .ok (.refl s)
  | cons p l ih =>
    intro s first
    unfold State.probe
    split
    · exact .error
    · split
      · exact .error
      · next s1 located =>
        have h1 : SameHeld s s1 := locate_held _ _ _ _ _ _ _ _ located
        split
        · exact .error
        · next s2 probed =>
          have h2 : SameHeld s1 s2 := ih s1 _ _ probed
          exact .ok (h1.trans h2)

theorem lineTaken_held (s : State) (p : Pending) : SameHeld s (s.lineTaken p) := by
  unfold State.lineTaken
  split
  · exact sweepAt_held ..
  · exact .refl s

theorem perform_held (s : State) (p : Pending) : SameHeld s (s.perform p) := by
  refine (lineTaken_held s p).trans ?_
  cases node : p.node with
  | some nd =>
    obtain ⟨early, made⟩ := perform_away s p node
    rw [made]
    exact .caches rfl rfl rfl rfl
  | none =>
    obtain ⟨early, made⟩ := perform_home s p node
    rw [made]
    exact SameHeld.trans (t := { s.lineTaken p with early := early }) (.caches rfl rfl rfl rfl) (homeWrite_storage _ _ _).held

theorem performAll_held (s : State) (test : Pending → Bool) : SameHeld s (s.performAll test) :=
  (SameHeld.foldl perform_held s (s.pend.filter test)).trans (.caches rfl rfl rfl rfl)

theorem agentReadState_held (s : State) (vec : Bool) (key n : Nat) : SameHeld s (s.agentReadState vec key n) := by
  unfold State.agentReadState
  split
  · exact .refl s
  · exact .caches rfl rfl rfl rfl

theorem vectorRead_held (s : State) (space : BitVec 16) (n : Nat) (sp : Spot) : SameHeld s (s.vectorRead space n sp).2 := by
  have own : SameHeld s (s.performOwn true sp.pl space n) := performAll_held ..
  unfold State.vectorRead
  dsimp only
  split
  · exact own
  · exact own
  · exact own.trans (agentReadState_held ..)

theorem vectorReads_held (space : BitVec 16) (n : Nat) (given : List (Nat × List Byte)) (l : List Spot) :
    ∀ s : State, SameHeld s (s.vectorReads space n given l).2.2 := by
  induction l with
  | nil => exact .refl
  | cons sp l ih =>
    intro s
    unfold State.vectorReads
    extract_lets r
    have read : SameHeld s r.2 := by
      unfold r
      split
      · exact .refl s
      · exact vectorRead_held ..
    split
    · exact read
    · exact read.trans (ih r.2)

/-- A hart that has only machine checks more runs as before, and has no more stopped members. -/
theorem SameHeld.awake {s t : State} (held : SameHeld s.awake t) : t.awake = t := by
  obtain ⟨-, ⟨d, m, hart⟩, -, -⟩ := held
  have running : t.h.st = .running := by rw [hart]; rfl
  have idle : t.h.wait = .none := by rw [hart]; rfl
  unfold State.awake
  rw [← running, ← idle]

theorem SameHeld.pc {s t : State} (held : SameHeld s t) : t.h.pc = s.h.pc := by
  obtain ⟨-, ⟨d, m, hart⟩, -, -⟩ := held
  rw [hart]

theorem SameHeld.calm {s t : State} (held : SameHeld s.awake t) (calm : s.calm) : t.calm := by
  obtain ⟨-, ⟨d, m, hart⟩, -, -⟩ := held
  unfold State.calm State.cv
  rw [hart]
  exact calm

/-! The load: its checks, its probe, and what follows. -/

theorem bind_ok {ε α β : Type} {x : Except ε α} {f : α → Except ε β} {b : β} (h : (x >>= f) = .ok b) : ∃ a, x = .ok a ∧ f a = .ok b := by
  cases x with
  | error c => cases h
  | ok a => exact ⟨a, rfl, h⟩

theorem lengthOk_length {s : State} {dsts : List VReg} {vl : Word} {needs : List (VReg × Nat)} (checked : s.lengthOk dsts vl needs = .ok ()) :
    vl.toNat ≤ s.vlmax := by
  unfold State.lengthOk at checked
  split at checked
  · cases checked
  · next within => exact not_lt.1 fun long => within (.inl long)

theorem loadChecks_length {s : State} {vd : VReg} {f : Form} {base : Word} {t : Tag} {vl : Word} {msk : MReg} {act : List Nat}
    (checked : s.memChecks [vd] none f base t true vl msk act = .ok ()) : vl.toNat ≤ s.vlmax := by
  unfold State.memChecks at checked
  dsimp only at checked
  obtain ⟨_, -, checked⟩ := bind_ok checked
  obtain ⟨_, -, checked⟩ := bind_ok checked
  split at checked
  · obtain ⟨_, refused, -⟩ := bind_ok checked
    cases refused
  · obtain ⟨_, -, checked⟩ := bind_ok checked
    rw [if_pos rfl] at checked
    obtain ⟨_, -, checked⟩ := bind_ok checked
    obtain ⟨_, -, checked⟩ := bind_ok checked
    obtain ⟨_, length, -⟩ := bind_ok checked
    exact lengthOk_length length

/-- The index chain of an addressing form (R198). -/
def Form.index (f : Form) (s : State) : Desc := match f with | .indexed v => s.h.chain v | _ => Desc.released

/-- The active elements of a memory instruction with their addresses, as its probe meets them (R187, R198). -/
def State.places (s : State) (f : Form) (base : Word) (t : Tag) (msk : MReg) (n : Nat) : List (Nat × Nat) :=
  (s.activeList msk n).map fun j => (j, s.elemAddr f base t (f.index s) j)

/-- The bits that a load puts at an element of which it has read a value (R198); a nibble is a half of the byte read. -/
def loadedBits (t : Tag) (vals : List (Nat × Nat)) (j : Nat) : Nat :=
  match vals.find? fun p => p.1 == j with | some p => if t = 9 then p.2 / 16 ^ (j % 2) % 16 else p.2 | none => 0

section
variable {s : State} {vd : VReg} {f : Form} {base : Word} {xl : XReg} {msk : MReg} {asr : BitVec 2} {t : Tag} (calm : s.calm)
  (checked : s.memChecks [vd] none f base t true (s.x xl) msk (s.activeList msk (s.x xl).toNat) = .ok ()) (free : s.filling vd = false)
  {spots : List Spot} {s1 : State}
  (probed : s.awake.probe (s.h.space asr) ((tagWidth t + 7) / 8) .read (f == .contig) none (s.places f base t msk (s.x xl).toNat) = .ok (spots, s1))
include calm checked free probed

theorem vectorLoad_probed :
    (s1.ownPackets = [] → (∃ sp ∈ spots, (s1.farCore sp.pl).isSome = true) → s.vectorLoad vd f base xl msk asr t =
      .next (({ s1 with packets := s1.packets ++ s1.gatherPackets t (spots.filter fun sp => (s1.farCore sp.pl).isSome) }).hold (.retry false)))
    ∧ (∀ (s2 : State) (vals : List (Nat × Nat)), t ≠ 0 → (s1.ownPackets = [] → ∀ sp ∈ spots, s1.farCore sp.pl = none) → (∀ p ∈ s1.ownPackets, p.kind = 4) →
      s1.vectorReads (s.h.space asr) ((tagWidth t + 7) / 8) s1.arrived spots = (vals, none, s2) → s2.tidy → s2.roomFor (linksFor t (s.x xl).toNat) →
      completes (s.vectorLoad vd f base xl msk asr t) (FreshResult vd t (s.x xl).toNat (loadedBits t vals) 0 s2.dropPackets)) := by
  have length : (s.x xl).toNat ≤ 8192 := (loadChecks_length checked).trans (vlmax_le s)
  have dest : s.unclaimed [vd] [] := by
    unfold State.unclaimed State.busy?
    simp [free]
  unfold State.vectorLoad
  extract_lets vl n v0 space d keep bytes act
  have hact : act = s.activeList msk (s.x xl).toNat := by
    have from_ : v0 = 0 := calm.vstart
    unfold act
    rw [calm.availM, Nat.min_eq_left length, from_, List.filter_eq_self.2 fun _ _ => decide_eq_true (Nat.zero_le _)]
    rfl
  have hplaces : (act.map fun j => (j, s.awake.elemAddr f base t d j)) = s.places f base t msk (s.x xl).toNat := by
    have index : d = f.index s := by
      unfold d Form.index
      cases f with
      | indexed v => exact calm.src [vd] v
      | _ => rfl
    rw [hact, index]
    refine List.map_congr_left fun j _ => congrArg (Prod.mk j) ?_
    cases f with
    | indexed v =>
      unfold State.elemAddr
      rw [elem_stand (s := s) (t := s.awake) fun _ _ => rfl]
    | _ => rfl
  clear_value act d
  subst hact
  rw [checked]
  unfold State.orTrap
  dsimp only
  rw [whenFree_unclaimed dest]
  rw [hplaces, probed]
  dsimp only
  refine ⟨fun none far => ?_, fun s2 vals live near back reads tidy room => ?_⟩
  · obtain ⟨sp, listed, away⟩ := far
    exact if_pos ⟨List.ne_nil_of_mem (List.mem_filter.2 ⟨listed, away⟩), none⟩
  · have home : ¬ (spots.filter (fun sp => (s1.farCore sp.pl).isSome) ≠ [] ∧ s1.ownPackets = []) := fun ⟨far, own⟩ =>
      far (List.filter_eq_nil_iff.2 fun sp listed => by rw [near own sp listed]; exact Bool.false_ne_true)
    have here : (s1.ownPackets.any fun p => p.kind != 4) = false := List.any_eq_false.2 fun p hp => by simp [back p hp]
    rw [if_neg home, here, if_neg Bool.false_ne_true, reads]
    have held1 : SameHeld s.awake s1 := probe_held _ _ _ _ _ _ _ _ probed
    have held2 : SameHeld s1 s2 := by
      have := vectorReads_held (s.h.space asr) ((tagWidth t + 7) / 8) s1.arrived spots s1
      rwa [reads] at this
    have held : SameHeld s.awake s2.dropPackets := (held1.trans held2).trans (.caches rfl rfl rfl rfl)
    have calm2 : s2.dropPackets.calm := held.calm calm
    dsimp only
    refine produce_sparse_makes (c := _) rfl rfl (fun j skip => ?_) held.awake rfl rfl ?_ rfl rfl rfl (fun j => ?_) (fun j => ?_) tidy.dropPackets calm2 live
      (chainBytes_le_spine t length) room
    · dsimp only at skip ⊢
      split
      · next found => rw [found] at skip; cases skip
      · rfl
    · dsimp only
      rw [calm2.availM, Nat.min_self]
    · unfold loadedBits
      dsimp only
      cases vals.find? fun p => p.1 == j <;> rfl
    · dsimp only
      cases vals.find? fun p => p.1 == j <;> rfl

end

/-! An untranslated load (R85): every address is physical, and the bytes come from home. -/

theorem performAll_quiet {s : State} (quiet : s.pend = []) (test : Pending → Bool) : s.performAll test = s := by
  unfold State.performAll
  rw [quiet]
  dsimp only [List.filter_nil, List.foldl_nil]
  rw [quiet, List.filter_nil, ← quiet]

/-- The place of a physical address in an untranslated space. -/
def barePlace (off : Nat) : Place := ⟨(physKey off).getD 0, false, false, false, none⟩

theorem probe_bare {s : State} (bare : s.h.acc.bare = true) (n : Nat) (kind : Kind) (contig : Bool) (l : List (Nat × Nat))
    (inside : ∀ p ∈ l, (physKey p.2).isSome = true) :
    ∀ first, s.probe 0 n kind contig first l = .ok (l.map fun p => ⟨p.1, p.2, barePlace p.2⟩, s) := by
  induction l with
  | nil => exact fun _ => rfl
  | cons p l ih =>
    intro first
    obtain ⟨k, key⟩ := Option.isSome_iff_exists.1 (inside p (.head _))
    have located : s.locate s.h.acc 0 p.2 n kind false = .ok (barePlace p.2, s) := by
      unfold State.locate State.locateMem barePlace
      rw [if_neg (by decide), if_neg (by decide), if_pos ⟨bare, rfl⟩, key]
      rfl
    unfold State.probe
    rw [if_neg (fun window => absurd window.1 (by decide)), located]
    dsimp only
    rw [ih fun q hq => inside q (.tail _ hq)]
    rfl

section
variable {s : State} (quiet : s.pend = []) (late : ∀ e ∈ s.early, e.hart ≠ s.cur)
include quiet late

/-- An element at home that is sound, of a hart with nothing in flight and nothing read ahead. -/
theorem vectorRead_home {sp : Spot} {n : Nat} (space : BitVec 16) (home : sp.pl.node = none) (sound : s.poisonIn sp.pl.key n = none) :
    s.vectorRead space n sp = (some (s.homeRead sp.pl.key n), s) := by
  have own : s.performOwn true sp.pl space n = s := performAll_quiet quiet _
  have clean : s.poisonTrap sp.pl space sp.off n = none := by
    unfold State.poisonTrap
    rw [home, sound]
    rfl
  have fresh : s.early.find? (fun e => e.hart == s.cur && e.vec == true && e.key == sp.pl.key / 8 * 8) = none :=
    List.find?_eq_none.2 fun e he => by simp [late e he]
  have kept : s.early.filter (fun e => !(e.hart == s.cur && (e.vec == true && e.key == sp.pl.key / 8 * 8))) = s.early :=
    List.filter_eq_self.2 fun e he => by simp [late e he]
  have read : (s.agentRead true sp.pl.key n).1 = s.homeRead sp.pl.key n ∧ (s.agentRead true sp.pl.key n).2.2 = none := by
    unfold State.agentRead
    rw [fresh]
    exact ⟨rfl, rfl⟩
  have left : s.agentReadState true sp.pl.key n = s := by
    unfold State.agentReadState
    rw [read.2]
    unfold State.dropEarly
    rw [kept]
  unfold State.vectorRead
  dsimp only
  rw [own, clean, home]
  dsimp only
  rw [read.1, left]

theorem vectorReads_home {n : Nat} (space : BitVec 16) (l : List Spot) (sound : ∀ sp ∈ l, sp.pl.node = none ∧ s.poisonIn sp.pl.key n = none) :
    s.vectorReads space n [] l = (l.map fun sp => (sp.j, ofBytes (s.homeRead sp.pl.key n)), none, s) := by
  induction l with
  | nil => rfl
  | cons sp l ih =>
    obtain ⟨home, clean⟩ := sound sp (.head _)
    unfold State.vectorReads
    dsimp only [List.find?_nil]
    rw [vectorRead_home quiet late space home clean]
    dsimp only
    rw [ih fun q hq => sound q (.tail _ hq)]
    rfl

end

theorem dropPackets_none {s : State} (none : s.ownPackets = []) : s.dropPackets = s := by
  have kept : s.packets.filter (fun p => !(p.hart == s.cur && p.gathers)) = s.packets :=
    List.filter_eq_self.2 fun p hp => by
      have other := List.filter_eq_nil_iff.1 none p hp
      rw [Bool.eq_false_iff.2 other]
      rfl
  unfold State.dropPackets
  rw [kept]

/-- The bits of an element when a value has been read for each of a list. -/
theorem loadedBits_map (t : Tag) (l : List Nat) (v : Nat → Nat) (j : Nat) :
    loadedBits t (l.map fun i => (i, v i)) j = if j ∈ l then (if t = 9 then v j / 16 ^ (j % 2) % 16 else v j) else 0 := by
  have found : (l.map fun i => (i, v i)).find? (fun p => p.1 == j) = if j ∈ l then some (j, v j) else none := by
    induction l with
    | nil => rfl
    | cons i l ih =>
      rw [List.map_cons]
      by_cases same : i = j
      · rw [List.find?_cons_of_pos (by simpa using same), same, if_pos (.head _)]
      · rw [List.find?_cons_of_neg (by simpa using same), ih]
        simp [List.mem_cons, Ne.symm same]
  unfold loadedBits
  rw [found]
  split_ifs <;> rfl

theorem mem_activeList {s : State} {m : MReg} {n j : Nat} : j ∈ s.activeList m n ↔ j < n ∧ s.maskOn m j = true := by
  unfold State.activeList
  rw [List.mem_filter, List.mem_range]
  rfl

section
variable {s : State} {vd : VReg} {f : Form} {base : Word} {xl : XReg} {msk : MReg} {asr : BitVec 2} {t : Tag} (calm : s.calm)
  (checked : s.memChecks [vd] none f base t true (s.x xl) msk (s.activeList msk (s.x xl).toNat) = .ok ()) (free : s.filling vd = false)
include calm checked free

theorem vectorLoad_untranslated (live : t ≠ 0) (mode : s.h.mode = .s) (bare : s.h.bare = true) (space : s.h.space asr = 0) (quiet : s.pend = [])
    (late : ∀ e ∈ s.early, e.hart ≠ s.cur) (own : s.ownPackets = [])
    (sound : ∀ j ∈ s.activeList msk (s.x xl).toNat, ∃ k, physKey (s.elemAddr f base t (f.index s) j) = some k ∧ s.poisonIn k ((tagWidth t + 7) / 8) = none)
    (tidy : s.tidy) (room : s.roomFor (linksFor t (s.x xl).toNat)) :
    completes (s.vectorLoad vd f base xl msk asr t) (FreshResult vd t (s.x xl).toNat
      (fun j => match physKey (s.elemAddr f base t (f.index s) j) with
        | some k => if s.maskOn msk j then (if t = 9 then ofBytes (s.homeRead k 1) / 16 ^ (j % 2) % 16 else ofBytes (s.homeRead k ((tagWidth t + 7) / 8))) else 0
        | none => 0) 0 s) := by
  have untranslated : s.awake.h.acc.bare = true := by
    show (s.h.mode == .s && s.h.bare) = true
    rw [mode, bare]
    rfl
  have probed := probe_bare untranslated ((tagWidth t + 7) / 8) .read (f == .contig) (s.places f base t msk (s.x xl).toNat) (fun p hp => by
    obtain ⟨j, hj, rfl⟩ := List.mem_map.1 hp
    obtain ⟨k, key, -⟩ := sound j hj
    rw [key]
    rfl) none
  rw [← space] at probed
  obtain ⟨-, loads⟩ := vectorLoad_probed calm checked free probed
  have homes : ∀ sp ∈ (s.places f base t msk (s.x xl).toNat).map (fun p => (⟨p.1, p.2, barePlace p.2⟩ : Spot)),
      sp.pl.node = none ∧ s.awake.poisonIn sp.pl.key ((tagWidth t + 7) / 8) = none := fun sp hsp => by
    obtain ⟨p, hp, rfl⟩ := List.mem_map.1 hsp
    obtain ⟨j, hj, rfl⟩ := List.mem_map.1 hp
    obtain ⟨k, key, clean⟩ := sound j hj
    refine ⟨rfl, ?_⟩
    dsimp only [barePlace]
    rw [key]
    exact clean
  have reads := vectorReads_home (s := s.awake) quiet late (s.h.space asr) _ homes
  have given : s.awake.arrived = [] := by
    unfold State.arrived
    rw [show s.awake.ownPackets = [] from own]
    rfl
  rw [← given] at reads
  obtain ⟨u, next, made⟩ := loads s.awake _ live
    (fun _ sp hsp => by
      obtain ⟨p, -, rfl⟩ := List.mem_map.1 hsp
      exact if_neg (fun window => Bool.noConfusion window.1))
    (fun p hp => by
      rw [show s.awake.ownPackets = [] from own] at hp
      cases hp)
    reads tidy room
  rw [dropPackets_none (s := s.awake) own] at made
  refine ⟨u, next, made.of_awake.congr fun j below => ?_⟩
  have vals : ((s.places f base t msk (s.x xl).toNat).map fun p => (⟨p.1, p.2, barePlace p.2⟩ : Spot)).map
        (fun sp => (sp.j, ofBytes (s.awake.homeRead sp.pl.key ((tagWidth t + 7) / 8))))
      = (s.activeList msk (s.x xl).toNat).map fun i =>
          (i, ofBytes (s.homeRead ((physKey (s.elemAddr f base t (f.index s) i)).getD 0) ((tagWidth t + 7) / 8))) := by
    unfold State.places
    rw [List.map_map, List.map_map]
    refine List.map_congr_left fun i _ => congrArg (fun bs => (i, ofBytes bs)) ?_
    exact homeRead_congr (by rfl) (by rfl) _ _
  rw [vals, loadedBits_map]
  by_cases active : j ∈ s.activeList msk (s.x xl).toNat
  · obtain ⟨k, key, -⟩ := sound j active
    rw [if_pos active, key]
    dsimp only [Option.getD_some]
    rw [if_pos (mem_activeList.1 active).2]
    by_cases nibble : t = 9
    · subst nibble
      rfl
    · rw [if_neg nibble, if_neg nibble]
  · rw [if_neg active]
    have masked : ¬ s.maskOn msk j = true := fun on => active (mem_activeList.2 ⟨below, on⟩)
    cases physKey (s.elemAddr f base t (f.index s) j) with
    | none => rfl
    | some k => exact (if_neg masked).symm

end

end Sys2Proof.Machine

open Sys2Proof Sys2Proof.Machine

/-- Settles O29: the checks and the probe lead to what the probe found (`vectorLoad_probed`): to the requests of a gather, or to the reads and a sparse run of
outputs (`produce_sparse`), which for an untranslated load read the bytes at home (`vectorLoad_untranslated`). -/
theorem vectorLoadsMakeFreshChains : Obligations.VectorLoadsMakeFreshChains := by
  unfold Obligations.VectorLoadsMakeFreshChains
  intro s vd xa xb vi xl msk asr t imm i f base form
  dsimp only
  intro live calm checked claimed
  have load : exec i s = s.vectorLoad vd f base xl msk asr t := by
    obtain ⟨rfl, rfl, rfl⟩ | ⟨rfl, rfl, rfl⟩ | ⟨rfl, rfl, rfl⟩ := form
    · rfl
    · rfl
    · rfl
  have free : s.filling vd = false := claimed.filling (by cases f <;> exact .head _)
  rw [load]
  refine ⟨fun mode bare space quiet late own sound tidy room => ?_, fun s1 spots probed => ?_⟩
  · exact vectorLoad_untranslated calm checked free live mode bare space quiet late own sound tidy room
  · obtain ⟨requests, loads⟩ := vectorLoad_probed calm checked free probed
    refine ⟨fun own far => ?_, fun s2 vals near back reads tidy room => loads s2 vals live near back reads tidy room⟩
    have held : SameHeld s.awake s1 := probe_held _ _ _ _ _ _ _ _ probed
    exact ⟨_, requests own far, rfl, rfl, held.pc⟩

end

section
/-! PROOFS. `round` (R211, R212): the value of a code, in order, and the neighbour of an exact number that rounding delivers. -/

namespace Sys2Proof.Machine

/-! Codes and their values (R203). -/

/-- The integer and the power of two of a magnitude code (R203). -/
def Fmt.mant (f : Fmt) (c : Nat) : Nat := if c / 2 ^ f.frac = 0 then c % 2 ^ f.frac else 2 ^ f.frac + c % 2 ^ f.frac
def Fmt.expo (f : Fmt) (c : Nat) : Int := if c / 2 ^ f.frac = 0 then f.emin - f.frac else f.emin - f.frac + (c / 2 ^ f.frac - 1 : Nat)

/-- The number that a magnitude code stands for. -/
def Fmt.mag (f : Fmt) (c : Nat) : ℚ := f.mant c * 2 ^ f.expo c

/-- The magnitude codes of a format leave its sign bit clear. -/
structure Fmt.Sound (f : Fmt) : Prop where
  pos : 0 < f.w
  big : f.big < 2 ^ (f.w - 1)

theorem fmtOf_sound {t : Tag} {f : Fmt} (h : fmtOf t = some f) : f.Sound := by
  have all : ∀ t : Tag, ∀ f ∈ fmtOf t, 0 < f.w ∧ f.big < 2 ^ (f.w - 1) := by decide
  obtain ⟨pos, big⟩ := all t f h
  exact ⟨pos, big⟩

/-- A code of a finite magnitude with a sign bit is that magnitude with that sign. -/
theorem Fmt.Sound.decode {f : Fmt} (sound : f.Sound) {c : Nat} (finite : c ≤ f.big) (neg : Bool) :
    f.decode (c + f.signBit neg) = .fin neg (f.mant c) (f.expo c) := by
  have below : c < 2 ^ (f.w - 1) := finite.trans_lt sound.big
  have sign : ((c + f.signBit neg) / 2 ^ (f.w - 1) % 2 == 1) = neg := by
    cases neg with
    | false => simp [signBit, Nat.div_eq_of_lt below]
    | true => simp [signBit, Nat.add_div_right, Nat.div_eq_of_lt below]
  have magnitude : (c + f.signBit neg) % 2 ^ (f.w - 1) = c := by
    cases neg with
    | false => simp [signBit, Nat.mod_eq_of_lt below]
    | true => simp [signBit, Nat.mod_eq_of_lt below]
  unfold Fmt.decode
  dsimp only
  rw [sign, magnitude, if_neg (not_lt.2 finite)]
  unfold mant expo
  split <;> rfl

theorem Fmt.Sound.decode_nonneg {f : Fmt} (sound : f.Sound) {c : Nat} (finite : c ≤ f.big) : f.decode c = .fin false (f.mant c) (f.expo c) :=
  sound.decode finite false

theorem Fmt.Sound.val_big {f : Fmt} (sound : f.Sound) : (f.decode f.big).val = f.mag f.big := by
  rw [sound.decode_nonneg le_rfl]
  simp [Num.val, Fmt.mag]

/-- A code as an exponent field and the k units of its spacing; k may be the first value of the next binade. -/
theorem Fmt.mag_units (f : Fmt) {E k : Nat} (top : k ≤ 2 ^ (f.frac + 1)) (normal : E = 0 ∨ 2 ^ f.frac ≤ k) :
    f.mag (E * 2 ^ f.frac + k) = k * 2 ^ (f.emin - f.frac + E) := by
  have unit : 0 < 2 ^ f.frac := Nat.two_pow_pos _
  rw [pow_succ] at top
  unfold mag mant expo
  by_cases small : k < 2 ^ f.frac
  · obtain rfl : E = 0 := by omega
    rw [Nat.zero_mul, Nat.zero_add, Nat.div_eq_of_lt small, Nat.mod_eq_of_lt small]
    simp
  · obtain ⟨j, rfl⟩ := Nat.exists_eq_add_of_le (not_lt.1 small)
    by_cases within : j < 2 ^ f.frac
    · have code : E * 2 ^ f.frac + (2 ^ f.frac + j) = j + (E + 1) * 2 ^ f.frac := by ring
      rw [code, Nat.add_mul_div_right _ _ unit, Nat.div_eq_of_lt within, Nat.add_mul_mod_self_right, Nat.mod_eq_of_lt within]
      simp
    · obtain rfl : j = 2 ^ f.frac := by omega
      have code : E * 2 ^ f.frac + (2 ^ f.frac + 2 ^ f.frac) = (E + 2) * 2 ^ f.frac := by ring
      rw [code, Nat.mul_div_cancel _ unit, Nat.mul_mod_left, if_neg (by omega), if_neg (by omega)]
      push_cast
      rw [← add_assoc, zpow_add_one₀ two_ne_zero]
      ring

/-- Every code is one of a binade, with room for the next code. -/
theorem Fmt.code_units (f : Fmt) (c : Nat) : ∃ E k, c = E * 2 ^ f.frac + k ∧ k < 2 ^ (f.frac + 1) ∧ (E = 0 ∨ 2 ^ f.frac ≤ k) := by
  have rest := Nat.mod_lt c (Nat.two_pow_pos f.frac)
  have split := Nat.div_add_mod' c (2 ^ f.frac)
  cases field : c / 2 ^ f.frac with
  | zero =>
    rw [field] at split
    exact ⟨0, c, by omega, by omega, .inl rfl⟩
  | succ E =>
    rw [field, Nat.succ_mul] at split
    exact ⟨E, 2 ^ f.frac + c % 2 ^ f.frac, by omega, by omega, .inr (Nat.le_add_right ..)⟩

/-- The next code stands one unit of its binade higher. -/
theorem Fmt.mag_succ (f : Fmt) (c : Nat) : f.mag c < f.mag (c + 1) := by
  obtain ⟨E, k, rfl, top, normal⟩ := f.code_units c
  rw [Nat.add_assoc, f.mag_units top.le normal, f.mag_units top (normal.imp_right (·.trans (Nat.le_succ k)))]
  exact mul_lt_mul_of_pos_right (by push_cast; linarith) (by positivity)

theorem Fmt.mag_strictMono (f : Fmt) : StrictMono f.mag := strictMono_nat_of_lt_succ f.mag_succ

@[simp] theorem Fmt.mag_zero (f : Fmt) : f.mag 0 = 0 := by simp [mag, mant]

theorem Fmt.mag_nonneg (f : Fmt) (c : Nat) : 0 ≤ f.mag c := by unfold mag; positivity

/-! The exact number between two neighbours. -/

/-- The spacing of a format at a number x > 0 (R211). -/
def Fmt.spacing (f : Fmt) (x : ℚ) : ℚ := 2 ^ (max (Int.log 2 x) f.emin - f.frac)

theorem Fmt.spacing_pos (f : Fmt) (x : ℚ) : 0 < f.spacing x := by unfold spacing; positivity

/-- The binary exponent of a number that m units of 2^e hold. -/
theorem log_of_units {m : Nat} {e : Int} {x : ℚ} (pos : 0 < m) (low : m * 2 ^ e ≤ x) (high : x < (m + 1) * 2 ^ e) : Int.log 2 x = Nat.log2 m + e := by
  have two : (0 : ℚ) < 2 ^ e := by positivity
  have floor : (2 : ℚ) ^ Nat.log2 m ≤ m := by exact_mod_cast Nat.log2_self_le pos.ne'
  have ceiling : (m : ℚ) + 1 ≤ 2 ^ (Nat.log2 m + 1) := by exact_mod_cast Nat.lt_log2_self
  have hx : 0 < x := lt_of_lt_of_le (by positivity) low
  refine le_antisymm (Int.lt_add_one_iff.1 ?_) ?_
  · refine (Int.lt_zpow_iff_log_lt one_lt_two hx).1 (high.trans_le ?_)
    calc (m + 1 : ℚ) * 2 ^ e ≤ 2 ^ (Nat.log2 m + 1) * 2 ^ e := mul_le_mul_of_nonneg_right ceiling two.le
      _ = ((2 : Nat) : ℚ) ^ ((Nat.log2 m : Int) + e + 1) := by
        rw [Nat.cast_ofNat, ← zpow_natCast, ← zpow_add₀ two_ne_zero]
        congr 1
        push_cast
        ring
  · refine (Int.zpow_le_iff_le_log one_lt_two hx).1 (le_trans ?_ low)
    calc ((2 : Nat) : ℚ) ^ ((Nat.log2 m : Int) + e) = 2 ^ Nat.log2 m * 2 ^ e := by
          rw [Nat.cast_ofNat, zpow_add₀ two_ne_zero, zpow_natCast]
      _ ≤ m * 2 ^ e := mul_le_mul_of_nonneg_right floor two.le

/-- The units of the spacing below a number and the part of the next one. -/
structure Split (q x : ℚ) (k : Nat) (part : ℚ) : Prop where
  eq : x = (k + part) * q
  nonneg : 0 ≤ part
  lt : part < 1

theorem Split.floor {q x part : ℚ} {k : Nat} (s : Split q x k part) (hq : 0 < q) : ⌊x / q⌋ = k := by
  have := s.nonneg
  have := s.lt
  rw [s.eq, mul_div_cancel_right₀ _ hq.ne', Int.floor_eq_iff]
  constructor <;> push_cast <;> linarith

theorem Split.part_eq {q x part : ℚ} {k : Nat} (s : Split q x k part) (hq : 0 < q) : x / q - (⌊x / q⌋ : Int) = part := by
  rw [s.floor hq, s.eq, mul_div_cancel_right₀ _ hq.ne']
  push_cast
  ring

/-- The units and the part of a number of which m units of a finer spacing, and a part t of the next one, are known. -/
theorem split_of_shift {m sh : Nat} {e : Int} {t x : ℚ} (eq : x = (m + t) * 2 ^ e) (nonneg : 0 ≤ t) (lt : t < 1) :
    Split (2 ^ (sh + e)) x (m / 2 ^ sh) ((((m % 2 ^ sh : Nat) : ℚ) + t) / 2 ^ sh) := by
  have unit : (0 : ℚ) < 2 ^ sh := by positivity
  have whole : (m : ℚ) = (m / 2 ^ sh : Nat) * 2 ^ sh + (m % 2 ^ sh : Nat) := by exact_mod_cast (Nat.div_add_mod' m (2 ^ sh)).symm
  have rest : ((m % 2 ^ sh : Nat) : ℚ) + 1 ≤ 2 ^ sh := by exact_mod_cast Nat.mod_lt m (Nat.two_pow_pos sh)
  refine ⟨?_, by positivity, ?_⟩
  · rw [eq, zpow_add₀ two_ne_zero, zpow_natCast]
    field_simp
    rw [← add_assoc, ← whole]
  · rw [div_lt_one unit]
    linarith

/-! A natural number and a part of one against another natural number. -/

theorem lt_add_part {a b : Nat} {t : ℚ} (nonneg : 0 ≤ t) (lt : t < 1) : (a : ℚ) < b + t ↔ a < b ∨ b = a ∧ 0 < t := by
  constructor
  · intro h
    have : a < b + 1 := by
      have : (a : ℚ) < ((b + 1 : Nat) : ℚ) := by push_cast; linarith
      exact_mod_cast this
    obtain less | rfl := Nat.lt_or_eq_of_le (Nat.lt_succ_iff.1 this)
    · exact .inl less
    · exact .inr ⟨rfl, by linarith⟩
  · rintro (less | ⟨rfl, pos⟩)
    · have : (a : ℚ) < b := by exact_mod_cast less
      linarith
    · linarith

theorem add_part_eq {a b : Nat} {t : ℚ} (nonneg : 0 ≤ t) (lt : t < 1) : (b : ℚ) + t = a ↔ b = a ∧ t = 0 := by
  constructor
  · intro h
    have low : b ≤ a := by exact_mod_cast (by linarith : (b : ℚ) ≤ a)
    have high : a < b + 1 := by exact_mod_cast (by push_cast; linarith : (a : ℚ) < ((b + 1 : Nat) : ℚ))
    obtain rfl : b = a := by omega
    exact ⟨rfl, by linarith⟩
  · rintro ⟨rfl, rfl⟩
    rw [add_zero]

theorem le_add_part {a b : Nat} {t : ℚ} (nonneg : 0 ≤ t) (lt : t < 1) : (a : ℚ) ≤ b + t ↔ a ≤ b := by
  rw [← not_lt, ← not_lt, not_iff_not]
  constructor
  · intro h
    exact_mod_cast (by linarith : (b : ℚ) < a)
  · intro h
    have : (b : ℚ) + 1 ≤ a := by exact_mod_cast h
    linarith

/-- The test of `round` and of `roundInt` is R211's choice. -/
theorem takesUpper_iff (rm : BitVec 3) (neg : Bool) {lo : Nat} {part : ℚ} {inexact past least : Prop} [Decidable inexact] [Decidable past] [Decidable least]
    (some : inexact ↔ 0 < part) (more : inexact → (past ↔ 1 / 2 < part ∨ part = 1 / 2 ∧ (lo : Int) % 2 = 1)) (atLeast : inexact → (least ↔ 1 / 2 ≤ part)) :
    (decide inexact && (if rm = rmRNE then decide past else if rm = rmRNA then decide least else if rm = rmRDN then neg else if rm = rmRUP then !neg
      else if rm = rmROD then !decide (lo % 2 = 1) else false)) = true ↔ takesUpper rm neg lo part := by
  unfold takesUpper
  rw [Bool.and_eq_true, decide_eq_true_iff, some]
  refine and_congr_right fun pos => ?_
  rw [← more (some.2 pos), ← atLeast (some.2 pos)]
  have odd : (!decide (lo % 2 = 1)) = true ↔ (lo : Int) % 2 = 0 := by
    rw [Bool.not_eq_true', decide_eq_false_iff_not]
    omega
  split_ifs with ne na dn up od
  · simp [ne, rmRNE, rmRNA, rmRDN, rmRUP, rmROD]
  · simp [na, rmRNE, rmRNA, rmRDN, rmRUP, rmROD]
  · simp [dn, rmRNE, rmRNA, rmRDN, rmRUP, rmROD]
  · simp [up, rmRNE, rmRNA, rmRDN, rmRUP, rmROD]
  · rw [odd]
    simp [od, rmRNE, rmRNA, rmRDN, rmRUP, rmROD]
  · simp only [ne, na, dn, up, od, false_and, or_self]

/-- What R211 delivers of a number with the units k of its spacing that the mode takes: a code, or the overflow result. -/
def Fmt.settled (f : Fmt) (rm : BitVec 3) (sat neg : Bool) (x : ℚ) (k : Nat) (flags : Flags) : Nat × Flags :=
  let code := (max (Int.log 2 x) f.emin - f.emin).toNat * 2 ^ f.frac + k
  if f.big < code then f.overflow rm sat neg else (code + f.signBit neg, flags)

/-- The flags of a number in R211. -/
def Fmt.inexactFlags (f : Fmt) (x part : ℚ) : Flags := if part = 0 then 0 else if x < 2 ^ f.emin then fNX ||| fUF else fNX

/-! The parts of `round`. -/

/-- By how many places `round` shifts m units of 2^e to the format's spacing. -/
def Fmt.shift (f : Fmt) (m : Nat) (e : Int) : Int := max (Nat.log2 m + e) f.emin - f.frac - e
/-- The units of the spacing, what is left of them, and half a unit. -/
def shiftedUnits (m : Nat) (sh : Int) : Nat := if 0 ≤ sh then m / 2 ^ sh.toNat else m * 2 ^ (-sh).toNat
def shiftedRest (m : Nat) (sh : Int) : Nat := if 0 < sh then m % 2 ^ sh.toNat else 0
def shiftedHalf (sh : Int) : Nat := if 0 < sh then 2 ^ (sh.toNat - 1) else 1

/-- Whether `round` takes the upper neighbour; its magnitude code, before overflow; its flags. -/
def Fmt.roundsUp (f : Fmt) (rm : BitVec 3) (neg : Bool) (m : Nat) (e : Int) (sticky : Bool) : Bool :=
  decide (shiftedRest m (f.shift m e) ≠ 0 ∨ sticky = true) && (
    if rm = rmRNE then decide (shiftedHalf (f.shift m e) < shiftedRest m (f.shift m e)
      ∨ shiftedRest m (f.shift m e) = shiftedHalf (f.shift m e) ∧ (sticky = true ∨ shiftedUnits m (f.shift m e) % 2 = 1))
    else if rm = rmRNA then decide (shiftedHalf (f.shift m e) ≤ shiftedRest m (f.shift m e)) else if rm = rmRDN then neg else if rm = rmRUP then !neg
    else if rm = rmROD then !decide (shiftedUnits m (f.shift m e) % 2 = 1) else false)
def Fmt.roundCode (f : Fmt) (rm : BitVec 3) (neg : Bool) (m : Nat) (e : Int) (sticky : Bool) : Nat :=
  (max (Nat.log2 m + e) f.emin - f.emin).toNat * 2 ^ f.frac
    + if f.roundsUp rm neg m e sticky then shiftedUnits m (f.shift m e) + 1 else shiftedUnits m (f.shift m e)
def Fmt.roundFlags (f : Fmt) (m : Nat) (e : Int) (sticky : Bool) : Flags :=
  (if shiftedRest m (f.shift m e) ≠ 0 ∨ sticky = true then fNX else 0)
    ||| (if (shiftedRest m (f.shift m e) ≠ 0 ∨ sticky = true) ∧ Nat.log2 m + e < f.emin then fUF else 0)

theorem Fmt.round_eq (f : Fmt) (rm : BitVec 3) (sat neg : Bool) {m : Nat} (e : Int) {sticky : Bool} (some : ¬ (m = 0 ∧ (!sticky) = true)) :
    f.round rm sat neg m e sticky = if f.big < f.roundCode rm neg m e sticky then f.overflow rm sat neg
      else (f.roundCode rm neg m e sticky + f.signBit neg, f.roundFlags m e sticky) :=
  if_neg some

/-- Places to the right: the rest and a part of the next finer unit, against half a unit. -/
theorem shifted_right {m s : Nat} {e : Int} {t x : ℚ} {sticky : Bool} (eq : x = (m + t) * 2 ^ e) (nonneg : 0 ≤ t) (lt : t < 1) (more : sticky = true ↔ 0 < t) :
    ∃ part, Split (2 ^ ((s + 1 : Nat) + e)) x (m / 2 ^ (s + 1)) part ∧ (m % 2 ^ (s + 1) ≠ 0 ∨ sticky = true ↔ 0 < part)
      ∧ (2 ^ s < m % 2 ^ (s + 1) ∨ m % 2 ^ (s + 1) = 2 ^ s ∧ (sticky = true ∨ m / 2 ^ (s + 1) % 2 = 1)
          ↔ 1 / 2 < part ∨ part = 1 / 2 ∧ ((m / 2 ^ (s + 1) : Nat) : Int) % 2 = 1)
      ∧ (2 ^ s ≤ m % 2 ^ (s + 1) ↔ 1 / 2 ≤ part) := by
  have split := split_of_shift (sh := s + 1) eq nonneg lt
  generalize m / 2 ^ (s + 1) = lo at split
  generalize m % 2 ^ (s + 1) = rem at split ⊢
  have two : (0 : ℚ) < 2 ^ (s + 1) := by positivity
  have half : 1 / 2 * (2 : ℚ) ^ (s + 1) = (2 ^ s : Nat) := by
    push_cast
    ring
  refine ⟨_, split, ?_, ?_, ?_⟩
  · have zero : 0 < (rem : ℚ) + t ↔ 0 < rem ∨ rem = 0 ∧ 0 < t := by exact_mod_cast lt_add_part (a := 0) (b := rem) nonneg lt
    rw [lt_div_iff₀ two, zero_mul, more, zero, Nat.pos_iff_ne_zero]
    tauto
  · have beyond : 1 / 2 < ((rem : ℚ) + t) / 2 ^ (s + 1) ↔ 2 ^ s < rem ∨ rem = 2 ^ s ∧ 0 < t := by
      rw [lt_div_iff₀ two, half]
      exact lt_add_part nonneg lt
    have tie : ((rem : ℚ) + t) / 2 ^ (s + 1) = 1 / 2 ↔ rem = 2 ^ s ∧ t = 0 := by
      rw [div_eq_iff two.ne', half]
      exact add_part_eq nonneg lt
    have last : lo % 2 = 1 ↔ (lo : Int) % 2 = 1 := by omega
    rw [beyond, tie, more, last, or_assoc, and_assoc, ← and_or_left]
    refine or_congr_right (and_congr_right fun _ => ⟨fun h => ?_, fun h => h.imp_right And.right⟩)
    exact nonneg.lt_or_eq.imp_right fun none => ⟨none.symm, h.resolve_left fun pos => pos.ne none⟩
  · rw [le_div_iff₀ two, half]
    exact (le_add_part nonneg lt).symm

/-- An integer m, a power of two and a mark stand for a number: m units of it, and more of the next unit exactly when marked. -/
structure Marks (m : Nat) (e : Int) (sticky : Bool) (x : ℚ) : Prop where
  pos : 0 < m
  low : m * 2 ^ e ≤ x
  high : x < (m + 1) * 2 ^ e
  more : sticky = true ↔ (m : ℚ) * 2 ^ e < x

theorem Marks.exact {m : Nat} (pos : 0 < m) (e : Int) : Marks m e false (m * 2 ^ e) :=
  ⟨pos, le_rfl, mul_lt_mul_of_pos_right (lt_add_one _) (by positivity), by simp⟩

/-- A marked number between two units of 2^e. -/
theorem Marks.inexact {m : Nat} (pos : 0 < m) {e : Int} {x : ℚ} (low : m * 2 ^ e < x) (high : x < (m + 1) * 2 ^ e) : Marks m e true x :=
  ⟨pos, low.le, high, by simp [low]⟩

section
variable {f : Fmt} {m : Nat} {e : Int} {sticky : Bool} {x : ℚ} (marks : Marks m e sticky x) (rm : BitVec 3) (sat neg : Bool)
  (fine : sticky = true → f.frac < Nat.log2 m ∨ e < f.emin - f.frac)
include marks

theorem Marks.log : Int.log 2 x = Nat.log2 m + e := log_of_units marks.pos marks.low marks.high

theorem Marks.x_pos : 0 < x := by
  have := marks.pos
  exact lt_of_lt_of_le (by positivity) marks.low

theorem Marks.tiny_iff : Nat.log2 m + e < f.emin ↔ x < 2 ^ f.emin := by
  rw [← marks.log]
  exact_mod_cast (Int.lt_zpow_iff_log_lt one_lt_two marks.x_pos).symm

/-- The flags of `round` are R211's. -/
theorem Marks.flags {inexact : Prop} [Decidable inexact] {part : ℚ} (some : inexact ↔ 0 < part) (nonneg : 0 ≤ part) :
    ((if inexact then fNX else 0) ||| (if inexact ∧ Nat.log2 m + e < f.emin then fUF else 0)) = f.inexactFlags x part := by
  unfold Fmt.inexactFlags
  by_cases zero : part = 0
  · have exact : ¬ inexact := fun h => (some.1 h).ne' zero
    rw [if_neg exact, if_neg (fun h => exact h.1), if_pos zero]
    rfl
  · have marked : inexact := some.2 (lt_of_le_of_ne nonneg (Ne.symm zero))
    have tiny := marks.tiny_iff (f := f)
    rw [if_pos marked, if_neg zero]
    by_cases small : Nat.log2 m + e < f.emin
    · rw [if_pos ⟨marked, small⟩, if_pos (tiny.1 small)]
    · rw [if_neg (fun h => small h.2), if_neg (fun h => small (tiny.2 h))]
      rfl

theorem Marks.part : ∃ t : ℚ, x = (m + t) * 2 ^ e ∧ 0 ≤ t ∧ t < 1 ∧ (sticky = true ↔ 0 < t) := by
  have unit : (0 : ℚ) < 2 ^ e := by positivity
  obtain ⟨t, rfl⟩ : ∃ t : ℚ, x = (m + t) * 2 ^ e := ⟨x / 2 ^ e - m, by field_simp; ring⟩
  have low := (mul_le_mul_iff_of_pos_right unit).1 marks.low
  have high := (mul_lt_mul_iff_of_pos_right unit).1 marks.high
  refine ⟨t, rfl, by linarith, by linarith, ?_⟩
  rw [marks.more, mul_lt_mul_iff_of_pos_right unit]
  constructor <;> intro <;> linarith

include fine

/-- The units of the spacing, the part of the next one, and what the tests of `round` say of it. -/
theorem Marks.split : ∃ part, Split (f.spacing x) x (shiftedUnits m (f.shift m e)) part ∧ (shiftedRest m (f.shift m e) ≠ 0 ∨ sticky = true ↔ 0 < part)
    ∧ (shiftedRest m (f.shift m e) ≠ 0 ∨ sticky = true →
        (shiftedHalf (f.shift m e) < shiftedRest m (f.shift m e)
            ∨ shiftedRest m (f.shift m e) = shiftedHalf (f.shift m e) ∧ (sticky = true ∨ shiftedUnits m (f.shift m e) % 2 = 1)
          ↔ 1 / 2 < part ∨ part = 1 / 2 ∧ (shiftedUnits m (f.shift m e) : Int) % 2 = 1))
    ∧ (shiftedRest m (f.shift m e) ≠ 0 ∨ sticky = true → (shiftedHalf (f.shift m e) ≤ shiftedRest m (f.shift m e) ↔ 1 / 2 ≤ part)) := by
  obtain ⟨t, eq, nonneg, lt, more⟩ := marks.part
  have spaced : f.spacing x = 2 ^ (f.shift m e + e) := by
    unfold Fmt.spacing Fmt.shift
    rw [marks.log, sub_add_cancel]
  have side : sticky = true → 0 < f.shift m e := by
    intro h
    have := fine h
    unfold Fmt.shift
    omega
  rw [spaced]
  generalize f.shift m e = sh at side ⊢
  obtain sharp | blunt := lt_or_ge 0 sh
  · obtain ⟨s, rfl⟩ : ∃ s : Nat, sh = (s + 1 : Nat) := ⟨(sh - 1).toNat, by omega⟩
    have units : shiftedUnits m ((s + 1 : Nat) : Int) = m / 2 ^ (s + 1) := if_pos (Int.natCast_nonneg _)
    have rest : shiftedRest m ((s + 1 : Nat) : Int) = m % 2 ^ (s + 1) := if_pos sharp
    have half : shiftedHalf ((s + 1 : Nat) : Int) = 2 ^ s := if_pos sharp
    rw [units, rest, half]
    obtain ⟨part, split, some, past, least⟩ := shifted_right (s := s) eq nonneg lt more
    exact ⟨part, split, some, fun _ => past, fun _ => least⟩
  · have unmarked : ¬ sticky = true := fun h => absurd (side h) (not_lt.2 blunt)
    have rest : shiftedRest m sh = 0 := if_neg (not_lt.2 blunt)
    have exact : ¬ (shiftedRest m sh ≠ 0 ∨ sticky = true) := by simp [rest, unmarked]
    refine ⟨0, ⟨?_, le_rfl, one_pos⟩, by simp [exact], fun h => absurd h exact, fun h => absurd h exact⟩
    have units : shiftedUnits m sh = m * 2 ^ (-sh).toNat := by
      unfold shiftedUnits
      split_ifs with zero
      · obtain rfl : sh = 0 := le_antisymm blunt zero
        simp
      · rfl
    have none : t = 0 := le_antisymm (not_lt.1 fun h => unmarked (more.2 h)) nonneg
    rw [eq, none, units]
    push_cast
    rw [add_zero, add_zero, mul_assoc, ← zpow_natCast, ← zpow_add₀ two_ne_zero]
    congr 2
    omega

/-- `round` takes R211's neighbour. -/
theorem Marks.round_settled : ∃ lo part k, Split (f.spacing x) x lo part ∧ (takesUpper rm neg lo part ∧ k = lo + 1 ∨ ¬ takesUpper rm neg lo part ∧ k = lo)
    ∧ f.round rm sat neg m e sticky = f.settled rm sat neg x k (f.inexactFlags x part) := by
  obtain ⟨part, split, some, more, least⟩ := marks.split fine
  have taken := takesUpper_iff rm neg some more least
  have value := f.round_eq rm sat neg e (sticky := sticky) fun zero => marks.pos.ne' zero.1
  unfold Fmt.roundCode Fmt.roundFlags Fmt.roundsUp at value
  rw [marks.flags some split.nonneg, ← marks.log] at value
  by_cases h : takesUpper rm neg (shiftedUnits m (f.shift m e)) part
  · rw [if_pos (taken.2 h)] at value
    exact ⟨_, part, _, split, .inl ⟨h, rfl⟩, value⟩
  · rw [if_neg fun up => h (taken.1 up)] at value
    exact ⟨_, part, _, split, .inr ⟨h, rfl⟩, value⟩

end

/-! What R211 delivers. -/

/-- The units of the spacing below a number: fewer than two binades of them, and a binade of them above the subnormal numbers. -/
theorem Split.units {f : Fmt} {x part : ℚ} {lo : Nat} (split : Split (f.spacing x) x lo part) (pos : 0 < x) :
    lo < 2 ^ (f.frac + 1) ∧ (max (Int.log 2 x) f.emin = f.emin ∨ 2 ^ f.frac ≤ lo) := by
  have unit := f.spacing_pos x
  have nonneg := split.nonneg
  have lt := split.lt
  have scaled (j : Nat) : f.spacing x * 2 ^ j = 2 ^ (max (Int.log 2 x) f.emin - f.frac + j) := by
    unfold Fmt.spacing
    rw [← zpow_natCast, ← zpow_add₀ two_ne_zero]
  constructor
  · have bound : x < f.spacing x * 2 ^ (f.frac + 1) := by
      refine (Int.lt_zpow_succ_log_self one_lt_two x).trans_le ?_
      rw [scaled]
      push_cast
      exact zpow_le_zpow_right₀ one_le_two (by omega)
    have below : (lo : ℚ) < 2 ^ (f.frac + 1) := by
      refine lt_of_mul_lt_mul_right ?_ unit.le
      calc lo * f.spacing x ≤ (lo + part) * f.spacing x := mul_le_mul_of_nonneg_right (by linarith) unit.le
        _ = x := split.eq.symm
        _ < 2 ^ (f.frac + 1) * f.spacing x := by rw [mul_comm]; exact bound
    exact_mod_cast below
  · obtain small | normal := le_total (Int.log 2 x) f.emin
    · exact .inl (max_eq_right small)
    · refine .inr (Nat.lt_succ_iff.1 ?_)
      have bound : f.spacing x * 2 ^ f.frac ≤ x := by
        rw [scaled, max_eq_left normal, sub_add_cancel]
        exact Int.zpow_log_le_self one_lt_two pos
      have above : (2 : ℚ) ^ f.frac < lo + 1 := by
        refine lt_of_mul_lt_mul_right ?_ unit.le
        calc 2 ^ f.frac * f.spacing x ≤ x := by rw [mul_comm]; exact bound
          _ = (lo + part) * f.spacing x := split.eq
          _ < (lo + 1) * f.spacing x := mul_lt_mul_of_pos_right (by linarith) unit
      exact_mod_cast above

/-- The code that `settled` makes stands for its units of the spacing. -/
theorem Fmt.mag_settled (f : Fmt) (x : ℚ) {k : Nat} (top : k ≤ 2 ^ (f.frac + 1)) (normal : max (Int.log 2 x) f.emin = f.emin ∨ 2 ^ f.frac ≤ k) :
    f.mag ((max (Int.log 2 x) f.emin - f.emin).toNat * 2 ^ f.frac + k) = k * f.spacing x := by
  rw [f.mag_units top (normal.imp_left fun h => by rw [h, sub_self]; rfl)]
  unfold Fmt.spacing
  congr 2
  omega

/-- What stands in `settled` as R211's neighbour is rounded as R211 and R212 have it. -/
theorem Fmt.Sound.roundsTo_settled {f : Fmt} (sound : f.Sound) (rm : BitVec 3) (sat neg : Bool) {x part : ℚ} {lo k : Nat} (pos : 0 < x)
    (split : Split (f.spacing x) x lo part) (taken : takesUpper rm neg lo part ∧ k = lo + 1 ∨ ¬ takesUpper rm neg lo part ∧ k = lo) :
    RoundsTo f rm neg x (f.settled rm sat neg x k (f.inexactFlags x part)) sat := by
  obtain ⟨few, normal⟩ := split.units pos
  have near : k = lo + 1 ∨ k = lo := taken.imp And.right And.right
  have value := f.mag_settled x (k := k) (by omega) (normal.imp_right fun h => by omega)
  have unit := f.spacing_pos x
  refine ⟨⟨k * f.spacing x, ?_⟩⟩
  have floor : ⌊x / (2 : ℚ) ^ (max (Int.log 2 x) f.emin - f.frac)⌋ = (lo : Int) := split.floor unit
  have rest : x / (2 : ℚ) ^ (max (Int.log 2 x) f.emin - f.frac) - ((lo : Int) : ℚ) = part := by rw [← floor]; exact split.part_eq unit
  dsimp only
  rw [floor, rest, sound.val_big, ← value]
  unfold Fmt.settled
  dsimp only
  refine ⟨?_, fun fits => ?_, fun over_ => ?_⟩
  · rw [value]
    refine taken.imp (fun h => ⟨h.1, ?_⟩) fun h => ⟨h.1, ?_⟩
    · rw [h.2]
      push_cast
      rfl
    · rw [h.2]
      rfl
  · have code := f.mag_strictMono.le_iff_le.1 fits
    rw [if_neg (not_lt.2 code)]
    exact ⟨⟨_, _, sound.decode code neg, rfl⟩, rfl⟩
  · rw [if_pos (f.mag_strictMono.lt_iff_lt.1 over_)]
    unfold Fmt.overflow
    refine Prod.ext ?_ rfl
    cases sat with
    | true => simp
    | false => simp [or_assoc]

/-- `round` of a marked number rounds it (R211, R212). -/
theorem Marks.roundsTo {f : Fmt} (sound : f.Sound) {m : Nat} {e : Int} {sticky : Bool} {x : ℚ} (marks : Marks m e sticky x) (rm : BitVec 3) (sat neg : Bool)
    (fine : sticky = true → f.frac < Nat.log2 m ∨ e < f.emin - f.frac) : RoundsTo f rm neg x (f.round rm sat neg m e sticky) sat := by
  obtain ⟨lo, part, k, split, taken, value⟩ := marks.round_settled rm sat neg fine
  rw [value]
  exact sound.roundsTo_settled rm sat neg marks.x_pos split taken

/-- `round` of an exact number that is not 0 rounds it. -/
theorem Fmt.Sound.round_exact {f : Fmt} (sound : f.Sound) (rm : BitVec 3) (sat neg : Bool) {m : Nat} (pos : 0 < m) (e : Int) :
    RoundsTo f rm neg (m * 2 ^ e) (f.round rm sat neg m e false) sat :=
  (Marks.exact pos e).roundsTo sound rm sat neg nofun

theorem Fmt.round_zero (f : Fmt) (rm : BitVec 3) (sat neg : Bool) (e : Int) : f.round rm sat neg 0 e false = (f.signBit neg, 0) := rfl

/-- A number that the format holds is delivered as it is, without a flag. -/
theorem RoundsTo.of_multiple {f : Fmt} {rm : BitVec 3} {neg sat : Bool} {x : ℚ} {r : Nat × Flags} (h : RoundsTo f rm neg x r sat) {k : Nat}
    (multiple : x = k * f.spacing x) (fits : x ≤ (f.decode f.big).val) : (∃ m e, f.decode r.1 = .fin neg m e ∧ m * 2 ^ e = x) ∧ r.2 = 0 := by
  obtain ⟨⟨y, taken, finite, -⟩⟩ := h
  have unit := f.spacing_pos x
  have split : Split (f.spacing x) x k 0 := ⟨by rw [add_zero]; exact multiple, le_rfl, one_pos⟩
  have floor : ⌊x / (2 : ℚ) ^ (max (Int.log 2 x) f.emin - f.frac)⌋ = (k : Int) := split.floor unit
  have rest : x / (2 : ℚ) ^ (max (Int.log 2 x) f.emin - f.frac) - ((k : Int) : ℚ) = 0 := by rw [← floor]; exact split.part_eq unit
  rw [floor, rest] at taken finite
  have same : y = x := by
    obtain ⟨up, -⟩ | ⟨-, eq⟩ := taken
    · exact absurd up.1 (lt_irrefl _)
    · rw [eq]
      exact multiple.symm
  subst same
  obtain ⟨value, flags⟩ := finite fits
  exact ⟨value, by rw [flags, if_pos rfl]⟩

/-- The sign of a delivered number stands in its value. -/
theorem Num.val_fin (neg : Bool) (m : Nat) (e : Int) : (Num.fin neg m e).val = (if neg then -1 else 1) * (m * 2 ^ e) := mul_assoc ..

theorem Num.abs_val_fin (neg : Bool) (m : Nat) (e : Int) : |(Num.fin neg m e).val| = m * 2 ^ e := by
  have nonneg : (0 : ℚ) ≤ m * 2 ^ e := by positivity
  rw [Num.val_fin]
  cases neg with
  | true => simp [abs_of_nonneg nonneg]
  | false => simp [abs_of_nonneg nonneg]

theorem Num.val_fin_eq_zero {neg : Bool} {m : Nat} {e : Int} : (Num.fin neg m e).val = 0 ↔ m = 0 := by
  have unit : (2 : ℚ) ^ e ≠ 0 := by positivity
  rw [← abs_eq_zero, Num.abs_val_fin, mul_eq_zero, or_iff_left unit, Nat.cast_eq_zero]

theorem Num.val_fin_neg {neg : Bool} {m : Nat} (pos : 0 < m) (e : Int) : decide ((Num.fin neg m e).val < 0) = neg := by
  have above : (0 : ℚ) < m * 2 ^ e := by positivity
  rw [Num.val_fin]
  cases neg with
  | true => simp only [if_true, decide_eq_true_eq]; linarith
  | false => simp only [Bool.false_eq_true, if_false, decide_eq_false_iff_not]; linarith

/-- A conversion of a finite value to a floating format (R217). -/
theorem Fmt.Sound.round_fin {f : Fmt} (sound : f.Sound) (rm : BitVec 3) (sat neg : Bool) (m : Nat) (e : Int) :
    FloatResult f rm sat (.fin neg m e) (f.round rm sat neg m e false) where
  zero := by
    rintro n g h
    cases h
    rfl
  finite _ nonzero := by
    have pos : 0 < m := Nat.pos_of_ne_zero fun h => nonzero (Num.val_fin_eq_zero.2 h)
    rw [Num.val_fin_neg pos, Num.abs_val_fin]
    exact sound.round_exact rm sat neg pos e
  infinite := by rintro n ⟨⟩
  nan := by rintro s ⟨⟩

/-- A conversion between floating formats delivers what R217 and R218 say. -/
theorem Fmt.Sound.floatToFloat {f : Fmt} (sound : f.Sound) (rm : BitVec 3) (sat : Bool) (x : Num) : FloatResult f rm sat x (floatToFloat f rm sat x) := by
  cases x with
  | fin neg m e => exact sound.round_fin rm sat neg m e
  | inf neg =>
    refine ⟨by rintro n e ⟨⟩, fun h => h.elim, ?_, by rintro s ⟨⟩⟩
    rintro n ⟨⟩
    rfl
  | nan sig =>
    refine ⟨by rintro n e ⟨⟩, fun h => h.elim, by rintro s ⟨⟩, ?_⟩
    rintro n ⟨⟩
    rfl

end Sys2Proof.Machine
end

section
/-! PROOFS. Exact sums (R225): what a dot product rounds, and the words that make dot products and read MX blocks (R220, R240, R246). -/

namespace Sys2Proof.Machine
set_option Elab.async false

/-! Sums over a list of values. -/

/-- The power of two of a finite value. -/
def Num.power : Num → Int | .fin _ _ k => k | _ => 0

/-- The units of 2^e in a finite value. -/
def Num.units (e : Int) : Num → Int | .fin n m k => signedNat n (m * 2 ^ (k - e).toNat) | _ => 0

/-- A step that adds what an element gives, over a list. -/
theorem foldl_eq_add_sum {α : Type} {step : Int → α → Int} {give : α → Int} (l : List α) (adds : ∀ x ∈ l, ∀ a, step a x = a + give x) (a : Int) :
    l.foldl step a = a + (l.map give).sum := by
  induction l generalizing a with
  | nil => simp
  | cons x xs ih =>
    rw [List.foldl_cons, ih fun y hy => adds y (List.mem_cons_of_mem _ hy), adds x List.mem_cons_self, List.map_cons, List.sum_cons, add_assoc]

/-- A step that takes the least, over a list. -/
theorem foldl_le {α : Type} {step : Int → α → Int} {give : α → Int} (l : List α) (least : ∀ x ∈ l, ∀ a, step a x = min a (give x)) (a : Int) :
    l.foldl step a ≤ a ∧ ∀ x ∈ l, l.foldl step a ≤ give x := by
  induction l generalizing a with
  | nil => simp
  | cons x xs ih =>
    obtain ⟨first, rest⟩ := ih (fun y hy => least y (List.mem_cons_of_mem _ hy)) (step a x)
    rw [least x List.mem_cons_self] at first rest
    rw [List.foldl_cons, least x List.mem_cons_self]
    refine ⟨first.trans (min_le_left ..), fun y hy => ?_⟩
    obtain rfl | later := List.mem_cons.1 hy
    · exact first.trans (min_le_right ..)
    · exact rest y later

theorem signedNat_cast (neg : Bool) (m : Nat) : ((signedNat neg m : Int) : ℚ) = (if neg then -1 else 1) * m := by
  cases neg <;> simp [signedNat]

theorem signedNat_natAbs (v : Int) : signedNat (decide (v < 0)) v.natAbs = v := by
  unfold signedNat
  by_cases h : v < 0
  · rw [decide_eq_true h, if_pos rfl]
    omega
  · rw [decide_eq_false h, if_neg Bool.false_ne_true]
    omega

/-- A finite value in units of a power of two not above its own. -/
theorem Num.val_units {x : Num} (finite : x.finite) {e : Int} (le : e ≤ x.power) : x.val = x.units e * 2 ^ e := by
  cases x with
  | fin n m k =>
    have le : e ≤ k := le
    unfold units
    rw [val_fin, signedNat_cast]
    push_cast
    rw [← zpow_natCast, Int.toNat_of_nonneg (by omega), mul_assoc, mul_assoc, ← zpow_add₀ two_ne_zero, sub_add_cancel]
  | inf _ => exact finite.elim
  | nan _ => exact finite.elim

theorem Num.val_of_int (v e : Int) : (Num.fin (decide (v < 0)) v.natAbs e).val = v * 2 ^ e := by
  rw [val_fin, ← mul_assoc, ← signedNat_cast, signedNat_natAbs]

theorem sum_val_units {l : List Num} {e : Int} (finite : ∀ x ∈ l, x.finite) (le : ∀ x ∈ l, e ≤ x.power) :
    (l.map Num.val).sum = ((l.map (Num.units e)).sum : Int) * 2 ^ e := by
  induction l with
  | nil => simp
  | cons x xs ih =>
    rw [List.map_cons, List.map_cons, List.sum_cons, List.sum_cons, ih (fun y hy => finite y (List.mem_cons_of_mem _ hy)) fun y hy =>
      le y (List.mem_cons_of_mem _ hy), Num.val_units (finite x List.mem_cons_self) (le x List.mem_cons_self)]
    push_cast
    ring

/-- Finite values sum to a finite value, without a flag. -/
theorem sumNums_finite (rm : BitVec 3) {l : List Num} (finite : ∀ x ∈ l, x.finite) :
    ∃ neg m e, sumNums rm l = (.fin neg m e, 0) ∧ (Num.fin neg m e).val = (l.map Num.val).sum := by
  unfold sumNums
  have none : (l.filter fun x => match x with | .inf _ => true | _ => false) = [] := by
    rw [List.filter_eq_nil_iff]
    intro x hx
    have := finite x hx
    cases x with
    | fin => simp
    | inf => exact this.elim
    | nan => exact this.elim
  have real : l.any Num.isNan = false := by
    rw [List.any_eq_false]
    intro x hx
    have := finite x hx
    cases x with
    | fin => simp [Num.isNan]
    | inf => exact this.elim
    | nan => exact this.elim
  extract_lets infs e v neg
  have hinfs : infs = [] := none
  have low : ∀ x ∈ l, e ≤ x.power := by
    refine (foldl_le (give := Num.power) l (fun x hx a => ?_) 0).2
    have := finite x hx
    cases x with
    | fin => rfl
    | inf => exact this.elim
    | nan => exact this.elim
  have total : v = (l.map (Num.units e)).sum := by
    refine (foldl_eq_add_sum (give := Num.units e) l (fun x hx a => ?_) 0).trans (zero_add _)
    have := finite x hx
    cases x with
    | fin => rfl
    | inf => exact this.elim
    | nan => exact this.elim
  clear_value v e infs
  subst hinfs
  rw [real, sum_val_units finite low, ← total]
  simp only [List.any_nil, Bool.false_and, Bool.false_eq_true, if_false]
  by_cases zero : v = 0
  · rw [if_pos zero]
    refine ⟨_, 0, 0, rfl, ?_⟩
    rw [Num.val_fin_eq_zero.2 rfl, zero]
    simp
  · rw [if_neg zero]
    exact ⟨_, _, _, rfl, Num.val_of_int v e⟩

/-- A NaN among the values makes the sum one. -/
theorem sumNums_nan (rm : BitVec 3) {l : List Num} (some : ∃ x ∈ l, x.isNan = true) : ∃ sig, (sumNums rm l).1 = .nan sig := by
  have any : l.any Num.isNan = true := List.any_eq_true.2 some
  unfold sumNums
  extract_lets infs e v neg
  rw [any]
  split
  · exact ⟨_, rfl⟩
  · exact ⟨_, rfl⟩

/-! Groups of a dot product (R240). -/

/-- A product of finite values is finite and exact, without a flag. -/
theorem Num.mul_finite {x y : Num} (hx : x.finite) (hy : y.finite) : (x.mul y).1.finite ∧ (x.mul y).1.val = x.val * y.val ∧ (x.mul y).2 = 0 := by
  cases x with
  | fin n1 m1 e1 =>
    cases y with
    | fin n2 m2 e2 =>
      refine ⟨trivial, ?_, rfl⟩
      show (Num.fin (n1 != n2) (m1 * m2) (e1 + e2)).val = _
      rw [val_fin, val_fin, val_fin, zpow_add₀ two_ne_zero]
      cases n1 <;> cases n2 <;> simp <;> ring
    | inf => exact hy.elim
    | nan => exact hy.elim
  | inf => exact hx.elim
  | nan => exact hx.elim

theorem Num.mul_nan {x y : Num} (h : x.isNan = true ∨ y.isNan = true) : (x.mul y).1.isNan = true := by
  cases x with
  | nan => rfl
  | inf => cases y with
    | nan => rfl
    | inf | fin => exact h.elim nofun nofun
  | fin => cases y with
    | nan => rfl
    | inf | fin => exact h.elim nofun nofun

theorem nvOf_finite {l : List Num} (finite : ∀ x ∈ l, x.finite) : nvOf l = 0 := by
  have quiet : l.any Num.isSig = false := by
    rw [List.any_eq_false]
    intro x hx
    have := finite x hx
    cases x with
    | fin => simp [Num.isSig]
    | inf => simp [Num.isSig]
    | nan => exact this.elim
  unfold nvOf
  rw [quiet]
  rfl

theorem foldl_or_zero {α : Type} {flags : α → Flags} (l : List α) (none : ∀ x ∈ l, flags x = 0) : l.foldl (fun a x => a ||| flags x) (0 : Flags) = 0 := by
  induction l with
  | nil => rfl
  | cons x xs ih =>
    rw [List.foldl_cons, none x List.mem_cons_self]
    exact ih fun y hy => none y (List.mem_cons_of_mem _ hy)

/-- The product of two elements, with its flags. -/
def Fmt.product (f : Fmt) (p : Nat × Nat) : Num × Flags :=
  let r := Num.mul (f.decode p.1) (f.decode p.2)
  (r.1, r.2 ||| nvOf [f.decode p.1, f.decode p.2])

theorem Fmt.product_finite {f : Fmt} {p : Nat × Nat} (first : (f.decode p.1).finite) (second : (f.decode p.2).finite) :
    (f.product p).1.finite ∧ (f.product p).1.val = (f.decode p.1).val * (f.decode p.2).val ∧ (f.product p).2 = 0 := by
  obtain ⟨finite, value, flags⟩ := Num.mul_finite first second
  refine ⟨finite, value, ?_⟩
  show (Num.mul (f.decode p.1) (f.decode p.2)).2 ||| nvOf [f.decode p.1, f.decode p.2] = 0
  rw [flags, nvOf_finite (by simp [first, second])]
  rfl

theorem dotGroup_float {t rt : Tag} {f h : Fmt} (ht : fmtOf t = some f) (hrt : fmtOf rt = some h) (rm : BitVec 3) (ab : List (Nat × Nat)) (c : Nat) :
    dotGroup t rt rm ab c = ((exactSum h rm (ab.map f.product) (h.decode c)).1,
      (exactSum h rm (ab.map f.product) (h.decode c)).2 ||| nvOf [h.decode c]) := by
  unfold dotGroup
  rw [ht, hrt]
  rfl

/-- A group of finite values is their exact sum, rounded once. -/
theorem dotGroup_finite {t rt : Tag} {f h : Fmt} (ht : fmtOf t = some f) (hrt : fmtOf rt = some h) (rm : BitVec 3) {ab : List (Nat × Nat)} {c : Nat}
    (finite : ∀ p ∈ ab, (f.decode p.1).finite ∧ (f.decode p.2).finite) (hc : (h.decode c).finite) :
    ∃ neg m e, dotGroup t rt rm ab c = h.round rm false neg m e false
      ∧ (Num.fin neg m e).val = (h.decode c).val + (ab.map fun p => (f.decode p.1).val * (f.decode p.2).val).sum := by
  have products : ∀ x ∈ (ab.map f.product).map Prod.fst ++ [h.decode c], x.finite := by
    intro x hx
    rw [List.map_map] at hx
    obtain product | last := List.mem_append.1 hx
    · obtain ⟨p, hp, rfl⟩ := List.mem_map.1 product
      exact (Fmt.product_finite (finite p hp).1 (finite p hp).2).1
    · rwa [List.mem_singleton.1 last]
  obtain ⟨neg, m, e, sum, value⟩ := sumNums_finite rm products
  refine ⟨neg, m, e, ?_, ?_⟩
  · have flags : (ab.map f.product).foldl (fun a p => a ||| p.2) (0 : Flags) = 0 := by
      refine foldl_or_zero _ fun x hx => ?_
      obtain ⟨p, hp, rfl⟩ := List.mem_map.1 hx
      exact (Fmt.product_finite (finite p hp).1 (finite p hp).2).2.2
    rw [dotGroup_float ht hrt]
    unfold exactSum
    dsimp only
    rw [sum, flags, nvOf_finite (by simp [hc])]
    simp [Fmt.deliver]
  · rw [value, List.map_map, List.map_append, List.sum_append, List.map_map, add_comm, List.map_singleton, List.sum_singleton]
    congr 2
    refine List.map_congr_left fun p hp => ?_
    exact (Fmt.product_finite (finite p hp).1 (finite p hp).2).2.1

theorem dotGroup_nan {t rt : Tag} {f h : Fmt} (ht : fmtOf t = some f) (hrt : fmtOf rt = some h) (rm : BitVec 3) {ab : List (Nat × Nat)} {c : Nat}
    (some : (∃ p ∈ ab, (f.decode p.1).isNan = true ∨ (f.decode p.2).isNan = true) ∨ (h.decode c).isNan = true) : (dotGroup t rt rm ab c).1 = h.canon := by
  have nan : ∃ x ∈ (ab.map f.product).map Prod.fst ++ [h.decode c], x.isNan = true := by
    obtain ⟨p, hp, nan⟩ | last := some
    · exact ⟨_, List.mem_append_left _ (List.mem_map_of_mem (List.mem_map_of_mem hp)), Num.mul_nan nan⟩
    · exact ⟨_, List.mem_append_right _ (List.mem_singleton_self _), last⟩
  obtain ⟨sig, sum⟩ := sumNums_nan rm nan
  rw [dotGroup_float ht hrt]
  unfold exactSum
  dsimp only
  rw [sum]
  rfl

theorem fmtOf_int {t : Tag} (int : isIntTag t = true) : fmtOf t = none := by
  revert t
  decide

theorem bitsOf_cast (w : Nat) (v : Int) : (bitsOf w v : Int) = v % 2 ^ w := by
  unfold bitsOf
  push_cast
  rw [Int.toNat_of_nonneg (Int.emod_nonneg _ (by positivity))]

/-- A group of integers is their exact sum modulo 2^w (R202, R240). -/
theorem dotGroup_int {t rt : Tag} (int : isIntTag t = true) (rm : BitVec 3) (ab : List (Nat × Nat)) (c : Nat) :
    dotGroup t rt rm ab c = intWrap rt (intOf rt c + (ab.map fun p => intOf t p.1 * intOf t p.2).sum) := by
  unfold dotGroup
  rw [fmtOf_int int]
  dsimp only
  rw [foldl_eq_add_sum (give := fun p : Nat × Nat => intOf t p.1 * intOf t p.2) ab fun _ _ _ => rfl]

/-! MX blocks (R220). -/

theorem elFromMx_nan {ot t : Tag} {f g : Fmt} (ht : fmtOf t = some f) (hot : fmtOf ot = some g) (rm : BitVec 3) (a : Nat) :
    elFromMx rm ot t a 255 = (g.canon, 0) := by
  unfold elFromMx
  rw [ht, hot]
  rfl

/-- The value that an element of a block has under the block's scale code. -/
def Num.scaled (c : Nat) : Num → Num | .fin n m e => .fin n m (e + c - 127) | x => x

theorem elFromMx_scaled {ot t : Tag} {f g : Fmt} (ht : fmtOf t = some f) (hot : fmtOf ot = some g) (rm : BitVec 3) (a : Nat) {c : Nat} (finite : c < 255) :
    elFromMx rm ot t a c = floatToFloat g rm false ((f.decode a).scaled c) := by
  unfold elFromMx
  rw [ht, hot]
  dsimp only
  rw [if_neg (by omega)]
  unfold Num.scaled
  cases f.decode a <;> rfl

/-! The checks of R233 where no member has stopped. -/

section
variable {s : State} (calm : s.calm)
include calm

theorem State.calm.chainsOk (mode : s.h.mode ≠ .d) (dsts : List VReg) {srcs : List VReg} (live : ∀ v ∈ srcs, (s.h.chain v).tag ≠ 0) :
    s.chainsOk dsts srcs = .ok () := by
  have released : srcs.find? (fun v => (s.src dsts v).tag == 0 && s.promised v != some none) = none := by
    rw [List.find?_eq_none]
    intro v hv
    rw [calm.src, beq_eq_false_iff_ne.2 (live v hv), Bool.false_and]
    exact Bool.false_ne_true
  have whole : (srcs.any fun v => s.promised v == some none) = false := by
    rw [List.any_eq_false]
    intro v _
    rw [calm.promised]
    exact Bool.false_ne_true
  unfold State.chainsOk
  rw [if_neg mode, released]
  dsimp only
  rw [whole]
  rfl

theorem State.calm.tagsOk (dsts : List VReg) {v : VReg} {vs : List VReg} {accept : Tag → Bool} (accepted : accept (s.h.chain v).tag = true)
    (equal : ∀ q ∈ vs, (s.h.chain q).tag = (s.h.chain v).tag) : s.tagsOk dsts (v :: vs) accept = .ok () := by
  have other : vs.find? (fun q => (s.src dsts q).tag != (s.h.chain v).tag) = none := by
    rw [List.find?_eq_none]
    intro q hq
    rw [calm.src, equal q hq]
    simp
  unfold State.tagsOk
  dsimp only
  rw [calm.src, accepted, other]
  rfl

theorem State.calm.lengthOk (dsts : List VReg) {vl : Word} {needs : List (VReg × Nat)} (within : vl.toNat ≤ s.vlmax)
    (held : ∀ p ∈ needs, p.2 ≤ (s.h.chain p.1).count) : s.lengthOk dsts vl needs = .ok () := by
  have long : needs.any (fun p => s.short dsts p.1 p.2) = false := by
    rw [List.any_eq_false]
    intro p hp
    unfold State.short
    rw [calm.promised, calm.src]
    simpa using held p hp
  have sure : needs.any (fun p => s.unsure p.1 p.2) = false := by
    rw [List.any_eq_false]
    intro p _
    unfold State.unsure
    rw [calm.promised]
    exact Bool.false_ne_true
  unfold State.lengthOk
  rw [long, if_neg (by simp [not_lt.2 within]), sure]
  rfl

end

theorem State.unclaimed.head {s : State} {v : VReg} {vs : List VReg} (free : s.unclaimed (v :: vs) []) : s.unclaimed [v] [] := by
  have none := free.filling (List.mem_cons_self (a := v) (l := vs))
  simp [State.unclaimed, State.busy?, none]

/-! `vdot` and `vcvtfrommx` (R240, R246). -/

theorem dotShape_live {t rt : Tag} {g : Nat} (shape : dotShape t = some (rt, g)) : t ≠ 0 ∧ rt ≠ 0 ∧ 0 < g := by
  have all : ∀ t : Tag, ∀ p ∈ dotShape t, t ≠ 0 ∧ p.1 ≠ 0 ∧ 0 < p.2 := by decide
  exact all t _ shape

theorem execVdot_fresh {s : State} {vd va vb vc xl : BitVec 5} {msk : BitVec 3} {z : Bool} {rm : BitVec 3} {t rt : Tag} {g : Nat}
    (shape : dotShape t = some (rt, g)) (ha : s.holdsChain va t (g * (s.x xl).toNat)) (hb : s.holdsChain vb t (g * (s.x xl).toNat))
    (hc : s.holdsChain vc rt (s.x xl).toNat) (may : s.MayRun (s.x xl).toNat [vd, va, vb, vc] []) (lanes : s.soundLanes) (tidy : s.tidy)
    (room : s.roomFor (linksFor rt (s.x xl).toNat)) :
    let r (j : Nat) : Nat × Flags := dotGroup t rt rm ((List.range g).map fun i => (s.elem (s.h.chain va) (g * j + i), s.elem (s.h.chain vb) (g * j + i)))
      (s.elem (s.h.chain vc) j)
    completes (execVdot vd va vb vc xl msk z rm s)
      (FreshResult vd rt (s.x xl).toNat (fun j => if s.maskOn msk j then (r j).1 else if z then 0 else s.elem (s.h.chain vc) j)
        (orFlags (s.x xl).toNat fun j => if s.maskOn msk j then (r j).2 else 0) s) := by
  intro r
  obtain ⟨live, liveResult, group⟩ := dotShape_live shape
  obtain ⟨mode, calm, length, free⟩ := may
  have quiet : s.awake.calm := calm
  have available (v : VReg) (mem : v ∈ [vd, va, vb, vc]) (n : Nat) : s.awake.availV v n = n :=
    quiet.availV (r := v) (show s.awake.filling v = false from free.filling mem) n
  have source (v : VReg) (j : Nat) : s.awake.elem (s.h.chain v) j = s.elem (s.h.chain v) j := elem_stand (s := s) (t := s.awake) (fun _ _ => rfl) _ _
  have same : s.awake.maskOn msk = s.maskOn msk := rfl
  have srcs (v : VReg) : s.src [vd] v = s.h.chain v := calm.src [vd] v
  unfold execVdot
  simp only [srcs, ha.1, shape, Option.getD_some]
  have chains : s.chainsOk [vd] [va, vb, vc] = .ok () := calm.chainsOk mode _ (by simpa [ha.1, hb.1, hc.1] using ⟨live, liveResult⟩)
  have tags : s.tagsOk [vd] [va, vb] (fun u => (dotShape u).isSome) = .ok () := calm.tagsOk _ (by rw [ha.1, shape]; rfl) (by simp [ha.1, hb.1])
  have long : s.lengthOk [vd] (s.x xl) [(va, g * (s.x xl).toNat), (vb, g * (s.x xl).toNat), (vc, (s.x xl).toNat)] = .ok () :=
    calm.lengthOk _ length (by simp [ha.2, hb.2, hc.2])
  rw [chains, tags, if_pos hc.1, long]
  unfold State.orTrap
  dsimp only [bind, Except.bind]
  rw [whenFree_unclaimed free.head]
  refine produce_makes rfl rfl rfl ?_ rfl rfl rfl (fun j => ?_) (fun j => ?_) tidy calm lanes liveResult (chainBytes_le_spine _ (length.trans (vlmax_le s))) room
  · dsimp only
    rw [available va (by simp), available vb (by simp), available vc (by simp), quiet.availM, Nat.mul_div_cancel_left _ group]
    simp
  · dsimp only
    simp only [same, source]
    split_ifs <;> rfl
  · dsimp only
    simp only [same, source]
    split_ifs <;> rfl

theorem execVcvtfrommx_fresh {s : State} {vd va vb xl : BitVec 5} {msk : BitVec 3} {z : Bool} {rm : BitVec 3} {ot t : Tag} (narrow : isNarrow t = true)
    (wide : isWide ot = true) (ha : s.holdsChain va t (s.x xl).toNat) (hb : s.holdsChain vb 5 (((s.x xl).toNat + 31) / 32))
    (may : s.MayRun (s.x xl).toNat [vd, va, vb] []) (lanes : s.soundLanes) (tidy : s.tidy) (room : s.roomFor (linksFor ot (s.x xl).toNat)) :
    let r (j : Nat) : Nat × Flags := elFromMx rm ot t (s.elem (s.h.chain va) j) (s.elem (s.h.chain vb) (j / 32))
    completes (execVcvtfrommx vd va vb xl msk z rm ot s) (FreshResult vd ot (s.x xl).toNat (fun j => if s.maskOn msk j then (r j).1 else 0)
      (orFlags (s.x xl).toNat fun j => if s.maskOn msk j then (r j).2 else 0) s) := by
  intro r
  obtain ⟨live, liveResult, wider⟩ : t ≠ 0 ∧ ot ≠ 0 ∧ tagWidth ot ≠ tagWidth t := by
    have all : ∀ t ot : Tag, isNarrow t = true → isWide ot = true → t ≠ 0 ∧ ot ≠ 0 ∧ tagWidth ot ≠ tagWidth t := by decide
    exact all t ot narrow wide
  obtain ⟨mode, calm, length, free⟩ := may
  have quiet : s.awake.calm := calm
  have available (v : VReg) (mem : v ∈ [vd, va, vb]) (n : Nat) : s.awake.availV v n = n :=
    quiet.availV (r := v) (show s.awake.filling v = false from free.filling mem) n
  have source (v : VReg) (j : Nat) : s.awake.elem (s.h.chain v) j = s.elem (s.h.chain v) j := elem_stand (s := s) (t := s.awake) (fun _ _ => rfl) _ _
  have same : s.awake.maskOn msk = s.maskOn msk := rfl
  have srcs (v : VReg) : s.src [vd] v = s.h.chain v := calm.src [vd] v
  unfold execVcvtfrommx
  simp only [srcs, ha.1]
  have chains : s.chainsOk [vd] [va, vb] = .ok () := calm.chainsOk mode _ (by simpa [ha.1, hb.1] using live)
  have tags : s.tagsOk [vd] [va] isNarrow = .ok () := calm.tagsOk _ (by rw [ha.1, narrow]) (by simp)
  have scales : s.tagsOk [vd] [vb] (· == 5) = .ok () := calm.tagsOk _ (by rw [hb.1]; rfl) (by simp)
  have long : s.lengthOk [vd] (s.x xl) [(va, (s.x xl).toNat), (vb, ((s.x xl).toNat + 31) / 32)] = .ok () :=
    calm.lengthOk _ length (by simp [ha.2, hb.2])
  rw [chains, tags, scales, show targetOk (isWide ot) ot = .ok () by rw [wide]; rfl, long]
  unfold State.orTrap
  dsimp only [bind, Except.bind]
  rw [whenFree_unclaimed free.head]
  refine produce_makes ?_ rfl rfl ?_ rfl rfl rfl (fun j => ?_) (fun j => ?_) tidy calm lanes liveResult (chainBytes_le_spine _ (length.trans (vlmax_le s))) room
  · dsimp only
    rw [beq_eq_false_iff_ne.2 wider, Bool.false_and]
  · dsimp only
    rw [available va (by simp), available vb (by simp), quiet.availM]
    simp only [List.foldl_cons, List.foldl_nil, min_self]
    exact min_eq_left (by omega)
  · dsimp only
    simp only [same, source]
    split_ifs <;> rfl
  · dsimp only
    simp only [same, source]
    split_ifs <;> rfl

end Sys2Proof.Machine

open Sys2Proof Sys2Proof.Machine

/-- Settles O23: a group of finite values is one exact sum (`sumNums_finite`) under one `round`, an MX element is its scaled value converted, and both words make
their results in a fresh chain (`produce_makes`). -/
theorem dotProductsAndMxBlocks : Obligations.DotProductsAndMxBlocks := by
  unfold Obligations.DotProductsAndMxBlocks
  refine ⟨fun t rt g rm ab c shape _ => ⟨fun f h ht hrt => ⟨fun finite hc => ?_, dotGroup_nan ht hrt rm⟩, fun int => ?_⟩,
    fun ot t g f rm a c _ _ ht hot _ => ⟨?_, fun finite => ?_⟩, ?_, ?_⟩
  · obtain ⟨neg, m, e, group, value⟩ := dotGroup_finite ht hrt rm finite hc
    have result := (fmtOf_sound hrt).round_fin rm false neg m e
    dsimp only
    rw [group, ← value]
    refine ⟨result.finite trivial, fun zero => ?_⟩
    obtain rfl := Num.val_fin_eq_zero.1 zero
    have code := (fmtOf_sound hrt).decode (Nat.zero_le _) neg
    rw [Nat.zero_add] at code
    rw [Fmt.round_zero]
    exact ⟨by rw [code]; simp [Fmt.mant, Num.isZero], rfl⟩
  · dsimp only
    rw [dotGroup_int int]
    exact ⟨bitsOf_cast _ _, rfl⟩
  · rintro rfl
    exact elFromMx_nan ht hot rm a
  · have result := (fmtOf_sound hot).floatToFloat rm false ((f.decode a).scaled c)
    rw [← elFromMx_scaled ht hot rm a finite] at result
    cases value : f.decode a with
    | fin | inf | nan =>
      rw [value] at result
      exact result
  · intro s vd va vb vc xl msk z rm t rt g n shape ha hb hc may lanes tidy room
    exact execVdot_fresh shape ha hb hc may lanes tidy room
  · intro s vd va vb xl msk z rm ot t n narrow wide ha hb may lanes tidy room
    exact execVcvtfrommx_fresh (z := z) narrow wide ha hb may lanes tidy room

end

section
/-! PROOFS. Elements of integer tags (R202, R237 to R239): the exact result modulo 2^w, in range or not. -/

namespace Sys2Proof.Machine
set_option Elab.async false

/-! Integers of a tag. -/

/-- The integers that a tag holds. -/
def InRange (t : Tag) (v : Int) : Prop := intMin t ≤ v ∧ v ≤ intMax t

theorem inRange_iff (t : Tag) (v : Int) : InRange t v ↔
    if isSigned t then -(2 : Int) ^ (tagWidth t - 1) ≤ v ∧ v < 2 ^ (tagWidth t - 1) else 0 ≤ v ∧ v < 2 ^ tagWidth t := by
  unfold InRange intMin intMax
  push_cast
  split_ifs <;> rw [Int.le_sub_one_iff]

theorem intOf_emod (t : Tag) (b : Nat) : intOf t b % 2 ^ tagWidth t = (b % 2 ^ tagWidth t : Nat) := by
  unfold intOf
  dsimp only
  split_ifs
  · push_cast
    rw [Int.sub_emod_right, Int.emod_emod_of_dvd _ dvd_rfl]
  · push_cast
    rw [Int.emod_emod_of_dvd _ dvd_rfl]

theorem bitsOf_lt (w : Nat) (v : Int) : bitsOf w v < 2 ^ w := by
  have := Int.emod_lt_of_pos v (by positivity : (0 : Int) < 2 ^ w)
  exact_mod_cast (bitsOf_cast _ v).trans_lt this

theorem intWrap_flag (t : Tag) (v : Int) : ((intWrap t v).2 = 0 ↔ InRange t v) ∧ (¬ InRange t v → (intWrap t v).2 = fWRAP) := by
  unfold intWrap InRange
  dsimp only
  split_ifs with out
  · exact ⟨⟨fun h => absurd h (by decide), fun h => by omega⟩, fun _ => rfl⟩
  · exact ⟨⟨fun _ => by omega, fun _ => rfl⟩, fun h => absurd (by omega) h⟩

theorem bitsOf_intOf {t : Tag} {b : Nat} (hb : b < 2 ^ tagWidth t) : bitsOf (tagWidth t) (intOf t b) = b := by
  have := bitsOf_cast (tagWidth t) (intOf t b)
  rw [intOf_emod, Nat.mod_eq_of_lt hb] at this
  exact_mod_cast this

theorem bitsOf_add (t : Tag) {a b : Nat} : bitsOf (tagWidth t) (intOf t a + intOf t b) = (a + b) % 2 ^ tagWidth t := by
  have : ((bitsOf (tagWidth t) (intOf t a + intOf t b) : Nat) : Int) = ((a + b) % 2 ^ tagWidth t : Nat) := by
    rw [bitsOf_cast, Int.add_emod, intOf_emod, intOf_emod]
    push_cast
    rw [← Int.add_emod]
  exact_mod_cast this

theorem bitsOf_mul (t : Tag) {a b : Nat} : bitsOf (tagWidth t) (intOf t a * intOf t b) = a * b % 2 ^ tagWidth t := by
  have : ((bitsOf (tagWidth t) (intOf t a * intOf t b) : Nat) : Int) = (a * b % 2 ^ tagWidth t : Nat) := by
    rw [bitsOf_cast, Int.mul_emod, intOf_emod, intOf_emod]
    push_cast
    rw [← Int.mul_emod]
  exact_mod_cast this

theorem bitsOf_sub {t : Tag} {a b : Nat} (hb : b < 2 ^ tagWidth t) : bitsOf (tagWidth t) (intOf t a - intOf t b) = (a + 2 ^ tagWidth t - b) % 2 ^ tagWidth t := by
  have : ((bitsOf (tagWidth t) (intOf t a - intOf t b) : Nat) : Int) = ((a + 2 ^ tagWidth t - b) % 2 ^ tagWidth t : Nat) := by
    rw [bitsOf_cast, Int.sub_emod, intOf_emod, intOf_emod]
    push_cast [Nat.cast_sub (by omega : b ≤ a + 2 ^ tagWidth t)]
    rw [← Int.sub_emod, add_sub_right_comm, Int.add_emod_right]
  exact_mod_cast this

/-- A quotient towards zero lies in the tag's range, but for the least integer by -1 (R238). -/
theorem tdiv_inRange {t : Tag} {u v : Int} (hu : InRange t u) (nonzero : v ≠ 0) (unsigned : isSigned t = false → 0 ≤ v)
    (least : ¬ (isSigned t = true ∧ u = intMin t ∧ v = -1)) : InRange t (u.tdiv v) := by
  have size : (u.tdiv v).natAbs ≤ u.natAbs := by
    rw [Int.natAbs_tdiv]
    exact Nat.div_le_self ..
  rw [inRange_iff] at hu ⊢
  unfold intMin at least
  cases signed : isSigned t with
  | false =>
    rw [signed] at hu
    simp only [Bool.false_eq_true, if_false] at hu ⊢
    have := Int.tdiv_nonneg hu.1 (unsigned signed)
    constructor
    · exact this
    · have := hu.2
      omega
  | true =>
    rw [signed] at hu least
    simp only [if_true, true_and] at hu least ⊢
    push_cast at least
    obtain ⟨low, high⟩ := hu
    have pos : (0 : Int) < 2 ^ (tagWidth t - 1) := by positivity
    generalize (2 : Int) ^ (tagWidth t - 1) = H at low high least pos ⊢
    by_cases neg : v = -1
    · subst neg
      rw [Int.tdiv_neg, Int.tdiv_one]
      omega
    · by_cases pos1 : v = 1
      · subst pos1
        rw [Int.tdiv_one]
        omega
      · have half : (u.tdiv v).natAbs ≤ u.natAbs / 2 := by
          rw [Int.natAbs_tdiv]
          exact Nat.div_le_div_left (by omega) two_pos
        omega

theorem tagWidth_pos {t : Tag} (int : isIntTag t = true) : 0 < tagWidth t := by
  revert t
  decide

section
variable {t : Tag} (int : isIntTag t = true)
include int

theorem two_pow_tagWidth : (2 : Int) ^ tagWidth t = 2 * 2 ^ (tagWidth t - 1) := by
  rw [← pow_succ', Nat.sub_add_cancel (tagWidth_pos int)]

theorem two_pow_tagWidth_nat : 2 ^ tagWidth t = 2 * 2 ^ (tagWidth t - 1) := by
  rw [← pow_succ', Nat.sub_add_cancel (tagWidth_pos int)]

/-- Two integers of a tag that agree modulo 2^w are equal. -/
theorem InRange.unique {u v : Int} (hu : InRange t u) (hv : InRange t v) (same : u % 2 ^ tagWidth t = v % 2 ^ tagWidth t) : u = v := by
  rw [inRange_iff] at hu hv
  have double := two_pow_tagWidth int
  refine Int.eq_of_sub_eq_zero (Int.eq_zero_of_abs_lt_dvd (Int.dvd_of_emod_eq_zero (Int.emod_eq_emod_iff_emod_sub_eq_zero.1 same)) ?_)
  rw [abs_lt]
  split_ifs at hu hv <;> constructor <;> linarith [hu.1, hu.2, hv.1, hv.2]

theorem intOf_inRange (b : Nat) : InRange t (intOf t b) := by
  have below : ((b % 2 ^ tagWidth t : Nat) : Int) < 2 ^ tagWidth t := by exact_mod_cast Nat.mod_lt b (Nat.two_pow_pos _)
  have double := two_pow_tagWidth int
  rw [inRange_iff]
  unfold intOf
  dsimp only
  generalize b % 2 ^ tagWidth t = v at below
  cases signed : isSigned t with
  | false =>
    simp only [Bool.false_and, Bool.false_eq_true, if_false]
    exact ⟨Int.natCast_nonneg v, below⟩
  | true =>
    simp only [Bool.true_and, decide_eq_true_eq, if_true]
    split_ifs with high
    · have : (2 : Int) ^ (tagWidth t - 1) ≤ v := by exact_mod_cast high
      push_cast
      constructor <;> linarith
    · have : (v : Int) < 2 ^ (tagWidth t - 1) := by exact_mod_cast not_le.1 high
      have : (0 : Int) < 2 ^ (tagWidth t - 1) := by positivity
      constructor <;> linarith [Int.natCast_nonneg v]

/-- An integer of the tag survives the way through its bits. -/
theorem intOf_bitsOf {v : Int} (fits : InRange t v) : intOf t (bitsOf (tagWidth t) v) = v := by
  refine (intOf_inRange int _).unique int fits ?_
  rw [intOf_emod]
  push_cast
  rw [bitsOf_cast, Int.emod_emod_of_dvd _ dvd_rfl]

theorem intOf_eq_zero {b : Nat} (hb : b < 2 ^ tagWidth t) : intOf t b = 0 ↔ b = 0 := by
  constructor
  · intro h
    have := bitsOf_intOf hb
    rw [h] at this
    exact this.symm.trans (by simp [bitsOf])
  · rintro rfl
    have := intOf_bitsOf int (v := 0) (by rw [inRange_iff]; split_ifs <;> simp)
    simpa [bitsOf] using this

/-! Results modulo 2^w and clamped results (R202). -/

theorem intClamp_value (v : Int) : intOf t (intClamp t v).1 = max (intMin t) (min (intMax t) v) ∧ (intClamp t v).1 < 2 ^ tagWidth t
    ∧ (InRange t v → (intClamp t v).2 = 0) ∧ (¬ InRange t v → (intClamp t v).2 = fWRAP) := by
  have ordered : intMin t ≤ intMax t := (intOf_inRange int 0).1.trans (intOf_inRange int 0).2
  unfold intClamp InRange
  split_ifs with low high
  · exact ⟨by rw [intOf_bitsOf int ⟨le_rfl, ordered⟩]; omega, bitsOf_lt _ _, fun h => by omega, fun _ => rfl⟩
  · exact ⟨by rw [intOf_bitsOf int ⟨ordered, le_rfl⟩]; omega, bitsOf_lt _ _, fun h => by omega, fun _ => rfl⟩
  · exact ⟨by rw [intOf_bitsOf int ⟨by omega, by omega⟩]; omega, bitsOf_lt _ _, fun _ => rfl, fun h => absurd (by omega) h⟩

/-! Rows of Table 11-2 on integers. -/

theorem onTag_int (i : Nat × Flags) (g : Fmt → Nat × Flags) : onTag t i g = i := by
  unfold onTag
  rw [fmtOf_int int]

/-- An arithmetic shift is that of a machine word (R239). -/
theorem elSra_word {a : Nat} (ha : a < 2 ^ tagWidth t) (b : Nat) :
    (elSra t a b).1 = ((BitVec.ofNat (tagWidth t) a).sshiftRight (min b (tagWidth t))).toNat := by
  have whole : (BitVec.ofNat (tagWidth t) a).toNat = a := by simp [Nat.mod_eq_of_lt ha]
  have double := two_pow_tagWidth_nat int
  have signed : (BitVec.ofNat (tagWidth t) a).toInt = if 2 ^ (tagWidth t - 1) ≤ a then (a : Int) - (2 ^ tagWidth t : Nat) else a := by
    rw [BitVec.toInt_eq_toNat_cond, whole]
    split_ifs <;> first | rfl | omega
  have nat : ∀ x : BitVec (tagWidth t), x.toNat = bitsOf (tagWidth t) x.toInt := by
    intro x
    have : (x.toNat : Int) = bitsOf (tagWidth t) x.toInt := by
      rw [bitsOf_cast, BitVec.toInt_eq_toNat_bmod, show (2 : Int) ^ tagWidth t = ((2 ^ tagWidth t : Nat) : Int) by push_cast; rfl, Int.bmod_emod]
      exact_mod_cast (Nat.mod_eq_of_lt x.isLt).symm
    exact_mod_cast this
  rw [nat, BitVec.toInt_sshiftRight, signed, Int.shiftRight_eq_div_pow]
  rfl

theorem elSra_testBit {a : Nat} (ha : a < 2 ^ tagWidth t) (b : Nat) {k : Nat} (hk : k < tagWidth t) :
    (elSra t a b).1.testBit k = a.testBit (if k + b < tagWidth t then k + b else tagWidth t - 1) := by
  have top := tagWidth_pos int
  have bits {i : Nat} (hi : i < tagWidth t) : (BitVec.ofNat (tagWidth t) a).getLsbD i = a.testBit i := by
    rw [BitVec.getLsbD_ofNat, decide_eq_true hi, Bool.true_and]
  rw [elSra_word int ha, ← BitVec.getLsbD, BitVec.getLsbD_sshiftRight, BitVec.msb_eq_getLsbD_last, decide_eq_false (not_le.2 hk)]
  by_cases within : k + b < tagWidth t
  · rw [if_pos within, if_pos (by omega), min_eq_left (by omega), Nat.add_comm b k, bits within]
    rfl
  · rw [if_neg within, if_neg (by omega), bits (by omega)]
    rfl

theorem elDiv_int (rm : BitVec 3) {a b : Nat} (ha : a < 2 ^ tagWidth t) (hb : b < 2 ^ tagWidth t) :
    elDiv rm t a b = if b = 0 then (2 ^ tagWidth t - 1, fDZ)
      else if isSigned t ∧ intOf t a = intMin t ∧ intOf t b = -1 then (a, fWRAP) else (((intOf t a).tdiv (intOf t b) % 2 ^ tagWidth t).toNat, 0) := by
  have bits (v : Int) : bitsOf (tagWidth t) v = (v % 2 ^ tagWidth t).toNat := by
    unfold bitsOf
    push_cast
    rfl
  unfold elDiv
  rw [onTag_int int]
  simp only [intOf_eq_zero int hb]
  by_cases zero : b = 0
  · rw [if_pos zero, if_pos zero]
  · rw [if_neg zero, if_neg zero]
    by_cases least : isSigned t ∧ intOf t a = intMin t ∧ intOf t b = -1
    · rw [if_pos least]
      obtain ⟨signed, first, second⟩ := least
      have double := two_pow_tagWidth int
      have half : intMin t = -2 ^ (tagWidth t - 1) := by
        unfold intMin
        rw [if_pos signed]
        push_cast
        rfl
      have over_ : ¬ InRange t ((intOf t a).tdiv (intOf t b)) := by
        rw [inRange_iff, if_pos signed, first, second, Int.tdiv_neg, Int.tdiv_one, half]
        omega
      refine Prod.ext ?_ ((intWrap_flag t _).2 over_)
      show bitsOf (tagWidth t) _ = a
      have agree : ((bitsOf (tagWidth t) ((intOf t a).tdiv (intOf t b)) : Nat) : Int) = a := by
        rw [bitsOf_cast, second, Int.tdiv_neg, Int.tdiv_one, ← bitsOf_intOf ha, bitsOf_cast, bitsOf_intOf ha, first, half, double,
          Int.emod_eq_emod_iff_emod_sub_eq_zero]
        ring_nf
        simp
      exact_mod_cast agree
    · rw [if_neg least, ← bits]
      refine Prod.ext rfl ((intWrap_flag t _).1.2 (tdiv_inRange (intOf_inRange int a) (fun h => zero ((intOf_eq_zero int hb).1 h)) (fun unsigned => ?_) least))
      have := (inRange_iff t _).1 (intOf_inRange int b)
      rw [unsigned] at this
      exact this.1

theorem elMinMax_int {a b : Nat} (ha : a < 2 ^ tagWidth t) (hb : b < 2 ^ tagWidth t) :
    intOf t (elMinMax false t a b).1 = min (intOf t a) (intOf t b) ∧ intOf t (elMinMax true t a b).1 = max (intOf t a) (intOf t b) := by
  unfold elMinMax
  rw [onTag_int int, onTag_int int]
  dsimp only
  by_cases less : intOf t a < intOf t b
  · simp [less, less.le, Nat.mod_eq_of_lt ha, Nat.mod_eq_of_lt hb]
  · simp [less, not_lt.1 less, Nat.mod_eq_of_lt ha, Nat.mod_eq_of_lt hb]

end

end Sys2Proof.Machine
end

section
/-! PROOFS. The wide formats, exact results in them, and class codes, `vround` and the special functions at special inputs (R229, R241, R244). -/

namespace Sys2Proof.Machine
set_option Elab.async false

/-! Codes read back. -/

/-- A finite code is a magnitude and a sign. -/
theorem Fmt.decode_fin {f : Fmt} {a : Nat} {neg : Bool} {m : Nat} {e : Int} (h : f.decode a = .fin neg m e) :
    ∃ c, c = a % 2 ^ (f.w - 1) ∧ c ≤ f.big ∧ neg = (a / 2 ^ (f.w - 1) % 2 == 1) ∧ m = f.mant c ∧ e = f.expo c := by
  refine ⟨_, rfl, ?_⟩
  unfold Fmt.decode at h
  dsimp only at h
  split at h
  · split at h
    · split at h <;> cases h
    · cases h
  · next fits =>
    refine ⟨not_lt.1 fits, ?_⟩
    unfold mant expo
    split at h
    · next zero =>
      cases h
      rw [if_pos zero, if_pos zero]
      exact ⟨rfl, rfl, rfl⟩
    · next normal =>
      cases h
      rw [if_neg normal, if_neg normal]
      exact ⟨rfl, rfl, rfl⟩

/-- The units of a code: below 2^frac they are subnormal. -/
theorem Fmt.mant_expo (f : Fmt) (c : Nat) : f.mant c < 2 ^ (f.frac + 1) ∧ f.emin - f.frac ≤ f.expo c
    ∧ (f.expo c = f.emin - f.frac ∨ 2 ^ f.frac ≤ f.mant c) := by
  have rest := Nat.mod_lt c (Nat.two_pow_pos f.frac)
  rw [pow_succ]
  unfold mant expo
  split_ifs
  · exact ⟨by omega, le_rfl, .inl rfl⟩
  · exact ⟨by omega, by omega, .inr (by omega)⟩

theorem Fmt.expo_mono (f : Fmt) {c d : Nat} (le : c ≤ d) : f.expo c ≤ f.expo d := by
  have fields : c / 2 ^ f.frac ≤ d / 2 ^ f.frac := Nat.div_le_div_right le
  unfold expo
  split_ifs <;> omega

/-- The subnormal values are those below 2^emin. -/
theorem Fmt.mag_lt_emin (f : Fmt) (c : Nat) : f.mag c < 2 ^ f.emin ↔ f.expo c = f.emin - f.frac ∧ f.mant c < 2 ^ f.frac := by
  obtain ⟨-, low, normal⟩ := f.mant_expo c
  have split : (2 : ℚ) ^ f.emin = 2 ^ f.frac * 2 ^ (f.emin - f.frac) := by
    rw [← zpow_natCast, ← zpow_add₀ two_ne_zero]
    congr 1
    omega
  have unit : (0 : ℚ) < 2 ^ (f.emin - f.frac) := by positivity
  unfold mag
  constructor
  · intro below
    by_contra out
    have large : 2 ^ f.frac ≤ f.mant c := by
      by_contra small
      exact out ⟨normal.resolve_right small, not_le.1 small⟩
    refine absurd below (not_lt.2 ?_)
    rw [split]
    exact mul_le_mul (by exact_mod_cast large) (zpow_le_zpow_right₀ one_le_two low) unit.le (Nat.cast_nonneg _)
  · rintro ⟨subnormal, few⟩
    rw [subnormal, split]
    exact mul_lt_mul_of_pos_right (by exact_mod_cast few) unit

/-! The wide formats (R231). -/

/-- What the formats of the wide tags have in common (Table 10-1). -/
structure Fmt.Wide (f : Fmt) : Prop where
  sound : f.Sound
  ieee : f.special = .ieee
  frac : 7 ≤ f.frac ∧ f.frac ≤ 52
  emin : f.emin ≤ -14 ∧ -1074 ≤ f.emin - f.frac
  narrow : f.w ≤ 16 → f.frac ≤ 10
  mant_big : f.mant f.big = 2 ^ (f.frac + 1) - 1
  expo_big : 1 ≤ f.expo f.big ∧ f.expo f.big ≤ 971
  inf : f.big + 1 < 2 ^ (f.w - 1)
  logs : (f.frac : Int) - f.emin < 2 ^ (f.frac + 1) ∧ f.expo f.big + f.frac < 2 ^ (f.frac + 1)

theorem fmtOf_wide {t : Tag} {f : Fmt} (wide : isWide t = true) (h : fmtOf t = some f) : f.Wide := by
  have all : ∀ t : Tag, isWide t = true → ∀ f ∈ fmtOf t, f.special = .ieee ∧ (7 ≤ f.frac ∧ f.frac ≤ 52) ∧ (f.emin ≤ -14 ∧ -1074 ≤ f.emin - f.frac)
      ∧ (f.w ≤ 16 → f.frac ≤ 10) ∧ f.mant f.big = 2 ^ (f.frac + 1) - 1 ∧ (1 ≤ f.expo f.big ∧ f.expo f.big ≤ 971) ∧ f.big + 1 < 2 ^ (f.w - 1)
      ∧ (f.frac : Int) - f.emin < 2 ^ (f.frac + 1) ∧ f.expo f.big + f.frac < 2 ^ (f.frac + 1) := by
    decide +kernel
  obtain ⟨ieee, frac, emin, narrow, mant_big, expo_big, inf, logs⟩ := all t wide f h
  exact ⟨fmtOf_sound h, ieee, frac, emin, narrow, mant_big, expo_big, inf, logs⟩

theorem Fmt.Wide.infCode {f : Fmt} (wide : f.Wide) (neg : Bool) : f.infCode neg = f.big + 1 + f.signBit neg := by
  unfold Fmt.infCode
  rw [wide.ieee]

/-- The integers below 2^(frac + 1) lie below the largest finite value. -/
theorem Fmt.Wide.big_le {f : Fmt} (wide : f.Wide) : (2 : ℚ) ^ (f.frac + 1) ≤ (f.decode f.big).val := by
  rw [wide.sound.val_big]
  unfold mag
  rw [wide.mant_big, Nat.cast_sub Nat.one_le_two_pow]
  have two : (2 : ℚ) ^ (1 : Int) ≤ 2 ^ f.expo f.big := zpow_le_zpow_right₀ one_le_two wide.expo_big.1
  have one : (1 : ℚ) ≤ 2 ^ f.frac := one_le_pow₀ one_le_two
  push_cast
  rw [pow_succ]
  rw [zpow_one] at two
  nlinarith

/-! Numbers that a format holds. -/

/-- A code's value is a multiple of the spacing there. -/
theorem Fmt.mag_multiple (f : Fmt) {c : Nat} (pos : c ≠ 0) : ∃ k : Nat, f.mag c = k * f.spacing (f.mag c) := by
  obtain ⟨E, k, rfl, top, normal⟩ := f.code_units c
  rw [f.mag_units top.le normal]
  have hk : 0 < k := by
    obtain rfl | large := normal
    · omega
    · exact lt_of_lt_of_le (Nat.two_pow_pos _) large
  have log : Int.log 2 ((k : ℚ) * 2 ^ (f.emin - f.frac + E)) = Nat.log2 k + (f.emin - f.frac + E) := (Marks.exact hk _).log
  refine ⟨k, ?_⟩
  unfold spacing
  rw [log]
  congr 2
  have width : Nat.log2 k ≤ f.frac := by
    rw [Nat.log2_eq_log_two]
    exact Nat.lt_succ_iff.1 (Nat.log_lt_of_lt_pow hk.ne' top)
  obtain rfl | large := normal
  · push_cast
    omega
  · have : f.frac ≤ Nat.log2 k := (Nat.le_log2 hk.ne').2 large
    omega

/-- An integer of at most frac + 1 bits is a multiple of the spacing there. -/
theorem Fmt.Wide.nat_multiple {f : Fmt} (wide : f.Wide) {n : Nat} (pos : 0 < n) (few : n < 2 ^ (f.frac + 1)) : ∃ k : Nat, (n : ℚ) = k * f.spacing n := by
  have log : Int.log 2 (n : ℚ) = Nat.log2 n := by
    have := (Marks.exact pos 0).log
    simpa using this
  have width : Nat.log2 n ≤ f.frac := by
    rw [Nat.log2_eq_log_two]
    exact Nat.lt_succ_iff.1 (Nat.log_lt_of_lt_pow pos.ne' few)
  have emin := wide.emin.1
  refine ⟨n * 2 ^ (f.frac - (max (Nat.log2 n : Int) f.emin)).toNat, ?_⟩
  unfold spacing
  rw [log]
  push_cast
  rw [← zpow_natCast, mul_assoc, ← zpow_add₀ two_ne_zero, Int.toNat_of_nonneg (by omega)]
  simp

/-- A power of two within the format's exponents is a multiple of the spacing there. -/
theorem Fmt.two_zpow_multiple (f : Fmt) {k : Int} (low : f.emin - f.frac ≤ k) : ∃ n : Nat, (2 : ℚ) ^ k = n * f.spacing (2 ^ k) := by
  have log : Int.log 2 ((2 : ℚ) ^ k) = k := by exact_mod_cast Int.log_zpow (R := ℚ) one_lt_two k
  refine ⟨2 ^ (k - (max k f.emin - f.frac)).toNat, ?_⟩
  unfold spacing
  rw [log]
  push_cast
  rw [← zpow_natCast, ← zpow_add₀ two_ne_zero, Int.toNat_of_nonneg (by omega)]
  congr 1
  omega

/-- `round` delivers a number that the format holds as its code. -/
theorem Fmt.Sound.round_multiple {f : Fmt} (sound : f.Sound) (rm : BitVec 3) (sat : Bool) {m : Nat} (pos : 0 < m) (e : Int) {k : Nat}
    (multiple : (m : ℚ) * 2 ^ e = k * f.spacing (m * 2 ^ e)) (fits : (m : ℚ) * 2 ^ e ≤ (f.decode f.big).val) :
    ∃ c, c ≤ f.big ∧ f.mag c = m * 2 ^ e ∧ ∀ neg, f.round rm sat neg m e false = (c + f.signBit neg, 0) := by
  have unit := f.spacing_pos (m * 2 ^ e)
  have units {neg : Bool} : ∃ lo part j, Split (f.spacing (m * 2 ^ e)) (m * 2 ^ e) lo part ∧ (takesUpper rm neg lo part ∧ j = lo + 1 ∨ ¬ takesUpper rm neg lo part ∧ j = lo)
      ∧ f.round rm sat neg m e false = f.settled rm sat neg (m * 2 ^ e) j (f.inexactFlags (m * 2 ^ e) part) :=
    (Marks.exact pos e).round_settled rm sat neg nofun
  have exact : Split (f.spacing (m * 2 ^ e)) (m * 2 ^ e) k 0 := ⟨by rw [add_zero]; exact multiple, le_rfl, one_pos⟩
  obtain ⟨few, normal⟩ := exact.units (Marks.exact pos e).x_pos
  have value := f.mag_settled (m * 2 ^ e) few.le normal
  rw [← multiple] at value
  rw [sound.val_big, ← value] at fits
  refine ⟨_, f.mag_strictMono.le_iff_le.1 fits, value, fun neg => ?_⟩
  obtain ⟨lo, part, j, split, taken, eq⟩ := units (neg := neg)
  obtain rfl : lo = k := by exact_mod_cast (split.floor unit).symm.trans (exact.floor unit)
  obtain rfl : part = 0 := (split.part_eq unit).symm.trans (exact.part_eq unit)
  obtain rfl : j = lo := (taken.resolve_left fun h => lt_irrefl _ h.1.1).2
  rw [eq]
  unfold settled
  dsimp only
  rw [if_neg (not_lt.2 (f.mag_strictMono.le_iff_le.1 fits)), show f.inexactFlags (m * 2 ^ e) 0 = 0 from if_pos rfl]

/-- The value of a code with a sign. -/
theorem Fmt.Sound.val_code {f : Fmt} (sound : f.Sound) {c : Nat} (fits : c ≤ f.big) (neg : Bool) :
    (f.decode (c + f.signBit neg)).finite ∧ (f.decode (c + f.signBit neg)).val = (if neg then -1 else 1) * f.mag c := by
  rw [sound.decode fits]
  exact ⟨trivial, Num.val_fin ..⟩

/-- An integer of few bits is delivered as it is. -/
theorem Fmt.Wide.round_nat {f : Fmt} (wide : f.Wide) (rm : BitVec 3) (sat : Bool) {n : Nat} (few : n < 2 ^ (f.frac + 1)) :
    ∃ c, c ≤ f.big ∧ f.mag c = n ∧ ∀ neg, f.round rm sat neg n 0 false = (c + f.signBit neg, 0) := by
  obtain rfl | pos := Nat.eq_zero_or_pos n
  · exact ⟨0, Nat.zero_le _, by simp, fun neg => by rw [Fmt.round_zero, Nat.zero_add]⟩
  · obtain ⟨k, multiple⟩ := wide.nat_multiple pos few
    have unit : (n : ℚ) * 2 ^ (0 : Int) = n := by simp
    have fits : (n : ℚ) ≤ (f.decode f.big).val := le_trans (by exact_mod_cast few.le) wide.big_le
    obtain ⟨c, hc, value, all⟩ := wide.sound.round_multiple rm sat pos 0 (by rwa [unit]) (by rwa [unit])
    exact ⟨c, hc, value.trans unit, all⟩

/-- So is a power of two. -/
theorem Fmt.Wide.round_two_zpow {f : Fmt} (wide : f.Wide) (rm : BitVec 3) (sat : Bool) {k : Int} (low : f.emin - f.frac ≤ k)
    (fits : (2 : ℚ) ^ k ≤ (f.decode f.big).val) :
    ∃ c, c ≤ f.big ∧ f.mag c = 2 ^ k ∧ ∀ neg, f.round rm sat neg 1 k false = (c + f.signBit neg, 0) := by
  obtain ⟨n, multiple⟩ := f.two_zpow_multiple low
  have unit : ((1 : Nat) : ℚ) * 2 ^ k = 2 ^ k := by simp
  obtain ⟨c, hc, value, all⟩ := wide.sound.round_multiple rm sat one_pos k (by rwa [unit]) (by rwa [unit])
  exact ⟨c, hc, value.trans unit, all⟩

/-! Class codes (R241). -/

theorem classOf_eq {f : Fmt} {a : Nat} : classOf f a = match f.decode a with
    | .nan sig => if sig then 8 else 9
    | .inf neg => if neg then 0 else 7
    | .fin neg m e => if m = 0 then (if neg then 3 else 4) else if m * (2 : ℚ) ^ e < 2 ^ f.emin then (if neg then 2 else 5) else if neg then 1 else 6 := by
  unfold classOf
  cases value : f.decode a with
  | nan sig => rfl
  | inf neg => rfl
  | fin neg m e =>
    obtain ⟨c, -, -, -, rfl, rfl⟩ := Fmt.decode_fin value
    have tiny := f.mag_lt_emin c
    unfold Fmt.mag at tiny
    dsimp only
    simp only [tiny]

/-! `vround` (R244, R219). -/

theorem signedNat_natAbs_eq (neg : Bool) (n : Nat) : (signedNat neg n).natAbs = n := by
  cases neg <;> simp [signedNat]

/-- The integer made of the units below a number, or of one more, is the one that the mode takes; it is the number itself exactly when no part is left. -/
theorem nearestInt_of_split {rm : BitVec 3} {v part : ℚ} {lo n : Nat} {neg : Bool} (split : Split 1 |v| lo part)
    (taken : takesUpper rm neg lo part ∧ n = lo + 1 ∨ ¬ takesUpper rm neg lo part ∧ n = lo) (sign : v ≠ 0 → decide (v < 0) = neg) :
    nearestInt rm v (signedNat neg n) ∧ (v = signedNat neg n ↔ part = 0) := by
  have size : |v| = lo + part := by rw [split.eq, mul_one]
  have floor : ⌊|v|⌋ = (lo : Int) := by simpa using split.floor one_pos
  have rest : |v| - ((lo : Int) : ℚ) = part := by
    push_cast
    linarith
  have choice : takesUpper rm neg lo part ↔ takesUpper rm (decide (v < 0)) lo part := by
    by_cases zero : v = 0
    · have none : ¬ 0 < part := by
        rw [zero, abs_zero] at size
        have := Nat.cast_nonneg (α := ℚ) lo
        linarith
      exact ⟨fun h => absurd h.1 none, fun h => absurd h.1 none⟩
    · rw [sign zero]
  have exact : part = 0 → n = lo := fun none => (taken.resolve_left fun h => absurd none h.1.1.ne').2
  have value : v = (if neg then -1 else 1) * |v| := by
    by_cases zero : v = 0
    · simp [zero]
    · rw [← sign zero]
      by_cases below : v < 0
      · simp [below, abs_of_neg below]
      · simp [below, abs_of_nonneg (not_lt.1 below)]
  refine ⟨⟨?_, fun below => ?_, fun above => ?_⟩, ?_⟩
  · rw [floor, rest, signedNat_natAbs_eq, ← choice]
    exact_mod_cast taken
  · rw [← sign below.ne, decide_eq_true below]
    simp [signedNat]
  · by_cases zero : v = 0
    · have none : (lo : ℚ) + part = 0 := by rw [← size, zero, abs_zero]
      have nonneg := split.nonneg
      have := Nat.cast_nonneg (α := ℚ) lo
      have hlo : lo = 0 := by exact_mod_cast (by linarith : (lo : ℚ) = 0)
      rw [exact (by linarith), hlo]
      cases neg <;> simp [signedNat]
    · rw [← sign zero, decide_eq_false (not_lt.2 above)]
      simp [signedNat]
  · rw [signedNat_cast]
    constructor
    · intro eq
      have whole : |v| = n := by
        rw [eq]
        cases neg <;> simp
      obtain ⟨-, rfl⟩ | ⟨-, rfl⟩ := taken
      · push_cast at whole
        linarith [split.lt]
      · linarith
    · intro none
      rw [exact none, value, size, none, add_zero]

/-- What `roundInt` makes of a finite value (R219). -/
theorem roundInt_nearest (rm : BitVec 3) (neg : Bool) (m : Nat) (e : Int) :
    ∃ n : Nat, (roundInt rm neg m e).1 = signedNat neg n ∧ nearestInt rm (Num.fin neg m e).val (signedNat neg n)
      ∧ ((roundInt rm neg m e).2 = true ↔ (Num.fin neg m e).val ≠ signedNat neg n) ∧ (0 ≤ e → (n : ℚ) = m * 2 ^ e) ∧ (e < 0 → n ≤ m / 2 + 1) := by
  have sign : (Num.fin neg m e).val ≠ 0 → decide ((Num.fin neg m e).val < 0) = neg := fun nonzero =>
    Num.val_fin_neg (Nat.pos_of_ne_zero fun h => nonzero (Num.val_fin_eq_zero.2 h)) e
  unfold roundInt
  by_cases whole : 0 ≤ e
  · rw [if_pos whole]
    have value : ((m * 2 ^ e.toNat : Nat) : ℚ) = m * 2 ^ e := by
      push_cast
      rw [← zpow_natCast, Int.toNat_of_nonneg whole]
    have split : Split 1 |(Num.fin neg m e).val| (m * 2 ^ e.toNat) 0 := ⟨by rw [Num.abs_val_fin, value]; ring, le_rfl, one_pos⟩
    obtain ⟨nearest, exact⟩ := nearestInt_of_split (rm := rm) (n := m * 2 ^ e.toNat) split (.inr ⟨fun h => lt_irrefl _ h.1, rfl⟩) sign
    exact ⟨_, rfl, nearest, ⟨nofun, fun h => absurd (exact.2 rfl) h⟩, fun _ => value, fun h => absurd whole (not_le.2 h)⟩
  · rw [if_neg whole]
    obtain ⟨s, hs⟩ : ∃ s : Nat, (-e).toNat = s + 1 := ⟨(-e).toNat - 1, by omega⟩
    rw [hs]
    have unit : (2 : ℚ) ^ (((s + 1 : Nat) : Int) + e) = 1 := by rw [show ((s + 1 : Nat) : Int) + e = 0 by omega, zpow_zero]
    have split := split_of_shift (sh := s + 1) (m := m) (e := e) (t := 0) (x := |(Num.fin neg m e).val|) (by rw [Num.abs_val_fin, add_zero]) le_rfl one_pos
    rw [unit, add_zero] at split
    have few : m / 2 ^ (s + 1) ≤ m / 2 := Nat.div_le_div_left (Nat.le_self_pow (by omega) 2) two_pos
    dsimp only
    generalize m / 2 ^ (s + 1) = lo at split few ⊢
    generalize m % 2 ^ (s + 1) = rem at split ⊢
    have two : (0 : ℚ) < 2 ^ (s + 1) := by positivity
    have some : rem ≠ 0 ↔ 0 < (rem : ℚ) / 2 ^ (s + 1) := by
      rw [lt_div_iff₀ two, zero_mul, Nat.cast_pos, Nat.pos_iff_ne_zero]
    have marked : rem ≠ 0 ↔ ¬ (rem : ℚ) / 2 ^ (s + 1) = 0 := some.trans ⟨ne_of_gt, fun h => lt_of_le_of_ne split.nonneg (Ne.symm h)⟩
    have past : (2 ^ (s + 1) < 2 * rem ∨ 2 * rem = 2 ^ (s + 1) ∧ lo % 2 = 1)
        ↔ 1 / 2 < (rem : ℚ) / 2 ^ (s + 1) ∨ (rem : ℚ) / 2 ^ (s + 1) = 1 / 2 ∧ (lo : Int) % 2 = 1 := by
      refine or_congr ?_ (and_congr ?_ (by omega))
      · rw [div_lt_div_iff₀ two_pos two, one_mul, mul_comm]
        exact_mod_cast Iff.rfl
      · rw [div_eq_div_iff two.ne' two_ne_zero, one_mul, mul_comm]
        exact_mod_cast Iff.rfl
    have least : 2 ^ (s + 1) ≤ 2 * rem ↔ 1 / 2 ≤ (rem : ℚ) / 2 ^ (s + 1) := by
      rw [div_le_div_iff₀ two_pos two, one_mul, mul_comm]
      exact_mod_cast Iff.rfl
    have even : decide (lo % 2 = 0) = !decide (lo % 2 = 1) := by
      obtain h | h := Nat.mod_two_eq_zero_or_one lo
      · rw [h]
        rfl
      · rw [h]
        rfl
    have taken := takesUpper_iff rm neg some (fun _ => past) fun _ => least
    rw [even]
    by_cases up : takesUpper rm neg lo ((rem : ℚ) / 2 ^ (s + 1))
    · rw [if_pos (taken.2 up)]
      obtain ⟨nearest, exact⟩ := nearestInt_of_split split (.inl ⟨up, rfl⟩) sign
      exact ⟨_, rfl, nearest, decide_eq_true_iff.trans (marked.trans (not_congr exact.symm)),
        fun h => absurd h whole, fun _ => by omega⟩
    · rw [if_neg fun h => up (taken.1 h)]
      obtain ⟨nearest, exact⟩ := nearestInt_of_split split (.inr ⟨up, rfl⟩) sign
      exact ⟨_, rfl, nearest, decide_eq_true_iff.trans (marked.trans (not_congr exact.symm)),
        fun h => absurd h whole, fun _ => by omega⟩

theorem onTag_float {t : Tag} {f : Fmt} (ht : fmtOf t = some f) (i : Nat × Flags) (g : Fmt → Nat × Flags) : onTag t i g = g f := by
  unfold onTag
  rw [ht]

/-- `vround` of a finite value (R244). -/
theorem elRound_fin {t : Tag} {f : Fmt} (wide : f.Wide) (ht : fmtOf t = some f) (rm : BitVec 3) {a : Nat} {neg : Bool} {m : Nat} {e : Int}
    (value : f.decode a = .fin neg m e) :
    ∃ k m' e', nearestInt rm (Num.fin neg m e).val k ∧ f.decode (elRound rm t a).1 = .fin neg m' e' ∧ (f.decode (elRound rm t a).1).val = k
      ∧ (elRound rm t a).2 = if (Num.fin neg m e).val = k then 0 else fNX := by
  obtain ⟨n, integer, nearest, inexact, whole, few⟩ := roundInt_nearest rm neg m e
  have held : ∃ c, c ≤ f.big ∧ f.mag c = n ∧ ∀ neg, f.round rmRNE false neg n 0 false = (c + f.signBit neg, 0) := by
    obtain ⟨c, -, fits, -, rfl, rfl⟩ := Fmt.decode_fin value
    obtain ⟨width, -⟩ := f.mant_expo c
    by_cases large : n < 2 ^ (f.frac + 1)
    · exact wide.round_nat rmRNE false large
    · have pos : 0 < n := lt_of_lt_of_le (Nat.two_pow_pos _) (not_lt.1 large)
      have integral : 0 ≤ f.expo c := by
        by_contra fraction
        have := few (not_le.1 fraction)
        have := Nat.one_lt_two_pow (n := f.frac) (by have := wide.frac.1; omega)
        rw [pow_succ] at large width
        omega
      have eq : f.mag c = n := (whole integral).symm
      have nonzero : c ≠ 0 := by
        rintro rfl
        rw [Fmt.mag_zero] at eq
        exact pos.ne (by exact_mod_cast eq)
      have unit : (n : ℚ) * 2 ^ (0 : Int) = f.mag c := by rw [eq, zpow_zero, mul_one]
      obtain ⟨k, multiple⟩ := f.mag_multiple nonzero
      obtain ⟨d, hd, same, all⟩ := wide.sound.round_multiple rmRNE false pos 0 (by rw [unit]; exact multiple)
        (by rw [unit, wide.sound.val_big]; exact f.mag_strictMono.monotone fits)
      exact ⟨d, hd, by rw [same, unit, eq], all⟩
  obtain ⟨c, fits, eq, all⟩ := held
  have result : elRound rm t a = (c + f.signBit neg, if (roundInt rm neg m e).2 then fNX else 0) := by
    unfold elRound
    rw [onTag_float ht, value]
    dsimp only
    rw [integer, signedNat_natAbs_eq, all]
  refine ⟨signedNat neg n, f.mant c, f.expo c, nearest, ?_, ?_, ?_⟩
  · rw [result]
    exact wide.sound.decode fits neg
  · rw [result, (wide.sound.val_code fits neg).2, eq, signedNat_cast]
  · rw [result]
    dsimp only
    by_cases exact : (Num.fin neg m e).val = signedNat neg n
    · rw [if_pos exact, if_neg fun h => inexact.1 h exact]
    · rw [if_neg exact, if_pos (inexact.2 exact)]

end Sys2Proof.Machine
end

section
/-! PROOFS. Special functions at special inputs, at exact results, and their symmetries (R227 to R229). -/

namespace Sys2Proof.Machine
set_option Elab.async false

/-! The delivery of a computed value. -/

/-- A value that rounds without a flag is delivered as it is. -/
theorem deliverApprox_exact {fn : Special8} {f : Fmt} {t : Tag} {rm : BitVec 3} {b mag : Nat} {y : Approx} {c : Nat}
    (h : f.round rm false y.neg y.m y.e (!y.exact) = (c, 0)) : deliverApprox fn f t rm b mag y = (c, 0) := by
  unfold deliverApprox
  rw [h]
  exact if_pos (.inr (.inl rfl))

theorem special8_nan {f : Fmt} {a : Nat} {sig : Bool} (value : f.decode a = .nan sig) (fn : Special8) (t : Tag) (rm : BitVec 3) :
    f.special8 fn t rm a = (f.canon, if sig then fNV else 0) := by
  unfold Fmt.special8
  rw [value]

/-- A finite nonzero argument goes to the computed value, a negative one of a logarithm or a root to a NaN. -/
theorem special8_fin {f : Fmt} {a : Nat} {neg : Bool} {m : Nat} {e : Int} (value : f.decode a = .fin neg m e) (pos : 0 < m) (fn : Special8) (t : Tag)
    (rm : BitVec 3) (domain : fn = .log2 ∨ fn = .rsqrt → neg = false) :
    f.special8 fn t rm a = deliverApprox fn f t rm (fn.bound f m e) (a % 2 ^ (f.w - 1)) (fn.value neg m e) := by
  unfold Fmt.special8
  rw [value]
  dsimp only
  rw [if_neg pos.ne']
  cases fn with
  | log2 =>
    dsimp only
    rw [domain (.inl rfl)]
    rfl
  | rsqrt =>
    dsimp only
    rw [domain (.inr rfl)]
    rfl
  | _ => rfl

theorem special8_below_zero {f : Fmt} {a : Nat} {m : Nat} {e : Int} (value : f.decode a = .fin true m e) (pos : 0 < m) {fn : Special8}
    (domain : fn = .log2 ∨ fn = .rsqrt) (t : Tag) (rm : BitVec 3) : f.special8 fn t rm a = (f.canon, fNV) := by
  unfold Fmt.special8
  rw [value]
  dsimp only
  rw [if_neg pos.ne']
  obtain rfl | rfl := domain
  · rfl
  · rfl

/-! Reciprocals. -/

/-- The computed reciprocal and its mark stand for 1 / x. -/
theorem rcp_marks {m : Nat} (pos : 0 < m) (e : Int) :
    Marks (2 ^ (200 + Nat.log2 m) / m) (-(200 + Nat.log2 m : Int) - e) (!decide (m = 2 ^ Nat.log2 m)) (1 / (m * 2 ^ e)) := by
  have size : m ≤ 2 ^ (200 + Nat.log2 m) := Nat.lt_log2_self.le.trans (Nat.pow_le_pow_right two_pos (by omega))
  have split : (1 : ℚ) / (m * 2 ^ e) = ((2 ^ (200 + Nat.log2 m) : Nat) : ℚ) / m * 2 ^ (-(200 + Nat.log2 m : Int) - e) := by
    have hm : (m : ℚ) ≠ 0 := by exact_mod_cast pos.ne'
    push_cast
    rw [← zpow_natCast, div_mul_eq_mul_div, ← zpow_add₀ two_ne_zero, show ((200 + Nat.log2 m : Nat) : Int) + (-(200 + Nat.log2 m : Int) - e) = -e by
      push_cast; ring, zpow_neg]
    field_simp
  have unit : (0 : ℚ) < 2 ^ (-(200 + Nat.log2 m : Int) - e) := by positivity
  have hm : (0 : ℚ) < m := by exact_mod_cast pos
  have exact : 2 ^ (200 + Nat.log2 m) / m * m = 2 ^ (200 + Nat.log2 m) ↔ m = 2 ^ Nat.log2 m := by
    rw [← Nat.dvd_iff_div_mul_eq]
    constructor
    · intro h
      obtain ⟨j, -, hj⟩ := (Nat.dvd_prime_pow Nat.prime_two).1 h
      rw [hj, Nat.log2_two_pow]
    · intro h
      rw [h, Nat.log2_two_pow]
      exact pow_dvd_pow 2 (by omega)
  refine ⟨Nat.div_pos size pos, ?_, ?_, ?_⟩
  · rw [split]
    refine mul_le_mul_of_nonneg_right ?_ unit.le
    exact Nat.cast_div_le
  · rw [split]
    refine mul_lt_mul_of_pos_right ?_ unit
    rw [div_lt_iff₀ hm]
    exact_mod_cast (Nat.div_lt_iff_lt_mul pos).1 (Nat.lt_succ_self (2 ^ (200 + Nat.log2 m) / m))
  · rw [split, mul_lt_mul_iff_of_pos_right unit, lt_div_iff₀ hm, Bool.not_eq_true', decide_eq_false_iff_not, ← exact]
    refine (Nat.div_mul_le_self (2 ^ (200 + Nat.log2 m)) m).lt_iff_ne.symm.trans ?_
    exact_mod_cast Iff.rfl

/-- The computed reciprocal has more bits than any format. -/
theorem rcp_bits {m : Nat} (pos : 0 < m) : 199 ≤ Nat.log2 (2 ^ (200 + Nat.log2 m) / m) := by
  have size : 2 ^ 199 ≤ 2 ^ (200 + Nat.log2 m) / m := by
    rw [Nat.le_div_iff_mul_le pos]
    calc 2 ^ 199 * m ≤ 2 ^ 199 * 2 ^ (Nat.log2 m + 1) := Nat.mul_le_mul_left _ Nat.lt_log2_self.le
      _ = 2 ^ (200 + Nat.log2 m) := by ring
  exact (Nat.le_log2 (lt_of_lt_of_le (by positivity) size).ne').2 size

/-- `vrcp` is the correctly rounded reciprocal (R228). -/
theorem special8_rcp {f : Fmt} (wide : f.Wide) {a : Nat} {neg : Bool} {m : Nat} {e : Int} (value : f.decode a = .fin neg m e) (pos : 0 < m) (t : Tag)
    (rm : BitVec 3) : RoundsTo f rm neg (1 / (m * 2 ^ e)) (f.special8 .rcp t rm a) := by
  rw [special8_fin value pos .rcp t rm (fun h => by cases h <;> contradiction)]
  have frac := wide.frac.2
  have bits := rcp_bits pos
  have rounded : deliverApprox .rcp f t rm (Special8.rcp.bound f m e) (a % 2 ^ (f.w - 1)) (Special8.rcp.value neg m e)
      = f.round rm false neg (2 ^ (200 + Nat.log2 m) / m) (-(200 + Nat.log2 m : Int) - e) (!decide (m = 2 ^ Nat.log2 m)) := by
    unfold deliverApprox
    exact if_pos (.inl (if_pos (.inr rfl)))
  rw [rounded]
  exact (rcp_marks pos e).roundsTo wide.sound rm false neg fun _ => .inl (by omega)

/-! Exact powers and logarithms (R227). -/

theorem log2_of_val {neg : Bool} {m : Nat} (pos : 0 < m) {e : Int} : Int.log 2 |(Num.fin neg m e).val| = Nat.log2 m + e := by
  rw [Num.abs_val_fin]
  exact (Marks.exact pos e).log

/-- `vexp2` of an integer k whose power the format holds. -/
theorem special8_exp2 {f : Fmt} (wide : f.Wide) {a : Nat} {neg : Bool} {m : Nat} {e : Int} (value : f.decode a = .fin neg m e) (pos : 0 < m) {k : Int}
    (integer : (Num.fin neg m e).val = k) (low : f.emin - f.frac ≤ k) (fits : (2 : ℚ) ^ k ≤ (f.decode f.big).val) (t : Tag) (rm : BitVec 3) :
    ∃ c, c ≤ f.big ∧ f.mag c = 2 ^ k ∧ f.special8 .exp2 t rm a = (c, 0) := by
  have top : k < 1024 := by
    have big : (f.decode f.big).val < 2 ^ (1024 : Int) := by
      rw [wide.sound.val_big]
      unfold Fmt.mag
      calc (f.mant f.big : ℚ) * 2 ^ f.expo f.big < 2 ^ (53 : Nat) * 2 ^ f.expo f.big := by
            refine mul_lt_mul_of_pos_right ?_ (by positivity)
            have few := (f.mant_expo f.big).1
            have := Nat.pow_le_pow_right two_pos (show f.frac + 1 ≤ 53 by have := wide.frac.2; omega)
            exact_mod_cast few.trans_le this
        _ ≤ 2 ^ (53 : Nat) * 2 ^ (971 : Int) := mul_le_mul_of_nonneg_left (zpow_le_zpow_right₀ one_le_two wide.expo_big.2) (by positivity)
        _ = 2 ^ (1024 : Int) := by
          rw [← zpow_natCast, ← zpow_add₀ two_ne_zero]
          norm_num
    exact (zpow_lt_zpow_iff_right₀ one_lt_two).1 (fits.trans_lt big)
  have bottom : -1074 ≤ k := wide.emin.2.trans low
  have nonzero : k ≠ 0 := by
    rintro rfl
    rw [Int.cast_zero, Num.val_fin_eq_zero] at integer
    exact pos.ne' integer
  have size : (m : ℚ) * 2 ^ e = (k.natAbs : Nat) := by
    rw [← Num.abs_val_fin neg, integer, Nat.cast_natAbs, Int.cast_abs]
  have small : ¬ large m e 14 = true := by
    unfold large
    rw [decide_eq_true_iff, ← log2_of_val (neg := neg) pos, Num.abs_val_fin, size, Int.log_natCast]
    have : Nat.log 2 k.natAbs < 14 := Nat.log_lt_of_lt_pow (by omega) (by omega)
    push_cast
    omega
  have whole : (0 ≤ e ∨ m % 2 ^ (-e).toNat = 0) ∧ (if 0 ≤ e then m * 2 ^ e.toNat else m / 2 ^ (-e).toNat) = k.natAbs := by
    by_cases integral : 0 ≤ e
    · refine ⟨.inl integral, ?_⟩
      rw [if_pos integral]
      have : ((m * 2 ^ e.toNat : Nat) : ℚ) = (k.natAbs : Nat) := by
        rw [← size]
        push_cast
        rw [← zpow_natCast, Int.toNat_of_nonneg integral]
      exact_mod_cast this
    · have eq : m = k.natAbs * 2 ^ (-e).toNat := by
        have : (m : ℚ) = ((k.natAbs * 2 ^ (-e).toNat : Nat) : ℚ) := by
          push_cast
          rw [← size, ← zpow_natCast, Int.toNat_of_nonneg (by omega), mul_assoc, ← zpow_add₀ two_ne_zero]
          simp
        exact_mod_cast this
      rw [if_neg integral, eq]
      exact ⟨.inr (Nat.mul_mod_left ..), Nat.mul_div_cancel _ (Nat.two_pow_pos _)⟩
  have sign : signedNat neg k.natAbs = k := by
    have := Num.val_fin_neg (neg := neg) pos e
    rw [integer] at this
    rw [← this]
    have cast : decide ((k : ℚ) < 0) = decide (k < 0) := by
      rw [decide_eq_decide]
      exact_mod_cast Iff.rfl
    rw [cast]
    exact signedNat_natAbs k
  obtain ⟨c, hc, eq, all⟩ := wide.round_two_zpow rm false low fits
  refine ⟨c, hc, eq, ?_⟩
  rw [special8_fin value pos .exp2 t rm (fun h => by cases h <;> contradiction)]
  have computed : Special8.exp2.value neg m e = ⟨false, 1, k, true⟩ := by
    unfold Special8.value
    dsimp only
    rw [if_neg small, if_pos whole.1, whole.2, sign]
  rw [computed]
  exact deliverApprox_exact (all false)

/-- `vlog2` of a power of two. -/
theorem special8_log2 {f : Fmt} (wide : f.Wide) {a : Nat} {neg : Bool} {m : Nat} {e : Int} (value : f.decode a = .fin neg m e) {k : Int}
    (power : (Num.fin neg m e).val = 2 ^ k) (t : Tag) (rm : BitVec 3) :
    ∃ c, c ≤ f.big ∧ f.mag c = k.natAbs ∧ f.special8 .log2 t rm a = (c + f.signBit (decide (k < 0)), 0) := by
  have above : (0 : ℚ) < 2 ^ k := by positivity
  have pos : 0 < m := Nat.pos_of_ne_zero fun h => above.ne (by rw [← power, Num.val_fin_eq_zero.2 h])
  obtain rfl : neg = false := by
    rw [← Num.val_fin_neg (neg := neg) pos e, power]
    exact decide_eq_false (not_lt.2 above.le)
  have log : (Nat.log2 m : Int) + e = k := by
    rw [← log2_of_val (neg := false) pos, power, abs_of_pos above]
    exact_mod_cast Int.log_zpow (R := ℚ) one_lt_two k
  have mantissa : m = 2 ^ Nat.log2 m := by
    have : (m : ℚ) = ((2 ^ Nat.log2 m : Nat) : ℚ) := by
      have unit : (0 : ℚ) < 2 ^ e := by positivity
      refine mul_right_cancel₀ unit.ne' ?_
      rw [← Num.abs_val_fin false, power, abs_of_pos above, ← log]
      push_cast
      rw [zpow_add₀ two_ne_zero, zpow_natCast]
    exact_mod_cast this
  have few : k.natAbs < 2 ^ (f.frac + 1) := by
    obtain ⟨c, -, fits, -, rfl, rfl⟩ := Fmt.decode_fin value
    obtain ⟨width, low, -⟩ := f.mant_expo c
    have high := f.expo_mono fits
    have bits : Nat.log2 (f.mant c) ≤ f.frac := by
      rw [Nat.log2_eq_log_two]
      exact Nat.lt_succ_iff.1 (Nat.log_lt_of_lt_pow pos.ne' width)
    obtain ⟨under, over_⟩ := wide.logs
    zify
    rw [abs_lt]
    constructor <;> omega
  obtain ⟨c, hc, eq, all⟩ := wide.round_nat rm false few
  refine ⟨c, hc, eq, ?_⟩
  rw [special8_fin value pos .log2 t rm fun _ => rfl]
  have computed : Special8.log2.value false m e = ⟨decide (k < 0), k.natAbs, 0, true⟩ := by
    unfold Special8.value
    dsimp only
    rw [if_pos mantissa, add_comm e, log]
  rw [computed]
  exact deliverApprox_exact (all _)

/-! Symmetries (R227). -/

/-- The sign bit of a magnitude changed. -/
theorem flip_signBit {f : Fmt} (sound : f.Sound) {c : Nat} (below : c < 2 ^ (f.w - 1)) (neg : Bool) :
    (c + f.signBit neg + 2 ^ (f.w - 1)) % 2 ^ f.w = c + f.signBit (!neg) := by
  have double : 2 ^ f.w = 2 ^ (f.w - 1) + 2 ^ (f.w - 1) := by
    rw [← two_mul, ← pow_succ', Nat.sub_add_cancel sound.pos]
  unfold Fmt.signBit
  rw [double]
  cases neg with
  | false => exact Nat.mod_eq_of_lt (by simpa using below)
  | true =>
    simp only [if_true, Bool.not_true, Bool.false_eq_true, if_false]
    rw [Nat.add_assoc, Nat.add_mod_right]
    exact Nat.mod_eq_of_lt (by omega)

/-- A code is its magnitude with its sign bit. -/
theorem code_split {f : Fmt} (sound : f.Sound) {a : Nat} (ha : a < 2 ^ f.w) :
    a = a % 2 ^ (f.w - 1) + f.signBit (a / 2 ^ (f.w - 1) % 2 == 1) := by
  have double : 2 ^ f.w = 2 * 2 ^ (f.w - 1) := by rw [← pow_succ', Nat.sub_add_cancel sound.pos]
  have quotient : a / 2 ^ (f.w - 1) < 2 := by
    rw [Nat.div_lt_iff_lt_mul (Nat.two_pow_pos _), ← double]
    exact ha
  have split := Nat.div_add_mod' a (2 ^ (f.w - 1))
  unfold Fmt.signBit
  generalize a / 2 ^ (f.w - 1) = q at quotient split
  obtain rfl | rfl : q = 0 ∨ q = 1 := by omega
  · simpa using split.symm
  · simp only [Nat.mod_succ, beq_self_eq_true, if_true]
    omega

theorem flip_decode {f : Fmt} (sound : f.Sound) {a : Nat} (ha : a < 2 ^ f.w) {neg : Bool} {m : Nat} {e : Int} (value : f.decode a = .fin neg m e) :
    f.decode ((a + 2 ^ (f.w - 1)) % 2 ^ f.w) = .fin (!neg) m e ∧ (a + 2 ^ (f.w - 1)) % 2 ^ f.w % 2 ^ (f.w - 1) = a % 2 ^ (f.w - 1) := by
  obtain ⟨c, hc, fits, rfl, rfl, rfl⟩ := Fmt.decode_fin value
  have below : c < 2 ^ (f.w - 1) := fits.trans_lt sound.big
  have whole := code_split sound ha
  rw [← hc] at whole
  have flipped := flip_signBit sound below (a / 2 ^ (f.w - 1) % 2 == 1)
  rw [← whole] at flipped
  rw [flipped, ← hc]
  refine ⟨sound.decode fits _, ?_⟩
  cases (!(a / 2 ^ (f.w - 1) % 2 == 1)) with
  | false => simp [Fmt.signBit, Nat.mod_eq_of_lt below]
  | true => simp [Fmt.signBit, Nat.mod_eq_of_lt below]

/-- Where the mode does not look at the sign, `round` delivers one magnitude and the same flags for both signs. -/
theorem Fmt.Wide.round_signs {f : Fmt} (wide : f.Wide) {rm : BitVec 3} (symmetric : rm = rmRNE ∨ rm = rmRTZ ∨ rm = rmRNA) (sat : Bool) (m : Nat) (e : Int)
    (sticky : Bool) : ∃ c fl, c < 2 ^ (f.w - 1) ∧ ∀ neg, f.round rm sat neg m e sticky = (c + f.signBit neg, fl) := by
  have down : ¬ rm = rmRDN := by obtain rfl | rfl | rfl := symmetric <;> decide
  have up : ¬ rm = rmRUP := by obtain rfl | rfl | rfl := symmetric <;> decide
  have big := wide.inf
  by_cases zero : m = 0 ∧ (!sticky) = true
  · exact ⟨0, 0, Nat.two_pow_pos _, fun neg => (if_pos zero).trans (by rw [Nat.zero_add])⟩
  · have same (neg : Bool) : f.roundCode rm neg m e sticky = f.roundCode rm false m e sticky := by
      unfold Fmt.roundCode Fmt.roundsUp
      rw [if_neg down, if_neg down, if_neg up, if_neg up]
    have value (neg : Bool) := f.round_eq rm sat neg e zero
    simp only [same] at value
    by_cases over_ : f.big < f.roundCode rm false m e sticky
    · refine ⟨if (rm == rmRNE || rm == rmRNA || rm == rmRUP) && !sat then f.big + 1 else f.big, fOF ||| fNX, ?_, fun neg => ?_⟩
      · split_ifs <;> omega
      · rw [value, if_pos over_]
        unfold Fmt.overflow
        rw [wide.infCode]
        dsimp only
        split_ifs <;> rfl
    · exact ⟨_, _, (not_lt.1 over_).trans_lt wide.sound.big, fun neg => (value neg).trans (if_neg over_)⟩

/-- The same approximation with another sign. -/
def Approx.withSign (y : Approx) (neg : Bool) : Approx := { y with neg := neg }

theorem deliverApprox_signs {f : Fmt} (wide : f.Wide) {rm : BitVec 3} (symmetric : rm = rmRNE ∨ rm = rmRTZ ∨ rm = rmRNA) (fn : Special8) (t : Tag) (b mag : Nat)
    (y : Approx) : ∃ c fl, c < 2 ^ (f.w - 1) ∧ ∀ neg, deliverApprox fn f t rm b mag (y.withSign neg) = (c + f.signBit neg, fl) := by
  obtain ⟨c, fl, below, all⟩ := wide.round_signs symmetric false y.m y.e (!y.exact)
  have same (neg : Bool) : withinUlp f b (y.withSign neg) = withinUlp f b y := rfl
  have rounded (neg : Bool) : f.round rm false (y.withSign neg).neg (y.withSign neg).m (y.withSign neg).e (!(y.withSign neg).exact) = (c + f.signBit neg, fl) :=
    all neg
  unfold deliverApprox
  simp only [rounded, same]
  by_cases plain : b = 0 ∨ fl = 0 ∨ fl &&& fOF ≠ 0
  · exact ⟨c, fl, below, fun neg => if_pos plain⟩
  · simp only [if_neg plain]
    by_cases none : (withinUlp f b y).isEmpty = true
    · exact ⟨c, fl, below, fun neg => if_pos none⟩
    · refine ⟨_, fl, ?_, fun neg => if_neg none⟩
      have some : 0 < (withinUlp f b y).length := List.length_pos_iff.2 fun h => none (by rw [h]; rfl)
      have index := Nat.mod_lt (Config.specialSlack fn.code t.toNat mag) some
      rw [List.getD_eq_getElem _ _ index]
      refine lt_of_le_of_lt ?_ wide.sound.big
      have member := List.getElem_mem index
      unfold withinUlp at member
      rw [List.mem_filter, Bool.and_eq_true, decide_eq_true_iff] at member
      exact member.2.1

/-! The quarter turns of an argument. -/

/-- Bits after the point of the argument of `vsin` and `vcos`, a quarter turn and the argument in those bits. -/
def turnBits (m : Nat) (e : Int) : Nat := prec + 64 + (e + Nat.log2 m).toNat
def quarterTurn (m : Nat) (e : Int) : Nat := piFix (turnBits m e + 1) / 4
def turnFix (m : Nat) (e : Int) : Nat :=
  if 0 ≤ e + turnBits m e then m * 2 ^ (e + turnBits m e).toNat else m / 2 ^ (-(e + turnBits m e)).toNat
/-- The quarter turns in it and what is left. -/
def turns (m : Nat) (e : Int) : Nat := turnFix m e / quarterTurn m e
def turnRest (m : Nat) (e : Int) : Nat := turnFix m e % quarterTurn m e / 2 ^ (turnBits m e - prec)
/-- The magnitude of sin after q quarter turns and a rest. -/
def turnValue (q r : Nat) : Nat := if q % 2 = 0 then sinFix prec r else cosFix prec r

theorem sin_value {m : Nat} {e : Int} (large : ¬ tiny m e 100 = true) (neg : Bool) :
    Special8.sin.value neg m e = ⟨decide (2 ≤ turns m e % 4) != neg, turnValue (turns m e % 4) (turnRest m e), -(prec : Int), false⟩ :=
  if_neg large

theorem cos_value {m : Nat} {e : Int} (large : ¬ tiny m e 100 = true) (neg : Bool) :
    Special8.cos.value neg m e = ⟨decide (2 ≤ (turns m e + 1) % 4) != false, turnValue ((turns m e + 1) % 4) (turnRest m e), -(prec : Int), false⟩ :=
  if_neg large

/-- The odd functions change the sign of what they compute, `vcos` nothing. -/
theorem value_odd {fn : Special8} (odd : fn ∈ [Special8.sin, .tanh, .rcp]) (m : Nat) (e : Int) (neg : Bool) :
    fn.value (!neg) m e = (fn.value neg m e).withSign (!(fn.value neg m e).neg) := by
  simp only [List.mem_cons, List.not_mem_nil, or_false] at odd
  obtain rfl | rfl | rfl := odd
  · by_cases small : tiny m e 100 = true
    · have value (neg : Bool) : Special8.sin.value neg m e = below neg m e := if_pos small
      rw [value, value]
      rfl
    · rw [sin_value small, sin_value small]
      unfold Approx.withSign
      dsimp only
      rw [Bool.bne_not]
  · unfold Special8.value
    dsimp only
    split_ifs <;> rfl
  · rfl

theorem value_cos (m : Nat) (e : Int) (neg : Bool) : Special8.cos.value (!neg) m e = Special8.cos.value neg m e := rfl

/-- `vsin`, `vtanh` and `vrcp` are odd where the mode does not look at the sign. -/
theorem special8_odd {f : Fmt} (wide : f.Wide) {rm : BitVec 3} (symmetric : rm = rmRNE ∨ rm = rmRTZ ∨ rm = rmRNA) {fn : Special8}
    (odd : fn ∈ [Special8.sin, .tanh, .rcp]) (t : Tag) {a : Nat} (ha : a < 2 ^ f.w) (finite : (f.decode a).finite) :
    f.special8 fn t rm ((a + 2 ^ (f.w - 1)) % 2 ^ f.w) = (((f.special8 fn t rm a).1 + 2 ^ (f.w - 1)) % 2 ^ f.w, (f.special8 fn t rm a).2) := by
  cases value : f.decode a with
  | inf =>
    rw [value] at finite
    exact finite.elim
  | nan =>
    rw [value] at finite
    exact finite.elim
  | fin neg m e =>
    obtain ⟨flipped, magnitude⟩ := flip_decode wide.sound ha value
    have domain : fn = .log2 ∨ fn = .rsqrt → ∀ b : Bool, b = false := by
      rintro (rfl | rfl)
      · exact absurd odd (by decide)
      · exact absurd odd (by decide)
    obtain rfl | pos := Nat.eq_zero_or_pos m
    · unfold Fmt.special8
      rw [flipped, value]
      simp only [if_true]
      have zero := flip_signBit wide.sound (Nat.two_pow_pos (f.w - 1)) neg
      have infinity := flip_signBit wide.sound wide.inf neg
      simp only [List.mem_cons, List.not_mem_nil, or_false] at odd
      obtain rfl | rfl | rfl := odd
      · simpa using zero.symm
      · simpa using zero.symm
      · simpa [wide.infCode] using infinity.symm
    · rw [special8_fin flipped pos fn t rm (fun h => domain h _), special8_fin value pos fn t rm (fun h => domain h _), magnitude, value_odd odd]
      generalize fn.value neg m e = y
      obtain ⟨c, fl, below, all⟩ := deliverApprox_signs wide symmetric fn t (fn.bound f m e) (a % 2 ^ (f.w - 1)) y
      rw [all, show y = y.withSign y.neg from rfl, all]
      exact Prod.ext (flip_signBit wide.sound below _).symm rfl

theorem special8_even {f : Fmt} (wide : f.Wide) (rm : BitVec 3) (t : Tag) {a : Nat} (ha : a < 2 ^ f.w) (finite : (f.decode a).finite) :
    f.special8 .cos t rm ((a + 2 ^ (f.w - 1)) % 2 ^ f.w) = f.special8 .cos t rm a := by
  cases value : f.decode a with
  | inf =>
    rw [value] at finite
    exact finite.elim
  | nan =>
    rw [value] at finite
    exact finite.elim
  | fin neg m e =>
    obtain ⟨flipped, magnitude⟩ := flip_decode wide.sound ha value
    obtain rfl | pos := Nat.eq_zero_or_pos m
    · unfold Fmt.special8
      rw [flipped, value]
      simp only [if_true]
    · rw [special8_fin flipped pos .cos t rm (fun h => by cases h <;> contradiction), special8_fin value pos .cos t rm (fun h => by cases h <;> contradiction),
        magnitude, value_cos]

/-! Special inputs (Table 10-10). -/

/-- A finite result of a given value, without a flag. -/
def Fmt.gives (f : Fmt) (v : ℚ) (r : Nat × Flags) : Prop := (f.decode r.1).finite ∧ (f.decode r.1).val = v ∧ r.2 = 0

theorem Fmt.Wide.gives_code {f : Fmt} (wide : f.Wide) {c : Nat} (fits : c ≤ f.big) {neg : Bool} {v : ℚ} (value : (if neg then -1 else 1) * f.mag c = v) :
    f.gives v (c + f.signBit neg, 0) := by
  obtain ⟨finite, val⟩ := wide.sound.val_code fits neg
  exact ⟨finite, val.trans value, rfl⟩

theorem Fmt.Wide.gives_zero {f : Fmt} (wide : f.Wide) : f.gives 0 (0, 0) := by
  have code := wide.gives_code (Nat.zero_le f.big) (neg := false) (v := 0) (by simp)
  exact code

/-- The code of 1, with either sign. -/
theorem Fmt.Wide.gives_one {f : Fmt} (wide : f.Wide) (neg : Bool) :
    f.gives (if neg then -1 else 1) ((f.round rmRNE false false 1 0 false).1 + f.signBit neg, 0) := by
  have few : 1 < 2 ^ (f.frac + 1) := Nat.one_lt_two_pow (Nat.succ_ne_zero _)
  obtain ⟨c, fits, one, all⟩ := wide.round_nat rmRNE false few
  have code := wide.gives_code fits (neg := neg) (v := if neg then -1 else 1) (by rw [one]; simp)
  rw [all]
  exact code

theorem Fmt.Wide.gives_half {f : Fmt} (wide : f.Wide) : f.gives (1 / 2) ((f.round rmRNE false false 1 (-1) false).1, 0) := by
  obtain ⟨small, -⟩ := wide.emin
  obtain ⟨frac, -⟩ := wide.frac
  obtain ⟨c, fits, half, all⟩ := wide.round_two_zpow (k := -1) rmRNE false (by omega)
    (le_trans (by rw [zpow_neg_one]; exact (by norm_num : (2 : ℚ)⁻¹ ≤ 1).trans (one_le_pow₀ one_le_two)) wide.big_le)
  have code := wide.gives_code fits (neg := false) (v := 1 / 2) (by rw [half]; norm_num)
  rw [all]
  exact code

end Sys2Proof.Machine
end

section
/-! PROOFS. The special inputs of Table 10-10, and the values of elements (R202, R227 to R229, R237 to R244). -/

namespace Sys2Proof.Machine
set_option Elab.async false
theorem elRound_nan {t : Tag} {f : Fmt} (ht : fmtOf t = some f) (rm : BitVec 3) {a : Nat} {sig : Bool} (value : f.decode a = .nan sig) :
    elRound rm t a = (f.canon, if sig then fNV else 0) := by
  unfold elRound
  rw [onTag_float ht, value]

theorem elRound_inf {t : Tag} {f : Fmt} (ht : fmtOf t = some f) (rm : BitVec 3) {a : Nat} {neg : Bool} (value : f.decode a = .inf neg) :
    elRound rm t a = (f.infCode neg, 0) := by
  unfold elRound
  rw [onTag_float ht, value]

theorem Num.finite_iff {x : Num} : x.finite ↔ ∃ neg m e, x = .fin neg m e := by
  constructor
  · intro h
    cases x with
    | fin neg m e => exact ⟨neg, m, e, rfl⟩
    | inf => exact h.elim
    | nan => exact h.elim
  · rintro ⟨neg, m, e, rfl⟩
    trivial

/-- Table 10-10 at infinities. -/
theorem special8_inf {f : Fmt} (wide : f.Wide) {a : Nat} {neg : Bool} (value : f.decode a = .inf neg) (t : Tag) (rm : BitVec 3) :
    f.special8 .exp2 t rm a = (if neg then 0 else f.infCode false, 0) ∧ f.special8 .exp t rm a = (if neg then 0 else f.infCode false, 0)
    ∧ f.special8 .log2 t rm a = (if neg then (f.canon, fNV) else (f.infCode false, 0)) ∧ f.special8 .rcp t rm a = (f.signBit neg, 0)
    ∧ f.special8 .rsqrt t rm a = (if neg then (f.canon, fNV) else (0, 0)) ∧ f.special8 .sin t rm a = (f.canon, fNV)
    ∧ f.special8 .cos t rm a = (f.canon, fNV) ∧ f.gives (if neg then -1 else 1) (f.special8 .tanh t rm a)
    ∧ f.gives (if neg then 0 else 1) (f.special8 .sigmoid t rm a) := by
  have one := wide.gives_one false
  unfold Fmt.special8
  rw [value]
  refine ⟨rfl, rfl, rfl, rfl, rfl, rfl, rfl, wide.gives_one neg, ?_⟩
  cases neg with
  | true => exact wide.gives_zero
  | false => exact one

/-- Table 10-10 at zeros. -/
theorem special8_zero {f : Fmt} (wide : f.Wide) {a : Nat} {neg : Bool} {e : Int} (value : f.decode a = .fin neg 0 e) (t : Tag) (rm : BitVec 3) :
    f.gives 1 (f.special8 .exp2 t rm a) ∧ f.gives 1 (f.special8 .exp t rm a) ∧ f.special8 .log2 t rm a = (f.infCode true, fDZ)
    ∧ f.special8 .rcp t rm a = (f.infCode neg, fDZ) ∧ f.special8 .rsqrt t rm a = (f.infCode neg, fDZ) ∧ f.special8 .sin t rm a = (f.signBit neg, 0)
    ∧ f.gives 1 (f.special8 .cos t rm a) ∧ f.special8 .tanh t rm a = (f.signBit neg, 0) ∧ f.gives (1 / 2) (f.special8 .sigmoid t rm a) := by
  have one := wide.gives_one false
  unfold Fmt.special8
  rw [value]
  exact ⟨one, one, rfl, rfl, rfl, rfl, one, rfl, wide.gives_half⟩

end Sys2Proof.Machine

open Sys2Proof Sys2Proof.Machine

/-- Settles O21: integer rows by the bits of an exact result (`bitsOf_add` to `intClamp_value`), `vround` by the integer it rounds to (`elRound_fin`), `vrcp` by the
quotient that it rounds once (`special8_rcp`), exact powers and logarithms by their codes, and the symmetries because `round` takes one magnitude for both signs. -/
theorem elementValues : Obligations.ElementValues := by
  unfold Obligations.ElementValues
  refine ⟨fun t rm a b int ha hb => ?_, fun t f a tag ht _ => ?_, fun t f rm a wideTag ht _ ha => ?_⟩
  · intro w fits
    have range (v : Int) : fits v ↔ InRange t v := (inRange_iff t v).symm
    have low : (if isSigned t then -(2 : Int) ^ (w - 1) else 0) = intMin t := by
      unfold intMin
      push_cast
      rfl
    have high : (if isSigned t then (2 : Int) ^ (w - 1) - 1 else 2 ^ w - 1) = intMax t := by
      unfold intMax
      push_cast
      rfl
    have sum := intClamp_value int (intOf t a + intOf t b)
    have difference := intClamp_value int (intOf t a - intOf t b)
    have exact_ {v : Int} (h : InRange t v) : intOf t (intClamp t v).1 = v := by
      rw [(intClamp_value int v).1, min_eq_right h.2, max_eq_right h.1]
    simp only [range, low, high]
    have shr : (elShr t a b).1 = a / 2 ^ b := by
      unfold elShr
      split_ifs with within
      · rfl
      · exact (Nat.div_eq_of_lt (ha.trans_le (Nat.pow_le_pow_right two_pos (not_lt.1 within)))).symm
    have mulh : elMulh t a b = ((intOf t a * intOf t b / 2 ^ w % 2 ^ w).toNat, 0) := by
      unfold elMulh bitsOf
      push_cast
      rfl
    have rem : elRem t a b = if b = 0 then (a, fDZ) else (((intOf t a).tmod (intOf t b) % 2 ^ w).toNat, 0) := by
      unfold elRem bitsOf
      rw [onTag_int int]
      simp only [intOf_eq_zero int hb, Nat.mod_eq_of_lt ha]
      push_cast
      rfl
    unfold elAdd elSub elMul
    rw [onTag_int int, onTag_int int, onTag_int int]
    exact ⟨bitsOf_add t, (intWrap_flag t _).1, bitsOf_sub hb, (intWrap_flag t _).1, bitsOf_mul t, (intWrap_flag t _).1, rfl, shr, rfl, rfl,
      fun k hk => elSra_testBit int ha b hk, bitsOf_lt _ _, rfl, (intWrap_flag t _).2, (intWrap_flag t _).2, (intWrap_flag t _).2,
      ⟨sum, difference, mulh, elDiv_int int rm ha hb, rem⟩, exact_, exact_, elMinMax_int int ha hb⟩
  · exact (onTag_float ht _ _).trans (congrArg (·, 0) classOf_eq)
  · have wide := fmtOf_wide wideTag ht
    intro x sp is
    have value : f.decode a = x := rfl
    clear_value x
    have gives {fn : Special8} {v : ℚ} (h : f.gives v (sp fn)) : is fn v := h
    refine ⟨?_, fun sig fn h => special8_nan (value.trans h) fn t rm, fun neg h => special8_inf wide (value.trans h) t rm,
      fun neg e h => special8_zero wide (value.trans h) t rm,
      fun finite negative => ?_, fun finite nonzero => ?_, fun k finite integer low top => ?_, fun k finite power => ?_, fun finite => ⟨fun symmetric fn odd => ?_, ?_⟩⟩
    · cases x with
      | nan sig => exact elRound_nan ht rm value
      | inf neg => exact elRound_inf ht rm value
      | fin neg m e => exact elRound_fin wide ht rm value
    · obtain ⟨neg, m, e, rfl⟩ := Num.finite_iff.1 finite
      have pos : 0 < m := Nat.pos_of_ne_zero fun h => negative.ne (Num.val_fin_eq_zero.2 h)
      obtain rfl : neg = true := by
        rw [← Num.val_fin_neg (neg := neg) pos e]
        exact decide_eq_true negative
      exact ⟨special8_below_zero value pos (.inl rfl) t rm, special8_below_zero value pos (.inr rfl) t rm⟩
    · obtain ⟨neg, m, e, rfl⟩ := Num.finite_iff.1 finite
      have pos : 0 < m := Nat.pos_of_ne_zero fun h => nonzero (Num.val_fin_eq_zero.2 h)
      rw [Num.val_fin_neg pos, Num.abs_val_fin]
      exact special8_rcp wide value pos t rm
    · obtain ⟨neg, m, e, rfl⟩ := Num.finite_iff.1 finite
      obtain rfl | pos := Nat.eq_zero_or_pos m
      · obtain rfl : k = 0 := by
          rw [Num.val_fin_eq_zero.2 rfl] at integer
          exact_mod_cast integer.symm
        rw [zpow_zero]
        exact (special8_zero wide value t rm).1
      · obtain ⟨c, fits, power, result⟩ := special8_exp2 wide value pos integer low top t rm
        have code := wide.gives_code fits (neg := false) (v := 2 ^ k) (by rw [power]; simp)
        show f.gives _ _
        rw [show sp .exp2 = _ from result]
        exact code
    · obtain ⟨neg, m, e, rfl⟩ := Num.finite_iff.1 finite
      obtain ⟨c, fits, size, result⟩ := special8_log2 wide value power t rm
      show f.gives _ _
      rw [show sp .log2 = _ from result]
      refine wide.gives_code fits ?_
      rw [size, ← signedNat_cast, signedNat_natAbs]
    · exact special8_odd wide symmetric odd t ha (value ▸ finite)
    · exact special8_even wide rm t ha (value ▸ finite)

end

section
/-! PROOFS. The series of the special functions in fixed point: how far the computed sums stand from the functions. -/

namespace Sys2Proof.Machine
open Finset

/-! Floors. -/

theorem div_le_real (a b : ℕ) : ((a / b : ℕ) : ℝ) ≤ (a : ℝ) / b := Nat.cast_div_le

theorem real_lt_div {b : ℕ} (pos : 0 < b) (a : ℕ) : (a : ℝ) / b < (a / b : ℕ) + 1 := by
  rw [div_lt_iff₀ (by exact_mod_cast pos)]
  exact_mod_cast (Nat.div_lt_iff_lt_mul pos).1 (Nat.lt_succ_self (a / b))

/-! e^x (R227). -/

/-- A term of the series of e^t in units of 2^-p. -/
noncomputable def expTerm (p : ℕ) (t : ℝ) (j : ℕ) : ℝ := 2 ^ p * (t ^ j / j.factorial)

theorem expTerm_succ (p : ℕ) (t : ℝ) (j : ℕ) : expTerm p t (j + 1) = expTerm p t j * t / (j + 1 : ℕ) := by
  unfold expTerm
  rw [Nat.factorial_succ, pow_succ]
  push_cast
  field_simp

/-- One computed term after another: floored, it loses no more than it has lost before and one unit. -/
theorem expTerm_step {p x j term : ℕ} {t : ℝ} (ht : t = x / 2 ^ p) (top : t ≤ 1) (le : (term : ℝ) ≤ expTerm p t j) (near : expTerm p t j - term ≤ j) :
    ((term * x / 2 ^ p / (j + 1) : ℕ) : ℝ) ≤ expTerm p t (j + 1) ∧ expTerm p t (j + 1) - (term * x / 2 ^ p / (j + 1) : ℕ) ≤ 2
      ∧ expTerm p t (j + 1) - (term * x / 2 ^ p / (j + 1) : ℕ) ≤ (j + 1 : ℕ) := by
  have nonneg : 0 ≤ t := by
    rw [ht]
    positivity
  have scale : ((term * x : ℕ) : ℝ) / ((2 ^ p * (j + 1) : ℕ) : ℝ) = term * t / (j + 1 : ℕ) := by
    rw [ht]
    push_cast
    field_simp
  have low := div_le_real (term * x) (2 ^ p * (j + 1))
  have high := real_lt_div (b := 2 ^ p * (j + 1)) (by positivity) (term * x)
  rw [scale] at low high
  rw [Nat.div_div_eq_div_mul, expTerm_succ]
  have pos : (0 : ℝ) < (j + 1 : ℕ) := by positivity
  refine ⟨low.trans (by gcongr), ?_⟩
  have loss : expTerm p t j * t / (j + 1 : ℕ) - term * t / (j + 1 : ℕ) ≤ j / (j + 1 : ℕ) := by
    rw [← sub_div, ← sub_mul]
    gcongr
    have lost : 0 ≤ expTerm p t j - term := sub_nonneg.2 le
    calc (expTerm p t j - term) * t ≤ (expTerm p t j - term) * 1 := by gcongr
      _ ≤ j := by rw [mul_one]; exact near
  have unit : (j : ℝ) / (j + 1 : ℕ) ≤ 1 := by
    rw [div_le_one pos]
    push_cast
    linarith only
  have less : (j : ℝ) / (j + 1 : ℕ) ≤ j := div_le_self (Nat.cast_nonneg j) (by push_cast; linarith only [Nat.cast_nonneg (α := ℝ) j])
  push_cast at high loss unit less ⊢
  constructor <;> linarith only [high, loss, unit, less]

theorem expSeries_bounds {p x : ℕ} {t : ℝ} (ht : t = x / 2 ^ p) (top : t ≤ 1) (fuel : ℕ) : ∀ j term acc : ℕ, (term : ℝ) ≤ expTerm p t j →
    expTerm p t j - term ≤ 2 → expTerm p t j - term ≤ j →
    acc + ∑ k ∈ range fuel, expTerm p t (j + k) - 2 * fuel ≤ expSeries p x fuel (j + 1) term acc
      ∧ (expSeries p x fuel (j + 1) term acc : ℝ) ≤ acc + ∑ k ∈ range fuel, expTerm p t (j + k) := by
  induction fuel with
  | zero =>
    intro j term acc _ _ _
    simp [expSeries]
  | succ fuel ih =>
    intro j term acc le near few
    obtain ⟨low, high, more⟩ := expTerm_step ht top le few
    obtain ⟨below, above⟩ := ih (j + 1) _ (acc + term) low high more
    have shift : ∑ k ∈ range (fuel + 1), expTerm p t (j + k) = ∑ k ∈ range fuel, expTerm p t (j + 1 + k) + expTerm p t j := by
      rw [sum_range_succ']
      simp only [add_zero, add_assoc, add_comm 1]
    rw [shift]
    unfold expSeries
    push_cast at below above ⊢
    constructor <;> linarith only [near, below, le, above]

theorem sum_expTerm (p : ℕ) (t : ℝ) (n : ℕ) : ∑ k ∈ range n, expTerm p t (0 + k) = 2 ^ p * ∑ k ∈ range n, t ^ k / k.factorial := by
  rw [mul_sum]
  simp [expTerm]

/-- The computed e^x stands below e^x by at most 241 units. -/
theorem expFix_bounds {x : ℕ} (hx : x ≤ 2 ^ prec) : 2 ^ prec * Real.exp (x / 2 ^ prec) - 241 ≤ expFix prec x ∧ (expFix prec x : ℝ) ≤ 2 ^ prec * Real.exp
    (x / 2 ^ prec) := by
  have nonneg : (0 : ℝ) ≤ x / 2 ^ prec := by positivity
  have top : (x : ℝ) / 2 ^ prec ≤ 1 := by
    rw [div_le_one (by positivity)]
    exact_mod_cast hx
  obtain ⟨below, above⟩ := expSeries_bounds (x := x) rfl top 120 0 (2 ^ prec) 0 (by simp [expTerm]) (by simp [expTerm]) (by simp [expTerm])
  rw [sum_expTerm] at below above
  have start : ((expSeries prec x 120 (0 + 1) (2 ^ prec) 0 : ℕ) : ℝ) = expFix prec x := rfl
  rw [start] at below above
  have partials := Real.sum_le_exp_of_nonneg nonneg 120
  have rest := Real.exp_bound' nonneg top (n := 120) (by norm_num)
  have small : ((x : ℝ) / 2 ^ prec) ^ 120 * ((120 : ℕ) + 1) / ((120 : ℕ).factorial * (120 : ℕ)) ≤ 1 / 2 ^ prec := by
    have : ((x : ℝ) / 2 ^ prec) ^ 120 ≤ 1 := pow_le_one₀ nonneg top
    calc ((x : ℝ) / 2 ^ prec) ^ 120 * ((120 : ℕ) + 1) / ((120 : ℕ).factorial * (120 : ℕ))
        ≤ 1 * ((120 : ℕ) + 1) / ((120 : ℕ).factorial * (120 : ℕ)) := by gcongr
      _ ≤ 1 / 2 ^ prec := by
        rw [div_le_div_iff₀ (by positivity) (by positivity)]
        have : 1 * (120 + 1) * 2 ^ prec ≤ 1 * (Nat.factorial 120 * 120) := by decide +kernel
        exact_mod_cast this
  have unit : (0 : ℝ) < 2 ^ prec := by positivity
  have scaled : 2 ^ prec * (1 / 2 ^ prec : ℝ) = 1 := by field_simp
  have lower := mul_le_mul_of_nonneg_left partials unit.le
  have upper := mul_le_mul_of_nonneg_left (rest.trans (add_le_add_right small _)) unit.le
  rw [mul_add, scaled] at upper
  push_cast at below above
  generalize (2 : ℝ) ^ prec * ∑ k ∈ range 120, ((x : ℝ) / 2 ^ prec) ^ k / (k.factorial : ℝ) = sum at below above lower upper
  generalize (2 : ℝ) ^ prec * Real.exp (x / 2 ^ prec) = value at lower upper ⊢
  constructor <;> linarith only [below, upper, above, lower]

/-! The inverse hyperbolic tangent, and ln 2. -/

/-- A power of the series in units of 2^-p. -/
noncomputable def oddPower (p : ℕ) (z : ℝ) (j : ℕ) : ℝ := 2 ^ p * z ^ (2 * j + 1)

theorem oddPower_succ (p : ℕ) (z : ℝ) (j : ℕ) : oddPower p z (j + 1) = oddPower p z j * z ^ 2 := by
  unfold oddPower
  ring

theorem atanh_step {p z2 j pw : ℕ} {z : ℝ} (nonneg : 0 ≤ z) (top : z ≤ 1 / 3) (square : (z2 : ℝ) ≤ 2 ^ p * z ^ 2) (close : 2 ^ p * z ^ 2 - z2 ≤ 1)
    (le : (pw : ℝ) ≤ oddPower p z j) (near : oddPower p z j - pw ≤ 2) :
    ((pw * z2 / 2 ^ p : ℕ) : ℝ) ≤ oddPower p z (j + 1) ∧ oddPower p z (j + 1) - (pw * z2 / 2 ^ p : ℕ) ≤ 2 := by
  have unit : (0 : ℝ) < 2 ^ p := by positivity
  have low := div_le_real (pw * z2) (2 ^ p)
  have high := real_lt_div (b := 2 ^ p) (by positivity) (pw * z2)
  push_cast at low high
  have small : z ^ 2 ≤ 1 / 9 := by nlinarith only [nonneg, top]
  have bound : (pw : ℝ) ≤ 2 ^ p * (1 / 3) := by
    refine le.trans ?_
    unfold oddPower
    gcongr
    exact (pow_le_of_le_one nonneg (by linarith only [top]) (by omega)).trans top
  have upper : (pw : ℝ) * z2 / 2 ^ p ≤ pw * z ^ 2 := by
    rw [div_le_iff₀ unit]
    nlinarith only [Nat.cast_nonneg (α := ℝ) pw, square]
  have lower : (pw : ℝ) * z ^ 2 - 1 / 3 ≤ pw * z2 / 2 ^ p := by
    rw [le_div_iff₀ unit]
    nlinarith only [Nat.cast_nonneg (α := ℝ) pw, close, bound]
  rw [oddPower_succ]
  constructor
  · nlinarith only [sq_nonneg z, le, low, upper]
  · nlinarith only [sq_nonneg z, near, high, small, lower]

theorem atanhSeries_bounds {p z2 : ℕ} {z : ℝ} (nonneg : 0 ≤ z) (top : z ≤ 1 / 3) (square : (z2 : ℝ) ≤ 2 ^ p * z ^ 2) (close : 2 ^ p * z ^ 2 - z2 ≤ 1)
    (fuel : ℕ) : ∀ j pw acc : ℕ, (pw : ℝ) ≤ oddPower p z j → oddPower p z j - pw ≤ 2 →
    acc + ∑ k ∈ range fuel, oddPower p z (j + k) / (2 * (j + k : ℕ) + 1) - 3 * fuel ≤ atanhSeries p z2 fuel (2 * j + 1) pw acc
      ∧ (atanhSeries p z2 fuel (2 * j + 1) pw acc : ℝ) ≤ acc + ∑ k ∈ range fuel, oddPower p z (j + k) / (2 * (j + k : ℕ) + 1) := by
  induction fuel with
  | zero =>
    intro j pw acc _ _
    simp [atanhSeries]
  | succ fuel ih =>
    intro j pw acc le near
    obtain ⟨low, high⟩ := atanh_step nonneg top square close le near
    obtain ⟨below, above⟩ := ih (j + 1) _ (acc + pw / (2 * j + 1)) low high
    have shift : ∑ k ∈ range (fuel + 1), oddPower p z (j + k) / (2 * (j + k : ℕ) + 1)
        = ∑ k ∈ range fuel, oddPower p z (j + 1 + k) / (2 * (j + 1 + k : ℕ) + 1) + oddPower p z j / (2 * j + 1) := by
      rw [sum_range_succ']
      simp only [add_zero, add_assoc, add_comm 1]
    have odd : (1 : ℝ) ≤ 2 * j + 1 := by linarith only [Nat.cast_nonneg (α := ℝ) j]
    have least := div_le_real pw (2 * j + 1)
    have most := real_lt_div (b := 2 * j + 1) (by omega) pw
    push_cast at least most
    have less : (pw : ℝ) / (2 * j + 1) ≤ oddPower p z j / (2 * j + 1) := by gcongr
    have more : oddPower p z j / (2 * j + 1) - pw / (2 * j + 1) ≤ 2 := by
      rw [← sub_div]
      exact (div_le_self (sub_nonneg.2 le) odd).trans near
    rw [shift]
    unfold atanhSeries
    push_cast at below above ⊢
    rw [show 2 * j + 1 + 2 = 2 * (j + 1) + 1 by ring]
    constructor <;> linarith only [most, more, below, least, less, above]

/-- The inverse hyperbolic tangent. -/
noncomputable def halfLog (z : ℝ) : ℝ := 1 / 2 * Real.log ((1 + z) / (1 - z))

/-- The computed series stands below the inverse hyperbolic tangent by at most three units a term and one for the terms left out. -/
theorem atanhSeries_halfLog {p z2 n pw : ℕ} {z : ℝ} (nonneg : 0 ≤ z) (top : z ≤ 1 / 3) (square : (z2 : ℝ) ≤ 2 ^ p * z ^ 2) (close : 2 ^ p * z ^ 2 - z2 ≤ 1)
    (le : (pw : ℝ) ≤ 2 ^ p * z) (near : 2 ^ p * z - pw ≤ 2) (enough : 2 ^ p ≤ 9 ^ n) :
    2 ^ p * halfLog z - (3 * n + 1) ≤ atanhSeries p z2 n 1 pw 0 ∧ (atanhSeries p z2 n 1 pw 0 : ℝ) ≤ 2 ^ p * halfLog z := by
  have first : oddPower p z 0 = 2 ^ p * z := by simp [oddPower]
  obtain ⟨below, above⟩ := atanhSeries_bounds nonneg top square close n 0 pw 0 (by rw [first]; exact le) (by rw [first]; exact near)
  have terms : ∑ k ∈ range n, oddPower p z (0 + k) / (2 * (0 + k : ℕ) + 1) = 2 ^ p * ∑ i ∈ range n, z ^ (2 * i + 1) / (2 * i + 1) := by
    rw [mul_sum]
    refine sum_congr rfl fun i _ => ?_
    rw [zero_add, oddPower, mul_div_assoc]
  rw [terms] at below above
  have unit : (0 : ℝ) < 2 ^ p := by positivity
  have lower := mul_le_mul_of_nonneg_left (Real.sum_range_le_log_div nonneg (by linarith only [top]) n) unit.le
  have upper := mul_le_mul_of_nonneg_left (Real.log_div_le_sum_range_add nonneg (by linarith only [top]) n) unit.le
  have rest : (2 : ℝ) ^ p * (z ^ (2 * n + 1) / (1 - z ^ 2)) ≤ 1 := by
    have square9 : z ^ 2 ≤ 1 / 9 := by nlinarith only [nonneg, top]
    have power : z ^ (2 * n + 1) ≤ 1 / 9 ^ n * (1 / 3) := by
      rw [pow_succ, pow_mul]
      have : (z ^ 2) ^ n ≤ 1 / 9 ^ n := by
        rw [← one_div_pow]
        gcongr
      gcongr
    have enough' : (2 : ℝ) ^ p ≤ 9 ^ n := by exact_mod_cast enough
    have nine : (0 : ℝ) < 9 ^ n := by positivity
    rw [← mul_div_assoc, div_le_one (by linarith only [square9])]
    calc (2 : ℝ) ^ p * z ^ (2 * n + 1) ≤ 9 ^ n * (1 / 9 ^ n * (1 / 3)) := by gcongr
      _ = 1 / 3 := by field_simp
      _ ≤ 1 - z ^ 2 := by linarith only [square9]
  rw [mul_add] at upper
  push_cast at below above
  rw [zero_add] at below above
  unfold halfLog
  constructor <;> linarith only [upper, rest, below, lower, above]

theorem halfLog_third : halfLog (1 / 3) = 1 / 2 * Real.log 2 := by
  unfold halfLog
  norm_num

/-- The computed ln 2 stands below ln 2 by at most 6p + 2 units. -/
theorem ln2Fix_bounds (p : ℕ) : 2 ^ p * Real.log 2 - (6 * p + 2) ≤ ln2Fix p ∧ (ln2Fix p : ℝ) ≤ 2 ^ p * Real.log 2 := by
  have ninth := div_le_real (2 ^ p) 9
  have ninth' := real_lt_div (b := 9) (by norm_num) (2 ^ p)
  have third := div_le_real (2 ^ p) 3
  have third' := real_lt_div (b := 3) (by norm_num) (2 ^ p)
  push_cast at ninth ninth' third third'
  obtain ⟨low, high⟩ := atanhSeries_halfLog (p := p) (z2 := 2 ^ p / 9) (n := p) (pw := 2 ^ p / 3) (z := 1 / 3) (by norm_num) le_rfl (by linarith only [ninth]) (by linarith only [ninth'])
    (by linarith only [third]) (by linarith only [third']) (Nat.pow_le_pow_left (by norm_num) p)
  rw [halfLog_third] at low high
  unfold ln2Fix
  push_cast
  constructor <;> linarith only [low, high]

end Sys2Proof.Machine
end

section
/-! PROOFS. The circle in fixed point: pi by Machin's formula, and the series of sine and cosine. -/

namespace Sys2Proof.Machine
open Finset

/-! The inverse tangent of 1 / k. -/

theorem atan_step {k2 j pw : ℕ} {z U : ℝ} (square : z ^ 2 = 1 / k2) (wide : 2 ≤ k2) (le : (pw : ℝ) ≤ U * z ^ (2 * j + 1))
    (near : U * z ^ (2 * j + 1) - pw ≤ 2) :
    ((pw / k2 : ℕ) : ℝ) ≤ U * z ^ (2 * (j + 1) + 1) ∧ U * z ^ (2 * (j + 1) + 1) - (pw / k2 : ℕ) ≤ 2 := by
  have pos : (0 : ℝ) < k2 := by positivity
  have two : (2 : ℝ) ≤ k2 := by exact_mod_cast wide
  have next : U * z ^ (2 * (j + 1) + 1) = U * z ^ (2 * j + 1) / k2 := by
    rw [show 2 * (j + 1) + 1 = (2 * j + 1) + 2 by ring, pow_add, square]
    ring
  have low := div_le_real pw k2
  have high := real_lt_div (b := k2) (by omega) pw
  have less : (pw : ℝ) / k2 ≤ U * z ^ (2 * j + 1) / k2 := by gcongr
  have more : U * z ^ (2 * j + 1) / k2 - pw / k2 ≤ 1 := by
    rw [← sub_div, div_le_one pos]
    linarith only [near, two]
  rw [next]
  constructor <;> linarith only [low, less, high, more]

/-- A sign that alternates, as the series count it. -/
theorem alternate_succ (neg : Bool) (j : ℕ) (h : neg = decide (j % 2 = 1)) : (!neg) = decide ((j + 1) % 2 = 1) := by
  rw [h, ← decide_not, decide_eq_decide]
  omega

theorem neg_one_pow_of (neg : Bool) (j : ℕ) (h : neg = decide (j % 2 = 1)) : (-1 : ℝ) ^ j = if neg then -1 else 1 := by
  rw [h, neg_one_pow_eq_ite]
  by_cases even : Even j
  · rw [if_pos even, if_neg]
    rw [decide_eq_true_iff]
    have := Nat.even_iff.1 even
    omega
  · rw [if_neg even, if_pos]
    rw [decide_eq_true_iff]
    exact Nat.odd_iff.1 (Nat.not_even_iff_odd.1 even)

theorem atanSeries_bounds {k2 : ℕ} {z U : ℝ} (square : z ^ 2 = 1 / k2) (wide : 2 ≤ k2) (fuel : ℕ) : ∀ (j pw : ℕ) (acc : ℤ) (neg : Bool),
    (pw : ℝ) ≤ U * z ^ (2 * j + 1) → U * z ^ (2 * j + 1) - pw ≤ 2 → neg = decide (j % 2 = 1) →
    |(atanSeries k2 fuel (2 * j + 1) pw acc neg : ℝ) - (acc + ∑ k ∈ range fuel, (-1) ^ (j + k) * (U * z ^ (2 * (j + k) + 1)) / (2 * (j + k : ℕ) + 1))| ≤ 3 * fuel := by
  induction fuel with
  | zero =>
    intro j pw acc neg _ _ _
    simp [atanSeries]
  | succ fuel ih =>
    intro j pw acc neg le near sign
    obtain ⟨low, high⟩ := atan_step square wide le near
    have odd : (1 : ℝ) ≤ 2 * j + 1 := by linarith only [Nat.cast_nonneg (α := ℝ) j]
    have least := div_le_real pw (2 * j + 1)
    have most := real_lt_div (b := 2 * j + 1) (by omega) pw
    have less : (pw : ℝ) / (2 * j + 1) ≤ U * z ^ (2 * j + 1) / (2 * j + 1) := by gcongr
    have more : U * z ^ (2 * j + 1) / (2 * j + 1) - pw / (2 * j + 1) ≤ 2 := by
      rw [← sub_div]
      exact (div_le_self (sub_nonneg.2 le) odd).trans near
    have rest := ih (j + 1) _ (if neg then acc - (pw / (2 * j + 1) : ℕ) else acc + (pw / (2 * j + 1) : ℕ)) (!neg) low high (alternate_succ neg j sign)
    have shift : ∑ k ∈ range (fuel + 1), (-1 : ℝ) ^ (j + k) * (U * z ^ (2 * (j + k) + 1)) / (2 * (j + k : ℕ) + 1)
        = ∑ k ∈ range fuel, (-1) ^ (j + 1 + k) * (U * z ^ (2 * (j + 1 + k) + 1)) / (2 * (j + 1 + k : ℕ) + 1)
          + (-1) ^ j * (U * z ^ (2 * j + 1)) / (2 * j + 1) := by
      rw [sum_range_succ']
      simp only [add_zero, add_assoc, add_comm 1]
    rw [shift, neg_one_pow_of neg j sign]
    unfold atanSeries
    rw [show 2 * j + 1 + 2 = 2 * (j + 1) + 1 by ring, ← Int.natCast_div]
    generalize ∑ k ∈ range fuel, (-1 : ℝ) ^ (j + 1 + k) * (U * z ^ (2 * (j + 1 + k) + 1)) / (2 * (j + 1 + k : ℕ) + 1) = sum at rest ⊢
    generalize pw / (2 * j + 1) = quotient at rest least most ⊢
    rw [abs_le] at rest ⊢
    push_cast at rest least most ⊢
    obtain ⟨above, below⟩ := rest
    cases neg with
    | true =>
      simp only [if_true] at above below ⊢
      rw [neg_one_mul, neg_div]
      constructor <;> linarith only [less, least, above, more, most, below]
    | false =>
      simp only [Bool.false_eq_true, if_false] at above below ⊢
      rw [one_mul]
      constructor <;> linarith only [more, most, above, less, least, below]

/-- The terms of the inverse tangent left out. -/
theorem arctan_rest {z : ℝ} (nonneg : 0 ≤ z) (top : z ≤ 1 / 5) (n : ℕ) :
    |∑ k ∈ range n, (-1) ^ k * z ^ (2 * k + 1) / (2 * k + 1 : ℝ) - Real.arctan z| ≤ (1 / 25) ^ n := by
  have sum := (Real.hasSum_arctan (x := z) (by rw [Real.norm_eq_abs, abs_of_nonneg nonneg]; linarith only [top])).tendsto_sum_nat
  have step (m : ℕ) : dist (∑ k ∈ range m, (-1) ^ k * z ^ (2 * k + 1) / ((2 * k + 1 : ℕ) : ℝ)) (∑ k ∈ range (m + 1), (-1) ^ k * z ^ (2 * k + 1) / ((2 * k + 1 : ℕ) : ℝ))
      ≤ 1 / 5 * (1 / 25) ^ m := by
    have odd : (1 : ℝ) ≤ (2 * m + 1 : ℕ) := by exact_mod_cast Nat.succ_le_succ (Nat.zero_le _)
    rw [sum_range_succ, dist_self_add_right, Real.norm_eq_abs, abs_div, abs_mul, abs_pow, abs_neg, abs_one, one_pow, one_mul, abs_pow, abs_of_nonneg nonneg,
      abs_of_nonneg (by positivity : (0 : ℝ) ≤ (2 * m + 1 : ℕ))]
    calc z ^ (2 * m + 1) / (2 * m + 1 : ℕ) ≤ z ^ (2 * m + 1) := div_le_self (by positivity) odd
      _ ≤ (1 / 5) ^ (2 * m + 1) := by gcongr
      _ = 1 / 5 * (1 / 25) ^ m := by
        rw [pow_succ, pow_mul]
        norm_num
        ring
  have bound := dist_le_of_le_geometric_of_tendsto (1 / 25) (1 / 5) (by norm_num) step sum n
  have small : (0 : ℝ) < (1 / 25) ^ n := by positivity
  rw [Real.dist_eq] at bound
  push_cast at bound
  refine bound.trans ?_
  rw [div_le_iff₀ (by norm_num)]
  linarith only [small]

theorem atanSeries_arctan {q k n : ℕ} (wide : 5 ≤ k) (enough : 2 ^ q ≤ 25 ^ n) :
    |(atanSeries (k * k) n 1 (2 ^ q / k) 0 false : ℝ) - 2 ^ q * Real.arctan (1 / k)| ≤ 3 * n + 1 := by
  have five : (5 : ℝ) ≤ k := by exact_mod_cast wide
  have first := div_le_real (2 ^ q) k
  have first' := real_lt_div (b := k) (by omega) (2 ^ q)
  have start : (2 : ℝ) ^ q * (1 / k) ^ (2 * 0 + 1) = 2 ^ q / k := by ring
  push_cast at first first'
  have series := atanSeries_bounds (k2 := k * k) (z := 1 / k) (U := 2 ^ q) (by push_cast; field_simp) (by nlinarith only [wide]) n 0 (2 ^ q / k) 0 false
    (by rw [start]; exact first) (by rw [start]; linarith only [first']) rfl
  have rest := arctan_rest (z := 1 / k) (by positivity) (one_div_le_one_div_of_le (by norm_num) five) n
  have terms : ∑ i ∈ range n, (-1 : ℝ) ^ (0 + i) * (2 ^ q * (1 / k) ^ (2 * (0 + i) + 1)) / (2 * (0 + i : ℕ) + 1)
      = 2 ^ q * ∑ i ∈ range n, (-1) ^ i * (1 / (k : ℝ)) ^ (2 * i + 1) / (2 * i + 1 : ℝ) := by
    rw [mul_sum]
    refine sum_congr rfl fun i _ => ?_
    rw [zero_add]
    ring
  rw [terms] at series
  have unit : (0 : ℝ) < 2 ^ q := by positivity
  have scaled : |2 ^ q * ∑ i ∈ range n, (-1) ^ i * (1 / (k : ℝ)) ^ (2 * i + 1) / (2 * i + 1 : ℝ) - 2 ^ q * Real.arctan (1 / k)| ≤ 1 := by
    rw [← mul_sub, abs_mul, abs_of_pos unit]
    have enough' : (2 : ℝ) ^ q ≤ 25 ^ n := by exact_mod_cast enough
    calc (2 : ℝ) ^ q * _ ≤ 25 ^ n * (1 / 25) ^ n := by gcongr
      _ = 1 := by rw [← mul_pow]; norm_num
  rw [abs_le] at series scaled ⊢
  push_cast at series
  constructor <;> linarith only [series.1, series.2, scaled.1, scaled.2]

/-- The computed pi stands within 3 units of pi, up to 1984 bits. -/
theorem piFix_bounds {p : ℕ} (few : p ≤ 1984) : |(piFix p : ℝ) - 2 ^ p * Real.pi| ≤ 3 := by
  have fifth := atanSeries_arctan (q := p + 16) (k := 5) (n := p + 16) le_rfl (Nat.pow_le_pow_left (by norm_num) _)
  have other := atanSeries_arctan (q := p + 16) (k := 239) (n := p + 16) (by norm_num) (Nat.pow_le_pow_left (by norm_num) _)
  have machin := Real.four_mul_arctan_inv_5_sub_arctan_inv_239
  have unit : (2 : ℝ) ^ (p + 16) = 2 ^ p * 65536 := by rw [pow_add]; norm_num
  unfold piFix
  dsimp only
  norm_num only [unit] at fifth other machin ⊢
  generalize atanSeries 25 (p + 16) 1 (2 ^ (p + 16) / 5) 0 false = A at fifth ⊢
  generalize atanSeries 57121 (p + 16) 1 (2 ^ (p + 16) / 239) 0 false = B at other ⊢
  have few' : (p : ℝ) ≤ 1984 := by exact_mod_cast few
  have one : (1 : ℝ) ≤ 2 ^ p := one_le_pow₀ (by norm_num)
  have sum : |((16 * A - 4 * B : ℤ) : ℝ) - 65536 * (2 ^ p * Real.pi)| ≤ 120020 := by
    rw [show Real.pi = 4 * (4 * Real.arctan (1 / 5) - Real.arctan (1 / 239)) by linarith only [machin]]
    push_cast at fifth other ⊢
    rw [abs_le] at fifth other ⊢
    constructor <;> linarith only [few', fifth, other]
  generalize 16 * A - 4 * B = n at sum ⊢
  have pos : 0 ≤ n := by
    have : (0 : ℝ) ≤ n := by nlinarith only [abs_le.1 sum, Real.pi_gt_three, one]
    exact_mod_cast this
  have low := div_le_real n.toNat 65536
  have high := real_lt_div (b := 65536) (by norm_num) n.toNat
  have same : ((n.toNat : ℕ) : ℝ) = n := by exact_mod_cast Int.toNat_of_nonneg pos
  rw [same] at low high
  push_cast at low high
  rw [abs_le] at sum ⊢
  constructor <;> linarith only [sum, high, low]

/-! Sine and cosine. -/

/-- A term of the series of sine (s = 1) or cosine (s = 0), in units of 2^-p. -/
noncomputable def turnTerm (p s : ℕ) (t : ℝ) (j : ℕ) : ℝ := 2 ^ p * (t ^ (2 * j + s) / (2 * j + s).factorial)

theorem turnTerm_succ (p s : ℕ) (t : ℝ) (j : ℕ) :
    turnTerm p s t (j + 1) = turnTerm p s t j * t ^ 2 / (((2 * j + s + 1 : ℕ) : ℝ) * ((2 * j + s + 1 : ℕ) + 1)) := by
  unfold turnTerm
  rw [show 2 * (j + 1) + s = 2 * j + s + 1 + 1 by ring, Nat.factorial_succ, Nat.factorial_succ, pow_succ, pow_succ]
  push_cast
  field_simp

theorem turnTerm_nonneg (p s : ℕ) {t : ℝ} (nonneg : 0 ≤ t) (j : ℕ) : 0 ≤ turnTerm p s t j := by
  unfold turnTerm
  positivity

/-- No term is past 8. -/
theorem turnTerm_le (p s : ℕ) {t : ℝ} (nonneg : 0 ≤ t) (top : t ≤ 8 / 5) (j : ℕ) : turnTerm p s t j ≤ 2 ^ p * 8 := by
  unfold turnTerm
  gcongr
  refine (Real.pow_div_factorial_le_exp t nonneg _).trans ?_
  calc Real.exp t ≤ Real.exp (2 * 1) := Real.exp_le_exp.2 (by linarith only [top])
    _ = Real.exp 1 ^ 2 := by rw [two_mul, Real.exp_add, sq]
    _ ≤ 2.72 ^ 2 := by
      gcongr
      exact Real.exp_one_lt_d9.le.trans (by norm_num)
    _ ≤ 8 := by norm_num

/-- One computed term after another, i the number that counts them. -/
theorem turnTerm_step {p s x2 j term : ℕ} {t : ℝ} (nonneg : 0 ≤ t) (top : t ≤ 8 / 5) (square : (x2 : ℝ) ≤ 2 ^ p * t ^ 2) (close : 2 ^ p * t ^ 2 - x2 ≤ 1)
    (le : (term : ℝ) ≤ turnTerm p s t j) (near : turnTerm p s t j - term ≤ 5) (start : turnTerm p s t j - term ≤ 5 * (2 * j + s : ℕ)) :
    let next := term * x2 / 2 ^ p / ((2 * j + s + 1) * (2 * j + s + 1 + 1))
    (next : ℝ) ≤ turnTerm p s t (j + 1) ∧ turnTerm p s t (j + 1) - next ≤ 5 := by
  have unit : (0 : ℝ) < 2 ^ p := by positivity
  rw [turnTerm_succ]
  have small : t ^ 2 ≤ 64 / 25 := by nlinarith only [nonneg, top]
  have bound : (term : ℝ) ≤ 2 ^ p * 8 := le.trans (turnTerm_le p s nonneg top j)
  have lost : 0 ≤ turnTerm p s t j - term := sub_nonneg.2 le
  generalize turnTerm p s t j = T at *
  generalize 2 * j + s = i at *
  have low := div_le_real (term * x2) (2 ^ p * ((i + 1) * (i + 1 + 1)))
  have high := real_lt_div (b := 2 ^ p * ((i + 1) * (i + 1 + 1))) (by positivity) (term * x2)
  dsimp only
  rw [Nat.div_div_eq_div_mul]
  generalize term * x2 / (2 ^ p * ((i + 1) * (i + 1 + 1))) = next at low high ⊢
  have scale : ((term * x2 : ℕ) : ℝ) / ((2 ^ p * ((i + 1) * (i + 1 + 1)) : ℕ) : ℝ) = term * (x2 / 2 ^ p) / (((i + 1 : ℕ) : ℝ) * ((i + 1 : ℕ) + 1)) := by
    push_cast
    field_simp
  rw [scale] at low high
  have divisor : (0 : ℝ) < ((i + 1 : ℕ) : ℝ) * ((i + 1 : ℕ) + 1) := by positivity
  have less : (x2 : ℝ) / 2 ^ p ≤ t ^ 2 := by rwa [div_le_iff₀' unit]
  have T0 : 0 ≤ T := le.trans' (Nat.cast_nonneg _)
  have upper : term * (x2 / 2 ^ p) ≤ T * t ^ 2 := by gcongr
  have lower : T * t ^ 2 - term * (x2 / 2 ^ p) ≤ (T - term) * (64 / 25) + 8 := by
    have first : (T - term) * t ^ 2 ≤ (T - term) * (64 / 25) := by gcongr
    have second : term * (t ^ 2 - x2 / 2 ^ p) ≤ 8 := by
      have unit' : t ^ 2 - x2 / 2 ^ p ≤ 1 / 2 ^ p := by
        rw [le_div_iff₀ unit, sub_mul, div_mul_cancel₀ _ unit.ne']
        linarith only [close]
      calc (term : ℝ) * (t ^ 2 - x2 / 2 ^ p) ≤ (2 ^ p * 8) * (1 / 2 ^ p) := by
            apply mul_le_mul bound unit' (sub_nonneg.2 less) (by positivity)
        _ = 8 := by field_simp
    linarith only [first, second]
  refine ⟨low.trans (by gcongr), ?_⟩
  have loss : T * t ^ 2 / (((i + 1 : ℕ) : ℝ) * ((i + 1 : ℕ) + 1)) - term * (x2 / 2 ^ p) / (((i + 1 : ℕ) : ℝ) * ((i + 1 : ℕ) + 1)) ≤ 4 := by
    rw [← sub_div, div_le_iff₀ divisor]
    refine lower.trans ?_
    push_cast at start ⊢
    have i0 := Nat.cast_nonneg (α := ℝ) i
    rcases Nat.eq_zero_or_pos i with zero | pos
    · rw [zero] at start ⊢
      norm_num at start ⊢
      linarith only [start]
    · have one : (1 : ℝ) ≤ i := by exact_mod_cast pos
      nlinarith only [near, one]
  linarith only [high, loss]

theorem alternating_bounds {p s x2 : ℕ} {t : ℝ} (nonneg : 0 ≤ t) (top : t ≤ 8 / 5) (square : (x2 : ℝ) ≤ 2 ^ p * t ^ 2) (close : 2 ^ p * t ^ 2 - x2 ≤ 1)
    (fuel : ℕ) : ∀ (j term : ℕ) (acc : ℤ) (neg : Bool), (term : ℝ) ≤ turnTerm p s t j → turnTerm p s t j - term ≤ 5 →
    turnTerm p s t j - term ≤ 5 * (2 * j + s : ℕ) → neg = decide (j % 2 = 1) →
    |(alternating p x2 fuel (2 * j + s + 1) term acc neg : ℝ) - (acc + ∑ k ∈ range fuel, (-1) ^ (j + k) * turnTerm p s t (j + k))| ≤ 5 * fuel := by
  induction fuel with
  | zero =>
    intro j term acc neg _ _ _ _
    simp [alternating]
  | succ fuel ih =>
    intro j term acc neg le near start sign
    obtain ⟨low, high⟩ := turnTerm_step nonneg top square close le near start
    have rest := ih (j + 1) _ (if neg then acc - term else acc + term) (!neg) low high (high.trans (by push_cast; linarith only [Nat.cast_nonneg (α := ℝ) j, Nat.cast_nonneg (α := ℝ) s]))
      (alternate_succ neg j sign)
    have shift : ∑ k ∈ range (fuel + 1), (-1 : ℝ) ^ (j + k) * turnTerm p s t (j + k)
        = ∑ k ∈ range fuel, (-1) ^ (j + 1 + k) * turnTerm p s t (j + 1 + k) + (-1) ^ j * turnTerm p s t j := by
      rw [sum_range_succ']
      simp only [add_zero, add_assoc, add_comm 1]
    rw [shift, neg_one_pow_of neg j sign]
    unfold alternating
    rw [show 2 * j + s + 1 + 2 = 2 * (j + 1) + s + 1 by ring]
    generalize ∑ k ∈ range fuel, (-1 : ℝ) ^ (j + 1 + k) * turnTerm p s t (j + 1 + k) = sum at rest ⊢
    rw [abs_le] at rest ⊢
    push_cast at rest ⊢
    obtain ⟨above, below⟩ := rest
    cases neg with
    | true =>
      simp only [if_true] at above below ⊢
      rw [neg_one_mul]
      constructor <;> linarith only [le, above, near, below]
    | false =>
      simp only [Bool.false_eq_true, if_false] at above below ⊢
      rw [one_mul]
      constructor <;> linarith only [near, above, le, below]

/-- The terms of sine and cosine past the sixtieth. -/
theorem turn_rest {s : ℕ} {t v : ℝ} (nonneg : 0 ≤ t) (top : t ≤ 8 / 5) (series : HasSum (fun k : ℕ => (-1 : ℝ) ^ k * t ^ (2 * k + s) / (2 * k + s).factorial) v) :
    |∑ k ∈ range 60, (-1 : ℝ) ^ k * t ^ (2 * k + s) / (2 * k + s).factorial - v| ≤ 1 / 2 ^ prec := by
  have term (m : ℕ) : t ^ (2 * m + s) / (2 * m + s).factorial ≤ 3 ^ 26 * (1 / 256) ^ m := by
    have power := Real.pow_div_factorial_le_exp (16 * t) (by linarith only [nonneg]) (2 * m + s)
    rw [mul_pow, mul_div_assoc] at power
    have top' : Real.exp (16 * t) ≤ 3 ^ 26 := by
      calc Real.exp (16 * t) ≤ Real.exp ((26 : ℕ) * 1) := Real.exp_le_exp.2 (by push_cast; linarith only [top])
        _ = Real.exp 1 ^ 26 := Real.exp_nat_mul 1 26
        _ ≤ 3 ^ 26 := by
          gcongr
          exact Real.exp_one_lt_d9.le.trans (by norm_num)
    have more : (256 : ℝ) ^ m ≤ 16 ^ (2 * m + s) := by
      calc (256 : ℝ) ^ m = 16 ^ (2 * m) := by rw [pow_mul]; norm_num
        _ ≤ 16 ^ (2 * m + s) := pow_le_pow_right₀ (by norm_num) (by omega)
    have value : 0 ≤ t ^ (2 * m + s) / (2 * m + s).factorial := by positivity
    rw [one_div_pow, mul_one_div, le_div_iff₀ (by positivity), mul_comm]
    exact (mul_le_mul_of_nonneg_right more value).trans (power.trans top')
  have step (m : ℕ) : dist (∑ k ∈ range m, (-1 : ℝ) ^ k * t ^ (2 * k + s) / (2 * k + s).factorial)
      (∑ k ∈ range (m + 1), (-1 : ℝ) ^ k * t ^ (2 * k + s) / (2 * k + s).factorial) ≤ 3 ^ 26 * (1 / 256) ^ m := by
    rw [sum_range_succ, dist_self_add_right, Real.norm_eq_abs, abs_div, abs_mul, abs_pow, abs_neg, abs_one, one_pow, one_mul, abs_pow, abs_of_nonneg nonneg,
      abs_of_nonneg (Nat.cast_nonneg _)]
    exact term m
  have bound := dist_le_of_le_geometric_of_tendsto (1 / 256) (3 ^ 26) (by norm_num) step series.tendsto_sum_nat 60
  rw [Real.dist_eq] at bound
  have units : (256 : ℝ) ^ 60 = 2 ^ prec * 2 ^ 160 := by
    rw [show (256 : ℝ) = 2 ^ 8 by norm_num, ← pow_mul, ← pow_add]
  have nonneg' : (0 : ℝ) ≤ 1 / 2 ^ prec := by positivity
  rw [one_div_pow, units, ← div_div] at bound
  generalize 1 / (2 : ℝ) ^ prec = unit at bound nonneg' ⊢
  have small : (3 : ℝ) ^ 26 / 2 ^ 160 / (1 - 1 / 256) ≤ 1 := by norm_num
  calc _ ≤ (3 : ℝ) ^ 26 * (unit / 2 ^ 160) / (1 - 1 / 256) := bound
    _ = unit * (3 ^ 26 / 2 ^ 160 / (1 - 1 / 256)) := by ring
    _ ≤ unit := mul_le_of_le_one_right nonneg' small

theorem fix_le {p x : ℕ} (hx : 5 * x ≤ 8 * 2 ^ p) : (x : ℝ) / 2 ^ p ≤ 8 / 5 := by
  rw [div_le_div_iff₀ (by positivity) (by norm_num)]
  have : (5 * x : ℝ) ≤ 8 * 2 ^ p := by exact_mod_cast hx
  linarith only [this]

/-- The computed sine or cosine stands within 301 units of the function. -/
theorem alternating_turn {s x start : ℕ} {v : ℝ} (hx : 5 * x ≤ 8 * 2 ^ prec) (first : (start : ℝ) = turnTerm prec s (x / 2 ^ prec) 0)
    (series : HasSum (fun k : ℕ => (-1 : ℝ) ^ k * (x / 2 ^ prec : ℝ) ^ (2 * k + s) / (2 * k + s).factorial) v) :
    |(alternating prec (x * x / 2 ^ prec) 60 (s + 1) start 0 false : ℝ) - 2 ^ prec * v| ≤ 301 := by
  have unit : (0 : ℝ) < 2 ^ prec := by positivity
  have nonneg : (0 : ℝ) ≤ x / 2 ^ prec := by positivity
  have top : (x : ℝ) / 2 ^ prec ≤ 8 / 5 := fix_le hx
  have least := div_le_real (x * x) (2 ^ prec)
  have most := real_lt_div (b := 2 ^ prec) (by positivity) (x * x)
  have square : (2 : ℝ) ^ prec * (x / 2 ^ prec) ^ 2 = ((x * x : ℕ) : ℝ) / ((2 ^ prec : ℕ) : ℝ) := by
    push_cast
    field_simp
  have sum := alternating_bounds (s := s) nonneg top (x2 := x * x / 2 ^ prec) (p := prec) (by rw [square]; exact least) (by rw [square]; linarith only [most]) 60 0 start 0 false
    first.le (by rw [first]; norm_num) (by rw [first]; simp) rfl
  have rest := turn_rest nonneg top series
  have terms : ∑ k ∈ range 60, (-1 : ℝ) ^ (0 + k) * turnTerm prec s (x / 2 ^ prec) (0 + k)
      = 2 ^ prec * ∑ k ∈ range 60, (-1 : ℝ) ^ k * (x / 2 ^ prec : ℝ) ^ (2 * k + s) / (2 * k + s).factorial := by
    rw [mul_sum]
    refine sum_congr rfl fun k _ => ?_
    rw [zero_add, turnTerm]
    ring
  rw [terms] at sum
  generalize ∑ k ∈ range 60, (-1 : ℝ) ^ k * (x / 2 ^ prec : ℝ) ^ (2 * k + s) / (2 * k + s).factorial = partials at sum rest
  have scaled : |2 ^ prec * partials - 2 ^ prec * v| ≤ 1 := by
    rw [← mul_sub, abs_mul, abs_of_pos unit]
    calc (2 : ℝ) ^ prec * |partials - v| ≤ 2 ^ prec * (1 / 2 ^ prec) := by gcongr
      _ = 1 := mul_one_div_cancel unit.ne'
  rw [show 2 * 0 + s + 1 = s + 1 by ring] at sum
  generalize (2 : ℝ) ^ prec * partials = P at sum scaled
  generalize (2 : ℝ) ^ prec * v = V at scaled ⊢
  rw [abs_le] at sum scaled ⊢
  push_cast at sum
  constructor <;> linarith only [sum.1, sum.2, scaled.1, scaled.2]

/-- A magnitude taken of a signed sum is no further off, where the function is not negative. -/
theorem toNat_near {n : ℤ} {v d : ℝ} (nonneg : 0 ≤ v) (near : |(n : ℝ) - v| ≤ d) : |((n.toNat : ℕ) : ℝ) - v| ≤ d := by
  rcases le_total 0 n with pos | neg
  · have same : ((n.toNat : ℕ) : ℝ) = n := by exact_mod_cast Int.toNat_of_nonneg pos
    rwa [same]
  · rw [Int.toNat_of_nonpos neg]
    have : (n : ℝ) ≤ 0 := by exact_mod_cast neg
    rw [abs_le] at near ⊢
    push_cast
    constructor <;> linarith only [near, this, nonneg]

theorem sinFix_bounds {x : ℕ} (hx : 5 * x ≤ 8 * 2 ^ prec) : |(sinFix prec x : ℝ) - 2 ^ prec * Real.sin (x / 2 ^ prec)| ≤ 301 := by
  have unit : (0 : ℝ) < 2 ^ prec := by positivity
  have top : (x : ℝ) / 2 ^ prec ≤ 8 / 5 := fix_le hx
  refine toNat_near (mul_nonneg unit.le (Real.sin_nonneg_of_nonneg_of_le_pi (by positivity) (top.trans (by linarith only [Real.pi_gt_three])))) ?_
  refine alternating_turn (s := 1) hx ?_ (Real.hasSum_sin _)
  unfold turnTerm
  simp only [mul_zero, zero_add, pow_one, Nat.factorial_one, Nat.cast_one, div_one]
  field_simp

/-- Just past a quarter turn the cosine is negative, but by less than the error. -/
theorem cosFix_bounds {x : ℕ} (hx : 5 * x ≤ 8 * 2 ^ prec) (quarter : 0 ≤ Real.cos (x / 2 ^ prec)) :
    |(cosFix prec x : ℝ) - 2 ^ prec * Real.cos (x / 2 ^ prec)| ≤ 301 := by
  refine toNat_near (mul_nonneg (by positivity) quarter) ?_
  refine alternating_turn (s := 0) hx ?_ (Real.hasSum_cos _)
  simp [turnTerm]

end Sys2Proof.Machine
end

section
/-! PROOFS. From a computed value near the value of a function to the value delivered, in any wide format (R211, R227). -/

namespace Sys2Proof.Machine

/-! Rounding, by its distance. -/

/-- How far rounding moves a number, in spacings. -/
def roundingReach (rm : BitVec 3) : ℚ := if rm = rmRNE then 1 / 2 else 1

theorem roundingReach_le (rm : BitVec 3) : roundingReach rm ≤ 1 := by
  unfold roundingReach
  split <;> norm_num

theorem takesUpper_reach {rm : BitVec 3} {neg : Bool} {k : Int} {part : ℚ} (nonneg : 0 ≤ part) (upper : takesUpper rm neg k part) :
    1 - part ≤ roundingReach rm := by
  unfold roundingReach
  split
  · rename_i rne
    subst rne
    obtain ⟨-, ⟨-, h⟩ | ⟨h, -⟩ | ⟨h, -⟩ | ⟨h, -⟩ | ⟨h, -⟩⟩ := upper
    · rcases h with h | ⟨h, -⟩ <;> linarith only [h]
    all_goals exact absurd h (by decide)
  · linarith only [nonneg]

theorem not_takesUpper_reach {rm : BitVec 3} {neg : Bool} {k : Int} {part : ℚ} (lt : part < 1) (lower : ¬ takesUpper rm neg k part) :
    part ≤ roundingReach rm := by
  unfold roundingReach
  split
  · rename_i rne
    subst rne
    by_contra more
    rw [not_le] at more
    exact lower ⟨by linarith only [lt, more], .inl ⟨rfl, .inl more⟩⟩
  · exact lt.le

/-- What does not overflow is within the reach of the mode. -/
theorem RoundsTo.near {f : Fmt} {rm : BitVec 3} {neg : Bool} {x : ℚ} {r : Nat × Flags} (h : RoundsTo f rm neg x r) (fits : r.2 &&& fOF = 0) :
    ∃ m e, f.decode r.1 = .fin neg m e ∧ |(m * 2 ^ e : ℚ) - x| ≤ roundingReach rm * f.spacing x := by
  obtain ⟨y, chosen, inside, outside⟩ := h.value
  have unit := f.spacing_pos x
  change (takesUpper rm neg ⌊x / f.spacing x⌋ (x / f.spacing x - ⌊x / f.spacing x⌋) ∧ y = (⌊x / f.spacing x⌋ + 1) * f.spacing x
    ∨ ¬ takesUpper rm neg ⌊x / f.spacing x⌋ (x / f.spacing x - ⌊x / f.spacing x⌋) ∧ y = ⌊x / f.spacing x⌋ * f.spacing x) at chosen
  have bounded : y ≤ (f.decode f.big).val := by
    by_contra over_
    have flags := congrArg Prod.snd (outside (not_le.1 over_))
    have both : (fOF ||| fNX) &&& fOF ≠ 0 := by decide
    exact both ((congrArg (· &&& fOF) flags).symm.trans fits)
  obtain ⟨⟨m, e, decoded, value⟩, -⟩ := inside bounded
  refine ⟨m, e, decoded, ?_⟩
  rw [value]
  have nonneg : 0 ≤ x / f.spacing x - ⌊x / f.spacing x⌋ := sub_nonneg.2 (Int.floor_le _)
  have lt : x / f.spacing x - ⌊x / f.spacing x⌋ < 1 := by linarith only [Int.lt_floor_add_one (x / f.spacing x)]
  have whole : x = x / f.spacing x * f.spacing x := (div_mul_cancel₀ _ unit.ne').symm
  generalize ⌊x / f.spacing x⌋ = k at *
  generalize x / f.spacing x = units at *
  obtain ⟨upper, eq⟩ | ⟨lower, eq⟩ := chosen
  · have reach := takesUpper_reach nonneg upper
    have step : y - x = (1 - (units - k)) * f.spacing x := by linear_combination eq - whole
    rw [step, abs_mul, abs_of_pos unit, abs_of_nonneg (by linarith only [lt])]
    gcongr
  · have reach := not_takesUpper_reach lt lower
    have step : y - x = -((units - k) * f.spacing x) := by linear_combination eq - whole
    rw [step, abs_neg, abs_mul, abs_of_pos unit, abs_of_nonneg nonneg]
    gcongr

/-! The values within the bound (R227). -/

/-- Each listed code holds a value within b spacings of the computed one. -/
theorem mem_withinUlp {f : Fmt} (sound : f.Sound) {b : Nat} {y : Approx} {c : Nat} (mem : c ∈ withinUlp f b y) :
    c ≤ f.big ∧ |f.mag c - y.m * 2 ^ y.e| ≤ b * 2 ^ (max ((Nat.log2 y.m : Int) + y.e) f.emin - f.frac) := by
  unfold withinUlp at mem
  dsimp only at mem
  rw [List.mem_filter, Bool.and_eq_true, decide_eq_true_iff] at mem
  obtain ⟨-, fits, near⟩ := mem
  refine ⟨fits, ?_⟩
  rw [sound.decode_nonneg fits] at near
  dsimp only at near
  unfold Fmt.mag
  generalize f.mant c = m at *
  generalize f.expo c = e at *
  generalize max ((Nat.log2 y.m : Int) + y.e) f.emin - f.frac = u at *
  have k1 : min (min e y.e) u ≤ e := by omega
  have k2 : min (min e y.e) u ≤ y.e := by omega
  have k3 : min (min e y.e) u ≤ u := by omega
  generalize min (min e y.e) u = k at *
  have units (n : Nat) {g : Int} (low : k ≤ g) : ((n * 2 ^ (g - k).toNat : Nat) : ℚ) * 2 ^ k = n * 2 ^ g := by
    push_cast
    rw [mul_assoc, ← zpow_natCast, ← zpow_add₀ two_ne_zero]
    congr 2
    omega
  rw [← units m k1, ← units y.m k2, ← units b k3, ← sub_mul, abs_mul, abs_of_pos (by positivity : (0 : ℚ) < 2 ^ k)]
  have bound : |((m * 2 ^ (e - k).toNat : Nat) : Int) - (y.m * 2 ^ (y.e - k).toNat : Nat)| ≤ (b * 2 ^ (u - k).toNat : Nat) := by
    rw [abs_le]
    rw [Bool.and_eq_true, decide_eq_true_iff] at near
    obtain ⟨upper, lower⟩ := near
    cases h : y.exact <;> rw [h] at lower <;> simp only [if_true, Bool.false_eq_true, if_false, decide_eq_true_iff] at lower <;> omega
  gcongr
  exact_mod_cast bound

/-! Delivery. -/

/-- A computed value that serves a format: what it stands for, x, and its own magnitude are both near the magnitude of the value y of the function, and x has
no wider spacing than y. -/
structure Fmt.Serves (f : Fmt) (A : Approx) (y : ℝ) (x : ℚ) : Prop where
  marks : Marks A.m A.e (!A.exact) x
  fine : (!A.exact) = true → f.frac < Nat.log2 A.m ∨ A.e < f.emin - f.frac
  sign : if A.neg then y = -|y| else y = |y|
  near : |(x : ℝ) - abs y| ≤ 2 ^ (-100 : Int) * f.ulp y
  close : |(A.m : ℝ) * 2 ^ A.e - abs y| ≤ 2 ^ (-100 : Int) * f.ulp y
  spacing : (f.spacing x : ℝ) ≤ f.ulp y

theorem Fmt.ulp_pos (f : Fmt) (y : ℝ) : 0 < f.ulp y := by unfold ulp; positivity

/-- The distance of a signed result from y, by magnitudes. -/
theorem Fmt.Serves.signed {f : Fmt} {A : Approx} {y : ℝ} {x : ℚ} (serves : f.Serves A y x) (c : ℚ) :
    |(((if A.neg then -1 else 1) * c : ℚ) : ℝ) - y| = |(c : ℝ) - abs y| := by
  have sign := serves.sign
  generalize |y| = a at *
  cases h : A.neg <;> rw [h] at sign <;> simp only [if_true, Bool.false_eq_true, if_false] at sign ⊢ <;> rw [sign] <;> push_cast
  · rw [one_mul]
  · rw [← abs_neg]
    congr 1
    ring

/-- The bound of a delivered value: the reach of the rounding mode, or b ulp. -/
def deliveryBound (rm : BitVec 3) (b : Nat) : ℝ := if b = 0 then (roundingReach rm : ℝ) else b

theorem deliverApprox_flags (fn : Special8) (f : Fmt) (t : Tag) (rm : BitVec 3) (b mag : Nat) (A : Approx) :
    (deliverApprox fn f t rm b mag A).2 = (f.round rm false A.neg A.m A.e (!A.exact)).2 := by
  unfold deliverApprox
  dsimp only
  split
  · rfl
  · split <;> rfl

/-- A computed value that serves a format is delivered within the bound and 2^-100 ulp. -/
theorem Fmt.Serves.deliver {f : Fmt} (sound : f.Sound) {A : Approx} {y : ℝ} {x : ℚ} (serves : f.Serves A y x) (fn : Special8) (t : Tag) {rm : BitVec 3} {b : Nat}
    (mag : Nat) (fits : (deliverApprox fn f t rm b mag A).2 &&& fOF = 0) :
    (f.decode (deliverApprox fn f t rm b mag A).1).finite
      ∧ |((f.decode (deliverApprox fn f t rm b mag A).1).val : ℝ) - y| ≤ (deliveryBound rm b + 2 ^ (-100 : Int)) * f.ulp y := by
  rw [deliverApprox_flags] at fits
  have unit := f.ulp_pos y
  have rounded : (f.decode (f.round rm false A.neg A.m A.e (!A.exact)).1).finite
      ∧ |((f.decode (f.round rm false A.neg A.m A.e (!A.exact)).1).val : ℝ) - y| ≤ (deliveryBound rm b + 2 ^ (-100 : Int)) * f.ulp y := by
    obtain ⟨m, e, decoded, near⟩ := (serves.marks.roundsTo sound rm false A.neg serves.fine).near fits
    rw [decoded, Num.val_fin, serves.signed]
    refine ⟨trivial, ?_⟩
    have reach : ((roundingReach rm : ℚ) : ℝ) ≤ deliveryBound rm b := by
      unfold deliveryBound
      split
      · exact le_rfl
      · rename_i some
        have one : (1 : ℝ) ≤ b := by exact_mod_cast Nat.one_le_iff_ne_zero.2 some
        exact le_trans (by exact_mod_cast roundingReach_le rm) one
    have reach0 : 0 ≤ ((roundingReach rm : ℚ) : ℝ) := by unfold roundingReach; split <;> norm_num
    have near' : |((m * 2 ^ e : ℚ) : ℝ) - x| ≤ roundingReach rm * f.spacing x := by exact_mod_cast near
    calc |((m * 2 ^ e : ℚ) : ℝ) - abs y| ≤ |((m * 2 ^ e : ℚ) : ℝ) - x| + |(x : ℝ) - abs y| := abs_sub_le _ _ _
      _ ≤ deliveryBound rm b * f.ulp y + 2 ^ (-100 : Int) * f.ulp y := by
        refine add_le_add (near'.trans ?_) serves.near
        exact mul_le_mul reach serves.spacing (by exact_mod_cast (f.spacing_pos x).le) (reach0.trans reach)
      _ = _ := by ring
  unfold deliverApprox
  dsimp only
  split
  · exact rounded
  rename_i out
  rw [not_or, not_or] at out
  split
  · exact rounded
  rename_i some
  have mem : (withinUlp f b A).getD (Config.specialSlack fn.code t.toNat mag % (withinUlp f b A).length) 0 ∈ withinUlp f b A := by
    have pos : 0 < (withinUlp f b A).length := List.length_pos_iff.2 (by simpa using some)
    rw [List.getD_eq_getElem _ _ (Nat.mod_lt _ pos)]
    exact List.getElem_mem _
  generalize (withinUlp f b A).getD (Config.specialSlack fn.code t.toNat mag % (withinUlp f b A).length) 0 = c at mem ⊢
  obtain ⟨small, near⟩ := mem_withinUlp sound mem
  obtain ⟨finite, value⟩ := sound.val_code small A.neg
  refine ⟨finite, ?_⟩
  rw [value, serves.signed]
  have near' : |((f.mag c : ℚ) : ℝ) - A.m * 2 ^ A.e| ≤ b * f.spacing x := by
    unfold Fmt.spacing
    rw [serves.marks.log]
    have cast := (Rat.cast_le (K := ℝ)).2 near
    push_cast at cast ⊢
    exact cast
  have bound : deliveryBound rm b = b := if_neg out.1
  calc |(f.mag c : ℝ) - abs y| ≤ |((f.mag c : ℚ) : ℝ) - A.m * 2 ^ A.e| + |(A.m : ℝ) * 2 ^ A.e - abs y| := abs_sub_le _ _ _
    _ ≤ deliveryBound rm b * f.ulp y + 2 ^ (-100 : Int) * f.ulp y := by
      refine add_le_add (near'.trans ?_) serves.close
      rw [bound]
      exact mul_le_mul_of_nonneg_left serves.spacing (Nat.cast_nonneg b)
    _ = _ := by ring

/-! The three ways in which a computed value serves the wide formats. -/

theorem Fmt.Wide.ulp_least {f : Fmt} (wide : f.Wide) (y : ℝ) : (2 : ℝ) ^ (-1074 : Int) ≤ f.ulp y := by
  obtain ⟨-, least⟩ := wide.emin
  unfold Fmt.ulp
  exact zpow_le_zpow_right₀ one_le_two (by omega)

/-- An ulp is at least 2^-53 of the value. -/
theorem Fmt.Wide.ulp_relative {f : Fmt} (wide : f.Wide) (y : ℝ) : |y| * 2 ^ (-53 : Int) ≤ f.ulp y := by
  obtain ⟨-, frac⟩ := wide.frac
  unfold Fmt.ulp
  calc |y| * 2 ^ (-53 : Int) ≤ 2 ^ (Int.log 2 |y| + 1) * 2 ^ (-53 : Int) := by
        gcongr
        exact (Int.lt_zpow_succ_log_self one_lt_two _).le
    _ = 2 ^ (Int.log 2 |y| + 1 + (-53)) := (zpow_add₀ two_ne_zero _ _).symm
    _ ≤ _ := zpow_le_zpow_right₀ one_le_two (by omega)

theorem Fmt.spacing_le_ulp (f : Fmt) {x : ℚ} {y : ℝ} (le : max (Int.log 2 x) f.emin ≤ max (Int.log 2 |y|) f.emin) : (f.spacing x : ℝ) ≤ f.ulp y := by
  unfold Fmt.spacing Fmt.ulp
  push_cast
  exact zpow_le_zpow_right₀ one_le_two (by omega)

theorem log_ratCast {x : ℚ} (pos : 0 < x) : Int.log 2 (x : ℝ) = Int.log 2 x := by
  have pos' : (0 : ℝ) < x := by exact_mod_cast pos
  refine eq_of_forall_le_iff fun k => ?_
  rw [← Int.zpow_le_iff_le_log one_lt_two pos', ← Int.zpow_le_iff_le_log one_lt_two pos]
  have cast : (((2 : ℚ) ^ k : ℚ) : ℝ) = (2 : ℝ) ^ k := by push_cast; rfl
  push_cast
  rw [← cast, Rat.cast_le]

/-- Exact values. -/
theorem Fmt.serves_exact {f : Fmt} {neg : Bool} {m : Nat} {e : Int} {y : ℝ} (pos : 0 < m) (value : |y| = m * 2 ^ e)
    (sign : if neg then y = -|y| else y = |y|) : f.Serves ⟨neg, m, e, true⟩ y (m * 2 ^ e) where
  marks := Marks.exact pos e
  fine := nofun
  sign := sign
  near := by
    push_cast
    rw [value, sub_self, abs_zero]
    exact mul_nonneg (by positivity) (f.ulp_pos y).le
  close := by
    rw [value, sub_self, abs_zero]
    exact mul_nonneg (by positivity) (f.ulp_pos y).le
  spacing := by
    refine f.spacing_le_ulp (le_of_eq ?_)
    have same : |y| = ((m * 2 ^ e : ℚ) : ℝ) := by rw [value]; push_cast; rfl
    rw [same, log_ratCast (by positivity)]

/-- Values below every format. -/
theorem Fmt.Wide.serves_tiny {f : Fmt} (wide : f.Wide) {y : ℝ} (pos : 0 < y) (tiny : y ≤ 2 ^ (-2000 : Int)) :
    f.Serves ⟨false, 1, -20000, false⟩ y (3 / 2 * 2 ^ (-20000 : Int)) := by
  obtain ⟨-, least⟩ := wide.emin
  have unit := wide.ulp_least y
  have abs : |y| = y := abs_of_pos pos
  have far : (2 : ℝ) ^ (-20000 : Int) ≤ 2 ^ (-2000 : Int) := zpow_le_zpow_right₀ one_le_two (by norm_num)
  have scale : (2 : ℝ) ^ (-2000 : Int) * 2 ^ 2 ≤ 2 ^ (-100 : Int) * 2 ^ (-1074 : Int) := by
    rw [← zpow_natCast, ← zpow_add₀ two_ne_zero, ← zpow_add₀ two_ne_zero]
    exact zpow_le_zpow_right₀ one_le_two (by norm_num)
  have zero : (0 : ℝ) < 2 ^ (-20000 : Int) := by positivity
  have bound : (2 : ℝ) ^ (-2000 : Int) * 2 ^ 2 ≤ 2 ^ (-100 : Int) * f.ulp y := scale.trans (mul_le_mul_of_nonneg_left unit (by positivity))
  have zeroQ : (0 : ℚ) < 2 ^ (-20000 : Int) := by positivity
  have marks : Marks 1 (-20000) true (3 / 2 * 2 ^ (-20000 : Int)) := by
    refine Marks.inexact one_pos ?_ ?_ <;> generalize (2 : ℚ) ^ (-20000 : Int) = u at zeroQ ⊢ <;> norm_num <;> linarith only [zeroQ]
  refine ⟨marks, fun _ => .inr (by dsimp only; omega), abs.symm, ?_, ?_, f.spacing_le_ulp ?_⟩
  · rw [abs, Rat.cast_mul, Rat.cast_zpow, Rat.cast_div, Rat.cast_ofNat, Rat.cast_ofNat]
    generalize (2 : ℝ) ^ (-20000 : Int) = u at *
    generalize (2 : ℝ) ^ (-2000 : Int) = v at *
    generalize (2 : ℝ) ^ (-100 : Int) * f.ulp y = w at bound ⊢
    rw [abs_le]
    constructor <;> linarith only [pos, zero, tiny, bound, far]
  · rw [abs]
    dsimp only
    push_cast
    generalize (2 : ℝ) ^ (-20000 : Int) = u at *
    generalize (2 : ℝ) ^ (-2000 : Int) = v at *
    generalize (2 : ℝ) ^ (-100 : Int) * f.ulp y = w at bound ⊢
    rw [abs_le]
    constructor <;> linarith only [pos, zero, tiny, bound, far]
  · rw [marks.log]
    have : ((Nat.log2 1 : Nat) : Int) = 0 := by decide
    omega

/-- An inexact computed value of many bits, near y for every wide format, that does not reach a binade above y. -/
structure Approximates (A : Approx) (y : ℝ) : Prop where
  inexact : A.exact = false
  bits : 2 ^ 160 ≤ A.m
  sign : if A.neg then y = -|y| else y = |y|
  close : |(A.m : ℝ) * 2 ^ A.e - abs y| ≤ 2 ^ (-155 : Int) * |y|
  binade : ∀ k : Int, (2 : ℝ) ^ k ≤ A.m * 2 ^ A.e → 2 ^ k ≤ |y|

theorem Fmt.Wide.serves {f : Fmt} (wide : f.Wide) {A : Approx} {y : ℝ} (h : Approximates A y) : f.Serves A y ((A.m + 1 / 2) * 2 ^ A.e) := by
  obtain ⟨-, frac⟩ := wide.frac
  have unit := wide.ulp_relative y
  have nonneg := abs_nonneg y
  have close := h.close
  have pos : 0 < A.m := lt_of_lt_of_le (by positivity) h.bits
  have zero : (0 : ℝ) < 2 ^ A.e := by positivity
  have zeroQ : (0 : ℚ) < 2 ^ A.e := by positivity
  have marks : Marks A.m A.e true ((A.m + 1 / 2) * 2 ^ A.e) := by
    refine Marks.inexact pos ?_ ?_
    · gcongr
      linarith only
    · gcongr
      norm_num
  have bits : (2 : ℝ) ^ 160 ≤ A.m := by exact_mod_cast h.bits
  have half : 2 ^ A.e ≤ |y| * 2 ^ (-158 : Int) := by
    have double : (A.m : ℝ) * 2 ^ A.e ≤ 2 * |y| := by
      have : (2 : ℝ) ^ (-155 : Int) ≤ 1 := by norm_num
      nlinarith only [abs_le.1 close, nonneg, this]
    have many : (2 : ℝ) ^ 160 * 2 ^ A.e ≤ 2 * |y| := (mul_le_mul_of_nonneg_right bits zero.le).trans double
    norm_num at many ⊢
    linarith only [zero, many]
  have bound : 2 ^ (-154 : Int) * |y| ≤ 2 ^ (-100 : Int) * f.ulp y := by
    calc (2 : ℝ) ^ (-154 : Int) * |y| ≤ 2 ^ (-100 : Int) * (|y| * 2 ^ (-53 : Int)) := by
          norm_num
          linarith only [nonneg]
      _ ≤ _ := mul_le_mul_of_nonneg_left unit (by positivity)
  refine ⟨by rw [h.inexact]; exact marks, fun _ => .inl ?_, h.sign, ?_, ?_, f.spacing_le_ulp ?_⟩
  · have : 160 ≤ Nat.log2 A.m := (Nat.le_log2 pos.ne').2 h.bits
    omega
  · refine le_trans ?_ bound
    push_cast
    rw [abs_le] at close ⊢
    norm_num at close half ⊢
    constructor <;> linarith only [zero, close, half]
  · refine le_trans (close.trans ?_) bound
    gcongr <;> norm_num
  · have log := h.binade (Nat.log2 A.m + A.e) (by
      rw [zpow_add₀ two_ne_zero, zpow_natCast]
      gcongr
      exact_mod_cast Nat.log2_self_le pos.ne')
    have apos : 0 < |y| := lt_of_lt_of_le (by positivity) log
    rw [marks.log]
    exact max_le_max_right _ ((Int.zpow_le_iff_le_log one_lt_two apos).1 (by exact_mod_cast log))

end Sys2Proof.Machine
end

section
/-! PROOFS. The arguments of the special functions, and the ways in which a computed value is near a function. -/

namespace Sys2Proof.Machine

/-! Arguments: m units of 2^e, m of at most 53 bits. -/

theorem two_zpow_sub_nat (k e : Int) (le : e ≤ k) : (2 : ℝ) ^ k = (2 ^ (k - e).toNat : ℕ) * 2 ^ e := by
  push_cast
  rw [← zpow_natCast, ← zpow_add₀ two_ne_zero]
  congr 1
  omega

theorem log2_bounds {m : ℕ} (pos : 0 < m) (e : Int) : (2 : ℝ) ^ ((Nat.log2 m : Int) + e) ≤ m * 2 ^ e ∧ (m : ℝ) * 2 ^ e < 2 ^ ((Nat.log2 m : Int) + e + 1) := by
  have low : (2 : ℝ) ^ Nat.log2 m ≤ m := by exact_mod_cast Nat.log2_self_le pos.ne'
  have high : (m : ℝ) < 2 ^ (Nat.log2 m + 1) := by exact_mod_cast Nat.lt_log2_self
  constructor
  · rw [zpow_add₀ two_ne_zero, zpow_natCast]
    gcongr
  · rw [add_right_comm, zpow_add₀ two_ne_zero]
    gcongr
    exact_mod_cast high

theorem large_iff {m : ℕ} (pos : 0 < m) (e : Int) (k : ℕ) : large m e k = true ↔ (2 : ℝ) ^ (k : Int) ≤ m * 2 ^ e := by
  obtain ⟨low, high⟩ := log2_bounds pos e
  unfold large
  rw [decide_eq_true_iff]
  constructor
  · intro h
    exact (zpow_le_zpow_right₀ one_le_two h).trans low
  · intro h
    have := (zpow_lt_zpow_iff_right₀ one_lt_two).1 (h.trans_lt high)
    omega

theorem tiny_iff {m : ℕ} (pos : 0 < m) (e : Int) (k : ℕ) : tiny m e k = true ↔ (m : ℝ) * 2 ^ e < 2 ^ (-(k : Int)) := by
  obtain ⟨low, high⟩ := log2_bounds pos e
  unfold tiny
  rw [decide_eq_true_iff]
  constructor
  · intro h
    exact high.trans_le (zpow_le_zpow_right₀ one_le_two (by omega))
  · intro h
    have := (zpow_lt_zpow_iff_right₀ one_lt_two).1 (low.trans_lt h)
    omega

theorem units_slack {n : ℕ} (few : n ≤ 2 ^ 53) : (n : ℝ) * 2 ^ (-53 : Int) ≤ 1 := by
  have small : (n : ℝ) ≤ 9007199254740992 := by exact_mod_cast few
  norm_num
  linarith only [small]

/-- A number of 53 bits above a power of two is above it by 2^-53 of it. -/
theorem past_power {m : ℕ} {e k : Int} (few : m < 2 ^ 53) (past : (2 : ℝ) ^ k < m * 2 ^ e) : (2 : ℝ) ^ k * (1 + 2 ^ (-53 : Int)) ≤ m * 2 ^ e := by
  have unit : (0 : ℝ) < 2 ^ e := by positivity
  rcases lt_or_ge k e with below | above
  · have one : (1 : ℝ) ≤ m := by
      by_contra none
      have zero : m = 0 := by
        by_contra some
        exact none (by exact_mod_cast Nat.one_le_iff_ne_zero.2 some)
      rw [zero, Nat.cast_zero, zero_mul] at past
      exact absurd past (not_lt.2 (by positivity))
    calc (2 : ℝ) ^ k * (1 + 2 ^ (-53 : Int)) ≤ 2 ^ k * 2 := by
          gcongr
          norm_num
      _ = 2 ^ (k + 1) := (zpow_add_one₀ two_ne_zero k).symm
      _ ≤ 2 ^ e := zpow_le_zpow_right₀ one_le_two (by omega)
      _ ≤ m * 2 ^ e := le_mul_of_one_le_left unit.le one
  · rw [two_zpow_sub_nat k e above] at past ⊢
    have more : 2 ^ (k - e).toNat < m := by exact_mod_cast lt_of_mul_lt_mul_right past unit.le
    generalize 2 ^ (k - e).toNat = n at more ⊢
    have step : (n : ℝ) + 1 ≤ m := by exact_mod_cast more
    have slack := units_slack (more.trans few).le
    rw [mul_right_comm]
    gcongr
    linarith only [step, slack]

/-- A number of 53 bits below a power of two is below it by 2^-53 of it. -/
theorem before_power {m : ℕ} {e k : Int} (few : m < 2 ^ 53) (before : (m : ℝ) * 2 ^ e < 2 ^ k) : (m : ℝ) * 2 ^ e ≤ 2 ^ k * (1 - 2 ^ (-53 : Int)) := by
  have unit : (0 : ℝ) < 2 ^ e := by positivity
  rcases lt_or_ge k (e + 53) with below | above
  · rcases lt_or_ge k e with less | more
    · have zero : m = 0 := by
        by_contra some
        have one : (1 : ℝ) ≤ m := by exact_mod_cast Nat.one_le_iff_ne_zero.2 some
        have := before.trans (zpow_lt_zpow_right₀ one_lt_two less)
        nlinarith only [unit, one, this]
      rw [zero, Nat.cast_zero, zero_mul]
      exact mul_nonneg (by positivity) (by norm_num)
    · rw [two_zpow_sub_nat k e more] at before ⊢
      have less : m < 2 ^ (k - e).toNat := by exact_mod_cast lt_of_mul_lt_mul_right before unit.le
      have bits : 2 ^ (k - e).toNat ≤ 2 ^ 53 := Nat.pow_le_pow_right two_pos (by omega)
      generalize 2 ^ (k - e).toNat = n at less bits ⊢
      have step : (m : ℝ) + 1 ≤ n := by exact_mod_cast less
      have slack := units_slack bits
      rw [mul_right_comm]
      gcongr
      linarith only [step, slack]
  · have top : (m : ℝ) + 1 ≤ 2 ^ 53 := by exact_mod_cast few
    calc (m : ℝ) * 2 ^ e ≤ (2 ^ 53 - 1) * 2 ^ e := by gcongr; linarith only [top]
      _ = 2 ^ (e + 53) * (1 - 2 ^ (-53 : Int)) := by
        rw [zpow_add₀ two_ne_zero]
        norm_num
        ring
      _ ≤ 2 ^ k * (1 - 2 ^ (-53 : Int)) := by
        gcongr
        norm_num

/-- What is at least 2^-k in magnitude is made of units of 2^-(k + 53). -/
theorem units_of_large {m : ℕ} {e k : Int} (few : m < 2 ^ 53) (least : (2 : ℝ) ^ k ≤ m * 2 ^ e) : k - 52 ≤ e := by
  have top : (m : ℝ) < 2 ^ (53 : Int) := by exact_mod_cast few
  have bound : (2 : ℝ) ^ k < 2 ^ (53 + e) := by
    rw [zpow_add₀ two_ne_zero]
    exact least.trans_lt (by gcongr)
  have := (zpow_lt_zpow_iff_right₀ one_lt_two).1 bound
  omega

/-! Computed values near a value. -/

theorem sign_of_abs {y z : ℝ} {neg : Bool} (nonneg : 0 ≤ z) (value : y = if neg then -z else z) : |y| = z ∧ if neg then y = -|y| else y = |y| := by
  rw [value]
  cases neg with
  | true => simp [abs_of_nonneg nonneg]
  | false => simp [abs_of_nonneg nonneg]

/-- A value computed from below. -/
theorem Approximates.of_le {neg : Bool} {m : ℕ} {e : Int} {y z : ℝ} (bits : 2 ^ 160 ≤ m) (value : y = if neg then -z else z)
    (le : (m : ℝ) * 2 ^ e ≤ z) (close : z - m * 2 ^ e ≤ 2 ^ (-155 : Int) * z) : Approximates ⟨neg, m, e, false⟩ y := by
  have nonneg : 0 ≤ z := le_trans (by positivity) le
  obtain ⟨abs, sign⟩ := sign_of_abs nonneg value
  refine ⟨rfl, bits, sign, ?_, fun k low => ?_⟩
  · rw [abs, abs_sub_comm, abs_of_nonneg (sub_nonneg.2 le)]
    exact close
  · rw [abs]
    exact low.trans le

/-- A value computed near, when no power of two lies between. -/
theorem Approximates.of_near {neg : Bool} {m : ℕ} {e : Int} {y z : ℝ} (bits : 2 ^ 160 ≤ m) (value : y = if neg then -z else z)
    (close : |(m : ℝ) * 2 ^ e - z| ≤ 2 ^ (-155 : Int) * z) (binade : ∀ k : Int, (2 : ℝ) ^ k ≤ m * 2 ^ e → 2 ^ k ≤ z) : Approximates ⟨neg, m, e, false⟩ y := by
  have nonneg : 0 ≤ z := by
    have := (abs_nonneg _).trans close
    norm_num at this
    linarith only [this]
  obtain ⟨abs, sign⟩ := sign_of_abs nonneg value
  refine ⟨rfl, bits, sign, ?_, ?_⟩
  · rw [abs]
    exact close
  · rw [abs]
    exact binade

theorem below_value {m : ℕ} (pos : 0 < m) (e : Int) : ((m * 2 ^ 200 - 1 : ℕ) : ℝ) * 2 ^ (e - 200) = m * 2 ^ e - 2 ^ (e - 200) := by
  have one : 1 ≤ m * 2 ^ 200 := Nat.mul_pos pos (by positivity)
  have split : (2 : ℝ) ^ e = 2 ^ 200 * 2 ^ (e - 200) := by
    rw [← zpow_natCast, ← zpow_add₀ two_ne_zero]
    congr 1
    omega
  rw [Nat.cast_sub one, Nat.cast_mul, Nat.cast_pow, Nat.cast_two, Nat.cast_one, sub_mul, mul_assoc, ← split, one_mul]

/-- A value just below m 2^e. -/
theorem approximates_below {neg : Bool} {m : ℕ} {e : Int} {y z : ℝ} (pos : 0 < m) (few : m < 2 ^ 53) (value : y = if neg then -z else z)
    (near : |(m : ℝ) * 2 ^ e - z| ≤ 2 ^ (-160 : Int) * (m * 2 ^ e)) : Approximates (below neg m e) y := by
  have unit : (0 : ℝ) < 2 ^ e := by positivity
  have one : (1 : ℝ) ≤ m := by exact_mod_cast pos
  have least : (2 : ℝ) ^ e ≤ m * 2 ^ e := le_mul_of_one_le_left unit.le one
  have half : (2 : ℝ) ^ (e - 200) = 2 ^ e * 2 ^ (-200 : Int) := by
    rw [← zpow_add₀ two_ne_zero]
    rfl
  refine Approximates.of_near ?_ value ?_ fun k low => ?_
  · have : 1 * 2 ^ 200 ≤ m * 2 ^ 200 := Nat.mul_le_mul_right _ pos
    have big : 2 ^ 160 + 1 ≤ 1 * 2 ^ 200 := by decide +kernel
    omega
  · rw [below_value pos, half]
    generalize (m : ℝ) * 2 ^ e = x at *
    generalize (2 : ℝ) ^ e = u at *
    rw [abs_le] at near ⊢
    norm_num at near ⊢
    constructor <;> linarith only [unit, least, near]
  · rw [below_value pos, half] at low
    have past := past_power few (lt_of_le_of_lt low (sub_lt_self _ (mul_pos unit (by positivity))))
    generalize (m : ℝ) * 2 ^ e = x at *
    have power : (0 : ℝ) < 2 ^ k := by positivity
    generalize (2 : ℝ) ^ k = w at *
    rw [abs_le] at near
    norm_num at near past
    linarith only [power, near, past]

/-- A value at or just above a power of two. -/
theorem approximates_above {e : Int} {y : ℝ} (least : (2 : ℝ) ^ e ≤ y) (near : y - 2 ^ e ≤ 2 ^ (-160 : Int) * 2 ^ e) : Approximates (above false 1 e) y := by
  have unit : (0 : ℝ) < 2 ^ e := by positivity
  have value : ((1 * 2 ^ 200 : ℕ) : ℝ) * 2 ^ (e - 200) = 2 ^ e := by
    rw [one_mul, Nat.cast_pow, Nat.cast_two, ← zpow_natCast, ← zpow_add₀ two_ne_zero]
    congr 1
    omega
  refine Approximates.of_le (z := y) (by decide +kernel) (by simp) (by rw [value]; exact least) ?_
  rw [value]
  norm_num at near ⊢
  linarith only [unit, near]

end Sys2Proof.Machine
end

section
/-! PROOFS. The exponential in parts: a power of two and a factor between 1 and 2. -/

namespace Sys2Proof.Machine

theorem power_le {a b : ℤ} (h : a ≤ b) : (2 : ℝ) ^ a ≤ 2 ^ b := zpow_le_zpow_right₀ one_le_two h

theorem scaled_power (k : ℕ) {a b : ℤ} (h : k + a ≤ b) : (2 : ℝ) ^ k * 2 ^ a ≤ 2 ^ b := by
  rw [← zpow_natCast, ← zpow_add₀ two_ne_zero]
  exact power_le h

/-- A value of a sign and a magnitude. -/
def signedReal (neg : Bool) (x : ℝ) : ℝ := if neg then -x else x

theorem abs_signedReal (neg : Bool) (x : ℝ) : |signedReal neg x| = |x| := by
  cases neg <;> simp [signedReal]

/-- What fits the units is taken exactly. -/
theorem fixOf_eq {p : ℕ} {e : Int} (fits : 0 ≤ e + p) (neg : Bool) (m : ℕ) : (fixOf p neg m e : ℝ) = 2 ^ p * signedReal neg (m * 2 ^ e) := by
  have units : (2 : ℝ) ^ (e + p).toNat = 2 ^ p * 2 ^ e := by
    rw [← zpow_natCast, ← zpow_natCast, ← zpow_add₀ two_ne_zero]
    congr 1
    omega
  unfold fixOf signedReal signedNat
  rw [if_pos fits]
  cases neg with
  | true =>
    simp only [if_true]
    push_cast
    rw [units]
    ring
  | false =>
    simp only [Bool.false_eq_true, if_false]
    push_cast
    rw [units]
    ring

/-- The first term is in the sum. -/
theorem expSeries_ge (p x fuel : ℕ) : ∀ i term acc : ℕ, acc ≤ expSeries p x fuel i term acc := by
  induction fuel with
  | zero => exact fun _ _ _ => le_rfl
  | succ fuel ih =>
    intro i term acc
    exact (Nat.le_add_right acc term).trans (ih _ _ _)

theorem expFix_ge (x : ℕ) : 2 ^ prec ≤ expFix prec x := by
  unfold expFix expSeries
  exact (Nat.le_add_left _ _).trans (expSeries_ge _ _ _ _ _ _)

/-- How a factor a and a power n stand to e^X. -/
structure ExpNear (a : ℕ) (n : ℤ) (X : ℝ) : Prop where
  least : 2 ^ prec ≤ a
  top : a < 2 ^ (prec + 1)
  low : Real.exp X * (1 - 2 ^ (-270 : ℤ)) ≤ a * 2 ^ (n - prec)
  high : a * 2 ^ (n - prec) ≤ Real.exp X * (1 + 2 ^ (-270 : ℤ))
  under : n ≤ 0 → a * 2 ^ (n - prec) ≤ Real.exp X
  turns : n * Real.log 2 - 2 ^ (-270 : ℤ) ≤ X
  nonneg : 0 ≤ n ↔ 0 ≤ X
  few : n ≤ 2 ^ 16

/-- A factor q just below E, and the exponential of a rest τ of either sign. -/
theorem factor_near {E q τ δ : ℝ} (pos : 0 < E) (le : q ≤ E) (low : E * (1 - δ) ≤ q) (small : δ ≤ 1 / 8) (rest : |τ| ≤ δ) :
    E * Real.exp τ * (1 - 4 * δ) ≤ q ∧ q ≤ E * Real.exp τ * (1 + 4 * δ) ∧ (0 ≤ τ → q ≤ E * Real.exp τ) := by
  have nonneg : 0 ≤ δ := (abs_nonneg τ).trans rest
  have near := Real.abs_exp_sub_one_le (x := τ) (rest.trans (by linarith only [small]))
  obtain ⟨least, most⟩ := abs_le.1 near
  refine ⟨?_, ?_, fun up => ?_⟩
  · refine le_trans ?_ low
    rw [mul_assoc]
    refine mul_le_mul_of_nonneg_left ?_ pos.le
    have : Real.exp τ ≤ 1 + 2 * δ := by linarith only [rest, most]
    nlinarith only [pos, le, low, small, rest, least, most]
  · refine le.trans ?_
    rw [mul_assoc]
    refine le_mul_of_one_le_right pos.le ?_
    have : 1 - 2 * δ ≤ Real.exp τ := by linarith only [rest, least]
    nlinarith only [pos, le, low, small, rest, least]
  · exact le.trans (le_mul_of_one_le_right pos.le (Real.one_le_exp up))

theorem two_zpow_eq_exp (n : ℤ) : (2 : ℝ) ^ n = Real.exp (n * Real.log 2) := by
  rw [mul_comm, Real.exp_mul, Real.exp_log two_pos, Real.rpow_intCast]

theorem scale_parts (a : ℕ) (n : ℤ) : (a : ℝ) * 2 ^ (n - prec) = 2 ^ n * (a / 2 ^ prec) := by
  rw [zpow_sub₀ two_ne_zero, zpow_natCast]
  ring

/-- The factor that e^x is computed as, for x up to ln 2. -/
theorem expFix_factor {r : ℕ} (small : (r : ℝ) / 2 ^ prec < Real.log 2) :
    (expFix prec r : ℝ) / 2 ^ prec ≤ Real.exp (r / 2 ^ prec) ∧ Real.exp (r / 2 ^ prec) * (1 - 2 ^ (-275 : ℤ)) ≤ expFix prec r / 2 ^ prec
      ∧ expFix prec r < 2 ^ (prec + 1) := by
  have unit : (0 : ℝ) < 2 ^ prec := by positivity
  have fits : r ≤ 2 ^ prec := by
    have : (r : ℝ) / 2 ^ prec ≤ 1 := small.le.trans (Real.log_two_lt_d9.le.trans (by norm_num))
    rw [div_le_one unit] at this
    exact_mod_cast this
  obtain ⟨below, above⟩ := expFix_bounds fits
  have one : 1 ≤ Real.exp (r / 2 ^ prec) := Real.one_le_exp (by positivity)
  have loss : (241 : ℝ) ≤ 2 ^ prec * 2 ^ (-275 : ℤ) := by
    rw [← zpow_natCast, ← zpow_add₀ two_ne_zero]
    norm_num
  refine ⟨by rwa [div_le_iff₀' unit], ?_, ?_⟩
  · rw [le_div_iff₀' unit]
    have more := mul_le_mul_of_nonneg_right loss (zero_le_one.trans one)
    generalize Real.exp (r / 2 ^ prec) = E at *
    generalize (2 : ℝ) ^ (-275 : ℤ) = δ at *
    generalize (2 : ℝ) ^ prec = D at *
    linarith only [one, below, more]
  · have two : Real.exp (r / 2 ^ prec) < 2 := (Real.exp_lt_exp.2 small).trans_eq (Real.exp_log two_pos)
    have double : (expFix prec r : ℝ) < 2 ^ (prec + 1) := by
      rw [pow_succ]
      exact above.trans_lt (mul_lt_mul_of_pos_left two unit)
    exact_mod_cast double

/-- A factor near e^ρ, with X near n turns of ln 2 and ρ. -/
theorem ExpNear.of_rest {r : ℕ} {n : ℤ} {X : ℝ} (small : (r : ℝ) / 2 ^ prec < Real.log 2)
    (near : |X - n * Real.log 2 - r / 2 ^ prec| ≤ 2 ^ (-275 : ℤ))
    (under : n ≤ 0 → 0 ≤ X - n * Real.log 2 - r / 2 ^ prec) (nonneg : 0 ≤ n ↔ 0 ≤ X) (few : n ≤ 2 ^ 16) : ExpNear (expFix prec r) n X := by
  obtain ⟨le, least, top⟩ := expFix_factor small
  obtain ⟨low, high, exact⟩ := factor_near (Real.exp_pos _) le least ((power_le (b := -3) (by norm_num)).trans (by norm_num)) near
  have parts : Real.exp X = 2 ^ n * (Real.exp (r / 2 ^ prec) * Real.exp (X - n * Real.log 2 - r / 2 ^ prec)) := by
    rw [two_zpow_eq_exp, ← Real.exp_add, ← Real.exp_add]
    congr 1
    ring
  have fine : 4 * (2 : ℝ) ^ (-275 : ℤ) ≤ 2 ^ (-270 : ℤ) := by
    rw [show (4 : ℝ) = 2 ^ 2 by norm_num]
    exact scaled_power 2 (by norm_num)
  have value : 0 < Real.exp (r / 2 ^ prec) * Real.exp (X - n * Real.log 2 - r / 2 ^ prec) := by positivity
  refine ⟨expFix_ge r, top, ?_, ?_, fun neg => ?_, ?_, nonneg, few⟩
  · rw [scale_parts, parts, mul_assoc]
    refine mul_le_mul_of_nonneg_left ?_ (by positivity)
    refine le_trans ?_ low
    gcongr
  · rw [scale_parts, parts, mul_assoc]
    refine mul_le_mul_of_nonneg_left ?_ (by positivity)
    refine high.trans ?_
    gcongr
  · rw [scale_parts, parts]
    gcongr
    exact exact (under neg)
  · have rho : (0 : ℝ) ≤ r / 2 ^ prec := by positivity
    have slack : (2 : ℝ) ^ (-275 : ℤ) ≤ 2 ^ (-270 : ℤ) := power_le (by norm_num)
    have least := (abs_le.1 near).1
    generalize (r : ℝ) / 2 ^ prec = ρ at *
    generalize (2 : ℝ) ^ (-275 : ℤ) = δ at *
    generalize (2 : ℝ) ^ (-270 : ℤ) = ε at *
    linarith only [rho, least, slack]

/-- The computed ln 2 of 384 bits, within 2306 units. -/
theorem ln2Fix_384 : 2 ^ 384 * Real.log 2 - 2306 ≤ (ln2Fix (prec + 64) : ℝ) ∧ (ln2Fix (prec + 64) : ℝ) ≤ 2 ^ 384 * Real.log 2 := by
  have bounds := ln2Fix_bounds (prec + 64)
  have count : (6 * ((prec + 64 : ℕ) : ℝ) + 2) = 2306 := by norm_num
  rw [count] at bounds
  exact bounds

/-- X is n times a computed ln 2 (within ε) and a rest μ, of which r takes the units of 2^-320. -/
theorem ExpNear.of_division {X l μ ε : ℝ} {n : ℤ} {r : ℕ} (split : X = n * l + μ) (rest0 : 0 ≤ μ) (rest1 : μ < l) (le : l ≤ Real.log 2)
    (near : Real.log 2 - ε ≤ l) (low : (r : ℝ) / 2 ^ prec ≤ μ) (high : μ - r / 2 ^ prec ≤ 2 ^ (-276 : ℤ)) (fine : 2 ^ 17 * ε ≤ 2 ^ (-276 : ℤ))
    (small : |X| ≤ 2 ^ 15) : ExpNear (expFix prec r) n X := by
  obtain ⟨small0, small1⟩ := abs_le.1 small
  have logs := Real.log_two_gt_d9
  have half : 1 / 2 ≤ l := by
    have few := fine.trans ((power_le (b := -4) (by norm_num)).trans (by norm_num : (2 : ℝ) ^ (-4 : ℤ) ≤ 1 / 16))
    linarith only [rest0, rest1, near, logs, few]
  have loss : 0 ≤ Real.log 2 - l := sub_nonneg.2 le
  have top : (n : ℝ) ≤ 2 ^ 16 := by nlinarith only [split, rest0, rest1, small1, half]
  have bottom : -(2 ^ 16 + 2) ≤ (n : ℝ) := by nlinarith only [split, rest0, rest1, small0, half, top]
  have rest : X - n * Real.log 2 - r / 2 ^ prec = (μ - r / 2 ^ prec) - n * (Real.log 2 - l) := by
    rw [split]
    ring
  have count : |(n : ℝ) * (Real.log 2 - l)| ≤ 2 ^ (-276 : ℤ) := by
    rw [abs_mul, abs_of_nonneg loss]
    calc |(n : ℝ)| * (Real.log 2 - l) ≤ 2 ^ 17 * ε := by
          gcongr
          · exact abs_le.2 ⟨by linarith only [bottom], by linarith only [top]⟩
          · linarith only [near]
      _ ≤ _ := fine
  refine ExpNear.of_rest (low.trans_lt (rest1.trans_le le)) ?_ (fun neg => ?_) ⟨fun up => ?_, fun up => ?_⟩ (by exact_mod_cast top)
  · rw [rest]
    have nonneg : 0 ≤ μ - r / 2 ^ prec := sub_nonneg.2 low
    obtain ⟨count0, count1⟩ := abs_le.1 count
    have double : (2 : ℝ) ^ (-276 : ℤ) + 2 ^ (-276 : ℤ) = 2 ^ (-275 : ℤ) := (two_mul _).symm.trans (zpow_one_add₀ two_ne_zero (-276)).symm
    rw [← double, abs_le]
    generalize (2 : ℝ) ^ (-276 : ℤ) = δ at *
    generalize (r : ℝ) / 2 ^ prec = ρ at *
    constructor <;> linarith only [le, near, fine, count1, low, count0, high]
  · rw [rest]
    have down : (n : ℝ) ≤ 0 := by exact_mod_cast neg
    have := mul_nonpos_of_nonpos_of_nonneg down loss
    have nonneg : 0 ≤ μ - r / 2 ^ prec := sub_nonneg.2 low
    linarith only [low, this]
  · have up' : (0 : ℝ) ≤ n := by exact_mod_cast up
    rw [split]
    nlinarith only [rest0, rest1, bottom, up']
  · by_contra down
    have down' : (n : ℝ) ≤ -1 := by exact_mod_cast Int.le_sub_one_of_lt (not_le.1 down)
    nlinarith only [split, rest0, rest1, up, down']

/-- e^X in parts. -/
theorem expParts_exp {neg : Bool} {m : ℕ} {e : ℤ} (fits : 0 ≤ e + (prec : ℤ)) (small : (m : ℝ) * 2 ^ e ≤ 2 ^ 15) :
    ∃ n, (expParts neg m e false).2 = n - prec ∧ ExpNear (expParts neg m e false).1 n (signedReal neg (m * 2 ^ e)) := by
  have units : (fixOf (prec + 64) neg m e : ℝ) = 2 ^ (prec + 64) * signedReal neg (m * 2 ^ e) := fixOf_eq (by push_cast at fits ⊢; omega) neg m
  have small' : |signedReal neg (m * 2 ^ e)| ≤ 2 ^ 15 := by rwa [abs_signedReal, abs_of_nonneg (by positivity)]
  obtain ⟨near, le⟩ := ln2Fix_bounds (prec + 64)
  refine ⟨fixOf (prec + 64) neg m e / (ln2Fix (prec + 64) : ℤ), rfl, ?_⟩
  change ExpNear (expFix prec ((fixOf (prec + 64) neg m e % (ln2Fix (prec + 64) : ℤ)).toNat / 2 ^ 64)) _ _
  generalize fixOf (prec + 64) neg m e = Y at *
  generalize signedReal neg (m * 2 ^ e) = X at *
  have pos : (0 : ℤ) < ln2Fix (prec + 64) := by
    have : 0 < ln2Fix (prec + 64) := by decide +kernel
    exact_mod_cast this
  generalize ln2Fix (prec + 64) = l at *
  have split := Int.mul_ediv_add_emod Y l
  have rest0 := Int.emod_nonneg Y pos.ne'
  have rest1 := Int.emod_lt_of_pos Y pos
  generalize Y / (l : ℤ) = n at *
  generalize Y % (l : ℤ) = s at *
  have low := div_le_real s.toNat (2 ^ 64)
  have high := real_lt_div (b := 2 ^ 64) (by positivity) s.toNat
  have same : ((s.toNat : ℕ) : ℝ) = s := by exact_mod_cast Int.toNat_of_nonneg rest0
  rw [same] at low high
  generalize s.toNat / 2 ^ 64 = r at *
  have D : (0 : ℝ) < 2 ^ (prec + 64) := by positivity
  have scale (v : ℝ) : v / 2 ^ (prec + 64) = v / (2 ^ 64 : ℕ) / 2 ^ prec := by
    rw [pow_add, mul_comm, ← div_div]
    norm_cast
  have unit : (0 : ℝ) < 2 ^ prec := by positivity
  refine ExpNear.of_division (l := l / 2 ^ (prec + 64)) (μ := s / 2 ^ (prec + 64)) (ε := (6 * (prec + 64 : ℕ) + 2) / 2 ^ (prec + 64)) ?_ ?_ ?_ ?_ ?_ ?_ ?_ ?_ small'
  · rw [← mul_div_assoc, ← add_div, eq_div_iff D.ne', mul_comm X, ← units]
    have : (Y : ℝ) = l * n + s := by exact_mod_cast split.symm
    rw [this, mul_comm]
  · exact div_nonneg (by exact_mod_cast rest0) D.le
  · exact div_lt_div_of_pos_right (by exact_mod_cast rest1) D
  · rwa [div_le_iff₀' D]
  · rw [le_div_iff₀' D, mul_sub, mul_div_cancel₀ _ D.ne']
    exact near
  · rw [scale]
    gcongr
  · rw [scale, ← sub_div, div_le_iff₀ unit]
    have : (1 : ℝ) ≤ 2 ^ (-276 : ℤ) * 2 ^ prec := by
      rw [← zpow_natCast, ← zpow_add₀ two_ne_zero]
      norm_num
    exact le_trans (by linarith only [high]) this
  · rw [← mul_div_assoc, div_le_iff₀ D, ← zpow_natCast _ (prec + 64), ← zpow_add₀ two_ne_zero]
    norm_num

end Sys2Proof.Machine
end

section
/-! PROOFS. `exp` and `exp2`: no argument lies so close to a multiple of ln 2 that its computed value reaches a power of two too early. -/

namespace Sys2Proof.Machine

/-- A multiple of α by less than Q stands away from every integer, where Q α is near an integer that has no divisor in common with Q. -/
theorem not_near_integer {α ε δ : ℝ} {P Q n : ℕ} {j : ℤ} (coprime : Nat.Coprime Q P) (near : |Q * α - P| ≤ ε) (pos : 0 < n) (less : n < Q)
    (close : |n * α - j| ≤ δ) (small : n * ε + Q * δ < 1) : False := by
  have bound : |((n * P - j * Q : ℤ) : ℝ)| < 1 := by
    have split : ((n * P - j * Q : ℤ) : ℝ) = Q * (n * α - j) - n * (Q * α - P) := by
      push_cast
      ring
    rw [split]
    calc |Q * (n * α - j) - n * (Q * α - P)| ≤ |Q * (n * α - j)| + |n * (Q * α - P)| := abs_sub _ _
      _ = Q * |n * α - j| + n * |Q * α - P| := by rw [abs_mul, abs_mul, Nat.abs_cast, Nat.abs_cast]
      _ ≤ Q * δ + n * ε := by gcongr
      _ < 1 := by linarith only [small]
  have whole : |(n * P - j * Q : ℤ)| < 1 := by exact_mod_cast bound
  have equal : (n * P : ℤ) = j * Q := sub_eq_zero.1 (Int.abs_lt_one_iff.1 whole)
  have divides : (Q : ℤ) ∣ (n * P : ℕ) := ⟨j, by push_cast; rw [equal, mul_comm]⟩
  have divides' : Q ∣ n := coprime.dvd_of_dvd_mul_right (Int.natCast_dvd_natCast.1 divides)
  exact absurd (Nat.le_of_dvd pos divides') (not_le.2 less)

theorem ln2_convergent : |((483495 : ℕ) : ℝ) * (2 ^ 53 * Real.log 2) - (3018611473834110350698 : ℕ)| ≤ 2 ^ (-20 : ℤ) := by
  obtain ⟨low, high⟩ := ln2Fix_bounds 128
  have value : ln2Fix 128 = 235865763225513294137944142764154484360 := by decide +kernel
  rw [value] at low high
  rw [abs_le]
  norm_num at low high ⊢
  constructor <;> linarith only [high, low]

/-- A multiple of 2^-53 just short of n turns of ln 2 is none. -/
theorem ln2_turns {n : ℤ} {X : ℝ} {j : ℤ} (pos : 0 < n) (few : n ≤ 2 ^ 16) (units : X = j / 2 ^ 53) (near : n * Real.log 2 - 2 ^ (-270 : ℤ) ≤ X) : n * Real.log 2 ≤ X := by
  by_contra short
  rw [not_le] at short
  obtain ⟨N, rfl⟩ := Int.eq_ofNat_of_zero_le pos.le
  have few' : N ≤ 2 ^ 16 := by exact_mod_cast few
  have top : (N : ℝ) ≤ 65536 := by exact_mod_cast few'
  refine not_near_integer (j := j) (δ := 2 ^ (-100 : ℤ)) (n := N) (by decide +kernel) ln2_convergent (by exact_mod_cast pos) (by omega) ?_ ?_
  · rw [units] at near short
    have wider : (2 : ℝ) ^ (-270 : ℤ) ≤ 2 ^ (-200 : ℤ) := power_le (by norm_num)
    rw [abs_le]
    generalize (2 : ℝ) ^ (-270 : ℤ) = ε at *
    norm_num at near short wider ⊢
    constructor <;> linarith only [near, short, wider]
  · norm_num
    linarith only [top]

/-- e^X from its parts. -/
theorem Approximates.of_exp {a : ℕ} {n : ℤ} {X : ℝ} (h : ExpNear a n X) (turns : 0 < n → n * Real.log 2 ≤ X) :
    Approximates ⟨false, a, n - prec, false⟩ (Real.exp X) := by
  have value := Real.exp_pos X
  refine Approximates.of_near (z := Real.exp X) ((Nat.pow_le_pow_right two_pos (by norm_num)).trans h.least) (by simp) ?_ fun k low => ?_
  · have least := h.low
    have most := h.high
    have slack : (2 : ℝ) ^ (-270 : ℤ) ≤ 2 ^ (-155 : ℤ) := power_le (by norm_num)
    generalize (a : ℝ) * 2 ^ (n - prec) = v at *
    generalize (2 : ℝ) ^ (-270 : ℤ) = ε at *
    generalize (2 : ℝ) ^ (-155 : ℤ) = δ at *
    rw [abs_le]
    constructor <;> nlinarith only [value, least, slack, most]
  · rcases le_or_gt n 0 with neg | pos
    · exact low.trans (h.under neg)
    · have top : (a : ℝ) * 2 ^ (n - prec) < 2 ^ (n + 1) := by
        have less : (a : ℝ) < 2 ^ (prec + 1) := by exact_mod_cast h.top
        calc (a : ℝ) * 2 ^ (n - prec) < 2 ^ (prec + 1) * 2 ^ (n - prec) := by gcongr
          _ = 2 ^ (n + 1) := by
            rw [← zpow_natCast, ← zpow_add₀ two_ne_zero]
            congr 1
            push_cast
            ring
      have below := (zpow_lt_zpow_iff_right₀ one_lt_two).1 (low.trans_lt top)
      calc (2 : ℝ) ^ k ≤ 2 ^ n := zpow_le_zpow_right₀ one_le_two (by omega)
        _ = Real.exp (n * Real.log 2) := two_zpow_eq_exp n
        _ ≤ Real.exp X := Real.exp_le_exp.2 (turns pos)

/-- Units of 2^e, e at least -g, are units of 2^-g. -/
theorem units_down {m g : ℕ} {e : ℤ} (fits : -(g : ℤ) ≤ e) : (m : ℝ) * 2 ^ e = ((m * 2 ^ (e + g).toNat : ℤ) : ℝ) / 2 ^ g := by
  rw [eq_div_iff (by positivity)]
  push_cast
  rw [mul_assoc, ← zpow_natCast, ← zpow_natCast, ← zpow_add₀ two_ne_zero]
  congr 2
  omega

/-- What a format can be served with. -/
def Fmt.Served (f : Fmt) (A : Approx) (y : ℝ) : Prop := ∃ x, f.Serves A y x

theorem Fmt.Wide.served {f : Fmt} (wide : f.Wide) {A : Approx} {y : ℝ} (h : Approximates A y) : f.Served A y := ⟨_, wide.serves h⟩

theorem signedReal_true (x : ℝ) : signedReal true x = -x := rfl
theorem signedReal_false (x : ℝ) : signedReal false x = x := rfl

/-- What is not below 2^-k is made of units of 2^-(k + 52). -/
theorem units_of_not_tiny {m k : ℕ} {e : ℤ} (pos : 0 < m) (few : m < 2 ^ 53) (h : ¬ tiny m e k = true) : -((k : ℤ) + 52) ≤ e := by
  rw [tiny_iff pos, not_lt] at h
  have := units_of_large few h
  omega

theorem exp_value_large {m : ℕ} {e : ℤ} (h : large m e 14 = true) (neg : Bool) :
    Special8.exp.value neg m e = if neg then ⟨false, 1, -20000, false⟩ else ⟨false, 1, 20000, false⟩ := if_pos h

theorem exp_value_tiny {m : ℕ} {e : ℤ} (h : ¬ large m e 14 = true) (h' : tiny m e 200 = true) (neg : Bool) :
    Special8.exp.value neg m e = if neg then below false 1 0 else above false 1 0 := (if_neg h).trans (if_pos h')

theorem exp_value {m : ℕ} {e : ℤ} (h : ¬ large m e 14 = true) (h' : ¬ tiny m e 200 = true) (neg : Bool) :
    Special8.exp.value neg m e = ⟨false, (expParts neg m e false).1, (expParts neg m e false).2, false⟩ := (if_neg h).trans (if_neg h')

theorem exp_neg_tiny {x : ℝ} (h : (2 : ℝ) ^ 11 ≤ x) : Real.exp (-x) ≤ 2 ^ (-2000 : ℤ) := by
  rw [two_zpow_eq_exp, Real.exp_le_exp]
  have := Real.log_two_lt_d9
  push_cast
  linarith only [h, this]

/-- Near 0, e^x is near 1, on the side of x. -/
theorem approximates_one {neg : Bool} {x : ℝ} (nonneg : 0 ≤ x) (small : x ≤ 2 ^ (-161 : ℤ)) :
    Approximates (if neg then below false 1 0 else above false 1 0) (Real.exp (signedReal neg x)) := by
  have fine : 2 * (2 : ℝ) ^ (-161 : ℤ) = 2 ^ (-160 : ℤ) := by norm_num
  have top : (2 : ℝ) ^ (-161 : ℤ) ≤ 1 := by norm_num
  have near := Real.abs_exp_sub_one_le (x := signedReal neg x) (by rw [abs_signedReal, abs_of_nonneg nonneg]; exact small.trans top)
  rw [abs_signedReal, abs_of_nonneg nonneg] at near
  have near' : |Real.exp (signedReal neg x) - 1| ≤ 2 ^ (-160 : ℤ) := near.trans (by linarith only [small, fine])
  cases neg with
  | true =>
    refine approximates_below one_pos (by norm_num) (z := Real.exp (signedReal true x)) (by simp) ?_
    rw [Nat.cast_one, zpow_zero, mul_one, mul_one, abs_sub_comm]
    exact near'
  | false =>
    refine approximates_above (by rw [zpow_zero]; exact Real.one_le_exp nonneg) ?_
    rw [zpow_zero, mul_one]
    exact (le_abs_self _).trans near'

/-- `exp` (Table 10-9), where it does not overflow. -/
theorem exp_served {f : Fmt} (wide : f.Wide) {neg : Bool} {m : ℕ} {e : ℤ} (pos : 0 < m) (few : m < 2 ^ 53) (fits : large m e 14 = true → neg = true) :
    f.Served (Special8.exp.value neg m e) (Real.exp (signedReal neg (m * 2 ^ e))) := by
  by_cases h : large m e 14 = true
  · rw [exp_value_large h, fits h, if_pos rfl]
    rw [large_iff pos] at h
    exact ⟨_, wide.serves_tiny (Real.exp_pos _) (exp_neg_tiny (le_trans (by norm_num) h))⟩
  by_cases h' : tiny m e 200 = true
  · rw [exp_value_tiny h h']
    rw [tiny_iff pos] at h'
    exact wide.served (approximates_one (by positivity) (h'.le.trans (by norm_num)))
  rw [exp_value h h']
  have small := units_of_not_tiny pos few h'
  rw [large_iff pos, not_le] at h
  obtain ⟨n, exponent, near⟩ := expParts_exp (neg := neg) (by unfold prec; omega) (h.le.trans (by norm_num))
  rw [exponent]
  refine wide.served (Approximates.of_exp near fun up => ?_)
  have turns := near.turns
  have nonneg := near.nonneg.1 up.le
  have one : (1 : ℝ) ≤ n := by exact_mod_cast up
  have logs := Real.log_two_gt_d9
  have half : (2 : ℝ) ^ (-1 : ℤ) ≤ signedReal neg (m * 2 ^ e) := by
    have fine : (2 : ℝ) ^ (-270 : ℤ) ≤ 1 / 16 := (power_le (b := -4) (by norm_num)).trans (by norm_num)
    have least : Real.log 2 ≤ n * Real.log 2 := le_mul_of_one_le_left (by linarith only [logs]) one
    rw [zpow_neg_one]
    generalize (2 : ℝ) ^ (-270 : ℤ) = ε at *
    linarith only [logs, least, turns, fine]
  cases neg with
  | true =>
    rw [signedReal_true] at half
    have : (0 : ℝ) ≤ m * 2 ^ e := by positivity
    norm_num at half
    linarith only [this, half]
  | false => exact ln2_turns up near.few (units_down (by have := units_of_large few half; omega)) turns

/-! `exp2`. -/

theorem exp2_value_large {m : ℕ} {e : ℤ} (h : large m e 14 = true) (neg : Bool) :
    Special8.exp2.value neg m e = if neg then ⟨false, 1, -20000, false⟩ else ⟨false, 1, 20000, false⟩ := if_pos h

theorem exp2_value_whole {m : ℕ} {e : ℤ} (h : ¬ large m e 14 = true) (h' : 0 ≤ e ∨ m % 2 ^ (-e).toNat = 0) (neg : Bool) :
    Special8.exp2.value neg m e = ⟨false, 1, signedNat neg (if 0 ≤ e then m * 2 ^ e.toNat else m / 2 ^ (-e).toNat), true⟩ := (if_neg h).trans (if_pos h')

theorem exp2_value_tiny {m : ℕ} {e : ℤ} (h : ¬ large m e 14 = true) (h' : ¬ (0 ≤ e ∨ m % 2 ^ (-e).toNat = 0)) (h'' : tiny m e 200 = true) (neg : Bool) :
    Special8.exp2.value neg m e = if neg then below false 1 0 else above false 1 0 := (if_neg h).trans ((if_neg h').trans (if_pos h''))

theorem exp2_value {m : ℕ} {e : ℤ} (h : ¬ large m e 14 = true) (h' : ¬ (0 ≤ e ∨ m % 2 ^ (-e).toNat = 0)) (h'' : ¬ tiny m e 200 = true) (neg : Bool) :
    Special8.exp2.value neg m e = ⟨false, (expParts neg m e true).1, (expParts neg m e true).2, false⟩ := (if_neg h).trans ((if_neg h').trans (if_neg h''))

theorem ln2Fix_prec : 2 ^ prec * Real.log 2 - 1922 ≤ (ln2Fix prec : ℝ) ∧ (ln2Fix prec : ℝ) ≤ 2 ^ prec * Real.log 2 := by
  have bounds := ln2Fix_bounds prec
  have count : (6 * ((prec : ℕ) : ℝ) + 2) = 1922 := by norm_num
  rwa [count] at bounds

/-- Units of 2^-p, taken apart into a whole number and a fraction. -/
theorem whole_and_fraction {p f : ℕ} {Y n : ℤ} {X : ℝ} (units : (Y : ℝ) = 2 ^ p * X) (split : ((2 ^ p : ℕ) : ℤ) * n + f = Y) (rest : (f : ℤ) < (2 ^ p : ℕ)) :
    X = n + f / 2 ^ p ∧ (f : ℝ) / 2 ^ p < 1 := by
  have unit : (0 : ℝ) < 2 ^ p := by positivity
  have cast : (Y : ℝ) = 2 ^ p * n + f := by
    rw [← split]
    push_cast
    rfl
  constructor
  · rw [← mul_right_inj' unit.ne', mul_add, mul_div_cancel₀ _ unit.ne', ← units, cast]
  · rw [div_lt_one unit]
    exact_mod_cast rest

/-- The product of two numbers in units of 2^-p, floored. -/
theorem scaled_floor (p f l : ℕ) : ((f * l / 2 ^ p : ℕ) : ℝ) / 2 ^ p ≤ f / 2 ^ p * (l / 2 ^ p)
    ∧ (f : ℝ) / 2 ^ p * (l / 2 ^ p) - 1 / 2 ^ p ≤ (f * l / 2 ^ p : ℕ) / 2 ^ p := by
  have unit : (0 : ℝ) < 2 ^ p := by positivity
  have low := div_le_real (f * l) (2 ^ p)
  have high := real_lt_div (b := 2 ^ p) (by positivity) (f * l)
  have scale : ((f * l : ℕ) : ℝ) / ((2 ^ p : ℕ) : ℝ) = 2 ^ p * (f / 2 ^ p * (l / 2 ^ p)) := by
    push_cast
    field_simp
  rw [scale] at low high
  constructor
  · rwa [div_le_iff₀' unit]
  · rw [sub_le_iff_le_add, ← add_div, le_div_iff₀' unit]
    exact high.le

/-- 2^X in parts: a power of two not above it, and the factor of the rest. -/
theorem expParts_exp2 {neg : Bool} {m : ℕ} {e : ℤ} (fits : 0 ≤ e + (prec : ℤ)) (small : (m : ℝ) * 2 ^ e ≤ 2 ^ 15) :
    ∃ n : ℤ, (expParts neg m e true).2 = n - prec ∧ ExpNear (expParts neg m e true).1 n (signedReal neg (m * 2 ^ e) * Real.log 2)
      ∧ n * Real.log 2 ≤ signedReal neg (m * 2 ^ e) * Real.log 2 := by
  have units := fixOf_eq fits neg m
  have small' : |signedReal neg (m * 2 ^ e)| ≤ 2 ^ 15 := by rwa [abs_signedReal, abs_of_nonneg (by positivity)]
  obtain ⟨least, most⟩ := ln2Fix_prec
  refine ⟨fixOf prec neg m e / (2 ^ prec : ℕ), rfl, ?_⟩
  change ExpNear (expFix prec ((fixOf prec neg m e % (2 ^ prec : ℕ)).toNat * ln2Fix prec / 2 ^ prec)) _ _ ∧ _
  generalize fixOf prec neg m e = Y at *
  generalize signedReal neg (m * 2 ^ e) = X at *
  have D : (0 : ℤ) < (2 ^ prec : ℕ) := by positivity
  have split := Int.mul_ediv_add_emod Y (2 ^ prec : ℕ)
  have rest0 := Int.emod_nonneg Y D.ne'
  have rest1 := Int.emod_lt_of_pos Y D
  generalize Y / ((2 ^ prec : ℕ) : ℤ) = n at *
  generalize Y % ((2 ^ prec : ℕ) : ℤ) = s at *
  obtain ⟨f, rfl⟩ := Int.eq_ofNat_of_zero_le rest0
  rw [Int.toNat_natCast]
  have unit : (0 : ℝ) < 2 ^ prec := by positivity
  obtain ⟨low', high'⟩ := scaled_floor prec f (ln2Fix prec)
  generalize f * ln2Fix prec / 2 ^ prec = r at *
  obtain ⟨whole, top⟩ := whole_and_fraction (p := prec) units split rest1
  have bottom : (0 : ℝ) ≤ f / 2 ^ prec := div_nonneg (Nat.cast_nonneg _) unit.le
  have ln2 : (ln2Fix prec : ℝ) / 2 ^ prec ≤ Real.log 2 := by rwa [div_le_iff₀' unit]
  have ln2' : Real.log 2 - 1922 * (1 / 2 ^ prec) ≤ ln2Fix prec / 2 ^ prec := by
    rw [le_div_iff₀' unit, mul_sub, mul_left_comm, mul_one_div_cancel unit.ne', mul_one]
    exact least
  have slack : 1923 * (1 / (2 : ℝ) ^ prec) ≤ 2 ^ (-275 : ℤ) := by
    rw [mul_one_div, div_le_iff₀ unit, ← zpow_natCast, ← zpow_add₀ two_ne_zero]
    norm_num
  have inv : 0 ≤ 1 / (2 : ℝ) ^ prec := by positivity
  have logs : 0 < Real.log 2 := Real.log_pos one_lt_two
  generalize (f : ℝ) / 2 ^ prec = φ at *
  generalize (ln2Fix prec : ℝ) / 2 ^ prec = l at *
  generalize 1 / (2 : ℝ) ^ prec = u at *
  have product : φ * l ≤ φ * Real.log 2 := by gcongr
  have product' : φ * (Real.log 2 - l) ≤ 1 * (1922 * u) := mul_le_mul top.le (by linarith only [ln2']) (by linarith only [ln2]) zero_le_one
  have rest : X * Real.log 2 - n * Real.log 2 - r / 2 ^ prec = φ * Real.log 2 - r / 2 ^ prec := by
    rw [whole]
    ring
  have nonneg : 0 ≤ φ * Real.log 2 - r / 2 ^ prec := by linarith only [low', product]
  have turns : (n : ℝ) ≤ X := by linarith only [whole, bottom]
  refine ⟨ExpNear.of_rest ?_ ?_ (fun _ => by rw [rest]; exact nonneg) ⟨fun up => ?_, fun up => ?_⟩ ?_, by gcongr⟩
  · have : φ * Real.log 2 < 1 * Real.log 2 := by gcongr
    linarith only [low', product, this]
  · rw [rest, abs_of_nonneg nonneg]
    generalize (r : ℝ) / 2 ^ prec = ρ at *
    exact le_trans (by linarith only [product', high']) slack
  · have up' : (0 : ℝ) ≤ n := by exact_mod_cast up
    exact mul_nonneg (up'.trans turns) logs.le
  · have up' := nonneg_of_mul_nonneg_left up logs
    by_contra down
    have down' : (n : ℝ) ≤ -1 := by exact_mod_cast Int.le_sub_one_of_lt (not_le.1 down)
    linarith only [whole, top, up', down']
  · have : (n : ℝ) ≤ 2 ^ 16 := turns.trans ((abs_le.1 small').2.trans (by norm_num))
    exact_mod_cast this

theorem two_rpow_eq_exp (x : ℝ) : (2 : ℝ) ^ x = Real.exp (x * Real.log 2) := by rw [Real.rpow_def_of_pos two_pos, mul_comm]

theorem signedReal_whole {m : ℕ} {e : ℤ} (whole : 0 ≤ e ∨ m % 2 ^ (-e).toNat = 0) (neg : Bool) :
    signedReal neg (m * 2 ^ e) = (signedNat neg (if 0 ≤ e then m * 2 ^ e.toNat else m / 2 ^ (-e).toNat) : ℤ) := by
  have units : (m : ℝ) * 2 ^ e = ((if 0 ≤ e then m * 2 ^ e.toNat else m / 2 ^ (-e).toNat : ℕ) : ℝ) := by
    split
    · next up =>
      push_cast
      rw [← zpow_natCast, Int.toNat_of_nonneg up]
    · next down =>
      have divides := Nat.dvd_of_mod_eq_zero (whole.resolve_left down)
      rw [Nat.cast_div divides (by positivity), Nat.cast_pow, Nat.cast_two, ← zpow_natCast, Int.toNat_of_nonneg (by omega), zpow_neg, div_inv_eq_mul]
  rw [units]
  generalize (if 0 ≤ e then m * 2 ^ e.toNat else m / 2 ^ (-e).toNat : ℕ) = n
  cases neg with
  | true => simp [signedReal, signedNat]
  | false => simp [signedReal, signedNat]

/-- `exp2` (Table 10-9), where it does not overflow. -/
theorem exp2_served {f : Fmt} (wide : f.Wide) {neg : Bool} {m : ℕ} {e : ℤ} (pos : 0 < m) (few : m < 2 ^ 53) (fits : large m e 14 = true → neg = true) :
    f.Served (Special8.exp2.value neg m e) ((2 : ℝ) ^ signedReal neg (m * 2 ^ e)) := by
  rw [two_rpow_eq_exp]
  by_cases h : large m e 14 = true
  · rw [exp2_value_large h, fits h, if_pos rfl]
    rw [large_iff pos] at h
    refine ⟨_, wide.serves_tiny (Real.exp_pos _) ?_⟩
    have logs := Real.log_two_gt_d9
    rw [signedReal_true, neg_mul]
    refine exp_neg_tiny ?_
    calc (2 : ℝ) ^ 11 ≤ 2 ^ ((14 : ℕ) : ℤ) * Real.log 2 := by norm_num; linarith only [logs]
      _ ≤ _ := by gcongr
  by_cases h' : 0 ≤ e ∨ m % 2 ^ (-e).toNat = 0
  · rw [exp2_value_whole h h']
    have power : Real.exp (signedReal neg (m * 2 ^ e) * Real.log 2) = 2 ^ signedNat neg (if 0 ≤ e then m * 2 ^ e.toNat else m / 2 ^ (-e).toNat) := by
      rw [signedReal_whole h', two_zpow_eq_exp]
    refine ⟨_, Fmt.serves_exact one_pos ?_ ?_⟩
    · rw [Nat.cast_one, one_mul, abs_of_pos (Real.exp_pos _), power]
    · exact (abs_of_pos (Real.exp_pos _)).symm
  by_cases h'' : tiny m e 200 = true
  · rw [exp2_value_tiny h h' h'']
    rw [tiny_iff pos] at h''
    have logs := Real.log_two_lt_d9
    have logs' := Real.log_pos one_lt_two
    have scaled : signedReal neg (m * 2 ^ e) * Real.log 2 = signedReal neg (m * 2 ^ e * Real.log 2) := by cases neg <;> simp [signedReal]
    rw [scaled]
    refine wide.served (approximates_one (by positivity) ?_)
    calc (m : ℝ) * 2 ^ e * Real.log 2 ≤ m * 2 ^ e * 1 := by gcongr; linarith only [logs, logs']
      _ ≤ 2 ^ (-161 : ℤ) := by rw [mul_one]; exact h''.le.trans (by norm_num)
  rw [exp2_value h h' h'']
  have small := units_of_not_tiny pos few h''
  rw [large_iff pos, not_le] at h
  obtain ⟨n, exponent, near, turns⟩ := expParts_exp2 (neg := neg) (by unfold prec; omega) (h.le.trans (by norm_num))
  rw [exponent]
  exact wide.served (Approximates.of_exp near fun _ => turns)

end Sys2Proof.Machine
end

section
/-! PROOFS. `sigmoid` and `tanh`, from the parts of the exponential. -/

namespace Sys2Proof.Machine

/-! `sigmoid`: S / (1 + S) of S = e^x. -/

theorem sigmoid_eq (X : ℝ) : 1 / (1 + Real.exp (-X)) = Real.exp X / (1 + Real.exp X) := by
  rw [Real.exp_neg]
  have := Real.exp_pos X
  field_simp
  ring

/-- S / (1 + S) takes up no more than the relative error of S. -/
theorem ratio_near {E S ε : ℝ} (pos : 0 < S) (pos' : 0 < E) (near : |E - S| ≤ ε * S) : |E / (1 + E) - S / (1 + S)| ≤ ε * (S / (1 + S)) := by
  have step : E / (1 + E) - S / (1 + S) = (E - S) / ((1 + E) * (1 + S)) := by
    field_simp
    ring
  rw [step, abs_div, abs_of_pos (by positivity : 0 < (1 + E) * (1 + S)), div_le_iff₀ (by positivity)]
  have nonneg : 0 ≤ ε * S := (abs_nonneg _).trans near
  calc |E - S| ≤ ε * S := near
    _ ≤ ε * S * (1 + E) := le_mul_of_one_le_right nonneg (by linarith only [pos'])
    _ = ε * (S / (1 + S)) * ((1 + E) * (1 + S)) := by field_simp

theorem ExpNear.near {a : ℕ} {n : ℤ} {X : ℝ} (h : ExpNear a n X) : |a * 2 ^ (n - prec) - Real.exp X| ≤ 2 ^ (-270 : ℤ) * Real.exp X := by
  have low := h.low
  have high := h.high
  rw [abs_le]
  constructor <;> linarith only [low, high]

/-- The value of `sigmoid` by the parts of the exponential. -/
def sigmoidParts (a : ℕ) (n : ℤ) : Approx :=
  if 0 ≤ n then
    if 300 < n then below false 1 0 else ⟨false, a * 2 ^ n.toNat * 2 ^ (prec + 300) / (a * 2 ^ n.toNat + 2 ^ prec), -((prec : ℤ) + 300), false⟩
  else ⟨false, a * 2 ^ (prec + (-n).toNat) / (2 ^ (prec + (-n).toNat) + a), n - prec, false⟩

theorem sigmoid_value_tiny {m : ℕ} {e : ℤ} (h : tiny m e 200 = true) (neg : Bool) :
    Special8.sigmoid.value neg m e = if neg then below false 1 (-1) else above false 1 (-1) := if_pos h

theorem sigmoid_value_large {m : ℕ} {e : ℤ} (h : ¬ tiny m e 200 = true) (h' : large m e 14 = true) (neg : Bool) :
    Special8.sigmoid.value neg m e = if neg then ⟨false, 1, -20000, false⟩ else below false 1 0 := (if_neg h).trans (if_pos h')

theorem sigmoid_value {m : ℕ} {e n : ℤ} {neg : Bool} (h : ¬ tiny m e 200 = true) (h' : ¬ large m e 14 = true) (exponent : (expParts neg m e false).2 = n - prec) :
    Special8.sigmoid.value neg m e = sigmoidParts (expParts neg m e false).1 n := by
  refine ((if_neg h).trans (if_neg h')).trans ?_
  dsimp only
  rw [exponent, sub_add_cancel]
  rfl

/-- Near 0, `sigmoid` is near 1 / 2, on the side of x. -/
theorem approximates_half {neg : Bool} {x : ℝ} (nonneg : 0 ≤ x) (small : x ≤ 2 ^ (-161 : ℤ)) :
    Approximates (if neg then below false 1 (-1) else above false 1 (-1)) (1 / (1 + Real.exp (-signedReal neg x))) := by
  have fine : 2 * (2 : ℝ) ^ (-161 : ℤ) = 2 ^ (-160 : ℤ) := by norm_num
  have top : (2 : ℝ) ^ (-161 : ℤ) ≤ 1 := by norm_num
  have near := Real.abs_exp_sub_one_le (x := -signedReal neg x) (by rw [abs_neg, abs_signedReal, abs_of_nonneg nonneg]; exact small.trans top)
  rw [abs_neg, abs_signedReal, abs_of_nonneg nonneg] at near
  have near' : |Real.exp (-signedReal neg x) - 1| ≤ 2 ^ (-160 : ℤ) := near.trans (by linarith only [small, fine])
  have pos := Real.exp_pos (-signedReal neg x)
  have half : |1 / (1 + Real.exp (-signedReal neg x)) - 2 ^ (-1 : ℤ)| ≤ 2 ^ (-160 : ℤ) * 2 ^ (-1 : ℤ) := by
    generalize Real.exp (-signedReal neg x) = t at *
    have step : 1 / (1 + t) - 2 ^ (-1 : ℤ) = (1 - t) / (2 * (1 + t)) := by
      rw [zpow_neg_one]
      field_simp
      ring
    rw [step, abs_div, abs_of_pos (by positivity : 0 < 2 * (1 + t)), abs_sub_comm, div_le_iff₀ (by positivity), zpow_neg_one]
    have : (0 : ℝ) ≤ 2 ^ (-160 : ℤ) := by positivity
    calc |t - 1| ≤ 2 ^ (-160 : ℤ) := near'
      _ ≤ 2 ^ (-160 : ℤ) * (1 + t) := le_mul_of_one_le_right this (by linarith only [pos])
      _ = 2 ^ (-160 : ℤ) * 2⁻¹ * (2 * (1 + t)) := by ring
  cases neg with
  | true =>
    refine approximates_below one_pos (by norm_num) (z := 1 / (1 + Real.exp (-signedReal true x))) (by simp) ?_
    rw [Nat.cast_one, one_mul, abs_sub_comm]
    exact half
  | false =>
    refine approximates_above ?_ ((le_abs_self _).trans half)
    have less : Real.exp (-signedReal false x) ≤ 1 := by
      rw [Real.exp_le_one_iff, signedReal_false]
      linarith only [nonneg]
    rw [zpow_neg_one, ← one_div]
    gcongr
    linarith only [less]

/-- `sigmoid` of large values. -/
theorem approximates_one_below {X : ℝ} (large : 160 * Real.log 2 ≤ X) : Approximates (below false 1 0) (1 / (1 + Real.exp (-X))) := by
  have small : Real.exp (-X) ≤ 2 ^ (-160 : ℤ) := by
    rw [two_zpow_eq_exp, Real.exp_le_exp]
    push_cast
    linarith only [large]
  have pos := Real.exp_pos (-X)
  refine approximates_below one_pos (by norm_num) (z := 1 / (1 + Real.exp (-X))) (by simp) ?_
  rw [Nat.cast_one, zpow_zero, mul_one, mul_one]
  generalize Real.exp (-X) = t at *
  have step : 1 - 1 / (1 + t) = t / (1 + t) := by
    field_simp
    ring
  rw [step, abs_of_nonneg (by positivity)]
  exact (div_le_self pos.le (by linarith only [pos])).trans small

/-- The floor of E / (1 + E) in units of 2^-q, E in units of 2^-p. -/
theorem ratio_floor (ex p q : ℕ) : ((ex * 2 ^ q / (ex + 2 ^ p) : ℕ) : ℝ) / 2 ^ q ≤ (ex / 2 ^ p : ℝ) / (1 + ex / 2 ^ p)
    ∧ (ex / 2 ^ p : ℝ) / (1 + ex / 2 ^ p) - 1 / 2 ^ q ≤ (ex * 2 ^ q / (ex + 2 ^ p) : ℕ) / 2 ^ q := by
  have unit : (0 : ℝ) < 2 ^ q := by positivity
  have low := div_le_real (ex * 2 ^ q) (ex + 2 ^ p)
  have high := real_lt_div (b := ex + 2 ^ p) (by positivity) (ex * 2 ^ q)
  have scale : ((ex * 2 ^ q : ℕ) : ℝ) / ((ex + 2 ^ p : ℕ) : ℝ) = 2 ^ q * ((ex / 2 ^ p : ℝ) / (1 + ex / 2 ^ p)) := by
    push_cast
    field_simp
    ring
  rw [scale] at low high
  constructor
  · rwa [div_le_iff₀' unit]
  · rw [sub_le_iff_le_add, ← add_div, le_div_iff₀' unit]
    exact high.le

theorem half_le_ratio {b d q : ℕ} (h : d ≤ 2 * b) (pos : 0 < d) : 2 ^ q ≤ b * 2 ^ (q + 1) / d := by
  rw [Nat.le_div_iff_mul_le pos, pow_succ]
  calc 2 ^ q * d ≤ 2 ^ q * (2 * b) := Nat.mul_le_mul_left _ h
    _ = b * (2 ^ q * 2) := by ring

theorem inv_two_zpow (q : ℕ) (v : ℝ) {k : ℤ} (h : k = -(q : ℤ)) : v * 2 ^ k = v / 2 ^ q := by
  rw [h, zpow_neg, zpow_natCast, div_eq_mul_inv]

theorem approximates_sigmoid_nonneg {a : ℕ} {n : ℤ} {X : ℝ} (h : ExpNear a n X) (nonneg : 0 ≤ n) (few : ¬ 300 < n) :
    Approximates (sigmoidParts a n) (1 / (1 + Real.exp (-X))) := by
  unfold sigmoidParts
  rw [if_pos nonneg, if_neg few, sigmoid_eq]
  have near := h.near
  have scale : (a : ℝ) * 2 ^ (n - prec) = ((a * 2 ^ n.toNat : ℕ) : ℝ) / 2 ^ prec := by
    rw [zpow_sub₀ two_ne_zero, zpow_natCast]
    push_cast
    rw [← zpow_natCast 2 n.toNat, Int.toNat_of_nonneg nonneg]
    ring
  have least : 2 ^ prec ≤ a * 2 ^ n.toNat := h.least.trans (Nat.le_mul_of_pos_right _ (by positivity))
  have one := Real.one_le_exp (h.nonneg.1 nonneg)
  generalize a * 2 ^ n.toNat = ex at *
  rw [scale] at near
  have unit : (0 : ℝ) < 2 ^ prec := by positivity
  have unit' : 0 < 2 ^ prec := Nat.two_pow_pos _
  have bits := half_le_ratio (q := 619) (b := ex) (d := ex + 2 ^ prec) (by omega) (by omega)
  obtain ⟨low, high⟩ := ratio_floor ex prec (prec + 300)
  have pos : (0 : ℝ) < ex / 2 ^ prec := by
    have : (0 : ℝ) < ex := by exact_mod_cast unit'.trans_le least
    positivity
  have ratio := ratio_near (Real.exp_pos X) pos near
  have half : 1 / 2 ≤ Real.exp X / (1 + Real.exp X) := by
    rw [div_le_div_iff₀ two_pos (by positivity)]
    linarith only [one]
  have less : (ex / 2 ^ prec : ℝ) / (1 + ex / 2 ^ prec) < 1 := by
    rw [div_lt_one (by positivity)]
    linarith only
  have slack : 1 / (2 : ℝ) ^ (prec + 300) ≤ 2 ^ (-200 : ℤ) := by
    rw [one_div, ← zpow_natCast, ← zpow_neg]
    exact power_le (by norm_num)
  have fine : (2 : ℝ) ^ (-270 : ℤ) ≤ 2 ^ (-200 : ℤ) := power_le (by norm_num)
  refine Approximates.of_near (z := Real.exp X / (1 + Real.exp X)) ((Nat.pow_le_pow_right two_pos (by norm_num)).trans bits) (by simp) ?_ fun k power => ?_
  · rw [inv_two_zpow (prec + 300) _ (by push_cast)]
    generalize ((ex * 2 ^ (prec + 300) / (ex + 2 ^ prec) : ℕ) : ℝ) / 2 ^ (prec + 300) = V at *
    generalize (ex : ℝ) / 2 ^ prec / (1 + ex / 2 ^ prec) = R at *
    generalize Real.exp X / (1 + Real.exp X) = z at *
    generalize 1 / (2 : ℝ) ^ (prec + 300) = u at *
    generalize (2 : ℝ) ^ (-270 : ℤ) = ε at *
    rw [abs_le] at ratio ⊢
    norm_num at fine slack ⊢
    constructor <;> nlinarith only [less, half, high, ratio, fine, slack, low]
  · rw [inv_two_zpow (prec + 300) _ (by push_cast)] at power
    have below : (2 : ℝ) ^ k < 2 ^ (0 : ℤ) := by
      rw [zpow_zero]
      exact power.trans_lt (low.trans_lt less)
    have := (zpow_lt_zpow_iff_right₀ one_lt_two).1 below
    calc (2 : ℝ) ^ k ≤ 2 ^ (-1 : ℤ) := power_le (by omega)
      _ = 1 / 2 := by norm_num
      _ ≤ _ := half

theorem approximates_sigmoid_neg {a : ℕ} {n : ℤ} {X : ℝ} (h : ExpNear a n X) (neg : ¬ 0 ≤ n) :
    Approximates (sigmoidParts a n) (1 / (1 + Real.exp (-X))) := by
  unfold sigmoidParts
  rw [if_neg neg, sigmoid_eq]
  have near := h.near
  have under := h.under (by omega)
  obtain ⟨j, hj⟩ := Int.eq_ofNat_of_zero_le (a := -n) (by omega)
  rw [hj, Int.toNat_natCast]
  have exponent : n - prec = -((prec + j : ℕ) : ℤ) := by
    push_cast
    omega
  rw [exponent]
  rw [exponent, inv_two_zpow (prec + j) _ rfl] at near under
  have least := h.least
  have top : a < 2 ^ (prec + j) := h.top.trans_le (Nat.pow_le_pow_right two_pos (by omega))
  obtain ⟨low, high⟩ := ratio_floor a (prec + j) (prec + j)
  rw [add_comm a] at low high
  have pos : (0 : ℝ) < a := by exact_mod_cast (Nat.two_pow_pos prec).trans_le least
  have pos' : (0 : ℝ) < a / 2 ^ (prec + j) := by positivity
  have ratio := ratio_near (Real.exp_pos X) pos' near
  have bits : 2 ^ 160 ≤ a * 2 ^ (prec + j) / (2 ^ (prec + j) + a) := by
    rw [Nat.le_div_iff_mul_le (by omega)]
    calc 2 ^ 160 * (2 ^ (prec + j) + a) ≤ 2 ^ 160 * (2 * 2 ^ (prec + j)) := Nat.mul_le_mul_left _ (by omega)
      _ = 2 ^ 161 * 2 ^ (prec + j) := by ring
      _ ≤ a * 2 ^ (prec + j) := Nat.mul_le_mul_right _ ((Nat.pow_le_pow_right two_pos (by norm_num)).trans least)
  have mono : (a / 2 ^ (prec + j) : ℝ) / (1 + a / 2 ^ (prec + j)) ≤ Real.exp X / (1 + Real.exp X) := by
    rw [div_le_div_iff₀ (by positivity) (by positivity)]
    linarith only [under]
  refine Approximates.of_le (z := Real.exp X / (1 + Real.exp X)) bits (by simp) ?_ ?_
  · rw [inv_two_zpow (prec + j) _ rfl]
    exact low.trans mono
  · rw [inv_two_zpow (prec + j) _ rfl]
    have small : 1 / (2 : ℝ) ^ (prec + j) ≤ 2 ^ (-200 : ℤ) * (Real.exp X / (1 + Real.exp X)) := by
      have many : (2 : ℝ) ^ 201 ≤ a := by exact_mod_cast (Nat.pow_le_pow_right two_pos (by norm_num)).trans least
      have less : (a : ℝ) / 2 ^ (prec + j) ≤ 1 := by
        rw [div_le_one (by positivity)]
        exact_mod_cast top.le
      calc 1 / (2 : ℝ) ^ (prec + j) ≤ 2 ^ (-200 : ℤ) * (a / 2 ^ (prec + j) / 2) := by
            rw [div_div, div_eq_mul_inv (a : ℝ), mul_inv_rev, ← mul_assoc, ← mul_assoc, one_div]
            refine le_mul_of_one_le_left (by positivity) ?_
            calc (1 : ℝ) = 2 ^ (-200 : ℤ) * 2 ^ 201 * 2⁻¹ := by norm_num
              _ ≤ 2 ^ (-200 : ℤ) * a * 2⁻¹ := by gcongr
        _ ≤ 2 ^ (-200 : ℤ) * (a / 2 ^ (prec + j) / (1 + a / 2 ^ (prec + j))) := by
            gcongr
            linarith only [less]
        _ ≤ _ := by gcongr
    have fine : (2 : ℝ) ^ (-270 : ℤ) ≤ 2 ^ (-200 : ℤ) := power_le (by norm_num)
    have z0 : 0 < Real.exp X / (1 + Real.exp X) := div_pos (Real.exp_pos X) (by positivity)
    generalize ((a * 2 ^ (prec + j) / (2 ^ (prec + j) + a) : ℕ) : ℝ) / 2 ^ (prec + j) = V at *
    generalize (a : ℝ) / 2 ^ (prec + j) / (1 + a / 2 ^ (prec + j)) = R at *
    generalize Real.exp X / (1 + Real.exp X) = z at *
    generalize 1 / (2 : ℝ) ^ (prec + j) = u at *
    generalize (2 : ℝ) ^ (-270 : ℤ) = ε at *
    rw [abs_le] at ratio
    norm_num at fine small ⊢
    nlinarith only [z0, high, ratio, fine, small]

/-- `sigmoid` (Table 10-9). -/
theorem sigmoid_served {f : Fmt} (wide : f.Wide) {neg : Bool} {m : ℕ} {e : ℤ} (pos : 0 < m) (few : m < 2 ^ 53) :
    f.Served (Special8.sigmoid.value neg m e) (1 / (1 + Real.exp (-signedReal neg (m * 2 ^ e)))) := by
  have logs := Real.log_two_lt_d9
  have logs' := Real.log_two_gt_d9
  by_cases h : tiny m e 200 = true
  · rw [sigmoid_value_tiny h]
    rw [tiny_iff pos] at h
    exact wide.served (approximates_half (by positivity) (h.le.trans (power_le (by norm_num))))
  by_cases h' : large m e 14 = true
  · rw [sigmoid_value_large h h']
    rw [large_iff pos] at h'
    cases neg with
    | true =>
      refine ⟨_, wide.serves_tiny (by positivity) (le_trans ?_ (exp_neg_tiny (le_trans (by norm_num) h')))⟩
      rw [signedReal_true, neg_neg, Real.exp_neg, ← one_div]
      gcongr
      linarith only [logs, logs']
    | false =>
      refine wide.served (approximates_one_below ?_)
      rw [signedReal_false]
      norm_num at h'
      linarith only [logs, logs', h']
  have small := units_of_not_tiny pos few h
  have top := h'
  rw [large_iff pos, not_le] at top
  obtain ⟨n, exponent, near⟩ := expParts_exp (neg := neg) (by unfold prec; omega) (top.le.trans (by norm_num))
  rw [sigmoid_value h h' exponent]
  by_cases nonneg : 0 ≤ n
  · by_cases many : 300 < n
    · unfold sigmoidParts
      rw [if_pos nonneg, if_pos many]
      refine wide.served (approximates_one_below ?_)
      have turns := near.turns
      have count : (300 : ℝ) ≤ n := by exact_mod_cast many.le
      have fine : (2 : ℝ) ^ (-270 : ℤ) ≤ 2 ^ (0 : ℤ) := power_le (by norm_num)
      generalize (2 : ℝ) ^ (-270 : ℤ) = ε at *
      rw [zpow_zero] at fine
      nlinarith only [logs, logs', count, turns, fine]
    · exact wide.served (approximates_sigmoid_nonneg near nonneg many)
  · exact wide.served (approximates_sigmoid_neg near nonneg)

end Sys2Proof.Machine
end

section
/-! PROOFS. `tanh`: (S - 1) / (S + 1) of S = e^(2x). -/

namespace Sys2Proof.Machine

theorem tanh_eq_ratio (x : ℝ) : Real.tanh x = (Real.exp (2 * x) - 1) / (Real.exp (2 * x) + 1) := by
  have pos := Real.exp_pos x
  rw [Real.tanh_eq, two_mul, Real.exp_add, Real.exp_neg]
  field_simp

theorem tanh_signedReal (neg : Bool) (x : ℝ) : Real.tanh (signedReal neg x) = if neg then -Real.tanh x else Real.tanh x := by
  cases neg with
  | true => exact Real.tanh_neg x
  | false => rfl

/-- Near 0, tanh x is x, but for its cube. -/
theorem tanh_near_self {x : ℝ} (pos : 0 < x) : x * (1 - x ^ 2 / 2) ≤ Real.tanh x ∧ Real.tanh x ≤ x := by
  constructor
  · have cosh := Real.cosh_le_exp_half_sq x
    have sinh := Real.self_le_sinh_iff.2 pos.le
    have fall := Real.add_one_le_exp (-(x ^ 2 / 2))
    have cpos := Real.cosh_pos x
    rw [Real.tanh_eq_sinh_div_cosh, le_div_iff₀ cpos]
    calc x * (1 - x ^ 2 / 2) * Real.cosh x ≤ x * Real.exp (-(x ^ 2 / 2)) * Real.exp (x ^ 2 / 2) := by
          gcongr
          linarith only [fall]
      _ = x := by rw [mul_assoc, ← Real.exp_add, neg_add_cancel, Real.exp_zero, mul_one]
      _ ≤ Real.sinh x := sinh
  · have nonneg : 0 ≤ Real.tanh x := by
      rw [tanh_eq_ratio]
      have := Real.one_le_exp (x := 2 * x) (by linarith only [pos])
      exact div_nonneg (by linarith only [this]) (by linarith only [this])
    have series := Real.sum_range_le_log_div nonneg (Real.tanh_lt_one x) 1
    have inverse := Real.artanh_tanh x
    rw [Real.artanh_eq_half_log ⟨(Real.neg_one_lt_tanh x).le, (Real.tanh_lt_one x).le⟩] at inverse
    simp only [Finset.range_one, Finset.sum_singleton, mul_zero, zero_add, pow_one, Nat.cast_zero, div_one] at series
    rwa [inverse] at series

theorem tanh_ratio_near {E S ε : ℝ} (pos : 0 < S) (pos' : 0 < E) (near : |E - S| ≤ ε * S) : |(E - 1) / (E + 1) - (S - 1) / (S + 1)| ≤ 2 * ε := by
  have step : (E - 1) / (E + 1) - (S - 1) / (S + 1) = 2 * (E - S) / ((E + 1) * (S + 1)) := by
    field_simp
    ring
  rw [step, abs_div, abs_of_pos (by positivity : 0 < (E + 1) * (S + 1)), div_le_iff₀ (by positivity), abs_mul, abs_two]
  have nonneg : 0 ≤ ε * S := (abs_nonneg _).trans near
  have eps : 0 ≤ ε := nonneg_of_mul_nonneg_left nonneg pos
  nlinarith only [mul_nonneg eps pos'.le, mul_nonneg nonneg pos'.le, near, nonneg, eps, pos, pos']

/-- The floor of (E - 1) / (E + 1), in the units of E. -/
theorem tanh_floor {ex p : ℕ} (least : 2 ^ p ≤ ex) : (((ex - 2 ^ p) * 2 ^ p / (ex + 2 ^ p) : ℕ) : ℝ) / 2 ^ p ≤ (ex / 2 ^ p - 1 : ℝ) / (ex / 2 ^ p + 1)
    ∧ (ex / 2 ^ p - 1 : ℝ) / (ex / 2 ^ p + 1) - 1 / 2 ^ p ≤ ((ex - 2 ^ p) * 2 ^ p / (ex + 2 ^ p) : ℕ) / 2 ^ p := by
  have unit : (0 : ℝ) < 2 ^ p := by positivity
  have low := div_le_real ((ex - 2 ^ p) * 2 ^ p) (ex + 2 ^ p)
  have high := real_lt_div (b := ex + 2 ^ p) (by positivity) ((ex - 2 ^ p) * 2 ^ p)
  have scale : (((ex - 2 ^ p) * 2 ^ p : ℕ) : ℝ) / ((ex + 2 ^ p : ℕ) : ℝ) = 2 ^ p * ((ex / 2 ^ p - 1 : ℝ) / (ex / 2 ^ p + 1)) := by
    push_cast [least]
    field_simp
  rw [scale] at low high
  constructor
  · rwa [div_le_iff₀' unit]
  · rw [sub_le_iff_le_add, ← add_div, le_div_iff₀' unit]
    exact high.le

/-- e^(B 2^-54) by its computed value. -/
theorem expFix_54 {B : ℕ} (h : B ≤ 2 ^ 54) : Real.exp (B / 2 ^ 54) ≤ (expFix prec (B * 2 ^ 266) + 241 : ℕ) / (2 ^ prec : ℕ)
    ∧ (expFix prec (B * 2 ^ 266) : ℝ) / (2 ^ prec : ℕ) ≤ Real.exp (B / 2 ^ 54) := by
  have unit : (0 : ℝ) < 2 ^ prec := by positivity
  have fits : B * 2 ^ 266 ≤ 2 ^ prec := (Nat.mul_le_mul_right _ h).trans (by rw [← pow_add])
  have arg : ((B * 2 ^ 266 : ℕ) : ℝ) / 2 ^ prec = B / 2 ^ 54 := by
    have split : (2 : ℝ) ^ prec = 2 ^ 54 * 2 ^ 266 := by rw [← pow_add]
    rw [split, Nat.cast_mul, Nat.cast_pow, Nat.cast_two]
    exact mul_div_mul_right _ _ (by positivity)
  obtain ⟨low, high⟩ := expFix_bounds fits
  rw [arg] at low high
  generalize expFix prec (B * 2 ^ 266) = g at *
  rw [Nat.cast_pow, Nat.cast_two]
  constructor
  · rw [le_div_iff₀' unit, Nat.cast_add]
    generalize (2 : ℝ) ^ prec = D at *
    push_cast
    linarith only [low]
  · rwa [div_le_iff₀' unit]

theorem exp_53 (B : ℕ) : Real.exp (B / 2 ^ 53) = Real.exp (B / 2 ^ 54) ^ 2 := by
  rw [← Real.exp_nat_mul]
  congr 1
  norm_num
  ring

/-- ln 3 lies between two multiples of 2^-53, away from the lower one. -/
theorem exp_near_three : Real.exp ((9895419787740693 : ℕ) / 2 ^ 53) ≤ 3 * (1 - 2 ^ (-60 : ℤ)) ∧ 3 ≤ Real.exp ((9895419787740694 : ℕ) / 2 ^ 53) := by
  have low : (expFix prec (9895419787740693 * 2 ^ 266) + 241) ^ 2 * 2 ^ 60 ≤ 3 * (2 ^ prec) ^ 2 * (2 ^ 60 - 1) := by decide +kernel
  have high : 3 * (2 ^ prec) ^ 2 ≤ expFix prec (9895419787740694 * 2 ^ 266) ^ 2 := by decide +kernel
  rw [exp_53, exp_53]
  obtain ⟨least, -⟩ := expFix_54 (B := 9895419787740693) (by decide +kernel)
  obtain ⟨-, most⟩ := expFix_54 (B := 9895419787740694) (by decide +kernel)
  have unit : (0 : ℝ) < (2 ^ prec : ℕ) := by positivity
  generalize expFix prec (9895419787740693 * 2 ^ 266) + 241 = g at *
  generalize expFix prec (9895419787740694 * 2 ^ 266) = g' at *
  generalize 2 ^ prec = D at *
  constructor
  · calc Real.exp _ ^ 2 ≤ ((g : ℝ) / D) ^ 2 := by gcongr
      _ ≤ 3 * (1 - 2 ^ (-60 : ℤ)) := by
        rw [div_pow, div_le_iff₀ (by positivity)]
        have low' : (g : ℝ) ^ 2 * 2 ^ 60 ≤ 3 * D ^ 2 * (2 ^ 60 - 1) := by
          have := (Nat.cast_le (α := ℝ)).2 low
          push_cast at this
          norm_num
          exact this
        norm_num at low' ⊢
        linarith only [low']
  · have high' : 3 * (D : ℝ) ^ 2 ≤ g' ^ 2 := by exact_mod_cast high
    calc (3 : ℝ) ≤ (g' / D) ^ 2 := by rwa [div_pow, le_div_iff₀ (by positivity)]
      _ ≤ _ := by gcongr

/-- A multiple of 2^-53 whose exponential reaches 3 within 2^-61 reaches 3. -/
theorem reaches_three {j : ℤ} (near : 3 * (1 - 2 ^ (-60 : ℤ)) < Real.exp (j / 2 ^ 53)) : 3 ≤ Real.exp (j / 2 ^ 53) := by
  rcases le_or_gt j 9895419787740693 with below | above
  · refine absurd near (not_lt.2 (le_trans ?_ exp_near_three.1))
    rw [Real.exp_le_exp]
    gcongr
    exact_mod_cast below
  · refine exp_near_three.2.trans ?_
    rw [Real.exp_le_exp]
    gcongr
    exact_mod_cast Int.add_one_le_of_lt above

/-! The values of `tanh`. -/

theorem tanh_value_tiny {m : ℕ} {e : ℤ} (h : tiny m e 100 = true) (neg : Bool) : Special8.tanh.value neg m e = below neg m e := if_pos h

theorem tanh_value_large {m : ℕ} {e : ℤ} (h : ¬ tiny m e 100 = true) (h' : large m e 8 = true) (neg : Bool) : Special8.tanh.value neg m e = below neg 1 0 :=
  (if_neg h).trans (if_pos h')

theorem tanh_value {m : ℕ} {e n : ℤ} (h : ¬ tiny m e 100 = true) (h' : ¬ large m e 8 = true) (exponent : (expParts false m (e + 1) false).2 = n - prec) (neg : Bool) :
    Special8.tanh.value neg m e = ⟨neg, ((expParts false m (e + 1) false).1 * 2 ^ n.toNat - 2 ^ prec) * 2 ^ prec
      / ((expParts false m (e + 1) false).1 * 2 ^ n.toNat + 2 ^ prec), -(prec : ℤ), false⟩ := by
  refine ((if_neg h).trans (if_neg h')).trans ?_
  dsimp only
  rw [exponent, sub_add_cancel]

/-- No power of two lies between a computed tanh and the function. -/
theorem tanh_binade {a : ℕ} {n k : ℤ} {m : ℕ} {e : ℤ} {V : ℝ} (few : m < 2 ^ 53) (h : ExpNear a n (m * 2 ^ (e + 1)))
    (le : V ≤ (a * 2 ^ (n - prec) - 1) / (a * 2 ^ (n - prec) + 1)) (low : (2 : ℝ) ^ k ≤ V) :
    (2 : ℝ) ^ k ≤ (Real.exp (m * 2 ^ (e + 1)) - 1) / (Real.exp (m * 2 ^ (e + 1)) + 1) := by
  have E0 : (0 : ℝ) ≤ a * 2 ^ (n - prec) := by positivity
  have S0 := Real.exp_pos (m * 2 ^ (e + 1))
  have mono {u v : ℝ} (u0 : 0 ≤ u) (le : u ≤ v) : (u - 1) / (u + 1) ≤ (v - 1) / (v + 1) := by
    rw [div_le_div_iff₀ (by linarith only [u0]) (by linarith only [u0, le])]
    nlinarith only [le]
  rcases le_or_gt n 0 with none | some
  · exact low.trans (le.trans (mono E0 (h.under none)))
  have turns := h.turns
  have high := h.high
  have logs := Real.log_two_gt_d9
  have one : (1 : ℝ) ≤ n := by exact_mod_cast some
  have fine : (2 : ℝ) ^ (-270 : ℤ) ≤ 2 ^ (-70 : ℤ) := power_le (by norm_num)
  generalize (2 : ℝ) ^ (-270 : ℤ) = ε at *
  norm_num at fine
  have least : 1 / 2 + 1 / 6 ≤ (m : ℝ) * 2 ^ (e + 1) := by nlinarith only [logs, one, turns, fine]
  have units := units_down (m := m) (g := 53) (e := e + 1) (by
    have := units_of_large (k := -1) (e := e + 1) few (by rw [zpow_neg_one]; linarith only [least])
    omega)
  have step := Real.add_one_le_exp ((m : ℝ) * 2 ^ (e + 1))
  have quarter : 1 / 4 ≤ (Real.exp (m * 2 ^ (e + 1)) - 1) / (Real.exp (m * 2 ^ (e + 1)) + 1) := by
    rw [div_le_div_iff₀ (by norm_num) (by linarith only [least, step])]
    linarith only [least, step]
  have less : (2 : ℝ) ^ k < 2 ^ (0 : ℤ) := by
    rw [zpow_zero]
    refine low.trans_lt (le.trans_lt ?_)
    rw [div_lt_one (by linarith only [E0])]
    linarith only
  have top := (zpow_lt_zpow_iff_right₀ one_lt_two).1 less
  rcases eq_or_ne k (-1) with half | small
  · have reach := low.trans le
    rw [half, zpow_neg_one, inv_eq_one_div, div_le_div_iff₀ two_pos (by linarith only [E0])] at reach
    have three : 3 ≤ Real.exp (m * 2 ^ (e + 1)) := by
      have near : 3 * (1 - 2 ^ (-60 : ℤ)) < Real.exp (m * 2 ^ (e + 1)) := by
        norm_num
        nlinarith only [S0, high, fine, reach]
      rw [units] at near ⊢
      exact reaches_three near
    rw [half, zpow_neg_one, inv_eq_one_div, div_le_div_iff₀ two_pos (by linarith only [three])]
    linarith only [three]
  · calc (2 : ℝ) ^ k ≤ 2 ^ (-2 : ℤ) := power_le (by omega)
      _ = 1 / 4 := by norm_num
      _ ≤ _ := quarter

/-- What is not below 2^-150 has many units of 2^-320. -/
theorem bits_of_value {v : ℕ} (h : (2 : ℝ) ^ (-150 : ℤ) ≤ v / 2 ^ prec) : 2 ^ 160 ≤ v := by
  rw [le_div_iff₀ (by positivity), ← zpow_natCast, ← zpow_add₀ two_ne_zero] at h
  have : (2 : ℝ) ^ (160 : ℤ) ≤ v := (power_le (by norm_num)).trans h
  exact_mod_cast this

theorem approximates_tanh {a : ℕ} {n : ℤ} {m : ℕ} {e : ℤ} (few : m < 2 ^ 53) (h : ExpNear a n (m * 2 ^ (e + 1))) (large : (2 : ℝ) ^ (-100 : ℤ) ≤ m * 2 ^ e)
    (neg : Bool) : Approximates ⟨neg, (a * 2 ^ n.toNat - 2 ^ prec) * 2 ^ prec / (a * 2 ^ n.toNat + 2 ^ prec), -(prec : ℤ), false⟩
      (Real.tanh (signedReal neg (m * 2 ^ e))) := by
  have double : (m : ℝ) * 2 ^ (e + 1) = 2 * (m * 2 ^ e) := by
    rw [zpow_add_one₀ two_ne_zero]
    ring
  have nonneg : 0 ≤ n := h.nonneg.2 (by positivity)
  have scale : (a : ℝ) * 2 ^ (n - prec) = ((a * 2 ^ n.toNat : ℕ) : ℝ) / 2 ^ prec := by
    rw [zpow_sub₀ two_ne_zero, zpow_natCast]
    push_cast
    rw [← zpow_natCast 2 n.toNat, Int.toNat_of_nonneg nonneg]
    ring
  have near := h.near
  have binade := fun k V => tanh_binade (k := k) (V := V) few h
  rw [scale] at near binade
  have least : 2 ^ prec ≤ a * 2 ^ n.toNat := h.least.trans (Nat.le_mul_of_pos_right _ (by positivity))
  generalize a * 2 ^ n.toNat = ex at *
  obtain ⟨low, high⟩ := tanh_floor least
  have unit : (0 : ℝ) < 2 ^ prec := by positivity
  have pos : (0 : ℝ) < ex / 2 ^ prec := by
    have : (0 : ℝ) < ex := by exact_mod_cast (Nat.two_pow_pos prec).trans_le least
    positivity
  have ratio := tanh_ratio_near (Real.exp_pos _) pos near
  have step := Real.add_one_le_exp ((m : ℝ) * 2 ^ (e + 1))
  have floor : (2 : ℝ) ^ (-101 : ℤ) ≤ (Real.exp (m * 2 ^ (e + 1)) - 1) / (Real.exp (m * 2 ^ (e + 1)) + 1) := by
    rw [le_div_iff₀ (by positivity)]
    norm_num at large ⊢
    linarith only [double, step, large]
  have value : Real.tanh (signedReal neg (m * 2 ^ e)) = if neg then -((Real.exp (m * 2 ^ (e + 1)) - 1) / (Real.exp (m * 2 ^ (e + 1)) + 1))
      else (Real.exp (m * 2 ^ (e + 1)) - 1) / (Real.exp (m * 2 ^ (e + 1)) + 1) := by
    rw [tanh_signedReal, tanh_eq_ratio, double]
  rw [value]
  have slack : 2 * (2 : ℝ) ^ (-270 : ℤ) + 1 / 2 ^ prec ≤ 2 ^ (-155 : ℤ) * 2 ^ (-101 : ℤ) := by
    have first := scaled_power 1 (a := -270) (b := -257) (by norm_num)
    have second : 1 / (2 : ℝ) ^ prec ≤ 2 ^ (-257 : ℤ) := by
      rw [one_div, ← zpow_natCast, ← zpow_neg]
      exact power_le (by norm_num)
    have sum : (2 : ℝ) ^ (-155 : ℤ) * 2 ^ (-101 : ℤ) = 2 ^ (-257 : ℤ) + 2 ^ (-257 : ℤ) := by
      rw [← two_mul, ← zpow_add₀ two_ne_zero, ← zpow_one_add₀ two_ne_zero]
      rfl
    rw [pow_one] at first
    rw [sum]
    exact add_le_add first second
  generalize (Real.exp (m * 2 ^ (e + 1)) - 1) / (Real.exp (m * 2 ^ (e + 1)) + 1) = z at *
  have v_eq := inv_two_zpow prec (((ex - 2 ^ prec) * 2 ^ prec / (ex + 2 ^ prec) : ℕ) : ℝ) rfl
  have close : |(((ex - 2 ^ prec) * 2 ^ prec / (ex + 2 ^ prec) : ℕ) : ℝ) / 2 ^ prec - z| ≤ 2 ^ (-155 : ℤ) * z := by
    have relative : (2 : ℝ) ^ (-155 : ℤ) * 2 ^ (-101 : ℤ) ≤ 2 ^ (-155 : ℤ) * z := by gcongr
    generalize (((ex - 2 ^ prec) * 2 ^ prec / (ex + 2 ^ prec) : ℕ) : ℝ) / 2 ^ prec = V at *
    generalize ((ex : ℝ) / 2 ^ prec - 1) / (ex / 2 ^ prec + 1) = R at *
    generalize (2 : ℝ) ^ (-155 : ℤ) * 2 ^ (-101 : ℤ) = t at *
    generalize (2 : ℝ) ^ (-155 : ℤ) * z = t' at *
    generalize 1 / (2 : ℝ) ^ prec = u at *
    generalize (2 : ℝ) ^ (-270 : ℤ) = ε at *
    rw [abs_le] at ratio ⊢
    have eps : 0 ≤ ε := by linarith only [ratio]
    constructor <;> linarith only [relative, high, ratio, slack, low]
  refine Approximates.of_near ?_ rfl (by rw [v_eq]; exact close) fun k power => binade k _ low (by rwa [v_eq] at power)
  refine bits_of_value ?_
  generalize (((ex - 2 ^ prec) * 2 ^ prec / (ex + 2 ^ prec) : ℕ) : ℝ) / 2 ^ prec = V at *
  have least := (abs_le.1 close).1
  norm_num at least floor ⊢
  linarith only [least, floor]

/-- `tanh` (Table 10-9). -/
theorem tanh_served {f : Fmt} (wide : f.Wide) {neg : Bool} {m : ℕ} {e : ℤ} (pos : 0 < m) (few : m < 2 ^ 53) :
    f.Served (Special8.tanh.value neg m e) (Real.tanh (signedReal neg (m * 2 ^ e))) := by
  have xpos : (0 : ℝ) < m * 2 ^ e := by positivity
  by_cases h : tiny m e 100 = true
  · rw [tanh_value_tiny h]
    rw [tiny_iff pos] at h
    refine wide.served (approximates_below pos few (tanh_signedReal neg _) ?_)
    obtain ⟨low, high⟩ := tanh_near_self xpos
    have square : (m * 2 ^ e : ℝ) ^ 2 / 2 ≤ 2 ^ (-160 : ℤ) := by
      norm_num at h ⊢
      nlinarith only [xpos, h]
    generalize (m : ℝ) * 2 ^ e = x at *
    have cube := mul_le_mul_of_nonneg_left square xpos.le
    rw [abs_of_nonneg (sub_nonneg.2 high)]
    generalize (2 : ℝ) ^ (-160 : ℤ) = δ at *
    linarith only [low, cube]
  by_cases h' : large m e 8 = true
  · rw [tanh_value_large h h']
    rw [large_iff pos] at h'
    refine wide.served (approximates_below one_pos (by norm_num) (tanh_signedReal neg _) ?_)
    rw [Nat.cast_one, zpow_zero, mul_one, mul_one, tanh_eq_ratio]
    have small : Real.exp (-(2 * (m * 2 ^ e))) ≤ 2 ^ (-161 : ℤ) := by
      have logs := Real.log_two_lt_d9
      rw [two_zpow_eq_exp (-161), Real.exp_le_exp]
      norm_num at h' ⊢
      linarith only [logs, h']
    have value := Real.exp_pos (2 * (m * 2 ^ e))
    rw [Real.exp_neg] at small
    generalize Real.exp (2 * (m * 2 ^ e)) = S at *
    have step : 1 - (S - 1) / (S + 1) = 2 / (S + 1) := by
      field_simp
      ring
    rw [step, abs_of_nonneg (by positivity)]
    calc 2 / (S + 1) ≤ 2 / S := by gcongr; linarith only
      _ = 2 * S⁻¹ := div_eq_mul_inv _ _
      _ ≤ 2 ^ (-160 : ℤ) := by norm_num at small ⊢; linarith only [small]
  have small := units_of_not_tiny pos few h
  have top := h'
  rw [large_iff pos, not_le] at top
  have double : (m : ℝ) * 2 ^ (e + 1) = 2 * (m * 2 ^ e) := by
    rw [zpow_add_one₀ two_ne_zero]
    ring
  obtain ⟨n, exponent, near⟩ := expParts_exp (neg := false) (m := m) (e := e + 1) (by unfold prec; omega) (by rw [double]; norm_num at top ⊢; linarith only [top])
  rw [tanh_value h h' exponent]
  rw [tiny_iff pos, not_lt] at h
  exact wide.served (approximates_tanh few near h neg)

end Sys2Proof.Machine
end

section
/-! PROOFS. `rsqrt`, by the integer square root. -/

namespace Sys2Proof.Machine

theorem isqrtFrom_bounds (v n : ℕ) : ∀ r, r * r ≤ v → v < (r + 2 ^ n) * (r + 2 ^ n) → isqrtFrom v n r * isqrtFrom v n r ≤ v
    ∧ v < (isqrtFrom v n r + 1) * (isqrtFrom v n r + 1) := by
  induction n with
  | zero => exact fun r low high => ⟨low, high⟩
  | succ n ih =>
    intro r low high
    unfold isqrtFrom
    dsimp only
    rw [pow_succ, mul_two, ← add_assoc] at high
    split
    · next fits => exact ih _ fits high
    · next over_ => exact ih _ low (not_le.1 over_)

theorem isqrt_bounds (v : ℕ) : isqrt v * isqrt v ≤ v ∧ v < (isqrt v + 1) * (isqrt v + 1) := by
  refine isqrtFrom_bounds v _ 0 (Nat.zero_le v) ?_
  rw [zero_add, ← pow_add]
  exact Nat.lt_log2_self.trans_le (Nat.pow_le_pow_right two_pos (by omega))

/-- The root of the units of 1 / v lies between r and r + 1. -/
theorem isqrt_div_bounds {N v : ℕ} (pos : 0 < v) : isqrt (N / v) * isqrt (N / v) * v ≤ N ∧ N < (isqrt (N / v) + 1) * (isqrt (N / v) + 1) * v := by
  obtain ⟨low, high⟩ := isqrt_bounds (N / v)
  exact ⟨(Nat.le_div_iff_mul_le pos).1 low, (Nat.div_lt_iff_lt_mul pos).1 high⟩

/-- The parts of `rsqrt`: v units of an even power of two. -/
def rootUnits (m : ℕ) (e : ℤ) : ℕ := m * 2 ^ (e % 2).toNat
def rootBits (m : ℕ) (e : ℤ) : ℕ := 200 + Nat.log2 (rootUnits m e)
def rootFix (m : ℕ) (e : ℤ) : ℕ := isqrt (2 ^ (2 * rootBits m e) / rootUnits m e)

theorem rsqrt_value (neg : Bool) (m : ℕ) (e : ℤ) : Special8.rsqrt.value neg m e = ⟨false, rootFix m e, -(rootBits m e : ℤ) - (e - (e % 2).toNat) / 2,
    decide (rootFix m e * rootFix m e * rootUnits m e = 2 ^ (2 * rootBits m e))⟩ := rfl

theorem rootFix_bits {m : ℕ} (pos : 0 < m) (e : ℤ) : 2 ^ 160 ≤ rootFix m e := by
  have vpos : 0 < rootUnits m e := Nat.mul_pos pos (by positivity)
  obtain ⟨-, high⟩ := isqrt_div_bounds (N := 2 ^ (2 * rootBits m e)) vpos
  have less : rootUnits m e < 2 ^ (Nat.log2 (rootUnits m e) + 1) := Nat.lt_log2_self
  change 2 ^ (2 * rootBits m e) < (rootFix m e + 1) * (rootFix m e + 1) * rootUnits m e at high
  by_contra few
  have small : rootFix m e + 1 ≤ 2 ^ 160 := by omega
  have : (rootFix m e + 1) * (rootFix m e + 1) * rootUnits m e ≤ 2 ^ (2 * rootBits m e) := by
    calc (rootFix m e + 1) * (rootFix m e + 1) * rootUnits m e ≤ 2 ^ 160 * 2 ^ 160 * 2 ^ (Nat.log2 (rootUnits m e) + 1) := by gcongr
      _ = 2 ^ (160 + 160 + (Nat.log2 (rootUnits m e) + 1)) := by rw [pow_add 2 (160 + 160), pow_add 2 160]
      _ ≤ 2 ^ (2 * rootBits m e) := Nat.pow_le_pow_right two_pos (by unfold rootBits; omega)
  omega

/-- A number in the units of its root, squared. -/
theorem rootUnits_square (c : ℝ) (m : ℕ) (e : ℤ) :
    (c * 2 ^ (-(rootBits m e : ℤ) - (e - (e % 2).toNat) / 2)) ^ 2 * (m * 2 ^ e) = c * c * rootUnits m e / 2 ^ (2 * rootBits m e) := by
  have power : ((2 : ℝ) ^ (-(rootBits m e : ℤ) - (e - (e % 2).toNat) / 2)) ^ 2 * 2 ^ e = 2 ^ (e % 2).toNat / 2 ^ (2 * rootBits m e) := by
    rw [eq_div_iff (by positivity), ← zpow_natCast, ← zpow_natCast, ← zpow_natCast, ← zpow_mul, ← zpow_add₀ two_ne_zero, ← zpow_add₀ two_ne_zero]
    congr 1
    push_cast
    omega
  unfold rootUnits
  push_cast
  rw [mul_pow, mul_mul_mul_comm, power]
  ring

/-- `rsqrt` (Table 10-9). -/
theorem rsqrt_served {f : Fmt} (wide : f.Wide) (neg : Bool) {m : ℕ} {e : ℤ} (pos : 0 < m) : f.Served (Special8.rsqrt.value neg m e) (1 / Real.sqrt (m * 2 ^ e)) := by
  have vpos : 0 < rootUnits m e := Nat.mul_pos pos (by positivity)
  have xpos : (0 : ℝ) < m * 2 ^ e := by positivity
  have root := Real.sqrt_pos.2 xpos
  obtain ⟨low, high⟩ := isqrt_div_bounds (N := 2 ^ (2 * rootBits m e)) vpos
  change rootFix m e * rootFix m e * rootUnits m e ≤ _ at low
  change _ < (rootFix m e + 1) * (rootFix m e + 1) * rootUnits m e at high
  have bits := rootFix_bits pos e
  have square (c : ℝ) := rootUnits_square c m e
  rw [rsqrt_value]
  generalize rootFix m e = r at *
  generalize rootUnits m e = v at *
  have D : (0 : ℝ) < 2 ^ (2 * rootBits m e) := by positivity
  have unit : (0 : ℝ) < 2 ^ (-(rootBits m e : ℤ) - (e - (e % 2).toNat) / 2) := by positivity
  generalize -(rootBits m e : ℤ) - (e - (e % 2).toNat) / 2 = g at *
  generalize 2 * rootBits m e = q at *
  have zpos : 0 < 1 / Real.sqrt (m * 2 ^ e) := by positivity
  have product (c : ℝ) : (c * 2 ^ g * Real.sqrt (m * 2 ^ e)) ^ 2 = c * c * v / 2 ^ q := by
    rw [mul_pow, Real.sq_sqrt xpos.le]
    exact square c
  have under : (r : ℝ) * 2 ^ g ≤ 1 / Real.sqrt (m * 2 ^ e) := by
    rw [le_div_iff₀ root, ← sq_le_one_iff₀ (by positivity), product, div_le_one D]
    exact_mod_cast low
  have over_ : 1 / Real.sqrt (m * 2 ^ e) ≤ (r + 1) * 2 ^ g := by
    rw [div_le_iff₀ root, ← one_le_sq_iff₀ (by positivity), product, one_le_div D]
    exact_mod_cast high.le
  by_cases exact : r * r * v = 2 ^ q
  · rw [decide_eq_true exact]
    refine ⟨_, Fmt.serves_exact (by omega) ?_ (abs_of_pos zpos).symm⟩
    have one := product r
    have cast : (r : ℝ) * r * v = 2 ^ q := by exact_mod_cast exact
    rw [cast, div_self D.ne', pow_eq_one_iff_of_nonneg (by positivity) two_ne_zero] at one
    rw [abs_of_pos zpos, div_eq_iff root.ne']
    exact one.symm
  · rw [decide_eq_false exact]
    refine wide.served (Approximates.of_le bits (z := 1 / Real.sqrt (m * 2 ^ e)) (by simp) under ?_)
    have many : (2 : ℝ) ^ 160 ≤ r := by exact_mod_cast bits
    have small : (2 : ℝ) ^ g ≤ 2 ^ (-155 : ℤ) * (r * 2 ^ g) := by
      rw [← mul_assoc]
      refine le_mul_of_one_le_left unit.le ?_
      calc (1 : ℝ) ≤ 2 ^ (-155 : ℤ) * 2 ^ 160 := by norm_num
        _ ≤ 2 ^ (-155 : ℤ) * r := by gcongr
    have more : (2 : ℝ) ^ (-155 : ℤ) * (r * 2 ^ g) ≤ 2 ^ (-155 : ℤ) * (1 / Real.sqrt (m * 2 ^ e)) := by gcongr
    generalize (2 : ℝ) ^ (-155 : ℤ) * (1 / Real.sqrt (m * 2 ^ e)) = t at *
    linarith only [over_, small, more]

end Sys2Proof.Machine
end

section
/-! PROOFS. `log2`: no argument lies so close to a power 2^(2^j) or 2^(-2^j) that its logarithm is computed past it. -/

namespace Sys2Proof.Machine

/-! Logarithms of numbers apart. -/

theorem log_le_of_gap {x c d : ℝ} (pos : 0 < x) (le : x ≤ c - d) (nonneg : 0 ≤ d) (top : c ≤ 4) : Real.log x ≤ Real.log c - d / 4 := by
  have cpos : 0 < c := by linarith only [pos, le, nonneg]
  have step := Real.log_le_sub_one_of_pos (div_pos pos cpos)
  rw [Real.log_div pos.ne' cpos.ne'] at step
  have ratio : x / c - 1 ≤ -(d / 4) := by
    rw [sub_le_iff_le_add, div_le_iff₀ cpos]
    nlinarith only [le, nonneg, top]
  linarith only [step, ratio]

theorem le_log_of_gap {x c d : ℝ} (cpos : 0 < c) (le : c + d ≤ x) (nonneg : 0 ≤ d) (top : c + d ≤ 4) : Real.log c + d / 4 ≤ Real.log x := by
  have pos : 0 < x := by linarith only [cpos, le, nonneg]
  have step := Real.one_sub_inv_le_log_of_pos (div_pos pos cpos)
  rw [Real.log_div pos.ne' cpos.ne', inv_div] at step
  have ratio : c / x ≤ 1 - d / 4 := by
    rw [div_le_iff₀ pos]
    nlinarith only [cpos, le, nonneg, top]
  linarith only [step, ratio]

/-! Whole powers. -/

theorem log_before_power {m : ℕ} {e k : ℤ} (pos : 0 < m) (few : m < 2 ^ 53) (before : Real.log (m * 2 ^ e) < k * Real.log 2) :
    Real.log (m * 2 ^ e) ≤ k * Real.log 2 - 2 ^ (-60 : ℤ) := by
  have xpos : (0 : ℝ) < m * 2 ^ e := by positivity
  have power : (0 : ℝ) < 2 ^ k := by positivity
  have less : (m : ℝ) * 2 ^ e < 2 ^ k := by
    rwa [← Real.log_lt_log_iff xpos power, Real.log_zpow]
  have gap := log_le_of_gap (x := m * 2 ^ e / 2 ^ k) (c := 1) (d := 2 ^ (-53 : ℤ)) (by positivity) (by
    rw [div_le_iff₀' power]
    exact before_power few less) (by positivity) (by norm_num)
  rw [Real.log_div xpos.ne' power.ne', Real.log_zpow, Real.log_one] at gap
  norm_num at gap ⊢
  linarith only [before, gap]

theorem log_past_power {m : ℕ} {e k : ℤ} (few : m < 2 ^ 53) (past : k * Real.log 2 < Real.log (m * 2 ^ e)) (pos : 0 < m) :
    k * Real.log 2 + 2 ^ (-60 : ℤ) ≤ Real.log (m * 2 ^ e) := by
  have xpos : (0 : ℝ) < m * 2 ^ e := by positivity
  have power : (0 : ℝ) < 2 ^ k := by positivity
  have more : (2 : ℝ) ^ k < m * 2 ^ e := by
    rwa [← Real.log_lt_log_iff power xpos, Real.log_zpow]
  have gap := le_log_of_gap (x := m * 2 ^ e / 2 ^ k) (c := 1) (d := 2 ^ (-53 : ℤ)) one_pos (by
    rw [le_div_iff₀' power]
    exact past_power few more) (by positivity) (by norm_num)
  rw [Real.log_div xpos.ne' power.ne', Real.log_zpow, Real.log_one] at gap
  norm_num at gap ⊢
  linarith only [past, gap]

/-! Roots of two. -/

theorem ln2Fix_value : ln2Fix prec = 1480553391661173448385607439722553250922680800745876974795605978609098082859138712941075737848892 := by decide +kernel

/-- f of a number; the kernel evaluates the number first, and not at every place where f names it. -/
def holdsAt (x : ℕ) (f : ℕ → Bool) : Bool :=
  match x with
  | 0 => f 0
  | n + 1 => f (n + 1)

theorem holdsAt_eq (x : ℕ) (f : ℕ → Bool) : holdsAt x f = f x := by
  cases x with
  | zero => rfl
  | succ n => rfl

/-- The units of 2^(num / 2^i), from below and from above. -/
def rootLow (l num i : ℕ) : ℕ := expFix prec (l * num / 2 ^ i)
def rootHigh (l num i : ℕ) : ℕ := expFix prec (l * num / 2 ^ i + 1923) + 241

/-- No multiple of 2^-s is within 2^-(s + 20) of 2^(num / 2^i). -/
def rootClear (l s num i : ℕ) : Bool :=
  holdsAt (rootLow l num i) fun g => holdsAt (rootHigh l num i) fun h =>
    decide (h / 2 ^ (prec - s) = g / 2 ^ (prec - s) ∧ 2 ^ (prec - s - 20) ≤ g % 2 ^ (prec - s) ∧ h % 2 ^ (prec - s) + 2 ^ (prec - s - 20) ≤ 2 ^ (prec - s))

/-- Each root is evaluated by itself, as the kernel keeps what it has evaluated of one proof. -/
theorem roots_clear {i : ℕ} (range : i < 53) : rootClear (ln2Fix prec) 53 1 (i + 1) = true ∧ rootClear (ln2Fix prec) 52 (2 ^ (i + 1) - 1) (i + 1) = true := by
  rw [ln2Fix_value]
  interval_cases i
  all_goals decide +kernel

theorem ln2Fix_fits : ln2Fix prec + 1923 ≤ 2 ^ prec := by decide +kernel

theorem root_bounds {num i : ℕ} (few : num ≤ 2 ^ i) : (rootLow (ln2Fix prec) num i : ℝ) / 2 ^ prec ≤ Real.exp (Real.log 2 * (num / 2 ^ i))
    ∧ Real.exp (Real.log 2 * (num / 2 ^ i)) ≤ rootHigh (ln2Fix prec) num i / 2 ^ prec := by
  have q0 : (0 : ℝ) ≤ num / 2 ^ i := by positivity
  obtain ⟨least, most⟩ := ln2Fix_prec
  unfold rootLow rootHigh
  have unit : (0 : ℝ) < 2 ^ prec := by positivity
  have q1 : (num : ℝ) / 2 ^ i ≤ 1 := by
    rw [div_le_one (by positivity)]
    exact_mod_cast few
  have less : ln2Fix prec * num / 2 ^ i ≤ ln2Fix prec := by
    calc ln2Fix prec * num / 2 ^ i ≤ ln2Fix prec * 2 ^ i / 2 ^ i := Nat.div_le_div_right (Nat.mul_le_mul_left _ few)
      _ = ln2Fix prec := Nat.mul_div_cancel _ (by positivity)
  have low := div_le_real (ln2Fix prec * num) (2 ^ i)
  have high := real_lt_div (b := 2 ^ i) (by positivity) (ln2Fix prec * num)
  have scale : ((ln2Fix prec * num : ℕ) : ℝ) / ((2 ^ i : ℕ) : ℝ) = ln2Fix prec * (num / 2 ^ i) := by
    push_cast
    ring
  rw [scale] at low high
  generalize ln2Fix prec * num / 2 ^ i = r at *
  obtain ⟨-, under⟩ := expFix_bounds (x := r) (less.trans ((Nat.le_add_right _ _).trans ln2Fix_fits))
  obtain ⟨past, -⟩ := expFix_bounds (x := r + 1923) ((Nat.add_le_add_right less _).trans ln2Fix_fits)
  generalize (num : ℝ) / 2 ^ i = q at *
  constructor
  · rw [div_le_iff₀' unit]
    refine under.trans ?_
    gcongr
    rw [div_le_iff₀' unit]
    calc (r : ℝ) ≤ ln2Fix prec * q := low
      _ ≤ 2 ^ prec * Real.log 2 * q := by gcongr
      _ = 2 ^ prec * (Real.log 2 * q) := mul_assoc _ _ _
  · rw [le_div_iff₀' unit, Nat.cast_add]
    have mono : Real.exp (Real.log 2 * q) ≤ Real.exp ((r + 1923 : ℕ) / 2 ^ prec) := by
      rw [Real.exp_le_exp, le_div_iff₀' unit, Nat.cast_add]
      generalize (2 : ℝ) ^ prec = D at *
      push_cast
      have loss := mul_le_mul_of_nonneg_right least q0
      generalize ln2Fix prec = l at *
      linarith only [q1, high, loss]
    have scaled := mul_le_mul_of_nonneg_left mono unit.le
    generalize (2 : ℝ) ^ prec * Real.exp ((r + 1923 : ℕ) / 2 ^ prec) = E at *
    generalize (2 : ℝ) ^ prec * Real.exp (Real.log 2 * q) = E' at *
    push_cast
    linarith only [past, scaled]

/-- The multiples of 2^-s on either side of a number between two bounds that have the same floor b, and rests away from 0 and 1. -/
theorem multiple_apart {b r r' W V s : ℕ} {c D : ℝ} {j : ℤ} (unit : D = 2 ^ s * W) (pos : 0 < W) (low : ((W * b + r : ℕ) : ℝ) / D ≤ c)
    (high : c ≤ ((W * b + r' : ℕ) : ℝ) / D) (least : V ≤ r) (most : r' + V ≤ W) :
    ((j : ℝ) / 2 ^ s < c → (j : ℝ) / 2 ^ s ≤ c - V / D) ∧ (c < j / 2 ^ s → c + V / D ≤ j / 2 ^ s) := by
  have Wpos : (0 : ℝ) < W := by exact_mod_cast pos
  have Dpos : 0 < D := by
    rw [unit]
    positivity
  have scale : (j : ℝ) / 2 ^ s = j * W / D := by
    rw [unit]
    field_simp
  have least' : (V : ℝ) ≤ r := by exact_mod_cast least
  have most' : (r' : ℝ) + V ≤ W := by exact_mod_cast most
  push_cast at low high
  rw [div_le_iff₀ Dpos] at low
  rw [le_div_iff₀ Dpos] at high
  rw [scale, div_lt_iff₀ Dpos, lt_div_iff₀ Dpos, div_le_iff₀ Dpos, le_div_iff₀ Dpos, sub_mul, add_mul, div_mul_cancel₀ _ Dpos.ne']
  constructor
  · intro below
    have whole : j ≤ b := by
      by_contra past
      have step : (b : ℝ) + 1 ≤ j := by exact_mod_cast Int.add_one_le_of_lt (not_le.1 past)
      nlinarith only [Nat.cast_nonneg (α := ℝ) V, most', high, below, step]
    have whole' : (j : ℝ) ≤ b := by exact_mod_cast whole
    nlinarith only [least', low, whole']
  · intro above
    have whole : (b : ℤ) + 1 ≤ j := by
      by_contra short
      have step : (j : ℝ) ≤ b := by exact_mod_cast Int.le_of_lt_add_one (not_le.1 short)
      nlinarith only [Nat.cast_nonneg (α := ℝ) V, low, above, step]
    have whole' : (b : ℝ) + 1 ≤ j := by exact_mod_cast whole
    nlinarith only [most', high, whole']

/-- No multiple of 2^-s comes close to a root of two that is clear of them. -/
theorem root_apart {s num i : ℕ} (fits : s ≤ 290) (few : num ≤ 2 ^ i) (clear : rootClear (ln2Fix prec) s num i = true) (j : ℤ) :
    ((j : ℝ) / 2 ^ s < Real.exp (Real.log 2 * (num / 2 ^ i)) → (j : ℝ) / 2 ^ s ≤ Real.exp (Real.log 2 * (num / 2 ^ i)) - 1 / 2 ^ (s + 20))
      ∧ (Real.exp (Real.log 2 * (num / 2 ^ i)) < j / 2 ^ s → Real.exp (Real.log 2 * (num / 2 ^ i)) + 1 / 2 ^ (s + 20) ≤ j / 2 ^ s) := by
  obtain ⟨low, high⟩ := root_bounds few
  rw [rootClear, holdsAt_eq, holdsAt_eq, decide_eq_true_iff] at clear
  obtain ⟨same, least, most⟩ := clear
  rw [← Nat.div_add_mod (rootLow (ln2Fix prec) num i) (2 ^ (prec - s))] at low
  rw [← Nat.div_add_mod (rootHigh (ln2Fix prec) num i) (2 ^ (prec - s)), same] at high
  have unit : (2 : ℝ) ^ prec = 2 ^ s * (2 ^ (prec - s) : ℕ) := by
    rw [Nat.cast_pow, Nat.cast_two, ← pow_add, Nat.add_sub_cancel' (by unfold prec; omega)]
  have slack : ((2 ^ (prec - s - 20) : ℕ) : ℝ) / 2 ^ prec = 1 / 2 ^ (s + 20) := by
    rw [div_eq_div_iff (by positivity) (by positivity), one_mul, Nat.cast_pow, Nat.cast_two, ← pow_add]
    congr 1
    unfold prec
    omega
  rw [← slack]
  exact multiple_apart unit (by positivity) low high least most

end Sys2Proof.Machine
end

section
/-! PROOFS. `log2`: its value, and its distance from the powers of two. -/

namespace Sys2Proof.Machine

theorem log_before_root {m i : ℕ} {e : ℤ} (pos : 0 < m) (few : m < 2 ^ 53) (range : i < 53) (before : Real.log (m * 2 ^ e) < Real.log 2 * ((1 : ℕ) / 2 ^ (i + 1))) :
    Real.log (m * 2 ^ e) ≤ Real.log 2 * ((1 : ℕ) / 2 ^ (i + 1)) - 2 ^ (-80 : ℤ) := by
  have xpos : (0 : ℝ) < m * 2 ^ e := by positivity
  have logs := Real.log_two_gt_d9
  have logs' := Real.log_two_lt_d9
  have q0 : (2 : ℝ) ^ (-60 : ℤ) ≤ (1 : ℕ) / 2 ^ (i + 1) := by
    rw [Nat.cast_one, one_div, ← zpow_natCast, ← zpow_neg]
    exact power_le (by push_cast; omega)
  have q1 : ((1 : ℕ) : ℝ) / 2 ^ (i + 1) ≤ 1 := by
    rw [div_le_one (by positivity)]
    exact_mod_cast Nat.one_le_two_pow
  rcases lt_or_ge ((m : ℝ) * 2 ^ e) 1 with small | large
  · have neg := Real.log_neg xpos small
    norm_num at q0 ⊢
    nlinarith only [before, logs, logs', q1, neg, q0]
  · have units := units_down (m := m) (g := 53) (e := e) (by
      have := units_of_large (k := 0) (e := e) few (by rwa [zpow_zero])
      omega)
    rw [units] at before xpos ⊢
    rw [Real.log_lt_iff_lt_exp xpos] at before
    obtain ⟨below, -⟩ := root_apart (by norm_num) Nat.one_le_two_pow (roots_clear range).1 (m * 2 ^ (e + 53).toNat)
    have gap := log_le_of_gap xpos (below before) (by positivity) ((Real.exp_le_exp.2 (mul_le_of_le_one_right (by linarith only [logs, logs']) q1)).trans (by
      rw [Real.exp_log two_pos]
      norm_num))
    rw [Real.log_exp] at gap
    refine gap.trans (sub_le_sub_left ?_ _)
    norm_num

theorem log_past_root {m i : ℕ} {e : ℤ} (pos : 0 < m) (few : m < 2 ^ 53) (range : i < 53) (past : -(Real.log 2 * ((1 : ℕ) / 2 ^ (i + 1))) < Real.log (m * 2 ^ e)) :
    -(Real.log 2 * ((1 : ℕ) / 2 ^ (i + 1))) + 2 ^ (-80 : ℤ) ≤ Real.log (m * 2 ^ e) := by
  have xpos : (0 : ℝ) < m * 2 ^ e := by positivity
  have logs := Real.log_two_gt_d9
  have logs' := Real.log_two_lt_d9
  have q0 : (2 : ℝ) ^ (-60 : ℤ) ≤ (1 : ℕ) / 2 ^ (i + 1) := by
    rw [Nat.cast_one, one_div, ← zpow_natCast, ← zpow_neg]
    exact power_le (by push_cast; omega)
  have q1 : ((1 : ℕ) : ℝ) / 2 ^ (i + 1) ≤ 1 := by
    rw [div_le_one (by positivity)]
    exact_mod_cast Nat.one_le_two_pow
  rcases le_or_gt 1 ((m : ℝ) * 2 ^ e) with large | small
  · have nonneg := Real.log_nonneg large
    norm_num at q0 ⊢
    nlinarith only [past, logs, logs', q1, nonneg, q0]
  · have complement : ((2 ^ (i + 1) - 1 : ℕ) : ℝ) / 2 ^ (i + 1) = 1 - (1 : ℕ) / 2 ^ (i + 1) := by
      rw [Nat.cast_sub Nat.one_le_two_pow, sub_div, Nat.cast_pow, Nat.cast_two, div_self (by positivity)]
    have half : (2 : ℝ) ^ (-1 : ℤ) ≤ m * 2 ^ e := by
      rw [← Real.log_le_log_iff (by positivity) xpos, Real.log_zpow]
      push_cast at past q1 ⊢
      nlinarith only [logs, past, q1]
    have double : (m : ℝ) * 2 ^ (e + 1) = m * 2 ^ e * 2 := by
      rw [zpow_add_one₀ two_ne_zero, mul_assoc]
    have log : Real.log (m * 2 ^ (e + 1)) = Real.log (m * 2 ^ e) + Real.log 2 := by rw [double, Real.log_mul xpos.ne' two_ne_zero]
    have dpos : (0 : ℝ) < m * 2 ^ (e + 1) := by positivity
    have shifted : Real.log 2 * ((2 ^ (i + 1) - 1 : ℕ) / 2 ^ (i + 1)) < Real.log (m * 2 ^ (e + 1)) := by
      rw [complement, log]
      linarith only [past]
    have units := units_down (m := m) (g := 52) (e := e + 1) (by
      have := units_of_large few half
      omega)
    obtain ⟨-, above⟩ := root_apart (by norm_num) (Nat.sub_le _ 1) (roots_clear range).2 (m * 2 ^ (e + 1 + 52).toNat)
    rw [Real.lt_log_iff_exp_lt dpos] at shifted
    have near := above (by rwa [units] at shifted)
    have top : (m : ℝ) * 2 ^ (e + 1) ≤ 4 := by linarith only [logs, logs', small, double]
    have gap := le_log_of_gap (Real.exp_pos _) near (by positivity) (near.trans (by rwa [units] at top))
    have units' : Real.log (m * 2 ^ (e + 1)) = Real.log ((m * 2 ^ (e + 1 + 52).toNat : ℤ) / 2 ^ 52) := congrArg Real.log units
    rw [Real.log_exp, ← units', log, complement] at gap
    norm_num at gap ⊢
    linarith only [logs, logs', gap]

theorem logb_two (x : ℝ) : Real.logb 2 x = Real.log x / Real.log 2 := rfl

/-- A logarithm below a power of two in magnitude is below it by 2^-80. -/
theorem log2_apart {m : ℕ} {e j : ℤ} (pos : 0 < m) (few : m < 2 ^ 53) (least : -53 ≤ j) (below : |Real.logb 2 (m * 2 ^ e)| < 2 ^ j) :
    |Real.logb 2 (m * 2 ^ e)| ≤ 2 ^ j - 2 ^ (-80 : ℤ) := by
  have logs := Real.log_two_lt_d9
  have lpos : 0 < Real.log 2 := Real.log_pos one_lt_two
  rw [logb_two] at below ⊢
  rw [abs_lt, lt_div_iff₀ lpos, div_lt_iff₀ lpos] at below
  obtain ⟨past, before⟩ := below
  have sides : -(2 ^ j * Real.log 2) + 2 ^ (-80 : ℤ) ≤ Real.log (m * 2 ^ e) ∧ Real.log (m * 2 ^ e) ≤ 2 ^ j * Real.log 2 - 2 ^ (-80 : ℤ) := by
    have fine : (2 : ℝ) ^ (-80 : ℤ) ≤ 2 ^ (-60 : ℤ) := power_le (by norm_num)
    rcases le_or_gt 0 j with whole | root
    · obtain ⟨N, rfl⟩ := Int.eq_ofNat_of_zero_le whole
      have cast : (2 : ℝ) ^ (N : ℤ) = ((2 ^ N : ℕ) : ℤ) := by
        push_cast
        exact zpow_natCast 2 N
      rw [cast] at past before ⊢
      have high := log_before_power pos few before
      have low := log_past_power (k := -((2 ^ N : ℕ) : ℤ)) few (by rwa [Int.cast_neg]) pos
      rw [Int.cast_neg] at low
      constructor <;> linarith only [fine, low, high]
    · obtain ⟨i, hi⟩ := Int.eq_ofNat_of_zero_le (a := -j - 1) (by omega)
      have cast : (2 : ℝ) ^ j * Real.log 2 = Real.log 2 * ((1 : ℕ) / 2 ^ (i + 1)) := by
        rw [Nat.cast_one, one_div, ← zpow_natCast, ← zpow_neg, mul_comm]
        congr 2
        push_cast
        omega
      rw [neg_mul, cast] at past
      rw [cast] at before ⊢
      exact ⟨log_past_root pos few (by omega) past, log_before_root pos few (by omega) before⟩
  obtain ⟨low, high⟩ := sides
  have slack : (2 : ℝ) ^ (-80 : ℤ) * Real.log 2 ≤ 2 ^ (-80 : ℤ) := mul_le_of_le_one_right (by positivity) (by linarith only [logs, lpos])
  rw [abs_le, le_div_iff₀ lpos, div_le_iff₀ lpos]
  constructor <;> linarith only [low, slack, high]

/-- The logarithm of what is not 1 is not below 2^-54. -/
theorem log2_least {m : ℕ} {e : ℤ} (pos : 0 < m) (few : m < 2 ^ 53) (other : (m : ℝ) * 2 ^ e ≠ 1) : (2 : ℝ) ^ (-54 : ℤ) ≤ |Real.logb 2 (m * 2 ^ e)| := by
  have xpos : (0 : ℝ) < m * 2 ^ e := by positivity
  have lpos : 0 < Real.log 2 := Real.log_pos one_lt_two
  have logs := Real.log_two_lt_d9
  have log : (2 : ℝ) ^ (-54 : ℤ) ≤ |Real.log (m * 2 ^ e)| := by
    rcases lt_or_gt_of_ne other with less | more
    · have gap := before_power (e := e) (k := 0) few (by rwa [zpow_zero])
      have step := Real.log_le_sub_one_of_pos xpos
      refine le_trans ?_ (neg_le_abs _)
      norm_num at gap ⊢
      linarith only [less, step, gap]
    · have gap := past_power (e := e) (k := 0) few (by rwa [zpow_zero])
      have step := Real.one_sub_inv_le_log_of_pos xpos
      have inverse : (m * 2 ^ e : ℝ)⁻¹ ≤ 1 - 2 ^ (-54 : ℤ) := by
        rw [inv_le_iff_one_le_mul₀ xpos]
        norm_num at gap ⊢
        linarith only [more, gap]
      refine le_trans ?_ (le_abs_self _)
      generalize (2 : ℝ) ^ (-54 : ℤ) = δ at *
      linarith only [step, inverse]
  rw [logb_two, abs_div, abs_of_pos lpos, le_div_iff₀ lpos]
  exact (mul_le_of_le_one_right (by positivity) (by linarith only [lpos, logs])).trans log

/-! The value of `log2`. -/

/-- Whether the significand of a number is past 3 / 2, and what it is taken out of. -/
def markUp (m : ℕ) : ℕ := if decide (3 * 2 ^ Nat.log2 m < 2 * m) then 1 else 0
def markUnits (m : ℕ) : ℕ := m * 2 ^ prec / 2 ^ (Nat.log2 m + markUp m)
def markRest (m : ℕ) : ℤ := (markUnits m : ℤ) - (2 ^ prec : ℕ)
def markQuotient (m : ℕ) : ℕ := (markRest m).natAbs * 2 ^ prec / (markUnits m + 2 ^ prec)
def markLog (m : ℕ) : ℕ := 2 * atanhFix prec (markQuotient m) * 2 ^ prec / ln2Fix prec
def log2Fix (m : ℕ) (e : ℤ) : ℤ := (e + Nat.log2 m + markUp m) * (2 ^ prec : ℕ) + signedNat (decide (markRest m < 0)) (markLog m)

theorem log2_value {m : ℕ} (other : m ≠ 2 ^ Nat.log2 m) (neg : Bool) (e : ℤ) :
    Special8.log2.value neg m e = ⟨decide (log2Fix m e < 0), (log2Fix m e).natAbs, -(prec : ℤ), false⟩ := by
  refine (if_neg other).trans ?_
  unfold log2Fix markLog markQuotient markRest markUnits markUp
  split <;> rfl

/-- The significand, as the fraction that the units hold. -/
noncomputable def markFraction (m : ℕ) : ℝ := m / 2 ^ (Nat.log2 m + markUp m)

theorem markFraction_bounds {m : ℕ} (pos : 0 < m) : 3 / 4 ≤ markFraction m ∧ markFraction m ≤ 3 / 2 := by
  have low : (2 : ℝ) ^ Nat.log2 m ≤ m := by exact_mod_cast Nat.log2_self_le pos.ne'
  have high : (m : ℝ) < 2 ^ (Nat.log2 m + 1) := by exact_mod_cast Nat.lt_log2_self
  have unit : (0 : ℝ) < 2 ^ Nat.log2 m := by positivity
  unfold markFraction markUp
  rw [pow_succ] at high
  split
  · next up =>
    have up' : (3 : ℝ) * 2 ^ Nat.log2 m < 2 * m := by exact_mod_cast of_decide_eq_true up
    rw [pow_succ, div_le_div_iff₀ (by norm_num) (by positivity), div_le_div_iff₀ (by positivity) two_pos]
    constructor <;> linarith only [up', high]
  · next down =>
    have down' : (2 : ℝ) * m ≤ 3 * 2 ^ Nat.log2 m := by exact_mod_cast not_lt.1 fun h => down (decide_eq_true h)
    rw [add_zero, div_le_div_iff₀ (by norm_num) unit, div_le_div_iff₀ unit two_pos]
    constructor <;> linarith only [low, high, down']

theorem markUp_le (m : ℕ) : markUp m ≤ 1 := by
  unfold markUp
  split <;> omega

theorem markUnits_eq {m : ℕ} (pos : 0 < m) (few : m < 2 ^ 53) : (markUnits m : ℝ) = 2 ^ prec * markFraction m := by
  have bits : Nat.log2 m < 53 := (Nat.log2_lt pos.ne').2 few
  have up := markUp_le m
  unfold markUnits markFraction
  rw [Nat.cast_div ((pow_dvd_pow 2 (show Nat.log2 m + markUp m ≤ prec by unfold prec; omega)).mul_left m) (by positivity), Nat.cast_mul, Nat.cast_pow, Nat.cast_pow,
    Nat.cast_two]
  ring

/-- The computed inverse hyperbolic tangent of a small number. -/
theorem atanhFix_bounds {z : ℕ} (small : (z : ℝ) / 2 ^ prec ≤ 1 / 3) : 2 ^ prec * halfLog (z / 2 ^ prec) - 421 ≤ atanhFix prec z
    ∧ (atanhFix prec z : ℝ) ≤ 2 ^ prec * halfLog (z / 2 ^ prec) := by
  have unit : (0 : ℝ) < 2 ^ prec := by positivity
  have low := div_le_real (z * z) (2 ^ prec)
  have high := real_lt_div (b := 2 ^ prec) (by positivity) (z * z)
  have scale : ((z * z : ℕ) : ℝ) / ((2 ^ prec : ℕ) : ℝ) = 2 ^ prec * (z / 2 ^ prec) ^ 2 := by
    push_cast
    field_simp
  rw [scale] at low high
  have whole : (2 : ℝ) ^ prec * (z / 2 ^ prec) = z := mul_div_cancel₀ _ unit.ne'
  have bounds := atanhSeries_halfLog (p := prec) (z2 := z * z / 2 ^ prec) (n := 140) (pw := z) (z := z / 2 ^ prec) (by positivity) small low (by linarith only [high])
    whole.ge (by rw [whole]; norm_num) (by decide +kernel)
  have count : (3 * ((140 : ℕ) : ℝ) + 1) = 421 := by norm_num
  rwa [count] at bounds

theorem halfLog_close {z z' d : ℝ} (nonneg : 0 ≤ z') (le : z' ≤ z) (top : z ≤ 1 / 3) (close : z - z' ≤ d) : halfLog z' ≤ halfLog z ∧ halfLog z - halfLog z' ≤ 3 * d := by
  have base : 0 < 1 - z := by linarith only [top]
  have base' : 0 < 1 - z' := by linarith only [le, top]
  have ratio : 0 < (1 + z) / (1 - z) := div_pos (by linarith only [nonneg, le]) base
  have ratio' : 0 < (1 + z') / (1 - z') := div_pos (by linarith only [nonneg]) base'
  unfold halfLog
  constructor
  · gcongr
    linarith only [nonneg, le]
  · have step := Real.log_le_sub_one_of_pos (div_pos ratio ratio')
    rw [Real.log_div ratio.ne' ratio'.ne'] at step
    have slope : (1 + z) / (1 - z) / ((1 + z') / (1 - z')) - 1 ≤ 6 * d := by
      rw [sub_le_iff_le_add, div_le_iff₀ ratio', div_le_iff₀ base, mul_div_assoc', div_mul_eq_mul_div, le_div_iff₀ base']
      have product : 2 / 3 ≤ (1 + z') * (1 - z) := by nlinarith only [nonneg, top]
      have d0 : 0 ≤ d := (sub_nonneg.2 le).trans close
      nlinarith only [mul_le_mul_of_nonneg_left product d0, le, close]
    linarith only [step, slope]

theorem halfLog_ratio {u : ℝ} (pos : 0 < u) : 2 * halfLog (|u - 1| / (u + 1)) = |Real.log u| := by
  unfold halfLog
  rcases le_total 1 u with up | down
  · have ratio : (1 + (u - 1) / (u + 1)) / (1 - (u - 1) / (u + 1)) = u := by
      field_simp
      ring
    rw [abs_of_nonneg (sub_nonneg.2 up), abs_of_nonneg (Real.log_nonneg up), ratio]
    ring
  · have ratio : (1 + -(u - 1) / (u + 1)) / (1 - -(u - 1) / (u + 1)) = u⁻¹ := by
      field_simp
      ring_nf
      exact mul_inv_cancel₀ pos.ne'
    rw [abs_of_nonpos (sub_nonpos.2 down), abs_of_nonpos (Real.log_nonpos pos.le down), ratio, Real.log_inv]
    ring

/-- The floor of a quotient, in the units of its terms. -/
theorem quotient_floor {n d p : ℕ} (pos : 0 < d) : ((n * 2 ^ p / d : ℕ) : ℝ) / 2 ^ p ≤ n / d ∧ (n : ℝ) / d - 1 / 2 ^ p ≤ (n * 2 ^ p / d : ℕ) / 2 ^ p := by
  have unit : (0 : ℝ) < 2 ^ p := by positivity
  have low := div_le_real (n * 2 ^ p) d
  have high := real_lt_div pos (n * 2 ^ p)
  have scale : ((n * 2 ^ p : ℕ) : ℝ) / d = 2 ^ p * (n / d) := by
    push_cast
    ring
  rw [scale] at low high
  constructor
  · rwa [div_le_iff₀' unit]
  · rw [sub_le_iff_le_add, ← add_div, le_div_iff₀' unit]
    exact high.le

theorem double_quotient_floor {x y p : ℕ} (pos : 0 < y) : ((2 * x * 2 ^ p / y : ℕ) : ℝ) / 2 ^ p ≤ 2 * (x / 2 ^ p) / (y / 2 ^ p)
    ∧ 2 * (x / 2 ^ p : ℝ) / (y / 2 ^ p) - 1 / 2 ^ p ≤ (2 * x * 2 ^ p / y : ℕ) / 2 ^ p := by
  have scale : ((2 * x : ℕ) : ℝ) / y = 2 * (x / 2 ^ p) / (y / 2 ^ p) := by
    push_cast
    field_simp
  rw [← scale]
  exact quotient_floor pos

/-- A quotient by a computed ln 2. -/
theorem quotient_near {g a l L u : ℝ} (u0 : 0 ≤ u) (apos : 0 ≤ a) (fine : u ≤ 2 ^ (-20 : ℤ)) (a0 : L / 2 - 424 * u ≤ a) (a1 : a ≤ L / 2) (l0 : Real.log 2 - 1922 * u ≤ l) (l1 : l ≤ Real.log 2)
    (L1 : L ≤ 1 / 2) (g0 : 2 * a / l - u ≤ g) (g1 : g ≤ 2 * a / l) : |g - L / Real.log 2| ≤ 5000 * u := by
  have logs := Real.log_two_gt_d9
  have logs' := Real.log_two_lt_d9
  have lpos : 1 / 2 ≤ l := by
    norm_num at fine
    linarith only [l0, logs, logs', fine]
  generalize Real.log 2 = t at *
  have t0 : 0 < t := by linarith only [logs, logs']
  have upper : 2 * a / l ≤ L / t + 5000 * u := by
    rw [div_le_iff₀ (by linarith only [lpos, logs, logs']), add_mul, div_mul_eq_mul_div, ← sub_le_iff_le_add, le_div_iff₀ t0]
    nlinarith only [mul_nonneg u0 t0.le, apos, a0, a1, L1, lpos, l0, l1, logs, logs']
  have lower : L / t - 4999 * u ≤ 2 * a / l := by
    have first : L / t - 4999 * u ≤ 2 * a / t := by
      rw [sub_le_iff_le_add, div_le_iff₀ t0, add_mul, div_mul_cancel₀ _ t0.ne']
      nlinarith only [u0, a0, lpos, l1]
    refine first.trans ?_
    gcongr
  rw [abs_le]
  constructor <;> linarith only [g0, lower, g1, upper]

/-- The logarithm of the fraction, as it is computed. -/
theorem markLog_near {m : ℕ} (pos : 0 < m) (few : m < 2 ^ 53) : |(markLog m : ℝ) / 2 ^ prec - |Real.log (markFraction m)| / Real.log 2| ≤ 5000 * (1 / 2 ^ prec) := by
  obtain ⟨low, high⟩ := markFraction_bounds pos
  have units := markUnits_eq pos few
  have unit : (0 : ℝ) < 2 ^ prec := by positivity
  have rest : ((markRest m).natAbs : ℝ) = 2 ^ prec * |markFraction m - 1| := by
    rw [Nat.cast_natAbs, Int.cast_abs]
    unfold markRest
    rw [Int.cast_sub, Int.cast_natCast, Int.cast_natCast, units, Nat.cast_pow, Nat.cast_two, ← mul_sub_one, abs_mul, abs_of_pos unit]
  have ratio : ((markRest m).natAbs : ℝ) / (markUnits m + 2 ^ prec : ℕ) = |markFraction m - 1| / (markFraction m + 1) := by
    rw [rest, Nat.cast_add, units, Nat.cast_pow, Nat.cast_two, ← mul_add_one, mul_div_mul_left _ _ unit.ne']
  obtain ⟨under, over_⟩ := quotient_floor (n := (markRest m).natAbs) (d := markUnits m + 2 ^ prec) (p := prec) (by positivity)
  rw [ratio] at under over_
  change (markQuotient m : ℝ) / 2 ^ prec ≤ _ at under
  change _ ≤ (markQuotient m : ℝ) / 2 ^ prec at over_
  have fpos : 0 < markFraction m := by linarith only [low]
  have small : |markFraction m - 1| / (markFraction m + 1) ≤ 1 / 3 := by
    rw [div_le_div_iff₀ (by linarith only [fpos]) (by norm_num)]
    have : |markFraction m - 1| ≤ 1 / 2 := abs_le.2 ⟨by linarith only [low, fpos], by linarith only [high]⟩
    linarith only [low, fpos, this]
  obtain ⟨close, close'⟩ := halfLog_close (div_nonneg (Nat.cast_nonneg _) unit.le) under small (sub_le_comm.1 over_)
  obtain ⟨least, most⟩ := atanhFix_bounds (under.trans small)
  have double := halfLog_ratio fpos
  have inv : 0 ≤ 1 / (2 : ℝ) ^ prec := by positivity
  have fine : 1 / (2 : ℝ) ^ prec ≤ 2 ^ (-20 : ℤ) := by
    rw [one_div, ← zpow_natCast, ← zpow_neg]
    exact power_le (by norm_num)
  have apos : (0 : ℝ) ≤ atanhFix prec (markQuotient m) / 2 ^ prec := by positivity
  have lpos : 0 < ln2Fix prec := by
    rw [ln2Fix_value]
    norm_num
  obtain ⟨floor, ceil⟩ := double_quotient_floor (x := atanhFix prec (markQuotient m)) (p := prec) lpos
  have top : |Real.log (markFraction m)| ≤ 1 / 2 := by
    have above := Real.log_le_sub_one_of_pos fpos
    have below := Real.one_sub_inv_le_log_of_pos fpos
    have inverse : (markFraction m)⁻¹ ≤ 3 / 2 := by
      rw [inv_le_iff_one_le_mul₀ fpos]
      linarith only [low, fpos]
    exact abs_le.2 ⟨by linarith only [below, inverse], by linarith only [high, above]⟩
  have a1 : (atanhFix prec (markQuotient m) : ℝ) / 2 ^ prec ≤ |Real.log (markFraction m)| / 2 := by
    rw [← double, mul_div_cancel_left₀ _ two_ne_zero, div_le_iff₀' unit]
    exact most.trans (mul_le_mul_of_nonneg_left close unit.le)
  have a0 : |Real.log (markFraction m)| / 2 - 424 * (1 / 2 ^ prec) ≤ atanhFix prec (markQuotient m) / 2 ^ prec := by
    rw [← double, mul_div_cancel_left₀ _ two_ne_zero, le_div_iff₀' unit, mul_sub, mul_left_comm, mul_one_div_cancel unit.ne']
    have loss := mul_le_mul_of_nonneg_left close' unit.le
    rw [mul_sub, mul_left_comm, mul_one_div_cancel unit.ne'] at loss
    linarith only [least, loss]
  obtain ⟨ln2, ln2'⟩ := ln2Fix_prec
  refine quotient_near inv apos fine a0 a1 ?_ (by rwa [div_le_iff₀' unit]) top ceil floor
  rw [le_div_iff₀' unit, mul_sub, mul_left_comm, mul_one_div_cancel unit.ne', mul_one]
  exact ln2

end Sys2Proof.Machine
end

section
/-! PROOFS. `log2` served (Table 10-9). -/

namespace Sys2Proof.Machine

theorem markFraction_scaled (m : ℕ) (e : ℤ) : (m : ℝ) * 2 ^ e = markFraction m * 2 ^ (e + Nat.log2 m + markUp m) := by
  unfold markFraction
  rw [div_mul_eq_mul_div, eq_div_iff (by positivity), mul_assoc, ← zpow_natCast, ← zpow_add₀ two_ne_zero]
  congr 2
  push_cast
  ring

theorem markRest_neg {m : ℕ} (pos : 0 < m) (few : m < 2 ^ 53) : markRest m < 0 ↔ markFraction m < 1 := by
  have units := markUnits_eq pos few
  have unit : (0 : ℝ) < 2 ^ prec := by positivity
  unfold markRest
  rw [sub_neg, ← Int.cast_lt (R := ℝ), Int.cast_natCast, Int.cast_natCast, units, Nat.cast_pow, Nat.cast_two]
  exact mul_lt_iff_lt_one_right unit

/-- The logarithm, as it is computed. -/
theorem log2Fix_near {m : ℕ} (pos : 0 < m) (few : m < 2 ^ 53) (e : ℤ) : |(log2Fix m e : ℝ) / 2 ^ prec - Real.logb 2 (m * 2 ^ e)| ≤ 5000 * (1 / 2 ^ prec) := by
  have near := markLog_near pos few
  obtain ⟨low, -⟩ := markFraction_bounds pos
  have fpos : 0 < markFraction m := by linarith only [low]
  have lpos : 0 < Real.log 2 := Real.log_pos one_lt_two
  have unit : (0 : ℝ) < 2 ^ prec := by positivity
  have log : Real.logb 2 (m * 2 ^ e) = (e + Nat.log2 m + markUp m : ℤ) + Real.log (markFraction m) / Real.log 2 := by
    rw [logb_two, markFraction_scaled, Real.log_mul fpos.ne' (by positivity), Real.log_zpow, add_div, mul_div_cancel_right₀ _ lpos.ne', add_comm]
  have fix : (log2Fix m e : ℝ) / 2 ^ prec = (e + Nat.log2 m + markUp m : ℤ) + (if markRest m < 0 then -1 else 1) * (markLog m / 2 ^ prec) := by
    unfold log2Fix signedNat
    rw [Int.cast_add, Int.cast_mul, add_div, Int.cast_natCast, Nat.cast_pow, Nat.cast_two, mul_div_cancel_right₀ _ unit.ne']
    congr 1
    by_cases neg : markRest m < 0
    · simp [neg, neg_div]
    · simp [neg]
  have sign : Real.log (markFraction m) = (if markRest m < 0 then -1 else 1) * |Real.log (markFraction m)| := by
    have iff := markRest_neg pos few
    split
    · next down => rw [abs_of_neg (Real.log_neg fpos (iff.1 down)), neg_one_mul, neg_neg]
    · next up => rw [abs_of_nonneg (Real.log_nonneg (not_lt.1 fun h => up (iff.2 h))), one_mul]
  rw [log, fix, sign, add_sub_add_left_eq_sub, mul_div_assoc, ← mul_sub, abs_mul]
  have one : |(if markRest m < 0 then -1 else 1 : ℝ)| = 1 := by
    split
    · rw [abs_neg, abs_one]
    · exact abs_one
  rw [one, one_mul]
  exact near

theorem not_one_of_not_power {m : ℕ} {e : ℤ} (pos : 0 < m) (other : m ≠ 2 ^ Nat.log2 m) : (m : ℝ) * 2 ^ e ≠ 1 := by
  intro one
  have log : Int.log 2 ((m : ℚ) * 2 ^ e) = Nat.log2 m + e := log_of_units pos le_rfl (by gcongr; linarith only)
  have cast : (((m : ℚ) * 2 ^ e : ℚ) : ℝ) = 1 := by
    push_cast
    exact one
  have one' : (m : ℚ) * 2 ^ e = 1 := by exact_mod_cast cast
  rw [one', Int.log_one_right] at log
  refine other ?_
  have down : e = -(Nat.log2 m : ℤ) := by omega
  rw [down, zpow_neg, zpow_natCast, mul_inv_eq_one₀ (by positivity)] at one
  exact_mod_cast one

/-- `log2` (Table 10-9) of what is not a power of two. -/
theorem log2_served {f : Fmt} (wide : f.Wide) {m : ℕ} {e : ℤ} (pos : 0 < m) (few : m < 2 ^ 53) (other : m ≠ 2 ^ Nat.log2 m) (neg : Bool) :
    f.Served (Special8.log2.value neg m e) (Real.logb 2 (m * 2 ^ e)) := by
  have near := log2Fix_near pos few e
  have least := log2_least (e := e) pos few (not_one_of_not_power pos other)
  have apart (j : ℤ) := log2_apart (j := j) (e := e) pos few
  rw [log2_value other]
  have unit : (0 : ℝ) < 2 ^ prec := by positivity
  have slack : 5000 * (1 / (2 : ℝ) ^ prec) ≤ 2 ^ (-220 : ℤ) := by
    rw [one_div, ← zpow_natCast, ← zpow_neg]
    calc 5000 * (2 : ℝ) ^ (-(prec : ℤ)) ≤ 2 ^ 13 * 2 ^ (-(prec : ℤ)) := by gcongr; norm_num
      _ ≤ 2 ^ (-220 : ℤ) := scaled_power 13 (by norm_num)
  generalize Real.logb 2 (m * 2 ^ e) = y at *
  generalize log2Fix m e = w at *
  have size : ((w.natAbs : ℕ) : ℝ) / 2 ^ prec = |(w : ℝ) / 2 ^ prec| := by
    rw [abs_div, abs_of_pos unit, Nat.cast_natAbs, Int.cast_abs]
  have sign : decide (w < 0) = true ↔ (w : ℝ) / 2 ^ prec < 0 := by
    rw [decide_eq_true_iff, div_lt_iff₀ unit, zero_mul, Int.cast_lt_zero]
  have near' := near.trans slack
  have close := (abs_abs_sub_abs_le_abs_sub _ _).trans near'
  rw [← size] at close
  refine wide.served (Approximates.of_near (z := |y|) (bits_of_value ?_) ?_ ?_ fun k power => ?_)
  · generalize ((w.natAbs : ℕ) : ℝ) / 2 ^ prec = V at *
    have := (abs_le.1 close).1
    norm_num at least this ⊢
    linarith only [least, this]
  · have bounds := abs_le.1 near'
    generalize (w : ℝ) / 2 ^ prec = W at *
    norm_num at bounds least
    obtain ⟨below, above⟩ := bounds
    split
    · next down =>
      have negative := sign.1 down
      rcases le_abs.1 least with far | far <;> rw [abs_of_neg] <;> linarith only [below, negative, far]
    · next up =>
      have nonneg := not_lt.1 fun h => up (sign.2 h)
      rcases le_abs.1 least with far | far <;> rw [abs_of_nonneg] <;> linarith only [far, above, nonneg]
  · rw [inv_two_zpow prec _ rfl]
    refine close.trans ?_
    calc (2 : ℝ) ^ (-220 : ℤ) ≤ 2 ^ (-155 : ℤ) * 2 ^ (-54 : ℤ) := by norm_num
      _ ≤ 2 ^ (-155 : ℤ) * |y| := by gcongr
  · rw [inv_two_zpow prec _ rfl] at power
    by_contra short
    rw [not_le] at short
    have range := (zpow_lt_zpow_iff_right₀ one_lt_two).1 (least.trans_lt short)
    have gap := apart k (by omega) short
    have := (abs_le.1 close).2
    generalize ((w.natAbs : ℕ) : ℝ) / 2 ^ prec = V at *
    generalize (2 : ℝ) ^ k = p at *
    norm_num at this gap
    linarith only [short, power, this, gap]

end Sys2Proof.Machine
end

section
/-! PROOFS. `sin` and `cos`: certificates that no argument of 53 bits lies close to a quarter turn, or to an angle whose sine is a power of two. -/

namespace Sys2Proof.Machine

/-- 2 / pi in units of 2^-1400. -/
def quarterRate : ℕ := 17614651391001721318545009081064157915019357024018369698753528196582697003571789374637841173875944068131316291024364385012144830659122402368074349903166034424958163281214860413761242847797737873799821680284346893658710946242947611316138249347860872447282536934655146769672475238362873969089529290391325470311186922640786174700618165025783611067713409951390387873547775209771479788188032334707802229864195570117132531572840

/-- A convergent P / Q of n / d (by Euclid's algorithm), the first with Q not below a limit and not a multiple of 3. The recursor is what the kernel evaluates. -/
noncomputable def convergent (limit fuel : ℕ) : ℕ → ℕ → ℕ → ℕ → ℕ → ℕ → ℕ × ℕ :=
  Nat.rec (fun _ _ p q _ _ => (p, q)) (fun _ next p' q' p q n d =>
    bif Nat.ble limit q && Nat.blt 0 (q % 3) then (p, q) else next p q (n / d * p + p') (n / d * q + q') d (n % d)) fuel

/-- The fraction of 2^(z - 79) quarter turns that a unit 2^(z - 79) makes, in units of 2^-320. -/
def unitTurn (z : ℕ) : ℕ := quarterRate * 2 ^ z % 2 ^ 1479 / 2 ^ 1159

/-- How far Q a / 2^320 is from P, in units of 2^-320, a known within 2 units. -/
def convergentError (a P Q : ℕ) : ℕ := (Q * a - P * 2 ^ 320) + (P * 2 ^ 320 - Q * a) + 2 * Q

/-- No multiple of a, by 53 bits, is within 2^-95 of an integer. -/
def clearOfIntegers (a : ℕ) (c : ℕ × ℕ) : Bool :=
  decide (Nat.gcd c.2 c.1 = 1 ∧ 2 ^ 53 < c.2 ∧ 2 ^ 53 * convergentError a c.1 c.2 + c.2 * 2 ^ 225 < 2 ^ 320)

/-- The series of the inverse sine of 2^-i, from a term on. -/
noncomputable def arcsinSeries (i fuel : ℕ) : ℕ → ℕ → ℕ → ℕ :=
  Nat.rec (fun _ _ acc => acc)
    (fun _ next n term acc => next (n + 1) (term * (2 * n + 1) / (2 * n + 2) / 2 ^ (2 * i)) (acc + term / (2 * n + 1))) fuel

/-- The angle whose sine is 2^-i, in units of 2^-320, and the fraction of a quarter turn that it makes. -/
noncomputable def rootAngle (i : ℕ) : ℕ := arcsinSeries i (180 / i + 2) 0 (2 ^ (360 - i)) 0 / 2 ^ 40
noncomputable def rootTurn (i : ℕ) : ℕ := rootAngle i * (quarterRate / 2 ^ 1080) / 2 ^ 320

/-- No multiple of a, by 53 bits, is within 2^-291 of such an angle or its negative, but for whole turns. -/
noncomputable def clearOfRoots (a : ℕ) (c : ℕ × ℕ) : Bool :=
  holdsAt c.2 fun q => holdsAt (2 ^ 53 * convergentError a c.1 q + q * 2 ^ 30) fun margin =>
    decide (0 < q) && (List.range 95).all fun i =>
      holdsAt (q * rootTurn (i + 1) % 2 ^ 320) fun rest => Nat.ble margin rest && Nat.ble (rest + margin) (2 ^ 320)

theorem clearOfRoots_iff {a P Q : ℕ} : clearOfRoots a (P, Q) = true ↔ 0 < Q ∧ ∀ i < 95,
    2 ^ 53 * convergentError a P Q + Q * 2 ^ 30 ≤ Q * rootTurn (i + 1) % 2 ^ 320
      ∧ Q * rootTurn (i + 1) % 2 ^ 320 + (2 ^ 53 * convergentError a P Q + Q * 2 ^ 30) ≤ 2 ^ 320 := by
  simp only [clearOfRoots, holdsAt_eq, Bool.and_eq_true, decide_eq_true_iff, Nat.ble_eq, List.all_eq_true, List.mem_range]

noncomputable def clearTurn (z : ℕ) : Bool :=
  holdsAt (unitTurn z) fun a => clearOfIntegers a (convergent (2 ^ 72) 400 0 1 1 0 a (2 ^ 320)) && clearOfRoots a (convergent (2 ^ 150) 400 0 1 1 0 a (2 ^ 320))

/-- The units of a part of the range, nine at a time: the kernel keeps what it has evaluated of one proof. -/
def clearPart (k : ℕ) : Prop := ∀ i < 8, ∀ z < 9, clearTurn (9 * (8 * k + i) + z) = true

theorem clearPart_0 : clearPart 0 := fun i range => by interval_cases i <;> decide +kernel
theorem clearPart_1 : clearPart 1 := fun i range => by interval_cases i <;> decide +kernel
theorem clearPart_2 : clearPart 2 := fun i range => by interval_cases i <;> decide +kernel
theorem clearPart_3 : clearPart 3 := fun i range => by interval_cases i <;> decide +kernel
theorem clearPart_4 : clearPart 4 := fun i range => by interval_cases i <;> decide +kernel
theorem clearPart_5 : clearPart 5 := fun i range => by interval_cases i <;> decide +kernel
theorem clearPart_6 : clearPart 6 := fun i range => by interval_cases i <;> decide +kernel
theorem clearPart_7 : clearPart 7 := fun i range => by interval_cases i <;> decide +kernel
theorem clearPart_8 : clearPart 8 := fun i range => by interval_cases i <;> decide +kernel
theorem clearPart_9 : clearPart 9 := fun i range => by interval_cases i <;> decide +kernel
theorem clearPart_10 : clearPart 10 := fun i range => by interval_cases i <;> decide +kernel
theorem clearPart_11 : clearPart 11 := fun i range => by interval_cases i <;> decide +kernel
theorem clearPart_12 : clearPart 12 := fun i range => by interval_cases i <;> decide +kernel
theorem clearPart_13 : clearPart 13 := fun i range => by interval_cases i <;> decide +kernel
theorem clearPart_14 : clearPart 14 := fun i range => by interval_cases i <;> decide +kernel

theorem clearParts {k : ℕ} (part : k < 15) : clearPart k := by
  interval_cases k
  exacts [clearPart_0, clearPart_1, clearPart_2, clearPart_3, clearPart_4, clearPart_5, clearPart_6, clearPart_7, clearPart_8, clearPart_9, clearPart_10, clearPart_11,
    clearPart_12, clearPart_13, clearPart_14]

/-- Every unit of 2^-79 to 2^971 is clear of whole turns and of the roots. -/
theorem clearTurns {z : ℕ} (range : z < 1057) : clearTurn z = true := by
  have clear := clearParts (k := z / 9 / 8) (by omega) (z / 9 % 8) (Nat.mod_lt _ (by norm_num)) (z % 9) (Nat.mod_lt _ (by norm_num))
  rwa [Nat.div_add_mod, Nat.div_add_mod] at clear

/-- The computed sines of the root angles, from below and from above. -/
theorem rootAngles_sine {i : ℕ} (range : i < 95) : sinFix prec (rootAngle (i + 1) - 2 ^ 10) + 301 ≤ 2 ^ (prec - (i + 1))
    ∧ 2 ^ (prec - (i + 1)) + 301 ≤ sinFix prec (rootAngle (i + 1) + 2 ^ 10) ∧ 2 ^ 10 ≤ rootAngle (i + 1) ∧ rootAngle (i + 1) + 2 ^ 10 ≤ 2 ^ prec := by
  interval_cases i
  all_goals decide +kernel

theorem quarterRate_le : quarterRate ≤ 2 ^ 1400 := by decide +kernel

theorem piFix_1400 : piFix 1400 * quarterRate ≤ 2 ^ 2801 + 2 ^ 1402 ∧ 2 ^ 2801 ≤ piFix 1400 * quarterRate + 2 ^ 1402 := by decide +kernel

end Sys2Proof.Machine
end

section
/-! PROOFS. What the certificates of `sin` and `cos` say of real numbers. -/

namespace Sys2Proof.Machine

/-! Fractions of 2^-s. -/

/-- The whole part taken away, a known multiple of a rate is known within two units. -/
theorem fraction_near {J z s t : ℕ} {T : ℝ} (near : |T - J| ≤ 3) (fits : 3 * 2 ^ z ≤ 2 ^ t) :
    ∃ N : ℕ, |T * 2 ^ z / 2 ^ (s + t) - N - (J * 2 ^ z % 2 ^ (s + t) / 2 ^ t : ℕ) / 2 ^ s| ≤ 2 / 2 ^ s := by
  refine ⟨J * 2 ^ z / 2 ^ (s + t), ?_⟩
  have split := Nat.div_add_mod (J * 2 ^ z) (2 ^ (s + t))
  have low := div_le_real (J * 2 ^ z % 2 ^ (s + t)) (2 ^ t)
  have high := real_lt_div (b := 2 ^ t) (by positivity) (J * 2 ^ z % 2 ^ (s + t))
  generalize J * 2 ^ z % 2 ^ (s + t) = R at *
  generalize J * 2 ^ z / 2 ^ (s + t) = N at *
  generalize R / 2 ^ t = a at *
  have S : (0 : ℝ) < 2 ^ s := by positivity
  have U : (0 : ℝ) < 2 ^ t := by positivity
  have cast : (J : ℝ) * 2 ^ z = 2 ^ (s + t) * N + R := by exact_mod_cast split.symm
  have fits' : 3 * (2 : ℝ) ^ z ≤ 2 ^ t := by exact_mod_cast fits
  have value : T * 2 ^ z / 2 ^ (s + t) - N - a / 2 ^ s = ((T - J) * 2 ^ z / 2 ^ t + (R / 2 ^ t - a)) / 2 ^ s := by
    have first : T * 2 ^ z = (T - J) * 2 ^ z + (2 ^ (s + t) * N + R) := by
      rw [← cast]
      ring
    rw [first, pow_add]
    field_simp
    ring
  push_cast at low high
  rw [value, abs_div, abs_of_pos S]
  gcongr
  have loss : |(T - J) * 2 ^ z / 2 ^ t| ≤ 1 := by
    rw [abs_div, abs_of_pos U, div_le_one U, abs_mul, abs_of_pos (by positivity : (0 : ℝ) < 2 ^ z)]
    exact (mul_le_mul_of_nonneg_right near (by positivity)).trans fits'
  rw [abs_le] at loss ⊢
  constructor <;> linarith only [low, loss, high]

theorem cast_sub_add_sub (x y : ℕ) : ((x - y : ℕ) : ℝ) + (y - x : ℕ) = |(x : ℝ) - y| := by
  rcases le_total x y with le | ge
  · rw [Nat.sub_eq_zero_of_le le, Nat.cast_sub le, Nat.cast_zero, zero_add, abs_sub_comm, abs_of_nonneg (sub_nonneg.2 (Nat.cast_le.2 le))]
  · rw [Nat.sub_eq_zero_of_le ge, Nat.cast_sub ge, Nat.cast_zero, add_zero, abs_of_nonneg (sub_nonneg.2 (Nat.cast_le.2 ge))]

theorem convergentError_near {a P Q : ℕ} {x : ℝ} (near : |x - a / 2 ^ 320| ≤ 2 / 2 ^ 320) : |Q * x - P| ≤ convergentError a P Q / 2 ^ 320 := by
  have F : (0 : ℝ) < 2 ^ 320 := by positivity
  have size : ((convergentError a P Q : ℕ) : ℝ) = |(Q : ℝ) * a - P * 2 ^ 320| + 2 * Q := by
    unfold convergentError
    rw [Nat.cast_add, Nat.cast_add, cast_sub_add_sub, Nat.cast_mul, Nat.cast_mul, Nat.cast_pow, Nat.cast_mul, Nat.cast_two]
  have value : Q * x - P = Q * (x - a / 2 ^ 320) + (Q * a - P * 2 ^ 320) / 2 ^ 320 := by
    field_simp
    ring
  rw [value, size, add_div, add_comm]
  refine (abs_add_le _ _).trans (add_le_add ?_ ?_)
  · rw [abs_div, abs_of_pos F]
  · rw [abs_mul, Nat.abs_cast, mul_comm (2 : ℝ), mul_div_assoc]
    gcongr

/-- Multiples of a rate that is clear of integers stand away from them. -/
theorem away_from_integers {a m : ℕ} {c : ℕ × ℕ} {x : ℝ} {j : ℤ} (clear : clearOfIntegers a c = true) (near : |x - a / 2 ^ 320| ≤ 2 / 2 ^ 320) (pos : 0 < m) (few : m < 2 ^ 53) :
    2 ^ (-95 : ℤ) < |m * x - j| := by
  obtain ⟨P, Q⟩ := c
  unfold clearOfIntegers at clear
  rw [decide_eq_true_iff] at clear
  obtain ⟨coprime, large, small⟩ := clear
  have error := convergentError_near (P := P) (Q := Q) near
  by_contra close
  refine not_near_integer coprime error pos (few.trans large) (not_lt.1 close) ?_
  have F : (0 : ℝ) < 2 ^ 320 := by positivity
  have few' : (m : ℝ) ≤ 2 ^ 53 := by exact_mod_cast few.le
  have small' : (2 : ℝ) ^ 53 * convergentError a P Q + Q * 2 ^ 225 < 2 ^ 320 := by exact_mod_cast small
  have scale : (Q : ℝ) * 2 ^ (-95 : ℤ) = Q * 2 ^ 225 / 2 ^ 320 := by
    rw [mul_div_assoc, ← zpow_natCast, ← zpow_natCast, ← zpow_sub₀ two_ne_zero]
    rfl
  dsimp only
  rw [scale, mul_div_assoc', ← add_div, div_lt_one F]
  refine lt_of_le_of_lt ?_ small'
  gcongr

/-- A fraction whose units are away from 0 and 1 is away from every integer. -/
theorem fraction_away {w M F : ℕ} {j : ℤ} (pos : 0 < F) (low : M ≤ w) (high : w + M ≤ F) : (M : ℝ) / F ≤ |(w : ℝ) / F - j| := by
  have F0 : (0 : ℝ) < F := by exact_mod_cast pos
  have low' : (M : ℝ) ≤ w := by exact_mod_cast low
  have high' : (w : ℝ) + M ≤ F := by exact_mod_cast high
  have split : (w : ℝ) / F - j = (w - j * F) / F := by
    field_simp
  rw [split, abs_div, abs_of_pos F0]
  gcongr
  rcases le_or_gt j 0 with neg | some
  · have down : (j : ℝ) ≤ 0 := by exact_mod_cast neg
    refine le_trans ?_ (le_abs_self _)
    nlinarith only [low', down]
  · have up : (1 : ℝ) ≤ j := by exact_mod_cast some
    refine le_trans ?_ (neg_le_abs _)
    nlinarith only [high', up]

/-- Multiples of a rate that is clear of a root's angle stand away from it and its negative, but for whole turns. -/
theorem away_from_root {a m i : ℕ} {c : ℕ × ℕ} {x θ : ℝ} {j : ℤ} (clear : clearOfRoots a c = true) (near : |x - a / 2 ^ 320| ≤ 2 / 2 ^ 320) (few : m < 2 ^ 53)
    (range : i < 95) (angle : |θ - rootTurn (i + 1) / 2 ^ 320| ≤ 2 ^ 11 / 2 ^ 320) {sign : ℤ} (unit : sign = 1 ∨ sign = -1) :
    2 ^ (-291 : ℤ) ≤ |m * x - j - sign * θ| := by
  obtain ⟨P, Q⟩ := c
  obtain ⟨some, all⟩ := clearOfRoots_iff.1 clear
  obtain ⟨low, high⟩ := all i range
  have error := convergentError_near (P := P) (Q := Q) near
  have split := Nat.div_add_mod (Q * rootTurn (i + 1)) (2 ^ 320)
  generalize Q * rootTurn (i + 1) / 2 ^ 320 = turns at *
  have away := fraction_away (j := sign * (m * P - Q * j) - turns) (Nat.two_pow_pos 320) low high
  have F : (0 : ℝ) < 2 ^ 320 := by positivity
  have small : (2 : ℝ) ^ (-291 : ℤ) + 2 ^ 11 / 2 ^ 320 < 2 ^ 30 / 2 ^ 320 := by
    have scale : (2 : ℝ) ^ (-291 : ℤ) = 2 ^ 29 / 2 ^ 320 := by
      rw [← zpow_natCast, ← zpow_natCast, ← zpow_sub₀ two_ne_zero]
      rfl
    rw [scale, ← add_div, div_lt_div_iff_of_pos_right F]
    norm_num
  have total : ((2 ^ 53 * convergentError a P Q + Q * 2 ^ 30 : ℕ) : ℝ) / (2 ^ 320 : ℕ) = 2 ^ 53 * (convergentError a P Q / 2 ^ 320) + Q * (2 ^ 30 / 2 ^ 320) := by
    rw [Nat.cast_add, Nat.cast_mul, Nat.cast_mul, Nat.cast_pow, Nat.cast_pow, Nat.cast_pow, Nat.cast_two, add_div, mul_div_assoc, mul_div_assoc]
  have cast : ((Q * rootTurn (i + 1) % 2 ^ 320 : ℕ) : ℝ) / (2 ^ 320 : ℕ) = Q * (rootTurn (i + 1) / 2 ^ 320) - turns := by
    rw [eq_sub_iff_add_eq, mul_div_assoc', Nat.cast_pow, Nat.cast_two, div_add' _ _ _ F.ne', div_left_inj' F.ne', add_comm, mul_comm]
    exact_mod_cast split
  rw [total, cast] at away
  by_contra close
  rw [not_le] at close
  have sizes : |(sign : ℝ)| = 1 ∧ (sign : ℝ) * sign = 1 := by
    rcases unit with rfl | rfl
    · norm_num
    · norm_num
  have identity : Q * (rootTurn (i + 1) / 2 ^ 320 : ℝ) - turns - (sign * (m * P - Q * j) - turns : ℤ)
      = sign * (m * (Q * x - P)) - sign * (Q * (m * x - j - sign * θ)) - Q * (θ - rootTurn (i + 1) / 2 ^ 320) := by
    push_cast
    linear_combination (-(Q : ℝ) * θ) * sizes.2
  rw [identity] at away
  have few' : (m : ℝ) ≤ 2 ^ 53 := by exact_mod_cast few.le
  have some' : (0 : ℝ) < Q := by exact_mod_cast some
  have bound : |(sign : ℝ) * (m * (Q * x - P)) - sign * (Q * (m * x - j - sign * θ)) - Q * (θ - rootTurn (i + 1) / 2 ^ 320)|
      < 2 ^ 53 * ((convergentError a P Q : ℝ) / 2 ^ 320) + Q * (2 ^ 30 / 2 ^ 320) := by
    calc _ ≤ |(sign : ℝ) * (m * (Q * x - P))| + |(sign : ℝ) * (Q * (m * x - j - sign * θ))| + |(Q : ℝ) * (θ - rootTurn (i + 1) / 2 ^ 320)| :=
          (abs_sub _ _).trans (add_le_add_left (abs_sub _ _) _)
      _ = m * |Q * x - P| + Q * (|m * x - j - sign * θ| + |θ - rootTurn (i + 1) / 2 ^ 320|) := by
        rw [abs_mul, abs_mul, abs_mul, abs_mul, abs_mul, sizes.1, Nat.abs_cast, Nat.abs_cast]
        ring
      _ < 2 ^ 53 * (convergentError a P Q / 2 ^ 320) + Q * (2 ^ 30 / 2 ^ 320) := by
        refine add_lt_add_of_le_of_lt (by gcongr) (mul_lt_mul_of_pos_left ?_ some')
        exact (add_lt_add_of_lt_of_le close angle).trans small
  exact absurd away (not_le.2 bound)

end Sys2Proof.Machine
end

section
/-! PROOFS. How far the arguments of `sin` and `cos` stand from quarter turns and from the angles of the roots. -/

namespace Sys2Proof.Machine

theorem inverse_near {P J D : ℝ} (near : |P - D * Real.pi| ≤ 3) (product : |P * J - 2 * D * D| ≤ 4 * D) (pos : 0 < D) (nonneg : 0 ≤ J) (le : J ≤ D) :
    |D * (2 / Real.pi) - J| ≤ 3 := by
  have pi := Real.pi_gt_three
  have error : |D * (2 * D - J * Real.pi)| ≤ D * 7 := by
    have split : D * (2 * D - J * Real.pi) = J * (P - D * Real.pi) - (P * J - 2 * D * D) := by ring
    rw [split]
    calc _ ≤ |J * (P - D * Real.pi)| + |P * J - 2 * D * D| := abs_sub _ _
      _ ≤ D * 3 + 4 * D := by
        rw [abs_mul, abs_of_nonneg nonneg]
        gcongr
      _ = D * 7 := by ring
  rw [abs_mul, abs_of_pos pos, mul_le_mul_iff_right₀ pos] at error
  have value : D * (2 / Real.pi) - J = (2 * D - J * Real.pi) / Real.pi := by
    field_simp
  rw [value, abs_div, abs_of_pos Real.pi_pos, div_le_iff₀ Real.pi_pos]
  linarith only [pi, error]

theorem quarterRate_near : |2 ^ 1400 * (2 / Real.pi) - quarterRate| ≤ 3 := by
  have near := piFix_bounds (p := 1400) (by norm_num)
  obtain ⟨high, low⟩ := piFix_1400
  have le := quarterRate_le
  have square : 2 ^ 2801 = 2 * 2 ^ 1400 * 2 ^ 1400 := by rw [mul_assoc, ← pow_add, ← pow_succ']
  have double : 2 ^ 1402 = 4 * 2 ^ 1400 := by rw [show (4 : ℕ) = 2 ^ 2 by norm_num, ← pow_add]
  rw [square, double] at high low
  have base : ((2 ^ 1400 : ℕ) : ℝ) = 2 ^ 1400 := by rw [Nat.cast_pow, Nat.cast_two]
  rw [← base] at near ⊢
  generalize quarterRate = J at *
  generalize piFix 1400 = P at *
  have pos : 0 < 2 ^ 1400 := Nat.two_pow_pos 1400
  generalize 2 ^ 1400 = D at *
  have high' : (P : ℝ) * J ≤ 2 * D * D + 4 * D := by exact_mod_cast high
  have low' : 2 * (D : ℝ) * D ≤ P * J + 4 * D := by exact_mod_cast low
  refine inverse_near near ?_ (by exact_mod_cast pos) (Nat.cast_nonneg _) (by exact_mod_cast le)
  rw [abs_le]
  constructor <;> linarith only [low', high']

/-- A unit 2^(z - 79), in quarter turns: whole ones and the fraction. -/
theorem unitTurn_near {z : ℕ} (range : z < 1057) : ∃ N : ℕ, |2 ^ ((z : ℤ) - 79) * (2 / Real.pi) - N - unitTurn z / 2 ^ 320| ≤ 2 / 2 ^ 320 := by
  have fits : 3 * 2 ^ z ≤ 2 ^ 1159 := by
    calc 3 * 2 ^ z ≤ 2 ^ 2 * 2 ^ z := Nat.mul_le_mul_right _ (by norm_num)
      _ = 2 ^ (2 + z) := (pow_add _ _ _).symm
      _ ≤ 2 ^ 1159 := Nat.pow_le_pow_right two_pos (by omega)
  obtain ⟨N, near⟩ := fraction_near (s := 320) quarterRate_near fits
  refine ⟨N, ?_⟩
  have scale : (2 : ℝ) ^ ((z : ℤ) - 79) * (2 / Real.pi) = 2 ^ 1400 * (2 / Real.pi) * 2 ^ z / 2 ^ (320 + 1159) := by
    have powers : (2 : ℝ) ^ ((z : ℤ) - 79) * 2 ^ (320 + 1159) = 2 ^ 1400 * 2 ^ z := by
      rw [← zpow_natCast, ← zpow_natCast, ← zpow_natCast, ← zpow_add₀ two_ne_zero, ← zpow_add₀ two_ne_zero]
      congr 1
      push_cast
      ring
    rw [eq_div_iff (by positivity), mul_right_comm, powers]
    ring
  rw [scale]
  exact near

/-- The angle whose sine is 2^-(i + 1). -/
noncomputable def angle (i : ℕ) : ℝ := Real.arcsin (1 / 2 ^ (i + 1))

theorem power_units {k : ℕ} (le : k ≤ prec) : ((2 ^ (prec - k) : ℕ) : ℝ) = 2 ^ prec * (1 / 2 ^ k) := by
  rw [Nat.cast_pow, Nat.cast_two, mul_one_div, eq_div_iff (by positivity), ← pow_add, Nat.sub_add_cancel le]

/-- A computed sine, compared with a power of two, compares the angle. -/
theorem arcsin_of_sinFix {x k : ℕ} (fits : x ≤ 2 ^ prec) (le : k ≤ prec) :
    (sinFix prec x + 301 ≤ 2 ^ (prec - k) → (x : ℝ) / 2 ^ prec ≤ Real.arcsin (1 / 2 ^ k))
      ∧ (2 ^ (prec - k) + 301 ≤ sinFix prec x → Real.arcsin (1 / 2 ^ k) ≤ x / 2 ^ prec) := by
  have unit : (0 : ℝ) < 2 ^ prec := by positivity
  have arg0 : (0 : ℝ) ≤ x / 2 ^ prec := by positivity
  have arg1 : (x : ℝ) / 2 ^ prec ≤ 1 := by
    rw [div_le_one unit]
    exact_mod_cast fits
  have pi := Real.pi_gt_three
  have range : (x : ℝ) / 2 ^ prec ∈ Set.Icc (-(Real.pi / 2)) (Real.pi / 2) := ⟨by linarith only [arg0, pi], by linarith only [arg1, pi]⟩
  have power0 : (0 : ℝ) ≤ 1 / 2 ^ k := by positivity
  have power1 : 1 / (2 : ℝ) ^ k ≤ 1 := by
    rw [div_le_one (by positivity)]
    exact one_le_pow₀ one_le_two
  have range' : 1 / (2 : ℝ) ^ k ∈ Set.Icc (-1) 1 := ⟨by linarith only [power0], power1⟩
  have units := power_units le
  obtain ⟨low, high⟩ := abs_le.1 (sinFix_bounds (x := x) (by omega))
  rw [Real.le_arcsin_iff_sin_le range range', Real.arcsin_le_iff_le_sin range' range]
  constructor
  · intro small
    have small' := (Nat.cast_le (α := ℝ)).2 small
    rw [Nat.cast_add, units] at small'
    rw [← mul_le_mul_iff_right₀ unit]
    generalize (2 : ℝ) ^ prec * Real.sin (x / 2 ^ prec) = S at *
    generalize (2 : ℝ) ^ prec * (1 / 2 ^ k) = T at *
    push_cast at small'
    linarith only [low, small']
  · intro large
    have large' := (Nat.cast_le (α := ℝ)).2 large
    rw [Nat.cast_add, units] at large'
    rw [← mul_le_mul_iff_right₀ unit]
    generalize (2 : ℝ) ^ prec * Real.sin (x / 2 ^ prec) = S at *
    generalize (2 : ℝ) ^ prec * (1 / 2 ^ k) = T at *
    push_cast at large'
    linarith only [high, large']

theorem angle_bounds {i : ℕ} (range : i < 95) : |angle i - rootAngle (i + 1) / 2 ^ prec| ≤ 2 ^ 10 / 2 ^ prec ∧ (rootAngle (i + 1) : ℝ) / 2 ^ prec ≤ 1 := by
  obtain ⟨low, high, large, small⟩ := rootAngles_sine range
  have le : i + 1 ≤ prec := by
    unfold prec
    omega
  have unit : (0 : ℝ) < 2 ^ prec := by positivity
  have bottom := (arcsin_of_sinFix ((Nat.sub_le _ _).trans ((Nat.le_add_right _ _).trans small)) le).1 low
  have top := (arcsin_of_sinFix small le).2 high
  rw [Nat.cast_sub large, sub_div, Nat.cast_pow, Nat.cast_two] at bottom
  rw [Nat.cast_add, add_div, Nat.cast_pow, Nat.cast_two] at top
  constructor
  · unfold angle
    rw [abs_le]
    constructor <;> linarith only [bottom, top]
  · rw [div_le_one unit]
    exact_mod_cast (Nat.le_add_right _ _).trans small

theorem rate_near : |((quarterRate / 2 ^ 1080 : ℕ) : ℝ) / 2 ^ 320 - 2 / Real.pi| ≤ 2 / 2 ^ 320 := by
  have near := quarterRate_near
  have low := div_le_real quarterRate (2 ^ 1080)
  have high := real_lt_div (b := 2 ^ 1080) (Nat.two_pow_pos _) quarterRate
  have U : (0 : ℝ) < 2 ^ 320 := by positivity
  have D : (0 : ℝ) < 2 ^ 1080 := by positivity
  have split : (2 : ℝ) ^ 1400 = 2 ^ 320 * 2 ^ 1080 := by rw [← pow_add]
  have three : (3 : ℝ) ≤ 2 ^ 1080 := by
    calc (3 : ℝ) ≤ 2 ^ 2 := by norm_num
      _ ≤ 2 ^ 1080 := pow_le_pow_right₀ one_le_two (by norm_num)
  rw [Nat.cast_pow, Nat.cast_two] at low high
  rw [split] at near
  generalize quarterRate / 2 ^ 1080 = q at *
  generalize (quarterRate : ℝ) = J at *
  generalize (2 : ℝ) ^ 1080 = d at *
  generalize (2 : ℝ) ^ 320 = u at *
  have value : (q : ℝ) / u - 2 / Real.pi = (q - u * (2 / Real.pi)) / u := by
    rw [sub_div, mul_div_cancel_left₀ _ U.ne']
  rw [value, abs_div, abs_of_pos U]
  gcongr
  rw [div_lt_iff₀ D] at high
  rw [le_div_iff₀ D] at low
  have bounds := abs_le.1 near
  rw [abs_le]
  constructor
  · by_contra more
    nlinarith only [D, three, high, bounds, more]
  · by_contra more
    nlinarith only [D, three, low, bounds, more]

/-- A product, from its factors. -/
theorem product_near {A n c t r u : ℝ} (unit : 0 ≤ u) (angle : |A - n| ≤ 2 ^ 10 * u) (n0 : 0 ≤ n) (n1 : n ≤ 1) (c0 : 0 ≤ c) (c1 : c ≤ 1) (rate : |t - c| ≤ 2 * u)
    (low : r ≤ n * t) (high : n * t - u ≤ r) : |c * A - r| ≤ 2 ^ 11 * u := by
  have split : c * A - r = c * (A - n) - n * (t - c) + (n * t - r) := by ring
  have first : |c * (A - n)| ≤ 1 * (2 ^ 10 * u) := by
    rw [abs_mul, abs_of_nonneg c0]
    gcongr
  have second : |n * (t - c)| ≤ 1 * (2 * u) := by
    rw [abs_mul, abs_of_nonneg n0]
    gcongr
  rw [split]
  rw [abs_le] at first second ⊢
  constructor <;> linarith only [first.1, first.2, second.1, second.2, unit, low, high]

/-- The quarter turns that an angle of a root makes. -/
theorem rootTurn_near {i : ℕ} (range : i < 95) : |2 / Real.pi * angle i - rootTurn (i + 1) / 2 ^ 320| ≤ 2 ^ 11 / 2 ^ 320 := by
  have n0 : (0 : ℝ) ≤ rootAngle (i + 1) / 2 ^ 320 := by positivity
  have unit : (0 : ℝ) ≤ 1 / 2 ^ 320 := by positivity
  obtain ⟨near, top⟩ := angle_bounds range
  obtain ⟨low, high⟩ := scaled_floor 320 (rootAngle (i + 1)) (quarterRate / 2 ^ 1080)
  have rate := rate_near
  have c1 : 2 / Real.pi ≤ 1 := by
    rw [div_le_one Real.pi_pos]
    linarith only [Real.pi_gt_three]
  have c0 : 0 ≤ 2 / Real.pi := by positivity
  rw [div_eq_mul_one_div (2 ^ 10 : ℝ)] at near
  rw [div_eq_mul_one_div (2 : ℝ) (2 ^ 320)] at rate
  rw [div_eq_mul_one_div (2 ^ 11 : ℝ)]
  exact product_near unit near n0 top c0 c1 rate low high

/-- No argument of 53 bits is within 2^-95 of a whole number of quarter turns, or within 2^-291 quarter turns of one and the angle of a root, either way. -/
theorem turns_away {m : ℕ} {e : ℤ} (pos : 0 < m) (few : m < 2 ^ 53) (least : -79 ≤ e) (most : e ≤ 971) :
    (∀ j : ℤ, 2 ^ (-95 : ℤ) < |m * 2 ^ e * (2 / Real.pi) - j|)
      ∧ ∀ i < 95, ∀ j s : ℤ, s = 1 ∨ s = -1 → 2 ^ (-291 : ℤ) ≤ |m * 2 ^ e * (2 / Real.pi) - j - s * (2 / Real.pi * angle i)| := by
  obtain ⟨z, hz⟩ := Int.eq_ofNat_of_zero_le (a := e + 79) (by omega)
  have clear := clearTurns (z := z) (by omega)
  obtain ⟨N, near⟩ := unitTurn_near (z := z) (by omega)
  have exponent : (z : ℤ) - 79 = e := by omega
  rw [exponent] at near
  rw [clearTurn, holdsAt_eq, Bool.and_eq_true] at clear
  have shift (j : ℤ) : m * 2 ^ e * (2 / Real.pi) - j = m * (2 ^ e * (2 / Real.pi) - N) - (j - m * N : ℤ) := by
    push_cast
    ring
  refine ⟨fun j => ?_, fun i range j s unit => ?_⟩
  · rw [shift]
    exact away_from_integers clear.1 near pos few
  · rw [shift]
    exact away_from_root clear.2 near few range (rootTurn_near range) unit

end Sys2Proof.Machine
end

section
/-! PROOFS. `sin` and `cos`: the argument less its quarter turns, and the value after them. -/

namespace Sys2Proof.Machine

/-- What is left of X units of 2^-p of x, p of them U times V, when it is divided by H units of a quarter turn. -/
theorem reduction_near {X H V : ℕ} {x D U : ℝ} (unit : D = U * V) (U0 : 0 < U) (V0 : 0 < V) (units : (X : ℝ) = D * x) (quarter : |(H : ℝ) - D * (Real.pi / 2)| ≤ 2)
    (large : 4 ≤ D) (small : 2 * U * x ≤ D) :
    ((X / H : ℕ) : ℝ) ≤ x ∧ |x - (X / H : ℕ) * (Real.pi / 2) - (X % H / V : ℕ) / U| ≤ 2 / U ∧ ((X % H / V : ℕ) : ℝ) ≤ U * (Real.pi / 2) + 2 := by
  have pi := Real.pi_gt_three
  have V0' : (0 : ℝ) < V := by exact_mod_cast V0
  have D0 : 0 < D := by linarith only [large]
  obtain ⟨below, above⟩ := abs_le.1 quarter
  have HD : D ≤ H := by nlinarith only [large, pi, below]
  have H0 : 0 < H := by
    have : (0 : ℝ) < H := by linarith only [large, HD]
    exact_mod_cast this
  have split := Nat.div_add_mod X H
  have rest := Nat.mod_lt X H0
  have low := div_le_real (X % H) V
  have high := real_lt_div V0 (X % H)
  generalize X / H = q at *
  generalize X % H = s at *
  generalize s / V = r at *
  have cast : D * x = H * q + s := by
    rw [← units]
    exact_mod_cast split.symm
  have rest' : (s : ℝ) ≤ H := by exact_mod_cast rest.le
  have q0 : (0 : ℝ) ≤ q := Nat.cast_nonneg q
  have s0 : (0 : ℝ) ≤ s := Nat.cast_nonneg s
  have turns : (q : ℝ) ≤ x := by
    by_contra more
    rw [not_le] at more
    nlinarith only [large, HD, cast, more]
  refine ⟨turns, ?_, ?_⟩
  · have value : x - q * (Real.pi / 2) - r / U = (q * (H - D * (Real.pi / 2)) / V + (s / V - r)) / U := by
      have x_eq : x = (H * q + s) / D := by
        rw [← cast, mul_div_cancel_left₀ _ D0.ne']
      rw [x_eq, unit]
      field_simp
      ring
    rw [value, abs_div, abs_of_pos U0]
    gcongr
    have loss : |(q : ℝ) * (H - D * (Real.pi / 2)) / V| ≤ 1 := by
      rw [abs_div, abs_of_pos V0', div_le_one V0', abs_mul, Nat.abs_cast]
      have first : (q : ℝ) * |(H : ℝ) - D * (Real.pi / 2)| ≤ q * 2 := by gcongr
      rw [unit, mul_comm U] at small
      have second : (q : ℝ) * 2 ≤ V := by
        have : 2 * x ≤ V := by
          by_contra more
          rw [not_le] at more
          nlinarith only [U0, small, more]
        linarith only [turns, this]
      exact first.trans second
    rw [abs_le] at loss ⊢
    constructor <;> linarith only [loss.1, loss.2, low, high]
  · refine low.trans ?_
    rw [div_le_iff₀ V0']
    have one : (1 : ℝ) ≤ V := by exact_mod_cast V0
    rw [unit] at above
    nlinarith only [above, rest', one]

/-- The sine after q quarter turns. -/
noncomputable def turnReal (q : ℕ) (ρ : ℝ) : ℝ := if q % 2 = 0 then Real.sin ρ else Real.cos ρ

theorem sin_add_quarters (q : ℕ) (ρ : ℝ) : Real.sin (ρ + q * (Real.pi / 2)) = (if 2 ≤ q % 4 then -1 else 1) * turnReal q ρ := by
  have turn : ρ + q * (Real.pi / 2) = ρ + (q % 4 : ℕ) * (Real.pi / 2) + (q / 4 : ℕ) * (2 * Real.pi) := by
    have split : (q : ℝ) = 4 * (q / 4 : ℕ) + (q % 4 : ℕ) := by exact_mod_cast (Nat.div_add_mod q 4).symm
    generalize q / 4 = k at *
    generalize q % 4 = c at *
    rw [split]
    ring
  have parity : q % 2 = q % 4 % 2 := by omega
  rw [turn, Real.sin_add_nat_mul_two_pi]
  unfold turnReal
  rw [parity]
  have range := Nat.mod_lt q (show 4 > 0 by norm_num)
  generalize q % 4 = c at *
  match c, range with
  | 0, _ => simp
  | 1, _ => simp [Real.sin_add_pi_div_two]
  | 2, _ =>
    have half : ((2 : ℕ) : ℝ) * (Real.pi / 2) = Real.pi := by push_cast; ring
    rw [half, Real.sin_add_pi]
    simp
  | 3, _ =>
    have three : ρ + ((3 : ℕ) : ℝ) * (Real.pi / 2) = ρ + Real.pi / 2 + Real.pi := by push_cast; ring
    rw [three, Real.sin_add_pi, Real.sin_add_pi_div_two]
    simp

/-- The computed value after q quarter turns. -/
theorem turnValue_near {q r : ℕ} {ρ : ℝ} (fits : 5 * r ≤ 8 * 2 ^ prec) (near : |ρ - r / 2 ^ prec| ≤ 2 / 2 ^ prec) (quarter : (r : ℝ) / 2 ^ prec ≤ Real.pi / 2) :
    |(turnValue (q % 4) r : ℝ) / 2 ^ prec - turnReal q ρ| ≤ 303 / 2 ^ prec := by
  have unit : (0 : ℝ) < 2 ^ prec := by positivity
  have arg : (0 : ℝ) ≤ r / 2 ^ prec := by positivity
  have parity : q % 4 % 2 = q % 2 := by omega
  unfold turnValue turnReal
  rw [parity]
  have scale {v : ℕ} {f : ℝ} (h : |(v : ℝ) - 2 ^ prec * f| ≤ 301) : |(v : ℝ) / 2 ^ prec - f| ≤ 301 / 2 ^ prec := by
    have split : (v : ℝ) / 2 ^ prec - f = (v - 2 ^ prec * f) / 2 ^ prec := by
      rw [sub_div, mul_div_cancel_left₀ _ unit.ne']
    rw [split, abs_div, abs_of_pos unit]
    gcongr
  have total : (303 : ℝ) / 2 ^ prec = 301 / 2 ^ prec + 2 / 2 ^ prec := by
    rw [← add_div]
    norm_num
  rw [total]
  split
  · refine (abs_sub_le _ (Real.sin (r / 2 ^ prec)) _).trans (add_le_add (scale (sinFix_bounds fits)) ?_)
    exact (Real.abs_sin_sub_sin_le _ _).trans (by rwa [abs_sub_comm])
  · refine (abs_sub_le _ (Real.cos (r / 2 ^ prec)) _).trans (add_le_add (scale (cosFix_bounds fits ?_)) ?_)
    · exact Real.cos_nonneg_of_neg_pi_div_two_le_of_le (by linarith only [Real.pi_pos, quarter, arg]) quarter
    · exact (Real.abs_cos_sub_cos_le _ _).trans (by rwa [abs_sub_comm])

theorem quarterTurn_near {m : ℕ} {e : ℤ} (few : turnBits m e + 1 ≤ 1984) : |(quarterTurn m e : ℝ) - 2 ^ turnBits m e * (Real.pi / 2)| ≤ 2 := by
  have near := piFix_bounds few
  have low := div_le_real (piFix (turnBits m e + 1)) 4
  have high := real_lt_div (b := 4) (by norm_num) (piFix (turnBits m e + 1))
  rw [pow_succ] at near
  unfold quarterTurn
  generalize piFix (turnBits m e + 1) = P at *
  generalize P / 4 = H at *
  generalize (2 : ℝ) ^ turnBits m e = D at *
  push_cast at low high
  rw [abs_le] at near ⊢
  constructor <;> linarith only [near.1, near.2, high, low]

theorem turnFix_eq {m : ℕ} {e : ℤ} (fits : 0 ≤ e + turnBits m e) : (turnFix m e : ℝ) = 2 ^ turnBits m e * (m * 2 ^ e) := by
  unfold turnFix
  rw [if_pos fits, Nat.cast_mul, Nat.cast_pow, Nat.cast_two, ← zpow_natCast, ← zpow_natCast, Int.toNat_of_nonneg fits, zpow_add₀ two_ne_zero]
  ring

/-- The argument, its quarter turns and what is computed to be left. -/
theorem turnRest_near {m : ℕ} {e : ℤ} (pos : 0 < m) (few : m < 2 ^ 53) (large : ¬ tiny m e 100 = true) (top : e ≤ 971) :
    (turns m e : ℝ) ≤ m * 2 ^ e ∧ |m * 2 ^ e - turns m e * (Real.pi / 2) - turnRest m e / 2 ^ prec| ≤ 2 / 2 ^ prec
      ∧ (turnRest m e : ℝ) ≤ 2 ^ prec * (Real.pi / 2) + 2 := by
  have least := units_of_not_tiny pos few large
  have bits : Nat.log2 m < 53 := (Nat.log2_lt pos.ne').2 few
  have count : turnBits m e = 384 + (e + Nat.log2 m).toNat := rfl
  have unit : (2 : ℝ) ^ turnBits m e = 2 ^ prec * (2 ^ (turnBits m e - prec) : ℕ) := by
    have exponent : prec + (turnBits m e - prec) = turnBits m e := Nat.add_sub_cancel' (by rw [count]; unfold prec; omega)
    rw [Nat.cast_pow, Nat.cast_two, ← pow_add, exponent]
  have small : 2 * 2 ^ prec * ((m : ℝ) * 2 ^ e) ≤ 2 ^ turnBits m e := by
    obtain ⟨-, high⟩ := log2_bounds pos e
    calc 2 * 2 ^ prec * ((m : ℝ) * 2 ^ e) ≤ 2 * 2 ^ prec * 2 ^ ((Nat.log2 m : ℤ) + e + 1) := by gcongr
      _ = 2 ^ ((prec : ℤ) + 1 + ((Nat.log2 m : ℤ) + e + 1)) := by
        rw [zpow_add₀ two_ne_zero ((prec : ℤ) + 1), zpow_add_one₀ two_ne_zero (prec : ℤ), zpow_natCast]
        ring
      _ ≤ 2 ^ (turnBits m e : ℤ) := power_le (by rw [count]; unfold prec; omega)
      _ = 2 ^ turnBits m e := zpow_natCast _ _
  refine reduction_near unit (by positivity) (by positivity) (turnFix_eq (by rw [count]; omega)) (quarterTurn_near (by rw [count]; omega)) ?_ small
  calc (4 : ℝ) = 2 ^ 2 := by norm_num
    _ ≤ 2 ^ turnBits m e := pow_le_pow_right₀ one_le_two (by rw [count]; omega)

theorem turnRest_fits {r : ℕ} (h : (r : ℝ) ≤ 2 ^ prec * (Real.pi / 2) + 2) : 5 * r ≤ 8 * 2 ^ prec := by
  have pi := Real.pi_lt_d2
  have unit : (2 : ℝ) ^ 10 ≤ 2 ^ prec := pow_le_pow_right₀ one_le_two (by norm_num)
  have bound : 5 * (r : ℝ) ≤ 8 * 2 ^ prec := by
    generalize (2 : ℝ) ^ prec = D at *
    nlinarith only [pi, h, unit]
  exact_mod_cast bound

end Sys2Proof.Machine
end

section
/-! PROOFS. `sin` and `cos`: no power of two between the computed value and the function. -/

namespace Sys2Proof.Machine

/-- The sine of part of a quarter turn is at least that part. -/
theorem le_sin_part {δ : ℝ} (nonneg : 0 ≤ δ) (le : δ ≤ 1) : δ ≤ Real.sin (δ * (Real.pi / 2)) := by
  have pi := Real.pi_pos
  have bound := Real.mul_le_sin (x := δ * (Real.pi / 2)) (by positivity) (by nlinarith only [le, pi])
  have value : 2 / Real.pi * (δ * (Real.pi / 2)) = δ := by field_simp
  rwa [value] at bound

/-- It is below 1 by half the square of what is missing to the quarter turn. -/
theorem sin_part_le {δ : ℝ} (nonneg : 0 ≤ δ) (le : δ ≤ 1) : Real.sin (δ * (Real.pi / 2)) ≤ 1 - (1 - δ) ^ 2 / 2 := by
  have pi := Real.pi_pos
  have complement : Real.sin (δ * (Real.pi / 2)) = Real.cos ((1 - δ) * (Real.pi / 2)) := by
    rw [← Real.cos_pi_div_two_sub]
    congr 1
    ring
  have range : |(1 - δ) * (Real.pi / 2)| ≤ Real.pi := by
    rw [abs_of_nonneg (mul_nonneg (by linarith only [le]) (by positivity))]
    nlinarith only [nonneg, pi]
  have bound := Real.cos_le_one_sub_mul_cos_sq range
  have value : 2 / Real.pi ^ 2 * ((1 - δ) * (Real.pi / 2)) ^ 2 = (1 - δ) ^ 2 / 2 := by
    field_simp
  rw [complement]
  rwa [value] at bound

theorem angle_range (i : ℕ) : 0 ≤ angle i ∧ angle i ≤ Real.pi / 6 ∧ Real.sin (angle i) = 1 / 2 ^ (i + 1) := by
  have low : (0 : ℝ) ≤ 1 / 2 ^ (i + 1) := by positivity
  have high : (1 : ℝ) / 2 ^ (i + 1) ≤ 1 / 2 := by
    gcongr
    exact le_self_pow₀ one_le_two (Nat.succ_ne_zero i)
  have pi := Real.pi_pos
  refine ⟨Real.arcsin_nonneg.2 low, ?_, Real.sin_arcsin (by linarith only [low]) (by linarith only [high])⟩
  refine (Real.arcsin_le_iff_le_sin ⟨by linarith only [low], by linarith only [high]⟩ ⟨by linarith only [pi], by linarith only [pi]⟩).2 ?_
  rw [Real.sin_pi_div_six]
  exact high

/-- An angle below that of a root by much has a sine below the root by much. -/
theorem sin_gap {φ A : ℝ} (nonneg : 0 ≤ φ) (le : φ ≤ A) (top : A ≤ Real.pi / 6) : (A - φ) / Real.pi ≤ Real.sin A - Real.sin φ := by
  have pi := Real.pi_pos
  have half := Real.mul_le_sin (x := (A - φ) / 2) (by linarith only [le]) (by linarith only [nonneg, top, pi])
  have cos : 1 / 2 ≤ Real.cos ((A + φ) / 2) := by
    rw [← Real.cos_pi_div_three]
    exact Real.cos_le_cos_of_nonneg_of_le_pi (by linarith only [nonneg, le]) (by linarith only [pi]) (by linarith only [le, top, pi])
  have value : 2 / Real.pi * ((A - φ) / 2) = (A - φ) / Real.pi := by field_simp
  rw [value] at half
  have quotient : 0 ≤ (A - φ) / Real.pi := div_nonneg (by linarith only [le]) pi.le
  rw [Real.sin_sub_sin]
  nlinarith only [half, cos, quotient]

/-- A computed sine of part of a quarter turn, the part away from the angles of the roots, reaches no power of two that the sine does not reach. -/
theorem turn_binade {δ V : ℝ} {k : ℤ} (low : 2 ^ (-95 : ℤ) < δ) (high : δ < 1 - 2 ^ (-95 : ℤ)) (away : ∀ i < 95, 2 ^ (-291 : ℤ) ≤ |δ - 2 / Real.pi * angle i|)
    (near : |V - Real.sin (δ * (Real.pi / 2))| ≤ 303 / 2 ^ prec) (reach : (2 : ℝ) ^ k ≤ V) : (2 : ℝ) ^ k ≤ Real.sin (δ * (Real.pi / 2)) := by
  have least : (0 : ℝ) < 2 ^ (-95 : ℤ) := by positivity
  have slack : (303 : ℝ) / 2 ^ prec ≤ 2 ^ (-311 : ℤ) := by
    rw [div_le_iff₀ (by positivity), ← zpow_natCast, ← zpow_add₀ two_ne_zero]
    norm_num
  have close := (abs_le.1 (near.trans slack)).2
  have bottom := le_sin_part (by linarith only [low, least]) (by linarith only [high, least] : δ ≤ 1)
  have top := sin_part_le (by linarith only [low, least]) (by linarith only [high, least] : δ ≤ 1)
  by_contra short
  rw [not_le] at short
  rcases lt_trichotomy k 0 with neg | rfl | pos
  · obtain ⟨i, hi⟩ := Int.eq_ofNat_of_zero_le (a := -k - 1) (by omega)
    have range := (zpow_lt_zpow_iff_right₀ one_lt_two).1 (low.trans (bottom.trans_lt short))
    have power : (2 : ℝ) ^ k = 1 / 2 ^ (i + 1) := by
      rw [one_div, ← zpow_natCast, ← zpow_neg]
      congr 1
      push_cast
      omega
    obtain ⟨angle0, angle1, sine⟩ := angle_range i
    have gap := away i (by omega)
    have pi := Real.pi_pos
    rw [power, ← sine] at reach short
    have less : δ * (Real.pi / 2) ≤ angle i := by
      by_contra more
      exact absurd short (not_lt.2 (Real.sin_le_sin_of_le_of_le_pi_div_two (by linarith only [angle0, pi]) (by nlinarith only [high, least, angle0, angle1, pi]) (not_le.1 more).le))
    have apart := (sin_gap (mul_nonneg (by linarith only [low, least]) (by positivity)) less angle1).trans (sub_le_sub_right reach _)
    have value : 2 / Real.pi * angle i - δ = 2 * ((angle i - δ * (Real.pi / 2)) / Real.pi) := by
      field_simp
    have nonneg : 0 ≤ (angle i - δ * (Real.pi / 2)) / Real.pi := div_nonneg (sub_nonneg.2 less) pi.le
    rw [abs_sub_comm, value, abs_of_nonneg (by linarith only [nonneg])] at gap
    have contradiction : (2 : ℝ) ^ 1 * 2 ^ (-311 : ℤ) < 2 ^ (-291 : ℤ) :=
      (scaled_power 1 (b := -310) (by norm_num)).trans_lt (zpow_lt_zpow_right₀ one_lt_two (by norm_num))
    rw [pow_one] at contradiction
    generalize (2 : ℝ) ^ (-311 : ℤ) = ε at *
    linarith only [gap, apart, close, contradiction]
  · have square : (2 : ℝ) ^ (-95 : ℤ) * 2 ^ (-95 : ℤ) ≤ (1 - δ) ^ 2 := by
      rw [sq]
      gcongr <;> linarith only [high, least]
    have fine : (2 : ℝ) ^ (-311 : ℤ) ≤ 2 ^ (-200 : ℤ) := power_le (by norm_num)
    rw [zpow_zero] at reach
    generalize (2 : ℝ) ^ (-311 : ℤ) = ε at *
    norm_num at square fine
    linarith only [top, reach, close, square, fine]
  · have two : (2 : ℝ) ^ (1 : ℤ) ≤ 2 ^ k := power_le (by omega)
    have fine : (2 : ℝ) ^ (-311 : ℤ) ≤ 2 ^ (-1 : ℤ) := power_le (by norm_num)
    have one := Real.sin_le_one (δ * (Real.pi / 2))
    generalize (2 : ℝ) ^ (-311 : ℤ) = ε at *
    norm_num at two fine
    linarith only [low, high, reach, least, one, close, two, fine]

/-! What is left after the quarter turns. -/

/-- The part of a quarter turn that the sine is taken of. -/
noncomputable def turnPart (q : ℕ) (δ : ℝ) : ℝ := if q % 2 = 0 then δ else 1 - δ

theorem turnReal_part (q : ℕ) (δ : ℝ) : turnReal q (δ * (Real.pi / 2)) = Real.sin (turnPart q δ * (Real.pi / 2)) := by
  unfold turnReal turnPart
  split
  · rfl
  · rw [← Real.cos_pi_div_two_sub]
    congr 1
    ring

/-- What is left is more than ε and less than 1 - ε of a quarter turn p, when it is not within ε of either end. -/
theorem part_bounds {δ ρ u ε p : ℝ} (turn : 3 / 2 < p) (small : 4 * u ≤ ε) (near : |δ * p - ρ| ≤ u) (rest : 0 ≤ ρ) (top : ρ ≤ p + u)
    (here : ε < |δ|) (next : ε < |δ - 1|) : ε < δ ∧ δ < 1 - ε ∧ ρ ≤ p := by
  obtain ⟨near0, near1⟩ := abs_le.1 near
  have u0 : 0 ≤ u := (abs_nonneg _).trans near
  have low : ε < δ := by
    rcases lt_abs.1 here with h | h
    · exact h
    · nlinarith only [turn, small, rest, near0, near1, h]
  have high : δ < 1 - ε := by
    rcases lt_abs.1 next with h | h
    · nlinarith only [turn, small, top, near0, near1, h]
    · linarith only [h]
  exact ⟨low, high, by nlinarith only [turn, small, top, near0, near1, high]⟩

/-- The computed sine or cosine of an argument with units not below 2^-79: q its quarter turns, and one more for the cosine. -/
theorem turn_near {m q : ℕ} {e : ℤ} (pos : 0 < m) (few : m < 2 ^ 53) (large : ¬ tiny m e 100 = true) (least : -79 ≤ e) (most : e ≤ 971) :
    let z := turnReal q (m * 2 ^ e - turns m e * (Real.pi / 2))
    let V := (turnValue (q % 4) (turnRest m e) : ℝ) / 2 ^ prec
    2 ^ (-101 : ℤ) ≤ z ∧ |V - z| ≤ 303 / 2 ^ prec ∧ ∀ k : ℤ, (2 : ℝ) ^ k ≤ V → 2 ^ k ≤ z := by
  obtain ⟨-, near, top⟩ := turnRest_near pos few large most
  have fits := turnRest_fits top
  obtain ⟨integers, roots⟩ := turns_away pos few least most
  have pi := Real.pi_gt_three
  have unit : (0 : ℝ) < 2 ^ prec := by positivity
  have rest : (0 : ℝ) ≤ turnRest m e / 2 ^ prec := div_nonneg (Nat.cast_nonneg _) unit.le
  have top' : (turnRest m e : ℝ) / 2 ^ prec ≤ Real.pi / 2 + 2 / 2 ^ prec := by
    rw [div_le_iff₀ unit, add_mul, div_mul_cancel₀ _ unit.ne', mul_comm]
    exact top
  have slack : 4 * ((2 : ℝ) / 2 ^ prec) ≤ 2 ^ (-95 : ℤ) := by
    rw [mul_div_assoc', div_le_iff₀ unit, ← zpow_natCast, ← zpow_add₀ two_ne_zero]
    norm_num
  have part : (m : ℝ) * 2 ^ e - turns m e * (Real.pi / 2) = (m * 2 ^ e * (2 / Real.pi) - turns m e) * (Real.pi / 2) := by
    field_simp
  have here : 2 ^ (-95 : ℤ) < |(m : ℝ) * 2 ^ e * (2 / Real.pi) - turns m e| := by
    have away := integers (turns m e)
    rwa [Int.cast_natCast] at away
  have next : 2 ^ (-95 : ℤ) < |(m : ℝ) * 2 ^ e * (2 / Real.pi) - turns m e - 1| := by
    have away := integers (turns m e + 1)
    rwa [Int.cast_add, Int.cast_natCast, Int.cast_one, ← sub_sub] at away
  have above (i : ℕ) (range : i < 95) : 2 ^ (-291 : ℤ) ≤ |(m : ℝ) * 2 ^ e * (2 / Real.pi) - turns m e - 2 / Real.pi * angle i| := by
    have away := roots i range (turns m e) 1 (.inl rfl)
    rwa [Int.cast_natCast, Int.cast_one, one_mul] at away
  have below (i : ℕ) (range : i < 95) : 2 ^ (-291 : ℤ) ≤ |1 - ((m : ℝ) * 2 ^ e * (2 / Real.pi) - turns m e) - 2 / Real.pi * angle i| := by
    have away := roots i range (turns m e + 1) (-1) (.inr rfl)
    rw [Int.cast_add, Int.cast_natCast, Int.cast_neg, Int.cast_one, ← abs_neg] at away
    refine away.trans_eq (congrArg _ ?_)
    ring
  dsimp only
  rw [part] at near ⊢
  generalize (m : ℝ) * 2 ^ e * (2 / Real.pi) - turns m e = δ at *
  obtain ⟨low, high, quarter⟩ := part_bounds (by linarith only [pi]) slack near rest top' here next
  have value := turnValue_near (q := q) fits near quarter
  have some : (2 : ℝ) ^ (-101 : ℤ) ≤ 2 ^ (-95 : ℤ) := power_le (by norm_num)
  rw [turnReal_part] at value ⊢
  have inside : 2 ^ (-95 : ℤ) < turnPart q δ ∧ turnPart q δ < 1 - 2 ^ (-95 : ℤ) ∧ ∀ i < 95, 2 ^ (-291 : ℤ) ≤ |turnPart q δ - 2 / Real.pi * angle i| := by
    unfold turnPart
    split
    · exact ⟨low, high, above⟩
    · exact ⟨by linarith only [high], by linarith only [low], below⟩
  obtain ⟨low', high', away⟩ := inside
  have least' : (0 : ℝ) < 2 ^ (-95 : ℤ) := by positivity
  exact ⟨some.trans (low'.le.trans (le_sin_part (by linarith only [low', least']) (by linarith only [high', least']))), value, fun k reach => turn_binade low' high' away value reach⟩

end Sys2Proof.Machine
end

section
/-! PROOFS. `sin` and `cos` served (Table 10-9). -/

namespace Sys2Proof.Machine

/-! Small arguments. -/

theorem turns_small {m : ℕ} {e : ℤ} (pos : 0 < m) (few : m < 2 ^ 53) (large : ¬ tiny m e 100 = true) (small : (m : ℝ) * 2 ^ e ≤ 2 ^ (-20 : ℤ)) :
    turns m e = 0 ∧ |(m : ℝ) * 2 ^ e - turnRest m e / 2 ^ prec| ≤ 2 / 2 ^ prec ∧ 5 * turnRest m e ≤ 8 * 2 ^ prec ∧ (turnRest m e : ℝ) / 2 ^ prec ≤ Real.pi / 2 := by
  have one : (1 : ℝ) ≤ m := by exact_mod_cast pos
  have top : e ≤ 971 := by
    by_contra more
    have unit : (2 : ℝ) ^ (0 : ℤ) ≤ 2 ^ e := power_le (by omega)
    rw [zpow_zero] at unit
    norm_num at small
    nlinarith only [one, unit, small]
  obtain ⟨few', near, rest⟩ := turnRest_near pos few large top
  have zero : turns m e = 0 := by
    have : (turns m e : ℝ) < 1 := few'.trans_lt (small.trans_lt (by norm_num))
    exact Nat.lt_one_iff.1 (by exact_mod_cast this)
  rw [zero, Nat.cast_zero, zero_mul, sub_zero] at near
  have slack : (2 : ℝ) / 2 ^ prec ≤ 2 ^ (-20 : ℤ) := by
    rw [div_le_iff₀ (by positivity), ← zpow_natCast, ← zpow_add₀ two_ne_zero]
    exact (zpow_one (2 : ℝ)).symm.trans_le (power_le (by norm_num))
  refine ⟨zero, near, turnRest_fits rest, ?_⟩
  have low := (abs_le.1 near).1
  have pi := Real.pi_gt_three
  generalize (turnRest m e : ℝ) / 2 ^ prec = ρ at *
  generalize (2 : ℝ) / 2 ^ prec = u at *
  norm_num at slack small
  linarith only [pi, low, slack, small]

theorem sin_small {m : ℕ} {e : ℤ} (pos : 0 < m) (few : m < 2 ^ 53) (large : ¬ tiny m e 100 = true) (small : (m : ℝ) * 2 ^ e ≤ 2 ^ (-27 : ℤ)) :
    let z := turnReal 0 (m * 2 ^ e)
    let V := (turnValue (0 % 4) (turnRest m e) : ℝ) / 2 ^ prec
    2 ^ (-101 : ℤ) ≤ z ∧ |V - z| ≤ 303 / 2 ^ prec ∧ ∀ k : ℤ, (2 : ℝ) ^ k ≤ V → 2 ^ k ≤ z := by
  obtain ⟨-, near, fits, quarter⟩ := turns_small pos few large (small.trans (power_le (by norm_num)))
  have value := turnValue_near (q := 0) fits near quarter
  rw [tiny_iff pos, not_lt] at large
  have large : (2 : ℝ) ^ (-100 : ℤ) ≤ m * 2 ^ e := large
  have xpos : (0 : ℝ) < m * 2 ^ e := by positivity
  have past := fun k => past_power (e := e) (k := k) few
  have slack : (303 : ℝ) / 2 ^ prec ≤ 2 ^ (-311 : ℤ) := by
    rw [div_le_iff₀ (by positivity), ← zpow_natCast, ← zpow_add₀ two_ne_zero]
    norm_num
  have slack' : (2 : ℝ) ^ (-311 : ℤ) * 8 ≤ 2 ^ (-100 : ℤ) * 2 ^ (-100 : ℤ) * 2 ^ (-100 : ℤ) := by
    rw [show (8 : ℝ) = 2 ^ (3 : ℤ) by norm_num, ← zpow_add₀ two_ne_zero, ← zpow_add₀ two_ne_zero, ← zpow_add₀ two_ne_zero]
    exact power_le (by norm_num)
  dsimp only
  unfold turnReal at value ⊢
  simp only [Nat.zero_mod, if_true] at value ⊢
  generalize (m : ℝ) * 2 ^ e = x at *
  generalize (turnValue 0 (turnRest m e) : ℝ) / 2 ^ prec = V at *
  have low := Real.sin_gt_sub_cube xpos
  have one : |x| ≤ 1 := by
    rw [abs_of_pos xpos]
    exact small.trans (by norm_num)
  have high := (abs_le.1 (Real.sin_bound one)).2
  rw [abs_of_pos xpos] at high
  have cube : 2 ^ (-100 : ℤ) * 2 ^ (-100 : ℤ) * 2 ^ (-100 : ℤ) ≤ x ^ 3 := by
    rw [pow_succ, sq]
    gcongr
  have square : x ^ 2 ≤ 2 ^ (-54 : ℤ) := by
    norm_num at small ⊢
    nlinarith only [xpos, small]
  have fifth : x ^ 5 ≤ x ^ 3 * 2 ^ (-54 : ℤ) := by
    rw [show x ^ 5 = x ^ 3 * x ^ 2 by ring]
    gcongr
  have third : x ^ 3 ≤ x * 2 ^ (-54 : ℤ) := by
    rw [pow_succ']
    gcongr
  have below : V < x := by
    have close := (abs_le.1 (value.trans slack)).2
    have ppos : (0 : ℝ) < 2 ^ (-100 : ℤ) * 2 ^ (-100 : ℤ) * 2 ^ (-100 : ℤ) := by positivity
    generalize (2 : ℝ) ^ (-100 : ℤ) * 2 ^ (-100 : ℤ) * 2 ^ (-100 : ℤ) = c at *
    generalize (2 : ℝ) ^ (-311 : ℤ) = ε at *
    norm_num at fifth
    linarith only [low, high, cube, close, slack', fifth]
  have above : x * (1 - 2 ^ (-55 : ℤ)) ≤ Real.sin x := by
    norm_num at third ⊢
    linarith only [xpos, low, third]
  refine ⟨?_, value, fun k reach => ?_⟩
  · norm_num at above large ⊢
    linarith only [xpos, above, large]
  · have more := past k (reach.trans_lt below)
    have power : (0 : ℝ) < 2 ^ k := by positivity
    generalize (2 : ℝ) ^ k = p at *
    norm_num at more above
    linarith only [below, reach, more, above]

theorem cos_small {m : ℕ} {e : ℤ} (pos : 0 < m) (few : m < 2 ^ 53) (large : ¬ tiny m e 100 = true) (small : (m : ℝ) * 2 ^ e ≤ 2 ^ (-27 : ℤ)) :
    let z := turnReal 1 (m * 2 ^ e)
    let V := (turnValue (1 % 4) (turnRest m e) : ℝ) / 2 ^ prec
    2 ^ (-101 : ℤ) ≤ z ∧ |V - z| ≤ 303 / 2 ^ prec ∧ ∀ k : ℤ, (2 : ℝ) ^ k ≤ V → 2 ^ k ≤ z := by
  obtain ⟨-, near, fits, quarter⟩ := turns_small pos few large (small.trans (power_le (by norm_num)))
  have value := turnValue_near (q := 1) fits near quarter
  rw [tiny_iff pos, not_lt] at large
  have large : (2 : ℝ) ^ (-100 : ℤ) ≤ m * 2 ^ e := large
  have xpos : (0 : ℝ) < m * 2 ^ e := by positivity
  have slack : (303 : ℝ) / 2 ^ prec ≤ 2 ^ (-311 : ℤ) := by
    rw [div_le_iff₀ (by positivity), ← zpow_natCast, ← zpow_add₀ two_ne_zero]
    norm_num
  have real : turnReal 1 (m * 2 ^ e) = Real.cos (m * 2 ^ e) := rfl
  dsimp only
  rw [real] at value ⊢
  generalize (m : ℝ) * 2 ^ e = x at *
  generalize (turnValue (1 % 4) (turnRest m e) : ℝ) / 2 ^ prec = V at *
  have one : |x| ≤ 1 := by
    rw [abs_of_pos xpos]
    exact small.trans (by norm_num)
  have high := (abs_le.1 (Real.cos_bound one)).2
  have low := Real.one_sub_sq_div_two_le_cos (x := x)
  rw [abs_of_pos xpos] at high
  have square : 2 ^ (-100 : ℤ) * 2 ^ (-100 : ℤ) ≤ x ^ 2 := by
    rw [sq]
    gcongr
  have square' : x ^ 2 ≤ 2 ^ (-54 : ℤ) := by
    norm_num at small ⊢
    nlinarith only [xpos, small]
  have fourth : x ^ 4 ≤ x ^ 2 * 2 ^ (-54 : ℤ) := by
    rw [show x ^ 4 = x ^ 2 * x ^ 2 by ring]
    gcongr
  have half : 1 / 2 ≤ Real.cos x := by
    norm_num at square'
    linarith only [low, square']
  have below : V < 2 ^ (0 : ℤ) := by
    have close := (abs_le.1 (value.trans slack)).2
    have fine : (2 : ℝ) ^ (-311 : ℤ) ≤ 2 ^ (-210 : ℤ) := power_le (by norm_num)
    generalize (2 : ℝ) ^ (-311 : ℤ) = ε at *
    norm_num at fourth square fine ⊢
    linarith only [high, close, fourth, square, fine]
  refine ⟨le_trans (by norm_num) half, value, fun k reach => ?_⟩
  have range := (zpow_lt_zpow_iff_right₀ one_lt_two).1 (reach.trans_lt below)
  calc (2 : ℝ) ^ k ≤ 2 ^ (-1 : ℤ) := power_le (by omega)
    _ = 1 / 2 := by norm_num
    _ ≤ Real.cos x := half

/-! All arguments. -/

/-- The computed value after the quarter turns of an argument, and o more. -/
theorem turn_bounds {m o : ℕ} {e : ℤ} (pos : 0 < m) (few : m < 2 ^ 53) (large : ¬ tiny m e 100 = true) (top : e ≤ 971) (offset : o = 0 ∨ o = 1) :
    let z := turnReal (turns m e + o) (m * 2 ^ e - turns m e * (Real.pi / 2))
    let V := (turnValue ((turns m e + o) % 4) (turnRest m e) : ℝ) / 2 ^ prec
    2 ^ (-101 : ℤ) ≤ z ∧ |V - z| ≤ 303 / 2 ^ prec ∧ ∀ k : ℤ, (2 : ℝ) ^ k ≤ V → 2 ^ k ≤ z := by
  rcases le_or_gt (-79) e with normal | less
  · exact turn_near pos few large normal top
  · have small : (m : ℝ) * 2 ^ e ≤ 2 ^ (-27 : ℤ) := by
      have few' : (m : ℝ) ≤ 2 ^ (53 : ℤ) := by exact_mod_cast few.le
      calc (m : ℝ) * 2 ^ e ≤ 2 ^ (53 : ℤ) * 2 ^ (-80 : ℤ) := by
            gcongr
            · exact one_le_two
            · omega
        _ = 2 ^ (-27 : ℤ) := by norm_num
    obtain ⟨zero, -⟩ := turns_small pos few large (small.trans (power_le (by norm_num)))
    rw [zero, Nat.cast_zero, zero_mul, sub_zero, zero_add]
    rcases offset with rfl | rfl
    · exact sin_small pos few large small
    · exact cos_small pos few large small

/-- What is computed after the quarter turns serves for the sine of the argument and o quarter turns. -/
theorem approximates_turn {m o : ℕ} {e : ℤ} (pos : 0 < m) (few : m < 2 ^ 53) (large : ¬ tiny m e 100 = true) (top : e ≤ 971) (offset : o = 0 ∨ o = 1) {neg : Bool}
    {y : ℝ} (value : y = (if neg then -1 else 1) * Real.sin (m * 2 ^ e + o * (Real.pi / 2))) :
    Approximates ⟨decide (2 ≤ (turns m e + o) % 4) != neg, turnValue ((turns m e + o) % 4) (turnRest m e), -(prec : ℤ), false⟩ y := by
  obtain ⟨least, near, binade⟩ := turn_bounds pos few large top offset
  have quarters := sin_add_quarters (turns m e + o) (m * 2 ^ e - turns m e * (Real.pi / 2))
  have angle_eq : (m : ℝ) * 2 ^ e - turns m e * (Real.pi / 2) + (turns m e + o : ℕ) * (Real.pi / 2) = m * 2 ^ e + o * (Real.pi / 2) := by
    push_cast
    ring
  rw [angle_eq] at quarters
  rw [quarters] at value
  have slack : (303 : ℝ) / 2 ^ prec ≤ 2 ^ (-155 : ℤ) * 2 ^ (-101 : ℤ) := by
    rw [div_le_iff₀ (by positivity), ← zpow_natCast, ← zpow_add₀ two_ne_zero, ← zpow_add₀ two_ne_zero]
    norm_num
  refine Approximates.of_near (bits_of_value ?_) (z := turnReal (turns m e + o) (m * 2 ^ e - turns m e * (Real.pi / 2))) ?_ ?_ ?_
  · have close := (abs_le.1 (near.trans slack)).1
    generalize (turnValue ((turns m e + o) % 4) (turnRest m e) : ℝ) / 2 ^ prec = V at *
    norm_num at close least ⊢
    linarith only [close, least]
  · rw [value]
    by_cases half : 2 ≤ (turns m e + o) % 4 <;> cases neg <;> simp [half]
  · rw [inv_two_zpow prec _ rfl]
    refine near.trans (slack.trans ?_)
    gcongr
  · intro k reach
    rw [inv_two_zpow prec _ rfl] at reach
    exact binade k reach

/-! The functions. -/

theorem sin_value_tiny {m : ℕ} {e : ℤ} (h : tiny m e 100 = true) (neg : Bool) : Special8.sin.value neg m e = below neg m e := if_pos h

theorem cos_value_tiny {m : ℕ} {e : ℤ} (h : tiny m e 100 = true) (neg : Bool) : Special8.cos.value neg m e = below false 1 0 := if_pos h

theorem sin_signedReal (neg : Bool) (x : ℝ) : Real.sin (signedReal neg x) = if neg then -Real.sin x else Real.sin x := by
  cases neg with
  | true => exact Real.sin_neg x
  | false => rfl

theorem cos_signedReal (neg : Bool) (x : ℝ) : Real.cos (signedReal neg x) = Real.cos x := by
  cases neg with
  | true => exact Real.cos_neg x
  | false => rfl

theorem sin_served {f : Fmt} (wide : f.Wide) {neg : Bool} {m : ℕ} {e : ℤ} (pos : 0 < m) (few : m < 2 ^ 53) (top : e ≤ 971) :
    f.Served (Special8.sin.value neg m e) (Real.sin (signedReal neg (m * 2 ^ e))) := by
  by_cases h : tiny m e 100 = true
  · rw [sin_value_tiny h]
    rw [tiny_iff pos] at h
    refine wide.served (approximates_below pos few (sin_signedReal neg _) ?_)
    have xpos : (0 : ℝ) < m * 2 ^ e := by positivity
    have square : (m * 2 ^ e : ℝ) ^ 2 / 6 ≤ 2 ^ (-160 : ℤ) := by
      norm_num at h ⊢
      nlinarith only [xpos, h]
    generalize (m : ℝ) * 2 ^ e = x at *
    have low := Real.sin_gt_sub_cube xpos
    have cube := mul_le_mul_of_nonneg_left square xpos.le
    rw [abs_of_pos (sub_pos.2 (Real.sin_lt xpos))]
    generalize (2 : ℝ) ^ (-160 : ℤ) = δ at *
    linarith only [low, cube]
  · rw [sin_value h]
    refine wide.served (approximates_turn (o := 0) pos few h top (.inl rfl) ?_)
    rw [sin_signedReal, Nat.cast_zero, zero_mul, add_zero]
    cases neg with
    | true => exact (neg_one_mul _).symm
    | false => exact (one_mul _).symm

theorem cos_served {f : Fmt} (wide : f.Wide) {neg : Bool} {m : ℕ} {e : ℤ} (pos : 0 < m) (few : m < 2 ^ 53) (top : e ≤ 971) :
    f.Served (Special8.cos.value neg m e) (Real.cos (signedReal neg (m * 2 ^ e))) := by
  rw [cos_signedReal]
  by_cases h : tiny m e 100 = true
  · rw [cos_value_tiny h]
    rw [tiny_iff pos] at h
    refine wide.served (approximates_below one_pos (by norm_num) (z := Real.cos (m * 2 ^ e)) rfl ?_)
    have xpos : (0 : ℝ) < m * 2 ^ e := by positivity
    have low := Real.one_sub_sq_div_two_le_cos (x := m * 2 ^ e)
    rw [Nat.cast_one, zpow_zero, mul_one, mul_one, abs_of_nonneg (sub_nonneg.2 (Real.cos_le_one _))]
    generalize (m : ℝ) * 2 ^ e = x at *
    norm_num at h ⊢
    nlinarith only [xpos, low, h]
  · rw [cos_value h]
    refine wide.served (approximates_turn (o := 1) pos few h top (.inr rfl) ?_)
    rw [Nat.cast_one, one_mul, Real.sin_add_pi_div_two]
    exact (one_mul _).symm

end Sys2Proof.Machine
end

section
/-! PROOFS. The special functions within the bounds of Table 10-9 (R227, R228). -/

namespace Sys2Proof.Machine

/-! The argument. -/

theorem Num.val_fin_real (neg : Bool) (m : ℕ) (e : ℤ) : ((Num.fin neg m e).val : ℝ) = signedReal neg (m * 2 ^ e) := by
  rw [Num.val_fin]
  cases neg with
  | true => simp [signedReal]
  | false => simp [signedReal]

/-- The units of a finite value of a wide format. -/
theorem Fmt.Wide.units {f : Fmt} (wide : f.Wide) {a : ℕ} {neg : Bool} {m : ℕ} {e : ℤ} (value : f.decode a = .fin neg m e) : m < 2 ^ 53 ∧ e ≤ 971 := by
  obtain ⟨c, -, fits, -, rfl, rfl⟩ := f.decode_fin value
  refine ⟨(f.mant_expo c).1.trans_le (Nat.pow_le_pow_right two_pos ?_), (f.expo_mono fits).trans wide.expo_big.2⟩
  have := wide.frac.2
  omega

/-! Overflow. -/

theorem Fmt.Wide.big_lt {f : Fmt} (wide : f.Wide) : f.big < (20000 - f.emin).toNat * 2 ^ f.frac := by
  have top := wide.expo_big.2
  have frac := wide.frac.2
  have emin := wide.emin.1
  have field : f.big / 2 ^ f.frac < (20000 - f.emin).toNat := by
    unfold expo at top
    split at top <;> omega
  exact (Nat.div_lt_iff_lt_mul (Nat.two_pow_pos _)).1 field

/-- The value that stands for all above every format overflows. -/
theorem Fmt.Wide.round_beyond {f : Fmt} (wide : f.Wide) (rm : BitVec 3) : (f.round rm false false 1 20000 true).2 &&& fOF ≠ 0 := by
  have low := wide.emin.1
  have over_ : f.big < f.roundCode rm false 1 20000 true := by
    refine wide.big_lt.trans_le ?_
    have one : Nat.log2 1 = 0 := by decide
    unfold roundCode
    rw [one, Nat.cast_zero, zero_add, max_eq_left (by omega)]
    exact Nat.le_add_right _ _
  rw [f.round_eq rm false false 20000 (by simp), if_pos over_]
  change (fOF ||| fNX) &&& fOF ≠ 0
  decide

/-- What does not overflow is of an argument that is not large, or negative. -/
theorem Fmt.Wide.not_beyond {f : Fmt} (wide : f.Wide) {rm : BitVec 3} {neg : Bool} {A B : Approx} (value : A = if neg then B else ⟨false, 1, 20000, false⟩)
    (fits : (f.round rm false A.neg A.m A.e (!A.exact)).2 &&& fOF = 0) : neg = true := by
  by_contra positive
  rw [value, if_neg positive] at fits
  exact wide.round_beyond rm fits

/-! The functions but the reciprocal. -/

/-- What a special function computes of a finite argument serves, but for exact logarithms. -/
theorem Special8.served {f : Fmt} (wide : f.Wide) {fn : Special8} {rm : BitVec 3} {neg : Bool} {m : ℕ} {e : ℤ} (pos : 0 < m) (few : m < 2 ^ 53) (top : e ≤ 971)
    (other : fn ≠ .rcp) (inexact : fn = .log2 → m ≠ 2 ^ Nat.log2 m) (domain : fn = .log2 ∨ fn = .rsqrt → neg = false)
    (fits : (f.round rm false (fn.value neg m e).neg (fn.value neg m e).m (fn.value neg m e).e (!(fn.value neg m e).exact)).2 &&& fOF = 0) :
    f.Served (fn.value neg m e) (fn.real (signedReal neg (m * 2 ^ e))) := by
  cases fn with
  | exp2 => exact exp2_served wide pos few fun h => wide.not_beyond (exp2_value_large h neg) fits
  | exp => exact exp_served wide pos few fun h => wide.not_beyond (exp_value_large h neg) fits
  | log2 =>
    obtain rfl := domain (.inl rfl)
    exact log2_served wide pos few (inexact rfl) false
  | rcp => exact absurd rfl other
  | rsqrt =>
    obtain rfl := domain (.inr rfl)
    exact rsqrt_served wide false pos
  | sin => exact sin_served wide pos few top
  | cos => exact cos_served wide pos few top
  | tanh => exact tanh_served wide pos few
  | sigmoid => exact sigmoid_served wide pos few

/-! The reciprocal, and exact logarithms. -/

/-- A correctly rounded positive number with a sign, against the signed number. -/
theorem RoundsTo.near_signed {f : Fmt} {rm : BitVec 3} {neg : Bool} {x : ℚ} {r : ℕ × Flags} (h : RoundsTo f rm neg x r) (pos : 0 < x) (fits : r.2 &&& fOF = 0) :
    (f.decode r.1).finite ∧ |((f.decode r.1).val : ℝ) - signedReal neg x| ≤ roundingReach rm * f.ulp (signedReal neg x) := by
  obtain ⟨m, e, decoded, near⟩ := h.near fits
  have pos' : (0 : ℝ) < x := by exact_mod_cast pos
  have ulp : f.ulp (signedReal neg x) = f.spacing x := by
    unfold Fmt.ulp Fmt.spacing
    rw [abs_signedReal, abs_of_pos pos', log_ratCast pos]
    push_cast
    rfl
  have distance : |signedReal neg (m * 2 ^ e) - signedReal neg x| = |(m : ℝ) * 2 ^ e - x| := by
    cases neg with
    | true => rw [signedReal_true, signedReal_true, neg_sub_neg, abs_sub_comm]
    | false => rfl
  have near' := (Rat.cast_le (K := ℝ)).2 near
  push_cast at near'
  rw [decoded, Num.val_fin_real, ulp, distance]
  exact ⟨trivial, near'⟩

theorem signedReal_inv (neg : Bool) (x : ℝ) : signedReal neg (1 / x) = 1 / signedReal neg x := by
  cases neg with
  | true => exact (div_neg 1).symm
  | false => rfl

theorem special8_rcp_near {f : Fmt} (wide : f.Wide) {a : ℕ} {neg : Bool} {m : ℕ} {e : ℤ} (value : f.decode a = .fin neg m e) (pos : 0 < m) (t : Tag)
    {rm : BitVec 3} (fits : (f.special8 .rcp t rm a).2 &&& fOF = 0) :
    (f.decode (f.special8 .rcp t rm a).1).finite ∧ |((f.decode (f.special8 .rcp t rm a).1).val : ℝ) - Special8.rcp.real (signedReal neg (m * 2 ^ e))|
      ≤ roundingReach rm * f.ulp (Special8.rcp.real (signedReal neg (m * 2 ^ e))) := by
  have near := (special8_rcp wide value pos t rm).near_signed (by positivity) fits
  have inverse : signedReal neg ((1 / (m * 2 ^ e) : ℚ) : ℝ) = Special8.rcp.real (signedReal neg (m * 2 ^ e)) := by
    push_cast
    exact signedReal_inv neg _
  rwa [inverse] at near

/-- `vlog2` of a power of two is exact. -/
theorem special8_log2_exact {f : Fmt} (wide : f.Wide) {a m : ℕ} {e : ℤ} (value : f.decode a = .fin false m e) (power : m = 2 ^ Nat.log2 m) (t : Tag)
    (rm : BitVec 3) : (f.decode (f.special8 .log2 t rm a).1).finite ∧ ((f.decode (f.special8 .log2 t rm a).1).val : ℝ) = Real.logb 2 (m * 2 ^ e) := by
  have argument : (m : ℚ) * 2 ^ e = 2 ^ ((Nat.log2 m : ℤ) + e) := by
    rw [zpow_add₀ two_ne_zero, zpow_natCast]
    exact congrArg (· * (2 : ℚ) ^ e) (by exact_mod_cast power)
  obtain ⟨c, fits, size, result⟩ := special8_log2 wide value (k := Nat.log2 m + e) (by rw [Num.val_fin, if_neg Bool.false_ne_true, one_mul, argument]) t rm
  obtain ⟨finite, val⟩ := wide.sound.val_code fits (decide ((Nat.log2 m : ℤ) + e < 0))
  rw [result]
  refine ⟨finite, ?_⟩
  have argument' := congrArg (Rat.cast : ℚ → ℝ) argument
  push_cast at argument'
  rw [val, size, ← signedNat_cast, signedNat_natAbs, argument', ← Real.rpow_intCast, Real.logb_rpow two_pos one_lt_two.ne']
  exact Rat.cast_intCast _

/-! The bounds of the table. -/

/-- The bound of Table 10-9 for an argument x, and that of R228. -/
noncomputable def Special8.allowance (fn : Special8) (f : Fmt) (rm : BitVec 3) (x : ℚ) : ℝ :=
  if f.w ≤ 16 ∨ fn = .rcp then (if rm = rmRNE then 1 / 2 else 1)
  else match fn with
    | .sin | .cos => if |x| ≤ 2 ^ 20 then 2 else 4
    | .tanh | .sigmoid => 2
    | _ => 1

theorem roundingReach_cast (rm : BitVec 3) : (roundingReach rm : ℝ) = if rm = rmRNE then 1 / 2 else 1 := by
  unfold roundingReach
  split_ifs <;> norm_num

/-- The wider bound of the sine and the cosine is for arguments above 2^20 only. -/
theorem above_million {m : ℕ} {e : ℤ} (pos : 0 < m) (h : large m e 21 = true ∨ (large m e 20 = true ∧ m ≠ 2 ^ Nat.log2 m)) (neg : Bool) :
    ¬ |(Num.fin neg m e).val| ≤ 2 ^ 20 := by
  rw [Num.abs_val_fin, not_le]
  have log : (2 : ℚ) ^ ((Nat.log2 m : ℤ) + e) = 2 ^ Nat.log2 m * 2 ^ e := by rw [zpow_add₀ two_ne_zero, zpow_natCast]
  have least : (2 : ℚ) ^ Nat.log2 m ≤ m := by exact_mod_cast Nat.log2_self_le pos.ne'
  have unit : (0 : ℚ) < 2 ^ e := by positivity
  unfold large at h
  rw [decide_eq_true_iff, decide_eq_true_iff] at h
  obtain more | ⟨reached, other⟩ := h
  · calc (2 : ℚ) ^ 20 < 2 ^ (21 : ℤ) := by norm_num
      _ ≤ 2 ^ ((Nat.log2 m : ℤ) + e) := zpow_le_zpow_right₀ one_le_two more
      _ ≤ m * 2 ^ e := by rw [log]; gcongr
  · have strict : (2 : ℚ) ^ Nat.log2 m < m := lt_of_le_of_ne least (by exact_mod_cast other.symm)
    calc (2 : ℚ) ^ 20 = 2 ^ (20 : ℤ) := by norm_num
      _ ≤ 2 ^ ((Nat.log2 m : ℤ) + e) := zpow_le_zpow_right₀ one_le_two reached
      _ < m * 2 ^ e := by rw [log]; gcongr

/-- The bound that the model keeps is within that of the table. -/
theorem deliveryBound_le (fn : Special8) (f : Fmt) (rm : BitVec 3) {m : ℕ} {e : ℤ} (pos : 0 < m) (neg : Bool) :
    deliveryBound rm (fn.bound f m e) ≤ fn.allowance f rm (Num.fin neg m e).val := by
  unfold Special8.bound Special8.allowance deliveryBound
  by_cases rounded : f.w ≤ 16 ∨ fn = .rcp
  · rw [if_pos rounded, if_pos rounded, if_pos rfl, roundingReach_cast]
  rw [if_neg rounded, if_neg rounded]
  have turns : ((if large m e 21 = true ∨ (large m e 20 = true ∧ m ≠ 2 ^ Nat.log2 m) then 4 else 2 : ℕ) : ℝ)
      ≤ if |(Num.fin neg m e).val| ≤ 2 ^ 20 then 2 else 4 := by
    by_cases h : large m e 21 = true ∨ (large m e 20 = true ∧ m ≠ 2 ^ Nat.log2 m)
    · rw [if_pos h, if_neg (above_million pos h neg)]
      norm_num
    · rw [if_neg h]
      split_ifs <;> norm_num
  have some : (if large m e 21 = true ∨ (large m e 20 = true ∧ m ≠ 2 ^ Nat.log2 m) then 4 else 2 : ℕ) ≠ 0 := by split_ifs <;> norm_num
  cases fn with
  | sin | cos => exact (if_neg some).trans_le turns
  | tanh | sigmoid => exact (if_neg two_ne_zero).trans_le (by norm_num)
  | exp2 | exp | log2 | rsqrt | rcp => exact (if_neg one_ne_zero).trans_le (by norm_num)

/-- What a special function delivers of a finite value lies within the bound of the value of the function (R227, R228). -/
theorem special8_near {f : Fmt} (wide : f.Wide) (fn : Special8) {a : ℕ} {neg : Bool} {m : ℕ} {e : ℤ} (value : f.decode a = .fin neg m e) (pos : 0 < m) (t : Tag)
    {rm : BitVec 3} (domain : fn = .log2 ∨ fn = .rsqrt → neg = false) (fits : (f.special8 fn t rm a).2 &&& fOF = 0) :
    (f.decode (f.special8 fn t rm a).1).finite ∧ |((f.decode (f.special8 fn t rm a).1).val : ℝ) - fn.real (signedReal neg (m * 2 ^ e))|
      ≤ (deliveryBound rm (fn.bound f m e) + 2 ^ (-100 : ℤ)) * f.ulp (fn.real (signedReal neg (m * 2 ^ e))) := by
  have unit := f.ulp_pos (fn.real (signedReal neg (m * 2 ^ e)))
  have slack : (0 : ℝ) ≤ 2 ^ (-100 : ℤ) := by positivity
  by_cases reciprocal : fn = .rcp
  · subst reciprocal
    obtain ⟨finite, near⟩ := special8_rcp_near wide value pos t fits
    have reach : deliveryBound rm (Special8.rcp.bound f m e) = roundingReach rm := if_pos (if_pos (.inr rfl))
    rw [reach]
    exact ⟨finite, near.trans (mul_le_mul_of_nonneg_right (le_add_of_nonneg_right slack) unit.le)⟩
  by_cases exact_ : fn = .log2 ∧ m = 2 ^ Nat.log2 m
  · obtain ⟨rfl, power⟩ := exact_
    obtain rfl := domain (.inl rfl)
    obtain ⟨finite, same⟩ := special8_log2_exact wide value power t rm
    have bound : 0 ≤ deliveryBound rm (Special8.log2.bound f m e) := by
      unfold deliveryBound
      rw [roundingReach_cast]
      split_ifs <;> positivity
    refine ⟨finite, ?_⟩
    rw [same]
    change |Real.logb 2 (m * 2 ^ e) - Real.logb 2 (m * 2 ^ e)| ≤ _
    rw [sub_self, abs_zero]
    exact mul_nonneg (add_nonneg bound slack) unit.le
  rw [special8_fin value pos fn t rm domain] at fits ⊢
  obtain ⟨few, top⟩ := wide.units value
  have served := fits
  rw [deliverApprox_flags] at served
  obtain ⟨x, serves⟩ := Special8.served wide pos few top reciprocal (fun h power => exact_ ⟨h, power⟩) domain served
  exact serves.deliver wide.sound fn t _ fits

end Sys2Proof.Machine

open Sys2Proof.Machine in
/-- Settles O8: what is computed is near the value of the function, by its series and the distance of every argument from where the series would cross a power of
two, and what is delivered is within the bound of what is computed. -/
theorem specialFunctionsMeetTheirBounds : Obligations.SpecialFunctionsMeetTheirBounds := by
  unfold Obligations.SpecialFunctionsMeetTheirBounds
  intro fn t f rm a wideTag format _ _ _ x y r bound finite nonzero positive fits
  have wide := fmtOf_wide wideTag format
  obtain ⟨neg, m, e, value⟩ := Num.finite_iff.1 finite
  change f.decode a = _ at value
  have pos : 0 < m := Nat.pos_of_ne_zero fun h => nonzero ((congrArg Num.val value).trans (Num.val_fin_eq_zero.2 h))
  have domain : fn = .log2 ∨ fn = .rsqrt → neg = false := fun h => by
    rw [← Num.val_fin_neg (neg := neg) pos e, ← value]
    exact decide_eq_false (not_lt.2 (positive h).le)
  have argument : y = fn.real (signedReal neg (m * 2 ^ e)) := by rw [← Num.val_fin_real, ← value]
  have table : bound = fn.allowance f rm (Num.fin neg m e).val := by
    rw [← value]
    cases fn with
    | _ => rfl
  obtain ⟨finite', near⟩ := special8_near wide fn value pos t domain fits
  refine ⟨finite', ?_⟩
  rw [argument, table]
  exact near.trans (mul_le_mul_of_nonneg_right (add_le_add_left (deliveryBound_le fn f rm pos neg) _) (f.ulp_pos _).le)

end
